-- ==== Sys2Proof/Word.lean ====
section
/-! DEFINITION. The words the Ranez computes with and their plainest arithmetic. Bit 0 is the least significant
bit of every word, and multi-byte values are little-endian (00_scope.md R5). -/

namespace Sys2Proof

/-- A byte of memory. -/
abbrev Byte := BitVec 8

/-- An instruction word, a lane, a register of 32 bits (R5, R30). -/
abbrev Word := BitVec 32

/-- A 64-bit scalar, an address token, a dword of a record (R5, R236). -/
abbrev Dword := BitVec 64

/-- The 64 bytes of a token or of a register: 16 lanes of 32 bits, lane 0 lowest (R5, R41). -/
abbrev Payload := BitVec 512

/-- The `w` bits of the number `n` from bit `lo` upward. -/
def fld (n lo w : Nat) : Nat := n / 2 ^ lo % 2 ^ w

end Sys2Proof
end

