-- ==== Sys2Proof/Config.lean ====
section
/-! DEFINITION. What the manual leaves to the implementation or leaves open, as constants without a body, so that no
proof can see a value of them; and the fixed dimensions of the part (00_scope.md R1). -/

namespace Sys2Proof.Config

/-! ### Free values (assumption log 10) -/

/-- Energy in pJ that a page uses in a master cycle (R217, R429, R430: the page power model is not given). -/
opaque pageEnergy : Nat → Nat → Nat

/-- Page power in W at ratio p/q and voltage in mV (R429: the page power model is not given). -/
opaque pagePower : Nat → Nat → Nat → Nat

/-- Whether an ASCAT of an untyped object adds as FP32: its word does not say (R282; log 11). -/
opaque ascatFloat : Bool

/-- The rounding of FEXP2 and FLOG2 where the interval of the evaluation does not decide it (R136; log 12). -/
opaque functionTie : Nat → Bool

/-- The memory key that the random source gives as the `k`-th partition is enabled, a pair of 256-bit AES keys (R419, R423). -/
opaque memoryKey : Nat → BitVec 512

/-- ML-DSA-87 verification of a signature over a digest under a public key (R445, R457). -/
opaque mldsaVerify : List (BitVec 8) → List (BitVec 8) → List (BitVec 8) → Bool

/-- Whether bytes are a well-formed ML-DSA-87 public key (R444). -/
opaque mldsaKeyOk : List (BitVec 8) → Bool

/-- The ML-DSA-87 signature of the part's identity key over a digest (R461). -/
opaque mldsaSign : List (BitVec 8) → List (BitVec 8)

/-- Digest of the identity public key (R461). -/
opaque identityDigest : List (BitVec 8)

/-- Whether a memory or link device answers: a peer that refuses a link transfer (R319, code 0x64). -/
opaque peerRefuses : Nat → Bool

/-- Byte `i` that a peer part returns for a link get of an address token, at a moment (R316: the peer's memory is outside the
part). -/
opaque peerByte : Nat → Nat → Nat → Nat → BitVec 8

/-- Lane `k` of what TDSC emits for an item of the flat object, which has no descriptor (R242, R370; log 20). -/
opaque flatDescriptor : Nat → Nat → Nat

/-- Byte `i` of what the part writes into a save area, at a moment (R337 gives its size, not its layout). -/
opaque savedByte : Nat → Nat → BitVec 8

/-- Whether the add of a lane of an ASCAT that a reset ends is applied (R425: each is, or is not). -/
opaque resetLane : Nat → Nat → Bool

/-- How many further pieces of an engine entry in flight are performed as a reset ends it (R425). -/
opaque resetPieces : Nat → Nat

/-- The step but step 2 at which a start fails, 1 to 7; any other value is a start of which none fails (R457). -/
opaque startCode : Nat → Nat

/-- Elements of a page that pass the self-test of a cold start, bit by bit (R457). -/
opaque selfTest : Nat → Nat → BitVec 16

/-- SRAM banks of a page that fail the self-test of a cold start: each with its place, an element of the page by its bit or 16 for the page's
slice, and its number there (R457). -/
opaque failedBanks : Nat → Nat → List (Nat × Nat)

/-- What the monitors of a page measure for entry `k` of its margin plan, in steps of 4 mV above 500 mV; above 0x96, unreachable
(R197, R457). -/
opaque marginCode : Nat → Nat → Nat → Nat

/-- Whether a page fails the check of its stored plan at a warm start (R457). -/
opaque planFails : Nat → Nat → Bool

/-- Idle power in W as a start measures it (R426). -/
opaque idlePower : Nat → BitVec 16

/-- Security version in the fuses (R460). -/
opaque fuseSvn : BitVec 32

/-- Where management memory holds the list of what is out of use (R460). -/
opaque failList : Nat → BitVec 64

/-- The list of what is out of use as bytes, from the device indices of elements and of pages, and the banks, each by its page, its place there
and its number: its layout is not given (R457, R460). -/
opaque failBytes : List Nat → List Nat → List (Nat × Nat × Nat) → List (BitVec 8)

/-- Whether the ML-DSA-87 signature of a firmware image verifies, and its digest: the image's layout is not given (R457, R459). -/
opaque firmwareOk : List (BitVec 8) → Bool
opaque firmwareDigest : List (BitVec 8) → List (BitVec 8)

/-! ### Dimensions (R1) -/

/-- Columns and rows of the device's element grid (R315). -/
def gridSide : Nat := 64
/-- Columns and rows of the device's page grid (R216). -/
def pageSide : Nat := 16
/-- Partition table entries (R419). -/
def partitions : Nat := 32
/-- Master cycles over which the current heat of a page is taken, and the window's energy in pJ at 1/16 W: 2^20 cycles at 1.6 GHz are 655.36 µs
(R1, R217). -/
def heatSpan : Nat := 2 ^ 20
def heatUnit : Nat := 40960000
/-- pJ in a µJ, the unit of the meters (R430). -/
def picoPerMicro : Nat := 1000000
/-- Lanes of an element (R1). -/
def lanes : Nat := 16
/-- Instruction slots of a context (R23). -/
def slots : Nat := 64
/-- Input-buffer slots of an element (R157). -/
def inputSlots : Nat := 64
/-- Bytes of an element's pool (R101). -/
def poolBytes : Nat := 393216
/-- Host physical addresses below this lie in the CXL pool window of 64 TiB (R1, R422; log 16). -/
def poolTop : Nat := 2 ^ 46
/-- Sets of a slice, ways of a set, bytes of a line (R259). -/
def sliceSets : Nat := 8192
def sliceWays : Nat := 16
def lineBytes : Nat := 128
/-- Pinned lines that a set may hold (R266). -/
def pinLimit : Nat := 12
/-- Translations a requester and a slice cache, descriptors a requester and a slice cache (R244, R246). -/
def requesterXlats : Nat := 8
def sliceXlats : Nat := 4096
def requesterDescs : Nat := 2
def sliceDescs : Nat := 256
/-- ATS requests a depot may have outstanding (R248). -/
def atsLimit : Nat := 64
/-- Version directory entries of a slice and live versions of a line (R268, R269). -/
def versionEntries : Nat := 2048
def liveVersions : Nat := 4
/-- Entries of a device append buffer (R235, R314, R327). -/
def appendEntries : Nat := 16
/-- Waiting records of a signal box (R332). -/
def waitingRecords : Nat := 4
/-- Sustained power with no cap (R426). -/
def tdpWatts : Nat := 2800

end Sys2Proof.Config
end

