-- ==== Sys2Proof/Syntax.lean ====
section
/-! DEFINITION. The instruction set as syntax: one constructor for each row of spec/opcode_table.json. The first
part holds the instruction words (02_encoding.md R34 to R54); the second the device events, which the table lists
as the part's steps, each whole and indivisible. -/

namespace Sys2Proof

/-- The predicate-match field (R37); 0b11 is malformed and has no constructor. -/
inductive Pm where
  | none | t | f
deriving DecidableEq, Repr

/-- The operand ports of a slot (R38). -/
inductive Port where
  | l | r | t | p
deriving DecidableEq, Repr

/-- A consumer target (R38). -/
inductive Tgt where
  | slot (s : BitVec 6) (q : Port)
  | out (o : BitVec 3)
  | done
  | none
deriving DecidableEq, Repr

/-- Where a long-latency producer delivers: a consumer target, or a register in register form (R271). -/
inductive Dst where
  | tgt (a : Tgt)
  | reg (v : BitVec 9)
deriving DecidableEq, Repr

/-- Shape of an integer or float instruction (R44). -/
inductive Shape where
  | s | d | v | h
deriving DecidableEq, Repr

/-- Conditions of CMP and CMPI (R46). -/
inductive Cond where
  | eq | ne | lt | le | gt | ge | ltu | leu | gtu | geu
deriving DecidableEq, Repr

/-- Formats of the float instructions (R45). -/
inductive FFmt where
  | f32 | bf16 | f16
deriving DecidableEq, Repr

/-- The format codes of CVT and of the tile tag (R50, R356). -/
inductive Fmt where
  | fp32 | bf16 | fp16 | e4m3 | e5m2 | int8 | int16 | int32 | ps8
deriving DecidableEq, Repr

/-- Rounding modes (R86). -/
inductive Rm where
  | rne | rtz | rdn | rup
deriving DecidableEq, Repr

/-- Operations of RED and SCAN (R149). -/
inductive RedOp where
  | add | fadd | min | max | minu | maxu | fmin | fmax | and | or | xor
deriving DecidableEq, Repr

/-- Access widths (R48). -/
inductive Width where
  | b1 | b2 | b4 | b8
deriving DecidableEq, Repr

/-- Scopes, one for each tier of memory (R3, R48). -/
inductive Scope where
  | elem | page | depot | dev | sys
deriving DecidableEq, Repr

/-- Memory orders (R48). -/
inductive Ord where
  | rlx | acq | rel | ar
deriving DecidableEq, Repr

/-- Memory paths (R49, R291). -/
inductive Path where
  | ep | ce | gs | tf | lk
deriving DecidableEq, Repr

/-- A running launch of a partition, named by its queue and its place in the queue's completions (R222). -/
structure LaunchRef where
  n : Nat
  q : Nat
  seq : Nat
deriving DecidableEq, Repr

/-- A region of a running launch. -/
structure RegionRef where
  l : LaunchRef
  k : Nat
deriving DecidableEq, Repr

/-- Where a machine check is raised (R335): an element, or the slice of a page. -/
inductive McSite where
  | elem (e : Nat)
  | slice (page : Nat)
deriving DecidableEq, Repr

/-- Whose register a register write names: a partition's register page (R424), its management registers (R419,
R427, R444), or the device's management registers (R426, R454). -/
inductive RegSite where
  | page (n : Nat)
  | table (n : Nat)
  | device
deriving DecidableEq, Repr

/-- A host access to registers: whose they are, and the width of the access in bytes (R424). -/
structure RegAccess where
  site : RegSite
  width : Nat
deriving DecidableEq, Repr

/-- Every row of spec/opcode_table.json: the instruction words, then the events, those of starts and alarms last. In an instruction word `p` is the predicate match and `a`,
`b` are the targets ta and tb; the other letters are the table's field letters. In an event `n` is a partition, `e`
an element of the device grid (64 * row + column), `g` an engine code, and the other arguments are what the outside
world supplies. -/
inductive Instr where
  /-- ADD (R116): Adds the elements at L and R modulo 2^w. -/
  | add (p : Pm) (sh : Shape) (u : Bool) (a : Tgt) (b : Tgt)
  /-- SUB (R116): Subtracts R from L element by element modulo 2^w. -/
  | sub (p : Pm) (sh : Shape) (u : Bool) (a : Tgt) (b : Tgt)
  /-- MUL (R116): Writes the low w bits of the product of L and R. -/
  | mul (p : Pm) (sh : Shape) (u : Bool) (a : Tgt) (b : Tgt)
  /-- MULH (R116): Writes the high w bits of the 2w-bit product of L and R. -/
  | mulh (p : Pm) (sh : Shape) (u : Bool) (a : Tgt) (b : Tgt)
  /-- MAD (R118): Writes the low w bits of L times R plus T. -/
  | mad (p : Pm) (sh : Shape) (u : Bool) (a : Tgt) (b : Tgt)
  /-- DIV (R117): Divides L by R, truncating toward zero, on the divider. -/
  | div (p : Pm) (sh : Shape) (u : Bool) (a : Tgt) (b : Tgt)
  /-- REM (R117): Writes the remainder of L divided by R, with the sign of L. -/
  | rem (p : Pm) (sh : Shape) (u : Bool) (a : Tgt) (b : Tgt)
  /-- AND (R116): Bitwise AND of L and R. -/
  | and_ (p : Pm) (sh : Shape) (u : Bool) (a : Tgt) (b : Tgt)
  /-- OR (R116): Bitwise OR of L and R. -/
  | or_ (p : Pm) (sh : Shape) (u : Bool) (a : Tgt) (b : Tgt)
  /-- XOR (R116): Bitwise XOR of L and R. -/
  | xor (p : Pm) (sh : Shape) (u : Bool) (a : Tgt) (b : Tgt)
  /-- ANDN (R116): Bitwise L AND NOT R. -/
  | andn (p : Pm) (sh : Shape) (u : Bool) (a : Tgt) (b : Tgt)
  /-- SHL (R116): Shifts L left by R mod w, zero-filled. -/
  | shl (p : Pm) (sh : Shape) (u : Bool) (a : Tgt) (b : Tgt)
  /-- SHR (R116): Shifts L right by R mod w, zero-filled. -/
  | shr (p : Pm) (sh : Shape) (u : Bool) (a : Tgt) (b : Tgt)
  /-- SRA (R116): Shifts L right by R mod w, sign-filled. -/
  | sra (p : Pm) (sh : Shape) (u : Bool) (a : Tgt) (b : Tgt)
  /-- ROL (R116): Rotates L left by R mod w. -/
  | rol (p : Pm) (sh : Shape) (u : Bool) (a : Tgt) (b : Tgt)
  /-- MIN (R116): Lesser of L and R, signed or unsigned. -/
  | min (p : Pm) (sh : Shape) (u : Bool) (a : Tgt) (b : Tgt)
  /-- MAX (R116): Greater of L and R, signed or unsigned. -/
  | max (p : Pm) (sh : Shape) (u : Bool) (a : Tgt) (b : Tgt)
  /-- ABS (R119): Absolute value of each element of L. -/
  | abs (p : Pm) (sh : Shape) (u : Bool) (a : Tgt) (b : Tgt)
  /-- NEG (R119): Negates each element of L modulo 2^w. -/
  | neg (p : Pm) (sh : Shape) (u : Bool) (a : Tgt) (b : Tgt)
  /-- CLZ (R119): Counts leading zero bits of each element of L. -/
  | clz (p : Pm) (sh : Shape) (u : Bool) (a : Tgt) (b : Tgt)
  /-- POPC (R119): Counts one bits of each element of L. -/
  | popc (p : Pm) (sh : Shape) (u : Bool) (a : Tgt) (b : Tgt)
  /-- BREV (R119): Reverses the bits of each element of L. -/
  | brev (p : Pm) (sh : Shape) (u : Bool) (a : Tgt) (b : Tgt)
  /-- BFX (R120): Extracts a bit field of L under the control at R. -/
  | bfx (p : Pm) (sh : Shape) (u : Bool) (a : Tgt) (b : Tgt)
  /-- BFI (R120): Inserts the field R into base L under the control at T. -/
  | bfi (p : Pm) (sh : Shape) (u : Bool) (a : Tgt) (b : Tgt)
  /-- CMP (R122): Compares lane 0 of L and R and emits a condition token. -/
  | cmp (p : Pm) (c : Cond) (a : Tgt) (b : Tgt)
  /-- SEL (R123): Emits the token at L or R by the truth of T. -/
  | sel (p : Pm) (a : Tgt) (b : Tgt)
  /-- SAT (R121): Saturating add or subtract of L and R, raising ST on clamp. -/
  | sat (p : Pm) (sh : Shape) (o : Bool) (u : Bool) (a : Tgt) (b : Tgt)
  /-- MOV (R124): Copies the token at L to both targets, keeping its kind. -/
  | mov (p : Pm) (sh : Shape) (u : Bool) (a : Tgt) (b : Tgt)
  /-- NUL (R125): Emits a null token to each target once per firing. -/
  | nul (p : Pm) (a : Tgt) (b : Tgt)
  /-- ADDR (R126): Builds an address token from a tid and an offset. -/
  | addr (p : Pm) (u : Bool) (a : Tgt) (b : Tgt)
  /-- AOFF (R126): Adds a signed offset to an address token. -/
  | aoff (p : Pm) (u : Bool) (a : Tgt) (b : Tgt)
  /-- AIDX (R126): Adds index times stride to an address token. -/
  | aidx (p : Pm) (u : Bool) (a : Tgt) (b : Tgt)
  /-- ADDI (R127): Adds a sign-extended immediate to every lane. -/
  | addi (p : Pm) (i : BitVec 13) (a : Tgt)
  /-- ANDI (R127): ANDs every lane with an immediate. -/
  | andi (p : Pm) (i : BitVec 13) (a : Tgt)
  /-- ORI (R127): ORs every lane with an immediate. -/
  | ori (p : Pm) (i : BitVec 13) (a : Tgt)
  /-- XORI (R127): XORs every lane with an immediate. -/
  | xori (p : Pm) (i : BitVec 13) (a : Tgt)
  /-- SHLI (R127): Shifts every lane left by an immediate amount. -/
  | shli (p : Pm) (n : BitVec 5) (a : Tgt)
  /-- SHRI (R127): Shifts every lane right by an immediate amount, zero-filled. -/
  | shri (p : Pm) (n : BitVec 5) (a : Tgt)
  /-- SRAI (R127): Shifts every lane right by an immediate amount, sign-filled. -/
  | srai (p : Pm) (n : BitVec 5) (a : Tgt)
  /-- CMPI (R127): Compares lane 0 of L with an immediate and emits a condition token. -/
  | cmpi (p : Pm) (c : Cond) (v : BitVec 9) (a : Tgt)
  /-- MOVI (R127): Emits the sign-extended immediate in every lane once per firing. -/
  | movi (p : Pm) (i : BitVec 13) (a : Tgt)
  /-- MOVHI (R127): Replaces the upper 13 bits of every lane with the immediate. -/
  | movhi (p : Pm) (i : BitVec 13) (a : Tgt)
  /-- LITW (R128): Emits the 32-bit constant of the following slot in every lane. -/
  | litw (p : Pm) (a : Tgt) (k : BitVec 32)
  /-- MULI (R127): Multiplies every lane by a sign-extended immediate. -/
  | muli (p : Pm) (i : BitVec 13) (a : Tgt)
  /-- GET (R129): Emits the contents of register vN, waiting or trapping if it is not full. -/
  | get (p : Pm) (n : BitVec 8) (x : Bool) (a : Tgt)
  /-- PUT (R129): Writes L into register vN and sets it full. -/
  | put (p : Pm) (n : BitVec 8) (a : Tgt)
  /-- GETX (R129): Emits register vN plus an index taken from L. -/
  | getx (p : Pm) (n : BitVec 8) (x : Bool) (a : Tgt)
  /-- PUTX (R129): Writes R into register vN plus an index taken from L. -/
  | putx (p : Pm) (n : BitVec 8) (a : Tgt)
  /-- REMPTY (R129): Emits the prior full bit of vN and marks the register empty. -/
  | rempty (p : Pm) (n : BitVec 8) (a : Tgt)
  /-- RFULL (R129): Emits the full bit of vN as a condition token. -/
  | rfull (p : Pm) (n : BitVec 8) (a : Tgt)
  /-- FADD (R135): Floating-point addition rounded to the instruction's format. -/
  | fadd (p : Pm) (sh : Shape) (f : FFmt) (a : Tgt) (b : Tgt)
  /-- FSUB (R135): Floating-point subtraction. -/
  | fsub (p : Pm) (sh : Shape) (f : FFmt) (a : Tgt) (b : Tgt)
  /-- FMUL (R135): Floating-point multiplication. -/
  | fmul (p : Pm) (sh : Shape) (f : FFmt) (a : Tgt) (b : Tgt)
  /-- FMA (R135): Fused multiply-add rounded once. -/
  | fma (p : Pm) (sh : Shape) (f : FFmt) (a : Tgt) (b : Tgt)
  /-- FMIN (R137): Floating-point minimum with NaN preferring the other operand. -/
  | fmin (p : Pm) (sh : Shape) (f : FFmt) (a : Tgt) (b : Tgt)
  /-- FMAX (R137): Floating-point maximum with NaN preferring the other operand. -/
  | fmax (p : Pm) (sh : Shape) (f : FFmt) (a : Tgt) (b : Tgt)
  /-- FABS (R138): Clears the sign bit of each element. -/
  | fabs (p : Pm) (sh : Shape) (f : FFmt) (a : Tgt) (b : Tgt)
  /-- FNEG (R138): Inverts the sign bit of each element. -/
  | fneg (p : Pm) (sh : Shape) (f : FFmt) (a : Tgt) (b : Tgt)
  /-- FCMP (R139): Writes a relation code for each element pair. -/
  | fcmp (p : Pm) (sh : Shape) (f : FFmt) (a : Tgt) (b : Tgt)
  /-- FCLASS (R140): Writes a one-hot class mask for each element. -/
  | fclass (p : Pm) (sh : Shape) (f : FFmt) (a : Tgt) (b : Tgt)
  /-- FRCP (R136): Correctly rounded reciprocal. -/
  | frcp (p : Pm) (sh : Shape) (f : FFmt) (a : Tgt) (b : Tgt)
  /-- FRSQ (R136): Correctly rounded reciprocal square root. -/
  | frsq (p : Pm) (sh : Shape) (f : FFmt) (a : Tgt) (b : Tgt)
  /-- FEXP2 (R136): Correctly rounded base-2 exponential. -/
  | fexp2 (p : Pm) (sh : Shape) (f : FFmt) (a : Tgt) (b : Tgt)
  /-- FLOG2 (R136): Correctly rounded base-2 logarithm. -/
  | flog2 (p : Pm) (sh : Shape) (f : FFmt) (a : Tgt) (b : Tgt)
  /-- FSQRT (R135): Floating-point square root. -/
  | fsqrt (p : Pm) (sh : Shape) (f : FFmt) (a : Tgt) (b : Tgt)
  /-- FDIV (R135): Floating-point division. -/
  | fdiv (p : Pm) (sh : Shape) (f : FFmt) (a : Tgt) (b : Tgt)
  /-- CVT (R142): Converts each element between formats with a rounding mode, saturation and part. -/
  | cvt (p : Pm) (s : Fmt) (t : Fmt) (k : BitVec 2) (x : Bool) (m : Rm) (a : Tgt)
  /-- CVTI (R143): Converts floats to 32-bit fixed-point integers. -/
  | cvti (p : Pm) (s : Fmt) (f : BitVec 4) (k : BitVec 2) (u : Bool) (m : Rm) (a : Tgt)
  /-- CVTF (R143): Converts 32-bit fixed-point integers to floats. -/
  | cvtf (p : Pm) (t : Fmt) (f : BitVec 4) (x : Bool) (u : Bool) (m : Rm) (a : Tgt)
  /-- SCALE (R144): Multiplies each float element by a power of two and rounds once. -/
  | scale (p : Pm) (s : Fmt) (a : Tgt)
  /-- PACK (R145): Narrows and packs the elements of L and R, optionally saturating. -/
  | pack (p : Pm) (h : BitVec 2) (o : Bool) (u : Bool) (a : Tgt) (b : Tgt)
  /-- UNPACK (R145): Widens the low and high halves of L to the two targets. -/
  | unpack (p : Pm) (h : BitVec 2) (u : Bool) (a : Tgt) (b : Tgt)
  /-- BCAST (R146): Copies one element of L to every element of the result. -/
  | bcast (p : Pm) (w : BitVec 2) (i : BitVec 6) (a : Tgt)
  /-- SHUF (R147): Permutes the elements of L under the control of R. -/
  | shuf (p : Pm) (h : Bool) (a : Tgt) (b : Tgt)
  /-- ROT (R148): Rotates or shifts the 16 lanes up or down. -/
  | rot (p : Pm) (d : Bool) (f : Bool) (n : BitVec 4) (a : Tgt)
  /-- RED (R150): Reduces groups of lanes in a fixed pairwise tree. -/
  | red (p : Pm) (o : RedOp) (g : BitVec 2) (a : Tgt)
  /-- SCAN (R151): Computes an inclusive or exclusive prefix over the lanes. -/
  | scan (p : Pm) (o : RedOp) (e : Bool) (a : Tgt)
  /-- TOPK (R152): Selects the k lanes of greatest magnitude, as values or indices. -/
  | topk (p : Pm) (f : Fmt) (k : BitVec 4) (x : Bool) (a : Tgt)
  /-- LMASK (R153): Writes a lane mask or a count into lane 0. -/
  | lmask (p : Pm) (m : BitVec 2) (a : Tgt)
  /-- COMPACT (R154): Packs the masked elements of L to the low end and emits their count. -/
  | compact (p : Pm) (h : Bool) (a : Tgt) (b : Tgt)
  /-- EXPAND (R154): Spreads the low elements of L to the masked positions and emits the count. -/
  | expand (p : Pm) (h : Bool) (a : Tgt) (b : Tgt)
  /-- DOT (R155): Forms an exact dot product plus T and rounds once to FP32. -/
  | dot (p : Pm) (sh : Shape) (f : FFmt) (a : Tgt) (b : Tgt)
  /-- IN (R164): Takes the next assigned token from input port pN and emits it whole. -/
  | in_ (p : Pm) (n : BitVec 3) (a : Tgt)
  /-- EOS (R166): Emits a condition that is true when the token at L is a selected marker. -/
  | eos (p : Pm) (k : BitVec 2) (a : Tgt)
  /-- EMIT (R167): Emits the token at L with its kind changed to a marker. -/
  | emit (p : Pm) (k : BitVec 2) (a : Tgt)
  /-- BOUND (R172): Builds a bound token for a counter-node level and emits it. -/
  | bound (p : Pm) (l : BitVec 2) (a : Tgt)
  /-- FILT (R169): Routes the record at L to one arm by the truth of T, optionally emitting a condition and tag. -/
  | filt (p : Pm) (g : Bool) (w : Bool) (c : BitVec 3) (f : BitVec 3) (a : Tgt)
  /-- MERGE (R170): Takes one record from the arm that the condition or the expected tag names and emits it. -/
  | merge (p : Pm) (f : BitVec 3) (t : BitVec 3) (g : Bool) (a : Tgt)
  /-- GATE (R168): Emits the token at L when T has the chosen truth, otherwise a null. -/
  | gate (p : Pm) (s : Bool) (a : Tgt)
  /-- MARK (R171): Requests a dusk marker at every region input. -/
  | mark (p : Pm) (a : Tgt)
  /-- DROP (R165): Takes the next assigned token from pN and discards it. -/
  | drop (p : Pm) (n : BitVec 3) (a : Tgt)
  /-- LD (R274): Loads a scalar or vector from memory, emitting it or filling a register. -/
  | ld (p : Pm) (w : Width) (c : Scope) (o : Ord) (x : Bool) (v : Bool) (n : BitVec 2) (d : Dst)
  /-- ST (R275): Stores a scalar or vector to memory, checking tile width. -/
  | st (p : Pm) (w : Width) (c : Scope) (o : Ord) (v : Bool) (n : BitVec 2) (a : Tgt)
  /-- LDV (R279): Loads from a version of a versioned line, waiting for a future version. -/
  | ldv (p : Pm) (w : Width) (c : Scope) (o : Ord) (x : Bool) (v : Bool) (n : BitVec 2) (a : Tgt)
  /-- STV (R279): Makes a new version of a versioned line and emits its number. -/
  | stv (p : Pm) (w : Width) (c : Scope) (o : Ord) (v : Bool) (n : BitVec 2) (a : Tgt)
  /-- RECL (R279): Retires live versions older than v except the newest. -/
  | recl (p : Pm) (c : Scope) (o : Ord) (n : BitVec 2) (a : Tgt)
  /-- LDT (R278): Copies a tile and its tag from memory into scratchpad. -/
  | ldt (p : Pm) (c : Scope) (o : Ord) (n : BitVec 2) (a : Tgt)
  /-- STT (R278): Copies a scratchpad tile and its tag into memory as one unit. -/
  | stt (p : Pm) (c : Scope) (o : Ord) (n : BitVec 2) (a : Tgt)
  /-- PREF (R276): Prefetches a line into the slice without trapping. -/
  | pref (p : Pm) (c : Scope) (o : Ord) (n : BitVec 2) (a : Tgt)
  /-- GATH (R283): Gathers one element per lane through the gather/scatter engine. -/
  | gath (p : Pm) (w : Width) (c : Scope) (o : Ord) (x : Bool) (n : BitVec 2) (d : Dst)
  /-- SCAT (R283): Scatters one element per lane through the gather/scatter engine. -/
  | scat (p : Pm) (w : Width) (c : Scope) (o : Ord) (n : BitVec 2) (a : Tgt)
  /-- AADD (R280): Atomic add returning the old value. -/
  | aadd (p : Pm) (w : Width) (c : Scope) (o : Ord) (n : BitVec 2) (a : Tgt)
  /-- AMIN (R280): Atomic minimum returning the old value. -/
  | amin (p : Pm) (w : Width) (c : Scope) (o : Ord) (x : Bool) (n : BitVec 2) (a : Tgt)
  /-- AMAX (R280): Atomic maximum returning the old value. -/
  | amax (p : Pm) (w : Width) (c : Scope) (o : Ord) (x : Bool) (n : BitVec 2) (a : Tgt)
  /-- AAND (R280): Atomic AND returning the old value. -/
  | aand (p : Pm) (w : Width) (c : Scope) (o : Ord) (n : BitVec 2) (a : Tgt)
  /-- AOR (R280): Atomic OR returning the old value. -/
  | aor (p : Pm) (w : Width) (c : Scope) (o : Ord) (n : BitVec 2) (a : Tgt)
  /-- AXOR (R280): Atomic XOR returning the old value. -/
  | axor (p : Pm) (w : Width) (c : Scope) (o : Ord) (n : BitVec 2) (a : Tgt)
  /-- AXCH (R280): Atomic exchange returning the old value. -/
  | axch (p : Pm) (w : Width) (c : Scope) (o : Ord) (n : BitVec 2) (a : Tgt)
  /-- ACAS (R280): Atomic compare-and-swap returning the old value. -/
  | acas (p : Pm) (w : Width) (c : Scope) (o : Ord) (n : BitVec 2) (a : Tgt)
  /-- AFADD (R280): Atomic FP32 add returning the old value. -/
  | afadd (p : Pm) (w : Width) (c : Scope) (o : Ord) (n : BitVec 2) (a : Tgt)
  /-- ASCAT (R282): Atomically adds each lane of T to an indexed element through the gather/scatter engine. -/
  | ascat (p : Pm) (w : Width) (c : Scope) (o : Ord) (n : BitVec 2) (a : Tgt)
  /-- FENCE (R284): Orders the element's EP accesses as an acquire, release or both at its scope. -/
  | fence (p : Pm) (c : Scope) (o : Ord) (a : Tgt)
  /-- FENCEX (R285): Makes observed writes of one path visible to reads of another path at a scope. -/
  | fencex (p : Pm) (f : Path) (t : Path) (c : Scope) (a : Tgt)
  /-- SPLD (R277): Loads from the element's own scratchpad. -/
  | spld (p : Pm) (w : Width) (c : Scope) (o : Ord) (v : Bool) (a : Tgt)
  /-- SPST (R277): Stores to the element's own scratchpad. -/
  | spst (p : Pm) (w : Width) (c : Scope) (o : Ord) (v : Bool) (a : Tgt)
  /-- FLUSH (R276): Writes back a dirty line and invalidates it. -/
  | flush (p : Pm) (c : Scope) (o : Ord) (n : BitVec 2) (a : Tgt)
  /-- PIN (R286): Fills a line into the slice and adds a pin to it. -/
  | pin (p : Pm) (c : Scope) (o : Ord) (n : BitVec 2) (a : Tgt)
  /-- UNPIN (R286): Removes one pin that this element holds on a line. -/
  | unpin (p : Pm) (c : Scope) (o : Ord) (n : BitVec 2) (a : Tgt)
  /-- BARM (R321): Arms a named barrier with an expected arrival count at its home. -/
  | barm (p : Pm) (n : BitVec 7) (f : Bool) (a : Tgt)
  /-- BARR (R321): Arrives at a named barrier, optionally as a release. -/
  | barr (p : Pm) (n : BitVec 7) (c : Scope) (r : Bool) (f : Bool) (a : Tgt)
  /-- BARW (R321): Waits until a barrier's generation passes g, optionally as an acquire. -/
  | barw (p : Pm) (n : BitVec 7) (c : Scope) (q : Bool) (f : Bool) (a : Tgt)
  /-- BARX (R321): Arrives at a barrier and announces a pending byte count. -/
  | barx (p : Pm) (n : BitVec 7) (c : Scope) (r : Bool) (f : Bool) (a : Tgt)
  /-- SYNI (R323): Initialises a sync word's target and clears its count. -/
  | syni (p : Pm) (a : Tgt)
  /-- SYNW (R323): Waits until a sync word's generation passes g. -/
  | synw (p : Pm) (a : Tgt)
  /-- SYNA (R323): Applies a byte report to a sync word. -/
  | syna (p : Pm) (a : Tgt)
  /-- CHAPP (R324): Fences, copies and appends a command-chain entry to an engine. -/
  | chapp (p : Pm) (k : BitVec 2) (i : BitVec 6) (a : Tgt)
  /-- CHSEQ (R325): Emits an engine's current sequence number. -/
  | chseq (p : Pm) (k : BitVec 2) (i : BitVec 6) (a : Tgt)
  /-- CHWT (R325): Waits until an engine's sequence number reaches s. -/
  | chwt (p : Pm) (k : BitVec 2) (i : BitVec 6) (a : Tgt)
  /-- CHCTL (R326): Pauses, resumes, skips or retries an engine and emits ENSTAT. -/
  | chctl (p : Pm) (k : BitVec 2) (i : BitVec 6) (x : BitVec 2) (a : Tgt)
  /-- TDISP (R327): Releases at .dev and hands a task descriptor to the graph sequencer. -/
  | tdisp (p : Pm) (a : Tgt)
  /-- MMA (R365): Multiplies two unscaled fetch-buffer tiles into an accumulator tile. -/
  | mma (p : Pm) (t : BitVec 9) (z : Bool) (a : Tgt)
  /-- MMAS (R365): Multiplies two block-scaled tiles into an FP32 accumulator tile. -/
  | mmas (p : Pm) (t : BitVec 9) (z : Bool) (a : Tgt)
  /-- MMAP (R365): Multiplies a PS8 tile by an INT8 or FP8 tile into an accumulator tile. -/
  | mmap (p : Pm) (t : BitVec 9) (z : Bool) (a : Tgt)
  /-- ACZ (R366): Zeroes an accumulator tile and sets its type. -/
  | acz (p : Pm) (t : BitVec 9) (y : Bool) (a : Tgt)
  /-- ACRD (R366): Reads one row of an accumulator tile. -/
  | acrd (p : Pm) (t : BitVec 9) (d : Dst)
  /-- ACWR (R366): Writes one row of an accumulator tile. -/
  | acwr (p : Pm) (t : BitVec 9) (a : Tgt)
  /-- ACCV (R367): Converts an accumulator tile and stores it with its tag as one unit. -/
  | accv (p : Pm) (t : BitVec 9) (m : Rm) (x : Bool) (a : Tgt)
  /-- TAGR (R368): Reads a tile's effective tag. -/
  | tagr (p : Pm) (n : BitVec 2) (a : Tgt)
  /-- TAGS (R368): Writes or defaults a tile's tag entry. -/
  | tags (p : Pm) (d : Bool) (n : BitVec 2) (a : Tgt)
  /-- TFCH (R369): Fetches a tile into a fetch buffer and emits its handle. -/
  | tfch (p : Pm) (c : Bool) (r : Bool) (b : BitVec 2) (n : BitVec 2) (a : Tgt)
  /-- TREL (R369): Releases a fetch buffer and its pins. -/
  | trel (p : Pm) (b : BitVec 2) (a : Tgt)
  /-- TDSC (R370): Emits an item of a tensor descriptor. -/
  | tdsc (p : Pm) (i : BitVec 3) (a : Tgt)
  /-- MLOOK (R371): Looks a key up in the method table without dispatching. -/
  | mlook (p : Pm) (a : Tgt)
  /-- PGLD (R395): Loads an object's pattern program into a generator. -/
  | pgld (p : Pm) (n : BitVec 2) (a : Tgt)
  /-- PGST (R396): Starts a forward or transposed enumeration. -/
  | pgst (p : Pm) (d : Bool) (n : BitVec 2) (a : Tgt)
  /-- PGNX (R397): Yields up to eight members of the running enumeration. -/
  | pgnx (p : Pm) (n : BitVec 2) (d : Dst)
  /-- PGSV (R398): Emits a generator's context. -/
  | pgsv (p : Pm) (n : BitVec 2) (a : Tgt)
  /-- PGRS (R398): Restores a generator's context after checking it. -/
  | pgrs (p : Pm) (n : BitVec 2) (a : Tgt)
  /-- SLHB (R400): Walks the AND or OR of two bitmasks from a cursor. -/
  | slhb (p : Pm) (o : Bool) (a : Tgt)
  /-- SLHT (R400): Walks a bit-tree from a cursor. -/
  | slht (p : Pm) (a : Tgt)
  /-- PGQ (R399): Tests whether a coordinate is a member of the loaded pattern. -/
  | pgq (p : Pm) (n : BitVec 2) (a : Tgt)
  /-- PHEND (R232): Contributes a bit to the predicate network and stops further firings in the context. -/
  | phend (p : Pm) (a : Tgt)
  /-- CTXQ (R233): Emits the active context, phase count, last predicate or wavefront count. -/
  | ctxq (p : Pm) (i : BitVec 2) (a : Tgt)
  /-- RATEQ (R208): Reads an item of the Timetable Engine's state for the island. -/
  | rateq (p : Pm) (i : BitVec 4) (a : Tgt)
  /-- SARM (R234): Adds to a section's tile count. -/
  | sarm (p : Pm) (n : BitVec 6) (a : Tgt)
  /-- SWAIT (R234): Waits until a section's tile count is zero and emits its admitted tiles. -/
  | swait (p : Pm) (n : BitVec 6) (a : Tgt)
  /-- LAUNCH (R235): Releases at .dev and appends a launch entry to a queue. -/
  | launch (p : Pm) (q : BitVec 3) (a : Tgt)
  /-- TRAP (R344): Raises a trap of the named class. -/
  | trap (p : Pm) (c : BitVec 4) (a : Tgt)
  /-- BRK (R344): Raises the breakpoint trap. -/
  | brk (p : Pm) (n : BitVec 8) (a : Tgt)
  /-- CSRR (R344): Emits a CSR. -/
  | csrr (p : Pm) (c : BitVec 8) (a : Tgt)
  /-- CSRW (R344): Writes a CSR from L. -/
  | csrw (p : Pm) (c : BitVec 8) (a : Tgt)
  /-- NODEID (R344): Emits the slot's node number, position and context. -/
  | nodeid (p : Pm) (a : Tgt)
  /-- FCNT (R344): Emits a firing or island-cycle count. -/
  | fcnt (p : Pm) (i : BitVec 2) (a : Tgt)
  /-- EQRD (R431): Reads an energy quota value. -/
  | eqrd (p : Pm) (i : BitVec 3) (a : Tgt)
  /-- OBSR (R455): Reads the element's own observation state in full. -/
  | obsr (p : Pm) (i : BitVec 3) (d : Bool) (n : BitVec 3) (a : Tgt)
  /-- HALTR (R347): Ends the launch at the next token boundaries. -/
  | haltr (p : Pm) (a : Tgt)
  /-- LCTAIL_WRITE (R221): Host write of LCTAIL appends launch entries, or sets BACK if it lowers the tail. -/
  | lctailWrite (n v : Nat)
  /-- LCBASE_WRITE (R221): Host write of LCBASE sets the next entry address and lets the launch unit resume after a chain fault. -/
  | lcbaseWrite (n v : Nat)
  /-- TAKE_LAUNCH_ENTRY (R221): The launch unit reads an entry from the chain or the append buffer and queues it, refusing bad wait codes. -/
  | takeLaunchEntry (n : Nat)
  /-- START_ENTRY (R224): The launch unit begins the highest-priority startable queue head and runs its stages. -/
  | startEntry (n : Nat)
  /-- PLACEMENT_RETRY (R218): A head entry that found no placement retries when pages are freed. -/
  | placementRetry (n : Nat)
  /-- WAVEFRONT_ADMISSION (R228): The signal box admits the wavefront once every element holds its share and no phase change is pending. -/
  | wavefrontAdmission (r : RegionRef)
  /-- ELEMENT_SWITCH (R24): An element switches to the new configuration after its final firing of the old one. -/
  | elementSwitch (e : Nat)
  /-- LAUNCH_COMPLETE (R225): A quiet launch completes, writes LOAD and STAGE, increments QSEQ and frees its pages. -/
  | launchComplete (l : LaunchRef)
  /-- FIRING_START (R10): An actor starts a firing when its tokens and output credit are present, assigning tokens and reserving credit. -/
  | firingStart (e : Nat)
  /-- FIRING_COMPLETE (R11): A firing completes when its last slot has issued and its emissions are acknowledged. -/
  | firingComplete (e no : Nat)
  /-- FILL_ARRIVAL (R105): The data of a long-latency producer arrives and the pending register becomes full. -/
  | fillArrival (e v : Nat)
  /-- PHASE_END (R22): When every element has executed PHEND, epilogues run and each element activates its successor context. -/
  | phaseEnd (r : RegionRef)
  /-- BOUND_INPUT_FEED (R226): A bound region input reads the next token from memory and delivers it. -/
  | boundInputFeed (r : RegionRef) (k : Nat)
  /-- BOUND_OUTPUT_DRAIN (R226): A bound region output writes a data token to memory. -/
  | boundOutputDrain (r : RegionRef) (k : Nat)
  /-- JUNCTION_RELEASE (R183): A junction forwards a held token once the producer's writes are visible at its scope. -/
  | junctionRelease (r : RegionRef) (k : Nat)
  /-- COUNTER_NODE_FORWARD (R186): A counter node forwards a token, counts it and inserts markers for completed levels. -/
  | counterNodeForward (r : RegionRef) (k : Nat)
  /-- CORNER_TURN (R188): A corner-turn node takes a row or marker and emits a transposed block when full. -/
  | cornerTurn (r : RegionRef) (k : Nat)
  /-- AGEN_IN_STEP (R288): An in-direction address generator reads one token from memory and delivers it. -/
  | agenInStep (e k : Nat)
  /-- AGEN_OUT_STEP (R287): An out-direction address generator takes an emitted token and writes it to memory. -/
  | agenOutStep (e k : Nat)
  /-- DUSK_MARKER_CUT (R338): An element holding markers on all inputs saves its cut and emits markers. -/
  | duskMarkerCut (e : Nat)
  /-- TRAP_ACTION (R329): The signal box takes a trap, writes a trap record and holds, aborts, freezes or pre-empts the region. -/
  | trapAction (r : RegionRef)
  /-- ROLLBACK (R340): The region is restored from its last complete cut and its inputs are replayed. -/
  | rollback (r : RegionRef)
  /-- MACHINE_CHECK (R335): An uncorrectable error halts the element or slice concerned. -/
  | machineCheck (site : McSite) (bank syn addr : Nat)
  /-- FCCMD_RESUME (R334): Host command that resumes a held or frozen region. -/
  | fccmdResume (n q tseq k : Nat)
  /-- FCCMD_END (R334): Host command that ends a launch with STAGE code 0x58. -/
  | fccmdEnd (n q tseq k : Nat)
  /-- FAULT_RECORD_WRITE (R332): A waiting fault record is written to the ring once room exists. -/
  | faultRecordWrite (n : Nat)
  /-- PREEMPT (R342): The signal box stops a region at generator boundaries and saves it to its save area. -/
  | preempt (r : RegionRef)
  /-- PREEMPTION_TIMEOUT (R342): A region that has not emptied within 2^24 master cycles is returned to its last cut. -/
  | preemptionTimeout (r : RegionRef)
  /-- RESUME_REGION (R203): A pre-empted or swapped-out region resumes at its former ratios. -/
  | resumeRegion (r : RegionRef)
  /-- QUOTA_PERIOD_BOUNDARY (R430): At each quota period boundary, debt is carried and SPENT clears. -/
  | quotaPeriodBoundary (n : Nat)
  /-- ATS_COMPLETION (R247): An ATS translation completion arrives and is stored, discarded or treated as a fault. -/
  | atsCompletion (n iova pa size : Nat) (r w : Bool)
  /-- PAGE_RESPONSE_SUCCESS (R251): A Success response repeats the ATS request and resumes the withheld requesters. -/
  | pageResponseSuccess (n iova : Nat)
  /-- PAGE_RESPONSE_FAILURE (R251): An Invalid Request or Response Failure raises the translation trap at every attached requester. -/
  | pageResponseFailure (n iova code : Nat)
  /-- FAULT_WAIT_EXPIRY (R252): A page request's fault-wait limit expires and replayable regions are drained and swapped out. -/
  | faultWaitExpiry (n iova : Nat)
  /-- DRAIN_RESUME (R436): A drained region is restored from its cut and readmitted after a Success response. -/
  | drainResume (r : RegionRef)
  /-- INVALIDATE_REQUEST (R256): An Invalidate Request drops overlapping translations, drains their accesses and writes back lines. -/
  | invalidateRequest (n lo hi : Nat)
  /-- GLOBAL_INVALIDATE (R256): A Global invalidate acts on every PASID of the function. -/
  | globalInvalidate (n : Nat)
  /-- INVALIDATE_COMPLETION (R256): The Invalidate Completion is sent once the drain has ended. -/
  | invalidateCompletion (n : Nat)
  /-- TTINV_WRITE (R245): Host write of TTINV removes a tid or all tids from the descriptor caches. -/
  | ttinvWrite (n v : Nat)
  /-- TTINV_COMPLETE (R245): BUSY clears once every access that used the old descriptor has been performed. -/
  | ttinvComplete (n : Nat)
  /-- MTINV_WRITE (R372): Host write of MTINV removes cached method entries. -/
  | mtinvWrite (n v : Nat)
  /-- PMINV_WRITE (R381): Host write of PMINV removes cached pattern programs. -/
  | pminvWrite (n v : Nat)
  /-- ENTAIL_WRITE (R314): Host write of ENTAIL appends engine entries, or sets BACK if it lowers the tail. -/
  | entailWrite (n g v : Nat)
  /-- ENBASE_WRITE (R314): Host write of ENBASE sets the next entry address and lets the engine resume after a chain fault. -/
  | enbaseWrite (n g v : Nat)
  /-- TAKE_ENGINE_ENTRY (R314): An engine takes a host or appended entry and assigns its sequence number. -/
  | takeEngineEntry (n g : Nat)
  /-- ENCMD_PAUSE (R326): ENCMD code 0 pauses the engine. -/
  | encmdPause (n g : Nat)
  /-- ENCMD_RESUME (R326): ENCMD code 1 clears PAUSE. -/
  | encmdResume (n g : Nat)
  /-- ENCMD_SKIP (R326): ENCMD code 2 marks a stopped entry skipped and clears STOP. -/
  | encmdSkip (n g : Nat)
  /-- ENCMD_RETRY (R326): ENCMD code 3 restarts a stopped entry and clears STOP. -/
  | encmdRetry (n g : Nat)
  /-- ENGINE_ENTRY_START (R317): An engine starts an entry in sequence order and performs its copy, gather, fill, notify or link transfer. -/
  | engineEntryStart (n g : Nat)
  /-- ENGINE_ENTRY_COMPLETE (R317): An entry completes, reports its bytes, writes STATUS and advances ENSEQ. -/
  | engineEntryComplete (n g q : Nat)
  /-- GSTAIL_WRITE (R375): Host write of GSTAIL appends tasks for the graph sequencer. -/
  | gstailWrite (n v : Nat)
  /-- GSCMD_SKIP (R372): GSCMD code 2 skips a stopped task. -/
  | gscmdSkip (n : Nat)
  /-- GSCMD_RETRY (R372): GSCMD code 3 retries a stopped task. -/
  | gscmdRetry (n : Nat)
  /-- TAKE_TASK (R376): The graph sequencer takes a task, reads its tags and cuts it into pieces. -/
  | takeTask (n : Nat)
  /-- PIECE_START (R376): The sequencer looks up a piece's method, runs conversions and emits its descriptor at p7. -/
  | pieceStart (n q : Nat)
  /-- PIECE_COMPLETE (R376): The sequencer takes a section's o7 token, completing the piece and possibly the task. -/
  | pieceComplete (r : RegionRef)
  /-- HYPERPERIOD_BOUNDARY (R199): At a hyperperiod boundary, sidings report and triggers are evaluated. -/
  | hyperperiodBoundary (l : LaunchRef)
  /-- REGULATOR_SETTLED (R202): A regulator reports that it has settled at its new voltage. -/
  | regulatorSettled (l : LaunchRef) (k : Nat)
  /-- RATE_CHANGE_APPLY (R202): A decided rate change takes effect at a boundary with one paused master cycle. -/
  | rateChangeApply (l : LaunchRef)
  /-- MARGIN_REPLAN (R432): After 2^30 idle island cycles, an island's margin plan is measured again. -/
  | marginReplan (page : Nat) (plan : List (BitVec 8))
  /-- PTCTL_ENABLE (R419): Setting ENABLE creates the partition, reads its policy key and makes its memory key. -/
  | ptctlEnable (n : Nat)
  /-- PTCTL_DISABLE (R419): Clearing ENABLE resets the partition and hides its function. -/
  | ptctlDisable (n : Nat)
  /-- PTCTL_RESET (R425): Writing RESET resets the partition. -/
  | ptctlReset (n : Nat)
  /-- FUNCTION_LEVEL_RESET (R425): A Function Level Reset of the virtual function resets the partition. -/
  | functionLevelReset (n : Nat)
  /-- DVCAP_WRITE (R426): Writing the host cap changes sustained power and lowers ratios to fit. -/
  | dvcapWrite (v : Nat)
  /-- FLQ_REVOKE (R427): Writing REVOKE ends a floor contract and pre-empts its launches. -/
  | flqRevoke (n q : Nat)
  /-- PLCMD_LOAD (R446): Loads, checks and puts in force a signed disclosure policy. -/
  | plcmdLoad (n : Nat)
  /-- BKCMD_WRITE (R443): Applies entries of the break-bit list. -/
  | bkcmdWrite (n v : Nat)
  /-- OCVAL_READ (R454): Reading OCVAL sums the coarsened contributions of the selected class and unit. -/
  | ocvalRead
  /-- REGISTER_WRITE (R424): A write to a register with no behaviour of its own stores its fields. -/
  | registerWrite (site : RegAccess) (off v : Nat)
  /-- GSBASE_WRITE (R375): Host write of GSBASE sets the next task address and lets the graph sequencer resume taking tasks after a chain fault. -/
  | gsbaseWrite (n v : Nat)
  /-- ACCESS_PERFORMED (R255): Memory returns the data of a read, or acknowledges a write, for an element access, gather/scatter request or tile fetch, and the instruction emits its result, completion token or handle. -/
  | accessPerformed (e k : Nat)
  /-- PEER_LINK_TRANSFER (R421): A link put or get from a peer part arrives over the Sheset Link and is translated and performed in the named partition. -/
  | peerLinkTransfer (n tok : Nat) (put : Bool) (data : List (BitVec 8)) (len : Nat)
  /-- COINCIDENT_EDGE (R192): On a master cycle that is an edge of both islands, a siding exchanges state between its sides, making accepted tokens and freed credit visible. -/
  | coincidentEdge (r : RegionRef) (k : Nat)
  /-- MTINV_COMPLETE (R372): BUSY of MTINV clears once the method-entry invalidation has finished. -/
  | mtinvComplete (n : Nat)
  /-- PMINV_COMPLETE (R381): BUSY of PMINV clears once every cached copy of a program has been removed. -/
  | pminvComplete (n : Nat)
  /-- POWER_ON (R457): Applying power makes a cold start. -/
  | powerOn
  /-- RESET_PIN (R457): The board's reset pin makes a warm start. -/
  | resetPin
  /-- STCMD_RESET (R457): Writing STCMD.RESET makes a warm start. -/
  | stcmdReset
  /-- RECOVERY_IMAGE (R459): A firmware image from the management channel is verified and, if valid, stored before a cold start. -/
  | recoveryImage (image : List (BitVec 8))
  /-- ATTESTATION_REQUEST (R461): A nonce request produces a signed attestation report. -/
  | attestationRequest (nonce : List (BitVec 8)) (dst : Nat)
  /-- ALARM_CLASS_1 (R462): A class-1 alarm logs the event, sets ALARM and interrupts the host. -/
  | alarmClass1
  /-- ALARM_CLASS_2 (R462): A class-2 alarm also halts every partition and erases session and memory keys. -/
  | alarmClass2
  /-- ALARM_CLASS_3 (R462): A class-3 alarm also erases the identity seed and forces recovery. -/
  | alarmClass3
  /-- POWER_LOSS (R459): Power is removed, all state except the nonvolatile failed-start count and kept measurements is lost, and an interrupted start leaves its count incremented. -/
  | powerLoss
deriving DecidableEq, Repr

end Sys2Proof
end

