-- ==== Sys2Proof/WellFormed.lean ====
section
/-! DEFINITION. Which instruction terms the Ranez has: the limits that the tables of the encoding chapter and of each
instruction's own entry put on fields that a word could hold (R51, load code 0x06). Checks that need the rest of the
block, the partition word or the graph are the loader's (R65). -/

namespace Sys2Proof

/-- The pairings of format and shape that the float instructions take (R45, R134). -/
def floatShapeOk (sh : Shape) (f : FFmt) : Bool :=
  match f, sh with
  | .f32, .s | .f32, .v | .bf16, .s | .bf16, .h | .f16, .s | .f16, .h => true
  | _, _ => false

/-- The pairings that DOT takes (R155). -/
def dotShapeOk (sh : Shape) (f : FFmt) : Bool :=
  match f, sh with
  | .f32, .v | .bf16, .h | .f16, .h => true
  | _, _ => false

/-- Element width of a format in bits (R77, R81, R356). -/
def Fmt.bits : Fmt → Nat
  | .fp32 | .int32 => 32
  | .bf16 | .fp16 | .int16 => 16
  | .e4m3 | .e5m2 | .int8 | .ps8 => 8

/-- The five floating-point formats (R77). -/
def Fmt.isFloat : Fmt → Bool
  | .fp32 | .bf16 | .fp16 | .e4m3 | .e5m2 => true
  | .int8 | .int16 | .int32 | .ps8 => false

/-- The formats for which a saturation bit of 1 is refused (R142, R143). -/
def Fmt.noSat : Fmt → Bool
  | .fp32 | .bf16 | .fp16 => true
  | _ => false

/-- The parts of a conversion: the ratio of the two element widths (R141). -/
def cvtParts (s t : Fmt) : Nat := if s.bits ≤ t.bits then t.bits / s.bits else s.bits / t.bits

/-- Sign extension is allowed at widths 1 and 2 (R270). -/
def sxOk (x : Bool) (w : Width) : Bool :=
  match x, w with
  | false, _ | true, .b1 | true, .b2 => true
  | true, _ => false

/-- Orders of a load (R270). -/
def loadOrd : Ord → Bool
  | .rlx | .acq => true
  | _ => false

/-- Orders of a store (R270). -/
def storeOrd : Ord → Bool
  | .rlx | .rel => true
  | _ => false

/-- Widths of the atomics (R270). -/
def atomWidth : Width → Bool
  | .b4 | .b8 => true
  | _ => false

/-- Engine names of CHAPP and CHCTL: a copy engine or the link engine (R320). -/
def appendEngineOk (k : BitVec 2) (i : BitVec 6) : Bool :=
  match k.toNat with
  | 0 => true
  | 1 => i == 0
  | _ => false

/-- Engine names of CHSEQ and CHWT (R320). -/
def engineOk (k : BitVec 2) (i : BitVec 6) : Bool :=
  match k.toNat with
  | 0 => true
  | 2 => decide (i.toNat < 8)
  | _ => i == 0

/-- An instruction word's fields are within the tables (R51). Every event is well formed: what the outside world
supplies is judged when it arrives. -/
def Instr.wellFormed : Instr → Bool
  | .fadd _ sh f _ _ | .fsub _ sh f _ _ | .fmul _ sh f _ _ | .fma _ sh f _ _ | .fmin _ sh f _ _ | .fmax _ sh f _ _
  | .fabs _ sh f _ _ | .fneg _ sh f _ _ | .fcmp _ sh f _ _ | .fclass _ sh f _ _ | .frcp _ sh f _ _ | .frsq _ sh f _ _
  | .fexp2 _ sh f _ _ | .flog2 _ sh f _ _ | .fsqrt _ sh f _ _ | .fdiv _ sh f _ _ => floatShapeOk sh f
  | .dot _ sh f _ _ => dotShapeOk sh f
  | .cvt _ s t k x _ _ => s != t && decide (k.toNat < cvtParts s t) && !(x && t.noSat)
  | .cvti _ s _ k _ _ _ => s.isFloat && decide (k.toNat < cvtParts s .int32)
  | .cvtf _ t _ x _ _ _ => (t.isFloat || t == .ps8) && !(x && t.noSat)
  | .scale _ s _ => s == .fp32 || s == .bf16 || s == .fp16
  | .pack _ h _ _ _ _ | .unpack _ h _ _ _ => h != 3
  | .bcast _ w i _ =>
    match w.toNat with
    | 0 => decide (i.toNat < 16)
    | 1 => decide (i.toNat < 32)
    | 2 => true
    | _ => false
  | .topk _ f _ _ _ => f == .fp32 || f == .int32
  | .eos _ k _ => k != 0
  | .emit _ k _ => k == 1 || k == 2
  | .ld _ w _ o x _ _ _ => loadOrd o && sxOk x w
  | .st _ _ _ o _ _ _ => storeOrd o
  | .ldv _ w _ o x _ _ _ => loadOrd o && sxOk x w
  | .stv _ _ _ o _ _ _ => storeOrd o
  | .recl _ _ o _ _ | .pref _ _ o _ _ | .flush _ _ o _ _ | .pin _ _ o _ _ | .unpin _ _ o _ _ => o == .rlx
  | .ldt _ _ o _ _ => loadOrd o
  | .stt _ _ o _ _ => storeOrd o
  | .gath _ w _ o x _ _ => w != .b8 && loadOrd o && sxOk x w
  | .scat _ w _ o _ _ => w != .b8 && storeOrd o
  | .aadd _ w _ _ _ _ | .aand _ w _ _ _ _ | .aor _ w _ _ _ _ | .axor _ w _ _ _ _ | .axch _ w _ _ _ _
  | .acas _ w _ _ _ _ => atomWidth w
  | .amin _ w _ _ _ _ _ | .amax _ w _ _ _ _ _ => atomWidth w
  | .afadd _ w _ _ _ _ => w == .b4
  | .ascat _ w _ o _ _ => w == .b4 && storeOrd o
  | .fence _ _ o _ => o != .rlx
  | .spld _ _ c o _ _ | .spst _ _ c o _ _ => c == .elem && o == .rlx
  | .barm _ n _ _ => decide (n.toNat < 96)
  | .barr _ n c r _ _ | .barw _ n c r _ _ | .barx _ n c r _ _ => decide (n.toNat < 96) && (r || c == .elem)
  | .chapp _ k i _ | .chctl _ k i _ _ => appendEngineOk k i
  | .chseq _ k i _ | .chwt _ k i _ => engineOk k i
  | .tdsc _ i _ => decide (i.toNat < 6)
  | .rateq _ i _ => decide (i.toNat < 7)
  | .trap _ c _ => decide (1 ≤ c.toNat) && decide (c.toNat ≤ 11)
  | .csrr _ c _ => c == 0x00 || c == 0x01 || c == 0x10 || c == 0x11
  | .csrw _ c _ => c == 0x10
  | .fcnt _ i _ => i != 3
  | .eqrd _ i _ => decide (i.toNat < 5)
  | .obsr _ i d n _ =>
    match i.toNat with
    | 0 => true
    | 1 | 2 | 3 => !d && n == 0
    | 4 => !d
    | _ => false
  | _ => true

end Sys2Proof
end

