-- ==== Sys2Proof/Decode.lean ====
section
/-! DEFINITION. From words to instructions, total on any words and rejecting by name, and back. The layouts are those of
02_encoding.md (R34 to R51) and of each instruction's entry; a layout that several instructions share is read by
one function. The order of the rejections within one word is that of R65: the opcode, the predicate match, the target,
then the other fields. -/

namespace Sys2Proof

/-- Why a word is no instruction; the load codes are those of R65. -/
inductive Reject where
  /-- Reserved or malformed opcode (R53, code 0x01). -/
  | opcode
  /-- pm = 0b11 (R37, code 0x05). -/
  | pm
  /-- Malformed target value (R38, code 0x04). -/
  | target
  /-- Unassigned mod, sel, mod5 or imm13 value (R51, code 0x06). -/
  | field
  /-- A LITW without its constant (R36, code 0x08). -/
  | pair
  /-- No word at all. -/
  | empty
deriving DecidableEq, Repr

/-- The load code of a rejection (R65). -/
def Reject.code : Reject → Nat
  | .opcode => 0x01
  | .pm => 0x05
  | .target => 0x04
  | .field => 0x06
  | .pair => 0x08
  | .empty => 0x0D

/-- A field requirement: its breach is an unassigned value. -/
def need (c : Prop) [Decidable c] : Except Reject Unit := if c then .ok () else .error .field

/-! ### Field codes -/

/-- The code of a predicate match (R37). -/
def Pm.code : Pm → Nat
  | .none => 0
  | .t => 1
  | .f => 2

/-- The predicate match (R37) of a code. -/
def decPm (n : Nat) : Except Reject Pm :=
  match n with
  | 0 => .ok .none
  | 1 => .ok .t
  | 2 => .ok .f
  | _ => .error .pm

/-- The code of a operand port (R38). -/
def Port.code : Port → Nat
  | .l => 0
  | .r => 1
  | .t => 2
  | .p => 3

/-- The operand port (R38) of a code. -/
def decPort (n : Nat) : Port :=
  match n with
  | 0 => .l
  | 1 => .r
  | 2 => .t
  | _ => .p

/-- The code of a shape (R44). -/
def Shape.code : Shape → Nat
  | .s => 0
  | .d => 1
  | .v => 2
  | .h => 3

/-- The shape (R44) of a code. -/
def decShape (n : Nat) : Shape :=
  match n with
  | 0 => .s
  | 1 => .d
  | 2 => .v
  | _ => .h

/-- The code of a condition (R46). -/
def Cond.code : Cond → Nat
  | .eq => 0
  | .ne => 1
  | .lt => 2
  | .le => 3
  | .gt => 4
  | .ge => 5
  | .ltu => 6
  | .leu => 7
  | .gtu => 8
  | .geu => 9

/-- The condition (R46) of a code. -/
def decCond (n : Nat) : Except Reject Cond :=
  match n with
  | 0 => .ok .eq
  | 1 => .ok .ne
  | 2 => .ok .lt
  | 3 => .ok .le
  | 4 => .ok .gt
  | 5 => .ok .ge
  | 6 => .ok .ltu
  | 7 => .ok .leu
  | 8 => .ok .gtu
  | 9 => .ok .geu
  | _ => .error .field

/-- The code of a float format (R45). -/
def FFmt.code : FFmt → Nat
  | .f32 => 0
  | .bf16 => 1
  | .f16 => 2

/-- The float format (R45) of a code. -/
def decFFmt (n : Nat) : Except Reject FFmt :=
  match n with
  | 0 => .ok .f32
  | 1 => .ok .bf16
  | 2 => .ok .f16
  | _ => .error .field

/-- The code of a tile format (R50). -/
def Fmt.code : Fmt → Nat
  | .fp32 => 1
  | .bf16 => 2
  | .fp16 => 3
  | .e4m3 => 4
  | .e5m2 => 5
  | .int8 => 6
  | .int16 => 7
  | .int32 => 8
  | .ps8 => 9

/-- The tile format (R50) of a code. -/
def decFmt (n : Nat) : Except Reject Fmt :=
  match n with
  | 1 => .ok .fp32
  | 2 => .ok .bf16
  | 3 => .ok .fp16
  | 4 => .ok .e4m3
  | 5 => .ok .e5m2
  | 6 => .ok .int8
  | 7 => .ok .int16
  | 8 => .ok .int32
  | 9 => .ok .ps8
  | _ => .error .field

/-- The code of a rounding mode (R86). -/
def Rm.code : Rm → Nat
  | .rne => 0
  | .rtz => 1
  | .rdn => 2
  | .rup => 3

/-- The rounding mode (R86) of a code. -/
def decRm (n : Nat) : Rm :=
  match n with
  | 0 => .rne
  | 1 => .rtz
  | 2 => .rdn
  | _ => .rup

/-- The code of a reduction (R149). -/
def RedOp.code : RedOp → Nat
  | .add => 0
  | .fadd => 1
  | .min => 2
  | .max => 3
  | .minu => 4
  | .maxu => 5
  | .fmin => 6
  | .fmax => 7
  | .and => 8
  | .or => 9
  | .xor => 10

/-- The reduction (R149) of a code. -/
def decRedOp (n : Nat) : Except Reject RedOp :=
  match n with
  | 0 => .ok .add
  | 1 => .ok .fadd
  | 2 => .ok .min
  | 3 => .ok .max
  | 4 => .ok .minu
  | 5 => .ok .maxu
  | 6 => .ok .fmin
  | 7 => .ok .fmax
  | 8 => .ok .and
  | 9 => .ok .or
  | 10 => .ok .xor
  | _ => .error .field

/-- The code of a width (R48). -/
def Width.code : Width → Nat
  | .b1 => 0
  | .b2 => 1
  | .b4 => 2
  | .b8 => 3

/-- The width (R48) of a code. -/
def decWidth (n : Nat) : Width :=
  match n with
  | 0 => .b1
  | 1 => .b2
  | 2 => .b4
  | _ => .b8

/-- The code of a scope (R48). -/
def Scope.code : Scope → Nat
  | .elem => 0
  | .page => 1
  | .depot => 2
  | .dev => 3
  | .sys => 4

/-- The scope (R48) of a code. -/
def decScope (n : Nat) : Except Reject Scope :=
  match n with
  | 0 => .ok .elem
  | 1 => .ok .page
  | 2 => .ok .depot
  | 3 => .ok .dev
  | 4 => .ok .sys
  | _ => .error .field

/-- The code of a order (R48). -/
def Ord.code : Ord → Nat
  | .rlx => 0
  | .acq => 1
  | .rel => 2
  | .ar => 3

/-- The order (R48) of a code. -/
def decOrd (n : Nat) : Ord :=
  match n with
  | 0 => .rlx
  | 1 => .acq
  | 2 => .rel
  | _ => .ar

/-- The code of a path (R49). -/
def Path.code : Path → Nat
  | .ep => 0
  | .ce => 1
  | .gs => 2
  | .tf => 3
  | .lk => 4

/-- The path (R49) of a code. -/
def decPath (n : Nat) : Except Reject Path :=
  match n with
  | 0 => .ok .ep
  | 1 => .ok .ce
  | 2 => .ok .gs
  | 3 => .ok .tf
  | 4 => .ok .lk
  | _ => .error .field

/-- A one-bit field. -/
def decBool (n : Nat) : Bool := n == 1

/-- The 9 bits of a target (R38). -/
def Tgt.code : Tgt → Nat
  | .slot s q => s.toNat * 4 + q.code
  | .out o => 0x100 + o.toNat
  | .done => 0x108
  | .none => 0x1FF

/-- The target of 9 bits (R38); every value the table does not list is malformed. -/
def decTgt (n : Nat) : Except Reject Tgt :=
  if n < 0x100 then .ok (.slot (BitVec.ofNat 6 (n / 4)) (decPort (n % 4)))
  else if n < 0x108 then .ok (.out (BitVec.ofNat 3 (n % 8)))
  else if n = 0x108 then .ok .done
  else if n = 0x1FF then .ok .none
  else .error .target

/-- The ta field of a long-latency producer: in register form a register number (R271). -/
def decDst (form n : Nat) : Except Reject Dst :=
  if form = 1 then .ok (.reg (BitVec.ofNat 9 n)) else do return .tgt (← decTgt n)

/-- The ta field of a destination. -/
def Dst.code : Dst → Nat
  | .tgt a => a.code
  | .reg v => v.toNat

/-- The register-form bit of a destination (R270). -/
def Dst.form : Dst → Nat
  | .tgt _ => 0
  | .reg _ => 1

/-! ### Layouts: from a word's number to the fields -/

/-- Fields of ADD, SUB, MUL, MULH, MAD, DIV, REM, AND, OR, XOR, ANDN, SHL, SHR, SRA, ROL, MIN, MAX, ABS, NEG, CLZ, POPC, BREV, BFX, BFI, MOV. -/
def decPSHUAB (n : Nat) (k : Pm → Shape → Bool → Tgt → Tgt → Instr) : Except Reject Instr := do
  let p ← decPm (fld n 22 2)
  let a ← decTgt (fld n 9 9)
  let b ← decTgt (fld n 0 9)
  need (fld n 19 1 = 0)
  return k p (decShape (fld n 20 2)) (decBool (fld n 18 1)) a b

/-- Fields of CMP. -/
def decPCAB (n : Nat) (k : Pm → Cond → Tgt → Tgt → Instr) : Except Reject Instr := do
  let p ← decPm (fld n 22 2)
  let a ← decTgt (fld n 9 9)
  let b ← decTgt (fld n 0 9)
  let c ← decCond (fld n 18 4)
  return k p c a b

/-- Fields of SEL, NUL. -/
def decPAB (n : Nat) (k : Pm → Tgt → Tgt → Instr) : Except Reject Instr := do
  let p ← decPm (fld n 22 2)
  let a ← decTgt (fld n 9 9)
  let b ← decTgt (fld n 0 9)
  need (fld n 18 4 = 0)
  return k p a b

/-- Fields of SAT. -/
def decPSHOUAB (n : Nat) (k : Pm → Shape → Bool → Bool → Tgt → Tgt → Instr) : Except Reject Instr := do
  let p ← decPm (fld n 22 2)
  let a ← decTgt (fld n 9 9)
  let b ← decTgt (fld n 0 9)
  return k p (decShape (fld n 20 2)) (decBool (fld n 19 1)) (decBool (fld n 18 1)) a b

/-- Fields of ADDR, AOFF, AIDX. -/
def decPUAB (n : Nat) (k : Pm → Bool → Tgt → Tgt → Instr) : Except Reject Instr := do
  let p ← decPm (fld n 22 2)
  let a ← decTgt (fld n 9 9)
  let b ← decTgt (fld n 0 9)
  need (fld n 19 3 = 2)
  return k p (decBool (fld n 18 1)) a b

/-- Fields of ADDI, ANDI, ORI, XORI, MOVI, MOVHI, MULI. -/
def decPIA (n : Nat) (k : Pm → BitVec 13 → Tgt → Instr) : Except Reject Instr := do
  let p ← decPm (fld n 22 2)
  let a ← decTgt (fld n 0 9)
  return k p (BitVec.ofNat 13 (fld n 9 13)) a

/-- Fields of SHLI, SHRI, SRAI. -/
def decPNA (n : Nat) (k : Pm → BitVec 5 → Tgt → Instr) : Except Reject Instr := do
  let p ← decPm (fld n 22 2)
  let a ← decTgt (fld n 0 9)
  need (fld n 14 8 = 0)
  return k p (BitVec.ofNat 5 (fld n 9 5)) a

/-- Fields of CMPI. -/
def decPCVA (n : Nat) (k : Pm → Cond → BitVec 9 → Tgt → Instr) : Except Reject Instr := do
  let p ← decPm (fld n 22 2)
  let a ← decTgt (fld n 0 9)
  let c ← decCond (fld n 18 4)
  return k p c (BitVec.ofNat 9 (fld n 9 9)) a

/-- Fields of PUT, PUTX, REMPTY, RFULL, BRK. -/
def decPNA2 (n : Nat) (k : Pm → BitVec 8 → Tgt → Instr) : Except Reject Instr := do
  let p ← decPm (fld n 22 2)
  let a ← decTgt (fld n 0 9)
  need (fld n 9 5 = 0)
  return k p (BitVec.ofNat 8 (fld n 14 8)) a

/-- Fields of GET, GETX. -/
def decPNXA (n : Nat) (k : Pm → BitVec 8 → Bool → Tgt → Instr) : Except Reject Instr := do
  let p ← decPm (fld n 22 2)
  let a ← decTgt (fld n 0 9)
  need (fld n 10 4 = 0)
  return k p (BitVec.ofNat 8 (fld n 14 8)) (decBool (fld n 9 1)) a

/-- Fields of FADD, FSUB, FMUL, FMA, FMIN, FMAX, FABS, FNEG, FCMP, FCLASS, FRCP, FRSQ, FEXP2, FLOG2, FSQRT, FDIV, DOT. -/
def decPSHFAB (n : Nat) (k : Pm → Shape → FFmt → Tgt → Tgt → Instr) : Except Reject Instr := do
  let p ← decPm (fld n 22 2)
  let a ← decTgt (fld n 9 9)
  let b ← decTgt (fld n 0 9)
  let f ← decFFmt (fld n 18 2)
  return k p (decShape (fld n 20 2)) f a b

/-- Fields of CVT. -/
def decPSTKXMA (n : Nat) (k : Pm → Fmt → Fmt → BitVec 2 → Bool → Rm → Tgt → Instr) : Except Reject Instr := do
  let p ← decPm (fld n 22 2)
  let a ← decTgt (fld n 0 9)
  let s ← decFmt (fld n 18 4)
  let t ← decFmt (fld n 14 4)
  return k p s t (BitVec.ofNat 2 (fld n 12 2)) (decBool (fld n 11 1)) (decRm (fld n 9 2)) a

/-- Fields of CVTI. -/
def decPSFKUMA (n : Nat) (k : Pm → Fmt → BitVec 4 → BitVec 2 → Bool → Rm → Tgt → Instr) : Except Reject Instr := do
  let p ← decPm (fld n 22 2)
  let a ← decTgt (fld n 0 9)
  let s ← decFmt (fld n 18 4)
  return k p s (BitVec.ofNat 4 (fld n 14 4)) (BitVec.ofNat 2 (fld n 12 2)) (decBool (fld n 11 1)) (decRm (fld n 9 2)) a

/-- Fields of CVTF. -/
def decPTFXUMA (n : Nat) (k : Pm → Fmt → BitVec 4 → Bool → Bool → Rm → Tgt → Instr) : Except Reject Instr := do
  let p ← decPm (fld n 22 2)
  let a ← decTgt (fld n 0 9)
  let t ← decFmt (fld n 18 4)
  need (fld n 13 1 = 0)
  return k p t (BitVec.ofNat 4 (fld n 14 4)) (decBool (fld n 12 1)) (decBool (fld n 11 1)) (decRm (fld n 9 2)) a

/-- Fields of SCALE. -/
def decPSA (n : Nat) (k : Pm → Fmt → Tgt → Instr) : Except Reject Instr := do
  let p ← decPm (fld n 22 2)
  let a ← decTgt (fld n 0 9)
  let s ← decFmt (fld n 18 4)
  need (fld n 9 9 = 0)
  return k p s a

/-- Fields of PACK. -/
def decPHOUAB (n : Nat) (k : Pm → BitVec 2 → Bool → Bool → Tgt → Tgt → Instr) : Except Reject Instr := do
  let p ← decPm (fld n 22 2)
  let a ← decTgt (fld n 9 9)
  let b ← decTgt (fld n 0 9)
  return k p (BitVec.ofNat 2 (fld n 20 2)) (decBool (fld n 19 1)) (decBool (fld n 18 1)) a b

/-- Fields of UNPACK. -/
def decPHUAB (n : Nat) (k : Pm → BitVec 2 → Bool → Tgt → Tgt → Instr) : Except Reject Instr := do
  let p ← decPm (fld n 22 2)
  let a ← decTgt (fld n 9 9)
  let b ← decTgt (fld n 0 9)
  need (fld n 19 1 = 0)
  return k p (BitVec.ofNat 2 (fld n 20 2)) (decBool (fld n 18 1)) a b

/-- Fields of BCAST. -/
def decPWIA (n : Nat) (k : Pm → BitVec 2 → BitVec 6 → Tgt → Instr) : Except Reject Instr := do
  let p ← decPm (fld n 22 2)
  let a ← decTgt (fld n 0 9)
  need (fld n 9 5 = 0)
  return k p (BitVec.ofNat 2 (fld n 20 2)) (BitVec.ofNat 6 (fld n 14 6)) a

/-- Fields of SHUF, COMPACT, EXPAND. -/
def decPHAB (n : Nat) (k : Pm → Bool → Tgt → Tgt → Instr) : Except Reject Instr := do
  let p ← decPm (fld n 22 2)
  let a ← decTgt (fld n 9 9)
  let b ← decTgt (fld n 0 9)
  need (fld n 18 2 = 0)
  need (fld n 21 1 = 1)
  return k p (decBool (fld n 20 1)) a b

/-- Fields of ROT. -/
def decPDFNA (n : Nat) (k : Pm → Bool → Bool → BitVec 4 → Tgt → Instr) : Except Reject Instr := do
  let p ← decPm (fld n 22 2)
  let a ← decTgt (fld n 0 9)
  need (fld n 9 5 = 0)
  need (fld n 20 2 = 0)
  return k p (decBool (fld n 19 1)) (decBool (fld n 18 1)) (BitVec.ofNat 4 (fld n 14 4)) a

/-- Fields of RED. -/
def decPOGA (n : Nat) (k : Pm → RedOp → BitVec 2 → Tgt → Instr) : Except Reject Instr := do
  let p ← decPm (fld n 22 2)
  let a ← decTgt (fld n 0 9)
  let o ← decRedOp (fld n 18 4)
  need (fld n 9 5 = 0)
  need (fld n 16 2 = 0)
  return k p o (BitVec.ofNat 2 (fld n 14 2)) a

/-- Fields of SCAN. -/
def decPOEA (n : Nat) (k : Pm → RedOp → Bool → Tgt → Instr) : Except Reject Instr := do
  let p ← decPm (fld n 22 2)
  let a ← decTgt (fld n 0 9)
  let o ← decRedOp (fld n 18 4)
  need (fld n 9 5 = 0)
  need (fld n 15 3 = 0)
  return k p o (decBool (fld n 14 1)) a

/-- Fields of TOPK. -/
def decPFKXA (n : Nat) (k : Pm → Fmt → BitVec 4 → Bool → Tgt → Instr) : Except Reject Instr := do
  let p ← decPm (fld n 22 2)
  let a ← decTgt (fld n 0 9)
  let f ← decFmt (fld n 18 4)
  need (fld n 10 4 = 0)
  return k p f (BitVec.ofNat 4 (fld n 14 4)) (decBool (fld n 9 1)) a

/-- Fields of LMASK. -/
def decPMA (n : Nat) (k : Pm → BitVec 2 → Tgt → Instr) : Except Reject Instr := do
  let p ← decPm (fld n 22 2)
  let a ← decTgt (fld n 0 9)
  need (fld n 9 5 = 0)
  need (fld n 16 6 = 0)
  return k p (BitVec.ofNat 2 (fld n 14 2)) a

/-- Fields of IN, DROP. -/
def decPNA3 (n : Nat) (k : Pm → BitVec 3 → Tgt → Instr) : Except Reject Instr := do
  let p ← decPm (fld n 22 2)
  let a ← decTgt (fld n 0 9)
  need (fld n 9 5 = 0)
  need (fld n 17 5 = 0)
  return k p (BitVec.ofNat 3 (fld n 14 3)) a

/-- Fields of EOS, EMIT. -/
def decPKA (n : Nat) (k : Pm → BitVec 2 → Tgt → Instr) : Except Reject Instr := do
  let p ← decPm (fld n 22 2)
  let a ← decTgt (fld n 0 9)
  need (fld n 9 5 = 0)
  need (fld n 16 6 = 0)
  return k p (BitVec.ofNat 2 (fld n 14 2)) a

/-- Fields of BOUND. -/
def decPLA (n : Nat) (k : Pm → BitVec 2 → Tgt → Instr) : Except Reject Instr := do
  let p ← decPm (fld n 22 2)
  let a ← decTgt (fld n 0 9)
  need (fld n 9 5 = 0)
  need (fld n 16 6 = 0)
  return k p (BitVec.ofNat 2 (fld n 14 2)) a

/-- Fields of FILT. -/
def decPGWCFA (n : Nat) (k : Pm → Bool → Bool → BitVec 3 → BitVec 3 → Tgt → Instr) : Except Reject Instr := do
  let p ← decPm (fld n 22 2)
  let a ← decTgt (fld n 0 9)
  need (fld n 9 5 = 0)
  return k p (decBool (fld n 21 1)) (decBool (fld n 20 1)) (BitVec.ofNat 3 (fld n 17 3)) (BitVec.ofNat 3 (fld n 14 3)) a

/-- Fields of MERGE. -/
def decPFTGA (n : Nat) (k : Pm → BitVec 3 → BitVec 3 → Bool → Tgt → Instr) : Except Reject Instr := do
  let p ← decPm (fld n 22 2)
  let a ← decTgt (fld n 0 9)
  need (fld n 10 4 = 0)
  need (fld n 20 2 = 0)
  return k p (BitVec.ofNat 3 (fld n 17 3)) (BitVec.ofNat 3 (fld n 14 3)) (decBool (fld n 9 1)) a

/-- Fields of GATE. -/
def decPSA2 (n : Nat) (k : Pm → Bool → Tgt → Instr) : Except Reject Instr := do
  let p ← decPm (fld n 22 2)
  let a ← decTgt (fld n 0 9)
  need (fld n 9 5 = 0)
  need (fld n 15 7 = 0)
  return k p (decBool (fld n 14 1)) a

/-- Fields of MARK, SYNI, SYNW, SYNA, TDISP, MLOOK, SLHT, PHEND, NODEID, HALTR. -/
def decPA (n : Nat) (k : Pm → Tgt → Instr) : Except Reject Instr := do
  let p ← decPm (fld n 22 2)
  let a ← decTgt (fld n 0 9)
  need (fld n 9 13 = 0)
  return k p a

/-- Fields of LD. -/
def decPWCOXVND (n : Nat) (k : Pm → Width → Scope → Ord → Bool → Bool → BitVec 2 → Dst → Instr) : Except Reject Instr := do
  let p ← decPm (fld n 22 2)
  let d ← decDst (fld n 13 1) (fld n 0 9)
  let c ← decScope (fld n 17 3)
  need (fld n 14 1 = 0)
  return k p (decWidth (fld n 20 2)) c (decOrd (fld n 15 2)) (decBool (fld n 12 1)) (decBool (fld n 11 1)) (BitVec.ofNat 2 (fld n 9 2)) d

/-- Fields of ST, STV. -/
def decPWCOVNA (n : Nat) (k : Pm → Width → Scope → Ord → Bool → BitVec 2 → Tgt → Instr) : Except Reject Instr := do
  let p ← decPm (fld n 22 2)
  let a ← decTgt (fld n 0 9)
  let c ← decScope (fld n 17 3)
  need (fld n 12 3 = 0)
  return k p (decWidth (fld n 20 2)) c (decOrd (fld n 15 2)) (decBool (fld n 11 1)) (BitVec.ofNat 2 (fld n 9 2)) a

/-- Fields of LDV. -/
def decPWCOXVNA (n : Nat) (k : Pm → Width → Scope → Ord → Bool → Bool → BitVec 2 → Tgt → Instr) : Except Reject Instr := do
  let p ← decPm (fld n 22 2)
  let a ← decTgt (fld n 0 9)
  let c ← decScope (fld n 17 3)
  need (fld n 13 2 = 0)
  return k p (decWidth (fld n 20 2)) c (decOrd (fld n 15 2)) (decBool (fld n 12 1)) (decBool (fld n 11 1)) (BitVec.ofNat 2 (fld n 9 2)) a

/-- Fields of RECL, LDT, STT, PREF, FLUSH, PIN, UNPIN. -/
def decPCONA (n : Nat) (k : Pm → Scope → Ord → BitVec 2 → Tgt → Instr) : Except Reject Instr := do
  let p ← decPm (fld n 22 2)
  let a ← decTgt (fld n 0 9)
  let c ← decScope (fld n 17 3)
  need (fld n 11 4 = 0)
  need (fld n 20 2 = 0)
  return k p c (decOrd (fld n 15 2)) (BitVec.ofNat 2 (fld n 9 2)) a

/-- Fields of GATH. -/
def decPWCOXND (n : Nat) (k : Pm → Width → Scope → Ord → Bool → BitVec 2 → Dst → Instr) : Except Reject Instr := do
  let p ← decPm (fld n 22 2)
  let d ← decDst (fld n 13 1) (fld n 0 9)
  let c ← decScope (fld n 17 3)
  need (fld n 11 1 = 0)
  need (fld n 14 1 = 0)
  return k p (decWidth (fld n 20 2)) c (decOrd (fld n 15 2)) (decBool (fld n 12 1)) (BitVec.ofNat 2 (fld n 9 2)) d

/-- Fields of SCAT, AADD, AAND, AOR, AXOR, AXCH, ACAS, AFADD, ASCAT. -/
def decPWCONA (n : Nat) (k : Pm → Width → Scope → Ord → BitVec 2 → Tgt → Instr) : Except Reject Instr := do
  let p ← decPm (fld n 22 2)
  let a ← decTgt (fld n 0 9)
  let c ← decScope (fld n 17 3)
  need (fld n 11 4 = 0)
  return k p (decWidth (fld n 20 2)) c (decOrd (fld n 15 2)) (BitVec.ofNat 2 (fld n 9 2)) a

/-- Fields of AMIN, AMAX. -/
def decPWCOXNA (n : Nat) (k : Pm → Width → Scope → Ord → Bool → BitVec 2 → Tgt → Instr) : Except Reject Instr := do
  let p ← decPm (fld n 22 2)
  let a ← decTgt (fld n 0 9)
  let c ← decScope (fld n 17 3)
  need (fld n 11 1 = 0)
  need (fld n 13 2 = 0)
  return k p (decWidth (fld n 20 2)) c (decOrd (fld n 15 2)) (decBool (fld n 12 1)) (BitVec.ofNat 2 (fld n 9 2)) a

/-- Fields of FENCE. -/
def decPCOA (n : Nat) (k : Pm → Scope → Ord → Tgt → Instr) : Except Reject Instr := do
  let p ← decPm (fld n 22 2)
  let a ← decTgt (fld n 0 9)
  let c ← decScope (fld n 17 3)
  need (fld n 9 6 = 0)
  need (fld n 20 2 = 0)
  return k p c (decOrd (fld n 15 2)) a

/-- Fields of FENCEX. -/
def decPFTCA (n : Nat) (k : Pm → Path → Path → Scope → Tgt → Instr) : Except Reject Instr := do
  let p ← decPm (fld n 22 2)
  let a ← decTgt (fld n 0 9)
  let f ← decPath (fld n 19 3)
  let t ← decPath (fld n 16 3)
  let c ← decScope (fld n 9 3)
  need (fld n 12 4 = 0)
  return k p f t c a

/-- Fields of SPLD, SPST. -/
def decPWCOVA (n : Nat) (k : Pm → Width → Scope → Ord → Bool → Tgt → Instr) : Except Reject Instr := do
  let p ← decPm (fld n 22 2)
  let a ← decTgt (fld n 0 9)
  let c ← decScope (fld n 17 3)
  need (fld n 9 2 = 0)
  need (fld n 12 3 = 0)
  return k p (decWidth (fld n 20 2)) c (decOrd (fld n 15 2)) (decBool (fld n 11 1)) a

/-- Fields of BARM. -/
def decPNFA (n : Nat) (k : Pm → BitVec 7 → Bool → Tgt → Instr) : Except Reject Instr := do
  let p ← decPm (fld n 22 2)
  let a ← decTgt (fld n 0 9)
  need (fld n 10 4 = 0)
  need (fld n 21 1 = 0)
  return k p (BitVec.ofNat 7 (fld n 14 7)) (decBool (fld n 9 1)) a

/-- Fields of BARR, BARX. -/
def decPNCRFA (n : Nat) (k : Pm → BitVec 7 → Scope → Bool → Bool → Tgt → Instr) : Except Reject Instr := do
  let p ← decPm (fld n 22 2)
  let a ← decTgt (fld n 0 9)
  let c ← decScope (fld n 11 3)
  need (fld n 21 1 = 0)
  return k p (BitVec.ofNat 7 (fld n 14 7)) c (decBool (fld n 10 1)) (decBool (fld n 9 1)) a

/-- Fields of BARW. -/
def decPNCQFA (n : Nat) (k : Pm → BitVec 7 → Scope → Bool → Bool → Tgt → Instr) : Except Reject Instr := do
  let p ← decPm (fld n 22 2)
  let a ← decTgt (fld n 0 9)
  let c ← decScope (fld n 11 3)
  need (fld n 21 1 = 0)
  return k p (BitVec.ofNat 7 (fld n 14 7)) c (decBool (fld n 10 1)) (decBool (fld n 9 1)) a

/-- Fields of CHAPP, CHSEQ, CHWT. -/
def decPKIA (n : Nat) (k : Pm → BitVec 2 → BitVec 6 → Tgt → Instr) : Except Reject Instr := do
  let p ← decPm (fld n 22 2)
  let a ← decTgt (fld n 0 9)
  need (fld n 9 5 = 0)
  return k p (BitVec.ofNat 2 (fld n 20 2)) (BitVec.ofNat 6 (fld n 14 6)) a

/-- Fields of CHCTL. -/
def decPKIXA (n : Nat) (k : Pm → BitVec 2 → BitVec 6 → BitVec 2 → Tgt → Instr) : Except Reject Instr := do
  let p ← decPm (fld n 22 2)
  let a ← decTgt (fld n 0 9)
  need (fld n 11 3 = 0)
  return k p (BitVec.ofNat 2 (fld n 20 2)) (BitVec.ofNat 6 (fld n 14 6)) (BitVec.ofNat 2 (fld n 9 2)) a

/-- Fields of MMA, MMAS, MMAP. -/
def decPTZA (n : Nat) (k : Pm → BitVec 9 → Bool → Tgt → Instr) : Except Reject Instr := do
  let p ← decPm (fld n 22 2)
  let a ← decTgt (fld n 0 9)
  need (fld n 11 3 = 0)
  return k p (BitVec.ofNat 9 (fld n 14 8 + 256 * fld n 9 1)) (decBool (fld n 10 1)) a

/-- Fields of ACZ. -/
def decPTYA (n : Nat) (k : Pm → BitVec 9 → Bool → Tgt → Instr) : Except Reject Instr := do
  let p ← decPm (fld n 22 2)
  let a ← decTgt (fld n 0 9)
  need (fld n 11 3 = 0)
  return k p (BitVec.ofNat 9 (fld n 14 8 + 256 * fld n 9 1)) (decBool (fld n 10 1)) a

/-- Fields of ACRD. -/
def decPTD (n : Nat) (k : Pm → BitVec 9 → Dst → Instr) : Except Reject Instr := do
  let p ← decPm (fld n 22 2)
  let d ← decDst (fld n 13 1) (fld n 0 9)
  need (fld n 10 3 = 0)
  return k p (BitVec.ofNat 9 (fld n 14 8 + 256 * fld n 9 1)) d

/-- Fields of ACWR. -/
def decPTA (n : Nat) (k : Pm → BitVec 9 → Tgt → Instr) : Except Reject Instr := do
  let p ← decPm (fld n 22 2)
  let a ← decTgt (fld n 0 9)
  need (fld n 10 4 = 0)
  return k p (BitVec.ofNat 9 (fld n 14 8 + 256 * fld n 9 1)) a

/-- Fields of ACCV. -/
def decPTMXA (n : Nat) (k : Pm → BitVec 9 → Rm → Bool → Tgt → Instr) : Except Reject Instr := do
  let p ← decPm (fld n 22 2)
  let a ← decTgt (fld n 0 9)
  need (fld n 13 1 = 0)
  return k p (BitVec.ofNat 9 (fld n 14 8 + 256 * fld n 9 1)) (decRm (fld n 11 2)) (decBool (fld n 10 1)) a

/-- Fields of TAGR, PGLD, PGSV, PGRS, PGQ. -/
def decPNA4 (n : Nat) (k : Pm → BitVec 2 → Tgt → Instr) : Except Reject Instr := do
  let p ← decPm (fld n 22 2)
  let a ← decTgt (fld n 0 9)
  need (fld n 11 11 = 0)
  return k p (BitVec.ofNat 2 (fld n 9 2)) a

/-- Fields of TAGS, PGST. -/
def decPDNA (n : Nat) (k : Pm → Bool → BitVec 2 → Tgt → Instr) : Except Reject Instr := do
  let p ← decPm (fld n 22 2)
  let a ← decTgt (fld n 0 9)
  need (fld n 11 3 = 0)
  need (fld n 15 7 = 0)
  return k p (decBool (fld n 14 1)) (BitVec.ofNat 2 (fld n 9 2)) a

/-- Fields of TFCH. -/
def decPCRBNA (n : Nat) (k : Pm → Bool → Bool → BitVec 2 → BitVec 2 → Tgt → Instr) : Except Reject Instr := do
  let p ← decPm (fld n 22 2)
  let a ← decTgt (fld n 0 9)
  need (fld n 11 3 = 0)
  need (fld n 18 4 = 0)
  return k p (decBool (fld n 17 1)) (decBool (fld n 16 1)) (BitVec.ofNat 2 (fld n 14 2)) (BitVec.ofNat 2 (fld n 9 2)) a

/-- Fields of TREL. -/
def decPBA (n : Nat) (k : Pm → BitVec 2 → Tgt → Instr) : Except Reject Instr := do
  let p ← decPm (fld n 22 2)
  let a ← decTgt (fld n 0 9)
  need (fld n 9 5 = 0)
  need (fld n 16 6 = 0)
  return k p (BitVec.ofNat 2 (fld n 14 2)) a

/-- Fields of TDSC, EQRD. -/
def decPIA2 (n : Nat) (k : Pm → BitVec 3 → Tgt → Instr) : Except Reject Instr := do
  let p ← decPm (fld n 22 2)
  let a ← decTgt (fld n 0 9)
  need (fld n 9 5 = 0)
  need (fld n 17 5 = 0)
  return k p (BitVec.ofNat 3 (fld n 14 3)) a

/-- Fields of PGNX. -/
def decPND (n : Nat) (k : Pm → BitVec 2 → Dst → Instr) : Except Reject Instr := do
  let p ← decPm (fld n 22 2)
  let d ← decDst (fld n 13 1) (fld n 0 9)
  need (fld n 11 2 = 0)
  need (fld n 14 8 = 0)
  return k p (BitVec.ofNat 2 (fld n 9 2)) d

/-- Fields of SLHB. -/
def decPOA (n : Nat) (k : Pm → Bool → Tgt → Instr) : Except Reject Instr := do
  let p ← decPm (fld n 22 2)
  let a ← decTgt (fld n 0 9)
  need (fld n 9 5 = 0)
  need (fld n 15 7 = 0)
  return k p (decBool (fld n 14 1)) a

/-- Fields of CTXQ, FCNT. -/
def decPIA3 (n : Nat) (k : Pm → BitVec 2 → Tgt → Instr) : Except Reject Instr := do
  let p ← decPm (fld n 22 2)
  let a ← decTgt (fld n 0 9)
  need (fld n 9 5 = 0)
  need (fld n 16 6 = 0)
  return k p (BitVec.ofNat 2 (fld n 14 2)) a

/-- Fields of RATEQ. -/
def decPIA4 (n : Nat) (k : Pm → BitVec 4 → Tgt → Instr) : Except Reject Instr := do
  let p ← decPm (fld n 22 2)
  let a ← decTgt (fld n 0 9)
  need (fld n 9 5 = 0)
  need (fld n 18 4 = 0)
  return k p (BitVec.ofNat 4 (fld n 14 4)) a

/-- Fields of SARM, SWAIT. -/
def decPNA5 (n : Nat) (k : Pm → BitVec 6 → Tgt → Instr) : Except Reject Instr := do
  let p ← decPm (fld n 22 2)
  let a ← decTgt (fld n 0 9)
  need (fld n 9 5 = 0)
  need (fld n 20 2 = 0)
  return k p (BitVec.ofNat 6 (fld n 14 6)) a

/-- Fields of LAUNCH. -/
def decPQA (n : Nat) (k : Pm → BitVec 3 → Tgt → Instr) : Except Reject Instr := do
  let p ← decPm (fld n 22 2)
  let a ← decTgt (fld n 0 9)
  need (fld n 9 5 = 0)
  need (fld n 17 5 = 0)
  return k p (BitVec.ofNat 3 (fld n 14 3)) a

/-- Fields of TRAP. -/
def decPCA (n : Nat) (k : Pm → BitVec 4 → Tgt → Instr) : Except Reject Instr := do
  let p ← decPm (fld n 22 2)
  let a ← decTgt (fld n 0 9)
  need (fld n 9 5 = 0)
  need (fld n 18 4 = 0)
  return k p (BitVec.ofNat 4 (fld n 14 4)) a

/-- Fields of CSRR, CSRW. -/
def decPCA2 (n : Nat) (k : Pm → BitVec 8 → Tgt → Instr) : Except Reject Instr := do
  let p ← decPm (fld n 22 2)
  let a ← decTgt (fld n 0 9)
  need (fld n 9 5 = 0)
  return k p (BitVec.ofNat 8 (fld n 14 8)) a

/-- Fields of OBSR. -/
def decPIDNA (n : Nat) (k : Pm → BitVec 3 → Bool → BitVec 3 → Tgt → Instr) : Except Reject Instr := do
  let p ← decPm (fld n 22 2)
  let a ← decTgt (fld n 0 9)
  need (fld n 9 5 = 0)
  need (fld n 17 1 = 0)
  return k p (BitVec.ofNat 3 (fld n 19 3)) (decBool (fld n 18 1)) (BitVec.ofNat 3 (fld n 14 3)) a

/-! ### The opcode map -/

/-- Opcodes 0x00 to 0x0F of the opcode map (R52). -/
def decRow0 (lo n : Nat) : Except Reject Instr :=
  match lo with
  | 1 => decPSHUAB n .add
  | 2 => decPSHUAB n .sub
  | 3 => decPSHUAB n .mul
  | 4 => decPSHUAB n .mulh
  | 5 => decPSHUAB n .mad
  | 6 => decPSHUAB n .div
  | 7 => decPSHUAB n .rem
  | 8 => decPSHUAB n .and_
  | 9 => decPSHUAB n .or_
  | 10 => decPSHUAB n .xor
  | 11 => decPSHUAB n .andn
  | 12 => decPSHUAB n .shl
  | 13 => decPSHUAB n .shr
  | 14 => decPSHUAB n .sra
  | 15 => decPSHUAB n .rol
  | _ => .error .opcode

/-- Opcodes 0x10 to 0x1F of the opcode map (R52). -/
def decRow1 (lo n : Nat) : Except Reject Instr :=
  match lo with
  | 0 => decPSHUAB n .min
  | 1 => decPSHUAB n .max
  | 2 => decPSHUAB n .abs
  | 3 => decPSHUAB n .neg
  | 4 => decPSHUAB n .clz
  | 5 => decPSHUAB n .popc
  | 6 => decPSHUAB n .brev
  | 7 => decPSHUAB n .bfx
  | 8 => decPSHUAB n .bfi
  | 9 => decPCAB n .cmp
  | 10 => decPAB n .sel
  | 11 => decPSHOUAB n .sat
  | 12 => decPSHUAB n .mov
  | 13 => decPAB n .nul
  | 14 => decPUAB n .addr
  | 15 => decPUAB n .aoff
  | _ => .error .opcode

/-- Opcodes 0x20 to 0x2F of the opcode map (R52). -/
def decRow2 (lo n : Nat) : Except Reject Instr :=
  match lo with
  | 0 => decPUAB n .aidx
  | 8 => decPIA n .addi
  | 9 => decPIA n .andi
  | 10 => decPIA n .ori
  | 11 => decPIA n .xori
  | 12 => decPNA n .shli
  | 13 => decPNA n .shri
  | 14 => decPNA n .srai
  | 15 => decPCVA n .cmpi
  | _ => .error .opcode

/-- Opcodes 0x30 to 0x3F of the opcode map (R52). -/
def decRow3 (lo n : Nat) : Except Reject Instr :=
  match lo with
  | 0 => decPIA n .movi
  | 1 => decPIA n .movhi
  | 3 => decPIA n .muli
  | 8 => decPNXA n .get
  | 9 => decPNA2 n .put
  | 10 => decPNXA n .getx
  | 11 => decPNA2 n .putx
  | 12 => decPNA2 n .rempty
  | 13 => decPNA2 n .rfull
  | _ => .error .opcode

/-- Opcodes 0x40 to 0x4F of the opcode map (R52). -/
def decRow4 (lo n : Nat) : Except Reject Instr :=
  match lo with
  | 0 => decPSHFAB n .fadd
  | 1 => decPSHFAB n .fsub
  | 2 => decPSHFAB n .fmul
  | 3 => decPSHFAB n .fma
  | 4 => decPSHFAB n .fmin
  | 5 => decPSHFAB n .fmax
  | 6 => decPSHFAB n .fabs
  | 7 => decPSHFAB n .fneg
  | 8 => decPSHFAB n .fcmp
  | 9 => decPSHFAB n .fclass
  | 10 => decPSHFAB n .frcp
  | 11 => decPSHFAB n .frsq
  | 12 => decPSHFAB n .fexp2
  | 13 => decPSHFAB n .flog2
  | 14 => decPSHFAB n .fsqrt
  | 15 => decPSHFAB n .fdiv
  | _ => .error .opcode

/-- Opcodes 0x50 to 0x5F of the opcode map (R52). -/
def decRow5 (lo n : Nat) : Except Reject Instr :=
  match lo with
  | 0 => decPSTKXMA n .cvt
  | 1 => decPSFKUMA n .cvti
  | 2 => decPTFXUMA n .cvtf
  | 3 => decPSA n .scale
  | 4 => decPHOUAB n .pack
  | 5 => decPHUAB n .unpack
  | 8 => decPWIA n .bcast
  | 9 => decPHAB n .shuf
  | 10 => decPDFNA n .rot
  | 11 => decPOGA n .red
  | 12 => decPOEA n .scan
  | 13 => decPFKXA n .topk
  | 14 => decPMA n .lmask
  | 15 => decPHAB n .compact
  | _ => .error .opcode

/-- Opcodes 0x60 to 0x6F of the opcode map (R52). -/
def decRow6 (lo n : Nat) : Except Reject Instr :=
  match lo with
  | 0 => decPHAB n .expand
  | 1 => decPSHFAB n .dot
  | _ => .error .opcode

/-- Opcodes 0x70 to 0x7F of the opcode map (R52). -/
def decRow7 (lo n : Nat) : Except Reject Instr :=
  match lo with
  | 0 => decPNA3 n .in_
  | 1 => decPKA n .eos
  | 2 => decPKA n .emit
  | 3 => decPLA n .bound
  | 4 => decPGWCFA n .filt
  | 5 => decPFTGA n .merge
  | 6 => decPSA2 n .gate
  | 7 => decPA n .mark
  | 8 => decPNA3 n .drop
  | _ => .error .opcode

/-- Opcodes 0x80 to 0x8F of the opcode map (R52). -/
def decRow8 (lo n : Nat) : Except Reject Instr :=
  match lo with
  | 0 => decPWCOXVND n .ld
  | 1 => decPWCOVNA n .st
  | 2 => decPWCOXVNA n .ldv
  | 3 => decPWCOVNA n .stv
  | 4 => decPCONA n .recl
  | 5 => decPCONA n .ldt
  | 6 => decPCONA n .stt
  | 7 => decPCONA n .pref
  | 8 => decPWCOXND n .gath
  | 9 => decPWCONA n .scat
  | 10 => decPWCONA n .aadd
  | 11 => decPWCOXNA n .amin
  | 12 => decPWCOXNA n .amax
  | 13 => decPWCONA n .aand
  | 14 => decPWCONA n .aor
  | 15 => decPWCONA n .axor
  | _ => .error .opcode

/-- Opcodes 0x90 to 0x9F of the opcode map (R52). -/
def decRow9 (lo n : Nat) : Except Reject Instr :=
  match lo with
  | 0 => decPWCONA n .axch
  | 1 => decPWCONA n .acas
  | 2 => decPWCONA n .afadd
  | 3 => decPWCONA n .ascat
  | 4 => decPCOA n .fence
  | 5 => decPFTCA n .fencex
  | 6 => decPWCOVA n .spld
  | 7 => decPWCOVA n .spst
  | 8 => decPCONA n .flush
  | 9 => decPCONA n .pin
  | 10 => decPCONA n .unpin
  | _ => .error .opcode

/-- Opcodes 0xA0 to 0xAF of the opcode map (R52). -/
def decRowA (lo n : Nat) : Except Reject Instr :=
  match lo with
  | 0 => decPNFA n .barm
  | 1 => decPNCRFA n .barr
  | 2 => decPNCQFA n .barw
  | 3 => decPNCRFA n .barx
  | 4 => decPA n .syni
  | 5 => decPA n .synw
  | 6 => decPA n .syna
  | 7 => decPKIA n .chapp
  | 8 => decPKIA n .chseq
  | 9 => decPKIA n .chwt
  | 10 => decPKIXA n .chctl
  | 11 => decPA n .tdisp
  | _ => .error .opcode

/-- Opcodes 0xB0 to 0xBF of the opcode map (R52). -/
def decRowB (lo n : Nat) : Except Reject Instr :=
  match lo with
  | 0 => decPTZA n .mma
  | 1 => decPTZA n .mmas
  | 2 => decPTZA n .mmap
  | 3 => decPTYA n .acz
  | 4 => decPTD n .acrd
  | 5 => decPTA n .acwr
  | 6 => decPTMXA n .accv
  | 7 => decPNA4 n .tagr
  | 8 => decPDNA n .tags
  | 9 => decPCRBNA n .tfch
  | 10 => decPBA n .trel
  | 11 => decPIA2 n .tdsc
  | 12 => decPA n .mlook
  | _ => .error .opcode

/-- Opcodes 0xC0 to 0xCF of the opcode map (R52). -/
def decRowC (lo n : Nat) : Except Reject Instr :=
  match lo with
  | 0 => decPNA4 n .pgld
  | 1 => decPDNA n .pgst
  | 2 => decPND n .pgnx
  | 3 => decPNA4 n .pgsv
  | 4 => decPNA4 n .pgrs
  | 5 => decPOA n .slhb
  | 6 => decPA n .slht
  | 7 => decPNA4 n .pgq
  | _ => .error .opcode

/-- Opcodes 0xD0 to 0xDF of the opcode map (R52). -/
def decRowD (lo n : Nat) : Except Reject Instr :=
  match lo with
  | 0 => decPA n .phend
  | 1 => decPIA3 n .ctxq
  | 2 => decPIA4 n .rateq
  | 3 => decPNA5 n .sarm
  | 4 => decPNA5 n .swait
  | 5 => decPQA n .launch
  | _ => .error .opcode

/-- Opcodes 0xE0 to 0xEF of the opcode map (R52). -/
def decRowE (lo n : Nat) : Except Reject Instr :=
  match lo with
  | 0 => decPCA n .trap
  | 1 => decPNA2 n .brk
  | 2 => decPCA2 n .csrr
  | 3 => decPCA2 n .csrw
  | 4 => decPA n .nodeid
  | 5 => decPIA3 n .fcnt
  | 6 => decPIA2 n .eqrd
  | 7 => decPIDNA n .obsr
  | 8 => decPA n .haltr
  | _ => .error .opcode

/-- The opcode map (R52): the row by the high digit of the opcode. LITW is read by decode, with its second word. -/
def decRow (n : Nat) : Except Reject Instr :=
  match fld n 28 4 with
  | 0 => decRow0 (fld n 24 4) n
  | 1 => decRow1 (fld n 24 4) n
  | 2 => decRow2 (fld n 24 4) n
  | 3 => decRow3 (fld n 24 4) n
  | 4 => decRow4 (fld n 24 4) n
  | 5 => decRow5 (fld n 24 4) n
  | 6 => decRow6 (fld n 24 4) n
  | 7 => decRow7 (fld n 24 4) n
  | 8 => decRow8 (fld n 24 4) n
  | 9 => decRow9 (fld n 24 4) n
  | 10 => decRowA (fld n 24 4) n
  | 11 => decRowB (fld n 24 4) n
  | 12 => decRowC (fld n 24 4) n
  | 13 => decRowD (fld n 24 4) n
  | 14 => decRowE (fld n 24 4) n
  | _ => .error .opcode

/-! ### Decoding -/

/-- The instruction of the first words of a list, and the words after it. A word whose fields leave the tables is
rejected (R51); the second word of a LITW pair is a constant and is never decoded (R36). -/
def decode (ws : List Word) : Except Reject (Instr × List Word) :=
  match ws with
  | [] => .error .empty
  | w :: rest =>
    if fld w.toNat 24 8 = 0x32 then
      match decPA w.toNat fun p a => .litw p a (rest.headD 0) with
      | .error e => .error e
      | .ok i => if rest.isEmpty then .error .pair else .ok (i, rest.tail)
    else do
      let i ← decRow w.toNat
      if i.wellFormed then return (i, rest) else .error .field

/-- The decoder on an instruction whose bits are `w`, bit 0 the least significant bit of its first word, with zeros
above `nbits`. -/
def decodeTableWord (nbits w : Nat) : Option Instr :=
  let v := w % 2 ^ nbits
  match decode [BitVec.ofNat 32 v, BitVec.ofNat 32 (v / 2 ^ 32)] with
  | .ok (i, _) => some i
  | .error _ => none

/-! ### Encoding -/

/-- The word whose fields decPSHUAB reads. -/
def encPSHUAB (op : Nat) (p : Pm) (sh : Shape) (u : Bool) (a : Tgt) (b : Tgt) : Nat :=
  op * 2 ^ 24 + p.code * 2 ^ 22 + sh.code * 2 ^ 20 + u.toNat * 2 ^ 18 + a.code * 2 ^ 9 + b.code

/-- The word whose fields decPCAB reads. -/
def encPCAB (op : Nat) (p : Pm) (c : Cond) (a : Tgt) (b : Tgt) : Nat :=
  op * 2 ^ 24 + p.code * 2 ^ 22 + c.code * 2 ^ 18 + a.code * 2 ^ 9 + b.code

/-- The word whose fields decPAB reads. -/
def encPAB (op : Nat) (p : Pm) (a : Tgt) (b : Tgt) : Nat :=
  op * 2 ^ 24 + p.code * 2 ^ 22 + a.code * 2 ^ 9 + b.code

/-- The word whose fields decPSHOUAB reads. -/
def encPSHOUAB (op : Nat) (p : Pm) (sh : Shape) (o : Bool) (u : Bool) (a : Tgt) (b : Tgt) : Nat :=
  op * 2 ^ 24 + p.code * 2 ^ 22 + sh.code * 2 ^ 20 + o.toNat * 2 ^ 19 + u.toNat * 2 ^ 18 + a.code * 2 ^ 9 + b.code

/-- The word whose fields decPUAB reads. -/
def encPUAB (op : Nat) (p : Pm) (u : Bool) (a : Tgt) (b : Tgt) : Nat :=
  op * 2 ^ 24 + p.code * 2 ^ 22 + 2 * 2 ^ 19 + u.toNat * 2 ^ 18 + a.code * 2 ^ 9 + b.code

/-- The word whose fields decPIA reads. -/
def encPIA (op : Nat) (p : Pm) (i : BitVec 13) (a : Tgt) : Nat :=
  op * 2 ^ 24 + p.code * 2 ^ 22 + i.toNat * 2 ^ 9 + a.code

/-- The word whose fields decPNA reads. -/
def encPNA (op : Nat) (p : Pm) (n : BitVec 5) (a : Tgt) : Nat :=
  op * 2 ^ 24 + p.code * 2 ^ 22 + n.toNat * 2 ^ 9 + a.code

/-- The word whose fields decPCVA reads. -/
def encPCVA (op : Nat) (p : Pm) (c : Cond) (v : BitVec 9) (a : Tgt) : Nat :=
  op * 2 ^ 24 + p.code * 2 ^ 22 + c.code * 2 ^ 18 + v.toNat * 2 ^ 9 + a.code

/-- The word whose fields decPNA2 reads. -/
def encPNA2 (op : Nat) (p : Pm) (n : BitVec 8) (a : Tgt) : Nat :=
  op * 2 ^ 24 + p.code * 2 ^ 22 + n.toNat * 2 ^ 14 + a.code

/-- The word whose fields decPNXA reads. -/
def encPNXA (op : Nat) (p : Pm) (n : BitVec 8) (x : Bool) (a : Tgt) : Nat :=
  op * 2 ^ 24 + p.code * 2 ^ 22 + n.toNat * 2 ^ 14 + x.toNat * 2 ^ 9 + a.code

/-- The word whose fields decPSHFAB reads. -/
def encPSHFAB (op : Nat) (p : Pm) (sh : Shape) (f : FFmt) (a : Tgt) (b : Tgt) : Nat :=
  op * 2 ^ 24 + p.code * 2 ^ 22 + sh.code * 2 ^ 20 + f.code * 2 ^ 18 + a.code * 2 ^ 9 + b.code

/-- The word whose fields decPSTKXMA reads. -/
def encPSTKXMA (op : Nat) (p : Pm) (s : Fmt) (t : Fmt) (k : BitVec 2) (x : Bool) (m : Rm) (a : Tgt) : Nat :=
  op * 2 ^ 24 + p.code * 2 ^ 22 + s.code * 2 ^ 18 + t.code * 2 ^ 14 + k.toNat * 2 ^ 12 + x.toNat * 2 ^ 11 + m.code * 2 ^ 9 + a.code

/-- The word whose fields decPSFKUMA reads. -/
def encPSFKUMA (op : Nat) (p : Pm) (s : Fmt) (f : BitVec 4) (k : BitVec 2) (u : Bool) (m : Rm) (a : Tgt) : Nat :=
  op * 2 ^ 24 + p.code * 2 ^ 22 + s.code * 2 ^ 18 + f.toNat * 2 ^ 14 + k.toNat * 2 ^ 12 + u.toNat * 2 ^ 11 + m.code * 2 ^ 9 + a.code

/-- The word whose fields decPTFXUMA reads. -/
def encPTFXUMA (op : Nat) (p : Pm) (t : Fmt) (f : BitVec 4) (x : Bool) (u : Bool) (m : Rm) (a : Tgt) : Nat :=
  op * 2 ^ 24 + p.code * 2 ^ 22 + t.code * 2 ^ 18 + f.toNat * 2 ^ 14 + x.toNat * 2 ^ 12 + u.toNat * 2 ^ 11 + m.code * 2 ^ 9 + a.code

/-- The word whose fields decPSA reads. -/
def encPSA (op : Nat) (p : Pm) (s : Fmt) (a : Tgt) : Nat :=
  op * 2 ^ 24 + p.code * 2 ^ 22 + s.code * 2 ^ 18 + a.code

/-- The word whose fields decPHOUAB reads. -/
def encPHOUAB (op : Nat) (p : Pm) (h : BitVec 2) (o : Bool) (u : Bool) (a : Tgt) (b : Tgt) : Nat :=
  op * 2 ^ 24 + p.code * 2 ^ 22 + h.toNat * 2 ^ 20 + o.toNat * 2 ^ 19 + u.toNat * 2 ^ 18 + a.code * 2 ^ 9 + b.code

/-- The word whose fields decPHUAB reads. -/
def encPHUAB (op : Nat) (p : Pm) (h : BitVec 2) (u : Bool) (a : Tgt) (b : Tgt) : Nat :=
  op * 2 ^ 24 + p.code * 2 ^ 22 + h.toNat * 2 ^ 20 + u.toNat * 2 ^ 18 + a.code * 2 ^ 9 + b.code

/-- The word whose fields decPWIA reads. -/
def encPWIA (op : Nat) (p : Pm) (w : BitVec 2) (i : BitVec 6) (a : Tgt) : Nat :=
  op * 2 ^ 24 + p.code * 2 ^ 22 + w.toNat * 2 ^ 20 + i.toNat * 2 ^ 14 + a.code

/-- The word whose fields decPHAB reads. -/
def encPHAB (op : Nat) (p : Pm) (h : Bool) (a : Tgt) (b : Tgt) : Nat :=
  op * 2 ^ 24 + p.code * 2 ^ 22 + 1 * 2 ^ 21 + h.toNat * 2 ^ 20 + a.code * 2 ^ 9 + b.code

/-- The word whose fields decPDFNA reads. -/
def encPDFNA (op : Nat) (p : Pm) (d : Bool) (f : Bool) (n : BitVec 4) (a : Tgt) : Nat :=
  op * 2 ^ 24 + p.code * 2 ^ 22 + d.toNat * 2 ^ 19 + f.toNat * 2 ^ 18 + n.toNat * 2 ^ 14 + a.code

/-- The word whose fields decPOGA reads. -/
def encPOGA (op : Nat) (p : Pm) (o : RedOp) (g : BitVec 2) (a : Tgt) : Nat :=
  op * 2 ^ 24 + p.code * 2 ^ 22 + o.code * 2 ^ 18 + g.toNat * 2 ^ 14 + a.code

/-- The word whose fields decPOEA reads. -/
def encPOEA (op : Nat) (p : Pm) (o : RedOp) (e : Bool) (a : Tgt) : Nat :=
  op * 2 ^ 24 + p.code * 2 ^ 22 + o.code * 2 ^ 18 + e.toNat * 2 ^ 14 + a.code

/-- The word whose fields decPFKXA reads. -/
def encPFKXA (op : Nat) (p : Pm) (f : Fmt) (k : BitVec 4) (x : Bool) (a : Tgt) : Nat :=
  op * 2 ^ 24 + p.code * 2 ^ 22 + f.code * 2 ^ 18 + k.toNat * 2 ^ 14 + x.toNat * 2 ^ 9 + a.code

/-- The word whose fields decPMA reads. -/
def encPMA (op : Nat) (p : Pm) (m : BitVec 2) (a : Tgt) : Nat :=
  op * 2 ^ 24 + p.code * 2 ^ 22 + m.toNat * 2 ^ 14 + a.code

/-- The word whose fields decPNA3 reads. -/
def encPNA3 (op : Nat) (p : Pm) (n : BitVec 3) (a : Tgt) : Nat :=
  op * 2 ^ 24 + p.code * 2 ^ 22 + n.toNat * 2 ^ 14 + a.code

/-- The word whose fields decPKA reads. -/
def encPKA (op : Nat) (p : Pm) (k : BitVec 2) (a : Tgt) : Nat :=
  op * 2 ^ 24 + p.code * 2 ^ 22 + k.toNat * 2 ^ 14 + a.code

/-- The word whose fields decPLA reads. -/
def encPLA (op : Nat) (p : Pm) (l : BitVec 2) (a : Tgt) : Nat :=
  op * 2 ^ 24 + p.code * 2 ^ 22 + l.toNat * 2 ^ 14 + a.code

/-- The word whose fields decPGWCFA reads. -/
def encPGWCFA (op : Nat) (p : Pm) (g : Bool) (w : Bool) (c : BitVec 3) (f : BitVec 3) (a : Tgt) : Nat :=
  op * 2 ^ 24 + p.code * 2 ^ 22 + g.toNat * 2 ^ 21 + w.toNat * 2 ^ 20 + c.toNat * 2 ^ 17 + f.toNat * 2 ^ 14 + a.code

/-- The word whose fields decPFTGA reads. -/
def encPFTGA (op : Nat) (p : Pm) (f : BitVec 3) (t : BitVec 3) (g : Bool) (a : Tgt) : Nat :=
  op * 2 ^ 24 + p.code * 2 ^ 22 + f.toNat * 2 ^ 17 + t.toNat * 2 ^ 14 + g.toNat * 2 ^ 9 + a.code

/-- The word whose fields decPSA2 reads. -/
def encPSA2 (op : Nat) (p : Pm) (s : Bool) (a : Tgt) : Nat :=
  op * 2 ^ 24 + p.code * 2 ^ 22 + s.toNat * 2 ^ 14 + a.code

/-- The word whose fields decPA reads. -/
def encPA (op : Nat) (p : Pm) (a : Tgt) : Nat :=
  op * 2 ^ 24 + p.code * 2 ^ 22 + a.code

/-- The word whose fields decPWCOXVND reads. -/
def encPWCOXVND (op : Nat) (p : Pm) (w : Width) (c : Scope) (o : Ord) (x : Bool) (v : Bool) (n : BitVec 2) (d : Dst) : Nat :=
  op * 2 ^ 24 + p.code * 2 ^ 22 + w.code * 2 ^ 20 + c.code * 2 ^ 17 + o.code * 2 ^ 15 + d.form * 2 ^ 13 + x.toNat * 2 ^ 12 + v.toNat * 2 ^ 11 + n.toNat * 2 ^ 9 + d.code

/-- The word whose fields decPWCOVNA reads. -/
def encPWCOVNA (op : Nat) (p : Pm) (w : Width) (c : Scope) (o : Ord) (v : Bool) (n : BitVec 2) (a : Tgt) : Nat :=
  op * 2 ^ 24 + p.code * 2 ^ 22 + w.code * 2 ^ 20 + c.code * 2 ^ 17 + o.code * 2 ^ 15 + v.toNat * 2 ^ 11 + n.toNat * 2 ^ 9 + a.code

/-- The word whose fields decPWCOXVNA reads. -/
def encPWCOXVNA (op : Nat) (p : Pm) (w : Width) (c : Scope) (o : Ord) (x : Bool) (v : Bool) (n : BitVec 2) (a : Tgt) : Nat :=
  op * 2 ^ 24 + p.code * 2 ^ 22 + w.code * 2 ^ 20 + c.code * 2 ^ 17 + o.code * 2 ^ 15 + x.toNat * 2 ^ 12 + v.toNat * 2 ^ 11 + n.toNat * 2 ^ 9 + a.code

/-- The word whose fields decPCONA reads. -/
def encPCONA (op : Nat) (p : Pm) (c : Scope) (o : Ord) (n : BitVec 2) (a : Tgt) : Nat :=
  op * 2 ^ 24 + p.code * 2 ^ 22 + c.code * 2 ^ 17 + o.code * 2 ^ 15 + n.toNat * 2 ^ 9 + a.code

/-- The word whose fields decPWCOXND reads. -/
def encPWCOXND (op : Nat) (p : Pm) (w : Width) (c : Scope) (o : Ord) (x : Bool) (n : BitVec 2) (d : Dst) : Nat :=
  op * 2 ^ 24 + p.code * 2 ^ 22 + w.code * 2 ^ 20 + c.code * 2 ^ 17 + o.code * 2 ^ 15 + d.form * 2 ^ 13 + x.toNat * 2 ^ 12 + n.toNat * 2 ^ 9 + d.code

/-- The word whose fields decPWCONA reads. -/
def encPWCONA (op : Nat) (p : Pm) (w : Width) (c : Scope) (o : Ord) (n : BitVec 2) (a : Tgt) : Nat :=
  op * 2 ^ 24 + p.code * 2 ^ 22 + w.code * 2 ^ 20 + c.code * 2 ^ 17 + o.code * 2 ^ 15 + n.toNat * 2 ^ 9 + a.code

/-- The word whose fields decPWCOXNA reads. -/
def encPWCOXNA (op : Nat) (p : Pm) (w : Width) (c : Scope) (o : Ord) (x : Bool) (n : BitVec 2) (a : Tgt) : Nat :=
  op * 2 ^ 24 + p.code * 2 ^ 22 + w.code * 2 ^ 20 + c.code * 2 ^ 17 + o.code * 2 ^ 15 + x.toNat * 2 ^ 12 + n.toNat * 2 ^ 9 + a.code

/-- The word whose fields decPCOA reads. -/
def encPCOA (op : Nat) (p : Pm) (c : Scope) (o : Ord) (a : Tgt) : Nat :=
  op * 2 ^ 24 + p.code * 2 ^ 22 + c.code * 2 ^ 17 + o.code * 2 ^ 15 + a.code

/-- The word whose fields decPFTCA reads. -/
def encPFTCA (op : Nat) (p : Pm) (f : Path) (t : Path) (c : Scope) (a : Tgt) : Nat :=
  op * 2 ^ 24 + p.code * 2 ^ 22 + f.code * 2 ^ 19 + t.code * 2 ^ 16 + c.code * 2 ^ 9 + a.code

/-- The word whose fields decPWCOVA reads. -/
def encPWCOVA (op : Nat) (p : Pm) (w : Width) (c : Scope) (o : Ord) (v : Bool) (a : Tgt) : Nat :=
  op * 2 ^ 24 + p.code * 2 ^ 22 + w.code * 2 ^ 20 + c.code * 2 ^ 17 + o.code * 2 ^ 15 + v.toNat * 2 ^ 11 + a.code

/-- The word whose fields decPNFA reads. -/
def encPNFA (op : Nat) (p : Pm) (n : BitVec 7) (f : Bool) (a : Tgt) : Nat :=
  op * 2 ^ 24 + p.code * 2 ^ 22 + n.toNat * 2 ^ 14 + f.toNat * 2 ^ 9 + a.code

/-- The word whose fields decPNCRFA reads. -/
def encPNCRFA (op : Nat) (p : Pm) (n : BitVec 7) (c : Scope) (r : Bool) (f : Bool) (a : Tgt) : Nat :=
  op * 2 ^ 24 + p.code * 2 ^ 22 + n.toNat * 2 ^ 14 + c.code * 2 ^ 11 + r.toNat * 2 ^ 10 + f.toNat * 2 ^ 9 + a.code

/-- The word whose fields decPNCQFA reads. -/
def encPNCQFA (op : Nat) (p : Pm) (n : BitVec 7) (c : Scope) (q : Bool) (f : Bool) (a : Tgt) : Nat :=
  op * 2 ^ 24 + p.code * 2 ^ 22 + n.toNat * 2 ^ 14 + c.code * 2 ^ 11 + q.toNat * 2 ^ 10 + f.toNat * 2 ^ 9 + a.code

/-- The word whose fields decPKIA reads. -/
def encPKIA (op : Nat) (p : Pm) (k : BitVec 2) (i : BitVec 6) (a : Tgt) : Nat :=
  op * 2 ^ 24 + p.code * 2 ^ 22 + k.toNat * 2 ^ 20 + i.toNat * 2 ^ 14 + a.code

/-- The word whose fields decPKIXA reads. -/
def encPKIXA (op : Nat) (p : Pm) (k : BitVec 2) (i : BitVec 6) (x : BitVec 2) (a : Tgt) : Nat :=
  op * 2 ^ 24 + p.code * 2 ^ 22 + k.toNat * 2 ^ 20 + i.toNat * 2 ^ 14 + x.toNat * 2 ^ 9 + a.code

/-- The word whose fields decPTZA reads. -/
def encPTZA (op : Nat) (p : Pm) (t : BitVec 9) (z : Bool) (a : Tgt) : Nat :=
  op * 2 ^ 24 + p.code * 2 ^ 22 + t.toNat % 256 * 2 ^ 14 + z.toNat * 2 ^ 10 + t.toNat / 256 * 2 ^ 9 + a.code

/-- The word whose fields decPTYA reads. -/
def encPTYA (op : Nat) (p : Pm) (t : BitVec 9) (y : Bool) (a : Tgt) : Nat :=
  op * 2 ^ 24 + p.code * 2 ^ 22 + t.toNat % 256 * 2 ^ 14 + y.toNat * 2 ^ 10 + t.toNat / 256 * 2 ^ 9 + a.code

/-- The word whose fields decPTD reads. -/
def encPTD (op : Nat) (p : Pm) (t : BitVec 9) (d : Dst) : Nat :=
  op * 2 ^ 24 + p.code * 2 ^ 22 + t.toNat % 256 * 2 ^ 14 + d.form * 2 ^ 13 + t.toNat / 256 * 2 ^ 9 + d.code

/-- The word whose fields decPTA reads. -/
def encPTA (op : Nat) (p : Pm) (t : BitVec 9) (a : Tgt) : Nat :=
  op * 2 ^ 24 + p.code * 2 ^ 22 + t.toNat % 256 * 2 ^ 14 + t.toNat / 256 * 2 ^ 9 + a.code

/-- The word whose fields decPTMXA reads. -/
def encPTMXA (op : Nat) (p : Pm) (t : BitVec 9) (m : Rm) (x : Bool) (a : Tgt) : Nat :=
  op * 2 ^ 24 + p.code * 2 ^ 22 + t.toNat % 256 * 2 ^ 14 + m.code * 2 ^ 11 + x.toNat * 2 ^ 10 + t.toNat / 256 * 2 ^ 9 + a.code

/-- The word whose fields decPNA4 reads. -/
def encPNA4 (op : Nat) (p : Pm) (n : BitVec 2) (a : Tgt) : Nat :=
  op * 2 ^ 24 + p.code * 2 ^ 22 + n.toNat * 2 ^ 9 + a.code

/-- The word whose fields decPDNA reads. -/
def encPDNA (op : Nat) (p : Pm) (d : Bool) (n : BitVec 2) (a : Tgt) : Nat :=
  op * 2 ^ 24 + p.code * 2 ^ 22 + d.toNat * 2 ^ 14 + n.toNat * 2 ^ 9 + a.code

/-- The word whose fields decPCRBNA reads. -/
def encPCRBNA (op : Nat) (p : Pm) (c : Bool) (r : Bool) (b : BitVec 2) (n : BitVec 2) (a : Tgt) : Nat :=
  op * 2 ^ 24 + p.code * 2 ^ 22 + c.toNat * 2 ^ 17 + r.toNat * 2 ^ 16 + b.toNat * 2 ^ 14 + n.toNat * 2 ^ 9 + a.code

/-- The word whose fields decPBA reads. -/
def encPBA (op : Nat) (p : Pm) (b : BitVec 2) (a : Tgt) : Nat :=
  op * 2 ^ 24 + p.code * 2 ^ 22 + b.toNat * 2 ^ 14 + a.code

/-- The word whose fields decPIA2 reads. -/
def encPIA2 (op : Nat) (p : Pm) (i : BitVec 3) (a : Tgt) : Nat :=
  op * 2 ^ 24 + p.code * 2 ^ 22 + i.toNat * 2 ^ 14 + a.code

/-- The word whose fields decPND reads. -/
def encPND (op : Nat) (p : Pm) (n : BitVec 2) (d : Dst) : Nat :=
  op * 2 ^ 24 + p.code * 2 ^ 22 + d.form * 2 ^ 13 + n.toNat * 2 ^ 9 + d.code

/-- The word whose fields decPOA reads. -/
def encPOA (op : Nat) (p : Pm) (o : Bool) (a : Tgt) : Nat :=
  op * 2 ^ 24 + p.code * 2 ^ 22 + o.toNat * 2 ^ 14 + a.code

/-- The word whose fields decPIA3 reads. -/
def encPIA3 (op : Nat) (p : Pm) (i : BitVec 2) (a : Tgt) : Nat :=
  op * 2 ^ 24 + p.code * 2 ^ 22 + i.toNat * 2 ^ 14 + a.code

/-- The word whose fields decPIA4 reads. -/
def encPIA4 (op : Nat) (p : Pm) (i : BitVec 4) (a : Tgt) : Nat :=
  op * 2 ^ 24 + p.code * 2 ^ 22 + i.toNat * 2 ^ 14 + a.code

/-- The word whose fields decPNA5 reads. -/
def encPNA5 (op : Nat) (p : Pm) (n : BitVec 6) (a : Tgt) : Nat :=
  op * 2 ^ 24 + p.code * 2 ^ 22 + n.toNat * 2 ^ 14 + a.code

/-- The word whose fields decPQA reads. -/
def encPQA (op : Nat) (p : Pm) (q : BitVec 3) (a : Tgt) : Nat :=
  op * 2 ^ 24 + p.code * 2 ^ 22 + q.toNat * 2 ^ 14 + a.code

/-- The word whose fields decPCA reads. -/
def encPCA (op : Nat) (p : Pm) (c : BitVec 4) (a : Tgt) : Nat :=
  op * 2 ^ 24 + p.code * 2 ^ 22 + c.toNat * 2 ^ 14 + a.code

/-- The word whose fields decPCA2 reads. -/
def encPCA2 (op : Nat) (p : Pm) (c : BitVec 8) (a : Tgt) : Nat :=
  op * 2 ^ 24 + p.code * 2 ^ 22 + c.toNat * 2 ^ 14 + a.code

/-- The word whose fields decPIDNA reads. -/
def encPIDNA (op : Nat) (p : Pm) (i : BitVec 3) (d : Bool) (n : BitVec 3) (a : Tgt) : Nat :=
  op * 2 ^ 24 + p.code * 2 ^ 22 + i.toNat * 2 ^ 19 + d.toNat * 2 ^ 18 + n.toNat * 2 ^ 14 + a.code

/-- The words of an instruction, written from the encoding tables of 02_encoding.md and of the chapter of each
instruction; an event of the device has no words. -/
def encode : Instr → List Word
  | .add p sh u a b => [BitVec.ofNat 32 (encPSHUAB 0x01 p sh u a b)]
  | .sub p sh u a b => [BitVec.ofNat 32 (encPSHUAB 0x02 p sh u a b)]
  | .mul p sh u a b => [BitVec.ofNat 32 (encPSHUAB 0x03 p sh u a b)]
  | .mulh p sh u a b => [BitVec.ofNat 32 (encPSHUAB 0x04 p sh u a b)]
  | .mad p sh u a b => [BitVec.ofNat 32 (encPSHUAB 0x05 p sh u a b)]
  | .div p sh u a b => [BitVec.ofNat 32 (encPSHUAB 0x06 p sh u a b)]
  | .rem p sh u a b => [BitVec.ofNat 32 (encPSHUAB 0x07 p sh u a b)]
  | .and_ p sh u a b => [BitVec.ofNat 32 (encPSHUAB 0x08 p sh u a b)]
  | .or_ p sh u a b => [BitVec.ofNat 32 (encPSHUAB 0x09 p sh u a b)]
  | .xor p sh u a b => [BitVec.ofNat 32 (encPSHUAB 0x0a p sh u a b)]
  | .andn p sh u a b => [BitVec.ofNat 32 (encPSHUAB 0x0b p sh u a b)]
  | .shl p sh u a b => [BitVec.ofNat 32 (encPSHUAB 0x0c p sh u a b)]
  | .shr p sh u a b => [BitVec.ofNat 32 (encPSHUAB 0x0d p sh u a b)]
  | .sra p sh u a b => [BitVec.ofNat 32 (encPSHUAB 0x0e p sh u a b)]
  | .rol p sh u a b => [BitVec.ofNat 32 (encPSHUAB 0x0f p sh u a b)]
  | .min p sh u a b => [BitVec.ofNat 32 (encPSHUAB 0x10 p sh u a b)]
  | .max p sh u a b => [BitVec.ofNat 32 (encPSHUAB 0x11 p sh u a b)]
  | .abs p sh u a b => [BitVec.ofNat 32 (encPSHUAB 0x12 p sh u a b)]
  | .neg p sh u a b => [BitVec.ofNat 32 (encPSHUAB 0x13 p sh u a b)]
  | .clz p sh u a b => [BitVec.ofNat 32 (encPSHUAB 0x14 p sh u a b)]
  | .popc p sh u a b => [BitVec.ofNat 32 (encPSHUAB 0x15 p sh u a b)]
  | .brev p sh u a b => [BitVec.ofNat 32 (encPSHUAB 0x16 p sh u a b)]
  | .bfx p sh u a b => [BitVec.ofNat 32 (encPSHUAB 0x17 p sh u a b)]
  | .bfi p sh u a b => [BitVec.ofNat 32 (encPSHUAB 0x18 p sh u a b)]
  | .cmp p c a b => [BitVec.ofNat 32 (encPCAB 0x19 p c a b)]
  | .sel p a b => [BitVec.ofNat 32 (encPAB 0x1a p a b)]
  | .sat p sh o u a b => [BitVec.ofNat 32 (encPSHOUAB 0x1b p sh o u a b)]
  | .mov p sh u a b => [BitVec.ofNat 32 (encPSHUAB 0x1c p sh u a b)]
  | .nul p a b => [BitVec.ofNat 32 (encPAB 0x1d p a b)]
  | .addr p u a b => [BitVec.ofNat 32 (encPUAB 0x1e p u a b)]
  | .aoff p u a b => [BitVec.ofNat 32 (encPUAB 0x1f p u a b)]
  | .aidx p u a b => [BitVec.ofNat 32 (encPUAB 0x20 p u a b)]
  | .addi p i a => [BitVec.ofNat 32 (encPIA 0x28 p i a)]
  | .andi p i a => [BitVec.ofNat 32 (encPIA 0x29 p i a)]
  | .ori p i a => [BitVec.ofNat 32 (encPIA 0x2a p i a)]
  | .xori p i a => [BitVec.ofNat 32 (encPIA 0x2b p i a)]
  | .shli p n a => [BitVec.ofNat 32 (encPNA 0x2c p n a)]
  | .shri p n a => [BitVec.ofNat 32 (encPNA 0x2d p n a)]
  | .srai p n a => [BitVec.ofNat 32 (encPNA 0x2e p n a)]
  | .cmpi p c v a => [BitVec.ofNat 32 (encPCVA 0x2f p c v a)]
  | .movi p i a => [BitVec.ofNat 32 (encPIA 0x30 p i a)]
  | .movhi p i a => [BitVec.ofNat 32 (encPIA 0x31 p i a)]
  | .litw p a k => [BitVec.ofNat 32 (encPA 0x32 p a), k]
  | .muli p i a => [BitVec.ofNat 32 (encPIA 0x33 p i a)]
  | .get p n x a => [BitVec.ofNat 32 (encPNXA 0x38 p n x a)]
  | .put p n a => [BitVec.ofNat 32 (encPNA2 0x39 p n a)]
  | .getx p n x a => [BitVec.ofNat 32 (encPNXA 0x3a p n x a)]
  | .putx p n a => [BitVec.ofNat 32 (encPNA2 0x3b p n a)]
  | .rempty p n a => [BitVec.ofNat 32 (encPNA2 0x3c p n a)]
  | .rfull p n a => [BitVec.ofNat 32 (encPNA2 0x3d p n a)]
  | .fadd p sh f a b => [BitVec.ofNat 32 (encPSHFAB 0x40 p sh f a b)]
  | .fsub p sh f a b => [BitVec.ofNat 32 (encPSHFAB 0x41 p sh f a b)]
  | .fmul p sh f a b => [BitVec.ofNat 32 (encPSHFAB 0x42 p sh f a b)]
  | .fma p sh f a b => [BitVec.ofNat 32 (encPSHFAB 0x43 p sh f a b)]
  | .fmin p sh f a b => [BitVec.ofNat 32 (encPSHFAB 0x44 p sh f a b)]
  | .fmax p sh f a b => [BitVec.ofNat 32 (encPSHFAB 0x45 p sh f a b)]
  | .fabs p sh f a b => [BitVec.ofNat 32 (encPSHFAB 0x46 p sh f a b)]
  | .fneg p sh f a b => [BitVec.ofNat 32 (encPSHFAB 0x47 p sh f a b)]
  | .fcmp p sh f a b => [BitVec.ofNat 32 (encPSHFAB 0x48 p sh f a b)]
  | .fclass p sh f a b => [BitVec.ofNat 32 (encPSHFAB 0x49 p sh f a b)]
  | .frcp p sh f a b => [BitVec.ofNat 32 (encPSHFAB 0x4a p sh f a b)]
  | .frsq p sh f a b => [BitVec.ofNat 32 (encPSHFAB 0x4b p sh f a b)]
  | .fexp2 p sh f a b => [BitVec.ofNat 32 (encPSHFAB 0x4c p sh f a b)]
  | .flog2 p sh f a b => [BitVec.ofNat 32 (encPSHFAB 0x4d p sh f a b)]
  | .fsqrt p sh f a b => [BitVec.ofNat 32 (encPSHFAB 0x4e p sh f a b)]
  | .fdiv p sh f a b => [BitVec.ofNat 32 (encPSHFAB 0x4f p sh f a b)]
  | .cvt p s t k x m a => [BitVec.ofNat 32 (encPSTKXMA 0x50 p s t k x m a)]
  | .cvti p s f k u m a => [BitVec.ofNat 32 (encPSFKUMA 0x51 p s f k u m a)]
  | .cvtf p t f x u m a => [BitVec.ofNat 32 (encPTFXUMA 0x52 p t f x u m a)]
  | .scale p s a => [BitVec.ofNat 32 (encPSA 0x53 p s a)]
  | .pack p h o u a b => [BitVec.ofNat 32 (encPHOUAB 0x54 p h o u a b)]
  | .unpack p h u a b => [BitVec.ofNat 32 (encPHUAB 0x55 p h u a b)]
  | .bcast p w i a => [BitVec.ofNat 32 (encPWIA 0x58 p w i a)]
  | .shuf p h a b => [BitVec.ofNat 32 (encPHAB 0x59 p h a b)]
  | .rot p d f n a => [BitVec.ofNat 32 (encPDFNA 0x5a p d f n a)]
  | .red p o g a => [BitVec.ofNat 32 (encPOGA 0x5b p o g a)]
  | .scan p o e a => [BitVec.ofNat 32 (encPOEA 0x5c p o e a)]
  | .topk p f k x a => [BitVec.ofNat 32 (encPFKXA 0x5d p f k x a)]
  | .lmask p m a => [BitVec.ofNat 32 (encPMA 0x5e p m a)]
  | .compact p h a b => [BitVec.ofNat 32 (encPHAB 0x5f p h a b)]
  | .expand p h a b => [BitVec.ofNat 32 (encPHAB 0x60 p h a b)]
  | .dot p sh f a b => [BitVec.ofNat 32 (encPSHFAB 0x61 p sh f a b)]
  | .in_ p n a => [BitVec.ofNat 32 (encPNA3 0x70 p n a)]
  | .eos p k a => [BitVec.ofNat 32 (encPKA 0x71 p k a)]
  | .emit p k a => [BitVec.ofNat 32 (encPKA 0x72 p k a)]
  | .bound p l a => [BitVec.ofNat 32 (encPLA 0x73 p l a)]
  | .filt p g w c f a => [BitVec.ofNat 32 (encPGWCFA 0x74 p g w c f a)]
  | .merge p f t g a => [BitVec.ofNat 32 (encPFTGA 0x75 p f t g a)]
  | .gate p s a => [BitVec.ofNat 32 (encPSA2 0x76 p s a)]
  | .mark p a => [BitVec.ofNat 32 (encPA 0x77 p a)]
  | .drop p n a => [BitVec.ofNat 32 (encPNA3 0x78 p n a)]
  | .ld p w c o x v n d => [BitVec.ofNat 32 (encPWCOXVND 0x80 p w c o x v n d)]
  | .st p w c o v n a => [BitVec.ofNat 32 (encPWCOVNA 0x81 p w c o v n a)]
  | .ldv p w c o x v n a => [BitVec.ofNat 32 (encPWCOXVNA 0x82 p w c o x v n a)]
  | .stv p w c o v n a => [BitVec.ofNat 32 (encPWCOVNA 0x83 p w c o v n a)]
  | .recl p c o n a => [BitVec.ofNat 32 (encPCONA 0x84 p c o n a)]
  | .ldt p c o n a => [BitVec.ofNat 32 (encPCONA 0x85 p c o n a)]
  | .stt p c o n a => [BitVec.ofNat 32 (encPCONA 0x86 p c o n a)]
  | .pref p c o n a => [BitVec.ofNat 32 (encPCONA 0x87 p c o n a)]
  | .gath p w c o x n d => [BitVec.ofNat 32 (encPWCOXND 0x88 p w c o x n d)]
  | .scat p w c o n a => [BitVec.ofNat 32 (encPWCONA 0x89 p w c o n a)]
  | .aadd p w c o n a => [BitVec.ofNat 32 (encPWCONA 0x8a p w c o n a)]
  | .amin p w c o x n a => [BitVec.ofNat 32 (encPWCOXNA 0x8b p w c o x n a)]
  | .amax p w c o x n a => [BitVec.ofNat 32 (encPWCOXNA 0x8c p w c o x n a)]
  | .aand p w c o n a => [BitVec.ofNat 32 (encPWCONA 0x8d p w c o n a)]
  | .aor p w c o n a => [BitVec.ofNat 32 (encPWCONA 0x8e p w c o n a)]
  | .axor p w c o n a => [BitVec.ofNat 32 (encPWCONA 0x8f p w c o n a)]
  | .axch p w c o n a => [BitVec.ofNat 32 (encPWCONA 0x90 p w c o n a)]
  | .acas p w c o n a => [BitVec.ofNat 32 (encPWCONA 0x91 p w c o n a)]
  | .afadd p w c o n a => [BitVec.ofNat 32 (encPWCONA 0x92 p w c o n a)]
  | .ascat p w c o n a => [BitVec.ofNat 32 (encPWCONA 0x93 p w c o n a)]
  | .fence p c o a => [BitVec.ofNat 32 (encPCOA 0x94 p c o a)]
  | .fencex p f t c a => [BitVec.ofNat 32 (encPFTCA 0x95 p f t c a)]
  | .spld p w c o v a => [BitVec.ofNat 32 (encPWCOVA 0x96 p w c o v a)]
  | .spst p w c o v a => [BitVec.ofNat 32 (encPWCOVA 0x97 p w c o v a)]
  | .flush p c o n a => [BitVec.ofNat 32 (encPCONA 0x98 p c o n a)]
  | .pin p c o n a => [BitVec.ofNat 32 (encPCONA 0x99 p c o n a)]
  | .unpin p c o n a => [BitVec.ofNat 32 (encPCONA 0x9a p c o n a)]
  | .barm p n f a => [BitVec.ofNat 32 (encPNFA 0xa0 p n f a)]
  | .barr p n c r f a => [BitVec.ofNat 32 (encPNCRFA 0xa1 p n c r f a)]
  | .barw p n c q f a => [BitVec.ofNat 32 (encPNCQFA 0xa2 p n c q f a)]
  | .barx p n c r f a => [BitVec.ofNat 32 (encPNCRFA 0xa3 p n c r f a)]
  | .syni p a => [BitVec.ofNat 32 (encPA 0xa4 p a)]
  | .synw p a => [BitVec.ofNat 32 (encPA 0xa5 p a)]
  | .syna p a => [BitVec.ofNat 32 (encPA 0xa6 p a)]
  | .chapp p k i a => [BitVec.ofNat 32 (encPKIA 0xa7 p k i a)]
  | .chseq p k i a => [BitVec.ofNat 32 (encPKIA 0xa8 p k i a)]
  | .chwt p k i a => [BitVec.ofNat 32 (encPKIA 0xa9 p k i a)]
  | .chctl p k i x a => [BitVec.ofNat 32 (encPKIXA 0xaa p k i x a)]
  | .tdisp p a => [BitVec.ofNat 32 (encPA 0xab p a)]
  | .mma p t z a => [BitVec.ofNat 32 (encPTZA 0xb0 p t z a)]
  | .mmas p t z a => [BitVec.ofNat 32 (encPTZA 0xb1 p t z a)]
  | .mmap p t z a => [BitVec.ofNat 32 (encPTZA 0xb2 p t z a)]
  | .acz p t y a => [BitVec.ofNat 32 (encPTYA 0xb3 p t y a)]
  | .acrd p t d => [BitVec.ofNat 32 (encPTD 0xb4 p t d)]
  | .acwr p t a => [BitVec.ofNat 32 (encPTA 0xb5 p t a)]
  | .accv p t m x a => [BitVec.ofNat 32 (encPTMXA 0xb6 p t m x a)]
  | .tagr p n a => [BitVec.ofNat 32 (encPNA4 0xb7 p n a)]
  | .tags p d n a => [BitVec.ofNat 32 (encPDNA 0xb8 p d n a)]
  | .tfch p c r b n a => [BitVec.ofNat 32 (encPCRBNA 0xb9 p c r b n a)]
  | .trel p b a => [BitVec.ofNat 32 (encPBA 0xba p b a)]
  | .tdsc p i a => [BitVec.ofNat 32 (encPIA2 0xbb p i a)]
  | .mlook p a => [BitVec.ofNat 32 (encPA 0xbc p a)]
  | .pgld p n a => [BitVec.ofNat 32 (encPNA4 0xc0 p n a)]
  | .pgst p d n a => [BitVec.ofNat 32 (encPDNA 0xc1 p d n a)]
  | .pgnx p n d => [BitVec.ofNat 32 (encPND 0xc2 p n d)]
  | .pgsv p n a => [BitVec.ofNat 32 (encPNA4 0xc3 p n a)]
  | .pgrs p n a => [BitVec.ofNat 32 (encPNA4 0xc4 p n a)]
  | .slhb p o a => [BitVec.ofNat 32 (encPOA 0xc5 p o a)]
  | .slht p a => [BitVec.ofNat 32 (encPA 0xc6 p a)]
  | .pgq p n a => [BitVec.ofNat 32 (encPNA4 0xc7 p n a)]
  | .phend p a => [BitVec.ofNat 32 (encPA 0xd0 p a)]
  | .ctxq p i a => [BitVec.ofNat 32 (encPIA3 0xd1 p i a)]
  | .rateq p i a => [BitVec.ofNat 32 (encPIA4 0xd2 p i a)]
  | .sarm p n a => [BitVec.ofNat 32 (encPNA5 0xd3 p n a)]
  | .swait p n a => [BitVec.ofNat 32 (encPNA5 0xd4 p n a)]
  | .launch p q a => [BitVec.ofNat 32 (encPQA 0xd5 p q a)]
  | .trap p c a => [BitVec.ofNat 32 (encPCA 0xe0 p c a)]
  | .brk p n a => [BitVec.ofNat 32 (encPNA2 0xe1 p n a)]
  | .csrr p c a => [BitVec.ofNat 32 (encPCA2 0xe2 p c a)]
  | .csrw p c a => [BitVec.ofNat 32 (encPCA2 0xe3 p c a)]
  | .nodeid p a => [BitVec.ofNat 32 (encPA 0xe4 p a)]
  | .fcnt p i a => [BitVec.ofNat 32 (encPIA3 0xe5 p i a)]
  | .eqrd p i a => [BitVec.ofNat 32 (encPIA2 0xe6 p i a)]
  | .obsr p i d n a => [BitVec.ofNat 32 (encPIDNA 0xe7 p i d n a)]
  | .haltr p a => [BitVec.ofNat 32 (encPA 0xe8 p a)]
  | .lctailWrite _ _ => []
  | .lcbaseWrite _ _ => []
  | .takeLaunchEntry _ => []
  | .startEntry _ => []
  | .placementRetry _ => []
  | .wavefrontAdmission _ => []
  | .elementSwitch _ => []
  | .launchComplete _ => []
  | .firingStart _ => []
  | .firingComplete _ _ => []
  | .fillArrival _ _ => []
  | .phaseEnd _ => []
  | .boundInputFeed _ _ => []
  | .boundOutputDrain _ _ => []
  | .junctionRelease _ _ => []
  | .counterNodeForward _ _ => []
  | .cornerTurn _ _ => []
  | .agenInStep _ _ => []
  | .agenOutStep _ _ => []
  | .duskMarkerCut _ => []
  | .trapAction _ => []
  | .rollback _ => []
  | .machineCheck _ _ _ _ => []
  | .fccmdResume _ _ _ _ => []
  | .fccmdEnd _ _ _ _ => []
  | .faultRecordWrite _ => []
  | .preempt _ => []
  | .preemptionTimeout _ => []
  | .resumeRegion _ => []
  | .quotaPeriodBoundary _ => []
  | .atsCompletion _ _ _ _ _ _ => []
  | .pageResponseSuccess _ _ => []
  | .pageResponseFailure _ _ _ => []
  | .faultWaitExpiry _ _ => []
  | .drainResume _ => []
  | .invalidateRequest _ _ _ => []
  | .globalInvalidate _ => []
  | .invalidateCompletion _ => []
  | .ttinvWrite _ _ => []
  | .ttinvComplete _ => []
  | .mtinvWrite _ _ => []
  | .pminvWrite _ _ => []
  | .entailWrite _ _ _ => []
  | .enbaseWrite _ _ _ => []
  | .takeEngineEntry _ _ => []
  | .encmdPause _ _ => []
  | .encmdResume _ _ => []
  | .encmdSkip _ _ => []
  | .encmdRetry _ _ => []
  | .engineEntryStart _ _ => []
  | .engineEntryComplete _ _ _ => []
  | .gstailWrite _ _ => []
  | .gscmdSkip _ => []
  | .gscmdRetry _ => []
  | .takeTask _ => []
  | .pieceStart _ _ => []
  | .pieceComplete _ => []
  | .hyperperiodBoundary _ => []
  | .regulatorSettled _ _ => []
  | .rateChangeApply _ => []
  | .marginReplan _ _ => []
  | .ptctlEnable _ => []
  | .ptctlDisable _ => []
  | .ptctlReset _ => []
  | .functionLevelReset _ => []
  | .dvcapWrite _ => []
  | .flqRevoke _ _ => []
  | .plcmdLoad _ => []
  | .bkcmdWrite _ _ => []
  | .ocvalRead => []
  | .powerOn => []
  | .resetPin => []
  | .stcmdReset => []
  | .recoveryImage _ => []
  | .attestationRequest _ _ => []
  | .alarmClass1 => []
  | .alarmClass2 => []
  | .alarmClass3 => []
  | .registerWrite _ _ _ => []
  | .gsbaseWrite _ _ => []
  | .accessPerformed _ _ => []
  | .peerLinkTransfer _ _ _ _ _ => []
  | .powerLoss => []
  | .coincidentEdge _ _ => []
  | .mtinvComplete _ => []
  | .pminvComplete _ => []

end Sys2Proof
end

