-- ==== Sys2Proof/Machine/Bits.lean ====
section
/-! DEFINITION. Elements of a payload, signed readings, byte order: how R5 and R80 lay values into 64 bytes. -/

namespace Sys2Proof.Machine

/-- The number `x` read as a two's complement number of `w` bits. -/
def sgn (w x : Nat) : Int :=
  let y := x % 2 ^ w
  if 2 * y < 2 ^ w then (y : Int) else (y : Int) - (2 ^ w : Nat)

/-- The integer `i` modulo 2^w. -/
def wrap (w : Nat) (i : Int) : Nat := (i % ((2 ^ w : Nat) : Int)).toNat

/-- `x` read signed or unsigned at width `w`. -/
def rd (u : Bool) (w x : Nat) : Int := if u then ((x % 2 ^ w : Nat) : Int) else sgn w x

/-- Element `j` of width `w` (R80). -/
def elAt (w : Nat) (p : Payload) (j : Nat) : Nat := p.toNat / 2 ^ (w * j) % 2 ^ w

/-- Lane `j` (R5). -/
def lane (p : Payload) (j : Nat) : Word := BitVec.ofNat 32 (elAt 32 p j)

/-- Lanes 0 and 1 as a 64-bit scalar (R5). -/
def scal (p : Payload) : Dword := BitVec.ofNat 64 (elAt 64 p 0)

/-- The first `n` elements of width `w`. -/
def elsOf (w n : Nat) (p : Payload) : List Nat := (List.range n).map (elAt w p)

/-- The number whose elements of width `w` are the list, lowest first. -/
def packNat (w : Nat) : List Nat → Nat
  | [] => 0
  | x :: xs => x % 2 ^ w + 2 ^ w * packNat w xs

/-- The payload whose elements of width `w` are the list, the rest zero (R80, R114). -/
def ofEls (w : Nat) (xs : List Nat) : Payload := BitVec.ofNat 512 (packNat w xs)

/-- A payload with lane 0 alone. -/
def lane0 (n : Nat) : Payload := ofEls 32 [n]

/-- A payload with a 64-bit scalar in lanes 0 and 1. -/
def scalar64 (n : Nat) : Payload := ofEls 64 [n]

/-- Bytes of a number, lowest first (R5). -/
def toBytes : Nat → Nat → List Byte
  | 0, _ => []
  | n + 1, x => BitVec.ofNat 8 x :: toBytes n (x / 256)

/-- The number whose bytes are the list, lowest first (R5). -/
def ofBytes : List Byte → Nat
  | [] => 0
  | b :: bs => b.toNat + 256 * ofBytes bs

/-- Bits `[hi:lo]` of a number. -/
def bits (x hi lo : Nat) : Nat := x / 2 ^ lo % 2 ^ (hi + 1 - lo)

/-- `x` with bits `[hi:lo]` replaced. -/
def putBits (x hi lo v : Nat) : Nat :=
  x - bits x hi lo * 2 ^ lo + v % 2 ^ (hi + 1 - lo) * 2 ^ lo

/-- Bit `i` of a number. -/
def bit (x i : Nat) : Bool := x / 2 ^ i % 2 == 1

/-- Zero or one. -/
def b2n (b : Bool) : Nat := if b then 1 else 0

/-- How many bits a number takes; 0 for 0. -/
def bitLen (x : Nat) : Nat := if x = 0 then 0 else Nat.log2 x + 1

/-- The count of one bits among the lowest `n`. -/
def popCount : Nat → Nat → Nat
  | 0, _ => 0
  | n + 1, x => x % 2 + popCount n (x / 2)

/-- The lowest `n` bits in reverse order. -/
def revBits : Nat → Nat → Nat
  | 0, _ => 0
  | n + 1, x => x % 2 * 2 ^ n + revBits n (x / 2)

/-- Ceiling of a quotient. -/
def ceilDiv (a b : Nat) : Nat := (a + b - 1) / b

/-- A list with place `i` set. -/
def setAt {α : Type} : List α → Nat → α → List α
  | [], _, _ => []
  | _ :: xs, 0, y => y :: xs
  | x :: xs, n + 1, y => x :: setAt xs n y

/-- A list with place `i` changed. -/
def modAt {α : Type} : List α → Nat → (α → α) → List α
  | [], _, _ => []
  | x :: xs, 0, f => f x :: xs
  | x :: xs, n + 1, f => x :: modAt xs n f

/-- The pairs of places and entries of a list, from place `k` on. -/
def indexed {α : Type} : Nat → List α → List (Nat × α)
  | _, [] => []
  | k, x :: xs => (k, x) :: indexed (k + 1) xs

/-- The entry under a key. -/
def look {α : Type} (k : Nat) : List (Nat × α) → Option α
  | [] => none
  | (j, x) :: r => if j = k then some x else look k r

/-- The list with the entry under `k` set, keys rising. -/
def put {α : Type} (k : Nat) (x : α) : List (Nat × α) → List (Nat × α)
  | [] => [(k, x)]
  | (j, y) :: r =>
    if j = k then (k, x) :: r
    else if k < j then (k, x) :: (j, y) :: r
    else (j, y) :: put k x r

/-- The list without the entries under `k`. -/
def del {α : Type} (k : Nat) : List (Nat × α) → List (Nat × α)
  | [] => []
  | (j, y) :: r => if j = k then del k r else (j, y) :: del k r

end Sys2Proof.Machine
end

