-- ==== Sys2Proof/Machine/State.lean ====
section
/-! DEFINITION. The state of the part as plain data: every register, memory, queue and table that the manual names,
with the reset values of its tables. Association lists stand for sparse maps: an element of the grid that no launch
holds is not listed. -/

namespace Sys2Proof.Machine

/-! ### Memory -/

/-- Bytes of a memory as (address, byte) pairs: addresses strictly rising, no byte 0 listed (log 5). -/
abbrev Mem := List Host.Cell

/-- The canonical form of a memory. -/
def Mem.wf : Mem → Bool
  | [] => true
  | [(_, b)] => b != 0
  | (a, b) :: (a', b') :: m => b != 0 && decide (a < a') && Mem.wf ((a', b') :: m)

/-- What an access waits for: nothing; an ATS request of a translation slice for a page, to read or to write it (R248); a page request for a page, which withholds it
(R250); a pin in a set of the slice of a page (R266); or nothing any more, its prefetch having been dropped (R276). -/
inductive Wait where
  | no
  | ats (page slice : Nat) (write : Bool)
  | pri (page : Nat)
  | pin (page : Nat)
  | drop
deriving DecidableEq, Repr

/-! ### Tokens, slots and firings -/

/-- Kinds of a token (R41). -/
inductive Kind where
  | data | null | row | kend | bound | dusk | resume | cond
deriving DecidableEq, Repr

/-- A token: kind, payload and the sequence tag of a filtered record (R16, R41). -/
structure Token where
  kind : Kind
  data : Payload
  tag : Option (BitVec 16)
deriving DecidableEq, Repr

/-- A token at an operand port, and the element cycle from which the consumer can take it (R112). -/
structure Opnd where
  tok : Token
  due : Nat
deriving DecidableEq, Repr

/-- A slot of a firing: whether it has issued, and its operand ports (R11, R109). -/
structure Slot where
  issued : Bool := false
  l : Option Opnd := none
  r : Option Opnd := none
  t : Option Opnd := none
  p : Option Opnd := none
deriving DecidableEq, Repr

/-- A place in the order of emissions at the output ports: the port, the slot, and which of the slot's targets (ta 0,
tb 1, the false port of a FILT 2, its condition port 3; R159, R161). -/
structure OutPos where
  port : Nat
  slot : Nat
  field : Nat
deriving DecidableEq, Repr

/-- An emission at an output port that waits for the places before it; `upto` counts the accesses the element had
issued before the producing slot (R183). -/
structure Held where
  pos : OutPos
  tok : Token
  due : Nat
  upto : Nat
deriving DecidableEq, Repr

/-- A firing in flight (R10 to R13): its number, whether it runs the epilogue, its slots, the input tokens assigned to
it by port (R160), the output positions it still owes in slot order, and the emissions that wait for their turn. -/
structure Firing where
  no : Nat
  epi : Bool
  slots : List Slot
  assigned : List (List Token)
  owed : List OutPos
  held : List Held
deriving DecidableEq, Repr

/-! ### Configuration of an element -/

/-- A block: header, words and the break bits of its slots (R30, R31, R443). -/
structure Block where
  header : Word
  words : List Word
  brk : List Bool
deriving DecidableEq, Repr

/-- An actor descriptor (R9, R74): counts by port (0 for an unused port), II, D, successors, epilogue, port masks and
live-register mask. -/
structure ActorDesc where
  cin : List Nat
  cout : List Nat
  ii : Nat
  d : Nat
  nextT : Nat
  nextF : Nat
  epi : Bool
  inMask : BitVec 8
  outMask : BitVec 8
  live : BitVec 256
deriving DecidableEq, Repr

/-- The configuration of an address generator (R288): memory port, direction, input or output port, buffer depth, marker
kinds, base token, trips and strides of levels 0 to 3. -/
structure AgenCfg where
  port : Nat
  out : Bool
  k : Nat
  depth : Nat
  marks : BitVec 8
  base : Dword
  trips : List Nat
  strides : List Word
deriving DecidableEq, Repr

/-- A configuration context: descriptor, body, epilogue, node map, effective initiation interval (R111) and address
generators. -/
structure Ctx where
  desc : ActorDesc
  body : Block
  epi : Option Block
  nodes : List Word
  iis : Nat
  agens : List AgenCfg
deriving DecidableEq, Repr

/-! ### The pool, barriers, generators -/

/-- States of a register or fetch buffer (R105, R362). -/
inductive RegSt where
  | empty | pending | full
deriving DecidableEq, Repr

/-- A register: state and 64 bytes (R105). -/
structure Reg where
  st : RegSt := .empty
  data : Payload := 0
deriving DecidableEq, Repr

/-- An accumulator tile: the type bit (true for INT32) and 256 elements, row by row (R360). -/
structure Tile where
  int : Bool
  els : List Word
deriving DecidableEq, Repr

/-- A named barrier (R306). -/
structure Barrier where
  flt : Bool := false
  gen : BitVec 24 := 0
  pbyt : BitVec 40 := 0
  exp : BitVec 16 := 0
  arr : BitVec 16 := 0
deriving DecidableEq, Repr

/-- States of a pattern generator (R391). -/
inductive GenSt where
  | idle | loaded | running | ended
deriving DecidableEq, Repr

/-- A pattern generator: the context of R391 and its copy of the program. -/
structure Gen where
  dir : Bool := false
  gran : Bool := false
  st : GenSt := .idle
  pidx : BitVec 16 := 0
  tid : BitVec 16 := 0
  rf : Word := 0
  cf : Word := 0
  cmaj : Word := 0
  cmin : Word := 0
  emaj : Word := 0
  yld : Word := 0
  prog : List Word := []
deriving DecidableEq, Repr

/-- The context of an address generator (R290): counters of levels 0 to 3, whether it has finished, the tokens an
out-direction generator holds (R287), what its step waits for, and, while a step that has issued is still to be performed, how many accesses its
element had issued before it (R183, R304). -/
structure Agen where
  cnt : List Nat
  fin : Bool
  q : List Token
  wait : Wait := .no
  since : Option Nat := none
deriving DecidableEq, Repr

/-- One shadow set of an element (R227): contexts, input buffers, pool image, FPSTAT with the flags that instructions in
flight will still raise (R98, R132), barriers, generators and counters. -/
structure ESet where
  ctxs : List (Option Ctx)
  inBuf : List (List Token)
  regs : List Reg
  scratch : Mem
  tiles : List (Nat × Tile)
  fpstat : Word
  flagQ : List (Nat × Word)
  bars : List Barrier
  gens : List Gen
  agens : List Agen
  stall : List Word
  occ : BitVec 48
deriving DecidableEq, Repr

/-- A fetch buffer (R362): state, 256 elements of up to 16 bits, tag, role, scaled flag, 16 scale exponents, and the
lines it pins (page, line). -/
structure FetchBuf where
  st : RegSt := .empty
  els : List (BitVec 16) := []
  tag : BitVec 10 := 0
  roleB : Bool := false
  scaled : Bool := false
  exps : List (BitVec 8) := []
  pins : List (Nat × Nat) := []
deriving DecidableEq, Repr

/-! ### Translations, descriptors, accesses -/

/-- A translation (R246): IOVA and host physical address of a page of `size` bytes, and its permissions. -/
structure Xlat where
  iova : Nat
  pa : Nat
  size : Nat
  r : Bool
  w : Bool
deriving DecidableEq, Repr

/-- An extent of an object (R239): the object offset at which it begins, its IOVA and its bytes. -/
structure Ext where
  off : Nat
  iova : Nat
  len : Nat
deriving DecidableEq, Repr

/-- A cached tensor entry (R244): tid, the 64 bytes, and the extents found in its pointer-form list. -/
structure DescC where
  tid : Nat
  d : BitVec 512
  exts : List Ext
deriving DecidableEq, Repr

/-- A requester's caches, most recently used first (R244, R246): translations, and tensor entries. -/
structure ReqCache where
  tlb : List Xlat := []
  desc : List DescC := []
deriving DecidableEq, Repr

/-- Read-modify-write operations of the atomics (R280). -/
inductive AtomOp where
  | add | min | max | and | or | xor | xch | cas | fadd
deriving DecidableEq, Repr

/-- What an outstanding access does when it is performed. -/
inductive AccOp where
  | ld | st | ldv | stv | recl | ldt | stt | pref | gath | scat
  | atom (o : AtomOp)
  | ascat | flush | pin | unpin | tagr
  | tags (dflt : Bool)
  | tfch (buf : Nat) (roleB sc : Bool)
  | accv (tile : Nat) (m : Rm) (sat : Bool)
  | tdsc (item : Nat)
  | mlook
  | pgld (g : Nat)
  | pgst (g : Nat) (trn : Bool)
  | pgnx (g : Nat)
  | pgrs (g : Nat)
  | chapp (eng : Nat)
  | tdisp
  | launch (q : Nat)
  | barrier (pbyt : Bool) (bar : Nat) (home : Nat)
  | arm (bar : Nat) (home : Nat)
  | fence
  | fencex (f t : Path)
deriving DecidableEq, Repr

/-- An access that an instruction has issued and that is not yet performed (R255, R273): its identity in issue order, its
slot, where its result goes and the tag it carries (R16), its memory port and path, the operation, the address token
(L), the other operands (R, T), scope, order, width in bytes, sign extension, vector form, what
it waits for, how many of its lanes have been performed (R267) and the flags that they will raise as it completes (R97), and the state in which
it found its register (R106). -/
structure Access where
  id : Nat
  no : Nat
  epi : Bool
  slot : Nat
  dst : Dst
  tag : Option (BitVec 16)
  port : Nat
  path : Path
  op : AccOp
  tok : Dword
  l : Payload
  r : Payload
  t : Payload
  scope : Scope
  ord : Ord
  width : Nat
  sx : Bool
  vec : Bool
  wait : Wait
  lanes : Nat := 0
  flags : Nat := 0
  was : RegSt := .empty
deriving DecidableEq, Repr

/-- Data that has come back for a pending register and is not yet written into it (R105), which it can be from an element cycle on (R364). -/
structure Fill where
  v : Nat
  data : Payload
  due : Nat := 0
deriving DecidableEq, Repr

/-- The fault register of an element or of a region port: what its trap record will say (R333), with the master cycle of
the trap (R330) and the number of the firing that raised it; for one that no element raised, the device page of its source; `pol` is what
the policy of that master cycle lets the operator see of the trap (R449). -/
structure FaultReg where
  cls : Nat
  cause : Nat
  col : Nat
  row : Nat
  ctx : Nat
  blk : Bool
  slot : Nat
  nopos : Bool
  node : Word
  loop : Dword
  addr : Dword
  detail : Dword
  mc : Dword
  fires : Nat
  cycle : Nat
  no : Nat
  pol : Nat × Nat := (0, 0)
deriving DecidableEq, Repr

/-- An engine report that reached an element after its last saved cut (R309, R312): to a barrier or to the sync word at
an offset. -/
structure Report where
  sync : Bool
  at_ : Nat
  bytes : Nat
deriving DecidableEq, Repr

/-- What a dusk-marker cut saves of an element (R338): live registers, scratchpad, accumulators, barriers, generators,
firing counts, the tokens of its input buffers, the sequence state of its FILT and MERGE slots, its place in the phases, and how
many engine reports it had kept (R309). -/
structure ElemCut where
  e : Nat
  ctx : Nat
  phases : Nat
  pred : Bool
  regs : List (Nat × Reg)
  scratch : Mem
  tiles : List (Nat × Tile)
  bars : List Barrier
  gens : List Gen
  agens : List Agen
  started : Nat
  done : Nat
  inBuf : List (List Token)
  filts : List (Nat × Nat × Nat)
  merges : List (Nat × Nat)
  nrep : Nat
deriving DecidableEq, Repr

/-- The counters of an element and of its slice as a master cycle began (R439, R456): stall excess, input occupancy, valid and pinned lines. -/
structure Counters where
  stall : List Word
  occ : BitVec 48
  valid : Nat
  pinned : Nat
deriving DecidableEq, Repr

/-- An element that a launch holds. `seen` keeps its counters as the master cycle began; `filts` lists (slot, seq, window) of its FILT slots,
those of an epilogue behind the 64 of a body, and `merges` (slot, expected) of
its MERGE slots in the same way (R169, R170); `mxUse` names what the matrix instruction uses that executes until cycle `mxFree`: fetch buffers
0 to 3, and accumulator tile t as 4 + t (R361); `win` counts, for the current hyperperiod and those before it, the element
cycles in which the actor was ready to start, and those of them in which it lacked credit (R200); `inAt` and `outAt` keep, port by port, the
element cycle in which each token of the input buffer arrived and in which each credit that is free was freed, oldest first (R411); `begun` says that the firing before the
next one belongs to the same launch, phase or resumption (R411); `more` lists the traps that it
raised after the one in its fault register, until they are recorded (R330). -/
structure Elem where
  l : LaunchRef
  reg : Nat
  col : Nat
  row : Nat
  elpart : Word
  ctx : Nat
  set : Nat
  cur : ESet
  alt : ESet
  shadow : List (Nat × Option Ctx)
  firings : List Firing
  started : Nat
  done : Nat
  icyc : Nat
  lastStart : Option Nat
  begun : Bool
  inAt : List (List Nat)
  outAt : List (List Nat)
  filts : List (Nat × Nat × Nat)
  merges : List (Nat × Nat)
  epiRun : Bool
  phend : Option Bool
  phases : Nat
  pred : Bool
  waves : Nat
  switched : Bool
  divFree : Nat
  mxFree : Nat
  mxUse : List Nat
  acc : List Access
  accNext : Nat
  fills : List Fill
  ports : List ReqCache
  bufs : List FetchBuf
  pins : List (Nat × Nat)
  fault : Option FaultReg
  more : List FaultReg
  stopped : Bool
  brkPass : Option (Nat × Bool × Nat)
  epoch : Nat
  replayUpTo : Option Nat
  marks : List Bool
  reports : List Report
  win : List (Nat × Nat)
  seen : Counters
deriving DecidableEq, Repr

/-! ### Streams and regions -/

/-- Producer end of a stream (R72). -/
inductive Prod where
  | elem (e port : Nat)
  | regIn (port : Nat)
  | link (reg port : Nat)
deriving DecidableEq, Repr

/-- Consumer end of a stream (R72); a link ends at an input port of its region (R409). -/
inductive Cons where
  | elem (e port : Nat)
  | regOut (port : Nat)
  | count (stream : Nat)
  | linkIn (port : Nat)
deriving DecidableEq, Repr

/-- A siding (R180, R181, R192): depth and marks, the tokens accepted but not yet visible to the consuming side, the
tokens visible to it, the credit freed but not yet visible to the producing side, the trigger windows, and the triggers that have fired
and are still to be evaluated (R199, R203). -/
structure Siding where
  depth : Nat
  hi : Nat
  lo : Nat
  fresh : List Token
  ready : List Token
  freed : Nat
  above : Bool
  below : Bool
  hiRun : Nat
  loRun : Nat
  hiTrig : Bool
  loTrig : Bool
deriving DecidableEq, Repr

/-- The sidings of a stream on one page edge: one, or two side by side for a two-wide stream, with the ones whose turn it is to take
a token and to release one (R194). -/
structure Bank where
  lanes : List Siding
  put : Nat
  take : Nat
deriving DecidableEq, Repr

/-- A border that a stream crosses (R193): the islands on its producing and consuming sides, the sidings on the producing page's edge,
which a siding pair has, and those on the receiving page's edge. -/
structure Border where
  p : Nat
  c : Nat
  lead : Option Bank
  bank : Bank
deriving DecidableEq, Repr

/-- A counter node (R185 to R187): configured trips and marker kinds, the counts, the trips in force, the pending bounds,
and whether a token has been counted since the launch or phase start. -/
structure CountNode where
  trips0 : List Nat
  kinds : List Nat
  cnt : List Nat
  trips : List Nat
  pend : List (Option Nat)
  begun : Bool
deriving DecidableEq, Repr

/-- A stream: declaration (R72), arc count (R465), the tokens a junction holds (each with the accesses its producer had
issued), tokens on the arcs, the depth, hi and lo of its siding declaration, the borders that its route crosses, in order (R193),
corner-turn rows and outputs (R188), counter node, tokens past the nodes that the consumer has not taken, and the islands at its
producing and consuming ends. -/
structure Stream where
  prod : Prod
  cons : Cons
  depth : Nat
  init : Nat
  wide : Bool
  turn : Bool
  junction : Option Scope
  arcs : Nat
  junc : List (Token × Nat)
  wire : List Token
  siding : Option (Nat × Nat × Nat)
  borders : List Border
  rows : List Token
  turned : List Token
  count : Option CountNode
  out : List Token
  pIsl : Option Nat
  cIsl : Option Nat
deriving DecidableEq, Repr

/-- A binding of a region port (R226): address token, token count (0 for no end). -/
structure Bind where
  tok : Dword
  count : Nat
deriving DecidableEq, Repr

/-- A region input (R226, R230, R338, R339): binding, tokens delivered from it, tokens that wait to enter (from a link or the
sequencer), the replay log since the marker of the last complete cut, the place of its next token in the save area, and what is left of it to
replay, tokens counted towards
the next marker, whether a MARK is pending, whether a marker is due, markers injected, the later markers that are not yet of a
complete cut (number, place in the log, count), tokens of the current unit of the gate, the page request that withholds
it, and the device page of the port (R465). -/
structure RIn where
  bind : Option Bind := none
  given : Nat := 0
  q : List Token := []
  log : List Token := []
  place : Nat := 0
  replay : List Token := []
  since : Nat := 0
  since0 : Nat := 0
  mark : Bool := false
  want : Bool := false
  nmark : Nat := 0
  marks : List (Nat × Nat × Nat) := []
  gate : Nat := 0
  wait : Wait := .no
  page : Nat := 0
deriving DecidableEq, Repr

/-- A region output (R226, R339, R340): binding, data tokens written, tokens of every kind emitted since the marker of the last
complete cut, tokens still to suppress, markers passed and the count at each that is not yet of a complete cut, the page
request that withholds it, and the device page of the port (R465). -/
structure ROut where
  bind : Option Bind := none
  taken : Nat := 0
  since : Nat := 0
  suppress : Nat := 0
  nmark : Nat := 0
  marks : List (Nat × Nat) := []
  wait : Wait := .no
  page : Nat := 0
deriving DecidableEq, Repr

/-- What has become of a region (R329, R342, R252). -/
inductive RegionSt where
  | running | held | frozen | preempting | preempted | swapped | ended
deriving DecidableEq, Repr

/-- A cut of a region (R339): its number, the elements saved so far, and the counter nodes, by stream, as its marker passed
them. -/
structure Cut where
  epoch : Nat
  elems : List ElemCut
  nodes : List (Nat × CountNode)
deriving DecidableEq, Repr

/-- A trap record or chain-fault record of eight dwords (R333). -/
abbrev Record := List Dword

/-- A reconfiguration under way (R24, R228): its queue entry's completion place, whether the wavefront is admitted, the
new contexts by element, the declared descriptors. -/
structure Wave where
  q : Nat
  loadIova : Option Nat
  admitted : Bool
deriving DecidableEq, Repr

/-- A region of a running launch with its signal box, whose records `waiting` are the tenant's and `opWaiting` the operator's (R332, R454).
`rolling` says that a rollback is to be made, and whether pools are zeroed first (R336, R340); `resume` that a resume command waits (R332),
`pre` that a pre-emption request waits (R229, R343), `out` that its elements' working sets are the inactive ones (R342); `stopRatios` lists
the ratios of its islands as it stopped (R203); `iterMark` is the energy of its pages as its current outer iteration began (R343); `revoked`
that a revocation asked it to pre-empt (R427); `ending` that FCCMD has ended it and its accesses are still to be performed (R304, R334);
`method` that a method directive of the launch's image names it (R376), and `putBy` that a link put of one of its chains does (R329);
`portMore` lists traps that no element raised and that came after the one in `portFault`, until they are recorded (R330). `waitPage` is the
page that a drained region waits for (R252), and `waitFor` the trap to raise if the page is refused: it names the port that stays attached
(R436, R464). -/
structure Region where
  w : Nat
  h : Nat
  ox : Nat
  oy : Nat
  variant : Nat
  save : Nat
  cutn : Nat
  replayable : Bool
  st : RegionSt
  elems : List Nat
  streams : List Stream
  ins : List RIn
  outs : List ROut
  gated : Bool
  tiles : Nat
  admitted : Nat
  epoch : Nat
  cuts : List Cut
  portFault : Option FaultReg
  portMore : List FaultReg
  waiting : List Record
  opWaiting : List Record
  banks : List (Nat × Nat)
  wave : Option Wave
  waitPage : Option Nat
  waitFor : Option FaultReg
  preemptAge : Nat
  rolling : Option Bool
  resume : Bool
  pre : Bool
  out : Bool
  stopRatios : List (Nat × Nat × Nat)
  quotaHeld : Bool
  waveTrig : Bool
  iterMark : Nat
  revoked : Bool
  ending : Bool
  method : Bool
  putBy : Bool
deriving DecidableEq, Repr

/-- An island (R189 to R204): region, page rectangle within the region, nominal ratio, ratio, decided ratio, voltage in mV,
whether its regulator has settled, floor of R196 in 64ths. -/
structure Island where
  reg : Nat
  x : Nat
  y : Nat
  w : Nat
  h : Nat
  nomP : Nat
  nomQ : Nat
  p : Nat
  q : Nat
  dp : Nat
  dq : Nat
  mv : Nat
  settled : Bool
  floor : Nat
deriving DecidableEq, Repr

/-- A running launch (R220 to R225, R189 to R208); `policy` is the digest that its image binds it to (R448), `tracks` the tracks that
its streams hold, by element edge and direction (R156), and `chains` the chain entries that the loader has still to append, each with
its engine (R64). -/
structure Launch where
  ref : LaunchRef
  entry : Nat
  fromDev : Bool
  image : Dword
  policy : List Byte
  pword : Word
  rateReg : Nat
  ratePort : Nat
  rateN : Nat
  rateC : Nat
  regions : List Region
  islands : List Island
  hyper : Nat
  tick : Nat
  pause : Bool
  resolves : Nat
  fMcap : Bool
  fPcap : Bool
  fDyad : Bool
  fLim : Bool
  fShort : Bool
  halting : Bool
  iter : Nat
  tracks : List (Nat × Nat)
  chains : List (Nat × List Dword)
deriving DecidableEq, Repr

/-! ### Engines, sequencer, partitions -/

/-- State of an engine entry (R317, R319). -/
inductive EntrySt where
  | queued | flight | failed
deriving DecidableEq, Repr

/-- An entry an engine has taken (R314, R315): its eight dwords, where it stands in host memory, its sequence number, its
state, bytes performed, its failure code and cause, what it waits for, and the lines it pins (page, line). -/
structure EngEntry where
  dw : List Dword
  iova : Option Nat
  seq : Nat
  st : EntrySt
  bytes : Nat
  code : Nat
  cause : Nat
  wait : Wait
  pins : List (Nat × Nat)
deriving DecidableEq, Repr

/-- A copy engine or the link engine (R313, R314): registers, sequence numbers given, append buffer (sequence number and
entry), entries taken, entries completed out of order, waiting records, the tenant's and the operator's, caches. -/
structure Engine where
  base : Dword := 0
  tail : Word := 0
  head : Word := 0
  seq : Word := 0
  back : Bool := false
  cflt : Bool := false
  stop : Bool := false
  pause : Bool := false
  given : Nat := 0
  append : List (Nat × List Dword) := []
  entries : List EngEntry := []
  doneSeqs : List Nat := []
  waiting : Option Record := none
  opWaiting : Option Record := none
  cache : ReqCache := {}
deriving DecidableEq, Repr

/-- The slot whose TDISP sent a task (R378). -/
structure TaskSrc where
  l : LaunchRef
  e : Nat
  no : Nat
  epi : Bool
  slot : Nat
deriving DecidableEq, Repr

/-- A piece of a task (R376, R377): first position, positions, the operands' current dwords and tags, conversions made, the section
it runs on, and, while that is a conversion, its operand, target tag and pool tid. -/
structure Piece where
  p0 : Nat
  pn : Nat
  ops : List Dword
  tags : List (BitVec 10)
  depth : Nat
  running : Option RegionRef
  conv : Option (Nat × BitVec 10 × Nat)
  done : Bool
deriving DecidableEq, Repr

/-- A task of the graph sequencer (R375, R376): its descriptor, where it stands in host memory, its sequence number, the
TDISP slot that sent it, its pieces, pool tids, whether it is cut, stopped, and the page request that holds it. -/
structure Task where
  dw : List Dword
  iova : Option Nat
  seq : Nat
  src : Option TaskSrc
  cut : Bool
  pieces : List Piece
  pool : List Nat
  stopped : Bool
  wait : Wait
deriving DecidableEq, Repr

/-- The graph sequencer (R372 to R379): its registers, append buffer, tasks, and its copy of the method table, of which `gone`
lists the entries that MTINV removed since (R374; log 21). -/
structure Sequencer where
  base : Dword := 0
  tail : Word := 0
  head : Word := 0
  seq : Word := 0
  back : Bool := false
  cflt : Bool := false
  stop : Bool := false
  given : Nat := 0
  append : List (List Dword × TaskSrc) := []
  tasks : List Task := []
  doneSeqs : List Nat := []
  loaded : Bool := false
  methods : List (Nat × List Dword) := []
  gone : List Nat := []
  waiting : Option Record := none
  opWaiting : Option Record := none
  cache : ReqCache := {}
deriving DecidableEq, Repr

/-- An ATS request that is outstanding (R247): its 4 KiB page, the translation slice that sent it (R248), whether the access writes, and
the ranges that invalidations have named since it was sent (R257). -/
structure AtsReq where
  page : Nat
  slice : Nat
  write : Bool
  gone : List (Nat × Nat)
deriving DecidableEq, Repr

/-- A page request that is outstanding (R249): its page, the translation slice that sent it, whether write access was requested, its age
in master cycles (R252), and whether a Success has been taken and the translation is being asked for again (R251). -/
structure PageReq where
  page : Nat
  slice : Nat
  write : Bool
  age : Nat
  answered : Bool
deriving DecidableEq, Repr

/-- An Invalidate Request under way (R256, R257): its range, and the frames of the translations that it dropped, each as its
first physical address and the one behind its last. -/
structure Inval where
  lo : Nat
  hi : Nat
  frames : List (Nat × Nat)
deriving DecidableEq, Repr

/-- A launch entry in a queue (R221, R222): eight dwords, where it stands, whether a LAUNCH appended it, its place among the
queue's entries, and the image's dwords once they have been read by a launch that waits for pages (R67, R218). -/
structure QEntry where
  dw : List Dword
  iova : Nat
  fromDev : Bool
  seq : Nat
  img : Option (List Nat)
deriving DecidableEq, Repr

/-- A message to a peer part (R316, R421): the peer, or 1,024 for the one whose get it answers, the partition that the address token belongs to there,
the token, whether bytes go with it or are asked for, how many, and the bytes. -/
structure PeerMsg where
  peer : Nat
  part : Nat
  tok : Dword
  put : Bool
  len : Nat
  data : List Byte
deriving DecidableEq, Repr

/-- A link put or get of a peer part on its way (R316, R421): the address token, whether it puts, its bytes (of a get, those read so
far), its length, the bytes performed, what it waits for, and the lines it pins (page, line). -/
structure PeerXfer where
  tok : Dword
  put : Bool
  data : List Byte
  len : Nat
  bytes : Nat
  wait : Wait
  pins : List (Nat × Nat) := []
deriving DecidableEq, Repr

/-- A partition: its table entry (R419), policy state (R444 to R448), and the registers of its page (R424) with what
stands behind them; `lcDue` says that the NEXT field of the entry at LCBASE, which has been taken, is still to be read (R222),
`known` lists the translations that completions have given and no invalidation has dropped: lines of their frames may stand in slices (R256, R305); `counted` and `revoked` hold, by queue, the watts for which its contract counts in FSUM, and those for which one does whose revocation is under way
(R427), and `ttWait` lists the accesses, by element and identity, that TTINV waits for (R245). -/
structure Part where
  depots : Word := 0
  pasid : BitVec 20 := 0
  node : BitVec 16 := 0
  lshare : BitVec 9 := 0
  enable : Bool := false
  err : Bool := false
  busy : Bool := false
  keyAddr : Dword := 0
  key : List Byte := []
  serial : Dword := 0
  memKey : Option (BitVec 512) := none
  lcbase : Dword := 0
  lctail : Word := 0
  lchead : Word := 0
  lqpri : BitVec 16 := 0
  qseq : List Word := List.replicate 8 0
  lcBack : Bool := false
  lcCflt : Bool := false
  lcDue : Bool := false
  arq : Dword := 0
  queues : List (List QEntry) := List.replicate 8 []
  qlast : List Nat := List.replicate 4 7
  append : List (List Dword × Nat) := []
  taken : List Nat := List.replicate 8 0
  launches : List Launch := []
  ttbase : Dword := 0
  ttlim : BitVec 16 := 0
  ttArg : BitVec 17 := 0
  ttBusy : Bool := false
  ttWait : List (Nat × Nat) := []
  fwlim : BitVec 6 := 0
  pralloc : BitVec 10 := 0
  fwx : Bool := false
  atsOff : Bool := false
  slices : List (List Xlat) := []
  sliceDesc : List (List DescC) := []
  ats : List AtsReq := []
  pageReqs : List PageReq := []
  pageWait : List (Nat × Nat × Bool) := []
  invals : List Inval := []
  known : List Xlat := []
  fcbase : Dword := 0
  fcsize : BitVec 4 := 4
  fcwr : Word := 0
  fcrd : Word := 0
  fclost : Word := 0
  ended : List Record := []
  opEnded : List Record := []
  mtbase : Dword := 0
  mtArg : BitVec 17 := 0
  mtBusy : Bool := false
  cvpool : Word := 0
  gs : Sequencer := {}
  pmbase : Dword := 0
  pmBusy : Bool := false
  lktab : Dword := 0
  flq : List Dword := List.replicate 8 0
  counted : List (Option Nat) := List.replicate 8 none
  revoked : List (Option Nat) := List.replicate 8 none
  eqper : BitVec 6 := 30
  equota : Dword := 0
  eqiter : Dword := 0
  eqspent : Dword := 0
  eqdebt : Dword := 0
  eqtotal : Dword := 0
  mgstat : Dword := 0
  trbase : Dword := 0
  trctl : Word := 4
  trwr : Word := 0
  trrd : Word := 0
  trdrop : Word := 0
  bklist : Dword := 0
  bkBusy : Bool := false
  pladdr : Dword := 0
  plBusy : Bool := false
  plcode : Byte := 0
  pldig : List Byte := List.replicate 64 0
  classes : List Dword := List.replicate 6 0
  prng : List Dword := List.replicate 8 0
  prlim : List Dword := List.replicate 8 0
  engines : List (Nat × Engine) := []
  peerIn : List PeerXfer := []
  msi : List Nat := List.replicate 4 0
deriving DecidableEq, Repr

/-! ### Slices, pages, management -/

/-- States of a line that a slice holds (R261); an invalid line is not listed. -/
inductive LineSt where
  | clean | dirty | stale
deriving DecidableEq, Repr

/-- A line of a slice (R259 to R265): its number (physical address / 128), whether it takes a resident way, state, bytes, pin count, how many of the pins
are PIN instructions' or the version directory's (R266), whether its object is read-only (R263), the launch that brought it in (R264), the tids of the objects whose writes it holds since
it was last clean, and whether TTINV waits for it to be written back (R245, R255). -/
structure Line where
  line : Nat
  resident : Bool
  st : LineSt
  data : BitVec 1024
  pins : Nat
  hard : Nat
  ro : Bool
  by_ : Option LaunchRef := none
  tids : List Nat := []
  owed : Bool := false
deriving DecidableEq, Repr

/-- A version directory entry (R268, R269): the launch that made it, the line and its live versions, oldest first; the tids of the objects whose
STVs made versions of it, and whether TTINV waits for it to be written back (R245, R255). -/
structure VEntry where
  by_ : LaunchRef
  line : Nat
  vers : List (BitVec 16 × BitVec 1024)
  tids : List Nat := []
  owed : Bool := false
deriving DecidableEq, Repr

/-- A page: elements that passed self-test (R216), margin plan (R197), current heat (R217), energy since launch (R439), the pJ that its
meter has not yet counted as a µJ, the pJ of the last 2^20 master cycles, the banks that failed its self-test (R457), and its station slice;
`lines` stand most recently used first, and `halted` says that a machine check has halted the slice (R335). -/
structure Page where
  usable : BitVec 16 := 0xFFFF
  plan : List Byte := List.replicate 64 0
  heat : Byte := 0
  energy : BitVec 48 := 0
  rest : Nat := 0
  window : Nat := 0
  banks : List (Nat × Nat) := []
  resw : BitVec 4 := 0
  halted : Bool := false
  lines : List Line := []
  vdir : List VEntry := []
  gs : ReqCache := {}
  tf : ReqCache := {}
deriving DecidableEq, Repr

/-- A ring of the operator (R454). -/
structure Ring where
  base : Dword := 0
  size : BitVec 4 := 4
  wr : Word := 0
  rd : Word := 0
  drop : Word := 0
deriving DecidableEq, Repr

/-- The management path's registers (R426, R454, R460) and the state of starts (R457 to R463): `starting` is 1 in a cold start, 2 in a
warm one, 3 in one that goes into recovery, 0 outside a start; `alarms` is the log of alarms by class, oldest first (R462). -/
structure Mgmt where
  power : Bool
  cap : BitVec 16
  idle : BitVec 16
  fsum : BitVec 16
  of : Ring
  ot : Ring
  ocsel : Dword
  ocval : Dword
  svn : Word
  code : Byte
  alarm : BitVec 2
  recov : Bool
  kind : BitVec 2
  stfail : Dword
  failed : Nat
  fwImage : List Byte
  fwDigest : List Byte
  seed : Bool
  sessions : Bool
  keyGen : Nat
  starting : Nat
  irqs : Nat
  alarms : List Nat
deriving DecidableEq, Repr

/-! ### The whole part -/

/-- A translation that the host's IOMMU holds for the function and PASID of a partition (outside the part, R247). -/
structure IoMap where
  n : Nat
  x : Xlat
deriving DecidableEq, Repr

/-- The slot an instruction is executed for: element, firing number, whether it is the epilogue's, slot. -/
structure Cursor where
  e : Nat
  no : Nat
  epi : Bool
  slot : Nat
deriving DecidableEq, Repr

/-- A move of the agenda (log 3): an event of the table; the issue of one slot; one issue of a pipe; the emissions of an element that
leave; the transport of tokens of a launch, and what its sidings accept; an island edge of an element; and what the host does to its own
memory and IOMMU. -/
inductive Move where
  | event (i : Instr)
  | issue (c : Cursor)
  | pipe (e : Nat) (wide : Bool)
  | emit (e : Nat)
  | pump (l : LaunchRef)
  | accept (l : LaunchRef)
  | edge (e : Nat)
  | hostStore (pa : Nat) (bytes : List Byte)
  | mgmtStore (a : Nat) (bytes : List Byte)
  | hostMap (m : IoMap)
  | hostUnmap (n lo hi : Nat)
  | hostAts (n : Nat) (off : Bool)
deriving DecidableEq, Repr

/-- The state of the part, with the host's memory and the management memory (R444, R454) that it reads and writes. -/
structure State where
  mem : Mem
  mmem : Mem
  iommu : List IoMap
  pages : List Page
  mgmt : Mgmt
  parts : List Part
  elems : List (Nat × Elem)
  peerOut : List PeerMsg
  agenda : List Move
  cur : Cursor
  cycle : Nat
  fresh : Nat
deriving DecidableEq, Repr

/-- The management registers after a cold start that succeeded (R426, R454, R457, R460; log 1, 8). -/
def Mgmt.reset : Mgmt where
  power := true
  cap := 2800
  idle := 310
  fsum := 0
  of := {}
  ot := {}
  ocsel := 0
  ocval := 0
  svn := 0
  code := 0
  alarm := 0
  recov := false
  kind := 1
  stfail := 0
  failed := 0
  fwImage := []
  fwDigest := List.replicate 64 0
  seed := true
  sessions := true
  keyGen := 0
  starting := 0
  irqs := 0
  alarms := []

/-- The part right after a cold start (R457, R458): no partition is enabled, every register page is at its reset values,
no launch runs, and memory lists nothing. -/
def State.reset : State where
  mem := []
  mmem := []
  iommu := []
  pages := List.replicate 256 {}
  mgmt := Mgmt.reset
  parts := List.replicate 32 {}
  elems := []
  peerOut := []
  agenda := []
  cur := ⟨0, 0, false, 0⟩
  cycle := 0
  fresh := 0

/-! ### How a step can end -/

/-- Reasons for a fault. Traps of the part are no faults: they are taken (R328, R329). -/
inductive Fault where
  /-- Raised by step when the part has no power and no POWER_ON is due: nothing of it runs (R457). Safe: a claim about a
  next state says nothing of it. -/
  | unpowered
deriving DecidableEq, Repr

/-- Reasons for a refusal. -/
inductive Refusal where
  /-- Raised by the dispatch of an instruction that has no meaning in the model yet. Safe: a claim about a next state
  says nothing of it. -/
  | notModelled (mnemonic : String)
deriving DecidableEq, Repr

/-- The outcome of a step of this machine. -/
abbrev Out := Host.Outcome State Fault Refusal

end Sys2Proof.Machine
end

