-- ==== Sys2Proof/Machine/Mem.lean ====
section
/-! DEFINITION. Reading and writing bytes of a memory in canonical form (log 5): physical memory and scratchpads. -/

namespace Sys2Proof.Machine

/-- What a byte of memory that nothing has written reads as (DESIGN CHOICE, log 5). -/
def Mem.unwritten : Byte := 0

/-- The byte at an address. -/
def Mem.get : Mem → Nat → Byte
  | [], _ => Mem.unwritten
  | (a, b) :: m, k => if a = k then b else Mem.get m k

/-- The memory with the byte at an address set; a byte 0 is not listed. -/
def Mem.set : Mem → Nat → Byte → Mem
  | [], k, v => if v = Mem.unwritten then [] else [(k, v)]
  | (a, b) :: m, k, v =>
    if k < a then (if v = Mem.unwritten then (a, b) :: m else (k, v) :: (a, b) :: m)
    else if k = a then (if v = Mem.unwritten then m else (k, v) :: m)
    else (a, b) :: Mem.set m k v

/-- `n` bytes from an address upward. -/
def Mem.read (m : Mem) (k n : Nat) : List Byte := (List.range n).map fun i => Mem.get m (k + i)

/-- Bytes written from an address upward. -/
def Mem.write : Mem → Nat → List Byte → Mem
  | m, _, [] => m
  | m, k, b :: bs => Mem.write (Mem.set m k b) (k + 1) bs

/-- A number of `n` bytes read from an address (R5). -/
def Mem.readN (m : Mem) (k n : Nat) : Nat := ofBytes (m.read k n)

/-- A number of `n` bytes written at an address (R5). -/
def Mem.writeN (m : Mem) (k n v : Nat) : Mem := m.write k (toBytes n v)

end Sys2Proof.Machine
end

