-- ==== Sys2Proof/Machine/Ops.lean ====
section
/-! DEFINITION. The named operations over the state: partitions, launches, regions, elements, slots and firings;
emission (R35, R112, R159); taking a trap (R328 to R330, R333) and what a fetch reads (R68). -/

namespace Sys2Proof.Machine

/-! ### Partitions, launches, regions, elements -/

/-- Partition `n`. -/
def State.part (s : State) (n : Nat) : Part := s.parts.getD n {}

/-- Whether a partition's page answers: it is enabled, and no reset is under way (R419, R425). -/
def Part.answers (p : Part) : Bool := p.enable && !p.busy

/-- The state with partition `n` changed. -/
def State.modPart (s : State) (n : Nat) (f : Part → Part) : State := { s with parts := modAt s.parts n f }

/-- A page of the device. -/
def State.page (s : State) (k : Nat) : Page := s.pages.getD k {}

/-- The state with a page changed. -/
def State.modPage (s : State) (k : Nat) (f : Page → Page) : State := { s with pages := modAt s.pages k f }

/-- A running launch. -/
def State.launch? (s : State) (l : LaunchRef) : Option Launch :=
  (s.part l.n).launches.find? fun x => x.ref == l

/-- A list of launches with one changed. -/
def mapLaunch (l : LaunchRef) (f : Launch → Launch) (ls : List Launch) : List Launch :=
  ls.map fun x => if x.ref = l then f x else x

/-- The state with a running launch changed. -/
def State.modLaunch (s : State) (l : LaunchRef) (f : Launch → Launch) : State :=
  s.modPart l.n fun p => { p with launches := mapLaunch l f p.launches }

/-- A region of a running launch. -/
def State.region? (s : State) (r : RegionRef) : Option Region :=
  match s.launch? r.l with
  | none => none
  | some x => x.regions[r.k]?

/-- The state with a region changed. -/
def State.modRegion (s : State) (r : RegionRef) (f : Region → Region) : State :=
  s.modLaunch r.l fun x => { x with regions := modAt x.regions r.k f }

/-- An element that a launch holds. -/
def State.elem? (s : State) (e : Nat) : Option Elem := look e s.elems

/-- The state with an element set. -/
def State.setElem (s : State) (e : Nat) (x : Elem) : State := { s with elems := put e x s.elems }

/-- The state with an element changed, if a launch holds it. -/
def State.modElem (s : State) (e : Nat) (f : Elem → Elem) : State :=
  match s.elem? e with
  | none => s
  | some x => s.setElem e (f x)

/-- The region of an element. -/
def Elem.rref (x : Elem) : RegionRef := ⟨x.l, x.reg⟩

/-- The page of an element of the device grid (R216). -/
def pageOf (e : Nat) : Nat := e / 64 / 4 * 16 + e % 64 / 4

/-- The depot of a page: four pages wide and two high, four depots across the device (R348, R433; log 13). -/
def depotOf (page : Nat) : Nat := page / 16 / 2 * 4 + page % 16 / 4

/-- Page `j` of depot `d`, row by row (R419; log 13). -/
def depotPage (d j : Nat) : Nat := (d / 4 * 2 + j / 4) * 16 + d % 4 * 4 + j % 4

/-- The depots of a partition, rising (R419). -/
def Part.depotList (p : Part) : List Nat := (List.range 32).filter fun d => bit p.depots.toNat d

/-- The pages of a partition in page-index order (R419). -/
def Part.pageList (p : Part) : List Nat := p.depotList.flatMap fun d => (List.range 8).map (depotPage d)

/-- Names of the elements of a region, in column and then row order (R330). -/
def State.regionElems (s : State) (r : RegionRef) : List (Nat × Elem) :=
  s.elems.filter fun p => p.2.rref == r

/-- The state with every element of a region changed. -/
def State.modRegionElems (s : State) (r : RegionRef) (f : Elem → Elem) : State :=
  { s with elems := s.elems.map fun p => if p.2.rref = r then (p.1, f p.2) else p }

/-! ### Grants (R100 to R102) -/

/-- Registers granted. -/
def Elem.regs (x : Elem) : Nat := bits x.elpart.toNat 24 16

/-- Scratchpad bytes granted. -/
def Elem.scrBytes (x : Elem) : Nat := 4096 * bits x.elpart.toNat 15 8

/-- Accumulator tiles granted. -/
def Elem.accTiles (x : Elem) : Nat := 4 * bits x.elpart.toNat 31 25

/-! ### Contexts, blocks, firings -/

/-- The active configuration. -/
def Elem.ctxNow (x : Elem) : Option Ctx := x.cur.ctxs.getD x.ctx none

/-- The body or the epilogue of the active configuration. -/
def Elem.block (x : Elem) (epi : Bool) : Option Block :=
  match x.ctxNow with
  | none => none
  | some c => if epi then c.epi else some c.body

/-- A firing in flight. -/
def Elem.firing? (x : Elem) (no : Nat) (epi : Bool) : Option Firing :=
  x.firings.find? fun f => f.no == no && f.epi == epi

/-- The element with a firing changed. -/
def Elem.modFiring (x : Elem) (no : Nat) (epi : Bool) (f : Firing → Firing) : Elem :=
  { x with firings := x.firings.map fun g => if g.no = no ∧ g.epi = epi then f g else g }

/-- The instruction at a slot of a block, as the decoder reads it. -/
def Block.instr? (b : Block) (i : Nat) : Option Instr :=
  match decode (b.words.drop i) with
  | .ok (k, _) => some k
  | .error _ => none

/-- The block with its instructions, by slot; the second word of a LITW pair is none. -/
def Block.instrsFrom : List Word → Nat → List (Nat × Instr)
  | [], _ => []
  | w :: ws, k =>
    match decode (w :: ws) with
    | .ok (.litw p a c, _) => (k, .litw p a c) :: Block.instrsFrom ws (k + 1)
    | .ok (i, _) => (k, i) :: Block.instrsFrom ws (k + 1)
    | .error _ => Block.instrsFrom ws (k + 1)

/-- Which slots hold the second word of a LITW pair (R36). -/
def litSeconds : List Word → Bool → List Bool
  | [], _ => []
  | w :: ws, second =>
    second :: litSeconds ws (!second && fld w.toNat 24 8 == 0x32)

/-- The instructions of a block by slot. -/
def Block.instrs (b : Block) : List (Nat × Instr) :=
  (Block.instrsFrom b.words 0).filter fun p => !((litSeconds b.words false).getD p.1 false)

/-! ### Operands and emission -/

/-- The operand port of a slot. -/
def Slot.opnd (sl : Slot) : Port → Option Opnd
  | .l => sl.l
  | .r => sl.r
  | .t => sl.t
  | .p => sl.p

/-- A slot with the tokens alone that it has received by an element cycle (R112). -/
def Slot.seen (sl : Slot) (now : Nat) : Slot :=
  let got (o : Option Opnd) : Option Opnd := o.filter fun v => decide (v.due ≤ now)
  { sl with l := got sl.l, r := got sl.r, t := got sl.t, p := got sl.p }

/-- A slot with a token at an operand port. -/
def Slot.give (sl : Slot) (q : Port) (o : Opnd) : Slot :=
  match q with
  | .l => { sl with l := some o }
  | .r => { sl with r := some o }
  | .t => { sl with t := some o }
  | .p => { sl with p := some o }

/-- A token sent to one target (R38): `field` is its place among the slot's targets and `due` the element cycle from
which a consumer can take it (R112). -/
def Elem.send (x : Elem) (c : Cursor) (field : Nat) (a : Tgt) (tok : Token) (due : Nat) : Elem :=
  match a with
  | .slot d q =>
    x.modFiring c.no c.epi fun f =>
      { f with slots := modAt f.slots d.toNat fun sl => sl.give q ⟨tok, due⟩ }
  | .out o =>
    x.modFiring c.no c.epi fun f =>
      { f with held := f.held ++ [⟨⟨o.toNat, c.slot, field⟩, tok, due, x.accNext⟩] }
  | .done => x
  | .none => x

/-- Tokens sent to several targets. -/
def Elem.sendAll (x : Elem) (c : Cursor) (due : Nat) : List (Nat × Tgt × Token) → Elem
  | [] => x
  | (k, a, tok) :: r => (x.send c k a tok due).sendAll c due r

/-- The slot marked as issued (R11). -/
def Elem.markIssued (x : Elem) (c : Cursor) : Elem :=
  x.modFiring c.no c.epi fun f =>
    { f with slots := modAt f.slots c.slot fun sl => { sl with issued := true } }

/-- An output place freed: nothing will be emitted there (R161). -/
def Elem.freeOut (x : Elem) (c : Cursor) (field port : Nat) : Elem :=
  x.modFiring c.no c.epi fun f => { f with owed := f.owed.filter (· != ⟨port, c.slot, field⟩) }

/-- The element with several output places of a slot freed, each as its target field and its port. -/
def Elem.freeOuts (x : Elem) (c : Cursor) : List (Nat × Nat) → Elem
  | [] => x
  | (k, o) :: r => (x.freeOut c k o).freeOuts c r

/-- A data token. -/
def dataTok (p : Payload) (tag : Option (BitVec 16)) : Token := ⟨.data, p, tag⟩

/-- A null token. -/
def nullTok (tag : Option (BitVec 16)) : Token := ⟨.null, 0, tag⟩

/-- A condition token (R41, R122). -/
def condTok (b : Bool) (tag : Option (BitVec 16)) : Token := ⟨.cond, lane0 (b2n b), tag⟩

/-- A completion token: lane 0 holds 1 (R129, R273). -/
def doneTok (tag : Option (BitVec 16)) : Token := dataTok (lane0 1) tag

/-- The truth of a data or condition token (R42). -/
def Token.truth (t : Token) : Bool := bit t.data.toNat 0

/-- Whether a token is a marker that instruction ports can meet (R41). -/
def Token.marker (t : Token) : Bool := t.kind == .row || t.kind == .kend

def Token.isNull (t : Token) : Bool := t.kind == .null

/-! ### Traps -/

/-- The counters of a generator as LOOP gives them (R333). -/
def loopOf (x : Elem) (port : Nat) : Dword :=
  match x.cur.agens[port]? with
  | none => 0
  | some a => BitVec.ofNat 64 (packNat 16 a.cnt)

/-- The node number of a slot (R76). -/
def nodeOf (x : Elem) (epi : Bool) (slot : Nat) : Word :=
  match x.ctxNow with
  | none => 0
  | some c => c.nodes.getD (if epi then c.body.words.length + slot else slot) 0

/-- The memory port that an instruction names; port m0 where it names none (R333). -/
def memPort : Instr → Nat
  | .ld _ _ _ _ _ _ n _ | .ldv _ _ _ _ _ _ n _ => n.toNat
  | .st _ _ _ _ _ n _ | .stv _ _ _ _ _ n _ => n.toNat
  | .recl _ _ _ n _ | .ldt _ _ _ n _ | .stt _ _ _ n _ | .pref _ _ _ n _ => n.toNat
  | .gath _ _ _ _ _ n _ => n.toNat
  | .scat _ _ _ _ n _ | .ascat _ _ _ _ n _ => n.toNat
  | .aadd _ _ _ _ n _ | .aand _ _ _ _ n _ | .aor _ _ _ _ n _ | .axor _ _ _ _ n _ => n.toNat
  | .axch _ _ _ _ n _ | .acas _ _ _ _ n _ | .afadd _ _ _ _ n _ => n.toNat
  | .amin _ _ _ _ _ n _ | .amax _ _ _ _ _ n _ => n.toNat
  | .flush _ _ _ n _ | .pin _ _ _ n _ | .unpin _ _ _ n _ => n.toNat
  | .tagr _ n _ | .tags _ _ n _ | .tfch _ _ _ _ n _ => n.toNat
  | .pgld _ n _ | .pgst _ _ n _ | .pgnx _ n _ | .pgsv _ n _ | .pgrs _ n _ | .pgq _ n _ => n.toNat
  | _ => 0

/-- The memory port that the slot under a cursor names (R333). -/
def portOf (x : Elem) (c : Cursor) : Nat :=
  match (x.block c.epi).bind fun b => b.instr? c.slot with
  | some i => memPort i
  | none => 0

/-! ### The policy in force (R444 to R450) -/

/-- The classes of a policy, in the order of its body (R445). -/
def clStall : Nat := 0
def clOcc : Nat := 1
def clEnergy : Nat := 2
def clTrace : Nat := 3
def clAddr : Nat := 4
def clNode : Nat := 5

/-- GRAN, QUANT and ADDR of a class (R445). -/
def Part.gran (p : Part) (k : Nat) : Nat := bits (p.classes.getD k 0).toNat 2 0
def Part.quant (p : Part) (k : Nat) : Nat := bits (p.classes.getD k 0).toNat 7 3
def Part.addrCode (p : Part) (k : Nat) : Nat := bits (p.classes.getD k 0).toNat 10 8

/-- What a policy says of fault records: ADDR of the fault address class, GRAN of the fault node class (R445, R452). -/
def Part.faultPol (p : Part) : Nat × Nat := (p.addrCode clAddr, p.gran clNode)

/-! ### Traps -/

/-- What a slot's trap record will say (R333). -/
def slotFault (x : Elem) (c : Cursor) (mc : Nat) (cls cause : Nat) (addr detail : Dword) : FaultReg where
  cls := cls
  cause := cause
  col := x.col
  row := x.row
  ctx := x.ctx
  blk := c.epi
  slot := c.slot
  nopos := false
  node := nodeOf x c.epi c.slot
  loop := loopOf x (portOf x c)
  addr := addr
  detail := detail
  mc := 0
  fires := x.started
  cycle := mc
  no := c.no

/-- The place of an element's trap among those it raises in one master cycle: context, block, slot (R330). -/
def FaultReg.place (f : FaultReg) : Nat := (f.ctx * 2 + b2n f.blk) * 64 + f.slot

/-- Whether a trap of an element is taken before another: an earlier one, or of the same master cycle one at an earlier place (R330). -/
def FaultReg.before (f g : FaultReg) : Bool := decide (f.cycle < g.cycle) || (f.cycle == g.cycle && decide (f.place < g.place))

/-- Taking a trap at an element: its fault register holds the first trap, a later one is kept to be recorded, and the element stops: it
starts no firing, issues no slot and accepts no token (R328 to R330). -/
def Elem.trap (x : Elem) (f : FaultReg) : Elem :=
  match x.fault with
  | none => { x with fault := some f, stopped := true }
  | some g =>
    if f.before g then { x with fault := some f, more := x.more ++ [g], stopped := true }
    else { x with more := x.more ++ [f], stopped := true }

/-- A trap raised by a slot. -/
def State.raise (s : State) (c : Cursor) (cls cause : Nat) (addr detail : Dword) : State :=
  s.modElem c.e fun x => x.trap { slotFault x c s.cycle cls cause addr detail with pol := (s.part x.l.n).faultPol }

/-- A trap of an element with no instruction position (R289, R335). -/
def State.raiseNoPos (s : State) (e : Nat) (f : FaultReg → FaultReg) : State :=
  s.modElem e fun x =>
    x.trap (f { slotFault x ⟨e, 0, false, 0⟩ s.cycle 0 0 0 0 with
      nopos := true, ctx := 0, node := 0, loop := loopOf x 0, pol := (s.part x.l.n).faultPol })

/-- Classes of traps (R329). -/
def tcIllegal : Nat := 1
def tcMalformed : Nat := 2
def tcRegEmpty : Nat := 3
def tcNoMethod : Nat := 4
def tcNonInv : Nat := 5
def tcBounds : Nat := 6
def tcVersion : Nat := 7
def tcXlate : Nat := 8
def tcWidth : Nat := 9
def tcBarrier : Nat := 10
def tcChain : Nat := 11
def tcBreak : Nat := 12
def tcQuota : Nat := 13
def tcMachine : Nat := 14

/-- Whether slots of an element may issue: it has not stopped, and its region runs (R328, R329, R342). -/
def State.runs (s : State) (x : Elem) : Bool :=
  !x.stopped && (match s.region? x.rref with
    | some r => r.st == .running || r.st == .preempting
    | none => false)

/-! ### Fetch (R68) -/

/-- What a fetch of a slot answers: an instruction, or the class and cause of a trap. -/
inductive Fetched where
  | instr (i : Instr)
  | bad (cls cause : Nat)
  | nothing
deriving DecidableEq, Repr

/-- Whether a header's check nibble and kind are right (R32). -/
def headerOk (h : Word) : Bool :=
  let n := h.toNat
  ((List.range 7).map fun i => fld n (4 * i + 4) 4).sum % 16 == fld n 0 4 && fld n 25 1 == 0

/-- Slots that a block's header claims. -/
def Block.len (b : Block) : Nat := fld b.header.toNat 26 6 + 1

/-- The fetch of a slot: the header is checked, the block must lie within its context, and a word that does not decode
raises the illegal-instruction trap with its load code (R68, R333). -/
def fetch (b : Block) (slot : Nat) : Fetched :=
  if !headerOk b.header then .bad tcMalformed 0
  else if b.words.length < b.len then .bad tcMalformed 0
  else match decode (b.words.drop slot) with
    | .ok (i, _) => .instr i
    | .error r => .bad tcIllegal r.code

end Sys2Proof.Machine
end

