-- ==== Sys2Proof/Machine/Operator.lean ====
section
/-! DEFINITION. What leaves the part by the management path: rings in management memory, the disclosure policy in force, units, and the
operator's copies of fault records (R332, R442, R444 to R454). -/

namespace Sys2Proof.Machine

/-! ### Islands (R189) -/

/-- Whether an island of a launch holds an element (R189). -/
def Island.holds (i : Island) (x : Elem) : Bool :=
  i.reg == x.reg && decide (4 * i.x ≤ x.col) && decide (x.col < 4 * (i.x + i.w)) && decide (4 * i.y ≤ x.row) &&
    decide (x.row < 4 * (i.y + i.h))

/-- The island of an element. -/
def Launch.islandOf (l : Launch) (x : Elem) : Option Island := l.islands.find? fun i => i.holds x

/-- The device pages of an island of a region placed at its origin. -/
def Region.islandPages (g : Region) (i : Island) : List Nat :=
  (List.range i.h).flatMap fun y => (List.range i.w).map fun x => 16 * (g.oy + i.y + y) + (g.ox + i.x + x)

/-! ### Rings and management memory -/

/-- A dword of management memory (R444, R454). -/
def State.mDword (s : State) (a : Nat) : Nat := s.mmem.readN a 8

/-- Dwords written to management memory. -/
def State.mWrite (s : State) (a : Nat) (ds : List Dword) : State :=
  { s with mmem := s.mmem.write a (ds.flatMap fun d => toBytes 8 d.toNat) }

/-- Whether a ring of 2^size records has no room (R332, R442). -/
def ringFull (wr rd : Word) (size : Nat) : Bool := (wr - rd).toNat == 2 ^ size

/-- Where record `k` of a ring goes (R332). -/
def ringAt (base : Dword) (wr : Word) (size len : Nat) : Nat := base.toNat + len * (wr.toNat % 2 ^ size)

/-- One more, at most 2^32 − 1. -/
def satUp (w : Word) : Word := if w = BitVec.ofNat 32 (2 ^ 32 - 1) then w else w + 1

/-! ### Units and counts (R450, R451) -/

/-- A count rounded down at its source (R451). -/
def roundDown (v k : Nat) : Nat := v / 2 ^ k * 2 ^ k

/-- The device page of the lowest number in the island that holds an element (R450). -/
def State.islandUnit (s : State) (x : Elem) (e : Nat) : Nat :=
  match s.launch? x.l with
  | none => pageOf e
  | some l =>
    match l.islandOf x, l.regions[x.reg]? with
    | some i, some g => ((g.islandPages i).foldl min (pageOf e))
    | _, _ => pageOf e

/-- The device page of the lowest number in the island that holds a page of a partition; the page itself where none does (R450). -/
def State.pageIsland (s : State) (n page : Nat) : Nat :=
  (((s.part n).launches.flatMap fun l => l.islands.filterMap fun i => (l.regions[i.reg]?).bind fun g =>
    if (g.islandPages i).contains page then some ((g.islandPages i).foldl min page) else none).head?).getD page

/-- UNIT of an element at a level (R450). -/
def State.unitOf (s : State) (n e : Nat) (x : Elem) (gran : Nat) : Nat :=
  match gran with
  | 1 => n
  | 2 => depotOf (pageOf e)
  | 3 => s.islandUnit x e
  | 4 => pageOf e
  | 5 => 16 * pageOf e + 4 * (e / 64 % 4) + e % 4
  | _ => n

/-! ### Fault records (R331, R449, R452, R454) -/

/-- Bytes of a fault record (R331). -/
def faultBytes : Nat := 64

/-- The address fields of an operator record (R452): ADDR and DETAIL under an ADDR code. -/
def coarseAddr (code cls : Nat) (addr detail : Dword) : Dword × Dword :=
  let cut (v : Nat) (k : Nat) : Nat := v / 2 ^ k * 2 ^ k
  let tid := addr.toNat / 2 ^ 48 * 2 ^ 48
  let off := addr.toNat % 2 ^ 48
  let pasid := detail.toNat / 2 ^ 36 * 2 ^ 36
  let iova := detail.toNat % 2 ^ 36 * 2 ^ 12
  let det (v : Nat) : Dword := if cls = tcXlate then BitVec.ofNat 64 (pasid + v / 2 ^ 12) else 0
  match code with
  | 0 => (0, 0)
  | 1 => (BitVec.ofNat 64 tid, det 0)
  | 2 => (BitVec.ofNat 64 (tid + cut off 21), det (cut iova 21))
  | 3 => (BitVec.ofNat 64 (tid + cut off 7), det (cut iova 7))
  | _ => (addr, det iova)

/-- An operator fault record without its OSEQ (R452, R454): `e` is the faulting element, `page` the page of the source, `pol` what the policy of
the trap's master cycle says of it (R449). -/
def State.operatorRecord (s : State) (n e page : Nat) (pol : Nat × Nat) (r : Record) : Record :=
  let d0 := (r.getD 0 0).toNat
  let g := pol.2
  let full := g == 5
  let cls := d0 / 2 ^ 56
  let unit := match s.elem? e with
    | some x => s.unitOf n e x g
    | none => match g with
      | 2 => depotOf page
      | 3 => s.pageIsland n page
      | 4 | 5 => page
      | _ => n
  let (ad, det) := coarseAddr pol.1 cls (r.getD 3 0) (r.getD 4 0)
  let det' := if cls = tcXlate then det else if full then r.getD 4 0 else 0
  [BitVec.ofNat 64 (cls * 2 ^ 56 + (if full then bits d0 55 48 else 0) * 2 ^ 48 + n % 32 * 2 ^ 43 + g % 8 * 2 ^ 40 +
     unit % 2 ^ 16 * 2 ^ 24 + page % 256 * 2 ^ 16),
   if full then BitVec.ofNat 64 (bits (r.getD 1 0).toNat 63 32 * 2 ^ 32 + bits d0 26 21 * 2 ^ 26 + bits d0 29 28 * 2 ^ 24 +
     bits d0 27 27 * 2 ^ 23) else 0,
   ad, det', r.getD 5 0, if full then r.getD 2 0 else 0, 0, 0]

/-- Whether a ring of the operator has no room (R454). -/
def Ring.full (o : Ring) : Bool := ringFull o.wr o.rd (max 4 o.size.toNat)

/-- An operator record written to the operator's ring, which has room (R454). -/
def State.putOperator (s : State) (r : Record) : State :=
  let o := s.mgmt.of
  let size := max 4 o.size.toNat
  let r' := setAt r 7 (BitVec.ofNat 64 (o.wr.toNat % 2 ^ size + 1))
  let t := s.mWrite (ringAt o.base o.wr size faultBytes) r'
  { t with mgmt := { t.mgmt with of := { o with wr := o.wr + 1 } } }

/-- An element name that no element has: the source of a trap that no element raised. -/
def noElem : Nat := 4096

/-- The device page that the record of an engine of a depot of a partition names: the first of the depot (R454). -/
def Part.enginePage (p : Part) (k : Nat) : Nat := depotPage (p.depotList.getD k 0) 0

/-- The record of an engine's or the sequencer's failure, for the operator (R319, R378, R453): `k` is the place of its depot in the partition. -/
def State.engineRecord (s : State) (n k : Nat) (r : Record) : Record :=
  s.operatorRecord n noElem ((s.part n).enginePage k) (s.part n).faultPol r

end Sys2Proof.Machine
end

