-- ==== Sys2Proof/Machine/Float.lean ====
section
/-! DEFINITION. The number formats of 03_numbers.md: exact values, rounding once, the PS8 format, and the arithmetic of
R135 to R140 on one element. A result is a pair of a code and the flags of FPSTAT (R96) that it raises. -/

namespace Sys2Proof.Machine

/-- A value: NaN, an infinity, or (-1)^s * m * 2^e. -/
inductive Val where
  | nan
  | inf (s : Bool)
  | fin (s : Bool) (m : Nat) (e : Int)
deriving DecidableEq, Repr

/-- Flags of FPSTAT (R96). -/
def fNV : Nat := 1
def fDZ : Nat := 2
def fOF : Nat := 4
def fUF : Nat := 8
def fNX : Nat := 16
def fST : Nat := 32
def fTK : Nat := 64

/-- A code and its flags. -/
abbrev Rounded := Nat × Nat

/-- Exponent bits, fraction bits and bias of a floating-point format (R77). -/
def Fmt.dims : Fmt → Nat × Nat × Nat
  | .fp32 => (8, 23, 127)
  | .bf16 => (8, 7, 127)
  | .fp16 => (5, 10, 15)
  | .e4m3 => (4, 3, 7)
  | .e5m2 => (5, 2, 15)
  | _ => (0, 0, 0)

/-- Bits of an element (R77, R81, R83). -/
def Fmt.width : Fmt → Nat
  | .fp32 | .int32 => 32
  | .bf16 | .fp16 | .int16 => 16
  | _ => 8

/-- The format of a float instruction (R45). -/
def FFmt.fmt : FFmt → Fmt
  | .f32 => .fp32
  | .bf16 => .bf16
  | .f16 => .fp16

/-- The canonical NaN (R77, R78); 0x08 for PS8 (R85). -/
def Fmt.nanCode : Fmt → Nat
  | .fp32 => 0x7FC00000
  | .bf16 => 0x7FC0
  | .fp16 => 0x7E00
  | .e4m3 => 0x7F
  | .e5m2 => 0x7E
  | .ps8 => 0x08
  | _ => 0

/-- The code of the largest finite value (R77). -/
def Fmt.maxCode : Fmt → Nat
  | .fp32 => 0x7F7FFFFF
  | .bf16 => 0x7F7F
  | .fp16 => 0x7BFF
  | .e4m3 => 0x7E
  | .e5m2 => 0x7B
  | _ => 0

/-- The sign bit's weight. -/
def Fmt.signW (f : Fmt) : Nat := 2 ^ (Fmt.width f - 1)

/-- An infinity's code; the canonical NaN in E4M3, which has none (R77, R87). -/
def Fmt.infCode (f : Fmt) (s : Bool) : Nat :=
  match f with
  | .e4m3 => 0x7F
  | _ => Fmt.maxCode f + 1 + b2n s * Fmt.signW f

/-- The value of a PS8 code in units of 2^-7 (R83). -/
def ps8Val (c : Nat) : Int :=
  let t (s k : Nat) : Int := if s = 1 then -((128 / 2 ^ k : Nat) : Int) else ((128 / 2 ^ k : Nat) : Int)
  t (c / 128 % 2) (c / 16 % 8) + t (c / 8 % 2) (c % 8)

/-- The canonical code of a value in units of 2^-7 (R84). -/
def ps8Canon (v : Int) : Nat := ((List.range 256).find? fun c => ps8Val c == v).getD 0x08

/-- The exact value of a signed integer. -/
def valOfInt (i : Int) : Val := .fin (decide (i < 0)) i.natAbs 0

/-- The value of a code in a format (R77, R81, R83); integers are signed. -/
def decVal (f : Fmt) (x : Nat) : Val :=
  match f with
  | .int8 | .int16 | .int32 => valOfInt (sgn (Fmt.width f) x)
  | .ps8 => let v := ps8Val (x % 256); .fin (decide (v < 0)) v.natAbs (-7)
  | _ =>
    let (eb, fb, bias) := Fmt.dims f
    let s := bit x (eb + fb)
    let ex := x / 2 ^ fb % 2 ^ eb
    let fr := x % 2 ^ fb
    if f = .e4m3 ∧ ex = 15 ∧ fr = 7 then .nan
    else if f ≠ .e4m3 ∧ ex = 2 ^ eb - 1 then (if fr = 0 then .inf s else .nan)
    else if ex = 0 then .fin s fr (1 - (bias : Int) - fb)
    else .fin s (2 ^ fb + fr) ((ex : Int) - bias - fb)

/-- Whether a rounding goes away from zero: `odd` is the last kept bit, `c` compares what is dropped with half a unit
(0 nothing, 1 less, 2 half, 3 more), R86. -/
def roundUp (rm : Rm) (s odd : Bool) (c : Nat) : Bool :=
  match rm with
  | .rne => c == 3 || (c == 2 && odd)
  | .rtz => false
  | .rdn => s && c != 0
  | .rup => !s && c != 0

/-- m * 2^e rounded to a multiple of 2^q: the multiple, and whether it is inexact. -/
def toQuantum (rm : Rm) (s : Bool) (m : Nat) (e q : Int) : Nat × Bool :=
  if q ≤ e then (m * 2 ^ (e - q).toNat, false)
  else
    let k := (q - e).toNat
    let n := m / 2 ^ k
    let r := m % 2 ^ k
    let c := if r = 0 then 0 else if 2 * r < 2 ^ k then 1 else if 2 * r = 2 ^ k then 2 else 3
    (if roundUp rm s (n % 2 == 1) c then n + 1 else n, r != 0)

/-- Overflow of a finite value (R87, R88). -/
def overflow (f : Fmt) (rm : Rm) (sat s : Bool) : Rounded :=
  let sw := b2n s * Fmt.signW f
  let mx := Fmt.maxCode f + sw
  let fp8 := f = .e4m3 ∨ f = .e5m2
  if fp8 ∧ sat then (mx, fOF + fST + fNX)
  else
    let toMax := match rm with
      | .rne => false
      | .rtz => true
      | .rdn => !s
      | .rup => s
    if toMax then (mx, fOF + fNX)
    else if f = .e4m3 then (Fmt.nanCode f, fNV + fOF + fNX)
    else (Fmt.infCode f s, fOF + fNX)

/-- A finite value rounded once to a floating-point format (R86 to R89). -/
def roundFin (f : Fmt) (rm : Rm) (sat s : Bool) (m : Nat) (e : Int) : Rounded :=
  let (_, fb, bias) := Fmt.dims f
  if m = 0 then (b2n s * Fmt.signW f, 0)
  else
    let emin : Int := 1 - bias
    let q0 : Int := e + bitLen m - (fb + 1 : Nat)
    let q := max (emin - fb) q0
    let (n, inex) := toQuantum rm s m e q
    let (n0, _) := toQuantum rm s m e q0
    let tiny := if q0 < emin - fb then decide (n0 < 2 ^ (emin - q0).toNat) else false
    let code := ((q + fb + bias) - 1).toNat * 2 ^ fb + n
    if Fmt.maxCode f < code then overflow f rm sat s
    else (code + b2n s * Fmt.signW f, (if inex then fNX else 0) + (if tiny && inex then fUF else 0))

/-- The order of a value against v * 2^-7: negative, zero or positive as x - v/128. -/
def cmp7 (s : Bool) (m : Nat) (e : Int) (v : Int) : Int :=
  let x : Int := if s then -(m : Int) else m
  let k := e + 7
  if 0 ≤ k then x * (2 ^ k.toNat : Nat) - v else x - v * (2 ^ (-k).toNat : Nat)

/-- A finite value rounded to PS8 (R84, R85). -/
def roundPs8 (rm : Rm) (s : Bool) (m : Nat) (e : Int) : Rounded :=
  if 0 < cmp7 s m e 256 then (0x00, fOF + fST + fNX)
  else if cmp7 s m e (-256) < 0 then (0x88, fOF + fST + fNX)
  else
    let vs := (List.range 256).map ps8Val
    let lo := vs.foldl (fun a v => if 0 ≤ cmp7 s m e v ∧ a < v then v else a) (-256)
    let hi := vs.foldl (fun a v => if cmp7 s m e v ≤ 0 ∧ v < a then v else a) 256
    if lo = hi then (ps8Canon lo, 0)
    else
      -- 2x against lo + hi, in the units of lo and hi
      let mid := cmp7 s (2 * m) e (lo + hi)
      let v := match rm with
        | .rne => if mid < 0 then lo else if 0 < mid then hi else if lo.natAbs < hi.natAbs then lo else hi
        | .rtz => if s then hi else lo
        | .rdn => lo
        | .rup => hi
      (ps8Canon v, fNX)

/-- A value rounded to an integer and clamped to [lo, hi] (R82). -/
def roundInt (rm : Rm) (lo hi : Int) : Val → Int × Nat
  | .nan => (0, fNV)
  | .inf s => (if s then lo else hi, fNV)
  | .fin s m e =>
    let (n, inex) := toQuantum rm s m e 0
    let i : Int := if s then -(n : Int) else n
    if i < lo then (lo, fNV) else if hi < i then (hi, fNV) else (i, if inex then fNX else 0)

/-- Bounds of an integer type. -/
def intLo (u : Bool) (w : Nat) : Int := if u then 0 else -((2 ^ (w - 1) : Nat) : Int)
def intHi (u : Bool) (w : Nat) : Int := if u then ((2 ^ w - 1 : Nat) : Int) else ((2 ^ (w - 1) - 1 : Nat) : Int)

/-- A value rounded to any format (R82, R85 to R88). -/
def roundVal (f : Fmt) (rm : Rm) (sat : Bool) (v : Val) : Rounded :=
  match f with
  | .int8 | .int16 | .int32 =>
    let w := Fmt.width f
    let (i, fl) := roundInt rm (intLo false w) (intHi false w) v
    (wrap w i, fl)
  | .ps8 =>
    match v with
    | .nan => (0x08, fNV)
    | .inf s => (if s then 0x88 else 0x00, fOF + fST)
    | .fin s m e => roundPs8 rm s m e
  | _ =>
    match v with
    | .nan => (Fmt.nanCode f, 0)
    | .inf s =>
      if (f = .e4m3 ∨ f = .e5m2) ∧ sat then (Fmt.maxCode f + b2n s * Fmt.signW f, fST)
      else if f = .e4m3 then (Fmt.nanCode f, fNV)
      else (Fmt.infCode f s, 0)
    | .fin s m e => roundFin f rm sat s m e

/-- A result of an instruction that rounds with RNE and, in an FP8 format, saturates (R88). -/
def rne (f : Fmt) (v : Val) : Rounded := roundVal f .rne true v

/-! ### Exact arithmetic -/

/-- Negation. -/
def Val.neg : Val → Val
  | .nan => .nan
  | .inf s => .inf !s
  | .fin s m e => .fin (!s) m e

def Val.isNan : Val → Bool
  | .nan => true
  | _ => false

def Val.isInf : Val → Bool
  | .inf _ => true
  | _ => false

def Val.isZero : Val → Bool
  | .fin _ m _ => m == 0
  | _ => false

def Val.sign : Val → Bool
  | .nan => false
  | .inf s => s
  | .fin s _ _ => s

/-- The exact sum of finite values as an integer multiple of 2^e, e the least exponent. -/
def sumFin : List (Bool × Nat × Int) → Int × Int
  | [] => (0, 0)
  | (s, m, e) :: r =>
    let (t, d) := sumFin r
    let x : Int := if s then -(m : Int) else m
    if m = 0 then (t, d) else if t = 0 then (x, e)
    else if e ≤ d then (x + t * (2 ^ (d - e).toNat : Nat), e)
    else (x * (2 ^ (e - d).toNat : Nat) + t, d)

/-- The finite values of a list. -/
def finsOf (vs : List Val) : List (Bool × Nat × Int) :=
  vs.filterMap fun v => match v with
    | .fin s m e => some (s, m, e)
    | _ => none

/-- The exact sum of finite values; a zero sum is +0 unless every addend is −0 (R95, R135). -/
def sumVal (vs : List Val) : Val :=
  let (t, e) := sumFin (finsOf vs)
  if t = 0 then .fin (vs.all fun v => v.isZero && v.sign) 0 0 else .fin (decide (t < 0)) t.natAbs e

/-- Whether infinities of both signs occur. -/
def infClash (vs : List Val) : Bool := vs.contains (.inf true) && vs.contains (.inf false)

/-- a * b; 0 * ∞ is invalid (R135). -/
def mulVal (a b : Val) : Val × Nat :=
  match a, b with
  | .nan, _ | _, .nan => (.nan, 0)
  | .inf s, .inf t => (.inf (s != t), 0)
  | .inf s, .fin t m _ | .fin t m _, .inf s => if m = 0 then (.nan, fNV) else (.inf (s != t), 0)
  | .fin s m e, .fin t n d => (.fin (s != t) (m * n) (e + d), 0)

/-- a + b (R135). -/
def addVal (a b : Val) : Val × Nat :=
  if a.isNan || b.isNan then (.nan, 0)
  else if infClash [a, b] then (.nan, fNV)
  else if a.isInf then (a, 0) else if b.isInf then (b, 0)
  else (sumVal [a, b], 0)

/-- The exact sum of R94 and R95: NaN addends and clashing infinities are invalid. -/
def dotSum (vs : List Val) : Val × Nat :=
  if vs.any Val.isNan || infClash vs then (.nan, fNV)
  else match vs.find? Val.isInf with
    | some v => (v, 0)
    | none => (sumVal vs, 0)

/-- A rounding of an exact result, its flags joined with those of the operation. -/
def finishF (f : Fmt) (r : Val × Nat) : Rounded :=
  let (c, fl) := rne f r.1
  (c, fl ||| r.2)

/-- FADD, FSUB, FMUL on one element (R135). -/
def faddE (f : Fmt) (a b : Nat) : Rounded := finishF f (addVal (decVal f a) (decVal f b))
def fsubE (f : Fmt) (a b : Nat) : Rounded := finishF f (addVal (decVal f a) (decVal f b).neg)
def fmulE (f : Fmt) (a b : Nat) : Rounded := finishF f (mulVal (decVal f a) (decVal f b))

/-- FMA on one element: an invalid product raises NV whatever c is (R135). -/
def fmaE (f : Fmt) (a b c : Nat) : Rounded :=
  let (p, fl) := mulVal (decVal f a) (decVal f b)
  if fl ≠ 0 then (Fmt.nanCode f, fl) else finishF f (addVal p (decVal f c))

/-- A quotient of finite nonzero magnitudes as a value that rounds as the exact quotient does: enough bits, and a last
bit that stands for what was dropped. -/
def quotVal (s : Bool) (m : Nat) (e : Int) (n : Nat) (d : Int) : Val :=
  let k := bitLen n + 40
  let q := m * 2 ^ k / n
  let r := m * 2 ^ k % n
  .fin s (2 * q + b2n (r != 0)) (e - d - k - 1)

/-- FDIV on one element (R135). -/
def fdivE (f : Fmt) (a b : Nat) : Rounded :=
  match decVal f a, decVal f b with
  | .nan, _ | _, .nan => (Fmt.nanCode f, 0)
  | .inf _, .inf _ => (Fmt.nanCode f, fNV)
  | .inf s, .fin t _ _ => (Fmt.infCode f (s != t), 0)
  | .fin s _ _, .inf t => (b2n (s != t) * Fmt.signW f, 0)
  | .fin s m e, .fin t n d =>
    if n = 0 then (if m = 0 then (Fmt.nanCode f, fNV) else (Fmt.infCode f (s != t), fDZ))
    else if m = 0 then (b2n (s != t) * Fmt.signW f, 0)
    else rne f (quotVal (s != t) m e n d)

/-- Integer square root by bits, from bit `k - 1` down, above `acc`. -/
def isqrtGo (x : Nat) : Nat → Nat → Nat
  | 0, acc => acc
  | k + 1, acc =>
    let t := acc + 2 ^ k
    isqrtGo x k (if t * t ≤ x then t else acc)

/-- The integer square root. -/
def isqrt (x : Nat) : Nat := isqrtGo x (bitLen x / 2 + 1) 0

/-- FSQRT on one element (R135). -/
def fsqrtE (f : Fmt) (a : Nat) : Rounded :=
  match decVal f a with
  | .nan => (Fmt.nanCode f, 0)
  | .inf s => if s then (Fmt.nanCode f, fNV) else (Fmt.infCode f false, 0)
  | .fin s m e =>
    if m = 0 then (b2n s * Fmt.signW f, 0)
    else if s then (Fmt.nanCode f, fNV)
    else
      let m1 := if e % 2 = 0 then m else 2 * m
      let e1 := if e % 2 = 0 then e else e - 1
      let x := m1 * 2 ^ 80
      let r := isqrt x
      rne f (.fin false (2 * r + b2n (r * r != x)) (e1 / 2 - 41))

/-- FRCP on one element (R136). -/
def frcpE (f : Fmt) (a : Nat) : Rounded :=
  match decVal f a with
  | .nan => (Fmt.nanCode f, 0)
  | .inf s => (b2n s * Fmt.signW f, 0)
  | .fin s m e => if m = 0 then (Fmt.infCode f s, fDZ) else rne f (quotVal s 1 0 m e)

/-- FRSQ on one element (R136). -/
def frsqE (f : Fmt) (a : Nat) : Rounded :=
  match decVal f a with
  | .nan => (Fmt.nanCode f, 0)
  | .inf s => if s then (Fmt.nanCode f, fNV) else (0, 0)
  | .fin s m e =>
    if m = 0 then (Fmt.infCode f s, fDZ)
    else if s then (Fmt.nanCode f, fNV)
    else
      let m1 := if e % 2 = 0 then m else 2 * m
      let e1 := if e % 2 = 0 then e else e - 1
      let k := bitLen m1 + 40
      let t := isqrt (2 ^ (2 * k) / m1)
      rne f (.fin false (2 * t + b2n (t * t * m1 != 2 ^ (2 * k))) (-(e1 / 2) - k - 1))

/-- floor(2^256 ln 2). -/
def ln2Q : Nat := 80260960185991308862233904206310070533990667611589946606122867505419956976171

/-- Partial sums of y^j / j! in units of 2^-256, from term `t` number `j` on. -/
def expGo (y : Nat) : Nat → Nat → Nat → Nat → Nat
  | 0, _, _, acc => acc
  | k + 1, j, t, acc =>
    let t' := t * y / 2 ^ 256 / (j + 1)
    expGo y k (j + 1) t' (acc + t)

/-- Both ends of an interval rounded; where they differ, the manual's correct rounding is one of the two (log 12). -/
def roundEnds (f : Fmt) (tie : Nat → Bool) (key : Nat) (lo hi : Val) : Rounded :=
  let a := rne f lo
  let b := rne f hi
  let r := if a.1 = b.1 then a else if tie key then a else b
  (r.1, r.2 ||| fNX)

/-- FEXP2 on one element (R136). -/
def fexp2E (tie : Nat → Bool) (f : Fmt) (a : Nat) : Rounded :=
  match decVal f a with
  | .nan => (Fmt.nanCode f, 0)
  | .inf s => if s then (0, 0) else (Fmt.infCode f false, 0)
  | .fin s m e =>
    if m = 0 then rne f (.fin false 1 0)
    else if 9 < e + bitLen m then rne f (.fin false 1 (if s then -1024 else 1024))
    else
      -- a = i + x / 2^200, with 0 ≤ x < 2^200
      let t : Int := if s then -((m * 2 ^ (e + 200).toNat : Nat) : Int) else ((m * 2 ^ (e + 200).toNat : Nat) : Int)
      let i := t / (2 ^ 200 : Nat)
      let x := (t % (2 ^ 200 : Nat)).toNat
      if x = 0 then rne f (.fin false 1 i)
      else
        let y := x * ln2Q / 2 ^ 200
        let lo := expGo y 70 0 (2 ^ 256) 0
        roundEnds f tie a (.fin false lo (i - 256)) (.fin false (lo + 1024) (i - 256))

/-- Bits of log2 x by repeated squaring; x in units of 2^-400, 1 ≤ x < 2. What the squares drop makes the number short by less than one unit. -/
def logGo : Nat → Nat → Nat → Nat
  | 0, _, acc => acc
  | k + 1, x, acc =>
    let y := x * x / 2 ^ 400
    if 2 ^ 401 ≤ y then logGo k (y / 2) (2 * acc + 1) else logGo k y (2 * acc)

/-- FLOG2 on one element (R136). -/
def flog2E (tie : Nat → Bool) (f : Fmt) (a : Nat) : Rounded :=
  match decVal f a with
  | .nan => (Fmt.nanCode f, 0)
  | .inf s => if s then (Fmt.nanCode f, fNV) else (Fmt.infCode f false, 0)
  | .fin s m e =>
    if m = 0 then (Fmt.infCode f true, fDZ)
    else if s then (Fmt.nanCode f, fNV)
    else
      let k := bitLen m - 1
      let i : Int := e + k
      if m = 2 ^ k then rne f (if i = 0 then .fin false 0 0 else valOfInt i)
      else
        let fr := logGo 200 (m * 2 ^ 400 / 2 ^ k) 0
        let t : Int := i * (2 ^ 200 : Nat) + fr
        let v (x : Int) : Val := .fin (decide (x < 0)) x.natAbs (-200)
        roundEnds f tie a (v t) (v (t + 2))

/-! ### Order and class -/

/-- a < b, a = b or a > b as 0, 1, 2; 3 for unordered (R139). -/
def relVal (a b : Val) : Nat :=
  match a, b with
  | .nan, _ | _, .nan => 3
  | .inf s, .inf t => if s = t then 1 else if s then 0 else 2
  | .inf s, .fin .. => if s then 0 else 2
  | .fin .., .inf t => if t then 2 else 0
  | .fin s m e, .fin t n d =>
    let (x, _) := sumFin [(s, m, e), (!t, n, d)]
    if x < 0 then 0 else if x = 0 then 1 else 2

/-- FMIN and FMAX on one element (R137); −0 is less than +0. -/
def fminE (f : Fmt) (a b : Nat) : Nat :=
  let x := decVal f a
  let y := decVal f b
  if x.isNan then (if y.isNan then Fmt.nanCode f else b)
  else if y.isNan then a
  else match relVal x y with
    | 0 => a
    | 1 => if x.sign then a else b
    | _ => b
def fmaxE (f : Fmt) (a b : Nat) : Nat :=
  let x := decVal f a
  let y := decVal f b
  if x.isNan then (if y.isNan then Fmt.nanCode f else b)
  else if y.isNan then a
  else match relVal x y with
    | 2 => a
    | 1 => if x.sign then b else a
    | _ => b

/-- FABS and FNEG on one element (R138). -/
def fabsE (f : Fmt) (a : Nat) : Nat := if (decVal f a).isNan then Fmt.nanCode f else a % Fmt.signW f
def fnegE (f : Fmt) (a : Nat) : Nat := if (decVal f a).isNan then Fmt.nanCode f else (a + Fmt.signW f) % (2 * Fmt.signW f)

/-- FCMP on one element (R139). -/
def fcmpE (f : Fmt) (a b : Nat) : Rounded :=
  let r := relVal (decVal f a) (decVal f b)
  (2 ^ r, if r = 3 then fNV else 0)

/-- FCLASS on one element (R140). -/
def fclassE (f : Fmt) (a : Nat) : Nat :=
  let (_, fb, _) := Fmt.dims f
  match decVal f a with
  | .nan => 2 ^ 8
  | .inf s => if s then 2 ^ 0 else 2 ^ 7
  | .fin s m _ =>
    if m = 0 then (if s then 2 ^ 3 else 2 ^ 4)
    else if m < 2 ^ fb then (if s then 2 ^ 2 else 2 ^ 5)
    else (if s then 2 ^ 1 else 2 ^ 6)

/-- SCALE on one element: the exact product with a power of two, rounded once (R144). -/
def scaleE (f : Fmt) (a : Nat) (k : Int) : Rounded :=
  match decVal f a with
  | .fin s m e =>
    if m = 0 then (a, 0)
    else
      -- beyond ±2048 the result no longer depends on k
      let k' := if k < -2048 then -2048 else if 2048 < k then 2048 else k
      rne f (.fin s m (e + k'))
  | .inf s => (Fmt.infCode f s, 0)
  | .nan => (Fmt.nanCode f, 0)

end Sys2Proof.Machine
end

