-- ==== Sys2Proof/Machine/Flags.lean ====
section
/-! DEFINITION. FPSTAT (R96 to R99): the flags an instruction raises become visible at the end of the element cycle in
which its result becomes available (R97, R132). -/

namespace Sys2Proof.Machine

/-- The element with flags raised by an instruction that issues now with a latency (R97, R132). -/
def Elem.flags (x : Elem) (lat fl : Nat) : Elem :=
  if fl = 0 then x
  else { x with cur := { x.cur with flagQ := x.cur.flagQ ++ [(x.icyc + lat, BitVec.ofNat 32 fl)] } }

/-- The flags of a queue that are visible in an element cycle. -/
def dueFlags (now : Nat) (q : List (Nat × Word)) : Word :=
  q.foldl (fun a e => if e.1 ≤ now then a ||| e.2 else a) 0

/-- FPSTAT as a CSRR of this element cycle reads it (R98). -/
def Elem.fpstat (x : Elem) : Word := x.cur.fpstat ||| dueFlags x.icyc x.cur.flagQ

/-- A CSRW to FPSTAT: bits [6:0] as given; flags raised in the same cycle or later are joined to it (R98). -/
def Elem.setFpstat (x : Elem) (v : Word) : Elem :=
  { x with cur := { x.cur with
      fpstat := v &&& 0x7F
      flagQ := x.cur.flagQ.filter fun e => decide (x.icyc < e.1) } }

end Sys2Proof.Machine
end

