-- ==== Sys2Proof/Machine/Operands.lean ====
section
/-! DEFINITION. How a slot reads its operands: the ports each instruction uses, readiness (R107, R109), predicates
(R20), nulls (R21), markers (R42), and how it issues (R11), is nullified, or raises a trap. -/

namespace Sys2Proof.Machine

/-- The consumer targets of a destination; register form has none (R271). -/
def dstTgts : Dst → List (Nat × Tgt)
  | .tgt a => [(0, a)]
  | .reg _ => []

/-- The register that a destination names. -/
def dstReg : Dst → Option (Nat × Bool)
  | .tgt _ => none
  | .reg v => some (v.toNat, false)

/-- The targets of a FILT: ta, the false port and, when it is on, the condition port (R161, R169). -/
def filtTgts (a : Tgt) (w : Bool) (c f : BitVec 3) : List (Nat × Tgt) :=
  [(0, a), (2, .out f)] ++ (if w then [(3, .out c)] else [])

/-- What the tables of the instruction chapters say of an instruction: its predicate match; its targets; whether it uses
L, R and T; whether it accepts markers at L and at R (R163, R124, R365); whether its own entry treats nulls (R21); whether
it issues in the wide pipe (R54); the register it names, with true when an index adds to it (R107). -/
structure Info where
  pm : Pm
  tgts : List (Nat × Tgt)
  l : Bool
  r : Bool
  t : Bool
  mkL : Bool
  mkR : Bool
  ownNull : Bool
  wide : Bool
  reg : Option (Nat × Bool)
deriving DecidableEq, Repr

/-- The entries of the instruction chapters. Events have none. -/
def infoOf : Instr → Info
  | .add p _ _ a b => ⟨p, [(0, a), (1, b)], true, true, false, false, false, false, false, none⟩
  | .sub p _ _ a b => ⟨p, [(0, a), (1, b)], true, true, false, false, false, false, false, none⟩
  | .mul p _ _ a b => ⟨p, [(0, a), (1, b)], true, true, false, false, false, false, false, none⟩
  | .mulh p _ _ a b => ⟨p, [(0, a), (1, b)], true, true, false, false, false, false, false, none⟩
  | .mad p _ _ a b => ⟨p, [(0, a), (1, b)], true, true, true, false, false, false, false, none⟩
  | .div p _ _ a b => ⟨p, [(0, a), (1, b)], true, true, false, false, false, false, false, none⟩
  | .rem p _ _ a b => ⟨p, [(0, a), (1, b)], true, true, false, false, false, false, false, none⟩
  | .and_ p _ _ a b => ⟨p, [(0, a), (1, b)], true, true, false, false, false, false, false, none⟩
  | .or_ p _ _ a b => ⟨p, [(0, a), (1, b)], true, true, false, false, false, false, false, none⟩
  | .xor p _ _ a b => ⟨p, [(0, a), (1, b)], true, true, false, false, false, false, false, none⟩
  | .andn p _ _ a b => ⟨p, [(0, a), (1, b)], true, true, false, false, false, false, false, none⟩
  | .shl p _ _ a b => ⟨p, [(0, a), (1, b)], true, true, false, false, false, false, false, none⟩
  | .shr p _ _ a b => ⟨p, [(0, a), (1, b)], true, true, false, false, false, false, false, none⟩
  | .sra p _ _ a b => ⟨p, [(0, a), (1, b)], true, true, false, false, false, false, false, none⟩
  | .rol p _ _ a b => ⟨p, [(0, a), (1, b)], true, true, false, false, false, false, false, none⟩
  | .min p _ _ a b => ⟨p, [(0, a), (1, b)], true, true, false, false, false, false, false, none⟩
  | .max p _ _ a b => ⟨p, [(0, a), (1, b)], true, true, false, false, false, false, false, none⟩
  | .abs p _ _ a b => ⟨p, [(0, a), (1, b)], true, false, false, false, false, false, false, none⟩
  | .neg p _ _ a b => ⟨p, [(0, a), (1, b)], true, false, false, false, false, false, false, none⟩
  | .clz p _ _ a b => ⟨p, [(0, a), (1, b)], true, false, false, false, false, false, false, none⟩
  | .popc p _ _ a b => ⟨p, [(0, a), (1, b)], true, false, false, false, false, false, false, none⟩
  | .brev p _ _ a b => ⟨p, [(0, a), (1, b)], true, false, false, false, false, false, false, none⟩
  | .bfx p _ _ a b => ⟨p, [(0, a), (1, b)], true, true, false, false, false, false, false, none⟩
  | .bfi p _ _ a b => ⟨p, [(0, a), (1, b)], true, true, true, false, false, false, false, none⟩
  | .cmp p _ a b => ⟨p, [(0, a), (1, b)], true, true, false, false, false, false, false, none⟩
  | .sel p a b => ⟨p, [(0, a), (1, b)], true, true, true, false, false, true, false, none⟩
  | .sat p _ _ _ a b => ⟨p, [(0, a), (1, b)], true, true, false, false, false, false, false, none⟩
  | .mov p _ _ a b => ⟨p, [(0, a), (1, b)], true, false, false, true, false, false, false, none⟩
  | .nul p a b => ⟨p, [(0, a), (1, b)], false, false, false, false, false, false, false, none⟩
  | .addr p _ a b => ⟨p, [(0, a), (1, b)], true, true, false, false, false, false, false, none⟩
  | .aoff p _ a b => ⟨p, [(0, a), (1, b)], true, true, false, false, false, false, false, none⟩
  | .aidx p _ a b => ⟨p, [(0, a), (1, b)], true, true, true, false, false, false, false, none⟩
  | .addi p _ a => ⟨p, [(0, a)], true, false, false, false, false, false, false, none⟩
  | .andi p _ a => ⟨p, [(0, a)], true, false, false, false, false, false, false, none⟩
  | .ori p _ a => ⟨p, [(0, a)], true, false, false, false, false, false, false, none⟩
  | .xori p _ a => ⟨p, [(0, a)], true, false, false, false, false, false, false, none⟩
  | .shli p _ a => ⟨p, [(0, a)], true, false, false, false, false, false, false, none⟩
  | .shri p _ a => ⟨p, [(0, a)], true, false, false, false, false, false, false, none⟩
  | .srai p _ a => ⟨p, [(0, a)], true, false, false, false, false, false, false, none⟩
  | .cmpi p _ _ a => ⟨p, [(0, a)], true, false, false, false, false, false, false, none⟩
  | .movi p _ a => ⟨p, [(0, a)], false, false, false, false, false, false, false, none⟩
  | .movhi p _ a => ⟨p, [(0, a)], true, false, false, false, false, false, false, none⟩
  | .litw p a _ => ⟨p, [(0, a)], false, false, false, false, false, false, false, none⟩
  | .muli p _ a => ⟨p, [(0, a)], true, false, false, false, false, false, false, none⟩
  | .get p n _ a => ⟨p, [(0, a)], false, false, false, false, false, false, false, some (n.toNat, false)⟩
  | .put p n a => ⟨p, [(0, a)], true, false, false, false, false, false, false, some (n.toNat, false)⟩
  | .getx p n _ a => ⟨p, [(0, a)], true, false, false, false, false, false, false, some (n.toNat, true)⟩
  | .putx p n a => ⟨p, [(0, a)], true, true, false, false, false, false, false, some (n.toNat, true)⟩
  | .rempty p n a => ⟨p, [(0, a)], false, false, false, false, false, false, false, some (n.toNat, false)⟩
  | .rfull p n a => ⟨p, [(0, a)], false, false, false, false, false, false, false, some (n.toNat, false)⟩
  | .fadd p _ _ a b => ⟨p, [(0, a), (1, b)], true, true, false, false, false, false, true, none⟩
  | .fsub p _ _ a b => ⟨p, [(0, a), (1, b)], true, true, false, false, false, false, true, none⟩
  | .fmul p _ _ a b => ⟨p, [(0, a), (1, b)], true, true, false, false, false, false, true, none⟩
  | .fma p _ _ a b => ⟨p, [(0, a), (1, b)], true, true, true, false, false, false, true, none⟩
  | .fmin p _ _ a b => ⟨p, [(0, a), (1, b)], true, true, false, false, false, false, true, none⟩
  | .fmax p _ _ a b => ⟨p, [(0, a), (1, b)], true, true, false, false, false, false, true, none⟩
  | .fabs p _ _ a b => ⟨p, [(0, a), (1, b)], true, false, false, false, false, false, true, none⟩
  | .fneg p _ _ a b => ⟨p, [(0, a), (1, b)], true, false, false, false, false, false, true, none⟩
  | .fcmp p _ _ a b => ⟨p, [(0, a), (1, b)], true, true, false, false, false, false, true, none⟩
  | .fclass p _ _ a b => ⟨p, [(0, a), (1, b)], true, false, false, false, false, false, true, none⟩
  | .frcp p _ _ a b => ⟨p, [(0, a), (1, b)], true, false, false, false, false, false, true, none⟩
  | .frsq p _ _ a b => ⟨p, [(0, a), (1, b)], true, false, false, false, false, false, true, none⟩
  | .fexp2 p _ _ a b => ⟨p, [(0, a), (1, b)], true, false, false, false, false, false, true, none⟩
  | .flog2 p _ _ a b => ⟨p, [(0, a), (1, b)], true, false, false, false, false, false, true, none⟩
  | .fsqrt p _ _ a b => ⟨p, [(0, a), (1, b)], true, false, false, false, false, false, true, none⟩
  | .fdiv p _ _ a b => ⟨p, [(0, a), (1, b)], true, true, false, false, false, false, true, none⟩
  | .cvt p _ _ _ _ _ a => ⟨p, [(0, a)], true, false, false, false, false, false, true, none⟩
  | .cvti p _ _ _ _ _ a => ⟨p, [(0, a)], true, false, false, false, false, false, true, none⟩
  | .cvtf p _ _ _ _ _ a => ⟨p, [(0, a)], true, false, false, false, false, false, true, none⟩
  | .scale p _ a => ⟨p, [(0, a)], true, true, false, false, false, false, true, none⟩
  | .pack p _ _ _ a b => ⟨p, [(0, a), (1, b)], true, true, false, false, false, false, true, none⟩
  | .unpack p _ _ a b => ⟨p, [(0, a), (1, b)], true, false, false, false, false, false, true, none⟩
  | .bcast p _ _ a => ⟨p, [(0, a)], true, false, false, false, false, false, true, none⟩
  | .shuf p _ a b => ⟨p, [(0, a), (1, b)], true, true, false, false, false, false, true, none⟩
  | .rot p _ _ _ a => ⟨p, [(0, a)], true, false, false, false, false, false, true, none⟩
  | .red p _ _ a => ⟨p, [(0, a)], true, false, false, false, false, false, true, none⟩
  | .scan p _ _ a => ⟨p, [(0, a)], true, false, false, false, false, false, true, none⟩
  | .topk p _ _ _ a => ⟨p, [(0, a)], true, false, false, false, false, false, true, none⟩
  | .lmask p _ a => ⟨p, [(0, a)], true, false, false, false, false, false, true, none⟩
  | .compact p _ a b => ⟨p, [(0, a), (1, b)], true, true, false, false, false, false, true, none⟩
  | .expand p _ a b => ⟨p, [(0, a), (1, b)], true, true, false, false, false, false, true, none⟩
  | .dot p _ _ a b => ⟨p, [(0, a), (1, b)], true, true, true, false, false, false, true, none⟩
  | .in_ p _ a => ⟨p, [(0, a)], false, false, false, false, false, false, false, none⟩
  | .eos p _ a => ⟨p, [(0, a)], true, false, false, true, false, false, false, none⟩
  | .emit p _ a => ⟨p, [(0, a)], true, false, false, false, false, false, false, none⟩
  | .bound p _ a => ⟨p, [(0, a)], true, false, false, false, false, false, false, none⟩
  | .filt p _ w c f a => ⟨p, filtTgts a w c f, true, false, true, true, false, true, false, none⟩
  | .merge p _ _ _ a => ⟨p, [(0, a)], false, false, true, false, false, true, false, none⟩
  | .gate p _ a => ⟨p, [(0, a)], true, false, true, true, false, true, false, none⟩
  | .mark p a => ⟨p, [(0, a)], false, false, false, false, false, false, false, none⟩
  | .drop p _ a => ⟨p, [(0, a)], false, false, false, false, false, false, false, none⟩
  | .ld p _ _ _ _ _ _ d => ⟨p, dstTgts d, true, false, false, false, false, false, true, dstReg d⟩
  | .st p _ _ _ _ _ a => ⟨p, [(0, a)], true, true, false, false, false, false, true, none⟩
  | .ldv p _ _ _ _ _ _ a => ⟨p, [(0, a)], true, true, false, false, false, false, true, none⟩
  | .stv p _ _ _ _ _ a => ⟨p, [(0, a)], true, true, false, false, false, false, true, none⟩
  | .recl p _ _ _ a => ⟨p, [(0, a)], true, true, false, false, false, false, true, none⟩
  | .ldt p _ _ _ a => ⟨p, [(0, a)], true, true, false, false, false, false, true, none⟩
  | .stt p _ _ _ a => ⟨p, [(0, a)], true, true, true, false, false, false, true, none⟩
  | .pref p _ _ _ a => ⟨p, [(0, a)], true, false, false, false, false, false, true, none⟩
  | .gath p _ _ _ _ _ d => ⟨p, dstTgts d, true, true, false, false, false, false, true, dstReg d⟩
  | .scat p _ _ _ _ a => ⟨p, [(0, a)], true, true, true, false, false, false, true, none⟩
  | .aadd p _ _ _ _ a => ⟨p, [(0, a)], true, true, false, false, false, false, true, none⟩
  | .amin p _ _ _ _ _ a => ⟨p, [(0, a)], true, true, false, false, false, false, true, none⟩
  | .amax p _ _ _ _ _ a => ⟨p, [(0, a)], true, true, false, false, false, false, true, none⟩
  | .aand p _ _ _ _ a => ⟨p, [(0, a)], true, true, false, false, false, false, true, none⟩
  | .aor p _ _ _ _ a => ⟨p, [(0, a)], true, true, false, false, false, false, true, none⟩
  | .axor p _ _ _ _ a => ⟨p, [(0, a)], true, true, false, false, false, false, true, none⟩
  | .axch p _ _ _ _ a => ⟨p, [(0, a)], true, true, false, false, false, false, true, none⟩
  | .acas p _ _ _ _ a => ⟨p, [(0, a)], true, true, true, false, false, false, true, none⟩
  | .afadd p _ _ _ _ a => ⟨p, [(0, a)], true, true, false, false, false, false, true, none⟩
  | .ascat p _ _ _ _ a => ⟨p, [(0, a)], true, true, true, false, false, false, true, none⟩
  | .fence p _ _ a => ⟨p, [(0, a)], false, false, false, false, false, false, true, none⟩
  | .fencex p _ _ _ a => ⟨p, [(0, a)], false, false, false, false, false, false, true, none⟩
  | .spld p _ _ _ _ a => ⟨p, [(0, a)], true, false, false, false, false, false, true, none⟩
  | .spst p _ _ _ _ a => ⟨p, [(0, a)], true, true, false, false, false, false, true, none⟩
  | .flush p _ _ _ a => ⟨p, [(0, a)], true, false, false, false, false, false, true, none⟩
  | .pin p _ _ _ a => ⟨p, [(0, a)], true, false, false, false, false, false, true, none⟩
  | .unpin p _ _ _ a => ⟨p, [(0, a)], true, false, false, false, false, false, true, none⟩
  | .barm p _ f a => ⟨p, [(0, a)], true, f, false, false, false, false, true, none⟩
  | .barr p _ _ _ f a => ⟨p, [(0, a)], f, false, false, false, false, false, true, none⟩
  | .barw p _ _ _ f a => ⟨p, [(0, a)], true, f, false, false, false, false, true, none⟩
  | .barx p _ _ _ f a => ⟨p, [(0, a)], true, f, false, false, false, false, true, none⟩
  | .syni p a => ⟨p, [(0, a)], true, true, false, false, false, false, true, none⟩
  | .synw p a => ⟨p, [(0, a)], true, true, false, false, false, false, true, none⟩
  | .syna p a => ⟨p, [(0, a)], true, true, false, false, false, false, true, none⟩
  | .chapp p _ _ a => ⟨p, [(0, a)], true, false, false, false, false, false, true, none⟩
  | .chseq p _ _ a => ⟨p, [(0, a)], false, false, false, false, false, false, true, none⟩
  | .chwt p _ _ a => ⟨p, [(0, a)], true, false, false, false, false, false, true, none⟩
  | .chctl p _ _ _ a => ⟨p, [(0, a)], false, false, false, false, false, false, true, none⟩
  | .tdisp p a => ⟨p, [(0, a)], true, false, false, false, false, false, true, none⟩
  | .mma p _ _ a => ⟨p, [(0, a)], true, true, false, true, true, false, true, none⟩
  | .mmas p _ _ a => ⟨p, [(0, a)], true, true, false, true, true, false, true, none⟩
  | .mmap p _ _ a => ⟨p, [(0, a)], true, true, false, true, true, false, true, none⟩
  | .acz p _ _ a => ⟨p, [(0, a)], false, false, false, false, false, false, true, none⟩
  | .acrd p _ d => ⟨p, dstTgts d, true, false, false, false, false, false, true, dstReg d⟩
  | .acwr p _ a => ⟨p, [(0, a)], true, true, false, false, false, false, true, none⟩
  | .accv p _ _ _ a => ⟨p, [(0, a)], true, true, false, false, false, false, true, none⟩
  | .tagr p _ a => ⟨p, [(0, a)], true, false, false, false, false, false, true, none⟩
  | .tags p d _ a => ⟨p, [(0, a)], true, !d, false, false, false, false, true, none⟩
  | .tfch p c _ _ _ a => ⟨p, [(0, a)], true, c, false, false, false, false, true, none⟩
  | .trel p _ a => ⟨p, [(0, a)], false, false, false, false, false, false, true, none⟩
  | .tdsc p _ a => ⟨p, [(0, a)], true, false, false, false, false, false, true, none⟩
  | .mlook p a => ⟨p, [(0, a)], true, true, false, false, false, false, true, none⟩
  | .pgld p _ a => ⟨p, [(0, a)], true, false, false, false, false, false, true, none⟩
  | .pgst p _ _ a => ⟨p, [(0, a)], true, false, false, false, false, false, true, none⟩
  | .pgnx p _ d => ⟨p, dstTgts d, false, false, false, false, false, false, true, dstReg d⟩
  | .pgsv p _ a => ⟨p, [(0, a)], false, false, false, false, false, false, true, none⟩
  | .pgrs p _ a => ⟨p, [(0, a)], true, false, false, false, false, false, true, none⟩
  | .slhb p _ a => ⟨p, [(0, a)], true, true, true, false, false, false, true, none⟩
  | .slht p a => ⟨p, [(0, a)], true, false, true, false, false, false, true, none⟩
  | .pgq p _ a => ⟨p, [(0, a)], true, false, false, false, false, false, true, none⟩
  | .phend p a => ⟨p, [(0, a)], true, false, false, false, false, false, false, none⟩
  | .ctxq p _ a => ⟨p, [(0, a)], false, false, false, false, false, false, false, none⟩
  | .rateq p _ a => ⟨p, [(0, a)], false, false, false, false, false, false, false, none⟩
  | .sarm p _ a => ⟨p, [(0, a)], true, false, false, false, false, false, false, none⟩
  | .swait p _ a => ⟨p, [(0, a)], false, false, false, false, false, false, false, none⟩
  | .launch p _ a => ⟨p, [(0, a)], true, false, false, false, false, false, false, none⟩
  | .trap p _ a => ⟨p, [(0, a)], true, false, false, false, false, false, false, none⟩
  | .brk p _ a => ⟨p, [(0, a)], false, false, false, false, false, false, false, none⟩
  | .csrr p _ a => ⟨p, [(0, a)], false, false, false, false, false, false, false, none⟩
  | .csrw p _ a => ⟨p, [(0, a)], true, false, false, false, false, false, false, none⟩
  | .nodeid p a => ⟨p, [(0, a)], false, false, false, false, false, false, false, none⟩
  | .fcnt p _ a => ⟨p, [(0, a)], false, false, false, false, false, false, false, none⟩
  | .eqrd p _ a => ⟨p, [(0, a)], false, false, false, false, false, false, false, none⟩
  | .obsr p _ _ _ a => ⟨p, [(0, a)], false, false, false, false, false, false, false, none⟩
  | .haltr p a => ⟨p, [(0, a)], false, false, false, false, false, false, false, none⟩
  | _ => ⟨.none, [], false, false, false, false, false, false, false, none⟩

/-! ### Program order and readiness -/

/-- Whether the firing (no, epi) precedes (no', epi') in program order: the epilogue follows every body (R22). -/
def firingBefore (no : Nat) (epi : Bool) (no' : Nat) (epi' : Bool) : Bool :=
  (!epi && epi') || (epi == epi' && decide (no < no'))

/-- The slots of an element's firings in flight that have not issued, with the operands that they have received (R107, R112, R113) and
their instructions. -/
def Elem.waiting (x : Elem) : List (Firing × Nat × Slot × Instr) :=
  x.firings.flatMap fun f =>
    match x.block f.epi with
    | none => []
    | some b => b.instrs.filterMap fun (k, i) =>
        match f.slots[k]? with
        | some sl => if sl.issued then none else some (f, k, sl.seen x.icyc, i)
        | none => none

/-- The slots before a cursor in program order that have not issued (R107, R113). -/
def Elem.earlier (x : Elem) (c : Cursor) : List (Firing × Nat × Slot × Instr) :=
  x.waiting.filter fun (f, k, _, _) =>
    firingBefore f.no f.epi c.no c.epi || (f.no == c.no && f.epi == c.epi && decide (k < c.slot))

/-- The registers a slot names: the lowest, and whether every register from it on may be meant (an index that has not
arrived, R107, R129). -/
def slotReg (sl : Slot) (i : Instr) : Option (Nat × Bool) :=
  match (infoOf i).reg with
  | none => none
  | some (n, false) => some (n, false)
  | some (n, true) =>
    match sl.l with
    | some o => some (n + (lane o.tok.data 0).toNat, false)
    | none => some (n, true)

/-- Whether two slots may name one register. -/
def regClash : Option (Nat × Bool) → Option (Nat × Bool) → Bool
  | some (n, false), some (m, false) => n == m
  | some (n, true), some (m, false) => decide (n ≤ m)
  | some (n, false), some (m, true) => decide (m ≤ n)
  | some (_, true), some (_, true) => true
  | _, _ => false

/-- R107: no earlier slot that names the same register is still to issue. -/
def Elem.regFree (x : Elem) (c : Cursor) (sl : Slot) (i : Instr) : Bool :=
  match slotReg sl i with
  | none => true
  | some r => (x.earlier c).all fun (_, _, sl', i') => !regClash (slotReg sl' i') (some r)

/-- R109: the slots that a slot names as consumers have issued in every earlier firing, so that the arcs to them are
free (R13). Of two slots that issue in one element cycle the wide pipe's comes first: its issue frees an arc for a producer of the
scalar pipe in that cycle, and not the other way (DESIGN CHOICE, log 87). -/
def Elem.arcsFree (x : Elem) (c : Cursor) (tg : List (Nat × Tgt)) : Bool :=
  x.firings.all fun f =>
    !(f.epi == c.epi && decide (f.no < c.no)) ||
    tg.all fun (_, a) =>
      match a with
      | .slot d _ => (f.slots.getD d.toNat {}).issued
      | _ => true

/-- Whether a port that is used holds a token that can be taken (R109, R112). -/
def portReady (now : Nat) (used : Bool) (o : Option Opnd) : Bool :=
  !used || (match o with
    | some v => decide (v.due ≤ now)
    | none => false)

/-- The operand tokens of a slot; an empty data token stands for a port that is not used. -/
structure Args where
  l : Token
  r : Token
  t : Token
deriving DecidableEq, Repr

/-- The token at a port. -/
def tokAt (o : Option Opnd) : Token :=
  match o with
  | some v => v.tok
  | none => ⟨.data, 0, none⟩

/-- The tag of a result: that of L, else R, else T (R16). -/
def Args.tag (a : Args) : Option (BitVec 16) := (a.l.tag.orElse fun _ => a.r.tag).orElse fun _ => a.t.tag

/-- What the state of a slot allows: it waits; it is nullified; an operand raises the illegal-instruction trap; or it
executes, with its operands. -/
inductive Gate where
  | wait
  | nullify (x : Elem) (tag : Option (BitVec 16))
  | illegal
  | go (x : Elem) (a : Args)
deriving DecidableEq, Repr

/-- How a predicate port gates: absent, a match, a mismatch, a null, or a marker (R20, R21, R42). -/
inductive PGate where
  | pass | miss | bad
deriving DecidableEq, Repr

/-- The predicate of a slot (R20). A null at P nullifies (R21); a marker raises the trap (R42). -/
def predGate (pm : Pm) (o : Option Opnd) : PGate :=
  match pm with
  | .none => .pass
  | .t => if (tokAt o).isNull then .miss else if (tokAt o).marker then .bad else if (tokAt o).truth then .pass else .miss
  | .f => if (tokAt o).isNull then .miss else if (tokAt o).marker then .bad else if (tokAt o).truth then .miss else .pass

/-- Whether the unit that an instruction needs is free: the divider, or the matrix unit (R109, R112, R361). -/
def Elem.unitFree (x : Elem) : Instr → Bool
  | .div _ _ _ _ _ | .rem _ _ _ _ _ => decide (x.divFree ≤ x.icyc)
  | .mma _ _ _ _ | .mmas _ _ _ _ | .mmap _ _ _ _ | .acz _ _ _ _ | .acrd _ _ _ | .acwr _ _ _ | .accv _ _ _ _ _ =>
    decide (x.mxFree ≤ x.icyc)
  | _ => true

/-- R20, R21, R42, R107, R109 for the slot under the cursor. A slot that is nullified is held to the same conditions (R109). A slot with a
null at one operand port and a marker that its entry does not accept at another is nullified, and a marker at P traps whatever the other
ports hold: R21 and R42 give no order (DESIGN CHOICE, log 88). -/
def gate (s : State) (i : Instr) : Gate :=
  let c := s.cur
  match s.elem? c.e with
  | none => .wait
  | some x =>
    if !s.runs x then .wait
    else match x.firing? c.no c.epi with
    | none => .wait
    | some f =>
      match f.slots[c.slot]? with
      | none => .wait
      | some sl =>
        let k := infoOf i
        let a : Args := ⟨tokAt (if k.l then sl.l else none), tokAt (if k.r then sl.r else none),
          tokAt (if k.t then sl.t else none)⟩
        if sl.issued then .wait
        else if !(portReady x.icyc k.l sl.l && portReady x.icyc k.r sl.r && portReady x.icyc k.t sl.t
            && portReady x.icyc (k.pm != .none) sl.p) then .wait
        else if !(x.regFree c sl i && x.arcsFree c k.tgts && x.unitFree i) then .wait
        else match predGate k.pm sl.p with
        | .miss => .nullify x a.tag
        | .bad => .illegal
        | .pass =>
          if !k.ownNull && (a.l.isNull || a.r.isNull || a.t.isNull) then .nullify x a.tag
          else if (a.l.marker && !k.mkL) || (a.r.marker && !k.mkR) || a.t.marker then .illegal
          else .go x a

/-! ### Issuing -/

/-- The element after a slot has issued and sent its tokens, which consumers can take after `lat` element cycles
(R112). -/
def Elem.issue (x : Elem) (c : Cursor) (lat : Nat) (outs : List (Nat × Tgt × Token)) : Elem :=
  (x.markIssued c).sendAll c (x.icyc + lat) outs

/-- The slot under a cursor. -/
def Elem.slotAt (x : Elem) (c : Cursor) : Slot :=
  match x.firing? c.no c.epi with
  | some f => f.slots.getD c.slot {}
  | none => {}

/-- The targets to which a nullified slot sends a null, and the output places that it frees: all of its consumers, but for a FILT
without a condition port with a null at P, which sends it to its false port alone (R20, R21). -/
def nullTgts (sl : Slot) : Instr → List (Nat × Tgt) × List (Nat × Nat)
  | .filt p g false c f a =>
    if p != .none && (tokAt sl.p).isNull then
      ([(2, .out f)], match a with
        | .out o => [(0, o.toNat)]
        | _ => [])
    else ((infoOf (.filt p g false c f a)).tgts, [])
  | i => ((infoOf i).tgts, [])

/-- A slot issues as nullified: nothing changes but the nulls at its targets (R20, R21), which consumers can take in the next element
cycle, whatever latency R112 and R133 give the instruction's results (DESIGN CHOICE, log 89). -/
def Elem.nullified (x : Elem) (c : Cursor) (i : Instr) (tag : Option (BitVec 16)) : Elem :=
  let (tg, fr) := nullTgts (x.slotAt c) i
  (x.freeOuts c fr).issue c 1 (tg.map fun (k, a) => (k, a, nullTok tag))

/-- What an instruction does once it executes: it issues, with its latency, the tokens it sends and the element it
leaves; it raises a trap with class, cause, address and detail; or it waits. -/
inductive Act where
  | issue (x : Elem) (lat : Nat) (outs : List (Nat × Tgt × Token))
  | trap (cls cause : Nat) (addr detail : Dword)
  | wait
deriving DecidableEq, Repr

/-- An instruction whose whole effect is on its own element. -/
def run (i : Instr) (f : Cursor → Elem → Args → Act) (s : State) : Out :=
  match gate s i with
  | .wait => .next s
  | .illegal => .next (s.raise s.cur tcIllegal 0 0 0)
  | .nullify x tag => .next (s.setElem s.cur.e (x.nullified s.cur i tag))
  | .go x a =>
    match f s.cur x a with
    | .issue x' lat outs => .next (s.setElem s.cur.e (x'.issue s.cur lat outs))
    | .trap cls cause addr detail => .next (s.raise s.cur cls cause addr detail)
    | .wait => .next s

/-- An instruction whose effect reaches beyond its element: `f` says what it does once it executes. -/
def runS (i : Instr) (f : Cursor → Elem → Args → State → Out) (s : State) : Out :=
  match gate s i with
  | .wait => .next s
  | .illegal => .next (s.raise s.cur tcIllegal 0 0 0)
  | .nullify x tag => .next (s.setElem s.cur.e (x.nullified s.cur i tag))
  | .go x a => f s.cur x a s

/-- A slot issues in a state, with the element as `x` has it. -/
def State.finish (s : State) (c : Cursor) (x : Elem) (lat : Nat) (outs : List (Nat × Tgt × Token)) : Out :=
  .next (s.setElem c.e (x.issue c lat outs))

/-- Results sent to every target of an instruction. -/
def toAll (i : Instr) (t : Token) : List (Nat × Tgt × Token) := (infoOf i).tgts.map fun (k, a) => (k, a, t)

/-- An instruction that computes one payload and the flags it raises from its operands. -/
def compute (i : Instr) (lat : Nat) (f : Args → Payload × Nat) (s : State) : Out :=
  run i (fun _ x a =>
    let (p, fl) := f a
    .issue (x.flags lat fl) lat (toAll i (dataTok p a.tag))) s

end Sys2Proof.Machine
end

