-- ==== Sys2Proof/Machine/Integer.lean ====
section
/-! DEFINITION. Integer and address instructions, opcodes 0x01 to 0x20 (R114 to R126). -/

namespace Sys2Proof.Machine

/-- Elements and element width of a shape (R44, R114). -/
def Shape.dims : Shape → Nat × Nat
  | .s => (1, 32)
  | .d => (1, 64)
  | .v => (16, 32)
  | .h => (32, 16)

/-- The payload of an element-wise function of L, R and T; lanes outside the shape's elements are zero (R114). -/
def mapShape (sh : Shape) (f : Nat → Nat → Nat → Nat → Nat) (a : Args) : Payload :=
  let (n, w) := Shape.dims sh
  ofEls w ((List.range n).map fun j => f w (elAt w a.l.data j) (elAt w a.r.data j) (elAt w a.t.data j))

/-- MULH: the high half of the exact product (R116). -/
def mulhE (u : Bool) (w a b : Nat) : Nat := wrap w (rd u w a * rd u w b / (2 ^ w : Nat))

/-- Shifts and the rotation: the amount is b modulo w (R116). -/
def shlE (w a b : Nat) : Nat := a * 2 ^ (b % w) % 2 ^ w
def shrE (w a b : Nat) : Nat := a / 2 ^ (b % w)
def sraE (w a b : Nat) : Nat := wrap w (sgn w a / (2 ^ (b % w) : Nat))
def rolE (w a b : Nat) : Nat := (a * 2 ^ (b % w) + a / 2 ^ (w - b % w)) % 2 ^ w

/-- MIN and MAX (R116). -/
def minE (u : Bool) (w a b : Nat) : Nat := if rd u w a ≤ rd u w b then a else b
def maxE (u : Bool) (w a b : Nat) : Nat := if rd u w a ≤ rd u w b then b else a

/-- DIV: truncated toward zero; all ones for a zero divisor; the most negative number by −1 gives itself (R117). -/
def divE (u : Bool) (w a b : Nat) : Nat := if b = 0 then 2 ^ w - 1 else wrap w ((rd u w a).tdiv (rd u w b))

/-- REM: the sign of a; a for a zero divisor (R117). -/
def remE (u : Bool) (w a b : Nat) : Nat := if b = 0 then a else wrap w ((rd u w a).tmod (rd u w b))

/-- ABS (R119). -/
def absE (u : Bool) (w a : Nat) : Nat := if u then a else wrap w ((sgn w a).natAbs : Int)

/-- Position and length of a bit-field control (R120). -/
def ctlPos (c : Nat) : Nat := c % 64
def ctlLen (w c : Nat) : Nat := min (c / 256 % 64) w

/-- BFX (R120). -/
def bfxE (u : Bool) (w a c : Nat) : Nat :=
  let len := ctlLen w c
  let f := a / 2 ^ ctlPos c % 2 ^ len
  if u || len = 0 then f else wrap w (sgn len f)

/-- BFI: base a, value b, control c (R120). -/
def bfiE (w a b c : Nat) : Nat :=
  let m := (2 ^ ctlLen w c - 1) * 2 ^ ctlPos c % 2 ^ w
  (a &&& (2 ^ w - 1 - m)) ||| (b * 2 ^ ctlPos c &&& m)

/-- SAT on one element: the exact sum or difference clamped, and whether it was (R121). -/
def satE (sub u : Bool) (w a b : Nat) : Nat × Bool :=
  let x := if sub then rd u w a - rd u w b else rd u w a + rd u w b
  if x < intLo u w then (wrap w (intLo u w), true)
  else if intHi u w < x then (wrap w (intHi u w), true)
  else (wrap w x, false)

/-- Conditions of CMP and CMPI on two 32-bit values (R46). -/
def condHolds (c : Cond) (a b : Nat) : Bool :=
  match c with
  | .eq => a == b
  | .ne => a != b
  | .lt => decide (sgn 32 a < sgn 32 b)
  | .le => decide (sgn 32 a ≤ sgn 32 b)
  | .gt => decide (sgn 32 b < sgn 32 a)
  | .ge => decide (sgn 32 b ≤ sgn 32 a)
  | .ltu => decide (a < b)
  | .leu => decide (a ≤ b)
  | .gtu => decide (b < a)
  | .geu => decide (b ≤ a)

/-- An address token of its parts; offsets wrap modulo 2^48 (R126). -/
def addrTok (tid : Nat) (off : Int) : Nat := tid % 2 ^ 16 * 2 ^ 48 + wrap 48 off

/-- The tensor id and the offset of an address token (R236). -/
def tidOf (t : Nat) : Nat := t / 2 ^ 48 % 2 ^ 16
def offOf (t : Nat) : Nat := t % 2 ^ 48

/-- Pure element-wise instructions (R114). -/
def intOp (i : Instr) (sh : Shape) (lat : Nat) (f : Nat → Nat → Nat → Nat → Nat) (s : State) : Out :=
  compute i lat (fun a => (mapShape sh f a, 0)) s

/-- Element cycles that DIV and REM take and hold the divider (R112). -/
def divCycles (sh : Shape) : Nat := if sh = .d then 20 else 12

/-- DIV and REM take the divider, which was free (R109, R112). -/
def divOp (i : Instr) (sh : Shape) (f : Nat → Nat → Nat → Nat) (s : State) : Out :=
  run i (fun _ x a =>
    .issue { x with divFree := x.icyc + divCycles sh } (divCycles sh)
      (toAll i (dataTok (mapShape sh (fun w p q _ => f w p q) a) a.tag))) s

/-- ADD (R116). -/
def execAdd (p : Pm) (sh : Shape) (u : Bool) (a b : Tgt) (s : State) : Out :=
  intOp (.add p sh u a b) sh 1 (fun w x y _ => (x + y) % 2 ^ w) s

/-- SUB (R116). -/
def execSub (p : Pm) (sh : Shape) (u : Bool) (a b : Tgt) (s : State) : Out :=
  intOp (.sub p sh u a b) sh 1 (fun w x y _ => (x + 2 ^ w - y) % 2 ^ w) s

/-- MUL (R116). -/
def execMul (p : Pm) (sh : Shape) (u : Bool) (a b : Tgt) (s : State) : Out :=
  intOp (.mul p sh u a b) sh 3 (fun w x y _ => x * y % 2 ^ w) s

/-- MULH (R116). -/
def execMulh (p : Pm) (sh : Shape) (u : Bool) (a b : Tgt) (s : State) : Out :=
  intOp (.mulh p sh u a b) sh 3 (fun w x y _ => mulhE u w x y) s

/-- MAD (R118). -/
def execMad (p : Pm) (sh : Shape) (u : Bool) (a b : Tgt) (s : State) : Out :=
  intOp (.mad p sh u a b) sh 3 (fun w x y z => (x * y + z) % 2 ^ w) s

/-- DIV (R117). -/
def execDiv (p : Pm) (sh : Shape) (u : Bool) (a b : Tgt) (s : State) : Out :=
  divOp (.div p sh u a b) sh (divE u) s

/-- REM (R117). -/
def execRem (p : Pm) (sh : Shape) (u : Bool) (a b : Tgt) (s : State) : Out :=
  divOp (.rem p sh u a b) sh (remE u) s

/-- AND (R116). -/
def execAnd (p : Pm) (sh : Shape) (u : Bool) (a b : Tgt) (s : State) : Out :=
  intOp (.and_ p sh u a b) sh 1 (fun _ x y _ => x &&& y) s

/-- OR (R116). -/
def execOr (p : Pm) (sh : Shape) (u : Bool) (a b : Tgt) (s : State) : Out :=
  intOp (.or_ p sh u a b) sh 1 (fun _ x y _ => x ||| y) s

/-- XOR (R116). -/
def execXor (p : Pm) (sh : Shape) (u : Bool) (a b : Tgt) (s : State) : Out :=
  intOp (.xor p sh u a b) sh 1 (fun _ x y _ => x ^^^ y) s

/-- ANDN (R116). -/
def execAndn (p : Pm) (sh : Shape) (u : Bool) (a b : Tgt) (s : State) : Out :=
  intOp (.andn p sh u a b) sh 1 (fun w x y _ => x &&& (2 ^ w - 1 - y)) s

/-- SHL (R116). -/
def execShl (p : Pm) (sh : Shape) (u : Bool) (a b : Tgt) (s : State) : Out :=
  intOp (.shl p sh u a b) sh 1 (fun w x y _ => shlE w x y) s

/-- SHR (R116). -/
def execShr (p : Pm) (sh : Shape) (u : Bool) (a b : Tgt) (s : State) : Out :=
  intOp (.shr p sh u a b) sh 1 (fun w x y _ => shrE w x y) s

/-- SRA (R116). -/
def execSra (p : Pm) (sh : Shape) (u : Bool) (a b : Tgt) (s : State) : Out :=
  intOp (.sra p sh u a b) sh 1 (fun w x y _ => sraE w x y) s

/-- ROL (R116). -/
def execRol (p : Pm) (sh : Shape) (u : Bool) (a b : Tgt) (s : State) : Out :=
  intOp (.rol p sh u a b) sh 1 (fun w x y _ => rolE w x y) s

/-- MIN (R116). -/
def execMin (p : Pm) (sh : Shape) (u : Bool) (a b : Tgt) (s : State) : Out :=
  intOp (.min p sh u a b) sh 1 (fun w x y _ => minE u w x y) s

/-- MAX (R116). -/
def execMax (p : Pm) (sh : Shape) (u : Bool) (a b : Tgt) (s : State) : Out :=
  intOp (.max p sh u a b) sh 1 (fun w x y _ => maxE u w x y) s

/-- ABS (R119). -/
def execAbs (p : Pm) (sh : Shape) (u : Bool) (a b : Tgt) (s : State) : Out :=
  intOp (.abs p sh u a b) sh 1 (fun w x _ _ => absE u w x) s

/-- NEG (R119). -/
def execNeg (p : Pm) (sh : Shape) (u : Bool) (a b : Tgt) (s : State) : Out :=
  intOp (.neg p sh u a b) sh 1 (fun w x _ _ => (2 ^ w - x) % 2 ^ w) s

/-- CLZ (R119). -/
def execClz (p : Pm) (sh : Shape) (u : Bool) (a b : Tgt) (s : State) : Out :=
  intOp (.clz p sh u a b) sh 1 (fun w x _ _ => w - bitLen x) s

/-- POPC (R119). -/
def execPopc (p : Pm) (sh : Shape) (u : Bool) (a b : Tgt) (s : State) : Out :=
  intOp (.popc p sh u a b) sh 1 (fun w x _ _ => popCount w x) s

/-- BREV (R119). -/
def execBrev (p : Pm) (sh : Shape) (u : Bool) (a b : Tgt) (s : State) : Out :=
  intOp (.brev p sh u a b) sh 1 (fun w x _ _ => revBits w x) s

/-- BFX (R120). -/
def execBfx (p : Pm) (sh : Shape) (u : Bool) (a b : Tgt) (s : State) : Out :=
  intOp (.bfx p sh u a b) sh 1 (fun w x y _ => bfxE u w x y) s

/-- BFI (R120). -/
def execBfi (p : Pm) (sh : Shape) (u : Bool) (a b : Tgt) (s : State) : Out :=
  intOp (.bfi p sh u a b) sh 1 (fun w x y z => bfiE w x y z) s

/-- CMP: a condition token (R122). -/
def execCmp (p : Pm) (c : Cond) (a b : Tgt) (s : State) : Out :=
  run (.cmp p c a b) (fun _ x r =>
    .issue x 1 (toAll (.cmp p c a b) (condTok (condHolds c (elAt 32 r.l.data 0) (elAt 32 r.r.data 0)) r.tag))) s

/-- The token SEL emits: the one T chooses, whole, with the tag of R16; a null at T or at the chosen port gives a null
(R123). -/
def selTok (r : Args) : Token :=
  let v := if r.t.truth then r.l else r.r
  if r.t.isNull || v.isNull then nullTok r.tag else { v with tag := r.tag }

/-- SEL (R123). -/
def execSel (p : Pm) (a b : Tgt) (s : State) : Out :=
  run (.sel p a b) (fun _ x r => .issue x 1 (toAll (.sel p a b) (selTok r))) s

/-- SAT: ST is raised when an element is clamped (R121). -/
def execSat (p : Pm) (sh : Shape) (o u : Bool) (a b : Tgt) (s : State) : Out :=
  compute (.sat p sh o u a b) 1 (fun r =>
    let (n, w) := Shape.dims sh
    let es := (List.range n).map fun j => satE o u w (elAt w r.l.data j) (elAt w r.r.data j)
    (ofEls w (es.map (·.1)), if es.any (·.2) then fST else 0)) s

/-- The lanes MOV copies (R124). -/
def movData (sh : Shape) (d : Payload) : Payload :=
  match sh with
  | .s => ofEls 32 [elAt 32 d 0]
  | .d => ofEls 64 [elAt 64 d 0]
  | .v | .h => d

/-- MOV keeps the token's kind and tag (R16, R124). -/
def execMov (p : Pm) (sh : Shape) (u : Bool) (a b : Tgt) (s : State) : Out :=
  run (.mov p sh u a b) (fun _ x r =>
    .issue x 1 (toAll (.mov p sh u a b) ⟨r.l.kind, movData sh r.l.data, r.l.tag⟩)) s

/-- NUL (R125). -/
def execNul (p : Pm) (a b : Tgt) (s : State) : Out :=
  run (.nul p a b) (fun _ x r => .issue x 1 (toAll (.nul p a b) (nullTok r.tag))) s

/-- ADDR (R126). -/
def execAddr (p : Pm) (u : Bool) (a b : Tgt) (s : State) : Out :=
  compute (.addr p u a b) 1 (fun r =>
    (scalar64 (addrTok (elAt 32 r.l.data 0) (elAt 64 r.r.data 0)), 0)) s

/-- AOFF (R126). -/
def execAoff (p : Pm) (u : Bool) (a b : Tgt) (s : State) : Out :=
  compute (.aoff p u a b) 1 (fun r =>
    let t := elAt 64 r.l.data 0
    (scalar64 (addrTok (tidOf t) (offOf t + sgn 64 (elAt 64 r.r.data 0))), 0)) s

/-- AIDX (R126). -/
def execAidx (p : Pm) (u : Bool) (a b : Tgt) (s : State) : Out :=
  compute (.aidx p u a b) 1 (fun r =>
    let t := elAt 64 r.l.data 0
    (scalar64 (addrTok (tidOf t) (offOf t + rd u 64 (elAt 64 r.r.data 0) * elAt 32 r.t.data 0)), 0)) s

end Sys2Proof.Machine
end

