-- ==== Sys2Proof/Machine/Registers.lean ====
section
/-! DEFINITION. Immediate instructions, opcodes 0x28 to 0x33 (R127, R128), and register instructions, opcodes 0x38 to
0x3D (R129, R105 to R107). -/

namespace Sys2Proof.Machine

/-- A 13-bit immediate sign-extended to 32 bits (R127). -/
def sx13 (i : BitVec 13) : Nat := wrap 32 (sgn 13 i.toNat)

/-- A function of the 16 lanes of L (R127). -/
def immOp (i : Instr) (lat : Nat) (f : Nat → Nat) (s : State) : Out :=
  compute i lat (fun a => (ofEls 32 ((elsOf 32 16 a.l.data).map f), 0)) s

/-- ADDI (R127). -/
def execAddi (p : Pm) (i : BitVec 13) (a : Tgt) (s : State) : Out :=
  immOp (.addi p i a) 1 (fun x => (x + sx13 i) % 2 ^ 32) s

/-- ANDI (R127). -/
def execAndi (p : Pm) (i : BitVec 13) (a : Tgt) (s : State) : Out :=
  immOp (.andi p i a) 1 (fun x => x &&& i.toNat) s

/-- ORI (R127). -/
def execOri (p : Pm) (i : BitVec 13) (a : Tgt) (s : State) : Out :=
  immOp (.ori p i a) 1 (fun x => x ||| i.toNat) s

/-- XORI (R127). -/
def execXori (p : Pm) (i : BitVec 13) (a : Tgt) (s : State) : Out :=
  immOp (.xori p i a) 1 (fun x => x ^^^ i.toNat) s

/-- MOVI (R127). -/
def execMovi (p : Pm) (i : BitVec 13) (a : Tgt) (s : State) : Out :=
  immOp (.movi p i a) 1 (fun _ => sx13 i) s

/-- MOVHI (R127). -/
def execMovhi (p : Pm) (i : BitVec 13) (a : Tgt) (s : State) : Out :=
  immOp (.movhi p i a) 1 (fun x => i.toNat * 2 ^ 19 + x % 2 ^ 19) s

/-- MULI (R127). -/
def execMuli (p : Pm) (i : BitVec 13) (a : Tgt) (s : State) : Out :=
  immOp (.muli p i a) 3 (fun x => x * sx13 i % 2 ^ 32) s

/-- SHLI (R127). -/
def execShli (p : Pm) (n : BitVec 5) (a : Tgt) (s : State) : Out :=
  immOp (.shli p n a) 1 (fun x => shlE 32 x n.toNat) s

/-- SHRI (R127). -/
def execShri (p : Pm) (n : BitVec 5) (a : Tgt) (s : State) : Out :=
  immOp (.shri p n a) 1 (fun x => shrE 32 x n.toNat) s

/-- SRAI (R127). -/
def execSrai (p : Pm) (n : BitVec 5) (a : Tgt) (s : State) : Out :=
  immOp (.srai p n a) 1 (fun x => sraE 32 x n.toNat) s

/-- The value CMPI compares with: signed for codes 0 to 5, unsigned for 6 to 9 (R47). -/
def cmpiVal (c : Cond) (v : BitVec 9) : Nat :=
  match c with
  | .ltu | .leu | .gtu | .geu => v.toNat
  | _ => wrap 32 (sgn 9 v.toNat)

/-- CMPI (R127). -/
def execCmpi (p : Pm) (c : Cond) (v : BitVec 9) (a : Tgt) (s : State) : Out :=
  run (.cmpi p c v a) (fun _ x r =>
    .issue x 1 (toAll (.cmpi p c v a) (condTok (condHolds c (elAt 32 r.l.data 0) (cmpiVal c v)) r.tag))) s

/-- LITW (R128). -/
def execLitw (p : Pm) (a : Tgt) (k : BitVec 32) (s : State) : Out :=
  immOp (.litw p a k) 1 (fun _ => k.toNat) s

/-! ### Registers -/

/-- A register of the active set; one never granted is empty (R105). -/
def Elem.regAt (x : Elem) (k : Nat) : Reg := x.cur.regs.getD k {}

/-- The element with a register set. -/
def Elem.setReg (x : Elem) (k : Nat) (r : Reg) : Elem :=
  { x with cur := { x.cur with regs := setAt x.cur.regs k r } }

/-- Reading register `k` as GET and GETX do (R129): a full one is emitted; a pending one is waited for, or traps when the
source bit is 1; an empty one traps. -/
def getAct (i : Instr) (src : Bool) (x : Elem) (k : Nat) (tag : Option (BitVec 16)) : Act :=
  match (x.regAt k).st with
  | .full => .issue x 1 (toAll i (dataTok (x.regAt k).data tag))
  | .pending => if src then .trap tcRegEmpty 0 (BitVec.ofNat 64 k) 0 else .wait
  | .empty => .trap tcRegEmpty 0 (BitVec.ofNat 64 k) 0

/-- The trap of a register that the partition word does not grant (R129, R333). -/
def regBounds (k : Nat) : Act := .trap tcBounds 0 (BitVec.ofNat 64 k) 0

/-- The trap of a register number beyond the grant in an instruction that no loader has checked (R43, R68; log 14). -/
def regIllegal : Act := .trap tcIllegal 0x0C 0 0

/-- GET (R129). -/
def execGet (p : Pm) (n : BitVec 8) (x : Bool) (a : Tgt) (s : State) : Out :=
  run (.get p n x a) (fun _ e r =>
    if e.regs ≤ n.toNat then regIllegal else getAct (.get p n x a) x e n.toNat r.tag) s

/-- Writing register `k` as PUT and PUTX do; a pending register is waited for first (R107, R129). -/
def putAct (i : Instr) (x : Elem) (k : Nat) (d : Payload) (tag : Option (BitVec 16)) : Act :=
  if (x.regAt k).st = .pending then .wait
  else .issue (x.setReg k ⟨.full, d⟩) 1 (toAll i (doneTok tag))

/-- PUT (R129). -/
def execPut (p : Pm) (n : BitVec 8) (a : Tgt) (s : State) : Out :=
  run (.put p n a) (fun _ e r =>
    if e.regs ≤ n.toNat then regIllegal else putAct (.put p n a) e n.toNat r.l.data r.tag) s

/-- GETX (R129). -/
def execGetx (p : Pm) (n : BitVec 8) (x : Bool) (a : Tgt) (s : State) : Out :=
  run (.getx p n x a) (fun _ e r =>
    let k := n.toNat + elAt 32 r.l.data 0
    if e.regs ≤ k then regBounds k else getAct (.getx p n x a) x e k r.tag) s

/-- PUTX (R129). -/
def execPutx (p : Pm) (n : BitVec 8) (a : Tgt) (s : State) : Out :=
  run (.putx p n a) (fun _ e r =>
    let k := n.toNat + elAt 32 r.l.data 0
    if e.regs ≤ k then regBounds k else putAct (.putx p n a) e k r.r.data r.tag) s

/-- REMPTY: the contents are kept; a pending register is waited for (R129). -/
def execRempty (p : Pm) (n : BitVec 8) (a : Tgt) (s : State) : Out :=
  run (.rempty p n a) (fun _ e r =>
    if e.regs ≤ n.toNat then regIllegal
    else match (e.regAt n.toNat).st with
    | .pending => .wait
    | st => .issue (e.setReg n.toNat ⟨.empty, (e.regAt n.toNat).data⟩) 1
        (toAll (.rempty p n a) (condTok (st == .full) r.tag))) s

/-- RFULL (R129). -/
def execRfull (p : Pm) (n : BitVec 8) (a : Tgt) (s : State) : Out :=
  run (.rfull p n a) (fun _ e r =>
    if e.regs ≤ n.toNat then regIllegal
    else .issue e 1 (toAll (.rfull p n a) (condTok ((e.regAt n.toNat).st == .full) r.tag))) s

end Sys2Proof.Machine
end

