-- ==== Sys2Proof/Machine/Aes.lean ====
section
/-! DEFINITION. AES-256 (FIPS 197) and its XTS mode (IEEE 1619), as R423 names them for private lines. A block is its 16 bytes in order; byte
`4 * c + r` stands in column `c`, row `r`. -/

namespace Sys2Proof.Machine

/-! ### The substitution boxes -/

/-- The S-box: row `k` holds the values of `32 * k` to `32 * k + 31`, the first one lowest. -/
def aesSbox : List Nat :=
  [0xC072A49CAFA2D4ADF04759FA7DC982CA76ABD7FE2B670130C56F6BF27B777C63,
   0x75B227EBE28012079A059618C323C7041531D871F1E5A534CCF73F362693FDB7,
   0xCF584C4A39BECB6A5BB1FC20ED00D153842FE329B3D63B52A05A6E1B1A2C8309,
   0xD2F3FF1021DAB6BCF5389D928F40A351A89F3C507F02F94585334D43FBAAEFD0,
   0xDB0B5EDE14B8EE4688902A22DC4F816073195D643D7EA7C41744975FEC130CCD,
   0x08AE7A65EAF4566CA94ED58D6D37C8E779E4959162ACD3C25C2406490A3A32E0,
   0x9E1DC186B95735610EF6034866B53E708A8BBD4B1F74DDE8C6B4A61C2E2578BA,
   0x16BB54B00F2D99416842E6BF0D89A18CDF2855CEE9871E9B948ED9691198F8E1]

/-- The inverse S-box. -/
def aesInvSbox : List Nat :=
  [0xCBE9DEC444438E3487FF2F9B8239E37CFBD7F3819EA340BF38A53630D56A0952,
   0x25D18B6D49A25B76B224D92866A12E084EC3FA420B954CEE3D23C2A632947B54,
   0x849D8DA75746155EDAB9EDFD5048706C92B6655DCC5CA4D41698688664F6F872,
   0x6B8A130103BDAFC1020F3FCA8F1E2CD00645B3B80558E4F70AD3BC8C00ABD890,
   0x6EDF751CE837F9E28535ADE72274AC9673E6B4F0CECFF297EADC674F4111913A,
   0xF45ACD78FEC0DB9A2079D2C64B3E56FC1BBE18AA0E62B76F89C5291D711AF147,
   0xEF9CC9939F7AE52D0D4AB519A97F51605FEC8027591012B131C7078833A8DD1F,
   0x7D0C2155631469E126D677BA7E042B17619953833CBBEBC8B0F52AAE4D3BE0A0]

/-- A byte through a box. -/
def aesSub (box : List Nat) (b : Byte) : Byte := BitVec.ofNat 8 (box.getD (b.toNat / 32) 0 / 256 ^ (b.toNat % 32))

/-! ### Arithmetic of GF(2^8) -/

/-- A byte times x. -/
def aesXtime (b : Byte) : Byte := (b <<< 1) ^^^ (if b.msb then 0x1B else 0)

/-- A byte times a number below 16. -/
def aesMul (k : Nat) (b : Byte) : Byte :=
  let part (i : Nat) (v : Byte) : Byte := if bit k i then v else 0
  part 0 b ^^^ part 1 (aesXtime b) ^^^ part 2 (aesXtime (aesXtime b)) ^^^ part 3 (aesXtime (aesXtime (aesXtime b)))

/-- Bytes by exclusive or. -/
def xorBytes (a b : List Byte) : List Byte := List.zipWith (· ^^^ ·) a b

/-! ### The key schedule -/

/-- Word `i` of the schedule, from the word before it and the one eight before. -/
def aesKeyWord (i : Nat) (prev old : List Byte) : List Byte :=
  let rot := prev.drop 1 ++ prev.take 1
  let t := if i % 8 = 0 then xorBytes (rot.map (aesSub aesSbox)) [BitVec.ofNat 8 (2 ^ (i / 8 - 1)), 0, 0, 0]
    else if i % 8 = 4 then prev.map (aesSub aesSbox) else prev
  xorBytes old t

/-- The last eight words before word `i`, latest first, and the words from `i` on. -/
def aesExpandFrom : Nat → Nat → List (List Byte) → List (List Byte)
  | 0, _, _ => []
  | n + 1, i, ws =>
    let w := aesKeyWord i (ws.getD 0 []) (ws.getD 7 [])
    w :: aesExpandFrom n (i + 1) (w :: ws.take 7)

/-- The 15 round keys of a key of 32 bytes. -/
def aesRoundKeys (key : List Byte) : List (List Byte) :=
  let ws := (List.range 8).map fun k => (key.drop (4 * k)).take 4
  let all := ws ++ aesExpandFrom 52 8 ws.reverse
  (List.range 15).map fun r => ((all.drop (4 * r)).take 4).flatten

/-! ### Rounds -/

/-- Rows shifted by `d` times their number. -/
def aesShift (d : Nat) (s : List Byte) : List Byte := (List.range 16).map fun i => s.getD ((i + 4 * d * (i % 4)) % 16) 0

/-- Columns multiplied by a circulant matrix, whose first row is given. -/
def aesMix (m : List Nat) (s : List Byte) : List Byte :=
  (List.range 16).map fun i =>
    (List.range 4).foldl (fun v k => v ^^^ aesMul (m.getD k 0) (s.getD (i / 4 * 4 + (i + k) % 4) 0)) 0

/-- A block through the rounds whose keys are the list, the last one without the mixing of columns. -/
def aesRounds : List (List Byte) → List Byte → List Byte
  | [], s => s
  | [k], s => xorBytes (aesShift 1 (s.map (aesSub aesSbox))) k
  | k :: ks, s => aesRounds ks (xorBytes (aesMix [2, 3, 1, 1] (aesShift 1 (s.map (aesSub aesSbox)))) k)

/-- The inverse rounds, the keys latest first. -/
def aesInvRounds : List (List Byte) → List Byte → List Byte
  | [], s => s
  | [k], s => xorBytes ((aesShift 3 s).map (aesSub aesInvSbox)) k
  | k :: ks, s => aesInvRounds ks (aesMix [14, 11, 13, 9] (xorBytes ((aesShift 3 s).map (aesSub aesInvSbox)) k))

/-- A block encrypted. -/
def aesEncrypt (key block : List Byte) : List Byte :=
  let ks := aesRoundKeys key
  aesRounds (ks.drop 1) (xorBytes block (ks.getD 0 []))

/-- A block decrypted. -/
def aesDecrypt (key block : List Byte) : List Byte :=
  let ks := (aesRoundKeys key).reverse
  aesInvRounds (ks.drop 1) (xorBytes block (ks.getD 0 []))

/-! ### XTS -/

/-- The tweak of the block after one: times x in GF(2^128), byte 0 lowest. -/
def xtsNext (t : List Byte) : List Byte :=
  let v := ofBytes t
  toBytes 16 (Nat.xor (2 * v % 2 ^ 128) (if bit v 127 then 0x87 else 0))

/-- The blocks of a data unit from tweak `t` on. -/
def xtsBlocks (f : List Byte → List Byte) : Nat → List Byte → List Byte → List Byte
  | 0, _, _ => []
  | n + 1, t, d => xorBytes (f (xorBytes (d.take 16) t)) t ++ xtsBlocks f n (xtsNext t) (d.drop 16)

/-- The two keys of a memory key, the one for data lowest. -/
def dataKey (key : BitVec 512) : List Byte := toBytes 32 key.toNat
def tweakKey (key : BitVec 512) : List Byte := toBytes 32 (key.toNat / 2 ^ 256)

/-- The tweak of a line: its number as 16 bytes, the lowest first, encrypted (R423). -/
def lineTweak (key : BitVec 512) (line : Nat) : List Byte := aesEncrypt (tweakKey key) (toBytes 16 line)

/-- A line encrypted under a memory key, and decrypted (R423). -/
def cipherLine (key : BitVec 512) (line : Nat) (d : BitVec 1024) : BitVec 1024 :=
  BitVec.ofNat 1024 (ofBytes (xtsBlocks (aesEncrypt (dataKey key)) 8 (lineTweak key line) (toBytes 128 d.toNat)))
def plainLine (key : BitVec 512) (line : Nat) (d : BitVec 1024) : BitVec 1024 :=
  BitVec.ofNat 1024 (ofBytes (xtsBlocks (aesDecrypt (dataKey key)) 8 (lineTweak key line) (toBytes 128 d.toNat)))

end Sys2Proof.Machine
end

