-- ==== Sys2Proof/Machine/Slice.lean ====
section
/-! DEFINITION. Physical memory as the part reads and writes it (R423), and the station slices (R258 to R266, R293). -/

namespace Sys2Proof.Machine

/-! ### Memory and private lines -/

/-- Whether a physical address is private to a partition (R422). -/
def State.isPrivate (s : State) (n pa : Nat) : Bool :=
  let p := s.part n
  decide (pa < Config.poolTop) && (List.range 8).any fun k =>
    let b := (p.prng.getD k 0).toNat
    let l := (p.prlim.getD k 0).toNat
    bit b 0 && decide (b / 4096 ≤ pa / 4096) && decide (pa / 4096 ≤ l / 4096)

/-- The bytes of memory at a line, as anyone outside the part sees them. -/
def State.rawLine (s : State) (line : Nat) : BitVec 1024 :=
  BitVec.ofNat 1024 (ofBytes (s.mem.read (128 * line) 128))

/-- The memory key of a partition; where an alarm has erased it, one that no partition has (R462). -/
def State.keyOf (s : State) (n : Nat) : BitVec 512 := ((s.part n).memKey).getD (Config.memoryKey 0)

/-- A line of memory as a partition reads it: private lines are decrypted (R423). -/
def State.memLine (s : State) (n line : Nat) : BitVec 1024 :=
  let raw := s.rawLine line
  if s.isPrivate n (128 * line) then plainLine (s.keyOf n) line raw else raw

/-- Bytes `[lo, lo + n)` of a line. -/
def lineBytes (d : BitVec 1024) (lo n : Nat) : List Byte := toBytes n (d.toNat / 256 ^ lo)

/-- A line with bytes replaced from byte `lo` on. -/
def lineSet (d : BitVec 1024) (lo : Nat) (bs : List Byte) : BitVec 1024 :=
  let n := bs.length
  BitVec.ofNat 1024 (d.toNat % 256 ^ lo + ofBytes bs * 256 ^ lo + d.toNat / 256 ^ (lo + n) * 256 ^ (lo + n))

/-- A whole line written to memory by a partition (R423). -/
def State.memSetLine (s : State) (n line : Nat) (d : BitVec 1024) : State :=
  if s.isPrivate n (128 * line) then
    { s with mem := s.mem.write (128 * line) (toBytes 128 (cipherLine (s.keyOf n) line d).toNat) }
  else { s with mem := s.mem.write (128 * line) (toBytes 128 d.toNat) }

/-- Bytes of one line written to memory by a partition; a part of a private line is merged (R423). -/
def State.memWrite (s : State) (n pa : Nat) (bs : List Byte) : State :=
  if s.isPrivate n pa then
    let line := pa / 128
    s.memSetLine n line (lineSet (s.memLine n line) (pa % 128) bs)
  else { s with mem := s.mem.write pa bs }

/-- Bytes of one line read from memory by a partition. -/
def State.memRead (s : State) (n pa len : Nat) : List Byte :=
  if s.isPrivate n pa then lineBytes (s.memLine n (pa / 128)) (pa % 128) len
  else s.mem.read pa len

/-! ### Lines of a slice -/

/-- Set index of a line: PA[19:7] (R259). -/
def setOf (line : Nat) : Nat := line % Config.sliceSets

/-- The valid copy of a line; a stale line is treated as invalid (R261). -/
def Page.line? (p : Page) (line : Nat) : Option Line :=
  p.lines.find? fun l => l.line == line && l.st != .stale

/-- A page with one of its lines changed. -/
def Page.modLine (p : Page) (line : Nat) (f : Line → Line) : Page :=
  { p with lines := p.lines.map fun l => if l.line = line then f l else l }

/-- A page with a line brought to the front: it is the most recently used. -/
def Page.touch (p : Page) (line : Nat) : Page :=
  { p with lines := (p.lines.filter (·.line == line)) ++ p.lines.filter (·.line != line) }

/-- The live versions that occupy ways of a set (R268). -/
def Page.setVersions (p : Page) (set : Nat) : Nat :=
  ((p.vdir.filter fun v => setOf v.line == set).map fun v => v.vers.length).sum

/-- The pinned lines of a set, versions among them (R266, R268). -/
def Page.setPins (p : Page) (set : Nat) : Nat :=
  (p.lines.filter fun l => setOf l.line == set && decide (0 < l.pins)).length + p.setVersions set

/-- The pins of a set that only the end of one launch releases: those of PIN instructions and of its versions (R266). A slice's PIN
instructions are all of the launch that holds its page. -/
def Page.setHardPins (p : Page) (set : Nat) (r : Option LaunchRef) : Nat :=
  (p.lines.filter fun l => setOf l.line == set && decide (0 < l.pins) && decide (0 < l.hard)).length +
  ((p.vdir.filter fun v => setOf v.line == set && some v.by_ == r).map fun v => v.vers.length).sum

/-- Ways that a fill may use: resident or cache ways (R260, R261). -/
def Page.ways (p : Page) (resident : Bool) (set : Nat) : Nat :=
  if resident then p.resw.toNat else Config.sliceWays - p.resw.toNat - p.setVersions set

/-- The launch that holds a page, if one does (R216). -/
def State.holder (s : State) (page : Nat) : Option LaunchRef := (s.elems.find? fun q => pageOf q.1 == page).map (·.2.l)

/-- A dirty line of a page written back: its copy is clean, and the writes that it held have been performed (R255, R261). -/
def State.writeBack (s : State) (n page : Nat) (l : Line) : State :=
  if l.st = .dirty then
    (s.memSetLine n l.line l.data).modPage page fun p => p.modLine l.line fun m => { m with st := .clean, tids := [], owed := false }
  else s

/-- Every dirty line of a slice written back (R263). -/
def State.writeBackAll (s : State) (n page : Nat) : State :=
  (s.page page).lines.foldl (fun t l => t.writeBack n page l) s

/-- Every clean line of a slice marked stale, but for lines of read-only objects and pinned lines (R263). -/
def Page.markStale (p : Page) : Page :=
  { p with lines := p.lines.map fun l => if l.st = .clean ∧ l.ro = false ∧ l.pins = 0 then { l with st := .stale } else l }

/-- Every clean line of a slice marked stale, whatever holds it (R285). -/
def Page.markAllStale (p : Page) : Page :=
  { p with lines := p.lines.map fun l => if l.st = .clean then { l with st := .stale } else l }

/-- A clean copy of one line marked stale. -/
def Page.staleLine (p : Page) (line : Nat) : Page :=
  p.modLine line fun l => if l.st = .clean then { l with st := .stale } else l

/-- A line brought into a slice for a launch: its data, and the state; none where every way that the fill may use holds a pinned line
and the fill waits (R261), and where a machine check has halted the slice (R335). -/
def State.fill (s : State) (n page line : Nat) (res ro : Bool) (r : Option LaunchRef) : Option (BitVec 1024 × State) :=
  if (s.page page).halted then none
  else match (s.page page).line? line with
  | some l => some (l.data, s.modPage page fun p => p.touch line)
  | none =>
    let d := s.memLine n line
    let pg := s.page page
    match pg.lines.find? (·.line == line) with
    | some _ => some (d, s.modPage page fun p => (p.modLine line fun l => { l with st := .clean, data := d, ro := ro, by_ := r }).touch line)
    | none =>
      let resident := res && pg.resw != 0
      let group := pg.lines.filter fun l => setOf l.line == setOf line && l.resident == resident
      let add (t : State) : State := t.modPage page fun p => { p with lines := ⟨line, resident, .clean, d, 0, 0, ro, r, [], false⟩ :: p.lines }
      if group.length < pg.ways resident (setOf line) then some (d, add s)
      else match group.reverse.find? (·.pins == 0) with
        | none => none
        | some v =>
          let t := s.writeBack n page v
          some (d, add (t.modPage page fun p => { p with lines := p.lines.filter (·.line != v.line) }))

/-- Bytes of one line read through a slice (R261). -/
def State.sliceRead (s : State) (n page pa len : Nat) (res ro : Bool) (r : Option LaunchRef) : Option (List Byte × State) :=
  match s.fill n page (pa / 128) res ro r with
  | none => none
  | some (d, t) => some (lineBytes d (pa % 128) len, t)

/-- Bytes of one line of an object written into a slice: the line is dirty, and holds a write of the object (R255, R261, R293). -/
def State.sliceWrite (s : State) (n page pa : Nat) (bs : List Byte) (tid : Nat) (res ro : Bool) (r : Option LaunchRef) : Option State :=
  match s.fill n page (pa / 128) res ro r with
  | none => none
  | some (d, t) => some (t.modPage page fun p => p.modLine (pa / 128) fun l =>
      { l with st := .dirty, data := lineSet d (pa % 128) bs, tids := if l.tids.contains tid then l.tids else tid :: l.tids })

/-- Bytes put into a valid copy, which keeps its clean or dirty state (R293). -/
def State.sliceMerge (s : State) (page pa : Nat) (bs : List Byte) : State :=
  s.modPage page fun p => p.modLine (pa / 128) fun l =>
    if l.st = .stale then l else { l with data := lineSet l.data (pa % 128) bs }

/-- A write of scope .depot or wider: through to memory, and into a valid copy of the requester's slice (R293). -/
def State.writeThrough (s : State) (n page pa : Nat) (bs : List Byte) : State :=
  (s.memWrite n pa bs).sliceMerge page pa bs

/-- An engine's bytes performed at memory: a matching clean line of any slice of the partition is marked stale; a matching
dirty line takes the bytes and stays dirty (R285). -/
def State.engineWrite (s : State) (n pa : Nat) (bs : List Byte) : State :=
  ((s.part n).pageList).foldl (fun t page =>
    t.modPage page fun p => p.modLine (pa / 128) fun l =>
      match l.st with
      | .clean => { l with st := .stale }
      | .dirty => { l with data := lineSet l.data (pa % 128) bs }
      | .stale => l) (s.memWrite n pa bs)

/-- Whether a halted slice of a partition holds a copy of one of some places, which no engine's bytes can reach (R285, R335). -/
def State.haltedHolds (s : State) (n : Nat) (pas : List (Nat × Nat)) : Bool :=
  (s.part n).pageList.any fun k => (s.page k).halted && pas.any fun a => ((s.page k).line? (a.1 / 128)).isSome

/-- Whether a scope is .depot or wider (R263). -/
def Scope.wide : Scope → Bool
  | .elem | .page => false
  | .depot | .dev | .sys => true

/-- An acquire at a scope, at the slice of a page (R263). -/
def State.acquireAt (s : State) (page : Nat) (c : Scope) : State :=
  if Scope.wide c then s.modPage page Page.markStale else s

/-- A release at a scope, at the slice of a page: its dirty lines are written back (R263). -/
def State.releaseAt (s : State) (n page : Nat) (c : Scope) : State :=
  if Scope.wide c then s.writeBackAll n page else s

/-- The pages of a partition that are in use: self-test has found an element of each (R2, R216). -/
def State.pagesOf (s : State) (n : Nat) : List Nat := (s.part n).pageList.filter fun p => (s.page p).usable != 0

/-- The home slice of a line among the slices of its partition that are in use (R2, R262). -/
def State.home (s : State) (n line : Nat) : Nat :=
  let ps := s.pagesOf n
  ps.getD (line % 2 ^ 45 % ps.length) 0

/-! ### Pins -/

/-- What a request for a pin meets: it is made; it waits for a pin to be released; its fill waits (R261); or only the launch's end could release the
set (R266). -/
inductive PinRes where
  | done (s : State)
  | wait
  | blocked
  | full
deriving DecidableEq, Repr

/-- A pin added to a line of a slice, which is filled if it is absent (R265, R266). -/
def State.addPin (s : State) (n page line : Nat) (hard res ro : Bool) (r : Option LaunchRef) : PinRes :=
  let pg := s.page page
  let has := pg.lines.any fun l => l.line == line && decide (0 < l.pins)
  let set := setOf line
  if !has && decide (Config.pinLimit ≤ pg.setPins set) then
    (if hard && decide (Config.pinLimit ≤ pg.setHardPins set r) then .full else .wait)
  else match s.fill n page line res ro r with
    | none => .blocked
    | some (_, t) =>
      if (t.page page).lines.any fun l => l.line == line && decide (255 ≤ l.pins) then .wait
      else .done (t.modPage page fun p => p.modLine line fun l => { l with pins := l.pins + 1, hard := l.hard + b2n hard })

/-- A pin removed; a line that an invalidation dropped is discarded with its last pin (R256, R265). -/
def State.dropPin (s : State) (page line : Nat) (hard : Bool) : State :=
  s.modPage page fun p =>
    let q := p.modLine line fun l => { l with pins := l.pins - 1, hard := l.hard - b2n hard }
    { q with lines := q.lines.filter fun l => !(l.line == line && l.st == .stale && l.pins == 0) }

/-- Several pins removed, given as page and line. -/
def State.dropPins (s : State) (hard : Bool) : List (Nat × Nat) → State
  | [] => s
  | (p, l) :: r => (s.dropPin p l hard).dropPins hard r

/-- R264, at the slice of a page as a launch completes, or, with no launch named, as its partition is reset: dirty lines and the newest
version of every versioned line are written back; pins and versions are dropped; lines are invalidated, and a slice that a machine check has halted serves again (log 47). Of a slice of the launch's own
pages this takes every line, whoever holds a pin of it; of another slice the launch's versions, and the lines that the launch brought in and nothing
pins (log 91). -/
def State.clearSlice (s : State) (n page : Nat) (who : Option LaunchRef) (own : Bool) : State :=
  let gone (l : Line) : Bool := who.isNone || own || (l.by_ == who && l.pins == 0)
  let goneV (v : VEntry) : Bool := who.isNone || some v.by_ == who
  let t := ((s.page page).lines.filter gone).foldl (fun t l => t.writeBack n page l) s
  let u := ((t.page page).vdir.filter goneV).foldl (fun t v =>
    match v.vers.getLast? with
    | some (_, d) => t.memSetLine n v.line d
    | none => t) t
  u.modPage page fun p =>
    { p with
      halted := p.halted && !(who.isNone || own)
      lines := p.lines.filter fun l => !gone l
      vdir := p.vdir.filter fun v => !goneV v }

/-- R256, step 3: the lines of dropped frames are written back if dirty and invalidated, and a pinned line is discarded when it
is unpinned; the newest version of a versioned line is written back, and its entry goes (R268). -/
def State.dropFrames (s : State) (n page lo hi : Nat) : State :=
  let inFrame (line : Nat) : Bool := decide (lo ≤ 128 * line) && decide (128 * line < hi)
  let t := ((s.page page).lines.filter fun l => inFrame l.line).foldl (fun t l => t.writeBack n page l) s
  let u := ((t.page page).vdir.filter fun v => inFrame v.line).foldl (fun t v =>
    match v.vers.getLast? with
    | some (_, d) => t.memSetLine n v.line d
    | none => t) t
  u.modPage page fun p =>
    { p with
      lines := (p.lines.map fun l => if inFrame l.line then { l with st := .stale } else l).filter
        fun l => !(inFrame l.line && l.pins == 0)
      vdir := p.vdir.filter fun v => !inFrame v.line }

end Sys2Proof.Machine
end

