-- ==== Sys2Proof/Machine/Translate.lean ====
section
/-! DEFINITION. Descriptors, extents and translation (R236 to R250): from an address token to physical addresses, for
every requester; and reads that the device makes of tables through the flat object. -/

namespace Sys2Proof.Machine

/-! ### Results -/

/-- Why an access is stopped: the bounds trap with a cause (R241, R272), the translation trap with a code (R353), the
width-mismatch trap (R275), the version-gone trap (R279), another trap with class, cause, DETAIL and ADDR, or one of these in a lane of a
request to the gather/scatter engine (R283). -/
inductive Stop where
  | bounds (cause : Nat)
  | xlate (code iova : Nat)
  | width
  | version
  | trap (cls cause detail addr : Nat)
  | lane (j : Nat) (c : Stop)
deriving DecidableEq, Repr

/-- The result of a part of an access: it goes on with a value; it waits; or it is stopped. -/
inductive XRes (α : Type) where
  | ok (a : α) (s : State)
  | wait (w : Wait) (s : State)
  | stop (c : Stop) (s : State)
deriving Repr

/-- One part of an access after another. -/
def XRes.bind {α β : Type} (r : XRes α) (f : α → State → XRes β) : XRes β :=
  match r with
  | .ok a s => f a s
  | .wait w s => .wait w s
  | .stop c s => .stop c s

/-- A part of an access for each entry of a list, in order, the results in order. -/
def xmap {α β : Type} (f : α → State → XRes β) : List α → State → XRes (List β)
  | [], s => .ok [] s
  | a :: r, s => (f a s).bind fun b t => (xmap f r t).bind fun bs u => .ok (b :: bs) u

/-- A part of an access for each entry of a list, in order. -/
def xeach {α : Type} (f : α → State → XRes Unit) : List α → State → XRes Unit
  | [], s => .ok () s
  | a :: r, s => (f a s).bind fun _ t => xeach f r t

/-! ### Requesters and their caches -/

/-- Who translates (R246): a memory port of an element, the gather/scatter engine or the tile fetch unit of a page, an
engine, the graph sequencer, or a region port, which keeps no cache. -/
inductive Req where
  | port (e m : Nat)
  | gs (page : Nat)
  | tf (page : Nat)
  | eng (n g : Nat)
  | seq (n : Nat)
  | feed (page : Nat)
deriving DecidableEq, Repr

/-- A requester's caches. -/
def State.cacheOf (s : State) : Req → ReqCache
  | .port e m => ((s.elem? e).map fun x => x.ports.getD m {}).getD {}
  | .gs p => (s.page p).gs
  | .tf p => (s.page p).tf
  | .eng n g => ((look g (s.part n).engines).map (·.cache)).getD {}
  | .seq n => (s.part n).gs.cache
  | .feed _ => {}

/-- The state with a requester's caches changed. -/
def State.modCache (s : State) (q : Req) (f : ReqCache → ReqCache) : State :=
  match q with
  | .port e m => s.modElem e fun x => { x with ports := modAt x.ports m f }
  | .gs p => s.modPage p fun g => { g with gs := f g.gs }
  | .tf p => s.modPage p fun g => { g with tf := f g.tf }
  | .eng n g => s.modPart n fun p =>
      match look g p.engines with
      | some e => { p with engines := put g { e with cache := f e.cache } p.engines }
      | none => p
  | .seq n => s.modPart n fun p => { p with gs := { p.gs with cache := f p.gs.cache } }
  | .feed _ => s

/-- The place of a depot among the depots of a partition. -/
def Part.depotIndex (p : Part) (d : Nat) : Nat := (p.depotList.findIdx? (· == d)).getD 0

/-- The depot of a requester (R246). -/
def State.reqDepot (s : State) : Req → Nat
  | .port e _ => depotOf (pageOf e)
  | .gs p | .tf p | .feed p => depotOf p
  | .eng n g => (s.part n).depotList.getD (if g < 64 then g / 2 else 0) 0
  | .seq n => (s.part n).depotList.getD 0 0

/-- XOR of the 2-bit fields of a number (R246). -/
def fold2 : Nat → Nat → Nat
  | 0, _ => 0
  | k + 1, x => x % 4 ^^^ fold2 k (x / 4)

/-- The translation slice that serves a requester for an address, among the slices of its partition (R246). -/
def State.sliceFor (s : State) (n : Nat) (q : Req) (iova : Nat) : Nat :=
  4 * (s.part n).depotIndex (s.reqDepot q) + (fold2 10 (s.part n).pasid.toNat ^^^ fold2 20 (iova / 2 ^ 21 % 2 ^ 36))

/-- Whether a translation holds an address. -/
def Xlat.covers (x : Xlat) (iova : Nat) : Bool := decide (x.iova ≤ iova) && decide (iova < x.iova + x.size)

/-- Whether a translation permits an access. -/
def Xlat.permits (x : Xlat) (write : Bool) : Bool := if write then x.w else x.r

/-- A list with an entry put in front, cut to a length. -/
def lru {α : Type} (k : Nat) (a : α) (l : List α) : List α := (a :: l).take k

/-- The requester's cache with a translation (R246). -/
def State.cacheXlat (s : State) (q : Req) (x : Xlat) : State :=
  s.modCache q fun c => { c with tlb := lru Config.requesterXlats x (c.tlb.filter (· != x)) }

/-- The ATS request of a translation slice for a page, if one is outstanding (R248). -/
def Part.atsFor (p : Part) (slice page : Nat) : Option AtsReq := p.ats.find? fun a => a.page == page && a.slice == slice

/-- ATS requests outstanding in the depot of a translation slice: it has four of them (R246, R248). -/
def Part.atsIn (p : Part) (slice : Nat) : Nat := (p.ats.filter fun a => a.slice / 4 == slice / 4).length

/-- A translation slice with an entry brought to the front: it is the most recently used (R246; the pseudo order is a true one, log 92). -/
def State.touchXlat (s : State) (n slice : Nat) (x : Xlat) : State :=
  s.modPart n fun p => { p with slices := modAt p.slices slice fun l => x :: l.filter (· != x) }

/-- An address translated for a requester (R246 to R250): from its cache, from the translation slice that serves it, or by an ATS request
of that slice for the 4 KiB page, one for each page and at most 64 a depot. -/
def State.translate (s : State) (n : Nat) (q : Req) (iova : Nat) (write : Bool) : XRes Nat :=
  let ok (x : Xlat) : Bool := x.covers iova && x.permits write
  match (s.cacheOf q).tlb.find? ok with
  | some x => .ok (x.pa + (iova - x.iova)) (s.cacheXlat q x)
  | none =>
    let k := s.sliceFor n q iova
    match ((s.part n).slices.getD k []).find? ok with
    | some x => .ok (x.pa + (iova - x.iova)) ((s.touchXlat n k x).cacheXlat q x)
    | none =>
      let page := iova / 4096
      let p := s.part n
      if p.atsOff then .stop (.xlate 0xFF iova) s
      else match p.atsFor k page with
        | some r =>
          .wait (.ats page k write) (if write && !r.write then
            s.modPart n fun p => { p with ats := p.ats.map fun a => if a = r then { a with write := true } else a }
            else s)
        | none =>
          if Config.atsLimit ≤ p.atsIn k then .wait .no s
          else .wait (.ats page k write) (s.modPart n fun p => { p with ats := p.ats ++ [⟨page, k, write, []⟩] })

/-! ### Reads that the device makes outside any requester -/

/-- The host's translation of an address of a partition. -/
def State.ioLook (s : State) (n iova : Nat) (write : Bool) : Option Nat :=
  match s.iommu.find? fun m => m.n == n && m.x.covers iova && m.x.permits write with
  | some m => some (m.x.pa + (iova - m.x.iova))
  | none => none

/-- `len` bytes of a partition's IOVA space read through path CE, in pieces of at most 128 bytes within a line; none where
the host maps no readable page. `k` bounds the pieces. -/
def State.ioReadGo (s : State) (n : Nat) : Nat → Nat → Nat → Option (List Byte)
  | 0, _, len => if len = 0 then some [] else none
  | k + 1, iova, len =>
    if len = 0 then some []
    else match s.ioLook n iova false with
      | none => none
      | some pa =>
        let m := min len (128 - iova % 128)
        match s.ioReadGo n k (iova + m) (len - m) with
        | none => none
        | some r => some (s.memRead n pa m ++ r)

/-- Bytes of a partition's IOVA space. -/
def State.ioRead (s : State) (n iova len : Nat) : Option (List Byte) := s.ioReadGo n (len / 128 + 2) iova len

/-- Bytes written to a partition's IOVA space through path CE at .sys scope; bytes of a page that the host does not map
writable are lost (log 17). -/
def State.ioWriteGo (s : State) (n : Nat) : Nat → Nat → List Byte → State
  | 0, _, _ => s
  | k + 1, iova, bs =>
    if bs.isEmpty then s
    else
      let m := 128 - iova % 128
      let t := match s.ioLook n iova true with
        | some pa => s.engineWrite n pa (bs.take m)
        | none => s
      t.ioWriteGo n k (iova + m) (bs.drop m)

/-- Bytes written through path CE at .sys scope. -/
def State.ioWrite (s : State) (n iova : Nat) (bs : List Byte) : State := s.ioWriteGo n (bs.length / 128 + 2) iova bs

/-- A dword of a partition's IOVA space. -/
def State.ioDword (s : State) (n iova : Nat) : Option Nat := (s.ioRead n iova 8).map ofBytes

/-- `k` dwords from an address. -/
def State.ioDwords (s : State) (n iova k : Nat) : Option (List Dword) :=
  (s.ioRead n iova (8 * k)).map fun b => (List.range k).map fun i => BitVec.ofNat 64 (ofBytes ((b.drop (8 * i)).take 8))

/-- A dword written. -/
def State.ioPut (s : State) (n iova v : Nat) : State := s.ioWrite n iova (toBytes 8 v)

/-! ### Descriptors (R237 to R244) -/

/-- A tensor entry of 64 bytes as eight dwords. -/
def dwordAt (d : BitVec 512) (k : Nat) : Nat := elAt 64 d k

/-- Fields of a tensor descriptor (R238). -/
def dNdim (d : BitVec 512) : Nat := bits (dwordAt d 0) 63 62 + 1
def dTag (d : BitVec 512) : Nat := bits (dwordAt d 0) 61 52
def dScaleb (d : BitVec 512) : Nat := bits (dwordAt d 0) 51 44
def dVer (d : BitVec 512) : Bool := bit (dwordAt d 0) 43
def dRes (d : BitVec 512) : Bool := bit (dwordAt d 0) 42
def dRo (d : BitVec 512) : Bool := bit (dwordAt d 0) 41
def dXp (d : BitVec 512) : Bool := bit (dwordAt d 0) 40
def dEsz (d : BitVec 512) : Nat := 2 ^ bits (dwordAt d 0) 39 38
def dValid (d : BitVec 512) : Bool := bit (dwordAt d 0) 37
def dPat (d : BitVec 512) : Nat := bits (dwordAt d 0) 31 16
def dXcnt (d : BitVec 512) : Nat := bits (dwordAt d 0) 15 0
def dSize (d : BitVec 512) : Nat → Nat
  | 0 => bits (dwordAt d 1) 63 32
  | 1 => bits (dwordAt d 1) 31 0
  | 2 => bits (dwordAt d 2) 63 48
  | _ => bits (dwordAt d 2) 47 32
def dStride (d : BitVec 512) : Nat → Nat
  | 0 => 1
  | 1 => bits (dwordAt d 2) 31 0
  | 2 => bits (dwordAt d 3) 63 32
  | _ => bits (dwordAt d 3) 31 0

/-- Format, sparsity class and layout of a tag (R356). -/
def tagFmt (t : Nat) : Nat := bits t 9 6
def tagCls (t : Nat) : Nat := bits t 5 3
def tagLay (t : Nat) : Nat := bits t 2 0

/-- Whether a tag holds no reserved code (R356). -/
def tagOk (t : Nat) : Bool := decide (tagFmt t ≤ 9) && decide (tagCls t ≤ 3) && decide (tagLay t ≤ 3)

/-- Bytes of an element of a tag's format; 0 for untyped (R356). -/
def fmtBytes : Nat → Nat
  | 1 | 8 => 4
  | 2 | 3 | 7 => 2
  | 4 | 5 | 6 | 9 => 1
  | _ => 0

/-- The format of a tag's format code. -/
def fmtOf : Nat → Option Fmt
  | 1 => some .fp32
  | 2 => some .bf16
  | 3 => some .fp16
  | 4 => some .e4m3
  | 5 => some .e5m2
  | 6 => some .int8
  | 7 => some .int16
  | 8 => some .int32
  | 9 => some .ps8
  | _ => none

/-- A size of a used dimension, 1 for the others (R357, R370). -/
def dUsed (d : BitVec 512) (k : Nat) : Nat := if k < dNdim d then dSize d k else 1

/-- R238, but for VALID. -/
def descOk (d : BitVec 512) : Bool :=
  bits (dwordAt d 0) 36 32 == 0 &&
  ((List.range 4).all fun k => if k < dNdim d then decide (1 ≤ dSize d k)
    else dSize d k == 0 && (k == 0 || dStride d k == 0)) &&
  (tagFmt (dTag d) == 0 || fmtBytes (tagFmt (dTag d)) == dEsz d) &&
  ((dPat d != 0) == (tagCls (dTag d) == 1)) &&
  tagOk (dTag d) &&
  decide (1 ≤ dXcnt d) && (dXp d || decide (dXcnt d ≤ 4))

/-- Extent `i` of an inline block: its word (R239). -/
def extWord (d : BitVec 512) (i : Nat) : Nat := dwordAt d (4 + i)

/-- R239 for the extent block itself. -/
def extsOk (d : BitVec 512) : Bool :=
  if dXp d then extWord d 0 % 16 == 0 && extWord d 1 == 0 && extWord d 2 == 0 && extWord d 3 == 0
  else (List.range 4).all fun i =>
    if i < dXcnt d then decide (1 ≤ bits (extWord d i) 18 0) else extWord d i == 0

/-- The extents of an inline block (R239). -/
def inlineExts (d : BitVec 512) : Nat → Nat → Nat → List Ext
  | 0, _, _ => []
  | k + 1, i, off =>
    let w := extWord d i
    let len := 4096 * bits w 18 0
    ⟨off, 4096 * bits w 63 19, len⟩ :: inlineExts d k (i + 1) (off + len)

/-- The extent that an entry of a pointer-form list stands for (R239). -/
def listExt (w0 w1 : Nat) : Ext := ⟨4096 * bits w0 35 0, 4096 * bits w1 56 12, 4096 * bits w0 63 40⟩

/-- Whether an extent holds an offset. -/
def Ext.has (x : Ext) (o : Nat) : Bool := decide (x.off ≤ o) && decide (o < x.off + x.len)

/-- The page through whose slice a requester reaches memory; engines and the graph sequencer reach it without one (R258). -/
def Req.page : Req → Option Nat
  | .port e _ => some (pageOf e)
  | .gs p | .tf p | .feed p => some p
  | .eng _ _ | .seq _ => none

/-- Bytes of a table of the flat object, all within one line, read on a requester's path with its translations (R244, R258). The read is
afresh (R245, R381): a clean copy in the slice gives way to memory (log 107, DEDUCED). -/
def State.tableRead (s : State) (n : Nat) (q : Req) (iova len : Nat) : XRes Nat :=
  (s.translate n q iova false).bind fun pa t =>
    match q.page with
    | none => .ok (ofBytes (t.memRead n pa len)) t
    | some p =>
      match (t.modPage p fun g => g.staleLine (pa / 128)).sliceRead n p pa len false false (t.holder p) with
      | some (b, u) => .ok (ofBytes b) u
      | none => .wait .no t

/-- A requester's and a slice's copy of a tensor entry, put in front (R244). -/
def State.cacheDesc (s : State) (n : Nat) (q : Req) (c : DescC) : State :=
  let k := s.sliceFor n q ((s.part n).ttbase.toNat + 64 * c.tid)
  let t := s.modCache q fun r => { r with desc := lru Config.requesterDescs c (r.desc.filter (·.tid != c.tid)) }
  t.modPart n fun p =>
    let pad := p.sliceDesc ++ List.replicate (k + 1 - p.sliceDesc.length) []
    { p with sliceDesc := modAt pad k fun l => lru Config.sliceDescs c (l.filter (·.tid != c.tid)) }

/-- The tensor entry of a tid, from the caches or from the table (R237, R244). -/
def State.entry (s : State) (n : Nat) (q : Req) (tid : Nat) : XRes DescC :=
  match (s.cacheOf q).desc.find? (·.tid == tid) with
  | some c => .ok c (s.cacheDesc n q c)
  | none =>
    let a := (s.part n).ttbase.toNat + 64 * tid
    match ((s.part n).sliceDesc.getD (s.sliceFor n q a) []).find? (·.tid == tid) with
    | some c => .ok c (s.cacheDesc n q c)
    | none => (s.tableRead n q a 64).bind fun v t =>
        let c : DescC := ⟨tid, BitVec.ofNat 512 v, []⟩
        .ok c (t.cacheDesc n q c)

/-- An object as an access sees it: its tid, and its entry unless it is the flat object (R242). -/
structure Obj where
  tid : Nat
  c : Option DescC
deriving DecidableEq, Repr

/-- Fields of an object; the flat object is untyped, of byte elements, neither read-only nor versioned (R242). -/
def Obj.d (o : Obj) : BitVec 512 := (o.c.map (·.d)).getD 0
def Obj.ro (o : Obj) : Bool := dRo o.d
def Obj.ver (o : Obj) : Bool := dVer o.d
def Obj.res (o : Obj) : Bool := dRes o.d
def Obj.esz (o : Obj) : Nat := dEsz o.d
def Obj.tag (o : Obj) : Nat := dTag o.d

/-- The object that a tid names; cause 1 (R241). -/
def State.object (s : State) (n : Nat) (q : Req) (tid : Nat) : XRes Obj :=
  if tid = 0 then .ok ⟨0, none⟩ s
  else if (s.part n).ttlim.toNat < tid then .stop (.bounds 1) s
  else (s.entry n q tid).bind fun c t =>
    if dValid c.d && descOk c.d then .ok ⟨tid, some c⟩ t else .stop (.bounds 1) t

/-- The halving search of a pointer-form list (R244): the last entry of `[lo, hi)` that begins at or below the offset, with
`best` the one found so far. -/
def State.halve (s : State) (n : Nat) (q : Req) (xptr off : Nat) : Nat → Nat → Nat → Option Ext → XRes (Option Ext)
  | 0, _, _, best => .ok best s
  | k + 1, lo, hi, best =>
    if hi ≤ lo then .ok best s
    else
      let mid := (lo + hi) / 2
      match s.tableRead n q (xptr + 16 * mid) 16 with
      | .wait w t => .wait w t
      | .stop c t => .stop c t
      | .ok v t =>
        let x := listExt (v % 2 ^ 64) (v / 2 ^ 64)
        if x.off ≤ off then t.halve n q xptr off k (mid + 1) hi (some x)
        else t.halve n q xptr off k lo mid best

/-- The extent of an object that holds an offset (R239). -/
def State.extentAt (s : State) (n : Nat) (q : Req) (c : DescC) (off : Nat) : XRes (Option Ext) :=
  if dXp c.d then
    match c.exts.find? (Ext.has · off) with
    | some x => .ok (some x) s
    | none =>
      (s.halve n q (extWord c.d 0) off 17 0 (dXcnt c.d) none).bind fun b t =>
        match b with
        | some x => if x.has off then .ok (some x) (t.cacheDesc n q { c with exts := [x] }) else .ok none t
        | none => .ok none t
  else .ok ((inlineExts c.d (dXcnt c.d) 0 0).find? (Ext.has · off)) s

/-- The pieces of IOVA space, one for each extent crossed, in which bytes `[off, off + len)` of an object lie (R239, R241);
cause 2. -/
def State.spans (s : State) (n : Nat) (q : Req) (o : Obj) : Nat → Nat → Nat → XRes (List (Nat × Nat))
  | 0, _, _ => .stop (.bounds 2) s
  | k + 1, off, len =>
    if len = 0 then .ok [] s
    else match o.c with
    | none => if off + len ≤ 2 ^ 48 then .ok [(off, len)] s else .stop (.bounds 2) s
    | some c =>
      if 2 ^ 48 < off + len then .stop (.bounds 2) s
      else match s.extentAt n q c off with
      | .wait w t => .wait w t
      | .stop e t => .stop e t
      | .ok none t => .stop (.bounds 2) t
      | .ok (some x) t =>
        let m := min len (x.off + x.len - off)
        (t.spans n q o k (off + m) (len - m)).bind fun r u => .ok ((x.iova + (off - x.off), m) :: r) u

/-- How many extents an access can cross: each holds a page or more. -/
def spanFuel (len : Nat) : Nat := len / 4096 + 3

/-- The checks of R241 for bytes `[off, off + len)` of an object, and where they lie. -/
def State.checked (s : State) (n : Nat) (q : Req) (o : Obj) (off len : Nat) (write : Bool) : XRes (List (Nat × Nat)) :=
  (s.spans n q o (spanFuel len) off len).bind fun ps t =>
    if write && o.ro then .stop (.bounds 3) t
    else if decide (len ≤ 8) && decide (1 < ps.length) then .stop (.bounds 4) t
    else .ok ps t

/-- The checks of R241 for several runs of bytes of one access: cause 2 for every run before cause 3. -/
def State.checkedRuns (s : State) (n : Nat) (q : Req) (o : Obj) (runs : List (Nat × Nat)) (write : Bool) :
    XRes (List (Nat × Nat)) :=
  (xmap (fun (r : Nat × Nat) t => t.spans n q o (spanFuel r.2) r.1 r.2) runs s).bind fun ps t =>
    if write && o.ro then .stop (.bounds 3) t else .ok ps.flatten t

/-- Bytes cut into pieces that each lie within one line (R259). -/
def splitLines : Nat → Nat → Nat → List (Nat × Nat)
  | 0, _, _ => []
  | k + 1, a, len =>
    if len = 0 then []
    else
      let m := min len (128 - a % 128)
      (a, m) :: splitLines k (a + m) (len - m)

/-- Pieces cut at line boundaries. -/
def lineCut (ps : List (Nat × Nat)) : List (Nat × Nat) := ps.flatMap fun (a, l) => splitLines (l / 128 + 2) a l

/-- Pieces translated, each within a line: physical addresses and lengths. -/
def State.placed (s : State) (n : Nat) (q : Req) (ps : List (Nat × Nat)) (write : Bool) : XRes (List (Nat × Nat)) :=
  xmap (fun (a : Nat × Nat) t => (t.translate n q a.1 write).bind fun pa u => .ok (pa, a.2) u) (lineCut ps) s

/-- Pieces read through a slice. -/
def State.readPieces (s : State) (n page : Nat) (o : Obj) (pas : List (Nat × Nat)) : XRes (List Byte) :=
  (xmap (fun (a : Nat × Nat) t =>
    match t.sliceRead n page a.1 a.2 o.res o.ro (t.holder page) with
    | some (b, u) => XRes.ok b u
    | none => .wait .no t) pas s).bind fun bs t => .ok bs.flatten t

/-- Bytes written over pieces through a slice, once every line is present. -/
def State.putPieces (s : State) (n page : Nat) (o : Obj) : List (Nat × Nat) → List Byte → XRes Unit
  | [], _ => .ok () s
  | (pa, len) :: r, bs =>
    match s.sliceWrite n page pa (bs.take len) o.tid o.res o.ro (s.holder page) with
    | some t => t.putPieces n page o r (bs.drop len)
    | none => .wait .no s

/-- Bytes written over pieces, into the slice or through to memory (R293). -/
def State.writePieces (s : State) (n page : Nat) (o : Obj) (pas : List (Nat × Nat)) (bs : List Byte) (through : Bool) :
    XRes Unit :=
  if through then
    .ok () ((pas.foldl (fun (x : State × List Byte) a =>
      (x.1.writeThrough n page a.1 (x.2.take a.2), x.2.drop a.2)) (s, bs)).1)
  else s.putPieces n page o pas bs

/-! ### Tiles and tag entries (R357, R358) -/

/-- Tiles along dimensions 0 and 1 (R357). -/
def nt0 (d : BitVec 512) : Nat := ceilDiv (dSize d 0) 16
def nt1 (d : BitVec 512) : Nat := if dNdim d < 2 then 1 else ceilDiv (dSize d 1) 16

/-- The object offset of the tag array (R357). -/
def toff (d : BitVec 512) : Nat :=
  let span := dEsz d * (1 + (dSize d 0 - 1) + ((List.range 3).map fun k =>
    if k + 1 < dNdim d then (dSize d (k + 1) - 1) * dStride d (k + 1) else 0).sum)
  4096 * ceilDiv span 4096

/-- A tile: its coordinates and index (R357). -/
structure TileAt where
  t0 : Nat
  t1 : Nat
  i2 : Nat
  i3 : Nat
  n : Nat
deriving DecidableEq, Repr

/-- The least (T0, T1) with 16·T0 + 16·T1·STRIDE1 = x (R358). -/
def tile01 (d : BitVec 512) (x : Nat) : Option (Nat × Nat) :=
  if x % 16 ≠ 0 then none
  else
    let y := x / 16
    let n := nt0 d
    if y < n then some (y, 0)
    else
      let st := dStride d 1
      if st = 0 then none
      else
        let t1 := ceilDiv (y - n + 1) st
        if t1 * st ≤ y ∧ t1 < nt1 d then some (y - t1 * st, t1) else none

/-- The tile that holds the element with i0 + i1·STRIDE1 = y, with the least i1 (R240, R357). -/
def elem01 (d : BitVec 512) (y : Nat) : Option (Nat × Nat) :=
  let n := dSize d 0
  if y < n then some (y / 16, 0)
  else
    let st := dStride d 1
    if st = 0 then none
    else
      let i1 := ceilDiv (y - n + 1) st
      if i1 * st ≤ y ∧ i1 < dUsed d 1 then some ((y - i1 * st) / 16, i1 / 16) else none

/-- The tile of least index among those that `f` finds `x` elements from an object's start, from i2 on. -/
def tileScan2 (f : Nat → Option (Nat × Nat)) (d : BitVec 512) (x i3 : Nat) : Nat → Nat → Option TileAt
  | 0, _ => none
  | k + 1, i2 =>
    if x < i2 * dStride d 2 then none
    else match f (x - i2 * dStride d 2) with
    | some (t0, t1) => some ⟨t0, t1, i2, i3, t0 + nt0 d * (t1 + nt1 d * (i2 + dUsed d 2 * i3))⟩
    | none => tileScan2 f d x i3 k (i2 + 1)

/-- The same over i3. -/
def tileScan3 (f : Nat → Option (Nat × Nat)) (d : BitVec 512) (x : Nat) : Nat → Nat → Option TileAt
  | 0, _ => none
  | k + 1, i3 =>
    if x < i3 * dStride d 3 then none
    else match tileScan2 f d (x - i3 * dStride d 3) i3 (dUsed d 2) 0 with
    | some t => some t
    | none => tileScan3 f d x k (i3 + 1)

/-- The tile whose origin an offset is (R358). -/
def tileOf (d : BitVec 512) (off : Nat) : Option TileAt :=
  if off % dEsz d ≠ 0 then none else tileScan3 (tile01 d) d (off / dEsz d) (dUsed d 3) 0

/-- The tile in which a byte of an object lies; none in the tag array and outside every element (R275). -/
def tileHolding (d : BitVec 512) (off : Nat) : Option TileAt :=
  if toff d ≤ off then none else tileScan3 (elem01 d) d (off / dEsz d) (dUsed d 3) 0

/-- The origin of a tile (R358). -/
def tileOrigin (d : BitVec 512) (t0 t1 : Nat) : Nat := dEsz d * (16 * t0 + 16 * t1 * dStride d 1)

/-- A tag entry's line before its home slice acts on it: what the requester's own slice has of it that memory has not is written back, so
that the requester's own ST to the entry is seen (R295, R359; log 93). -/
def State.settleEntry (s : State) (n : Nat) (q : Req) (home line : Nat) : State :=
  match q.page with
  | none => s
  | some p =>
    if p = home then s
    else match (s.page p).lines.find? fun l => l.line == line && l.st == .dirty with
      | none => s
      | some l => (s.writeBack n p l).modPage home fun g => g.modLine line fun m => if m.st = .clean then { m with st := .stale } else m

/-- The tag entry of a tile as its home slice reads it, and where it lies; cause 11 (R358, R359). Objects with no tag array read as 0. -/
def State.tagEntry (s : State) (n : Nat) (q : Req) (o : Obj) (t : TileAt) (write : Bool) : XRes (Nat × List (Nat × Nat)) :=
  if o.tag = 0 then .ok (0, []) s
  else match s.spans n q o 3 (toff o.d + 2 * t.n) 2 with
    | .wait w u => .wait w u
    | .stop (.bounds _) u => .stop (.bounds 11) u
    | .stop c u => .stop c u
    | .ok ps u => (u.placed n q ps write).bind fun pas v =>
        (xmap (fun (a : Nat × Nat) w =>
          let h := w.home n (a.1 / 128)
          match (w.settleEntry n q h (a.1 / 128)).sliceRead n h a.1 a.2 o.res o.ro (q.page.bind w.holder) with
          | some (b, z) => XRes.ok b z
          | none => .wait .no w) pas v).bind fun bs w => .ok (ofBytes bs.flatten, pas) w

/-- The effective tag of an entry (R357). -/
def effTag (o : Obj) (e : Nat) : Nat := if o.tag = 0 then 0 else if bit e 15 then e % 1024 else o.tag

end Sys2Proof.Machine
end

