-- ==== Sys2Proof/Machine/Issue.lean ====
section
/-! DEFINITION. How memory instructions and the other instructions of variable latency issue: what access each makes, the
order in which they may issue (R113, R250, R267, R273, R284 to R286), when an access may be performed, and how its result
comes back (R271, R273). -/

namespace Sys2Proof.Machine

/-! ### The access of an instruction -/

/-- Bytes of a width (R48). -/
def widthBytes : Width → Nat
  | .b1 => 1
  | .b2 => 2
  | .b4 => 4
  | .b8 => 8

/-- Whether an order acquires, and whether it releases (R273). -/
def ordAcq : Ord → Bool
  | .acq | .ar => true
  | _ => false
def ordRel : Ord → Bool
  | .rel | .ar => true
  | _ => false

/-- The access of an instruction that the operand tokens give; `dst` is where its result goes. -/
def accBase (c : Cursor) (a : Args) (dst : Dst) (port : Nat) (path : Path) (op : AccOp) (scope : Scope) (ord : Ord)
    (width : Nat) (sx vec : Bool) : Access where
  id := 0
  no := c.no
  epi := c.epi
  slot := c.slot
  dst := dst
  tag := a.tag
  port := port
  path := path
  op := op
  tok := scal a.l.data
  l := a.l.data
  r := a.r.data
  t := a.t.data
  scope := scope
  ord := ord
  width := width
  sx := sx
  vec := vec
  wait := .no

/-- The port number of an access that uses no memory port. -/
def noPort : Nat := 4

/-- The access that an instruction makes, if it makes one (R270, R291, R320, R364, R394). -/
def accOf (c : Cursor) (a : Args) : Instr → Option Access
  | .ld _ w k o x v n d => some (accBase c a d n.toNat .ep .ld k o (widthBytes w) x v)
  | .st _ w k o v n t => some (accBase c a (.tgt t) n.toNat .ep .st k o (widthBytes w) false v)
  | .ldv _ w k o x v n t => some (accBase c a (.tgt t) n.toNat .ep .ldv k o (widthBytes w) x v)
  | .stv _ w k o v n t => some (accBase c a (.tgt t) n.toNat .ep .stv k o (widthBytes w) false v)
  | .recl _ k o n t => some (accBase c a (.tgt t) n.toNat .ep .recl k o 1 false false)
  | .ldt _ k o n t => some (accBase c a (.tgt t) n.toNat .ep .ldt k o 1 false false)
  | .stt _ k o n t => some (accBase c a (.tgt t) n.toNat .ep .stt k o 1 false false)
  | .pref _ k o n t => some (accBase c a (.tgt t) n.toNat .ep .pref k o 1 false false)
  | .gath _ w k o x n d => some (accBase c a d n.toNat .gs .gath k o (widthBytes w) x false)
  | .scat _ w k o n t => some (accBase c a (.tgt t) n.toNat .gs .scat k o (widthBytes w) false false)
  | .aadd _ w k o n t => some (accBase c a (.tgt t) n.toNat .ep (.atom .add) k o (widthBytes w) false false)
  | .amin _ w k o x n t => some (accBase c a (.tgt t) n.toNat .ep (.atom .min) k o (widthBytes w) x false)
  | .amax _ w k o x n t => some (accBase c a (.tgt t) n.toNat .ep (.atom .max) k o (widthBytes w) x false)
  | .aand _ w k o n t => some (accBase c a (.tgt t) n.toNat .ep (.atom .and) k o (widthBytes w) false false)
  | .aor _ w k o n t => some (accBase c a (.tgt t) n.toNat .ep (.atom .or) k o (widthBytes w) false false)
  | .axor _ w k o n t => some (accBase c a (.tgt t) n.toNat .ep (.atom .xor) k o (widthBytes w) false false)
  | .axch _ w k o n t => some (accBase c a (.tgt t) n.toNat .ep (.atom .xch) k o (widthBytes w) false false)
  | .acas _ w k o n t => some (accBase c a (.tgt t) n.toNat .ep (.atom .cas) k o (widthBytes w) false false)
  | .afadd _ w k o n t => some (accBase c a (.tgt t) n.toNat .ep (.atom .fadd) k o (widthBytes w) false false)
  | .ascat _ w k o n t => some (accBase c a (.tgt t) n.toNat .gs .ascat k o (widthBytes w) false false)
  | .fence _ k o t => some (accBase c a (.tgt t) noPort .ep .fence k o 0 false false)
  | .fencex _ f t k d => some (accBase c a (.tgt d) noPort f (.fencex f t) k .rlx 0 false false)
  | .flush _ k o n t => some (accBase c a (.tgt t) n.toNat .ep .flush k o 1 false false)
  | .pin _ k o n t => some (accBase c a (.tgt t) n.toNat .ep .pin k o 1 false false)
  | .unpin _ k o n t => some (accBase c a (.tgt t) n.toNat .ep .unpin k o 1 false false)
  | .barr _ n k r f t =>
    if r || f then some (accBase c a (.tgt t) noPort .ep (.barrier false n.toNat (if f then elAt 32 a.l.data 0 % 4096 else 4096)) k
      (if r then .rel else .rlx) 0 f false)
    else none
  | .barx _ n k r f t =>
    if r || f then some (accBase c a (.tgt t) noPort .ep (.barrier true n.toNat (if f then elAt 32 a.l.data 0 % 4096 else 4096)) k
      (if r then .rel else .rlx) 0 f false)
    else none
  | .barm _ n f t =>
    if f then some (accBase c a (.tgt t) noPort .ep (.arm n.toNat (elAt 32 a.l.data 0 % 4096)) .elem .rlx 0 true false) else none
  | .chapp _ k i t => some (accBase c a (.tgt t) noPort .ep (.chapp (64 * k.toNat + i.toNat)) .dev .rlx 64 false false)
  | .tdisp _ t => some (accBase c a (.tgt t) noPort .ep .tdisp .dev .rel 64 false false)
  | .launch _ q t => some (accBase c a (.tgt t) noPort .ep (.launch q.toNat) .dev .rel 64 false false)
  | .accv _ t m x d => some (accBase c a (.tgt d) 0 .ep (.accv t.toNat m x) .elem .rlx 1 false false)
  | .tagr _ n t => some (accBase c a (.tgt t) n.toNat .ep .tagr .elem .rlx 1 false false)
  | .tags _ d n t => some (accBase c a (.tgt t) n.toNat .ep (.tags d) .elem .rlx 1 false false)
  | .tfch _ sc r b n t => some (accBase c a (.tgt t) n.toNat .tf (.tfch b.toNat r sc) .elem .rlx 1 false false)
  | .tdsc _ i t => some (accBase c a (.tgt t) 0 .ep (.tdsc i.toNat) .elem .rlx 0 false false)
  | .mlook _ t => some (accBase c a (.tgt t) 0 .ep .mlook .elem .rlx 0 false false)
  | .pgld _ n t => some (accBase c a (.tgt t) n.toNat .ep (.pgld n.toNat) .elem .rlx 0 false false)
  | .pgst _ d n t => some (accBase c a (.tgt t) n.toNat .ep (.pgst n.toNat d) .elem .rlx 0 false false)
  | .pgnx _ n d => some (accBase c a d n.toNat .ep (.pgnx n.toNat) .elem .rlx 0 false false)
  | .pgrs _ n t => some (accBase c a (.tgt t) n.toNat .ep (.pgrs n.toNat) .elem .rlx 0 false false)
  | _ => none

/-- Whether an operation is a memory instruction's (R270, R364): the others order nothing by R113 and R273. -/
def memOp : AccOp → Bool
  | .tdsc _ | .mlook | .pgld _ | .pgst _ _ | .pgnx _ | .pgrs _ | .chapp _ | .tdisp | .launch _ | .barrier _ _ _ | .arm _ _ => false
  | _ => true

/-- Whether an access keeps later memory instructions from issuing until it is performed (R273, R284, R285, R324). -/
def Access.acquires (a : Access) : Bool :=
  match a.op with
  | .fencex _ _ | .chapp _ => true
  | _ => ordAcq a.ord

/-- Whether an access waits for every memory instruction of its path earlier in program order (R273, R284, R285). -/
def Access.releases (a : Access) : Bool :=
  match a.op with
  | .fence => true
  | .fencex f t => f == t
  | _ => ordRel a.ord

/-- Whether an access is a FENCE, or a FENCEX that acts as one on path EP: no read of a generator issues before it completes (R285, R289). -/
def Access.fences (a : Access) : Bool := a.op == .fence || a.op == .fencex .ep .ep

/-- Whether an instruction is a memory instruction and its path: none for the scratchpad's own (R270, R291). -/
def memPath : Instr → Option (Option Path)
  | .spld _ _ _ _ _ _ | .spst _ _ _ _ _ _ => some none
  | i =>
    match accOf ⟨0, 0, false, 0⟩ ⟨nullTok none, nullTok none, nullTok none⟩ i with
    | some a => if memOp a.op then some (some a.path) else none
    | none => none

/-- Whether an instruction, not yet issued, keeps later memory instructions from issuing (R273, R322). -/
def acquiresI : Instr → Bool
  | .barw _ _ _ q _ _ => q
  | i =>
    match accOf ⟨0, 0, false, 0⟩ ⟨nullTok none, nullTok none, nullTok none⟩ i with
    | some a => a.acquires
    | none => false

/-! ### Which bytes an access touches -/

/-- The state with every translation that the host holds for a partition at hand: used to see where accesses lie, never
to perform one. -/
def State.peekView (s : State) (n : Nat) : State :=
  s.modPart n fun p => { p with slices := List.replicate 128 ((s.iommu.filter (·.n == n)).map (·.x)) }

/-- An object as the table describes it now to a page. -/
def State.peekObj (s : State) (n page tid : Nat) : Option Obj :=
  match (s.peekView n).object n (.feed page) tid with
  | .ok o _ => some o
  | _ => none

/-- The element size of the tile at an offset of an object: the width of its tag's format, or that of the object (R278). -/
def State.peekEsz (s : State) (n page tid off : Nat) : Nat :=
  match s.peekObj n page tid with
  | none => 1
  | some o =>
    match tileOf o.d off with
    | none => o.esz
    | some t =>
      match (s.peekView n).tagEntry n (.feed page) o t false with
      | .ok (en, _) _ => if fmtBytes (tagFmt (effTag o en)) = 0 then o.esz else fmtBytes (tagFmt (effTag o en))
      | _ => o.esz

/-- Where bytes of an object lie in IOVA space. -/
def State.peekSpans (s : State) (n page tid off len : Nat) : List (Nat × Nat) :=
  match s.peekObj n page tid with
  | none => []
  | some o =>
    match (s.peekView n).spans n (.feed page) o (spanFuel len) off len with
    | .ok ps _ => ps
    | _ => []

/-- Tensor id and offset of an address token (R236). -/
def tokTid (t : Dword) : Nat := t.toNat / 2 ^ 48
def tokOff (t : Dword) : Nat := t.toNat % 2 ^ 48

/-- The 16 rows of a tile by the geometry (R278): offset and bytes. -/
def tileRows (d : BitVec 512) (off e : Nat) : List (Nat × Nat) :=
  (List.range 16).map fun b => (off + e * b * dStride d 1, 16 * e)

/-- Byte of a scratchpad at which a tile image of LDT and STT begins (R278). -/
def Access.image (a : Access) : Nat := elAt 32 a.r 0

/-- The bytes of objects that an access on path EP of an element of a page touches: tid, offset and length (R113). -/
def State.accRanges (s : State) (n page : Nat) (a : Access) : List (Nat × Nat × Nat) :=
  let tid := tokTid a.tok
  let off := tokOff a.tok
  let d := ((s.peekObj n page tid).map Obj.d).getD 0
  let entry : List (Nat × Nat × Nat) :=
    match tileOf d off with
    | some t => if dTag d = 0 then [] else [(tid, toff d + 2 * t.n, 2)]
    | none => []
  match a.op with
  | .ld | .st | .ldv | .stv | .atom _ => [(tid, off, if a.vec then 64 else a.width)]
  | .recl | .pref | .flush | .pin | .unpin => [(tid, off / 128 * 128, 128)]
  | .ldt => (tileRows d off (s.peekEsz n page tid off)).map (fun (o, l) => (tid, o, l)) ++ entry
  | .stt => (tileRows d off (dEsz d)).map (fun (o, l) => (tid, o, l)) ++ entry
  | .accv _ _ _ => (tid, off, 256 * dEsz d) :: (tileRows d off (dEsz d)).map (fun (o, l) => (tid, o, l)) ++ entry
  | .tagr | .tags _ | .tfch _ _ _ => entry
  | .chapp _ | .tdisp | .launch _ => [(tid, off, 64)]
  | _ => []

/-- Whether an access moves a tile image to or from the scratchpad (R278). -/
def Access.movesImage (a : Access) : Bool := a.op == .ldt || a.op == .stt

/-- The scratchpad bytes that an access touches: first and length, 256 elements of the tile's size (R278). -/
def State.poolRange (s : State) (n page : Nat) (a : Access) : List (Nat × Nat) :=
  match a.op with
  | .ldt => [(a.image, 256 * s.peekEsz n page (tokTid a.tok) (tokOff a.tok))]
  | .stt => [(a.image, 256 * dEsz (((s.peekObj n page (tokTid a.tok)).map Obj.d).getD 0))]
  | _ => []

/-- Bytes that a scratchpad access moves (R270, R277). -/
def poolWidth : Instr → Nat
  | .spld _ w _ _ v _ | .spst _ w _ _ v _ => if v then 64 else widthBytes w
  | _ => 0

/-- Whether bytes of an access travel on path EP: those of a tile fetch's tag entry do too (R364). -/
def Access.onEp (a : Access) : Bool := a.path == .ep || a.path == .tf

/-- Whether two ranges meet. -/
def meets (a la b lb : Nat) : Bool := decide (a < b + lb) && decide (b < a + la)

/-- Whether two accesses of an element of a page touch one byte: by object and offset, or by IOVA. -/
def State.overlap (s : State) (n page : Nat) (a b : Access) : Bool :=
  let ra := s.accRanges n page a
  let rb := s.accRanges n page b
  let pa := s.poolRange n page a
  let pb := s.poolRange n page b
  (ra.any fun x => rb.any fun y => x.1 == y.1 && meets x.2.1 x.2.2 y.2.1 y.2.2) ||
  (pa.any fun x => pb.any fun y => meets x.1 x.2 y.1 y.2) ||
  (let ia := ra.flatMap fun x => s.peekSpans n page x.1 x.2.1 x.2.2
   let ib := rb.flatMap fun x => s.peekSpans n page x.1 x.2.1 x.2.2
   ia.any fun x => ib.any fun y => meets x.1 x.2 y.1 y.2)

/-! ### When a memory instruction may issue -/

/-- The operand tokens that a slot has. -/
def slotArgs (sl : Slot) : Args := ⟨tokAt sl.l, tokAt sl.r, tokAt sl.t⟩

/-- Whether the operands that fix the address of a slot's access have arrived (R113): L, and R where it places a tile image. -/
def addrKnown (i : Instr) (sl : Slot) : Bool :=
  match i with
  | .ldt _ _ _ _ _ | .stt _ _ _ _ _ => sl.l.isSome && sl.r.isSome
  | .fence _ _ _ _ | .fencex _ _ _ _ _ => true
  | _ => sl.l.isSome

/-- Whether a slot is known to be nullified: its predicate fails or an operand is a null (R20, R21). -/
def slotNull (i : Instr) (sl : Slot) : Bool :=
  let isN (o : Option Opnd) : Bool := (tokAt o).isNull
  isN sl.l || isN sl.r || isN sl.t ||
  ((infoOf i).pm != .none && sl.p.isSome && predGate (infoOf i).pm sl.p == .miss)

/-- Whether a slot comes before another in program order (R107). -/
def posBefore (no : Nat) (epi : Bool) (slot no' : Nat) (epi' : Bool) (slot' : Nat) : Bool :=
  firingBefore no epi no' epi' || (no == no' && epi == epi' && decide (slot < slot'))

/-- Whether an access is earlier in program order than a place. -/
def Access.before (a : Access) (no : Nat) (epi : Bool) (slot : Nat) : Bool :=
  posBefore a.no a.epi a.slot no epi slot

/-- R113: an earlier access on path EP that has not issued touches bytes that an access does, or has not received the operands that fix its bytes,
whether it will be nullified or not; where `own` is false the access's own address is a null, and it touches none. -/
def State.mustFollow (s : State) (x : Elem) (c : Cursor) (a : Access) (own : Bool) : Bool :=
  (x.earlier c).any fun (f, k, sl, i) =>
    match memPath i with
    | some (some .ep) | some (some .tf) =>
      !addrKnown i sl || (own && !slotNull i sl &&
        ((accOf ⟨c.e, f.no, f.epi, k⟩ (slotArgs sl) i).map (s.overlap x.l.n (pageOf c.e) a)).getD false)
    | some none =>
      a.movesImage && (!addrKnown i sl || (own && !slotNull i sl &&
        (s.poolRange x.l.n (pageOf c.e) a).any fun r => meets r.1 r.2 (elAt 32 (tokAt sl.l).data 0) (poolWidth i)))
    | _ => false

/-- R113 among the scratchpad's own accesses, and against tile images (R277): an earlier one that touches bytes of a range, or whose own bytes are
not yet known, has not issued. No range stands for a slot whose own offset is a null. -/
def State.poolFollows (s : State) (x : Elem) (c : Cursor) (q : Option (Nat × Nat)) : Bool :=
  (x.earlier c).any fun (f, k, sl, i) =>
    let hit (off len : Nat) : Bool := !slotNull i sl && (q.map fun r => meets off len r.1 r.2).getD false
    match i with
    | .spld _ _ _ _ _ _ | .spst _ _ _ _ _ _ => !addrKnown i sl || hit (elAt 32 (tokAt sl.l).data 0) (poolWidth i)
    | .ldt _ _ _ _ _ | .stt _ _ _ _ _ =>
      !addrKnown i sl || ((accOf ⟨c.e, f.no, f.epi, k⟩ (slotArgs sl) i).map fun b =>
        (s.poolRange x.l.n (pageOf c.e) b).any fun r => hit r.1 r.2).getD false
    | _ => false

/-- R109, R113: a slot of a memory instruction that is nullified is held back as its access would be. -/
def State.nullHeld (s : State) (x : Elem) (c : Cursor) (i : Instr) : Bool :=
  let sl := x.slotAt c
  let own := !(tokAt sl.l).isNull
  match memPath i with
  | some (some .ep) | some (some .tf) => ((accOf c (slotArgs sl) i).map fun a => s.mustFollow x c a own).getD false
  | some none => s.poolFollows x c (if own then some (elAt 32 (tokAt sl.l).data 0, poolWidth i) else none)
  | _ => false

/-- An instruction that, where its slot is nullified, issues in the order of R113 too (R109). -/
def inOrder (i : Instr) (f : State → Out) (s : State) : Out :=
  match gate s i with
  | .nullify x _ => if s.nullHeld x s.cur i then .next s else f s
  | _ => f s

/-- R273: an earlier acquire has not returned. -/
def Elem.acqPending (x : Elem) (c : Cursor) : Bool :=
  (x.acc.any fun a => a.acquires && a.before c.no c.epi c.slot) ||
  (x.earlier c).any fun (_, _, sl, i) => acquiresI i && !slotNull i sl

/-- Whether a wait withholds a port (R250). -/
def Wait.withholds : Wait → Bool
  | .pri _ => true
  | _ => false

/-- R250: the port is withheld by a page request, of an access or of its generator (R289). -/
def Elem.portHeld (x : Elem) (m : Nat) : Bool :=
  decide (m < noPort) && ((x.acc.any fun a => a.port == m && a.wait.withholds) ||
    ((x.cur.agens[m]?).map fun g => g.wait.withholds).getD false)

/-- Requests queued at the gather/scatter engine of a page (R267). -/
def State.gsQueue (s : State) (page : Nat) : Nat :=
  ((s.elems.filter fun q => pageOf q.1 == page).map fun q =>
    (q.2.acc.filter fun a => a.path == .gs && a.port != noPort).length).sum

/-- R254, R273: a page request withholds the gather/scatter engine of a page. -/
def State.gsHeld (s : State) (page : Nat) : Bool :=
  s.elems.any fun q => pageOf q.1 == page && q.2.acc.any fun a => a.path == .gs && a.wait.withholds

/-- PIN instructions that an element has in hand: pins held and requested (R286). -/
def Elem.pinsHeld (x : Elem) : Nat := x.pins.length + (x.acc.filter fun a => a.op == .pin).length

/-- The conditions of R109 that a memory instruction adds. -/
def State.memReady (s : State) (c : Cursor) (x : Elem) (a : Access) : Bool :=
  !x.portHeld a.port &&
  !(memOp a.op && x.acqPending c) &&
  !(a.onEp && (memOp a.op || a.width == 64) && s.mustFollow x c a true) &&
  !(a.path == .gs && memOp a.op && a.port != noPort && decide (64 ≤ s.gsQueue (pageOf c.e))) &&
  !(a.op == .pin && decide (64 ≤ x.pinsHeld))

/-! ### Traps of an access -/

/-- DETAIL of a translation trap (R353): PASID and IOVA bits [47:12]. -/
def State.xlatDetail (s : State) (n iova : Nat) : Dword :=
  BitVec.ofNat 64 ((s.part n).pasid.toNat * 2 ^ 36 + iova / 4096 % 2 ^ 36)

/-- The class, cause, DETAIL and ADDR of a stop of an access with an address token and a version number. DETAIL names the failing lane of
a gather or scatter (R283), but for a translation trap, whose DETAIL R353 gives (DESIGN CHOICE, log 90). -/
def State.stopRec (s : State) (n : Nat) (v : Nat) (tok : Dword) : Stop → Nat × Nat × Dword × Dword
  | .bounds c => (tcBounds, c, 0, tok)
  | .xlate code iova => (tcXlate, code, s.xlatDetail n iova, tok)
  | .width => (tcWidth, 0, 0, tok)
  | .version => (tcVersion, 0, BitVec.ofNat 64 v, tok)
  | .trap cls cause d addr => (cls, cause, BitVec.ofNat 64 d, BitVec.ofNat 64 addr)
  | .lane j c =>
    let (cls, cause, d, addr) := s.stopRec n v tok c
    (cls, cause, if cls = tcXlate then d else BitVec.ofNat 64 j, addr)

/-- The trap that a stop raises at the slot of an access (R241, R272, R333). -/
def State.stopAt (s : State) (e : Nat) (a : Access) (c : Stop) : State :=
  match s.elem? e with
  | none => s
  | some x =>
    let (cls, cause, d, addr) := s.stopRec x.l.n (elAt 16 a.r 0) a.tok c
    s.raise ⟨e, a.no, a.epi, a.slot⟩ cls cause addr d

/-! ### Issue and return -/

/-- The port of an element that makes an access. -/
def Access.req (a : Access) (e : Nat) : Req :=
  match a.path with
  | .gs => .gs (pageOf e)
  | .tf => .tf (pageOf e)
  | _ => .port e (if a.port < noPort then a.port else 0)

/-- The check that an access meets as it issues and again as it is performed. -/
abbrev AccCheck := Nat → Nat → Access → State → XRes Unit

/-- A slot issues its access: the register of a register form becomes pending (R271). -/
def Elem.pushAcc (x : Elem) (c : Cursor) (a : Access) : Elem :=
  let y := x.markIssued c
  let push (st : RegSt) : Elem := { y with acc := y.acc ++ [{ a with id := y.accNext, was := st }], accNext := y.accNext + 1 }
  match a.dst with
  | .reg v => (push (x.regAt v.toNat).st).setReg v.toNat { x.regAt v.toNat with st := .pending }
  | .tgt _ => push .empty

/-- An instruction of variable latency: it issues once it is ready; a check that fails at once raises its trap at the slot
(R241, R271, R273). A register form waits while its register is pending and stops on a register that is not granted
(log 14). -/
def memIssue (i : Instr) (chk : AccCheck) (s : State) : Out :=
  inOrder i (runS i (fun c x r st =>
    match accOf c r i with
    | none => .next st
    | some a =>
      let v := match a.dst with
        | .reg v => v.toNat
        | .tgt _ => 0
      if !st.memReady c x a then .next st
      else if (infoOf i).reg.isSome && decide (x.regs ≤ v) then .next (st.raise c tcIllegal 0x0C 0 0)
      else if (infoOf i).reg.isSome && (x.regAt v).st == .pending then .next st
      else match chk c.e x.l.n a st with
        | .stop e t => .next (t.stopAt c.e a e)
        | .ok _ t => .next (t.modElem c.e fun y => y.pushAcc c a)
        | .wait w t => .next (t.modElem c.e fun y => y.pushAcc c { a with wait := w }))) s

/-- The same for an instruction that is not ready until a further condition holds. -/
def memIssueIf (ok : State → Elem → Bool) (i : Instr) (chk : AccCheck) (s : State) : Out :=
  match gate s i with
  | .go x _ => if ok s x then memIssue i chk s else .next s
  | _ => memIssue i chk s

/-- Whether an operation writes memory on path EP as R298 means a write. -/
def AccOp.writes : AccOp → Bool
  | .st | .stv | .stt | .atom _ | .accv _ _ _ | .tags _ => true
  | _ => false

/-- R298: a FENCE that releases, earlier in program order, has not been performed. -/
def Elem.fencePending (x : Elem) (c : Cursor) : Bool :=
  (x.acc.any fun b => b.op == .fence && ordRel b.ord && b.before c.no c.epi c.slot) ||
  (x.earlier c).any fun (_, _, sl, i) =>
    match i with
    | .fence _ _ o _ => ordRel o && !slotNull i sl
    | _ => false

/-- Whether a write of an out-direction generator that issued before the `k`-th access is still to be performed (R289). -/
def Elem.stepsBefore (x : Elem) (k : Nat) : Bool :=
  ((x.ctxNow.map (·.agens)).getD []).any fun a => a.out && (match x.cur.agens[a.port]? with
    | some g => (g.since.map fun n => decide (n ≤ k)).getD false
    | none => false)

/-- Whether an access may be performed now: nothing withholds it, nor the gather/scatter engine that it goes through (R254), nor is the
slice of its page halted (R335); earlier accesses to the same bytes on path EP, earlier
requests to the gather/scatter engine and earlier tile fetches have been performed (R113, R267, R363); a release follows
every earlier memory instruction on its path (R273), a FENCE every generator's write too (R289); and a write follows every earlier FENCE
that releases (R298). -/
def State.accTurn (s : State) (e : Nat) (x : Elem) (a : Access) : Bool :=
  !a.wait.withholds &&
  !(a.path == .gs && a.port != noPort && s.gsHeld (pageOf e)) &&
  !(memOp a.op && (s.page (pageOf e)).halted) &&
  !(a.op.writes && a.path == .ep && x.fencePending ⟨e, a.no, a.epi, a.slot⟩) &&
  !(decide (a.port < noPort) && x.acc.any fun b => decide (b.id < a.id) && b.port == a.port && b.wait.withholds) &&
  (x.acc.all fun b => !decide (b.id < a.id) ||
    (!(a.onEp && b.onEp && s.overlap x.l.n (pageOf e) a b) &&
     !(a.path == b.path && (a.path == .gs || a.path == .tf) && memOp a.op && memOp b.op))) &&
  (match a.op with
   | .fencex f t => f == t || x.acc.all fun b => !decide (b.id < a.id) || b.path != f
   | .chapp _ => x.acc.all fun b => !decide (b.id < a.id) || b.path != .ep
   | _ => true) &&
  (!a.releases ||
    ((x.acc.all fun b => !(b.before a.no a.epi a.slot && memOp b.op && b.path == a.path)) &&
     ((x.earlier ⟨e, a.no, a.epi, a.slot⟩).all fun (_, _, sl, i) =>
       slotNull i sl || memPath i != some (some a.path)) &&
     (a.path != .ep || x.stepsBefore a.id == false)))

/-- The result of an access that has been performed (R271, R273): it leaves the list; its token goes to its target, or its
data on the way to its register. -/
def State.accReturn (s : State) (e : Nat) (a : Access) (t : Token) (fl : Nat) : State :=
  s.modElem e fun x =>
    let lanes := ((x.acc.find? (·.id == a.id)).map (·.flags)).getD 0
    let z := ({ x with acc := x.acc.filter (·.id != a.id) } : Elem).flags 0 (lanes ||| fl)
    match a.dst with
    | .tgt d => z.send ⟨e, a.no, a.epi, a.slot⟩ 0 d t z.icyc
    | .reg v => { z with fills := z.fills ++ [⟨v.toNat, t.data, 0⟩] }

/-- An access that waits: what for is recorded. -/
def State.accWait (s : State) (e : Nat) (a : Access) (w : Wait) : State :=
  s.modElem e fun x => { x with acc := x.acc.map fun b => if b.id = a.id then { b with wait := w } else b }

/-- The register of an access that brings nothing: no fill is outstanding, and it is again as the access found it (R105, R106). -/
def Elem.unpend (x : Elem) (a : Access) : Elem :=
  match a.dst with
  | .reg v => x.setReg v.toNat { x.regAt v.toNat with st := a.was }
  | .tgt _ => x

/-- An access that is stopped: it leaves the list and its trap is raised. -/
def State.accStop (s : State) (e : Nat) (a : Access) (c : Stop) : State :=
  (s.modElem e fun x => { x.unpend a with acc := x.acc.filter (·.id != a.id) }).stopAt e a c

/-- The end of an attempt to perform an access. -/
def State.accEnd (e : Nat) (a : Access) (r : XRes (Token × Nat)) : State :=
  match r with
  | .ok (t, fl) s => s.accReturn e a { t with tag := a.tag } fl
  | .wait w s => s.accWait e a w
  | .stop c s => s.accStop e a c

end Sys2Proof.Machine
end

