-- ==== Sys2Proof/Machine/Memory.lean ====
section
/-! DEFINITION. The memory instructions, opcodes 0x80 to 0x9A (R274 to R286): what each checks, and what performing its
access does. The checks run as the instruction issues and again as the access is performed (R251). -/

namespace Sys2Proof.Machine

/-! ### Checks -/

/-- An object with the places of an access's bytes. -/
structure Plan where
  obj : Obj
  pas : List (Nat × Nat)
deriving DecidableEq, Repr

/-- The format code of the tag of the tile in which a byte lies; 0 in no tile (R275). An entry outside every extent stands
for the descriptor's tag. -/
def State.fmtAt (s : State) (n : Nat) (q : Req) (o : Obj) (off : Nat) : XRes Nat :=
  if o.tag = 0 then .ok 0 s
  else match tileHolding o.d off with
  | none => .ok 0 s
  | some t =>
    match s.tagEntry n q o t false with
    | .ok (e, _) u => .ok (tagFmt (effTag o e)) u
    | .stop (.bounds _) u => .ok (tagFmt o.tag) u
    | .stop c u => .stop c u
    | .wait w u => .wait w u

/-- The width check of R275 for bytes `[off, off + len)`. -/
def State.widthOk (s : State) (n : Nat) (q : Req) (o : Obj) (off len w : Nat) : XRes Unit :=
  if o.tag = 0 then .ok () s
  else xeach (fun k t => (t.fmtAt n q o (off + k)).bind fun f u =>
    if f != 0 && fmtBytes f != w then .stop .width u else .ok () u)
    ((List.range len).filter fun k => k == 0 || (off + k) % o.esz == 0) s

/-- The checks of an access to `len` bytes at its token (R241, R272, R275): alignment, versioned or not (none where either
will do), type width for a write that is checked. -/
def planSpan (n : Nat) (q : Req) (a : Access) (len align : Nat) (write : Bool) (ver : Option Bool) (w : Option Nat)
    (s : State) : XRes Plan :=
  (s.object n q (tokTid a.tok)).bind fun o t =>
  (t.checked n q o (tokOff a.tok) len write).bind fun ps u =>
    if tokOff a.tok % align ≠ 0 then .stop (.bounds 7) u
    else if (match ver with
      | some v => o.ver != v
      | none => false) then .stop (.bounds 9) u
    else (match w with
      | some k => u.widthOk n q o (tokOff a.tok) len k
      | none => .ok () u).bind fun _ v =>
        (v.placed n q ps write).bind fun pas v => .ok ⟨o, pas⟩ v

/-- Bytes of an access: 64 for a vector (R270). -/
def Access.len (a : Access) : Nat := if a.vec then 64 else a.width

/-- The checks of LD and LDV; and of ST, STV and the atomics (R274, R275, R279, R280). -/
def planRead (ver : Bool) (n : Nat) (q : Req) (a : Access) (s : State) : XRes Plan :=
  planSpan n q a a.len a.len false (some ver) none s
def planWrite (ver : Bool) (n : Nat) (q : Req) (a : Access) (s : State) : XRes Plan :=
  planSpan n q a a.len a.len true (some ver) (some a.width) s

/-- The check that a plan makes. -/
def planChk (f : Nat → Req → Access → State → XRes Plan) : AccCheck := fun e n a s =>
  (f n (a.req e) a s).bind fun _ t => .ok () t

/-- No check. -/
def noChk : AccCheck := fun _ _ _ s => .ok () s

/-! ### Forming values -/

/-- A loaded value laid out in lanes (R274). -/
def loadForm (a : Access) (bs : List Byte) : Payload :=
  let v := ofBytes bs
  if a.vec then BitVec.ofNat 512 v
  else if a.width = 8 then scalar64 v
  else if a.sx then lane0 (wrap 32 (sgn (8 * a.width) v))
  else lane0 v

/-- The bytes that a store writes (R275). -/
def storeBytes (a : Access) (p : Payload) : List Byte := toBytes a.len p.toNat

/-- The acquire of an access, at its own slice (R263, R273). -/
def State.accAcquire (s : State) (page : Nat) (a : Access) : State :=
  if ordAcq a.ord then s.acquireAt page a.scope else s

/-- The release of an access, at its own slice (R263, R273). -/
def State.accRelease (s : State) (n page : Nat) (a : Access) : State :=
  if ordRel a.ord then s.releaseAt n page a.scope else s

/-! ### LD and ST -/

/-- LD (R274). -/
def doLd (e n : Nat) (a : Access) (s : State) : XRes (Token × Nat) :=
  (planRead false n (a.req e) a s).bind fun p t =>
  ((t.accAcquire (pageOf e) a).readPieces n (pageOf e) p.obj p.pas).bind fun bs u =>
    .ok (dataTok (loadForm a bs) none, 0) u

/-- ST (R275, R293). -/
def doSt (e n : Nat) (a : Access) (s : State) : XRes (Token × Nat) :=
  (planWrite false n (a.req e) a s).bind fun p t =>
  ((t.accRelease n (pageOf e) a).writePieces n (pageOf e) p.obj p.pas (storeBytes a a.r) (Scope.wide a.scope)).bind fun _ u =>
    .ok (doneTok none, 0) u

/-! ### Versions (R268, R269, R279) -/

/-- The version directory entry of a line. -/
def Page.ventry (p : Page) (line : Nat) : Option VEntry := p.vdir.find? (·.line == line)

/-- A page with the versions of a line set. -/
def Page.setVers (p : Page) (line : Nat) (vs : List (BitVec 16 × BitVec 1024)) : Page :=
  { p with vdir := p.vdir.map fun v => if v.line = line then { v with vers := vs } else v }

/-- A way of a set freed for a version: the least recently used unpinned line of the cache ways goes, if they are full. -/
def State.freeWay (s : State) (n page set : Nat) : Option State :=
  let pg := s.page page
  let group := pg.lines.filter fun l => setOf l.line == set && !l.resident
  if group.length + 1 ≤ pg.ways false set then some s
  else match group.reverse.find? (·.pins == 0) with
    | none => none
    | some v => some ((s.writeBack n page v).modPage page fun p => { p with lines := p.lines.filter (·.line != v.line) })

/-- The entry of a line made at its first versioned access in a launch: version 0 holds the line's memory contents; cause 6 (R268). A
halted slice serves none (R335). -/
def State.openVersions (s : State) (n page line : Nat) (r : LaunchRef) : XRes Unit :=
  if (s.page page).halted then .wait .no s
  else match (s.page page).ventry line with
  | some _ => .ok () s
  | none =>
    if Config.versionEntries ≤ (s.page page).vdir.length then .stop (.bounds 6) s
    else if Config.pinLimit ≤ (s.page page).setPins (setOf line) then .wait (.pin page) s
    else match s.freeWay n page (setOf line) with
      | none => .wait .no s
      | some t => .ok () (t.modPage page fun p => { p with vdir := p.vdir ++ [⟨r, line, [(0, t.memLine n line)], [], false⟩] })

/-- State of a version number (R269). -/
inductive VerSt where
  | live | future | gone
deriving DecidableEq, Repr

/-- A page with a version of a line made by an STV to an object: it has been performed once the entry is written back (R255). -/
def Page.addVer (p : Page) (line tid : Nat) (v : BitVec 16 × BitVec 1024) : Page :=
  { p with vdir := p.vdir.map fun w =>
      if w.line = line then { w with vers := w.vers ++ [v], tids := if w.tids.contains tid then w.tids else tid :: w.tids } else w }

/-- The state of version `v` among live versions, oldest first (R269). -/
def verState (vs : List (BitVec 16 × BitVec 1024)) (v : BitVec 16) : VerSt :=
  match vs.head?, vs.getLast? with
  | some (old, _), some (new, _) =>
    if (v - old).toNat ≤ (new - old).toNat then .live
    else if 1 ≤ (v - new).toNat ∧ (v - new).toNat < 2 ^ 15 then .future
    else .gone
  | _, _ => .gone

/-- The live versions of a line. -/
def State.versions (s : State) (page line : Nat) : List (BitVec 16 × BitVec 1024) :=
  (((s.page page).ventry line).map (·.vers)).getD []

/-- The version that a number names. -/
def versionOf (vs : List (BitVec 16 × BitVec 1024)) (v : BitVec 16) : Option (BitVec 1024) :=
  (vs.find? (·.1 == v)).map (·.2)

/-- The physical address of a planned access that lies in one line. -/
def Plan.pa (p : Plan) : Nat := (p.pas.head?.map (·.1)).getD 0

/-- The version number at R. -/
def Access.ver (a : Access) : BitVec 16 := BitVec.ofNat 16 (elAt 32 a.r 0)

/-- The launch of an element. -/
def launchOf (s : State) (e : Nat) : LaunchRef := ((s.elem? e).map (·.l)).getD ⟨0, 0, 0⟩

/-- LDV (R279). A live version that an older RECL has removed from the middle does not occur: RECL retires the oldest. -/
def doLdv (e n : Nat) (a : Access) (s : State) : XRes (Token × Nat) :=
  (planRead true n (a.req e) a s).bind fun p t =>
    let line := p.pa / 128
    let h := t.home n line
    (t.openVersions n h line (launchOf s e)).bind fun _ u =>
      let vs := u.versions h line
      match verState vs a.ver with
      | .future => .wait .no u
      | .gone => .stop .version u
      | .live =>
        match versionOf vs a.ver with
        | none => .stop .version u
        | some d => .ok (dataTok (loadForm a (lineBytes d (p.pa % 128) a.len)) none, 0) (u.accAcquire (pageOf e) a)

/-- STV (R279). -/
def doStv (e n : Nat) (a : Access) (s : State) : XRes (Token × Nat) :=
  (planWrite true n (a.req e) a s).bind fun p t =>
    let line := p.pa / 128
    let h := t.home n line
    (t.openVersions n h line (launchOf s e)).bind fun _ u =>
      let vs := u.versions h line
      if Config.liveVersions ≤ vs.length then .wait .no u
      else if Config.pinLimit ≤ (u.page h).setPins (setOf line) then .wait (.pin h) u
      else match u.freeWay n h (setOf line), vs.getLast? with
        | some v, some (new, d) =>
          let w := v.accRelease n (pageOf e) a
          .ok (dataTok (lane0 (new + 1).toNat) none, 0)
            (w.modPage h fun g => g.addVer line p.obj.tid (new + 1, lineSet d (p.pa % 128) (storeBytes a a.r)))
        | _, _ => .wait .no u

/-- The checks of RECL: its offset lies within a versioned object (R272, R279). -/
def planRecl (n : Nat) (q : Req) (a : Access) (s : State) : XRes Plan := planSpan n q a 1 1 false (some true) none s

/-- RECL: live versions older than v retire, except the newest (R279). -/
def doRecl (e n : Nat) (a : Access) (s : State) : XRes (Token × Nat) :=
  (planRecl n (a.req e) a s).bind fun p t =>
    let line := p.pa / 128
    let h := t.home n line
    (t.openVersions n h line (launchOf s e)).bind fun _ u =>
      let vs := u.versions h line
      let new := (vs.getLast?.map (·.1)).getD 0
      let keep := vs.filter fun w => w.1 == new ||
        !(decide (1 ≤ (a.ver - w.1).toNat) && decide ((a.ver - w.1).toNat < 32768))
      .ok (doneTok none, 0) (u.modPage h fun g => g.setVers line keep)

/-! ### LDT and STT (R278, R358, R359) -/

/-- A tile access: the object, the tile, its tag entry as memory holds it and where that lies, and the places of its bytes. -/
structure TilePlan where
  obj : Obj
  tile : TileAt
  entry : Nat
  entryPas : List (Nat × Nat)
  pas : List (Nat × Nat)
deriving DecidableEq, Repr

/-- The element size of a tile with a tag (R278). -/
def tagBytes (o : Obj) (tag : Nat) : Nat := if fmtBytes (tagFmt tag) = 0 then o.esz else fmtBytes (tagFmt tag)

/-- The tag entry of the tile at an access's token, before the checks: none where there is no such tile or its entry lies outside every
extent (causes 10 and 11, R358). -/
def entryAt (n : Nat) (q : Req) (a : Access) (o : Obj) (write : Bool) (s : State) : XRes (Option (TileAt × Nat × List (Nat × Nat))) :=
  match tileOf o.d (tokOff a.tok) with
  | none => .ok none s
  | some ti =>
    match s.tagEntry n q o ti write with
    | .ok (en, eps) t => .ok (some (ti, en, eps)) t
    | .stop (.bounds _) t => .ok none t
    | .stop c t => .stop c t
    | .wait w t => .wait w t

/-- The tile that an access names, after R241 for `runs` of its bytes, which the width of its tag's format decides (R278): causes 10 and
11 (R358). `pre` are the checks of R272 in between, `own` whether that tag is the one that the tile holds (LDT), and `needs` whether the
tag to be written needs a tag array. -/
def planTile (n : Nat) (q : Req) (a : Access) (write own : Bool) (runs : Obj → Nat → List (Nat × Nat)) (pre : Nat → Option Nat)
    (needs : Bool) (s : State) : XRes TilePlan :=
  (s.object n q (tokTid a.tok)).bind fun o t =>
  (entryAt n q a o write t).bind fun en t =>
  let e := match en with
    | some (_, k, _) => if own then tagBytes o (effTag o k) else o.esz
    | none => o.esz
  (t.checkedRuns n q o (runs o e) write).bind fun ps u =>
    match pre e with
    | some c => .stop (.bounds c) u
    | none =>
      match en, tileOf o.d (tokOff a.tok) with
      | _, none => .stop (.bounds 10) u
      | none, some _ => .stop (.bounds 11) u
      | some (ti, k, eps), some _ =>
        if needs && o.tag == 0 then .stop (.bounds 11) u
        else (u.placed n q ps write).bind fun pas w => .ok ⟨o, ti, k, eps, pas⟩ w

/-- R272 for a tile image whose elements have `b` bytes: causes 7 and 8. -/
def imageChk (x : Elem) (a : Access) (b : Nat) : Option Nat :=
  if a.image % 64 ≠ 0 then some 7 else if x.scrBytes < a.image + 256 * b then some 8 else none

/-- The rows of the tile at a token, of elements of `b` bytes (R278). -/
def rowsAt (a : Access) (o : Obj) (b : Nat) : List (Nat × Nat) := tileRows o.d (tokOff a.tok) b

/-- The tag at lane 0 of a payload. -/
def tagLane (p : Payload) : Nat := elAt 32 p 0 % 1024

/-- The checks of LDT. -/
def planLdt (x : Elem) (n : Nat) (q : Req) (a : Access) (s : State) : XRes TilePlan :=
  planTile n q a false true (rowsAt a) (imageChk x a) false s

/-- The checks of STT: a tag whose format has another width than ESZ, or that holds a reserved code, is refused (R278, R356). -/
def planStt (x : Elem) (n : Nat) (q : Req) (a : Access) (s : State) : XRes TilePlan :=
  let tag := tagLane a.t
  (planTile n q a true false (rowsAt a) (imageChk x a) (tag != 0) s).bind fun p t =>
    if !tagOk tag || (tagFmt tag != 0 && fmtBytes (tagFmt tag) != p.obj.esz) then .stop .width t else .ok p t

/-- The check that a tile plan makes. -/
def tileChk (f : Elem → Nat → Req → Access → State → XRes TilePlan) : AccCheck := fun e n a s =>
  match s.elem? e with
  | none => .ok () s
  | some x => (f x n (.port e a.port) a s).bind fun _ t => .ok () t

/-- Bytes of a tile written with its tag, or of a tag: through to memory, into the writer's own copy, and every other clean
copy in the partition marked stale (R359). -/
def State.unitWrite (s : State) (n page : Nat) : List (Nat × Nat) → List Byte → State
  | [], _ => s
  | (pa, len) :: r, bs =>
    let t := s.writeThrough n page pa (bs.take len)
    let u := ((t.part n).pageList.filter (· != page)).foldl (fun t k =>
      t.modPage k fun p => p.modLine (pa / 128) fun l => if l.st = .clean then { l with st := .stale } else l) t
    u.unitWrite n page r (bs.drop len)

/-- The lines of a tile brought into the writer's slice, where a way can take them: the tile is written through from that slice (R359, R406). -/
def State.keepLines (s : State) (n page : Nat) (o : Obj) (pas : List (Nat × Nat)) : State :=
  pas.foldl (fun t a => match t.fill n page (a.1 / 128) o.res o.ro (t.holder page) with
    | some (_, u) => u
    | none => t) s

/-- A tile written with its tag: its bytes go through the writer's slice, which holds them then (R359). -/
def State.tileWrite (s : State) (n page : Nat) (o : Obj) (pas : List (Nat × Nat)) (bs : List Byte) : State :=
  (s.unitWrite n page pas bs).keepLines n page o pas

/-- Whether the home slice of a tag entry is halted, so that nothing is ordered there (R335, R359). -/
def State.entryHeld (s : State) (n : Nat) (pas : List (Nat × Nat)) : Bool :=
  match pas.head? with
  | some (pa, _) => (s.page (s.home n (pa / 128))).halted
  | none => false

/-- A tag entry written by its home slice (R359). -/
def State.entryWrite (s : State) (n : Nat) (pas : List (Nat × Nat)) (bs : List Byte) : State :=
  s.unitWrite n (s.home n ((pas.head?.map (·.1)).getD 0 / 128)) pas bs

/-- The bytes of a tag entry with V = 1 (R357). -/
def entryBytes (tag : Nat) : List Byte := toBytes 2 (0x8000 + tag)

/-- LDT (R278). -/
def doLdt (e n : Nat) (a : Access) (s : State) : XRes (Token × Nat) :=
  match s.elem? e with
  | none => .wait .no s
  | some x =>
    (planLdt x n (.port e a.port) a s).bind fun p t =>
    ((t.accAcquire (pageOf e) a).readPieces n (pageOf e) p.obj p.pas).bind fun bs u =>
      .ok (dataTok (lane0 (effTag p.obj p.entry)) none, 0)
        (u.modElem e fun y => { y with cur := { y.cur with scratch := y.cur.scratch.write a.image bs } })

/-- STT (R278, R359). -/
def doStt (e n : Nat) (a : Access) (s : State) : XRes (Token × Nat) :=
  match s.elem? e with
  | none => .wait .no s
  | some x =>
    (planStt x n (.port e a.port) a s).bind fun p t =>
      if t.entryHeld n p.entryPas then .wait .no t
      else
      let u := t.accRelease n (pageOf e) a
      let v := u.tileWrite n (pageOf e) p.obj p.pas (x.cur.scratch.read a.image (256 * p.obj.esz))
      .ok (doneTok none, 0) (v.entryWrite n p.entryPas (entryBytes (tagLane a.t)))

/-! ### Lines: PREF, FLUSH, PIN, UNPIN (R276, R286) -/

/-- The checks of an instruction that names a line by a byte in it. -/
def planLine (n : Nat) (q : Req) (a : Access) (s : State) : XRes Plan := planSpan n q a 1 1 false none none s

/-- PREF: dropped where a check or a translation fails; it never traps (R276). -/
def doPref (e n : Nat) (a : Access) (s : State) : XRes (Token × Nat) :=
  if a.wait = .drop then .ok (doneTok none, 0) s
  else match planLine n (a.req e) a s with
  | .stop _ t => .ok (doneTok none, 0) t
  | .wait (.pri _) t => .ok (doneTok none, 0) t
  | .wait w t => .wait w t
  | .ok p t =>
    match t.fill n (pageOf e) (p.pa / 128) p.obj.res p.obj.ro (t.holder (pageOf e)) with
    | some (_, u) => .ok (doneTok none, 0) u
    | none => .wait .no t

/-- FLUSH: the line is written back, and invalidated unless it is pinned (R276). -/
def doFlush (e n : Nat) (a : Access) (s : State) : XRes (Token × Nat) :=
  (planLine n (a.req e) a s).bind fun p t =>
    let pg := pageOf e
    let line := p.pa / 128
    match (t.page pg).lines.find? (·.line == line) with
    | none => .ok (doneTok none, 0) t
    | some l =>
      let u := t.writeBack n pg l
      .ok (doneTok none, 0) (if l.pins = 0 then u.modPage pg fun g => { g with lines := g.lines.filter (·.line != line) } else u)

/-- PIN (R266, R286). -/
def doPin (e n : Nat) (a : Access) (s : State) : XRes (Token × Nat) :=
  (planLine n (a.req e) a s).bind fun p t =>
    match t.addPin n (pageOf e) (p.pa / 128) true p.obj.res p.obj.ro (t.holder (pageOf e)) with
    | .full => .stop (.bounds 5) t
    | .wait => .wait (.pin (pageOf e)) t
    | .blocked => .wait .no t
    | .done u => .ok (dataTok (lane0 1) none, 0) (u.modElem e fun y => { y with pins := y.pins ++ [(pageOf e, p.pa / 128)] })

/-- UNPIN (R286). -/
def doUnpin (e n : Nat) (a : Access) (s : State) : XRes (Token × Nat) :=
  (planLine n (a.req e) a s).bind fun p t =>
    let k := (pageOf e, p.pa / 128)
    if ((t.elem? e).map fun y => y.pins.contains k).getD false then
      .ok (dataTok (lane0 1) none, 0) ((t.dropPin (pageOf e) (p.pa / 128) true).modElem e fun y => { y with pins := y.pins.erase k })
    else .ok (dataTok (lane0 0) none, 0) t

/-! ### Atomics (R280, R281) -/

/-- The new value of an atomic of `w` bits and the flags it raises. -/
def atomNew (o : AtomOp) (sx : Bool) (w old r c : Nat) : Nat × Nat :=
  match o with
  | .add => ((old + r) % 2 ^ w, 0)
  | .min => (if rd (!sx) w old ≤ rd (!sx) w r then old else r, 0)
  | .max => (if rd (!sx) w r ≤ rd (!sx) w old then old else r, 0)
  | .and => (old &&& r, 0)
  | .or => (old ||| r, 0)
  | .xor => (old ^^^ r, 0)
  | .xch => (r, 0)
  | .cas => (if old = c then r else old, 0)
  | .fadd => faddE .fp32 old r

/-- A read-modify-write of `len` bytes at a physical address for a requester in a page, at the slice of a page: for .elem and .page in
that slice; for wider scopes the slice, which is the home slice, writes its dirty copy back, reads the line from memory, writes the result
through and keeps it, and waits where no way can take the line (R261, R281). `f` gives the new bytes. -/
def State.atomicAt (s : State) (n page at_ pa len : Nat) (o : Obj) (wide : Bool) (f : Nat → Nat) : XRes Nat :=
  let r := s.holder page
  if wide then
    let t := match (s.page at_).lines.find? (·.line == pa / 128) with
      | some l => s.writeBack n at_ l
      | none => s
    let t := t.modPage at_ fun p => p.modLine (pa / 128) fun l => { l with st := .stale }
    match t.sliceRead n at_ pa len o.res o.ro r with
    | none => .wait .no s
    | some (b, u) =>
      let new := toBytes len (f (ofBytes b))
      .ok (ofBytes b) (((u.memWrite n pa new).sliceMerge at_ pa new).sliceMerge page pa new)
  else match s.sliceRead n at_ pa len o.res o.ro r with
    | none => .wait .no s
    | some (b, t) =>
      match t.sliceWrite n at_ pa (toBytes len (f (ofBytes b))) o.tid o.res o.ro r with
      | none => .wait .no t
      | some u => .ok (ofBytes b) u

/-- The slice at which an atomic is performed: the own slice at .elem and .page, the home slice at wider scopes (R281). -/
def State.atomicPage (s : State) (n page pa : Nat) (wide : Bool) : Nat := if wide then s.home n (pa / 128) else page

/-- An atomic (R280); its acquire marks the slice before it reads (R273). -/
def doAtom (o : AtomOp) (e n : Nat) (a : Access) (s : State) : XRes (Token × Nat) :=
  (planWrite false n (a.req e) a s).bind fun p t =>
    let w := 8 * a.width
    let r := elAt w a.r 0
    let c := elAt w a.t 0
    (((t.accRelease n (pageOf e) a).accAcquire (pageOf e) a).atomicAt n (pageOf e)
      (t.atomicPage n (pageOf e) p.pa (Scope.wide a.scope)) p.pa a.width p.obj (Scope.wide a.scope)
      (fun old => (atomNew o a.sx w old r c).1)).bind fun old u =>
        let v := if a.width = 8 then scalar64 old else lane0 old
        .ok (dataTok v none, (atomNew o a.sx w old r c).2) u

/-! ### Gather and scatter (R267, R282, R283) -/

/-- A lane of a request: its number, where its element lies, and the format code of the tile it lies in. -/
structure LanePlan where
  j : Nat
  pas : List (Nat × Nat)
  fmt : Nat
deriving DecidableEq, Repr

/-- The object offset of lane `j`; none outside 0 to 2^48 − 1. -/
def Access.laneOff (a : Access) (j : Nat) : Option Nat :=
  let i : Int := tokOff a.tok + a.width * sgn 32 (elAt 32 a.r j)
  if 0 ≤ i ∧ i < 2 ^ 48 then some i.toNat else none

/-- The checks of one lane (R241, R272, R275, R283). -/
def planLane (n : Nat) (q : Req) (o : Obj) (a : Access) (write : Bool) (j : Nat) (s : State) : XRes LanePlan :=
  match a.laneOff j with
  | none => .stop (.bounds 2) s
  | some off =>
    (s.checked n q o off a.width write).bind fun ps t =>
      if off % a.width ≠ 0 then .stop (.bounds 7) t
      else if o.ver then .stop (.bounds 9) t
      else (if write then t.widthOk n q o off a.width a.width else .ok () t).bind fun _ u =>
        (u.fmtAt n q o off).bind fun f v =>
        (v.placed n q ps write).bind fun pas w => .ok ⟨j, pas, f⟩ w

/-- A part of an access of one lane: a stop names the lane (R283). -/
def inLane {α : Type} (j : Nat) (r : XRes α) : XRes α :=
  match r with
  | .stop c s => .stop (.lane j c) s
  | r => r

/-- The checks of a request, lane by lane: the lowest failing lane traps (R267, R283). A lane holding 0x8000_0000 is skipped. -/
def planLanes (write : Bool) (n : Nat) (q : Req) (a : Access) (s : State) : XRes (Obj × List LanePlan) :=
  (s.object n q (tokTid a.tok)).bind fun o t =>
    (xmap (fun j u => inLane j (planLane n q o a write j u)) ((List.range 16).filter fun j => elAt 32 a.r j != 0x80000000) t).bind fun ls u =>
      .ok (o, ls) u

/-- The check of a request. -/
def lanesChk (write : Bool) : AccCheck := fun e n a s =>
  (planLanes write n (a.req e) a s).bind fun _ t => .ok () t

/-- GATH (R283). -/
def doGath (e n : Nat) (a : Access) (s : State) : XRes (Token × Nat) :=
  (planLanes false n (a.req e) a s).bind fun (o, ls) t =>
  (xmap (fun (l : LanePlan) u => (u.readPieces n (pageOf e) o l.pas).bind fun bs v =>
      .ok (l.j, elAt 32 (loadForm { a with vec := false } bs) 0) v) ls (t.accAcquire (pageOf e) a)).bind fun vs u =>
    .ok (dataTok (ofEls 32 ((List.range 16).map fun j => (look j vs).getD 0)) none, 0) u

/-- A lane of an access has been performed, with the flags that the access raises for it as it completes: an attempt that waits at a later lane
takes the request up again behind it (R97, R267). -/
def Elem.laneDone (x : Elem) (id j fl : Nat) : Elem :=
  { x with acc := x.acc.map fun b => if b.id = id then { b with lanes := j + 1, flags := b.flags ||| fl } else b }

/-- SCAT: lanes in increasing order (R267, R283). -/
def doScat (e n : Nat) (a : Access) (s : State) : XRes (Token × Nat) :=
  (planLanes true n (a.req e) a s).bind fun (o, ls) t =>
  (xeach (fun (l : LanePlan) u =>
      (u.writePieces n (pageOf e) o l.pas (toBytes a.width (elAt 32 a.t l.j)) (Scope.wide a.scope)).bind fun _ v =>
        .ok () (v.modElem e fun x => x.laneDone a.id l.j 0))
    (ls.filter fun l => decide (a.lanes ≤ l.j)) (t.accRelease n (pageOf e) a)).bind fun _ u => .ok (doneTok none, 0) u

/-- Whether a lane of ASCAT adds as FP32: the tile's format says; where it says nothing the choice is open (R282; log 11). -/
def ascatFp (fmt : Nat) : Bool :=
  if fmt = 1 then true else if fmt = 8 then false else Config.ascatFloat

/-- ASCAT: lanes in increasing order, each lane's add atomic at the home slice of its line (R282). -/
def doAscat (e n : Nat) (a : Access) (s : State) : XRes (Token × Nat) :=
  (planLanes true n (a.req e) a s).bind fun (o, ls) t =>
  (xeach (fun (l : LanePlan) u =>
      let op := if ascatFp l.fmt then AtomOp.fadd else .add
      let r := elAt 32 a.t l.j
      let pa := (l.pas.head?.map (·.1)).getD 0
      (u.atomicAt n (pageOf e) (u.home n (pa / 128)) pa 4 o (Scope.wide a.scope)
        (fun old => (atomNew op false 32 old r 0).1)).bind fun old v =>
          .ok () (v.modElem e fun x => x.laneDone a.id l.j (atomNew op false 32 old r 0).2))
    (ls.filter fun l => decide (a.lanes ≤ l.j)) (t.accRelease n (pageOf e) a)).bind fun _ u => .ok (doneTok none, 0) u

/-! ### Fences (R284, R285) -/

/-- FENCE (R284). -/
def doFence (e n : Nat) (a : Access) (s : State) : XRes (Token × Nat) :=
  .ok (doneTok none, 0) ((s.accRelease n (pageOf e) a).accAcquire (pageOf e) a)

/-- The pages of a partition within a scope of a page (R285, R292). -/
def State.pagesIn (s : State) (n page : Nat) (c : Scope) : List Nat :=
  match c with
  | .elem | .page => [page]
  | .depot => (s.part n).pageList.filter fun p => depotOf p == depotOf page
  | .dev | .sys => (s.part n).pageList

/-- FENCEX at a scope: with two equal paths it acts as FENCE.ar at its own slice; else the slice is written back at .depot or wider where the
from-path goes through it, and every copy that a read of the to-path could take, pinned ones and those of read-only objects too, is marked
stale, a dirty one of another slice once it has been written back, which comes first (R263, R285; log 128). -/
def State.fenceX (s : State) (n page : Nat) (f t : Path) (c : Scope) : State :=
  if f = t then (s.releaseAt n page c).acquireAt page c
  else if Scope.wide c then
    let near := t = .ep ∨ t = .gs ∨ t = .tf
    let w := if (f = .ep ∨ f = .gs) ∧ near then ((s.pagesIn n page c).filter fun p => p != page && !(s.page p).halted).foldl (fun v p => v.writeBackAll n p) s else s
    let u := if f = .ep ∨ f = .gs then w.writeBackAll n page else w
    if near then (s.pagesIn n page c).foldl (fun v p => v.modPage p Page.markAllStale) u else u
  else s

/-- FENCEX (R285). -/
def doFencex (f t : Path) (e n : Nat) (a : Access) (s : State) : XRes (Token × Nat) :=
  .ok (doneTok none, 0) (s.fenceX n (pageOf e) f t a.scope)

/-! ### Scratchpad (R277) -/

/-- R113 for a scratchpad access: an earlier one is still to issue, or a tile image is still to be moved. -/
def State.poolBusy (s : State) (x : Elem) (c : Cursor) (off len : Nat) : Bool :=
  (x.acc.any fun a => (s.poolRange x.l.n (pageOf c.e) a).any fun r => meets r.1 r.2 off len) || s.poolFollows x c (some (off, len))

/-- R312: a SYNW or BARW earlier in program order has not returned; an SPLD behind it reads what the generation that it waits for counted. -/
def Elem.countPending (x : Elem) (c : Cursor) : Bool :=
  (x.earlier c).any fun (_, _, sl, i) =>
    match i with
    | .synw _ _ | .barw _ _ _ _ _ _ => !slotNull i sl
    | _ => false

/-- What a scratchpad access meets: causes 7 and 8 (R272, R277), or its effect. -/
def poolAct (s : State) (c : Cursor) (x : Elem) (off len : Nat) (go : Act) : Act :=
  if x.acqPending c || s.poolBusy x c off len then .wait
  else if off % len ≠ 0 then .trap tcBounds 7 0 0
  else if x.scrBytes < off + len then .trap tcBounds 8 0 0
  else go

/-- SPLD (R274, R277, R312; log 125). -/
def execSpld (p : Pm) (w : Width) (c : Scope) (o : Ord) (v : Bool) (a : Tgt) (s : State) : Out :=
  inOrder (.spld p w c o v a) (run (.spld p w c o v a) (fun cu x r =>
    let off := elAt 32 r.l.data 0
    let b := accBase cu r (.tgt a) noPort .ep .ld c o (widthBytes w) false v
    if x.countPending cu then .wait
    else poolAct s cu x off b.len
      (.issue x 2 (toAll (.spld p w c o v a) (dataTok (loadForm b (x.cur.scratch.read off b.len)) r.tag))))) s

/-- SPST (R275, R277): the completion token goes out at the end of its issue cycle. -/
def execSpst (p : Pm) (w : Width) (c : Scope) (o : Ord) (v : Bool) (a : Tgt) (s : State) : Out :=
  inOrder (.spst p w c o v a) (run (.spst p w c o v a) (fun cu x r =>
    let off := elAt 32 r.l.data 0
    let b := accBase cu r (.tgt a) noPort .ep .st c o (widthBytes w) false v
    poolAct s cu x off b.len
      (.issue { x with cur := { x.cur with scratch := x.cur.scratch.write off (storeBytes b r.r.data) } } 1
        (toAll (.spst p w c o v a) (doneTok r.tag))))) s

/-! ### The instructions -/

/-- LD (R274). -/
def execLd (p : Pm) (w : Width) (c : Scope) (o : Ord) (x v : Bool) (n : BitVec 2) (d : Dst) (s : State) : Out :=
  memIssue (.ld p w c o x v n d) (planChk (planRead false)) s

/-- ST (R275). -/
def execSt (p : Pm) (w : Width) (c : Scope) (o : Ord) (v : Bool) (n : BitVec 2) (a : Tgt) (s : State) : Out :=
  memIssue (.st p w c o v n a) (planChk (planWrite false)) s

/-- LDV (R279). -/
def execLdv (p : Pm) (w : Width) (c : Scope) (o : Ord) (x v : Bool) (n : BitVec 2) (a : Tgt) (s : State) : Out :=
  memIssue (.ldv p w c o x v n a) (planChk (planRead true)) s

/-- STV (R279). -/
def execStv (p : Pm) (w : Width) (c : Scope) (o : Ord) (v : Bool) (n : BitVec 2) (a : Tgt) (s : State) : Out :=
  memIssue (.stv p w c o v n a) (planChk (planWrite true)) s

/-- RECL (R279). -/
def execRecl (p : Pm) (c : Scope) (o : Ord) (n : BitVec 2) (a : Tgt) (s : State) : Out :=
  memIssue (.recl p c o n a) (planChk planRecl) s

/-- LDT (R278). -/
def execLdt (p : Pm) (c : Scope) (o : Ord) (n : BitVec 2) (a : Tgt) (s : State) : Out :=
  memIssue (.ldt p c o n a) (tileChk planLdt) s

/-- STT (R278). -/
def execStt (p : Pm) (c : Scope) (o : Ord) (n : BitVec 2) (a : Tgt) (s : State) : Out :=
  memIssue (.stt p c o n a) (tileChk planStt) s

/-- PREF (R276): its checks fail without a trap, as it is performed. -/
def execPref (p : Pm) (c : Scope) (o : Ord) (n : BitVec 2) (a : Tgt) (s : State) : Out :=
  memIssue (.pref p c o n a) noChk s

/-- GATH (R283). -/
def execGath (p : Pm) (w : Width) (c : Scope) (o : Ord) (x : Bool) (n : BitVec 2) (d : Dst) (s : State) : Out :=
  memIssue (.gath p w c o x n d) (lanesChk false) s

/-- SCAT (R283). -/
def execScat (p : Pm) (w : Width) (c : Scope) (o : Ord) (n : BitVec 2) (a : Tgt) (s : State) : Out :=
  memIssue (.scat p w c o n a) (lanesChk true) s

/-- AADD (R280). -/
def execAadd (p : Pm) (w : Width) (c : Scope) (o : Ord) (n : BitVec 2) (a : Tgt) (s : State) : Out :=
  memIssue (.aadd p w c o n a) (planChk (planWrite false)) s

/-- AMIN (R280). -/
def execAmin (p : Pm) (w : Width) (c : Scope) (o : Ord) (x : Bool) (n : BitVec 2) (a : Tgt) (s : State) : Out :=
  memIssue (.amin p w c o x n a) (planChk (planWrite false)) s

/-- AMAX (R280). -/
def execAmax (p : Pm) (w : Width) (c : Scope) (o : Ord) (x : Bool) (n : BitVec 2) (a : Tgt) (s : State) : Out :=
  memIssue (.amax p w c o x n a) (planChk (planWrite false)) s

/-- AAND (R280). -/
def execAand (p : Pm) (w : Width) (c : Scope) (o : Ord) (n : BitVec 2) (a : Tgt) (s : State) : Out :=
  memIssue (.aand p w c o n a) (planChk (planWrite false)) s

/-- AOR (R280). -/
def execAor (p : Pm) (w : Width) (c : Scope) (o : Ord) (n : BitVec 2) (a : Tgt) (s : State) : Out :=
  memIssue (.aor p w c o n a) (planChk (planWrite false)) s

/-- AXOR (R280). -/
def execAxor (p : Pm) (w : Width) (c : Scope) (o : Ord) (n : BitVec 2) (a : Tgt) (s : State) : Out :=
  memIssue (.axor p w c o n a) (planChk (planWrite false)) s

/-- AXCH (R280). -/
def execAxch (p : Pm) (w : Width) (c : Scope) (o : Ord) (n : BitVec 2) (a : Tgt) (s : State) : Out :=
  memIssue (.axch p w c o n a) (planChk (planWrite false)) s

/-- ACAS (R280). -/
def execAcas (p : Pm) (w : Width) (c : Scope) (o : Ord) (n : BitVec 2) (a : Tgt) (s : State) : Out :=
  memIssue (.acas p w c o n a) (planChk (planWrite false)) s

/-- AFADD (R280). -/
def execAfadd (p : Pm) (w : Width) (c : Scope) (o : Ord) (n : BitVec 2) (a : Tgt) (s : State) : Out :=
  memIssue (.afadd p w c o n a) (planChk (planWrite false)) s

/-- ASCAT (R282). -/
def execAscat (p : Pm) (w : Width) (c : Scope) (o : Ord) (n : BitVec 2) (a : Tgt) (s : State) : Out :=
  memIssue (.ascat p w c o n a) (lanesChk true) s

/-- FENCE (R284). -/
def execFence (p : Pm) (c : Scope) (o : Ord) (a : Tgt) (s : State) : Out := memIssue (.fence p c o a) noChk s

/-- FENCEX (R285). -/
def execFencex (p : Pm) (f t : Path) (c : Scope) (a : Tgt) (s : State) : Out := memIssue (.fencex p f t c a) noChk s

/-- FLUSH (R276). -/
def execFlush (p : Pm) (c : Scope) (o : Ord) (n : BitVec 2) (a : Tgt) (s : State) : Out :=
  memIssue (.flush p c o n a) (planChk planLine) s

/-- PIN (R286). -/
def execPin (p : Pm) (c : Scope) (o : Ord) (n : BitVec 2) (a : Tgt) (s : State) : Out :=
  memIssue (.pin p c o n a) (planChk planLine) s

/-- UNPIN (R286). -/
def execUnpin (p : Pm) (c : Scope) (o : Ord) (n : BitVec 2) (a : Tgt) (s : State) : Out :=
  memIssue (.unpin p c o n a) (planChk planLine) s

end Sys2Proof.Machine
end

