-- ==== Sys2Proof/Machine/Engine.lean ====
section
/-! DEFINITION. The copy engines and the link engine: registers, chains, entries and their effects, failures and control
(R313 to R319, R326); and the barriers and sync words that they report to (R306 to R312). -/

namespace Sys2Proof.Machine

/-! ### Barriers and sync words -/

/-- R307, check: a generation completes. -/
def Barrier.check (b : Barrier) : Barrier :=
  if b.exp ≠ 0 ∧ b.arr = b.exp ∧ b.pbyt = 0 then { b with gen := b.gen + 1, arr := 0 } else b

/-- R307, report. -/
def Barrier.report (b : Barrier) (x : Nat) : Barrier := { b with pbyt := b.pbyt - BitVec.ofNat 40 x }.check

/-- R307, arm; none is the misuse of cause 4 (R308). -/
def Barrier.arm (b : Barrier) (n : Nat) : Option Barrier :=
  if n = 0 ∨ 65535 < n ∨ n < b.arr.toNat then none
  else some { b with exp := BitVec.ofNat 16 n, flt := false }.check

/-- R307, arrive: the barrier after, or the cause of the misuse (R308). -/
def Barrier.arrive (b : Barrier) (x : Nat) : Except Nat Barrier :=
  if b.exp = 0 then .error 2
  else if b.arr = b.exp then .error 3
  else if 2 ^ 40 ≤ x then .error 5
  else .ok { b with arr := b.arr + 1, pbyt := b.pbyt + BitVec.ofNat 40 x }.check

/-- Whether a generation has passed `g` (R321). -/
def genPassed (gen g : BitVec 24) : Bool := decide (1 ≤ (gen - g).toNat) && decide ((gen - g).toNat < 2 ^ 23)

/-- A barrier of a set. -/
def ESet.bar (v : ESet) (k : Nat) : Barrier := v.bars.getD k {}

/-- The set with a barrier set. -/
def ESet.setBar (v : ESet) (k : Nat) (b : Barrier) : ESet := { v with bars := setAt v.bars k b }

/-- A barrier of an element. -/
def Elem.bar (x : Elem) (k : Nat) : Barrier := x.cur.bar k

/-- The element with a barrier set. -/
def Elem.setBar (x : Elem) (k : Nat) (b : Barrier) : Elem := { x with cur := x.cur.setBar k b }

/-- Fields of a sync word (R310). -/
def swTarget (w : Nat) : Nat := bits w 39 0
def swCount (w : Nat) : Nat := bits w 79 40
def swGen (w : Nat) : BitVec 24 := BitVec.ofNat 24 (bits w 103 80)
def swFlt (w : Nat) : Bool := bit w 105

/-- A report of `x` bytes to a sync word (R311). -/
def swReport (w x : Nat) : Nat :=
  let c := swCount w + x
  let t := swTarget w
  if t = 0 then putBits w 79 40 c
  else
    let v := if t < c then putBits w 104 104 1 else w
    putBits (putBits v 103 80 ((swGen w).toNat + c / t)) 79 40 (c % t)

/-- SYNI on a sync word (R323). -/
def swInit (w t : Nat) : Nat := putBits (putBits (putBits w 105 104 0) 79 40 0) 39 0 t

/-- A sync word of a set. -/
def ESet.sync (v : ESet) (off : Nat) : Nat := v.scratch.readN off 16

/-- The set with a sync word written. -/
def ESet.setSync (v : ESet) (off w : Nat) : ESet := { v with scratch := v.scratch.writeN off 16 w }

/-- A sync word of an element. -/
def Elem.sync (x : Elem) (off : Nat) : Nat := x.cur.sync off

/-- The element with a sync word written. -/
def Elem.setSync (x : Elem) (off w : Nat) : Elem := { x with cur := x.cur.setSync off w }

/-- Whether the working set of an element is its inactive one: its region is swapped out (R342). -/
def State.outOf (s : State) (x : Elem) : Bool := ((s.region? x.rref).map (·.out)).getD false

/-- The working set of an element, wherever it stands (R227, R342). -/
def State.workSet (s : State) (x : Elem) : ESet := if s.outOf x then x.alt else x.cur

/-- The state with the working set of an element changed. -/
def State.modWork (s : State) (e : Nat) (f : ESet → ESet) : State :=
  s.modElem e fun x => if s.outOf x then { x with alt := f x.alt } else { x with cur := f x.cur }

/-- An engine report applied at an element, and kept for a rollback (R307, R309, R311). -/
def Elem.applyReport (x : Elem) (r : Report) : Elem :=
  if r.sync then x.setSync r.at_ (swReport (x.sync r.at_) r.bytes)
  else x.setBar r.at_ ((x.bar r.at_).report r.bytes)

/-! ### Engines and their registers -/

/-- The number of the link engine among a partition's engines; copy engine ceN has number N. -/
def linkEng : Nat := 64

/-- An engine of a partition. -/
def Part.eng (p : Part) (g : Nat) : Engine := (look g p.engines).getD {}

/-- The partition with an engine changed. -/
def Part.modEng (p : Part) (g : Nat) (f : Engine → Engine) : Part := { p with engines := put g (f (p.eng g)) p.engines }

/-- The state with an engine changed. -/
def State.modEng (s : State) (n g : Nat) (f : Engine → Engine) : State := s.modPart n fun p => p.modEng g f

/-- Whether a partition has an engine of a number (R313). -/
def Part.hasEng (p : Part) (g : Nat) : Bool := g == linkEng || decide (g < 2 * p.depotList.length)

/-- ENSTAT (R313). -/
def Engine.stat (e : Engine) : Nat := b2n e.back + 2 * b2n e.cflt + 4 * b2n e.stop + 8 * b2n e.pause

/-- A number of entries not yet taken (R221). -/
def chainOpen (tail head : Word) : Bool := decide (1 ≤ (tail - head).toNat) && decide ((tail - head).toNat < 2 ^ 31)

/-- Whether a write lowers a tail (R221). -/
def lowersTail (old new : Word) : Bool := decide (2 ^ 31 ≤ (new - old).toNat)

/-- An interrupt message of a partition: vector 0 a QSEQ advance, 1 a fault record, 2 a STOP, 3 a power or margin event
(R424). -/
def State.msi (s : State) (n v : Nat) : State := s.modPart n fun p => { p with msi := modAt p.msi v (· + 1) }

/-- Whether a record of an engine waits, the tenant's or the operator's: it takes no entry (R332, R454). -/
def Engine.boxed (e : Engine) : Bool := e.waiting.isSome || e.opWaiting.isSome

/-- Host write of ENTAIL (R314). -/
def execEntailWrite (n g v : Nat) (s : State) : Out :=
  if !(s.part n).answers || !(s.part n).hasEng g then .next s
  else .next (s.modEng n g fun e =>
    if lowersTail e.tail (BitVec.ofNat 32 v) then { e with back := true } else { e with tail := BitVec.ofNat 32 v })

/-- Host write of ENBASE (R314). -/
def execEnbaseWrite (n g v : Nat) (s : State) : Out :=
  if !(s.part n).answers || !(s.part n).hasEng g then .next s
  else .next (s.modEng n g fun e => { e with base := BitVec.ofNat 64 v, cflt := false })

/-- Whether an entry of an engine waits for a page request's response (R254). -/
def Engine.withheld (e : Engine) : Bool := e.entries.any fun x => x.wait.withholds

/-- An entry as an engine takes it (R314): its sequence number stands in Dword 7. -/
def newEntry (dw : List Dword) (iova : Option Nat) (seq : Nat) : EngEntry :=
  ⟨setAt dw 7 (BitVec.ofNat 64 (putBits (dw.getD 7 0).toNat 31 0 seq)), iova, seq, .queued, 0, 0, 0, .no, []⟩

/-- An entry appended by CHAPP: its sequence number (R314). -/
def State.engAppend (s : State) (n g : Nat) (dw : List Dword) : Nat × State :=
  let q := (((s.part n).eng g).given + 1) % 2 ^ 32
  (q, s.modEng n g fun e => { e with given := q, append := e.append ++ [(q, dw)] })

/-- Entries of an append buffer at most (R314). -/
def appendMax : Nat := 16

/-- The chain entries that the loader still holds for a launch appended while there is room (R64): each waits for a place in the buffer of
its engine. -/
def State.feedChain (ref : LaunchRef) : Nat → State → State
  | 0, s => s
  | k + 1, s =>
    match s.launch? ref with
    | none => s
    | some l =>
      match l.chains with
      | [] => s
      | (g, dw) :: r =>
        if appendMax ≤ ((s.part ref.n).eng g).append.length then s
        else State.feedChain ref k (((s.engAppend ref.n g dw).2).modLaunch ref fun x => { x with chains := r })

/-- The same for every launch of a partition. -/
def State.feedChains (s : State) (n : Nat) : State :=
  (s.part n).launches.foldl (fun t l => State.feedChain l.ref l.chains.length t) s

/-- Taking an entry: appended entries first (R314), each out of its buffer once the engine may start it: it does not pause and holds
fewer than 4 entries (R317, R326, log 28), which makes room for what the loader still has to append (R64); then the host chain, whose
entry address must be aligned and mapped. -/
def execTakeEngineEntry (n g : Nat) (s : State) : Out :=
  let p := s.part n
  let e := p.eng g
  if !p.enable || !p.hasEng g || e.stop || e.boxed || e.withheld then .next s
  else match e.append with
  | (q, dw) :: r =>
    if e.pause || decide (4 ≤ e.entries.length) then .next s
    else .next ((s.modEng n g fun e => { e with append := r, entries := e.entries ++ [newEntry dw none q] }).feedChains n)
  | [] =>
    if e.cflt || !chainOpen e.tail e.head then .next s
    else
      let a := e.base.toNat
      match (if a % 64 = 0 then s.ioDwords n a 8 else none) with
      | none => .next (s.modEng n g fun e => { e with cflt := true })
      | some dw =>
        let q := (e.given + 1) % 2 ^ 32
        let t := s.ioWrite n (a + 56) (toBytes 4 q)
        .next (t.modEng n g fun e =>
          { e with
            given := q
            head := e.head + 1
            base := dw.getD 2 0
            entries := e.entries ++ [newEntry dw (some a) q] })

/-! ### Entry fields (R315) -/

def EngEntry.dw_ (x : EngEntry) (k : Nat) : Nat := (x.dw.getD k 0).toNat
def EngEntry.kind (x : EngEntry) : Nat := bits (x.dw_ 3) 63 61
def EngEntry.dloc (x : EngEntry) : Bool := bit (x.dw_ 3) 60
def EngEntry.sloc (x : EngEntry) : Bool := bit (x.dw_ 3) 59
def EngEntry.ord (x : EngEntry) : Bool := bit (x.dw_ 3) 58
def EngEntry.rszl (x : EngEntry) : Nat := bits (x.dw_ 3) 51 48
def EngEntry.len (x : EngEntry) : Nat := bits (x.dw_ 3) 39 0
def EngEntry.nkind (x : EngEntry) : Nat := bits (x.dw_ 4) 63 62
def EngEntry.nbar (x : EngEntry) : Nat := bits (x.dw_ 4) 43 37
def EngEntry.noff (x : EngEntry) : Nat := bits (x.dw_ 4) 18 0
def EngEntry.peer (x : EngEntry) : Nat := bits (x.dw_ 5) 63 54

/-- The element of a scratchpad reference or notify target in device form (R315). -/
def deviceElem (col row : Nat) : Nat := 64 * row + col

/-- The scratchpad that a reference names: element and offset. -/
def scratchRef (v : Nat) : Nat × Nat := (deviceElem (bits v 57 52) (bits v 51 46), bits v 18 0)

/-- Whether an element is one of a partition's: it stands in a page of its depots, whether a launch holds it or not (R319, R419). -/
def State.inPart (s : State) (n e : Nat) : Bool := (s.part n).pageList.contains (pageOf e)

/-- The notify target's element. -/
def EngEntry.ntgt (x : EngEntry) : Nat := deviceElem (bits (x.dw_ 4) 55 50) (bits (x.dw_ 4) 49 44)

/-- Code 0x60: a reserved kind or field (R315, R319). Kinds of the link engine stand on the link engine alone (log 18). -/
def EngEntry.reserved (x : EngEntry) (g : Nat) : Bool :=
  let d3 := x.dw_ 3
  let k := x.kind
  decide (5 < k) || decide (4 < bits d3 57 55) || bits d3 54 52 != 0 || bits d3 47 40 != 0 ||
  (x.dloc && !(k == 0 || k == 1 || k == 2 || k == 5)) || (x.sloc && !(k == 0 || k == 4)) ||
  (if k == 1 then decide (12 < x.rszl) else x.rszl != 0) ||
  (if k == 3 then x.len != 0 else x.len == 0) ||
  (k == 1 && x.len % 2 ^ x.rszl != 0) ||
  x.nkind == 3 || bits (x.dw_ 4) 36 19 != 0 ||
  (if k == 1 then false else if k == 3 then x.dw_ 5 / 2 ^ 40 != 0
    else if k == 4 || k == 5 then x.dw_ 5 % 2 ^ 54 != 0 else x.dw_ 5 != 0) ||
  (x.dloc && bits (x.dw_ 1) 45 19 != 0) || (x.sloc && bits (x.dw_ 0) 45 19 != 0) ||
  ((k == 4 || k == 5) && g != linkEng) || (decide (k < 3) && g == linkEng)

/-- Code 0x63: a notify target, or a scratchpad reference, that is no element of the partition; NBAR above 95; NOFF
misaligned or beyond scratchpad (R319). A region field left in device form names none (R315). -/
def State.badTarget (s : State) (n : Nat) (x : EngEntry) : Bool :=
  (x.dloc && (bits (x.dw_ 1) 63 58 != 0 || !s.inPart n (scratchRef (x.dw_ 1)).1)) ||
  (x.sloc && (bits (x.dw_ 0) 63 58 != 0 || !s.inPart n (scratchRef (x.dw_ 0)).1)) ||
  (x.nkind != 0 && (bits (x.dw_ 4) 61 56 != 0 || !s.inPart n x.ntgt)) ||
  (x.nkind == 1 && decide (95 < x.nbar)) ||
  (x.nkind == 2 && (x.noff % 16 != 0 ||
    decide (((s.elem? x.ntgt).map Elem.scrBytes).getD 0 < x.noff + 16)))

/-! ### Performing an entry's bytes (R316) -/

/-- Where a byte of an entry lies: at an offset of an object, in a scratchpad, or on the peer part. -/
inductive Place where
  | obj (tid off : Nat)
  | scr (e off : Nat)
  | peer (tok pos : Nat)
deriving DecidableEq, Repr

/-- The place `k` bytes on from an address token or scratchpad reference. -/
def placeOf (loc : Bool) (v : Nat) (k : Int) : Option Place :=
  let base : Nat := if loc then (scratchRef v).2 else v % 2 ^ 48
  let o : Int := base + k
  if o < 0 then none
  else if loc then some (.scr (scratchRef v).1 o.toNat)
  else some (.obj (v / 2 ^ 48) o.toNat)

/-- Bytes up to the next line of memory. -/
def Place.room : Place → Nat
  | .obj _ off => 128 - off % 128
  | _ => 128

/-- A place found: the pieces of memory that hold its bytes, a scratchpad byte, or the peer. -/
inductive Found where
  | pas (l : List (Nat × Nat))
  | scr (e off : Nat)
  | peer
deriving DecidableEq, Repr

/-- The checks of R241 and R272 at a place, and where its bytes are. -/
def State.findPlace (s : State) (n : Nat) (q : Req) (p : Place) (len : Nat) (write : Bool) : XRes Found :=
  match p with
  | .peer _ _ => .ok .peer s
  | .scr e off =>
    if ((s.elem? e).map Elem.scrBytes).getD 0 < off + len then .stop (.bounds 8) s else .ok (.scr e off) s
  | .obj tid off =>
    (s.object n q tid).bind fun o t =>
    (t.checked n q o off len write).bind fun ps u => (u.placed n q ps write).bind fun pas v => .ok (.pas pas) v

/-- The checks of R241 at a whole entry or row of 8 bytes or fewer, which pieces at line boundaries would hide: cause 4. -/
def State.unitChk (s : State) (n : Nat) (q : Req) (p : Option Place) (len : Nat) (write : Bool) : XRes Unit :=
  match p with
  | some (.obj tid off) =>
    if 8 < len then .ok () s
    else (s.object n q tid).bind fun o t => (t.checked n q o off len write).bind fun _ u => .ok () u
  | _ => .ok () s

/-- How many bytes may move at once so that bytes are taken in increasing order (R316). -/
def stride (src dst : Found) (m : Nat) : Nat :=
  match src, dst with
  | .pas ((a, _) :: _), .pas ((b, _) :: _) => if a < b ∧ b < a + m then b - a else m
  | .scr e a, .scr f b => if e = f ∧ a < b ∧ b < a + m then b - a else m
  | _, _ => m

/-- A line that an entry touches pinned wherever a slice of the partition holds it; one of a halted slice waits (R265, R266, R335; log 19). -/
def State.enginePin (s : State) (n : Nat) (line : Nat) : List Nat → List (Nat × Nat) → XRes (List (Nat × Nat))
  | [], held => .ok held s
  | p :: ps, held =>
    if held.contains (p, line) then s.enginePin n line ps held
    else match (s.page p).line? line with
    | none => s.enginePin n line ps held
    | some l =>
      if (s.page p).halted then .wait .no s
      else if l.pins = 0 ∧ Config.pinLimit ≤ (s.page p).setPins (setOf line) then .wait (.pin p) s
      else if 255 ≤ l.pins then .wait (.pin p) s
      else (s.modPage p fun g => g.modLine line fun l => { l with pins := l.pins + 1 }).enginePin n line ps
        ((p, line) :: held)

/-- The lines of found bytes. -/
def Found.lines : Found → List Nat
  | .pas l => l.map fun a => a.1 / 128
  | _ => []

/-- Several lines pinned. -/
def State.engineLines (s : State) (n : Nat) : List Nat → List (Nat × Nat) → XRes (List (Nat × Nat))
  | [], held => .ok held s
  | l :: r, held => (s.enginePin n l (s.part n).pageList held).bind fun h t => t.engineLines n r h

/-- The lines of found bytes pinned, all of them or, where a pin waits, none. -/
def State.pinFound (s : State) (n : Nat) (fs : List Found) (held : List (Nat × Nat)) : XRes (List (Nat × Nat)) :=
  match s.engineLines n (fs.flatMap Found.lines) held with
  | .wait w _ => .wait w s
  | r => r

/-- Bytes read by an engine: memory holds them (R258: an engine reads no slice). -/
def State.readFound (s : State) (n : Nat) (f : Found) (len : Nat) : List Byte :=
  match f with
  | .pas l => (l.flatMap fun a => s.memRead n a.1 a.2).take len
  | .scr e off => ((s.elem? e).map fun x => (s.workSet x).scratch.read off len).getD []
  | .peer => []

/-- Bytes written by an engine (R285, R317). -/
def State.writeFound (s : State) (n : Nat) (f : Found) (bs : List Byte) : State :=
  match f with
  | .pas l => (l.foldl (fun (x : State × List Byte) a => (x.1.engineWrite n a.1 (x.2.take a.2), x.2.drop a.2)) (s, bs)).1
  | .scr e off => s.modWork e fun v => { v with scratch := v.scratch.write off bs }
  | .peer => s

/-- The fill pattern's bytes from position `pos` on (R316). -/
def fillBytes (pat pos len : Nat) : List Byte := (List.range len).map fun i => BitVec.ofNat 8 (pat / 256 ^ ((pos + i) % 8))

/-- The partition number that a peer part is sent with what goes to it: bits [15:0] of its entry in the link context (R421). -/
def State.peerPart (s : State) (n peer : Nat) : Nat := ((s.ioDword n ((s.part n).lktab.toNat + 8 * peer)).getD 0) % 2 ^ 16

/-- Whether a peer part takes the partition's transfers: the link context's entry is valid and the peer answers (R319, R421). -/
def State.peerOk (s : State) (n peer : Nat) : Bool :=
  (match s.ioDword n ((s.part n).lktab.toNat + 8 * peer) with
   | some v => bit v 63
   | none => false) && !Config.peerRefuses peer

/-- One piece of an entry: the bytes from its position to the next line or row; the entry with the bytes counted. -/
def State.engPiece (s : State) (n g : Nat) (x : EngEntry) : XRes EngEntry :=
  let q := Req.eng n g
  let pos := x.bytes
  let left := x.len - pos
  let move (src : Option Place) (dst : Option Place) (m0 : Nat) (more : List Found) (s : State) : XRes EngEntry :=
    match src, dst with
    | some sp, some dp =>
      let m := min m0 (min sp.room dp.room)
      (s.findPlace n q sp m false).bind fun sf t =>
      (t.findPlace n q dp m true).bind fun df u =>
      (u.pinFound n (more ++ [sf, df]) x.pins).bind fun h w =>
        let k := stride sf df m
        .ok { x with bytes := pos + k, pins := h, wait := .no } (w.writeFound n df (w.readFound n sf k))
    | _, _ => .stop (.bounds 2) s
  let src0 := placeOf x.sloc (x.dw_ 0) 0
  let dst0 := placeOf x.dloc (x.dw_ 1) 0
  match x.kind with
  | 0 =>
    (s.unitChk n q src0 x.len false).bind fun _ s => (s.unitChk n q dst0 x.len true).bind fun _ s =>
      move (placeOf x.sloc (x.dw_ 0) pos) (placeOf x.dloc (x.dw_ 1) pos) left [] s
  | 1 =>
    let row := 2 ^ x.rszl
    let i := pos / row
    let k := pos % row
    match placeOf false (x.dw_ 5) (4 * i) with
    | none => .stop (.bounds 2) s
    | some ip =>
      (s.findPlace n q ip 4 false).bind fun f u =>
        let idx := ofBytes (u.readFound n f 4)
        if idx = 0x80000000 then
          (u.pinFound n [f] x.pins).bind fun h v => .ok { x with bytes := pos + (row - k), pins := h, wait := .no } v
        else
          let src (d : Nat) := placeOf false (x.dw_ 0) (sgn 32 idx * row + d)
          (u.unitChk n q (src 0) row false).bind fun _ v =>
          (v.unitChk n q (placeOf x.dloc (x.dw_ 1) (pos - k : Int)) row true).bind fun _ w =>
            move (src k) (placeOf x.dloc (x.dw_ 1) pos) (row - k) [f] w
  | 2 =>
    (s.unitChk n q dst0 x.len true).bind fun _ s =>
    match placeOf x.dloc (x.dw_ 1) pos with
    | none => .stop (.bounds 2) s
    | some dp =>
      let m := min left dp.room
      (s.findPlace n q dp m true).bind fun df t =>
      (t.pinFound n [df] x.pins).bind fun h u =>
        .ok { x with bytes := pos + m, pins := h, wait := .no } (u.writeFound n df (fillBytes (x.dw_ 0) pos m))
  | 4 =>
    (s.unitChk n q src0 x.len false).bind fun _ s =>
    match placeOf x.sloc (x.dw_ 0) pos with
    | none => .stop (.bounds 2) s
    | some sp =>
      let m := min left sp.room
      (s.findPlace n q sp m false).bind fun sf t =>
      (t.pinFound n [sf] x.pins).bind fun h u =>
        .ok { x with bytes := pos + m, pins := h, wait := .no }
          { u with peerOut := u.peerOut ++ [⟨x.peer, s.peerPart n x.peer, BitVec.ofNat 64 (x.dw_ 1 + pos), true, m, u.readFound n sf m⟩] }
  | 5 =>
    (s.unitChk n q dst0 x.len true).bind fun _ s =>
    match placeOf x.dloc (x.dw_ 1) pos with
    | none => .stop (.bounds 2) s
    | some dp =>
      let m := min left dp.room
      (s.findPlace n q dp m true).bind fun df t =>
      (t.pinFound n [df] x.pins).bind fun h u =>
        let bs := (List.range m).map fun i => Config.peerByte x.peer (x.dw_ 0) (pos + i) u.fresh
        .ok { x with bytes := pos + m, pins := h, wait := .no }
          (({ u with
              fresh := u.fresh + 1
              peerOut := u.peerOut ++ [⟨x.peer, s.peerPart n x.peer, BitVec.ofNat 64 (x.dw_ 0 + pos), false, m, []⟩] } : State).writeFound n df bs)
  | _ => .ok x s

/-- How an entry's run ends for now. -/
inductive RunEnd where
  | done (x : EngEntry)
  | held (x : EngEntry) (w : Wait)
  | fail (x : EngEntry) (code cause : Nat)
deriving DecidableEq, Repr

/-- The code and cause of a stop (R319). -/
def failOf : Stop → Nat × Nat
  | .bounds c => (0x61, c)
  | .xlate _ _ => (0x62, 0)
  | .width | .version | .trap _ _ _ _ => (0x60, 0)
  | .lane _ c => failOf c

/-- Some of an entry's pieces one after another. -/
def State.engRun (n g : Nat) : Nat → EngEntry → State → RunEnd × State
  | 0, x, s => (.done x, s)
  | k + 1, x, s =>
    if x.len ≤ x.bytes then (.done x, s)
    else match s.engPiece n g x with
    | .wait w t => (.held x w, t)
    | .stop c t => (.fail x (failOf c).1 (failOf c).2, t)
    | .ok y t => State.engRun n g k y t

/-- An engine with one of its entries changed. -/
def Engine.modEntry (e : Engine) (seq : Nat) (f : EngEntry → EngEntry) : Engine :=
  { e with entries := e.entries.map fun x => if x.seq = seq then f x else x }

/-- STATUS as Dword 6 (R319). -/
def statusWord (code cause bytes : Nat) : Nat := code * 2 ^ 56 + cause % 256 * 2 ^ 48 + bytes % 2 ^ 40

/-- An entry's STATUS written, where it stands in host memory (R319). -/
def State.engStatus (s : State) (n : Nat) (x : EngEntry) (v : Nat) : State :=
  match x.iova with
  | some a => s.ioPut n (a + 48) v
  | none => s

/-- A chain-fault record of an engine (R319, R333): SEQ and the engine code in ADDR, the STATUS code in CAUSE. -/
def chainRecord (cls cause code seq : Nat) (detail : Dword) : Record :=
  [BitVec.ofNat 64 (cls * 2 ^ 56 + cause % 256 * 2 ^ 48 + 2 ^ 20 + 2 ^ 19), 0, 0,
   BitVec.ofNat 64 (seq % 2 ^ 32 * 2 ^ 32 + code), detail, 0, 0, 0]

/-- FLT set in the notify target of a failed entry, in the working set of its element (R319). -/
def State.engFlt (s : State) (x : EngEntry) : State :=
  match x.nkind with
  | 1 => if 95 < x.nbar then s else s.modWork x.ntgt fun v => v.setBar x.nbar { v.bar x.nbar with flt := true }
  | 2 =>
    if x.noff % 16 ≠ 0 ∨ ((s.elem? x.ntgt).map Elem.scrBytes).getD 0 < x.noff + 16 then s
    else s.modWork x.ntgt fun v => v.setSync x.noff (putBits (v.sync x.noff) 105 105 1)
  | _ => s

/-- The failure of an entry (R319): STATUS, FLT, STOP, and a record for the fault chain. -/
def State.engFail (s : State) (n g : Nat) (x : EngEntry) (code cause : Nat) : State :=
  let t := (s.engStatus n x (statusWord code cause x.bytes)).dropPins false x.pins
  let u := if bits (x.dw_ 4) 61 56 = 0 ∧ s.inPart n x.ntgt then t.engFlt x else t
  let r := chainRecord tcChain code g x.seq 0
  (u.modEng n g fun e =>
    { (e.modEntry x.seq fun y =>
        { y with st := .failed, bytes := x.bytes, code := code, cause := cause, wait := .no, pins := [] }) with
      stop := true
      waiting := some r
      opWaiting := some (u.engineRecord n (if g = linkEng then 0 else g / 2) r) }).msi n 2

/-- The engine code of WENG for an engine number (R222). -/
def wengOf (g : Nat) : Nat := if g = linkEng then 0x40 else g

/-- An entry begun or continued: fields are checked when it begins (R315, R319, R324), then its bytes are performed, a piece at a time, so that an
Invalidate Request may find it partway (R256, R352). -/
def State.engGo (s : State) (n g : Nat) (x : EngEntry) : State :=
  if x.st == .queued && x.reserved g then s.engFail n g x 0x60 0
  else if x.st == .queued && s.badTarget n x then s.engFail n g x 0x63 0
  else if (x.kind == 4 || x.kind == 5) && !s.peerOk n x.peer then s.engFail n g x 0x64 0
  else match State.engRun n g 1 { x with st := .flight } s with
  | (.done y, t) => t.modEng n g fun e => e.modEntry x.seq fun _ => { y with wait := .no }
  | (.held y w, t) => t.modEng n g fun e => e.modEntry x.seq fun _ => { y with wait := w }
  | (.fail y code cause, t) => t.engFail n g y code cause

/-- The entry that an engine works on next: one in flight with bytes left that nothing withholds; else the next in sequence
order, if at most 3 are in flight, ORD allows it, and the engine neither pauses nor has stopped nor holds a record that waits (R317, R326, R332). -/
def Engine.nextEntry (e : Engine) : Option EngEntry :=
  match e.entries.find? fun x => x.st == .flight && decide (x.bytes < x.len) && !x.wait.withholds with
  | some x => some x
  | none =>
    if e.stop || e.pause || e.boxed || e.withheld then none
    else match e.entries.find? fun x => x.st == .queued with
    | none => none
    | some x =>
      let busy := (e.entries.filter fun y => y.st == .flight).length
      if 4 ≤ busy ∨ (x.ord ∧ e.entries.head?.map (·.seq) ≠ some x.seq) then none else some x

/-- ENGINE_ENTRY_START (R316, R317). -/
def execEngineEntryStart (n g : Nat) (s : State) : Out :=
  match ((s.part n).eng g).nextEntry with
  | none => .next s
  | some x => if (s.part n).enable then .next (s.engGo n g x) else .next s

/-- ENSEQ moved over the prefix of completed entries (R317). -/
def seqAdvance : Nat → Word → List Nat → Word × List Nat
  | 0, q, l => (q, l)
  | k + 1, q, l =>
    if l.contains (q + 1).toNat then seqAdvance k (q + 1) (l.filter (· != (q + 1).toNat)) else (q, l)

/-- An entry counted as completed (R317). -/
def Engine.complete (e : Engine) (seq : Nat) : Engine :=
  let r := seqAdvance (e.doneSeqs.length + 1) e.seq (seq :: e.doneSeqs)
  { e with entries := e.entries.filter (·.seq != seq), seq := r.1, doneSeqs := r.2 }

/-- Bytes that an entry reports (R317). -/
def EngEntry.reports (x : EngEntry) : Nat := if x.kind = 3 then x.dw_ 5 % 2 ^ 40 else x.len

/-- Whether reports can reach an element: its region is not swapped out or pre-empted (R309). One that no launch holds keeps no state that a report
could change (R104, R306). -/
def State.reachable (s : State) (e : Nat) : Bool :=
  match s.elem? e with
  | none => true
  | some x =>
    match s.region? x.rref with
    | some r => r.st != .preempted && r.st != .swapped
    | none => false

/-- ENGINE_ENTRY_COMPLETE of the entry with sequence number `q`: its report, STATUS, ENSEQ (R309, R317). -/
def execEngineEntryComplete (n g q : Nat) (s : State) : Out :=
  match ((s.part n).eng g).entries.find? fun x => x.seq == q && x.st == .flight && decide (x.len ≤ x.bytes) with
  | none => .next s
  | some x =>
    if x.nkind ≠ 0 ∧ s.inPart n x.ntgt ∧ !s.reachable x.ntgt then .next s
    else if x.nkind ≠ 0 ∧ s.badTarget n x then .next (s.engFail n g x 0x63 0)
    else
      let r : Report := ⟨x.nkind == 2, if x.nkind = 2 then x.noff else x.nbar, x.reports⟩
      let t := if x.nkind = 0 then s
        else s.modElem x.ntgt fun y => { y.applyReport r with reports := y.reports ++ [r] }
      let u := (t.dropPins false x.pins).engStatus n x 0
      .next (u.modEng n g fun e => e.complete q)

/-! ### Control (R326) -/

/-- pause. -/
def State.engPause (s : State) (n g : Nat) : State := s.modEng n g fun e => { e with pause := true }

/-- resume. -/
def State.engResume (s : State) (n g : Nat) : State := s.modEng n g fun e => { e with pause := false }

/-- The entry on which an engine has stopped. -/
def Engine.failedEntry (e : Engine) : Option EngEntry :=
  if e.stop then e.entries.find? fun x => x.st == .failed else none

/-- skip: STATUS is rewritten with code 0x65 (R319, R326). -/
def State.engSkip (s : State) (n g : Nat) : State :=
  match ((s.part n).eng g).failedEntry with
  | none => s
  | some x =>
    (s.engStatus n x (statusWord 0x65 x.code x.bytes)).modEng n g fun e => { e.complete x.seq with stop := false }

/-- retry: from its first byte (R326). -/
def State.engRetry (s : State) (n g : Nat) : State :=
  match ((s.part n).eng g).failedEntry with
  | none => s
  | some x => s.modEng n g fun e =>
      { (e.modEntry x.seq fun y => { y with st := .queued, bytes := 0, code := 0, cause := 0, wait := .no, pins := [] }) with
        stop := false }

/-- An action of CHCTL and ENCMD (R326). -/
def State.engCtl (s : State) (n g act : Nat) : State :=
  match act with
  | 0 => s.engPause n g
  | 1 => s.engResume n g
  | 2 => s.engSkip n g
  | _ => s.engRetry n g

/-- A host command to an engine of a partition whose page answers. -/
def encmd (n g : Nat) (f : State → State) (s : State) : Out :=
  if (s.part n).answers && (s.part n).hasEng g then .next (f s) else .next s

/-- ENCMD code 0 (R326). -/
def execEncmdPause (n g : Nat) (s : State) : Out := encmd n g (·.engPause n g) s

/-- ENCMD code 1 (R326). -/
def execEncmdResume (n g : Nat) (s : State) : Out := encmd n g (·.engResume n g) s

/-- ENCMD code 2 (R326). -/
def execEncmdSkip (n g : Nat) (s : State) : Out := encmd n g (·.engSkip n g) s

/-- ENCMD code 3 (R326). -/
def execEncmdRetry (n g : Nat) (s : State) : Out := encmd n g (·.engRetry n g) s

end Sys2Proof.Machine
end

