-- ==== Sys2Proof/Machine/Sync.lean ====
section
/-! DEFINITION. Barriers, sync words and chain instructions, opcodes 0xA0 to 0xAB (R306 to R312, R320 to R327). -/

namespace Sys2Proof.Machine

/-! ### Homes -/

/-- The element at a column and row of a region (R308): w and h count pages of 4 × 4 elements. -/
def Region.elemAt (r : Region) (col row : Nat) : Option Nat :=
  if col < 4 * r.w ∧ row < 4 * r.h then some (64 * (4 * r.oy + row) + (4 * r.ox + col)) else none

/-- The home that a barrier instruction names: its own element, or the element at a column and row of its region (R308). -/
def State.homeOf (s : State) (e : Nat) (x : Elem) (far : Bool) (v : Nat) : Option Nat :=
  if !far then some e
  else match s.region? x.rref with
    | none => none
    | some r => r.elemAt (bits v 11 6) (bits v 5 0)

/-- DETAIL of a barrier misuse (R308). -/
def misuseDetail (x : Elem) (far : Bool) (k v : Nat) : Nat :=
  k * 2 ^ 16 + (if far then v % 4096 else x.col * 64 + x.row)

/-- The operand after the home: R in a .far form, L in a local one (R320). -/
def farArg (f : Bool) (r : Args) : Payload := if f then r.r.data else r.l.data

/-- What arming a barrier and arriving at one give: the barrier after, and the generation to emit, that in which the instruction armed or arrived
(R307); or the cause of a misuse (R308). -/
abbrev BarOp := Barrier → Except Nat (Barrier × BitVec 24)
def armOp (n : Nat) : BarOp := fun b =>
  match b.arm n with
  | some b' => .ok (b', b'.gen)
  | none => .error 4
def arriveOp (bytes : Nat) : BarOp := fun b =>
  match b.arrive bytes with
  | .ok b' => .ok (b', b.gen)
  | .error c => .error c

/-- An operation on a barrier of the element itself, which acts and emits at once (R307, R321). -/
def barOp (i : Instr) (k : Nat) (op : BarOp) (c : Cursor) (x : Elem) (r : Args) (s : State) : Out :=
  match op (x.bar k) with
  | .error cause => .next (s.raise c tcBarrier cause 0 (BitVec.ofNat 64 (misuseDetail x false k 0)))
  | .ok (b, g) => s.finish c (x.setBar k b) 1 (toAll i (dataTok (lane0 g.toNat) r.tag))

/-- The home of an operation that travels lies in the region (R308), as it issues. -/
def homeChk : AccCheck := fun e _ a s =>
  match a.op, s.elem? e with
  | .barrier _ k h, some x | .arm k h, some x =>
    match s.homeOf e x a.sx h with
    | some _ => .ok () s
    | none => .stop (.trap tcBarrier 1 (misuseDetail x a.sx k h) 0) s
  | _, _ => .ok () s

/-- BARM: arms a barrier; emits its generation. A .far one acts as it reaches the home (R307, R321). -/
def execBarm (p : Pm) (n : BitVec 7) (f : Bool) (a : Tgt) (s : State) : Out :=
  if f then memIssue (.barm p n f a) homeChk s
  else runS (.barm p n f a) (fun cu x v st => barOp (.barm p n f a) n.toNat (armOp (scal v.l.data).toNat) cu x v st) s

/-- BARR; a .far one acts as it reaches the home, and one with .rel once its release is performed (R307, R321, R322). -/
def execBarr (p : Pm) (n : BitVec 7) (c : Scope) (r f : Bool) (a : Tgt) (s : State) : Out :=
  if r || f then memIssue (.barr p n c r f a) homeChk s
  else runS (.barr p n c r f a) (fun cu x v st => barOp (.barr p n c r f a) n.toNat (arriveOp 0) cu x v st) s

/-- BARX; as BARR (R307, R321, R322). -/
def execBarx (p : Pm) (n : BitVec 7) (c : Scope) (r f : Bool) (a : Tgt) (s : State) : Out :=
  if r || f then memIssue (.barx p n c r f a) homeChk s
  else runS (.barx p n c r f a) (fun cu x v st => barOp (.barx p n c r f a) n.toNat (arriveOp (scal v.l.data).toNat) cu x v st) s

/-- An operation that reaches a barrier at its home, behind its release if it has one (R307, R321, R322). -/
def barPerform (k home : Nat) (op : BarOp) (e n : Nat) (a : Access) (s : State) : XRes (Token × Nat) :=
  match s.elem? e with
  | none => .wait .no s
  | some x =>
    match s.homeOf e x a.sx home with
    | none => .stop (.trap tcBarrier 1 (misuseDetail x a.sx k home) 0) s
    | some h =>
      let t := s.accRelease n (pageOf e) a
      match op (((t.elem? h).map fun y => y.bar k).getD {}) with
      | .error c => .stop (.trap tcBarrier c (misuseDetail x a.sx k home) 0) t
      | .ok (b, g) => .ok (dataTok (lane0 g.toNat) none, 0) (t.modElem h fun y => y.setBar k b)

/-- An arrival performed. -/
def doBarrier (pbyt : Bool) (k home : Nat) (e n : Nat) (a : Access) (s : State) : XRes (Token × Nat) :=
  barPerform k home (arriveOp (if pbyt then (scal (if a.sx then a.r else a.l)).toNat else 0)) e n a s

/-- BARM.far performed. -/
def doArm (k home : Nat) (e n : Nat) (a : Access) (s : State) : XRes (Token × Nat) :=
  barPerform k home (armOp (scal a.r).toNat) e n a s

/-- BARW: waits until the generation has passed g; a failed entry raises the chain-fault trap; with .acq it marks the slice
before it emits (R321, R322). -/
def execBarw (p : Pm) (n : BitVec 7) (c : Scope) (q f : Bool) (a : Tgt) (s : State) : Out :=
  runS (.barw p n c q f a) (fun cu x r st =>
    let v := elAt 32 r.l.data 0
    match st.homeOf cu.e x f v with
    | none => .next (st.raise cu tcBarrier 1 0 (BitVec.ofNat 64 (misuseDetail x f n.toNat v)))
    | some h =>
      let b := ((st.elem? h).map fun y => y.bar n.toNat).getD {}
      if b.flt then .next (st.raise cu tcChain 0 0 0)
      else if !genPassed b.gen (BitVec.ofNat 24 (elAt 32 (farArg f r) 0)) then .next st
      else
        let t := if q then st.acquireAt (pageOf cu.e) c else st
        t.finish cu x 1 (toAll (.barw p n c q f a) (dataTok (lane0 b.gen.toNat) r.tag))) s

/-! ### Sync words (R323) -/

/-- An operation on the sync word at lane 0 of L: the word after, or a trap's class, cause and detail; none waits. -/
def synOp (i : Instr) (op : Nat → Args → Nat → Option (Except (Nat × Nat × Nat) Nat)) (s : State) : Out :=
  run i (fun _ x r =>
    let off := elAt 32 r.l.data 0
    if off % 16 ≠ 0 then .trap tcBounds 7 0 0
    else if x.scrBytes < off + 16 then .trap tcBounds 8 0 0
    else match op (x.sync off) r off with
      | none => .wait
      | some (.error (cls, cause, d)) => .trap cls cause 0 (BitVec.ofNat 64 d)
      | some (.ok w) => .issue (x.setSync off w) 1 (toAll i (dataTok (lane0 (swGen w).toNat) r.tag))) s

/-- SYNI (R323). -/
def execSyni (p : Pm) (a : Tgt) (s : State) : Out :=
  synOp (.syni p a) (fun w r off =>
    let t := (scal r.r.data).toNat
    if 2 ^ 40 ≤ t then some (.error (tcBarrier, 6, off)) else some (.ok (swInit w t))) s

/-- SYNW (R323). -/
def execSynw (p : Pm) (a : Tgt) (s : State) : Out :=
  synOp (.synw p a) (fun w r _ =>
    if swFlt w then some (.error (tcChain, 0, 0))
    else if genPassed (swGen w) (BitVec.ofNat 24 (elAt 32 r.r.data 0)) then some (.ok w) else none) s

/-- SYNA (R311, R323). -/
def execSyna (p : Pm) (a : Tgt) (s : State) : Out :=
  synOp (.syna p a) (fun w r off =>
    let x := (scal r.r.data).toNat
    if 2 ^ 40 ≤ x then some (.error (tcBarrier, 6, off)) else some (.ok (swReport w x))) s

/-! ### Chains (R324 to R327) -/

/-- The checks of a 64-byte entry named by an address token (R235, R324, R327). -/
def planEntry (n : Nat) (q : Req) (a : Access) (s : State) : XRes Plan := planSpan n q a 64 64 false none none s

/-- The entry read through the element's slice. -/
def readEntry (e n : Nat) (a : Access) (s : State) : XRes (List Dword) :=
  (planEntry n (a.req e) a s).bind fun p t =>
  (t.readPieces n (pageOf e) p.obj p.pas).bind fun bs u =>
    .ok ((List.range 8).map fun i => BitVec.ofNat 64 (ofBytes ((bs.drop (8 * i)).take 8))) u

/-- A reference with region, column and row at bits [hi:hi-17] rebased from a region of a launch into device form; one that
names no region of the launch stays as it is, for the engine to refuse (R315). -/
def rebaseRef (l : Launch) (v : Dword) (hi : Nat) : Dword :=
  let w := v.toNat
  match l.regions[bits w hi (hi - 5)]? with
  | none => v
  | some r =>
    let col := bits w (hi - 6) (hi - 11) + 4 * r.ox
    let row := bits w (hi - 12) (hi - 17) + 4 * r.oy
    BitVec.ofNat 64 (putBits (putBits (putBits w hi (hi - 5) 0) (hi - 6) (hi - 11) col) (hi - 12) (hi - 17) row)

/-- An entry rebased as CHAPP copies it (R315). -/
def rebase (l : Launch) (dw : List Dword) : List Dword :=
  let d3 := (dw.getD 3 0).toNat
  let a := if bit d3 59 then modAt dw 0 (rebaseRef l · 63) else dw
  let b := if bit d3 60 then modAt a 1 (rebaseRef l · 63) else a
  if bits (dw.getD 4 0).toNat 63 62 ≠ 0 then modAt b 4 (rebaseRef l · 61) else b

/-- The engine number that CHAPP and CHCTL name (R320). -/
def engineNo (k : BitVec 2) (i : BitVec 6) : Nat := if k = 1 then linkEng else i.toNat

/-- An instruction that names an engine which the partition lacks: in an image that no loader has checked (R68, R320). -/
def noEngine (i : Instr) (n : State → Elem → Bool) (f : State → Out) (s : State) : Out :=
  match gate s i with
  | .go x _ => if n s x then f s else .next (s.raise s.cur tcIllegal 0x06 0 0)
  | _ => f s

/-- CHAPP (R324). -/
def execChapp (p : Pm) (k : BitVec 2) (i : BitVec 6) (a : Tgt) (s : State) : Out :=
  noEngine (.chapp p k i a) (fun t x => (t.part x.l.n).hasEng (engineNo k i))
    (memIssueIf (fun t x => decide (((t.part x.l.n).eng (engineNo k i)).append.length < Config.appendEntries))
      (.chapp p k i a) (planChk planEntry)) s

/-- CHAPP performed: as a FENCEX.dev from EP to the engine's path; then the entry is copied, rebased and appended (R324). -/
def doChapp (g : Nat) (e n : Nat) (a : Access) (s : State) : XRes (Token × Nat) :=
  match s.elem? e with
  | none => .wait .no s
  | some x =>
    let t := s.fenceX n (pageOf e) .ep (if g = linkEng then .lk else .ce) .dev
    (readEntry e n a t).bind fun dw u =>
      if Config.appendEntries ≤ ((u.part n).eng g).append.length then .wait .no u
      else match u.launch? x.l with
        | none => .wait .no u
        | some l =>
          let (q, v) := u.engAppend n g (rebase l dw)
          .ok (dataTok (lane0 q) none, 0) v

/-- The sequence number of an engine class and index (R325). -/
def State.seqOf (s : State) (n : Nat) (k : BitVec 2) (i : BitVec 6) : Word :=
  match k.toNat with
  | 0 => ((s.part n).eng i.toNat).seq
  | 1 => ((s.part n).eng linkEng).seq
  | 2 => (s.part n).qseq.getD i.toNat 0
  | _ => (s.part n).gs.seq

/-- Whether the engine of a class has stopped, and the code of the failure (R325). -/
def State.stopOf (s : State) (n : Nat) (k : BitVec 2) (i : BitVec 6) : Option Nat :=
  match k.toNat with
  | 2 => none
  | 3 => if (s.part n).gs.stop then
      some ((((s.part n).gs.tasks.find? fun t => t.stopped && t.src.isNone).map fun t => bits (t.dw.getD 7 0).toNat 63 56).getD 0) else none
  | _ =>
    let e := (s.part n).eng (engineNo k i)
    if e.stop then some ((e.failedEntry.map (·.code)).getD 0) else none

/-- Whether the partition has the engine that CHSEQ or CHWT names. -/
def State.engineIn (s : State) (n : Nat) (k : BitVec 2) (i : BitVec 6) : Bool :=
  k != 0 || (s.part n).hasEng i.toNat

/-- CHSEQ (R325). -/
def execChseq (p : Pm) (k : BitVec 2) (i : BitVec 6) (a : Tgt) (s : State) : Out :=
  noEngine (.chseq p k i a) (fun t x => t.engineIn x.l.n k i) (runS (.chseq p k i a) (fun c x r st =>
    st.finish c x 1 (toAll (.chseq p k i a) (dataTok (lane0 (st.seqOf x.l.n k i).toNat) r.tag)))) s

/-- CHWT (R325). -/
def execChwt (p : Pm) (k : BitVec 2) (i : BitVec 6) (a : Tgt) (s : State) : Out :=
  noEngine (.chwt p k i a) (fun t x => t.engineIn x.l.n k i) (runS (.chwt p k i a) (fun c x r st =>
    let q := st.seqOf x.l.n k i
    if (q - lane r.l.data 0).toNat < 2 ^ 31 then
      st.finish c x 1 (toAll (.chwt p k i a) (dataTok (lane0 q.toNat) r.tag))
    else match st.stopOf x.l.n k i with
      | some code => .next (st.raise c tcChain code 0 0)
      | none => .next st)) s

/-- CHCTL: acts, then emits ENSTAT (R326). -/
def execChctl (p : Pm) (k : BitVec 2) (i : BitVec 6) (x : BitVec 2) (a : Tgt) (s : State) : Out :=
  noEngine (.chctl p k i x a) (fun t y => (t.part y.l.n).hasEng (engineNo k i)) (runS (.chctl p k i x a) (fun c y r st =>
    let t := st.engCtl y.l.n (engineNo k i) x.toNat
    t.finish c ((t.elem? c.e).getD y) 1
      (toAll (.chctl p k i x a) (dataTok (lane0 ((t.part y.l.n).eng (engineNo k i)).stat) r.tag)))) s

/-- TDISP (R327). -/
def execTdisp (p : Pm) (a : Tgt) (s : State) : Out :=
  memIssueIf (fun t x => decide ((t.part x.l.n).gs.append.length < Config.appendEntries)) (.tdisp p a) (planChk planEntry) s

/-- TDISP performed: after its release the descriptor goes to the graph sequencer's device buffer (R327). -/
def doTdisp (e n : Nat) (a : Access) (s : State) : XRes (Token × Nat) :=
  (readEntry e n a (s.accRelease n (pageOf e) a)).bind fun dw t =>
    let g := (t.part n).gs
    if Config.appendEntries ≤ g.append.length then .wait .no t
    else
      let q := (g.given + 1) % 2 ^ 32
      let dw' := setAt dw 7 (BitVec.ofNat 64 (putBits (dw.getD 7 0).toNat 31 0 q))
      match t.elem? e with
      | none => .wait .no t
      | some x =>
        .ok (dataTok (lane0 q) none, 0) (t.modPart n fun p =>
          { p with gs := { p.gs with given := q, append := p.gs.append ++ [(dw', ⟨x.l, e, a.no, a.epi, a.slot⟩)] } })

end Sys2Proof.Machine
end

