-- ==== Sys2Proof/Machine/Contexts.lean ====
section
/-! DEFINITION. The context, timetable and launch instructions, opcodes 0xD0 to 0xD5 (R208, R209, R231 to R235). -/

namespace Sys2Proof.Machine

/-- PHEND: contributes a bit, ORed with those that firings still in flight have contributed before; the element starts no further firing in
its context (R22, R232). -/
def execPhend (p : Pm) (a : Tgt) (s : State) : Out :=
  run (.phend p a) (fun c x r =>
    if c.epi then .trap tcIllegal 0x09 0 0
    else .issue { x with phend := some (x.phend.getD false || r.l.truth) } 1 (toAll (.phend p a) (doneTok r.tag))) s

/-- The items of CTXQ (R233). -/
def ctxItem (x : Elem) (i : Nat) : List Nat :=
  match i with
  | 0 => [x.ctx, x.set]
  | 1 => [x.phases]
  | 2 => [b2n x.pred]
  | _ => [x.waves]

/-- CTXQ (R233). -/
def execCtxq (p : Pm) (i : BitVec 2) (a : Tgt) (s : State) : Out :=
  run (.ctxq p i a) (fun _ x r => .issue x 1 (toAll (.ctxq p i a) (dataTok (ofEls 32 (ctxItem x i.toNat)) r.tag))) s

/-- Whether a rate change is decided and not applied (R203, R208). -/
def Launch.pend (l : Launch) : Bool := l.islands.any fun i => i.dp != 0

/-- RATEQ's flags (R208). -/
def Launch.flags (l : Launch) : Nat :=
  b2n l.pend + 2 * b2n l.fMcap + 4 * b2n l.fPcap + 8 * b2n l.fDyad + 16 * b2n l.fLim + 32 * b2n l.fShort

/-- The items of RATEQ (R208). -/
def rateItem (l : Launch) (i : Island) (k : Nat) : List Nat :=
  match k with
  | 0 => [i.p, i.q]
  | 1 => [i.dp, i.dq]
  | 2 => [l.hyper]
  | 3 => [i.mv]
  | 4 => [l.resolves]
  | 5 => [l.flags]
  | _ => [l.rateN, l.rateC]

/-- RATEQ (R208, R209). An item that no loader has checked stops it (log 14). -/
def execRateq (p : Pm) (k : BitVec 4) (a : Tgt) (s : State) : Out :=
  runS (.rateq p k a) (fun c x r st =>
    match st.launch? x.l with
    | none => .next st
    | some l =>
      match l.islandOf x with
      | none => .next st
      | some i =>
        if 6 < k.toNat then .next (st.raise c tcIllegal 0x06 0 0)
        else st.finish c x 2 (toAll (.rateq p k a) (dataTok (ofEls 32 (rateItem l i k.toNat)) r.tag))) s

/-- An instruction that names a region of its own launch; one that names none stops (log 14). -/
def onRegion (i : Instr) (n : Nat) (f : Cursor → Elem → Args → RegionRef → Region → State → Out) (s : State) : Out :=
  runS i (fun c x r st =>
    match st.region? ⟨x.l, n⟩ with
    | none => .next (st.raise c tcIllegal 0x06 0 0)
    | some g => f c x r ⟨x.l, n⟩ g st) s

/-- SARM: adds to a section's tile count, saturating; emits the count (R230, R234). -/
def execSarm (p : Pm) (n : BitVec 6) (a : Tgt) (s : State) : Out :=
  onRegion (.sarm p n a) n.toNat (fun c x r ref g st =>
    let v := min (g.tiles + elAt 32 r.l.data 0) (2 ^ 32 - 1)
    (st.modRegion ref fun h => { h with tiles := v }).finish c x 2 (toAll (.sarm p n a) (dataTok (lane0 v) r.tag))) s

/-- SWAIT: once the count is 0 it emits the tiles admitted since launch (R234). -/
def execSwait (p : Pm) (n : BitVec 6) (a : Tgt) (s : State) : Out :=
  onRegion (.swait p n a) n.toNat (fun c x r _ g st =>
    if g.tiles ≠ 0 then .next st
    else st.finish c x 1 (toAll (.swait p n a) (dataTok (lane0 g.admitted) r.tag))) s

/-- The QSEQ value that queue `q` will hold when an entry appended now completes: the place of that entry among the queue's
entries (R235). -/
def Part.placeIn (p : Part) (q : Nat) : Nat := (p.taken.getD q 0 + (p.append.filter (·.2 == q)).length + 1) % 2 ^ 32

/-- LAUNCH performed: release at .dev, copy, QUEUE set to q, append (R235). -/
def doLaunch (q : Nat) (e n : Nat) (a : Access) (s : State) : XRes (Token × Nat) :=
  (readEntry e n a (s.accRelease n (pageOf e) a)).bind fun dw t =>
    if Config.appendEntries ≤ (t.part n).append.length then .wait .no t
    else
      let dw' := modAt dw 3 fun d => BitVec.ofNat 64 (putBits d.toNat 60 58 q)
      .ok (dataTok (lane0 ((t.part n).placeIn q)) none, 0) (t.modPart n fun p => { p with append := p.append ++ [(dw', q)] })

/-- LAUNCH (R235): not ready while the partition's append buffer is full. -/
def execLaunch (p : Pm) (q : BitVec 3) (a : Tgt) (s : State) : Out :=
  memIssueIf (fun st x => decide ((st.part x.l.n).append.length < Config.appendEntries)) (.launch p q a)
    (planChk planEntry) s

end Sys2Proof.Machine
end

