-- ==== Sys2Proof/Machine/System.lean ====
section
/-! DEFINITION. The system instructions, opcodes 0xE0 to 0xE8 (R344 to R347, R430, R431, R455, R456), and the energy meters
(R217, R430, R439). -/

namespace Sys2Proof.Machine

/-! ### Meters -/

/-- The µJ that the meter of page `k` counts in master cycle `c`: whole ones of what the page uses then and what it had over (R430). -/
def Page.pulses (p : Page) (k c : Nat) : Nat := (p.rest + Config.pageEnergy k c) / Config.picoPerMicro

/-- A page after master cycle `c`: its energy since launch (R439), and its current heat, the mean power of the last 2^20 cycles in 1/16 W, at most
255 (R217). What it uses in a cycle is open (R429; log 10). -/
def Page.meter (p : Page) (k c : Nat) : Page :=
  let w := p.window + Config.pageEnergy k c - (if Config.heatSpan < c then Config.pageEnergy k (c - Config.heatSpan) else 0)
  { p with
    energy := BitVec.ofNat 48 (min (p.energy.toNat + p.pulses k c) (2 ^ 48 - 1))
    rest := (p.rest + Config.pageEnergy k c) % Config.picoPerMicro
    window := w
    heat := BitVec.ofNat 8 (min (w / Config.heatUnit) 255) }

/-- A partition after master cycle `c`: what the meters of its pages count is its energy of this period and in all (R430). -/
def Part.meter (p : Part) (page : Nat → Page) (c : Nat) : Part :=
  if !p.enable then p
  else
    let v := (p.pageList.map fun k => (page k).pulses k c).sum
    { p with eqspent := p.eqspent + BitVec.ofNat 64 v, eqtotal := p.eqtotal + BitVec.ofNat 64 v }

/-! ### The instructions -/

/-- TRAP: raises a class from 1 to 11; DETAIL is lane 0 of L (R344). -/
def execTrap (p : Pm) (k : BitVec 4) (a : Tgt) (s : State) : Out :=
  run (.trap p k a) (fun _ _ r =>
    if 1 ≤ k.toNat ∧ k.toNat ≤ 11 then .trap k.toNat 0 0 (BitVec.ofNat 64 (elAt 32 r.l.data 0))
    else .trap tcIllegal 0x06 0 0) s

/-- BRK: raises the breakpoint; DETAIL is n. A slot that the host has resumed completes (R329, R334, R344). -/
def execBrk (p : Pm) (n : BitVec 8) (a : Tgt) (s : State) : Out :=
  run (.brk p n a) (fun c x r =>
    if x.brkPass = some (c.no, c.epi, c.slot) then .issue { x with brkPass := none } 1 (toAll (.brk p n a) (doneTok r.tag))
    else .trap tcBreak 0 0 (BitVec.ofNat 64 n.toNat)) s

/-- CSRs (R345). -/
def csrEpoch : Nat := 0x00
def csrReplay : Nat := 0x01
def csrFpstat : Nat := 0x10
def csrElpart : Nat := 0x11

/-- CSRR (R98, R344, R345). -/
def execCsrr (p : Pm) (k : BitVec 8) (a : Tgt) (s : State) : Out :=
  runS (.csrr p k a) (fun c x r st =>
    let out (v : Nat) : Out := st.finish c x 1 (toAll (.csrr p k a) (dataTok (lane0 v) r.tag))
    if k.toNat = csrEpoch then out (((st.region? x.rref).map (·.epoch)).getD 0)
    else if k.toNat = csrReplay then out (b2n x.replayUpTo.isSome)
    else if k.toNat = csrFpstat then out x.fpstat.toNat
    else if k.toNat = csrElpart then out x.elpart.toNat
    else .next (st.raise c tcIllegal 0x06 0 0)) s

/-- CSRW (R98, R344, R345). -/
def execCsrw (p : Pm) (k : BitVec 8) (a : Tgt) (s : State) : Out :=
  run (.csrw p k a) (fun _ x r =>
    if k.toNat = csrFpstat then .issue (x.setFpstat (lane r.l.data 0)) 1 (toAll (.csrw p k a) (doneTok r.tag))
    else .trap tcIllegal 0x06 0 0) s

/-- NODEID (R344). -/
def execNodeid (p : Pm) (a : Tgt) (s : State) : Out :=
  run (.nodeid p a) (fun c x r =>
    .issue x 1 (toAll (.nodeid p a)
      (dataTok (ofEls 32 [(nodeOf x c.epi c.slot).toNat, x.reg % 64 * 2 ^ 12 + x.col % 64 * 2 ^ 6 + x.row % 64, x.ctx]) r.tag))) s

/-- FCNT (R344, R346). -/
def execFcnt (p : Pm) (i : BitVec 2) (a : Tgt) (s : State) : Out :=
  run (.fcnt p i a) (fun _ x r =>
    let out (v : Nat) : Act := .issue x 1 (toAll (.fcnt p i a) (dataTok (scalar64 v) r.tag))
    match i.toNat with
    | 0 => out x.started
    | 1 => out x.done
    | 2 => out x.icyc
    | _ => .trap tcIllegal 0x06 0 0) s

/-- The items of EQRD (R431). -/
def eqItem (p : Part) (iter : Nat) (k : Nat) : Nat :=
  match k with
  | 0 => p.equota.toNat
  | 1 => p.eqspent.toNat
  | 2 => p.eqdebt.toNat
  | 3 => p.eqtotal.toNat
  | _ => iter

/-- EQRD (R430, R431). -/
def execEqrd (p : Pm) (i : BitVec 3) (a : Tgt) (s : State) : Out :=
  runS (.eqrd p i a) (fun c x r st =>
    if 4 < i.toNat then .next (st.raise c tcIllegal 0x06 0 0)
    else
      let iter := ((st.launch? x.l).map (·.iter)).getD 0
      st.finish c x 1 (toAll (.eqrd p i a) (dataTok (scalar64 (eqItem (st.part x.l.n) iter i.toNat)) r.tag))) s

/-- Valid and pinned lines of a slice (R439). -/
def Page.validLines (p : Page) : Nat := (p.lines.filter fun l => l.st != .stale).length
def Page.pinnedLines (p : Page) : Nat := (p.lines.filter fun l => decide (0 < l.pins)).length

/-- An element with its counters, and those of its page's slice, kept as they stand (R456). -/
def Elem.note (x : Elem) (p : Page) : Elem := { x with seen := ⟨x.cur.stall, x.cur.occ, p.validLines, p.pinnedLines⟩ }

/-- The items of OBSR (R455), as they stood as the cycle began (R456): the meter of a page counts between the master cycles, the digest changes by a
policy load alone. -/
def obsItem (s : State) (e : Nat) (x : Elem) (i : Nat) (d : Bool) (n : Nat) : Payload :=
  match i with
  | 0 => scalar64 (x.seen.stall.getD (8 * b2n d + n) 0).toNat
  | 1 => scalar64 x.seen.occ.toNat
  | 2 => ofEls 32 [x.seen.valid, x.seen.pinned]
  | 3 => scalar64 (s.page (pageOf e)).energy.toNat
  | _ => scalar64 (ofBytes (((s.part x.l.n).pldig.drop (8 * n)).take 8))

/-- OBSR (R455, R456). -/
def execObsr (p : Pm) (i : BitVec 3) (d : Bool) (n : BitVec 3) (a : Tgt) (s : State) : Out :=
  runS (.obsr p i d n a) (fun c x r st =>
    if 4 < i.toNat then .next (st.raise c tcIllegal 0x06 0 0)
    else
      st.finish c x 1 (toAll (.obsr p i d n a) (dataTok (obsItem st c.e x i.toNat d n.toNat) r.tag))) s

/-- HALTR: ends the launch (R347). -/
def execHaltr (p : Pm) (a : Tgt) (s : State) : Out :=
  runS (.haltr p a) (fun c x r st =>
    (st.modLaunch x.l fun l => { l with halting := true }).finish c x 1 (toAll (.haltr p a) (doneTok r.tag))) s

end Sys2Proof.Machine
end

