-- ==== Sys2Proof/Machine/Lanes.lean ====
section
/-! DEFINITION. Floating-point instructions, opcodes 0x40 to 0x4F, and DOT (R130 to R140, R155). -/

namespace Sys2Proof.Machine

/-- Elements of a float instruction (R134). -/
def floatEls (sh : Shape) (f : FFmt) : Nat :=
  match sh with
  | .s => 1
  | _ => 512 / Fmt.width (FFmt.fmt f)

/-- Element-wise results with the flags of all of them joined (R132). -/
def mapFlags (w n : Nat) (g : Nat → Rounded) : Payload × Nat :=
  let rs := (List.range n).map g
  (ofEls w (rs.map (·.1)), rs.foldl (fun fl r => fl ||| r.2) 0)

/-- A float instruction on the elements of L, R and T. -/
def floatOp (i : Instr) (sh : Shape) (f : FFmt) (lat : Nat) (g : Fmt → Nat → Nat → Nat → Rounded) (s : State) : Out :=
  compute i lat (fun a =>
    let w := Fmt.width (FFmt.fmt f)
    mapFlags w (floatEls sh f) fun j =>
      g (FFmt.fmt f) (elAt w a.l.data j) (elAt w a.r.data j) (elAt w a.t.data j)) s

/-- FADD (R135). -/
def execFadd (p : Pm) (sh : Shape) (f : FFmt) (a b : Tgt) (s : State) : Out :=
  floatOp (.fadd p sh f a b) sh f 4 (fun f x y _ => faddE f x y) s

/-- FSUB (R135). -/
def execFsub (p : Pm) (sh : Shape) (f : FFmt) (a b : Tgt) (s : State) : Out :=
  floatOp (.fsub p sh f a b) sh f 4 (fun f x y _ => fsubE f x y) s

/-- FMUL (R135). -/
def execFmul (p : Pm) (sh : Shape) (f : FFmt) (a b : Tgt) (s : State) : Out :=
  floatOp (.fmul p sh f a b) sh f 4 (fun f x y _ => fmulE f x y) s

/-- FMA (R135). -/
def execFma (p : Pm) (sh : Shape) (f : FFmt) (a b : Tgt) (s : State) : Out :=
  floatOp (.fma p sh f a b) sh f 4 (fmaE) s

/-- FMIN (R137). -/
def execFmin (p : Pm) (sh : Shape) (f : FFmt) (a b : Tgt) (s : State) : Out :=
  floatOp (.fmin p sh f a b) sh f 1 (fun f x y _ => (fminE f x y, 0)) s

/-- FMAX (R137). -/
def execFmax (p : Pm) (sh : Shape) (f : FFmt) (a b : Tgt) (s : State) : Out :=
  floatOp (.fmax p sh f a b) sh f 1 (fun f x y _ => (fmaxE f x y, 0)) s

/-- FABS (R138). -/
def execFabs (p : Pm) (sh : Shape) (f : FFmt) (a b : Tgt) (s : State) : Out :=
  floatOp (.fabs p sh f a b) sh f 1 (fun f x _ _ => (fabsE f x, 0)) s

/-- FNEG (R138). -/
def execFneg (p : Pm) (sh : Shape) (f : FFmt) (a b : Tgt) (s : State) : Out :=
  floatOp (.fneg p sh f a b) sh f 1 (fun f x _ _ => (fnegE f x, 0)) s

/-- FCMP (R139). -/
def execFcmp (p : Pm) (sh : Shape) (f : FFmt) (a b : Tgt) (s : State) : Out :=
  floatOp (.fcmp p sh f a b) sh f 1 (fun f x y _ => fcmpE f x y) s

/-- FCLASS (R140). -/
def execFclass (p : Pm) (sh : Shape) (f : FFmt) (a b : Tgt) (s : State) : Out :=
  floatOp (.fclass p sh f a b) sh f 1 (fun f x _ _ => (fclassE f x, 0)) s

/-- FRCP (R136). -/
def execFrcp (p : Pm) (sh : Shape) (f : FFmt) (a b : Tgt) (s : State) : Out :=
  floatOp (.frcp p sh f a b) sh f 8 (fun f x _ _ => frcpE f x) s

/-- FRSQ (R136). -/
def execFrsq (p : Pm) (sh : Shape) (f : FFmt) (a b : Tgt) (s : State) : Out :=
  floatOp (.frsq p sh f a b) sh f 8 (fun f x _ _ => frsqE f x) s

/-- FEXP2 (R136). -/
def execFexp2 (p : Pm) (sh : Shape) (f : FFmt) (a b : Tgt) (s : State) : Out :=
  floatOp (.fexp2 p sh f a b) sh f 8 (fun f x _ _ => fexp2E Config.functionTie f x) s

/-- FLOG2 (R136). -/
def execFlog2 (p : Pm) (sh : Shape) (f : FFmt) (a b : Tgt) (s : State) : Out :=
  floatOp (.flog2 p sh f a b) sh f 8 (fun f x _ _ => flog2E Config.functionTie f x) s

/-- FSQRT (R135). -/
def execFsqrt (p : Pm) (sh : Shape) (f : FFmt) (a b : Tgt) (s : State) : Out :=
  floatOp (.fsqrt p sh f a b) sh f 12 (fun f x _ _ => fsqrtE f x) s

/-- FDIV (R135). -/
def execFdiv (p : Pm) (sh : Shape) (f : FFmt) (a b : Tgt) (s : State) : Out :=
  floatOp (.fdiv p sh f a b) sh f 12 (fun f x y _ => fdivE f x y) s

/-- The exact dot product with an FP32 addend, rounded once (R95, R155). -/
def dotE (f : Fmt) (n : Nat) (a b : Payload) (c : Nat) : Rounded :=
  let w := Fmt.width f
  let ps := (List.range n).map fun j => mulVal (decVal f (elAt w a j)) (decVal f (elAt w b j))
  if ps.any (fun q => q.2 != 0) then (Fmt.nanCode .fp32, fNV)
  else finishF .fp32 (dotSum (decVal .fp32 c :: ps.map (·.1)))

/-- DOT (R155). -/
def execDot (p : Pm) (sh : Shape) (f : FFmt) (a b : Tgt) (s : State) : Out :=
  compute (.dot p sh f a b) 8 (fun r =>
    let (x, fl) := dotE (FFmt.fmt f) (floatEls sh f) r.l.data r.r.data (elAt 32 r.t.data 0)
    (lane0 x, fl)) s

end Sys2Proof.Machine
end

