-- ==== Sys2Proof/Machine/Convert.lean ====
section
/-! DEFINITION. Conversions, packing, lane movement, reductions, selection and compaction, opcodes 0x50 to 0x60 (R141 to
R154). -/

namespace Sys2Proof.Machine

/-! ### Conversions -/

/-- CVT on one element (R82, R85 to R89, R142). -/
def cvtE (f t : Fmt) (sat : Bool) (m : Rm) (x : Nat) : Rounded :=
  let intT := t = .int8 ∨ t = .int16 ∨ t = .int32
  let intF := f = .int8 ∨ f = .int16 ∨ f = .int32
  if intF ∧ intT then
    let v := sgn (Fmt.width f) x
    let w := Fmt.width t
    if sat then
      (if v < intLo false w then (wrap w (intLo false w), fST)
       else if intHi false w < v then (wrap w (intHi false w), fST) else (wrap w v, 0))
    else (wrap w v, 0)
  else roundVal t m sat (decVal f x)

/-- The elements of a conversion: part `k` of the wide-count side takes part (R141). -/
def convEls (ws wt k : Nat) (a : Payload) (g : Nat → Rounded) : Payload × Nat :=
  let n := 512 / max ws wt
  let from_ := if ws < wt then k * n else 0
  let to_ := if wt < ws then k * n else 0
  let rs := (List.range n).map fun j => g (elAt ws a (from_ + j))
  (ofEls wt (List.replicate to_ 0 ++ rs.map (·.1)), rs.foldl (fun fl r => fl ||| r.2) 0)

/-- CVT (R142). -/
def execCvt (p : Pm) (f t : Fmt) (k : BitVec 2) (x : Bool) (m : Rm) (a : Tgt) (s : State) : Out :=
  compute (.cvt p f t k x m a) 3 (fun r =>
    convEls (Fmt.width f) (Fmt.width t) k.toNat r.l.data (cvtE f t x m)) s

/-- A value times a power of two, exactly. -/
def scaleVal (v : Val) (k : Int) : Val :=
  match v with
  | .fin s m e => .fin s m (e + k)
  | v => v

/-- CVTI on one element (R143). -/
def cvtiE (f : Fmt) (fb : Nat) (u : Bool) (m : Rm) (x : Nat) : Rounded :=
  let (i, fl) := roundInt m (intLo u 32) (intHi u 32) (scaleVal (decVal f x) fb)
  (wrap 32 i, fl)

/-- CVTI (R143). -/
def execCvti (p : Pm) (t : Fmt) (f : BitVec 4) (k : BitVec 2) (u : Bool) (m : Rm) (a : Tgt) (s : State) : Out :=
  compute (.cvti p t f k u m a) 3 (fun r =>
    convEls (Fmt.width t) 32 k.toNat r.l.data (cvtiE t f.toNat u m)) s

/-- CVTF on one element (R143): it rounds by its mode and saturates by its bit also to the formats for which R88 has every instruction but
CVT round to nearest and saturate (DESIGN CHOICE, log 94). -/
def cvtfE (t : Fmt) (fb : Nat) (sat u : Bool) (m : Rm) (x : Nat) : Rounded :=
  roundVal t m sat (scaleVal (valOfInt (rd u 32 x)) (-(fb : Int)))

/-- CVTF (R143). -/
def execCvtf (p : Pm) (t : Fmt) (f : BitVec 4) (x u : Bool) (m : Rm) (a : Tgt) (s : State) : Out :=
  compute (.cvtf p t f x u m a) 3 (fun r =>
    mapFlags (Fmt.width t) 16 fun j => cvtfE t f.toNat x u m (elAt 32 r.l.data j)) s

/-- SCALE (R144). -/
def execScale (p : Pm) (f : Fmt) (a : Tgt) (s : State) : Out :=
  compute (.scale p f a) 3 (fun r =>
    let w := Fmt.width f
    mapFlags w (512 / w) fun j => scaleE f (elAt w r.l.data j) (sgn w (elAt w r.r.data j))) s

/-! ### Packing -/

/-- The wider width of PACK and UNPACK (R145). -/
def packWide (h : BitVec 2) : Nat :=
  match h.toNat with
  | 0 => 32
  | 1 => 16
  | _ => 64

/-- PACK on one element: the low half, or a clamped value and whether it was clamped (R145). -/
def packE (w : Nat) (sat u : Bool) (x : Nat) : Nat × Bool :=
  let v := rd u w x
  let n := w / 2
  if !sat then (x % 2 ^ n, false)
  else if v < intLo u n then (wrap n (intLo u n), true)
  else if intHi u n < v then (wrap n (intHi u n), true)
  else (wrap n v, false)

/-- PACK (R145). -/
def execPack (p : Pm) (h : BitVec 2) (o u : Bool) (a b : Tgt) (s : State) : Out :=
  compute (.pack p h o u a b) 1 (fun r =>
    let w := packWide h
    let es := (elsOf w (512 / w) r.l.data ++ elsOf w (512 / w) r.r.data).map (packE w o u)
    (ofEls (w / 2) (es.map (·.1)), if es.any (·.2) then fST else 0)) s

/-- The widened elements of one half of a payload (R145). -/
def unpackHalf (w : Nat) (u hi : Bool) (d : Payload) : Payload :=
  let n := 512 / w
  ofEls w ((List.range n).map fun j => wrap w (rd u (w / 2) (elAt (w / 2) d (if hi then n + j else j))))

/-- UNPACK: the low half to ta and the high half to tb (R145). -/
def execUnpack (p : Pm) (h : BitVec 2) (u : Bool) (a b : Tgt) (s : State) : Out :=
  run (.unpack p h u a b) (fun _ x r =>
    .issue x 1 [(0, a, dataTok (unpackHalf (packWide h) u false r.l.data) r.tag),
      (1, b, dataTok (unpackHalf (packWide h) u true r.l.data) r.tag)]) s

/-! ### Moving lanes -/

/-- BCAST (R146). -/
def execBcast (p : Pm) (w : BitVec 2) (i : BitVec 6) (a : Tgt) (s : State) : Out :=
  compute (.bcast p w i a) 1 (fun r =>
    let n := 32 / 2 ^ w.toNat
    (ofEls n (List.replicate (512 / n) (elAt n r.l.data i.toNat)), 0)) s

/-- SHUF on one element (R147). -/
def shufE (h : Bool) (d : Payload) (c : Nat) : Nat :=
  if h then (if bit c 15 then 0 else elAt 16 d (c % 32)) else (if bit c 31 then 0 else elAt 32 d (c % 16))

/-- SHUF (R147). -/
def execShuf (p : Pm) (h : Bool) (a b : Tgt) (s : State) : Out :=
  compute (.shuf p h a b) 1 (fun r =>
    let w := if h then 16 else 32
    (ofEls w ((elsOf w (512 / w) r.r.data).map (shufE h r.l.data)), 0)) s

/-- The lane that ROT brings to lane `i`, if any (R148). -/
def rotFrom (d f : Bool) (n i : Nat) : Option Nat :=
  if d then (if f && 16 ≤ i + n then none else some ((i + n) % 16))
  else if f && i < n then none else some ((i + 16 - n) % 16)

/-- ROT (R148). -/
def execRot (p : Pm) (d f : Bool) (n : BitVec 4) (a : Tgt) (s : State) : Out :=
  compute (.rot p d f n a) 1 (fun r =>
    (ofEls 32 ((List.range 16).map fun i =>
      match rotFrom d f n.toNat i with
      | some j => elAt 32 r.l.data j
      | none => 0), 0)) s

/-! ### Reductions and scans -/

/-- The operations of RED and SCAN (R149). -/
def redOp (o : RedOp) (x y : Nat) : Rounded :=
  match o with
  | .add => ((x + y) % 2 ^ 32, 0)
  | .fadd => faddE .fp32 x y
  | .min => (minE false 32 x y, 0)
  | .max => (maxE false 32 x y, 0)
  | .minu => (Nat.min x y, 0)
  | .maxu => (Nat.max x y, 0)
  | .fmin => (fminE .fp32 x y, 0)
  | .fmax => (fmaxE .fp32 x y, 0)
  | .and => (x &&& y, 0)
  | .or => (x ||| y, 0)
  | .xor => (x ^^^ y, 0)

/-- The identities of R149. -/
def redId : RedOp → Nat
  | .add | .maxu | .or | .xor => 0
  | .fadd => 0x80000000
  | .min => 0x7FFFFFFF
  | .max => 0x80000000
  | .minu | .and => 0xFFFFFFFF
  | .fmin => 0x7F800000
  | .fmax => 0xFF800000

/-- One step of the pairwise tree: neighbours combine, the lower lane at the left (R150). -/
def redPairs (o : RedOp) : List Nat → List Nat × Nat
  | x :: y :: r =>
    let (v, fl) := redOp o x y
    let (vs, fl') := redPairs o r
    (v :: vs, fl ||| fl')
  | xs => (xs, 0)

/-- The tree over a group of 2^k lanes (R150). -/
def redTree (o : RedOp) : Nat → List Nat → Nat × Nat
  | 0, xs => (xs.headD 0, 0)
  | k + 1, xs =>
    let (ys, fl) := redPairs o xs
    let (v, fl') := redTree o k ys
    (v, fl ||| fl')

/-- RED over groups of 2^k lanes (R150). -/
def redAll (o : RedOp) (k : Nat) (xs : List Nat) : List Nat × Nat :=
  let gs := (List.range (16 / 2 ^ k)).map fun g => redTree o k ((xs.drop (g * 2 ^ k)).take (2 ^ k))
  (gs.flatMap fun r => List.replicate (2 ^ k) r.1, gs.foldl (fun fl r => fl ||| r.2) 0)

/-- RED (R150). -/
def execRed (p : Pm) (o : RedOp) (g : BitVec 2) (a : Tgt) (s : State) : Out :=
  compute (.red p o g a) 6 (fun r =>
    let (xs, fl) := redAll o (4 - g.toNat) (elsOf 32 16 r.l.data)
    (ofEls 32 xs, fl)) s

/-- The serial prefix of R151; combining with the identity raises no flag. -/
def scanGo (o : RedOp) (excl : Bool) : Bool → Nat → List Nat → List Nat × Nat
  | _, _, [] => ([], 0)
  | first, acc, x :: xs =>
    let (v, fl) := redOp o acc x
    let (ys, fl') := scanGo o excl false v xs
    ((if excl then acc else v) :: ys, (if first then 0 else fl) ||| fl')

/-- The lanes that an exclusive prefix combines: the last lane enters no result, but its step is made (R151). -/
def scanAll (o : RedOp) (excl : Bool) (xs : List Nat) : List Nat × Nat := scanGo o excl true (redId o) xs

/-- SCAN (R151). -/
def execScan (p : Pm) (o : RedOp) (e : Bool) (a : Tgt) (s : State) : Out :=
  compute (.scan p o e a) 6 (fun r =>
    let (xs, fl) := scanAll o e (elsOf 32 16 r.l.data)
    (ofEls 32 xs, fl)) s

/-! ### TOPK -/

/-- The rank of a lane for TOPK: NaNs after all others, then magnitude (R152). -/
def topkKey (f : Fmt) (x : Nat) : Bool × Nat :=
  if f = .int32 then (false, (sgn 32 x).natAbs)
  else ((decVal .fp32 x).isNan, x % 2 ^ 31)

/-- Whether lane candidate (i, x) is chosen before (j, y) (R152). -/
def topkBefore (f : Fmt) (p q : Nat × Nat) : Bool :=
  let (n, m) := topkKey f p.2
  let (n', m') := topkKey f q.2
  if n != n' then n'
  else if !n && m != m' then decide (m' < m)
  else decide (p.1 < q.1)

/-- A candidate put in its place. -/
def topkInsert (f : Fmt) (p : Nat × Nat) : List (Nat × Nat) → List (Nat × Nat)
  | [] => [p]
  | q :: r => if topkBefore f p q then p :: q :: r else q :: topkInsert f p r

/-- The candidates in selection order (R152). -/
def topkOrder (f : Fmt) (xs : List Nat) : List (Nat × Nat) :=
  (indexed 0 xs).foldr (topkInsert f) []

/-- TOPK (R152). -/
def execTopk (p : Pm) (f : Fmt) (k : BitVec 4) (x : Bool) (a : Tgt) (s : State) : Out :=
  compute (.topk p f k x a) 6 (fun r =>
    let n := k.toNat + 1
    let ch := (topkOrder f (elsOf 32 16 r.l.data)).take n
    let nan (q : Nat × Nat) : Bool := (topkKey f q.2).1
    let vals := ch.map fun q => if x then q.1 else if nan q then 0x7FC00000 else q.2
    (ofEls 32 (vals ++ List.replicate (16 - n) (if x then 0xFFFFFFFF else 0)),
      if ch.any nan then fTK else 0)) s

/-! ### Masks, compaction, expansion -/

/-- LMASK (R153). -/
def lmaskE (m : Nat) (d : Payload) : Nat :=
  let l0 := elAt 32 d 0
  match m with
  | 0 => packNat 1 ((elsOf 32 16 d).map fun x => b2n (x != 0))
  | 1 => packNat 1 ((elsOf 32 16 d).map fun x => b2n (bit x 31))
  | 2 => popCount 16 l0
  | _ => 2 ^ Nat.min (l0 % 32) 16 - 1

/-- LMASK (R153). -/
def execLmask (p : Pm) (m : BitVec 2) (a : Tgt) (s : State) : Out :=
  compute (.lmask p m a) 1 (fun r => (lane0 (lmaskE m.toNat r.l.data), 0)) s

/-- The elements whose mask bit is set, in order (R154). -/
def compactE (mask : Nat) (xs : List Nat) : List Nat :=
  ((indexed 0 xs).filter fun q => bit mask q.1).map (·.2)

/-- The low elements spread to the masked positions, from position `j` on (R154). -/
def expandE (mask : Nat) : Nat → Nat → List Nat → List Nat
  | 0, _, _ => []
  | n + 1, j, xs =>
    if bit mask j then xs.headD 0 :: expandE mask n (j + 1) xs.tail
    else 0 :: expandE mask n (j + 1) xs

/-- COMPACT: the data to ta and the count to tb (R154). -/
def execCompact (p : Pm) (h : Bool) (a b : Tgt) (s : State) : Out :=
  run (.compact p h a b) (fun _ x r =>
    let w := if h then 16 else 32
    let n := 512 / w
    let mask := elAt 32 r.r.data 0 % 2 ^ n
    .issue x 2 [(0, a, dataTok (ofEls w (compactE mask (elsOf w n r.l.data))) r.tag),
      (1, b, dataTok (lane0 (popCount n mask)) r.tag)]) s

/-- EXPAND: the data to ta and the count to tb (R154). -/
def execExpand (p : Pm) (h : Bool) (a b : Tgt) (s : State) : Out :=
  run (.expand p h a b) (fun _ x r =>
    let w := if h then 16 else 32
    let n := 512 / w
    let mask := elAt 32 r.r.data 0 % 2 ^ n
    .issue x 2 [(0, a, dataTok (ofEls w (expandE mask n 0 (elsOf w n r.l.data))) r.tag),
      (1, b, dataTok (lane0 (popCount n mask)) r.tag)]) s

end Sys2Proof.Machine
end

