-- ==== Sys2Proof/Machine/PatSet.lean ====
section
/-! DEFINITION. Pattern programs as sets of coordinates (R55, R56, R383 to R389): parsing, membership, inverses, inverse
tables, and the least member from a cursor on. -/

namespace Sys2Proof.Machine

/-- A pattern as an expression tree; a hashed pattern keeps the index of its word (R384, R386). -/
inductive Pat where
  | band (lo hi : Int)
  | dil (o : Int) (st n : Nat)
  | blkd (bh bw : Nat)
  | kron (qr qc : Nat) (p q : Pat)
  | hash (at_ m seed : Nat) (inv : Option Nat)
  | uni (p q : Pat)
  | int (p q : Pat)
  | lim (rb cb : Nat) (p : Pat)
  | perm (a b : Int) (p : Pat)
deriving DecidableEq, Repr

/-! ### Parsing (R384, R385) -/

/-- Whether the operands of a word are in range and its zero fields zero (R384). -/
def patOperandsOk (w : Nat) : Bool :=
  let hi := bits w 23 12
  let lo := bits w 11 0
  match w / 2 ^ 24 with
  | 0x01 => decide (sgn 12 hi ≤ sgn 12 lo)
  | 0x02 => bits w 15 8 != 0 && bits w 7 0 != 0
  | 0x03 | 0x04 => hi != 0 && lo != 0
  | 0x05 => bits w 23 16 != 0
  | 0x08 | 0x09 => true
  | 0x0A => bits w 23 1 == 0
  | _ => bits w 23 0 == 0

/-- One word on the stack of patterns (the last pushed first); a hashed pattern with a table is `patParse`'s. None is a breach. -/
def patWord (k w : Nat) (st : List Pat) : Option (List Pat) :=
  let hi := bits w 23 12
  let lo := bits w 11 0
  match w / 2 ^ 24, st with
  | 0x01, st => some (.band (sgn 12 hi) (sgn 12 lo) :: st)
  | 0x02, st => some (.dil (sgn 8 (bits w 23 16)) (bits w 15 8) (bits w 7 0) :: st)
  | 0x03, st => some (.blkd hi lo :: st)
  | 0x04, q :: p :: r => some (.kron hi lo p q :: r)
  | 0x05, st => some (.hash k (bits w 23 16) (bits w 15 1) none :: st)
  | 0x06, q :: p :: r => some (.uni p q :: r)
  | 0x07, q :: p :: r => some (.int p q :: r)
  | 0x08, p :: r => some (.lim hi lo p :: r)
  | 0x09, p :: r => some (.perm (sgn 12 hi) (sgn 12 lo) p :: r)
  | _, _ => none

/-- A program from word `k` on: the granularity and the pattern, or the index of the word at which a breach is found (R385). Words behind
PEND are a breach that is found at PEND (DEDUCED, log 97). -/
def patParse : List Nat → Nat → Bool → List Pat → Except Nat (Bool × Pat)
  | [], k, _, _ => .error k
  | w :: ws, k, g, st =>
    let code := w / 2 ^ 24
    if 32 ≤ k then .error k
    else if code = 0 ∨ 0x0B < code ∨ !patOperandsOk w then .error k
    else if code = 0x0A then (if k = 0 then patParse ws 1 (bit w 0) st else .error k)
    else if code = 0x0B then
      (match st, ws with
       | [p], [] => .ok (g, p)
       | _, _ => .error k)
    else if code = 0x05 ∧ bit w 0 then
      if 4 ≤ st.length then .error k else
      match ws with
      | [] => .error (k + 1)
      | raw :: ws' => if 32 ≤ k + 1 ∨ 65536 ≤ raw then .error (k + 1) else patParse ws' (k + 2) g (.hash k (bits w 23 16) (bits w 15 1) (some raw) :: st)
    else match patWord k w st with
      | some st' => if 4 < st'.length then .error k else patParse ws (k + 1) g st'
      | none => .error k

/-! ### Membership (R384, R387) -/

/-- The hash of R387 for a row and a draw. -/
def hashAt (seed r j : Nat) : Nat :=
  let m := 2 ^ 32
  let t0 := (r * 0x9E3779B1 + j * 0x85EBCA77 + seed * 0xC2B2AE3D) % m
  let t1 := (t0 ^^^ (t0 / 2 ^ 16)) * 0x2C1B3C6D % m
  t1 ^^^ (t1 / 2 ^ 13)

/-- Whether a column is a member of a row of a hashed pattern in a frame of `cf` columns. -/
def hashMem (m seed cf r c : Nat) : Bool := (List.range m).any fun j => hashAt seed r j % cf == c

/-- Whether (r, c) is a member of a pattern in a frame (R383, R384, R386). -/
def Pat.mem : Pat → Nat → Nat → Nat → Nat → Bool
  | p, rf, cf, r, c =>
    decide (r < rf) && decide (c < cf) && (match p with
      | .band lo hi => decide (lo ≤ (c : Int) - r) && decide ((c : Int) - r ≤ hi)
      | .dil o st n =>
        let d : Int := (c : Int) - r - o
        decide (0 ≤ d) && d % (st : Int) == 0 && decide (d / (st : Int) < n)
      | .blkd bh bw => r / bh == c / bw
      | .kron qr qc p q => p.mem (ceilDiv rf qr) (ceilDiv cf qc) (r / qr) (c / qc) && q.mem qr qc (r % qr) (c % qc)
      | .hash _ m seed _ => hashMem m seed cf r c
      | .uni p q => p.mem rf cf r c || q.mem rf cf r c
      | .int p q => p.mem rf cf r c && q.mem rf cf r c
      | .lim rb cb p => (rb == 0 || decide (r < 16 * rb)) && (cb == 0 || decide (c < 16 * cb)) && p.mem rf cf r c
      | .perm a b p => p.mem rf cf (((r : Int) - a) % (rf : Int)).toNat (((c : Int) - b) % (cf : Int)).toNat)

/-- Whether a pattern has an exact inverse enumeration (R55). -/
def Pat.invertible : Pat → Bool
  | .hash _ _ _ none => false
  | .kron _ _ p q | .uni p q | .int p q => p.invertible && q.invertible
  | .lim _ _ p => p.invertible
  | _ => true

/-- The index of the first hashed word without a table in a pattern, which is the first word of it that lacks an inverse (R55). -/
def Pat.firstBare : Pat → Option Nat
  | .hash k _ _ none => some k
  | .kron _ _ p q | .uni p q | .int p q =>
    match p.firstBare, q.firstBare with
    | some a, some b => some (min a b)
    | some a, none => some a
    | none, b => b
  | .lim _ _ p | .perm _ _ p => p.firstBare
  | _ => none

/-- The index of the first word that lacks an inverse, where the root lacks one; none where it has one (R389). -/
def Pat.noInverse (p : Pat) : Option Nat := if p.invertible then none else p.firstBare

/-! ### Inverse tables (R387) -/

/-- Word `i` of an inverse table, read as LD would read it. -/
def invWord (n page : Nat) (q : Req) (tid i : Nat) (s : State) : XRes Nat :=
  (s.object n q tid).bind fun o t =>
  (t.checked n q o (4 * i) 4 false).bind fun ps u =>
    if o.ver then .stop (.bounds 9) u
    else (u.placed n q ps false).bind fun pas v =>
      (v.readPieces n page o pas).bind fun bs w => .ok (ofBytes bs) w

/-- The non-invertible-pattern trap of a generator: program and word index (R389). -/
def nonInv (pidx tid k : Nat) : Stop := .trap tcNonInv 0 (pidx % 65536 * 65536 + k % 256) (tid * 2 ^ 48)

/-- Word 0 of every inverse table of a pattern holds the columns of its frame (R387). -/
def Pat.checkTables (n page pidx tid : Nat) (q : Req) : Pat → Nat → State → XRes Unit
  | .hash k _ _ (some t), cf, s =>
    (invWord n page q t 0 s).bind fun w u => if w = cf then .ok () u else .stop (nonInv pidx tid k) u
  | .kron _ qc a b, cf, s => (a.checkTables n page pidx tid q (ceilDiv cf qc) s).bind fun _ u => b.checkTables n page pidx tid q qc u
  | .uni a b, cf, s | .int a b, cf, s =>
    (a.checkTables n page pidx tid q cf s).bind fun _ u => b.checkTables n page pidx tid q cf u
  | .lim _ _ a, cf, s | .perm _ _ a, cf, s => a.checkTables n page pidx tid q cf s
  | _, _, s => .ok () s

/-- Whether a table lists a row for a column. Every row of the column is taken, in order, and checked as it is taken (R387, R388);
`prev` is the row before, and `found` says that the row sought has been met. -/
def rowScan (n page : Nat) (q : Req) (tid base : Nat) (ok : Nat → Bool) (stop : Stop) (row : Nat) :
    Nat → Nat → Option Nat → Bool → State → XRes Bool
  | 0, _, _, found, s => .ok found s
  | k + 1, i, prev, found, s =>
    (invWord n page q tid (base + i) s).bind fun r t =>
      if !ok r || (match prev with
        | some p => decide (r ≤ p)
        | none => false) then .stop stop t
      else rowScan n page q tid base ok stop row k (i + 1) (some r) (found || r == row) t

/-- Whether the inverse table of a hashed word lists a row for a column of its frame (R387). -/
def tableRow (n page pidx tid : Nat) (q : Req) (k m seed t cf r c : Nat) (s : State) : XRes Bool :=
  (invWord n page q t (1 + c) s).bind fun a u =>
  (invWord n page q t (2 + c) u).bind fun b v =>
  rowScan n page q t (cf + 2) (fun x => hashMem m seed cf x c) (nonInv pidx tid k) r (b - a) a none false v

/-- The rows that the tables of a pattern list for a column, taken and checked, whichever of them its operators need (R388). -/
def Pat.checkColumn (n page pidx tid : Nat) (q : Req) : Pat → Nat → Nat → State → XRes Unit
  | .hash k m seed (some t), cf, c, s => (tableRow n page pidx tid q k m seed t cf 0 c s).bind fun _ u => .ok () u
  | .kron _ qc a b, cf, c, s =>
    (a.checkColumn n page pidx tid q (ceilDiv cf qc) (c / qc) s).bind fun _ u => b.checkColumn n page pidx tid q qc (c % qc) u
  | .uni a b, cf, c, s | .int a b, cf, c, s =>
    (a.checkColumn n page pidx tid q cf c s).bind fun _ u => b.checkColumn n page pidx tid q cf c u
  | .lim _ _ a, cf, c, s => a.checkColumn n page pidx tid q cf c s
  | .perm _ y a, cf, c, s => a.checkColumn n page pidx tid q cf (((c : Int) - y) % (cf : Int)).toNat s
  | _, _, _, s => .ok () s

/-- Membership as a transposed enumeration sees it: a hashed word that has a table goes by the rows that the table lists (R386 to R388). -/
def Pat.memT (n page pidx tid : Nat) (q : Req) : Pat → Nat → Nat → Nat → Nat → State → XRes Bool
  | p, rf, cf, r, c, s =>
    if rf ≤ r ∨ cf ≤ c then .ok false s
    else match p with
    | .hash k m seed (some t) => tableRow n page pidx tid q k m seed t cf r c s
    | .kron qr qc a b =>
      (a.memT n page pidx tid q (ceilDiv rf qr) (ceilDiv cf qc) (r / qr) (c / qc) s).bind fun x u =>
        if x then b.memT n page pidx tid q qr qc (r % qr) (c % qc) u else .ok false u
    | .uni a b => (a.memT n page pidx tid q rf cf r c s).bind fun x u => if x then .ok true u else b.memT n page pidx tid q rf cf r c u
    | .int a b => (a.memT n page pidx tid q rf cf r c s).bind fun x u => if x then b.memT n page pidx tid q rf cf r c u else .ok false u
    | .lim rb cb a =>
      if (rb == 0 || decide (r < 16 * rb)) && (cb == 0 || decide (c < 16 * cb)) then a.memT n page pidx tid q rf cf r c s
      else .ok false s
    | .perm x y a => a.memT n page pidx tid q rf cf (((r : Int) - x) % (rf : Int)).toNat (((c : Int) - y) % (cf : Int)).toNat s
    | p => .ok (p.mem rf cf r c) s

/-! ### Searching (R388, R397) -/

/-- The least minor coordinate from `b` on, below a limit, that a test admits. -/
def findMinor (ok : Nat → Bool) : Nat → Nat → Option Nat
  | 0, _ => none
  | k + 1, b => if ok b then some b else findMinor ok k (b + 1)

/-- The same for a test that reads memory. -/
def findMinorT (ok : Nat → State → XRes Bool) : Nat → Nat → State → XRes (Option Nat)
  | 0, _, s => .ok none s
  | k + 1, b, s => (ok b s).bind fun x t => if x then .ok (some b) t else findMinorT ok k (b + 1) t

/-- The least member from (a, b) on with major coordinate below `e`: major and minor (R397). -/
def Pat.next (n page pidx tid : Nat) (q : Req) (p : Pat) (dir : Bool) (rf cf : Nat) :
    Nat → Nat → Nat → State → XRes (Option (Nat × Nat))
  | 0, _, _, s => .ok none s
  | k + 1, a, b, s =>
    if dir then
      (p.checkColumn n page pidx tid q cf a s).bind fun _ s =>
      (findMinorT (fun r t => p.memT n page pidx tid q rf cf r a t) (rf - b) b s).bind fun m t =>
        match m with
        | some r => .ok (some (a, r)) t
        | none => p.next n page pidx tid q dir rf cf k (a + 1) 0 t
    else match findMinor (fun c => p.mem rf cf a c) (cf - b) b with
      | some c => .ok (some (a, c)) s
      | none => p.next n page pidx tid q dir rf cf k (a + 1) 0 s

/-- The root frame of a program over an object (R383): rows and columns. -/
def rootFrame (d : BitVec 512) (gran : Bool) : Nat × Nat :=
  let r := if dNdim d < 2 then 1 else dSize d 1
  if gran then (ceilDiv r 16, ceilDiv (dSize d 0) 16) else (r, dSize d 0)

/-- The words of a program read from pattern memory: up to PEND, a bad code, or 33 words. -/
def readProg (n : Nat) (q : Req) (pmbase pidx : Nat) : Nat → Nat → Bool → State → XRes (List Nat)
  | 0, _, _, s => .ok [] s
  | k + 1, i, raw, s =>
    (s.tableRead n q (pmbase + 4 * ((pidx + i) % 65536)) 4).bind fun w t =>
      let code := w / 2 ^ 24
      if !raw && (code == 0x0B || code == 0 || decide (0x0B < code)) then .ok [w] t
      else (readProg n q pmbase pidx k (i + 1) (!raw && code == 0x05 && bit w 0) t).bind fun ws u => .ok (w :: ws) u

/-- The illegal-instruction trap of an invalid program, with the load code of one (R56, R65, R333): program, port and word index. -/
def badProg (pidx port tok k : Nat) : Stop :=
  .trap tcIllegal 0x0E (pidx % 65536 * 65536 + port % 4 * 256 + k % 256) tok

/-- A program loaded: its words, granularity and pattern (R385, R395). -/
def loadProg (n : Nat) (q : Req) (pidx port tok : Nat) (s : State) : XRes (List Nat × Bool × Pat) :=
  (readProg n q (s.part n).pmbase.toNat pidx 33 0 false s).bind fun ws t =>
    match patParse ws 0 false [] with
    | .error k => .stop (badProg pidx port tok k) t
    | .ok (g, p) => .ok (ws, g, p) t

end Sys2Proof.Machine
end

