-- ==== Sys2Proof/Machine/Matrix.lean ====
section
/-! DEFINITION. The matrix, tag and lookup instructions, opcodes 0xB0 to 0xBC (R360 to R371), tile fetch (R362, R363, R390)
with block scales (R90 to R93), and the method table (R373, R374). -/

namespace Sys2Proof.Machine

/-! ### Order (R361) -/

/-- The accumulator tile that an instruction names in its word. -/
def mxTile : Instr → Option Nat
  | .mma _ t _ _ | .mmas _ t _ _ | .mmap _ t _ _ | .acz _ t _ _ | .acrd _ t _ | .acwr _ t _ | .accv _ t _ _ _ => some t.toNat
  | _ => none

/-- The fetch buffers that a slot names or may name. -/
def mxBufs (sl : Slot) : Instr → List Nat
  | .tfch _ _ _ b _ _ | .trel _ b _ => [b.toNat]
  | .mma _ _ _ _ | .mmas _ _ _ _ | .mmap _ _ _ _ =>
    match sl.l, sl.r with
    | some a, some b =>
      if a.tok.marker || b.tok.marker then [] else [elAt 32 a.tok.data 0 % 4, elAt 32 b.tok.data 0 % 4]
    | _, _ => [0, 1, 2, 3]
  | _ => []

/-- What a slot names, as `Elem.mxUse` numbers it. -/
def mxNames (sl : Slot) (i : Instr) : List Nat := mxBufs sl i ++ (mxTile i).toList.map (· + 4)

/-- What an outstanding access names. -/
def accNames : AccOp → List Nat
  | .accv t _ _ => [4 + t]
  | .tfch b _ _ => [b]
  | _ => []

/-- R361: nothing earlier that names or may name the same tile or buffer is still to take effect. -/
def Elem.mxOrder (x : Elem) (c : Cursor) (ns : List Nat) : Bool :=
  ((x.earlier c).all fun (_, _, sl, i) => slotNull i sl || (mxNames sl i).all fun k => !ns.contains k) &&
  (x.acc.all fun a => (accNames a.op).all fun k => !ns.contains k) &&
  (decide (x.mxFree ≤ x.icyc) || x.mxUse.all fun k => !ns.contains k)

/-- A matrix instruction may execute (R361); that the matrix unit is free is among the conditions of its gate. -/
def Elem.mxReady (x : Elem) (c : Cursor) (i : Instr) : Bool := x.mxOrder c (mxNames (x.slotAt c) i)

/-- The element with the matrix unit taken for some cycles. -/
def Elem.mxTake (x : Elem) (occ : Nat) (ns : List Nat) : Elem := { x with mxFree := x.icyc + occ, mxUse := ns }

/-! ### Accumulator tiles (R360) -/

/-- An accumulator tile; one that is not listed holds +0 in FP32 (R360). -/
def Elem.tileAt (x : Elem) (t : Nat) : Tile := (look t x.cur.tiles).getD ⟨false, List.replicate 256 0⟩

/-- The element with a tile set. -/
def Elem.setTile (x : Elem) (t : Nat) (v : Tile) : Elem := { x with cur := { x.cur with tiles := put t v x.cur.tiles } }

/-- An instruction on a tile within the grant; the trap of a tile that no loader has checked (R360; log 14). -/
def tileGuard (x : Elem) (t : Nat) (a : Act) : Act := if x.accTiles ≤ t then .trap tcIllegal 0x06 0 0 else a

/-! ### Products (R365) -/

/-- The result type of a product, true for INT32; none where the formats are not allowed (R365). -/
def mmaType (sc pow : Bool) (fa fb : Nat) : Option Bool :=
  let fp8 (f : Nat) : Bool := f == 4 || f == 5
  if pow then (if fa = 9 ∧ (fb = 6 ∨ fp8 fb) then some false else none)
  else if fa = 2 ∧ fb = 2 ∨ fa = 3 ∧ fb = 3 ∨ (fp8 fa && fp8 fb) = true then some false
  else if fa = 6 ∧ fb = 6 then some (!sc)
  else none

/-- Occupancy of a product (R364). -/
def mmaOcc (pow : Bool) (fa : Nat) : Nat := if pow then 2 else if fa = 2 ∨ fa = 3 then 8 else 4

/-- An element of a buffer with its scale; E = 255 gives a NaN product (R90). -/
def scaled (f : Fmt) (x e : Nat) : Val := if e = 255 then .nan else scaleVal (decVal f x) ((e : Int) - 127)

/-- Whether a format has no negative zero: a zero product of two such formats is +0 (R83). -/
def noNegZero : Fmt → Bool
  | .int8 | .ps8 => true
  | _ => false

/-- The product of two scaled elements. -/
def mmaProd (pos : Bool) (a b : Val) : Val :=
  match (mulVal a b).1 with
  | .fin s m e => if pos && m == 0 then .fin false 0 e else .fin s m e
  | v => v

/-- One group of R94: the accumulator and eight products summed exactly and rounded once. -/
def mmaGroup (pos : Bool) (x : Rounded) (as bs : List Val) : Rounded :=
  let (c, fl) := finishF .fp32 (dotSum (decVal .fp32 x.1 :: List.zipWith (mmaProd pos) as bs))
  (c, x.2 ||| fl)

/-- One element of an FP32 result (R94, R365). -/
def mmaElem (pos : Bool) (x : Nat) (as bs : List Val) : Rounded :=
  mmaGroup pos (mmaGroup pos (x, 0) (as.take 8) (bs.take 8)) (as.drop 8) (bs.drop 8)

/-- One element of an INT32 result (R94). -/
def mmaInt (x : Nat) (as bs : List Nat) : Nat :=
  wrap 32 ((x : Int) + (List.zipWith (fun a b => sgn 8 a * sgn 8 b) as bs).foldl (· + ·) 0)

/-- Rows of a 16 × 16 list. -/
def rowsOf {α : Type} (l : List α) : List (List α) := (List.range 16).map fun r => (l.drop (16 * r)).take 16

/-- Columns of a 16 × 16 list. -/
def colsOf {α : Type} (l : List α) : List (List α) :=
  (List.range 16).map fun c => (rowsOf l).filterMap (·[c]?)

/-- A scale exponent of a buffer; 127 for an unscaled one. -/
def FetchBuf.exp (b : FetchBuf) (k : Nat) : Nat := ((b.exps[k]?).map (·.toNat)).getD 127

/-- A product added into a tile: the elements and the flags (R365). -/
def mmaTile (int : Bool) (fa fb : Fmt) (a b : FetchBuf) (acc : List Word) : List Word × Nat :=
  if int then
    let bs := colsOf (b.els.map (·.toNat))
    ((List.zipWith (fun (row : List Nat) (xs : List Word) =>
      List.zipWith (fun col (x : Word) => BitVec.ofNat 32 (mmaInt x.toNat row col)) bs xs)
      (rowsOf (a.els.map (·.toNat))) (rowsOf acc)).flatten, 0)
  else
    let va := (indexed 0 (rowsOf a.els)).map fun (r, row) => row.map fun x => scaled fa x.toNat (a.exp r)
    let vb := (indexed 0 (colsOf b.els)).map fun (c, col) => col.map fun x => scaled fb x.toNat (b.exp c)
    let pos := noNegZero fa && noNegZero fb
    let rs := (List.zipWith (fun (row : List Val) (xs : List Word) =>
      List.zipWith (fun col (x : Word) => mmaElem pos x.toNat row col) vb xs) va (rowsOf acc)).flatten
    (rs.map fun r => BitVec.ofNat 32 r.1, rs.foldl (fun f r => f ||| r.2) 0)

/-- A fetch buffer of an element. -/
def Elem.buf (x : Elem) (k : Nat) : FetchBuf := x.bufs.getD k {}

/-- A product instruction (R365): `sc` applies scales, `pow` takes PS8 operands. -/
def product (i : Instr) (sc pow : Bool) (t : Nat) (z : Bool) (s : State) : Out :=
  run i (fun c x r => tileGuard x t
    (if !x.mxReady c i then .wait
     else if r.l.marker || r.r.marker then
       (if r.l.kind == r.r.kind then .issue x 1 (toAll i ⟨r.l.kind, r.l.data, r.tag⟩) else .trap tcIllegal 0 0 0)
     else
       let ha := elAt 32 r.l.data 0
       let hb := elAt 32 r.r.data 0
       if bit ha 2 || !bit hb 2 then .trap tcIllegal 0 0 0
       else
         let a := x.buf (ha % 4)
         let b := x.buf (hb % 4)
         if a.st = .empty then .trap tcRegEmpty 0 (BitVec.ofNat 64 (0x100 + ha % 4)) 0
         else if b.st = .empty then .trap tcRegEmpty 0 (BitVec.ofNat 64 (0x100 + hb % 4)) 0
         else if a.st = .pending ∨ b.st = .pending then .wait
         else
           let fa := tagFmt a.tag.toNat
           let fb := tagFmt b.tag.toNat
           match mmaType sc pow fa fb, fmtOf fa, fmtOf fb with
           | some ty, some ga, some gb =>
             if !sc && !pow && (a.scaled || b.scaled) then .trap tcIllegal 0 0 0
             else if !z && (x.tileAt t).int != ty then .trap tcWidth 0 0 0
             else
               let (els, fl) := mmaTile ty ga gb a b (if z then List.replicate 256 0 else (x.tileAt t).els)
               let lat := mmaOcc pow fa + 4
               .issue (((x.setTile t ⟨ty, els⟩).mxTake (mmaOcc pow fa) [ha % 4, hb % 4, 4 + t]).flags lat fl) lat
                 (toAll i (doneTok r.tag))
           | _, _, _ => .trap tcWidth 0 0 0)) s

/-- MMA (R365). -/
def execMma (p : Pm) (t : BitVec 9) (z : Bool) (a : Tgt) (s : State) : Out := product (.mma p t z a) false false t.toNat z s

/-- MMAS (R365). -/
def execMmas (p : Pm) (t : BitVec 9) (z : Bool) (a : Tgt) (s : State) : Out := product (.mmas p t z a) true false t.toNat z s

/-- MMAP (R365). -/
def execMmap (p : Pm) (t : BitVec 9) (z : Bool) (a : Tgt) (s : State) : Out := product (.mmap p t z a) false true t.toNat z s

/-! ### Accumulator access (R366) -/

/-- ACZ (R366). -/
def execAcz (p : Pm) (t : BitVec 9) (y : Bool) (a : Tgt) (s : State) : Out :=
  run (.acz p t y a) (fun c x r => tileGuard x t.toNat
    (if !x.mxReady c (.acz p t y a) then .wait
     else .issue ((x.setTile t.toNat ⟨y, List.replicate 256 0⟩).mxTake 1 [4 + t.toNat]) 1 (toAll (.acz p t y a) (doneTok r.tag)))) s

/-- Row `r` of a tile as a payload. -/
def Tile.row (v : Tile) (r : Nat) : Payload := ofEls 32 (((v.els.drop (16 * r)).take 16).map (·.toNat))

/-- ACRD (R271, R366). -/
def execAcrd (p : Pm) (t : BitVec 9) (d : Dst) (s : State) : Out :=
  run (.acrd p t d) (fun c x r => tileGuard x t.toNat
    (if !x.mxReady c (.acrd p t d) then .wait
     else
       let k := elAt 32 r.l.data 0
       let row := (x.tileAt t.toNat).row k
       match d with
       | .tgt a =>
         if 15 < k then .trap tcBounds 8 0 0
         else .issue (x.mxTake 1 [4 + t.toNat]) 2 [(0, a, dataTok row r.tag)]
       | .reg v =>
         if x.regs ≤ v.toNat then regIllegal
         else if (x.regAt v.toNat).st = .pending then .wait
         else if 15 < k then .trap tcBounds 8 0 0
         else
           let y := (x.setReg v.toNat { x.regAt v.toNat with st := .pending }).mxTake 1 [4 + t.toNat]
           .issue { y with fills := y.fills ++ [⟨v.toNat, row, y.icyc + 2⟩] } 2 [])) s

/-- ACWR (R366). -/
def execAcwr (p : Pm) (t : BitVec 9) (a : Tgt) (s : State) : Out :=
  run (.acwr p t a) (fun c x r => tileGuard x t.toNat
    (if !x.mxReady c (.acwr p t a) then .wait
     else
       let k := elAt 32 r.l.data 0
       if 15 < k then .trap tcBounds 8 0 0
       else
         let v := x.tileAt t.toNat
         let els := v.els.take (16 * k) ++ (elsOf 32 16 r.r.data).map (BitVec.ofNat 32) ++ v.els.drop (16 * k + 16)
         .issue ((x.setTile t.toNat { v with els := els }).mxTake 1 [4 + t.toNat]) 1 (toAll (.acwr p t a) (doneTok r.tag)))) s

/-! ### Where the elements of a tile lie (R363) -/

/-- Tile columns and rows that are not clipped (R363). -/
def tileCols (d : BitVec 512) (t : TileAt) : Nat := min 16 (dSize d 0 - 16 * t.t0)
def tileRowsIn (d : BitVec 512) (t : TileAt) : Nat := min 16 (dUsed d 1 - 16 * t.t1)

/-- The elements (r, c) of a dense tile in the order of its stored bytes (R363). -/
def layOrder (d : BitVec 512) (t : TileAt) (lay : Nat) : List (Nat × Nat) :=
  match lay with
  | 0 => (List.range (tileRowsIn d t)).flatMap fun r => (List.range (tileCols d t)).map fun c => (r, c)
  | 1 => (List.range (tileCols d t)).flatMap fun c => (List.range (tileRowsIn d t)).map fun r => (r, c)
  | 2 => (List.range 16).flatMap fun r => (List.range 16).map fun c => (r, c)
  | _ => (List.range 2).flatMap fun g => (List.range 16).flatMap fun r => (List.range 8).map fun c => (r, 8 * g + c)

/-- The runs of bytes of a dense tile: offset and length (R363). -/
def layRuns (d : BitVec 512) (t : TileAt) (off e lay : Nat) : List (Nat × Nat) :=
  match lay with
  | 0 => (List.range (tileRowsIn d t)).map fun r => (off + e * r * dStride d 1, e * tileCols d t)
  | 1 => (List.range (tileCols d t)).map fun c => (off + e * c * dStride d 1, e * tileRowsIn d t)
  | _ => [(off, 256 * e)]

/-- The code of zero in a tag's format: PS8 has its own (R83, R84). -/
def zeroCode (f : Nat) : BitVec 16 := if f = 9 then 0x08 else 0

/-- A tile of 256 elements from its stored elements in an order; the others are zero, as the format of code `f` writes it (R94, R363). -/
def spread (f : Nat) (order : List (Nat × Nat)) (vs : List Nat) : List (BitVec 16) :=
  (order.zip vs).foldl (fun l (rc, v) => setAt l (16 * rc.1 + rc.2) (BitVec.ofNat 16 v)) (List.replicate 256 (zeroCode f))

/-- Elements of `e` bytes. -/
def cutEls (e : Nat) (bs : List Byte) : Nat → List Nat
  | 0 => []
  | k + 1 => ofBytes (bs.take e) :: cutEls e (bs.drop e) k

/-! ### ACCV, TAGR, TAGS (R358, R359, R367, R368) -/

/-- The runs of an access to the tile at a token; one byte where it is no tile's origin or the tag is no dense tag. -/
def denseRuns (a : Access) (tag : Nat) (o : Obj) (_ : Nat) : List (Nat × Nat) :=
  match tileOf o.d (tokOff a.tok) with
  | some t => if tagOk tag then layRuns o.d t (tokOff a.tok) (tagBytes o tag) (tagLay tag) else [(tokOff a.tok, 1)]
  | none => [(tokOff a.tok, 1)]

/-- The checks of ACCV (R358, R367). -/
def planAccv (n : Nat) (q : Req) (a : Access) (s : State) : XRes TilePlan :=
  let tag := tagLane a.r
  (planTile n q a true false (denseRuns a tag) (fun _ => none) (tag != 0) s).bind fun p t =>
    if !tagOk tag || tagFmt tag == 0 || tagCls tag != 0 || fmtBytes (tagFmt tag) != p.obj.esz then .stop .width t else .ok p t

/-- ACCV performed (R359, R367). It rounds by its mode and saturates by its bit, as R364 and R367 say, also to the formats for which R88 has
every instruction but CVT round to nearest and saturate (DESIGN CHOICE, log 94). -/
def doAccv (tile : Nat) (m : Rm) (sat : Bool) (e n : Nat) (a : Access) (s : State) : XRes (Token × Nat) :=
  match s.elem? e with
  | none => .wait .no s
  | some x =>
    (planAccv n (a.req e) a s).bind fun p t =>
      if t.entryHeld n p.entryPas then .wait .no t
      else
      let tag := tagLane a.r
      let v := x.tileAt tile
      let f := (fmtOf (tagFmt tag)).getD .int8
      let rs := (layOrder p.obj.d p.tile (tagLay tag)).map fun (r, c) =>
        cvtE (if v.int then .int32 else .fp32) f sat m ((v.els.getD (16 * r + c) 0).toNat)
      let u := t.tileWrite n (pageOf e) p.obj p.pas (rs.flatMap fun k => toBytes p.obj.esz k.1)
      .ok (doneTok none, rs.foldl (fun g k => g ||| k.2) 0) (u.entryWrite n p.entryPas (entryBytes tag))

/-- The checks of TAGR and TAGS (R358, R368). -/
def planTagr (n : Nat) (q : Req) (a : Access) (s : State) : XRes TilePlan :=
  planTile n q a false false (fun _ _ => [(tokOff a.tok, 1)]) (fun _ => none) false s
def planTags (dflt : Bool) (n : Nat) (q : Req) (a : Access) (s : State) : XRes TilePlan :=
  let tag := tagLane a.r
  (planTile n q a true false (fun _ _ => [(tokOff a.tok, 1)]) (fun _ => none) true s).bind fun p t =>
    if !dflt && (!tagOk tag || (tagFmt tag != 0 && fmtBytes (tagFmt tag) != p.obj.esz)) then .stop .width t else .ok p t

/-- TAGR performed (R368). -/
def doTagr (e n : Nat) (a : Access) (s : State) : XRes (Token × Nat) :=
  (planTagr n (a.req e) a s).bind fun p t =>
    .ok (dataTok (lane0 (effTag p.obj p.entry + 1024 * b2n (bit p.entry 15))) none, 0) t

/-- TAGS performed (R359, R368). -/
def doTags (dflt : Bool) (e n : Nat) (a : Access) (s : State) : XRes (Token × Nat) :=
  (planTags dflt n (a.req e) a s).bind fun p t =>
    if t.entryHeld n p.entryPas then .wait .no t
    else .ok (doneTok none, 0) (t.entryWrite n p.entryPas (if dflt then [0, 0] else entryBytes (tagLane a.r)))

/-- The check of a tile access. -/
def tilePlanChk (f : Nat → Req → Access → State → XRes TilePlan) : AccCheck := fun e n a s =>
  (f n (a.req e) a s).bind fun _ t => .ok () t

/-- ACCV (R367): its tile fixed in the word, it follows R361 and needs the matrix unit. -/
def execAccv (p : Pm) (t : BitVec 9) (m : Rm) (x : Bool) (a : Tgt) (s : State) : Out :=
  memIssueIf (fun st y => y.mxReady st.cur (.accv p t m x a)) (.accv p t m x a)
    (fun e n b st =>
      if ((st.elem? e).map fun y => decide (y.accTiles ≤ t.toNat)).getD true then .stop (.trap tcIllegal 0x06 0 0) st
      else tilePlanChk planAccv e n b st) s

/-- TAGR (R368). -/
def execTagr (p : Pm) (n : BitVec 2) (a : Tgt) (s : State) : Out := memIssue (.tagr p n a) (tilePlanChk planTagr) s

/-- TAGS (R368). -/
def execTags (p : Pm) (d : Bool) (n : BitVec 2) (a : Tgt) (s : State) : Out :=
  memIssue (.tags p d n a) (tilePlanChk (planTags d)) s

/-! ### Block scales (R91 to R93) -/

/-- A stop at another token than the access's own. -/
def State.stopTok (s : State) (n : Nat) (tok : Dword) (c : Stop) : Stop :=
  let (cls, cause, d, addr) := s.stopRec n 0 tok c
  .trap cls cause d.toNat addr.toNat

/-- A nibble of a scale stream, the low nibble of a byte first. -/
def streamNib (n page : Nat) (q : Req) (tok : Dword) (k : Nat) (s : State) : XRes Nat :=
  let go : XRes Nat :=
    (s.object n q (tokTid tok)).bind fun o t =>
    (t.checked n q o (tokOff tok + k / 2) 1 false).bind fun ps u =>
    (u.placed n q ps false).bind fun pas v =>
    (v.readPieces n page o pas).bind fun bs w => .ok (ofBytes bs / 16 ^ (k % 2) % 16) w
  match go with
  | .stop c t => .stop (t.stopTok n tok c) t
  | r => r

/-- One block's E from its code: E, whether the difference left 0 to 254, and the nibble that follows (R91, R93). -/
def scaleBlock (n page : Nat) (q : Req) (tok : Dword) (pos prev : Nat) (s : State) : XRes (Nat × Bool × Nat) :=
  (streamNib n page q tok pos s).bind fun c t =>
    if c = 8 then
      (streamNib n page q tok (pos + 1) t).bind fun lo u =>
      (streamNib n page q tok (pos + 2) u).bind fun hi v => .ok (lo + 16 * hi, false, pos + 3) v
    else
      let e : Int := prev + sgn 4 c
      if 0 ≤ e ∧ e ≤ 254 then .ok (e.toNat, false, pos + 1) t else .ok (255, true, pos + 1) t

/-- One sequence of `k` blocks from block `i` on: E of block `keep` with whether it left its range, and the nibble at which the
next sequence begins (R92). -/
def scaleSeq (n page : Nat) (q : Req) (tok : Dword) (keep : Nat) :
    Nat → Nat → Nat → Nat → Nat × Bool → State → XRes ((Nat × Bool) × Nat)
  | 0, _, pos, _, r, s => .ok (r, pos + pos % 2) s
  | k + 1, i, pos, prev, r, s =>
    (scaleBlock n page q tok pos prev s).bind fun (e, bad, nx) t =>
      scaleSeq n page q tok keep k (i + 1) nx e (if i = keep then (e, bad) else r) t

/-- The kept E of `k` sequences of `blocks` blocks, from the stream's start (R92, R363). -/
def scaleSeqs (n page : Nat) (q : Req) (tok : Dword) (base blocks keep : Nat) : Nat → Nat → State → XRes (List (Nat × Bool))
  | 0, _, s => .ok [] s
  | k + 1, pos, s =>
    (scaleSeq n page q tok keep blocks 0 pos base (127, false) s).bind fun (r, nx) t =>
      (scaleSeqs n page q tok base blocks keep k nx t).bind fun rs u => .ok (r :: rs) u

/-! ### Tile fetch (R362, R363, R369, R390) -/

/-- A fetch buffer released (R362). -/
def State.freeBuf (s : State) (e b : Nat) : State :=
  match s.elem? e with
  | none => s
  | some x => (s.dropPins false (x.buf b).pins).modElem e fun y => { y with bufs := setAt y.bufs b {} }

/-- What a fetch will read of a tile: its tag in the buffer, the element bytes, the places of its stored elements, the
elements in that order (R363, R390), and the places of its mask, whose lines it pins too (R265). -/
structure FetchPlan where
  obj : Obj
  tile : TileAt
  tag : Nat
  e : Nat
  pas : List (Nat × Nat)
  order : List (Nat × Nat)
  mask : List (Nat × Nat)
deriving DecidableEq, Repr

/-- Set positions of a 256-bit mask as elements (r, c), in increasing order (R390). -/
def maskOrder (m : Nat) : List (Nat × Nat) :=
  ((List.range 256).filter (bit m)).map fun p => (p / 16, p % 16)

/-- A bit-tree's mask: root, then one row mask for each set root bit; cause 13 where a leaf is zero (R390). -/
def leafMask (root : Nat) (leaves : List Nat) : Option Nat :=
  if leaves.any (· == 0) then none
  else some ((((List.range 16).filter (bit root)).zip leaves).map fun (r, m) => m * 2 ^ (16 * r)).sum

/-- Bytes of a tile read at once through the unit (R363), and where they lie. -/
def fetchBytes (n page : Nat) (q : Req) (o : Obj) (off len : Nat) (s : State) : XRes (List Byte × List (Nat × Nat)) :=
  (s.checkedRuns n q o [(off, len)] false).bind fun ps t =>
  (t.placed n q ps false).bind fun pas u => (u.readPieces n page o pas).bind fun bs v => .ok (bs, pas) v

/-- The stored elements of a sparse tile: where its values begin, the order of the elements, and where its mask lies (R390); a stored form
that is too long stops the fetch. -/
def sparseForm (n page : Nat) (q : Req) (o : Obj) (t : TileAt) (off e cls port : Nat) (tok : Dword) (lay : Nat) (s : State) :
    XRes (List (Nat × Nat) × List (Nat × Nat) × List (Nat × Nat)) :=
  let vals (at_ : Nat) (order mask : List (Nat × Nat)) (u : State) : XRes (List (Nat × Nat) × List (Nat × Nat) × List (Nat × Nat)) :=
    if off + 256 * e < at_ + e * order.length then .stop (.bounds 13) u
    else .ok ((if order.isEmpty then [] else [(at_, e * order.length)]), order, mask) u
  match cls with
  | 1 =>
    (loadProg n q (dPat o.d) port tok.toNat s).bind fun (_, gran, p) u =>
      let fr := rootFrame o.d gran
      if gran then
        (if p.mem fr.1 fr.2 t.t1 t.t0 then .ok (layRuns o.d t off e lay, layOrder o.d t lay, []) u else .ok ([], [], []) u)
      else vals off (((List.range 16).flatMap fun r => (List.range 16).map fun c => (r, c)).filter fun (r, c) =>
        p.mem fr.1 fr.2 (16 * t.t1 + r) (16 * t.t0 + c)) [] u
  | 2 => (fetchBytes n page q o off 32 s).bind fun (bs, m) u => vals (off + 32) (maskOrder (ofBytes bs)) m u
  | _ =>
    (fetchBytes n page q o off 2 s).bind fun (b0, m0) u =>
      let k := popCount 16 (ofBytes b0)
      (if k = 0 then .ok ([], []) u else fetchBytes n page q o (off + 2) (2 * k) u).bind fun (b1, m1) v =>
        match leafMask (ofBytes b0) (cutEls 2 b1 k) with
        | none => .stop (.bounds 13) v
        | some m => vals (off + e * ceilDiv (2 + 2 * k) e) (maskOrder m) (m0 ++ m1) v

/-- The checks of TFCH and what it will read: the tag entry on the port, the tile by the tile fetch unit (R363, R364, R369). -/
def planFetch (e n : Nat) (a : Access) (s : State) : XRes FetchPlan :=
  let q := a.req e
  let off := tokOff a.tok
  (planTile n (.port e a.port) a false false (fun _ _ => [(off, 1)]) (fun _ => none) false s).bind fun p t =>
    let tag := effTag p.obj p.entry
    let w := tagBytes p.obj tag
    let f := tagFmt tag
    if !tagOk tag || f == 1 || f == 7 || f == 8 || decide (2 < w) then .stop .width t
    else
      (if tagCls tag = 0 then .ok (layRuns p.obj.d p.tile off w (tagLay tag), layOrder p.obj.d p.tile (tagLay tag), []) t
       else sparseForm n (pageOf e) q p.obj p.tile off w (tagCls tag) a.port a.tok (tagLay tag) t).bind fun (rs, order, mask) u =>
      (u.checkedRuns n q p.obj rs false).bind fun ps v =>
      (v.placed n q ps false).bind fun pas z =>
        .ok ⟨p.obj, p.tile, if f = 0 then 0 else if tagCls tag = 0 then tag else f * 64, w, pas, order, mask⟩ z

/-- Lines of a fetch pinned one after another (R265, R266). -/
def pinLines (n page : Nat) (o : Obj) : List Nat → State → PinRes
  | [], s => .done s
  | l :: r, s =>
    match s.addPin n page l false o.res o.ro (s.holder page) with
    | .done t => pinLines n page o r t
    | w => w

/-- Each line of a list of places once. -/
def linesOf (pas : List (Nat × Nat)) : List Nat := (pas.map fun a => a.1 / 128).eraseDups

/-- The scale exponents of a fetch (R363): 127 where it is not scaled. -/
def fetchScales (e n : Nat) (a : Access) (roleB sc : Bool) (p : FetchPlan) (s : State) : XRes (List (Nat × Bool)) :=
  if sc then
    let len := if roleB then dUsed p.obj.d 1 else dSize p.obj.d 0
    let keep := (if roleB then p.tile.t1 else p.tile.t0) / 2
    scaleSeqs n (pageOf e) (a.req e) (scal a.r) (dScaleb p.obj.d) (ceilDiv len 32) keep 16 0 s
  else .ok (List.replicate 16 (127, false)) s

/-- A handle token (R369). -/
def handle (b : Nat) (roleB sc : Bool) (tag : Nat) : Payload := ofEls 32 [b + 4 * b2n roleB + 8 * b2n sc, tag]

/-- TFCH performed (R359, R363, R369); a trap leaves the buffer empty and nothing pinned. A block scale whose difference left 0 to 254 raises
NV here, as the fetch completes and for the blocks that it keeps alone: R93 says only that the element which consumes the block raises it
(DESIGN CHOICE, log 95). -/
def doTfch (b : Nat) (roleB sc : Bool) (e n : Nat) (a : Access) (s : State) : XRes (Token × Nat) :=
  let r := (planFetch e n a s).bind fun p t =>
    (fetchScales e n a roleB sc p t).bind fun es u =>
      match pinLines n (pageOf e) p.obj (linesOf (p.mask ++ p.pas)) u with
      | .wait => .wait (.pin (pageOf e)) u
      | .blocked | .full => .wait .no u
      | .done v => (v.readPieces n (pageOf e) p.obj p.pas).bind fun bs w =>
          let f : FetchBuf :=
            { st := .full, els := spread (tagFmt p.tag) p.order (cutEls p.e bs p.order.length), tag := BitVec.ofNat 10 p.tag, roleB := roleB
              scaled := sc, exps := es.map fun k => BitVec.ofNat 8 k.1, pins := (linesOf (p.mask ++ p.pas)).map fun l => (pageOf e, l) }
          .ok (dataTok (handle b roleB sc p.tag) none, if es.any (·.2) then fNV else 0)
            (w.modElem e fun y => { y with bufs := setAt y.bufs b f })
  match r with
  | .stop c t => .stop c (t.freeBuf e b)
  | r => r

/-- The check of TFCH as it issues: the buffer is released first and is pending from then on (R362, R369). -/
def tfchChk (b : Nat) : AccCheck := fun e n a s =>
  let t := (s.freeBuf e b).modElem e fun y => { y with bufs := setAt y.bufs b { st := .pending } }
  match planFetch e n a t with
  | .ok _ u => .ok () u
  | .wait w u => .wait w u
  | .stop c u => .stop c (u.freeBuf e b)

/-- TFCH (R369). -/
def execTfch (p : Pm) (c : Bool) (r : Bool) (b n : BitVec 2) (a : Tgt) (s : State) : Out :=
  memIssueIf (fun st y => y.mxReady st.cur (.tfch p c r b n a)) (.tfch p c r b n a) (tfchChk b.toNat) s

/-- TREL (R369). -/
def execTrel (p : Pm) (b : BitVec 2) (a : Tgt) (s : State) : Out :=
  runS (.trel p b a) (fun c x r st =>
    let i := Instr.trel p b a
    if !x.mxReady c i || (x.buf b.toNat).st == .pending then .next st
    else
      let tok := dataTok (lane0 (b2n ((x.buf b.toNat).st == .full))) r.tag
      .next ((st.freeBuf c.e b.toNat).modElem c.e fun y => y.issue c 1 (toAll i tok))) s

/-! ### Descriptors (R370) -/

/-- An item of a descriptor as lanes 0 to 2 (R370). -/
def descItem (d : BitVec 512) (item : Nat) : List Nat :=
  let two (v : Nat) : List Nat := [v % 2 ^ 32, v / 2 ^ 32 % 2 ^ 32, 0]
  if item < 4 then two (dwordAt d item)
  else if item = 4 then [nt0 d, nt1 d, nt0 d * nt1 d * dUsed d 2 * dUsed d 3]
  else two (toff d)

/-- TDSC performed (R370): the flat object has no descriptor, so its items are open (R242; log 20). -/
def doTdsc (item : Nat) (e n : Nat) (a : Access) (s : State) : XRes (Token × Nat) :=
  (s.object n (a.req e) (tokTid a.tok)).bind fun o t =>
    let ls := match o.c with
      | some c => descItem c.d item
      | none => (List.range 3).map (Config.flatDescriptor item)
    .ok (dataTok (ofEls 32 ls) none, 0) t

/-- TDSC (R370). An item that no loader has checked stops it (log 14). -/
def execTdsc (p : Pm) (i : BitVec 3) (a : Tgt) (s : State) : Out :=
  memIssue (.tdsc p i a) (fun e n b st =>
    if 5 < i.toNat then .stop (.trap tcIllegal 0x06 0 0) st
    else (st.object n (b.req e) (tokTid b.tok)).bind fun _ t => .ok () t) s

/-! ### The method table (R371, R373, R374) -/

/-- Fields of a method entry of four dwords (R373). -/
def meDw (m : List Dword) (k : Nat) : Nat := (m.getD k 0).toNat
def meAction (m : List Dword) : Nat := bits (meDw m 0) 63 62
def meOp (m : List Dword) : Nat := bits (meDw m 0) 61 50
def meNops (m : List Dword) : Nat := bits (meDw m 0) 49 48
def meWild (m : List Dword) : Nat := bits (meDw m 0) 47 39
def meTag (m : List Dword) (k : Nat) : Nat := bits (meDw m 0) (10 * k + 9) (10 * k)
def meImage (m : List Dword) : Nat := meDw m 1
def meSect (m : List Dword) : Nat := bits (meDw m 2) 63 58
def meCidx (m : List Dword) : Nat := bits (meDw m 2) 57 56
def meCtag (m : List Dword) : Nat := bits (meDw m 2) 55 46

/-- Whether an entry holds no reserved code: its zero fields, tags and, for a conversion, its operand and target (R373, R374). -/
def meOk (m : List Dword) : Bool :=
  bits (meDw m 0) 38 30 == 0 && bits (meDw m 2) 45 0 == 0 && meDw m 3 == 0 &&
  ((List.range 3).all fun k => tagOk (meTag m k)) &&
  (meAction m != 2 || (decide (meCidx m < 3) && tagOk (meCtag m)))

/-- A key: operator, operands and their tags (R374). -/
structure Key where
  op : Nat
  nops : Nat
  tags : List Nat
deriving DecidableEq, Repr

/-- Whether an entry matches a key (R374). -/
def meMatches (m : List Dword) (k : Key) : Bool :=
  meAction m != 0 && meNops m != 0 && meOk m && meOp m == k.op && meNops m == k.nops &&
  (List.range k.nops).all fun j =>
    let t := meTag m j
    let u := k.tags.getD j 0
    let w (f : Nat) : Bool := bit (meWild m) (3 * j + f)
    (w 0 || tagFmt t == tagFmt u) && (w 1 || tagCls t == tagCls u) && (w 2 || tagLay t == tagLay u)

/-- Wildcard bits of an entry (R374). -/
def meWilds (m : List Dword) : Nat := popCount 9 (meWild m)

/-- The matching entry with the fewest wildcard bits, the lowest index among equals (R374). -/
def meBest (k : Key) : List (Nat × List Dword) → Option (Nat × List Dword)
  | [] => none
  | (i, m) :: r =>
    let b := meBest k r
    if meMatches m k then
      (match b with
       | some (j, m') => if meWilds m' < meWilds m then some (j, m') else some (i, m)
       | none => some (i, m))
    else b

/-- Four dwords from the bytes of a method entry. -/
def meDwords (bs : List Byte) : List Dword :=
  (List.range 4).map fun k => BitVec.ofNat 64 (ofBytes ((bs.drop (8 * k)).take 8))

/-- The nonempty entries among those of a page's bytes, numbered from `i`. -/
def meScan : Nat → Nat → List Byte → List (Nat × List Dword)
  | 0, _, _ => []
  | k + 1, i, bs =>
    let m := meDwords (bs.take 32)
    let r := meScan k (i + 1) (bs.drop 32)
    if meAction m = 0 then r else (i, m) :: r

/-- The method table read page by page (R372). -/
def methodPages (n : Nat) (q : Req) (base : Nat) : Nat → Nat → State → XRes (List (Nat × List Dword))
  | 0, _, s => .ok [] s
  | k + 1, p, s =>
    (s.translate n q (base + 4096 * p) false).bind fun pa t =>
      let ms := meScan 128 (128 * p) ((List.range 32).flatMap fun l => t.memRead n (pa + 128 * l) 128)
      (methodPages n q base k (p + 1) t).bind fun r u => .ok (ms ++ r) u

/-- Entries that MTINV removed read again (R374). -/
def methodAgain (n : Nat) (q : Req) (base : Nat) : List Nat → List (Nat × List Dword) → State → XRes (List (Nat × List Dword))
  | [], ms, s => .ok ms s
  | i :: r, ms, s =>
    (s.tableRead n q (base + 32 * i) 32).bind fun v t =>
      let m := meDwords (toBytes 32 v)
      methodAgain n q base r (if meAction m = 0 then del i ms else put i m ms) t

/-- The sequencer's copy of the method table, made at its first use and mended after MTINV (R374; log 21). -/
def State.methods (s : State) (n : Nat) (q : Req) : XRes (List (Nat × List Dword)) :=
  let g := (s.part n).gs
  let base := (s.part n).mtbase.toNat
  (if g.loaded then methodAgain n q base g.gone g.methods s else methodPages n q base 32 0 s).bind fun ms t =>
    .ok ms (t.modPart n fun p => { p with gs := { p.gs with loaded := true, methods := ms, gone := [] } })

/-- MLOOK performed (R371). -/
def doMlook (e n : Nat) (a : Access) (s : State) : XRes (Token × Nat) :=
  (s.methods n (a.req e)).bind fun ms t =>
    let k := elAt 32 a.l 0
    let key : Key := ⟨k % 2 ^ 12, bits k 13 12, (List.range 3).map fun j => elAt 32 a.r j % 1024⟩
    let ls := match meBest key ms with
      | some (i, m) => [i, meAction m, meWilds m]
      | none => [0xFFFFFFFF, 0, 0]
    .ok (dataTok (ofEls 32 ls) none, 0) t

/-- MLOOK (R371). -/
def execMlook (p : Pm) (a : Tgt) (s : State) : Out := memIssue (.mlook p a) noChk s

end Sys2Proof.Machine
end

