-- ==== Sys2Proof/Machine/Pattern.lean ====
section
/-! DEFINITION. The pattern instructions, opcodes 0xC0 to 0xC7 (R391 to R400). -/

namespace Sys2Proof.Machine

/-! ### Generators -/

/-- The generator that an instruction names (R380). -/
def genOf : Instr → Option Nat
  | .pgld _ n _ | .pgst _ _ n _ | .pgnx _ n _ | .pgsv _ n _ | .pgrs _ n _ | .pgq _ n _ => some n.toNat
  | _ => none

/-- The generator that an access acts on. -/
def accGen : AccOp → Option Nat
  | .pgld g | .pgst g _ | .pgnx g | .pgrs g => some g
  | _ => none

/-- R392: no earlier pattern instruction that names the same generator is still to take effect. -/
def Elem.genFree (x : Elem) (c : Cursor) (g : Nat) : Bool :=
  (x.acc.all fun a => accGen a.op != some g) &&
  (x.earlier c).all fun (_, _, sl, i) => genOf i != some g || slotNull i sl

/-- A generator of the active set. -/
def Elem.gen (x : Elem) (g : Nat) : Gen := x.cur.gens.getD g {}

/-- The element with a generator set. -/
def Elem.setGen (x : Elem) (g : Nat) (v : Gen) : Elem := { x with cur := { x.cur with gens := setAt x.cur.gens g v } }

/-- The state codes of R391. -/
def GenSt.code : GenSt → Nat
  | .idle => 0
  | .loaded => 1
  | .running => 2
  | .ended => 3

/-- A generator's context as a payload (R391). -/
def Gen.context (v : Gen) : Payload :=
  ofEls 32 [b2n v.dir * 2 ^ 20 + b2n v.gran * 2 ^ 19 + v.st.code * 2 ^ 16 + v.pidx.toNat, v.tid.toNat, v.rf.toNat,
    v.cf.toNat, v.cmaj.toNat, v.cmin.toNat, v.emaj.toNat, v.yld.toNat]

/-- Whether a payload is a context: reserved bits zero and STATE assigned (R398). -/
def contextOk (p : Payload) : Bool :=
  elAt 32 p 0 / 2 ^ 21 == 0 && decide (bits (elAt 32 p 0) 18 16 < 4) && elAt 32 p 1 / 2 ^ 16 == 0 && p.toNat / 2 ^ 256 == 0

/-- The generator of a context, with a program (R391). -/
def genOfContext (p : Payload) (prog : List Word) : Gen where
  dir := bit (elAt 32 p 0) 20
  gran := bit (elAt 32 p 0) 19
  st := match bits (elAt 32 p 0) 18 16 with
    | 0 => .idle
    | 1 => .loaded
    | 2 => .running
    | _ => .ended
  pidx := BitVec.ofNat 16 (elAt 32 p 0)
  tid := BitVec.ofNat 16 (elAt 32 p 1)
  rf := lane p 2
  cf := lane p 3
  cmaj := lane p 4
  cmin := lane p 5
  emaj := lane p 6
  yld := lane p 7
  prog := prog

/-- The pattern of a generator's copy of its program. -/
def Gen.pat (v : Gen) : Option Pat :=
  match patParse (v.prog.map (·.toNat)) 0 false [] with
  | .ok (_, p) => some p
  | .error _ => none

/-- Words as a generator keeps them. -/
def progWords (ws : List Nat) : List Word := ws.map (BitVec.ofNat 32)

/-- The accesses by which restored generators reload their programs from pattern memory (R392): each restores its generator from its
context as PGRS does, on the generator's own port (log 96). -/
def reloads (gens : List Gen) (no id : Nat) : List Access :=
  ((indexed 0 gens).filter fun g => g.2.st != .idle).map fun g =>
    { accBase ⟨0, no, false, 0⟩ ⟨dataTok g.2.context none, dataTok 0 none, dataTok 0 none⟩ (.tgt .done) g.1 .ep (.pgrs g.1) .elem .rlx
        0 false false with id := id + g.1 }

/-- The bounds trap of an idle generator (R394). -/
def noProgram : Stop := .trap tcBounds 12 0 0

/-! ### PGLD, PGST, PGNX, PGRS -/

/-- The check of PGLD as it issues (R241, R395). -/
def pgldChk : AccCheck := fun e n a s =>
  (s.object n (a.req e) (tokTid a.tok)).bind fun o t =>
  (t.checked n (a.req e) o (tokOff a.tok) 1 false).bind fun _ u =>
    if tagCls o.tag ≠ 1 ∨ dPat o.d = 0 then .stop (.bounds 12) u else .ok () u

/-- PGLD performed (R395). -/
def doPgld (g : Nat) (e n : Nat) (a : Access) (s : State) : XRes (Token × Nat) :=
  (pgldChk e n a s).bind fun _ t =>
  (t.object n (a.req e) (tokTid a.tok)).bind fun o u =>
  (loadProg n (a.req e) (dPat o.d) a.port a.tok.toNat u).bind fun (ws, gran, _) v =>
    let fr := rootFrame o.d gran
    .ok (doneTok none, 0) (v.modElem e fun x => x.setGen g
      { gran := gran, st := .loaded, pidx := BitVec.ofNat 16 (dPat o.d), tid := BitVec.ofNat 16 (tokTid a.tok)
        rf := BitVec.ofNat 32 fr.1, cf := BitVec.ofNat 32 fr.2, prog := progWords ws })

/-- The non-invertible trap of a transposed enumeration (R389). -/
def inverseChk (v : Gen) (p : Pat) : Option Stop := (p.noInverse).map (nonInv v.pidx.toNat v.tid.toNat)

/-- PGST performed (R387, R389, R396). -/
def doPgst (g : Nat) (trn : Bool) (e n : Nat) (a : Access) (s : State) : XRes (Token × Nat) :=
  match s.elem? e with
  | none => .wait .no s
  | some x =>
    let v := x.gen g
    match v.st, v.pat with
    | .idle, _ => .stop noProgram s
    | _, none => .stop (badProg v.pidx.toNat a.port (v.tid.toNat * 2 ^ 48) 0) s
    | _, some p =>
      match (if trn then inverseChk v p else none) with
      | some st => .stop st s
      | none =>
        (if trn then p.checkTables n (pageOf e) v.pidx.toNat v.tid.toNat (a.req e) v.cf.toNat s else .ok () s).bind fun _ t =>
          let ext := if trn then v.cf.toNat else v.rf.toNat
          let s0 := elAt 32 a.l 0
          let e0 := elAt 32 a.l 1
          let em := if e0 = 0xFFFFFFFF then ext else min e0 ext
          .ok (doneTok none, 0) (t.modElem e fun x => x.setGen g
            { v with
              dir := trn, emaj := BitVec.ofNat 32 em, cmaj := BitVec.ofNat 32 s0, cmin := 0, yld := 0
              st := if em ≤ s0 then .ended else .running })

/-- The members that a PGNX yields: the lanes, and the generator after (R397). -/
def yieldMembers (n page : Nat) (q : Req) (p : Pat) : Nat → Gen → State → XRes (List Nat × Gen)
  | 0, v, s => .ok ([], v) s
  | k + 1, v, s =>
    if v.st ≠ .running then
      (yieldMembers n page q p k v s).bind fun (ls, w) t => .ok (0xFFFFFFFF :: 0xFFFFFFFF :: ls, w) t
    else
      (p.next n page v.pidx.toNat v.tid.toNat q v.dir v.rf.toNat v.cf.toNat (v.emaj.toNat - v.cmaj.toNat) v.cmaj.toNat
        v.cmin.toNat s).bind fun m t =>
        match m with
        | none =>
          (yieldMembers n page q p k { v with st := .ended } t).bind fun (ls, w) u => .ok (0xFFFFFFFF :: 0xFFFFFFFF :: ls, w) u
        | some (a, b) =>
          let ext := if v.dir then v.rf.toNat else v.cf.toNat
          let nx := if b + 1 < ext then (a, b + 1) else (a + 1, 0)
          let w := { v with cmaj := BitVec.ofNat 32 nx.1, cmin := BitVec.ofNat 32 nx.2, yld := v.yld + 1 }
          (yieldMembers n page q p k w t).bind fun (ls, z) u =>
            .ok (if v.dir then b :: a :: ls else a :: b :: ls, z) u

/-- PGNX performed (R397). -/
def doPgnx (g : Nat) (e n : Nat) (a : Access) (s : State) : XRes (Token × Nat) :=
  match s.elem? e with
  | none => .wait .no s
  | some x =>
    let v := x.gen g
    match v.pat with
    | none => .ok (dataTok (ofEls 32 (List.replicate 16 0xFFFFFFFF)) none, 0) s
    | some p =>
      (yieldMembers n (pageOf e) (a.req e) p 8 v s).bind fun (ls, w) t =>
        .ok (dataTok (ofEls 32 ls) none, 0) (t.modElem e fun x => x.setGen g w)

/-- The check of PGRS as it issues (R398). -/
def pgrsChk : AccCheck := fun _ _ a s => if contextOk a.l then .ok () s else .stop (.trap tcIllegal 0 0 0) s

/-- PGRS performed (R385, R389, R398). -/
def doPgrs (g : Nat) (e n : Nat) (a : Access) (s : State) : XRes (Token × Nat) :=
  (pgrsChk e n a s).bind fun _ t =>
    let v := genOfContext a.l []
    if v.st = .idle then .ok (doneTok none, 0) (t.modElem e fun x => x.setGen g v)
    else
      (loadProg n (a.req e) v.pidx.toNat a.port (v.tid.toNat * 2 ^ 48) t).bind fun (ws, _, p) u =>
        match (if v.dir && v.st == .running then inverseChk v p else none) with
        | some st => .stop st u
        | none => .ok (doneTok none, 0) (u.modElem e fun x => x.setGen g { v with prog := progWords ws })

/-- A pattern instruction whose effect comes as it is performed. -/
def patIssue (i : Instr) (g : Nat) (chk : AccCheck) (s : State) : Out :=
  memIssueIf (fun t x => x.genFree t.cur g) i chk s

/-- PGLD (R395). -/
def execPgld (p : Pm) (n : BitVec 2) (a : Tgt) (s : State) : Out := patIssue (.pgld p n a) n.toNat pgldChk s

/-- PGST (R396): an idle generator stops it as it issues. -/
def execPgst (p : Pm) (d : Bool) (n : BitVec 2) (a : Tgt) (s : State) : Out :=
  patIssue (.pgst p d n a) n.toNat (fun e _ _ s =>
    if ((s.elem? e).map fun x => (x.gen n.toNat).st == .idle).getD false then .stop noProgram s else .ok () s) s

/-- PGNX (R397). -/
def execPgnx (p : Pm) (n : BitVec 2) (d : Dst) (s : State) : Out :=
  patIssue (.pgnx p n d) n.toNat (fun _ _ _ s => .ok () s) s

/-- PGRS (R398). -/
def execPgrs (p : Pm) (n : BitVec 2) (a : Tgt) (s : State) : Out := patIssue (.pgrs p n a) n.toNat pgrsChk s

/-- PGSV (R398). -/
def execPgsv (p : Pm) (n : BitVec 2) (a : Tgt) (s : State) : Out :=
  run (.pgsv p n a) (fun c x r =>
    if x.genFree c n.toNat then .issue x 1 (toAll (.pgsv p n a) (dataTok (x.gen n.toNat).context r.tag)) else .wait) s

/-- PGQ: it evaluates the pattern directly (R399). -/
def execPgq (p : Pm) (n : BitVec 2) (a : Tgt) (s : State) : Out :=
  run (.pgq p n a) (fun c x r =>
    let v := x.gen n.toNat
    if !x.genFree c n.toNat then .wait
    else if v.st = .idle then .trap tcBounds 12 0 0
    else
      let m := match v.pat with
        | some q => q.mem v.rf.toNat v.cf.toNat (elAt 32 r.l.data 0) (elAt 32 r.l.data 1)
        | none => false
      .issue x 1 (toAll (.pgq p n a) (condTok m r.tag))) s

/-! ### Walking masks (R390, R400) -/

/-- The set of a bit-tree in the low bytes of a number: row masks in order; none where a set root bit has an empty leaf. -/
def treeSet (v : Nat) : Option Nat :=
  let rows := (List.range 16).filter fun r => bit v r
  let leaf (j : Nat) : Nat := v / 2 ^ (16 * (j + 1)) % 2 ^ 16
  let js := indexed 0 rows
  if js.any fun q => leaf q.1 == 0 then none
  else some ((js.map fun q => leaf q.1 * 2 ^ (16 * q.2)).sum)

/-- The token that a walk from a cursor emits (R400). -/
def walkOut (m cur : Nat) : Payload :=
  let k := min cur 256
  let ps := (List.range 256).filter fun p => decide (k ≤ p) && bit m p
  let ys := ps.take 15
  let nx := if 15 < ps.length then (ys.getLast?.getD 0) + 1 else 256
  ofEls 32 (ys ++ List.replicate (15 - ys.length) 0xFFFFFFFF ++ [nx])

/-- SLHB (R400). -/
def execSlhb (p : Pm) (o : Bool) (a : Tgt) (s : State) : Out :=
  run (.slhb p o a) (fun _ x r =>
    let ma := r.l.data.toNat % 2 ^ 256
    let mb := r.r.data.toNat % 2 ^ 256
    .issue x 2 (toAll (.slhb p o a)
      (dataTok (walkOut (if o then ma ||| mb else ma &&& mb) (elAt 32 r.t.data 0)) r.tag))) s

/-- SLHT (R400). -/
def execSlht (p : Pm) (a : Tgt) (s : State) : Out :=
  run (.slht p a) (fun _ x r =>
    match treeSet r.l.data.toNat with
    | none => .trap tcBounds 13 0 0
    | some m => .issue x 2 (toAll (.slht p a) (dataTok (walkOut m (elAt 32 r.t.data 0)) r.tag))) s

end Sys2Proof.Machine
end

