-- ==== Sys2Proof/Machine/Access.lean ====
section
/-! DEFINITION. The events ACCESS_PERFORMED and FILL_ARRIVAL: an outstanding access performs its operation (R255, R273), and
data that has come back is written into its register (R105). -/

namespace Sys2Proof.Machine

/-- What performing an access does. -/
def accDo (a : Access) (e n : Nat) (s : State) : XRes (Token × Nat) :=
  match a.op with
  | .ld => doLd e n a s
  | .st => doSt e n a s
  | .ldv => doLdv e n a s
  | .stv => doStv e n a s
  | .recl => doRecl e n a s
  | .ldt => doLdt e n a s
  | .stt => doStt e n a s
  | .pref => doPref e n a s
  | .gath => doGath e n a s
  | .scat => doScat e n a s
  | .atom o => doAtom o e n a s
  | .ascat => doAscat e n a s
  | .flush => doFlush e n a s
  | .pin => doPin e n a s
  | .unpin => doUnpin e n a s
  | .tagr => doTagr e n a s
  | .tags d => doTags d e n a s
  | .tfch b r sc => doTfch b r sc e n a s
  | .accv t m x => doAccv t m x e n a s
  | .tdsc i => doTdsc i e n a s
  | .mlook => doMlook e n a s
  | .pgld g => doPgld g e n a s
  | .pgst g t => doPgst g t e n a s
  | .pgnx g => doPgnx g e n a s
  | .pgrs g => doPgrs g e n a s
  | .chapp g => doChapp g e n a s
  | .tdisp => doTdisp e n a s
  | .launch q => doLaunch q e n a s
  | .barrier p k h => doBarrier p k h e n a s
  | .arm k h => doArm k h e n a s
  | .fence => doFence e n a s
  | .fencex f t => doFencex f t e n a s

/-- ACCESS_PERFORMED: the access with an identity, once its turn has come (R113, R273). Accesses of a stopped element are
performed (R328). -/
def execAccessPerformed (e k : Nat) (s : State) : Out :=
  match s.elem? e with
  | none => .next s
  | some x =>
    match x.acc.find? (·.id == k) with
    | none => .next s
    | some a => if s.accTurn e x a then .next (State.accEnd e a (accDo a e x.l.n s)) else .next s

/-- FILL_ARRIVAL: the oldest data on its way to a register is written once it is due, and the register is full (R105, R364). -/
def execFillArrival (e v : Nat) (s : State) : Out :=
  match s.elem? e with
  | none => .next s
  | some x =>
    match x.fills.find? (·.v == v) with
    | none => .next s
    | some f => if x.icyc < f.due then .next s else .next (s.setElem e { x.setReg v ⟨.full, f.data⟩ with fills := x.fills.erase f })

end Sys2Proof.Machine
end

