-- ==== Sys2Proof/Machine/Streams.lean ====
section
/-! DEFINITION. Stream instructions, opcodes 0x70 to 0x78 (R160 to R172). -/

namespace Sys2Proof.Machine

/-- The input port from which IN and DROP take (R160). -/
def takesPort : Instr → Option Nat
  | .in_ _ n _ | .drop _ n _ => some n.toNat
  | _ => none

/-- Which of the assigned tokens of a port belongs to a slot: the count of lower slots that take from it (R160). -/
def takeIndex (x : Elem) (c : Cursor) (port : Nat) : Nat :=
  match x.block c.epi with
  | none => 0
  | some b => (b.instrs.filter fun q => decide (q.1 < c.slot) && takesPort q.2 == some port).length

/-- The token assigned to a slot at a port (R160). -/
def assignedTok (x : Elem) (c : Cursor) (port : Nat) : Option Token :=
  match x.firing? c.no c.epi with
  | none => none
  | some f => (f.assigned.getD port [])[takeIndex x c port]?

/-- IN: the assigned token, whole (R164). -/
def execIn (p : Pm) (n : BitVec 3) (a : Tgt) (s : State) : Out :=
  run (.in_ p n a) (fun c x _ =>
    match assignedTok x c n.toNat with
    | none => .wait
    | some t => .issue x 1 (toAll (.in_ p n a) t)) s

/-- DROP: the assigned token is discarded; a null goes to the completion sink (R165). -/
def execDrop (p : Pm) (n : BitVec 3) (a : Tgt) (s : State) : Out :=
  run (.drop p n a) (fun c x _ =>
    match assignedTok x c n.toNat with
    | none => .wait
    | some t => .issue x 1 (toAll (.drop p n a) (nullTok t.tag))) s

/-- Whether a token is a marker of a kind that EOS selects (R166). -/
def eosHit (k : BitVec 2) (t : Token) : Bool :=
  (t.kind == .row && bit k.toNat 0) || (t.kind == .kend && bit k.toNat 1)

/-- EOS (R166). -/
def execEos (p : Pm) (k : BitVec 2) (a : Tgt) (s : State) : Out :=
  run (.eos p k a) (fun _ x r => .issue x 1 (toAll (.eos p k a) (condTok (eosHit k r.l) r.tag))) s

/-- EMIT: the payload with a marker kind (R167). -/
def execEmit (p : Pm) (k : BitVec 2) (a : Tgt) (s : State) : Out :=
  run (.emit p k a) (fun _ x r =>
    .issue x 1 (toAll (.emit p k a) ⟨if k = 1 then .row else .kend, r.l.data, r.tag⟩)) s

/-- BOUND: a bound token for a level; a trip outside 1 to 65,535 raises the bounds trap (R172). -/
def execBound (p : Pm) (l : BitVec 2) (a : Tgt) (s : State) : Out :=
  run (.bound p l a) (fun _ x r =>
    let v := elAt 32 r.l.data 0
    if 1 ≤ v ∧ v ≤ 65535 then .issue x 1 (toAll (.bound p l a) ⟨.bound, ofEls 32 [v, l.toNat], r.tag⟩)
    else .trap tcBounds 0 0 0) s

/-- GATE (R168). -/
def gateTok (f : Bool) (r : Args) : Token :=
  if r.t.isNull || r.l.isNull then nullTok r.tag
  else if r.t.truth != f then { r.l with tag := r.l.tag } else nullTok r.tag

/-- GATE (R168). -/
def execGate (p : Pm) (f : Bool) (a : Tgt) (s : State) : Out :=
  run (.gate p f a) (fun _ x r => .issue x 1 (toAll (.gate p f a) (gateTok f r))) s

/-! ### FILT and MERGE -/

/-- The slot that sends to a port of a slot of a block. -/
def feederOf (is : List (Nat × Instr)) (slot : Nat) (q : Port) : Option (Nat × Instr) :=
  is.find? fun p => (infoOf p.2).tgts.any fun t => match t.2 with
    | .slot d q' => d.toNat == slot && q' == q
    | _ => false

/-- The input port of the IN whose token reaches a port of a slot by slot arcs alone (R173). -/
def traceIn (is : List (Nat × Instr)) : Nat → Nat → Port → Option Nat
  | 0, _, _ => none
  | k + 1, slot, q =>
    match feederOf is slot q with
    | none => none
    | some (_, .in_ _ n _) => some n.toNat
    | some (j, _) => traceIn is k j .l

/-- The number under which an element keeps what a FILT slot counts: the slots of an epilogue stand behind the 64 of a body (R23). -/
def filtPlace (epi : Bool) (slot : Nat) : Nat := if epi then Config.slots + slot else slot

/-- The number of the slot under the cursor. -/
def Cursor.place (c : Cursor) : Nat := filtPlace c.epi c.slot

/-- Sequence number and window of a FILT slot (R169). -/
def Elem.filt (x : Elem) (slot : Nat) : Nat × Nat :=
  match x.filts.find? fun q => q.1 == slot with
  | some (_, q) => q
  | none => (0, 0)

/-- The element with the sequence number and window of a FILT slot set. -/
def Elem.setFilt (x : Elem) (slot seq win : Nat) : Elem :=
  { x with filts := (slot, seq, win) :: x.filts.filter fun q => q.1 != slot }

/-- The expected tag of a MERGE slot (R170). -/
def Elem.expect (x : Elem) (slot : Nat) : Nat := (look slot x.merges).getD 0

/-- Whether a stream ends at an IN whose token reaches the T port of a MERGE by slot arcs alone (R173). -/
def State.toMerge (s : State) (q : Stream) : Bool :=
  match q.cons with
  | .elem e n =>
    match (s.elem? e).bind fun y => y.block false with
    | none => false
    | some b => b.instrs.any fun k => match k.2 with
      | .merge _ _ _ _ _ => traceIn b.instrs 64 k.1 .t == some n
      | _ => false
  | _ => false

/-- The condition window W: the declared depth of the condition stream, which is the one of the streams that leave oC that runs to a MERGE
(R158, R169, R173). -/
def State.condWindow (s : State) (x : Elem) (e port : Nat) : Nat :=
  match s.region? x.rref with
  | none => 0
  | some r =>
    let qs := r.streams.filter fun q => q.prod == .elem e port
    (((qs.find? s.toMerge).or qs.head?).map (·.depth)).getD 0

/-- Where the record of a FILT goes: the tokens sent, by target field, and the output places it frees (R161, R169). -/
def filtSends (g w : Bool) (cp fp : BitVec 3) (a : Tgt) (seq : Nat) (r : Args) :
    List (Nat × Tgt × Token) × List (Nat × Nat) :=
  let tag (t : Token) : Token := if g then { t with tag := some (BitVec.ofNat 16 seq) } else t
  let nl := tag (nullTok r.tag)
  let freeA : List (Nat × Nat) := match a with
    | .out o => [(0, o.toNat)]
    | _ => []
  let freeF : List (Nat × Nat) := [(2, fp.toNat)]
  if r.l.isNull || r.t.isNull then
    if w then ([(0, a, nl), (2, .out fp, nl), (3, .out cp, nl)], [])
    else ([(2, .out fp, nl)], freeA)
  else
    let cond := if w then [(3, Tgt.out cp, tag (condTok r.t.truth r.tag))] else []
    if r.t.truth then ((0, a, tag r.l) :: cond, freeF)
    else ((2, .out fp, tag r.l) :: cond, freeA)

/-- FILT: waits while its window is full; routes the record; counts its sequence number and its window (R17, R169). -/
def execFilt (p : Pm) (g w : Bool) (c f : BitVec 3) (a : Tgt) (s : State) : Out :=
  runS (.filt p g w c f a) (fun cu x r st =>
    let (seq, win) := x.filt cu.place
    if w && decide (st.condWindow x cu.e c.toNat ≤ win) then .next st
    else
      let (outs, frees) := filtSends g w c f a seq r
      let x' := (x.freeOuts cu frees).setFilt cu.place (if g then (seq + 1) % 65536 else seq) (if w then win + 1 else win)
      st.finish cu x' 1 outs) s

/-- The token at the head of an input port, if instructions may take it: a dusk marker holds the port (R338). -/
def Elem.head? (x : Elem) (port : Nat) : Option Token :=
  match x.cur.inBuf.getD port [] with
  | [] => none
  | t :: _ => if t.kind = .dusk then none else some t

/-- The element with the token at the head of an input port taken. -/
def Elem.take (x : Elem) (port : Nat) : Elem :=
  { x with cur := { x.cur with inBuf := modAt x.cur.inBuf port List.tail }, inAt := modAt x.inAt port List.tail }

/-- The FILT that is paired with a MERGE: element and the number of its slot (R173). -/
def State.pairedFilt (s : State) (c : Cursor) (x : Elem) : Option (Nat × Nat) :=
  match x.block c.epi, s.region? x.rref with
  | some b, some r =>
    match traceIn b.instrs 64 c.slot .t with
    | none => none
    | some n =>
      match r.streams.find? fun q => q.cons == .elem c.e n with
      | none => none
      | some q =>
        match q.prod with
        | .elem e o =>
          (s.elem? e).bind fun y => [false, true].findSome? fun epi =>
            (y.block epi).bind fun b' => (b'.instrs.find? fun k => match k.2 with
              | .filt _ _ w cp _ _ => w && cp.toNat == o
              | _ => false).map fun k => (e, filtPlace epi k.1)
        | _ => none
  | _, _ => none

/-- One unit less on the window of a FILT (R170). -/
def State.countDown (s : State) : Option (Nat × Nat) → State
  | none => s
  | some (e, slot) =>
    s.modElem e fun y =>
      let (seq, win) := y.filt slot
      y.setFilt slot seq (win - 1)

/-- What a MERGE takes and emits: the ports it takes from and the record; or that it waits; or that a record without a
tag reached it (R16, R170). -/
inductive Merge where
  | wait
  | bad
  | take (ports : List Nat) (t : Token)
deriving DecidableEq, Repr

/-- The choice of MERGE (R170). -/
def mergeStep (tagged : Bool) (pT pF : Nat) (t : Token) (hT hF : Option Token) (expected : Nat) : Merge :=
  if !tagged then
    if t.isNull then
      match hT, hF with
      | some _, some _ => .take [pT, pF] (nullTok none)
      | _, _ => .wait
    else if t.truth then
      match hT with
      | some v => .take [pT] v
      | none => .wait
    else
      match hF with
      | some v => .take [pF] v
      | none => .wait
  else
    let untagged (h : Option Token) : Bool := match h with
      | some v => v.tag == none
      | none => false
    let hit (h : Option Token) : Bool := match h with
      | some v => v.tag == some (BitVec.ofNat 16 expected)
      | none => false
    if untagged hT || untagged hF then .bad
    else match hit hT, hit hF with
    | true, true => .take [pT, pF] (nullTok none)
    | true, false => .take [pT] (hT.getD (nullTok none))
    | false, true => .take [pF] (hF.getD (nullTok none))
    | false, false => .wait

/-- MERGE (R170). -/
def execMerge (p : Pm) (f t : BitVec 3) (g : Bool) (a : Tgt) (s : State) : Out :=
  runS (.merge p f t g a) (fun c x r st =>
    match mergeStep g t.toNat f.toNat r.t (x.head? t.toNat) (x.head? f.toNat) (x.expect c.place) with
    | .wait => .next st
    | .bad => .next (st.raise c tcIllegal 0 0 0)
    | .take ports v =>
      let st' := st.countDown (st.pairedFilt c x)
      match st'.elem? c.e with
      | none => .next st
      | some y =>
        let y' := ports.foldl Elem.take y
        let y'' := if g then { y' with merges := put c.place ((x.expect c.place + 1) % 65536) y'.merges } else y'
        st'.finish c y'' 1 (toAll (.merge p f t g a) { v with tag := none })) s

/-- Whether a region input feeds a stream. -/
def Region.usedIn (g : Region) (k : Nat) : Bool := g.streams.any fun q => q.prod == .regIn k

/-- A request for a dusk marker at every used input of a region (R171). -/
def Region.markAll (g : Region) : Region :=
  { g with ins := (indexed 0 g.ins).map fun (k, i) => { i with mark := g.usedIn k } }

/-- MARK: a request at every region input; a region without a save area discards it (R171, R337). -/
def execMark (p : Pm) (a : Tgt) (s : State) : Out :=
  runS (.mark p a) (fun c x r st =>
    match st.region? x.rref with
    | none => .next st
    | some g =>
      let fresh := g.save != 0 && !(g.ins.any (·.mark))
      let st' := if fresh then st.modRegion x.rref fun g => g.markAll else st
      st'.finish c x 1 (toAll (.mark p a) (dataTok (lane0 (b2n fresh)) r.tag))) s

end Sys2Proof.Machine
end

