-- ==== Sys2Proof/Machine/Tracks.lean ====
section
/-! DEFINITION. Streams as paths of tokens (R156 to R159, R179 to R194, R226, R230, R338, R339, R464): emission, arcs,
sidings, nodes, region ports; and the events JUNCTION_RELEASE, COUNTER_NODE_FORWARD, CORNER_TURN, COINCIDENT_EDGE,
BOUND_INPUT_FEED and BOUND_OUTPUT_DRAIN. -/

namespace Sys2Proof.Machine

/-! ### Streams of a region -/

/-- A stream of a region. -/
def State.stream? (s : State) (r : RegionRef) (k : Nat) : Option Stream :=
  match s.region? r with
  | none => none
  | some g => g.streams[k]?

/-- The state with a stream changed. -/
def State.modStream (s : State) (r : RegionRef) (k : Nat) (f : Stream → Stream) : State :=
  s.modRegion r fun g => { g with streams := modAt g.streams k f }

/-- The streams that a producer feeds: their regions and places. -/
def Launch.fedBy (l : Launch) (p : Nat → Prod → Bool) : List (RegionRef × Nat × Stream) :=
  (indexed 0 l.regions).flatMap fun (j, g) =>
    (indexed 0 g.streams).filterMap fun (k, q) => if p j q.prod then some (⟨l.ref, j⟩, k, q) else none

/-- The streams that an output port of an element feeds. -/
def Launch.fromElem (l : Launch) (e port : Nat) : List (RegionRef × Nat × Stream) :=
  l.fedBy fun _ q => q == .elem e port

/-- The streams that a region input feeds. -/
def Launch.fromIn (l : Launch) (j port : Nat) : List (RegionRef × Nat × Stream) :=
  l.fedBy fun i q => i == j && q == .regIn port

/-- The links that a region output feeds (R409). -/
def Launch.fromOut (l : Launch) (j port : Nat) : List (RegionRef × Nat × Stream) :=
  l.fedBy fun _ q => q == .link j port

/-- Whether a region's streams move: it runs, or runs on towards a pre-emption boundary (R328, R342). -/
def Region.moves (g : Region) : Bool := g.st == .running || g.st == .preempting

/-- Whether a launch stands in the pause of a rate change, in which every token stays in place (R202), or still waits for its chains. -/
def State.paused (s : State) (l : LaunchRef) : Bool := ((s.launch? l).map (·.pause)).getD false

/-- Whether an admitted wavefront is on its way in a region (R24). -/
def Region.waving (g : Region) : Bool := (g.wave.map (·.admitted)).getD false

/-- Whether a stream is a link between regions: its tokens are inside neither (R409). -/
def Stream.isLink (q : Stream) : Bool :=
  match q.prod with
  | .link _ _ => true
  | _ => false

/-- Whether a stream starts, or ends, at an element. -/
def Stream.startsAt (q : Stream) (e : Nat) : Bool :=
  match q.prod with
  | .elem u _ => u == e
  | _ => false
def Stream.endsAt (q : Stream) (e : Nat) : Bool :=
  match q.cons with
  | .elem v _ => v == e
  | _ => false

/-! ### Capacity and credit (R157, R161) -/

/-- Tokens of a siding, and the credit that is not yet seen (R192). -/
def Siding.used (d : Siding) : Nat := d.fresh.length + d.ready.length + d.freed

/-- Tokens that a siding holds. -/
def Siding.held (d : Siding) : Nat := d.fresh.length + d.ready.length

/-- An empty siding of a depth and marks. -/
def Siding.empty (depth hi lo : Nat) : Siding := ⟨depth, hi, lo, [], [], 0, true, true, 0, 0, false, false⟩

/-- How many tokens a stream moves on an edge: two where it is declared two wide (R194). -/
def Stream.width (q : Stream) : Nat := if q.wide then 2 else 1

/-- Slots of a stream: twice for a two-wide one (R194). -/
def Stream.slots (q : Stream) (n : Nat) : Nat := q.width * n

/-- The sidings of a border, and those of a stream. -/
def Border.sidings (b : Border) : List Siding := ((b.lead.map (·.lanes)).getD []) ++ b.bank.lanes
def Stream.sidings (q : Stream) : List Siding := q.borders.flatMap Border.sidings

/-- Whether a stream holds nothing on its way; rows that do not fill a corner turn stay there. -/
def Stream.transitFree (q : Stream) : Bool :=
  q.junc.isEmpty && q.wire.isEmpty && q.turned.isEmpty && q.out.isEmpty && q.sidings.all fun d => d.held == 0

/-- A border, and a stream, with every siding changed. -/
def Bank.mapLanes (b : Bank) (f : Siding → Siding) : Bank := { b with lanes := b.lanes.map f }
def Border.mapSidings (b : Border) (f : Siding → Siding) : Border :=
  { b with lead := b.lead.map (·.mapLanes f), bank := b.bank.mapLanes f }
def Stream.mapSidings (q : Stream) (f : Siding → Siding) : Stream := { q with borders := q.borders.map (·.mapSidings f) }

/-- What a stream can hold: arcs, sidings, node and buffer slots (R157, R188, R194, R409). -/
def Stream.capacity (q : Stream) : Nat :=
  q.slots q.arcs + (q.sidings.map (·.depth)).sum + (if q.turn then 16 else 0) +
  (match q.cons with
   | .linkIn _ => 0
   | _ => q.slots q.depth)

/-- The tokens in the input buffer of a stream's consumer. -/
def State.buffered (s : State) (q : Stream) : List Token :=
  match q.cons with
  | .elem e p => ((s.elem? e).map fun x => x.cur.inBuf.getD p []).getD []
  | _ => []

/-- How much of its capacity a stream uses, as its producer sees it. -/
def State.occupied (s : State) (q : Stream) : Nat :=
  q.junc.length + q.wire.length + (q.sidings.map Siding.used).sum + q.rows.length + q.turned.length + q.out.length +
  (s.buffered q).length

/-- The emissions that firings in flight still owe at a port (R161). -/
def Elem.owes (x : Elem) (port : Nat) : Nat := (x.firings.map fun f => (f.owed.filter (·.port == port)).length).sum

/-- Used levels of a generator. -/
def AgenCfg.levels (a : AgenCfg) : Nat := (a.trips.takeWhile (· != 0)).length

/-- Whether a generator stands at the start of an outer iteration (R290). -/
def AgenCfg.boundary (a : AgenCfg) (cnt : List Nat) : Bool := (List.range (a.levels - 1)).all fun l => cnt.getD l 0 == 0

/-- Whether every generator of a region stands at the end of an outer iteration (R342). -/
def State.agensIdle (s : State) (r : RegionRef) : Bool :=
  (s.regionElems r).all fun q => ((q.2.ctxNow.map (·.agens)).getD []).all fun a =>
    let g := q.2.cur.agens.getD a.port ⟨[], false, [], .no, none⟩
    g.fin || a.boundary g.cnt

/-- Whether a region's inputs let tokens in: in one that is being pre-empted, until its generators have finished their iterations
(R342). -/
def State.inputsOpen (s : State) (r : RegionRef) (g : Region) : Bool :=
  !(g.wave.map (·.admitted)).getD false && (g.st == .running || (g.st == .preempting && !s.agensIdle r))

/-- The out-direction generator that an output port feeds: its memory port and context (R287). -/
def Elem.outGen (x : Elem) (port : Nat) : Option (Nat × Agen) :=
  match x.ctxNow with
  | none => none
  | some c =>
    match c.agens.find? fun a => a.out && a.k == port with
    | none => none
    | some a => (x.cur.agens[a.port]?).map fun g => (a.port, g)

/-- Whether an output port has credit for a count beyond what is owed (R10, R158, R287). -/
def State.hasCredit (s : State) (l : Launch) (e : Nat) (x : Elem) (port n : Nat) : Bool :=
  match x.outGen port with
  | some (_, g) => decide (g.q.length + x.owes port + n ≤ 4)
  | none => (l.fromElem e port).all fun (_, _, q) => decide (s.occupied q + x.owes port + n ≤ q.capacity)

/-- The credits of an output port that are free beyond what is owed: those of the stream, or generator, that has fewest (R10, R158, R287). -/
def State.credits (s : State) (l : Launch) (e : Nat) (x : Elem) (port : Nat) : Nat :=
  match x.outGen port with
  | some (_, g) => 4 - (g.q.length + x.owes port)
  | none =>
    match (l.fromElem e port).map fun (_, _, q) => q.capacity - (s.occupied q + x.owes port) with
    | [] => 0
    | n :: r => r.foldl min n

/-! ### Island edges (R190, R192, R202) -/

/-- Whether a ratio has an edge at master cycle `c` of a hyperperiod (R190). -/
def edgeAt (p q c : Nat) : Bool := decide (c * p % q < p)

/-- Whether an island has an edge in this master cycle. -/
def Launch.edgeOf (l : Launch) (i : Island) : Bool := !l.pause && decide (l.tick < l.hyper) && edgeAt i.p i.q l.tick

/-- Whether the island of an element has an edge in this master cycle. -/
def State.elemEdge (s : State) (x : Elem) : Bool :=
  match s.launch? x.l with
  | none => false
  | some l =>
    match l.islandOf x with
    | none => false
    | some i => l.edgeOf i

/-- Whether the island of a number has an edge in this master cycle; an end in no island acts on every one. -/
def Launch.endEdge (l : Launch) (k : Option Nat) : Bool :=
  match k.bind fun j => l.islands[j]? with
  | some i => l.edgeOf i
  | none => !l.pause

/-- A function applied a number of times. -/
def times {α : Type} (f : α → α) : Nat → α → α
  | 0, a => a
  | n + 1, a => times f n (f a)

/-! ### Emission (R158, R159) -/

/-- The place at which a port's next emission stands: the first that the oldest firing owing there owes (R159). -/
def Elem.nextOut (x : Elem) (port : Nat) : Option (Firing × OutPos) :=
  match x.firings.find? fun f => f.owed.any (·.port == port) with
  | none => none
  | some f => (f.owed.find? (·.port == port)).map fun q => (f, q)

/-- The emission that waits at that place and may leave in this element cycle. -/
def Elem.heldAt (x : Elem) (port : Nat) : Option (Firing × Held) :=
  match x.nextOut port with
  | none => none
  | some (f, pos) => (f.held.find? fun h => h.pos == pos && decide (h.due ≤ x.icyc)).map fun h => (f, h)

/-- A stream's first stage takes a token: the junction, or the first arc (R157, R183). -/
def Stream.canEnter (q : Stream) : Bool :=
  if q.junction.isSome then q.junc.isEmpty else decide (q.wire.length < q.slots q.arcs)

/-- A token put into a stream. -/
def Stream.enter (q : Stream) (t : Token) (upto : Nat) : Stream :=
  if q.junction.isSome then { q with junc := q.junc ++ [(t, upto)] } else { q with wire := q.wire ++ [t] }

/-- Whether a stream takes a token now behind `n` others that are to enter it first: its first stage is free, and it holds fewer tokens than its
arcs, nodes, sidings and buffer slots (R157, R158). -/
def State.hasRoomBehind (s : State) (n : Nat) (q : Stream) : Bool :=
  (if q.junction.isSome then q.junc.isEmpty && n == 0 else decide (q.wire.length + n < q.slots q.arcs)) && decide (s.occupied q + n < q.capacity)

/-- Whether a stream takes a token now. -/
def State.hasRoom (s : State) (q : Stream) : Bool := q.canEnter && decide (s.occupied q < q.capacity)

/-- A token put into several streams, if each can take one (R158). -/
def State.enterAll (s : State) (qs : List (RegionRef × Nat × Stream)) (t : Token) (upto : Nat) : Option State :=
  if qs.all fun (_, _, q) => s.hasRoom q then
    some (qs.foldl (fun u (r, k, _) => u.modStream r k fun q => q.enter t upto) s)
  else none

/-- An emission acknowledged: it is no longer owed or held. -/
def Elem.emitted (x : Elem) (f : Firing) (pos : OutPos) : Elem :=
  x.modFiring f.no f.epi fun g => { g with owed := g.owed.filter (· != pos), held := g.held.filter fun h => h.pos != pos }

/-- The next emission of an output port leaves, if it is there and every stream has room (R158). -/
def State.emitPort (s : State) (e port : Nat) : State :=
  match s.elem? e with
  | none => s
  | some x =>
    match x.heldAt port, s.launch? x.l with
    | some (f, h), some l =>
      let y := x.emitted f h.pos
      match x.outGen port with
      | some (m, g) =>
        if g.q.length < 4 then
          s.setElem e { y with cur := { y.cur with agens := setAt y.cur.agens m { g with q := g.q ++ [h.tok] } } }
        else s
      | none =>
        match l.fromElem e port with
        | [] => s
        | qs =>
          match s.enterAll qs h.tok h.upto with
          | some t => t.setElem e y
          | none => s
    | _, _ => s

/-- How many tokens a port puts into its streams at once: two where it feeds two-wide streams alone (R194). -/
def widthOf : List (RegionRef × Nat × Stream) → Nat
  | [] => 1
  | qs => if qs.all fun q => q.2.2.wide then 2 else 1
def Launch.portWidth (l : Launch) (e port : Nat) : Nat := widthOf (l.fromElem e port)

/-- What an element has to emit in this element cycle leaves, port by port. -/
def State.emitAll (s : State) (e : Nat) : State :=
  match (s.elem? e).bind fun x => s.launch? x.l with
  | none => s
  | some l => (List.range 8).foldl (fun t p => times (fun u => State.emitPort u e p) (l.portWidth e p) t) s

/-! ### Delivery -/

/-- A token arrives in an input buffer; on an init-fed port whose cut still records, it is recorded (R338). -/
def Elem.arrive (x : Elem) (port : Nat) (t : Token) : Elem :=
  { x with cur := { x.cur with inBuf := modAt x.cur.inBuf port (· ++ [t]) } }

/-- A token recorded in the cut that an element saved last (R338). -/
def Region.record (g : Region) (e epoch port : Nat) (t : Token) : Region :=
  { g with cuts := g.cuts.map fun c =>
      if c.epoch = epoch then
        { c with elems := c.elems.map fun v => if v.e = e then { v with inBuf := modAt v.inBuf port (· ++ [t]) } else v }
      else c }

/-- A bound token's value arrives at a counter node: for a used level it takes its place (R187). -/
def CountNode.bound (n : CountNode) (lvl v : Nat) : CountNode :=
  if n.trips0.getD lvl 0 = 0 then n
  else if n.begun then { n with pend := setAt n.pend lvl (some v) }
  else { n with trips := setAt n.trips lvl v }

/-- The head of a stream's output handed to the consumer, where it has room (R157, R172, R302). Nulls and bounds for a counter
node are treated by R187. R172 asks that a BOUND's stream end at a counter node and names no refusal for one that does not; a bound token
is then delivered as any other (DESIGN CHOICE, log 98). -/
def State.deliver (s : State) (r : RegionRef) (k : Nat) : State :=
  match s.stream? r k with
  | none => s
  | some q =>
    match q.out with
    | [] => s
    | t :: rest =>
      let s' := s.modStream r k fun q => { q with out := rest }
      match q.cons with
      | .elem e p =>
        match s.elem? e with
        | none => s
        | some x =>
          if x.stopped then s
          else if t.kind == .dusk && decide (0 < q.init) then
            s'.setElem e { x with marks := setAt x.marks p false }
          else if q.slots q.depth ≤ (x.cur.inBuf.getD p []).length then s
          else
            let s2 := match q.junction with
              | some c => s'.acquireAt (pageOf e) c
              | none => s'
            let s3 := s2.setElem e (x.arrive p t)
            if x.marks.getD p false then s3.modRegion r fun g => g.record e x.epoch p t else s3
      | .regOut _ => s
      | .linkIn p =>
        match s.region? r with
        | none => s
        | some g =>
          if (g.ins.getD p {}).q.length < q.width then
            s'.modRegion r fun g => { g with ins := modAt g.ins p fun i => { i with q := i.q ++ [t] } }
          else s
      | .count j =>
        if t.kind == .bound then
          s'.modStream r j fun c => { c with count := c.count.map fun n => n.bound (elAt 32 t.data 1) (elAt 32 t.data 0) }
        else s'

/-! ### Arcs and sidings (R181, R192 to R194) -/

/-- A siding accepts a token, which the other side sees from the next coincident edge on. -/
def Siding.accept (d : Siding) (t : Token) : Siding := { d with fresh := d.fresh ++ [t] }

/-- A siding releases its head; the credit is seen at the next coincident edge (R192). -/
def Siding.release (d : Siding) : Siding := { d with ready := d.ready.tail, freed := d.freed + 1 }

/-- A siding exchanges state between its sides (R192); its occupancy against the marks is noted (R199). -/
def Siding.exchange (d : Siding) : Siding :=
  { d with
    fresh := [], ready := d.ready ++ d.fresh, freed := 0
    above := d.above && decide (d.hi < d.held), below := d.below && decide (d.held < d.lo) }

/-- Whether the siding whose turn it is shows room for a token (R192, R194). -/
def Bank.room (b : Bank) : Bool := ((b.lanes[b.put]?).map fun d => decide (d.used < d.depth)).getD false

/-- The token that the siding whose turn it is shows at its head. -/
def Bank.head (b : Bank) : Option Token := (b.lanes[b.take]?).bind fun d => d.ready.head?

/-- A token into the siding whose turn it is, and out of it; the turn passes on. -/
def Bank.accept (b : Bank) (t : Token) : Bank :=
  { b with lanes := modAt b.lanes b.put (·.accept t), put := (b.put + 1) % b.lanes.length }
def Bank.release (b : Bank) : Bank :=
  { b with lanes := modAt b.lanes b.take Siding.release, take := (b.take + 1) % b.lanes.length }

/-- The sidings of a border at a start: the first is next on both sides. -/
def Bank.empty (n depth hi lo : Nat) : Bank := ⟨List.replicate n (.empty depth hi lo), 0, 0⟩

/-- Whether a border accepts a token on its producing side, and one that does. -/
def Border.room (b : Border) : Bool := (b.lead.getD b.bank).room
def Border.accept (b : Border) (t : Token) : Border :=
  match b.lead with
  | some a => { b with lead := some (a.accept t) }
  | none => { b with bank := b.bank.accept t }

/-- The token that a border shows on its consuming side, and the border without it. -/
def Border.head (b : Border) : Option Token := b.bank.head
def Border.release (b : Border) : Border := { b with bank := b.bank.release }

/-- The members of a pair pass a token on a master cycle (R193). -/
def Border.pass (b : Border) : Border :=
  match b.lead with
  | none => b
  | some a =>
    match a.head with
    | none => b
    | some t => if b.bank.room then { b with lead := some a.release, bank := b.bank.accept t } else b

/-- A border exchanges: a single siding when both islands have an edge, each member of a pair when its own island has (R192, R193). -/
def Border.exchange (b : Border) (pe ce : Bool) : Border :=
  match b.lead with
  | some a =>
    { b with
      lead := some (if pe then a.mapLanes Siding.exchange else a)
      bank := if ce then b.bank.mapLanes Siding.exchange else b.bank }
  | none => if pe && ce then { b with bank := b.bank.mapLanes Siding.exchange } else b

/-- A token passed from one border to the next, on the clock that they share. -/
def passOn (ab : Border × Border) : Border × Border :=
  match ab.1.head with
  | some t => if ab.2.room then (ab.1.release, ab.2.accept t) else ab
  | none => ab

/-- Tokens passed between consecutive borders of a stream on the edges of the island between them, `n` at the most. -/
def passBorders (n : Nat) (edge : Nat → Bool) : List Border → List Border
  | a :: b :: r =>
    match passBorders n edge (b :: r) with
    | c :: r' => if edge a.c then let z := times passOn n (a, c); z.1 :: z.2 :: r' else a :: c :: r'
    | [] => [a]
  | l => l

/-- What a stream's borders pass among themselves in a master cycle: between the members of a pair, and from border to border. -/
def Stream.passAlong (q : Stream) (edge : Nat → Bool) : Stream :=
  { q with borders := passBorders q.width edge (q.borders.map fun b => times Border.pass q.width b) }

/-- The head of the arcs accepted by the first border (R181). -/
def Stream.acceptOne (q : Stream) : Stream :=
  match q.wire, q.borders with
  | t :: rest, b :: r => if b.room then { q with wire := rest, borders := b.accept t :: r } else q
  | _, _ => q

/-- What the first border accepts on an edge of its producing island. -/
def Stream.acceptFirst (q : Stream) (edge : Nat → Bool) : Stream :=
  match q.borders with
  | b :: _ => if edge b.p then times Stream.acceptOne q.width q else q
  | [] => q

/-- The token that a stream's path releases at its consumer's end, and the stream without it: from the last border, or from the last
arc. -/
def Stream.pathHead (q : Stream) : Option (Token × Stream) :=
  match q.borders.getLast? with
  | some b => (b.head).map fun t => (t, { q with borders := modAt q.borders (q.borders.length - 1) Border.release })
  | none =>
    match q.wire with
    | [] => none
    | t :: rest => some (t, { q with wire := rest })

/-- The token that reaches a stream's counter node, or its consumer's end past the corner turn (R184). -/
def Stream.pastTurn (q : Stream) : Option (Token × Stream) :=
  if q.turn then
    match q.turned with
    | [] => none
    | t :: rest => some (t, { q with turned := rest })
  else q.pathHead

/-- A token past the arcs and nodes of a stream with no counter node, where the consumer's end has room for it. -/
def Stream.passOut (q : Stream) (room : Bool) : Stream :=
  if q.count.isSome || !room then q
  else match q.pastTurn with
  | some (t, q') => { q' with out := q'.out ++ [t] }
  | none => q

/-! ### Region inputs (R226, R230, R338, R339) -/

/-- L of R337: N, or 64 when CUTN is 0. -/
def Region.markEvery (g : Region) : Nat := if g.cutn = 0 then 64 else g.cutn

/-- Whether a region input may accept a new token now: the replay log has room and the gate admits it (R230, R339). -/
def Region.admits (g : Region) (k : Nat) : Bool :=
  let i := g.ins.getD k {}
  !i.want && i.replay.isEmpty && (g.save == 0 || decide (i.log.length < 2 * g.markEvery)) &&
  !(k == 0 && g.gated && g.tiles == 0)

/-- The counts of an input after it has accepted a token (R230, R338): a marker is due after every N-th, after 64 since the
last where CUTN is 0, and after a MARK. -/
def Region.counted (g : Region) (k : Nat) (fresh : Bool) (t : Token) : Region :=
  let up (i : RIn) : RIn :=
    let c := i.since + 1
    let hit := decide (g.markEvery ≤ c) || i.mark
    if g.save = 0 then i
    else
      { i with
        since := if g.markEvery ≤ c then 0 else c
        want := hit
        mark := i.mark && !hit
        log := if fresh then i.log ++ [t] else i.log
        replay := if fresh then i.replay else i.replay.tail }
  let h := { g with ins := modAt g.ins k up }
  if fresh && k == 0 && g.gated then
    let n := (g.ins.getD 0 {}).gate + 1
    { h with
      ins := modAt h.ins 0 fun i => { i with gate := n % 16 }
      tiles := if n = 16 then g.tiles - 1 else g.tiles
      admitted := if n = 16 then (g.admitted + 1) % 2 ^ 32 else g.admitted }
  else h

/-- A dusk marker injected at a region input (R338); with CUTN = 0 the count begins again. -/
def Region.marked (g : Region) (k : Nat) : Region :=
  { g with ins := modAt g.ins k fun i =>
      let c := if g.cutn = 0 then 0 else i.since
      { i with
        want := false
        nmark := i.nmark + 1
        since := c
        marks := i.marks ++ [(i.nmark + 1, i.log.length - i.replay.length, c)] } }

/-- A dusk marker. -/
def duskTok : Token := ⟨.dusk, 0, none⟩

/-! ### The save area (R337) -/

/-- Bytes of an element's share of a cut buffer. -/
def Elem.saveSize (x : Elem) : Nat := 4096 + 64 * x.regs + x.scrBytes + 1024 * x.accTiles

/-- Bytes of a cut buffer of a region. -/
def State.cutBytes (s : State) (r : RegionRef) : Nat := ((s.regionElems r).map fun q => q.2.saveSize).sum

/-- Where an element's share of the buffer of a cut stands: the two buffers alternate, shares in element order. -/
def State.cutAt (s : State) (r : RegionRef) (save epoch e : Nat) : Nat :=
  save + epoch % 2 * s.cutBytes r + (((s.regionElems r).takeWhile fun q => q.1 != e).map fun q => q.2.saveSize).sum

/-- Bytes that the part writes into a save area; their layout is not given. -/
def State.saveFree (s : State) (n iova len : Nat) : State :=
  { s.ioWrite n iova ((List.range len).map (Config.savedByte s.fresh)) with fresh := s.fresh + 1 }

/-- The used inputs of a region, in order. -/
def Launch.usedIns (l : Launch) (j n : Nat) : List Nat := (List.range n).filter fun k => !(l.fromIn j k).isEmpty

/-- Where the next token that a region input accepts stands in the replay log: behind the two cut buffers, in the 2·L places of the input
(R337; log 40). -/
def State.logAt (s : State) (l : Launch) (j k : Nat) (g : Region) : Nat :=
  let nth := ((l.usedIns j g.ins.length).takeWhile (· != k)).length
  g.save + 2 * s.cutBytes ⟨l.ref, j⟩ + 128 * g.markEvery * nth + 64 * (g.ins.getD k {}).place

/-- A token that a region input has accepted is written into the replay log (R337, R339). -/
def State.logToken (s : State) (l : Launch) (j k : Nat) (g : Region) : State :=
  if g.save = 0 then s
  else (s.saveFree l.ref.n (s.logAt l j k g) 64).modRegion ⟨l.ref, j⟩ fun h =>
    { h with ins := modAt h.ins k fun i => { i with place := (i.place + 1) % (2 * g.markEvery) } }

/-- A region input puts its next token into its streams: a marker that is due, a token to replay, or one that waits (R158). -/
def State.pumpIn (s : State) (l : Launch) (j k : Nat) : State :=
  let r : RegionRef := ⟨l.ref, j⟩
  match s.region? r with
  | none => s
  | some g =>
    match l.fromIn j k with
    | [] => s
    | qs =>
      let i := g.ins.getD k {}
      let go (t : Token) (f : Region → Region) : State :=
        match s.enterAll qs t 0 with
        | some u => u.modRegion r f
        | none => s
      if !s.inputsOpen r g then s
      else if i.want then go duskTok (·.marked k)
      else match i.replay with
      | t :: _ => go t fun g => g.counted k false t
      | [] =>
        match i.q with
        | t :: rest =>
          if g.admits k then
            match s.enterAll qs t 0 with
            | some u =>
              (u.modRegion r fun g =>
                { g.counted k true t with ins := modAt (g.counted k true t).ins k fun i => { i with q := rest } }).logToken l j k g
            | none => s
          else s
        | [] => s

/-! ### Region outputs (R226, R339, R340) -/

/-- The stream that ends at a region output. -/
def Region.outStream (g : Region) (k : Nat) : Option (Nat × Stream) :=
  (indexed 0 g.streams).find? fun p => p.2.cons == .regOut k

/-- A token gone from a region output: counted, or suppressed (R340). -/
def Region.outGone (g : Region) (k j : Nat) (supp : Bool) : Region :=
  { g with
    streams := modAt g.streams j fun q => { q with out := q.out.tail }
    outs := modAt g.outs k fun o => if supp then { o with suppress := o.suppress - 1, since := o.since + 1 }
      else { o with since := o.since + 1 } }

/-- A dusk marker passes a region output (R339). -/
def Region.outMarked (g : Region) (k j : Nat) : Region :=
  { g with
    streams := modAt g.streams j fun q => { q with out := q.out.tail }
    outs := modAt g.outs k fun o => { o with nmark := o.nmark + 1, marks := o.marks ++ [(o.nmark + 1, o.since)] } }

/-- The head of a region output, past markers and what is to be suppressed. -/
def State.pumpOut (s : State) (l : Launch) (j k : Nat) : State :=
  let r : RegionRef := ⟨l.ref, j⟩
  match s.region? r with
  | none => s
  | some g =>
    match g.outStream k with
    | none => s
    | some (m, q) =>
      match q.out with
      | [] => s
      | t :: _ =>
        if t.kind == .dusk then s.modRegion r (·.outMarked k m)
        else if 0 < (g.outs.getD k {}).suppress then s.modRegion r (·.outGone k m true)
        else match l.fromOut j k with
        | [] => s
        | qs =>
          match s.enterAll qs t 0 with
          | some u => u.modRegion r (·.outGone k m false)
          | none => s

/-! ### Complete cuts (R339) -/

/-- Whether cut `e` of a region is complete: every element has saved for it and has no init-fed input that still records, and every region
output in use has passed its marker. -/
def State.cutDone (s : State) (r : RegionRef) (g : Region) (e : Nat) : Bool :=
  (match g.cuts.find? (·.epoch == e) with
   | none => false
   | some c => (s.regionElems r).all fun (k, x) => c.elems.any (·.e == k) && (decide (e < x.epoch) || !x.marks.contains true)) &&
  (indexed 0 g.outs).all fun (k, o) => (g.outStream k).isNone || decide (e ≤ o.nmark)

/-- A region whose cut `e` has become its last complete one: replay logs, output counts and older cuts are cut down (R339). -/
def Region.completeCut (g : Region) (e : Nat) : Region :=
  { g with
    epoch := e
    cuts := g.cuts.filter fun c => decide (e ≤ c.epoch)
    ins := g.ins.map fun i =>
      match i.marks.find? (·.1 == e) with
      | none => i
      | some (_, n, c) =>
        { i with log := i.log.drop n, since0 := c, marks := (i.marks.filter fun m => decide (e < m.1)).map fun (a, b, d) => (a, b - n, d) }
    outs := g.outs.map fun o =>
      match o.marks.find? (·.1 == e) with
      | none => o
      | some (_, n) =>
        { o with since := o.since - n, marks := (o.marks.filter fun m => decide (e < m.1)).map fun (a, b) => (a, b - n) } }

/-- The cuts of a region as the reports they follow are forgotten. -/
def Region.keepReports (g : Region) : Region :=
  { g with cuts := g.cuts.map fun c => { c with elems := c.elems.map fun v => { v with nrep := 0 } } }

/-- The next cut of a region taken as complete once it is; reports kept for a rollback are those after it (R309). -/
def State.checkCut (s : State) (r : RegionRef) : State :=
  match s.region? r with
  | none => s
  | some g =>
    if g.save ≠ 0 ∧ s.cutDone r g (g.epoch + 1) then
      let vs := ((g.cuts.find? (·.epoch == g.epoch + 1)).map (·.elems)).getD []
      vs.foldl (fun t v => t.modElem v.e fun x => { x with reports := x.reports.drop v.nrep }) 
        (s.modRegion r (fun h => (h.completeCut (g.epoch + 1)).keepReports))
    else s

/-! ### Pumping a launch -/

/-- Whether the end of a stream has room for a token: a slot of the consumer's buffer, one of a region output's, or, for a link,
room in the streams that the region input feeds (R157, R181, R409). A stream with initial tokens always hands over its head, for
that may be a marker, which takes no slot (R338). -/
def State.endRoom (s : State) (l : Launch) (r : RegionRef) (q : Stream) : Bool :=
  match q.cons with
  | .elem e p => q.out.isEmpty &&
      (decide (0 < q.init) || decide (((s.elem? e).map fun x => (x.cur.inBuf.getD p []).length).getD 0 < q.slots q.depth))
  | .regOut _ => decide (q.out.length < q.slots q.depth)
  | .linkIn p => q.out.isEmpty && (((s.region? r).map fun g =>
      let n := (g.ins.getD p {}).q.length
      decide (n < q.width) && (l.fromIn r.k p).all fun (_, _, z) => s.hasRoomBehind n z).getD false)
  | .count _ => q.out.isEmpty

/-- One token of a stream moved past its path's end, and one handed to its consumer. -/
def State.moveOne (l : Launch) (r : RegionRef) (k : Nat) (s : State) : State :=
  match s.stream? r k with
  | none => s
  | some q => (s.modStream r k fun z => z.passOut (s.endRoom l r q)).deliver r k

/-- One stream's tokens moved towards its consumer: along its borders, and, on an edge of the consuming island, to the consumer, one token,
or two of a two-wide stream (R157, R181, R193, R194). -/
def State.pumpStream (s : State) (l : Launch) (j k : Nat) : State :=
  let r : RegionRef := ⟨l.ref, j⟩
  match s.stream? r k with
  | none => s
  | some q =>
    let t := s.modStream r k fun z => z.passAlong fun i => l.endEdge (some i)
    if l.endEdge q.cIsl then times (State.moveOne l r k) q.width t else t

/-- The state with something done to each region of a launch whose streams move. Nothing moves in the pause of a rate change (R202) or in a
region that has stopped. -/
def State.overRegions (s : State) (ref : LaunchRef) (f : Launch → Nat → Region → State → State) : State :=
  match s.launch? ref with
  | none => s
  | some l => if l.pause then s else (indexed 0 l.regions).foldl (fun t (j, g) => if g.moves then f l j g t else t) s

/-- The tokens of a launch moved: streams, region inputs and outputs. -/
def State.pumpLaunch (s : State) (ref : LaunchRef) : State :=
  s.overRegions ref fun l j g t =>
    let a := (List.range g.streams.length).foldl (fun u k => u.pumpStream l j k) t
    let b := (List.range 8).foldl (fun u k => times (fun v => State.pumpIn v l j k) (widthOf (l.fromIn j k)) u) a
    let c := (List.range 8).foldl (fun u k => times (fun v => State.pumpOut v l j k) (widthOf (l.fromOut j k)) u) b
    c.checkCut ⟨ref, j⟩

/-- What the first sidings of a launch's streams accept in a master cycle, after the elements' emissions of that cycle (R181, R213). -/
def State.acceptLaunch (s : State) (ref : LaunchRef) : State :=
  s.overRegions ref fun l j _ t =>
    t.modRegion ⟨ref, j⟩ fun g => { g with streams := g.streams.map fun q => q.acceptFirst fun i => l.endEdge (some i) }

/-! ### The events -/

/-- A junction's token put on the first arc. -/
def Stream.unheld (q : Stream) : Stream :=
  match q.junc with
  | (t, _) :: rest => { q with junc := rest, wire := q.wire ++ [t] }
  | [] => q

/-- Whether a write on path EP that an element issued before its `upto`-th access is still to be performed: an instruction's, or a step of one of
its out-direction generators (R183, R289, R302). -/
def Elem.writesDue (x : Elem) (upto : Nat) : Bool :=
  (x.acc.any fun a => a.path == .ep && a.op.writes && decide (a.id < upto)) || x.stepsBefore upto

/-- JUNCTION_RELEASE (R183, R263): the producer's writes on path EP that issued before the slot have been performed, and a release at the
junction's scope writes back its slice. A token of a region port has no element whose writes it could follow. Nothing is released in the pause
of a rate change (R202). -/
def execJunctionRelease (r : RegionRef) (k : Nat) (s : State) : Out :=
  match s.stream? r k with
  | none => .next s
  | some q =>
    match q.junction, q.junc with
    | some c, (_, upto) :: _ =>
      if q.slots q.arcs ≤ q.wire.length ∨ s.paused r.l then .next s
      else match q.prod with
      | .elem e _ =>
        (match s.elem? e with
         | none => .next s
         | some x =>
           if x.writesDue upto then .next s
           else .next ((s.releaseAt x.l.n (pageOf e) c).modStream r k Stream.unheld))
      | _ => .next (s.modStream r k Stream.unheld)
    | _, _ => .next s

/-- Used levels of a counter node: those below the first trip of 0 (R185). -/
def CountNode.levels (n : CountNode) : Nat := (n.trips0.takeWhile (· != 0)).length

/-- The marker of a level: its kind, with the level in lane 0; none where the kind is none (R186). -/
def levelMark (kinds : List Nat) (lvl : Nat) : List Token :=
  match kinds.getD lvl 0 with
  | 1 => [⟨.row, lane0 lvl, none⟩]
  | 2 => [⟨.kend, lane0 lvl, none⟩]
  | _ => []

/-- One count at a level: the counts after, and the levels completed from it outward (R186). -/
def countUp (trips : List Nat) (used : Nat) : Nat → Nat → List Nat → List Nat × List Nat
  | 0, _, cnt => (cnt, [])
  | fuel + 1, lvl, cnt =>
    let c := cnt.getD lvl 0 + 1
    if c < trips.getD lvl 0 then (setAt cnt lvl c, [])
    else
      let z := setAt cnt lvl 0
      if lvl + 1 < used then
        let (d, done) := countUp trips used fuel (lvl + 1) z
        (d, lvl :: done)
      else (z, [lvl])

/-- The node after a data or null token, and the markers it inserts (R186, R187). -/
def CountNode.count (n : CountNode) : CountNode × List Token :=
  let used := n.levels
  let (cnt, done) := countUp n.trips used 4 0 n.cnt
  let act (i : Nat) : Bool := (done.contains (i + 1) && decide (i + 1 < used)) || (i + 1 == used && done.contains i)
  let pairs := (indexed 0 n.trips).map fun (i, t) =>
    match n.pend.getD i none with
    | some v => if act i then (v, none) else (t, some v)
    | none => (t, none)
  ({ n with cnt := cnt, trips := pairs.map (·.1), pend := pairs.map (·.2), begun := true }, done.flatMap (levelMark n.kinds))

/-- COUNTER_NODE_FORWARD (R186): one token forwarded, counted, and the markers of the levels it completes inserted; a dusk
marker's passing is kept for the cut. On an edge a two-wide stream forwards a second one behind it (R194). -/
def execCounterNodeForward (r : RegionRef) (k : Nat) (s : State) : Out :=
  match s.launch? r.l, s.region? r, s.stream? r k with
  | some l, some g, some q =>
    match q.count with
    | none => .next s
    | some n =>
      if !g.moves || !l.endEdge q.cIsl || q.width ≤ q.out.length then .next s
      else match q.pastTurn with
      | none => .next s
      | some (t, q') =>
        if t.kind == .data || t.kind == .null then
          let (m, ms) := n.count
          .next (s.modStream r k fun _ => { q' with count := some m, out := q.out ++ t :: ms })
        else
          let u := s.modStream r k fun _ => { q' with out := q.out ++ [t] }
          if t.kind == .dusk then
            .next (u.modRegion r fun g =>
              let e := (g.cuts.map (·.epoch)).foldl max g.epoch
              let e' := if (g.cuts.any fun c => c.epoch == e && c.nodes.any (·.1 == k)) then e + 1 else max e (g.epoch + 1)
              { g with cuts := (if g.cuts.any (·.epoch == e') then g.cuts else g.cuts ++ [⟨e', [], []⟩]).map fun c =>
                  if c.epoch = e' then { c with nodes := c.nodes ++ [(k, n)] } else c })
          else .next u
  | _, _, _ => .next s

/-- The sixteen outputs of a corner turn: lane i of output j is lane j of row i; all null if a row is (R188). R188 gives the outputs' lanes and
no kind or sequence tag: they are data tokens, or nulls, without a tag, whatever the rows were (DESIGN CHOICE, log 117). -/
def turnRows (rows : List Token) : List Token :=
  if rows.any Token.isNull then List.replicate 16 (nullTok none)
  else (List.range 16).map fun j => dataTok (ofEls 32 (rows.map fun t => elAt 32 t.data j)) none

/-- CORNER_TURN (R188): one row or marker taken; a full block, or one that a marker closes, is emitted. -/
def execCornerTurn (r : RegionRef) (k : Nat) (s : State) : Out :=
  match s.launch? r.l, s.region? r, s.stream? r k with
  | some l, some g, some q =>
    if !q.turn || !g.moves || !l.endEdge q.cIsl || !q.turned.isEmpty then .next s
    else match q.pathHead with
    | none => .next s
    | some (t, q') =>
      if t.kind == .data || t.kind == .null || t.kind == .cond then
        let rows := q.rows ++ [t]
        .next (s.modStream r k fun _ =>
          if rows.length = 16 then { q' with rows := [], turned := turnRows rows } else { q' with rows := rows })
      else if q.rows.isEmpty then .next (s.modStream r k fun _ => { q' with turned := [t] })
      else
        let rows := q.rows ++ List.replicate (16 - q.rows.length) (dataTok 0 none)
        .next (s.modStream r k fun _ => { q' with rows := [], turned := turnRows rows ++ [t] })
  | _, _, _ => .next s

/-- COINCIDENT_EDGE (R192, R193): the borders of a stream exchange state as a master cycle begins, before anything is released or accepted
in it: a token accepted on a coincident edge is seen at the next one (DEDUCED, log 99). -/
def execCoincidentEdge (r : RegionRef) (k : Nat) (s : State) : Out :=
  match s.launch? r.l with
  | none => .next s
  | some l =>
    .next (s.modStream r k fun q =>
      { q with borders := q.borders.map fun b => b.exchange (l.endEdge (some b.p)) (l.endEdge (some b.c)) })

/-- The device page of a region port, whose slice serves it (R226, R465). -/
def Region.portPage (g : Region) (out : Bool) (k : Nat) : Nat := if out then (g.outs.getD k {}).page else (g.ins.getD k {}).page

/-- The trap of a region port, whose slice is that of a page (R464). -/
def portFault (s : State) (n page : Nat) (out k : Nat) (tok : Dword) (c : Stop) : FaultReg :=
  let (cls, cause, d, addr) := s.stopRec n 0 tok c
  { cls := cls, cause := cause, col := 0, row := 0, ctx := 0, blk := false, slot := 0, nopos := true, node := 0
    loop := BitVec.ofNat 64 (2 ^ 63 + 8 * out + k), addr := addr, detail := d, mc := 0, fires := 0, cycle := s.cycle, no := page
    pol := (s.part n).faultPol }

/-- A trap that no element raised: the first of a region stands, a later one is kept to be recorded (R330). -/
def Region.trap (g : Region) (f : FaultReg) : Region :=
  if g.portFault.isSome then { g with portMore := g.portMore ++ [f] } else { g with portFault := some f }

/-- The trap of a region port raised in its region. -/
def State.raisePort (s : State) (r : RegionRef) (f : FaultReg) : State := s.modRegion r (·.trap f)

/-- The places of the 64 bytes of a bound port's access, checked under R241 and translated (R464). -/
def State.portPlan (s : State) (n page : Nat) (tok : Dword) (write : Bool) : XRes (Obj × List (Nat × Nat)) :=
  (s.object n (.feed page) (tokTid tok)).bind fun o t =>
  (t.checked n (.feed page) o (tokOff tok) 64 write).bind fun ps u =>
  (u.placed n (.feed page) ps write).bind fun pas v => .ok (o, pas) v

/-- An address token with its offset moved on (R226). -/
def tokPlus (t : Dword) (n : Nat) : Dword := BitVec.ofNat 64 (tokTid t * 2 ^ 48 + (tokOff t + n) % 2 ^ 48)

/-- BOUND_INPUT_FEED (R226, R464): the next token is read at memory and waits to enter. -/
def execBoundInputFeed (r : RegionRef) (k : Nat) (s : State) : Out :=
  match s.region? r with
  | none => .next s
  | some g =>
    let i := g.ins.getD k {}
    match i.bind with
    | none => .next s
    | some b =>
      if ((s.launch? r.l).map fun l => !l.chains.isEmpty).getD true || s.paused r.l || !s.inputsOpen r g || !g.admits k || !i.q.isEmpty || i.wait.withholds || g.portFault.isSome || (b.count != 0 && decide (b.count ≤ i.given)) then
        .next s
      else
        let tok := tokPlus b.tok (64 * i.given)
        let setI (t : State) (f : RIn → RIn) : State := t.modRegion r fun g => { g with ins := modAt g.ins k f }
        match s.portPlan r.l.n (g.portPage false k) tok false with
        | .wait w t => .next (setI t fun i => { i with wait := w })
        | .stop c t => .next (t.raisePort r (portFault t r.l.n (g.portPage false k) 0 k tok c))
        | .ok (_, pas) t =>
          let bs := pas.flatMap fun a => t.memRead r.l.n a.1 a.2
          .next (setI t fun i =>
            { i with wait := .no, given := i.given + 1, q := [dataTok (BitVec.ofNat 512 (ofBytes bs)) none] })

/-- BOUND_OUTPUT_DRAIN (R226, R464): a data token is written to memory; another kind is taken and not written. -/
def execBoundOutputDrain (r : RegionRef) (k : Nat) (s : State) : Out :=
  match s.region? r with
  | none => .next s
  | some g =>
    let o := g.outs.getD k {}
    match o.bind, g.outStream k with
    | some b, some (m, q) =>
      match q.out with
      | [] => .next s
      | t :: _ =>
        if !g.moves || s.paused r.l || o.wait.withholds || g.portFault.isSome || decide (0 < o.suppress) || t.kind == .dusk ||
            (b.count != 0 && decide (b.count ≤ o.taken)) then .next s
        else if t.kind != .data then .next (s.modRegion r (·.outGone k m false))
        else
          let tok := tokPlus b.tok (64 * o.taken)
          let setO (t : State) (f : ROut → ROut) : State := t.modRegion r fun g => { g with outs := modAt g.outs k f }
          match s.portPlan r.l.n (g.portPage true k) tok true with
          | .wait w u => .next (setO u fun o => { o with wait := w })
          | .stop c u => .next (u.raisePort r (portFault u r.l.n (g.portPage true k) 1 k tok c))
          | .ok (_, pas) u =>
            if u.haltedHolds r.l.n pas then .next u
            else
            let v := (pas.foldl (fun (x : State × List Byte) a => (x.1.engineWrite r.l.n a.1 (x.2.take a.2), x.2.drop a.2))
              (u, toBytes 64 t.data.toNat)).1
            .next (setO (v.modRegion r (·.outGone k m false)) fun o => { o with wait := .no, taken := o.taken + 1 })
    | _, _ => .next s

end Sys2Proof.Machine
end

