-- ==== Sys2Proof/Machine/Graph.lean ====
section
/-! DEFINITION. The graph that the loader and the Timetable Engine see: actors, region ports and generators joined by
streams (R158, R173, R174), the repetition vector (R175, R195), filter-merge pairs, and the initial tokens of streams. -/

namespace Sys2Proof.Machine

/-! ### Fractions -/

/-- A fraction of naturals; the denominator of every one the model builds is not 0. -/
structure Frac where
  n : Nat
  d : Nat
deriving DecidableEq, Repr

/-- A fraction in lowest terms. -/
def Frac.red (a : Frac) : Frac := let g := Nat.gcd a.n a.d; ⟨a.n / g, a.d / g⟩

/-- Products, quotients and comparisons of fractions. -/
def Frac.mul (a b : Frac) : Frac := Frac.red ⟨a.n * b.n, a.d * b.d⟩
def Frac.div (a b : Frac) : Frac := Frac.red ⟨a.n * b.d, a.d * b.n⟩
def Frac.le (a b : Frac) : Bool := decide (a.n * b.d ≤ b.n * a.d)
def Frac.lt (a b : Frac) : Bool := decide (a.n * b.d < b.n * a.d)
def Frac.eqv (a b : Frac) : Bool := a.n * b.d == b.n * a.d
def Frac.max (a b : Frac) : Frac := if a.le b then b else a
def Frac.min (a b : Frac) : Frac := if a.le b then a else b

/-- A natural as a fraction. -/
def Frac.nat (n : Nat) : Frac := ⟨n, 1⟩

/-! ### Nets -/

/-- The regions and elements of a launch, before or after it is placed, with the context of each element that counts. -/
structure Net where
  regions : List Region
  elems : List (Nat × Elem)
  ctx : Elem → Nat

/-- A node of the graph (R175, R176, R290): an actor, a region input or output, or an address generator. -/
inductive GNode where
  | act (e : Nat)
  | rin (j k : Nat)
  | rout (j k : Nat)
  | gen (e m : Nat)
deriving DecidableEq, Repr

/-- A stream between two nodes: the producer's count, the tokens a firing puts in at the mean rate of its counter node, and the tokens a
firing takes. -/
structure GEdge where
  src : GNode
  dst : GNode
  put : Nat
  p : Frac
  c : Nat
  depth : Nat
  init : Nat
  node : Option CountNode
  reg : Nat
  idx : Nat
deriving DecidableEq, Repr

/-- The configuration of an element of a net. -/
def Net.cfg (g : Net) (e : Nat) : Option Ctx := (look e g.elems).bind fun x => x.cur.ctxs.getD (g.ctx x) none

/-- Counts of an element's ports; 0 where it has no actor or does not use the port. -/
def Net.cin (g : Net) (e p : Nat) : Nat := ((g.cfg e).map fun c => c.desc.cin.getD p 0).getD 0
def Net.cout (g : Net) (e p : Nat) : Nat := ((g.cfg e).map fun c => c.desc.cout.getD p 0).getD 0

/-- The rate of a counter node: tokens out for a token in, at the configured trips (R186). -/
def CountNode.rate (n : CountNode) : Frac :=
  let used := n.trips0.takeWhile (· != 0)
  let whole := used.foldl (· * ·) 1
  let marks := ((indexed 0 used).map fun (i, _) =>
    if n.kinds.getD i 0 = 0 then 0 else (used.drop (i + 1)).foldl (· * ·) 1).sum
  ⟨whole + marks, whole⟩

/-- The tokens that a counter node has put out once it has counted `n`, at the configured trips: a level completes each time its trips and
those below it have been counted, and inserts a marker if its kind is not none (R186). -/
def CountNode.given (c : CountNode) (n : Nat) : Nat :=
  let used := c.trips0.takeWhile (· != 0)
  n + ((List.range used.length).map fun i => if c.kinds.getD i 0 = 0 then 0 else n / (used.take (i + 1)).foldl (· * ·) 1).sum

/-- The producer of a stream and the tokens of one of its firings. -/
def Net.source (g : Net) (j : Nat) : Prod → Option (GNode × Nat)
  | .elem e p => if g.cout e p = 0 then none else some (.act e, g.cout e p)
  | .regIn k => some (.rin j k, 1)
  | .link r k => some (.rout r k, 1)

/-- The consumer of a stream and the tokens of one of its firings. -/
def Net.sink (g : Net) (j : Nat) : Cons → Option (GNode × Nat)
  | .elem e p => if g.cin e p = 0 then none else some (.act e, g.cin e p)
  | .regOut k => some (.rout j k, 1)
  | .linkIn k => some (.rin j k, 1)
  | .count _ => none

/-- The edges that streams make. -/
def Net.streamEdges (g : Net) : List GEdge :=
  (indexed 0 g.regions).flatMap fun (j, r) => (indexed 0 r.streams).filterMap fun (k, q) =>
    match g.source j q.prod, g.sink j q.cons with
    | some (a, p), some (b, c) =>
      let f := (q.count.map CountNode.rate).getD ⟨1, 1⟩
      some ⟨a, b, p, (Frac.nat p).mul f, c, q.depth, q.init, q.count, j, k⟩
    | _, _ => none

/-- The edges that address generators make (R290). -/
def Net.genEdges (g : Net) : List GEdge :=
  g.elems.flatMap fun (e, x) =>
    match g.cfg e with
    | none => []
    | some c => c.agens.map fun a =>
      if a.out then ⟨.act e, .gen e a.port, g.cout e a.k, Frac.nat (g.cout e a.k), 1, 4, 0, none, x.reg, 0⟩
      else ⟨.gen e a.port, .act e, 1, ⟨1, 1⟩, g.cin e a.k, a.depth, 0, none, x.reg, 0⟩

/-- Every edge. -/
def Net.edges (g : Net) : List GEdge := g.streamEdges ++ g.genEdges

/-! ### The repetition vector (R175, R195) -/

/-- Rates of nodes. -/
abbrev Rates := List (GNode × Frac)

/-- The rate of a node. -/
def Rates.get (r : Rates) (a : GNode) : Option Frac := (r.find? fun q => q.1 == a).map (·.2)

/-- Rates carried along every edge of which one end is known. -/
def spreadRates (es : List GEdge) (r : Rates) : Rates :=
  es.foldl (fun r e =>
    match Rates.get r e.src, Rates.get r e.dst with
    | some a, none => (e.dst, (a.mul e.p).div (Frac.nat e.c)) :: r
    | none, some b => (e.src, (b.mul (Frac.nat e.c)).div e.p) :: r
    | _, _ => r) r

/-- The same until nothing changes. -/
def closeRates (es : List GEdge) : Nat → Rates → Rates
  | 0, r => r
  | k + 1, r =>
    let r' := spreadRates es r
    if r'.length = r.length then r else closeRates es k r'

/-- Rates scaled to the least positive integers. -/
def scaleRates (r : Rates) : Rates :=
  let l := (r.map (·.2.d)).foldl Nat.lcm 1
  let ns := r.map fun q => (q.1, q.2.n * l / q.2.d)
  let g := (ns.map (·.2)).foldl Nat.gcd 0
  ns.map fun q => (q.1, Frac.nat (q.2 / g))

/-- The rates of every connected part. -/
def allRates (es : List GEdge) : Nat → Rates → Rates
  | 0, r => r
  | k + 1, r =>
    match es.find? fun e => (Rates.get r e.src).isNone with
    | none => r
    | some e => allRates es k (scaleRates (closeRates es (es.length + 1) [(e.src, ⟨1, 1⟩)]) ++ r)

/-- The repetition vector. -/
def Net.rates (g : Net) : Rates := allRates g.edges g.edges.length []

/-- The first edge that breaks the balance equations. -/
def Net.unbalanced (g : Net) : Option GEdge :=
  let r := g.rates
  g.edges.find? fun e =>
    match Rates.get r e.src, Rates.get r e.dst with
    | some a, some b => !((a.mul e.p).eqv (b.mul (Frac.nat e.c)))
    | _, _ => true

/-- Firings of a node in a repetition. -/
def Net.reps (g : Net) (a : GNode) : Nat := ((Rates.get g.rates a).map (·.n)).getD 1

/-! ### Filter-merge pairs (R173) -/

/-- A pair: the FILT and the MERGE, whether it is tagged, the condition stream, the FILT's arm ports, the arm ports of the
MERGE. -/
structure Pair where
  fe : Nat
  fslot : Nat
  me : Nat
  mslot : Nat
  tagged : Bool
  reg : Nat
  cond : Nat
  outT : List Nat
  outF : Nat
  inT : Nat
  inF : Nat
deriving DecidableEq, Repr

/-- The instructions of an element's body, or of its epilogue, by slot. -/
def Net.block (g : Net) (e : Nat) (epi : Bool) : List (Nat × Instr) :=
  (((g.cfg e).bind fun c => if epi then c.epi else some c.body).map Block.instrs).getD []
def Net.body (g : Net) (e : Nat) : List (Nat × Instr) := g.block e false

/-- The FILT slots of an element by their numbers (filtPlace), each with the instructions of its block. -/
def Net.filtSlots (g : Net) (e : Nat) : List (Nat × List (Nat × Instr) × Instr) :=
  [false, true].flatMap fun epi => (g.block e epi).filterMap fun (k, i) =>
    match i with
    | .filt _ _ _ _ _ _ => some (filtPlace epi k, g.block e epi, i)
    | _ => none

/-- The output ports that a slot's results reach by slot arcs. -/
def outReach (is : List (Nat × Instr)) : Nat → Nat → List Nat
  | 0, _ => []
  | k + 1, slot =>
    match is.find? fun q => q.1 == slot with
    | none => []
    | some (_, i) => (infoOf i).tgts.flatMap fun (_, a) =>
      match a with
      | .out o => [o.toNat]
      | .slot d _ => outReach is k d.toNat
      | _ => []

/-- The pair that a MERGE's condition stream joins it to. -/
def Net.pairOf (g : Net) (e slot : Nat) (tagged : Bool) (t f : Nat) : Option Pair :=
  match look e g.elems, traceIn (g.body e) 64 slot .t with
  | some x, some n =>
    match g.regions[x.reg]? with
    | none => none
    | some r =>
      match (indexed 0 r.streams).find? fun q => q.2.cons == .elem e n with
      | none => none
      | some (k, q) =>
        match q.prod with
        | .elem fe o =>
          (g.filtSlots fe).findSome? fun (fs, is, i) =>
            match i with
            | .filt _ _ w c fp a =>
              if w && c.toNat == o then
                let ta : List Nat := match a with
                  | .out p => [p.toNat]
                  | .slot d _ => outReach is 64 d.toNat
                  | _ => []
                some ⟨fe, fs, e, slot, tagged, x.reg, k, ta, fp.toNat, t, f⟩
              else none
            | _ => none
        | _ => none
  | _, _ => none

/-- The MERGE slots of a net: element, slot, tagged, arm ports. -/
def Net.merges (g : Net) : List (Nat × Nat × Bool × Nat × Nat) :=
  g.elems.flatMap fun (e, _) => (g.body e).filterMap fun (k, i) =>
    match i with
    | .merge _ f t tg _ => some (e, k, tg, t.toNat, f.toNat)
    | _ => none

/-- The FILT slots with a condition port, of bodies and epilogues: element, number. -/
def Net.filts (g : Net) : List (Nat × Nat) :=
  g.elems.flatMap fun (e, _) => (g.filtSlots e).filterMap fun (k, _, i) =>
    match i with
    | .filt _ _ w _ _ _ => if w then some (e, k) else none
    | _ => none

/-- What can be reached: `todo` and `seen` at first, then everything that `next` leads to. -/
def closeOver {α : Type} [BEq α] (next : α → List α) : Nat → List α → List α → List α
  | 0, _, seen => seen
  | _, [], seen => seen
  | k + 1, a :: r, seen => if seen.contains a then closeOver next k r seen else closeOver next k (next a ++ r) (a :: seen)

/-- A stream between two elements, which an arm may run through: its place, the producing element and port, the consuming element and
port. -/
structure ArmArc where
  k : Nat
  u : Nat
  o : Nat
  v : Nat
  i : Nat
deriving DecidableEq, Repr

/-- The streams that may lie on an arm of a pair which leaves the FILT by some ports and enters the MERGE at a port: none passes through
the FILT or the MERGE. -/
def Net.armArcs (g : Net) (p : Pair) (outs : List Nat) (inp : Nat) : List ArmArc :=
  (indexed 0 (((g.regions[p.reg]?).map (·.streams)).getD [])).filterMap fun (k, q) =>
    match q.prod, q.cons with
    | .elem u o, .elem v i =>
      let from_ := if u = p.fe then outs.contains o else u != p.me && g.cout u o != 0
      let to_ := if v = p.me then i == inp else v != p.fe && g.cin v i != 0
      if from_ && to_ then some ⟨k, u, o, v, i⟩ else none
    | _, _ => none

/-- The streams of one arm of a pair (R173): those on a way from the FILT to the MERGE that passes no actor twice, so that a loop back to
an arm actor is none of them. -/
def Net.arm (g : Net) (p : Pair) (outs : List Nat) (inp : Nat) : List Nat :=
  let as := g.armArcs p outs inp
  let n := 2 * as.length + 2
  let ahead (x : Nat) : List Nat :=
    closeOver (fun a => (as.filter fun b => b.u == a && b.v != x).map (·.v)) n [p.fe] []
  let back (x : Nat) : List Nat :=
    closeOver (fun a => (as.filter fun b => b.v == a && b.u != x).map (·.u)) n [p.me] []
  (as.filter fun b => (ahead b.v).contains b.u && (back b.u).contains b.v).map (·.k)

/-- The true and the false arm of a pair, and the streams of both. -/
def Net.armT (g : Net) (p : Pair) : List Nat := g.arm p p.outT p.inT
def Net.armF (g : Net) (p : Pair) : List Nat := g.arm p [p.outF] p.inF
def Net.arms (g : Net) (p : Pair) : List Nat := let t := g.armT p; t ++ (g.armF p).filter fun k => !t.contains k

/-- Every pair: a FILT and a MERGE that the condition stream and both arms join (R173). -/
def Net.pairs (g : Net) : List Pair :=
  (g.merges.filterMap fun (e, k, tg, t, f) => g.pairOf e k tg t f).filter fun p => !(g.armT p).isEmpty && !(g.armF p).isEmpty

/-! ### Initial tokens (R174) -/

/-- The innermost tagged pair on whose arms a stream lies. -/
def Net.innermost (g : Net) (reg k : Nat) : Option Pair :=
  (g.pairs.filter fun p => p.tagged && p.reg == reg && (g.arms p).contains k).foldl (fun b p =>
    match b with
    | none => some p
    | some o => if (g.arms p).length < (g.arms o).length then some p else b) none

/-- Streams with initial tokens that tag from one pair, in declaration order. -/
def Net.tagging (g : Net) (p : Pair) : List (Nat × Nat) :=
  match g.regions[p.reg]? with
  | none => []
  | some r => (indexed 0 r.streams).filterMap fun (k, q) =>
      if 0 < q.init ∧ g.innermost p.reg k = some p then some (k, q.init) else none

/-- The initial tokens of a stream: nulls, tagged on an arm of a tagged pair (R174). -/
def Net.initToks (g : Net) (reg k init : Nat) : List Token :=
  match g.innermost reg k with
  | none => List.replicate init (nullTok none)
  | some p =>
    let before := ((g.tagging p).takeWhile fun q => q.1 != k).map (·.2)
    (List.range init).map fun i => nullTok (some (BitVec.ofNat 16 (before.sum + i)))

/-- The sequence number at which a FILT starts (R169, R174). -/
def Net.seqStart (g : Net) (e slot : Nat) : Nat :=
  match g.pairs.find? fun p => p.fe == e && p.fslot == slot && p.tagged with
  | none => 0
  | some p => ((g.tagging p).map (·.2)).sum

/-- The FILT entries with which an element starts a launch or a phase. -/
def Net.filtStart (g : Net) (e : Nat) : List (Nat × Nat × Nat) :=
  (g.filtSlots e).filterMap fun (k, _, i) =>
    match i with
    | .filt _ tg _ _ _ _ => if tg && g.seqStart e k != 0 then some (k, g.seqStart e k, 0) else none
    | _ => none

/-! ### The streams of a region at a start (R22, R103, R174, R186) -/

/-- A counter node at its configured state (R186). -/
def CountNode.fresh (n : CountNode) : CountNode :=
  { n with cnt := List.replicate 4 0, trips := n.trips0, pend := List.replicate 4 none, begun := false }

/-- A border with no token in it; the first siding is next on both sides. -/
def Bank.clear (b : Bank) : Bank := { lanes := b.lanes.map fun d => { d with fresh := [], ready := [], freed := 0 }, put := 0, take := 0 }
def Border.clear (b : Border) : Border := { b with lead := b.lead.map Bank.clear, bank := b.bank.clear }

/-- A stream with no token in it. -/
def Stream.clear (q : Stream) : Stream :=
  { q with
    junc := [], wire := [], rows := [], turned := [], out := []
    borders := q.borders.map Border.clear
    count := q.count.map CountNode.fresh }

/-- A stream as a launch, a phase or a switch starts it: one that no element's buffer ends, at a region output or a link, holds its initial tokens
itself, past its nodes (R174). -/
def Net.startStream (g : Net) (reg k : Nat) (q : Stream) : Stream :=
  match q.cons with
  | .elem _ _ | .count _ => q.clear
  | _ => { q.clear with out := g.initToks reg k q.init }

/-- The net of a running launch, with the active contexts. -/
def State.netOf (s : State) (l : Launch) : Net :=
  ⟨l.regions, s.elems.filter fun q => q.2.l == l.ref, fun x => x.ctx⟩

end Sys2Proof.Machine
end

