-- ==== Sys2Proof/Machine/Solve.lean ====
section
/-! DEFINITION. Solving a launch: permitted ratios, margin plans, demands, borders (R190, R191, R193, R195 to R198), and the
power allowance (R429). -/

namespace Sys2Proof.Machine

/-! ### Permitted ratios (R190) -/

/-- A ratio p/q as a fraction. -/
def ratio (p q : Nat) : Frac := ⟨p, q⟩

/-- The best of a list of fractions. -/
def bestOf (better : Frac → Frac → Bool) : List Frac → Option Frac
  | [] => none
  | a :: r =>
    match bestOf better r with
    | none => some a
    | some b => if better a b then some a else some b

/-- The smallest permitted ratio at or above a fraction. -/
def permAtLeast (f : Frac) : Option Frac :=
  (bestOf Frac.lt ((List.range 64).filterMap fun i =>
    let q := i + 1
    let p := max 1 (ceilDiv (f.n * q) f.d)
    if p ≤ q then some ⟨p, q⟩ else none)).map Frac.red

/-- The largest permitted ratio at or below a fraction. -/
def permAtMost (f : Frac) : Option Frac :=
  (bestOf (fun a b => b.lt a) ((List.range 64).filterMap fun i =>
    let q := i + 1
    let p := min q (f.n * q / f.d)
    if 1 ≤ p then some ⟨p, q⟩ else none)).map Frac.red

/-- The next permitted ratio above, or below, a ratio. -/
def permAbove (f : Frac) : Option Frac :=
  (bestOf Frac.lt ((List.range 64).filterMap fun i =>
    let q := i + 1
    let p := f.n * q / f.d + 1
    if p ≤ q then some ⟨p, q⟩ else none)).map Frac.red
def permBelow (f : Frac) : Option Frac :=
  (bestOf (fun a b => b.lt a) ((List.range 64).filterMap fun i =>
    let q := i + 1
    let p := ceilDiv (f.n * q) f.d - 1
    if 1 ≤ p then some ⟨p, q⟩ else none)).map Frac.red

/-- Whether one of two ratios is an integer multiple of the other (R193). -/
def multiples (a b : Frac) : Bool := a.n * b.d % (b.n * a.d) == 0 || b.n * a.d % (a.n * b.d) == 0

/-! ### Margin plans (R197) -/

/-- Entry `k` of a page's margin plan, from 1 to 64. -/
def Page.planAt (p : Page) (k : Nat) : Nat := ((p.plan[k - 1]?).map (·.toNat)).getD 0xFF

/-- Margin cap of an island of these pages in 64ths: the largest entry that no page holds as unreachable. -/
def State.marginCap (s : State) (pages : List Nat) : Nat :=
  (List.range 65).foldl (fun m k => if 0 < k ∧ (pages.all fun p => (s.page p).planAt k != 0xFF) then k else m) 0

/-- The voltage of an island of these pages at a ratio, in mV. -/
def State.islandMv (s : State) (pages : List Nat) (f : Frac) : Nat :=
  500 + 4 * (pages.map fun p => (s.page p).planAt (ceilDiv (64 * f.n) f.d)).foldl max 0

/-! ### Demands (R195) -/

/-- The element output port that feeds a region output, through region ports and links. -/
def feederPort (rs : List Region) : Nat → Nat → Nat → Option (Nat × Nat)
  | 0, _, _ => none
  | k + 1, j, o =>
    match (rs[j]?).bind fun r => r.streams.find? fun q => q.cons == .regOut o with
    | none => none
    | some q =>
      match q.prod with
      | .elem e p => some (e, p)
      | .regIn i =>
        match (rs[j]?).bind fun r => r.streams.find? fun q => q.cons == .linkIn i with
        | some l =>
          match l.prod with
          | .link r p => feederPort rs k r p
          | _ => none
        | none => none
      | .link _ _ => none

/-- The declared rate: tokens, cycles, and the port that feeds the declared output. -/
structure Rate where
  n : Nat
  c : Nat
  e : Nat
  port : Nat
deriving DecidableEq, Repr

/-- The net with every element in one context. -/
def Net.at_ (g : Net) (c : Nat) : Net := { g with ctx := fun _ => c }

/-- The demands of the actors of a net (R195): none for an actor where the net gives the rate's port no actor. -/
def Net.demands (g : Net) (d : Rate) : List (Nat × Frac) :=
  let k := g.cout d.e d.port
  let rs := g.rates
  if k = 0 then []
  else
    let ro := ((Rates.get rs (.act d.e)).map (·.n)).getD 1
    g.elems.filterMap fun (e, _) => (g.cfg e).map fun c =>
      let ra := ((Rates.get rs (.act e)).map (·.n)).getD 1
      (e, Frac.red ⟨ra * d.n * c.iis, d.c * ro * k⟩)

/-- The demands of the actors of every context. -/
def Net.allDemands (g : Net) (d : Rate) : List (Nat × Frac) := (List.range 4).flatMap fun c => (g.at_ c).demands d

/-- The elements of a net that an island holds. -/
def Net.inIsland (g : Net) (i : Island) : List Nat := (g.elems.filter fun q => i.holds q.2).map (·.1)

/-- Whether an element has an actor in some context. -/
def Elem.hasActor (x : Elem) : Bool := x.cur.ctxs.any Option.isSome

/-- Streams whose counter node receives bound tokens, of a region (R187). -/
def Region.bounded (r : Region) : List Nat := r.streams.filterMap fun q =>
  match q.cons with
  | .count k => some k
  | _ => none

/-- The elements of a region that read a bounded stream: their rates depend on data. -/
def Region.dataDependent (r : Region) : List Nat := r.bounded.filterMap fun k =>
  match r.streams[k]? with
  | none => none
  | some q =>
    match q.cons with
    | .elem e _ => some e
    | _ => none

/-- The largest of several demands; 0 for none. -/
def maxFrac (l : List Frac) : Frac := l.foldl Frac.max ⟨0, 1⟩

/-- The demand of an island, over the elements that a test admits. -/
def Net.islandDemand (g : Net) (ds : List (Nat × Frac)) (i : Island) (ok : Nat → Bool) : Frac :=
  let es := g.inIsland i
  maxFrac ((ds.filter fun q => es.contains q.1 && ok q.1).map (·.2))

/-! ### Ratios (R191, R196, R198) -/

/-- Ratio of an island. -/
def Island.ratio (i : Island) : Frac := ⟨i.p, i.q⟩

/-- The hyperperiod of a list of islands (R191). -/
def hyperOf (is : List Island) : Nat := (is.map (·.q)).foldl Nat.lcm 32

/-- What R196 asks of an island: the largest of its demand, its nominal ratio, its floor and 1/64. An island without actors has no demand; where
it declares a nominal ratio or stands under a floor contract, R189 (1/64) and R196 differ, and the model follows R196 (DESIGN CHOICE, log 118). -/
def Island.ask (i : Island) (d : Frac) : Frac :=
  let nom : Frac := if i.nomQ = 0 then ⟨0, 1⟩ else ⟨i.nomP, i.nomQ⟩
  ((d.max nom).max ⟨i.floor, 64⟩).max ⟨1, 64⟩

/-- The Timetable record of a refusal (R198). -/
def ttRecord (code island best : Nat) (d : Frac) (cap : Nat) : Nat :=
  code * 2 ^ 56 + island % 256 * 2 ^ 48 + min best 0xFFFF * 2 ^ 32 + min (d.n * 4096 / d.d) 0xFFFF * 2 ^ 16 + cap * 2 ^ 8

/-- Best of R198: the smallest cap over demand, in 65,536ths. -/
def bestRate (caps : List Nat) (ds : List Frac) : Nat :=
  ((caps.zip ds).map fun (m, d) => if d.n = 0 then 0xFFFF else min 0xFFFF (65536 * m * d.d / (64 * d.n))).foldl min 0xFFFF

/-- A ratio raised to the form k/64. -/
def dyadic (f : Frac) : Frac := Frac.red ⟨ceilDiv (64 * f.n) f.d, 64⟩

/-- Ratios for every island as R196 leaves them: where the hyperperiod would exceed 2^20 master cycles, each is raised to k/64. -/
def shortened (rs : List Frac) : List Frac × Bool :=
  if 2 ^ 20 < (rs.map (·.d)).foldl Nat.lcm 32 then (rs.map dyadic, true) else (rs, false)

/-- What solving answers: the islands, whether they are dyadic, and each one's demand and margin cap; or a refusal record. -/
inductive Solved where
  | ok (is : List Island) (dyad : Bool) (limits : List (Frac × Nat))
  | no (record : Nat)
deriving Repr

/-- The first island that fails 0x20, 0x21 or 0x23, as its record (R198). -/
def checkIslands (best : Nat) : List (Nat × Island × Frac × Nat × Bool) → Option Nat
  | [] => none
  | (k, i, d, m, need) :: r =>
    let f := i.ask d
    if f.d < f.n then some (ttRecord 0x20 k best d 64)
    else match permAtLeast f with
    | none => some (ttRecord 0x20 k best d 64)
    | some v =>
      if (⟨m, 64⟩ : Frac).lt v then some (ttRecord 0x21 k best d m)
      else if need && i.nomQ == 0 then some (ttRecord 0x23 k 0 d m)
      else checkIslands best r

/-- Ratios of R196 and voltages of R197 for placed regions. -/
def State.solve (s : State) (g : Net) (is : List Island) (d : Rate) : Solved :=
  let dem := g.allDemands d
  let ds := is.map fun i => g.islandDemand dem i fun _ => true
  let pages (i : Island) : List Nat := ((g.regions[i.reg]?).map fun r => r.islandPages i).getD []
  let caps := is.map fun i => s.marginCap (pages i)
  let needs := is.map fun i =>
    let bad := ((g.regions[i.reg]?).map Region.dataDependent).getD []
    (g.inIsland i).any fun e => bad.contains e
  match checkIslands (bestRate caps ds) ((indexed 0 is).zip (ds.zip (caps.zip needs)) |>.map fun q =>
      (q.1.1, q.1.2, q.2.1, q.2.2.1, q.2.2.2)) with
  | some r => .no r
  | none =>
    let (rs, dyad) := shortened ((is.zip ds).map fun (i, d) => (permAtLeast (i.ask d)).getD ⟨1, 1⟩)
    let set (i : Island) (f : Frac) : Island := { i with p := f.n, q := f.d, dp := 0, dq := 0, settled := true, mv := s.islandMv (pages i) f }
    .ok ((is.zip rs).map fun (i, f) => set i f) dyad (ds.zip caps)

/-! ### Power (R426, R429) -/

/-- Sustained power: the greater of the cap and the idle floor. -/
def Mgmt.sus (m : Mgmt) : Nat := max m.cap.toNat m.idle.toNat
def Mgmt.capinf (m : Mgmt) : Bool := decide (m.cap < m.idle)
def Mgmt.floorx (m : Mgmt) : Bool := decide (m.sus < m.fsum.toNat)

/-- SHARE of a floor contract, whether it is valid, and its FLOOR (R427). -/
def flqShare (v : Dword) : Nat := bits v.toNat 15 0
def flqValid (v : Dword) : Bool := bit v.toNat 63
def flqFloor (v : Dword) : Nat := if flqValid v then min 64 (bits v.toNat 37 32) else 0

/-- The SHARE values of a partition that count in FSUM, of contracts that are being revoked too. -/
def Part.counting (p : Part) : Nat := ((p.counted ++ p.revoked).map (·.getD 0)).sum

/-- A partition's power allowance in W (R429); what falls to its depots is negative where SUS does not cover FSUM and IDLE. -/
def State.allowance (s : State) (n : Nat) : Int :=
  let all := ((s.parts.filter (·.enable)).map fun p => p.depotList.length).sum
  let rest : Int := (s.mgmt.sus : Int) - s.mgmt.fsum.toNat - s.mgmt.idle.toNat
  (s.part n).counting + (if all = 0 then 0 else rest * (s.part n).depotList.length / all)

/-- Whether an estimate in W keeps to a partition's allowance (R429). -/
def State.affords (s : State) (n watts : Nat) : Bool := decide ((watts : Int) ≤ s.allowance n)

/-- The estimated power of an island at a ratio (R429). -/
def State.islandPower (s : State) (pages : List Nat) (f : Frac) : Nat :=
  pages.length * Config.pagePower f.n f.d (s.islandMv pages f)

/-- The pages of an island of a running launch. -/
def Launch.pagesOf (l : Launch) (i : Island) : List Nat := ((l.regions[i.reg]?).map fun r => r.islandPages i).getD []

/-- The estimate for a partition, island `k` of launch `ref` taken at another ratio. -/
def State.partPower (s : State) (n : Nat) (ref : LaunchRef) (k : Nat) (f : Frac) : Nat :=
  ((s.part n).launches.map fun l => ((indexed 0 l.islands).map fun (j, i) =>
    s.islandPower (l.pagesOf i) (if l.ref = ref ∧ j = k then f else if i.dp ≠ 0 then ⟨i.dp, i.dq⟩ else i.ratio)).sum).sum

end Sys2Proof.Machine
end

