-- ==== Sys2Proof/Machine/Trace.lean ====
section
/-! DEFINITION. Trace records of the tenant and their coarsened copies for the operator (R441, R442, R450, R451, R454). -/

namespace Sys2Proof.Machine

/-! ### Records (R442) -/

/-- The node number of the actor as a whole (R76, R442). -/
def Elem.actorNode (x : Elem) : Nat := ((x.ctxNow.map fun c => (c.nodes.getLast?.getD 0).toNat)).getD 0

/-- The four dwords of a trace record. -/
def traceRec (kind reg col row ctx unit port node excess fires icyc : Nat) : List Dword :=
  [BitVec.ofNat 64 (kind * 2 ^ 56 + reg % 64 * 2 ^ 50 + col % 64 * 2 ^ 44 + row % 64 * 2 ^ 38 + ctx % 4 * 2 ^ 36 +
     unit % 2 ^ 16 * 2 ^ 20 + port % 16 * 2 ^ 16),
   BitVec.ofNat 64 (node % 2 ^ 32 * 2 ^ 32 + excess % 2 ^ 32), BitVec.ofNat 64 fires, BitVec.ofNat 64 icyc]

/-- The number of bytes of a trace record (R441). -/
def traceBytes : Nat := 32

/-- The tenant's copy: written to its ring, or dropped and counted (R442). -/
def State.traceTenant (s : State) (n : Nat) (r : List Dword) : State :=
  let p := s.part n
  let size := max 4 (bits p.trctl.toNat 3 0)
  if ringFull p.trwr p.trrd size then s.modPart n fun p => { p with trdrop := satUp p.trdrop }
  else (s.ioWrite n (ringAt p.trbase p.trwr size traceBytes) (r.flatMap fun d => toBytes 8 d.toNat)).modPart n fun p =>
    { p with trwr := p.trwr + 1 }

/-- The operator's ring of trace records. -/
def State.traceOperator (s : State) (r : List Dword) : State :=
  let o := s.mgmt.ot
  let size := max 4 o.size.toNat
  if ringFull o.wr o.rd size then { s with mgmt := { s.mgmt with ot := { o with drop := satUp o.drop } } }
  else
    let t := s.mWrite (ringAt o.base o.wr size traceBytes) r
    { t with mgmt := { t.mgmt with ot := { o with wr := o.wr + 1 } } }

/-- A trace record of an element: kind, its EVT bit, the charged port, the excess (R442, R451). -/
def State.trace (s : State) (e kind evt port excess : Nat) : State :=
  match s.elem? e with
  | none => s
  | some x =>
    let n := x.l.n
    let p := s.part n
    let c := p.trctl.toNat
    if !(bit c 8 && bit c evt) then s
    else
      let t := s.traceTenant n
        (traceRec kind x.reg x.col x.row x.ctx 0 port x.actorNode excess x.started x.icyc)
      let g := p.gran clTrace
      let k := p.quant clTrace
      let unit := s.unitOf n e x g
      let fires := roundDown x.started k
      let icyc := roundDown x.icyc k
      if g = 0 then t
      else if g = 5 then
        t.traceOperator (traceRec kind x.reg x.col x.row x.ctx unit port x.actorNode excess fires icyc)
      else t.traceOperator (traceRec kind 0 0 0 0 unit 0 0 (roundDown excess k) fires icyc)

/-- EVT bits of TRCTL (R441). -/
def evSample : Nat := 9
def evStall : Nat := 10
def evPhase : Nat := 11
def evWave : Nat := 12

end Sys2Proof.Machine
end

