-- ==== Sys2Proof/Machine/Complete.lean ====
section
/-! DEFINITION. How entries and launches end (R104, R223, R225, R264, R332, R333, R410, R427): stage records, QSEQ, pages freed;
and the fault chain. -/

namespace Sys2Proof.Machine

/-! ### Power of contracts (R426 to R428) -/

/-- The state with FSUM set; a change of CAPINF or FLOORX raises vector 3 in every partition (R428). -/
def State.setPower (s : State) (f : Mgmt → Mgmt) : State :=
  let t := { s with mgmt := f s.mgmt }
  if t.mgmt.capinf = s.mgmt.capinf ∧ t.mgmt.floorx = s.mgmt.floorx then t
  else { t with parts := t.parts.map fun p => if p.enable then { p with msi := modAt p.msi 3 (· + 1) } else p }

/-- FSUM without some watts that counted in it. -/
def State.lowerSum (s : State) (w : Nat) : State := s.setPower fun m => { m with fsum := m.fsum - BitVec.ofNat 16 w }

/-- The contract of a queue stops counting (R427): what was counted as it was admitted goes out of FSUM, whatever the operator has written into
the contract since (R428; log 119). -/
def State.uncount (s : State) (n q : Nat) : State :=
  match (s.part n).counted.getD q none with
  | some w => (s.modPart n fun p => { p with counted := setAt p.counted q none }).lowerSum w
  | none => s

/-- The contract of a queue counts, for its SHARE as its first launch is admitted (R427). -/
def State.count (s : State) (n q : Nat) : State :=
  let v := (s.part n).flq.getD q 0
  if flqValid v && ((s.part n).counted.getD q none).isNone then
    (s.modPart n fun p => { p with counted := setAt p.counted q (some (flqShare v)) }).setPower fun m =>
      { m with fsum := m.fsum + BitVec.ofNat 16 (flqShare v) }
  else s

/-- A revocation that is under way ends, and what it held in FSUM goes out of it (R427). -/
def State.unrevoke (s : State) (n q : Nat) : State :=
  match (s.part n).revoked.getD q none with
  | some w => (s.modPart n fun p => { p with revoked := setAt p.revoked q none }).lowerSum w
  | none => s

/-! ### Entries -/

/-- A stage record with a code, a region and a detail (R223). -/
def stageRec (code region detail : Nat) : Nat := code * 2 ^ 56 + region % 64 * 2 ^ 50 + detail % 2 ^ 50

/-- An entry of a queue completes: LOAD, then STAGE, then QSEQ (R225). The copy that a LAUNCH appended stands at no address:
its fields are not written. -/
def State.completeEntry (s : State) (n q : Nat) (at_ : Option Nat) (load stage : Nat) : State :=
  let t := match at_ with
    | some a => (s.ioPut n (a + 48) load).ioPut n (a + 56) stage
    | none => s
  (t.modPart n fun p => { p with qseq := modAt p.qseq q (· + 1) }).msi n 0

/-- Where an entry stands: none for the append buffer's. -/
def QEntry.place (x : QEntry) : Option Nat := if x.fromDev then none else some x.iova
def Launch.place (l : Launch) : Option Nat := if l.fromDev then none else some l.entry

/-! ### The end of a launch -/

/-- The device pages of a region. -/
def Region.pages (g : Region) : List Nat :=
  (List.range g.h).flatMap fun y => (List.range g.w).map fun x => 16 * (g.oy + y) + (g.ox + x)

/-- The device pages of a launch. -/
def Launch.pages (l : Launch) : List Nat := l.regions.flatMap Region.pages

/-- A partition whose entries and transfers in flight hold no pin in some pages. -/
def Part.unpin (p : Part) (pages : List Nat) : Part :=
  let keep (l : List (Nat × Nat)) : List (Nat × Nat) := l.filter fun q => !pages.contains q.1
  { p with
    engines := p.engines.map fun (g, e) => (g, { e with entries := e.entries.map fun x => { x with pins := keep x.pins } })
    peerIn := p.peerIn.map fun x => { x with pins := keep x.pins } }

/-- The pages of a launch given back: slices treated under R264, every pin dropped, elements zeroed, which no launch then holds (R104). What the launch
brought into home slices of other pages of the partition is written back and invalidated there too (R264, R268, log 91). -/
def State.freePages (s : State) (l : Launch) : State :=
  let own := l.pages
  let t := (s.part l.ref.n).pageList.foldl (fun u k => u.clearSlice l.ref.n k (some l.ref) (own.contains k)) s
  { t with elems := t.elems.filter fun q => q.2.l != l.ref }.modPart l.ref.n (·.unpin own)

/-- The counting of a queue's contract ends where no launch of the queue runs or has been admitted (R427). -/
def State.idleQueue (s : State) (n q : Nat) : State :=
  let p := s.part n
  if (p.launches.any fun x => x.ref.q == q) || ((p.queues.getD q []).any fun x => x.img.isSome) then s else s.uncount n q

/-- A launch taken out of its partition, its waiting records kept (R332); the last of its queue ends the counting of the queue's contract (R427). -/
def State.dropLaunch (s : State) (l : Launch) : State :=
  let t := (s.freePages l).modPart l.ref.n fun p =>
    { p with
      launches := p.launches.filter fun x => x.ref != l.ref
      ended := p.ended ++ l.regions.flatMap (·.waiting)
      opEnded := p.opEnded ++ l.regions.flatMap (·.opWaiting) }
  t.idleQueue l.ref.n l.ref.q

/-- A reconfigure entry that is under way ends with the launch or the region it names: the target no longer runs (R223). -/
def State.endWaves (s : State) (l : Launch) (code : Nat) : State :=
  (indexed 0 l.regions).foldl (fun t (j, g) =>
    match g.wave with
    | none => t
    | some w => t.completeEntry l.ref.n w.q w.loadIova 0 (stageRec code j 0)) s

/-- A launch ends with a load and a stage record (R225). -/
def State.endLaunch (s : State) (ref : LaunchRef) (load stage : Nat) : State :=
  match s.launch? ref with
  | none => s
  | some l => ((s.endWaves l 0x54).dropLaunch l).completeEntry ref.n ref.q l.place load stage

/-! ### Quiet (R225, R290, R410) -/

/-- Tokens of a stream, those in its consumer's buffer among them; of a stream with initial tokens, no more than those count as
none (R410). -/
def State.streamQuiet (s : State) (q : Stream) : Bool :=
  let k := s.occupied (q.mapSidings fun d => { d with freed := 0 })
  k == 0 || decide (0 < q.init) && decide (k ≤ q.init)

/-- Whether an element has nothing under way: no firing, access or fill, and its in-direction generators have
finished and delivered (R290). One that has executed PHEND holds nothing (R225). -/
def Elem.quiet (x : Elem) : Bool :=
  x.firings.isEmpty && x.acc.isEmpty && x.fills.isEmpty && !x.stopped &&
  ((x.ctxNow.map (·.agens)).getD []).all fun a =>
    let g := x.cur.agens.getD a.port ⟨[], false, [], .no, none⟩
    g.q.isEmpty && (a.out || (g.fin && (x.cur.inBuf.getD a.k []).isEmpty))

/-- Whether a region input has delivered its count and holds nothing. -/
def RIn.quiet (i : RIn) : Bool :=
  i.q.isEmpty && i.replay.isEmpty && (match i.bind with
    | some b => b.count != 0 && decide (b.count ≤ i.given)
    | none => true)

/-- Whether a phase end is under way: an element has executed PHEND. -/
def Elem.ending (x : Elem) : Bool := x.phend.isSome || x.epiRun

/-- Whether a launch has fallen quiet (R225): a swapped-out, pre-empted or held region counts as holding a firing (R436). -/
def State.quietLaunch (s : State) (l : Launch) : Bool :=
  l.chains.isEmpty && (l.regions.all fun g => g.st == .running && g.portFault.isNone && g.wave.isNone && g.ins.all RIn.quiet &&
    g.streams.all s.streamQuiet) &&
  s.elems.all fun q => q.2.l != l.ref || q.2.quiet

/-- Whether an element has stopped at a token boundary under HALTR (R347): every access is performed, and every firing in
flight only waits for something that the halted launch will not give it. -/
def State.haltedElem (s : State) (e : Nat) (x : Elem) : Bool :=
  x.acc.isEmpty && x.fills.isEmpty && !x.fault.isSome &&
  x.firings.all fun f =>
    (f.held.all fun h => (x.nextOut h.pos.port).map (·.2) != some h.pos) &&
    match x.block f.epi with
    | none => true
    | some b => b.instrs.all fun (k, i) =>
        match f.slots[k]? with
        | none => true
        | some sl => sl.issued ||
            (match gate { s with cur := ⟨e, f.no, f.epi, k⟩ } i with
             | .wait => true
             | .go _ _ => match i with
                | .merge _ _ _ _ _ | .swait _ _ _ | .barw _ _ _ _ _ _ | .synw _ _ | .chwt _ _ _ _ => true
                | _ => false
             | _ => false)

/-- Whether a halted launch has stopped; a region that is swapped out counts as holding a firing (R436). -/
def State.halted (s : State) (l : Launch) : Bool :=
  (l.regions.all fun g => g.portFault.isNone && g.st != .swapped) && s.elems.all fun q => q.2.l != l.ref || s.haltedElem q.1 q.2

/-- LAUNCH_COMPLETE (R225, R347): a quiet launch, or one that HALTR has stopped, completes with zero in LOAD and STAGE. -/
def execLaunchComplete (l : LaunchRef) (s : State) : Out :=
  match s.launch? l with
  | none => .next s
  | some x => if s.quietLaunch x || (x.halting && s.halted x) then .next (s.endLaunch l 0 0) else .next s

/-! ### The fault chain (R331 to R333, R452, R454) -/

/-- ACT codes (R333). -/
def actHeld : Nat := 0
def actAborted : Nat := 1
def actFrozen : Nat := 2
def actPreempted : Nat := 3
def actSuppressed : Nat := 4

/-- A trap record without its RSEQ (R333). -/
def trapRecord (f : FaultReg) (region act epoch : Nat) : Record :=
  [BitVec.ofNat 64 (f.cls % 256 * 2 ^ 56 + f.cause % 256 * 2 ^ 48 + region % 64 * 2 ^ 42 + f.col % 64 * 2 ^ 36 +
     f.row % 64 * 2 ^ 30 + f.ctx % 4 * 2 ^ 28 + b2n f.blk * 2 ^ 27 + f.slot % 64 * 2 ^ 21 + b2n f.nopos * 2 ^ 20 +
     act % 8 * 2 ^ 16),
   BitVec.ofNat 64 (f.node.toNat * 2 ^ 32 + epoch % 2 ^ 32), f.loop, f.addr, f.detail, f.mc, BitVec.ofNat 64 f.fires, 0]

/-- Whether the fault chain has no room (R332). -/
def Part.chainFull (p : Part) : Bool := ringFull p.fcwr p.fcrd (max 4 p.fcsize.toNat)

/-- A record written to the fault chain: RSEQ is k + 1, then FCWR (R332, R333). -/
def State.putRecord (s : State) (n : Nat) (r : Record) : State :=
  let p := s.part n
  let a := ringAt p.fcbase p.fcwr (max 4 p.fcsize.toNat) faultBytes
  let r' := setAt r 7 (BitVec.ofNat 64 (p.fcwr + 1).toNat)
  ((s.ioWrite n a (r'.flatMap fun d => toBytes 8 d.toNat)).modPart n fun p => { p with fcwr := p.fcwr + 1 }).msi n 1

/-- The first record that waits in a partition written to the fault chain, where there is room: those of signal boxes in launch
and region order, those of ended launches, then engines' and the sequencer's (R332). -/
def State.takeWaiting (s : State) (n : Nat) : Option (Record × State) :=
  let p := s.part n
  match p.ended with
  | r :: rest => some (r, s.modPart n fun p => { p with ended := rest })
  | [] =>
    let regs := p.launches.flatMap fun l => (indexed 0 l.regions).map fun (j, g) => ((⟨l.ref, j⟩ : RegionRef), g)
    match regs.find? fun q => !q.2.waiting.isEmpty with
    | some (ref, g) => some (g.waiting.headD [], s.modRegion ref fun h => { h with waiting := h.waiting.tail })
    | none =>
      match p.engines.find? fun q => q.2.waiting.isSome with
      | some (g, e) => some (e.waiting.getD [], s.modEng n g fun e => { e with waiting := none })
      | none =>
        match p.gs.waiting with
        | some r => some (r, s.modPart n fun p => { p with gs := { p.gs with waiting := none } })
        | none => none

/-- The first operator record that waits in a partition, in the same order (R332, R454). -/
def State.takeOpWaiting (s : State) (n : Nat) : Option (Record × State) :=
  let p := s.part n
  match p.opEnded with
  | r :: rest => some (r, s.modPart n fun p => { p with opEnded := rest })
  | [] =>
    let regs := p.launches.flatMap fun l => (indexed 0 l.regions).map fun (j, g) => ((⟨l.ref, j⟩ : RegionRef), g)
    match regs.find? fun q => !q.2.opWaiting.isEmpty with
    | some (ref, g) => some (g.opWaiting.headD [], s.modRegion ref fun h => { h with opWaiting := h.opWaiting.tail })
    | none =>
      match p.engines.find? fun q => q.2.opWaiting.isSome with
      | some (g, e) => some (e.opWaiting.getD [], s.modEng n g fun e => { e with opWaiting := none })
      | none =>
        match p.gs.opWaiting with
        | some r => some (r, s.modPart n fun p => { p with gs := { p.gs with opWaiting := none } })
        | none => none

/-- An operator record of a partition that waits, written where the operator's ring has room (R454). -/
def State.writeOperator (s : State) (n : Nat) : State :=
  if s.mgmt.of.full then s
  else match s.takeOpWaiting n with
  | none => s
  | some (r, t) => t.putOperator r

/-- FAULT_RECORD_WRITE (R332, R454): a waiting record is written once its ring has room, one of the tenant's and one of the operator's. -/
def execFaultRecordWrite (n : Nat) (s : State) : Out :=
  let u := s.writeOperator n
  if (u.part n).chainFull then .next u
  else match u.takeWaiting n with
  | none => .next u
  | some (r, t) => .next (t.putRecord n r)

end Sys2Proof.Machine
end

