-- ==== Sys2Proof/Machine/Timetable.lean ====
section
/-! DEFINITION. The Timetable Engine while a graph runs: siding and wavefront triggers, targets, rate changes, margins, and the
events HYPERPERIOD_BOUNDARY, REGULATOR_SETTLED, RATE_CHANGE_APPLY and MARGIN_REPLAN (R199 to R204, R426, R429, R432). -/

namespace Sys2Proof.Machine

/-! ### Sidings report (R199) -/

/-- The windows of a siding at a boundary: eight in a row fire its trigger. A siding that stays beyond its mark fires again at each later
boundary until a change takes effect and its windows restart: R199 does not say how long it rests (DESIGN CHOICE, log 121). -/
def Siding.report (d : Siding) : Siding :=
  let hi := if d.above then d.hiRun + 1 else 0
  let lo := if d.below then d.loRun + 1 else 0
  { d with
    hiRun := hi
    loRun := lo
    above := true
    below := true
    hiTrig := d.hiTrig || decide (8 ≤ hi)
    loTrig := d.loTrig || decide (8 ≤ lo) }

/-- A siding with its windows restarted; a trigger that fired before is still to be evaluated (R203). -/
def Siding.restart (d : Siding) : Siding := { d with hiRun := 0, loRun := 0, above := true, below := true }

/-- A siding whose triggers have been evaluated. -/
def Siding.taken (d : Siding) : Siding := { d with hiTrig := false, loTrig := false }

/-- A region with the sidings of its streams changed. -/
def Region.mapSidings (g : Region) (f : Siding → Siding) : Region := { g with streams := g.streams.map (·.mapSidings f) }

/-- Whether a region's sidings report: those of one that is pre-empted or swapped out do not (R203). -/
def Region.reports (g : Region) : Bool := g.st != .preempted && g.st != .swapped

/-- A region's sidings at a boundary. -/
def Region.report (g : Region) : Region := if g.reports then g.mapSidings Siding.report else g

/-- Whether several elements were blocked downstream at no more than 1/8 of their possible starts in the window (R200). -/
def unblocked (xs : List Elem) : Bool :=
  let sum (f : Nat × Nat → Nat) : Nat := (xs.map fun x => (x.win.map f).sum).sum
  decide (8 * sum (·.2) ≤ sum (·.1))

/-- The window of an element moved on by a hyperperiod. -/
def Elem.nextWin (x : Elem) : Elem := { x with win := ((0, 0) :: x.win).take 8 }

/-! ### Limits of R201 -/

/-- The static net of a running launch, and its declared rate. -/
def State.staticNet (s : State) (l : Launch) : Net := s.netOf l

/-- The declared rate of a launch with the port that feeds it. -/
def Launch.rate (l : Launch) : Option Rate :=
  (feederPort l.regions 512 l.rateReg l.ratePort).map fun (e, p) => ⟨l.rateN, l.rateC, e, p⟩

/-- The demands of a launch's actors. -/
def State.launchDemands (s : State) (l : Launch) : List (Nat × Frac) :=
  match l.rate with
  | none => []
  | some d => (s.staticNet l).allDemands d

/-- The ratio that an island will have: the decided one, or its own. -/
def Island.next (i : Island) : Frac := if i.dp ≠ 0 then ⟨i.dp, i.dq⟩ else i.ratio

/-- Targets of islands, by their numbers. -/
abbrev Targets := List (Nat × Option Frac)

/-- The islands across an island's single-siding borders. -/
def Launch.neighbours (l : Launch) (k : Nat) : List Nat :=
  (l.regions.flatMap fun g => g.streams.flatMap (·.borders)).filterMap fun b =>
    if b.lead.isSome then none else if b.p = k then some b.c else if b.c = k then some b.p else none

/-- Whether a ratio keeps every single-siding border of an island (R193, R201); an island whose own target is still to be taken counts at
that target, since triggers of one boundary are taken together (R203; log 102). -/
def Launch.bordersOk (l : Launch) (others : Targets) (k : Nat) (f : Frac) : Bool :=
  (l.neighbours k).all fun m =>
    match (look m others).join, l.islands[m]? with
    | some v, _ => multiples f v
    | none, some i => multiples f i.next
    | none, none => true

/-- The least ratio that R201 leaves an island: its floor of R196, with the demand of actors whose rates depend on no data. -/
def State.floorOf (s : State) (l : Launch) (k : Nat) : Frac :=
  match l.islands[k]? with
  | none => ⟨1, 64⟩
  | some i =>
    let g := s.staticNet l
    let bad := ((l.regions[i.reg]?).map Region.dataDependent).getD []
    i.ask (g.islandDemand (s.launchDemands l) i fun e => !bad.contains e)

/-- What R201 asks of a replacement: the least ratio, the margin cap in 64ths, and what the borders and the power admit. -/
structure Limits where
  lo : Frac
  cap : Nat
  power : Frac → Bool
  border : Frac → Bool

/-- What a search for a replacement comes to: the ratio, if there is one, and whether margin or power has shut others out. -/
structure Found201 where
  pick : Option Frac
  mcap : Bool
  pcap : Bool
deriving DecidableEq, Repr

/-- The first ratio from `f` on, away from the present ratio, that R201 admits: no lower than the least, no higher than the margin cap and
the power allow, and with its borders kept. -/
def seek (x : Limits) (up : Bool) : Nat → Option Frac → Found201
  | 0, _ => ⟨none, false, false⟩
  | _, none => ⟨none, false, false⟩
  | n + 1, some f =>
    let m := (⟨x.cap, 64⟩ : Frac).lt f
    let w := !x.power f
    let low := f.lt x.lo
    if up && (m || w) then ⟨none, m, w⟩
    else if !up && low then ⟨none, false, false⟩
    else if !(m || w || low) && x.border f then ⟨some f, false, false⟩
    else
      let r := seek x up n (if up then permAbove f else permBelow f)
      { r with mcap := r.mcap || m, pcap := r.pcap || w }

/-- How many permitted ratios there are, at the most. -/
def ratioFuel : Nat := 4096

/-- The limits of an island of a launch. -/
def State.limits (s : State) (l : Launch) (others : Targets) (k : Nat) (lo : Frac) : Limits where
  lo := lo
  cap := s.marginCap (((l.islands[k]?).map l.pagesOf).getD [])
  power := fun f => s.affords l.ref.n (s.partPower l.ref.n l.ref k f)
  border := l.bordersOk others k

/-- A target replaced under R201. -/
def State.replace (s : State) (l : Launch) (others : Targets) (k : Nat) (f : Option Frac) (lo : Frac) : Found201 :=
  match l.islands[k]?, f with
  | some i, some v =>
    if v.eqv i.ratio then ⟨some v, false, false⟩ else seek (s.limits l others k lo) (i.ratio.lt v) ratioFuel (some v)
  | _, _ => ⟨none, false, false⟩

/-- An island's change decided: it settles at once unless the ratio rises (R202). -/
def Island.decide_ (i : Island) (f : Frac) : Island :=
  if f.eqv i.ratio then { i with dp := 0, dq := 0, settled := true }
  else { i with dp := f.n, dq := f.d, settled := !i.ratio.lt f }

/-- The result of a search put into a launch: the decision, or LIM where there is none, and the flags of the limits that hold (R201). -/
def Launch.take (l : Launch) (k : Nat) (t : Found201) : Launch :=
  { l with
    islands := (match t.pick with
      | some f => modAt l.islands k (·.decide_ f)
      | none => l.islands)
    fMcap := l.fMcap || t.mcap
    fPcap := l.fPcap || t.pcap
    fLim := l.fLim || t.pick.isNone }

/-! ### Triggers (R200, R203) -/

/-- The elements that consume what a stream brings, through region ports and links. -/
def Launch.readers (l : Launch) : Nat → Nat → Cons → List Nat
  | 0, _, _ => []
  | n + 1, j, c =>
    match c with
    | .elem e _ => [e]
    | .linkIn p => (((l.regions[j]?).map (·.streams)).getD []).flatMap fun q => if q.prod == .regIn p then l.readers n j q.cons else []
    | .regOut o => (indexed 0 l.regions).flatMap fun (i, g) => g.streams.flatMap fun q => if q.prod == .link j o then l.readers n i q.cons else []
    | .count _ => []

/-- The targets that the sidings ask for: island and ratio; several for one island leave the highest. -/
def State.sidingTargets (s : State) (l : Launch) : Targets :=
  let asks := (indexed 0 l.regions).flatMap fun (j, g) => if !g.reports then [] else g.streams.flatMap fun q => q.borders.filterMap fun b =>
    (l.islands[b.c]?).bind fun i =>
      if b.sidings.any (·.hiTrig) && unblocked ((l.readers (2 * l.regions.length + 2) j q.cons).filterMap s.elem?) then
        some (b.c, permAtLeast ⟨5 * i.p, 4 * i.q⟩)
      else if b.sidings.any (·.loTrig) then some (b.c, permAtMost ⟨4 * i.p, 5 * i.q⟩)
      else none
  asks.foldl (fun acc (b, f) =>
    match look b acc, f with
    | some (some v), some w => put b (some (v.max w)) acc
    | some none, some w => put b (some w) acc
    | some _, none => acc
    | none, f => put b f acc) []

/-- The targets of wavefront triggers: every island of a region that a wavefront has passed, by R196; where the hyperperiod would grow too
long, every island of the launch at a ratio k/64, and DYAD. -/
def State.waveTargets (s : State) (l : Launch) : Targets × Bool :=
  let g := s.staticNet l
  let ds := s.launchDemands l
  let hit (i : Island) : Bool := ((l.regions[i.reg]?).map (·.waveTrig)).getD false
  if !l.islands.any hit then ([], false)
  else
    let (rs, dyad) := shortened (l.islands.map fun i =>
      if hit i then (permAtLeast (i.ask (g.islandDemand ds i fun _ => true))).getD ⟨1, 1⟩ else i.ratio)
    (((indexed 0 l.islands).zip rs).filterMap fun ((k, i), f) => if dyad || hit i then some (k, some f) else none, dyad)

/-- The targets of islands above their margin cap (R204). -/
def State.marginTargets (s : State) (l : Launch) : List (Nat × Nat) :=
  (indexed 0 l.islands).filterMap fun (k, i) =>
    let cap := s.marginCap (l.pagesOf i)
    if (⟨cap, 64⟩ : Frac).lt i.next then some (k, cap) else none

/-- The state with one launch's islands decided from a list of targets, each against those still to be taken. -/
def State.decideAll (ref : LaunchRef) : Targets → State → State
  | [], s => s
  | (k, f) :: r, s =>
    State.decideAll ref r (match s.launch? ref with
      | none => s
      | some l => s.modLaunch ref fun x => x.take k (s.replace l r k f (s.floorOf l k)))

/-- MGSTAT of a cap (R432). -/
def mgstatWord (old : Nat) (island queue cap : Nat) (short : Bool) : Nat :=
  (bits old 63 32 + 1) % 2 ^ 32 * 2 ^ 32 + island % 256 * 2 ^ 24 + queue % 256 * 2 ^ 16 + cap % 256 * 2 ^ 8 + b2n short

/-- Whether an island's margin cap keeps it below the ratio of its floor contract (R432). -/
def State.belowFloor (s : State) (l : Launch) (i : Island) : Bool := decide (s.marginCap (l.pagesOf i) < i.floor)

/-- Whether the declared rate of a launch can no longer be met, or a floor (R204, R432). -/
def State.shortOf (s : State) (l : Launch) : Bool :=
  let g := s.staticNet l
  let ds := s.launchDemands l
  l.islands.any fun i => i.next.lt (g.islandDemand ds i fun _ => true) || s.belowFloor l i

/-- R204: an island lowered to its margin cap; MCAP, SHORT, MGSTAT and vector 3. The ratio is the highest at or below the cap that keeps the
borders of R193. Where none does, R201 (the island keeps its ratio, LIM) and R204 (it is lowered to the cap, whatever the trigger state) differ: the
model lowers it to the cap's ratio, though a single siding's border then has no integer multiple, and sets no LIM (DESIGN CHOICE, log 122). -/
def State.lowerToCap (s : State) (ref : LaunchRef) (k cap : Nat) : State :=
  match s.launch? ref with
  | none => s
  | some l =>
    let f := permAtMost ⟨cap, 64⟩
    let v := ((seek { s.limits l [] k ⟨1, 64⟩ with power := fun _ => true } false ratioFuel f).pick).or f
    let t := s.modLaunch ref fun x =>
      { x with
        islands := modAt x.islands k fun i => (v.map i.decide_).getD i
        fLim := x.fLim || v.isNone
        fMcap := true }
    let short := ((t.launch? ref).map t.shortOf).getD false
    let u := t.modLaunch ref fun x => { x with fShort := x.fShort || short }
    (u.modPart ref.n fun p =>
      { p with mgstat := BitVec.ofNat 64 (mgstatWord p.mgstat.toNat k ref.q cap short) }).msi ref.n 3

/-- R426, R429: while a partition's estimate exceeds its allowance, its islands are lowered a step at each boundary, none below
its contract's floor. -/
def State.lowerToPower (s : State) (ref : LaunchRef) : State :=
  match s.launch? ref with
  | none => s
  | some l =>
    if s.affords ref.n (s.partPower ref.n ref l.islands.length ⟨1, 1⟩) then s
    else (indexed 0 l.islands).foldl (fun t (k, i) =>
      match t.launch? ref with
      | none => t
      | some y =>
        match (seek { t.limits y [] k (Frac.max ⟨i.floor, 64⟩ ⟨1, 64⟩) with power := fun _ => true } false ratioFuel (permBelow i.next)).pick with
        | some f => t.modLaunch ref fun x => { x with islands := modAt x.islands k (·.decide_ f), fPcap := true }
        | none => t) s

/-- A region whose wavefront trigger has been taken. -/
def Region.clearTrig (g : Region) : Region := { g with waveTrig := false }

/-- Every island of a launch that stands above its margin cap lowered to it (R204). -/
def State.capAll (s : State) (ref : LaunchRef) : State :=
  match s.launch? ref with
  | none => s
  | some l => (s.marginTargets l).foldl (fun v (k, c) => v.lowerToCap ref k c) s

/-- The wavefront triggers of a launch evaluated. -/
def State.takeWaves (s : State) (ref : LaunchRef) : State :=
  match s.launch? ref with
  | none => s
  | some l =>
    let (ts, dyad) := s.waveTargets l
    if l.pend || ts.isEmpty then s
    else (State.decideAll ref ts s).modLaunch ref fun x =>
      { x with regions := x.regions.map Region.clearTrig, fDyad := x.fDyad || dyad }

/-- The siding triggers of a launch evaluated, those of a region that does not run apart. -/
def State.takeSidings (s : State) (ref : LaunchRef) : State :=
  match s.launch? ref with
  | none => s
  | some l =>
    if l.pend then s
    else (State.decideAll ref (s.sidingTargets l) s).modLaunch ref fun x =>
      { x with regions := x.regions.map fun g => if g.reports then g.mapSidings Siding.taken else g }

/-- What the Timetable Engine decides at a boundary: triggers where no change is pending, wavefronts before sidings (R203); then the caps of
margin and power. -/
def State.evaluate (s : State) (ref : LaunchRef) : State :=
  (((s.takeWaves ref).takeSidings ref).capAll ref).lowerToPower ref

/-- The state with every element of a launch changed. -/
def State.modLaunchElems (s : State) (l : LaunchRef) (f : Elem → Elem) : State :=
  { s with elems := s.elems.map fun q => if q.2.l = l then (q.1, f q.2) else q }

/-! ### The events -/

/-- HYPERPERIOD_BOUNDARY (R191, R199, R200): when the hyperperiod of a launch has ended, sidings report, triggers are
evaluated, and the next hyperperiod begins. -/
def execHyperperiodBoundary (l : LaunchRef) (s : State) : Out :=
  match s.launch? l with
  | none => .next s
  | some x =>
    if x.pause || x.tick < x.hyper then .next s
    else
      let t := s.modLaunch l fun x => { x with tick := 0, regions := x.regions.map Region.report }
      .next ((t.evaluate l).modLaunchElems l Elem.nextWin)

/-- REGULATOR_SETTLED (R202): island `k`'s regulator stands at the voltage of the ratio to come, or, after a fall, of the ratio
in force. -/
def execRegulatorSettled (l : LaunchRef) (k : Nat) (s : State) : Out :=
  match s.launch? l with
  | none => .next s
  | some x =>
    .next (s.modLaunch l fun y => { y with islands := modAt y.islands k fun i =>
      if i.dp ≠ 0 ∧ i.settled then i
      else { i with settled := true, mv := s.islandMv (x.pagesOf i) i.next } })

/-- An island at its decided ratio; a falling voltage follows (R202). -/
def Island.apply (i : Island) : Island :=
  if i.dp = 0 then i else { i with p := i.dp, q := i.dq, dp := 0, dq := 0, settled := true }

/-- The flags that still hold after a change (R208): margin, or power, still keeps an island below what R196 asks of it; the estimate still
exceeds the allowance; the declared rate is not met. -/
def State.flagsAfter (s : State) (l : Launch) : Launch :=
  let g := s.staticNet l
  let ds := s.launchDemands l
  let need (i : Island) : Frac := g.islandDemand ds i fun _ => true
  let below := (indexed 0 l.islands).filterMap fun (k, i) => if i.ratio.lt (i.ask (need i)) then some (k, i, i.ask (need i)) else none
  { l with
    fMcap := below.any fun (_, i, f) => (⟨s.marginCap (l.pagesOf i), 64⟩ : Frac).lt f
    fPcap := !s.affords l.ref.n (s.partPower l.ref.n l.ref l.islands.length ⟨1, 1⟩) ||
      below.any fun (k, _, f) => !s.affords l.ref.n (s.partPower l.ref.n l.ref k ((permAtLeast f).getD ⟨1, 1⟩))
    fDyad := l.fDyad && l.islands.all fun i => 64 % i.q == 0
    fLim := false
    fShort := l.islands.any fun i => i.ratio.lt (need i) || s.belowFloor l i }

/-- RATE_CHANGE_APPLY (R202): at a boundary, once every regulator that rises has settled, the decided ratios come into force
after one master cycle in which no island has an edge; windows restart (R199). -/
def execRateChangeApply (l : LaunchRef) (s : State) : Out :=
  match s.launch? l with
  | none => .next s
  | some x =>
    if x.pause || x.tick < x.hyper || !x.pend || (x.islands.any fun i => i.dp != 0 && !i.settled) then .next s
    else
      let t := s.modLaunch l fun y =>
        let is := y.islands.map Island.apply
        { y with
          islands := is
          hyper := hyperOf is
          tick := 0
          pause := true
          resolves := (y.resolves + 1) % 2 ^ 32
          regions := y.regions.map (·.mapSidings Siding.restart) }
      let u := t.modLaunchElems l fun e => { e with win := [] }
      .next (match u.launch? l with
        | none => u
        | some y => u.modLaunch l fun _ => u.flagsAfter y)

/-- Whether a margin plan is one: 64 entries of assigned codes that never decrease (R197). -/
def planOk (p : List Byte) : Bool :=
  p.length == 64 && (p.all fun b => decide (b.toNat ≤ 0x96) || b == 0xFF) &&
  (List.range 63).all fun k => decide (((p[k]?).getD 0).toNat ≤ ((p[k + 1]?).getD 0).toNat)

/-- The pages of the islands that hold a page, and the page itself. -/
def State.islandsAt (s : State) (page : Nat) : List Nat :=
  page :: (s.parts.flatMap fun p => p.launches.flatMap fun l => (l.islands.map l.pagesOf).filter (·.contains page)).flatten

/-- Whether no element of the island on a page has started a firing for 2^30 of its own cycles (R432). -/
def State.idlePage (s : State) (page : Nat) : Bool :=
  let ps := s.islandsAt page
  s.elems.all fun q => !ps.contains (pageOf q.1) || decide (2 ^ 30 ≤ q.2.icyc - (q.2.lastStart.getD 0))

/-- MARGIN_REPLAN (R432): a completed re-plan of a page of an idle island replaces its plan at once; a cap below an island's
ratio lowers that ratio at the next boundary (R204). -/
def execMarginReplan (page : Nat) (plan : List (BitVec 8)) (s : State) : Out :=
  if !(planOk plan && s.idlePage page) then .next s
  else
    let t := s.modPage page fun p => { p with plan := plan }
    let refs := t.parts.flatMap fun p => (p.launches.filter fun l => l.pages.contains page).map (·.ref)
    .next (refs.foldl State.capAll t)

end Sys2Proof.Machine
end

