-- ==== Sys2Proof/Machine/Firing.lean ====
section
/-! DEFINITION. Firings (R10 to R13, R160 to R162, R411) and address generators (R287 to R290): the events FIRING_START,
FIRING_COMPLETE, AGEN_IN_STEP and AGEN_OUT_STEP; and the energy check of a pre-emption boundary (R343). -/

namespace Sys2Proof.Machine

/-! ### What R10 asks -/

/-- The arm ports of the MERGE slots of an element's body: they count as satisfied (R162). -/
def Elem.armPorts (x : Elem) : List Nat :=
  match x.ctxNow with
  | none => []
  | some c => c.body.instrs.flatMap fun (_, i) =>
      match i with
      | .merge _ f t _ _ => [t.toNat, f.toNat]
      | _ => []

/-- Tokens that a firing could be assigned at a port: those before the first dusk marker (R338). -/
def Elem.ahead (x : Elem) (port : Nat) : List Token := (x.cur.inBuf.getD port []).takeWhile fun t => t.kind != .dusk

/-- Whether an input port's condition of R10 holds. -/
def Elem.inOk (x : Elem) (c : Ctx) (port : Nat) : Bool :=
  let k := c.desc.cin.getD port 0
  k == 0 || x.armPorts.contains port || decide (k ≤ (x.ahead port).length)

/-- Whether an output port's condition of R10 holds. -/
def State.outOk (s : State) (l : Launch) (e : Nat) (x : Elem) (c : Ctx) (port : Nat) : Bool :=
  let k := c.desc.cout.getD port 0
  k == 0 || s.hasCredit l e x port k

/-- Whether every used input port has its tokens, and every used output port its credit. -/
def Elem.insOk (x : Elem) (c : Ctx) : Bool := (List.range 8).all fun p => x.inOk c p
def State.outsOk (s : State) (l : Launch) (e : Nat) (x : Elem) (c : Ctx) : Bool := (List.range 8).all fun p => s.outOk l e x c p

/-- Whether the interval since the last start and the count of firings in flight admit another (R10, R13, R111). -/
def Elem.spaced (x : Elem) (c : Ctx) : Bool :=
  decide (x.firings.length < ceilDiv c.desc.d c.desc.ii) && (match x.lastStart with
    | none => true
    | some t => decide (c.iis ≤ x.icyc - t))

/-- Whether an element may start firings at all: it runs, no phase ends (R232), its launch does not halt (R347), and it has not
switched in a wavefront that is still on its way. R24 does not forbid an element that has switched to start firings of the new
configuration at once; the model lets none start before the wavefront has passed every element (DESIGN CHOICE, log 103). -/
def State.mayStart (s : State) (l : Launch) (x : Elem) : Bool :=
  s.runs x && x.phend.isNone && !x.epiRun && !l.halting && !x.switched

/-! ### Starting -/

/-- The slots of a block as a firing starts; the constant of a LITW pair never issues (R36). A block that runs past its context has the
slots that its header claims, so that their fetch traps (R68). -/
def Block.slots (b : Block) : List Slot :=
  ((litSeconds b.words false).map fun second => ({ issued := second } : Slot)) ++ List.replicate (b.len - b.words.length) ({} : Slot)

/-- The output places of a block, in slot order and then target order (R159, R161). -/
def Block.owes (b : Block) : List OutPos :=
  b.instrs.flatMap fun (k, i) => (infoOf i).tgts.filterMap fun (f, a) =>
    match a with
    | .out o => some ⟨o.toNat, k, f⟩
    | _ => none

/-- Tokens assigned at each port: the oldest c (R160). -/
def Elem.assign (x : Elem) (c : Ctx) : List (List Token) :=
  (List.range 8).map fun p => if x.armPorts.contains p then [] else (x.cur.inBuf.getD p []).take (c.desc.cin.getD p 0)

/-- Input buffers without the tokens assigned. -/
def Elem.assigned (x : Elem) (c : Ctx) : List (List Token) :=
  (indexed 0 x.cur.inBuf).map fun (p, b) => if x.armPorts.contains p then b else b.drop (c.desc.cin.getD p 0)

/-- The element with a firing started (R10, R160, R161); ELREPL falls with the first firing that is no replay (R345). -/
def Elem.start (x : Elem) (c : Ctx) : Elem :=
  { x with
    firings := x.firings ++ [{ no := x.started, epi := false, slots := c.body.slots, assigned := x.assign c, owed := c.body.owes, held := [] }]
    cur := { x.cur with inBuf := x.assigned c }
    inAt := (indexed 0 x.inAt).map fun (p, ts) => ts.drop (c.desc.cin.getD p 0)
    outAt := (indexed 0 x.outAt).map fun (p, ts) => ts.drop (c.desc.cout.getD p 0)
    started := x.started + 1
    lastStart := some x.icyc
    begun := true
    replayUpTo := (match x.replayUpTo with
      | some k => if k < x.started + 1 then none else some k
      | none => none) }

/-- When the last of the `k` oldest of a port's tokens, or credits, came: one that was not there yet as the cycle began came in it (R411). -/
def cameAt (x : Elem) (ts : List (List Nat)) (p k : Nat) : Nat := (ts.getD p []).getD (k - 1) x.icyc

/-- The port charged for a late start (R411): the used port whose condition became true last, by the arrival of the last token or the
freeing of the last credit that this firing needs; inputs before outputs, lower numbers first; none where the actor uses no such port. -/
def Elem.lastPort (x : Elem) (c : Ctx) : Option Nat :=
  let ins := (List.range 8).filterMap fun p =>
    let k := c.desc.cin.getD p 0
    if k = 0 ∨ x.armPorts.contains p then none else some (p, cameAt x x.inAt p k)
  let outs := (List.range 8).filterMap fun p =>
    let k := c.desc.cout.getD p 0
    if k = 0 then none else some (8 + p, cameAt x x.outAt p k)
  ((ins ++ outs).foldl (fun b q =>
    match b with
    | none => some q
    | some v => if v.2 < q.2 then some q else some v) none).map (·.1)

/-- The excess of a start now; none for the first of a launch, a phase or a resumption (R411). -/
def Elem.excess (x : Elem) (c : Ctx) : Nat :=
  match x.lastStart with
  | none => 0
  | some t => if x.begun then x.icyc - (t + c.iis) else 0

/-- A stall-excess counter raised; it stays at its largest value (R411, R439). -/
def Elem.charge (x : Elem) (port n : Nat) : Elem :=
  { x with cur := { x.cur with stall := modAt x.cur.stall port fun v => BitVec.ofNat 32 (min (v.toNat + n) (2 ^ 32 - 1)) } }

/-- FIRING_START (R10, R13, R160 to R162, R411, R442). -/
def execFiringStart (e : Nat) (s : State) : Out :=
  match s.elem? e with
  | none => .next s
  | some x =>
    match x.ctxNow, s.launch? x.l with
    | some c, some l =>
      if !(s.mayStart l x && x.spaced c && x.insOk c && s.outsOk l e x c) then .next s
      else
        let ex := x.excess c
        let port := if ex = 0 then none else x.lastPort c
        let y := (match port with
          | none => x
          | some p => x.charge p ex).start c
        let t := s.setElem e y
        let trc := (s.part x.l.n).trctl.toNat
        let u := if y.started % 2 ^ (min 20 (bits trc 20 16)) = 0 then t.trace e 1 evSample 0 0 else t
        .next (match port with
          | some p => if 2 ^ bits trc 28 24 ≤ ex then u.trace e 2 evStall p ex else u
          | none => u)
    | _, _ => .next s

/-! ### Completing (R11) -/

/-- Whether an access has an emission to come. -/
def Access.emits (a : Access) : Bool :=
  match a.dst with
  | .tgt .none => false
  | .tgt _ => true
  | .reg _ => false

/-- Whether a firing is complete: every slot has issued and every emission has been acknowledged (R11). -/
def Elem.complete (x : Elem) (f : Firing) : Bool :=
  f.slots.all (·.issued) && f.owed.isEmpty && f.held.isEmpty &&
  x.acc.all fun a => !(a.no == f.no && a.epi == f.epi && a.emits)

/-- FIRING_COMPLETE: the firing of a number, or the epilogue that runs under it. -/
def execFiringComplete (e no : Nat) (s : State) : Out :=
  match s.elem? e with
  | none => .next s
  | some x =>
    match x.firings.find? fun f => f.no == no && x.complete f with
    | none => .next s
    | some f => .next (s.setElem e
        { x with
          firings := x.firings.filter fun g => !(g.no == f.no && g.epi == f.epi)
          done := if f.epi then x.done else x.done + 1 })

/-! ### What an element sees each cycle (R200, R411, R439) -/

/-- The tokens that an element's input buffers hold in an element cycle, counted (R439). -/
def Elem.countOcc (x : Elem) : Elem :=
  { x with cur := { x.cur with
      occ := BitVec.ofNat 48 (min (x.cur.occ.toNat + (x.cur.inBuf.map List.length).sum) (2 ^ 48 - 1)) } }

/-- The times of what a port holds brought up to date: of `n` in all, the oldest have gone and the newest came now. -/
def timesOf (now n : Nat) (ts : List Nat) : List Nat :=
  let u := ts.drop (ts.length - n)
  u ++ List.replicate (n - u.length) now

/-- The tokens and free credits of an element's ports noted, in every cycle of its island, held and frozen ones too (R411). -/
def State.clocked (s : State) (e : Nat) (x : Elem) : Elem :=
  match s.launch? x.l with
  | none => x
  | some l =>
    { x with
      inAt := (indexed 0 x.inAt).map fun (p, ts) => timesOf x.icyc (x.cur.inBuf.getD p []).length ts
      outAt := (indexed 0 x.outAt).map fun (p, ts) => timesOf x.icyc (s.credits l e x p) ts }

/-- An element cycle noted: what came to its ports, the starts possible and blocked, the tokens held in input buffers. -/
def State.watch (s : State) (e : Nat) (x : Elem) : Elem :=
  let y := s.clocked e x.countOcc
  match x.ctxNow, s.launch? x.l with
  | some c, some l =>
    let ready := s.mayStart l x && x.spaced c && x.insOk c
    let blocked := ready && !s.outsOk l e x c
    let w := match x.win with
      | [] => [(b2n ready, b2n blocked)]
      | (a, b) :: r => (a + b2n ready, b + b2n blocked) :: r
    { y with win := w }
  | _, _ => y

/-! ### Energy at a pre-emption boundary (R343, R430) -/

/-- Whether a partition has spent its quota; a quota of 0 is none (R430). -/
def Part.spent (p : Part) : Bool := p.equota != 0 && decide (p.equota.toNat ≤ p.eqspent.toNat + p.eqdebt.toNat)

/-- Energy of a region's pages since launch. -/
def State.regionEnergy (s : State) (g : Region) : Nat := (g.pages.map fun k => (s.page k).energy.toNat).sum

/-- The energy-quota trap of a region, whose page is that of its origin (R329, R343). -/
def quotaFault (s : State) (n page : Nat) : FaultReg where
  cls := tcQuota
  cause := 0
  col := 0
  row := 0
  ctx := 0
  blk := false
  slot := 0
  nopos := true
  node := 0
  loop := 0
  addr := 0
  detail := 0
  mc := 0
  fires := 0
  cycle := s.cycle
  no := page
  pol := (s.part n).faultPol

/-- A running region asked to pre-empt (R342); while a wavefront is on its way there, the request waits (R229). -/
def Region.askPreempt (g : Region) (quota : Bool) : Region :=
  if g.st != .running then g
  else if g.waving then { g with pre := true, quotaHeld := g.quotaHeld || quota }
  else { g with st := .preempting, preemptAge := 0, quotaHeld := quota }

/-- The check at a pre-emption boundary (R343): an iteration above the declared maximum takes the energy-quota trap; a spent
quota pre-empts. -/
def State.quotaCheck (s : State) (r : RegionRef) : State :=
  if (s.part r.l.n).equota = 0 then s
  else match s.launch? r.l, s.region? r with
    | some l, some g =>
      let now := s.regionEnergy g
      let u := s.modRegion r fun h => { h with iterMark := now }
      if l.iter < now - g.iterMark then u.raisePort r (quotaFault u r.l.n (16 * g.oy + g.ox))
      else if (u.part r.l.n).spent then u.modRegion r fun h => h.askPreempt true
      else u
    | _, _ => s

/-! ### Address generators (R287 to R290) -/

/-- The address token of a step (R288). -/
def AgenCfg.tok (a : AgenCfg) (cnt : List Nat) : Dword :=
  let off : Int := ((List.range a.levels).map fun l => ((cnt.getD l 0 : Nat) : Int) * sgn 32 (a.strides.getD l 0).toNat).sum
  BitVec.ofNat 64 (tokTid a.base * 2 ^ 48 + wrap 48 ((tokOff a.base : Nat) + off))

/-- The counters after a step, the levels it completes, and whether it completes the outermost one (R288). -/
def AgenCfg.step (a : AgenCfg) (cnt : List Nat) : List Nat × List Nat × Bool :=
  let (c, done) := countUp a.trips a.levels 4 0 cnt
  (c, done, done.contains (a.levels - 1))

/-- The kind code of a level's marker. -/
def AgenCfg.kinds (a : AgenCfg) : List Nat := (List.range 4).map fun l => bits a.marks.toNat (2 * l + 1) (2 * l)

/-- The generator of a memory port. -/
def Elem.agen (x : Elem) (m : Nat) : Option (AgenCfg × Agen) :=
  match x.ctxNow with
  | none => none
  | some c => (c.agens.find? (·.port == m)).map fun a => (a, x.cur.agens.getD m ⟨List.replicate 4 0, false, [], .no, none⟩)

/-- The element with a generator set. -/
def Elem.setAgen (x : Elem) (m : Nat) (g : Agen) : Elem := { x with cur := { x.cur with agens := setAt x.cur.agens m g } }

/-- The element with a step of a generator no longer issued: it is performed, or ends in a trap. -/
def Elem.clearStep (x : Elem) (m : Nat) : Elem :=
  match x.cur.agens[m]? with
  | none => x
  | some g => x.setAgen m { g with wait := .no, since := none }

/-- The access that a step makes (R289). -/
def agenAccess (m : Nat) (op : AccOp) (tok : Dword) (d : Payload) (width : Nat) : Access :=
  { id := 0, no := 0, epi := false, slot := 0, dst := .tgt .none, tag := none, port := m, path := .ep, op := op, tok := tok, l := 0
    r := d, t := 0, scope := .elem, ord := .rlx, width := width, sx := false, vec := true, wait := .no }

/-- The trap of a generator (R289). -/
def State.agenStop (s : State) (e m : Nat) (tok : Dword) (c : Stop) : State :=
  match s.elem? e with
  | none => s
  | some x =>
    let (cls, cause, d, addr) := s.stopRec x.l.n 0 tok c
    (s.modElem e (·.clearStep m)).raiseNoPos e fun f => { f with
      cls := cls, cause := cause, loop := loopOf x m, addr := addr
      detail := if cls = tcXlate then d else BitVec.ofNat 64 (256 + m) }

/-- The element with a step of a generator issued and waiting. -/
def Elem.holdStep (x : Elem) (m : Nat) (g : Agen) (w : Wait) : Elem :=
  x.setAgen m { g with wait := w, since := some (g.since.getD x.accNext) }

/-- Whether a generator may step: its element runs; no wavefront is on its way; in a region that is being pre-empted it stops at
an outer boundary; its port is not withheld (R228, R250, R289, R342). -/
def State.agenRuns (s : State) (x : Elem) (m : Nat) (a : AgenCfg) (g : Agen) : Bool :=
  s.runs x && !s.paused x.l && !x.portHeld m && !g.wait.withholds && (match s.region? x.rref with
    | some r => ((s.launch? x.l).map (·.chains.isEmpty)).getD false && !(r.wave.map (·.admitted)).getD false &&
        !(r.st == .preempting && a.boundary g.cnt)
    | none => false)

/-- Whether a step that an out-direction generator issued is performed though its element no longer runs (R304, R328). -/
def State.stepLeft (s : State) (x : Elem) (m : Nat) (g : Agen) : Bool :=
  g.since.isSome && !s.runs x && !s.paused x.l && !x.portHeld m && !g.wait.withholds

/-- The end of a step: at the end of an outer iteration the energy is checked (R290, R343). -/
def State.agenDone (s : State) (x : Elem) (a : AgenCfg) (cnt : List Nat) : State :=
  if a.boundary cnt then s.quotaCheck x.rref else s

/-- AGEN_IN_STEP (R287 to R289): tokens that wait are delivered while the buffer has room; else one token is read at memory and
delivered, with the markers of the levels it completes. -/
def execAgenInStep (e k : Nat) (s : State) : Out :=
  match s.elem? e with
  | none => .next s
  | some x =>
    match x.agen k with
    | none => .next s
    | some (a, g) =>
      let room := a.depth - (x.cur.inBuf.getD a.k []).length
      if a.out || room = 0 then .next s
      else match g.q with
      | t :: rest => if x.stopped || s.paused x.l then .next s else .next (s.setElem e ((x.arrive a.k t).setAgen k { g with q := rest }))
      | [] =>
        if g.fin || !s.agenRuns x k a g || (x.acc.any Access.fences) then .next s
        else
          let tok := a.tok g.cnt
          match doLd e x.l.n (agenAccess k .ld tok 0 4) s with
          | .wait w t => .next (t.modElem e fun y => y.holdStep k g w)
          | .stop c t => .next (t.agenStop e k tok c)
          | .ok (v, _) t =>
            let (cnt, done, fin) := a.step g.cnt
            let u := t.modElem e fun y =>
              (y.arrive a.k v).setAgen k ⟨cnt, fin, done.flatMap (levelMark a.kinds), .no, none⟩
            .next (u.agenDone x a cnt)

/-- AGEN_OUT_STEP (R287, R289): the oldest token held is taken; a data token is written to memory as one step. -/
def execAgenOutStep (e k : Nat) (s : State) : Out :=
  match s.elem? e with
  | none => .next s
  | some x =>
    match x.agen k with
    | none => .next s
    | some (a, g) =>
      match g.q with
      | [] => .next s
      | t :: rest =>
        if !a.out then .next s
        else if t.kind != .data then .next (if s.paused x.l then s else s.setElem e (x.setAgen k { g with q := rest }))
        else if !(s.agenRuns x k a g || s.stepLeft x k g) then .next s
        else
          let tok := a.tok g.cnt
          if g.fin then .next (s.agenStop e k tok (.bounds 14))
          else
            match (s.object x.l.n (.port e k) (tokTid tok)).bind fun o u =>
                doSt e x.l.n (agenAccess k .st tok t.data o.esz) u with
            | .wait w u => .next (u.modElem e fun y => y.holdStep k g w)
            | .stop c u => .next (u.agenStop e k tok c)
            | .ok _ u =>
              let (cnt, _, fin) := a.step g.cnt
              .next ((u.modElem e fun y => y.setAgen k ⟨cnt, fin, rest, .no, none⟩).agenDone x a cnt)

end Sys2Proof.Machine
end

