-- ==== Sys2Proof/Machine/Phases.lean ====
section
/-! DEFINITION. Phases and wavefronts: the events PHASE_END, WAVEFRONT_ADMISSION and ELEMENT_SWITCH (R18, R22, R24, R25, R169,
R174, R186, R200, R228, R232). -/

namespace Sys2Proof.Machine

/-! ### Streams at a start -/

/-- Whether a stream keeps its tokens at a phase start: one fed by a region input, or a link, whose tokens come from outside the region
(R22, R159, R232; log 22). -/
def Stream.kept (q : Stream) : Bool :=
  match q.prod with
  | .elem _ _ => false
  | _ => true

/-- A stream of a region at a phase start. -/
def Net.phaseStream (g : Net) (reg k : Nat) (q : Stream) : Stream :=
  if q.kept then { q with count := q.count.map CountNode.fresh } else g.startStream reg k q

/-- The stream that feeds an input port. -/
def Region.feeder (g : Region) (e p : Nat) : Option (Nat × Stream) := (indexed 0 g.streams).find? fun q => q.2.cons == .elem e p

/-- An element's input buffers at a start: initial tokens, and what kept streams have delivered. R174 does not say where the initial tokens of a
stream with a counter or a corner-turn node stand: they stand in the buffer, past the node, which has neither counted nor turned them
(DESIGN CHOICE, log 123). -/
def startBufs (net : Net) (g : Region) (reg e : Nat) (old : List (List Token)) (keep : Bool) : List (List Token) :=
  (List.range 8).map fun p =>
    match g.feeder e p with
    | none => []
    | some (k, q) => if keep && q.kept then old.getD p [] else net.initToks reg k q.init

/-- Address generators with every counter at zero (R287). -/
def freshAgens : List Agen := List.replicate 4 ⟨List.replicate 4 0, false, [], .no, none⟩

/-- The streams and buffers of a region at a launch, or (`keep`) at a phase start, with the sequence state of FILT and MERGE (R103,
R169, R170, R174). -/
def State.startStreams (s : State) (r : RegionRef) (keep : Bool) : State :=
  match s.launch? r.l, s.region? r with
  | some l, some g =>
    let net := s.netOf l
    let t := s.modRegion r fun h =>
      { h with streams := (indexed 0 h.streams).map fun (k, q) => if keep then net.phaseStream r.k k q else net.startStream r.k k q }
    { t with elems := t.elems.map fun (e, x) =>
        if x.rref = r then
          (e, { x with
            cur := { x.cur with inBuf := startBufs net g r.k e x.cur.inBuf keep, agens := freshAgens }
            inAt := List.replicate 8 []
            filts := net.filtStart e
            merges := [] })
        else (e, x) }
  | _, _ => s

/-! ### PHASE_END (R22, R232) -/

/-- Whether an element has done its part of a phase: PHEND executed and no firing in flight; one with no actor counts so. -/
def Elem.phaseDone (x : Elem) : Bool := x.ctxNow.isNone || (x.phend.isSome && x.firings.isEmpty)

/-- The region predicate (R22). -/
def regionPred (es : List (Nat × Elem)) : Bool := es.any fun q => q.2.phend.getD false

/-- The epilogue of an element started, once (R22). -/
def Elem.startEpilogue (x : Elem) : Elem :=
  match x.ctxNow with
  | some c =>
    match c.epi with
    | some b =>
      { x with
        epiRun := true
        firings := [{ no := x.started, epi := true, slots := b.slots, assigned := List.replicate 8 [], owed := b.owes, held := [] }] }
    | none => { x with epiRun := true }
  | none => { x with epiRun := true }

/-- The successor context that an element's configuration names for a predicate (R22); none where it holds no actor. -/
def Elem.successor (x : Elem) (pred : Bool) : Option Nat := x.ctxNow.map fun c => if pred then c.desc.nextT else c.desc.nextF

/-- An element in its successor context (R22, R103); one with no actor names none, and follows the first element of the region that has one
(log 22). The interval since its last start goes on counting (R10). -/
def Elem.nextPhase (x : Elem) (pred : Bool) (first : Nat) : Elem :=
  { x with
    ctx := (x.successor pred).getD first
    phend := none
    epiRun := false
    phases := (x.phases + 1) % 2 ^ 32
    pred := pred
    begun := false }

/-- Whether the out-direction generators of an element have taken care of every token they hold (R287). -/
def Elem.agensDrained (x : Elem) : Bool :=
  ((x.ctxNow.map (·.agens)).getD []).all fun a => !a.out || (x.cur.agens.getD a.port ⟨[], false, [], .no, none⟩).q.isEmpty

/-- PHASE_END: once every element has executed PHEND and its firings have completed, epilogues run; once they are complete, and
every generator has written what it holds, every element activates its successor context and the streams are restored. No phase ends during a wavefront (R25). -/
def execPhaseEnd (r : RegionRef) (s : State) : Out :=
  match s.region? r with
  | none => .next s
  | some g =>
    let es := s.regionElems r
    let open_ := g.moves && !g.waving
    if !open_ || !(es.any fun q => q.2.ctxNow.isSome) || !(es.all fun q => q.2.phaseDone && !q.2.stopped) then .next s
    else
      let pred := regionPred es
      let switch (t : State) : State :=
        let u := es.foldl (fun v q => v.trace q.1 3 evPhase 0 0) t
        let first := (es.findSome? fun q => q.2.successor pred).getD 0
        (u.modRegionElems r fun x => x.nextPhase pred first).startStreams r true
      let drained := es.all fun q => q.2.agensDrained
      if es.all fun q => q.2.epiRun then .next (if drained then switch s else s)
      else if es.any fun q => ((q.2.ctxNow.map fun c => c.epi.isSome)).getD false then
        .next (s.modRegionElems r Elem.startEpilogue)
      else .next (if drained then switch s else s)

/-! ### Gates and replay classes (R230, R318, R329) -/

/-- Whether an instruction makes its region non-replayable (R329). -/
def nonReplay (i : Instr) : Bool :=
  match i with
  | .aadd .. | .amin .. | .amax .. | .aand .. | .aor .. | .axor .. | .axch .. | .acas .. | .afadd .. | .ascat .. => true
  | .stv .. | .launch .. | .chapp .. | .chctl .. | .tdisp .. => true
  | _ => false

/-- The region that an instruction gates (R230). -/
def gates (i : Instr) : Option Nat :=
  match i with
  | .sarm _ n _ | .swait _ n _ => some n.toNat
  | _ => none

/-- The instructions of an element's contexts; while a wavefront passes, those of the configuration that it brings, or replaces, too. -/
def Elem.allInstrs (x : Elem) (wave : Bool) : List Instr :=
  (x.cur.ctxs ++ x.alt.ctxs ++ (if wave then x.shadow.map (·.2) else [])).flatMap fun c => match c with
    | none => []
    | some c => (c.body.instrs ++ ((c.epi.map Block.instrs).getD [])).map (·.2)

/-- The regions of a launch marked by what the blocks of its elements hold: which are gated, and which are replayable. The marks follow a
reconfiguration as it is admitted and as it ends. A region that only method entries name is gated once the graph sequencer arms it. -/
def State.markRegions (s : State) (ref : LaunchRef) : State :=
  match s.launch? ref with
  | none => s
  | some l =>
    let es := (s.elems.filter fun q => q.2.l == ref).map fun (_, x) =>
      (x.reg, x.allInstrs (((l.regions[x.reg]?).map Region.waving).getD false))
    let gated := es.flatMap fun q => q.2.filterMap gates
    let bad := (es.filter fun q => q.2.any nonReplay).map (·.1)
    s.modLaunch ref fun x => { x with regions := (indexed 0 x.regions).map fun (j, g) =>
      { g with gated := gated.contains j || (g.gated && g.method), replayable := !g.putBy && !bad.contains j } }

/-! ### Wavefronts (R24, R25, R228) -/

/-- WAVEFRONT_ADMISSION: every element of the region holds its share, and no phase change is pending there. -/
def execWavefrontAdmission (r : RegionRef) (s : State) : Out :=
  match s.region? r with
  | none => .next s
  | some g =>
    match g.wave with
    | none => .next s
    | some w =>
      if w.admitted || g.st != .running || ((s.regionElems r).any fun q => q.2.ending) then .next s
      else .next ((s.modRegion r fun h => { h with wave := some { w with admitted := true } }).markRegions r.l)

/-- An element, and those from which tokens of the old configuration can reach it: those upstream, round feedback loops too, that have not
switched. -/
def State.upstream (s : State) (g : Region) (e : Nat) : List Nat :=
  closeOver (fun a => g.streams.filterMap fun q =>
    match q.prod, q.cons with
    | .elem u _, .elem c _ => if c = a ∧ !((s.elem? u).map (·.switched)).getD true then some u else none
    | _, _ => none) (g.streams.length + 2) [e] []

/-- Whether an element could start another firing of the old configuration. An actor with no input port starts no more once the
wavefront is admitted, nor does one that has executed PHEND (R232). -/
def Elem.oldWork (x : Elem) : Bool :=
  match x.ctxNow with
  | none => false
  | some c => x.phend.isNone && ((List.range 8).any fun p => c.desc.cin.getD p 0 != 0) && x.insOk c

/-- Whether an element still works under the old configuration: a firing in flight or to come, an access, a token for one of its generators. -/
def Elem.stillOld (x : Elem) : Bool := x.stopped || !x.firings.isEmpty || x.oldWork || !x.acc.isEmpty || !x.agensDrained

/-- Whether an element has had its final firing of the old configuration (R24): neither it nor any element whose tokens could still reach it has
work under it, and no stream into one of them has a token on its way. -/
def State.oldDone (s : State) (g : Region) (e : Nat) : Bool :=
  let us := s.upstream g e
  (us.all fun u => !((s.elem? u).map Elem.stillOld).getD false) &&
  g.streams.all fun q =>
    match q.cons with
    | .elem c _ => !us.contains c || q.transitFree
    | _ => true

/-- The element with its shadow context copied into the active set, and what it replaces kept until the wavefront has passed
(R228, R229); break bits of what is replaced are gone (R443). What the old configuration contributed to the predicate network counts no
more (R25). -/
def Elem.adopt (x : Elem) : Elem :=
  let old := x.shadow.map fun (c, _) => (c, x.cur.ctxs.getD c none)
  let ctxs := x.shadow.foldl (fun l (c, v) => setAt l c v) x.cur.ctxs
  { x with
    cur := { x.cur with ctxs := ctxs, agens := freshAgens }
    shadow := old
    phend := none
    switched := true
    waves := x.waves + 1 }

/-- The region after a wavefront has passed its last element: the entry completes with zero in LOAD and STAGE, and the wavefront
trigger fires (R200). -/
def State.waveDone (s : State) (r : RegionRef) (w : Wave) : State :=
  let t := s.modRegionElems r fun x => { x with switched := false, shadow := [] }
  let u := (t.modRegion r fun h => { h with wave := none, waveTrig := true }).markRegions r.l
  u.completeEntry r.l.n w.q w.loadIova 0 0

/-- ELEMENT_SWITCH (R24, R25, R228): after its final firing of the old configuration an element takes the new one. -/
def execElementSwitch (e : Nat) (s : State) : Out :=
  match s.elem? e with
  | none => .next s
  | some x =>
    match s.region? x.rref, s.launch? x.l with
    | some g, some l =>
      match g.wave with
      | none => .next s
      | some w =>
        if !w.admitted || x.switched || !s.oldDone g e then .next s
        else
          let t := (s.setElem e x.adopt).trace e 4 evWave 0 0
          let net := t.netOf l
          let u := t.modRegion x.rref fun h =>
            { h with streams := (indexed 0 h.streams).map fun (k, q) =>
                if decide (0 < q.init) && (q.startsAt e || q.endsAt e) then net.startStream x.reg k q
                else if q.endsAt e then { q with rows := [] } else q }
          let v := u.modElem e fun y => { y with cur := { y.cur with inBuf := startBufs net g x.reg e [] false }, inAt := List.replicate 8 [] }
          if (v.regionElems x.rref).all fun q => q.2.switched then .next (v.waveDone x.rref w) else .next v
    | _, _ => .next s

end Sys2Proof.Machine
end

