-- ==== Sys2Proof/Machine/Traps.lean ====
section
/-! DEFINITION. Cuts, the signal box's actions on traps, rollback, pre-emption and drains: the events DUSK_MARKER_CUT, TRAP_ACTION,
ROLLBACK, MACHINE_CHECK, FCCMD_RESUME, FCCMD_END, PREEMPT, PREEMPTION_TIMEOUT, RESUME_REGION, FAULT_WAIT_EXPIRY and DRAIN_RESUME
(R203, R229, R252, R328 to R343, R436). -/

namespace Sys2Proof.Machine

/-! ### DUSK_MARKER_CUT (R108, R338) -/

/-- The used inputs of an element that a stream without initial tokens feeds. -/
def Region.markPorts (g : Region) (e : Nat) (c : Ctx) : List Nat :=
  (List.range 8).filter fun p => c.desc.cin.getD p 0 != 0 && ((g.feeder e p).map fun q => q.2.init == 0).getD false

/-- The used inputs of an element fed by a stream declared with init. -/
def Region.initPorts (g : Region) (e : Nat) (c : Ctx) : List Nat :=
  (List.range 8).filter fun p => c.desc.cin.getD p 0 != 0 && ((g.feeder e p).map fun q => decide (0 < q.2.init)).getD false

/-- Whether a marker has reached an input: a marker stands in its buffer with fewer tokens before it than a firing takes. -/
def Elem.marked (x : Elem) (c : Ctx) (p : Nat) : Bool :=
  ((x.cur.inBuf.getD p []).any fun t => t.kind == .dusk) && decide ((x.ahead p).length < max 1 (c.desc.cin.getD p 0))

/-- Whether a live register is pending (R108). -/
def Elem.livePending (x : Elem) (c : Ctx) : Bool :=
  (indexed 0 x.cur.regs).any fun (v, q) => bit c.desc.live.toNat v && q.st == .pending

/-- What a cut saves of an element (R338); `all` takes every register, as for the launch state (R436). -/
def Elem.cutOf (x : Elem) (e : Nat) (all : Bool) (inBuf : List (List Token)) : ElemCut where
  e := e
  ctx := x.ctx
  phases := x.phases
  pred := x.pred
  regs := (indexed 0 x.cur.regs).filter fun (v, _) => all || ((x.ctxNow.map fun c => bit c.desc.live.toNat v)).getD false
  scratch := x.cur.scratch
  tiles := x.cur.tiles
  bars := x.cur.bars
  gens := x.cur.gens
  agens := x.cur.agens
  started := x.started
  done := x.done
  inBuf := inBuf
  filts := x.filts
  merges := x.merges
  nrep := x.reports.length

/-- An element's share put into the cut of a number. -/
def Region.saved (g : Region) (epoch : Nat) (v : ElemCut) : Region :=
  let cs := if g.cuts.any (·.epoch == epoch) then g.cuts else g.cuts ++ [⟨epoch, [], []⟩]
  { g with cuts := cs.map fun c => if c.epoch = epoch then { c with elems := c.elems ++ [v] } else c }

/-- An input buffer without its first marker. -/
def dropDusk : List Token → List Token
  | [] => []
  | t :: r => if t.kind == .dusk then r else t :: dropDusk r

/-- A marker emitted on each used output port that feeds streams; none where a stream has no room. An element with no actor uses none. -/
def State.markOut (s : State) (l : Launch) (e : Nat) (x : Elem) : Option State :=
  let qs := match x.ctxNow with
    | none => []
    | some c => (List.range 8).flatMap fun p => if c.desc.cout.getD p 0 = 0 then [] else l.fromElem e p
  s.enterAll qs duskTok 0

/-- Whether an element holds a marker on every used input, init-fed ones apart; one without such inputs follows the region's inputs. -/
def Elem.markDue (x : Elem) (g : Region) (e : Nat) : Bool :=
  let injected := g.ins.any fun i => decide (x.epoch < i.nmark)
  match x.ctxNow with
  | none => injected
  | some c => let ps := g.markPorts e c; if ps.isEmpty then injected else ps.all fun p => x.marked c p

/-- The ports of an element at which a marker is taken, and those at which the tokens that follow are recorded (R338). -/
def Elem.cutPorts (x : Elem) (g : Region) (e : Nat) : List Nat := (x.ctxNow.map (g.markPorts e)).getD []
def Elem.lastPorts (x : Elem) (g : Region) (e : Nat) : List Nat := (x.ctxNow.map (g.initPorts e)).getD []

/-- DUSK_MARKER_CUT: an element with a marker on every used input, init-fed ones apart, no live register pending and no firing in
flight saves its state and emits markers. The cut before it must be complete, since the two buffers alternate (R339). An element that holds
no actor has no input to wait for: it saves its barriers and pool once a marker has entered the region (R309; log 106). -/
def execDuskMarkerCut (e : Nat) (s : State) : Out :=
  match s.elem? e with
  | none => .next s
  | some x =>
    match s.region? x.rref, s.launch? x.l with
    | some g, some l =>
      let ps := x.cutPorts g e
      if g.save = 0 || !s.runs x || s.paused x.l || x.epoch != g.epoch || g.waving || x.ending || !x.firings.isEmpty ||
          (x.ctxNow.map x.livePending).getD false || !x.markDue g e then .next s
      else match s.markOut l e x with
      | none => .next s
      | some t =>
        let kept := (indexed 0 x.cur.inBuf).map fun (p, b) => if ps.contains p then b.takeWhile fun k => k.kind != .dusk else b
        let v := x.cutOf e false kept
        let u := t.modElem e fun y =>
          { y with
            cur := { y.cur with inBuf := (indexed 0 y.cur.inBuf).map fun (p, b) => if ps.contains p then dropDusk b else b }
            inAt := (indexed 0 y.inAt).map fun (p, ts) =>
              if ps.contains p then ts.eraseIdx ((y.cur.inBuf.getD p []).takeWhile fun k => k.kind != .dusk).length else ts
            epoch := y.epoch + 1
            marks := (List.range 8).map fun p => (x.lastPorts g e).contains p }
        let w := u.modRegion x.rref fun h => h.saved (x.epoch + 1) v
        .next ((w.saveFree x.l.n (s.cutAt x.rref g.save (x.epoch + 1) e) x.saveSize).checkCut x.rref)
    | _, _ => .next s

/-! ### TRAP_ACTION (R229, R329, R330, R332, R341) -/

/-- The order in which the traps of a region are taken (R330). -/
def FaultReg.key (f : FaultReg) : List Nat := [f.cycle, f.col, f.row, f.ctx, b2n f.blk, f.slot]

/-- Whether a key comes before another. -/
def keyLt : List Nat → List Nat → Bool
  | a :: r, b :: q => decide (a < b) || (a == b && keyLt r q)
  | _, _ => false

/-- The traps of a region, each with its element, in no order. -/
def State.faultsOf (s : State) (r : RegionRef) (g : Region) : List (Nat × FaultReg) :=
  ((g.portFault.toList ++ g.portMore).map fun f => (noElem, f)) ++
    (s.regionElems r).flatMap fun (e, x) => (x.fault.toList ++ x.more).map fun f => (e, f)

/-- The first trap of a list (R330). -/
def firstFault : List (Nat × FaultReg) → Option (Nat × FaultReg)
  | [] => none
  | p :: r =>
    match firstFault r with
    | none => some p
    | some q => some (if keyLt q.2.key p.2.key then q else p)

/-- The page of a trap's source. -/
def faultPage (q : Nat × FaultReg) : Nat := if q.1 = noElem then q.2.no else pageOf q.1

/-- A record put into a signal box, whose places a suppressed one may find taken (R332, R454). -/
def boxPut (act : Nat) (l : List Record) (w : Record) : List Record :=
  if act = actSuppressed ∧ Config.waitingRecords ≤ l.length then l else l ++ [w]

/-- A trap's records in the signal box of its region, the tenant's and the operator's; a suppressed one of the tenant's that finds no place is counted
(R332, R452, R454). -/
def State.recordFault (s : State) (r : RegionRef) (g : Region) (act : Nat) (q : Nat × FaultReg) : State :=
  let w := trapRecord q.2 r.k act g.epoch
  let o := s.operatorRecord r.l.n q.1 (faultPage q) q.2.pol w
  let full := decide (Config.waitingRecords ≤ ((s.region? r).map fun h => h.waiting.length).getD 0)
  let t := s.modRegion r fun h => { h with waiting := boxPut act h.waiting w, opWaiting := boxPut act h.opWaiting o }
  if full && act == actSuppressed then t.modPart r.l.n fun p => { p with fclost := satUp p.fclost } else t

/-- The traps of a list in the order in which R330 takes them. -/
def ruleOrder : Nat → List (Nat × FaultReg) → List (Nat × FaultReg)
  | 0, _ => []
  | k + 1, l =>
    match firstFault l with
    | none => []
    | some q => q :: ruleOrder k (l.erase q)

/-- The suppressed traps of a region recorded in the order of the rule, and discarded (R330). -/
def State.suppress (s : State) (r : RegionRef) (g : Region) (qs : List (Nat × FaultReg)) : State :=
  (ruleOrder qs.length qs).foldl (fun t q => t.recordFault r g actSuppressed q) s

/-- The fault registers of a region cleared, but for that of one element. -/
def State.clearFaults (s : State) (r : RegionRef) (keep : Nat) : State :=
  let t := s.modRegion r fun g => { g with portFault := none, portMore := [] }
  { t with elems := t.elems.map fun (e, x) =>
      if x.rref = r then (e, { x with fault := if e = keep then x.fault else none, more := [] }) else (e, x) }

/-- A wavefront abandoned (R229): the elements that have switched take the old configuration back, and the entry completes with
code 0x54. -/
def State.abandonWave (s : State) (r : RegionRef) (g : Region) : State :=
  match g.wave with
  | none => s
  | some w =>
    if !w.admitted then s
    else
      let t := s.modRegionElems r fun x =>
        let ctxs := if x.switched then x.shadow.foldl (fun l (c, v) => setAt l c v) x.cur.ctxs else x.cur.ctxs
        { x with cur := { x.cur with ctxs := ctxs }, shadow := [], switched := false }
      ((t.modRegion r fun h => { h with wave := none }).markRegions r.l).completeEntry r.l.n w.q
        w.loadIova 0 (stageRec 0x54 r.k 0)

/-- Ratios of a region's islands, as it stops (R203). -/
def Launch.ratiosOf (l : Launch) (k : Nat) : List (Nat × Nat × Nat) :=
  (indexed 0 l.islands).filterMap fun (j, i) => if i.reg = k then some (j, i.p, i.q) else none

/-- A launch aborted for a region: STAGE code 0x58 (R329). -/
def State.abort (s : State) (r : RegionRef) : State := s.endLaunch r.l 0 (stageRec 0x58 r.k 0)

/-- Whether an access can be performed now: its turn has come, and nothing makes it wait. -/
def State.canPerform (s : State) (e : Nat) (x : Elem) (a : Access) : Bool :=
  s.accTurn e x a && (match accDo a e x.l.n s with
    | .wait _ _ => false
    | _ => true)

/-- Whether an access of a region that is to end is still to be performed (R304, R328): it can be, or waits for a translation or for the response to a
page request. One that waits for what a stopped region no longer does, a slot that will not issue, a version or a pin, never takes effect; nor
does one of a drained region that counts as not issued (R436). -/
def State.dueYet (s : State) (g : Region) (e : Nat) (x : Elem) (a : Access) : Bool :=
  if a.wait.withholds then g.st != .swapped
  else s.accTurn e x a && (match accDo a e x.l.n s with
    | .wait (.ats _ _ _) _ | .wait (.pri _) _ => true
    | .wait _ _ => false
    | _ => true)

/-- Whether a write that a generator of an element has issued is still to be performed. -/
def Elem.stepDue (x : Elem) (g : Region) : Bool :=
  ((x.ctxNow.map (·.agens)).getD []).any fun a => a.out && (match x.cur.agens[a.port]? with
    | some z => z.since.isSome && (g.st != .swapped || !z.wait.withholds)
    | none => false)

/-- Whether everything that a region issued has been performed, as far as it ever will be (R304, R328). -/
def State.settled (s : State) (r : RegionRef) (g : Region) : Bool :=
  (s.regionElems r).all fun q => !q.2.stepDue g && q.2.acc.all fun a => !s.dueYet g q.1 q.2 a

/-! ### Machine checks (R336) -/

/-- The bank of a machine check: its element, or the page of its slice, and its number there. -/
def bankKey (q : Nat × FaultReg) : Nat × Nat := (if q.1 = noElem then noElem + q.2.no else q.1, bits q.2.mc.toNat 63 56)

/-- The banks of the machine checks among some traps, whether they are acted on or suppressed. -/
def checksOf (qs : List (Nat × FaultReg)) : List (Nat × Nat) := (qs.filter fun q => q.2.cls == tcMachine).map bankKey

/-- Whether a bank comes a second time. -/
def repeats : List (Nat × Nat) → List (Nat × Nat) → Bool
  | _, [] => false
  | old, k :: r => old.contains k || repeats (k :: old) r

/-- A region that has had machine checks at some banks: a rollback that is to be made zeroes its pools. -/
def Region.checked (g : Region) (ks : List (Nat × Nat)) : Region :=
  { g with banks := g.banks ++ ks, rolling := if ks.isEmpty then g.rolling else g.rolling.map fun _ => true }

/-- An element with its shadow sets swapped (R227). -/
def Elem.swap (x : Elem) : Elem := { x with cur := x.alt, alt := x.cur, set := 1 - x.set }

/-- A region whose working sets are the inactive ones with them put back (R342). -/
def State.swapIn (s : State) (r : RegionRef) (g : Region) : State :=
  if g.out then (s.modRegionElems r (·.swap)).modRegion r fun h => { h with out := false } else s

/-- A region aborted for its primary trap. It stops first: what it issued before the trap is performed (R328), and what can no longer be performed
never takes effect (R304). -/
def State.abortOn (s : State) (r : RegionRef) (g : Region) (q : Nat × FaultReg) (rest : List (Nat × FaultReg)) : State :=
  if s.settled r g then ((s.recordFault r g actAborted q).suppress r g rest).abort r
  else s.modRegion r fun h => { h with st := .held }

/-- What the signal box does about the primary trap of a region. A machine check among the traps counts for its bank, and zeroes the pools before the
region restarts, whether it is the primary one or not (R336). -/
def State.actOn (s : State) (r : RegionRef) (g : Region) (q : Nat × FaultReg) (rest : List (Nat × FaultReg)) : State :=
  let f := q.2
  let ks := checksOf (q :: rest)
  if repeats g.banks ks then s.abortOn r g q rest
  else if f.cls = tcBreak then
    ((s.recordFault r g actFrozen q).suppress r g rest).clearFaults r q.1 |>.modRegion r fun h => { h.checked ks with st := .frozen }
  else if f.cls = tcQuota then
    ((s.recordFault r g actPreempted q).suppress r g rest).clearFaults r noElem |>.modRegion r fun h => (h.checked ks).askPreempt true
  else if g.replayable ∧ g.save ≠ 0 ∧ g.st != .swapped then
    let t := ((s.recordFault r g actHeld q).suppress r g rest).clearFaults r noElem
    ((t.swapIn r g).abandonWave r g).modRegion r fun h =>
      { h with st := .held, quotaHeld := false, rolling := some (h.rolling == some true) }.checked ks
  else s.abortOn r g q rest

/-- TRAP_ACTION: the first trap of a region is acted on, the others are suppressed. Traps that follow while the region is being
rolled back are suppressed too, unless a bank has had its second machine check; a frozen region takes none until it resumes, nor does one whose
record still waits (R332, R336). -/
def execTrapAction (r : RegionRef) (s : State) : Out :=
  match s.region? r with
  | none => .next s
  | some g =>
    let fs := s.faultsOf r g
    match firstFault fs with
    | none => .next s
    | some q =>
      if g.st == .frozen then .next s
      else if g.st == .held && g.rolling.isSome && !repeats g.banks (checksOf fs) then
        .next (((s.suppress r g fs).clearFaults r noElem).modRegion r (·.checked (checksOf fs)))
      else if g.waiting.isEmpty && g.opWaiting.isEmpty then .next (s.actOn r g q (fs.erase q))
      else .next s

/-! ### ROLLBACK (R309, R336, R340, R345, R346, R436) -/

/-- A register as a rollback leaves it (R106, R336): restored if the cut has it; else it keeps its state, which for one whose access was
discarded is the state before that access, and its contents, which are zero in a pool that had a machine check. -/
def rollReg (saved : List (Nat × Reg)) (zero : Bool) (was : List (Nat × RegSt)) (v : Nat) (q : Reg) : Reg :=
  match look v saved with
  | some w => w
  | none =>
    let st := if q.st = .pending then (look v was).getD q.st else q.st
    { st := st, data := if zero then 0 else q.data }

/-- The registers that the outstanding accesses of an element were to fill, each with its state before. -/
def Elem.awaited (x : Elem) : List (Nat × RegSt) :=
  x.acc.filterMap fun a => match a.dst with
    | .reg v => some (v.toNat, a.was)
    | .tgt _ => none

/-- Engine reports after a cut as a rollback applies them: those to one barrier or sync word as one, of their summed bytes (R309, R312). -/
def sumReports : List Report → List Report
  | [] => []
  | r :: l =>
    let same (q : Report) : Bool := q.sync == r.sync && q.at_ == r.at_
    let rs := sumReports l
    { r with bytes := r.bytes + ((rs.filter same).map (·.bytes)).sum } :: rs.filter fun q => !same q

/-- A restored generator whose program is still to be reloaded from pattern memory (R392). -/
def Gen.bare (g : Gen) : Gen := { g with prog := [] }

/-- An element restored from its share of a cut. Its generators reload their programs (R392; log 96), the interval since its last start goes on
counting (R10), and the firings that are replays are those up to the largest number ever started (R345). -/
def Elem.rollback (x : Elem) (v : ElemCut) (epoch : Nat) (zero : Bool) : Elem :=
  let y := { x with
    ctx := v.ctx
    phases := v.phases
    pred := v.pred
    cur := { x.cur with
      inBuf := v.inBuf
      regs := (indexed 0 x.cur.regs).map fun (k, q) => rollReg v.regs zero x.awaited k q
      scratch := v.scratch
      tiles := v.tiles
      bars := v.bars
      gens := v.gens.map Gen.bare
      agens := v.agens.map fun a => { a with wait := .no, since := none } }
    firings := []
    started := v.started
    done := v.done
    begun := false
    inAt := List.replicate 8 []
    outAt := List.replicate 8 []
    filts := v.filts
    merges := v.merges
    epiRun := false
    phend := none
    mxUse := []
    acc := reloads v.gens 0 x.accNext
    accNext := x.accNext + 4
    fills := []
    fault := none
    more := []
    stopped := false
    brkPass := none
    epoch := epoch
    replayUpTo := some (max (x.replayUpTo.getD 0) x.started)
    marks := List.replicate 8 false }
  (sumReports (x.reports.drop v.nrep)).foldl Elem.applyReport y

/-- A region with its tokens discarded, its counter nodes restored, its inputs rewound and its outputs set to suppress (R340). -/
def Region.rollback (g : Region) : Region :=
  let nodes := ((g.cuts.find? (·.epoch == g.epoch)).map (·.nodes)).getD []
  { g with
    streams := (indexed 0 g.streams).map fun (k, q) =>
      if q.isLink then q
      else
        let z := (q.clear).mapSidings Siding.restart
        match look k nodes with
        | some n => { z with count := z.count.map fun _ => n }
        | none => z
    ins := g.ins.map fun i =>
      { i with replay := i.log, since := i.since0, mark := false, want := false, nmark := g.epoch, marks := [], wait := .no }
    outs := g.outs.map fun o =>
      { o with suppress := o.since + o.suppress, since := 0, nmark := g.epoch, marks := [], wait := .no }
    cuts := g.cuts.filter fun c => c.epoch == g.epoch
    rolling := none }

/-- Fetch buffers of an element released (R362). -/
def State.freeBufs (s : State) (e : Nat) : State := (List.range 4).foldl (fun t b => t.freeBuf e b) s

/-- Whether an access holds a rollback up. One that can never be performed does not, since it stands behind a slot that will not issue, or a
slice that a machine check has halted keeps it back (R335; log 47), nor an LDV of a version that is still to come (R304; log 81). -/
def State.blocksRoll (s : State) (g : Region) (e : Nat) (x : Elem) (a : Access) : Bool :=
  a.wait.withholds || s.accTurn e x a && (s.canPerform e x a || !(a.op == .ldv || g.pages.any fun k => (s.page k).halted))

/-- ROLLBACK: once every issued access is performed, the region returns to its last complete cut. -/
def execRollback (r : RegionRef) (s : State) : Out :=
  match s.region? r with
  | none => .next s
  | some g =>
    match g.rolling with
    | none => .next s
    | some zero =>
      let es := s.regionElems r
      if es.any fun q => (q.2.acc.any fun a => s.blocksRoll g q.1 q.2 a) || q.2.stepDue g || !q.2.fills.isEmpty then .next s
      else
        let vs := ((g.cuts.find? (·.epoch == g.epoch)).map (·.elems)).getD []
        let t := es.foldl (fun u q => u.freeBufs q.1) s
        let u := vs.foldl (fun w v => w.modElem v.e fun x => x.rollback v g.epoch zero) t
        .next (u.modRegion r (·.rollback))

/-! ### MACHINE_CHECK (R335) -/

/-- The fault register of a machine check: no position, MC filled. -/
def checkFault (s : State) (bank syn addr : Nat) (f : FaultReg) : FaultReg :=
  { f with cls := tcMachine, cycle := s.cycle, mc := BitVec.ofNat 64 (bank % 256 * 2 ^ 56 + syn % 65536 * 2 ^ 40 + addr % 2 ^ 40) }

/-- MACHINE_CHECK: an element halts; a slice halts, and its check stops every region that holds a page of that slice (R335). -/
def execMachineCheck (site : McSite) (bank syn addr : Nat) (s : State) : Out :=
  match site with
  | .elem e => .next (s.raiseNoPos e (checkFault s bank syn addr))
  | .slice page =>
    let rs := (indexed 0 s.parts).flatMap fun (_, p) => p.launches.flatMap fun l => (indexed 0 l.regions).filterMap fun (k, g) =>
      if g.pages.contains page then some (⟨l.ref, k⟩ : RegionRef) else none
    .next (rs.foldl (fun t r => t.raisePort r (checkFault s bank syn addr (quotaFault s r.l.n page))) (s.modPage page fun p => { p with halted := true }))

/-! ### Ratios on resumption (R203) -/

/-- An island at the ratio at which it stopped: in force still, its voltage from the present margin plan; or decided, to come into force at the
next boundary as every change does (R191, R202, R203; log 108, DEDUCED). -/
def State.rejoined (s : State) (l : Launch) (i : Island) (f : Frac) : Island :=
  if i.ratio.eqv f then { i.decide_ f with mv := s.islandMv (l.pagesOf i) f } else i.decide_ f

/-- A launch whose islands of a region return to the ratios at which they stopped, within the margin caps; every window restarts (R203). -/
def State.rejoin (s : State) (r : RegionRef) : State :=
  match s.launch? r.l, s.region? r with
  | some l, some g =>
    let is := g.stopRatios.foldl (fun is (k, p, q) => modAt is k fun i => s.rejoined l i ⟨p, q⟩) l.islands
    let t := s.modLaunch r.l fun x => { x with islands := is }
    let u := t.modRegion r fun h => { h.mapSidings Siding.restart with stopRatios := [] }
    (u.modRegionElems r fun x => { x with win := [], begun := false }).capAll r.l
  | _, _ => s

/-! ### FCCMD (R334, R336) -/

/-- The region that a command names. -/
def cmdRegion (n q tseq k : Nat) : RegionRef := ⟨⟨n, q, tseq⟩, k⟩

/-- An element of a frozen region as it continues: the slot that a breakpoint stopped passes it once (R329, R334). -/
def Elem.thaw (x : Elem) : Elem :=
  match x.fault with
  | some f => if f.cls = tcBreak then { x with fault := none, stopped := false, brkPass := some (f.no, f.blk, f.slot) } else x
  | none => { x with stopped := false }

/-- A region that runs again; a pre-emption that waited for it begins (R343). -/
def Region.goOn (g : Region) : Region :=
  let h := { g with st := .running, resume := false, ending := false }
  if g.pre then ({ h with pre := false }).askPreempt false else h

/-- A held region that starts again: slices of its pages that a machine check halted serve again (log 47), and its islands have the ratios at
which it stopped, if it was pre-empted. -/
def State.restart (s : State) (r : RegionRef) (g : Region) : State :=
  let t := g.pages.foldl (fun u k => u.modPage k fun p => { p with halted := false }) (s.modRegion r (·.goOn))
  if g.stopRatios.isEmpty then t else t.rejoin r

/-- FCCMD_RESUME: a held region starts again from its cut, a frozen one continues; the command waits for the record to be written
and the rollback to be made (R332). A region that is on its way to be aborted does not resume. -/
def execFccmdResume (n q tseq k : Nat) (s : State) : Out :=
  let r := cmdRegion n q tseq k
  match s.region? r with
  | none => .next s
  | some g =>
    if g.st != .held && g.st != .frozen then .next s
    else if g.st == .held && !(s.faultsOf r g).isEmpty then .next s
    else if !g.waiting.isEmpty || !g.opWaiting.isEmpty || g.rolling.isSome then .next (s.modRegion r fun h => { h with resume := true })
    else if g.st == .held then .next (s.restart r g)
    else .next ((s.modRegionElems r (·.thaw)).modRegion r (·.goOn))

/-- FCCMD_END: the launch of a stopped region ends with STAGE code 0x58, once what the region issued has been performed (R304, R328). -/
def execFccmdEnd (n q tseq k : Nat) (s : State) : Out :=
  let r := cmdRegion n q tseq k
  match s.region? r with
  | none => .next s
  | some g =>
    if g.st != .held && g.st != .frozen then .next s
    else if s.settled r g then .next (s.abort r)
    else .next (s.modRegion r fun h => { h with ending := true })

/-! ### Pre-emption (R227, R229, R342, R343) -/

/-- Whether a region that is being pre-empted has emptied: every access that it issued, its generators' too, has been performed (R304, R342). -/
def State.emptied (s : State) (r : RegionRef) (g : Region) : Bool :=
  match s.launch? r.l with
  | none => false
  | some l =>
    s.agensIdle r && (g.streams.all fun q => q.isLink || q.transitFree) &&
    (s.regionElems r).all fun (e, x) =>
      x.firings.isEmpty && x.acc.isEmpty && x.fills.isEmpty && !x.stopped && !x.ending && (x.cur.agens.all (·.since.isNone)) &&
      ((x.ctxNow.map fun c => !(x.insOk c && s.outsOk l e x c)).getD true)

/-- The shadow sets of a region's elements swapped; the inactive ones stream to the save area. -/
def State.swapOut (s : State) (r : RegionRef) (g : Region) : State :=
  let es := s.regionElems r
  let t := es.foldl (fun u q => u.freeBufs q.1) s
  let u := t.modRegionElems r (·.swap)
  let w := if g.save = 0 then u
    else es.foldl (fun v q => v.saveFree r.l.n (s.cutAt r g.save (g.epoch + 1) q.1) q.2.saveSize) u
  let ratios := ((s.launch? r.l).map fun l => l.ratiosOf r.k).getD []
  w.modRegion r fun h => { h with st := .preempted, out := true, stopRatios := ratios }

/-- PREEMPT: a running region stops at generator boundaries, or, with a wavefront on its way, after it; a held one when it
resumes; one that has emptied swaps its sets. -/
def execPreempt (r : RegionRef) (s : State) : Out :=
  match s.region? r with
  | none => .next s
  | some g =>
    match g.st with
    | .running =>
      .next (s.modRegion r fun h => ({ h with pre := false }).askPreempt h.quotaHeld)
    | .held | .frozen => .next (s.modRegion r fun h => { h with pre := true })
    | .preempting => if s.emptied r g && g.portFault.isNone then .next (s.swapOut r g) else .next s
    | _ => .next s

/-- Master cycles that a region may take to empty (R342). -/
def preemptLimit : Nat := 2 ^ 24

/-- PREEMPTION_TIMEOUT: a replayable region that has not emptied in time is returned to its last complete cut. -/
def execPreemptionTimeout (r : RegionRef) (s : State) : Out :=
  match s.region? r with
  | none => .next s
  | some g =>
    if g.st != .preempting || g.preemptAge < preemptLimit || !g.replayable || g.save = 0 then .next s
    else
      let ratios := ((s.launch? r.l).map fun l => l.ratiosOf r.k).getD []
      .next (s.modRegion r fun h => { h with st := .preempted, rolling := some false, out := false, stopRatios := ratios })

/-- A pre-empted element whose saved generators reload their programs as it resumes (R392; log 96). -/
def Elem.reload (x : Elem) : Elem :=
  { x with
    alt := { x.alt with gens := x.alt.gens.map Gen.bare }
    acc := x.acc ++ reloads x.alt.gens 0 x.accNext
    accNext := x.accNext + 4 }

/-- RESUME_REGION (R203, R342): a pre-empted region continues from the saved boundary, once its record, if it has one, is written (R332); one
pre-empted for its quota waits for the beginning of a period in which it is not spent, which takes `quotaHeld` away (R430). A swapped-out one resumes by DRAIN_RESUME. -/
def execResumeRegion (r : RegionRef) (s : State) : Out :=
  match s.region? r with
  | none => .next s
  | some g =>
    if g.st != .preempted || g.rolling.isSome || !g.waiting.isEmpty || !g.opWaiting.isEmpty || g.quotaHeld then .next s
    else .next ((((if g.out then s.modRegionElems r (·.reload) else s).swapIn r g).modRegion r fun h =>
      { h with st := .running, resume := false, pre := false, revoked := false }).rejoin r)

/-! ### Drains (R252, R436) -/

/-- The fault-wait limit of a partition in master cycles; none where FWLIM is 0 (R252). -/
def Part.waitLimit (p : Part) : Option Nat :=
  if p.fwlim = 0 then none else some (2 ^ min 40 (max 10 p.fwlim.toNat))

/-- Whether a port of an element is attached to a page request. -/
def Elem.attached (x : Elem) (page : Nat) : Bool := (x.acc.any fun a => a.wait == .pri page) || x.cur.agens.any fun a => a.wait == .pri page

/-- The first element of a region, by column and row (R330), with a port attached to a page request. -/
def State.attachedElem (s : State) (r : RegionRef) (page : Nat) : Option Elem :=
  ((s.regionElems r).filter fun q => q.2.attached page).foldl (fun (b : Option Elem) q =>
    match b with
    | none => some q.2
    | some o => if q.2.col < o.col ∨ q.2.col = o.col ∧ q.2.row < o.row then some q.2 else b) none

/-- An element that a drain leaves with nothing issued that waits for a page: the accesses and steps attached to its request count as not issued, and
their address tokens are discarded (R436). -/
def Elem.detach (x : Elem) (page : Nat) : Elem :=
  let gone := x.acc.filter fun a => a.wait == .pri page
  let y := gone.foldl Elem.unpend x
  { y with
    acc := x.acc.filter fun a => a.wait != .pri page
    cur := { y.cur with agens := y.cur.agens.map fun g => if g.wait == .pri page then { g with wait := .no, since := none } else g } }

/-- A region whose ports have given up what waits for a page. -/
def Region.detach (g : Region) (page : Nat) : Region :=
  let clear (w : Wait) : Wait := if w == .pri page then .no else w
  { g with
    ins := g.ins.map fun i => { i with wait := clear i.wait }
    outs := g.outs.map fun o => { o with wait := clear o.wait } }

/-- The first bound port of a region attached to a page request: 0 input or 1 output, its number, and the token of its access (R464). -/
def Region.attachedPort (g : Region) (page : Nat) : Option (Nat × Nat × Dword) :=
  let ins := (indexed 0 g.ins).filterMap fun (k, i) =>
    if i.wait == .pri page then i.bind.map fun b => (0, k, tokPlus b.tok (64 * i.given)) else none
  let outs := (indexed 0 g.outs).filterMap fun (k, o) =>
    if o.wait == .pri page then o.bind.map fun b => (1, k, tokPlus b.tok (64 * o.taken)) else none
  (ins ++ outs).head?

/-- The trap that a region drained for a page raises if the page is refused, its code apart (R252). That of a bound port is as R464
gives it; that of an element port names the element and claims no instruction position, since the access counts as not issued and its
token is discarded (R436, log 27). -/
def State.drainTrap (s : State) (r : RegionRef) (g : Region) (page : Nat) : Option FaultReg :=
  match g.attachedPort page with
  | some (d, k, tok) => some (portFault s r.l.n (g.portPage (d == 1) k) d k tok (.xlate 0 (4096 * page)))
  | none => (s.attachedElem r page).map fun x =>
    let (cls, cause, d, addr) := s.stopRec r.l.n 0 0 (.xlate 0 (4096 * page))
    { cls := cls, cause := cause, col := x.col, row := x.row, ctx := 0, blk := false, slot := 0, nopos := true, node := 0, loop := 0
      addr := addr, detail := d, mc := 0, fires := x.started, cycle := s.cycle, no := 0
      pol := (s.part r.l.n).faultPol }

/-- Whether a port of a region is attached to a page request. -/
def State.attached (s : State) (r : RegionRef) (g : Region) (page : Nat) : Bool :=
  (g.ins.any fun i => i.wait == .pri page) || (g.outs.any fun o => o.wait == .pri page) ||
  (s.regionElems r).any fun (_, x) => x.attached page

/-- A region drained for a page: its withheld accesses are discarded, and it is swapped out until it has been rolled back and the page has come (R252,
R436). One that is drained already only discards them. -/
def State.drain (s : State) (r : RegionRef) (l : Launch) (g : Region) (page : Nat) (trap : Option FaultReg) : State :=
  let t := (s.modRegionElems r (·.detach page)).modRegion r (·.detach page)
  if g.st == .swapped then t
  else (t.abandonWave r g).modRegion r fun h =>
    { h with st := .swapped, rolling := some false, waitPage := some page, waitFor := trap, pre := h.pre || g.st == .preempting
             stopRatios := l.ratiosOf r.k }

/-- FAULT_WAIT_EXPIRY: every replayable region with a port attached to a page request of that age that nothing has answered is drained to its last complete
cut and swapped out; another keeps its pages, and FWX is set (R253). One without a save area has no cut, and is treated so too (R337; log 126). -/
def execFaultWaitExpiry (n iova : Nat) (s : State) : Out :=
  let p := s.part n
  let page := iova / 4096
  match p.waitLimit, p.pageReqs.find? (·.page == page) with
  | some lim, some q =>
    if q.answered || q.age < lim then .next s
    else
      let rs := p.launches.flatMap fun l => (indexed 0 l.regions).map fun (k, g) => ((⟨l.ref, k⟩ : RegionRef), l, g)
      .next (rs.foldl (fun t (r, l, g) =>
        if !((g.moves || g.st == .swapped) && s.attached r g page) then t
        else if g.replayable && g.save != 0 then t.drain r l g page (s.drainTrap r g page)
        else t.modPart n fun p => { p with fwx := true }) s)
  | _, _ => .next s

/-- Whether a page request for a page is still open, or being asked again. -/
def Part.pageOpen (p : Part) (page : Nat) : Bool :=
  (p.pageReqs.any (·.page == page)) || (p.pageWait.any (·.1 == page)) || p.ats.any (·.page == page)

/-- DRAIN_RESUME: once the translation has come, a drained region, restored from its cut, runs again. -/
def execDrainResume (r : RegionRef) (s : State) : Out :=
  match s.region? r with
  | none => .next s
  | some g =>
    match g.waitPage with
    | none => .next s
    | some page =>
      if g.st != .swapped || g.rolling.isSome || g.portFault.isSome || (s.part r.l.n).pageOpen page then .next s
      else .next ((s.modRegion r fun h => { h.goOn with waitPage := none, waitFor := none }).rejoin r)

end Sys2Proof.Machine
end

