-- ==== Sys2Proof/Machine/Agenda.lean ====
section
/-! DEFINITION. A master cycle (log 3): the counters that advance with it, and the moves that the part makes in it, each of which
acts only where its rule lets it. -/

namespace Sys2Proof.Machine

/-! ### Counters -/

/-- A launch in the next master cycle: its hyperperiod counter moves on, but for the cycle after a change (R191, R202), and while the loader
still has chain entries to append (R26, R64); a region that is being pre-empted grows older (R342). -/
def Launch.nextCycle (l : Launch) : Launch :=
  let x := if l.pause then (if l.chains.isEmpty then { l with pause := false, tick := 0 } else l) else { l with tick := l.tick + 1 }
  { x with regions := l.regions.map fun g => if g.st == .preempting then { g with preemptAge := g.preemptAge + 1 } else g }

/-- A partition in the next master cycle: page requests grow older (R252), and a reset is over (R425). -/
def Part.nextCycle (p : Part) : Part :=
  { p with
    busy := false
    launches := p.launches.map Launch.nextCycle
    pageReqs := p.pageReqs.map fun q => { q with age := q.age + 1 } }

/-! ### Moves -/

/-- Whether an access is an operation on the barrier of another element, which its home lane names by column and row (R307, R320). -/
def farArrival (x : Elem) (a : Access) : Bool :=
  match a.op with
  | .barrier _ _ h | .arm _ h => a.sx && h != x.col * 64 + x.row
  | _ => false

/-- Moves of an element besides the cycle of its island: its generators, its accesses but arrivals at other elements' barriers, its fills, its
cut. -/
def elemMoves (e : Nat) (x : Elem) : List Move :=
  (((x.ctxNow.map (·.agens)).getD []).map fun a => if a.out then Move.event (.agenOutStep e a.port) else .event (.agenInStep e a.port)) ++
  ((x.acc.filter fun a => !farArrival x a).map fun a => .event (.accessPerformed e a.id)) ++
  (x.fills.map fun f => .event (.fillArrival e f.v)) ++
  [.event (.duskMarkerCut e)]

/-- The operations of an element on the barriers of others. -/
def farMoves (e : Nat) (x : Elem) : List Move := (x.acc.filter (farArrival x)).map fun a => .event (.accessPerformed e a.id)

/-- The elements of a launch in column and then row order (R307). -/
def State.byColumn (s : State) (ref : LaunchRef) : List (Nat × Elem) :=
  let es := s.elems.filter fun q => q.2.l == ref
  (List.range 64).flatMap fun c => es.filter fun q => q.1 % 64 == c

/-- Moves of a stream: its borders exchange as the master cycle begins (R192); a two-wide stream takes two tokens through its corner turn
and its counter node (R194). -/
def streamMoves (r : RegionRef) (k : Nat) (q : Stream) : List Move :=
  (if q.borders.isEmpty then [] else [.event (.coincidentEdge r k)]) ++
  (if q.junction.isSome then [.event (.junctionRelease r k)] else []) ++
  (List.replicate q.width ((if q.turn then [Move.event (.cornerTurn r k)] else []) ++
    (if q.count.isSome then [.event (.counterNodeForward r k)] else []))).flatten

/-- Moves of a region's bound ports, phases and wavefronts. -/
def regionMoves (r : RegionRef) (g : Region) : List Move :=
  ((indexed 0 g.ins).filterMap fun (k, i) => if i.bind.isSome then some (Move.event (.boundInputFeed r k)) else none) ++
  ((indexed 0 g.outs).filterMap fun (k, o) => if o.bind.isSome then some (Move.event (.boundOutputDrain r k)) else none) ++
  [.event (.phaseEnd r), .event (.pieceComplete r)] ++
  (if g.wave.isSome then [.event (.wavefrontAdmission r)] else [])

/-- Moves of a region's signal box. -/
def boxMoves (r : RegionRef) (g : Region) : List Move :=
  [.event (.trapAction r)] ++
  (if g.rolling.isSome then [.event (.rollback r)] else []) ++
  (if g.st == .preempting || (g.pre && g.st == .running) then [.event (.preempt r)] else []) ++
  (if g.st == .preempting then [.event (.preemptionTimeout r)] else []) ++
  (if g.st == .preempted && (g.resume || g.revoked) then [.event (.resumeRegion r)] else []) ++
  (if g.ending then [.event (.fccmdEnd r.l.n r.l.q r.l.seq r.k)] else []) ++
  (if g.waitPage.isSome then [.event (.drainResume r)] else []) ++
  (if g.resume && g.st != .preempted then [.event (.fccmdResume r.l.n r.l.q r.l.seq r.k)] else [])

/-- Moves of a launch: its timetable; the streams on their way; its elements, each element's own instructions before what others do at its
barriers, in column and row order (R307); what the sidings accept of what was emitted; its regions, signal boxes and its end. -/
def State.launchMoves (s : State) (l : Launch) : List Move :=
  let es := s.byColumn l.ref
  [.event (.rateChangeApply l.ref), .event (.hyperperiodBoundary l.ref)] ++
  ((indexed 0 l.islands).filterMap fun (k, i) =>
    if !i.settled || i.mv != s.islandMv (l.pagesOf i) i.next then some (Move.event (.regulatorSettled l.ref k)) else none) ++
  ((indexed 0 l.regions).flatMap fun (k, g) => (indexed 0 g.streams).flatMap fun (m, q) => streamMoves ⟨l.ref, k⟩ m q) ++
  [.pump l.ref] ++
  (es.map fun q => .edge q.1) ++ (es.flatMap fun q => elemMoves q.1 q.2) ++ (es.flatMap fun q => farMoves q.1 q.2) ++
  [.accept l.ref] ++
  ((indexed 0 l.regions).flatMap fun (k, g) => regionMoves ⟨l.ref, k⟩ g) ++
  ((indexed 0 l.regions).flatMap fun (k, g) => boxMoves ⟨l.ref, k⟩ g) ++
  [.event (.launchComplete l.ref)]

/-- Moves of an engine. -/
def engineMoves (n g : Nat) (e : Engine) : List Move :=
  [.event (.takeEngineEntry n g), .event (.engineEntryStart n g)] ++ e.entries.map fun x => .event (.engineEntryComplete n g x.seq)

/-- The completion that the host's IOMMU sends for an ATS request: no permission where it maps nothing (R247). -/
def State.atsReply (s : State) (n : Nat) (q : AtsReq) : Move :=
  let a := 4096 * q.page
  match s.iommu.find? fun m => m.n == n && m.x.covers a with
  | some m => .event (.atsCompletion n a (m.x.pa + (a - m.x.iova)) m.x.size m.x.r m.x.w)
  | none => .event (.atsCompletion n a 0 4096 false false)

/-- Whether a quota period ends in this master cycle (R430). -/
def Part.periodEnds (p : Part) (cycle : Nat) : Bool := cycle % 2 ^ min 40 (max 20 p.eqper.toNat) == 0

/-- Moves of a partition that is enabled; engines report before elements act (R307). -/
def State.partMoves (s : State) (n : Nat) (p : Part) : List Move :=
  [.event (.takeLaunchEntry n), .event (.placementRetry n), .event (.startEntry n)] ++
  (p.engines.flatMap fun (g, e) => engineMoves n g e) ++
  (p.launches.flatMap s.launchMoves) ++
  [.event (.takeTask n)] ++ (p.gs.tasks.map fun t => .event (.pieceStart n t.seq)) ++
  (p.ats.map (s.atsReply n)) ++
  (if p.ttBusy then [.event (.ttinvComplete n)] else []) ++
  (if p.mtBusy then [.event (.mtinvComplete n)] else []) ++
  (if p.pmBusy then [.event (.pminvComplete n)] else []) ++
  (if p.invals.isEmpty then [] else [.event (.invalidateCompletion n)]) ++
  (p.pageReqs.map fun q => .event (.faultWaitExpiry n (4096 * q.page))) ++
  ((indexed 0 p.revoked).filterMap fun (q, b) => if b.isSome then some (Move.event (.flqRevoke n q)) else none) ++
  (if p.peerIn.isEmpty then [] else [.event (.peerLinkTransfer n 0 true [] 0)]) ++
  (if p.periodEnds s.cycle then [.event (.quotaPeriodBoundary n)] else []) ++
  [.event (.faultRecordWrite n)]

/-- The moves of a master cycle; of a partition that is disabled, only what the operator is still to be told (R453, R454). -/
def State.moves (s : State) : List Move :=
  (indexed 0 s.parts).flatMap fun (n, p) =>
    if p.enable then s.partMoves n p else if p.opEnded.isEmpty then [] else [.event (.faultRecordWrite n)]

/-- The lines that a TTINV under way waits for written back, as a slice may do with a dirty line at any time (R245, R255, R261; log 56). -/
def State.payOwed (s : State) (n : Nat) : State :=
  if (s.part n).ttBusy then
    (s.part n).pageList.foldl (fun t k => ((t.page k).lines.filter (·.owed)).foldl (fun u l => u.writeBack n k l) t) s
  else s

/-- The next master cycle: the meters count the last one (R430), counters advance, elements keep what OBSR reads (R456), slices write back the
lines that they owe, and its moves stand in the agenda. -/
def State.tick (s : State) : State :=
  let c := s.cycle + 1
  let t : State := { s with
    cycle := c
    pages := (indexed 0 s.pages).map fun (k, p) => p.meter k c
    parts := s.parts.map fun p => (p.meter s.page c).nextCycle
    elems := s.elems.map fun (e, x) => (e, x.note (s.page (pageOf e))) }
  let u := (List.range t.parts.length).foldl (fun v n => v.payOwed n) t
  { u with agenda := u.moves }

end Sys2Proof.Machine
end

