-- ==== Sys2Proof/Machine/Fresh.lean ====
section
/-! DEFINITION. Elements, regions and launches as they start (R103, R106, R230, R306, R392). -/

namespace Sys2Proof.Machine

/-- A set with every granted register empty. -/
def freshSet : ESet where
  ctxs := List.replicate 4 none
  inBuf := List.replicate 8 []
  regs := List.replicate 256 {}
  scratch := []
  tiles := []
  fpstat := 0
  flagQ := []
  bars := List.replicate 96 {}
  gens := List.replicate 4 {}
  agens := freshAgens
  stall := List.replicate 16 0
  occ := 0

/-- An element as a launch finds it (R103). -/
def freshElem (l : LaunchRef) (reg col row : Nat) (elpart : Word) : Elem where
  l := l
  reg := reg
  col := col
  row := row
  elpart := elpart
  ctx := 0
  set := 0
  cur := freshSet
  alt := freshSet
  shadow := []
  firings := []
  started := 0
  done := 0
  icyc := 0
  lastStart := none
  begun := false
  inAt := List.replicate 8 []
  outAt := List.replicate 8 []
  filts := []
  merges := []
  epiRun := false
  phend := none
  phases := 0
  pred := false
  waves := 0
  switched := false
  divFree := 0
  mxFree := 0
  mxUse := []
  acc := []
  accNext := 0
  fills := []
  ports := List.replicate 4 {}
  bufs := List.replicate 4 {}
  pins := []
  fault := none
  more := []
  stopped := false
  brkPass := none
  epoch := 0
  replayUpTo := none
  marks := List.replicate 8 false
  reports := []
  win := []
  seen := ⟨List.replicate 16 0, 0, 0, 0⟩

/-- A region as a launch finds it (R103, R230). -/
def freshRegion (w h ox oy : Nat) (elems : List Nat) (streams : List Stream) : Region where
  w := w
  h := h
  ox := ox
  oy := oy
  variant := 0
  save := 0
  cutn := 0
  replayable := true
  st := .running
  elems := elems
  streams := streams
  ins := List.replicate 8 {}
  outs := List.replicate 8 {}
  gated := false
  tiles := 0
  admitted := 0
  epoch := 0
  cuts := []
  portFault := none
  portMore := []
  waiting := []
  opWaiting := []
  banks := []
  wave := none
  waitPage := none
  waitFor := none
  preemptAge := 0
  rolling := none
  resume := false
  pre := false
  out := false
  stopRatios := []
  quotaHeld := false
  waveTrig := false
  iterMark := 0
  revoked := false
  ending := false
  method := false
  putBy := false

/-- A launch as it starts. -/
def freshLaunch (ref : LaunchRef) (regions : List Region) (islands : List Island) : Launch where
  ref := ref
  entry := 0
  fromDev := false
  image := 0
  policy := []
  pword := 0
  rateReg := 0
  ratePort := 0
  rateN := 1
  rateC := 1
  regions := regions
  islands := islands
  hyper := 1
  tick := 0
  pause := true
  resolves := 0
  fMcap := false
  fPcap := false
  fDyad := false
  fLim := false
  fShort := false
  halting := false
  iter := 0
  tracks := []
  chains := []

end Sys2Proof.Machine
end

