-- ==== Sys2Proof/Machine/Image.lean ====
section
/-! DEFINITION. The configuration image (R69 to R76): from the dwords that the loader reads to the records it holds, or the load
code 0x10 with the place of the breach (R65, R66). Every section, record and block stands as a list of dwords. Elements of region
j are named 4096·j + 64·row + column until they are placed. -/

namespace Sys2Proof.Machine

/-! ### Load records (R66) -/

/-- A failure of the load: its code and its place. -/
structure LoadErr where
  code : Nat
  region : Nat := 0
  col : Nat := 0
  row : Nat := 0
  ctx : Nat := 0
  epi : Bool := false
  slot : Nat := 0
  detail : Nat := 0
deriving DecidableEq, Repr

/-- The load record of a failure (R66). -/
def LoadErr.word (e : LoadErr) : Nat :=
  e.code * 2 ^ 56 + e.region % 64 * 2 ^ 50 + e.col % 64 * 2 ^ 44 + e.row % 64 * 2 ^ 38 + e.ctx % 4 * 2 ^ 36 + b2n e.epi * 2 ^ 35 +
    e.slot % 64 * 2 ^ 29 + e.detail % 2 ^ 29

/-- What the loader makes of something, or why not. -/
abbrev Load (α : Type) := Except LoadErr α

/-- A layout check (code 0x10). -/
def layout (ok : Bool) (reg : Nat := 0) (col : Nat := 0) (row : Nat := 0) (ctx : Nat := 0) : Load Unit :=
  if ok then .ok () else .error { code := 0x10, region := reg, col := col, row := row, ctx := ctx }

/-- The first failure of several checks. -/
def firstErr {α : Type} (f : α → Load Unit) : List α → Load Unit
  | [] => .ok ()
  | a :: r =>
    match f a with
    | .ok _ => firstErr f r
    | .error e => .error e

/-! ### Records -/

/-- The header of an image (R69). -/
structure Header where
  nreg : Nat
  pword : Word
  rreg : Nat
  rport : Nat
  rtok : Nat
  rcyc : Nat
  len : Nat
  nsec : Nat
  digest : List Byte
deriving DecidableEq, Repr

/-- A tensor record: tid, entry, list entries (R70). -/
structure TensorRec where
  tid : Nat
  entry : List Nat
  list : List Nat
deriving DecidableEq, Repr

/-- A data record: the address token of its first byte, and its bytes (R70). -/
structure DataRec where
  tok : Nat
  bytes : List Byte
deriving DecidableEq, Repr

/-- A chain record: engine code and entries (R70). -/
structure ChainRec where
  eng : Nat
  entries : List (List Nat)
deriving DecidableEq, Repr

/-- A context record (R73): its words after the opening dword, and its bytes without its node map. -/
structure CtxRec where
  ctx : Nat
  words : List Word
deriving DecidableEq, Repr

/-- An element record (R73): its contexts, and its initial-state records with their dwords. -/
structure ElemRec where
  col : Nat
  row : Nat
  ctxs : List CtxRec
  inits : List (List Nat)
deriving DecidableEq, Repr

/-- A variant record (R71): recorded heat, streams, elements. -/
structure VarRec where
  heat : List Nat
  streams : List Stream
  elems : List ElemRec
deriving DecidableEq, Repr

/-- A region section (R71). -/
structure RegRec where
  save : Nat
  cutn : Nat
  w : Nat
  h : Nat
  islands : List Island
  vars : List VarRec
deriving DecidableEq, Repr

/-- An image (R69, R70). -/
structure Image where
  head : Header
  tensors : List TensorRec
  methods : List (List Nat)
  patterns : List (List Nat)
  data : List DataRec
  chains : List ChainRec
  regions : List RegRec
deriving DecidableEq, Repr

/-! ### Dwords -/

/-- A dword of a list. -/
def dAt (ds : List Nat) (k : Nat) : Nat := ds.getD k 0

/-- The bytes of dwords. -/
def dBytes (ds : List Nat) : List Byte := ds.flatMap (toBytes 8)

/-- The 32-bit words of dwords. -/
def dWords (ds : List Nat) : List Word := ds.flatMap fun d => [BitVec.ofNat 32 d, BitVec.ofNat 32 (d / 2 ^ 32)]

/-- Dwords rounded up from bytes. -/
def dUp (bytes : Nat) : Nat := ceilDiv bytes 8

/-- Whether the bytes behind the first `n` of some dwords are zero. -/
def padOk (ds : List Nat) (n : Nat) : Bool := ((dBytes ds).drop n).all (· == 0)

/-! ### The header and the directory (R69) -/

/-- Dwords of the header. -/
def headDwords : Nat := 16

/-- The fields of the header, checked or not. -/
def headerOf (ds : List Nat) : Header where
  nreg := bits (dAt ds 0) 47 42 + 1
  pword := BitVec.ofNat 32 (dAt ds 0)
  rreg := bits (dAt ds 1) 63 58
  rport := bits (dAt ds 1) 57 55
  rtok := bits (dAt ds 1) 54 44
  rcyc := bits (dAt ds 1) 43 27
  len := bits (dAt ds 2) 63 32
  nsec := bits (dAt ds 2) 15 0
  digest := dBytes ((ds.drop 8).take 8)

/-- Whether a header is within its layout. -/
def headerFits (ds : List Nat) : Bool :=
  let h := headerOf ds
  bits (dAt ds 0) 63 48 == 1 && bits (dAt ds 0) 41 32 == 0 && bits (dAt ds 1) 26 0 == 0 && bits (dAt ds 2) 31 16 == 0 &&
  ((ds.drop 3).take 5).all (· == 0) && decide (1 ≤ h.rtok) && decide (h.rtok ≤ 1024) && decide (1 ≤ h.rcyc) &&
  decide (h.rcyc ≤ 65536) && decide (h.rreg < h.nreg) && h.len % 8 == 0 && decide (128 + 16 * h.nsec ≤ h.len)

/-- A directory entry: type, offset and size in dwords. -/
structure DirEntry where
  type : Nat
  off : Nat
  size : Nat
deriving DecidableEq, Repr

/-- The directory; that of a raw image is taken as it stands (R228). -/
def directory (raw : Bool) (ds : List Nat) (h : Header) : Load (List DirEntry) := do
  let es := (List.range h.nsec).map fun k => (dAt ds (16 + 2 * k), dAt ds (17 + 2 * k))
  firstErr (fun (a, o) => layout (raw || bits a 55 32 == 0 && decide (1 ≤ bits a 63 56) && decide (bits a 63 56 ≤ 6) && o % 8 == 0 &&
    bits a 31 0 % 8 == 0 && decide (o + bits a 31 0 ≤ h.len))) es
  let ts := es.map fun (a, o) => (⟨bits a 63 56, o / 8, bits a 31 0 / 8⟩ : DirEntry)
  layout (raw || (ts.filter (·.type == 6)).length == h.nreg)
  layout (raw || [1, 2, 3, 4, 5].all fun k => decide ((ts.filter (·.type == k)).length ≤ 1))
  pure ts

/-- The dwords of a section. -/
def section_ (ds : List Nat) (e : DirEntry) : List Nat := (ds.drop e.off).take e.size

/-! ### The sections other than regions (R70) -/

/-- Whether a tensor entry is in pointer form (R239). -/
def listed (entry : List Nat) : Bool := bit (dAt entry 0) 40

/-- Tensor records of an image with `np` pattern records: an entry in inline form has no list behind it, and PAT names a pattern record. -/
def tensorRecs (np : Nat) : Nat → List Nat → Load (List TensorRec)
  | 0, _ => .ok []
  | k + 1, ds =>
    if ds.isEmpty then .ok []
    else do
      let a := dAt ds 0
      let nx := bits a 31 16
      layout (bits a 63 32 == 0 && decide (9 + 2 * nx ≤ ds.length) && (nx == 0 || listed ((ds.drop 1).take 8)) &&
        decide (bits (dAt ds 1) 31 16 ≤ np))
      let r ← tensorRecs np k (ds.drop (9 + 2 * nx))
      pure (⟨bits a 15 0, (ds.drop 1).take 8, (ds.drop 9).take (2 * nx)⟩ :: r)

/-- Whether the bits of a method entry that R373 wants zero are zero, and IMAGE, which the loader fills in (R70). -/
def methodFits (ds : List Nat) : Bool := bits (dAt ds 0) 38 30 == 0 && dAt ds 1 == 0 && bits (dAt ds 2) 45 0 == 0 && dAt ds 3 == 0

/-- Method records. -/
def methodRecs : Nat → List Nat → Load (List (List Nat))
  | 0, _ => .ok []
  | k + 1, ds =>
    if ds.isEmpty then .ok []
    else do
      layout (decide (4 ≤ ds.length) && methodFits ds)
      let r ← methodRecs k (ds.drop 4)
      pure (ds.take 4 :: r)

/-- Pattern records: the words of each. -/
def patternRecs : Nat → List Nat → Load (List (List Nat))
  | 0, _ => .ok []
  | k + 1, ds =>
    if ds.isEmpty then .ok []
    else do
      let n := bits (dAt ds 0) 15 0
      let m := dUp (4 * n)
      layout (bits (dAt ds 0) 63 16 == 0 && decide (1 + m ≤ ds.length) && padOk ((ds.drop 1).take m) (4 * n))
      let r ← patternRecs k (ds.drop (1 + m))
      pure (((dWords ((ds.drop 1).take m)).take n).map (·.toNat) :: r)

/-- Data records. -/
def dataRecs : Nat → List Nat → Load (List DataRec)
  | 0, _ => .ok []
  | k + 1, ds =>
    if ds.isEmpty then .ok []
    else do
      let n := bits (dAt ds 1) 31 0
      let m := dUp n
      layout (decide (2 + m ≤ ds.length) && bits (dAt ds 1) 63 32 == 0 && padOk ((ds.drop 2).take m) n)
      let r ← dataRecs k (ds.drop (2 + m))
      pure (⟨dAt ds 0, (dBytes ((ds.drop 2).take m)).take n⟩ :: r)

/-- The entries of a chain. -/
def entriesOf : Nat → List Nat → List (List Nat)
  | 0, _ => []
  | k + 1, ds => ds.take 8 :: entriesOf k (ds.drop 8)

/-- Chain records. -/
def chainRecs : Nat → List Nat → Load (List ChainRec)
  | 0, _ => .ok []
  | k + 1, ds =>
    if ds.isEmpty then .ok []
    else do
      let a := dAt ds 0
      let n := bits a 31 16
      layout (bits a 15 8 == 0 && bits a 63 32 == 0 && decide (1 + 8 * n ≤ ds.length))
      let r ← chainRecs k (ds.drop (1 + 8 * n))
      pure (⟨bits a 7 0, entriesOf n (ds.drop 1)⟩ :: r)

/-! ### Streams (R72, R185) -/

/-- The name of an element of region `j` until it is placed. -/
def draftElem (j col row : Nat) : Nat := 4096 * j + 64 * row + col

/-- Whether a stream record is within its layout. A field that means nothing in its record (PCOL and PROW, or CCOL and CROW, of an end that is
no element, SDEP, SHI and SLO without SID, CNT1 and CNT2 without CNT0) may hold anything and is ignored: R72 does not want it zero
(DESIGN CHOICE, log 113). -/
def streamFits (ds : List Nat) : Bool :=
  let p := dAt ds 0
  let c := dAt ds 1
  let d := dAt ds 2
  bits p 63 62 != 3 && (bits p 63 62 == 2 || bits p 61 56 == 0) && bits p 55 52 == 0 && bits p 36 0 == 0 &&
  bits c 63 62 != 3 && (bits c 63 62 == 2 || bits c 61 52 == 0) && bits c 36 0 == 0 &&
  decide (1 ≤ bits d 63 57) && decide (bits d 63 57 ≤ 64) && decide (bits d 56 50 ≤ 64) && decide (bits d 47 45 ≤ 4) &&
  (!bit d 44 || (decide (16 ≤ bits d 43 37) && decide (bits d 43 37 ≤ 64))) && bits d 22 0 == 0 && bits (dAt ds 4) 63 8 == 0

/-- A scope by its code (R48). -/
def scopeOf (k : Nat) : Scope :=
  match k with
  | 0 => .elem
  | 1 => .page
  | 2 => .depot
  | 3 => .dev
  | _ => .sys

/-- A stream of region `j` from its record. A link record (PKIND 2) ends at the input port CPORT of its own region: CKIND has no code for
it, and the model reads CPORT whatever CKIND, CSTR, CCOL and CROW hold (DESIGN CHOICE, log 100). -/
def streamOf (j : Nat) (ds : List Nat) : Stream :=
  let p := dAt ds 0
  let c := dAt ds 1
  let d := dAt ds 2
  let prod : Prod :=
    match bits p 63 62 with
    | 0 => .elem (draftElem j (bits p 51 46) (bits p 45 40)) (bits p 39 37)
    | 1 => .regIn (bits p 39 37)
    | _ => .link (bits p 61 56) (bits p 39 37)
  let cons : Cons :=
    match bits c 63 62 with
    | 0 => .elem (draftElem j (bits c 51 46) (bits c 45 40)) (bits c 39 37)
    | 1 => .regOut (bits c 39 37)
    | _ => .count (bits c 61 52)
  let w0 := bits (dAt ds 3) 31 0
  let w1 := bits (dAt ds 3) 63 32
  let mk := bits (dAt ds 4) 7 0
  let trips := [bits w0 15 0, bits w0 31 16, bits w1 15 0, bits w1 31 16]
  { prod := prod
    cons := (match prod, cons with
      | .link _ _, _ => .linkIn (bits c 39 37)
      | _, k => k)
    depth := bits d 63 57
    init := bits d 56 50
    wide := bit d 49
    turn := bit d 48
    junction := if bits d 47 45 = 0 then none else some (scopeOf (bits d 47 45))
    arcs := 1
    junc := []
    wire := []
    siding := if bit d 44 then some (bits d 43 37, bits d 36 30, bits d 29 23) else none
    borders := []
    rows := []
    turned := []
    count := if w0 = 0 then none else some ⟨trips, (List.range 4).map fun k => bits mk (2 * k + 1) (2 * k), List.replicate 4 0, trips, List.replicate 4 none, false⟩
    out := []
    pIsl := none
    cIsl := none }

/-! ### Elements (R73, R75) -/

/-- Dwords of an initial-state record by its kind; none for a reserved kind. -/
def initLen (ds : List Nat) : Option Nat :=
  match bits (dAt ds 0) 63 56 with
  | 1 => some 9
  | 2 => some 1
  | 3 => some 2
  | 4 => some (2 + dUp (bits (dAt ds 1) 31 0))
  | 5 => some 6
  | _ => none

/-- Initial-state records; those of a raw image as far as they can be read. -/
def initRecs (raw : Bool) (j col row : Nat) : Nat → List Nat → Load (List (List Nat))
  | 0, _ => .ok []
  | k + 1, ds =>
    if ds.isEmpty then .ok []
    else match initLen ds with
    | none => if raw then .ok [] else .error { code := 0x10, region := j, col := col, row := row }
    | some n => do
      layout (raw || decide (n ≤ ds.length)) j col row
      let r ← initRecs raw j col row k (ds.drop n)
      pure (ds.take n :: r)

/-- Words of a descriptor (R74). -/
def descWords : Nat := 12

/-- The place of a context's node map, in words: behind the descriptor and its blocks; none where a block runs past the end. -/
def nodeAt (ws : List Word) (epi : Bool) : Option Nat :=
  let size (k : Nat) : Nat := fld (ws.getD k 0).toNat 26 6 + 2
  let b := descWords + size descWords
  let e := if epi then b + size b else b
  if ws.length < b || (epi && decide (ws.length < b + 1)) || ws.length < e then none else some e

/-- Whether the node map of a context record fills it, padded with zero to a dword (R73, R76). -/
def nodesFit (ws : List Word) : Bool :=
  let epi := bit (ws.getD 3 0).toNat 15
  match nodeAt ws epi with
  | none => true
  | some k =>
    let slots := k - descWords - (if epi then 2 else 1)
    let n := slots + 1
    (ws.length == k + n) || (ws.length == k + n + 1 && (ws.getD (k + n) 0) == 0)

/-- Context records, for each bit of CMASK in increasing order, and the dwords behind them. -/
def ctxRecs (raw : Bool) (j col row : Nat) : List Nat → List Nat → Load (List CtxRec × List Nat)
  | [], ds => .ok ([], ds)
  | c :: cs, ds => do
    let a := dAt ds 0
    let n := bits a 31 0 / 8
    layout (raw || !ds.isEmpty && bits a 63 62 == c && bits a 61 32 == 0 && bits a 31 0 % 8 == 0 && decide (7 ≤ n) && decide (n ≤ ds.length)) j col row c
    let ws := dWords ((ds.drop 1).take (n - 1))
    layout (raw || nodesFit ws) j col row c
    let (r, rest) ← ctxRecs raw j col row cs (ds.drop n)
    pure (⟨c, ws⟩ :: r, rest)

/-- Element records; `seen` holds the elements of those before: a second record of an element is refused where it stands (R65). -/
def elemRecs (raw : Bool) (j w h : Nat) : Nat → List (Nat × Nat) → List Nat → Load (List ElemRec)
  | 0, _, ds => do
    layout (raw || ds.isEmpty) j
    pure []
  | k + 1, seen, ds => do
    let a := dAt ds 0
    let col := bits a 63 58
    let row := bits a 57 52
    let n := bits a 31 0 / 8
    layout (raw || !ds.isEmpty && decide (col < 4 * w) && decide (row < 4 * h) && bits a 47 32 == 0 && bits a 31 0 % 8 == 0 && decide (1 ≤ n) &&
      decide (n ≤ ds.length) && !seen.contains (col, row)) j col row
    let cs := (List.range 4).filter fun c => bit a (48 + c)
    let (xs, rest) ← ctxRecs raw j col row cs ((ds.drop 1).take (n - 1))
    let is ← initRecs raw j col row (n + 1) rest
    let r ← elemRecs raw j w h k ((col, row) :: seen) (ds.drop n)
    pure (⟨col, row, xs, is⟩ :: r)

/-! ### Regions (R71, R337) -/

/-- Island records. -/
def islandRecs (raw : Bool) (j w h : Nat) (ds : List Nat) : Load (List Island) := do
  let is := ds.map fun a => (⟨j, bits a 63 58, bits a 57 52, bits a 51 46, bits a 45 40, bits a 39 33, bits a 32 26, 1, 1, 0, 0, 0, true, 1⟩ : Island)
  layout (raw || (ds.all fun a => bits a 25 0 == 0) && is.all fun i =>
    decide (1 ≤ i.w) && decide (1 ≤ i.h) && decide (i.x + i.w ≤ w) && decide (i.y + i.h ≤ h) &&
    ((i.nomP == 0 && i.nomQ == 0) || (decide (1 ≤ i.nomP) && decide (i.nomP ≤ i.nomQ) && decide (i.nomQ ≤ 64)))) j
  let inside (x y : Nat) (i : Island) : Bool := decide (i.x ≤ x) && decide (x < i.x + i.w) && decide (i.y ≤ y) && decide (y < i.y + i.h)
  layout (raw || (List.range w).all fun x => (List.range h).all fun y => (is.filter (inside x y)).length == 1) j
  pure is

/-- Variant records. -/
def varRecs (raw : Bool) (j w h : Nat) : Nat → List Nat → Load (List VarRec)
  | 0, ds => do
    layout (raw || ds.isEmpty) j
    pure []
  | k + 1, ds => do
    let a := dAt ds 0
    let n := bits a 31 0 / 8
    let m := dUp (w * h)
    let ns := bits a 47 32
    layout (raw || !ds.isEmpty && bits a 31 0 % 8 == 0 && decide (1 + m + 5 * ns ≤ n) && decide (n ≤ ds.length) && padOk ((ds.drop 1).take m) (w * h)) j
    let ss := (List.range ns).map fun i => (ds.drop (1 + m + 5 * i)).take 5
    layout (raw || ss.all streamFits) j
    let es ← elemRecs raw j w h (bits a 63 48) [] ((ds.take n).drop (1 + m + 5 * ns))
    let r ← varRecs raw j w h k (ds.drop n)
    pure (⟨((dBytes ((ds.drop 1).take m)).take (w * h)).map (·.toNat), ss.map (streamOf j), es⟩ :: r)

/-- A region section. -/
def regRec (raw : Bool) (j : Nat) (ds : List Nat) : Load RegRec := do
  let a := dAt ds 2
  let w := bits a 63 58
  let h := bits a 57 52
  let ni := bits a 51 44
  let nv := bits a 43 41
  layout (raw || decide (3 ≤ ds.length) && bits (dAt ds 0) 11 0 == 0 && bits (dAt ds 1) 47 1 == 0 && decide (1 ≤ w) && decide (w ≤ 16) &&
    decide (1 ≤ h) && decide (h ≤ 16) && decide (1 ≤ ni) && decide (1 ≤ nv) && decide (nv ≤ 4) && bits a 40 0 == 0 &&
    decide (3 + ni ≤ ds.length)) j
  let is ← islandRecs raw j w h ((ds.drop 3).take ni)
  let vs ← varRecs raw j w h nv (ds.drop (3 + ni))
  pure ⟨dAt ds 0, bits (dAt ds 1) 63 48, w, h, is, vs⟩

/-- How many pattern records an image has; as many as any entry can name where their section does not parse, which is then refused. -/
def patternCount (ds : List Nat) (es : List DirEntry) : Nat :=
  match es.find? fun e => e.type == 3 with
  | none => 0
  | some e =>
    match patternRecs (e.size + 1) (section_ ds e) with
    | .ok r => r.length
    | .error _ => 2 ^ 16

/-- The records of every section, in image order; `np` counts the pattern records. Of a raw image only the regions are read. -/
def sectionRecs (raw : Bool) (ds : List Nat) (np : Nat) : Nat → List DirEntry → Image → Load Image
  | _, [], m => .ok m
  | j, e :: es, m =>
    let d := section_ ds e
    match (if raw && e.type != 6 then 0 else e.type) with
    | 0 => sectionRecs raw ds np j es m
    | 1 => do sectionRecs raw ds np j es { m with tensors := ← tensorRecs np (d.length + 1) d }
    | 2 => do sectionRecs raw ds np j es { m with methods := ← methodRecs (d.length + 1) d }
    | 3 => do sectionRecs raw ds np j es { m with patterns := ← patternRecs (d.length + 1) d }
    | 4 => do sectionRecs raw ds np j es { m with data := ← dataRecs (d.length + 1) d }
    | 5 => do sectionRecs raw ds np j es { m with chains := ← chainRecs (d.length + 1) d }
    | _ => do
      let r ← regRec raw j d
      sectionRecs raw ds np (j + 1) es { m with regions := m.regions ++ [r] }

/-- The islands that a launch may hold (R189). -/
def islandLimit : Nat := 256

/-- An image whose regions declare no more islands than a launch may hold (R189); the region that goes beyond them is refused as outside its
layout: the spec names no code for it (DESIGN CHOICE, log 114). -/
def Image.islandsFit (m : Image) : Load Unit :=
  match (List.range m.regions.length).find? fun j => decide (islandLimit < ((m.regions.take (j + 1)).map fun r => r.islands.length).sum) with
  | some j => layout false j
  | none => .ok ()

/-- An image from its dwords: step 1 of R65. A raw one is read as far as its dwords go, with none of the checks (R228, log 105). -/
def imageOf (raw : Bool) (ds : List Nat) : Load Image := do
  layout (raw || headerFits ds)
  let h := headerOf ds
  let es ← directory raw ds h
  let m ← sectionRecs raw ds (patternCount ds es) 0 es ⟨h, [], [], [], [], [], []⟩
  if !raw then m.islandsFit
  pure m

end Sys2Proof.Machine
end

