-- ==== Sys2Proof/Machine/Check.lean ====
section
/-! DEFINITION. Validation of context images and initial-state records by the configuration loader (R9, R32, R33, R36, R39, R40,
R43, R65, R111, R163 to R172, R232, R346), after the layout of the image. -/

namespace Sys2Proof.Machine

/-! ### Contexts from words (R31, R74) -/

/-- The counts of a descriptor's ports: 0 where the mask leaves a port unused. -/
def portCounts (mask nibbles : Nat) : List Nat :=
  (List.range 8).map fun n => if bit mask n then bits nibbles (4 * n + 3) (4 * n) + 1 else 0

/-- A descriptor from its twelve words (R74). -/
def descOf (ws : List Word) : ActorDesc :=
  let w (k : Nat) : Nat := (ws.getD k 0).toNat
  let hi := w 3
  let inm := bits hi 7 0
  let outm := bits (w 2) 31 24
  { cin := portCounts inm (w 1)
    cout := portCounts outm (w 0)
    ii := bits hi 31 28 + 1
    d := bits hi 27 20
    nextT := bits hi 19 18
    nextF := bits hi 17 16
    epi := bit hi 15
    inMask := BitVec.ofNat 8 inm
    outMask := BitVec.ofNat 8 outm
    live := BitVec.ofNat 256 (packNat 32 (((ws.drop 4).take 8).map (·.toNat))) }

/-- Whether a descriptor is within its limits (R9, R74). Nonzero bits that R74 wants zero, and nonzero nibbles of unused ports, are refused
with the descriptor's code 0x0F, not with the layout's 0x10; R65 does not say which (DESIGN CHOICE, log 101). -/
def descFits (ws : List Word) (regs : Nat) : Bool :=
  let d := descOf ws
  let w (k : Nat) : Nat := (ws.getD k 0).toNat
  let unused (mask nibbles : Nat) : Bool := (List.range 8).all fun n => bit mask n || bits nibbles (4 * n + 3) (4 * n) == 0
  decide (1 ≤ d.d) && bits (w 3) 14 8 == 0 && bits (w 2) 23 0 == 0 && unused d.inMask.toNat (w 1) && unused d.outMask.toNat (w 0) &&
  decide (d.live.toNat < 2 ^ regs)

/-- A block at a place in a context's words: its header, and its slots as far as the words go. -/
def blockAt (ws : List Word) (k : Nat) : Block :=
  let h := ws.getD k 0
  let b := (ws.drop (k + 1)).take (fld h.toNat 26 6 + 1)
  ⟨h, b, List.replicate b.length false⟩

/-- Occupancy that a slot counts for in the fourth value of R111. -/
def occupancy : Instr → Nat
  | .div _ sh _ _ _ | .rem _ sh _ _ _ => if sh = .d then 20 else 12
  | .mma _ _ _ _ | .mmas _ _ _ _ => mmaOcc false 2
  | .mmap _ _ _ _ => mmaOcc true 2
  | _ => 0

/-- II* of a descriptor and a body (R111); a LITW pair counts as one scalar slot. -/
def iisOf (d : ActorDesc) (b : Block) : Nat :=
  let is := b.instrs
  max (max d.ii (is.filter fun q => !(infoOf q.2).wide).length)
    (max (is.filter fun q => (infoOf q.2).wide).length ((is.map fun q => occupancy q.2).sum))

/-- A context from its words, checked or not. -/
def ctxOf (r : CtxRec) : Ctx :=
  let d := descOf r.words
  let b := blockAt r.words descWords
  let k := descWords + 1 + b.len
  let e := blockAt r.words k
  let n := if d.epi then k + 1 + e.len else k
  let slots := b.len + (if d.epi then e.len else 0)
  { desc := d
    body := b
    epi := if d.epi then some e else none
    nodes := (r.words.drop n).take (slots + 1)
    iis := iisOf d b
    agens := [] }

/-- Bytes of a context record without its node map (R73, R207). -/
def CtxRec.bytes (r : CtxRec) : Nat :=
  let c := ctxOf r
  8 + 4 * (descWords + 1 + c.body.len + (match c.epi with
    | some e => 1 + e.len
    | none => 0))

/-! ### Slots (R65, step 5) -/

/-- What the checks of a slot need to know: the granted registers and tiles, the depots of the partition, the regions of the graph,
the block, whether it is an epilogue, the decoded instructions by slot, and the consumption counts of the descriptor. -/
structure SlotCheck where
  regs : Nat
  tiles : Nat
  depots : Nat
  nreg : Nat
  blk : Block
  epi : Bool
  is : List (Nat × Instr)
  seconds : List Bool
  cin : List Nat

/-- Whether a region, a copy engine or a tile that a slot names exists (R231, R320, R360; code 0x06). -/
def SlotCheck.exists_ (c : SlotCheck) : Instr → Bool
  | .sarm _ n _ | .swait _ n _ => decide (n.toNat < c.nreg)
  | .chapp _ k i _ | .chseq _ k i _ | .chwt _ k i _ | .chctl _ k i _ _ => k.toNat != 0 || decide (i.toNat < 2 * c.depots)
  | .mma _ t _ _ | .mmas _ t _ _ | .mmap _ t _ _ | .acz _ t _ _ | .acrd _ t _ | .acwr _ t _ | .accv _ t _ _ _ => decide (t.toNat < c.tiles)
  | _ => true

/-- Whether an instruction uses an operand port (R39). -/
def usesPort (i : Instr) : Port → Bool
  | .l => (infoOf i).l
  | .r => (infoOf i).r
  | .t => (infoOf i).t
  | .p => (infoOf i).pm != .none

/-- The slot-form targets of a block: producing slot, consuming slot, port. -/
def SlotCheck.arcs (c : SlotCheck) : List (Nat × Nat × Port) :=
  c.is.flatMap fun (k, i) => (infoOf i).tgts.filterMap fun (_, a) =>
    match a with
    | .slot d q => some (k, d.toNat, q)
    | _ => none

/-- The first target or port of a slot that breaks R39, as Detail. Two points are the model's (DESIGN CHOICE, log 46): a target that names a
later slot whose word does not decode takes the port as used, so that the later slot is reported, with its own code; and of two slots that
name one port, the second in slot order is reported, with the value of its target. -/
def SlotCheck.badTarget (c : SlotCheck) (k : Nat) (i : Instr) : Option Nat :=
  let h := c.blk.header.toNat
  let outs := bits h 11 4
  let bad := (infoOf i).tgts.findSome? fun (f, a) =>
    match a with
    | .slot d q =>
      let before := c.arcs.filter fun (p, e, x) => e == d.toNat && x == q && decide (p < k)
      let here := c.arcs.filter fun (p, e, x) => e == d.toNat && x == q && p == k
      let used := match look d.toNat c.is with
        | some j => usesPort j q
        | none => true
      if d.toNat ≤ k ∨ c.blk.words.length ≤ d.toNat ∨ !used ∨ !before.isEmpty ∨ 1 < here.length then some a.code else none
    | .out o => if bit outs o.toNat then none else some (if f < 2 then a.code else o.toNat)
    | _ => none
  match bad with
  | some d => some d
  | none => ([Port.l, .r, .t, .p].find? fun q => usesPort i q && !(c.arcs.any fun (_, e, x) => e == k && x == q)).map fun q =>
      4 * k + q.code

/-- The input ports that a slot takes tokens from (R40, R160, R162). -/
def takesFrom : Instr → List Nat
  | .in_ _ n _ | .drop _ n _ => [n.toNat]
  | .merge _ f t _ _ => [t.toNat, f.toNat]
  | _ => []

/-- Whether a target is the completion sink or none. -/
def sinkOnly : Tgt → Bool
  | .done | .none => true
  | _ => false

/-- The first breach of the entries of stream, phase and system instructions, as Detail (R158 to R172, R232, R346). -/
def SlotCheck.badPort (c : SlotCheck) (k : Nat) (i : Instr) : Option Nat :=
  let ins := bits c.blk.header.toNat 19 12
  let others := c.is.filter fun q => q.1 != k
  let arms := others.flatMap fun q => match q.2 with
    | .merge _ _ _ _ _ => takesFrom q.2
    | _ => []
  let taken := others.flatMap fun q => takesFrom q.2
  match i with
  | .in_ _ n _ => if !bit ins n.toNat || arms.contains n.toNat then some n.toNat else none
  | .drop _ n a => if !bit ins n.toNat || arms.contains n.toNat then some n.toNat else if sinkOnly a then none else some a.code
  | .merge _ f t _ _ =>
    if !bit ins t.toNat || taken.contains t.toNat || c.cin.getD t.toNat 0 != 1 then some t.toNat
    else if !bit ins f.toNat || taken.contains f.toNat || f == t || c.cin.getD f.toNat 0 != 1 then some f.toNat
    else none
  | .bound _ _ a => match a with
    | .out _ => none
    | _ => some a.code
  | .filt _ g w cp fp a =>
    let hit (p : BitVec 3) : Bool := a == .out p
    if a = .done then some a.code
    else if (g && !w) || (!w && cp != 0) || (w && cp == fp) || (w && hit cp) then some cp.toNat
    else if hit fp then some fp.toNat
    else none
  | .phend _ a =>
    if c.epi || !sinkOnly a || (others.any fun q => decide (q.1 < k) && (match q.2 with
      | .phend _ _ => true
      | _ => false)) then some a.code else none
  | .trap _ _ a | .brk _ _ a => if sinkOnly a then none else some a.code
  | _ => none

/-- The failure of a slot: code and Detail, in the order of R65. -/
def SlotCheck.slot (c : SlotCheck) (k : Nat) : Option (Nat × Nat) :=
  if c.seconds.getD k false then none
  else match decode (c.blk.words.drop k) with
  | .error r => some (r.code, 0)
  | .ok (i, _) =>
    if !c.exists_ i then some (0x06, 0)
    else if ((infoOf i).reg.map fun q => decide (c.regs ≤ q.1)).getD false then some (0x0C, 0)
    else if (infoOf i).tgts.any fun (_, a) => (match a with
      | .slot d _ => c.seconds.getD d.toNat false
      | _ => false) then some (0x08, 0)
    else match c.badTarget k i with
    | some d => some (0x09, d)
    | none => (c.badPort k i).map fun d => (0x09, d)

/-- The counts of R40 for a body: the port of the first mismatch. -/
def countErr (d : ActorDesc) (is : List (Nat × Instr)) : Option Nat :=
  let outs := is.flatMap fun q => (infoOf q.2).tgts.filterMap fun (_, a) => match a with
    | .out o => some o.toNat
    | _ => none
  let ins := is.flatMap fun q => takesFrom q.2
  match (List.range 8).find? fun p => (outs.filter (· == p)).length != d.cout.getD p 0 with
  | some p => some p
  | none => (List.range 8).find? fun p => (ins.filter (· == p)).length != d.cin.getD p 0

/-! ### Contexts (R65, step 4) -/

/-- The grants and the graph that the checks of a launch need. -/
structure Grants where
  pword : Word
  depots : Nat
  nreg : Nat

def Grants.regs (g : Grants) : Nat := bits g.pword.toNat 24 16
def Grants.scr (g : Grants) : Nat := 4096 * bits g.pword.toNat 15 8
def Grants.tiles (g : Grants) : Nat := 4 * bits g.pword.toNat 31 25

/-- The first failing slot of a block, from slot `k` on. -/
def firstSlot (c : SlotCheck) : Nat → Nat → Option (Nat × Nat × Nat)
  | 0, _ => none
  | n + 1, k =>
    match c.slot k with
    | some (code, d) => some (k, code, d)
    | none => firstSlot c n (k + 1)

/-- The code of a header's failure (R32, R33): `fits` says that its block lies within the record, `agrees` that it agrees with the
descriptor. -/
def headerErr (h : Word) (fits agrees : Bool) : Option Nat :=
  let n := h.toNat
  if ((List.range 7).map fun i => fld n (4 * i + 4) 4).sum % 16 != fld n 0 4 then some 0x02
  else if fld n 25 1 != 0 then some 0x03
  else if !fits then some 0x0D
  else if !agrees then some 0x0A
  else none

/-- A context image checked: steps 4 and 5 of R65. A header whose Kind is valid and stands in the other block's place disagrees with the
descriptor's EPI and fails with 0x0A; the spec names no code for it (DESIGN CHOICE, log 110). -/
def checkCtx (g : Grants) (j col row : Nat) (r : CtxRec) : Load Ctx :=
  let c := ctxOf r
  let d := c.desc
  let err (code : Nat) (epi : Bool) (slot detail : Nat) : LoadErr :=
    { code := code, region := j, col := col, row := row, ctx := r.ctx, epi := epi, slot := slot, detail := detail }
  let hb := c.body.header.toNat
  let bodyFits := c.body.words.length == c.body.len && decide (descWords < r.words.length)
  let bodyOk := fld hb 24 2 == 0 && bits hb 23 20 + 1 == d.ii && bits hb 19 12 == d.inMask.toNat && bits hb 11 4 == d.outMask.toNat
  let chk (b : Block) (epi : Bool) : SlotCheck :=
    ⟨g.regs, g.tiles, g.depots, g.nreg, b, epi, b.instrs, litSeconds b.words false, d.cin⟩
  if !descFits r.words g.regs then .error (err 0x0F false 0 0)
  else match headerErr c.body.header bodyFits bodyOk with
  | some k => .error (err k false 0 0)
  | none =>
    let epiErr : Option Nat := match c.epi with
      | none => none
      | some e =>
        let he := e.header.toNat
        headerErr e.header (e.words.length == e.len && decide (descWords + 1 + c.body.len < r.words.length))
          (fld he 24 2 == 1 && bits he 23 20 == 0 && bits he 19 12 == 0 && bits he 11 4 &&& d.outMask.toNat == bits he 11 4)
    match epiErr with
    | some k => .error (err k true 0 0)
    | none =>
      if 64 < c.body.len + ((c.epi.map Block.len).getD 0) then .error (err 0x07 false 0 0)
      else match firstSlot (chk c.body false) c.body.len 0 with
      | some (k, code, t) => .error (err code false k t)
      | none =>
        match c.epi.bind fun e => firstSlot (chk e true) e.len 0 with
        | some (k, code, t) => .error (err code true k t)
        | none =>
          match countErr d c.body.instrs with
          | some p => .error (err 0x0B false 0 p)
          | none => .ok c

/-! ### Initial-state records (R65, step 6; R75, R288) -/

/-- Whether the fields of an address-generator record are within the table of R288, but for the order of its levels and a reserved marker
code, which check 0x19 looks at (log 111). -/
def agenFits (ds : List Nat) : Bool :=
  let a := dAt ds 0
  let depth := bits a 45 39
  bits a 53 52 == 0 && bits a 38 8 == 0 && dAt ds 5 == 0 && bits (dAt ds 2) 15 0 != 0 &&
  (if bit a 49 then depth == 0 && bits a 7 0 == 0 else decide (1 ≤ depth) && decide (depth ≤ 64))

/-- Whether an initial-state record's fields are within R75; the register number of one beyond the grant. -/
def initErr (g : Grants) (ds : List Nat) : Option (Nat × Nat) :=
  let a := dAt ds 0
  let ok : Bool := match bits a 63 56 with
    | 1 => bits a 55 8 == 0
    | 2 => bits a 55 32 == 0 && bits a 15 7 == 0 && decide (bits a 6 0 < 96)
    | 3 => bits a 55 19 == 0 && bits (dAt ds 1) 63 40 == 0 && bits a 18 0 % 16 == 0 && decide (bits a 18 0 + 16 ≤ g.scr)
    | 4 => bits a 55 19 == 0 && bits (dAt ds 1) 63 32 == 0 && decide (bits a 18 0 + bits (dAt ds 1) 31 0 ≤ g.scr) &&
        padOk (ds.drop 2) (bits (dAt ds 1) 31 0)
    | _ => agenFits ds
  if bits a 63 56 = 1 ∧ g.regs ≤ bits a 7 0 then some (0x0C, bits a 7 0)
  else if ok then none
  else some (0x10, 0)

/-- The generator of an initial-state record of kind 0x05, with its context. -/
def agenOf (ds : List Nat) : Nat × AgenCfg :=
  let a := dAt ds 0
  let t := dAt ds 2
  let st (k : Nat) : Word := BitVec.ofNat 32 (dAt ds (3 + k / 2) / 2 ^ (32 * (k % 2)))
  (bits a 55 54,
   { port := bits a 51 50
     out := bit a 49
     k := bits a 48 46
     depth := bits a 45 39
     marks := BitVec.ofNat 8 (bits a 7 0)
     base := BitVec.ofNat 64 (dAt ds 1)
     trips := [bits t 15 0, bits t 31 16, bits t 47 32, bits t 63 48]
     strides := [st 0, st 1, st 2, st 3] })

/-- The generators of an element's context. A record whose CTX names a context that CMASK does not configure is in none and is dropped: the
spec does not say whether it is refused (DESIGN CHOICE, log 112). -/
def ElemRec.agens (e : ElemRec) (c : Nat) : List AgenCfg :=
  (e.inits.filter fun ds => bits (dAt ds 0) 63 56 == 5).filterMap fun ds => if (agenOf ds).1 = c then some (agenOf ds).2 else none

/-- The contexts of an element record, checked or raw. -/
def elemCtxs (g : Grants) (raw : Bool) (j : Nat) (e : ElemRec) : Load (List (Nat × Ctx)) :=
  go e.ctxs
where
  go : List CtxRec → Load (List (Nat × Ctx))
    | [] => .ok []
    | r :: rs => do
      let c ← if raw then .ok (ctxOf r) else checkCtx g j e.col e.row r
      let cs ← go rs
      pure ((r.ctx, { c with agens := e.agens r.ctx }) :: cs)

/-- An element of the image with its checked contexts. -/
structure DraftElem where
  e : ElemRec
  ctxs : List (Nat × Ctx)

/-- The element records of a variant checked, in image order. -/
def checkElems (g : Grants) (raw : Bool) (j : Nat) : List ElemRec → Load (List DraftElem)
  | [] => .ok []
  | e :: es => do
    let cs ← elemCtxs g raw j e
    if !raw then
      firstErr (fun ds => match initErr g ds with
        | some (code, d) => .error { code := code, region := j, col := e.col, row := e.row, detail := d }
        | none => .ok ()) e.inits
    let r ← checkElems g raw j es
    pure (⟨e, cs⟩ :: r)

/-- The variants of a region checked. -/
def checkVars (g : Grants) (raw : Bool) (j : Nat) : List VarRec → Load (List (List DraftElem))
  | [] => .ok []
  | v :: vs => do
    let es ← checkElems g raw j v.elems
    let r ← checkVars g raw j vs
    pure (es :: r)

/-- The regions of an image checked, in declaration order. -/
def checkRegs (g : Grants) (raw : Bool) : Nat → List RegRec → Load (List (List (List DraftElem)))
  | _, [] => .ok []
  | j, r :: rs => do
    let vs ← checkVars g raw j r.vars
    let rest ← checkRegs g raw (j + 1) rs
    pure (vs :: rest)

/-- The pattern sections checked: Detail is the index of the word at which the breach is found (R56, R66). -/
def checkPatterns (ps : List (List Nat)) : Load Unit :=
  firstErr (fun ws => match patParse ws 0 false [] with
    | .ok _ => .ok ()
    | .error k => .error { code := 0x0E, detail := k }) ps

/-- Every check of R65 of an image: the elements of each variant of each region with their contexts. -/
def validate (g : Grants) (raw : Bool) (m : Image) : Load (List (List (List DraftElem))) := do
  if !raw then checkPatterns m.patterns
  checkRegs g raw 0 m.regions

end Sys2Proof.Machine
end

