-- ==== Sys2Proof/Machine/GraphCheck.lean ====
section
/-! DEFINITION. The checks of a graph by the loader (R173 to R178, R180, R182, R185, R188, R288, R409): a launch is refused at the
first that fails, in table order. -/

namespace Sys2Proof.Machine

/-! ### The draft of a launch -/

/-- The element that a draft element becomes, under a name, its region and its grants. -/
def DraftElem.elem (d : DraftElem) (ref : LaunchRef) (j : Nat) (pword : Word) : Elem :=
  { freshElem ref j d.e.col d.e.row pword with
    cur := { freshSet with ctxs := (List.range 4).map fun c => look c d.ctxs } }

/-- The variant of a region that a choice takes: its own last one where it has fewer. -/
def RegRec.pick (r : RegRec) (v : Nat) : Nat := min v (r.vars.length - 1)

/-- A region of the draft: its variant's streams, at the origin of the grid. -/
def RegRec.draft (r : RegRec) (j v : Nat) : Region :=
  let ss := ((r.vars[v]?).map (·.streams)).getD []
  let es := ((r.vars[v]?).map (·.elems)).getD []
  { freshRegion r.w r.h 0 0 (es.map fun e => draftElem j e.col e.row) ss with variant := v, save := r.save, cutn := r.cutn }

/-- The elements of a region of the draft. -/
def draftElems (ref : LaunchRef) (j : Nat) (pword : Word) (ds : List DraftElem) : List (Nat × Elem) :=
  ds.map fun d => (draftElem j d.e.col d.e.row, d.elem ref j pword)

/-- The net of an image with a variant of each region. -/
def draftNet (ref : LaunchRef) (m : Image) (vs : List (List (List DraftElem))) (pick : Nat → Nat) : Net :=
  ⟨(indexed 0 m.regions).map fun (j, r) => r.draft j (pick j),
   (indexed 0 vs).flatMap fun (j, v) => draftElems ref j m.head.pword (v.getD (pick j) []),
   fun _ => 0⟩

/-! ### Graph-check records (R178) -/

/-- A graph-check record. -/
def graphRec (code reg stream required declared : Nat) : Nat :=
  code * 2 ^ 56 + reg % 64 * 2 ^ 50 + stream % 1024 * 2 ^ 40 + required % 65536 * 2 ^ 24 + declared % 65536 * 2 ^ 8

/-- The streams of a net with their regions and places. -/
def Net.allStreams (g : Net) : List (Nat × Nat × Stream) :=
  (indexed 0 g.regions).flatMap fun (j, r) => (indexed 0 r.streams).map fun (k, q) => (j, k, q)

/-! ### 0x1A: ends of streams (R158, R409) -/

/-- A binding: address token, region, direction, port, count. -/
structure BindRec where
  tok : Nat
  reg : Nat
  out : Bool
  port : Nat
  count : Nat
deriving DecidableEq, Repr

/-- The first link that joins a region port, with its region and place (R409). -/
def Net.linkOf (g : Net) (b : BindRec) : Option (Nat × Nat × Stream) :=
  g.allStreams.find? fun (j, _, q) => if b.out then q.prod == .link b.reg b.port else j == b.reg && q.cons == .linkIn b.port

/-- Check 0x1A of a binding table: a port that links join is not bound (R409). -/
def Net.chkBinds (bs : List BindRec) (g : Net) : Option Nat :=
  bs.findSome? fun b => (g.linkOf b).map fun (j, k, _) => graphRec 0x1A j k 0 0

/-- Whether an element uses a port in some context. -/
def Elem.uses (x : Elem) (out : Bool) (p : Nat) : Bool :=
  x.cur.ctxs.any fun c => (c.map fun c => (if out then c.desc.cout else c.desc.cin).getD p 0 != 0).getD false

/-- Whether the ports of a context are joined as R158 asks: streams into each used input, or one generator; streams from each used
output, or one generator. -/
def portsOk (r : Region) (e : Nat) (c : Ctx) : Bool :=
  (List.range 8).all fun p =>
    let into := (r.streams.filter fun q => q.cons == .elem e p).length
    let from_ := (r.streams.filter fun q => q.prod == .elem e p).length
    let gi := (c.agens.filter fun a => !a.out && a.k == p).length
    let go := (c.agens.filter fun a => a.out && a.k == p).length
    (c.desc.cin.getD p 0 == 0 || into + gi == 1) && (c.desc.cout.getD p 0 == 0 || (go == 0 && decide (1 ≤ from_) && decide (from_ ≤ 4)) || (go == 1 && from_ == 0)) &&
    (c.desc.cin.getD p 0 != 0 || gi == 0) && (c.desc.cout.getD p 0 != 0 || go == 0)

/-- Whether the ends of a stream are used ports, region ports or counter nodes, and a link is as R409 wants it, with a siding. -/
def Net.endsOk (g : Net) (j : Nat) (r : Region) (q : Stream) : Bool :=
  (match q.prod with
   | .elem e p => ((look e g.elems).map fun x => x.uses true p).getD false
   | .regIn p => decide ((r.streams.filter fun s => s.prod == .regIn p).length ≤ 4)
   | .link i p => i != j && q.siding.isSome && ((g.regions[i]?).map fun t => t.streams.any fun s => s.cons == .regOut p).getD false && q.depth == 1 &&
       decide ((g.allStreams.filter fun s => s.2.2.prod == .link i p).length ≤ 4)) &&
  (match q.cons with
   | .elem e p => ((look e g.elems).map fun x => x.uses false p).getD false
   | .regOut p => (r.streams.filter fun s => s.cons == .regOut p).length == 1
   | .linkIn p => (r.streams.filter fun s => s.cons == .linkIn p).length == 1
   | .count k => ((r.streams[k]?).map fun s => s.count.isSome).getD false)

/-- Check 0x1A. -/
def Net.chkEnds (g : Net) : Option Nat :=
  let ss := g.allStreams
  match ss.find? fun (j, _, q) => !g.endsOk j (g.regions.getD j (freshRegion 1 1 0 0 [] [])) q with
  | some (j, k, _) => some (graphRec 0x1A j k 0 0)
  | none =>
    match g.elems.find? fun (e, x) =>
      !(x.cur.ctxs.all fun c => (c.map fun c => portsOk (g.regions.getD x.reg (freshRegion 1 1 0 0 [] [])) e c).getD true) with
    | some (_, x) => some (graphRec 0x1A x.reg 0 0 0)
    | none => if 1024 < ss.length then some (graphRec 0x1A 0 1023 1024 ss.length) else none

/-! ### 0x10, 0x11, 0x18: balance, depths, buffers (R157, R175, R176) -/

/-- Check 0x10 in one context. -/
def Net.chkBalance (g : Net) : Option Nat := g.unbalanced.map fun e => graphRec 0x10 e.reg e.idx 0 0

/-- The count with which a node puts tokens into a stream, for R176: a counter node counts as a producer of 1. -/
def GEdge.putCount (e : GEdge) : Nat := if e.node.isSome then 1 else e.put

/-- The least depth of R176. -/
def minDepth (p c k : Nat) : Nat :=
  let g := Nat.gcd p c
  max k (p + c - g + k % g)

/-- Check 0x11 in one context. -/
def Net.chkDepth (g : Net) : Option Nat :=
  (g.edges.find? fun e => (match e.dst with
    | .gen _ _ => false
    | _ => decide (e.depth < minDepth e.putCount e.c e.init))).map fun e =>
    graphRec 0x11 e.reg e.idx (minDepth e.putCount e.c e.init) e.depth

/-- The input-buffer slots that an element's streams and generators take. -/
def bufSlots (r : Region) (e : Nat) (c : Ctx) : Nat :=
  ((r.streams.filter fun q => (match q.cons with
    | .elem f _ => f == e
    | _ => false)).map fun q => q.slots q.depth).sum + ((c.agens.filter fun a => !a.out).map (·.depth)).sum

/-- Check 0x18. -/
def Net.chkSlots (g : Net) : Option Nat :=
  g.elems.findSome? fun (e, x) =>
    match g.cfg e, g.regions[x.reg]? with
    | some c, some r =>
      let n := bufSlots r e c
      if Config.inputSlots < n then
        let k := ((indexed 0 r.streams).find? fun q => (match q.2.cons with
          | .elem f _ => f == e
          | _ => false)).map (·.1)
        some (graphRec 0x18 x.reg (k.getD 0) Config.inputSlots n)
      else none
    | _, _ => none

/-! ### 0x12 to 0x14: pairs (R173) -/

/-- The declared depth of a stream of a region. -/
def Net.depthOf (g : Net) (reg k : Nat) : Nat := (((g.regions[reg]?).bind fun r => r.streams[k]?).map (·.depth)).getD 0

/-- Check 0x12: every FILT with a condition port, of a body or an epilogue, and every MERGE is of a pair. R178 names no stream and no value for
it, nor for a pair that does not nest (chkNest): the record then holds 0 in Required and Declared, and here in Stream too (DESIGN CHOICE, log 116). -/
def Net.chkPairs (g : Net) : Option Nat :=
  let ps := g.pairs
  let m := g.merges.find? fun (e, k, _) => !ps.any fun p => p.me == e && p.mslot == k
  let f := g.filts.find? fun (e, k) => (ps.filter fun p => p.fe == e && p.fslot == k).length != 1
  let reg (e : Nat) : Nat := ((look e g.elems).map (·.reg)).getD 0
  match f, m with
  | some (e, _), _ => some (graphRec 0x12 (reg e) 0 0 0)
  | none, some (e, _, _) => some (graphRec 0x12 (reg e) 0 0 0)
  | none, none => none

/-- Slots of an arm: the sum of its declared depths. -/
def Net.armSlots (g : Net) (p : Pair) (arm : List Nat) : Nat := (arm.map (g.depthOf p.reg)).sum

/-- Check 0x13. -/
def Net.chkArms (g : Net) : Option Nat :=
  g.pairs.findSome? fun p =>
    let w := g.depthOf p.reg p.cond
    [g.armT p, g.armF p].findSome? fun a =>
      if g.armSlots p a < w then some (graphRec 0x13 p.reg (a.headD 0) w (g.armSlots p a)) else none

/-- The first stream of an arm at which an arm actor has another count than 1 on an arm port, with that count. -/
def Net.armCounts (g : Net) (p : Pair) (arm : List Nat) : Option (Nat × Nat) :=
  arm.findSome? fun k =>
    match (g.regions[p.reg]?).bind fun r => r.streams[k]? with
    | none => none
    | some q =>
      let out := match q.prod with
        | .elem e o => if e = p.fe then 1 else g.cout e o
        | _ => 1
      let inp := match q.cons with
        | .elem e i => g.cin e i
        | _ => 1
      if out ≠ 1 then some (k, out) else if inp ≠ 1 then some (k, inp) else none

/-- Whether a pair nests: an arm that holds its FILT holds its MERGE. -/
def Net.nests (g : Net) (p o : Pair) : Bool :=
  let touches (arm : List Nat) (e : Nat) : Bool := arm.any fun k =>
    match (g.regions[p.reg]?).bind fun r => r.streams[k]? with
    | some q => (match q.cons with
      | .elem f _ => f == e
      | _ => false)
    | none => false
  [g.armT p, g.armF p].all fun a => !(touches a o.fe && o.fe != p.me) || touches a o.me

/-- Check 0x14. A breach of the nesting names the condition stream, with 0 in Required and Declared (DESIGN CHOICE, log 116). -/
def Net.chkNest (g : Net) : Option Nat :=
  g.pairs.findSome? fun p =>
    match (g.armCounts p (g.armT p)).or (g.armCounts p (g.armF p)) with
    | some (k, n) => some (graphRec 0x14 p.reg k 1 n)
    | none => if g.pairs.all fun o => (o.fe == p.fe && o.fslot == p.fslot) || o.reg != p.reg || g.nests p o then none
      else some (graphRec 0x14 p.reg p.cond 0 0)

/-! ### 0x15: liveness (R177) -/

/-- The state of the liveness check: tokens put in and taken out of each edge, and firings done by each node. -/
structure Live where
  done : List (GNode × Nat)

/-- Firings of a node so far. -/
def Live.of (v : Live) (a : GNode) : Nat := ((v.done.find? fun q => q.1 == a).map (·.2)).getD 0

/-- Tokens that an edge has been given after a number of firings, with the markers that its counter node has inserted, and that its buffer then
holds. -/
def GEdge.given (e : GEdge) (f : Nat) : Nat := e.init + ((e.node.map fun c => c.given (f * e.put)).getD (f * e.put))
def GEdge.holds (e : GEdge) (v : Live) : Nat := e.given (v.of e.src) - e.c * v.of e.dst

/-- Whether an edge lets its consumer fire: it holds the whole count. -/
def GEdge.letsDst (e : GEdge) (v : Live) : Bool := decide (e.c ≤ e.holds v)

/-- Whether an edge lets its producer fire: it has room for the whole count. The markers that a counter node inserts behind those tokens
follow one by one as room comes; until then they stand in the way of the next firing. -/
def GEdge.letsSrc (e : GEdge) (v : Live) : Bool := decide (e.holds v + e.put ≤ e.depth)

/-- The edge that blocks a node. -/
def blockedBy (es : List GEdge) (v : Live) (a : GNode) : Option GEdge :=
  es.find? fun e => (e.dst == a && !e.letsDst v) || (e.src == a && !e.letsSrc v)

/-- A node fires. -/
def Live.fire (v : Live) (a : GNode) : Live :=
  ⟨if v.done.any (·.1 == a) then v.done.map fun q => if q.1 = a then (a, q.2 + 1) else q else (a, 1) :: v.done⟩

/-- Firings until every node has its count, or none can fire: the nodes left over. -/
def runLive (es : List GEdge) (need : List (GNode × Nat)) : Nat → Live → Live × List GNode
  | 0, v => (v, (need.filter fun q => decide (v.of q.1 < q.2)).map (·.1))
  | k + 1, v =>
    match need.find? fun q => decide (v.of q.1 < q.2) && (blockedBy es v q.1).isNone with
    | none => (v, (need.filter fun q => decide (v.of q.1 < q.2)).map (·.1))
    | some q => runLive es need k (v.fire q.1)

/-- An edge on the cycle of waits that is reached from a node. -/
def waitEdge (es : List GEdge) (v : Live) : Nat → GNode → Option GEdge
  | 0, a => blockedBy es v a
  | k + 1, a =>
    match blockedBy es v a with
    | none => none
    | some e => waitEdge es v k (if e.dst = a ∧ !e.letsDst v then e.src else e.dst)

/-- The region of a node. -/
def Net.nodeReg (g : Net) : GNode → Nat
  | .act e | .gen e _ => ((look e g.elems).map (·.reg)).getD 0
  | .rin j _ | .rout j _ => j

/-- The nodes of a list of edges, each once. -/
def nodesOf (es : List GEdge) : List GNode := (es.flatMap fun e => [e.src, e.dst]).eraseDups

/-- The first stream of a feedback loop that holds no initial token, through links and region ports too (R174). -/
def Net.bareLoop (g : Net) : Option GEdge :=
  let es := g.streamEdges.filter fun e => e.init == 0
  es.find? fun e => (closeOver (fun a => (es.filter fun f => f.src == a).map (·.dst)) (2 * es.length + 2) [e.dst] []).contains e.src

/-- Check 0x15: every feedback loop holds initial tokens, and one repetition of each region, with declared depths and initial tokens,
completes. -/
def Net.chkLive (g : Net) : Option Nat :=
  (g.bareLoop.map fun e => graphRec 0x15 e.reg e.idx 0 0).or <| (List.range g.regions.length).findSome? fun j =>
    let es := (g.streamEdges.filter fun e => e.reg == j && (match e.src with
      | .rout i _ => i == j
      | _ => true)).filter fun e => (match e.dst with
      | .rin _ _ => false
      | _ => true)
    let need := (nodesOf es).map fun a => (a, g.reps a)
    let (v, left) := runLive es need ((need.map (·.2)).sum + 1) ⟨[]⟩
    match left with
    | [] => none
    | a :: _ => some (graphRec 0x15 j (((waitEdge es v (need.length + 1) a).map (·.idx)).getD 0) 0 0)

/-! ### 0x16: junctions (R182) -/

/-- The scope that an instruction counts for (R182). -/
def scopeRank (i : Instr) : Nat :=
  let a : Args := ⟨dataTok 0 none, dataTok 0 none, dataTok 0 none⟩
  match i with
  | .barw _ _ k q _ _ => if q then k.code else 0
  | _ => ((accOf ⟨0, 0, false, 0⟩ a i).map fun v => v.scope.code).getD 0

/-- The scope of an actor. -/
def Ctx.scope (c : Ctx) : Nat :=
  ((c.body.instrs ++ ((c.epi.map Block.instrs).getD [])).map fun q => scopeRank q.2).foldl max 0

/-- Check 0x16. -/
def Net.chkJunctions (g : Net) : Option Nat :=
  g.allStreams.findSome? fun (j, k, q) =>
    match q.prod, q.cons with
    | .elem a _, .elem b _ =>
      match g.cfg a, g.cfg b with
      | some x, some y =>
        let need := max x.scope y.scope
        let has := (q.junction.map Scope.code).getD 0
        if x.scope ≠ y.scope ∧ has < need then some (graphRec 0x16 j k need has) else none
      | _, _ => none
    | _, _ => none

/-! ### Places within a region (R219, R465) -/

/-- The place of a region's input or output port on its boundary where nothing speaks against it: the placer's choice, which gives the hop
counts that R215 and R414 report for their graphs (log 24). -/
def portPlace (w h : Nat) (out : Bool) (k : Nat) : Nat × Nat :=
  let c := if h = 1 then 0 else 1
  match out, k with
  | false, 0 => (c, 0)
  | false, k => (0, k % (4 * h))
  | true, 0 => (4 * w - 2 + c, 4 * h - 4)
  | true, k => (4 * w - 1, (4 * h - 4 + k) % (4 * h))

/-- The place of a draft element in its region. -/
def draftPlace (e : Nat) : Nat × Nat := (e % 64, e / 64 % 64)

/-- Whether an island covers a place of its region. -/
def Island.covers (i : Island) (p : Nat × Nat) : Bool :=
  decide (4 * i.x ≤ p.1) && decide (p.1 < 4 * (i.x + i.w)) && decide (4 * i.y ≤ p.2) && decide (p.2 < 4 * (i.y + i.h))

/-- The elements at the far ends of the streams of a region port, those without a siding first: they cross no border. -/
def Region.portEnds (g : Region) (out : Bool) (k : Nat) : List Nat :=
  let far (q : Stream) : Option Nat :=
    if out then (match q.prod, q.cons with
      | .elem e _, .regOut o => if o = k then some e else none
      | _, _ => none)
    else (match q.prod, q.cons with
      | .regIn i, .elem e _ => if i = k then some e else none
      | _, _ => none)
  (g.streams.filter fun q => q.siding.isNone).filterMap far ++ g.streams.filterMap far

/-- The places of an island on the boundary of its region of w × h pages. -/
def Island.rim (i : Island) (w h : Nat) : List (Nat × Nat) :=
  ((List.range (4 * i.h)).flatMap fun y => (List.range (4 * i.w)).map fun x => (4 * i.x + x, 4 * i.y + y)).filter fun p =>
    p.1 == 0 || p.2 == 0 || p.1 + 1 == 4 * w || p.2 + 1 == 4 * h

/-- A test of places that admits every one: that of a graph that is not placed yet. -/
def anyPlace (_ : Nat × Nat) : Bool := true

/-- The place of a region's port: its own where that lies in the island of the element at the far end of its first stream and can be used, else
the first place of that island on the region's boundary that can (log 24). -/
def Region.portAt (g : Region) (ok : Nat × Nat → Bool) (is : List Island) (out : Bool) (k : Nat) : Nat × Nat :=
  let d := portPlace g.w g.h out k
  let at_ (c : Nat × Nat) : Option Island := is.find? fun i => i.covers c
  match (((g.portEnds out k).head?).bind fun e => at_ (draftPlace e)).or (at_ d) with
  | none => d
  | some i => if i.covers d && ok d then d else ((i.rim g.w g.h).find? ok).getD d

/-- The places of a stream's ends in its region, given its islands; a bound stream ends where the stream it counts for does. -/
def Region.ends (g : Region) (ok : Nat × Nat → Bool) (is : List Island) (q : Stream) : (Nat × Nat) × (Nat × Nat) :=
  let src : Nat × Nat := match q.prod with
    | .elem e _ => draftPlace e
    | .regIn k => g.portAt ok is false k
    | .link _ k => g.portAt ok is false k
  let dst (c : Cons) : Nat × Nat := match c with
    | .elem e _ => draftPlace e
    | .regOut k => g.portAt ok is true k
    | .linkIn k => g.portAt ok is false k
    | .count _ => (0, 0)
  (src, match q.cons with
    | .count k => ((g.streams[k]?).map fun s => dst s.cons).getD (0, 0)
    | c => dst c)

/-- The islands of a region. -/
def islandsOf (is : List Island) (j : Nat) : List Island := is.filter fun i => i.reg == j

/-- The number of the island that covers a place of a region. -/
def islandAt (is : List Island) (j : Nat) (p : Nat × Nat) : Option Nat := is.findIdx? fun i => i.reg == j && i.covers p

/-! ### 0x17, 0x19: sidings, nodes, generators (R180, R185, R188, R288) -/

/-- Whether a stream's ends lie in different islands; those of a link always do (R409). -/
def Net.crosses (g : Net) (is : List Island) (j : Nat) (q : Stream) : Bool :=
  q.isLink || match g.regions[j]? with
    | none => false
    | some r => let e := r.ends anyPlace (islandsOf is j) q; islandAt is j e.1 != islandAt is j e.2

/-- Check 0x17. -/
def Net.chkSidings (g : Net) (is : List Island) : Option Nat :=
  g.allStreams.findSome? fun (j, k, q) =>
    if !g.crosses is j q then none
    else match q.siding with
    | none => some (graphRec 0x17 j k 16 0)
    | some (depth, hi, lo) => if 16 ≤ depth ∧ depth ≤ 64 ∧ lo < hi ∧ hi ≤ depth then none else some (graphRec 0x17 j k 16 depth)

/-- Whether trips and marker kinds are valid: no used level above an unused one, no reserved kind (R185). -/
def levelsOk (trips kinds : List Nat) : Bool :=
  (List.range 3).all (fun l => trips.getD l 0 != 0 || trips.getD (l + 1) 0 == 0) && trips.getD 0 0 != 0 && kinds.all (· != 3)

/-- Whether the levels of an address generator nest and its marker kinds are none that R185 reserves (R288; log 111); the rest of its record
fails with it (agenFits). -/
def AgenCfg.ok (a : AgenCfg) : Bool :=
  levelsOk a.trips a.kinds

/-- The streams of a region that end at an element. -/
def Region.into (r : Region) (e : Nat) : List Stream := r.streams.filter fun q => match q.cons with
  | .elem f _ => f == e
  | _ => false

/-- Check 0x19: nodes and generators; an element has two counter nodes and one corner-turn node (R184). -/
def Net.chkNodes (g : Net) : Option Nat :=
  match g.allStreams.find? fun (_, _, q) =>
    (q.count.map fun n => !levelsOk n.trips0 n.kinds).getD false || (q.count.isSome || q.turn) && (match q.cons with
      | .elem _ _ => false
      | _ => true) with
  | some (j, k, _) => some (graphRec 0x19 j k 0 0)
  | none =>
    g.elems.findSome? fun (e, x) =>
      match g.regions[x.reg]? with
      | none => none
      | some r =>
        let into := r.into e
        let nodes := decide ((into.filter (·.count.isSome)).length ≤ 2) && decide ((into.filter (·.turn)).length ≤ 1)
        let gens := x.cur.ctxs.all fun c => (c.map fun c => c.agens.all AgenCfg.ok &&
          (List.range 4).all fun m => decide ((c.agens.filter (·.port == m)).length ≤ 1)).getD true
        if nodes && gens then none else some (graphRec 0x19 x.reg 0 0 0)

/-! ### Every check, in table order (R175) -/

/-- A check over the nets of every variant, and of every context. -/
def overCtxs (nets : List Net) (f : Net → Option Nat) : Option Nat :=
  nets.findSome? fun g => (List.range 4).findSome? fun c => f (g.at_ c)

/-- The first graph check that fails; the binding table is part of the first (R409). -/
def graphCheck (nets : List Net) (is : List Island) (bs : List BindRec) : Option Nat :=
  (((((((((((nets.findSome? Net.chkEnds).or (nets.findSome? (Net.chkBinds bs))).or (overCtxs nets Net.chkBalance)).or (overCtxs nets Net.chkDepth)).or
    (overCtxs nets Net.chkSlots)).or (overCtxs nets Net.chkPairs)).or (overCtxs nets Net.chkArms)).or
    (overCtxs nets Net.chkNest)).or (overCtxs nets Net.chkLive)).or (overCtxs nets Net.chkJunctions)).or
    (nets.findSome? fun g => g.chkSidings is)).or (nets.findSome? Net.chkNodes)

end Sys2Proof.Machine
end

