-- ==== Sys2Proof/Machine/Place.lean ====
section
/-! DEFINITION. The placer (R156, R180, R193, R216 to R219, R465): origins, variants, routes and arcs, and the sidings of page edges. The
routes it chooses are the model's own (log 24). -/

namespace Sys2Proof.Machine

/-! ### Routes (R156, R465) -/

/-- The route switches of a straight run, without its first: `k` of them from `a` towards `b`. -/
def runTo (a b : Nat) : List Nat :=
  if a ≤ b then (List.range (b - a)).map fun i => a + i + 1 else (List.range (a - b)).map fun i => a - i - 1

/-- A shortest route between two element places: along the row and then the column, or the other way round. -/
def routeOf (rowFirst : Bool) (a b : Nat × Nat) : List (Nat × Nat) :=
  if rowFirst then a :: ((runTo a.1 b.1).map fun c => (c, a.2)) ++ (runTo a.2 b.2).map fun r => (b.1, r)
  else a :: ((runTo a.2 b.2).map fun r => (a.1, r)) ++ (runTo a.1 b.1).map fun c => (c, b.2)

/-- The element edges that a route crosses. -/
def hopsOf : List (Nat × Nat) → List ((Nat × Nat) × (Nat × Nat))
  | a :: b :: r => (a, b) :: hopsOf (b :: r)
  | _ => []

/-- The number of a hop: its two route switches. -/
def hopKey (h : (Nat × Nat) × (Nat × Nat)) : Nat := ((h.1.1 * 64 + h.1.2) * 64 + h.2.1) * 64 + h.2.2

/-- Tracks in use by hop: an element edge and a direction. -/
abbrev TrackUse := List (Nat × Nat)

/-- Whether a route's hops have `n` free tracks, 8 to an edge and direction. -/
def trackFree (u : TrackUse) (n : Nat) (r : List (Nat × Nat)) : Bool := (hopsOf r).all fun h => decide ((look (hopKey h) u).getD 0 + n ≤ 8)

/-- Tracks taken along a route. -/
def takeTracks (u : TrackUse) (n : Nat) (r : List (Nat × Nat)) : TrackUse :=
  (hopsOf r).foldl (fun v h => put (hopKey h) ((look (hopKey h) v).getD 0 + n) v) u

/-- A rectangle of route switches: its first column and row, and the column and row past its last. -/
structure Box where
  x0 : Nat
  y0 : Nat
  x1 : Nat
  y1 : Nat
deriving DecidableEq, Repr

/-- The route switches of a rectangle beside one of them. -/
def Box.beside (b : Box) (a : Nat × Nat) : List (Nat × Nat) :=
  (if a.1 + 1 < b.x1 then [(a.1 + 1, a.2)] else []) ++ (if b.x0 < a.1 then [(a.1 - 1, a.2)] else []) ++
  (if a.2 + 1 < b.y1 then [(a.1, a.2 + 1)] else []) ++ (if b.y0 < a.2 then [(a.1, a.2 - 1)] else [])

/-- The shortest route to a place over free tracks within a rectangle, through switches that can be used; `front` holds routes of one length, last switch first, and
`seen` every switch that one of them has reached. -/
def findRoute (ok : Nat × Nat → Bool) (u : TrackUse) (n : Nat) (box : Box) (b : Nat × Nat) :
    Nat → List (List (Nat × Nat)) → List (Nat × Nat) → Option (List (Nat × Nat))
  | 0, _, _ => none
  | fuel + 1, front, seen =>
    match front.find? fun p => p.head? == some b with
    | some p => some p.reverse
    | none =>
      let (next, seen') := front.foldl (fun (z : List (List (Nat × Nat)) × List (Nat × Nat)) p =>
        match p with
        | [] => z
        | a :: _ => (box.beside a).foldl (fun (y : List (List (Nat × Nat)) × List (Nat × Nat)) c =>
            if y.2.contains c || !ok c || !trackFree u n [a, c] then y else (y.1 ++ [c :: p], c :: y.2)) z) ([], seen)
      if next.isEmpty then none else findRoute ok u n box b fuel next seen'

/-- A route for a stream where tracks are free, through switches that can be used: a shortest one with one bend, else the shortest that free tracks allow (R465). -/
def layRoute (ok : Nat × Nat → Bool) (u : TrackUse) (n : Nat) (box : Box) (a b : Nat × Nat) : Option (List (Nat × Nat)) :=
  let open_ (r : List (Nat × Nat)) : Bool := r.all ok && trackFree u n r
  if open_ (routeOf true a b) then some (routeOf true a b)
  else if open_ (routeOf false a b) then some (routeOf false a b)
  else if !ok a then none
  else findRoute ok u n box b ((box.x1 - box.x0) * (box.y1 - box.y0)) [[a]] [a]

/-- Tracks of two sets of routes together. -/
def TrackUse.and (u v : TrackUse) : TrackUse := v.foldl (fun w (k, n) => put k ((look k w).getD 0 + n) w) u

/-! ### Borders and page edges (R179, R180, R192, R193) -/

/-- A hop of a route: the switches on both sides of an element edge. -/
abbrev Hop := (Nat × Nat) × (Nat × Nat)

/-- The side of a page on which a hop enters it: 0 west, 1 east, 2 north, 3 south; and the side on which it leaves. -/
def entrySide (h : Hop) : Nat := if h.1.1 < h.2.1 then 0 else if h.2.1 < h.1.1 then 1 else if h.1.2 < h.2.2 then 2 else 3
def exitSide (h : Hop) : Nat := entrySide (h.2, h.1)

/-- The page edges that a hop leaves by and enters by: page column, row and side. -/
def edgeOut (h : Hop) : Nat × Nat × Nat := (h.1.1 / 4, h.1.2 / 4, exitSide h)
def edgeIn (h : Hop) : Nat × Nat × Nat := (h.2.1 / 4, h.2.2 / 4, entrySide h)

/-- The number of a page edge: column, row and side. -/
def edgeKey (k : Nat × Nat × Nat) : Nat := (k.1 * 16 + k.2.1) * 4 + k.2.2

/-- A border that a route crosses: the islands on both sides, the page edge by which it leaves the one and that by which it enters the
other. -/
structure Crossing where
  p : Nat
  c : Nat
  exit : Nat × Nat × Nat
  entry : Nat × Nat × Nat
deriving DecidableEq, Repr

/-- The borders of a route, from the island it stands in and the hop by which it has left that one. Pages that the launch does not hold
lie in none of its islands. -/
def crossingsFrom (isl : Nat × Nat → Option Nat) : Option Nat → Option Hop → List Hop → List Crossing
  | _, _, [] => []
  | cur, left, h :: r =>
    match isl h.2, cur with
    | none, _ => crossingsFrom isl cur (left.or (some h)) r
    | some b, none => crossingsFrom isl (some b) none r
    | some b, some a =>
      if a = b then crossingsFrom isl cur none r
      else ⟨a, b, edgeOut (left.getD h), edgeIn h⟩ :: crossingsFrom isl (some b) none r

/-- The borders of a route. -/
def crossings (isl : Nat × Nat → Option Nat) (r : List (Nat × Nat)) : List Crossing := crossingsFrom isl ((r.head?).bind isl) none (hopsOf r)

/-- Sidings in use by page edge. -/
abbrev SidingUse := List (Nat × Nat)

/-- Sidings taken on an edge; none beyond 4. -/
def takeSiding (u : SidingUse) (k : Nat × Nat × Nat) (n : Nat) : Option SidingUse :=
  if (look (edgeKey k) u).getD 0 + n ≤ 4 then some (put (edgeKey k) ((look (edgeKey k) u).getD 0 + n) u) else none

/-- The sidings of a stream of `n` tokens' width on the receiving page edges of its borders. -/
def takeSidings (n : Nat) : List Crossing → SidingUse → Option SidingUse
  | [], u => some u
  | c :: r, u => (takeSiding u c.entry n).bind (takeSidings n r)

/-! ### Origins (R216 to R218) -/

/-- Where a region is put: variant and origin. -/
structure Spot where
  v : Nat
  ox : Nat
  oy : Nat
deriving DecidableEq, Repr

/-- The device pages of a region of w × h pages at a spot, row by row. -/
def Spot.pages (p : Spot) (w h : Nat) : List Nat := (List.range h).flatMap fun y => (List.range w).map fun x => 16 * (p.oy + y) + (p.ox + x)

/-- The elements that a variant uses on a page of its region. -/
def VarRec.usedOn (v : VarRec) (x y : Nat) : List Nat :=
  (v.elems.filter fun e => e.col / 4 == x && e.row / 4 == y).map fun e => 4 * (e.row % 4) + e.col % 4

/-- Whether a spot is acceptable (R217): pages of the partition that are free, elements that passed their self-test, islands within
a die. -/
def State.acceptable (s : State) (n : Nat) (busy : List Nat) (r : RegRec) (p : Spot) : Bool :=
  decide (p.ox + r.w ≤ 16) && decide (p.oy + r.h ≤ 16) &&
  ((p.pages r.w r.h).all fun k => (s.part n).pageList.contains k && !busy.contains k && (s.page k).usable != 0) &&
  ((List.range r.h).all fun y => (List.range r.w).all fun x =>
    (((r.vars[p.v]?).map fun v => v.usedOn x y).getD []).all fun b => (s.page (16 * (p.oy + y) + (p.ox + x))).usable.getLsbD b) &&
  r.islands.all fun i => (p.ox + i.x) / 8 == (p.ox + i.x + i.w - 1) / 8 && (p.oy + i.y) / 8 == (p.oy + i.y + i.h - 1) / 8

/-- The element of a device page that stands at a place, by its bit of the page's resource pattern, and that page (R216). -/
def pageAt (c : Nat × Nat) : Nat := 16 * (c.2 / 4) + c.1 / 4
def bitAt (c : Nat × Nat) : Nat := 4 * (c.2 % 4) + c.1 % 4

/-- Whether an element passed its self-test and is in use (R2, R216). -/
def State.inUse (s : State) (c : Nat × Nat) : Bool := (s.page (pageAt c)).usable.getLsbD (bitAt c)

/-- Whether a launch of a partition may use the route switch at a place: its page is the partition's, since partitions share no fabric, and its
element is in use (R2, R28, R216). -/
def State.routable (s : State) (n : Nat) (c : Nat × Nat) : Bool := (s.part n).pageList.contains (pageAt c) && s.inUse c

/-- The overlap of recorded and current heat. -/
def State.overlapHeat (s : State) (r : RegRec) (p : Spot) : Nat :=
  (((p.pages r.w r.h).zip (((r.vars[p.v]?).map (·.heat)).getD [])).map fun (k, h) => h * (s.page k).heat.toNat).sum

/-! ### Laying a launch (R156, R180, R219, R409, R465) -/

/-- A stream laid: its region and place there, its width, its route on the device, and the borders it crosses. -/
structure Route where
  reg : Nat
  k : Nat
  n : Nat
  path : List (Nat × Nat)
  cross : List Crossing
deriving DecidableEq, Repr

/-- What has been placed of a launch: spots by region, routes, and the tracks and sidings in use. -/
structure Laid where
  spots : List Spot
  routes : List Route
  tracks : TrackUse
  sidings : SidingUse
deriving DecidableEq, Repr

/-- A place of a region as a device element. -/
def Spot.elem (p : Spot) (c : Nat × Nat) : Nat := 64 * (4 * p.oy + c.2) + (4 * p.ox + c.1)

/-- A place of a region in device coordinates. -/
def Spot.shift (p : Spot) (c : Nat × Nat) : Nat × Nat := (4 * p.ox + c.1, 4 * p.oy + c.2)

/-- The island that covers a place of the device, of the regions placed so far. -/
def Laid.islandOf (a : Laid) (m : List RegRec) (is : List Island) (c : Nat × Nat) : Option Nat :=
  (indexed 0 (m.zip a.spots)).findSome? fun (j, (r, p)) =>
    if 4 * p.ox ≤ c.1 ∧ c.1 < 4 * (p.ox + r.w) ∧ 4 * p.oy ≤ c.2 ∧ c.2 < 4 * (p.oy + r.h) then
      islandAt is j (c.1 - 4 * p.ox, c.2 - 4 * p.oy)
    else none

/-- A stream laid along free tracks within a rectangle; none where there are none, or no free siding, or no siding declared for a border on
the way. -/
def Laid.stream (a : Laid) (ok : Nat × Nat → Bool) (m : List RegRec) (is : List Island) (j k : Nat) (q : Stream) (box : Box) (ends : (Nat × Nat) × (Nat × Nat)) :
    Option Laid :=
  match layRoute ok a.tracks q.width box ends.1 ends.2 with
  | none => none
  | some path =>
    let cs := crossings (a.islandOf m is) path
    if !cs.isEmpty && q.siding.isNone then none
    else (takeSidings q.width cs a.sidings).map fun u =>
      { a with routes := a.routes ++ [⟨j, k, q.width, path, cs⟩], tracks := takeTracks a.tracks q.width path, sidings := u }

/-- The draft of a region that has been placed. -/
def Laid.draft (a : Laid) (m : List RegRec) (j : Nat) : Region :=
  match m[j]?, a.spots[j]? with
  | some r, some p => r.draft j p.v
  | _, _ => freshRegion 1 1 0 0 [] []

/-- The rectangle in which a region's own stream is laid: its island's where it has no siding, else the region's. -/
def ownBox (is : List Island) (g : Region) (p : Spot) (q : Stream) (src : Nat × Nat) : Box :=
  match (if q.siding.isNone then is.find? fun i => i.covers src else none) with
  | some i => ⟨4 * (p.ox + i.x), 4 * (p.oy + i.y), 4 * (p.ox + i.x + i.w), 4 * (p.oy + i.y + i.h)⟩
  | none => ⟨4 * p.ox, 4 * p.oy, 4 * (p.ox + g.w), 4 * (p.oy + g.h)⟩

/-- The rectangle of the whole device: links are laid in what the partition has of it. -/
def deviceBox : Box := ⟨0, 0, 64, 64⟩

/-- The ends of a link on the device: the producing region's output, the consuming region's input. -/
def Laid.linkEnds (a : Laid) (ok : Nat × Nat → Bool) (m : List RegRec) (is : List Island) (j : Nat) (q : Stream) : (Nat × Nat) × (Nat × Nat) :=
  let place (i k : Nat) (out : Bool) : Nat × Nat := match a.spots[i]? with
    | some p => p.shift ((a.draft m i).portAt (fun c => ok (p.shift c)) (islandsOf is i) out k)
    | none => (0, 0)
  match q.prod, q.cons with
  | .link i k, .linkIn n => (place i k true, place j n false)
  | _, _ => ((0, 0), (0, 0))

/-- The own streams of a region, and the links, with their regions and places, that have their later end in it: what is laid once it has a
spot. -/
def Laid.due (a : Laid) (m : List RegRec) (j : Nat) : List (Nat × Nat × Stream) :=
  ((indexed 0 (a.draft m j).streams).filterMap fun (k, q) => if q.isLink then none else some (j, k, q)) ++
  (List.range (j + 1)).flatMap fun i => (indexed 0 (a.draft m i).streams).filterMap fun (k, q) =>
    match q.prod with
    | .link o _ => if max i o = j then some (i, k, q) else none
    | _ => none

/-- A region put at a spot, with what is due laid; none where the tracks or the sidings do not suffice. -/
def Laid.region (a : Laid) (ok : Nat × Nat → Bool) (m : List RegRec) (is : List Island) (j : Nat) (p : Spot) : Option Laid :=
  let b := { a with spots := a.spots ++ [p] }
  (b.due m j).foldl (fun (x : Option Laid) (i, k, q) => x.bind fun c =>
    if q.isLink then c.stream ok m is i k q deviceBox (c.linkEnds ok m is i q)
    else
      let e := (c.draft m j).ends (fun b => ok (p.shift b)) (islandsOf is j) q
      c.stream ok m is j k q (ownBox (islandsOf is j) (c.draft m j) p q e.1) (p.shift e.1, p.shift e.2)) (some b)

/-! ### The choice of spots (R217, R218) -/

/-- The first of several spots with the least overlap. -/
def leastHeat (heat : Spot → Nat) (ps : List Spot) : Option Spot :=
  ps.foldl (fun b p => match b with
    | none => some p
    | some o => if heat p < heat o then some p else some o) none

/-- The spot with the least overlap at which a region can be laid. -/
def bestLaid (lay : Spot → Option Laid) (heat : Spot → Nat) : Nat → List Spot → Option Laid
  | 0, _ => none
  | k + 1, ps =>
    match leastHeat heat ps with
    | none => none
    | some p =>
      match lay p with
      | some a => some a
      | none => bestLaid lay heat k (ps.erase p)

/-- The spots of a region whose pages, elements and dies are acceptable: ties go to the lower variant, then row, then column. -/
def State.spotsOf (s : State) (n : Nat) (busy : List Nat) (r : RegRec) (vs : List Nat) : List Spot :=
  (vs.filter fun v => decide (v < r.vars.length)).flatMap fun v => (List.range 16).flatMap fun y => (List.range 16).filterMap fun x =>
    if s.acceptable n busy r ⟨v, x, y⟩ then some ⟨v, x, y⟩ else none

/-- The regions of a launch from `j` on placed in declaration order; or the first that finds no acceptable pair. -/
def State.placeFrom (s : State) (n : Nat) (vs : List Nat) (m : List RegRec) (is : List Island) : Nat → List RegRec → List Nat → Laid → Except Nat Laid
  | _, [], _, a => .ok a
  | j, r :: rs, busy, a =>
    let ps := s.spotsOf n busy r vs
    match bestLaid (a.region (s.routable n) m is j) (s.overlapHeat r) ps.length ps with
    | none => .error j
    | some b =>
      let pages := ((b.spots[j]?).map fun p => p.pages r.w r.h).getD []
      s.placeFrom n vs m is (j + 1) rs (busy ++ pages) b

/-- The pages that regions of running launches hold. -/
def State.busyPages (s : State) : List Nat := s.parts.flatMap fun p => p.launches.flatMap Launch.pages

/-- The tracks that the running launches of a partition hold (R28, R156). -/
def State.busyTracks (s : State) (n : Nat) : TrackUse := (s.part n).launches.foldl (fun u l => TrackUse.and u l.tracks) []

/-- Spots and routes for every region, given the pages and tracks that are taken. -/
def State.layout (s : State) (n : Nat) (vs : List Nat) (m : List RegRec) (is : List Island) (busy : List Nat) (use : TrackUse) : Except Nat Laid :=
  s.placeFrom n vs m is 0 m busy ⟨[], [], use, []⟩

/-! ### The launch as placed (R219, R306, R409, R465) -/

/-- Every element of a region's rectangle, under its device name. -/
def Spot.allElems (p : Spot) (w h : Nat) : List Nat :=
  (List.range (4 * h)).flatMap fun r => (List.range (4 * w)).map fun c => p.elem (c, r)

/-- A stream as it is placed: its elements named as they stand on the device, its arcs and borders, and the islands of its ends. -/
def Stream.placed (q : Stream) (p : Spot) (path : List (Nat × Nat)) (cross : List Crossing) (isl : Nat × Nat → Option Nat) : Stream :=
  let (depth, hi, lo) := q.siding.getD (0, 0, 0)
  { q with
    prod := (match q.prod with
      | .elem e k => .elem (p.elem (draftPlace e)) k
      | x => x)
    cons := (match q.cons with
      | .elem e k => .elem (p.elem (draftPlace e)) k
      | x => x)
    arcs := max 1 (path.length - 1)
    borders := cross.map fun c => ⟨c.p, c.c, none, .empty q.width depth hi lo⟩
    pIsl := (path.head?).bind isl
    cIsl := (path.getLast?).bind isl }

/-- The regions of a launch at their spots. -/
def Laid.regions (a : Laid) (ok : Nat × Nat → Bool) (m : List RegRec) (is : List Island) : List Region :=
  (indexed 0 (m.zip a.spots)).map fun (j, (r, p)) =>
    let g := r.draft j p.v
    let page (out : Bool) (k : Nat) : Nat :=
      pageAt (p.shift (g.portAt (fun c => ok (p.shift c)) (islandsOf is j) out k))
    { g with
      ox := p.ox
      oy := p.oy
      elems := p.allElems r.w r.h
      ins := (indexed 0 g.ins).map fun (k, i) => { i with page := page false k }
      outs := (indexed 0 g.outs).map fun (k, o) => { o with page := page true k }
      streams := (indexed 0 g.streams).map fun (k, q) =>
        match a.routes.find? fun t => t.reg == j && t.k == k with
        | some t => q.placed p t.path t.cross (a.islandOf m is)
        | none => q.placed p [] [] fun _ => none }

/-- The tracks that a launch's streams hold. -/
def Laid.own (a : Laid) : TrackUse := a.routes.foldl (fun u t => takeTracks u t.n t.path) []

/-! ### Siding pairs (R193, R198) -/

/-- The borders of a launch in stream declaration order, each with the width of its stream. -/
def Laid.borders (a : Laid) (gs : List Region) : List (Nat × Crossing) :=
  (indexed 0 gs).flatMap fun (j, g) => (List.range g.streams.length).flatMap fun k =>
    match a.routes.find? fun t => t.reg == j && t.k == k with
    | some t => t.cross.map fun c => (t.n, c)
    | none => []

/-- Whether a border takes a siding pair: neither island's ratio is an integer multiple of the other's. -/
def pairs (is : List Island) (p c : Nat) : Bool :=
  match is[p]?, is[c]? with
  | some a, some b => !multiples a.ratio b.ratio
  | _, _ => false

/-- The first border whose pair finds no siding on the producing page's edge (0x22): its consuming island. -/
def pairEdges (is : List Island) : List (Nat × Crossing) → SidingUse → Option Nat
  | [], _ => none
  | (n, c) :: r, u =>
    if !pairs is c.p c.c then pairEdges is r u
    else match takeSiding u c.exit n with
    | none => some c.c
    | some v => pairEdges is r v

/-- A border in the arrangement that the ratios ask for. -/
def Border.arranged (is : List Island) (b : Border) : Border := { b with lead := if pairs is b.p b.c then some b.bank else none }

/-- A region with its borders arranged. -/
def Region.arranged (is : List Island) (g : Region) : Region :=
  { g with streams := g.streams.map fun q => { q with borders := q.borders.map (Border.arranged is) } }

end Sys2Proof.Machine
end

