-- ==== Sys2Proof/Machine/Tables.lean ====
section
/-! DEFINITION. Invalidation of what the part caches of a partition's tables: the events TTINV_WRITE, TTINV_COMPLETE, MTINV_WRITE,
MTINV_COMPLETE, PMINV_WRITE and PMINV_COMPLETE (R245, R372, R374, R381). -/

namespace Sys2Proof.Machine

/-! ### Every cache of a partition (R244, R246) -/

/-- The state with every requester's cache of a partition changed: ports of elements, gather/scatter engines and tile fetch units of
its pages, engines and the graph sequencer. -/
def State.modCaches (s : State) (n : Nat) (f : ReqCache → ReqCache) : State :=
  let ps := (s.part n).pageList
  let t : State := { s with
    elems := s.elems.map fun (e, x) => if x.l.n = n then (e, { x with ports := x.ports.map f }) else (e, x)
    pages := (indexed 0 s.pages).map fun (k, g) => if ps.contains k then { g with gs := f g.gs, tf := f g.tf } else g }
  t.modPart n fun p =>
    { p with
      engines := p.engines.map fun (g, e) => (g, { e with cache := f e.cache })
      gs := { p.gs with cache := f p.gs.cache } }

/-- The tensor entries of some tids removed from every cache of a partition (R243, R245). -/
def State.dropDescs (s : State) (n : Nat) (gone : Nat → Bool) : State :=
  (s.modCaches n fun c => { c with desc := c.desc.filter fun d => !gone d.tid }).modPart n fun p =>
    { p with sliceDesc := p.sliceDesc.map fun l => l.filter fun d => !gone d.tid }

/-- The accesses of a partition that are outstanding and not withheld by a page request, by element and identity. -/
def State.outstanding (s : State) (n : Nat) : List (Nat × Nat) :=
  s.elems.flatMap fun (e, x) =>
    if x.l.n = n then (x.acc.filter fun a => !a.wait.withholds).map fun a => (e, a.id) else []

/-! ### TTINV (R245) -/

/-- The dirty lines and the version entries of a partition's slices that hold a write of some tids marked as owed: such a write is performed once its
line is written back, of an entry as the entry ends (R255, R268; log 56). -/
def State.oweLines (s : State) (n : Nat) (gone : Nat → Bool) : State :=
  (s.part n).pageList.foldl (fun t k => t.modPage k fun p =>
    { p with
      lines := p.lines.map fun l => if l.st = .dirty ∧ l.tids.any gone then { l with owed := true } else l
      vdir := p.vdir.map fun v => if v.tids.any gone then { v with owed := true } else v }) s

/-- Whether a slice of a partition still owes a line or a version entry. -/
def State.owes (s : State) (n : Nat) : Bool :=
  (s.part n).pageList.any fun k => ((s.page k).lines.any (·.owed)) || (s.page k).vdir.any (·.owed)

/-- TTINV_WRITE: the tid, or every tid, leaves the caches; BUSY is set. Ignored while BUSY is 1. -/
def execTtinvWrite (n v : Nat) (s : State) : Out :=
  if !(s.part n).answers || (s.part n).ttBusy then .next s
  else
    let gone (tid : Nat) : Bool := bit v 16 || tid == bits v 15 0
    .next (((s.dropDescs n gone).oweLines n gone).modPart n fun p =>
      { p with ttArg := BitVec.ofNat 17 v, ttBusy := true, ttWait := s.outstanding n })

/-- TTINV_COMPLETE: BUSY clears once every access that was outstanding at the write has been performed, or is withheld, and every line that
held a write of the old copy has been written back (R255). -/
def execTtinvComplete (n : Nat) (s : State) : Out :=
  let p := s.part n
  if !p.ttBusy || s.owes n || p.ttWait.any fun q => (s.outstanding n).contains q then .next s
  else .next (s.modPart n fun p => { p with ttBusy := false, ttWait := [] })

/-! ### MTINV (R372, R374) -/

/-- The sequencer's copy of the method table without an entry, or without every entry. -/
def Sequencer.dropMethods (g : Sequencer) (all : Bool) (k : Nat) : Sequencer :=
  if all then { g with loaded := false, methods := [], gone := [] }
  else if g.loaded then { g with methods := del k g.methods, gone := if g.gone.contains k then g.gone else g.gone ++ [k] }
  else g

/-- MTINV_WRITE: the entry, or every entry, leaves the sequencer's copy. Ignored while BUSY is 1, as for TTINV. -/
def execMtinvWrite (n v : Nat) (s : State) : Out :=
  if !(s.part n).answers || (s.part n).mtBusy then .next s
  else .next (s.modPart n fun p => { p with mtArg := BitVec.ofNat 17 (bits v 11 0 + 2 ^ 16 * bits v 16 16), mtBusy := true, gs := p.gs.dropMethods (bit v 16) (bits v 11 0) })

/-- MTINV_COMPLETE. -/
def execMtinvComplete (n : Nat) (s : State) : Out := .next (s.modPart n fun p => { p with mtBusy := false })

/-! ### PMINV (R381, R382) -/

/-- PMINV_WRITE: BUSY is set. A generator or fetch buffer keeps the program that it copied as it loaded it (R382), and the model
holds no other copy. -/
def execPminvWrite (n _v : Nat) (s : State) : Out :=
  if (s.part n).answers then .next (s.modPart n fun p => { p with pmBusy := true }) else .next s

/-- PMINV_COMPLETE. -/
def execPminvComplete (n : Nat) (s : State) : Out := .next (s.modPart n fun p => { p with pmBusy := false })

end Sys2Proof.Machine
end

