-- ==== Sys2Proof/Machine/Loader.lean ====
section
/-! DEFINITION. What the loader writes at stage 6 of a launch: patterns, tensor entries, method entries, data, chains and the state of
elements and regions (R26, R64, R75, R103, R226, R230, R243, R306, R329, R373, R382). -/

namespace Sys2Proof.Machine

/-- A refusal at a stage: the stage record. What was written before it stays (R243, R373, R382). -/
abbrev Stage := Except Nat State

/-! ### Patterns (R382) -/

/-- Words of pattern memory (R381). -/
def patternWords : Nat := 65536

/-- Which words of pattern memory hold zero; those of a page that the host does not map do not. -/
def State.zeroWords (s : State) (n : Nat) : List Bool :=
  (List.range 64).flatMap fun k =>
    match s.ioRead n ((s.part n).pmbase.toNat + 4096 * k) 4096 with
    | none => List.replicate 1024 false
    | some bs => (List.range 1024).map fun i => ((bs.drop (4 * i)).take 4).all (· == 0)

/-- The first place of a run of `n` true entries in a list that stands from place `k` on; `run` of them precede it. -/
def findRun (n : Nat) : Nat → Nat → List Bool → Option Nat
  | k, run, bs =>
    if n ≤ run then some (k - run)
    else match bs with
    | [] => none
    | b :: r => findRun n (k + 1) (if b then run + 1 else 0) r

/-- A pattern written to the lowest run of zero words from word 1 on; none where there is none. -/
def State.placePattern (s : State) (n : Nat) (ws : List Nat) : Option (Nat × State) :=
  (findRun ws.length 1 0 (s.zeroWords n).tail).map fun k =>
    (k, s.ioWrite n ((s.part n).pmbase.toNat + 4 * k) (ws.flatMap (toBytes 4)))

/-- The patterns of a launch placed, with their indices. -/
def State.placePatterns (n : Nat) : List (List Nat) → State → Except State (List Nat × State)
  | [], s => .ok ([], s)
  | w :: ws, s =>
    match s.placePattern n w with
    | none => .error s
    | some (k, t) =>
      match State.placePatterns n ws t with
      | .ok (ks, u) => .ok (k :: ks, u)
      | .error u => .error u

/-! ### Tensor entries (R243) -/

/-- The entry that a directive writes: VALID set, PAT the index at which its pattern stands. -/
def TensorRec.entryWith (r : TensorRec) (ks : List Nat) : BitVec 512 :=
  let d0 := dAt r.entry 0
  let p := bits d0 31 16
  let pat := if p = 0 then 0 else ks.getD (p - 1) 0
  BitVec.ofNat 512 (packNat 64 (setAt r.entry 0 (putBits (putBits d0 31 16 pat) 37 37 1)))

/-- The list entries of a pointer-form block, as pairs. -/
def listPairs : Nat → List Nat → List (Nat × Nat)
  | 0, _ => []
  | k + 1, ds => (dAt ds 0, dAt ds 1) :: listPairs k (ds.drop 2)

/-- Whether extent-list entries keep R239: fields zero, lengths 1 or more, rising and apart from `off` on. -/
def listOk : Nat → List (Nat × Nat) → Bool
  | _, [] => true
  | off, (a, b) :: r =>
    let x := listExt a b
    bits a 39 36 == 0 && bits b 63 57 == 0 && bits b 11 0 == 0 && decide (1 ≤ bits a 63 40) && decide (off ≤ x.off) && listOk (x.off + x.len) r

/-- Whether a directive's descriptor and extents keep R238 and R239. A pointer-form record whose NX differs from the entry's XCNT is refused here,
with 0x43, and not with the layout's 0x10 (DESIGN CHOICE, log 115). -/
def TensorRec.ok (r : TensorRec) (d : BitVec 512) : Bool :=
  descOk d && extsOk d &&
    (if dXp d then r.list.length == 2 * dXcnt d && listOk 0 (listPairs (dXcnt d) r.list) else r.list.isEmpty)

/-- The refusal of a tensor directive: 0x43, then 0x42. -/
def State.tensorErr (s : State) (n : Nat) (ks : List Nat) (r : TensorRec) : Option Nat :=
  let d := r.entryWith ks
  if (s.part n).ttlim.toNat < r.tid || !r.ok d then some 0x43
  else match s.ioRead n ((s.part n).ttbase.toNat + 64 * r.tid) 64 with
  | none => none
  | some bs =>
    let e := BitVec.ofNat 512 (ofBytes bs)
    if dValid e && e != d then some 0x42 else none

/-- A directive's entry, and its extent list at XPTR, written. -/
def State.tensorWrite (s : State) (n : Nat) (ks : List Nat) (r : TensorRec) : State :=
  let d := r.entryWith ks
  let t := if dXp d then s.ioWrite n (extWord d 0) (dBytes r.list) else s
  t.ioWrite n ((t.part n).ttbase.toNat + 64 * r.tid) (toBytes 64 d.toNat)

/-! ### Method entries (R373) -/

/-- The lowest empty entries of the method table, by index. -/
def State.emptyMethods (s : State) (n : Nat) : List Nat :=
  (List.range 32).flatMap fun k =>
    match s.ioRead n ((s.part n).mtbase.toNat + 4096 * k) 4096 with
    | none => []
    | some bs => (List.range 128).filterMap fun i =>
        if bits (ofBytes ((bs.drop (32 * i)).take 8)) 63 62 = 0 then some (128 * k + i) else none

/-- The method directives written to empty entries, with the launch's image (R373); the sequencer's copies of them are dropped. -/
def State.methodWrites (s : State) (n : Nat) (image : Dword) (ms : List (List Nat)) (free : List Nat) : State :=
  (ms.zip free).foldl (fun t (m, k) =>
    (t.ioWrite n ((t.part n).mtbase.toNat + 32 * k) (dBytes (setAt m 1 image.toNat))).modPart n fun p =>
      { p with gs := p.gs.dropMethods false k }) s

/-! ### Data and chains (R64, R70) -/

/-- A number that no page has: the loader stands on no page, and reads past every slice. -/
def noPage : Nat := 256

/-- A data record's bytes written where its object lies, read-only objects too; bytes that R241 refuses are not. -/
def State.dataWrite (s : State) (n : Nat) (r : DataRec) : State :=
  let ps := s.peekSpans n noPage (r.tok / 2 ^ 48) (r.tok % 2 ^ 48) r.bytes.length
  (ps.foldl (fun (x : State × List Byte) a => (x.1.ioWrite n a.1 (x.2.take a.2), x.2.drop a.2)) (s, r.bytes)).1

/-- The engine number of an engine code (R222). -/
def engOfCode (code : Nat) : Option Nat := if code / 64 = 0 then some code else if code = 0x40 then some linkEng else none

/-- The entries of a launch's chains in the order in which the loader appends them, each with its engine and rebased as CHAPP rebases (R64).
A chain record whose code names a queue, the sequencer, or an engine that the partition lacks is dropped: the spec gives no refusal for it
(DESIGN CHOICE, log 104). -/
def State.chainsOf (s : State) (l : Launch) (cs : List ChainRec) : List (Nat × List Dword) :=
  cs.flatMap fun c =>
    match engOfCode c.eng with
    | none => []
    | some g => if (s.part l.ref.n).hasEng g then c.entries.map fun e => (g, rebase l (e.map (BitVec.ofNat 64))) else []

/-! ### Elements (R75, R103, R306) -/

/-- An initial-state record applied to an element. -/
def Elem.init (x : Elem) (ds : List Nat) : Elem :=
  let a := dAt ds 0
  match bits a 63 56 with
  | 1 => { x with cur := { x.cur with regs := setAt x.cur.regs (bits a 7 0) ⟨.full, ofEls 64 ((ds.drop 1).take 8)⟩ } }
  | 2 => { x with cur := { x.cur with bars := modAt x.cur.bars (bits a 6 0) fun b => { b with exp := BitVec.ofNat 16 (bits a 31 16) } } }
  | 3 => { x with cur := { x.cur with scratch := x.cur.scratch.writeN (bits a 18 0) 16 (bits (dAt ds 1) 39 0) } }
  | 4 => { x with cur := { x.cur with
      scratch := x.cur.scratch.write (bits a 18 0) ((dBytes (ds.drop 2)).take (bits (dAt ds 1) 31 0)) } }
  | _ => x

/-- The element that a draft element becomes at a launch. -/
def DraftElem.start (d : DraftElem) (ref : LaunchRef) (j : Nat) (pword : Word) : Elem := d.e.inits.foldl Elem.init (d.elem ref j pword)

/-! ### Regions (R226, R230, R329, R337) -/

/-- The regions that a link-put entry of a chain names, as the source or the notify target of its entry (R315, R329). -/
def putRegions (cs : List ChainRec) : List Nat :=
  cs.flatMap fun c => c.entries.flatMap fun e =>
    if bits (dAt e 3) 63 61 != 4 then []
    else (if bit (dAt e 3) 59 then [bits (dAt e 0) 63 58] else []) ++ (if bits (dAt e 4) 63 62 != 0 then [bits (dAt e 4) 61 56] else [])

/-- The regions that method directives name. -/
def methodRegions (ms : List (List Nat)) : List Nat :=
  ms.filterMap fun m => if bits (dAt m 0) 63 62 = 1 ∨ bits (dAt m 0) 63 62 = 2 then some (bits (dAt m 2) 63 58) else none

/-- The binding table of an entry (R226); empty where BIND is 0 or the host does not map it. -/
def State.bindings (s : State) (n a : Nat) : List BindRec :=
  if a = 0 then []
  else match s.ioDword n a with
  | none => []
  | some k =>
    match s.ioDwords n (a + 8) (2 * k) with
    | none => []
    | some ds => (List.range k).map fun i =>
        let w := (ds.getD (2 * i + 1) 0).toNat
        ⟨(ds.getD (2 * i) 0).toNat, bits w 63 58, bit w 57, bits w 56 54, bits w 31 0⟩

/-- A region with a binding. -/
def Region.bound (g : Region) (b : BindRec) : Region :=
  let v : Bind := ⟨BitVec.ofNat 64 b.tok, b.count⟩
  if b.out then { g with outs := modAt g.outs b.port fun o => { o with bind := some v } }
  else { g with ins := modAt g.ins b.port fun i => { i with bind := some v } }

/-- The regions of a launch with their bindings: none of p7 of a region that a method names (R376). A linked port has none (check 0x1A). -/
def bindAll (gs : List Region) (bs : List BindRec) (named : List Nat) : List Region :=
  bs.foldl (fun hs b => if !b.out && b.port == 7 && named.contains b.reg then hs else modAt hs b.reg (·.bound b)) gs

/-- The launch state of a region kept as its cut 0 (R339, R436). -/
def State.launchCut (s : State) (r : RegionRef) : State :=
  match s.region? r with
  | none => s
  | some g =>
    if g.save = 0 then s
    else
      let vs := (s.regionElems r).map fun q => q.2.cutOf q.1 true q.2.cur.inBuf
      let ns := (indexed 0 g.streams).filterMap fun (k, q) => q.count.map fun n => (k, n)
      s.modRegion r fun h => { h with cuts := [⟨0, vs, ns⟩] }

end Sys2Proof.Machine
end

