-- ==== Sys2Proof/Machine/Launch.lean ====
section
/-! DEFINITION. The launch unit: the launch chain and queues, and the stages of an entry (R26, R65 to R67, R101, R216 to R228, R428,
R448); the events LCTAIL_WRITE, LCBASE_WRITE, TAKE_LAUNCH_ENTRY, START_ENTRY and PLACEMENT_RETRY. -/

namespace Sys2Proof.Machine

/-! ### Registers (R220, R221) -/

/-- LCBASE set to the NEXT field of the entry that was taken last, which is read only once a later entry has been appended (R222). -/
def State.lcNext (s : State) (n : Nat) : State :=
  let p := s.part n
  if !p.lcDue || !chainOpen p.lctail p.lchead then s
  else match s.ioDword n (p.lcbase.toNat + 8) with
  | some d => s.modPart n fun p => { p with lcbase := d, lcDue := false }
  | none => s.modPart n fun p => { p with lcCflt := true, lcDue := false }

/-- LCTAIL_WRITE. -/
def execLctailWrite (n v : Nat) (s : State) : Out :=
  if !(s.part n).answers then .next s
  else if lowersTail (s.part n).lctail (BitVec.ofNat 32 v) then .next (s.modPart n fun p => { p with lcBack := true })
  else .next ((s.modPart n fun p => { p with lctail := BitVec.ofNat 32 v }).lcNext n)

/-- LCBASE_WRITE. -/
def execLcbaseWrite (n v : Nat) (s : State) : Out :=
  if !(s.part n).answers then .next s
  else .next (s.modPart n fun p => { p with lcbase := BitVec.ofNat 64 v, lcCflt := false, lcDue := false })

/-! ### Entries (R222) -/

/-- Fields of a launch entry. -/
def QEntry.d (x : QEntry) (k : Nat) : Nat := (x.dw.getD k 0).toNat
def QEntry.kind (x : QEntry) : Nat := bits (x.d 3) 63 61
def entryQueue (dw : List Dword) : Nat := bits (dw.getD 3 0).toNat 60 58

/-- Whether an engine code of a dependence wait names an engine of a partition, or no wait. -/
def Part.wengOk (p : Part) (c : Nat) : Bool :=
  c == 0xFF || (match c / 64 with
    | 0 => decide (c < 2 * p.depotList.length)
    | 1 => c == 0x40
    | 2 => decide (c % 64 < 8)
    | _ => c == 0xC0)

/-- The sequence number that a wait watches. -/
def Part.wengSeq (p : Part) (c : Nat) : Word :=
  match c / 64 with
  | 0 => (p.eng c).seq
  | 1 => (p.eng linkEng).seq
  | 2 => p.qseq.getD (c % 64) 0
  | _ => p.gs.seq

/-- Whether a dependence wait is met (R224). -/
def Part.waitMet (p : Part) (v : Nat) : Bool :=
  bits v 63 56 == 0xFF || decide ((p.wengSeq (bits v 63 56) - BitVec.ofNat 32 v).toNat < 2 ^ 31)

/-- An entry placed at the tail of its queue; one whose wait names no engine completes at once with code 0x55. -/
def State.enqueue (s : State) (n : Nat) (dw : List Dword) (q iova : Nat) (fromDev : Bool) : State :=
  let p := s.part n
  let seq := (p.taken.getD q 0 + 1) % 2 ^ 32
  let x : QEntry := ⟨dw, iova, fromDev, seq, none⟩
  let t := s.modPart n fun p => { p with taken := setAt p.taken q seq }
  if p.wengOk (bits (x.d 4) 63 56) && p.wengOk (bits (x.d 5) 63 56) then
    t.modPart n fun p => { p with queues := modAt p.queues q (· ++ [x]) }
  else t.completeEntry n q x.place 0 (stageRec 0x55 0 0)

/-- TAKE_LAUNCH_ENTRY: an entry that a LAUNCH appended first, so that its place in its queue is the one that LAUNCH emitted (R235);
then the host chain. -/
def execTakeLaunchEntry (n : Nat) (s : State) : Out :=
  let p := s.part n
  if !p.enable then .next s
  else match p.append with
  | (dw, q) :: r => .next ((s.modPart n fun p => { p with append := r }).enqueue n dw q 0 true)
  | [] =>
    if p.lcCflt || !chainOpen p.lctail p.lchead then .next s
    else
      let a := p.lcbase.toNat
      match (if a % 64 = 0 then s.ioDwords n a 8 else none) with
      | none => .next (s.modPart n fun p => { p with lcCflt := true })
      | some dw =>
        .next (((s.modPart n fun p => { p with lchead := p.lchead + 1, lcDue := true }).enqueue n dw (entryQueue dw) a false).lcNext n)

/-! ### Refusals -/

/-- The head of a queue taken out of it. -/
def State.dequeue (s : State) (n q : Nat) : State := s.modPart n fun p => { p with queues := modAt p.queues q List.tail }

/-- An entry refused: it completes with its LOAD and STAGE records (R225). -/
def State.refuseEntry (s : State) (n q : Nat) (x : QEntry) (load stage : Nat) : State :=
  ((s.dequeue n q).idleQueue n q).completeEntry n q x.place load stage

/-! ### Admission (R101, R428, R448) -/

/-- Bytes that a partition word asks for (R101). -/
def pwordBytes (w : Word) : Nat := 64 * bits w.toNat 24 16 + 4096 * (bits w.toNat 15 8 + bits w.toNat 31 25)

/-- Whether a partition word is admitted. -/
def pwordOk (w : Word) : Bool :=
  decide (bits w.toNat 31 25 ≤ 96) && decide (bits w.toNat 15 8 ≤ 96) && decide (bits w.toNat 24 16 ≤ 256) && bits w.toNat 7 0 == 0 &&
  decide (pwordBytes w ≤ Config.poolBytes)

/-- The stage record of a launch that the power of the part refuses (R428). -/
def State.powerRefusal (s : State) (n q : Nat) : Option Nat :=
  let p := s.part n
  let f := p.flq.getD q 0
  if s.mgmt.capinf then some (stageRec 0x46 0 0)
  else if flqValid f && (p.counted.getD q none).isNone && (s.mgmt.floorx || decide (s.mgmt.sus < s.mgmt.fsum.toNat + flqShare f)) then
    some (stageRec 0x41 0 0)
  else none

/-- The stage record of a launch whose partition word or policy digest the admission refuses (R101, R448). -/
def State.headRefusal (s : State) (n : Nat) (h : Header) : Option Nat :=
  if !pwordOk h.pword then some (stageRec 0x40 0 (pwordBytes h.pword))
  else if (h.digest.any (· != 0)) && h.digest != (s.part n).pldig then some (stageRec 0x47 0 0)
  else none

/-! ### Validation (R65, R175) -/

/-- The dwords of an image's header; none where they cannot be read. -/
def State.readHeader (s : State) (n a : Nat) : Option (List Nat) :=
  if a % 128 ≠ 0 then none else (s.ioDwords n a headDwords).map fun hs => hs.map (·.toNat)

/-- The dwords of an image: its header, and then as many bytes as it says; none where they cannot be read. -/
def State.readImage (s : State) (n a : Nat) : Option (List Nat) :=
  match s.readHeader n a with
  | none => none
  | some hs => if (headerOf hs).len < 128 then some hs else (s.ioDwords n a ((headerOf hs).len / 8)).map fun ds => ds.map (·.toNat)

/-- The grants that the checks of an image need. -/
def State.grants (s : State) (n : Nat) (pword : Word) (nreg : Nat) : Grants := ⟨pword, (s.part n).depotList.length, nreg⟩

/-- The most variants that a region of an image has. -/
def Image.variants (m : Image) : Nat := (m.regions.map fun r => r.vars.length).foldl max 1

/-- The islands of an image, in declaration order. -/
def Image.islands (m : Image) : List Island := m.regions.flatMap (·.islands)

/-- The graph-check record of an image that fails R175 with a binding table. -/
def Image.graphErr (m : Image) (ref : LaunchRef) (vs : List (List (List DraftElem))) (bs : List BindRec) : Option Nat :=
  graphCheck ((List.range m.variants).map fun v => draftNet ref m vs fun j => (m.regions[j]?.map fun r => r.pick v).getD 0) m.islands bs

/-! ### A launch (R216 to R219, R190 to R198) -/

/-- The elements of placed regions, under the names of the device: every element of a region's rectangle, those with a record of the image as
it starts them (R306). -/
def placedElems (ref : LaunchRef) (m : Image) (vs : List (List (List DraftElem))) (spots : List Spot) : List (Nat × Elem) :=
  (indexed 0 (spots.zip (m.regions.zip vs))).flatMap fun (j, (p, r, v)) =>
    let ds := v.getD p.v []
    (List.range (4 * r.h)).flatMap fun row => (List.range (4 * r.w)).map fun col =>
      (p.elem (col, row), match ds.find? fun d => d.e.col == col && d.e.row == row with
        | some d => d.start ref j m.head.pword
        | none => freshElem ref j col row m.head.pword)

/-- How a launch comes out of placement and solving: refused with a stage record; it waits for pages; or its regions, its islands, whether
they are dyadic, and the tracks that it holds. -/
inductive Placed where
  | refused (stage : Nat)
  | waits
  | ok (gs : List Region) (is : List Island) (dyad : Bool) (tracks : TrackUse)

/-- Stage 5: ratios and voltages for the islands of regions that have been placed, and the arrangement of their borders. -/
def State.solveLaunch (s : State) (n : Nat) (x : QEntry) (m : Image) (a : Laid) (es : List (Nat × Elem)) : Placed :=
  let gs := a.regions (s.routable n) m.regions m.islands
  match feederPort gs 512 m.head.rreg m.head.rport with
  | none => .refused (ttRecord 0x24 0 0 ⟨0, 1⟩ 0)
  | some (e, port) =>
    let floor := flqFloor ((s.part n).flq.getD (entryQueue x.dw) 0)
    match s.solve ⟨gs, es, fun _ => 0⟩ (m.islands.map fun i => { i with floor := floor }) ⟨m.head.rtok, m.head.rcyc, e, port⟩ with
    | .no r => .refused r
    | .ok is dyad limits =>
      match pairEdges is (a.borders gs) a.sidings with
      | some b => let d := limits.getD b (⟨0, 1⟩, 0); .refused (ttRecord 0x22 b 0 d.1 d.2)
      | none => .ok (gs.map (Region.arranged is)) is dyad a.own

/-- Stages 4 and 5: spots and routes for every region; a launch that finds none waits, but for one that would find none in an otherwise empty
partition either (R218). -/
def State.placeLaunch (s : State) (n : Nat) (x : QEntry) (m : Image) (elems : List Spot → List (Nat × Elem)) : Placed × List Spot :=
  let vs := if bit (x.d 3) 57 then [bits (x.d 3) 56 55] else [0, 1, 2, 3]
  match s.layout n vs m.regions m.islands s.busyPages (s.busyTracks n) with
  | .ok a => (s.solveLaunch n x m a (elems a.spots), a.spots)
  | .error _ =>
    match s.layout n vs m.regions m.islands [] [] with
    | .error k => (.refused (stageRec 0x30 k 0), [])
    | .ok _ => (.waits, [])

/-- The regions of a launch with what the loader marks in them: variants, link puts, methods and bindings. -/
def readyRegions (m : Image) (spots : List Spot) (bs : List BindRec) (gs : List Region) : List Region :=
  let put := putRegions m.chains
  let named := methodRegions m.methods
  bindAll ((indexed 0 gs).map fun (j, g) =>
    { g with variant := ((spots[j]?).map (·.v)).getD 0, putBy := put.contains j, method := named.contains j }) bs named

/-- Stage 6: patterns, tensor entries, methods and data; the refusal of one that cannot be written. -/
def State.loadTables (s : State) (l : Launch) (m : Image) : Except (Nat × State) State :=
  let n := l.ref.n
  match State.placePatterns n m.patterns s with
  | .error t => .error (0x45, t)
  | .ok (ks, t0) =>
    let t := if m.patterns.isEmpty then t0 else t0.modPart n fun p => { p with pmBusy := true }
    match m.tensors.findSome? (t.tensorErr n ks) with
    | some c => .error (c, t)
    | none =>
      let tids := m.tensors.map (·.tid)
      let u := (m.tensors.foldl (fun v r => v.tensorWrite n ks r) t).dropDescs n fun k => tids.contains k
      let free := u.emptyMethods n
      if free.length < m.methods.length then .error (0x44, u)
      else
        let v := u.methodWrites n l.image m.methods free
        let w := if m.methods.isEmpty then v else v.modPart n fun p => { p with mtBusy := true }
        .ok (m.data.foldl (fun z r => z.dataWrite n r) w)

/-- Stages 6 to 8: a launch that has been placed and solved is loaded and runs. -/
def State.runLaunch (s : State) (n q : Nat) (x : QEntry) (m : Image) (vs : List (List (List DraftElem))) (spots : List Spot)
    (gs : List Region) (is : List Island) (dyad : Bool) (tracks : TrackUse) : State :=
  let ref : LaunchRef := ⟨n, q, x.seq⟩
  let es := placedElems ref m vs spots
  let l0 := { freshLaunch ref (readyRegions m spots (s.bindings n (x.d 2)) gs) is with
    entry := x.iova
    fromDev := x.fromDev
    image := BitVec.ofNat 64 (x.d 0)
    policy := if m.head.digest.any (· != 0) then m.head.digest else []
    pword := m.head.pword
    rateReg := m.head.rreg
    ratePort := m.head.rport
    rateN := m.head.rtok
    rateC := m.head.rcyc
    hyper := hyperOf is
    fDyad := dyad
    iter := (s.part n).eqiter.toNat
    tracks := tracks }
  let l := { l0 with chains := s.chainsOf l0 m.chains }
  match s.loadTables l m with
  | .error (c, t) => t.refuseEntry n q x 0 (stageRec c 0 0)
  | .ok t =>
    let u : State := { t with elems := es.foldl (fun a (e, y) => put e y a) t.elems }
    let v := (u.dequeue n q).modPart n fun p => { p with launches := p.launches ++ [l] }
    let w := l.pages.foldl (fun z k => z.modPage k fun p => { p with energy := 0 }) v
    let y := (List.range gs.length).foldl (fun z j => (z.startStreams ⟨ref, j⟩ false).launchCut ⟨ref, j⟩) w
    (y.markRegions ref).feedChains n

/-- Stages 4 on of a launch whose image has been read: it is refused, waits with its image, or runs. -/
def State.tryLaunch (s : State) (n q : Nat) (x : QEntry) (ds : List Nat) (m : Image) (vs : List (List (List DraftElem))) : State :=
  match s.placeLaunch n x m (placedElems ⟨n, q, x.seq⟩ m vs) with
  | (.refused r, _) => s.refuseEntry n q x 0 r
  | (.waits, _) => s.modPart n fun p => { p with queues := modAt p.queues q fun l => modAt l 0 fun y => { y with img := some ds } }
  | (.ok gs is dyad tracks, spots) => s.runLaunch n q x m vs spots gs is dyad tracks

/-- Stages 2 and 3 of a launch, and what follows (R26): the admission asks of the part's power first, which needs nothing of the image, and
then of the image's header; what stands behind the header is read after that. -/
def State.beginLaunch (s : State) (n q : Nat) (x : QEntry) : State :=
  match s.powerRefusal n q with
  | some r => s.refuseEntry n q x 0 r
  | none =>
    match s.readHeader n (x.d 0) with
    | none => s.refuseEntry n q x ({ code := 0x10 : LoadErr }).word 0
    | some hs =>
      match s.headRefusal n (headerOf hs) with
      | some r => s.refuseEntry n q x 0 r
      | none =>
        let t := s.count n q
        match s.readImage n (x.d 0) with
        | none => t.refuseEntry n q x ({ code := 0x10 : LoadErr }).word 0
        | some ds =>
          match imageOf false ds with
          | .error e => t.refuseEntry n q x e.word 0
          | .ok m =>
            match validate (t.grants n m.head.pword m.head.nreg) false m with
            | .error e => t.refuseEntry n q x e.word 0
            | .ok vs =>
              match m.graphErr ⟨n, q, x.seq⟩ vs (t.bindings n (x.d 2)) with
              | some r => t.refuseEntry n q x 0 r
              | none => t.tryLaunch n q x ds m vs

/-! ### Reconfiguration (R24, R228) -/

/-- The launch that a reconfigure entry names. -/
def QEntry.target (x : QEntry) (n : Nat) : LaunchRef := ⟨n, bits (x.d 3) 34 32, bits (x.d 3) 31 0⟩

/-- The region that a reconfigure entry names. -/
def QEntry.region (x : QEntry) : Nat := bits (x.d 3) 54 49

/-- Bytes that an element's shadow context holds (R228). -/
def shadowBytes : Nat := 448

/-- The new contexts of a region, under device element names. -/
def Region.newCtxs (g : Region) (vs : List (List DraftElem)) : List (Nat × List (Nat × Option Ctx)) :=
  (vs.getD (min g.variant (vs.length - 1)) []).map fun d =>
    ((⟨0, g.ox, g.oy⟩ : Spot).elem (d.e.col, d.e.row), d.ctxs.map fun c => (c.1, some c.2))

/-- The shadow contexts of a region's elements loaded, and its wavefront set to wait for admission. -/
def State.loadShadow (s : State) (r : RegionRef) (g : Region) (x : QEntry) (vs : List (List DraftElem)) : State :=
  let new := g.newCtxs vs
  let t := s.modRegionElems r fun y => { y with shadow := [], switched := false }
  let u := new.foldl (fun v (e, cs) => v.modElem e fun y => if y.rref = r then { y with shadow := cs } else y) t
  u.modRegion r fun h => { h with wave := some ⟨entryQueue x.dw, x.place, false⟩ }

/-- Whether a reconfigure image gives a context to an element that is out of use, which R2 and R216 forbid. -/
def State.outOfUse (s : State) (g : Region) (recs : List ElemRec) : Bool :=
  recs.any fun e => !s.inUse ((⟨0, g.ox, g.oy⟩ : Spot).shift (e.col, e.row))

/-- A reconfigure entry: refused, or its shadow contexts are loaded. One that would use an element that is out of use is refused as a placement
that the partition cannot give, with 0x30: the spec names no code for it (R2, R216; DESIGN CHOICE, log 120). -/
def State.reconfigure (s : State) (n q : Nat) (x : QEntry) (l : Launch) (g : Region) (raw : Bool) : State :=
  match s.readImage n (x.d 0) with
  | none => s.refuseEntry n q x ({ code := 0x10 : LoadErr }).word 0
  | some ds =>
    match imageOf raw ds with
    | .error e => s.refuseEntry n q x e.word 0
    | .ok m =>
      match validate (s.grants n l.pword l.regions.length) raw m with
      | .error e => s.refuseEntry n q x e.word 0
      | .ok vs =>
        let j := if x.region < vs.length then x.region else 0
        let recs := ((m.regions[j]?).map fun r => ((r.vars[min g.variant (r.vars.length - 1)]?).map (·.elems)).getD []).getD []
        if recs.any fun e => decide (shadowBytes < (e.ctxs.map CtxRec.bytes).sum) then s.refuseEntry n q x 0 (stageRec 0x53 x.region 0)
        else if s.outOfUse g recs then s.refuseEntry n q x 0 (stageRec 0x30 x.region 0)
        else (s.dequeue n q).loadShadow ⟨l.ref, x.region⟩ g x (vs.getD j [])

/-! ### START_ENTRY and PLACEMENT_RETRY (R218, R224) -/

/-- Whether the head of a queue may start: both waits are met, it does not wait for pages, and no other wavefront is on its way in the
region that it names. -/
def State.startable (s : State) (n : Nat) (x : QEntry) : Bool :=
  let p := s.part n
  x.img.isNone && p.waitMet (x.d 4) && p.waitMet (x.d 5) &&
  (x.kind == 0 || ((s.region? ⟨x.target n, x.region⟩).map fun g => g.wave.isNone).getD true)

/-- The LQPRI level of a queue. -/
def Part.level (p : Part) (q : Nat) : Nat := bits p.lqpri.toNat (2 * q + 1) (2 * q)

/-- The queue that a level serves: the first, beginning after the one served last, whose head may start. -/
def State.serves (s : State) (n lvl : Nat) : Option Nat :=
  let p := s.part n
  ((List.range 8).map fun k => (p.qlast.getD lvl 7 + 1 + k) % 8).find? fun q =>
    p.level q == lvl && (((p.queues.getD q []).head?).map (s.startable n)).getD false

/-- The head of a queue begun. -/
def State.beginEntry (s : State) (n q : Nat) (x : QEntry) : State :=
  match x.kind with
  | 0 => s.beginLaunch n q x
  | 1 | 2 =>
    if x.kind = 2 ∧ x.fromDev then s.refuseEntry n q x 0 (stageRec 0x51 0 0)
    else match s.launch? (x.target n), s.region? ⟨x.target n, x.region⟩ with
    | some l, some g => s.reconfigure n q x l g (x.kind == 2)
    | _, _ => s.refuseEntry n q x 0 (stageRec 0x52 0 0)
  | _ => s.refuseEntry n q x 0 (stageRec 0x50 0 0)

/-- START_ENTRY: the highest level that has a startable head, and the next queue of that level. -/
def execStartEntry (n : Nat) (s : State) : Out :=
  if !(s.part n).enable then .next s
  else match (List.range 4).findSome? fun lvl => (s.serves n lvl).map fun q => (lvl, q) with
  | none => .next s
  | some (lvl, q) =>
    match ((s.part n).queues.getD q []).head? with
    | none => .next s
    | some x => .next ((s.modPart n fun p => { p with qlast := setAt p.qlast lvl q }).beginEntry n q x)

/-- A head that waits for pages tries again with the image that it has read (R67, R218). -/
def State.retryQueue (s : State) (n q : Nat) : State :=
  match ((s.part n).queues.getD q []).head? with
  | none => s
  | some x =>
    match x.img with
    | none => s
    | some ds =>
      match imageOf false ds with
      | .error _ => s
      | .ok m =>
        match validate (s.grants n m.head.pword m.head.nreg) false m with
        | .error _ => s
        | .ok vs => s.tryLaunch n q x ds m vs

/-- PLACEMENT_RETRY: every head that waits for pages tries again, the highest level first. -/
def execPlacementRetry (n : Nat) (s : State) : Out :=
  if !(s.part n).enable then .next s
  else .next (((List.range 4).flatMap fun lvl => (List.range 8).filter fun q => (s.part n).level q == lvl).foldl (fun t q => t.retryQueue n q) s)

end Sys2Proof.Machine
end

