-- ==== Sys2Proof/Machine/Observation.lean ====
section
/-! DEFINITION. What the host and the operator load and read to observe a partition: break bits, the disclosure policy with its SHA3-512
digest, and coarsened counts; the events BKCMD_WRITE, PLCMD_LOAD and OCVAL_READ (R443 to R454). -/

namespace Sys2Proof.Machine

/-! ### SHA3-512 (R445; FIPS 202) -/

/-- The state of the permutation: five planes of five lanes, lane x of plane y at column x. -/
abbrev Planes := List (List Dword)

/-- Two planes joined lane by lane. -/
def joinPlane (p q : List Dword) : List Dword := List.zipWith (· ^^^ ·) p q

/-- θ: every lane takes the parities of the columns beside its own. -/
def mixColumns (s : Planes) : Planes :=
  let par := s.foldl joinPlane (List.replicate 5 0)
  s.map fun p => joinPlane p (joinPlane (par.rotateRight 1) ((par.rotateLeft 1).map (·.rotateLeft 1)))

/-- How far ρ turns each lane but that at the origin, by column and plane: the walk from (1, 0) on which a lane at (x, y) goes to
(y, 2x + 3y), turned at step t by the triangular number of t + 1. -/
def turnWalk : Nat → Nat → Nat → Nat → List ((Nat × Nat) × Nat)
  | 0, _, _, _ => []
  | n + 1, t, x, y => ((x, y), (t + 1) * (t + 2) / 2 % 64) :: turnWalk n (t + 1) y ((2 * x + 3 * y) % 5)

/-- π after ρ: the lane that comes to column x of plane y, turned. -/
def turnLanes (turns : List ((Nat × Nat) × Nat)) (s : Planes) : Planes :=
  (List.range 5).map fun y => (List.range 5).map fun x =>
    let u := (x + 3 * y) % 5
    ((s.getD x []).getD u 0).rotateLeft (((turns.find? fun q => q.1 == (u, x)).map (·.2)).getD 0)

/-- χ: a lane is turned over where the next one is 0 and the one after it 1. -/
def mixRows (s : Planes) : Planes :=
  s.map fun p => joinPlane p (List.zipWith (fun a b => ~~~a &&& b) (p.rotateLeft 1) (p.rotateLeft 2))

/-- The shift register behind the constants of ι, moved on by one. -/
def lfsrNext (r : Nat) : Nat := if 128 ≤ r then (2 * r) ^^^ 0x171 else 2 * r

/-- The constant of a round, and the register after it: seven bits of the register, at the places one below the powers of 2. -/
def roundConst : Nat → Nat → Nat → Nat × Nat
  | 0, _, r => (0, r)
  | n + 1, place, r =>
    let (v, r') := roundConst n (2 * place) (lfsrNext r)
    (r % 2 * 2 ^ (place - 1) + v, r')

/-- Rounds of the permutation, with the register of ι. -/
def permRounds (turns : List ((Nat × Nat) × Nat)) : Nat → Nat → Planes → Planes
  | 0, _, s => s
  | n + 1, r, s =>
    let (c, r') := roundConst 7 1 r
    permRounds turns n r' (modAt (mixRows (turnLanes turns (mixColumns s))) 0 fun p => modAt p 0 (· ^^^ BitVec.ofNat 64 c))

/-- The permutation: 24 rounds. -/
def permute (s : Planes) : Planes := permRounds (turnWalk 24 0 1 0) 24 1 s

/-- Bytes that SHA3-512 takes at a time. -/
def sha3Rate : Nat := 72

/-- A block of bytes as the lanes that it is joined to. -/
def blockPlanes (bs : List Byte) : Planes :=
  (List.range 5).map fun y => (List.range 5).map fun x => BitVec.ofNat 64 (ofBytes ((bs.drop (8 * (5 * y + x))).take 8))

/-- The padding of a message: 01 and 1 bits at both ends of what fills the last block. -/
def sha3Pad (len : Nat) : List Byte :=
  match sha3Rate - len % sha3Rate with
  | 1 => [0x86]
  | k => 6 :: List.replicate (k - 2) 0 ++ [0x80]

/-- Blocks taken one after another. -/
def absorbBlocks : Nat → List Byte → Planes → Planes
  | 0, _, s => s
  | n + 1, m, s => absorbBlocks n (m.drop sha3Rate) (permute (List.zipWith joinPlane s (blockPlanes (m.take sha3Rate))))

/-- SHA3-512. -/
def sha3_512 (m : List Byte) : List Byte :=
  let s := absorbBlocks (m.length / sha3Rate + 1) (m ++ sha3Pad m.length) (List.replicate 5 (List.replicate 5 0))
  (s.flatten.take 8).flatMap fun w => toBytes 8 w.toNat

/-! ### Break bits (R443) -/

/-- A block with a break bit set or cleared; a slot that the block does not have is ignored. -/
def Block.setBrk (b : Block) (slot : Nat) (v : Bool) : Block := { b with brk := setAt b.brk slot v }

/-- A context with the break bit of a slot of its body or its epilogue set or cleared. -/
def Ctx.setBrk (c : Ctx) (epi : Bool) (slot : Nat) (v : Bool) : Ctx :=
  if epi then { c with epi := c.epi.map fun b => b.setBrk slot v } else { c with body := c.body.setBrk slot v }

/-- A set of an element with a break bit set or cleared. -/
def ESet.setBrk (z : ESet) (ctx : Nat) (epi : Bool) (slot : Nat) (v : Bool) : ESet :=
  { z with ctxs := modAt z.ctxs ctx fun c => c.map fun d => d.setBrk epi slot v }

/-- An entry of a break-bit list applied to the element that it names; the working set of a swapped-out region is the inactive one
(R342). -/
def State.applyBreak (s : State) (n w : Nat) : State :=
  { s with elems := s.elems.map fun (e, x) =>
      if x.l.n == n && x.reg == bits w 63 58 && x.col == bits w 57 52 && x.row == bits w 51 46 then
        let f (z : ESet) := z.setBrk (bits w 45 44) (bit w 43) (bits w 42 37) (bit w 0)
        let out := ((s.region? x.rref).map (·.out)).getD false
        (e, if out then { x with alt := f x.alt } else { x with cur := f x.cur })
      else (e, x) }

/-- BKCMD_WRITE: entries 0 to n − 1 of the list, 4,096 of them for 0; they take effect in order, before anything else happens. -/
def execBkcmdWrite (n v : Nat) (s : State) : Out :=
  if !(s.part n).answers then .next s
  else
    let k := if v % 4096 = 0 then 4096 else v % 4096
    .next ((List.range k).foldl (fun t i =>
      match t.ioDword n ((t.part n).bklist.toNat + 8 * i) with
      | some w => t.applyBreak n w
      | none => t) s)

/-! ### The disclosure policy (R444 to R449) -/

/-- Bytes of a policy object, and of its body (R445). -/
def policyBytes : Nat := 4755
def policyBody : Nat := 128

/-- Dword `k` of a policy. -/
def polDword (b : List Byte) (k : Nat) : Nat := ofBytes ((b.drop (8 * k)).take 8)

/-- Whether a class dword keeps to R445. -/
def polClassOk (k d : Nat) : Bool :=
  let gran := bits d 2 0
  let quant := bits d 7 3
  let addr := bits d 10 8
  bits d 63 11 == 0 && decide (addr ≤ 4) && decide (gran ≤ 5) &&
  (k == clAddr || addr == 0) && ((k != clAddr && k != clNode) || quant == 0) && (k != clAddr || gran == 0)

/-- Whether VERSION, the reserved fields and the codes keep to R445. -/
def polFormOk (b : List Byte) : Bool :=
  bits (polDword b 0) 63 56 == 1 && bits (polDword b 0) 55 20 == 0 &&
  ((List.range 6).all fun k => polClassOk k (polDword b (2 + k))) &&
  (List.range 8).all fun k => polDword b (8 + k) == 0

/-- The code of a policy that has been read (R446). -/
def Part.policyCode (p : Part) (b : List Byte) : Nat :=
  let dig := sha3_512 (b.take policyBody)
  if !polFormOk b then 0x02
  else if bits (polDword b 0) 19 0 != p.pasid.toNat then 0x03
  else if polDword b 1 ≤ p.serial.toNat then 0x04
  else if !Config.mldsaVerify p.key dig (b.drop policyBody) then 0x05
  else if p.launches.any fun l => l.policy != [] && l.policy != dig then 0x06
  else 0

/-- A policy put in force. -/
def Part.loadPolicy (p : Part) (b : List Byte) : Part :=
  let c := p.policyCode b
  if c = 0 then
    { p with
      plcode := 0
      serial := BitVec.ofNat 64 (polDword b 1)
      pldig := sha3_512 (b.take policyBody)
      classes := (List.range 6).map fun k => BitVec.ofNat 64 (polDword b (2 + k)) }
  else { p with plcode := BitVec.ofNat 8 c }

/-- PLCMD_LOAD: the load is done before anything else happens. -/
def execPlcmdLoad (n : Nat) (s : State) : Out :=
  let p := s.part n
  if !p.answers || p.plBusy then .next s
  else match s.ioRead n p.pladdr.toNat policyBytes with
    | none => .next (s.modPart n fun p => { p with plcode := 1 })
    | some b => .next (s.modPart n fun p => p.loadPolicy b)

/-! ### OCVAL (R450, R451, R453, R454) -/

/-- Fields of OCSEL. -/
def ocPart (v : Dword) : Nat := bits v.toNat 31 27
def ocCls (v : Dword) : Nat := bits v.toNat 26 24
def ocUnit (v : Dword) : Nat := bits v.toNat 23 8
def ocPort (v : Dword) : Nat := bits v.toNat 7 0

/-- The policy class that coarsens an OCSEL class (R445). -/
def ocPolicy (cls : Nat) : Nat :=
  match cls with
  | 0 => clStall
  | 2 => clEnergy
  | _ => clOcc

/-- The islands of a partition's launches, as lists of device pages. -/
def Part.islandsPages (p : Part) : List (List Nat) := p.launches.flatMap fun l => l.islands.map l.pagesOf

/-- UNIT of a page source at a level; under element granularity it is reported at its own (R450). -/
def State.pageUnit (s : State) (n page gran : Nat) : Nat :=
  match gran with
  | 1 => n
  | 2 => depotOf page
  | 3 => (((s.part n).islandsPages.find? fun ps => ps.contains page).map fun ps => ps.foldl min page).getD page
  | _ => page

/-- The UNIT values that a class has in a partition at a level. -/
def State.units (s : State) (n cls gran : Nat) : List Nat :=
  let p := s.part n
  if gran = 5 ∧ cls ≤ 1 then p.pageList.flatMap fun k => (List.range 16).map (16 * k + ·)
  else match gran with
    | 1 => [n]
    | 2 => p.depotList
    | 3 => p.islandsPages.map fun ps => ps.foldl min (ps.headD 0)
    | _ => p.pageList

/-- The rounded contributions of a class to a UNIT (R451): of an element's ports, of all of them where they are merged; of an element's
occupancy; of a page's meter or its slice. -/
def State.contributions (s : State) (n cls gran quant unit port : Nat) : List Nat :=
  let es := s.elems.filter fun q => q.2.l.n == n && s.unitOf n q.1 q.2 gran == unit
  let ps := (s.part n).pageList.filter fun k => s.pageUnit n k gran == unit
  match cls with
  | 0 =>
    if gran = 5 then es.map fun q => roundDown (q.2.cur.stall.getD port 0).toNat quant
    else es.flatMap fun q => q.2.cur.stall.map fun v => roundDown v.toNat quant
  | 1 => es.map fun q => roundDown q.2.cur.occ.toNat quant
  | 2 => ps.map fun k => roundDown (s.page k).energy.toNat quant
  | 3 => ps.map fun k => roundDown (s.page k).validLines quant
  | _ => ps.map fun k => roundDown (s.page k).pinnedLines quant

/-- Whether PORT names something (R454). -/
def ocPortOk (cls gran port : Nat) : Bool := if cls = 0 ∧ gran = 5 then decide (port < 16) else port == 0xFF

/-- The value of OCVAL, the meters having been read (R451, R453, R454). -/
def State.ocValue (s : State) : Dword :=
  let v := s.mgmt.ocsel
  let n := ocPart v
  let p := s.part n
  let cls := ocCls v
  let g := p.gran (ocPolicy cls)
  if cls = 2 ∧ ocUnit v = 0xFFFF then p.eqtotal
  else if 4 < cls ∨ g = 0 ∨ !(s.units n cls g).contains (ocUnit v) ∨ !ocPortOk cls g (ocPort v) then BitVec.allOnes 64
  else BitVec.ofNat 64 (s.contributions n cls g (p.quant (ocPolicy cls)) (ocUnit v) (ocPort v)).sum

/-- OCVAL_READ. -/
def execOcvalRead (s : State) : Out :=
  .next { s with mgmt := { s.mgmt with ocval := s.ocValue } }

end Sys2Proof.Machine
end

