-- ==== Sys2Proof/Machine/Sequencer.lean ====
section
/-! DEFINITION. The graph sequencer (R230, R372 to R379, R405): its registers, tasks, pieces, conversions and failures; the events
GSTAIL_WRITE, GSBASE_WRITE, GSCMD_SKIP, GSCMD_RETRY, TAKE_TASK, PIECE_START and PIECE_COMPLETE. -/

namespace Sys2Proof.Machine

/-! ### Registers (R372, R375) -/

/-- The state with the graph sequencer of a partition changed. -/
def State.modGs (s : State) (n : Nat) (f : Sequencer → Sequencer) : State := s.modPart n fun p => { p with gs := f p.gs }

/-- Whether a record of the sequencer waits. -/
def Sequencer.boxed (g : Sequencer) : Bool := g.waiting.isSome || g.opWaiting.isSome

/-- Host write of GSTAIL: as ENTAIL (R314). -/
def execGstailWrite (n v : Nat) (s : State) : Out :=
  if !(s.part n).answers then .next s
  else .next (s.modGs n fun g =>
    if lowersTail g.tail (BitVec.ofNat 32 v) then { g with back := true } else { g with tail := BitVec.ofNat 32 v })

/-- Host write of GSBASE: as ENBASE (R314). -/
def execGsbaseWrite (n v : Nat) (s : State) : Out :=
  if !(s.part n).answers then .next s else .next (s.modGs n fun g => { g with base := BitVec.ofNat 64 v, cflt := false })

/-! ### Tasks (R375) -/

/-- Fields of a task descriptor. -/
def Task.d (t : Task) (k : Nat) : Nat := (t.dw.getD k 0).toNat
def Task.op (t : Task) : Nat := bits (t.d 0) 63 52
def Task.nops (t : Task) : Nat := bits (t.d 0) 51 50
def Task.n0 (t : Task) : Nat := bits (t.d 4) 15 0
def Task.n1 (t : Task) : Nat := bits (t.d 4) 31 16
def Task.status (t : Task) : Nat := bits (t.d 7) 63 56

/-- Tid and tile origin of an operand's dword. -/
def opTid (v : Nat) : Nat := bits v 63 48
def opT1 (v : Nat) : Nat := bits v 47 32
def opT0 (v : Nat) : Nat := bits v 31 16

/-- A task as it is taken. -/
def newTask (dw : List Dword) (iova : Option Nat) (seq : Nat) (src : Option TaskSrc) : Task :=
  ⟨setAt dw 7 (BitVec.ofNat 64 seq), iova, seq, src, false, [], [], false, .no⟩

/-- The state with a task changed. -/
def State.modTask (s : State) (n seq : Nat) (f : Task → Task) : State :=
  s.modGs n fun g => { g with tasks := g.tasks.map fun t => if t.seq = seq then f t else t }

/-- A task of a partition's sequencer. -/
def State.task? (s : State) (n seq : Nat) : Option Task := (s.part n).gs.tasks.find? (·.seq == seq)

/-- A task with its STATUS set. -/
def Task.withStatus (t : Task) (code : Nat) : Task :=
  { t with dw := modAt t.dw 7 fun v => BitVec.ofNat 64 (putBits v.toNat 63 56 code) }

/-- A host task's STATUS and SEQ written where it stands (R375). -/
def State.taskStatus (s : State) (n : Nat) (t : Task) : State :=
  match t.iova with
  | some a => s.ioPut n (a + 56) (t.d 7)
  | none => s

/-! ### Failures (R359, R378) -/

/-- The failure of a task: of a TDISP task at its slot, where its element still stands; of a host task in STATUS, with STOP and a record.
A second failure waits until the first has been dealt with. -/
def State.taskFail (s : State) (n : Nat) (t : Task) (code cls cause : Nat) (addr detail : Dword) : State :=
  match t.src with
  | some q =>
    let u := s.modTask n t.seq fun x => { x.withStatus code with stopped := true, wait := .no }
    (match u.elem? q.e with
     | some x => if x.l = q.l then u.raise ⟨q.e, q.no, q.epi, q.slot⟩ cls cause addr detail else u
     | none => u)
  | none =>
    let g := (s.part n).gs
    if g.stop || g.boxed then s
    else
      let t' := { t.withStatus code with stopped := true, wait := .no }
      let u := (s.taskStatus n t').modTask n t.seq fun _ => t'
      let r := chainRecord cls cause 0xC0 t.seq detail
      (u.modGs n fun g => { g with stop := true, waiting := some r, opWaiting := some (u.engineRecord n 0 r) }).msi n 2

/-- A stop of a task's reads: bounds, or a refused translation. -/
def State.taskStop (s : State) (n : Nat) (t : Task) (c : Stop) : State :=
  let (cls, cause, d, addr) := s.stopRec n 0 0 c
  s.taskFail n t (if cls = tcXlate then 0x72 else 0x71) cls cause addr d

/-- The key of a piece. -/
def Task.key (t : Task) (p : Piece) : Key := ⟨t.op, t.nops, p.tags.map (·.toNat)⟩

/-- DETAIL of a no-method trap. -/
def Key.detail (k : Key) : Dword :=
  BitVec.ofNat 64 (k.op * 2 ^ 52 + k.nops * 2 ^ 50 + (k.tags.getD 0 0) + (k.tags.getD 1 0) * 2 ^ 10 + (k.tags.getD 2 0) * 2 ^ 20)

/-- A no-method trap, with the cause of R378. -/
def State.noMethod (s : State) (n : Nat) (t : Task) (p : Piece) (cause : Nat) : State :=
  s.taskFail n t 0x70 tcNoMethod cause 0 (t.key p).detail

/-! ### Cutting a task into pieces (R376) -/

/-- A stop with the address token of the access that it belongs to. -/
def XRes.at {α : Type} (r : XRes α) (n : Nat) (tok : Dword) : XRes α :=
  match r with
  | .stop c t =>
    let (cls, cause, d, addr) := t.stopRec n 0 tok c
    .stop (.trap cls cause d.toNat addr.toNat) t
  | x => x

/-- The tag of an operand's tile at a position; a position outside the operand's tiles is out of bounds (R358). -/
def State.tagAt (s : State) (n : Nat) (t : Task) (p k : Nat) : XRes Nat :=
  let q := Req.seq n
  let v := t.d (1 + k)
  let t0 := opT0 v + p % t.n0
  let t1 := opT1 v + p / t.n0
  XRes.at ((s.object n q (opTid v)).bind fun o u =>
    if nt0 o.d ≤ t0 ∨ nt1 o.d ≤ t1 then .stop (.bounds 10) u
    else (u.tagEntry n q o ⟨t0, t1, 0, 0, t0 + nt0 o.d * t1⟩ false).bind fun r w => .ok (effTag o r.1) w)
    n (BitVec.ofNat 64 (opTid v * 2 ^ 48))

/-- The keys of positions `[p, p + k)`. -/
def State.keysFrom (s : State) (n : Nat) (t : Task) : Nat → Nat → XRes (List (List Nat))
  | 0, _ => .ok [] s
  | k + 1, p =>
    match xmap (fun j u => u.tagAt n t p j) (List.range t.nops) s with
    | .wait w u => .wait w u
    | .stop c u => .stop c u
    | .ok ts u => (u.keysFrom n t k (p + 1)).bind fun r v => .ok (ts :: r) v

/-- Maximal runs of equal keys: first position, length, key. -/
def runsOf : Nat → List (List Nat) → List (Nat × Nat × List Nat)
  | _, [] => []
  | p, k :: ks =>
    match runsOf (p + 1) ks with
    | (q, m, j) :: r => if k = j then (p, m + 1, k) :: r else (p, 1, k) :: (q, m, j) :: r
    | [] => [(p, 1, k)]

/-- The pieces of a task. -/
def Task.piecesOf (t : Task) (ks : List (List Nat)) : List Piece :=
  (runsOf 0 ks).map fun (p, m, k) =>
    ⟨p, m, (t.dw.drop 1).take 3, k.map (BitVec.ofNat 10), 0, none, none, false⟩

/-- A task whose pieces and conversions have all completed completes: STATUS, GSSEQ; its pool tids are free (R376, R377). -/
def State.finishTask (s : State) (n seq : Nat) : State :=
  match s.task? n seq with
  | none => s
  | some t =>
    if !t.cut || t.stopped || t.pieces.any fun p => !p.done then s
    else (s.taskStatus n t).modGs n fun g =>
      let r := seqAdvance (g.doneSeqs.length + 1) g.seq (seq :: g.doneSeqs)
      { g with tasks := g.tasks.filter (·.seq != seq), seq := r.1, doneSeqs := r.2 }

/-- A task's tags are read and it is cut; while a read waits nothing of it has happened. -/
def State.cutTask (s : State) (n : Nat) (t : Task) : State :=
  match s.keysFrom n t (t.n0 * t.n1) 0 with
  | .wait w u => u.modTask n t.seq fun x => { x with wait := w }
  | .stop c u => u.taskStop n t c
  | .ok ks u => (u.modTask n t.seq fun x => { x with cut := true, pieces := t.piecesOf ks, wait := .no }).finishTask n t.seq

/-- TAKE_TASK: a task that is not yet cut goes on; else the next one is taken, from the device buffer first, as an engine takes entries
(R254, R314). -/
def execTakeTask (n : Nat) (s : State) : Out :=
  let p := s.part n
  let g := p.gs
  if !p.enable || g.stop || g.boxed || g.tasks.any (fun t => t.wait.withholds) then .next s
  else match g.tasks.find? fun t => !t.cut && !t.stopped with
  | some t => .next (s.cutTask n t)
  | none =>
    match g.append with
    | (dw, src) :: r =>
      let t := newTask dw none (bits (dw.getD 7 0).toNat 31 0) (some src)
      .next ((s.modGs n fun g => { g with append := r, tasks := g.tasks ++ [t] }).cutTask n t)
    | [] =>
      if g.cflt || !chainOpen g.tail g.head then .next s
      else
        let a := g.base.toNat
        match (if a % 64 = 0 then s.ioDwords n a 8 else none) with
        | none => .next (s.modGs n fun g => { g with cflt := true })
        | some dw =>
          let q := (g.given + 1) % 2 ^ 32
          let t := newTask dw (some a) q none
          let u := s.ioWrite n (a + 56) (toBytes 4 q)
          .next ((u.modGs n fun g =>
            { g with given := q, head := g.head + 1, base := dw.getD 6 0, tasks := g.tasks ++ [t] }).cutTask n t)

/-! ### Methods and sections of a piece -/

/-- The sections that a key goes through, as image and region: those of its conversions and that of its routine. -/
def sectsOf (ms : List (Nat × List Dword)) : Nat → Key → List (Nat × Nat)
  | 0, _ => []
  | k + 1, key =>
    match meBest key ms with
    | none => []
    | some (_, m) =>
      if meAction m = 1 then [(meImage m, meSect m)]
      else if meAction m = 2 then
        (meImage m, meSect m) :: sectsOf ms k { key with tags := setAt key.tags (meCidx m) (meCtag m) }
      else []

/-- The sections that a piece has yet to be sent to. -/
def Task.ahead (t : Task) (ms : List (Nat × List Dword)) (p : Piece) : List (Nat × Nat) :=
  if p.done then []
  else match p.running, p.conv with
  | some _, none => []
  | _, some (k, g, _) => sectsOf ms (2 - p.depth) { t.key p with tags := setAt (t.key p).tags k g.toNat }
  | none, none => sectsOf ms (3 - p.depth) (t.key p)

/-- Whether an earlier piece has yet to be sent to a section: pieces go to one section in task and piece order. -/
def Sequencer.behind (g : Sequencer) (ms : List (Nat × List Dword)) (seq i : Nat) (sect : Nat × Nat) : Bool :=
  (g.tasks.takeWhile fun t => t.seq != seq).any (fun t => !t.stopped && t.pieces.any fun p => (t.ahead ms p).contains sect) ||
  ((g.tasks.find? fun t => t.seq == seq).map fun t => (t.pieces.take i).any fun p => (t.ahead ms p).contains sect).getD false

/-- The running launch of a partition with an image: the lowest queue, and the oldest of it. -/
def Part.launchOf (p : Part) (image : Nat) : Option Launch :=
  (p.launches.filter fun l => l.image.toNat == image).foldl (fun b l => match b with
    | none => some l
    | some o => if l.ref.q < o.ref.q then some l else some o) none

/-- The pool tids whose descriptor has a tag and holds a number of tiles, rising (R377). -/
def State.poolFits (s : State) (n tag tiles : Nat) : XRes (List Nat) :=
  let v := (s.part n).cvpool.toNat
  (xmap (fun k u =>
    let tid := bits v 15 0 + k
    match u.object n (.seq n) tid with
    | .wait w t => .wait w t
    | .stop (.xlate c a) t => .stop (.xlate c a) t
    | .stop _ t => .ok none t
    | .ok o t => .ok (if o.c.isSome && o.tag == tag && decide (tiles ≤ nt0 o.d * nt1 o.d) then some tid else none) t)
    (List.range (bits v 25 16)) s).bind fun l t => .ok (l.filterMap id) t

/-- The dword of an operand at the origin of a piece's first tile (R405). -/
def firstTile (v n0 p0 : Nat) : Nat :=
  opTid v * 2 ^ 48 + (opT1 v + p0 / n0) % 2 ^ 16 * 2 ^ 32 + (opT0 v + p0 % n0) % 2 ^ 16 * 2 ^ 16

/-- The descriptor that a section is sent: of a conversion of an operand into a pool tid, or of the routine (R405). -/
def Task.descriptor (t : Task) (p : Piece) (conv : Option (Nat × Nat)) : List Nat :=
  let ops := match conv with
    | some (k, x) => [firstTile (p.ops.getD k 0).toNat t.n0 p.p0, x * 2 ^ 48, 0]
    | none => p.ops.map (·.toNat)
  [t.d 0] ++ ops ++ [t.d 4, p.pn * 2 ^ 32 + p.p0, t.d 6, t.d 7]

/-- A descriptor enters a section at p7 as an acquire of its consumers at .dev, and the section is armed (R230, R376, R405). -/
def State.armSection (s : State) (r : RegionRef) (g : Region) (dw : List Nat) (pn : Nat) : State :=
  let t := g.streams.foldl (fun u q => match q.prod, q.cons with
    | .regIn 7, .elem e _ => u.acquireAt (pageOf e) .dev
    | _, _ => u) s
  t.modRegion r fun h =>
    { h with
      ins := modAt h.ins 7 fun i => { i with q := i.q ++ [dataTok (ofEls 64 dw) none] }
      gated := true
      tiles := min (h.tiles + pn) (2 ^ 32 - 1) }

/-- A piece of a task changed. -/
def State.modPiece (s : State) (n seq i : Nat) (f : Piece → Piece) : State :=
  s.modTask n seq fun t => { t with pieces := modAt t.pieces i f, wait := .no }

/-- What comes of an attempt to send a piece: it has acted; its section is busy; or it waits for a pool tid, and with it later pieces of its
task (R377). -/
inductive Sent where
  | acted | busy | held
deriving DecidableEq, Repr

/-- A routine run on a piece: busy while its section holds another piece, or an earlier piece has yet to go there. -/
def State.runPiece (s : State) (n : Nat) (ms : List (Nat × List Dword)) (t : Task) (i : Nat) (p : Piece) (m : List Dword)
    (conv : Option (Nat × BitVec 10 × Nat)) : XRes Sent :=
  match (s.part n).launchOf (meImage m) with
  | none => .ok .acted (s.noMethod n t p 2)
  | some l =>
    match l.regions[meSect m]? with
    | none => .ok .acted (s.noMethod n t p 2)
    | some g =>
      let r : RegionRef := ⟨l.ref, meSect m⟩
      let gs := (s.part n).gs
      if (gs.tasks.any fun t => t.pieces.any fun p => p.running == some r) || gs.behind ms t.seq i (meImage m, meSect m) then .ok .busy s
      else
        let u := s.armSection r g (t.descriptor p (conv.map fun c => (c.1, c.2.2))) p.pn
        let v := u.modPiece n t.seq i fun p => { p with running := some r, conv := conv }
        .ok .acted (v.modTask n t.seq fun x => { x with pool := x.pool ++ (conv.map fun c => c.2.2).toList })

/-- A piece that does not run goes on: its method is looked up, and its conversion or routine is sent. -/
def State.sendPiece (s : State) (n : Nat) (t : Task) (i : Nat) (p : Piece) : XRes Sent :=
  (s.methods n (.seq n)).bind fun ms u =>
    match meBest (t.key p) ms with
    | none => .ok .acted (u.noMethod n t p 0)
    | some (_, m) =>
      if meAction m = 3 then .ok .acted (u.noMethod n t p 1)
      else if meAction m = 1 then u.runPiece n ms t i p m none
      else if 2 ≤ p.depth then .ok .acted (u.noMethod n t p 4)
      else if t.nops ≤ meCidx m then .ok .acted (u.noMethod n t p 0)
      else (u.poolFits n (meCtag m) (t.n0 * p.pn)).bind fun fits v =>
        if fits.isEmpty then .ok .acted (v.noMethod n t p 3)
        else match fits.find? fun x => !((v.part n).gs.tasks.any fun t => t.pool.contains x) with
        | none => .ok .held v
        | some x => v.runPiece n ms t i p m (some (meCidx m, BitVec.ofNat 10 (meCtag m), x))

/-- The pieces of a task that may act next, in order: those between conversions, and the first that has not begun. -/
def idlePieces : Nat → List Piece → List (Nat × Piece)
  | _, [] => []
  | i, p :: r =>
    if p.done || p.running.isSome then idlePieces (i + 1) r
    else if p.depth = 0 then [(i, p)]
    else (i, p) :: idlePieces (i + 1) r

/-- The first of several pieces that can act does; behind one that waits for a pool tid none does (R377). -/
def State.sendFirst (n : Nat) (t : Task) : List (Nat × Piece) → State → XRes Sent
  | [], s => .ok .busy s
  | (i, p) :: r, s =>
    (s.sendPiece n t i p).bind fun b u => if b = .busy then State.sendFirst n t r u else .ok b u

/-- PIECE_START: the task with sequence number `q` goes on with its next piece. A partition that has spent its quota dispatches none
(R379). -/
def execPieceStart (n q : Nat) (s : State) : Out :=
  match s.task? n q with
  | none => .next s
  | some t =>
    if !(s.part n).enable || !t.cut || t.stopped || t.wait.withholds || (s.part n).spent || t.status = 0x65 then .next s
    else match State.sendFirst n t (idlePieces 0 t.pieces) s with
    | .ok _ u => .next u
    | .wait w u => .next (u.modTask n q fun x => { x with wait := w })
    | .stop c u => .next (u.taskStop n t c)

/-! ### PIECE_COMPLETE (R376, R405) -/

/-- A piece whose section has emitted at o7: a conversion replaces its operand, a routine completes it. -/
def Piece.ended (p : Piece) (skipped : Bool) : Piece :=
  match p.conv with
  | some (k, g, x) =>
    { p with
      ops := setAt p.ops k (BitVec.ofNat 64 (x * 2 ^ 48))
      tags := setAt p.tags k g
      depth := p.depth + 1
      running := none
      conv := none
      done := skipped }
  | none => { p with running := none, done := true }

/-- The task and piece that a section runs. -/
def Sequencer.runningAt (g : Sequencer) (r : RegionRef) : Option (Nat × Nat) :=
  g.tasks.findSome? fun t => (t.pieces.findIdx? fun p => p.running == some r).map fun i => (t.seq, i)

/-- Whether what an element had observed is visible: none of its accesses on path EP is outstanding (R405). -/
def State.epQuiet (s : State) (e : Nat) : Bool :=
  match s.elem? e with
  | none => true
  | some x => x.acc.all fun a => a.path != .ep

/-- PIECE_COMPLETE: the sequencer takes a section's token at o7, once the emitting element's release at .dev is made, and the section's fetch
buffers are released (R265, R362); a token that belongs to no piece is discarded, of a region that a method names even before its first
piece. -/
def execPieceComplete (r : RegionRef) (s : State) : Out :=
  match s.launch? r.l, s.region? r with
  | some l, some g =>
    match g.outStream 7 with
    | none => .next s
    | some (m, q) =>
      match q.out with
      | [] => .next s
      | t :: _ =>
        let o := g.outs.getD 7 {}
        if !(g.gated || g.method) || !g.moves || o.bind.isSome || !(l.fromOut r.k 7).isEmpty || t.kind == .dusk || decide (0 < o.suppress) then .next s
        else
          let e := match q.prod with
            | .elem e _ => some e
            | _ => none
          if !((e.map s.epQuiet).getD true) then .next s
          else
            let u := match e with
              | some e => s.releaseAt r.l.n (pageOf e) .dev
              | none => s
            let v := u.modRegion r (·.outGone 7 m false)
            match (v.part r.l.n).gs.runningAt r with
            | none => .next v
            | some (seq, i) =>
              let skipped := ((v.task? r.l.n seq).map fun t => t.status == 0x65).getD false
              let w := (v.regionElems r).foldl (fun y q => y.freeBufs q.1) v
              .next ((w.modPiece r.l.n seq i (·.ended skipped)).finishTask r.l.n seq)
  | _, _ => .next s

/-! ### GSCMD (R326, R372) -/

/-- The host task on which the sequencer has stopped; with STOP clear there is none (R326). -/
def Sequencer.stoppedTask (g : Sequencer) : Option Task :=
  if g.stop then g.tasks.find? fun t => t.stopped && t.src.isNone else none

/-- GSCMD_SKIP: STATUS becomes 0x65, and the task completes with what is under way; STOP clears. -/
def execGscmdSkip (n : Nat) (s : State) : Out :=
  if !(s.part n).answers then .next s
  else match (s.part n).gs.stoppedTask with
  | none => .next s
  | some t =>
    let t' := { t.withStatus 0x65 with
      stopped := false, cut := true, wait := .no
      pieces := t.pieces.map fun p => if p.running.isSome then p else { p with done := true } }
    let u := ((s.modTask n t.seq fun _ => t').modGs n fun g => { g with stop := false })
    .next (u.finishTask n t.seq)

/-- GSCMD_RETRY: the task goes on from the piece that failed; STOP clears. -/
def execGscmdRetry (n : Nat) (s : State) : Out :=
  if !(s.part n).answers then .next s
  else match (s.part n).gs.stoppedTask with
  | none => .next s
  | some t =>
    .next ((s.modTask n t.seq fun x => { x.withStatus 0 with stopped := false, wait := .no }).modGs n fun g =>
      { g with stop := false })

end Sys2Proof.Machine
end

