-- ==== Sys2Proof/Machine/Translation.lean ====
section
/-! DEFINITION. Translation completions, page responses and invalidations: the events ATS_COMPLETION, PAGE_RESPONSE_SUCCESS,
PAGE_RESPONSE_FAILURE, INVALIDATE_REQUEST, GLOBAL_INVALIDATE and INVALIDATE_COMPLETION (R246 to R257, R436). -/

namespace Sys2Proof.Machine

/-! ### Every requester that waits -/

/-- The waits of a partition changed: of accesses, generators, region ports, engine entries and tasks. -/
def State.mapWaits (s : State) (n : Nat) (f : Wait → Wait) : State :=
  let elem (x : Elem) : Elem :=
    { x with
      acc := x.acc.map fun a => { a with wait := f a.wait }
      cur := { x.cur with agens := x.cur.agens.map fun g => { g with wait := f g.wait } }
      alt := { x.alt with agens := x.alt.agens.map fun g => { g with wait := f g.wait } } }
  let region (g : Region) : Region :=
    { g with
      ins := g.ins.map fun i => { i with wait := f i.wait }
      outs := g.outs.map fun o => { o with wait := f o.wait } }
  let t : State := { s with elems := s.elems.map fun (e, x) => if x.l.n = n then (e, elem x) else (e, x) }
  t.modPart n fun p =>
    { p with
      launches := p.launches.map fun l => { l with regions := l.regions.map region }
      engines := p.engines.map fun (g, e) => (g, { e with entries := e.entries.map fun x => { x with wait := f x.wait } })
      gs := { p.gs with tasks := p.gs.tasks.map fun t => { t with wait := f t.wait } }
      peerIn := p.peerIn.map fun x => { x with wait := f x.wait } }

/-- Whether anything of a partition waits in a way. -/
def State.anyWait (s : State) (n : Nat) (f : Wait → Bool) : Bool :=
  (s.elems.any fun (_, x) => x.l.n == n && ((x.acc.any fun a => f a.wait) || x.cur.agens.any fun g => f g.wait)) ||
  ((s.part n).launches.any fun l => l.regions.any fun g => (g.ins.any fun i => f i.wait) || g.outs.any fun o => f o.wait) ||
  ((s.part n).engines.any fun (_, e) => e.entries.any fun x => f x.wait) ||
  ((s.part n).gs.tasks.any fun t => f t.wait) || (s.part n).peerIn.any fun x => f x.wait

/-- An access that waited, refused: a prefetch is dropped (R276); another traps at its slot. -/
def State.failAccess (s : State) (e : Nat) (a : Access) (c : Stop) : State :=
  if a.op == .pref then s.accWait e a .drop else s.accStop e a c

/-- The accesses and generators of an element that wait in a way, refused. -/
def State.failElem (s : State) (f : Wait → Bool) (c : Stop) (e : Nat) (x : Elem) : State :=
  let t := (x.acc.filter fun a => f a.wait).foldl (fun u a => u.failAccess e a c) s
  (((x.ctxNow.map (·.agens)).getD []).filter fun a => ((x.cur.agens[a.port]?).map fun g => f g.wait).getD false).foldl (fun u a =>
    let g := x.cur.agens.getD a.port ⟨List.replicate 4 0, false, [], .no, none⟩
    u.agenStop e a.port (a.tok g.cnt) c) t

/-- The ports of a region that wait in a way, refused (R464). -/
def State.failPorts (s : State) (f : Wait → Bool) (c : Stop) (r : RegionRef) (g : Region) : State :=
  let tok (b : Option Bind) (k : Nat) : Dword := match b with
    | some b => tokPlus b.tok (64 * k)
    | none => 0
  let t := (indexed 0 g.ins).foldl (fun u (k, i) =>
    if f i.wait then u.raisePort r (portFault u r.l.n (g.portPage false k) 0 k (tok i.bind i.given) c) else u) s
  let u := (indexed 0 g.outs).foldl (fun v (k, o) =>
    if f o.wait then v.raisePort r (portFault v r.l.n (g.portPage true k) 1 k (tok o.bind o.taken) c) else v) t
  u.modRegion r fun h =>
    { h with
      ins := h.ins.map fun i => if f i.wait then { i with wait := .no } else i
      outs := h.outs.map fun o => if f o.wait then { o with wait := .no } else o }

/-- Everything of a partition that waits in a way, refused with a code: traps at slots and ports, engine entries with code 0x62, tasks
with STATUS 0x72 (R251, R319, R359, R464); a peer's transfer ends. -/
def State.refuse (s : State) (n : Nat) (f : Wait → Bool) (code iova : Nat) : State :=
  let c := Stop.xlate code iova
  let t := (s.elems.filter fun q => q.2.l.n == n).foldl (fun u q => u.failElem f c q.1 q.2) s
  let u := ((t.part n).launches.flatMap fun l => (indexed 0 l.regions).map fun (k, g) => ((⟨l.ref, k⟩ : RegionRef), g)).foldl
    (fun v (r, g) => v.failPorts f c r g) t
  let w := ((u.part n).engines.flatMap fun (g, e) => (e.entries.filter fun x => f x.wait).map fun x => (g, x)).foldl
    (fun v (g, x) => v.engFail n g x 0x62 0) u
  let y := ((w.part n).gs.tasks.filter fun t => f t.wait).foldl (fun v t => (v.modTask n t.seq fun x => { x with wait := .no }).taskStop n t c) w
  y.modPart n fun p => { p with peerIn := p.peerIn.filter fun x => !f x.wait }

/-! ### Requests (R248, R249) -/

/-- PROUT (R249). -/
def Part.prout (p : Part) : Nat := (p.pageReqs.filter fun q => !q.answered).length

/-- The regions of a partition that are swapped out for a page (R252). -/
def State.swappedFor (s : State) (n page : Nat) : List RegionRef :=
  (s.part n).launches.flatMap fun l => (indexed 0 l.regions).filterMap fun (k, g) =>
    if g.st == .swapped && g.waitPage == some page then some (⟨l.ref, k⟩ : RegionRef) else none

/-- A page request sent, or, while PROUT is PRALLOC, a fault that waits at its slice (R249); one that waits already, or has been sent, serves
this fault too. -/
def Part.askPage (p : Part) (page slice : Nat) (write : Bool) : Part :=
  if p.pageReqs.any (·.page == page) || p.pageWait.any (·.1 == page) then p
  else if p.prout < p.pralloc.toNat then { p with pageReqs := p.pageReqs ++ [⟨page, slice, write, 0, false⟩] }
  else { p with pageWait := p.pageWait ++ [(page, slice, write)] }

/-- An ATS request sent again after a Success, where its depot has room (R248, R251). -/
def Part.askAgain (p : Part) (q : PageReq) : Part :=
  if !q.answered || (p.atsFor q.slice q.page).isSome || decide (Config.atsLimit ≤ p.atsIn q.slice) then p
  else { p with ats := p.ats ++ [⟨q.page, q.slice, q.write, []⟩] }

/-- What PRALLOC and the limit of ATS requests let go on: answered requests are asked again (R251), and faults that wait at a slice
are sent (R249). -/
def Part.promote (p : Part) : Part :=
  let a := p.pageReqs.foldl Part.askAgain p
  let k := a.pralloc.toNat - a.prout
  (a.pageWait.take k).foldl (fun b w => b.askPage w.1 w.2.1 w.2.2) { a with pageWait := a.pageWait.drop k }

/-- A translation put into the slice that asked for it (R246), and kept among those whose frames slices may hold lines of (R256). -/
def State.storeXlat (s : State) (n slice : Nat) (x : Xlat) : State :=
  s.modPart n fun p =>
    let pad := p.slices ++ List.replicate (4 * p.depotList.length - p.slices.length) []
    { p with known := if p.known.contains x then p.known else x :: p.known, slices := modAt pad slice fun l => lru Config.sliceXlats x (l.filter fun y => y.iova != x.iova || y.size != x.size) }

/-- The size under which a completion is stored (R247). -/
def storedSize (size : Nat) : Nat := if 2 ^ 30 ≤ size then 2 ^ 30 else if 2 ^ 21 ≤ size then 2 ^ 21 else 4096

/-- The translation that a completion gives. -/
def xlatOf (iova pa size : Nat) (r w : Bool) : Xlat :=
  let k := storedSize size
  ⟨iova / k * k, pa - iova % k, k, r || w, w⟩

/-- Whether a translation overlaps a range. -/
def Xlat.overlaps (x : Xlat) (lo hi : Nat) : Bool := decide (x.iova < hi) && decide (lo < x.iova + x.size)

/-- The page request whose ATS request a slice repeats (R251). -/
def Part.repeated (p : Part) (q : AtsReq) : Option PageReq :=
  p.pageReqs.find? fun r => r.page == q.page && r.slice == q.slice && r.answered

/-- The fault of a page (R249): a page request, or a place in the wait for one, to which later faults on the page attach; with PRALLOC 0 a
trap at once. The fault of a repeated request is one new page request (R251). -/
def State.pageFault (s : State) (n : Nat) (q : AtsReq) (readable : Bool) : State :=
  let again := ((s.part n).repeated q).isSome
  let hit : Wait → Bool
    | .ats p k w => p == q.page && k == q.slice && (w || !readable)
    | .pri p => again && p == q.page
    | _ => false
  let drop (a : Access) : Access := if a.op == .pref && hit a.wait then { a with wait := .drop } else a
  let t : State := { s with elems := s.elems.map fun (e, x) => if x.l.n = n then (e, { x with acc := x.acc.map drop }) else (e, x) }
  let u := if again then t.modPart n fun p => { p with pageReqs := p.pageReqs.filter fun r => r.page != q.page } else t
  if (u.part n).pralloc = 0 then u.refuse n hit 0xFF (4096 * q.page)
  else if !u.anyWait n hit && (u.swappedFor n q.page).isEmpty then u
  else (u.mapWaits n fun w => if hit w then .pri q.page else w).modPart n fun p => p.askPage q.page q.slice q.write

/-- What a completion lets go on: the requesters of the slice that waited for it with the permission it gives, and, where it answers a request
repeated after a Success, everything attached to that page request (R248, R251). -/
def State.resumeWaits (s : State) (n : Nat) (q : AtsReq) (write : Bool) : State :=
  let again := ((s.part n).repeated q).isSome
  (s.mapWaits n fun x => match x with
    | .ats p k w => if p = q.page ∧ k = q.slice ∧ (write ∨ !w) then .no else x
    | .pri p => if again ∧ p = q.page then .no else x
    | _ => x).modPart n fun p => { p with pageReqs := p.pageReqs.filter fun r => !(again && r.page == q.page) }

/-- ATS_COMPLETION: the completion of the oldest outstanding request for the page is stored at its slice, and its requesters go on; one that an
invalidation of any part of its range has overtaken is discarded, and the request is sent again (R257); one without the permission that is needed
is a page fault (R249). -/
def execAtsCompletion (n iova pa size : Nat) (r w : Bool) (s : State) : Out :=
  let page := iova / 4096
  match (s.part n).ats.find? (·.page == page) with
  | none => .next s
  | some q =>
    let x := xlatOf iova pa size r w
    if q.gone.any fun g => x.overlaps g.1 g.2 then
      .next (s.modPart n fun p => { p with ats := p.ats.map fun a => if a = q then { a with gone := [] } else a })
    else
      let t := s.modPart n fun p => { p with ats := p.ats.erase q }
      let u := if r || w then (t.storeXlat n q.slice x) else t
      let v := if (r || w) && (w || !q.write) then u.resumeWaits n q w else u.pageFault n q (r || w)
      .next (v.modPart n Part.promote)

/-! ### Responses (R251, R436) -/

/-- The page request that a response answers: one that is outstanding. -/
def Part.pageReq? (p : Part) (page : Nat) : Option PageReq := p.pageReqs.find? fun q => q.page == page && !q.answered

/-- PAGE_RESPONSE_SUCCESS: the ATS request is repeated; a request whose every region has ended is discarded (R252). -/
def execPageResponseSuccess (n iova : Nat) (s : State) : Out :=
  let page := iova / 4096
  match (s.part n).pageReq? page with
  | none => .next s
  | some _ =>
    let used := s.anyWait n (· == .pri page) || !(s.swappedFor n page).isEmpty
    .next (s.modPart n fun p => Part.promote
      { p with pageReqs := if used then p.pageReqs.map fun q => if q.page = page then { q with answered := true } else q
               else p.pageReqs.filter fun q => q.page != page })

/-- A region that was swapped out for a page whose request is refused traps (R252): at the port that stays attached, with the response code; FIRES
counts the firings of the element that it names, whose trap it then is (R453). -/
def State.drainRefused (s : State) (code : Nat) (r : RegionRef) : State :=
  match (s.region? r).bind (·.waitFor) with
  | none => s
  | some w =>
    let f : FaultReg := { w with cause := code, cycle := s.cycle, pol := (s.part r.l.n).faultPol }
    match (s.regionElems r).find? fun q => f.loop == 0 && q.2.col == f.col && q.2.row == f.row with
    | some (e, x) => s.modElem e (·.trap { f with fires := x.started })
    | none => s.raisePort r f

/-- PAGE_RESPONSE_FAILURE: every attached requester, and every region swapped out for the page, traps (R251, R252). -/
def execPageResponseFailure (n iova code : Nat) (s : State) : Out :=
  let page := iova / 4096
  match (s.part n).pageReq? page with
  | none => .next s
  | some _ =>
    let t := s.modPart n fun p => { p with pageReqs := p.pageReqs.filter fun q => q.page != page }
    let u := (t.swappedFor n page).foldl (fun v r => v.drainRefused (code % 256) r) t
    .next ((u.refuse n (· == .pri page) (code % 256) (4096 * page)).modPart n Part.promote)

/-! ### Invalidation (R256, R257) -/

/-- Every translation that a partition's caches and slices hold, or have held since an invalidation last named it: a line filled through one outlives
its eviction (R256, R305). -/
def State.allXlats (s : State) (n : Nat) : List Xlat :=
  let ps := (s.part n).pageList
  (s.elems.flatMap fun (_, x) => if x.l.n = n then x.ports.flatMap (·.tlb) else []) ++
  ((indexed 0 s.pages).flatMap fun (k, g) => if ps.contains k then g.gs.tlb ++ g.tf.tlb else []) ++
  ((s.part n).engines.flatMap fun (_, e) => e.cache.tlb) ++ (s.part n).gs.cache.tlb ++ (s.part n).slices.flatten ++ (s.part n).known

/-- The frames of translations that overlap a range, each once. -/
def State.framesIn (s : State) (n lo hi : Nat) : List (Nat × Nat) :=
  (((s.allXlats n).filter fun x => x.overlaps lo hi).map fun x => (x.pa, x.pa + x.size)).eraseDups

/-- Step 1 of R256 for the IOVAs `[lo, hi)`. -/
def State.invalidate (s : State) (n lo hi : Nat) : State :=
  let keep (l : List Xlat) : List Xlat := l.filter fun x => !x.overlaps lo hi
  (s.modCaches n fun c => { c with tlb := keep c.tlb }).modPart n fun p =>
    { p with
      slices := p.slices.map keep
      known := keep p.known
      ats := p.ats.map fun a => { a with gone := a.gone ++ [(lo, hi)] }
      invals := p.invals ++ [⟨lo, hi, s.framesIn n lo hi⟩] }

/-- INVALIDATE_REQUEST for the IOVAs `[lo, hi)` of a partition's PASID. -/
def execInvalidateRequest (n lo hi : Nat) (s : State) : Out :=
  if (s.part n).enable then .next (s.invalidate n lo hi) else .next s

/-- GLOBAL_INVALIDATE: every address. -/
def execGlobalInvalidate (n : Nat) (s : State) : Out :=
  if (s.part n).enable then .next (s.invalidate n 0 (2 ^ 64)) else .next s

/-- INVALIDATE_COMPLETION of the oldest Invalidate Request: an access translates and acts in one step, so that none that used a dropped
translation is outstanding; the lines of the dropped frames are written back and invalidated. -/
def execInvalidateCompletion (n : Nat) (s : State) : Out :=
  match (s.part n).invals with
  | [] => .next s
  | i :: r =>
    let t := (s.part n).pageList.foldl (fun u k => i.frames.foldl (fun v f => v.dropFrames n k f.1 f.2) u) s
    .next (t.modPart n fun p => { p with invals := r })

end Sys2Proof.Machine
end

