-- ==== Sys2Proof/Machine/Partitions.lean ====
section
/-! DEFINITION. Partitions: enabling, disabling and reset, the power cap, revocation of floor contracts, quota periods, and transfers
from peer parts; the events PTCTL_ENABLE, PTCTL_DISABLE, PTCTL_RESET, FUNCTION_LEVEL_RESET, DVCAP_WRITE, FLQ_REVOKE,
QUOTA_PERIOD_BOUNDARY and PEER_LINK_TRANSFER (R419 to R430, R444). -/

namespace Sys2Proof.Machine

/-! ### Reset (R319, R425) -/

/-- The lanes of an ASCAT whose adds a reset lets be applied, of those to come: any, but of lanes with equal targets none without the ones before
it (R282, R425). -/
def keptLanes (pick : Nat → Bool) : List (Nat × Nat) → List LanePlan → List LanePlan
  | _, [] => []
  | gone, l :: r => if pick l.j && !(l.pas.any gone.contains) then l :: keptLanes pick gone r else keptLanes pick (gone ++ l.pas) r

/-- An outstanding ASCAT that a reset ends: the add of each lane that is still to come is applied or not (R282). -/
def State.endAscat (s : State) (n e : Nat) (a : Access) : State :=
  let t := { s with fresh := s.fresh + 1 }
  match planLanes true n (a.req e) a t with
  | .ok (o, ls) u =>
    (keptLanes (Config.resetLane s.fresh) [] (ls.filter fun l => decide (a.lanes ≤ l.j))).foldl (fun v l =>
      let op := if ascatFp l.fmt then AtomOp.fadd else .add
      let pa := (l.pas.head?.map (·.1)).getD 0
      match v.atomicAt n (pageOf e) (v.home n (pa / 128)) pa 4 o (Scope.wide a.scope)
          (fun old => (atomNew op false 32 old (elAt 32 a.t l.j) 0).1) with
      | .ok _ w => w
      | _ => v) u
  | _ => t

/-- Entries in flight at an engine that a reset ends: some further pieces are performed. -/
def State.endEntry (s : State) (n g : Nat) (x : EngEntry) : State :=
  (State.engRun n g (Config.resetPieces s.fresh) x { s with fresh := s.fresh + 1 }).2

/-- What is in flight in a partition ended (R425, steps 2 and 3). -/
def State.endWork (s : State) (n : Nat) : State :=
  let t := ((s.part n).engines.flatMap fun (g, e) => (e.entries.filter fun x => x.st == .flight).map fun x => (g, x)).foldl
    (fun u (g, x) => u.endEntry n g x) s
  ((t.elems.filter fun q => q.2.l.n == n).flatMap fun (e, x) => (x.acc.filter fun a => a.op == .ascat).map fun a => (e, a)).foldl
    (fun u (e, a) => u.endAscat n e a) t

/-- A partition's table entry, keys and host capability, and the operator's records that wait (R453), with every register of its page at its
reset value; BUSY reads 1 until the next master cycle begins (R425; log 58). -/
def Part.afterReset (p : Part) : Part :=
  { ({} : Part) with
    depots := p.depots
    pasid := p.pasid
    node := p.node
    lshare := p.lshare
    enable := p.enable
    err := p.err
    busy := true
    keyAddr := p.keyAddr
    key := p.key
    serial := p.serial
    memKey := p.memKey
    atsOff := p.atsOff
    opEnded := p.opEnded ++ (p.launches.flatMap fun l => l.regions.flatMap (·.opWaiting)) ++ (p.engines.filterMap (·.2.opWaiting)) ++ p.gs.opWaiting.toList
    invals := p.invals
    msi := p.msi }

/-- A reset of a partition (R425). -/
def State.resetPart (s : State) (n : Nat) : State :=
  let t := s.endWork n
  let u := (t.part n).launches.foldl (fun v l => v.freePages l) t
  let ps := (u.part n).pageList
  let v := ps.foldl (fun w k => (w.clearSlice n k none true).modPage k fun g => { g with resw := 0, gs := {}, tf := {} }) u
  ((List.range 8).foldl (fun w q => (w.uncount n q).unrevoke n q) v).modPart n Part.afterReset

/-! ### The partition table (R419, R444) -/

/-- Whether setting ENABLE is refused. -/
def State.enableRefused (s : State) (n : Nat) (key : List Byte) : Bool :=
  let p := s.part n
  let others := (indexed 0 s.parts).filter fun q => q.1 != n && q.2.enable
  p.depots == 0 || (others.any fun q => q.2.depots &&& p.depots != 0) || p.pasid == 0 ||
  decide (256 < p.lshare.toNat + (others.map fun q => q.2.lshare.toNat).sum) ||
  p.keyAddr == 0 || !Config.mldsaKeyOk key || s.mgmt.recov || s.mgmt.code != 0 || s.mgmt.starting != 0

/-- Bytes of a policy key (R444). -/
def keyBytes : Nat := 2592

/-- PTCTL_ENABLE: the partition is created with a memory key of its own and its policy key; or the write is refused, and ERR is set. -/
def execPtctlEnable (n : Nat) (s : State) : Out :=
  let p := s.part n
  let key := s.mmem.read p.keyAddr.toNat keyBytes
  if p.enable then .next (s.modPart n fun p => { p with err := false })
  else if s.enableRefused n key then .next (s.modPart n fun p => { p with err := true })
  else
    let k := s.mgmt.keyGen + 1
    .next ({ s with mgmt := { s.mgmt with keyGen := k } }.modPart n fun p =>
      { p with enable := true, err := false, key := key, serial := 0, memKey := some (Config.memoryKey k) })

/-- PTCTL_DISABLE: a reset, and then the function is hidden; its keys and its serial end (R419, R423, R444). -/
def execPtctlDisable (n : Nat) (s : State) : Out :=
  if !(s.part n).enable then .next (s.modPart n fun p => { p with err := false })
  else .next ((s.resetPart n).modPart n fun p =>
    { p with enable := false, err := false, key := [], serial := 0, memKey := none })

/-- PTCTL_RESET: of an enabled partition. -/
def execPtctlReset (n : Nat) (s : State) : Out := if (s.part n).enable then .next (s.resetPart n) else .next s

/-- FUNCTION_LEVEL_RESET. -/
def execFunctionLevelReset (n : Nat) (s : State) : Out := if (s.part n).enable then .next (s.resetPart n) else .next s

/-! ### Power (R426 to R429) -/

/-- DVCAP_WRITE: writes above 2,800 act as 2,800. The ratios are lowered at the launches' next boundaries. -/
def execDvcapWrite (v : Nat) (s : State) : Out :=
  .next (s.setPower fun m => { m with cap := BitVec.ofNat 16 (min Config.tdpWatts (v % 2 ^ 16)) })

/-- The regions of the launches of a queue. -/
def Part.queueRegions (p : Part) (q : Nat) : List (RegionRef × Region) :=
  (p.launches.filter fun l => l.ref.q == q).flatMap fun l => (indexed 0 l.regions).map fun (k, g) => (⟨l.ref, k⟩, g)

/-- A region asked to pre-empt because the contract of its queue is revoked. -/
def Region.askRevoke (g : Region) : Region :=
  match g.st with
  | .running => { g.askPreempt false with revoked := true }
  | .preempting => { g with revoked := true }
  | .preempted => g
  | _ => { g with pre := true, revoked := true }

/-- A launch of a revoked queue without a floor. -/
def Launch.unfloor (l : Launch) : Launch := { l with islands := l.islands.map fun i => { i with floor := 0 } }

/-- A launch that a revocation finds running: its regions are asked to pre-empt; one of which none is left to ask has lost its floor. -/
def Launch.askRevoke (l : Launch) : Launch :=
  let x := { l with regions := l.regions.map Region.askRevoke }
  if x.regions.any (·.revoked) then x else x.unfloor

/-- A revoked queue once every region that the revocation asked has been pre-empted: its contract no longer counts, the floors of those launches
are gone, and they resume. A launch of the queue that started later stands under no contract of it, and is not waited for. -/
def State.endRevocation (s : State) (n q : Nat) : State :=
  let rs := ((s.part n).queueRegions q).filter fun r => r.2.revoked
  if rs.any fun r => r.2.st != .preempted || r.2.rolling.isSome then s
  else
    let t := (s.unrevoke n q).modPart n fun p =>
      { p with launches := p.launches.map fun l => if l.ref.q = q ∧ l.regions.any (·.revoked) then l.unfloor else l }
    rs.foldl (fun u r =>
      match execResumeRegion r.1 u with
      | .next v => v
      | _ => u) t

/-- The contract of a queue ended by the operator (R427): the launches that run under it are pre-empted at their next boundaries; what it counts
for stays in FSUM until they are. -/
def State.revoke (s : State) (n q : Nat) : State :=
  let t := s.modPart n fun p =>
    { p with
      revoked := setAt p.revoked q (some ((p.revoked.getD q none).getD 0 + (p.counted.getD q none).getD 0))
      counted := setAt p.counted q none
      flq := modAt p.flq q fun v => BitVec.ofNat 64 (putBits v.toNat 63 63 0)
      launches := p.launches.map fun l => if l.ref.q = q then l.askRevoke else l }
  t.endRevocation n q

/-- FLQ_REVOKE (R427): the contract ends; while its launches are still to be pre-empted the event goes on to take its SHARE out of FSUM. -/
def execFlqRevoke (n q : Nat) (s : State) : Out :=
  if ((s.part n).revoked.getD q none).isSome then .next (s.endRevocation n q)
  else if !flqValid ((s.part n).flq.getD q 0) then .next s
  else .next (s.revoke n q)

/-! ### Energy (R430, R343) -/

/-- Whether a region uses no address generator. -/
def State.noAgens (s : State) (r : RegionRef) : Bool :=
  (s.regionElems r).all fun q => ((q.2.ctxNow.map (·.agens)).getD []).isEmpty

/-- A region pre-empted for its quota as a period begins in which the quota is not spent: it is to resume (R430). -/
def Region.quotaOver (g : Region) : Region :=
  if g.st == .preempted && g.quotaHeld then { g with quotaHeld := false, resume := true } else g

/-- QUOTA_PERIOD_BOUNDARY: a region without address generators, which reaches no other boundary, is checked; DEBT is carried and SPENT clears;
and where the quota is then no longer spent, what it pre-empted resumes. -/
def execQuotaPeriodBoundary (n : Nat) (s : State) : Out :=
  if !(s.part n).enable then .next s
  else
    let rs := (s.part n).launches.flatMap fun l => (List.range l.regions.length).map fun k => (⟨l.ref, k⟩ : RegionRef)
    let u := (rs.filter s.noAgens).foldl (fun v r => v.quotaCheck r) s
    let v := u.modPart n fun p =>
      { p with eqdebt := BitVec.ofNat 64 (p.eqspent.toNat + p.eqdebt.toNat - p.equota.toNat), eqspent := 0 }
    .next (if (v.part n).spent then v
      else v.modPart n fun p => { p with launches := p.launches.map fun l => { l with regions := l.regions.map Region.quotaOver } })

/-! ### Peer parts (R316, R421) -/

/-- One piece of a peer's transfer: the bytes up to the next line, whose line it pins (R265); a whole transfer of 8 bytes or fewer meets cause 4
as one access (R241). -/
def State.peerPiece (s : State) (n : Nat) (x : PeerXfer) : XRes PeerXfer :=
  let q := Req.eng n linkEng
  let off := x.tok.toNat % 2 ^ 48 + x.bytes
  let m := min (x.len - x.bytes) (128 - off % 128)
  (s.unitChk n q (some (.obj (x.tok.toNat / 2 ^ 48) (x.tok.toNat % 2 ^ 48))) x.len x.put).bind fun _ s =>
  (s.findPlace n q (.obj (x.tok.toNat / 2 ^ 48) off) m x.put).bind fun f u =>
  (u.pinFound n [f] x.pins).bind fun h t =>
    let y := { x with bytes := x.bytes + m, pins := h, wait := .no }
    if x.put then .ok y (t.writeFound n f ((x.data.drop x.bytes).take m))
    else .ok { y with data := x.data ++ t.readFound n f m } t

/-- The first transfer of a partition carried on; the bytes of a finished get go to the peer; one that R241 or the translation refuses
ends. The pins go with it. -/
def State.peerRun (n : Nat) : Nat → State → State
  | 0, s => s
  | k + 1, s =>
    match (s.part n).peerIn with
    | [] => s
    | x :: r =>
      if x.len ≤ x.bytes then
        let t := (s.dropPins false x.pins).modPart n fun p => { p with peerIn := r }
        State.peerRun n k (if x.put then t else { t with peerOut := t.peerOut ++ [⟨1024, n, x.tok, true, x.len, x.data⟩] })
      else if x.wait.withholds then s
      else match s.peerPiece n x with
      | .ok y t => State.peerRun n k (t.modPart n fun p => { p with peerIn := y :: r })
      | .wait w t => t.modPart n fun p => { p with peerIn := { x with wait := w } :: r }
      | .stop _ t => State.peerRun n k ((t.dropPins false x.pins).modPart n fun p => { p with peerIn := r })

/-- PEER_LINK_TRANSFER: a put of bytes at an address token, or a get of `len` bytes, of a partition; transfers are performed in order of
arrival, and one of no bytes only lets those before it go on. -/
def execPeerLinkTransfer (n tok : Nat) (put : Bool) (data : List (BitVec 8)) (len : Nat) (s : State) : Out :=
  if !(s.part n).enable then .next s
  else
    let k := if put then data.length else len
    let x : PeerXfer := ⟨BitVec.ofNat 64 tok, put, if put then data else [], k, 0, .no, []⟩
    let t := if k = 0 then s else s.modPart n fun p => { p with peerIn := p.peerIn ++ [x] }
    .next (State.peerRun n (((t.part n).peerIn.map fun y => y.len + 2).sum) t)

end Sys2Proof.Machine
end

