-- ==== Sys2Proof/Machine/Start.lean ====
section
/-! DEFINITION. Starting and protecting the part: POWER_ON, RESET_PIN, STCMD_RESET, RECOVERY_IMAGE, ATTESTATION_REQUEST, the alarms and
POWER_LOSS (R457 to R463). A start is under way from its event until the agenda is empty (log 73). -/

namespace Sys2Proof.Machine

/-! ### Starts (R457 to R459) -/

/-- The partitions that are enabled. -/
def State.enabled (s : State) : List Nat := ((indexed 0 s.parts).filter fun q => q.2.enable).map (·.1)

/-- Every enabled partition reset (R425). -/
def State.resetAll (s : State) : State := s.enabled.foldl State.resetPart s

/-- The management registers as a start finds them: at their reset values (R458), but for what a start keeps: ALARM and the log of alarms on a
warm start (log 124), the count of failed starts, the stored image, its measurement, the fuse copy and the seed; a number that a memory key has had is given to no
other key. -/
def Mgmt.cleared (m : Mgmt) (cold : Bool) : Mgmt :=
  { Mgmt.reset with
    idle := 0
    svn := m.svn
    code := if cold then 0 else m.code
    alarm := if cold then 0 else m.alarm
    kind := 0
    failed := m.failed
    fwImage := m.fwImage
    fwDigest := m.fwDigest
    seed := m.seed
    sessions := false
    keyGen := m.keyGen
    irqs := m.irqs
    alarms := if cold then [] else m.alarms }

/-- A page whose slice and caches a start has cleared (R458). A loss of power, and so a cold start, leaves nothing of what was measured: no
element has passed its self-test, and no ratio is reachable, until the start has found out (R457). -/
def Page.cleared (p : Page) (cold : Bool) : Page :=
  let q := { p with heat := 0, energy := 0, resw := 0, halted := false, lines := [], vdir := [], gs := {}, tf := {} }
  if cold then { q with usable := 0, plan := List.replicate 64 0xFF, banks := [] } else q

/-- Starts in a row that fail before a start goes into recovery (R459). -/
def startLimit : Nat := 3

/-- A start begun: the count is incremented; a start that found it at 3, or finds no seed, goes into recovery instead (R459, R462). -/
def State.beginStart (s : State) (cold : Bool) : State :=
  let t := if cold then s else s.resetAll
  let recover := decide (startLimit ≤ s.mgmt.failed) || !s.mgmt.seed
  let m := t.mgmt.cleared cold
  { t with
    parts := List.replicate Config.partitions {}
    elems := []
    pages := t.pages.map (·.cleared cold)
    mgmt := { m with
      failed := m.failed + 1
      starting := if recover then 3 else if cold then 1 else 2 } }

/-- POWER_ON: a cold start. -/
def execPowerOn (s : State) : Out :=
  if s.mgmt.power then .next s else .next ({ s with mgmt := { s.mgmt with power := true } }.beginStart true)

/-- RESET_PIN: a warm start, while power is held. -/
def execResetPin (s : State) : Out := if s.mgmt.power then .next (s.beginStart false) else .next s

/-- STCMD_RESET: a warm start. -/
def execStcmdReset (s : State) : Out := if s.mgmt.power then .next (s.beginStart false) else .next s

/-- The bytes of a digest. -/
def digestBytes : Nat := 64

/-- Bytes cut or filled with zeros to a length. -/
def padTo (n : Nat) (b : List Byte) : List Byte := (b ++ List.replicate n 0).take n

/-- A margin plan as it is measured: codes never decrease, and one above 0x96 is unreachable, as every one behind it is (R197). -/
def codesOf : Nat → List Nat → List Byte
  | _, [] => []
  | m, c :: r =>
    let k := if 0x96 < max m c then 0xFF else max m c
    BitVec.ofNat 8 k :: codesOf k r

/-- The elements that failed banks of a page take out of use, as what is left of its resource pattern: an element for a bank of its pool, all for
one of the slice (R2, R101, R259). -/
def banksLeft (bs : List (Nat × Nat)) (u : BitVec 16) : BitVec 16 :=
  bs.foldl (fun v b => if b.1 < 16 then v &&& ~~~((1 : BitVec 16) <<< b.1) else 0) u

/-- Step 4 on a page: a cold start tests its elements and banks, and what fails is out of use (R2, R457). -/
def Page.tested (p : Page) (cold : Bool) (moment k : Nat) : Page :=
  let bs := Config.failedBanks moment k
  if cold then { p with usable := banksLeft bs (Config.selfTest moment k), banks := bs } else p

/-- Step 5 on a page: its plan is built in full, at a warm start only if it fails the check; a page whose plan holds no reachable entry is
out of use (R432, R457). -/
def Page.measured (p : Page) (cold : Bool) (moment k : Nat) : Page :=
  let plan := if cold || Config.planFails moment k then codesOf 0 ((List.range 64).map (Config.marginCode moment k)) else p.plan
  { p with plan := plan, usable := if plan.all (· == 0xFF) then 0 else p.usable }

/-- A page after the steps of a start that have been run: `c` is the step that failed, 0 for none. -/
def Page.start (p : Page) (cold : Bool) (c moment k : Nat) : Page :=
  let q := if c = 0 ∨ 4 < c then p.tested cold moment k else p
  if c = 0 ∨ 5 < c then q.measured cold moment k else q

/-- The management registers after the steps of a start that have been run: the fuse copy (step 1), the measurement of the firmware
(step 2), the session keys (step 3), the list of what is out of use (step 4, and step 5 adds to it) and the idle floor (step 5; R426, R457, R460, R461; log 73). -/
def Mgmt.stepped (m : Mgmt) (cold : Bool) (c moment : Nat) : Mgmt :=
  let ran (k : Nat) : Bool := c == 0 || decide (k < c)
  { m with
    starting := 0
    code := BitVec.ofNat 8 c
    kind := if cold then 1 else 2
    failed := if c = 0 then 0 else m.failed
    svn := if cold && ran 1 then Config.fuseSvn else m.svn
    fwDigest := if ran 2 then padTo digestBytes (Config.firmwareDigest m.fwImage) else m.fwDigest
    sessions := ran 3
    idle := if ran 5 then Config.idlePower moment else m.idle
    stfail := if ran 4 then Config.failList moment else m.stfail }

/-- The device index of the element of a page that stands for a bit of its resource pattern (R216). -/
def elemAtBit (page b : Nat) : Nat := 64 * (4 * (page / 16) + b / 4) + (4 * (page % 16) + b % 4)

/-- The elements out of use, and the pages of which none is in use, by device index (R2, R457). -/
def failedElems (ps : List Page) : List Nat :=
  (indexed 0 ps).flatMap fun (k, p) => ((List.range 16).filter fun b => !p.usable.getLsbD b).map (elemAtBit k)
def failedPages (ps : List Page) : List Nat := (indexed 0 ps).filterMap fun (k, p) => if p.usable = 0 then some k else none

/-- The banks out of use: page, place there, number (R457). -/
def failedBanks (ps : List Page) : List (Nat × Nat × Nat) := (indexed 0 ps).flatMap fun (k, p) => p.banks.map fun b => (k, b.1, b.2)

/-- Whether step 2 fails: a cold start verifies the signature of the stored image; a warm one compares its digest with the stored measurement, and
verifies it only if they differ (R457). -/
def Mgmt.badFirmware (m : Mgmt) (cold : Bool) : Bool :=
  (cold || padTo digestBytes (Config.firmwareDigest m.fwImage) != m.fwDigest) && !Config.firmwareOk m.fwImage

/-- The step at which a start fails, 0 for none: the first in order of step 2, which the image decides, and the one that the manual leaves to the
part (R457). -/
def Mgmt.failedStep (m : Mgmt) (cold : Bool) (moment : Nat) : Nat :=
  let c := Config.startCode moment
  if c = 1 then 1 else if m.badFirmware cold then 2 else if 3 ≤ c ∧ c ≤ 7 then c else 0

/-- A start that goes into recovery: step 1 reads the fuses at a cold one, or fails; steps 2 and 3 follow with an image from the management channel
(R457, R459). -/
def Mgmt.recovery (m : Mgmt) (moment : Nat) : Mgmt :=
  let bad := Config.startCode moment == 1
  { m with starting := 0, kind := 3, recov := true, code := if bad then 1 else 0, svn := if bad then m.svn else Config.fuseSvn }

/-- A start under way comes to its end: its steps are run in order until one fails, or all succeed; or the part is in recovery. What steps 4 and 5
leave out of use stands in the list that STFAIL names (R457, R459). -/
def State.finishStart (s : State) : State :=
  let t := { s with fresh := s.fresh + 1 }
  let cold := s.mgmt.starting == 1
  if s.mgmt.starting = 3 then { t with mgmt := s.mgmt.recovery s.fresh }
  else
    let c := s.mgmt.failedStep cold s.fresh
    let ps := (indexed 0 t.pages).map fun (k, p) => p.start cold c s.fresh k
    { t with
      mgmt := s.mgmt.stepped cold c s.fresh
      mmem := if c = 0 ∨ 4 < c then
          t.mmem.write (Config.failList s.fresh).toNat (Config.failBytes (failedElems ps) (failedPages ps) (failedBanks ps)) else t.mmem
      pages := ps }

/-- RECOVERY_IMAGE: in recovery, an image goes through steps 2 and 3: one whose signature does not verify leaves code 0x02, and a failed
derivation of the keys 0x03; else it is stored, the count is cleared and the part starts again cold. Without a seed only re-provisioning is accepted
(R457, R459, R462). -/
def execRecoveryImage (image : List (BitVec 8)) (s : State) : Out :=
  let m := s.mgmt
  if !m.power || !m.recov || !m.seed then .next s
  else if !Config.firmwareOk image then .next { s with mgmt := { m with code := 2 } }
  else if Config.startCode s.fresh = 3 then .next { s with fresh := s.fresh + 1, mgmt := { m with code := 3 } }
  else .next ({ s with mgmt := { m with fwImage := image, failed := 0 } }.beginStart true)

/-! ### Attestation (R461, R463) -/

/-- Bytes of a signature. -/
def sigBytes : Nat := 4627

/-- STATE of a report. -/
def Mgmt.stateDword (m : Mgmt) : Nat := m.svn.toNat * 2 ^ 32 + m.alarm.toNat * 8 + m.kind.toNat

/-- The body of a report. -/
def State.reportBody (s : State) (nonce : List Byte) : List Byte :=
  padTo digestBytes nonce ++ padTo digestBytes s.mgmt.fwDigest ++ padTo digestBytes Config.identityDigest ++
  toBytes 8 s.mgmt.stateDword ++
  s.parts.flatMap fun p => padTo digestBytes (if p.enable then p.pldig else [])

/-- The report with its signature. -/
def State.report (s : State) (nonce : List Byte) : List Byte :=
  let b := s.reportBody nonce
  b ++ padTo sigBytes (Config.mldsaSign (sha3_512 b))

/-- Whether a report is ready: the last start succeeded (R457, step 7), or ALARM is 2, under which a request still produces one, though an alarm
during a start has failed it (R463). -/
def Mgmt.ready (m : Mgmt) : Bool := m.power && m.starting == 0 && (m.alarm == 2 || (m.code == 0 && !m.recov))

/-- ATTESTATION_REQUEST: the report is written where the request says; under ALARM 3 none is made. -/
def execAttestationRequest (nonce : List (BitVec 8)) (dst : Nat) (s : State) : Out :=
  if !s.mgmt.ready || s.mgmt.alarm == 3 then .next s
  else .next { s with mmem := s.mmem.write dst (s.report nonce) }

/-! ### Alarms (R462, R463) -/

/-- What every alarm does: the log entry (R462; log 124), ALARM, the management interrupt, and the failure of a start under way, whose kind stands in KIND. -/
def State.alarmed (s : State) (k : Nat) : State :=
  let m := s.mgmt
  { s with mgmt := { m with
      alarm := BitVec.ofNat 2 (max m.alarm.toNat k)
      irqs := m.irqs + 1
      alarms := m.alarms ++ [k]
      code := if m.starting = 0 then m.code else 8
      kind := if m.starting = 0 then m.kind else BitVec.ofNat 2 m.starting
      starting := 0 } }

/-- What an alarm of class 2 adds: every partition halts, and session keys and memory keys are erased. -/
def State.alarmHalt (s : State) : State :=
  let t := s.resetAll
  { t with
    mgmt := { t.mgmt with sessions := false }
    parts := t.parts.map fun p => { p with memKey := none } }

/-- ALARM_CLASS_1. -/
def execAlarmClass1 (s : State) : Out := if s.mgmt.power then .next (s.alarmed 1) else .next s

/-- ALARM_CLASS_2. -/
def execAlarmClass2 (s : State) : Out := if s.mgmt.power then .next (s.alarmHalt.alarmed 2) else .next s

/-- ALARM_CLASS_3: the seed is erased too, and the part starts only into recovery. -/
def execAlarmClass3 (s : State) : Out :=
  if s.mgmt.power then
    let t := s.alarmHalt.alarmed 3
    .next { t with mgmt := { t.mgmt with seed := false } }
  else .next s

/-! ### Power (R459) -/

/-- POWER_LOSS: all that the part held is lost but the count of failed starts, the stored image, the seed and the kept measurements; memory
outside the part stays. -/
def execPowerLoss (s : State) : Out :=
  .next { s with
    parts := List.replicate Config.partitions {}
    elems := []
    pages := s.pages.map (·.cleared true)
    mgmt := { s.mgmt.cleared true with power := false, svn := 0 } }

end Sys2Proof.Machine
end

