-- ==== Sys2Proof/Machine/RegWrite.lean ====
section
/-! DEFINITION. REGISTER_WRITE (R424): a write stores the fields of its register (R220, R237, R260, R313, R331, R372, R381, R419, R422, R424,
R427, R430, R441, R444, R454); one to a register that acts as it is written does what the event of that register does (R220, R237,
R313, R334, R372, R381, R419, R426, R427, R441, R460). A register that is read only keeps its value. -/

namespace Sys2Proof.Machine

/-- A value with its low `k` bits zero, for bases that read them as zero. -/
def alignDown (v k : Nat) : Dword := BitVec.ofNat 64 (v % 2 ^ 64 / 2 ^ k * 2 ^ k)

/-- The fields of TRCTL, those below the smallest SIZE acting as it (R441). -/
def trctlWord (v : Nat) : Word := BitVec.ofNat 32 (v / 16 % 2 ^ 25 * 16 &&& 0x1F1F1F00) ||| BitVec.ofNat 32 (max 4 (v % 16))

/-- PRNGk and PRLIMk, which keep their values while a launch of the partition runs (R422). -/
def Part.writePrivate (p : Part) (k : Nat) (lim : Bool) (v : Nat) : Part :=
  if !p.launches.isEmpty then p
  else if lim then { p with prlim := setAt p.prlim k (alignDown v 12) }
  else { p with prng := setAt p.prng k (alignDown v 12 ||| BitVec.ofNat 64 (v % 2)) }

/-- A register of a partition's page written. -/
def Part.writeReg (p : Part) (off v : Nat) : Part :=
  match off with
  | 0x018 => { p with lqpri := BitVec.ofNat 16 v }
  | 0x068 => { p with arq := alignDown v 13 }
  | 0x100 => { p with ttbase := alignDown v 12 }
  | 0x108 => { p with ttlim := BitVec.ofNat 16 v }
  | 0x118 => { p with fwlim := BitVec.ofNat 6 v }
  | 0x120 => Part.promote { p with pralloc := BitVec.ofNat 10 (min 512 (v % 1024)) }
  | 0x200 => { p with fcbase := alignDown v 12 }
  | 0x208 => { p with fcsize := BitVec.ofNat 4 (max 4 (v % 16)) }
  | 0x218 => { p with fcrd := BitVec.ofNat 32 v }
  | 0x300 => { p with mtbase := alignDown v 12 }
  | 0x310 => { p with cvpool := BitVec.ofNat 32 (v % 2 ^ 26) }
  | 0x400 => { p with pmbase := alignDown v 12 }
  | 0x480 => { p with lktab := alignDown v 13 }
  | 0x540 => { p with eqper := BitVec.ofNat 6 v }
  | 0x548 => { p with equota := BitVec.ofNat 64 v }
  | 0x550 => { p with eqiter := BitVec.ofNat 64 v }
  | 0x600 => { p with trbase := alignDown v 12 }
  | 0x608 => { p with trctl := trctlWord v }
  | 0x618 => { p with trrd := BitVec.ofNat 32 v }
  | 0x628 => { p with bklist := BitVec.ofNat 64 v }
  | 0x638 => { p with pladdr := BitVec.ofNat 64 v }
  | _ => if 0x700 ≤ off ∧ off < 0x780 ∧ off % 8 = 0 then p.writePrivate ((off - 0x700) / 16) (off % 16 == 8) v else p

/-- SLCFG of a page of a partition (R260): ignored while a launch holds the page. -/
def State.writeSlice (s : State) (n k v : Nat) : State :=
  match (s.part n).pageList[k]? with
  | none => s
  | some page =>
    if (s.part n).launches.any fun l => l.pages.contains page then s
    else s.modPage page fun g => { g with resw := BitVec.ofNat 4 (min 12 (v % 16)) }

/-- A floor contract written by the operator (R427). What already counts in FSUM stays as it was admitted: only a revocation, or the end of the
queue's last launch, lowers FSUM (R427, R428; log 119). -/
def State.writeContract (s : State) (n q v : Nat) : State :=
  s.modPart n fun p => { p with flq := setAt p.flq q (BitVec.ofNat 64 (v % 2 ^ 16 + bits v 37 32 * 2 ^ 32 + bits v 63 63 * 2 ^ 63)) }

/-- A register of the partition table (R419, R444) or a floor contract; the offsets are the model's (log 72). -/
def State.writeTable (s : State) (n off v : Nat) : State :=
  let free (f : Part → Part) : State := if (s.part n).enable then s else s.modPart n f
  match off with
  | 0x00 => free fun p => { p with depots := BitVec.ofNat 32 v }
  | 0x08 => free fun p => { p with pasid := BitVec.ofNat 20 v }
  | 0x10 => free fun p => { p with node := BitVec.ofNat 16 v }
  | 0x18 => free fun p => { p with lshare := BitVec.ofNat 9 (min 256 (v % 512)) }
  | 0x28 => s.modPart n fun p => { p with keyAddr := BitVec.ofNat 64 v }
  | _ => if 0x40 ≤ off ∧ off < 0x80 ∧ off % 8 = 0 then s.writeContract n ((off - 0x40) / 8) v else s

/-- A register of the operator's rings and counts (R454); the offsets are the model's (log 72). -/
def Mgmt.writeReg (m : Mgmt) (off v : Nat) : Mgmt :=
  match off with
  | 0x00 => { m with of := { m.of with base := alignDown v 12 } }
  | 0x08 => { m with ot := { m.ot with base := alignDown v 12 } }
  | 0x10 => { m with of := { m.of with size := BitVec.ofNat 4 (max 4 (v % 16)) } }
  | 0x18 => { m with ot := { m.ot with size := BitVec.ofNat 4 (max 4 (v % 16)) } }
  | 0x20 => { m with of := { m.of with rd := BitVec.ofNat 32 v } }
  | 0x28 => { m with ot := { m.ot with rd := BitVec.ofNat 32 v } }
  | 0x30 => { m with ocsel := BitVec.ofNat 64 (v % 2 ^ 32) }
  | _ => m

/-- FCCMD (R334): ACTION 0 resumes and 1 ends the region that the word names; another action is ignored, and so are the bits that the rule
does not name (R6). -/
def fccmdWrite (n v : Nat) (s : State) : Out :=
  match bits v 63 62 with
  | 0 => execFccmdResume n (bits v 34 32) (bits v 31 0) (bits v 45 40) s
  | 1 => execFccmdEnd n (bits v 34 32) (bits v 31 0) (bits v 45 40) s
  | _ => .next s

/-- GSCMD (R372): 2 skips and 3 retries; 0 and 1 are ignored. -/
def gscmdWrite (n v : Nat) (s : State) : Out :=
  match bits v 1 0 with
  | 2 => execGscmdSkip n s
  | 3 => execGscmdRetry n s
  | _ => .next s

/-- A register of an engine, by its place in the engine's table (R313): ENBASE, ENTAIL and ENCMD act, the others are read only. -/
def engineWrite (n g k v : Nat) (s : State) : Out :=
  match k with
  | 0 => execEnbaseWrite n g v s
  | 1 => execEntailWrite n g v s
  | 5 => encmd n g (·.engCtl n g (bits v 1 0)) s
  | _ => .next s

/-- A register of an enabled partition's page (R424). -/
def pageWrite (n off v : Nat) (s : State) : Out :=
  if off < 0x800 then
    match off with
    | 0x000 => execLcbaseWrite n v s
    | 0x008 => execLctailWrite n v s
    | 0x110 => execTtinvWrite n v s
    | 0x228 => fccmdWrite n v s
    | 0x308 => execMtinvWrite n v s
    | 0x318 => execGsbaseWrite n v s
    | 0x320 => execGstailWrite n v s
    | 0x340 => gscmdWrite n v s
    | 0x408 => execPminvWrite n v s
    | 0x630 => execBkcmdWrite n v s
    | 0x640 => if bit v 0 then execPlcmdLoad n s else .next s
    | _ => .next (s.modPart n fun p => p.writeReg off v)
  else if off % 8 ≠ 0 then .next s
  else if off < 0x1800 then engineWrite n ((off - 0x800) / 64) (off % 64 / 8) v s
  else if off < 0x1840 then engineWrite n linkEng (off % 64 / 8) v s
  else if off < 0x2000 then .next s
  else .next (if off % 16 = 0 then s.writeSlice n ((off - 0x2000) / 16) v else s)

/-- PTCTL of a partition (R419): RESET first, then what ENABLE is set to (log 72). -/
def ptctlWrite (n v : Nat) (s : State) : Out :=
  let f (t : State) : Out := if bit v 0 then execPtctlEnable n t else execPtctlDisable n t
  if bit v 1 then
    match execPtctlReset n s with
    | .next t => f t
    | o => o
  else f s

/-- A register of the management path that belongs to one partition: PTCTL acts; a contract written with REVOKE set is revoked, and nothing
is stored (R419, R427; log 72). -/
def tableWrite (n off v : Nat) (s : State) : Out :=
  if off = 0x20 then ptctlWrite n v s
  else if 0x40 ≤ off ∧ off < 0x80 ∧ off % 8 = 0 ∧ bit v 62 then
    .next (if flqValid ((s.part n).flq.getD ((off - 0x40) / 8) 0) then s.revoke n ((off - 0x40) / 8) else s)
  else .next (s.writeTable n off v)

/-- A register of the management path that belongs to no partition: DVCAP and STCMD act (R426, R460; log 72). -/
def deviceWrite (off v : Nat) (s : State) : Out :=
  match off with
  | 0x80 => execDvcapWrite v s
  | 0xD0 => if bit v 0 then execStcmdReset s else .next s
  | _ => .next { s with mgmt := s.mgmt.writeReg off v }

/-- REGISTER_WRITE: a partition's page is visible only while the partition is enabled (R419), ignores writes while a reset is under
way (R425), and takes writes of 8 bytes at multiples of 8 alone (R424). -/
def execRegisterWrite (a : RegAccess) (off v : Nat) (s : State) : Out :=
  match a.site with
  | .page n => if (s.part n).answers && a.width == 8 && off % 8 == 0 then pageWrite n off v s else .next s
  | .table n => tableWrite n off v s
  | .device => deviceWrite off v s

end Sys2Proof.Machine
end

