-- ==== Sys2Proof/Machine/Dispatch.lean ====
section
/-! DEFINITION. Dispatch: one arm for each constructor of Instr. -/

namespace Sys2Proof.Machine

def exec (i : Instr) (s : State) : Host.Outcome State Fault Refusal :=
  match i with
  | .add p sh u a b => Sys2Proof.Machine.execAdd p sh u a b s
  | .sub p sh u a b => Sys2Proof.Machine.execSub p sh u a b s
  | .mul p sh u a b => Sys2Proof.Machine.execMul p sh u a b s
  | .mulh p sh u a b => Sys2Proof.Machine.execMulh p sh u a b s
  | .mad p sh u a b => Sys2Proof.Machine.execMad p sh u a b s
  | .div p sh u a b => Sys2Proof.Machine.execDiv p sh u a b s
  | .rem p sh u a b => Sys2Proof.Machine.execRem p sh u a b s
  | .and_ p sh u a b => Sys2Proof.Machine.execAnd p sh u a b s
  | .or_ p sh u a b => Sys2Proof.Machine.execOr p sh u a b s
  | .xor p sh u a b => Sys2Proof.Machine.execXor p sh u a b s
  | .andn p sh u a b => Sys2Proof.Machine.execAndn p sh u a b s
  | .shl p sh u a b => Sys2Proof.Machine.execShl p sh u a b s
  | .shr p sh u a b => Sys2Proof.Machine.execShr p sh u a b s
  | .sra p sh u a b => Sys2Proof.Machine.execSra p sh u a b s
  | .rol p sh u a b => Sys2Proof.Machine.execRol p sh u a b s
  | .min p sh u a b => Sys2Proof.Machine.execMin p sh u a b s
  | .max p sh u a b => Sys2Proof.Machine.execMax p sh u a b s
  | .abs p sh u a b => Sys2Proof.Machine.execAbs p sh u a b s
  | .neg p sh u a b => Sys2Proof.Machine.execNeg p sh u a b s
  | .clz p sh u a b => Sys2Proof.Machine.execClz p sh u a b s
  | .popc p sh u a b => Sys2Proof.Machine.execPopc p sh u a b s
  | .brev p sh u a b => Sys2Proof.Machine.execBrev p sh u a b s
  | .bfx p sh u a b => Sys2Proof.Machine.execBfx p sh u a b s
  | .bfi p sh u a b => Sys2Proof.Machine.execBfi p sh u a b s
  | .cmp p c a b => Sys2Proof.Machine.execCmp p c a b s
  | .sel p a b => Sys2Proof.Machine.execSel p a b s
  | .sat p sh o u a b => Sys2Proof.Machine.execSat p sh o u a b s
  | .mov p sh u a b => Sys2Proof.Machine.execMov p sh u a b s
  | .nul p a b => Sys2Proof.Machine.execNul p a b s
  | .addr p u a b => Sys2Proof.Machine.execAddr p u a b s
  | .aoff p u a b => Sys2Proof.Machine.execAoff p u a b s
  | .aidx p u a b => Sys2Proof.Machine.execAidx p u a b s
  | .addi p im a => Sys2Proof.Machine.execAddi p im a s
  | .andi p im a => Sys2Proof.Machine.execAndi p im a s
  | .ori p im a => Sys2Proof.Machine.execOri p im a s
  | .xori p im a => Sys2Proof.Machine.execXori p im a s
  | .shli p n a => Sys2Proof.Machine.execShli p n a s
  | .shri p n a => Sys2Proof.Machine.execShri p n a s
  | .srai p n a => Sys2Proof.Machine.execSrai p n a s
  | .cmpi p c v a => Sys2Proof.Machine.execCmpi p c v a s
  | .movi p im a => Sys2Proof.Machine.execMovi p im a s
  | .movhi p im a => Sys2Proof.Machine.execMovhi p im a s
  | .litw p a k => Sys2Proof.Machine.execLitw p a k s
  | .muli p im a => Sys2Proof.Machine.execMuli p im a s
  | .get p n x a => Sys2Proof.Machine.execGet p n x a s
  | .put p n a => Sys2Proof.Machine.execPut p n a s
  | .getx p n x a => Sys2Proof.Machine.execGetx p n x a s
  | .putx p n a => Sys2Proof.Machine.execPutx p n a s
  | .rempty p n a => Sys2Proof.Machine.execRempty p n a s
  | .rfull p n a => Sys2Proof.Machine.execRfull p n a s
  | .fadd p sh f a b => Sys2Proof.Machine.execFadd p sh f a b s
  | .fsub p sh f a b => Sys2Proof.Machine.execFsub p sh f a b s
  | .fmul p sh f a b => Sys2Proof.Machine.execFmul p sh f a b s
  | .fma p sh f a b => Sys2Proof.Machine.execFma p sh f a b s
  | .fmin p sh f a b => Sys2Proof.Machine.execFmin p sh f a b s
  | .fmax p sh f a b => Sys2Proof.Machine.execFmax p sh f a b s
  | .fabs p sh f a b => Sys2Proof.Machine.execFabs p sh f a b s
  | .fneg p sh f a b => Sys2Proof.Machine.execFneg p sh f a b s
  | .fcmp p sh f a b => Sys2Proof.Machine.execFcmp p sh f a b s
  | .fclass p sh f a b => Sys2Proof.Machine.execFclass p sh f a b s
  | .frcp p sh f a b => Sys2Proof.Machine.execFrcp p sh f a b s
  | .frsq p sh f a b => Sys2Proof.Machine.execFrsq p sh f a b s
  | .fexp2 p sh f a b => Sys2Proof.Machine.execFexp2 p sh f a b s
  | .flog2 p sh f a b => Sys2Proof.Machine.execFlog2 p sh f a b s
  | .fsqrt p sh f a b => Sys2Proof.Machine.execFsqrt p sh f a b s
  | .fdiv p sh f a b => Sys2Proof.Machine.execFdiv p sh f a b s
  | .cvt p sh t k x m a => Sys2Proof.Machine.execCvt p sh t k x m a s
  | .cvti p sh f k u m a => Sys2Proof.Machine.execCvti p sh f k u m a s
  | .cvtf p t f x u m a => Sys2Proof.Machine.execCvtf p t f x u m a s
  | .scale p sh a => Sys2Proof.Machine.execScale p sh a s
  | .pack p h o u a b => Sys2Proof.Machine.execPack p h o u a b s
  | .unpack p h u a b => Sys2Proof.Machine.execUnpack p h u a b s
  | .bcast p w im a => Sys2Proof.Machine.execBcast p w im a s
  | .shuf p h a b => Sys2Proof.Machine.execShuf p h a b s
  | .rot p d f n a => Sys2Proof.Machine.execRot p d f n a s
  | .red p o g a => Sys2Proof.Machine.execRed p o g a s
  | .scan p o e a => Sys2Proof.Machine.execScan p o e a s
  | .topk p f k x a => Sys2Proof.Machine.execTopk p f k x a s
  | .lmask p m a => Sys2Proof.Machine.execLmask p m a s
  | .compact p h a b => Sys2Proof.Machine.execCompact p h a b s
  | .expand p h a b => Sys2Proof.Machine.execExpand p h a b s
  | .dot p sh f a b => Sys2Proof.Machine.execDot p sh f a b s
  | .in_ p n a => Sys2Proof.Machine.execIn p n a s
  | .eos p k a => Sys2Proof.Machine.execEos p k a s
  | .emit p k a => Sys2Proof.Machine.execEmit p k a s
  | .bound p l a => Sys2Proof.Machine.execBound p l a s
  | .filt p g w c f a => Sys2Proof.Machine.execFilt p g w c f a s
  | .merge p f t g a => Sys2Proof.Machine.execMerge p f t g a s
  | .gate p sh a => Sys2Proof.Machine.execGate p sh a s
  | .mark p a => Sys2Proof.Machine.execMark p a s
  | .drop p n a => Sys2Proof.Machine.execDrop p n a s
  | .ld p w c o x v n d => Sys2Proof.Machine.execLd p w c o x v n d s
  | .st p w c o v n a => Sys2Proof.Machine.execSt p w c o v n a s
  | .ldv p w c o x v n a => Sys2Proof.Machine.execLdv p w c o x v n a s
  | .stv p w c o v n a => Sys2Proof.Machine.execStv p w c o v n a s
  | .recl p c o n a => Sys2Proof.Machine.execRecl p c o n a s
  | .ldt p c o n a => Sys2Proof.Machine.execLdt p c o n a s
  | .stt p c o n a => Sys2Proof.Machine.execStt p c o n a s
  | .pref p c o n a => Sys2Proof.Machine.execPref p c o n a s
  | .gath p w c o x n d => Sys2Proof.Machine.execGath p w c o x n d s
  | .scat p w c o n a => Sys2Proof.Machine.execScat p w c o n a s
  | .aadd p w c o n a => Sys2Proof.Machine.execAadd p w c o n a s
  | .amin p w c o x n a => Sys2Proof.Machine.execAmin p w c o x n a s
  | .amax p w c o x n a => Sys2Proof.Machine.execAmax p w c o x n a s
  | .aand p w c o n a => Sys2Proof.Machine.execAand p w c o n a s
  | .aor p w c o n a => Sys2Proof.Machine.execAor p w c o n a s
  | .axor p w c o n a => Sys2Proof.Machine.execAxor p w c o n a s
  | .axch p w c o n a => Sys2Proof.Machine.execAxch p w c o n a s
  | .acas p w c o n a => Sys2Proof.Machine.execAcas p w c o n a s
  | .afadd p w c o n a => Sys2Proof.Machine.execAfadd p w c o n a s
  | .ascat p w c o n a => Sys2Proof.Machine.execAscat p w c o n a s
  | .fence p c o a => Sys2Proof.Machine.execFence p c o a s
  | .fencex p f t c a => Sys2Proof.Machine.execFencex p f t c a s
  | .spld p w c o v a => Sys2Proof.Machine.execSpld p w c o v a s
  | .spst p w c o v a => Sys2Proof.Machine.execSpst p w c o v a s
  | .flush p c o n a => Sys2Proof.Machine.execFlush p c o n a s
  | .pin p c o n a => Sys2Proof.Machine.execPin p c o n a s
  | .unpin p c o n a => Sys2Proof.Machine.execUnpin p c o n a s
  | .barm p n f a => Sys2Proof.Machine.execBarm p n f a s
  | .barr p n c r f a => Sys2Proof.Machine.execBarr p n c r f a s
  | .barw p n c q f a => Sys2Proof.Machine.execBarw p n c q f a s
  | .barx p n c r f a => Sys2Proof.Machine.execBarx p n c r f a s
  | .syni p a => Sys2Proof.Machine.execSyni p a s
  | .synw p a => Sys2Proof.Machine.execSynw p a s
  | .syna p a => Sys2Proof.Machine.execSyna p a s
  | .chapp p k im a => Sys2Proof.Machine.execChapp p k im a s
  | .chseq p k im a => Sys2Proof.Machine.execChseq p k im a s
  | .chwt p k im a => Sys2Proof.Machine.execChwt p k im a s
  | .chctl p k im x a => Sys2Proof.Machine.execChctl p k im x a s
  | .tdisp p a => Sys2Proof.Machine.execTdisp p a s
  | .mma p t z a => Sys2Proof.Machine.execMma p t z a s
  | .mmas p t z a => Sys2Proof.Machine.execMmas p t z a s
  | .mmap p t z a => Sys2Proof.Machine.execMmap p t z a s
  | .acz p t y a => Sys2Proof.Machine.execAcz p t y a s
  | .acrd p t d => Sys2Proof.Machine.execAcrd p t d s
  | .acwr p t a => Sys2Proof.Machine.execAcwr p t a s
  | .accv p t m x a => Sys2Proof.Machine.execAccv p t m x a s
  | .tagr p n a => Sys2Proof.Machine.execTagr p n a s
  | .tags p d n a => Sys2Proof.Machine.execTags p d n a s
  | .tfch p c r b n a => Sys2Proof.Machine.execTfch p c r b n a s
  | .trel p b a => Sys2Proof.Machine.execTrel p b a s
  | .tdsc p im a => Sys2Proof.Machine.execTdsc p im a s
  | .mlook p a => Sys2Proof.Machine.execMlook p a s
  | .pgld p n a => Sys2Proof.Machine.execPgld p n a s
  | .pgst p d n a => Sys2Proof.Machine.execPgst p d n a s
  | .pgnx p n d => Sys2Proof.Machine.execPgnx p n d s
  | .pgsv p n a => Sys2Proof.Machine.execPgsv p n a s
  | .pgrs p n a => Sys2Proof.Machine.execPgrs p n a s
  | .slhb p o a => Sys2Proof.Machine.execSlhb p o a s
  | .slht p a => Sys2Proof.Machine.execSlht p a s
  | .pgq p n a => Sys2Proof.Machine.execPgq p n a s
  | .phend p a => Sys2Proof.Machine.execPhend p a s
  | .ctxq p im a => Sys2Proof.Machine.execCtxq p im a s
  | .rateq p im a => Sys2Proof.Machine.execRateq p im a s
  | .sarm p n a => Sys2Proof.Machine.execSarm p n a s
  | .swait p n a => Sys2Proof.Machine.execSwait p n a s
  | .launch p q a => Sys2Proof.Machine.execLaunch p q a s
  | .trap p c a => Sys2Proof.Machine.execTrap p c a s
  | .brk p n a => Sys2Proof.Machine.execBrk p n a s
  | .csrr p c a => Sys2Proof.Machine.execCsrr p c a s
  | .csrw p c a => Sys2Proof.Machine.execCsrw p c a s
  | .nodeid p a => Sys2Proof.Machine.execNodeid p a s
  | .fcnt p im a => Sys2Proof.Machine.execFcnt p im a s
  | .eqrd p im a => Sys2Proof.Machine.execEqrd p im a s
  | .obsr p im d n a => Sys2Proof.Machine.execObsr p im d n a s
  | .haltr p a => Sys2Proof.Machine.execHaltr p a s
  | .lctailWrite n v => Sys2Proof.Machine.execLctailWrite n v s
  | .lcbaseWrite n v => Sys2Proof.Machine.execLcbaseWrite n v s
  | .takeLaunchEntry n => Sys2Proof.Machine.execTakeLaunchEntry n s
  | .startEntry n => Sys2Proof.Machine.execStartEntry n s
  | .placementRetry n => Sys2Proof.Machine.execPlacementRetry n s
  | .wavefrontAdmission r => Sys2Proof.Machine.execWavefrontAdmission r s
  | .elementSwitch e => Sys2Proof.Machine.execElementSwitch e s
  | .launchComplete l => Sys2Proof.Machine.execLaunchComplete l s
  | .firingStart e => Sys2Proof.Machine.execFiringStart e s
  | .firingComplete e no => Sys2Proof.Machine.execFiringComplete e no s
  | .fillArrival e v => Sys2Proof.Machine.execFillArrival e v s
  | .phaseEnd r => Sys2Proof.Machine.execPhaseEnd r s
  | .boundInputFeed r k => Sys2Proof.Machine.execBoundInputFeed r k s
  | .boundOutputDrain r k => Sys2Proof.Machine.execBoundOutputDrain r k s
  | .junctionRelease r k => Sys2Proof.Machine.execJunctionRelease r k s
  | .counterNodeForward r k => Sys2Proof.Machine.execCounterNodeForward r k s
  | .cornerTurn r k => Sys2Proof.Machine.execCornerTurn r k s
  | .agenInStep e k => Sys2Proof.Machine.execAgenInStep e k s
  | .agenOutStep e k => Sys2Proof.Machine.execAgenOutStep e k s
  | .duskMarkerCut e => Sys2Proof.Machine.execDuskMarkerCut e s
  | .trapAction r => Sys2Proof.Machine.execTrapAction r s
  | .rollback r => Sys2Proof.Machine.execRollback r s
  | .machineCheck site bank syn addr => Sys2Proof.Machine.execMachineCheck site bank syn addr s
  | .fccmdResume n q tseq k => Sys2Proof.Machine.execFccmdResume n q tseq k s
  | .fccmdEnd n q tseq k => Sys2Proof.Machine.execFccmdEnd n q tseq k s
  | .faultRecordWrite n => Sys2Proof.Machine.execFaultRecordWrite n s
  | .preempt r => Sys2Proof.Machine.execPreempt r s
  | .preemptionTimeout r => Sys2Proof.Machine.execPreemptionTimeout r s
  | .resumeRegion r => Sys2Proof.Machine.execResumeRegion r s
  | .quotaPeriodBoundary n => Sys2Proof.Machine.execQuotaPeriodBoundary n s
  | .atsCompletion n iova pa size r w => Sys2Proof.Machine.execAtsCompletion n iova pa size r w s
  | .pageResponseSuccess n iova => Sys2Proof.Machine.execPageResponseSuccess n iova s
  | .pageResponseFailure n iova code => Sys2Proof.Machine.execPageResponseFailure n iova code s
  | .faultWaitExpiry n iova => Sys2Proof.Machine.execFaultWaitExpiry n iova s
  | .drainResume r => Sys2Proof.Machine.execDrainResume r s
  | .invalidateRequest n lo hi => Sys2Proof.Machine.execInvalidateRequest n lo hi s
  | .globalInvalidate n => Sys2Proof.Machine.execGlobalInvalidate n s
  | .invalidateCompletion n => Sys2Proof.Machine.execInvalidateCompletion n s
  | .ttinvWrite n v => Sys2Proof.Machine.execTtinvWrite n v s
  | .ttinvComplete n => Sys2Proof.Machine.execTtinvComplete n s
  | .mtinvWrite n v => Sys2Proof.Machine.execMtinvWrite n v s
  | .pminvWrite n v => Sys2Proof.Machine.execPminvWrite n v s
  | .entailWrite n g v => Sys2Proof.Machine.execEntailWrite n g v s
  | .enbaseWrite n g v => Sys2Proof.Machine.execEnbaseWrite n g v s
  | .takeEngineEntry n g => Sys2Proof.Machine.execTakeEngineEntry n g s
  | .encmdPause n g => Sys2Proof.Machine.execEncmdPause n g s
  | .encmdResume n g => Sys2Proof.Machine.execEncmdResume n g s
  | .encmdSkip n g => Sys2Proof.Machine.execEncmdSkip n g s
  | .encmdRetry n g => Sys2Proof.Machine.execEncmdRetry n g s
  | .engineEntryStart n g => Sys2Proof.Machine.execEngineEntryStart n g s
  | .engineEntryComplete n g q => Sys2Proof.Machine.execEngineEntryComplete n g q s
  | .gstailWrite n v => Sys2Proof.Machine.execGstailWrite n v s
  | .gscmdSkip n => Sys2Proof.Machine.execGscmdSkip n s
  | .gscmdRetry n => Sys2Proof.Machine.execGscmdRetry n s
  | .takeTask n => Sys2Proof.Machine.execTakeTask n s
  | .pieceStart n q => Sys2Proof.Machine.execPieceStart n q s
  | .pieceComplete r => Sys2Proof.Machine.execPieceComplete r s
  | .hyperperiodBoundary l => Sys2Proof.Machine.execHyperperiodBoundary l s
  | .regulatorSettled l k => Sys2Proof.Machine.execRegulatorSettled l k s
  | .rateChangeApply l => Sys2Proof.Machine.execRateChangeApply l s
  | .marginReplan page plan => Sys2Proof.Machine.execMarginReplan page plan s
  | .ptctlEnable n => Sys2Proof.Machine.execPtctlEnable n s
  | .ptctlDisable n => Sys2Proof.Machine.execPtctlDisable n s
  | .ptctlReset n => Sys2Proof.Machine.execPtctlReset n s
  | .functionLevelReset n => Sys2Proof.Machine.execFunctionLevelReset n s
  | .dvcapWrite v => Sys2Proof.Machine.execDvcapWrite v s
  | .flqRevoke n q => Sys2Proof.Machine.execFlqRevoke n q s
  | .plcmdLoad n => Sys2Proof.Machine.execPlcmdLoad n s
  | .bkcmdWrite n v => Sys2Proof.Machine.execBkcmdWrite n v s
  | .ocvalRead => Sys2Proof.Machine.execOcvalRead s
  | .powerOn => Sys2Proof.Machine.execPowerOn s
  | .resetPin => Sys2Proof.Machine.execResetPin s
  | .stcmdReset => Sys2Proof.Machine.execStcmdReset s
  | .recoveryImage image => Sys2Proof.Machine.execRecoveryImage image s
  | .attestationRequest nonce dst => Sys2Proof.Machine.execAttestationRequest nonce dst s
  | .alarmClass1 => Sys2Proof.Machine.execAlarmClass1 s
  | .alarmClass2 => Sys2Proof.Machine.execAlarmClass2 s
  | .alarmClass3 => Sys2Proof.Machine.execAlarmClass3 s
  | .registerWrite site off v => Sys2Proof.Machine.execRegisterWrite site off v s
  | .gsbaseWrite n v => Sys2Proof.Machine.execGsbaseWrite n v s
  | .accessPerformed e k => Sys2Proof.Machine.execAccessPerformed e k s
  | .peerLinkTransfer n tok put data len => Sys2Proof.Machine.execPeerLinkTransfer n tok put data len s
  | .powerLoss => Sys2Proof.Machine.execPowerLoss s
  | .coincidentEdge r k => Sys2Proof.Machine.execCoincidentEdge r k s
  | .mtinvComplete n => Sys2Proof.Machine.execMtinvComplete n s
  | .pminvComplete n => Sys2Proof.Machine.execPminvComplete n s

end Sys2Proof.Machine
end

