-- ==== Sys2Proof/Machine/Drive.lean ====
section
/-! DEFINITION. How the moves of the agenda run (log 3): the issue of a slot (R68, R109, R110, R443), the cycle of an element, and
the step of the machine. -/

namespace Sys2Proof.Machine

/-! ### The issue of a slot -/

/-- Whether a slot's break bit is set (R443). -/
def Block.breaks (b : Block) (slot : Nat) : Bool := b.brk.getD slot false

/-- The slot under the cursor issues its instruction; one whose break bit is set raises the breakpoint trap in place of issuing,
unless that bit is to be ignored once (R334, R443). -/
def issueInstr (c : Cursor) (x : Elem) (b : Block) (i : Instr) (s : State) : Out :=
  if !b.breaks c.slot then exec i s
  else
    let pass := x.brkPass == some (c.no, c.epi, c.slot)
    match exec i s with
    | .next t =>
      if t = s then .next s
      else if pass then .next (t.modElem c.e fun y => { y with brkPass := none })
      else .next (s.raise c tcBreak 0 0 0)
    | o => o

/-- The issue of one slot of a firing in flight: its block is fetched (R68), and its instruction acts. -/
def issueAt (c : Cursor) (s0 : State) : Out :=
  let s := { s0 with cur := c }
  match s.elem? c.e with
  | none => .next s
  | some x =>
    match x.firing? c.no c.epi, x.block c.epi with
    | some f, some b =>
      if !s.runs x || (f.slots.getD c.slot { issued := true }).issued then .next s
      else match fetch b c.slot with
      | .bad cls cause => .next (s.raise c cls cause 0 0)
      | .instr i => issueInstr c x b i s
      | .nothing => .next s
    | _, _ => .next s

/-- The pipe of a slot: that of its instruction; the scalar one for a word that does not decode. -/
def Block.pipeOf (b : Block) (slot : Nat) : Bool :=
  match fetch b slot with
  | .instr i => (infoOf i).wide
  | _ => false

/-- The slots of a pipe that have not issued, oldest firing first and lowest slot first (R110). -/
def Elem.pipeSlots (x : Elem) (e : Nat) (wide : Bool) : List Cursor :=
  x.firings.flatMap fun f =>
    match x.block f.epi with
    | none => []
    | some b => (indexed 0 f.slots).filterMap fun (k, sl) =>
        if !sl.issued && b.pipeOf k == wide then some ⟨e, f.no, f.epi, k⟩ else none

/-- The first of several slots that is ready issues; with none, nothing happens. -/
def issueFirst : List Cursor → State → Out
  | [], s => .next s
  | c :: r, s =>
    match issueAt c s with
    | .next t => if t = { s with cur := c } then issueFirst r s else .next t
    | o => o

/-- One issue of a pipe of an element (R109, R110). -/
def pipeIssue (e : Nat) (wide : Bool) (s : State) : Out :=
  match s.elem? e with
  | none => .next s
  | some x => if s.runs x then issueFirst (x.pipeSlots e wide) s else .next s

/-! ### The cycle of an element -/

/-- FPSTAT with the flags that have become visible joined to it (R98). -/
def Elem.settleFlags (x : Elem) : Elem :=
  { x with cur := { x.cur with fpstat := x.fpstat, flagQ := x.cur.flagQ.filter fun q => decide (x.icyc < q.1) } }

/-- An element cycle in a region that is held or frozen: the island's cycles go on, and its buffers hold their tokens, but none is charged to a
port (R346, R411, R439). -/
def State.idleCycle (s : State) (e : Nat) (x : Elem) : Elem :=
  { s.clocked e x.countOcc with
    icyc := x.icyc + 1
    lastStart := x.lastStart.map (· + 1) }

/-- The moves of an element's cycle (R109): what is due leaves, and a firing that this completes makes room for the next one in the same cycle
(R10, R213); then the pipes issue. The wide pipe is taken first, so that an access that issues in the element cycle of a
scalar slot counts as issued before it (R183, log 26). -/
def cycleMoves (e : Nat) (x : Elem) : List Move :=
  let ends := ((x.firings.map (·.no)) ++ [x.started]).map fun k => Move.event (.firingComplete e k)
  [.event (.elementSwitch e), .emit e] ++ ends ++ [.event (.firingStart e), .pipe e true, .pipe e false] ++ ends

/-- An island edge of an element: a new element cycle begins (R190). -/
def edgeMove (e : Nat) (s : State) : Out :=
  match s.elem? e with
  | none => .next s
  | some x =>
    if !s.elemEdge x then .next s
    else match s.region? x.rref with
    | none => .next s
    | some g =>
      match g.st with
      | .preempted | .swapped | .ended => .next s
      | .held | .frozen => .next (s.setElem e (s.idleCycle e x))
      | _ =>
        let y := (s.watch e x).settleFlags
        .next { s.setElem e { y with icyc := y.icyc + 1 } with agenda := cycleMoves e x ++ s.agenda }

/-! ### Moves and steps -/

/-- Whether a row of the table is an instruction word. -/
def isWord (i : Instr) : Bool := !(encode i).isEmpty

/-- Whether an event is that of power being applied. -/
def isPowerOn : Instr → Bool
  | .powerOn => true
  | _ => false

/-- One move. An instruction word is no event: it acts only at a slot; and without power nothing happens but that it is applied. -/
def runMove (m : Move) (s : State) : Out :=
  match m with
  | .event i => if isWord i || !(s.mgmt.power || isPowerOn i) then .next s else exec i s
  | .issue c => issueAt c s
  | .pipe e wide => pipeIssue e wide s
  | .emit e => .next (s.emitAll e)
  | .pump l => .next (s.pumpLaunch l)
  | .accept l => .next (s.acceptLaunch l)
  | .edge e => edgeMove e s
  | .hostStore pa bytes => .next { s with mem := s.mem.write pa bytes }
  | .mgmtStore a bytes => .next { s with mmem := s.mmem.write a bytes }
  | .hostMap x => .next { s with iommu := x :: s.iommu }
  | .hostUnmap n lo hi =>
    .next { s with iommu := s.iommu.filter fun m => !(m.n == n && decide (lo < m.x.iova + m.x.size) && decide (m.x.iova < hi)) }
  | .hostAts n off => .next (s.modPart n fun p => { p with atsOff := off })

/-- The step of the machine: the next move of the agenda; or the end of a start that is under way; or the next master cycle. Without power
nothing runs. -/
def machineStep (s : State) : Out :=
  match s.agenda with
  | m :: r => runMove m { s with agenda := r }
  | [] =>
    if !s.mgmt.power then .fault .unpowered
    else if s.mgmt.starting ≠ 0 then .next s.finishStart
    else .next s.tick

/-! ### A program placed for the next step -/

/-- The words that a number of the opcode table stands for: its first word, and the zero or second word behind it. -/
def placedWords (w : Nat) : List Word := [BitVec.ofNat 32 w, BitVec.ofNat 32 (w / 2 ^ 32)]

/-- A block of words with its header (R32). -/
def blockOf (ws : List Word) : Block :=
  let h := (ws.length - 1) * 2 ^ 26
  let sum := ((List.range 7).map fun i => fld h (4 * i + 4) 4).sum % 16
  ⟨BitVec.ofNat 32 (h + sum), ws, List.replicate ws.length false⟩

/-- The island of a launch that holds one page: ratio 1/1 at the voltage of an empty plan. -/
def onePage : Island where
  reg := 0
  x := 0
  y := 0
  w := 1
  h := 1
  nomP := 1
  nomQ := 1
  p := 1
  q := 1
  dp := 0
  dq := 0
  mv := 0
  settled := true
  floor := 1

/-- An actor of one body, with no port. -/
def bareActor : ActorDesc where
  cin := List.replicate 8 0
  cout := List.replicate 8 0
  ii := 1
  d := 1
  nextT := 0
  nextF := 0
  epi := false
  inMask := 0
  outMask := 0
  live := 0

/-- A slot with an empty data token at every operand port. -/
def fedSlot : Slot :=
  let o : Opnd := ⟨dataTok 0 none, 0⟩
  ⟨false, some o, some o, some o, some o⟩

/-- The grant of an element that has everything: 256 registers, 48 KiB of scratchpad, 64 tiles. -/
def wideGrant : Word := BitVec.ofNat 32 (16 * 2 ^ 25 + 256 * 2 ^ 16 + 12 * 2 ^ 8)

/-- The element of a program that is placed: one context whose body is `ws`, with a firing in flight (log 2). -/
def placedElem (ref : LaunchRef) (ws : List Word) : Elem :=
  let b := blockOf ws
  let c : Ctx := ⟨bareActor, b, none, [], 1, []⟩
  { freshElem ref 0 0 0 wideGrant with
    cur := { freshSet with ctxs := [some c, none, none, none] }
    firings := [⟨0, false, List.replicate ws.length fedSlot, List.replicate 8 [dataTok 0 none], [], []⟩]
    started := 1 }

/-- The state with a program placed at element 0 for the next step: partition 0 enabled over the first depot, a launch of one page,
its element with a firing in flight, and the issue of the body's first slot at the head of the agenda (log 2). -/
def State.place (s : State) (ws : List Word) : State :=
  let ref : LaunchRef := ⟨0, 0, 1⟩
  let t := s.modPart 0 fun p =>
    { p with
      enable := true
      depots := 1
      launches := [freshLaunch ref [freshRegion 1 1 0 0 [0] []] [onePage]] }
  { t with elems := put 0 (placedElem ref ws) t.elems, agenda := .issue ⟨0, 0, false, 0⟩ :: t.agenda }

end Sys2Proof.Machine
end

