-- ==== Sys2Proof/Machine/Step.lean ====
section
/-! DEFINITION. The step of the machine, and how a program is placed for the next step. -/

namespace Sys2Proof.Machine

/-- One step: the next move of the agenda, or the next master cycle (log 3). -/
def step (s : State) : Host.Outcome State Fault Refusal := machineStep s

/-- The state with an instruction placed where the next step runs it: as the first slot of a body whose firing is in flight, its
words as the table numbers their bits, zeros behind (log 2). -/
def State.withFetchWord (s : State) (_nbits w : Nat) : State := s.place (placedWords w)

end Sys2Proof.Machine
end

