-- ==== Sys2Proof/Machine/RegRead.lean ====
section
/-! DEFINITION. What a read of each register gives (R424, and the tables of R220, R237, R260, R313, R331, R372, R381, R419, R422, R426,
R430, R432, R441, R454, R460). A read changes nothing; OCVAL alone has an event of its own, which forms its value. -/

namespace Sys2Proof.Machine

/-- The stream that ARQ names: its queue and TSEQ, its region, its index (R220). -/
def Part.queried (p : Part) : Option Stream :=
  let v := p.arq.toNat
  match p.launches.find? fun l => l.ref.q == bits v 63 61 && l.ref.seq % 2 ^ 32 == bits v 60 29 with
  | none => none
  | some l => ((l.regions[bits v 28 23]?).map fun g => g.streams[bits v 22 13]?).getD none

/-- ARV (R220, R465). -/
def Part.arv (p : Part) : Nat := ((p.queried).map fun q => q.arcs).getD 0xFFFF

/-- LCSTAT (R220). -/
def Part.lcstat (p : Part) : Nat := b2n p.lcBack + 2 * b2n p.lcCflt

/-- GSSTAT (R372). -/
def Sequencer.stat (g : Sequencer) : Nat := b2n g.back + 2 * b2n g.cflt + 4 * b2n g.stop

/-- A register of an engine at its place in the engine's table (R313); ENCMD is write only. -/
def Engine.readReg (e : Engine) (k : Nat) : Nat :=
  match k with
  | 0 => e.base.toNat
  | 1 => e.tail.toNat
  | 2 => e.head.toNat
  | 3 => e.seq.toNat
  | 4 => e.stat
  | _ => 0

/-- Dword `k` of a digest. -/
def digDword (d : List Byte) (k : Nat) : Nat := ofBytes ((d.drop (8 * k)).take 8)

/-- A register of the groups at 0x0000 to 0x03FF of a partition's page. -/
def Part.readLow (p : Part) (off : Nat) : Nat :=
  match off with
  | 0x000 => p.lcbase.toNat
  | 0x008 => p.lctail.toNat
  | 0x010 => p.lchead.toNat
  | 0x018 => p.lqpri.toNat
  | 0x060 => p.lcstat
  | 0x068 => p.arq.toNat
  | 0x070 => p.arv
  | 0x100 => p.ttbase.toNat
  | 0x108 => p.ttlim.toNat
  | 0x110 => b2n p.ttBusy * 2 ^ 31 + p.ttArg.toNat
  | 0x118 => p.fwlim.toNat
  | 0x120 => p.pralloc.toNat
  | 0x128 => p.prout
  | 0x130 => b2n p.fwx
  | 0x200 => p.fcbase.toNat
  | 0x208 => p.fcsize.toNat
  | 0x210 => p.fcwr.toNat
  | 0x218 => p.fcrd.toNat
  | 0x220 => b2n p.chainFull
  | 0x230 => p.fclost.toNat
  | 0x300 => p.mtbase.toNat
  | 0x308 => b2n p.mtBusy * 2 ^ 31 + p.mtArg.toNat
  | 0x310 => p.cvpool.toNat
  | 0x318 => p.gs.base.toNat
  | 0x320 => p.gs.tail.toNat
  | 0x328 => p.gs.head.toNat
  | 0x330 => p.gs.seq.toNat
  | 0x338 => p.gs.stat
  | _ => if 0x020 ≤ off ∧ off < 0x060 then (p.qseq.getD ((off - 0x020) / 8) 0).toNat else 0

/-- A register of the groups at 0x0400 to 0x07FF. -/
def Part.readHigh (p : Part) (off : Nat) : Nat :=
  match off with
  | 0x400 => p.pmbase.toNat
  | 0x408 => b2n p.pmBusy * 2 ^ 31
  | 0x480 => p.lktab.toNat
  | 0x540 => p.eqper.toNat
  | 0x548 => p.equota.toNat
  | 0x550 => p.eqiter.toNat
  | 0x558 => p.eqspent.toNat
  | 0x560 => p.eqdebt.toNat
  | 0x568 => p.eqtotal.toNat
  | 0x570 => p.mgstat.toNat
  | 0x600 => p.trbase.toNat
  | 0x608 => p.trctl.toNat
  | 0x610 => p.trwr.toNat
  | 0x618 => p.trrd.toNat
  | 0x620 => p.trdrop.toNat
  | 0x628 => p.bklist.toNat
  | 0x630 => b2n p.bkBusy * 2 ^ 31
  | 0x638 => p.pladdr.toNat
  | 0x648 => b2n p.plBusy * 2 ^ 8 + p.plcode.toNat
  | _ =>
    if 0x500 ≤ off ∧ off < 0x540 then (p.flq.getD ((off - 0x500) / 8) 0).toNat
    else if 0x650 ≤ off ∧ off < 0x690 then digDword p.pldig ((off - 0x650) / 8)
    else if 0x700 ≤ off ∧ off < 0x780 then ((if off % 16 = 0 then p.prng else p.prlim).getD ((off - 0x700) / 16) 0).toNat
    else 0

/-- Requests that wait for a pin in the slice of a page (R260, R266). -/
def State.pinWaiters (s : State) (n page : Nat) : Nat :=
  ((s.elems.filter fun q => q.2.l.n == n).map fun q => (q.2.acc.filter fun a => a.wait == .pin page).length).sum +
    ((s.part n).engines.map fun q => (q.2.entries.filter fun x => x.wait == .pin page).length).sum +
    ((s.part n).peerIn.filter fun x => x.wait == .pin page).length

/-- SLCFG and SLSTAT of a page (R260). -/
def State.readSlice (s : State) (n off : Nat) : Nat :=
  match (s.part n).pageList[(off - 0x2000) / 16]? with
  | none => 0
  | some page =>
    if off % 16 = 0 then (s.page page).resw.toNat
    else s.pinWaiters n page % 2 ^ 16 * 2 ^ 16 + (s.page page).vdir.length % 2 ^ 12

/-- A register of a partition's page (R424). -/
def State.readPage (s : State) (n off : Nat) : Nat :=
  let p := s.part n
  if off < 0x400 then p.readLow off
  else if off < 0x800 then p.readHigh off
  else if off < 0x1800 then
    let g := (off - 0x800) / 64
    if p.hasEng g then (p.eng g).readReg (off % 64 / 8) else 0
  else if off < 0x1840 then (p.eng linkEng).readReg (off % 64 / 8)
  else if off < 0x2000 then 0
  else s.readSlice n off

/-- A register of the partition table, a floor contract or a copy of a digest (R419, R427, R444, R454; log 72). -/
def Part.readTable (p : Part) (off : Nat) : Nat :=
  match off with
  | 0x00 => p.depots.toNat
  | 0x08 => p.pasid.toNat
  | 0x10 => p.node.toNat
  | 0x18 => p.lshare.toNat
  | 0x20 => b2n p.enable + 4 * b2n p.busy + 8 * b2n p.err
  | 0x28 => p.keyAddr.toNat
  | _ =>
    if 0x40 ≤ off ∧ off < 0x80 ∧ off % 8 = 0 then (p.flq.getD ((off - 0x40) / 8) 0).toNat
    else if 0x80 ≤ off ∧ off < 0xC0 ∧ off % 8 = 0 then digDword p.pldig ((off - 0x80) / 8)
    else 0

/-- DVSTAT (R426). -/
def Mgmt.dvstat (m : Mgmt) : Nat := b2n m.capinf + 2 * b2n m.floorx

/-- STSTAT (R460). -/
def Mgmt.ststat (m : Mgmt) : Nat :=
  m.svn.toNat * 2 ^ 32 + m.code.toNat * 2 ^ 8 + m.alarm.toNat * 2 ^ 3 + b2n m.recov * 2 ^ 2 + m.kind.toNat

/-- OCSEL, with the granularity in force for the class that it selects in LVL (R454). -/
def State.readOcsel (s : State) : Nat :=
  let v := s.mgmt.ocsel
  (s.part (ocPart v)).gran (ocPolicy (ocCls v)) * 2 ^ 32 + v.toNat % 2 ^ 32

/-- A register of the management path that belongs to no partition (R426, R454, R460; log 72). -/
def State.readDevice (s : State) (off : Nat) : Nat :=
  let m := s.mgmt
  match off with
  | 0x00 => m.of.base.toNat
  | 0x08 => m.ot.base.toNat
  | 0x10 => m.of.size.toNat
  | 0x18 => m.ot.size.toNat
  | 0x20 => m.of.rd.toNat
  | 0x28 => m.ot.rd.toNat
  | 0x30 => s.readOcsel
  | 0x38 => m.ocval.toNat
  | 0x40 => m.of.wr.toNat
  | 0x48 => m.ot.wr.toNat
  | 0x50 => m.ot.drop.toNat
  | 0x80 => m.cap.toNat
  | 0x88 => m.idle.toNat
  | 0x90 => m.sus
  | 0x98 => m.fsum.toNat
  | 0xA0 => m.dvstat
  | 0xC0 => m.ststat
  | 0xC8 => m.stfail.toNat
  | _ => 0

/-- The value of a register as it is read; a partition's page is visible only while the partition is enabled, and reads zero while a reset is
under way (R425); an offset that is not aligned to 8 bytes reads zero (R419, R424). -/
def State.readReg (s : State) (site : RegSite) (off width : Nat) : Nat :=
  if off % 8 ≠ 0 then 0
  else match site with
    | .page n => if (s.part n).answers && width == 8 then s.readPage n off else 0
    | .table n => (s.part n).readTable off
    | .device => s.readDevice off

end Sys2Proof.Machine
end

