-- ==== Sys2Proof/Safety.lean ====
section
/-! DEFINITION. What counts as a safe run: every step answers a next state, so neither the fault nor a refusal ends it. -/

namespace Sys2Proof

/-- The states that `k` steps from a state reach, with a next state at every one of them. -/
def Reaches (s : Machine.State) : Nat → Machine.State → Prop
  | 0, t => t = s
  | k + 1, t => ∃ u, Machine.step s = .next u ∧ Reaches u k t

/-- A state from which every run of `k` steps answers next states. -/
def SafeFor (s : Machine.State) (k : Nat) : Prop := ∃ t, Reaches s k t

end Sys2Proof
end

