-- ==== Sys2Proof/Certificates/Slice0/Obligations.lean ====
section
/-! DEFINITION. The statements for the provers, and the words they are written in. -/

namespace Sys2Proof.Claims

open Sys2Proof.Machine

/-! ### Words of the statements -/

/-- The slot under the cursor issues its instruction: it sends tokens that consumers can take after `lat` element cycles, and its element
is left as `y` otherwise. -/
def Issues (i : Instr) (s : State) (y : Elem) (lat : Nat) (outs : List (Nat × Tgt × Token)) : Prop :=
  exec i s = .next (s.setElem s.cur.e (y.issue s.cur lat outs))

/-- The slot issues and sends the data token `q`, with the tag of its operands, to every target of the instruction; flags `fl` are raised
for the cycle in which the result becomes available. -/
def Computes (i : Instr) (s : State) (x : Elem) (r : Args) (lat : Nat) (q : Payload) (fl : Nat) : Prop :=
  Issues i s (x.flags lat fl) lat (toAll i (dataTok q r.tag))

/-- The slot issues and sends one token to every target, its element otherwise left as `y`. -/
def Emits (i : Instr) (s : State) (y : Elem) (lat : Nat) (t : Token) : Prop := Issues i s y lat (toAll i t)

/-- The slot under the cursor raises a trap. -/
def Raises (i : Instr) (s : State) (cls cause : Nat) (addr detail : Dword) : Prop :=
  exec i s = .next (s.raise s.cur cls cause addr detail)

/-- Element `j` of width `w` of a payload. -/
abbrev el (w : Nat) (p : Payload) (j : Nat) : BitVec w := p.extractLsb' (w * j) w

/-- A payload has the elements that `f` gives for each of its first `n` places, and zeros behind them. -/
def Holds (n w : Nat) (q : Payload) (f : Nat → BitVec w) : Prop :=
  (∀ j, j < n → el w q j = f j) ∧ ∀ k, n * w ≤ k → q.getLsbD k = false

/-- Elements of a shape, and their width (R44). -/
def count : Shape → Nat
  | .s => 1
  | .d => 1
  | .v => 16
  | .h => 32
def width : Shape → Nat
  | .s => 32
  | .d => 64
  | .v => 32
  | .h => 16

/-- Each element of the result is a function of the elements at L, R and T, as many and as wide as the shape says; lanes outside them are
zero (R114). -/
def Lanewise (sh : Shape) (f : (w : Nat) → BitVec w → BitVec w → BitVec w → BitVec w) (r : Args) (q : Payload) : Prop :=
  Holds (count sh) (width sh) q fun j => f _ (el _ r.l.data j) (el _ r.r.data j) (el _ r.t.data j)

/-! ### Encoding and fetch -/

/-- Words of the manual's own examples, and what they stand for (the table after R51; R134, R142, R163, R270, R320, R393, R456). -/
def examples : List (List Word × Instr) :=
  [([0x012009FF], .add .none .v false (.slot 1 .l) .none),
   ([0x1C620108], .mov .t .v false (.out 0) .done),
   ([0x190837FF], .cmp .none .lt (.slot 6 .p) .none),
   ([0x28000B02], .addi .none 5 (.out 2)),
   ([0x70000004], .in_ .none 0 (.slot 1 .l)),
   ([0x3803020C], .get .none 12 true (.slot 3 .l)),
   ([0x95080708], .fencex .none .ce .ep .dev .done),
   ([0x3200001D, 0x3F800000], .litw .none (.slot 7 .r) 0x3F800000),
   ([0x432203FF], .fma .none .v .f32 (.out 1) .none),
   ([0x50050900], .cvt .none .fp32 .e4m3 0 true .rne (.out 0)),
   ([0x74368101], .filt .none true true 3 2 (.out 1)),
   ([0x80103407], .ld .none .b2 .elem .rlx true false 2 (.reg 7)),
   ([0x91378610], .acas .none .b8 .dev .ar 3 (.slot 4 .l)),
   ([0xA2015C18], .barw .none 5 .dev true false (.slot 6 .l)),
   ([0xC2002204], .pgnx .none 1 (.reg 4)),
   ([0xE704000C], .obsr .none 0 true 0 (.slot 3 .l))]

/-- A slot of an element that runs, of a firing in flight, not yet issued, whose block and instruction a fetch finds, with no break bit. -/
def Fetches (s : State) (c : Cursor) (i : Instr) : Prop :=
  ∃ x f b sl, s.elem? c.e = some x ∧ s.runs x = true ∧ x.firing? c.no c.epi = some f ∧ x.block c.epi = some b ∧
    f.slots[c.slot]? = some sl ∧ sl.issued = false ∧ b.breaks c.slot = false ∧
    headerOk b.header = true ∧ Sys2Proof.fld b.header.toNat 26 6 + 1 ≤ b.words.length ∧
    ∃ r, Sys2Proof.decode (b.words.drop c.slot) = .ok (i, r)

/-! ### Integer instructions (R114 to R126) -/

/-- The lowest and the highest number of a width. -/
def lowest (u : Bool) (w : Nat) : Int := if u then 0 else -(2 : Int) ^ (w - 1)
def highest (u : Bool) (w : Nat) : Int := if u then (2 : Int) ^ w - 1 else (2 : Int) ^ (w - 1) - 1

/-- An element read as a number. -/
def num {w : Nat} (u : Bool) (x : BitVec w) : Int := if u then (x.toNat : Int) else x.toInt

/-- Instructions of one result cycle or three that treat each element alone, their latencies and what they compute (R112, R116, R118, R119). -/
def integerTable (p : Pm) (sh : Shape) (u : Bool) (a b : Tgt) :
    List (Instr × Nat × ((w : Nat) → BitVec w → BitVec w → BitVec w → BitVec w)) :=
  [(.add p sh u a b, 1, fun _ x y _ => x + y),
   (.sub p sh u a b, 1, fun _ x y _ => x - y),
   (.mul p sh u a b, 3, fun _ x y _ => x * y),
   (.mulh p sh u a b, 3, fun w x y _ => BitVec.ofInt w (num u x * num u y / 2 ^ w)),
   (.mad p sh u a b, 3, fun _ x y z => x * y + z),
   (.and_ p sh u a b, 1, fun _ x y _ => x &&& y),
   (.or_ p sh u a b, 1, fun _ x y _ => x ||| y),
   (.xor p sh u a b, 1, fun _ x y _ => x ^^^ y),
   (.andn p sh u a b, 1, fun _ x y _ => x &&& ~~~y),
   (.shl p sh u a b, 1, fun w x y _ => x <<< (y.toNat % w)),
   (.shr p sh u a b, 1, fun w x y _ => x >>> (y.toNat % w)),
   (.sra p sh u a b, 1, fun w x y _ => x.sshiftRight (y.toNat % w)),
   (.rol p sh u a b, 1, fun w x y _ => x.rotateLeft (y.toNat % w)),
   (.min p sh u a b, 1, fun _ x y _ => if num u x ≤ num u y then x else y),
   (.max p sh u a b, 1, fun _ x y _ => if num u x ≤ num u y then y else x),
   (.abs p sh u a b, 1, fun _ x _ _ => if u then x else if x.msb then -x else x),
   (.neg p sh u a b, 1, fun _ x _ _ => -x)]

/-- CLZ, POPC and BREV, bit by bit (R119). -/
def bitTable (p : Pm) (sh : Shape) (u : Bool) (a b : Tgt) : List (Instr × ((w : Nat) → BitVec w → BitVec w)) :=
  [(.clz p sh u a b, fun w x => BitVec.ofNat w (((List.range w).takeWhile fun k => !x.getMsbD k).length)),
   (.popc p sh u a b, fun w x => BitVec.ofNat w (((List.range w).filter fun k => x.getLsbD k).length)),
   (.brev p sh u a b, fun _ x => x.reverse)]

/-- BFX: the field of `len` bits at `pos`, extended; bits beyond the element read as 0 (R120). -/
def bitField (u : Bool) (w : Nat) (x c : BitVec w) : BitVec w :=
  let pos := c.toNat % 64
  let len := Nat.min (c.toNat / 256 % 64) w
  let f := (x >>> pos).setWidth len
  if u then f.setWidth w else f.signExtend w

/-- BFI: the low `len` bits of the value at `pos` of the base (R120). -/
def bitInsert (w : Nat) (x y c : BitVec w) : BitVec w :=
  let pos := c.toNat % 64
  let len := Nat.min (c.toNat / 256 % 64) w
  let m := (BitVec.allOnes w >>> (w - len)) <<< pos
  (x &&& ~~~m) ||| ((y <<< pos) &&& m)

/-- DIV and REM of one element, with the two fixed cases of R117. -/
def quotient (u : Bool) (w : Nat) (x y : BitVec w) : BitVec w := if y = 0 then BitVec.allOnes w else if u then x / y else x.sdiv y
def remainder (u : Bool) (w : Nat) (x y : BitVec w) : BitVec w := if y = 0 then x else if u then x % y else x.srem y

/-- Element cycles of a division and of the divider's occupancy (R112). -/
def divLatency (sh : Shape) : Nat := if sh = .d then 20 else 12

/-- The ten conditions on two 32-bit lanes (R46). -/
def condition (c : Cond) (x y : BitVec 32) : Bool :=
  match c with
  | .eq => x == y
  | .ne => x != y
  | .lt => x.slt y
  | .le => x.sle y
  | .gt => y.slt x
  | .ge => y.sle x
  | .ltu => x.ult y
  | .leu => x.ule y
  | .gtu => y.ult x
  | .geu => y.ule x

/-- The immediate of CMPI: unsigned for the unsigned conditions, else signed (R47). -/
def compareImm (c : Cond) (v : BitVec 9) : BitVec 32 :=
  match c with
  | .ltu | .leu | .gtu | .geu => v.setWidth 32
  | _ => v.signExtend 32

/-- A number clamped to a width, and whether it was (R121). -/
def clamp (u : Bool) (w : Nat) (n : Int) : BitVec w × Bool :=
  if n < lowest u w then (BitVec.ofInt w (lowest u w), true)
  else if highest u w < n then (BitVec.ofInt w (highest u w), true)
  else (BitVec.ofInt w n, false)

/-- SAT of one element (R121). -/
def saturated (o u : Bool) (w : Nat) (x y : BitVec w) : BitVec w × Bool :=
  clamp u w (if o then num u x - num u y else num u x + num u y)

/-- The lanes that MOV copies (R124). -/
def moved (sh : Shape) (d : Payload) : Payload :=
  match sh with
  | .s => (d.setWidth 32).setWidth 512
  | .d => (d.setWidth 64).setWidth 512
  | .v | .h => d

/-- An address token: the tensor id above the offset (R126, R236). -/
def address (tid : BitVec 16) (off : BitVec 48) : Payload := (tid ++ off).setWidth 512

/-- Tensor id and offset of the address token at a port. -/
def tidAt (p : Payload) : BitVec 16 := p.extractLsb' 48 16
def offAt (p : Payload) : BitVec 48 := p.extractLsb' 0 48

/-- ADDR, AOFF and AIDX (R126). -/
def addressTable (p : Pm) (u : Bool) (a b : Tgt) : List (Instr × (Args → Payload)) :=
  [(.addr p u a b, fun r => address (r.l.data.setWidth 16) (r.r.data.setWidth 48)),
   (.aoff p u a b, fun r => address (tidAt r.l.data) (offAt r.l.data + (el 64 r.r.data 0).setWidth 48)),
   (.aidx p u a b, fun r => address (tidAt r.l.data)
     (BitVec.ofInt 48 (((offAt r.l.data).toNat : Int) + num u (el 64 r.r.data 0) * ((el 32 r.t.data 0).toNat : Int))))]

/-- The immediate instructions that compute 16 lanes of 32 bits, their latencies and a lane's result (R112, R127, R128). -/
def immediateTable (p : Pm) (i : BitVec 13) (n : BitVec 5) (k : BitVec 32) (a : Tgt) : List (Instr × Nat × (BitVec 32 → BitVec 32)) :=
  [(.addi p i a, 1, fun x => x + i.signExtend 32),
   (.andi p i a, 1, fun x => x &&& i.setWidth 32),
   (.ori p i a, 1, fun x => x ||| i.setWidth 32),
   (.xori p i a, 1, fun x => x ^^^ i.setWidth 32),
   (.shli p n a, 1, fun x => x <<< n.toNat),
   (.shri p n a, 1, fun x => x >>> n.toNat),
   (.srai p n a, 1, fun x => x.sshiftRight n.toNat),
   (.movi p i a, 1, fun _ => i.signExtend 32),
   (.movhi p i a, 1, fun x => (i.setWidth 32 <<< 19) ||| (x &&& 0x7FFFF)),
   (.muli p i a, 3, fun x => x * i.signExtend 32),
   (.litw p a k, 1, fun _ => k)]


/-! ### Floating-point instructions (R77, R130 to R140) -/

/-- Exponent bits, fraction bits and bias of the formats of the float instructions (R77). -/
def expBits : FFmt → Nat
  | .f16 => 5
  | _ => 8
def fracBits : FFmt → Nat
  | .f32 => 23
  | .bf16 => 7
  | .f16 => 10
def bias : FFmt → Nat
  | .f16 => 15
  | _ => 127

/-- Bits of an element, and elements of a shape (R134). -/
def floatWidth : FFmt → Nat
  | .f32 => 32
  | _ => 16
def floatCount (sh : Shape) (f : FFmt) : Nat := if sh = .s then 1 else 512 / floatWidth f

/-- The fields of a code. -/
def expField (f : FFmt) (c : Nat) : Nat := c / 2 ^ fracBits f % 2 ^ expBits f
def fracField (f : FFmt) (c : Nat) : Nat := c % 2 ^ fracBits f
def negative (f : FFmt) (c : Nat) : Bool := c.testBit (floatWidth f - 1)
def magnitude (f : FFmt) (c : Nat) : Nat := c % 2 ^ (floatWidth f - 1)

/-- The special codes (R77, R78). -/
def signBit (f : FFmt) : Nat := 2 ^ (floatWidth f - 1)
def infinity (f : FFmt) : Nat := (2 ^ expBits f - 1) * 2 ^ fracBits f
def canonicalNan (f : FFmt) : Nat := infinity f + 2 ^ (fracBits f - 1)
def isNan (f : FFmt) (c : Nat) : Bool := decide (infinity f < magnitude f c)
def isInf (f : FFmt) (c : Nat) : Bool := magnitude f c == infinity f
def finite (f : FFmt) (c : Nat) : Bool := decide (magnitude f c < infinity f)
def signed (f : FFmt) (s : Bool) (c : Nat) : Nat := if s then signBit f + c else c

/-- The value of a finite code (R77). -/
def rat (f : FFmt) (c : Nat) : ℚ :=
  (if negative f c then -1 else 1) *
    (if expField f c = 0 then (fracField f c : ℚ) * (2 : ℚ) ^ ((1 : Int) - bias f - fracBits f)
     else ((2 ^ fracBits f + fracField f c : Nat) : ℚ) * (2 : ℚ) ^ ((expField f c : Int) - bias f - fracBits f))

/-- Where rounding to nearest leaves the finite range: half a unit above the largest finite value (R86, R88). -/
def beyond (f : FFmt) : ℚ := (2 : ℚ) ^ bias f * (2 - (2 : ℚ) ^ (-(fracBits f : Int) - 1))

/-- The least magnitude that rounding to nearest with an exponent of any size leaves at the smallest normal value or above: half a unit below it (R89). -/
def tinyBelow (f : FFmt) : ℚ := (2 : ℚ) ^ ((1 : Int) - bias f) - (2 : ℚ) ^ (-(bias f : Int) - fracBits f - 1)

/-- The flags of a result rounded to nearest (R86, R88, R89, R96): OF beyond the range, UF if it is tiny and inexact, NX if it is not exact, never NV
or DZ. -/
def NearestFlags (f : FFmt) (q : ℚ) (c fl : Nat) : Prop :=
  (fl.testBit 2 = true ↔ beyond f ≤ |q|) ∧ (fl.testBit 3 = true ↔ |q| < tinyBelow f ∧ rat f c ≠ q) ∧
    (fl.testBit 4 = true ↔ beyond f ≤ |q| ∨ rat f c ≠ q) ∧ fl % 4 = 0 ∧ fl < 32

/-- `c` is the code nearest to a value that is not zero, ties to even; beyond the finite range, an infinity of its sign (R86, R88). -/
def Nearest (f : FFmt) (q : ℚ) (c : Nat) : Prop :=
  if beyond f ≤ |q| then c = signed f (decide (q < 0)) (infinity f)
  else c < 2 ^ floatWidth f ∧ finite f c = true ∧ negative f c = decide (q < 0) ∧
    ∀ d, d < 2 ^ floatWidth f → finite f d = true →
      |rat f c - q| ≤ |rat f d - q| ∧ (|rat f c - q| = |rat f d - q| → rat f c ≠ rat f d → c % 2 = 0)

/-- `c` is the code nearest to a real value that is not zero; beyond the finite range, an infinity of its sign (R86, R88). -/
def NearestReal (f : FFmt) (v : ℝ) (c : Nat) : Prop :=
  ((beyond f : ℝ) ≤ |v| → isInf f c = true ∧ c < 2 ^ floatWidth f ∧ (negative f c = true ↔ v < 0)) ∧
  (|v| < (beyond f : ℝ) → c < 2 ^ floatWidth f ∧ finite f c = true ∧ (negative f c = true ↔ v < 0) ∧
    ∀ d, d < 2 ^ floatWidth f → finite f d = true → |(rat f c : ℝ) - v| ≤ |(rat f d : ℝ) - v|)

/-- `c` is the code nearest to the positive value whose square is `q`. -/
def NearestRoot (f : FFmt) (q : ℚ) (c : Nat) : Prop :=
  c < signBit f ∧ finite f c = true ∧ ∀ d, d < signBit f → finite f d = true →
    (rat f c < rat f d → 4 * q ≤ (rat f c + rat f d) ^ 2) ∧ (rat f d < rat f c → (rat f c + rat f d) ^ 2 ≤ 4 * q)

/-- A place in the order of the codes that are no NaN, −0 below +0 (R137). -/
def place (f : FFmt) (c : Nat) : Int := if negative f c then -(magnitude f c : Int) - 1 else magnitude f c

/-- The relation of two codes, as FCMP numbers it; zeros of both signs are equal (R139). -/
def relation (f : FFmt) (x y : Nat) : Nat :=
  if isNan f x || isNan f y then 8
  else if magnitude f x = 0 ∧ magnitude f y = 0 then 2
  else if place f x < place f y then 1 else if place f x = place f y then 2 else 4

/-- The class mask of a code (R140). -/
def classMask (f : FFmt) (c : Nat) : Nat :=
  if isNan f c then 0x100
  else if isInf f c then (if negative f c then 0x01 else 0x80)
  else if magnitude f c = 0 then (if negative f c then 0x08 else 0x10)
  else if expField f c = 0 then (if negative f c then 0x04 else 0x20)
  else (if negative f c then 0x02 else 0x40)

/-- The lesser and the greater of two codes (R137). -/
def lesser (f : FFmt) (x y : Nat) : Nat :=
  if isNan f x then (if isNan f y then canonicalNan f else y)
  else if isNan f y then x else if place f x ≤ place f y then x else y
def greater (f : FFmt) (x y : Nat) : Nat :=
  if isNan f x then (if isNan f y then canonicalNan f else y)
  else if isNan f y then x else if place f x ≤ place f y then y else x

/-- The instructions that compare, classify or change a sign: a code and the flags it raises (R137 to R140). -/
def orderTable (p : Pm) (sh : Shape) (f : FFmt) (a b : Tgt) : List (Instr × (Nat → Nat → Nat × Nat)) :=
  [(.fmin p sh f a b, fun x y => (lesser f x y, 0)),
   (.fmax p sh f a b, fun x y => (greater f x y, 0)),
   (.fabs p sh f a b, fun x _ => (if isNan f x then canonicalNan f else magnitude f x, 0)),
   (.fneg p sh f a b, fun x _ => (if isNan f x then canonicalNan f else signed f (!negative f x) (magnitude f x), 0)),
   (.fcmp p sh f a b, fun x y => (relation f x y, if isNan f x || isNan f y then 1 else 0)),
   (.fclass p sh f a b, fun x _ => (classMask f x, 0))]

/-- The instructions that round, their latencies (R133), and what they compute of one element. -/
def arithTable (p : Pm) (sh : Shape) (f : FFmt) (a b : Tgt) : List (Instr × Nat × (Nat → Nat → Nat → Nat × Nat)) :=
  [(.fadd p sh f a b, 4, fun x y _ => faddE (FFmt.fmt f) x y),
   (.fsub p sh f a b, 4, fun x y _ => fsubE (FFmt.fmt f) x y),
   (.fmul p sh f a b, 4, fun x y _ => fmulE (FFmt.fmt f) x y),
   (.fma p sh f a b, 4, fun x y z => fmaE (FFmt.fmt f) x y z),
   (.fdiv p sh f a b, 12, fun x y _ => fdivE (FFmt.fmt f) x y),
   (.fsqrt p sh f a b, 12, fun x _ _ => fsqrtE (FFmt.fmt f) x),
   (.frcp p sh f a b, 8, fun x _ _ => frcpE (FFmt.fmt f) x),
   (.frsq p sh f a b, 8, fun x _ _ => frsqE (FFmt.fmt f) x),
   (.fexp2 p sh f a b, 8, fun x _ _ => fexp2E Config.functionTie (FFmt.fmt f) x),
   (.flog2 p sh f a b, 8, fun x _ _ => flog2E Config.functionTie (FFmt.fmt f) x)]

/-- The slot computes each of `n` elements of width `w` of its result as `g` says, and raises each flag that some element raises (R132). -/
def ComputesEach (i : Instr) (s : State) (x : Elem) (r : Args) (lat n w : Nat) (g : Nat → Nat × Nat) : Prop :=
  ∃ d fl, Computes i s x r lat d fl ∧ Holds n w d (fun j => BitVec.ofNat w (g j).1) ∧
    ∀ k, fl.testBit k = true ↔ ∃ j, j < n ∧ (g j).2.testBit k = true

/-- A product with an infinite factor that is valid: neither factor is a NaN or a zero (R135). -/
def infProduct (f : FFmt) (x y : Nat) : Bool :=
  (isInf f x || isInf f y) && !isNan f x && !isNan f y && magnitude f x != 0 && magnitude f y != 0

/-- Operands and results of the arithmetic that are no finite numbers: what each gives, and its flags (R77, R78, R135). -/
def specialTable (f : FFmt) (x y z : Nat) : List (Bool × (Nat × Nat) × (Nat × Nat)) :=
  let ps := negative f x != negative f y
  [(isInf f x && !isNan f y && !(isInf f y && ps), faddE (FFmt.fmt f) x y, (x, 0)),
   (finite f x && isInf f y, faddE (FFmt.fmt f) x y, (y, 0)),
   (isInf f x && !isNan f y && !(isInf f y && !ps), fsubE (FFmt.fmt f) x y, (x, 0)),
   (finite f x && isInf f y, fsubE (FFmt.fmt f) x y, (signed f (!negative f y) (infinity f), 0)),
   (infProduct f x y, fmulE (FFmt.fmt f) x y, (signed f ps (infinity f), 0)),
   (infProduct f x y && !isNan f z && !(isInf f z && (ps != negative f z)), fmaE (FFmt.fmt f) x y z, (signed f ps (infinity f), 0)),
   (infProduct f x y && isInf f z && (ps != negative f z), fmaE (FFmt.fmt f) x y z, (canonicalNan f, 1)),
   (infProduct f x y && isNan f z, fmaE (FFmt.fmt f) x y z, (canonicalNan f, 0)),
   (finite f x && finite f y && isInf f z, fmaE (FFmt.fmt f) x y z, (z, 0)),
   (isInf f x && finite f y, fdivE (FFmt.fmt f) x y, (signed f ps (infinity f), 0)),
   (finite f x && isInf f y, fdivE (FFmt.fmt f) x y, (signed f ps 0, 0)),
   (isInf f x && !negative f x, fsqrtE (FFmt.fmt f) x, (x, 0)),
   (isNan f x || isNan f y, faddE (FFmt.fmt f) x y, (canonicalNan f, 0)),
   (isNan f x || isNan f y, fsubE (FFmt.fmt f) x y, (canonicalNan f, 0)),
   (isNan f x || isNan f y, fmulE (FFmt.fmt f) x y, (canonicalNan f, 0)),
   (isNan f x || isNan f y, fdivE (FFmt.fmt f) x y, (canonicalNan f, 0)),
   (isNan f x || isNan f y, fmaE (FFmt.fmt f) x y z, (canonicalNan f, 0)),
   (isNan f x, fsqrtE (FFmt.fmt f) x, (canonicalNan f, 0)),
   (isInf f x && isInf f y && negative f x != negative f y, faddE (FFmt.fmt f) x y, (canonicalNan f, 1)),
   (isInf f x && isInf f y && negative f x == negative f y, fsubE (FFmt.fmt f) x y, (canonicalNan f, 1)),
   (isInf f x && magnitude f y == 0, fmulE (FFmt.fmt f) x y, (canonicalNan f, 1)),
   (magnitude f x == 0 && isInf f y, fmulE (FFmt.fmt f) x y, (canonicalNan f, 1)),
   (isInf f x && magnitude f y == 0, fmaE (FFmt.fmt f) x y z, (canonicalNan f, 1)),
   (magnitude f x == 0 && isInf f y, fmaE (FFmt.fmt f) x y z, (canonicalNan f, 1)),
   (finite f x && finite f y && isNan f z, fmaE (FFmt.fmt f) x y z, (canonicalNan f, 0)),
   (isInf f x && isInf f y, fdivE (FFmt.fmt f) x y, (canonicalNan f, 1)),
   (magnitude f x == 0 && magnitude f y == 0, fdivE (FFmt.fmt f) x y, (canonicalNan f, 1)),
   (finite f x && magnitude f x != 0 && magnitude f y == 0, fdivE (FFmt.fmt f) x y,
     (signed f (negative f x != negative f y) (infinity f), 2)),
   (magnitude f x == 0, fsqrtE (FFmt.fmt f) x, (x, 0)),
   (!isNan f x && negative f x && magnitude f x != 0, fsqrtE (FFmt.fmt f) x, (canonicalNan f, 1))]

/-- The special cases of the functions (R136). -/
def functionTable (f : FFmt) (x : Nat) : List (Bool × (Nat × Nat) × (Nat × Nat)) :=
  let zero := magnitude f x == 0
  let below := finite f x && negative f x && magnitude f x != 0
  [(zero, frcpE (FFmt.fmt f) x, (signed f (negative f x) (infinity f), 2)),
   (isInf f x, frcpE (FFmt.fmt f) x, (signed f (negative f x) 0, 0)),
   (isNan f x, frcpE (FFmt.fmt f) x, (canonicalNan f, 0)),
   (zero, frsqE (FFmt.fmt f) x, (signed f (negative f x) (infinity f), 2)),
   (isInf f x && !negative f x, frsqE (FFmt.fmt f) x, (0, 0)),
   (isInf f x && negative f x, frsqE (FFmt.fmt f) x, (canonicalNan f, 1)),
   (below, frsqE (FFmt.fmt f) x, (canonicalNan f, 1)),
   (isNan f x, frsqE (FFmt.fmt f) x, (canonicalNan f, 0)),
   (zero, fexp2E Config.functionTie (FFmt.fmt f) x, (bias f * 2 ^ fracBits f, 0)),
   (isInf f x && !negative f x, fexp2E Config.functionTie (FFmt.fmt f) x, (infinity f, 0)),
   (isInf f x && negative f x, fexp2E Config.functionTie (FFmt.fmt f) x, (0, 0)),
   (isNan f x, fexp2E Config.functionTie (FFmt.fmt f) x, (canonicalNan f, 0)),
   (zero, flog2E Config.functionTie (FFmt.fmt f) x, (signed f true (infinity f), 2)),
   (isInf f x && !negative f x, flog2E Config.functionTie (FFmt.fmt f) x, (infinity f, 0)),
   (isInf f x && negative f x, flog2E Config.functionTie (FFmt.fmt f) x, (canonicalNan f, 1)),
   (below, flog2E Config.functionTie (FFmt.fmt f) x, (canonicalNan f, 1)),
   (isNan f x, flog2E Config.functionTie (FFmt.fmt f) x, (canonicalNan f, 0)),
   (x == bias f * 2 ^ fracBits f, flog2E Config.functionTie (FFmt.fmt f) x, (0, 0))]

/-! ### Conversions and lane movement (R141 to R155) -/

/-- The slot computes elements `at_` to `at_ + n - 1` of width `w` as `g` says, zeros elsewhere, and raises each flag that some element
raises. -/
def ComputesPart (i : Instr) (s : State) (x : Elem) (r : Args) (lat at_ n w : Nat) (g : Nat → Nat × Nat) : Prop :=
  ∃ d fl, Computes i s x r lat d fl ∧ (∀ j, j < n → el w d (at_ + j) = BitVec.ofNat w (g j).1) ∧
    (∀ k, k < at_ * w ∨ (at_ + n) * w ≤ k → d.getLsbD k = false) ∧
    ∀ k, fl.testBit k = true ↔ ∃ j, j < n ∧ (g j).2.testBit k = true

/-- Where a conversion between widths reads and writes, and how many elements it converts (R141). -/
def converted (ws wt : Nat) : Nat := 512 / Nat.max ws wt
def readsFrom (ws wt k : Nat) : Nat := if ws < wt then k * converted ws wt else 0
def writesTo (ws wt k : Nat) : Nat := if wt < ws then k * converted ws wt else 0

/-- The rational value of a finite number. -/
def ratOf (s : Bool) (m : Nat) (e : Int) : ℚ := (if s then -1 else 1) * (m : ℚ) * (2 : ℚ) ^ e

/-- A rational rounded to an integer by a mode (R86). -/
def toInteger (m : Rm) (q : ℚ) : Int :=
  match m with
  | .rtz => if 0 ≤ q then ⌊q⌋ else ⌈q⌉
  | .rdn => ⌊q⌋
  | .rup => ⌈q⌉
  | .rne => if q - ⌊q⌋ < 1 / 2 ∨ (q - ⌊q⌋ = 1 / 2 ∧ ⌊q⌋ % 2 = 0) then ⌊q⌋ else ⌊q⌋ + 1

/-- A rational converted to an integer of a width, and the flags (R82). -/
def converts (m : Rm) (u : Bool) (w : Nat) (q : ℚ) : BitVec w × Nat :=
  let i := toInteger m q
  if i < lowest u w then (BitVec.ofInt w (lowest u w), 1)
  else if highest u w < i then (BitVec.ofInt w (highest u w), 1)
  else (BitVec.ofInt w i, if (i : ℚ) = q then 0 else 16)

/-- The value of a PS8 code (R83). -/
def ps8 (c : Nat) : ℚ :=
  (if c.testBit 7 then -1 else 1) * (2 : ℚ) ^ (-((c / 16 % 8 : Nat) : Int)) + (if c.testBit 3 then -1 else 1) * (2 : ℚ) ^ (-((c % 8 : Nat) : Int))

/-- Whether a PS8 code is what a mode makes of a value within ±2 (R84, R85). -/
def Ps8Of (m : Rm) (q : ℚ) (c : Nat) : Prop :=
  c < 256 ∧ (∀ d, d < 256 → ps8 d = ps8 c → c ≤ d) ∧
    match m with
    | .rne => ∀ d, d < 256 → |ps8 c - q| ≤ |ps8 d - q| ∧ (|ps8 c - q| = |ps8 d - q| → |ps8 c| ≤ |ps8 d|)
    | .rtz => |ps8 c| ≤ |q| ∧ 0 ≤ ps8 c * q ∧ ∀ d, d < 256 → 0 ≤ ps8 d * q → |ps8 d| ≤ |q| → |ps8 d| ≤ |ps8 c|
    | .rdn => ps8 c ≤ q ∧ ∀ d, d < 256 → ps8 d ≤ q → ps8 d ≤ ps8 c
    | .rup => q ≤ ps8 c ∧ ∀ d, d < 256 → q ≤ ps8 d → ps8 c ≤ ps8 d

/-- What becomes of a value beyond the range of an FP8 format, as its code without sign and its flags (R87): the largest finite value, or an infinity,
which in E4M3 is the canonical NaN. -/
def fp8Beyond (e4 : Bool) (m : Rm) (sat s : Bool) : Nat × Nat :=
  let mx := if e4 then 0x7E else 0x7B
  let sw := if s then 0x80 else 0
  if sat then (sw + mx, 4 + 32 + 16)
  else if m = .rtz ∨ (m = .rdn ∧ s = false) ∨ (m = .rup ∧ s = true) then (sw + mx, 4 + 16)
  else if e4 then (0x7F, 1 + 4 + 16) else (sw + 0x7C, 4 + 16)

/-- The floating-point formats that a conversion knows, their fraction bits and biases, and the codes of their largest finite values (R77). -/
def floatFormats : List Fmt := [.fp32, .bf16, .fp16, .e4m3, .e5m2]
def fracOf : Fmt → Nat
  | .fp32 => 23
  | .bf16 => 7
  | .fp16 => 10
  | .e4m3 => 3
  | _ => 2
def biasOf : Fmt → Nat
  | .fp32 | .bf16 => 127
  | .e4m3 => 7
  | _ => 15
def topCode : Fmt → Nat
  | .fp32 => 0x7F7FFFFF
  | .bf16 => 0x7F7F
  | .fp16 => 0x7BFF
  | .e4m3 => 0x7E
  | _ => 0x7B
def nanOf : Fmt → Nat
  | .fp32 => 0x7FC00000
  | .bf16 => 0x7FC0
  | .fp16 => 0x7E00
  | .e4m3 => 0x7F
  | _ => 0x7E

/-- The sign and the magnitude of a code, and the code of a sign and a magnitude. -/
def signOf (t : Fmt) (c : Nat) : Bool := c.testBit (Fmt.width t - 1)
def magOf (t : Fmt) (c : Nat) : Nat := c % 2 ^ (Fmt.width t - 1)
def withSign (t : Fmt) (s : Bool) (c : Nat) : Nat := if s then 2 ^ (Fmt.width t - 1) + c else c

/-- Codes of finite values are those up to the largest; the next is the infinity, which E4M3 has not (R77). -/
def finiteIn (t : Fmt) (c : Nat) : Bool := decide (magOf t c ≤ topCode t)
def infIn (t : Fmt) (c : Nat) : Bool := t != .e4m3 && magOf t c == topCode t + 1

/-- The value of a finite code (R77). -/
def valueOf (t : Fmt) (c : Nat) : ℚ :=
  let ex := magOf t c / 2 ^ fracOf t
  let fr := c % 2 ^ fracOf t
  (if signOf t c then -1 else 1) *
    (if ex = 0 then (fr : ℚ) * (2 : ℚ) ^ ((1 : Int) - biasOf t - fracOf t)
     else ((2 ^ fracOf t + fr : Nat) : ℚ) * (2 : ℚ) ^ ((ex : Int) - biasOf t - fracOf t))

/-- A mode takes values of a sign away from zero (R86). -/
def away (m : Rm) (s : Bool) : Bool := (m == .rup && !s) || (m == .rdn && s)

/-- A value's rounded magnitude exceeds the largest finite value, from which the next step is `ulp` away (R87, R88): in E4M3 the tie goes to 448. -/
def Overflows (t : Fmt) (m : Rm) (s : Bool) (q : ℚ) : Prop :=
  let top := valueOf t (topCode t)
  let ulp := top - valueOf t (topCode t - 1)
  if m = .rne then (if t = .e4m3 then top + ulp / 2 < |q| else top + ulp / 2 ≤ |q|)
  else if away m s then top < |q| else top + ulp ≤ |q|

/-- A value rounded with an exponent of any size is below the smallest normal value (R89). -/
def Tiny (t : Fmt) (m : Rm) (s : Bool) (q : ℚ) : Prop :=
  let least := (2 : ℚ) ^ ((1 : Int) - biasOf t)
  let ulp := (2 : ℚ) ^ (-(biasOf t : Int) - fracOf t)
  if m = .rne then |q| < least - ulp / 2 else if away m s then |q| ≤ least - ulp else |q| < least

/-- `c` is the finite code that a mode makes of a value of a sign (R86). -/
def RoundsTo (t : Fmt) (m : Rm) (s : Bool) (q : ℚ) (c : Nat) : Prop :=
  c < 2 ^ Fmt.width t ∧ finiteIn t c = true ∧ signOf t c = s ∧ ∀ d, d < 2 ^ Fmt.width t → finiteIn t d = true →
    match m with
    | .rne => |valueOf t c - q| ≤ |valueOf t d - q| ∧ (|valueOf t c - q| = |valueOf t d - q| → valueOf t c ≠ valueOf t d → c % 2 = 0)
    | .rtz => |valueOf t c| ≤ |q| ∧ (|valueOf t d| ≤ |q| → |valueOf t d| ≤ |valueOf t c|)
    | .rdn => valueOf t c ≤ q ∧ (valueOf t d ≤ q → valueOf t d ≤ valueOf t c)
    | .rup => q ≤ valueOf t c ∧ (q ≤ valueOf t d → valueOf t c ≤ valueOf t d)

/-- What becomes of a value beyond the range of a format (R87, R88). -/
def outcomeBeyond (t : Fmt) (m : Rm) (sat s : Bool) : Nat × Nat :=
  if t = .e4m3 ∨ t = .e5m2 then fp8Beyond (t == .e4m3) m sat s
  else (withSign t s (if m = .rne ∨ away m s = true then topCode t + 1 else topCode t), 4 + 16)

/-- A value that is not zero, rounded once to a format: its code and its flags. -/
def Rounds (t : Fmt) (m : Rm) (sat s : Bool) (q : ℚ) (r : Nat × Nat) : Prop :=
  (Overflows t m s q → r = outcomeBeyond t m sat s) ∧
  (¬ Overflows t m s q → RoundsTo t m s q r.1 ∧ (valueOf t r.1 = q → r.2 = 0) ∧
    (valueOf t r.1 ≠ q → (Tiny t m s q → r.2 = 8 + 16) ∧ (¬ Tiny t m s q → r.2 = 16)))

/-- What a NaN and an infinity become in a format (R85, R87, R88). -/
def nanInto (t : Fmt) : Nat × Nat := if t = .ps8 then (0x08, 1) else (nanOf t, 0)
def infInto (t : Fmt) (sat s : Bool) : Nat × Nat :=
  if t = .ps8 then (if s then 0x88 else 0x00, 4 + 32)
  else if (t = .e4m3 ∨ t = .e5m2) ∧ sat = true then (withSign t s (topCode t), 32)
  else if t = .e4m3 then (0x7F, 1) else (withSign t s (topCode t + 1), 0)

/-- PACK of one element: its low half, or clamped to the half's range (R145). -/
def packed (w : Nat) (o u : Bool) (v : BitVec w) : BitVec (w / 2) × Bool :=
  if o then clamp u (w / 2) (num u v) else (v.setWidth (w / 2), false)

/-- The width of the wider side of PACK and UNPACK (R145). -/
def wideSide (h : BitVec 2) : Nat := if h = 0 then 32 else if h = 1 then 16 else 64

/-- An element of UNPACK (R145). -/
def extended (u : Bool) (w v : Nat) (x : BitVec v) : BitVec w := if u then x.setWidth w else x.signExtend w

/-- Lane `i` of ROT (R148). -/
def rotated (d f : Bool) (n i : Nat) (l : Payload) : BitVec 32 :=
  if d then (if f ∧ 16 ≤ i + n then 0 else el 32 l ((i + n) % 16))
  else if f ∧ i < n then 0 else el 32 l ((i + 16 - n) % 16)

/-- The tree of RED over 2^k lanes from lane `i` on: value and flags (R150). -/
def tree (o : RedOp) (l : Payload) : Nat → Nat → Nat × Nat
  | 0, i => ((el 32 l i).toNat, 0)
  | k + 1, i =>
    let a := tree o l k i
    let b := tree o l k (i + 2 ^ k)
    let c := redOp o a.1 b.1
    (c.1, a.2 ||| b.2 ||| c.2)

/-- The accumulator of SCAN before lane `i`, and the flags so far (R151). -/
def prefixOf (o : RedOp) (l : Payload) : Nat → Nat × Nat
  | 0 => (redId o, 0)
  | i + 1 =>
    let a := prefixOf o l i
    let c := redOp o a.1 (el 32 l i).toNat
    (c.1, if i = 0 then 0 else a.2 ||| c.2)

/-- Whether lane `i` comes before lane `j` in TOPK's order (R152). -/
def topNan (int : Bool) (x : BitVec 32) : Bool := !int && isNan .f32 x.toNat
def topMag (int : Bool) (x : BitVec 32) : Nat := if int then x.toInt.natAbs else magnitude .f32 x.toNat
def topBefore (int : Bool) (l : Payload) (i j : Nat) : Bool :=
  let x := el 32 l i
  let y := el 32 l j
  if topNan int x then topNan int y && decide (i < j)
  else topNan int y || decide (topMag int y < topMag int x) || (topMag int x == topMag int y && decide (i < j))

/-- The place of a lane in TOPK's order. -/
def topRank (int : Bool) (l : Payload) (i : Nat) : Nat := ((List.range 16).filter fun j => topBefore int l j i).length

/-- Set bits of a mask below bit `n`. -/
def ones (m : Nat) (n : Nat) : Nat := ((List.range n).filter fun k => m.testBit k).length

/-- Elements and width of COMPACT, EXPAND and SHUF. -/
def laneWidth (h : Bool) : Nat := if h then 16 else 32
def laneCount (h : Bool) : Nat := if h then 32 else 16

/-- The mask at R. -/
def maskAt (h : Bool) (r : Args) : Nat := (el 32 r.r.data 0).toNat % 2 ^ laneCount h

/-- A payload whose lane 0 alone is not zero. -/
def onlyLane0 (v : BitVec 32) : Payload := v.setWidth 512

/-! ### Streams (R160 to R172) -/

/-- The slot issues in a state `t` that other effects of the instruction have made of `s`. -/
def IssuesIn (i : Instr) (s t : State) (y : Elem) (lat : Nat) (outs : List (Nat × Tgt × Token)) : Prop :=
  exec i s = .next (t.setElem s.cur.e (y.issue s.cur lat outs))

/-- What FILT sends of a record, by target field (0 ta, 2 the false port, 3 the condition port), and the output places it frees (R161,
R169). -/
def filtered (tagged cond : Bool) (c f : BitVec 3) (a : Tgt) (seq : Nat) (r : Args) : List (Nat × Tgt × Token) × List (Nat × Nat) :=
  let mark := fun (t : Token) => if tagged then { t with tag := some (BitVec.ofNat 16 seq) } else t
  let null := mark ⟨.null, 0, r.tag⟩
  let placeA : List (Nat × Nat) := match a with
    | .out o => [(0, o.toNat)]
    | _ => []
  if r.l.kind = .null ∨ r.t.kind = .null then
    if cond then ([(0, a, null), (2, .out f, null), (3, .out c, null)], []) else ([(2, .out f, null)], placeA)
  else
    let truth := r.t.data.getLsbD 0
    let told := if cond then [(3, Tgt.out c, mark ⟨.cond, if truth then 1 else 0, r.tag⟩)] else []
    if truth then ((0, a, mark r.l) :: told, [(2, f.toNat)]) else ((2, .out f, mark r.l) :: told, placeA)

/-! ### Memory instructions (R270 to R286) -/

/-- The access that a slot issues (R270, R273). -/
def request (s : State) (r : Args) (dst : Dst) (port : Nat) (path : Path) (op : AccOp) (scope : Scope) (ord : Ord) (width : Nat)
    (sx vec : Bool) : Access :=
  { id := 0, no := s.cur.no, epi := s.cur.epi, slot := s.cur.slot, dst := dst, tag := r.tag, port := port, path := path, op := op,
    tok := el 64 r.l.data 0, l := r.l.data, r := r.r.data, t := r.t.data, scope := scope, ord := ord, width := width, sx := sx,
    vec := vec, wait := .no }

/-- Bytes of a width code (R48). -/
def bytesOf : Width → Nat
  | .b1 => 1
  | .b2 => 2
  | .b4 => 4
  | .b8 => 8

/-- The memory instructions of opcodes 0x80 to 0x9A: their accesses, and the checks that they meet as they issue. -/
def memoryTable (s : State) (r : Args) (p : Pm) (w : Width) (k : Scope) (o : Ord) (x v : Bool) (n : BitVec 2) (a : Tgt) (d : Dst)
    (f t : Path) : List (Instr × Access × AccCheck) :=
  let m := n.toNat
  let b := bytesOf w
  [(.ld p w k o x v n d, request s r d m .ep .ld k o b x v, planChk (planRead false)),
   (.st p w k o v n a, request s r (.tgt a) m .ep .st k o b false v, planChk (planWrite false)),
   (.ldv p w k o x v n a, request s r (.tgt a) m .ep .ldv k o b x v, planChk (planRead true)),
   (.stv p w k o v n a, request s r (.tgt a) m .ep .stv k o b false v, planChk (planWrite true)),
   (.recl p k o n a, request s r (.tgt a) m .ep .recl k o 1 false false, planChk planRecl),
   (.ldt p k o n a, request s r (.tgt a) m .ep .ldt k o 1 false false, tileChk planLdt),
   (.stt p k o n a, request s r (.tgt a) m .ep .stt k o 1 false false, tileChk planStt),
   (.pref p k o n a, request s r (.tgt a) m .ep .pref k o 1 false false, noChk),
   (.flush p k o n a, request s r (.tgt a) m .ep .flush k o 1 false false, planChk planLine),
   (.pin p k o n a, request s r (.tgt a) m .ep .pin k o 1 false false, planChk planLine),
   (.unpin p k o n a, request s r (.tgt a) m .ep .unpin k o 1 false false, planChk planLine),
   (.gath p w k o x n d, request s r d m .gs .gath k o b x false, lanesChk false),
   (.scat p w k o n a, request s r (.tgt a) m .gs .scat k o b false false, lanesChk true),
   (.ascat p w k o n a, request s r (.tgt a) m .gs .ascat k o b false false, lanesChk true),
   (.aadd p w k o n a, request s r (.tgt a) m .ep (.atom .add) k o b false false, planChk (planWrite false)),
   (.amin p w k o x n a, request s r (.tgt a) m .ep (.atom .min) k o b x false, planChk (planWrite false)),
   (.amax p w k o x n a, request s r (.tgt a) m .ep (.atom .max) k o b x false, planChk (planWrite false)),
   (.aand p w k o n a, request s r (.tgt a) m .ep (.atom .and) k o b false false, planChk (planWrite false)),
   (.aor p w k o n a, request s r (.tgt a) m .ep (.atom .or) k o b false false, planChk (planWrite false)),
   (.axor p w k o n a, request s r (.tgt a) m .ep (.atom .xor) k o b false false, planChk (planWrite false)),
   (.axch p w k o n a, request s r (.tgt a) m .ep (.atom .xch) k o b false false, planChk (planWrite false)),
   (.acas p w k o n a, request s r (.tgt a) m .ep (.atom .cas) k o b false false, planChk (planWrite false)),
   (.afadd p w k o n a, request s r (.tgt a) m .ep (.atom .fadd) k o b false false, planChk (planWrite false)),
   (.fence p k o a, request s r (.tgt a) 4 .ep .fence k o 0 false false, noChk),
   (.fencex p f t k a, request s r (.tgt a) 4 f (.fencex f t) k .rlx 0 false false, noChk)]

/-- An access issues: its slot is issued, the access joins the element's list, and the register of a register form becomes pending, with the
state in which the access found it kept (R106, R271). -/
def pushed (c : Cursor) (q : Access) (y : Elem) : Elem :=
  let z := fun (was : RegSt) => { y.markIssued c with acc := y.acc ++ [{ q with id := y.accNext, was := was }], accNext := y.accNext + 1 }
  match q.dst with
  | .reg v => (z (y.regAt v.toNat).st).setReg v.toNat ⟨.pending, (y.regAt v.toNat).data⟩
  | .tgt _ => z .empty

/-- The register of a register form is granted and not pending (R107, R271). -/
def registerFree (x : Elem) : Dst → Prop
  | .reg v => v.toNat < x.regs ∧ (x.regAt v.toNat).st ≠ .pending
  | .tgt _ => True

/-- The slot issues its access `q` under a check: with what the check answers, it issues, issues and waits, or traps; and it is not ready
while another rule holds it back. -/
def IssuesAccess (i : Instr) (s : State) (x : Elem) (q : Access) (chk : AccCheck) : Prop :=
  (s.memReady s.cur x q = false → exec i s = .next s) ∧
  (s.memReady s.cur x q = true → registerFree x q.dst →
    (∀ t, chk s.cur.e x.l.n q s = .ok () t → exec i s = .next (t.modElem s.cur.e (pushed s.cur q))) ∧
    (∀ w t, chk s.cur.e x.l.n q s = .wait w t → exec i s = .next (t.modElem s.cur.e (pushed s.cur { q with wait := w }))) ∧
    ∀ z t, chk s.cur.e x.l.n q s = .stop z t → exec i s = .next (t.stopAt s.cur.e q z))

/-- Bytes as a little-endian number. -/
def little (bs : List Byte) : Nat := bs.foldr (fun b n => b.toNat + 256 * n) 0

/-- A loaded value in lanes (R274): a vector's 64 bytes; 8 bytes in lanes 0 and 1; else lane 0, extended. -/
def loaded (a : Access) (bs : List Byte) : Payload :=
  if a.vec then BitVec.ofNat 512 (little bs)
  else if a.width = 8 then (BitVec.ofNat 64 (little bs)).setWidth 512
  else if a.sx then ((BitVec.ofNat (8 * a.width) (little bs)).signExtend 32).setWidth 512
  else (BitVec.ofNat 32 (little bs)).setWidth 512

/-- The new value of an atomic of `w` bits (R280): the operand at R combines with the old value; that at T is what ACAS compares with. -/
def atomic (o : AtomOp) (sx : Bool) (w : Nat) (old r t : BitVec w) : BitVec w :=
  match o with
  | .add => old + r
  | .min => if num (!sx) old ≤ num (!sx) r then old else r
  | .max => if num (!sx) r ≤ num (!sx) old then old else r
  | .and => old &&& r
  | .or => old ||| r
  | .xor => old ^^^ r
  | .xch => r
  | .cas => if old = t then r else old
  | .fadd => BitVec.ofNat w (faddE .fp32 old.toNat r.toNat).1

/-! ### Slots (R11, R20, R21, R42, R107, R109) -/

/-- A token has arrived at a port that the instruction uses, and can be taken (R109, R112). -/
def Arrived (now : Nat) (used : Bool) (o : Option Opnd) : Prop := used = true → ∃ v, o = some v ∧ v.due ≤ now

/-- The tokens at the ports that an instruction uses; an empty data token stands for a port that it does not use. -/
def operands (i : Instr) (sl : Slot) : Args :=
  let at_ := fun (used : Bool) (o : Option Opnd) => if used then (o.map (·.tok)).getD ⟨.data, 0, none⟩ else ⟨.data, 0, none⟩
  ⟨at_ (infoOf i).l sl.l, at_ (infoOf i).r sl.r, at_ (infoOf i).t sl.t⟩

/-- The slot under the cursor has not issued, its operands have arrived, no rule of the register file or of the arcs holds it back, and the
unit that it needs is free (R107, R109). -/
def ReadySlot (s : State) (i : Instr) (x : Elem) (sl : Slot) : Prop :=
  ∃ f, s.elem? s.cur.e = some x ∧ s.runs x = true ∧ x.firing? s.cur.no s.cur.epi = some f ∧ f.slots[s.cur.slot]? = some sl ∧
    sl.issued = false ∧ Arrived x.icyc (infoOf i).l sl.l ∧ Arrived x.icyc (infoOf i).r sl.r ∧ Arrived x.icyc (infoOf i).t sl.t ∧
    Arrived x.icyc ((infoOf i).pm != .none) sl.p ∧ x.regFree s.cur sl i = true ∧ x.arcsFree s.cur (infoOf i).tgts = true ∧
    x.unitFree i = true

/-- The token at P. -/
def predTok (sl : Slot) : Token := (sl.p.map (·.tok)).getD ⟨.data, 0, none⟩

/-- Whether a token is an end-of-row or end-of-K token (R41). -/
def isMarker (t : Token) : Bool := t.kind == .row || t.kind == .kend

/-- The predicate lets the slot execute (R20). -/
def PredHolds (i : Instr) (sl : Slot) : Prop :=
  (infoOf i).pm = .none ∨ ((predTok sl).kind ≠ .null ∧ isMarker (predTok sl) = false ∧
    (predTok sl).data.getLsbD 0 = decide ((infoOf i).pm = .t))

/-- The predicate nullifies the slot: it does not match, or it is a null (R20, R21). -/
def PredFails (i : Instr) (sl : Slot) : Prop :=
  (infoOf i).pm ≠ .none ∧ ((predTok sl).kind = .null ∨ (isMarker (predTok sl) = false ∧
    (predTok sl).data.getLsbD 0 ≠ decide ((infoOf i).pm = .t)))

/-- No operand is a marker that the instruction does not accept (R42, R163). -/
def MarkersFit (i : Instr) (sl : Slot) : Prop :=
  (isMarker (operands i sl).l = true → (infoOf i).mkL = true) ∧ (isMarker (operands i sl).r = true → (infoOf i).mkR = true) ∧
    isMarker (operands i sl).t = false

/-- Some operand is a null. -/
def SomeNull (i : Instr) (sl : Slot) : Prop :=
  (operands i sl).l.kind = .null ∨ (operands i sl).r.kind = .null ∨ (operands i sl).t.kind = .null

/-- A FILT without a condition port with a null at P, which sends its null to its false port alone (R21). -/
def FiltAlone (i : Instr) (sl : Slot) : Prop :=
  (∃ p g c f a, i = .filt p g false c f a) ∧ (infoOf i).pm ≠ .none ∧ (predTok sl).kind = .null

/-! ### Barriers and sync words (R306 to R312, R320 to R323) -/

/-- A barrier whose generation is complete begins the next (R307, check). -/
def completes (b : Barrier) : Barrier :=
  if b.exp ≠ 0 ∧ b.arr = b.exp ∧ b.pbyt = 0 then { b with gen := b.gen + 1, arr := 0 } else b

/-- DETAIL of a barrier misuse (R308): barrier and home. -/
def misuseNo (x : Elem) (far : Bool) (k v : Nat) : Nat := 65536 * k + if far then v % 4096 else 64 * x.col + x.row
def misuse (x : Elem) (far : Bool) (k v : Nat) : Dword := BitVec.ofNat 64 (misuseNo x far k v)

/-- A barrier armed for `n` arrivals, and one at which an arrival with `x` pending bytes has come (R307). -/
def armed (b : Barrier) (n : Nat) : Barrier := completes { b with exp := BitVec.ofNat 16 n, flt := false }
def arrived (b : Barrier) (x : Nat) : Barrier := completes { b with arr := b.arr + 1, pbyt := b.pbyt + BitVec.ofNat 40 x }

/-- The cause of a misuse by an arrival (R308): not armed, one arrival too many, too many bytes. -/
def arrivalMisuse (b : Barrier) (x c : Nat) : Prop :=
  (b.exp = 0 ∧ c = 2) ∨ (b.exp ≠ 0 ∧ b.arr = b.exp ∧ c = 3) ∨ (b.exp ≠ 0 ∧ b.arr ≠ b.exp ∧ 2 ^ 40 ≤ x ∧ c = 5)

/-- A token with a number in lane 0. -/
def numTok (n : Nat) (tag : Option (BitVec 16)) : Token := ⟨.data, (BitVec.ofNat 32 n).setWidth 512, tag⟩

/-- A token with a 64-bit number in lanes 0 and 1. -/
def numTok64 (n : Nat) (tag : Option (BitVec 16)) : Token := ⟨.data, (BitVec.ofNat 64 n).setWidth 512, tag⟩

/-- A barrier after reports of `n` bytes (R307). -/
def barReported (b : Barrier) (n : Nat) : Barrier := completes { b with pbyt := b.pbyt - BitVec.ofNat 40 n }

/-- Whether a generation has passed another, modulo 2^24 (R321). -/
def passed (gen g : BitVec 24) : Prop := 1 ≤ (gen - g).toNat ∧ (gen - g).toNat < 2 ^ 23

/-- Fields of a sync word (R310). -/
def syncTarget (w : Nat) : Nat := w % 2 ^ 40
def syncCount (w : Nat) : Nat := w / 2 ^ 40 % 2 ^ 40
def syncGen (w : Nat) : Nat := w / 2 ^ 80 % 2 ^ 24
def syncOvr (w : Nat) : Bool := w.testBit 104
def syncFlt (w : Nat) : Bool := w.testBit 105

/-- A sync word after a report of `n` bytes (R311). -/
def SyncReported (w n v : Nat) : Prop :=
  syncTarget v = syncTarget w ∧ syncFlt v = syncFlt w ∧
  (syncTarget w = 0 → syncCount v = (syncCount w + n) % 2 ^ 40 ∧ syncGen v = syncGen w ∧ syncOvr v = syncOvr w) ∧
  (syncTarget w ≠ 0 → syncCount v = (syncCount w + n) % syncTarget w ∧
    syncGen v = (syncGen w + (syncCount w + n) / syncTarget w) % 2 ^ 24 ∧
    syncOvr v = (syncOvr w || decide (syncTarget w < syncCount w + n)))

/-- What the engine reports of a list add to one barrier or sync word (R309). -/
def reportsTo (rs : List Report) (sync : Bool) (k : Nat) : List Report := rs.filter fun r => r.sync == sync && r.at_ == k
def reportBytes (rs : List Report) (sync : Bool) (k : Nat) : Nat := ((reportsTo rs sync k).map (·.bytes)).sum

/-! ### Matrix unit (R94, R95, R360 to R366) -/

/-- The scaled values of a product at row `r`, column `c` and position `k` (R363, R365): buffer A holds rows, buffer B columns. -/
def valueA (f : Fmt) (b : FetchBuf) (r k : Nat) : Val := scaled f (b.els.getD (16 * r + k) 0).toNat (b.exp r)
def valueB (f : Fmt) (b : FetchBuf) (c k : Nat) : Val := scaled f (b.els.getD (16 * k + c) 0).toNat (b.exp c)

/-- One group of eight positions from `k` on: the accumulator and the exact products summed and rounded once (R94). -/
def groupSum (fa fb : Fmt) (a b : FetchBuf) (r c k : Nat) (acc : Nat) : Nat × Nat :=
  finishF .fp32 (dotSum (decVal .fp32 acc ::
    (List.range 8).map fun j => mmaProd (noNegZero fa && noNegZero fb) (valueA fa a r (k + j)) (valueB fb b c (k + j))))

/-- An element of an FP32 product: two groups, one after the other (R94). -/
def productElem (fa fb : Fmt) (a b : FetchBuf) (r c acc : Nat) : Nat × Nat :=
  let g := groupSum fa fb a b r c 0 acc
  let h := groupSum fa fb a b r c 8 g.1
  (h.1, g.2 ||| h.2)

/-- An element of an INT32 product, modulo 2^32 (R94). -/
def productInt (a b : FetchBuf) (r c : Nat) (acc : Word) : Word :=
  acc + BitVec.ofInt 32 (((List.range 16).map fun k =>
    ((a.els.getD (16 * r + k) 0).setWidth 8).toInt * ((b.els.getD (16 * k + c) 0).setWidth 8).toInt).sum)

/-- The product instructions: whether scales apply and whether A is PS8 (R365). -/
def productTable (p : Pm) (t : BitVec 9) (z : Bool) (a : Tgt) : List (Instr × Bool × Bool) :=
  [(.mma p t z a, false, false), (.mmas p t z a, true, false), (.mmap p t z a, false, true)]

/-- The instructions of variable latency beyond the memory chapter: their accesses, their checks, and a further condition without which
they are not ready (R315, R320, R327, R361, R368 to R371, R392, R235). -/
def unitTable (s : State) (y : Elem) (r : Args) (p : Pm) (t : BitVec 9) (m : Rm) (x : Bool) (n b : BitVec 2) (q : BitVec 3) (nb : BitVec 7)
    (k : Scope) (e : BitVec 6) (a : Tgt) (d : Dst) : List (Instr × Access × AccCheck × Bool) :=
  let far := fun (l : Payload) => (el 32 l 0).toNat % 4096
  let home := fun (l : Payload) => if x then far l else 4096
  let eng := if n = 1 then linkEng else e.toNat
  let pt := s.part y.l.n
  [(.tagr p n a, request s r (.tgt a) n.toNat .ep .tagr .elem .rlx 1 false false, tilePlanChk planTagr, true),
   (.tags p x n a, request s r (.tgt a) n.toNat .ep (.tags x) .elem .rlx 1 false false, tilePlanChk (planTags x), true),
   (.tfch p x false b n a, request s r (.tgt a) n.toNat .tf (.tfch b.toNat false x) .elem .rlx 1 false false, tfchChk b.toNat,
     y.mxReady s.cur (.tfch p x false b n a)),
   (.tfch p x true b n a, request s r (.tgt a) n.toNat .tf (.tfch b.toNat true x) .elem .rlx 1 false false, tfchChk b.toNat,
     y.mxReady s.cur (.tfch p x true b n a)),
   (.mlook p a, request s r (.tgt a) 0 .ep .mlook .elem .rlx 0 false false, noChk, true),
   (.pgld p n a, request s r (.tgt a) n.toNat .ep (.pgld n.toNat) .elem .rlx 0 false false, pgldChk, y.genFree s.cur n.toNat),
   (.pgnx p n d, request s r d n.toNat .ep (.pgnx n.toNat) .elem .rlx 0 false false, noChk, y.genFree s.cur n.toNat),
   (.pgrs p n a, request s r (.tgt a) n.toNat .ep (.pgrs n.toNat) .elem .rlx 0 false false, pgrsChk, y.genFree s.cur n.toNat),
   (.barr p nb k true x a, request s r (.tgt a) 4 .ep (.barrier false nb.toNat (home r.l.data)) k .rel 0 x false, homeChk, true),
   (.barx p nb k true x a, request s r (.tgt a) 4 .ep (.barrier true nb.toNat (home r.l.data)) k .rel 0 x false, homeChk, true),
   (.barm p nb true a, request s r (.tgt a) 4 .ep (.arm nb.toNat (far r.l.data)) .elem .rlx 0 true false, homeChk, true),
   (.barr p nb k false true a, request s r (.tgt a) 4 .ep (.barrier false nb.toNat (far r.l.data)) k .rlx 0 true false, homeChk, true),
   (.barx p nb k false true a, request s r (.tgt a) 4 .ep (.barrier true nb.toNat (far r.l.data)) k .rlx 0 true false, homeChk, true),
   (.tdisp p a, request s r (.tgt a) 4 .ep .tdisp .dev .rel 64 false false, planChk planEntry, decide (pt.gs.append.length < 16)),
   (.launch p q a, request s r (.tgt a) 4 .ep (.launch q.toNat) .dev .rel 64 false false, planChk planEntry,
     decide (pt.append.length < 16))] ++
  (if pt.hasEng eng then
    [(.chapp p n e a, request s r (.tgt a) 4 .ep (.chapp (64 * n.toNat + e.toNat)) .dev .rlx 64 false false, planChk planEntry,
      decide ((pt.eng eng).append.length < 16))] else []) ++
  (if t.toNat < y.accTiles then
    [(.accv p t m x a, request s r (.tgt a) 0 .ep (.accv t.toNat m x) .elem .rlx 1 false false, tilePlanChk planAccv,
      y.mxReady s.cur (.accv p t m x a))] else []) ++
  (if q.toNat ≤ 5 then
    [(.tdsc p q a, request s r (.tgt a) 0 .ep (.tdsc q.toNat) .elem .rlx 0 false false,
      fun e n b st => (st.object n (b.req e) (tokTid b.tok)).bind fun _ t => .ok () t, true)] else []) ++
  (if (y.gen n.toNat).st ≠ .idle then
    [(.pgst p x n a, request s r (.tgt a) n.toNat .ep (.pgst n.toNat x) .elem .rlx 0 false false, noChk, y.genFree s.cur n.toNat)] else [])

/-! ### Patterns (R391, R398 to R400) -/

/-- The members of a walk from a cursor on: at most 15, in order (R400). -/
def walked (m cur : Nat) : List Nat := ((List.range 256).filter fun k => decide (Nat.min cur 256 ≤ k) && m.testBit k).take 15

/-- The cursor that a walk leaves: behind the last member, or 256 if it is exhausted (R400). -/
def walkNext (m cur : Nat) : Nat :=
  if 15 < ((List.range 256).filter fun k => decide (Nat.min cur 256 ≤ k) && m.testBit k).length then (walked m cur).getLastD 0 + 1 else 256

/-- A payload that a walk emits. -/
def WalkHolds (m cur : Nat) (d : Payload) : Prop :=
  (∀ j, j < 15 → el 32 d j = BitVec.ofNat 32 ((walked m cur).getD j 0xFFFFFFFF)) ∧ el 32 d 15 = BitVec.ofNat 32 (walkNext m cur)

/-! ### Context and system instructions -/

/-- A payload with numbers in its first lanes, zeros elsewhere. -/
def lanesOf (xs : List Nat) : Payload := xs.foldr (fun n d => (d <<< 32) ||| (BitVec.ofNat 32 n).setWidth 512) 0

/-! ### Firings and streams (R10, R11, R160, R183 to R192, R226, R287 to R289) -/

/-- The conditions of R10, R13 and R111 for another firing of an element in context `c`: a place among the firings in flight, the interval,
the tokens before the first dusk marker at every used input port but those of MERGE arms, and the credit of every used output port. -/
def FiringDue (s : State) (l : Launch) (e : Nat) (x : Elem) (c : Ctx) : Prop :=
  x.firings.length < ceilDiv c.desc.d c.desc.ii ∧ (∀ t, x.lastStart = some t → c.iis ≤ x.icyc - t) ∧
    (∀ p, p < 8 → c.desc.cin.getD p 0 = 0 ∨ p ∈ x.armPorts ∨
      c.desc.cin.getD p 0 ≤ ((x.cur.inBuf.getD p []).takeWhile fun t => t.kind != .dusk).length) ∧
    ∀ p, p < 8 → c.desc.cout.getD p 0 = 0 ∨ s.hasCredit l e x p (c.desc.cout.getD p 0) = true

/-- A firing has nothing left to do: every slot has issued, and no output place is owed or held and no access of it has an emission to
come (R11). -/
def Finished (x : Elem) (f : Firing) : Prop :=
  (∀ sl ∈ f.slots, sl.issued = true) ∧ f.owed = [] ∧ f.held = [] ∧
    ∀ a ∈ x.acc, a.no = f.no → a.epi = f.epi → a.dst = .tgt .none ∨ ∃ v, a.dst = .reg v

/-- A counter level completes with the next token: it and every level inside it stand at their last count (R186). -/
def levelDone (n : CountNode) (i : Nat) : Bool := (List.range (i + 1)).all fun j => decide (n.trips.getD j 0 ≤ n.cnt.getD j 0 + 1)

/-- The marker of a level: end-of-row or end-of-K with the level in lane 0, or none (R186). -/
def markerOf (n : CountNode) (i : Nat) : List Token :=
  if n.kinds.getD i 0 = 1 then [⟨.row, BitVec.ofNat 512 i, none⟩] else if n.kinds.getD i 0 = 2 then [⟨.kend, BitVec.ofNat 512 i, none⟩] else []

/-- The 16 outputs of a corner turn of 16 rows (R188). -/
def turnedRows (rows : List Token) (out : List Token) : Prop :=
  out.length = 16 ∧ ((∃ t ∈ rows, t.kind = .null) → ∀ t ∈ out, t = ⟨.null, 0, none⟩) ∧
    ((∀ t ∈ rows, t.kind ≠ .null) → ∀ j, j < 16 → ∃ d, out[j]? = some ⟨.data, d, none⟩ ∧
      Holds 16 32 d fun i => el 32 ((rows.map (·.data)).getD i 0) j)

/-- A siding exchanges the state of its sides (R192): what was accepted becomes visible, freed credit is seen, and the windows against the marks go on. -/
def exchange (d : Siding) : Siding :=
  { d with
    fresh := [], ready := d.ready ++ d.fresh, freed := 0
    above := d.above && decide (d.hi < d.fresh.length + d.ready.length)
    below := d.below && decide (d.fresh.length + d.ready.length < d.lo) }

/-- The sidings of a border exchange: a single one when both islands have an edge, each member of a pair when its own has, and the two of a
two-wide stream together (R192 to R194). -/
def exchanged (consumer producer : Bool) (b : Border) : Border :=
  let each := fun (k : Bank) => { k with lanes := k.lanes.map exchange }
  match b.lead with
  | some a => { b with lead := some (if producer then each a else a), bank := if consumer then each b.bank else b.bank }
  | none => { b with bank := if consumer && producer then each b.bank else b.bank }

/-- A requester finds the translation of an address that permits its access: in its own cache, or else in the translation slice that serves it
(R246, R247). -/
def Translates (s : State) (n : Nat) (q : Req) (iova : Nat) (write : Bool) (x : Xlat) : Prop :=
  let ok := fun (y : Xlat) => y.covers iova && y.permits write
  (s.cacheOf q).tlb.find? ok = some x ∨
    ((s.cacheOf q).tlb.find? ok = none ∧ ((s.part n).slices.getD (s.sliceFor n q iova) []).find? ok = some x)

/-- A slice serves a line that is not resident, whose bytes are then `d`: it holds the line, or has a way free to fill it from memory (R260, R261). -/
def Serves (s : State) (n page line : Nat) (d : BitVec 1024) : Prop :=
  page < s.pages.length ∧ (s.page page).halted = false ∧
  ((∃ l, (s.page page).line? line = some l ∧ d = l.data) ∨
    ((∀ l ∈ (s.page page).lines, l.line ≠ line) ∧ d = s.memLine n line ∧
      ((s.page page).lines.filter fun (l : Line) => Machine.setOf l.line == Machine.setOf line && !l.resident).length <
        (s.page page).ways false (Machine.setOf line)))

/-- A slice serves a line for an object, whose bytes are then `d`: it holds a valid copy, or a stale one to refill, or it has a way that the object
may use, free or with an unpinned line to give up (R260, R261). -/
def ServesFor (s : State) (n page line : Nat) (res : Bool) (d : BitVec 1024) : Prop :=
  let g := s.page page
  let rway := res && g.resw != 0
  let sharers := g.lines.filter fun (l : Line) => Machine.setOf l.line == Machine.setOf line && l.resident == rway
  page < s.pages.length ∧ g.halted = false ∧
  ((∃ l, g.line? line = some l ∧ d = l.data) ∨
    ((∀ l ∈ g.lines, l.line = line → l.st = .stale) ∧ d = s.memLine n line ∧
      ((∃ l ∈ g.lines, l.line = line) ∨ sharers.length < g.ways rway (Machine.setOf line) ∨ ∃ l ∈ sharers, l.pins = 0)))

/-- Byte `j` of a line, and `len` bytes of it from byte `lo` on. -/
def byteOf (d : BitVec 1024) (j : Nat) : Byte := d.extractLsb' (8 * j) 8
def bytesFrom (d : BitVec 1024) (lo len : Nat) : List Byte := (List.range len).map fun j => byteOf d (lo + j)

/-- `d'` is `d` with the bytes that `f` gives at `lo` to `lo + len - 1`. -/
def Patched (d' d : BitVec 1024) (lo len : Nat) (f : Nat → Byte) : Prop :=
  ∀ j, j < 128 → byteOf d' j = if lo ≤ j ∧ j < lo + len then f (j - lo) else byteOf d j

/-- A line at its home slice, which serves it: its version directory entry, with the oldest and the newest live version (R268, R269). -/
def Versioned (s : State) (n line : Nat) (v : VEntry) (old new : BitVec 16) (d : BitVec 1024) : Prop :=
  let h := s.home n line
  h < s.pages.length ∧ (s.page h).halted = false ∧ (s.page h).ventry line = some v ∧ v.vers.head?.map (·.1) = some old ∧ v.vers.getLast? = some (new, d)

/-- A live and a future version number (R269). -/
def liveVersion (old new v : BitVec 16) : Prop := (v - old).toNat ≤ (new - old).toNat
def futureVersion (new v : BitVec 16) : Prop := 1 ≤ (v - new).toNat ∧ (v - new).toNat < 2 ^ 15

/-- The version number at R, and the bytes of an access. -/
def verAt (a : Access) : BitVec 16 := (el 32 a.r 0).setWidth 16
def lenOf (a : Access) : Nat := if a.vec then 64 else a.width

/-- Whether an order releases or acquires (R273). -/
def releases (o : Ord) : Prop := o = .rel ∨ o = .ar
def acquires (o : Ord) : Prop := o = .acq ∨ o = .ar

/-- No line of a page is dirty; none is clean that an acquire marks (R263). -/
def NoDirty (g : Page) : Prop := ∀ l ∈ g.lines, l.st ≠ .dirty
def AcquireMarked (g : Page) : Prop := ∀ l ∈ g.lines, l.st = .clean → l.ro = true ∨ l.pins ≠ 0

/-- Memory holds the bytes of a line. -/
def InMemory (m : Mem) (line : Nat) (d : BitVec 1024) : Prop := ∀ j, j < 128 → m.get (128 * line + j) = byteOf d j

/-- Lines of slices (R276, R286). Each says what an access that has found its line does. -/
def PrefFlush (s t : State) (e n : Nat) (a : Access) (p : Plan) : Prop :=
  let g := pageOf e
  let line := p.pa / 128
  (a.op = .pref → a.wait ≠ .drop → ∀ d, ServesFor t n g line p.obj.res d →
    ∃ u l, accDo a e n s = .ok (⟨.data, 1, none⟩, 0) u ∧ (u.page g).line? line = some l ∧ l.data = d) ∧
  (a.op = .flush → ∃ u, accDo a e n s = .ok (⟨.data, 1, none⟩, 0) u ∧
    ((∀ l ∈ (t.page g).lines, l.line ≠ line) → u = t) ∧
    ∀ l, (t.page g).lines.find? (fun m => m.line == line) = some l →
      (l.pins = 0 → ∀ m ∈ (u.page g).lines, m.line ≠ line) ∧
      (l.pins ≠ 0 → ∃ m, (u.page g).lines.find? (fun m => m.line == line) = some m ∧ m.data = l.data ∧ m.pins = l.pins ∧
        m.st = if l.st = .stale then .stale else .clean) ∧
      (l.st ≠ .dirty → u.mem = t.mem) ∧
      (l.st = .dirty → t.mem.wf = true → t.isPrivate n (128 * line) = false → InMemory u.mem line l.data))

/-- Pins of a line (R266, R286). -/
def PinUnpin (s t : State) (e n : Nat) (a : Access) (p : Plan) : Prop :=
  let g := pageOf e
  let line := p.pa / 128
  let set := Machine.setOf line
  let here := (t.page g).lines.filter fun (l : Line) => l.line == line
  let pins := ((here.head?).map (·.pins)).getD 0
  ∀ y, t.elem? e = some y → here.length ≤ 1 →
    (a.op = .pin →
      (∀ d, ServesFor t n g line p.obj.res d → pins < 255 → (0 < pins ∨ (t.page g).setPins set < 12) →
        ∃ u l z, accDo a e n s = .ok (numTok 1 none, 0) u ∧ (u.page g).line? line = some l ∧ l.data = d ∧ l.pins = pins + 1 ∧
          u.elem? e = some z ∧ z.pins = y.pins ++ [(g, line)]) ∧
      (pins = 0 → 12 ≤ (t.page g).setPins set →
        (12 ≤ (t.page g).setHardPins set (t.holder g) → accDo a e n s = .stop (.bounds 5) t) ∧
        ((t.page g).setHardPins set (t.holder g) < 12 → accDo a e n s = .wait (.pin g) t))) ∧
    (a.op = .unpin →
      ((g, line) ∉ y.pins → accDo a e n s = .ok (numTok 0 none, 0) t) ∧
      ((g, line) ∈ y.pins → ∃ u z, accDo a e n s = .ok (numTok 1 none, 0) u ∧ u.elem? e = some z ∧ z.pins = y.pins.erase (g, line) ∧
        ∀ l, here.head? = some l →
          (l.st ≠ .stale ∨ 1 < l.pins → ∃ m, (u.page g).lines.find? (fun m => m.line == line) = some m ∧ m.pins = l.pins - 1 ∧ m.data = l.data ∧ m.st = l.st) ∧
          (l.st = .stale → l.pins ≤ 1 → ∀ m ∈ (u.page g).lines, m.line ≠ line)))

/-- Versioned accesses at the home slice of their line (R268, R269, R279). -/
def VersionedAccess (s t : State) (e n : Nat) (a : Access) (p : Plan) : Prop :=
  let line := p.pa / 128
  let h := t.home n line
  ∀ v old new d, Versioned t n line v old new d →
    (a.op = .ldv →
      (liveVersion old new (verAt a) → ∀ w, v.vers.find? (fun w => w.1 == verAt a) = some w →
        accDo a e n s = .ok (⟨.data, loaded a (bytesFrom w.2 (p.pa % 128) (lenOf a)), none⟩, 0) (t.accAcquire (pageOf e) a)) ∧
      (¬ liveVersion old new (verAt a) → futureVersion new (verAt a) → accDo a e n s = .wait .no t) ∧
      (¬ liveVersion old new (verAt a) → ¬ futureVersion new (verAt a) → accDo a e n s = .stop .version t)) ∧
    (a.op = .stv →
      (4 ≤ v.vers.length → accDo a e n s = .wait .no t) ∧
      (v.vers.length < 4 → 12 ≤ (t.page h).setPins (Machine.setOf line) → accDo a e n s = .wait (.pin h) t) ∧
      (v.vers.length < 4 → (t.page h).setPins (Machine.setOf line) < 12 → ∀ u, t.freeWay n h (Machine.setOf line) = some u →
        ∃ z w d', accDo a e n s = .ok (numTok (new + 1).toNat none, 0) z ∧ (z.page h).ventry line = some w ∧
          w.vers = v.vers ++ [(new + 1, d')] ∧ p.obj.tid ∈ w.tids ∧ Patched d' d (p.pa % 128) (lenOf a) fun k => el 8 a.r k)) ∧
    (a.op = .recl → ∃ z w, accDo a e n s = .ok (⟨.data, 1, none⟩, 0) z ∧ (z.page h).ventry line = some w ∧ w.vers.Sublist v.vers ∧
      ∀ x, x ∈ w.vers ↔ x ∈ v.vers ∧ (x.1 = new ∨ ¬ (1 ≤ (verAt a - x.1).toNat ∧ (verAt a - x.1).toNat < 32768)))

/-- The first versioned access to a line in a launch (R268). -/
def FirstVersioned (s t : State) (e n : Nat) (a : Access) (p : Plan) : Prop :=
  let line := p.pa / 128
  let h := t.home n line
  h < t.pages.length → (t.page h).halted = false → (t.page h).ventry line = none →
    (a.op = .ldv ∨ a.op = .stv ∨ a.op = .recl → 2048 ≤ (t.page h).vdir.length → accDo a e n s = .stop (.bounds 6) t) ∧
    ((t.page h).vdir.length < 2048 → (t.page h).setPins (Machine.setOf line) < 12 → ∀ u, t.freeWay n h (Machine.setOf line) = some u →
      a.op = .ldv → verAt a = 0 → ∃ z v, accDo a e n s = .ok (⟨.data, loaded a (bytesFrom (u.memLine n line) (p.pa % 128) (lenOf a)), none⟩, 0) z ∧
        (z.page h).ventry line = some v ∧ v.vers = [(0, u.memLine n line)])

/-- Fences (R263, R284, R285). -/
def Fences (s : State) (e n : Nat) (a : Access) : Prop :=
  let g := pageOf e
  (a.op = .fence → ∃ u, accDo a e n s = .ok (⟨.data, 1, none⟩, 0) u ∧
    (Scope.wide a.scope = false → u = s) ∧
    (Scope.wide a.scope = true → releases a.ord → NoDirty (u.page g) ∧
      (s.mem.wf = true → ((s.page g).lines.map (·.line)).Nodup →
        ∀ l ∈ (s.page g).lines, l.st = .dirty → s.isPrivate n (128 * l.line) = false → InMemory u.mem l.line l.data)) ∧
    (Scope.wide a.scope = true → acquires a.ord → AcquireMarked (u.page g))) ∧
  ∀ f q, a.op = .fencex f q →
    (f = q → accDo a e n s = accDo { a with op := .fence, ord := .ar } e n s) ∧
    (f ≠ q → ∃ u, accDo a e n s = .ok (⟨.data, 1, none⟩, 0) u ∧
      (Scope.wide a.scope = false → u = s) ∧
      (Scope.wide a.scope = true →
        (f = .ep ∨ f = .gs → NoDirty (u.page g)) ∧
        (q = .ep ∨ q = .gs ∨ q = .tf → ∀ k ∈ s.pagesIn n g a.scope,
          (∀ l ∈ (u.page k).lines, l.st ≠ .clean) ∧
          (f = .ep ∨ f = .gs → (s.page k).halted = false → ∀ l ∈ (u.page k).lines, l.st = .stale))))

/-- Bytes of one line read and written through the slice of a page (R261, R293). -/
def SliceBytes (s : State) (n g pa len : Nat) (o : Obj) (bs : List Byte) : Prop :=
  let line := pa / 128
  pa % 128 + len ≤ 128 → bs.length = len →
    (∀ d, ServesFor s n g line o.res d → ∃ u, s.readPieces n g o [(pa, len)] = .ok (bytesFrom d (pa % 128) len) u) ∧
    (∀ d, ServesFor s n g line o.res d → ∃ u l, s.writePieces n g o [(pa, len)] bs false = .ok () u ∧ (u.page g).line? line = some l ∧
      l.st = .dirty ∧ o.tid ∈ l.tids ∧ Patched l.data d (pa % 128) len (fun k => bs.getD k 0) ∧
      (((s.page g).line? line).isSome = true → u.mem = s.mem)) ∧
    ∃ u, s.writePieces n g o [(pa, len)] bs true = .ok () u ∧
      (s.mem.wf = true → s.isPrivate n pa = false → ∀ a, u.mem.get a = if pa ≤ a ∧ a < pa + len then bs.getD (a - pa) 0 else s.mem.get a) ∧
      ((∀ l ∈ (s.page g).lines, l.line ≠ line) → (u.page g).lines = (s.page g).lines) ∧
      ∀ l, (s.page g).line? line = some l → ∃ m, (u.page g).line? line = some m ∧ m.st = l.st ∧ Patched m.data l.data (pa % 128) len (fun k => bs.getD k 0)

/-! ### Tiles and lanes (R278, R282, R283, R359, R363, R367 to R369) -/

/-- Bytes put over pieces of memory, one after another. -/
def putBytes (m : Mem) : List (Nat × Nat) → List Byte → Mem
  | [], _ => m
  | (pa, len) :: r, bs => putBytes (m.write pa (bs.take len)) r (bs.drop len)

/-- Places that are not private to a partition. -/
def Open (s : State) (n : Nat) (pas : List (Nat × Nat)) : Prop := ∀ q ∈ pas, s.isPrivate n q.1 = false

/-- The two bytes of a tag entry that holds a tag, and the tag in the low bits of a lane 0 (R357). -/
def tagEntryBytes (tag : Nat) : List Byte := [BitVec.ofNat 8 (tag % 256), BitVec.ofNat 8 (128 + tag / 256)]
def tagAt (p : Payload) : Nat := (el 32 p 0).toNat % 1024

/-- The effective tag of a tile: untyped objects have none, and a set entry overrides the descriptor (R357). -/
def tagOfTile (p : TilePlan) : Nat := if p.obj.tag = 0 then 0 else if p.entry.testBit 15 then p.entry % 1024 else p.obj.tag

/-- No page of a partition but one has a clean copy of a line of some places (R359). -/
def OthersStale (z : State) (n g : Nat) (pas : List (Nat × Nat)) : Prop :=
  ∀ k ∈ (z.part n).pageList, k ≠ g → ∀ q ∈ pas, ∀ l ∈ (z.page k).lines, l.line = q.1 / 128 → l.st ≠ .clean

/-- The home slice of a tag entry. -/
def entryHome (s : State) (n : Nat) (p : TilePlan) : Nat := s.home n (((p.entryPas.head?).map (·.1)).getD 0 / 128)

/-- A tile and its tag have been written as one unit from a state: through to memory, and no other slice keeps a clean copy (R359). -/
def TileWritten (u z : State) (n g : Nat) (p : TilePlan) (bs : List Byte) (tag : Nat) : Prop :=
  (Open u n p.pas → Open u n p.entryPas → NoDirty (u.page g) → z.mem = putBytes (putBytes u.mem p.pas bs) p.entryPas (tagEntryBytes tag)) ∧
  OthersStale z n g p.pas ∧ OthersStale z n (entryHome z n p) p.entryPas

/-- The element (r, c) of a dense tile that stands at place `k` of its stored bytes, for each layout (R363). -/
def TilePlace (d : BitVec 512) (t : TileAt) (lay r c k : Nat) : Prop :=
  let cols := Nat.min 16 (dSize d 0 - 16 * t.t0)
  let rows := Nat.min 16 (dUsed d 1 - 16 * t.t1)
  if lay = 0 then r < rows ∧ c < cols ∧ k = r * cols + c
  else if lay = 1 then r < rows ∧ c < cols ∧ k = c * rows + r
  else if lay = 2 then r < 16 ∧ c < 16 ∧ k = 16 * r + c
  else r < 16 ∧ c < 16 ∧ k = 128 * (c / 8) + 8 * r + c % 8

/-- Lane by lane, each from the state that the one before left. -/
def gathered (n g : Nat) (o : Obj) : List LanePlan → State → List (Nat × List Byte) → State → Prop
  | [], s, q, u => q = [] ∧ u = s
  | l :: r, s, q, u => ∃ bs v w, s.readPieces n g o l.pas = .ok bs v ∧ q = (l.j, bs) :: w ∧ gathered n g o r v w u
def inLanes (step : LanePlan → State → State → Nat → Prop) (e id : Nat) : List LanePlan → State → State → Prop
  | [], s, u => u = s
  | l :: r, s, u => ∃ v fl, step l s v fl ∧ inLanes step e id r (v.modElem e fun x => x.laneDone id l.j fl) u

/-- LDT, STT, TAGR and TAGS (R278, R359, R368). -/
def TagAccess (s t : State) (e n : Nat) (a : Access) (x : Elem) (p : TilePlan) : Prop :=
  let g := pageOf e
  (planLdt x n (.port e a.port) a s = .ok p t → a.op = .ldt → ∀ bs u y,
    (t.accAcquire g a).readPieces n g p.obj p.pas = .ok bs u → u.elem? e = some y → y.cur.scratch.wf = true →
    ∃ z y', accDo a e n s = .ok (numTok (tagOfTile p) none, 0) z ∧ z.mem = u.mem ∧ z.elem? e = some y' ∧
      ∀ b, y'.cur.scratch.get b = if a.image ≤ b ∧ b < a.image + bs.length then bs.getD (b - a.image) 0 else y.cur.scratch.get b) ∧
  (planStt x n (.port e a.port) a s = .ok p t → a.op = .stt → t.entryHeld n p.entryPas = false →
    ∃ z, accDo a e n s = .ok (⟨.data, 1, none⟩, 0) z ∧
      TileWritten (t.accRelease n g a) z n g p ((List.range (256 * p.obj.esz)).map fun k => x.cur.scratch.get (a.image + k)) (tagAt a.t)) ∧
  (planTagr n (a.req e) a s = .ok p t → a.op = .tagr →
    accDo a e n s = .ok (numTok (tagOfTile p + if p.entry.testBit 15 then 1024 else 0) none, 0) t) ∧
  (∀ d, planTags d n (a.req e) a s = .ok p t → a.op = .tags d → t.entryHeld n p.entryPas = false →
    ∃ z, accDo a e n s = .ok (⟨.data, 1, none⟩, 0) z ∧ OthersStale z n (entryHome z n p) p.entryPas ∧
      (Open t n p.entryPas → z.mem = putBytes t.mem p.entryPas (if d then [0, 0] else tagEntryBytes (tagAt a.r)))) ∧
  (∀ w, (planLdt x n (.port e a.port) a s = .wait w t ∧ a.op = .ldt) ∨ (planStt x n (.port e a.port) a s = .wait w t ∧ a.op = .stt) ∨
      (planTagr n (a.req e) a s = .wait w t ∧ a.op = .tagr) ∨ (∃ d, planTags d n (a.req e) a s = .wait w t ∧ a.op = .tags d) ∨
      (∃ k m f, planAccv n (a.req e) a s = .wait w t ∧ a.op = .accv k m f) → accDo a e n s = .wait w t) ∧
  ∀ (q : Req) (o : Obj) (i : TileAt) (w : Bool) (ps pas : List (Nat × Nat)) (u v : State), o.tag ≠ 0 →
    s.spans n q o 3 (toff o.d + 2 * i.n) 2 = .ok ps u → u.placed n q ps w = .ok pas v → v.entryHeld n pas = true →
    s.tagEntry n q o i w = .wait .no v

/-- ACCV (R359, R367). -/
def TileStored (s t : State) (e n : Nat) (a : Access) (x : Elem) (p : TilePlan) : Prop :=
  ∀ k m sat, planAccv n (a.req e) a s = .ok p t → a.op = .accv k m sat → t.entryHeld n p.entryPas = false →
    ∀ f, fmtOf (tagFmt (tagAt a.r)) = some f →
    let rs := (layOrder p.obj.d p.tile (tagLay (tagAt a.r))).map fun q =>
      cvtE (if (x.tileAt k).int then .int32 else .fp32) f sat m ((x.tileAt k).els.getD (16 * q.1 + q.2) 0).toNat
    ∃ z fl, accDo a e n s = .ok (⟨.data, 1, none⟩, fl) z ∧ (∀ b, fl.testBit b = true ↔ ∃ r ∈ rs, r.2.testBit b = true) ∧
      TileWritten t z n (pageOf e) p (rs.flatMap fun r => (List.range p.obj.esz).map fun j => BitVec.ofNat 8 (r.1 / 256 ^ j)) (tagAt a.r)

/-- TFCH (R362, R363, R369). -/
def TileFetched (s t : State) (e n : Nat) (a : Access) (p : FetchPlan) : Prop :=
  ∀ b roleB sc es u v bs w y, planFetch e n a s = .ok p t → a.op = .tfch b roleB sc → fetchScales e n a roleB sc p t = .ok es u →
    pinLines n (pageOf e) p.obj (linesOf (p.mask ++ p.pas)) u = .done v → v.readPieces n (pageOf e) p.obj p.pas = .ok bs w →
    w.elem? e = some y → b < y.bufs.length → p.order.Nodup → (∀ q ∈ p.order, q.1 < 16 ∧ q.2 < 16) →
    ∃ z y' f, accDo a e n s = .ok (⟨.data, lanesOf [b + (if roleB then 4 else 0) + (if sc then 8 else 0), p.tag], none⟩,
        if (es.any fun k => k.2) = true then 1 else 0) z ∧ z.elem? e = some y' ∧ y'.bufs[b]? = some f ∧ z.mem = w.mem ∧
      f.st = .full ∧ f.tag = BitVec.ofNat 10 p.tag ∧ f.roleB = roleB ∧ f.scaled = sc ∧ f.exps = es.map (fun k => BitVec.ofNat 8 k.1) ∧
      f.pins = ((p.mask ++ p.pas).map fun q => q.1 / 128).eraseDups.map (fun l => (pageOf e, l)) ∧
      ∀ r c, r < 16 → c < 16 →
        (∀ k, p.order[k]? = some (r, c) → f.els[16 * r + c]? = some (BitVec.ofNat 16 (little ((bs.drop (p.e * k)).take p.e)))) ∧
        ((r, c) ∉ p.order → f.els[16 * r + c]? = some (if tagFmt p.tag = 9 then 8 else 0))

/-- GATH, SCAT and ASCAT (R267, R282, R283). -/
def LaneAccess (s t : State) (e n : Nat) (a : Access) (o : Obj) (ls : List LanePlan) (write : Bool) : Prop :=
  let g := pageOf e
  let left := ls.filter fun l => decide (a.lanes ≤ l.j)
  let wide := Scope.wide a.scope
  planLanes write n (a.req e) a s = .ok (o, ls) t → a.width = 1 ∨ a.width = 2 ∨ a.width = 4 →
    ls.map (·.j) = ((List.range 16).filter fun j => el 32 a.r j != 0x80000000) ∧
    (write = false → a.op = .gath → ∀ q u, gathered n g o ls (t.accAcquire g a) q u →
      ∃ d, accDo a e n s = .ok (⟨.data, d, none⟩, 0) u ∧ ∀ j, j < 16 →
        (∀ bs, (j, bs) ∈ q → el 32 d j = el 32 (loaded { a with vec := false } bs) 0) ∧ ((∀ bs, (j, bs) ∉ q) → el 32 d j = 0)) ∧
    (write = true → a.op = .scat → ∀ u, inLanes (fun l v w fl => fl = 0 ∧
        v.writePieces n g o l.pas ((List.range a.width).map fun k => el 8 a.t (4 * l.j + k)) wide = .ok () w) e a.id left (t.accRelease n g a) u →
      accDo a e n s = .ok (⟨.data, 1, none⟩, 0) u) ∧
    (write = true → a.op = .ascat → ∃ fp : Nat → Bool, fp 1 = true ∧ fp 8 = false ∧
      ∀ u, inLanes (fun l v w fl => ∃ old, let r := (el 32 a.t l.j).toNat
          let pa := ((l.pas.head?).map (·.1)).getD 0
          (v.atomicAt n g (v.home n (pa / 128)) pa 4 o wide fun old => if fp l.fmt then (faddE .fp32 old r).1 else (old + r) % 2 ^ 32) = .ok old w ∧
          fl = if fp l.fmt then (faddE .fp32 old r).2 else 0) e a.id left (t.accRelease n g a) u →
        accDo a e n s = .ok (⟨.data, 1, none⟩, 0) u)

/-! ### Launches (R216 to R230) -/

/-- The queue field of a launch entry, and the engines that its two waits name (R222). -/
def queueOf (dw : List Dword) : Nat := Sys2Proof.fld (dw.getD 3 0).toNat 58 3
def waitsNamed (p : Part) (dw : List Dword) : Prop :=
  ∀ k ∈ [4, 5], p.wengOk (Sys2Proof.fld (dw.getD k 0).toNat 56 8) = true

/-- An entry taken from the host chain, or that a LAUNCH appended (R221, R222). -/
def taken (p : Part) (dw : List Dword) (q iova : Nat) (dev : Bool) : QEntry := ⟨dw, iova, dev, (p.taken.getD q 0 + 1) % 2 ^ 32, none⟩

/-- An entry stands at the tail of its queue; or, where a wait of it names no engine, it has completed with code 0x55 (R222, R223). -/
def Enqueued (p : Part) (dw : List Dword) (q iova : Nat) (dev : Bool) (r : Part) : Prop :=
  (waitsNamed p dw → r.queues.getD q [] = p.queues.getD q [] ++ [taken p dw q iova dev] ∧ r.qseq = p.qseq) ∧
  (¬ waitsNamed p dw → r.queues = p.queues ∧ r.qseq.getD q 0 = p.qseq.getD q 0 + 1)

/-- The queue whose head starts: its level is the lowest number that has a head that may start, and of the queues of that level it comes first
after the one served last (R224). -/
def Served (s : State) (n q : Nat) (x : QEntry) : Prop :=
  let p := s.part n
  let place := fun r => (r + 7 + 7 * p.qlast.getD (p.level r) 7) % 8
  q < 8 ∧ (p.queues.getD q []).head? = some x ∧ s.startable n x = true ∧
    ∀ r, r < 8 → r ≠ q → ∀ y, (p.queues.getD r []).head? = some y → s.startable n y = true →
      p.level q < p.level r ∨ (p.level q = p.level r ∧ place q < place r)

/-- The queue's level remembers that it was served. -/
def servedState (s : State) (n q : Nat) : State := s.modPart n fun p => { p with qlast := setAt p.qlast (p.level q) q }

/-- What an entry leaves that is refused: out of its queue, QSEQ advanced, and, of an entry of the host chain, LOAD and STAGE written in
this order (R223, R225). -/
def Refused (u t : State) (n q : Nat) (x : QEntry) (load stage : Nat) : Prop :=
  (t.part n).queues.getD q [] = ((u.part n).queues.getD q []).tail ∧ (t.part n).qseq.getD q 0 = (u.part n).qseq.getD q 0 + 1 ∧
  (∀ e, t.elem? e = u.elem? e) ∧
  let v := (u.dequeue n q).idleQueue n q
  (x.fromDev = false → t.mem = ((v.ioPut n (x.iova + 48) load).ioPut n (x.iova + 56) stage).mem) ∧ (x.fromDev = true → t.mem = u.mem)

/-- A launch record as the loader makes it (R26, R226). -/
def loadedLaunch (s : State) (n q : Nat) (x : QEntry) (m : Image) (spots : List Spot)
    (gs : List Region) (is : List Island) (dyad : Bool) (tracks : TrackUse) : Launch :=
  let l := { freshLaunch ⟨n, q, x.seq⟩ (readyRegions m spots (s.bindings n (x.d 2)) gs) is with
    entry := x.iova
    fromDev := x.fromDev
    image := BitVec.ofNat 64 (x.d 0)
    policy := if m.head.digest.any (· != 0) then m.head.digest else []
    pword := m.head.pword
    rateReg := m.head.rreg
    ratePort := m.head.rport
    rateN := m.head.rtok
    rateC := m.head.rcyc
    hyper := hyperOf is
    fDyad := dyad
    iter := (s.part n).eqiter.toNat
    tracks := tracks }
  { l with chains := s.chainsOf l m.chains }

/-- The launch runs: it stands in the partition's list, its entry is out of its queue, and its pages count no energy yet (R26, R104, R430). -/
def Runs (t u : State) (n q : Nat) (x : QEntry) : Prop :=
  (u.part n).launches.map (·.ref) = (t.part n).launches.map (·.ref) ++ [⟨n, q, x.seq⟩] ∧
  (u.part n).queues.getD q [] = ((t.part n).queues.getD q []).tail ∧ (u.part n).qseq = (t.part n).qseq

/-- What becomes of an image that has passed the loader and the graph checks (R217, R218, R225, R226). -/
def Tried (s u : State) (n q : Nat) (x : QEntry) (ds : List Nat) (m : Image) (vs : List (List (List DraftElem))) : Prop :=
  match s.placeLaunch n x m (placedElems ⟨n, q, x.seq⟩ m vs) with
  | (.refused r, _) => Refused s u n q x 0 r
  | (.waits, _) => (u.part n).queues.getD q [] = { x with img := some ds } :: ((s.part n).queues.getD q []).tail ∧
      (u.part n).qseq = (s.part n).qseq
  | (.ok gs is dyad tracks, spots) =>
    (∀ c t, s.loadTables (loadedLaunch s n q x m spots gs is dyad tracks) m = .error (c, t) → Refused t u n q x 0 (stageRec c 0 0)) ∧
    ∀ t, s.loadTables (loadedLaunch s n q x m spots gs is dyad tracks) m = .ok t → Runs t u n q x

/-- The element records that an image has for a region's running variant (R228). -/
def elemRecords (m : Image) (g : Region) (j : Nat) : List ElemRec :=
  match m.regions[j]? with
  | none => []
  | some r =>
    match r.vars[min g.variant (r.vars.length - 1)]? with
    | none => []
    | some v => v.elems

/-- Bytes of the contexts that each of them gives (R228). -/
def contextBytes (m : Image) (g : Region) (j : Nat) : List Nat := (elemRecords m g j).map fun e => (e.ctxs.map CtxRec.bytes).sum

/-! ### Engines and the graph sequencer (R313 to R326, R372 to R379) -/

/-- Byte by byte in increasing order: what a copy within one scratchpad leaves (R316). -/
def byteCopy (m : Nat → Byte) (src dst : Nat) : Nat → Nat → Byte
  | 0 => m
  | k + 1 => fun a => if a = dst + k then byteCopy m src dst k (src + k) else byteCopy m src dst k a

/-- An entry has failed: the engine has stopped on it, with a record for the fault chain and vector 2, and STATUS is written (R319, R424). -/
def EntryFailed (s t : State) (n g : Nat) (x : EngEntry) (code cause : Nat) : Prop :=
  ((t.part n).eng g).stop = true ∧ ((t.part n).eng g).waiting = some (chainRecord 11 code g x.seq 0) ∧
  ((t.part n).eng g).seq = ((s.part n).eng g).seq ∧
  (∀ y ∈ ((t.part n).eng g).entries, y.seq = x.seq → y.st = .failed ∧ y.code = code ∧ y.cause = cause) ∧
  (t.part n).msi.getD 2 0 = (if (s.part n).msi.length ≤ 2 then 0 else (s.part n).msi.getD 2 0 + 1) ∧
  ∀ e y, x.nkind = 0 → s.elem? e = some y → t.elem? e = some y

/-- A task of the host has failed: STATUS, STOP and a record for the fault chain (R375, R378). -/
def TaskFailed (s t : State) (n : Nat) (k : Task) (code cls cause : Nat) (detail : Dword) : Prop :=
  (t.part n).gs.stop = true ∧ (t.part n).gs.waiting = some (chainRecord cls cause 0xC0 k.seq detail) ∧
  (t.part n).gs.seq = (s.part n).gs.seq ∧ ∀ j ∈ (t.part n).gs.tasks, j.seq = k.seq → j.stopped = true ∧ j.status = code

/-- A TDISP task has failed: the slot that sent it has trapped (R378). -/
def SlotFailed (s t : State) (k : Task) (src : TaskSrc) (cls cause : Nat) (detail : Dword) : Prop :=
  (t.part src.l.n).gs.stop = (s.part src.l.n).gs.stop ∧
  ∀ x, s.elem? src.e = some x → x.l = src.l → x.fault = none → ∃ y f, t.elem? src.e = some y ∧ y.stopped = true ∧ y.fault = some f ∧
    f.cls = cls ∧ f.cause = cause ∧ f.detail = detail ∧ f.slot = src.slot ∧ k.src = some src

/-- A method entry matches a key: a filled entry of the same operator and count whose tags agree but in the fields that its wildcard bits leave
open (R373, R374). -/
def methodMatches (m : List Dword) (k : Key) : Prop :=
  meAction m ≠ 0 ∧ meNops m ≠ 0 ∧ meOk m = true ∧ meOp m = k.op ∧ meNops m = k.nops ∧
  ∀ j, j < k.nops → let t := meTag m j
    let u := k.tags.getD j 0
    let open_ := fun f => (meDw m 0).testBit (39 + 3 * j + f)
    (open_ 0 = false → tagFmt t = tagFmt u) ∧ (open_ 1 = false → tagCls t = tagCls u) ∧ (open_ 2 = false → tagLay t = tagLay u)

/-! ### Descriptors, methods and appended entries (R235, R315, R324, R327, R370, R371) -/

/-- An item of a descriptor: a dword of it, its tile counts, or where its tag array begins (R357, R370). -/
def itemOf (d : BitVec 512) (item : Nat) : List Nat :=
  let rows := if dNdim d < 2 then 1 else (dSize d 1 + 15) / 16
  let cols := (dSize d 0 + 15) / 16
  if item < 4 then [(el 32 d (2 * item)).toNat, (el 32 d (2 * item + 1)).toNat, 0]
  else if item = 4 then [cols, rows, cols * rows * (if 2 < dNdim d then dSize d 2 else 1) * (if 3 < dNdim d then dSize d 3 else 1)]
  else [toff d % 2 ^ 32, toff d / 2 ^ 32 % 2 ^ 32, 0]

/-- The wildcards of a method entry (R373). -/
def wildcards (m : List Dword) : Nat := ((List.range 9).filter fun k => (meDw m 0).testBit (39 + k)).length

/-- The entry that a lookup finds: it matches, with the fewest wildcards, and of those it has the lowest index (R374). -/
def BestMethod (ms : List (Nat × List Dword)) (k : Key) (i : Nat) (m : List Dword) : Prop :=
  (i, m) ∈ ms ∧ methodMatches m k ∧ ∀ q ∈ ms, methodMatches q.2 k → wildcards m < wildcards q.2 ∨ (wildcards m = wildcards q.2 ∧ i ≤ q.1)

/-- A reference whose region field stands at bits [hi:hi-5], in the form of the device: the region's origin is added to its column and row (R315). -/
def Rebased (l : Launch) (v w : Dword) (hi : Nat) : Prop :=
  match l.regions[Sys2Proof.fld v.toNat (hi - 5) 6]? with
  | none => w = v
  | some r => Sys2Proof.fld w.toNat (hi - 5) 6 = 0 ∧
      Sys2Proof.fld w.toNat (hi - 11) 6 = (Sys2Proof.fld v.toNat (hi - 11) 6 + 4 * r.ox) % 64 ∧
      Sys2Proof.fld w.toNat (hi - 17) 6 = (Sys2Proof.fld v.toNat (hi - 17) 6 + 4 * r.oy) % 64 ∧
      ∀ b, b < hi - 17 ∨ hi < b → w.getLsbD b = v.getLsbD b

/-- An engine entry as CHAPP copies it: its source, its destination and its notification, where they name scratchpads or elements, are rebased (R315). -/
def RebasedEntry (l : Launch) (dw dw' : List Dword) : Prop :=
  let c := (dw.getD 3 0).toNat
  dw'.length = dw.length ∧
  (if c.testBit 59 then Rebased l (dw.getD 0 0) (dw'.getD 0 0) 63 else dw'.getD 0 0 = dw.getD 0 0) ∧
  (if c.testBit 60 then Rebased l (dw.getD 1 0) (dw'.getD 1 0) 63 else dw'.getD 1 0 = dw.getD 1 0) ∧
  (if Sys2Proof.fld (dw.getD 4 0).toNat 62 2 ≠ 0 then Rebased l (dw.getD 4 0) (dw'.getD 4 0) 61 else dw'.getD 4 0 = dw.getD 4 0) ∧
  ∀ i, i ≠ 0 → i ≠ 1 → i ≠ 4 → dw'.getD i 0 = dw.getD i 0

/-- Entries that are equal but for a field of one dword. -/
def FieldSet (dw dw' : List Dword) (i lo w v : Nat) : Prop :=
  dw'.length = dw.length ∧ (∀ j, j ≠ i → dw'.getD j 0 = dw.getD j 0) ∧ Sys2Proof.fld (dw'.getD i 0).toNat lo w = v % 2 ^ w ∧
    ∀ b, b < lo ∨ lo + w ≤ b → (dw'.getD i 0).getLsbD b = (dw.getD i 0).getLsbD b

/-! ### Pattern sets (R383 to R389) -/

/-- The hash of a row and a draw (R387). -/
def hashOf (seed r j : Nat) : BitVec 32 :=
  let t := BitVec.ofNat 32 r * 0x9E3779B1 + BitVec.ofNat 32 j * 0x85EBCA77 + BitVec.ofNat 32 seed * 0xC2B2AE3D
  let u := (t ^^^ (t >>> 16)) * 0x2C1B3C6D
  u ^^^ (u >>> 13)

/-- The members of a pattern in a frame of `rf` rows and `cf` columns (R383, R384, R386, R387). -/
def Member : Pat → Nat → Nat → Nat → Nat → Prop
  | .band lo hi, rf, cf, r, c => (r < rf ∧ c < cf) ∧ lo ≤ (c : Int) - r ∧ (c : Int) - r ≤ hi
  | .dil o st n, rf, cf, r, c => (r < rf ∧ c < cf) ∧ ∃ j, j < n ∧ (c : Int) - r = o + st * j
  | .blkd bh bw, rf, cf, r, c => (r < rf ∧ c < cf) ∧ r / bh = c / bw
  | .kron qr qc p q, rf, cf, r, c => (r < rf ∧ c < cf) ∧
      Member p ((rf + qr - 1) / qr) ((cf + qc - 1) / qc) (r / qr) (c / qc) ∧ Member q qr qc (r % qr) (c % qc)
  | .hash _ m seed _, rf, cf, r, c => (r < rf ∧ c < cf) ∧ ∃ j, j < m ∧ (hashOf seed r j).toNat % cf = c
  | .uni p q, rf, cf, r, c => (r < rf ∧ c < cf) ∧ (Member p rf cf r c ∨ Member q rf cf r c)
  | .int p q, rf, cf, r, c => (r < rf ∧ c < cf) ∧ Member p rf cf r c ∧ Member q rf cf r c
  | .lim rb cb p, rf, cf, r, c => (r < rf ∧ c < cf) ∧ (rb ≠ 0 → r < 16 * rb) ∧ (cb ≠ 0 → c < 16 * cb) ∧ Member p rf cf r c
  | .perm a b p, rf, cf, r, c => (r < rf ∧ c < cf) ∧ Member p rf cf (((r : Int) - a) % (rf : Int)).toNat (((c : Int) - b) % (cf : Int)).toNat

/-- A pattern word of an opcode whose fields are put together, and a number in two's complement. -/
def patWordOf (op f : Nat) : Nat := op * 2 ^ 24 + f
def twos (w : Nat) (x : Int) : Nat := (BitVec.ofInt w x).toNat

/-- The words of a pattern, in the order in which a program pushes it (R384, R387). -/
def wordsOf : Pat → List Nat
  | .band lo hi => [patWordOf 0x01 (twos 12 lo * 2 ^ 12 + twos 12 hi)]
  | .dil o st n => [patWordOf 0x02 (twos 8 o * 2 ^ 16 + st * 2 ^ 8 + n)]
  | .blkd bh bw => [patWordOf 0x03 (bh * 2 ^ 12 + bw)]
  | .kron qr qc p q => wordsOf p ++ wordsOf q ++ [patWordOf 0x04 (qr * 2 ^ 12 + qc)]
  | .hash _ m seed none => [patWordOf 0x05 (m * 2 ^ 16 + seed * 2)]
  | .hash _ m seed (some t) => [patWordOf 0x05 (m * 2 ^ 16 + seed * 2 + 1), t]
  | .uni p q => wordsOf p ++ wordsOf q ++ [patWordOf 0x06 0]
  | .int p q => wordsOf p ++ wordsOf q ++ [patWordOf 0x07 0]
  | .lim rb cb p => wordsOf p ++ [patWordOf 0x08 (rb * 2 ^ 12 + cb)]
  | .perm a b p => wordsOf p ++ [patWordOf 0x09 (twos 12 a * 2 ^ 12 + twos 12 b)]

/-- The operands of a pattern are in range, and each hashed word stands at the place that the pattern gives it, from word `k` on (R384). -/
def InRange : Pat → Nat → Prop
  | .band lo hi, _ => -2048 ≤ lo ∧ lo ≤ hi ∧ hi ≤ 2047
  | .dil o st n, _ => -128 ≤ o ∧ o ≤ 127 ∧ 1 ≤ st ∧ st ≤ 255 ∧ 1 ≤ n ∧ n ≤ 255
  | .blkd bh bw, _ => 1 ≤ bh ∧ bh ≤ 4095 ∧ 1 ≤ bw ∧ bw ≤ 4095
  | .kron qr qc p q, k => 1 ≤ qr ∧ qr ≤ 4095 ∧ 1 ≤ qc ∧ qc ≤ 4095 ∧ InRange p k ∧ InRange q (k + (wordsOf p).length)
  | .hash at_ m seed t, k => at_ = k ∧ 1 ≤ m ∧ m ≤ 255 ∧ seed < 2 ^ 15 ∧ ∀ i, t = some i → i < 65536
  | .uni p q, k | .int p q, k => InRange p k ∧ InRange q (k + (wordsOf p).length)
  | .lim rb cb p, k => rb ≤ 4095 ∧ cb ≤ 4095 ∧ InRange p k
  | .perm a b p, k => -2048 ≤ a ∧ a ≤ 2047 ∧ -2048 ≤ b ∧ b ≤ 2047 ∧ InRange p k

/-- The patterns on the stack at most, while a pattern is pushed on an empty one (R385). -/
def stackOf : Pat → Nat
  | .kron _ _ p q | .uni p q | .int p q => Nat.max (stackOf p) (stackOf q + 1)
  | .lim _ _ p | .perm _ _ p => stackOf p
  | _ => 1

/-- Every word of a pattern has an exact inverse enumeration as R55 says: a hashed word has it by its table alone, and one under PPERM is no matter. -/
def Inverts : Pat → Prop
  | .hash _ _ _ t => t ≠ none
  | .kron _ _ p q | .uni p q | .int p q => Inverts p ∧ Inverts q
  | .lim _ _ p => Inverts p
  | _ => True

/-- No hashed word of a pattern goes by an inverse table. -/
def NoTables : Pat → Prop
  | .hash _ _ _ t => t = none
  | .kron _ _ p q | .uni p q | .int p q => NoTables p ∧ NoTables q
  | .lim _ _ p | .perm _ _ p => NoTables p
  | _ => True

/-- Words of an inverse table read one after another. -/
def rowsRead (n page : Nat) (q : Req) (tid : Nat) : Nat → List Nat → State → State → Prop
  | _, [], s, u => u = s
  | i, r :: rs, s, u => ∃ v, invWord n page q tid i s = .ok r v ∧ rowsRead n page q tid (i + 1) rs v u

/-- Major before minor coordinate (R388). -/
def before (p q : Nat × Nat) : Prop := p.1 < q.1 ∨ (p.1 = q.1 ∧ p.2 < q.2)

/-- The members, as (major, minor), that a running generator yields next: at most eight, in order from the cursor on, and none is left out (R388, R397). -/
def Yields (v : Gen) (p : Pat) (ys : List (Nat × Nat)) : Prop :=
  let due := fun (m : Nat × Nat) => (if v.dir then Member p v.rf.toNat v.cf.toNat m.2 m.1 else Member p v.rf.toNat v.cf.toNat m.1 m.2) ∧
    m.1 < v.emaj.toNat ∧ ¬ before m (v.cmaj.toNat, v.cmin.toNat)
  ys.length ≤ 8 ∧ ys.Pairwise before ∧ (∀ m ∈ ys, due m) ∧ ∀ m, due m → m ∈ ys ∨ (ys.length = 8 ∧ ∀ y ∈ ys, before y m)

/-- The cursor behind a member (R397). -/
def successor (v : Gen) (m : Nat × Nat) : Nat × Nat :=
  if m.2 + 1 < (if v.dir then v.rf.toNat else v.cf.toNat) then (m.1, m.2 + 1) else (m.1 + 1, 0)

/-! ### Translations, the Timetable, partitions, registers and starts (R190 to R257, R419 to R463) -/

/-- A ratio that an island may have (R191). -/
def Permitted (f : Frac) : Prop := 1 ≤ f.n ∧ f.n ≤ f.d ∧ f.d ≤ 64

/-- Registers of a partition's page that REGISTER_WRITE stores, by offset: bases without their low bits, sizes of at least 4, PRALLOC of at most
512 (R220, R237, R331, R372, R381, R424, R430, R441). -/
def pageRegisters (v : Nat) : List (Nat × (Part → Part)) :=
  let base := fun (k : Nat) => (BitVec.ofNat 64 v >>> k) <<< k
  [(0x018, fun p => { p with lqpri := BitVec.ofNat 16 v }),
   (0x068, fun p => { p with arq := base 13 }),
   (0x100, fun p => { p with ttbase := base 12 }),
   (0x108, fun p => { p with ttlim := BitVec.ofNat 16 v }),
   (0x118, fun p => { p with fwlim := BitVec.ofNat 6 v }),
   (0x200, fun p => { p with fcbase := base 12 }),
   (0x208, fun p => { p with fcsize := if v % 16 < 4 then 4 else BitVec.ofNat 4 v }),
   (0x218, fun p => { p with fcrd := BitVec.ofNat 32 v }),
   (0x300, fun p => { p with mtbase := base 12 }),
   (0x400, fun p => { p with pmbase := base 12 }),
   (0x480, fun p => { p with lktab := base 13 }),
   (0x540, fun p => { p with eqper := BitVec.ofNat 6 v }),
   (0x548, fun p => { p with equota := BitVec.ofNat 64 v }),
   (0x550, fun p => { p with eqiter := BitVec.ofNat 64 v }),
   (0x600, fun p => { p with trbase := base 12 }),
   (0x618, fun p => { p with trrd := BitVec.ofNat 32 v }),
   (0x628, fun p => { p with bklist := BitVec.ofNat 64 v }),
   (0x638, fun p => { p with pladdr := BitVec.ofNat 64 v })]

/-- What the same registers read as after such a write (R220, R237, R331, R372, R381, R424, R430, R441). -/
def pageReadBack (v : Nat) : List (Nat × Nat) :=
  let base := fun (k : Nat) => v % 2 ^ 64 - v % 2 ^ k
  [(0x018, v % 2 ^ 16), (0x068, base 13), (0x100, base 12), (0x108, v % 2 ^ 16), (0x118, v % 2 ^ 6), (0x120, if 512 ≤ v % 2 ^ 10 then 512 else v % 2 ^ 10),
   (0x200, base 12), (0x208, if v % 16 < 4 then 4 else v % 16), (0x218, v % 2 ^ 32), (0x300, base 12), (0x310, v % 2 ^ 26), (0x400, base 12),
   (0x480, base 13), (0x540, v % 2 ^ 6), (0x548, v % 2 ^ 64), (0x550, v % 2 ^ 64), (0x600, base 12), (0x618, v % 2 ^ 32), (0x628, v % 2 ^ 64),
   (0x638, v % 2 ^ 64)]

/-- Nothing of a partition is in flight that a reset would have to end: no engine entry and no ASCAT. -/
def Idle (s : State) (n : Nat) : Prop :=
  (∀ q ∈ (s.part n).engines, ∀ x ∈ q.2.entries, x.st ≠ .flight) ∧ ∀ q ∈ s.elems, q.2.l.n = n → ∀ a ∈ q.2.acc, a.op ≠ .ascat

/-- A partition as its reset leaves it: its table entry, its keys, and what the host holds of it are kept, with the operator's records that wait; every
register of its page has its reset value, nothing of it runs, and BUSY reads 1 (R319, R425, R453). -/
def ResetPart (p r : Part) : Prop :=
  ∃ m o, p.opEnded <+: o ∧ r = { ({} : Part) with
                              depots := p.depots, pasid := p.pasid, node := p.node, lshare := p.lshare, enable := p.enable, err := p.err,
                              keyAddr := p.keyAddr, key := p.key, serial := p.serial, memKey := p.memKey, atsOff := p.atsOff,
                              invals := p.invals, msi := m, busy := true, opEnded := o }

/-- Why setting ENABLE is refused (R419, R444, R457). -/
def EnableRefused (s : State) (n : Nat) : Prop :=
  let p := s.part n
  let others := (indexed 0 s.parts).filter fun q => q.1 != n && q.2.enable
  p.depots = 0 ∨ (∃ q ∈ others, q.2.depots &&& p.depots ≠ 0) ∨ p.pasid = 0 ∨ 256 < p.lshare.toNat + (others.map fun q => q.2.lshare.toNat).sum ∨
    p.keyAddr = 0 ∨ Config.mldsaKeyOk (s.mmem.read p.keyAddr.toNat 2592) = false ∨ s.mgmt.recov = true ∨ s.mgmt.code ≠ 0 ∨ s.mgmt.starting ≠ 0

/-- What a start, an alarm of class 2 and a loss of power leave of the partitions: none is enabled and nothing runs. -/
def Emptied (t : State) : Prop := (∀ p ∈ t.parts, p = {}) ∧ t.parts.length = 32 ∧ t.elems = []

/-- The digest of a policy's body, and the first of its checks that fails (R445, R446). -/
def PolicyCode (p : Part) (b : List Byte) (c : Nat) : Prop :=
  let ok := polFormOk b = true
  let mine := polDword b 0 % 2 ^ 20 = p.pasid.toNat
  let newer := p.serial.toNat < polDword b 1
  let signed := Config.mldsaVerify p.key (sha3_512 (b.take 128)) (b.drop 128) = true
  let free := ∀ l ∈ p.launches, l.policy = [] ∨ l.policy = sha3_512 (b.take 128)
  (¬ ok → c = 2) ∧ (ok → ¬ mine → c = 3) ∧ (ok → mine → ¬ newer → c = 4) ∧ (ok → mine → newer → ¬ signed → c = 5) ∧
  (ok → mine → newer → signed → ¬ free → c = 6) ∧ (ok → mine → newer → signed → free → c = 0)
end Sys2Proof.Claims

/-- Every word of a well-formed instruction decodes to it, with no word left over: no operand's bit is dropped (R34 to R51). -/
def Obligations.DecodeOfEncode : Prop :=
  ∀ i : Sys2Proof.Instr, Sys2Proof.encode i ≠ [] → i.wellFormed = true → Sys2Proof.decode (Sys2Proof.encode i) = .ok (i, [])

/-- What decodes is what the encoder writes: each word has one meaning, and no bit of it is ignored (R34 to R51). -/
def Obligations.EncodeOfDecode : Prop :=
  ∀ (ws rest : List Sys2Proof.Word) (i : Sys2Proof.Instr), Sys2Proof.decode ws = .ok (i, rest) →
    i.wellFormed = true ∧ ws = Sys2Proof.encode i ++ rest

/-- Words of the manual's examples decode to what it says (the table after R51, and the examples of R134, R142, R163, R270, R320, R393 and R456). -/
def Obligations.ManualWordsDecode : Prop :=
  ∀ q ∈ Sys2Proof.Claims.examples, Sys2Proof.decode q.1 = .ok (q.2, [])

open Sys2Proof Sys2Proof.Machine Sys2Proof.Claims in
/-- A STEP RUNS WHAT ITS MOVE NAMES. When the agenda's next move is the issue of a slot whose word is fetched (R68), a step is exec of the decoded
instruction at the state whose cursor names the slot and whose agenda has moved on; when it is an event and the part has power, a step is exec
of that event.
What the model chose or inferred in it: log 2, 3. -/
def Obligations.StepRunsDecoded : Prop :=
  (∀ (s : State) (c : Cursor) (rest : List Move) (i : Instr), s.agenda = .issue c :: rest → Fetches s c i →
    step s = exec i { s with agenda := rest, cur := c }) ∧
  ∀ (s : State) (rest : List Move) (i : Instr), s.agenda = .event i :: rest → s.mgmt.power = true → encode i = [] →
    step s = exec i { s with agenda := rest }

open Sys2Proof Sys2Proof.Machine in
/-- Nothing but the loss of power ends a run: with a move in the agenda or with power, every step answers a next state, whatever the
instruction, event, state and operands are; and without either it stops, and says so.
What the model chose or inferred in it: log 3, 4, 9. -/
def Obligations.EveryStepGoesOn : Prop :=
  ∀ s : State, ((s.agenda ≠ [] ∨ s.mgmt.power = true) → ∃ t, step s = .next t) ∧
    (s.agenda = [] → s.mgmt.power = false → step s = .fault .unpowered)

open Sys2Proof Sys2Proof.Machine Sys2Proof.Claims in
/-- ADD to ROL, MIN, MAX, ABS, NEG and the multiplies: a slot that may issue sends, after the latency of R112, the lanes of R116, R118 and
R119, zeros elsewhere, and raises no flag. CLZ, POPC, BREV, BFX and BFI: the counts, the reversal and the bit fields of R119 and R120 in every element. DIV and REM: truncated quotients and their remainders with the two fixed cases of R117, in every element; no flag; the divider is
held for the latency, and while it is held by another division the slot waits, nullified or not (R109, R112). SAT clamps the exact sum or difference of every element to the range of its type, and raises ST exactly when one is clamped (R121).
What the model chose or inferred in it: log 71 (the tag that a result carries). -/
def Obligations.IntegerInstructions : Prop :=
  (∀ (s : State) (x : Elem) (r : Args) (p : Pm) (sh : Shape) (u : Bool) (a b : Tgt), ∀ q ∈ integerTable p sh u a b,
    gate s q.1 = .go x r → ∃ d, Computes q.1 s x r q.2.1 d 0 ∧ Lanewise sh q.2.2 r d) ∧
  ((∀ (s : State) (x : Elem) (r : Args) (p : Pm) (sh : Shape) (u : Bool) (a b : Tgt),
    (∀ q ∈ bitTable p sh u a b, gate s q.1 = .go x r → ∃ d, Computes q.1 s x r 1 d 0 ∧ Lanewise sh (fun w v _ _ => q.2 w v) r d) ∧
    (gate s (.bfx p sh u a b) = .go x r →
      ∃ d, Computes (.bfx p sh u a b) s x r 1 d 0 ∧ Lanewise sh (fun w v c _ => bitField u w v c) r d) ∧
    (gate s (.bfi p sh u a b) = .go x r →
      ∃ d, Computes (.bfi p sh u a b) s x r 1 d 0 ∧ Lanewise sh (fun w v y c => bitInsert w v y c) r d)) ∧
  ∀ (s : State) (x : Elem) (r : Args) (p : Pm) (sh : Shape) (u : Bool) (a b : Tgt),
    ∀ q ∈ ([(.div p sh u a b, fun w v y _ => quotient u w v y), (.rem p sh u a b, fun w v y _ => remainder u w v y)] :
        List (Instr × ((w : Nat) → BitVec w → BitVec w → BitVec w → BitVec w))),
      (gate s q.1 = .go x r → ∃ d, Issues q.1 s { x with divFree := x.icyc + divLatency sh } (divLatency sh)
          (toAll q.1 (dataTok d r.tag)) ∧ Lanewise sh q.2 r d) ∧
      (s.elem? s.cur.e = some x → x.icyc < x.divFree → exec q.1 s = .next s)) ∧
  ∀ (s : State) (x : Elem) (r : Args) (p : Pm) (sh : Shape) (o u : Bool) (a b : Tgt), gate s (.sat p sh o u a b) = .go x r →
    ∃ d fl, Computes (.sat p sh o u a b) s x r 1 d fl ∧ Lanewise sh (fun w v y _ => (saturated o u w v y).1) r d ∧
      fl = if ∃ j, j < count sh ∧ (saturated o u (width sh) (el _ r.l.data j) (el _ r.r.data j)).2 = true then 32 else 0

open Sys2Proof Sys2Proof.Machine Sys2Proof.Claims in
/-- CMP and CMPI emit a condition token that says whether the condition holds of lane 0 (R46, R47, R122, R127). SEL emits the token that T chooses, whole but for its tag, which is that of R16; a null at T or at the chosen port gives a null (R123). MOV copies the lanes of its shape and keeps
kind and tag (R124). NUL emits nulls (R125).
What the model chose or inferred in it: log 71. -/
def Obligations.ComparisonsAndSelections : Prop :=
  (∀ (s : State) (x : Elem) (r : Args) (p : Pm) (c : Cond) (v : BitVec 9) (a b : Tgt),
    (gate s (.cmp p c a b) = .go x r →
      Emits (.cmp p c a b) s x 1 (condTok (condition c (el 32 r.l.data 0) (el 32 r.r.data 0)) r.tag)) ∧
    (gate s (.cmpi p c v a) = .go x r →
      Emits (.cmpi p c v a) s x 1 (condTok (condition c (el 32 r.l.data 0) (compareImm c v)) r.tag))) ∧
  ∀ (s : State) (x : Elem) (r : Args) (p : Pm) (sh : Shape) (u : Bool) (a b : Tgt),
    (gate s (.sel p a b) = .go x r →
      let v := if r.t.data.getLsbD 0 then r.l else r.r
      Emits (.sel p a b) s x 1 (if r.t.kind = .null ∨ v.kind = .null then nullTok r.tag else { v with tag := r.tag })) ∧
    (gate s (.mov p sh u a b) = .go x r → Emits (.mov p sh u a b) s x 1 { r.l with data := moved sh r.l.data }) ∧
    (gate s (.nul p a b) = .go x r → Emits (.nul p a b) s x 1 (nullTok r.tag))

open Sys2Proof Sys2Proof.Machine Sys2Proof.Claims in
/-- ADDR, AOFF and AIDX build and step address tokens; offsets wrap modulo 2^48 (R126). The immediate instructions compute 16 lanes (R127), and LITW holds its constant in each (R128).
What the model chose or inferred in it: log 71 (the tag that a result carries). -/
def Obligations.AddressesAndImmediates : Prop :=
  (∀ (s : State) (x : Elem) (r : Args) (p : Pm) (u : Bool) (a b : Tgt), ∀ q ∈ addressTable p u a b,
    gate s q.1 = .go x r → Computes q.1 s x r 1 (q.2 r) 0) ∧
  ∀ (s : State) (x : Elem) (r : Args) (p : Pm) (i : BitVec 13) (n : BitVec 5) (k : BitVec 32) (a : Tgt), ∀ q ∈ immediateTable p i n k a,
    gate s q.1 = .go x r → ∃ d, Computes q.1 s x r q.2.1 d 0 ∧ Holds 16 32 d fun j => q.2.2 (el 32 r.l.data j)

open Sys2Proof Sys2Proof.Machine Sys2Proof.Claims in
/-- GET and GETX read a register: a full one is emitted, a pending one is waited for or, with the source bit, traps as an empty one does (R129). PUT and PUTX write a granted
register and make it full, once no fill is outstanding, and emit a completion token; REMPTY empties one and emits whether it was full; RFULL only says so
(R105, R129). An index beyond the grant raises the bounds trap in GETX and PUTX (R129).
What the model chose or inferred in it: log 71 (the tag that a result carries). -/
def Obligations.RegisterAccess : Prop :=
  (∀ (s : State) (x : Elem) (r : Args) (p : Pm) (n : BitVec 8) (src : Bool) (a : Tgt),
    ∀ q ∈ [(Instr.get p n src a, n.toNat), (Instr.getx p n src a, n.toNat + (el 32 r.l.data 0).toNat)],
      gate s q.1 = .go x r → q.2 < x.regs →
        ((x.regAt q.2).st = .full → Emits q.1 s x 1 (dataTok (x.regAt q.2).data r.tag)) ∧
        ((x.regAt q.2).st = .pending → src = false → exec q.1 s = .next s) ∧
        ((x.regAt q.2).st = .pending → src = true → Raises q.1 s 3 0 (BitVec.ofNat 64 q.2) 0) ∧
        ((x.regAt q.2).st = .empty → Raises q.1 s 3 0 (BitVec.ofNat 64 q.2) 0)) ∧
  ∀ (s : State) (x : Elem) (r : Args) (p : Pm) (n : BitVec 8) (src : Bool) (a : Tgt),
    (∀ q ∈ [(Instr.put p n a, n.toNat, r.l.data), (Instr.putx p n a, n.toNat + (el 32 r.l.data 0).toNat, r.r.data)],
      gate s q.1 = .go x r → q.2.1 < x.regs →
        ((x.regAt q.2.1).st ≠ .pending → Emits q.1 s (x.setReg q.2.1 ⟨.full, q.2.2⟩) 1 (dataTok 1 r.tag)) ∧
        ((x.regAt q.2.1).st = .pending → exec q.1 s = .next s)) ∧
    (gate s (.rempty p n a) = .go x r → n.toNat < x.regs → (x.regAt n.toNat).st ≠ .pending →
      Emits (.rempty p n a) s (x.setReg n.toNat ⟨.empty, (x.regAt n.toNat).data⟩) 1
        (condTok ((x.regAt n.toNat).st == .full) r.tag)) ∧
    (gate s (.rfull p n a) = .go x r → n.toNat < x.regs →
      Emits (.rfull p n a) s x 1 (condTok ((x.regAt n.toNat).st == .full) r.tag)) ∧
    ∀ i ∈ [Instr.getx p n src a, Instr.putx p n a], gate s i = .go x r → x.regs ≤ n.toNat + (el 32 r.l.data 0).toNat →
      Raises i s 6 0 (BitVec.ofNat 64 (n.toNat + (el 32 r.l.data 0).toNat)) 0

open Sys2Proof Sys2Proof.Machine Sys2Proof.Claims in
/-- FMIN, FMAX, FABS, FNEG, FCMP and FCLASS: every element as R137 to R140 say, bit by bit; only FCMP raises a flag. The float instructions that round: the elements of R134, each computed alone, the flags of all of them joined (R132), after the latency
of R133. What one element gives is said by FloatSpecialCases and FloatNearest.
What the model chose or inferred in it: log 71 (the tag that a result carries), 12. -/
def Obligations.FloatElementsComputed : Prop :=
  (∀ (s : State) (x : Elem) (r : Args) (p : Pm) (sh : Shape) (f : FFmt) (a b : Tgt), ∀ q ∈ orderTable p sh f a b,
    gate s q.1 = .go x r → ComputesEach q.1 s x r 1 (floatCount sh f) (floatWidth f) fun j =>
      q.2 (el (floatWidth f) r.l.data j).toNat (el (floatWidth f) r.r.data j).toNat) ∧
  ∀ (s : State) (x : Elem) (r : Args) (p : Pm) (sh : Shape) (f : FFmt) (a b : Tgt), ∀ q ∈ arithTable p sh f a b,
    gate s q.1 = .go x r → ComputesEach q.1 s x r q.2.1 (floatCount sh f) (floatWidth f) fun j =>
      q.2.2 (el (floatWidth f) r.l.data j).toNat (el (floatWidth f) r.r.data j).toNat (el (floatWidth f) r.t.data j).toNat

open Sys2Proof Sys2Proof.Machine Sys2Proof.Claims in
/-- NaN operands, infinite operands, invalid operations, divisions by zero and roots of zeros give the codes and the flags of R77, R78 and R135; so do
the special cases of FRCP, FRSQ, FEXP2 and FLOG2 (R136).
What the model chose or inferred in it: log 12. -/
def Obligations.FloatSpecialCases : Prop :=
  (∀ (f : FFmt) (x y z : Nat), x < 2 ^ floatWidth f → y < 2 ^ floatWidth f → z < 2 ^ floatWidth f →
    ∀ q ∈ specialTable f x y z, q.1 = true → q.2.1 = q.2.2) ∧
  ∀ (f : FFmt) (x : Nat), x < 2 ^ floatWidth f → ∀ q ∈ functionTable f x, q.1 = true → q.2.1 = q.2.2

open Sys2Proof Sys2Proof.Machine Sys2Proof.Claims in
/-- Of finite operands, FADD, FSUB, FMUL, FMA, FDIV and FRCP give the code nearest to the exact result, rounded once, +0 for an exact zero
sum unless both addends are −0, and a zero of the product's sign for a zero product or quotient; OF is raised exactly beyond the range, UF exactly
for a tiny result that is not exact, and NX exactly when the result is not exact, and never NV or DZ. FSQRT gives the code nearest to the root, and
FRSQ that of the reciprocal root, with NX alone if it is not exact (R86, R88, R89, R135, R136).
What the model chose or inferred in it: log 12. -/
def Obligations.FloatNearest : Prop :=
  ∀ (f : FFmt) (x y z : Nat), x < 2 ^ floatWidth f → y < 2 ^ floatWidth f → z < 2 ^ floatWidth f →
    finite f x = true → finite f y = true → finite f z = true →
    (∀ q ∈ [(rat f x + rat f y, faddE (FFmt.fmt f) x y), (rat f x - rat f y, fsubE (FFmt.fmt f) x y), (rat f x * rat f y, fmulE (FFmt.fmt f) x y),
        (rat f x * rat f y + rat f z, fmaE (FFmt.fmt f) x y z)],
      q.1 ≠ 0 → Nearest f q.1 q.2.1 ∧ NearestFlags f q.1 q.2.1 q.2.2) ∧
    (∀ q ∈ [(rat f x / rat f y, fdivE (FFmt.fmt f) x y, decide (magnitude f x ≠ 0 ∧ magnitude f y ≠ 0)),
        (1 / rat f y, frcpE (FFmt.fmt f) y, decide (magnitude f y ≠ 0))],
      q.2.2 = true → Nearest f q.1 q.2.1.1 ∧ NearestFlags f q.1 q.2.1.1 q.2.1.2) ∧
    (rat f x + rat f y = 0 → faddE (FFmt.fmt f) x y = (if x = signBit f ∧ y = signBit f then signBit f else 0, 0)) ∧
    (rat f x - rat f y = 0 → fsubE (FFmt.fmt f) x y = (if x = signBit f ∧ y = 0 then signBit f else 0, 0)) ∧
    (rat f x * rat f y = 0 → fmulE (FFmt.fmt f) x y = (signed f (negative f x != negative f y) 0, 0)) ∧
    (rat f x * rat f y + rat f z = 0 → fmaE (FFmt.fmt f) x y z =
      (if rat f x * rat f y = 0 ∧ negative f x ≠ negative f y ∧ z = signBit f then signBit f else 0, 0)) ∧
    (rat f x = 0 → rat f y ≠ 0 → fdivE (FFmt.fmt f) x y = (signed f (negative f x != negative f y) 0, 0)) ∧
    (0 < rat f x → NearestRoot f (rat f x) (fsqrtE (FFmt.fmt f) x).1 ∧ NearestRoot f (1 / rat f x) (frsqE (FFmt.fmt f) x).1 ∧
      (fsqrtE (FFmt.fmt f) x).2 = (if rat f (fsqrtE (FFmt.fmt f) x).1 ^ 2 = rat f x then 0 else 16) ∧
      (frsqE (FFmt.fmt f) x).2 = if rat f (frsqE (FFmt.fmt f) x).1 ^ 2 * rat f x = 1 then 0 else 16)

open Sys2Proof Sys2Proof.Machine Sys2Proof.Claims in
/-- FEXP2 and FLOG2 of finite operands: 2^a of an integer a is exact where it is representable, and so is the logarithm of a power of two (R136);
every other result is the code nearest to the real 2^a or log2 a and raises NX, OF where it is an infinity, UF where it lies below the smallest normal
value, and never NV or DZ (R86, R88, R89, R136). The model encloses the real value in an interval and leaves open which end counts where its ends round
apart; the clause is stated of operands where that choice makes no difference.
What the model chose or inferred in it: log 12. -/
def Obligations.FunctionValues : Prop :=
  ∀ (f : FFmt) (x : Nat), x < 2 ^ floatWidth f → finite f x = true → magnitude f x ≠ 0 →
    (∀ (k : Int) (c : Nat), rat f x = k → c < 2 ^ floatWidth f → finite f c = true → rat f c = (2 : ℚ) ^ k →
      fexp2E Config.functionTie (FFmt.fmt f) x = (c, 0)) ∧
    (∀ k : Int, rat f x = (2 : ℚ) ^ k → rat f (flog2E Config.functionTie (FFmt.fmt f) x).1 = k ∧
      finite f (flog2E Config.functionTie (FFmt.fmt f) x).1 = true ∧ (flog2E Config.functionTie (FFmt.fmt f) x).2 = 0) ∧
    ∀ q ∈ [(fun t => fexp2E t (FFmt.fmt f) x, (2 : ℝ) ^ (rat f x : ℝ),
          ∀ c, c < 2 ^ floatWidth f → finite f c = true → (rat f c : ℝ) ≠ (2 : ℝ) ^ (rat f x : ℝ)),
        (fun t => flog2E t (FFmt.fmt f) x, Real.logb 2 (rat f x : ℝ), negative f x = false ∧ ∀ k : Int, rat f x ≠ (2 : ℚ) ^ k)],
      q.2.2 → q.1 (fun _ => true) = q.1 (fun _ => false) →
        let r := q.1 Config.functionTie
        NearestReal f q.2.1 r.1 ∧ r.2.testBit 4 = true ∧ r.2 % 4 = 0 ∧ r.2 < 32 ∧ (r.2.testBit 2 = true ↔ isInf f r.1 = true) ∧
          (expField f r.1 = 0 → r.2.testBit 3 = true) ∧ (r.2.testBit 3 = true → |rat f r.1| ≤ (2 : ℚ) ^ ((1 : Int) - bias f))

open Sys2Proof Sys2Proof.Machine Sys2Proof.Claims in
/-- CVT, CVTI, CVTF and SCALE convert the elements of R141 each alone, into the places of R141, zeros elsewhere. What one element gives is
said by ConversionValues.
What the model chose or inferred in it: log 71 (the tag that a result carries). -/
def Obligations.ConversionsComputed : Prop :=
  ∀ (s : State) (x : Elem) (r : Args) (p : Pm) (f t : Fmt) (k : BitVec 2) (n : BitVec 4) (sat u : Bool) (m : Rm) (a : Tgt),
    ((Instr.cvt p f t k sat m a).wellFormed = true → gate s (.cvt p f t k sat m a) = .go x r →
      ComputesPart (.cvt p f t k sat m a) s x r 3 (writesTo (Fmt.width f) (Fmt.width t) k.toNat) (converted (Fmt.width f) (Fmt.width t))
        (Fmt.width t) fun j =>
          cvtE f t sat m (el (Fmt.width f) r.l.data (readsFrom (Fmt.width f) (Fmt.width t) k.toNat + j)).toNat) ∧
    ((Instr.cvti p f n k u m a).wellFormed = true → gate s (.cvti p f n k u m a) = .go x r →
      ComputesPart (.cvti p f n k u m a) s x r 3 0 16 32 fun j =>
          cvtiE f n.toNat u m (el (Fmt.width f) r.l.data (readsFrom (Fmt.width f) 32 k.toNat + j)).toNat) ∧
    ((Instr.cvtf p t n sat u m a).wellFormed = true → gate s (.cvtf p t n sat u m a) = .go x r →
      ComputesPart (.cvtf p t n sat u m a) s x r 3 0 16 (Fmt.width t) fun j => cvtfE t n.toNat sat u m (el 32 r.l.data j).toNat) ∧
    ((Instr.scale p f a).wellFormed = true → gate s (.scale p f a) = .go x r →
      ComputesPart (.scale p f a) s x r 3 0 (512 / Fmt.width f) (Fmt.width f) fun j =>
        scaleE f (el (Fmt.width f) r.l.data j).toNat (el (Fmt.width f) r.r.data j).toInt)

open Sys2Proof Sys2Proof.Machine Sys2Proof.Claims in
/-- What a conversion of one element gives. A code stands for the value of R77, R81 or R83; a value is rounded once, by the mode, to FP32, BF16,
FP16, E4M3, E5M2 (R86 to R89) or PS8 (R84, R85), whatever the source of a CVT is (R142), and CVTF rounds v · 2^−f so (R143). Floats and PS8 go to
integers rounded by the mode and clamped (R82, R143), integers to integers wrapped or clamped (R142), and SCALE rounds to nearest (R144). That CVTF
to an FP8 format follows its mode and its saturation bit is the model's reading.
What the model chose or inferred in it: log 94. -/
def Obligations.ConversionValues : Prop :=
  (∀ t ∈ floatFormats, ∀ c, c < 2 ^ Fmt.width t →
    (finiteIn t c = true → ∃ k e, decVal t c = .fin (signOf t c) k e ∧ ratOf (signOf t c) k e = valueOf t c) ∧
    (infIn t c = true → decVal t c = .inf (signOf t c)) ∧ (finiteIn t c = false → infIn t c = false → decVal t c = .nan)) ∧
  (∀ c, c < 256 → ∃ sg k e, decVal .ps8 c = .fin sg k e ∧ ratOf sg k e = ps8 c) ∧
  (∀ f ∈ [Fmt.int8, .int16, .int32], ∀ v : BitVec (Fmt.width f), ∃ k e, decVal f v.toNat = .fin (decide (v.toInt < 0)) k e ∧
    ratOf (decide (v.toInt < 0)) k e = v.toInt) ∧
  (∀ t ∈ floatFormats, ∀ (m : Rm) (sat sg : Bool) (k : Nat) (e : Int),
    (k ≠ 0 → Rounds t m sat sg (ratOf sg k e) (roundVal t m sat (.fin sg k e))) ∧ roundVal t m sat (.fin sg 0 e) = (withSign t sg 0, 0)) ∧
  (∀ (m : Rm) (sat sg : Bool) (k : Nat) (e : Int),
    (|ratOf sg k e| ≤ 2 → Ps8Of m (ratOf sg k e) (roundVal .ps8 m sat (.fin sg k e)).1 ∧
      (roundVal .ps8 m sat (.fin sg k e)).2 = if ps8 (roundVal .ps8 m sat (.fin sg k e)).1 = ratOf sg k e then 0 else 16) ∧
    (2 < ratOf sg k e → roundVal .ps8 m sat (.fin sg k e) = (0x00, 4 + 32 + 16)) ∧
    (ratOf sg k e < -2 → roundVal .ps8 m sat (.fin sg k e) = (0x88, 4 + 32 + 16))) ∧
  (∀ t ∈ .ps8 :: floatFormats, ∀ (m : Rm) (sat sg : Bool),
    roundVal t m sat .nan = nanInto t ∧ roundVal t m sat (.inf sg) = infInto t sat sg ∧
    (∀ f ∈ [Fmt.int8, .int16, .int32, .ps8] ++ floatFormats, ∀ c, cvtE f t sat m c = roundVal t m sat (decVal f c)) ∧
    ∀ (n : Nat) (u : Bool) (v : BitVec 32), ∃ k e, ratOf (decide (num u v < 0)) k e = (num u v : ℚ) / 2 ^ n ∧
      cvtfE t n sat u m v.toNat = roundVal t m sat (.fin (decide (num u v < 0)) k e)) ∧
  (∀ (f : Fmt) (n : Nat) (u : Bool) (m : Rm) (c : Nat) (sg : Bool) (k : Nat) (e : Int), f ∈ .ps8 :: floatFormats →
    (decVal f c = .fin sg k e → cvtiE f n u m c = ((converts m u 32 (ratOf sg k e * 2 ^ n)).1.toNat, (converts m u 32 (ratOf sg k e * 2 ^ n)).2)) ∧
    (decVal f c = .nan → cvtiE f n u m c = (0, 1)) ∧
    (decVal f c = .inf sg → cvtiE f n u m c = ((BitVec.ofInt 32 (if sg then lowest u 32 else highest u 32)).toNat, 1)) ∧
    ∀ t ∈ [Fmt.int8, .int16, .int32], ∀ sat,
      (decVal f c = .fin sg k e →
        cvtE f t sat m c = ((converts m false (Fmt.width t) (ratOf sg k e)).1.toNat, (converts m false (Fmt.width t) (ratOf sg k e)).2)) ∧
      (decVal f c = .nan → cvtE f t sat m c = (0, 1)) ∧
      (decVal f c = .inf sg → cvtE f t sat m c =
        ((BitVec.ofInt (Fmt.width t) (if sg then lowest false (Fmt.width t) else highest false (Fmt.width t))).toNat, 1))) ∧
  (∀ f ∈ [Fmt.int8, .int16, .int32], ∀ t ∈ [Fmt.int8, .int16, .int32], ∀ (sat : Bool) (m : Rm) (v : BitVec (Fmt.width f)),
    cvtE f t sat m v.toNat = if sat then ((clamp false (Fmt.width t) v.toInt).1.toNat, if (clamp false (Fmt.width t) v.toInt).2 then 32 else 0)
      else ((v.signExtend (Fmt.width t)).toNat, 0)) ∧
  ∀ (f : FFmt) (c : Nat) (k : Int), c < 2 ^ floatWidth f →
    (finite f c = true → magnitude f c ≠ 0 → Nearest f (rat f c * (2 : ℚ) ^ k) (scaleE (FFmt.fmt f) c k).1 ∧
      NearestFlags f (rat f c * (2 : ℚ) ^ k) (scaleE (FFmt.fmt f) c k).1 (scaleE (FFmt.fmt f) c k).2) ∧
    (magnitude f c = 0 ∨ isInf f c = true → scaleE (FFmt.fmt f) c k = (c, 0)) ∧
    (isNan f c = true → scaleE (FFmt.fmt f) c k = (canonicalNan f, 0))

open Sys2Proof Sys2Proof.Machine Sys2Proof.Claims in
/-- PACK, UNPACK, BCAST, SHUF, ROT and LMASK move, widen and narrow elements as R145 to R148 and R153 say. COMPACT gathers the elements whose mask bit is set to the front, EXPAND spreads the front to them; the count goes to the other target, and
expanding by the same mask undoes compacting (R154).
What the model chose or inferred in it: log 71 (the tag that a result carries). -/
def Obligations.LanesMoved : Prop :=
  (∀ (s : State) (x : Elem) (r : Args) (p : Pm) (h w : BitVec 2) (o u f d : Bool) (n : BitVec 4) (k : BitVec 6) (a b : Tgt),
    (gate s (.pack p h o u a b) = .go x r → ∃ q fl, Computes (.pack p h o u a b) s x r 1 q fl ∧
      (∀ j, j < 512 / wideSide h →
        el (wideSide h / 2) q j = (packed (wideSide h) o u (el _ r.l.data j)).1 ∧
        el (wideSide h / 2) q (512 / wideSide h + j) = (packed (wideSide h) o u (el _ r.r.data j)).1) ∧
      fl = if ∃ j, j < 512 / wideSide h ∧ ((packed (wideSide h) o u (el _ r.l.data j)).2 = true ∨
        (packed (wideSide h) o u (el _ r.r.data j)).2 = true) then 32 else 0) ∧
    (gate s (.unpack p h u a b) = .go x r → ∃ q q', Issues (.unpack p h u a b) s x 1 [(0, a, dataTok q r.tag), (1, b, dataTok q' r.tag)] ∧
      ∀ j, j < 512 / wideSide h →
        el (wideSide h) q j = extended u _ (wideSide h / 2) (el _ r.l.data j) ∧
        el (wideSide h) q' j = extended u _ (wideSide h / 2) (el _ r.l.data (512 / wideSide h + j))) ∧
    ((Instr.bcast p w k a).wellFormed = true → gate s (.bcast p w k a) = .go x r → ∃ q, Computes (.bcast p w k a) s x r 1 q 0 ∧
      ∀ j, j < 512 / (32 / 2 ^ w.toNat) → el (32 / 2 ^ w.toNat) q j = el _ r.l.data k.toNat) ∧
    (gate s (.shuf p o a b) = .go x r → ∃ q, Computes (.shuf p o a b) s x r 1 q 0 ∧
      Holds (laneCount o) (laneWidth o) q fun j =>
        if (el (laneWidth o) r.r.data j).msb then 0 else el _ r.l.data ((el (laneWidth o) r.r.data j).toNat % laneCount o)) ∧
    (gate s (.rot p d f n a) = .go x r → ∃ q, Computes (.rot p d f n a) s x r 1 q 0 ∧ Holds 16 32 q fun i => rotated d f n.toNat i r.l.data) ∧
    (gate s (.lmask p w a) = .go x r → ∃ v, Computes (.lmask p w a) s x r 1 (onlyLane0 v) 0 ∧
      (w = 0 → v.toNat < 65536 ∧ ∀ j, j < 16 → v.getLsbD j = (el 32 r.l.data j != 0)) ∧
      (w = 1 → v.toNat < 65536 ∧ ∀ j, j < 16 → v.getLsbD j = (el 32 r.l.data j).msb) ∧
      (w = 2 → v.toNat = ones (el 32 r.l.data 0).toNat 16) ∧
      (w = 3 → v.toNat = 2 ^ Nat.min ((el 32 r.l.data 0).toNat % 32) 16 - 1))) ∧
  ∀ (s : State) (x : Elem) (r : Args) (p : Pm) (h : Bool) (a b : Tgt),
    (gate s (.compact p h a b) = .go x r → ∃ q, Issues (.compact p h a b) s x 2
        [(0, a, dataTok q r.tag), (1, b, dataTok (onlyLane0 (BitVec.ofNat 32 (ones (maskAt h r) (laneCount h)))) r.tag)] ∧
      (∀ j, j < laneCount h → (maskAt h r).testBit j = true → el (laneWidth h) q (ones (maskAt h r) j) = el _ r.l.data j) ∧
      ∀ j, j < laneCount h → ones (maskAt h r) (laneCount h) ≤ j → el (laneWidth h) q j = 0) ∧
    (gate s (.expand p h a b) = .go x r → ∃ q, Issues (.expand p h a b) s x 2
        [(0, a, dataTok q r.tag), (1, b, dataTok (onlyLane0 (BitVec.ofNat 32 (ones (maskAt h r) (laneCount h)))) r.tag)] ∧
      Holds (laneCount h) (laneWidth h) q fun j => if (maskAt h r).testBit j then el _ r.l.data (ones (maskAt h r) j) else 0)

open Sys2Proof Sys2Proof.Machine Sys2Proof.Claims in
/-- RED combines groups in the pairwise tree of R150, SCAN in lane order (R151), with the flags of every step but SCAN's first. TOPK: the lane of each place in the order of R152 stands at that place, as its value or its index; the other places are filled; TK is raised
exactly when a NaN is chosen. DOT: lane 0 of the result is the code of the exact sum of lane 0 of T and every product, rounded once: nearest to the sum, where
every operand is finite; NaNs and products of zero and infinity give the canonical NaN and NV (R95, R155).
What the model chose or inferred in it: log 71 (the tag that a result carries). -/
def Obligations.ReductionsComputed : Prop :=
  ((∀ (s : State) (x : Elem) (r : Args) (p : Pm) (o : RedOp) (g : BitVec 2) (e : Bool) (a : Tgt),
    (gate s (.red p o g a) = .go x r → ∃ q fl, Computes (.red p o g a) s x r 6 q fl ∧
      Holds 16 32 q (fun i => BitVec.ofNat 32 (tree o r.l.data (4 - g.toNat) (i / 2 ^ (4 - g.toNat) * 2 ^ (4 - g.toNat))).1) ∧
      ∀ k, fl.testBit k = true ↔
        ∃ i, i < 16 ∧ (tree o r.l.data (4 - g.toNat) (i / 2 ^ (4 - g.toNat) * 2 ^ (4 - g.toNat))).2.testBit k = true) ∧
    (gate s (.scan p o e a) = .go x r → ∃ q, Computes (.scan p o e a) s x r 6 q (prefixOf o r.l.data 16).2 ∧
      Holds 16 32 q fun i => BitVec.ofNat 32 (prefixOf o r.l.data (if e then i else i + 1)).1)) ∧
  ∀ (s : State) (x : Elem) (r : Args) (p : Pm) (int idx : Bool) (k : BitVec 4) (a : Tgt),
    let i : Instr := .topk p (if int then .int32 else .fp32) k idx a
    gate s i = .go x r → ∃ q fl, Computes i s x r 6 q fl ∧
      (∀ j, j < 16 → topRank int r.l.data j ≤ k.toNat → el 32 q (topRank int r.l.data j) =
        if idx then BitVec.ofNat 32 j else if topNan int (el 32 r.l.data j) then 0x7FC00000 else el 32 r.l.data j) ∧
      (∀ j, k.toNat < j → j < 16 → el 32 q j = if idx then 0xFFFFFFFF else 0) ∧
      fl = if ((List.range 16).any fun j => decide (topRank int r.l.data j ≤ k.toNat) && topNan int (el 32 r.l.data j)) then 64 else 0) ∧
  ∀ (s : State) (x : Elem) (r : Args) (p : Pm) (f : FFmt) (a b : Tgt),
    let sh : Shape := if f = .f32 then .v else .h
    let n := 512 / floatWidth f
    let va := fun j => (el (floatWidth f) r.l.data j).toNat
    let vb := fun j => (el (floatWidth f) r.r.data j).toNat
    let c := (el 32 r.t.data 0).toNat
    let sum : ℚ := rat .f32 c + ((List.range n).map fun j => rat f (va j) * rat f (vb j)).sum
    gate s (.dot p sh f a b) = .go x r → ∃ v fl, Computes (.dot p sh f a b) s x r 8 (onlyLane0 v) fl ∧
      ((∀ j, j < n → finite f (va j) = true ∧ finite f (vb j) = true) → finite .f32 c = true →
        (sum ≠ 0 → Nearest .f32 sum v.toNat) ∧ (sum = 0 → magnitude .f32 v.toNat = 0)) ∧
      ((∃ j, j < n ∧ (isNan f (va j) = true ∨ isNan f (vb j) = true ∨ (isInf f (va j) = true ∧ magnitude f (vb j) = 0) ∨
          (magnitude f (va j) = 0 ∧ isInf f (vb j) = true))) ∨ isNan .f32 c = true → v = 0x7FC00000 ∧ fl = 1)

open Sys2Proof Sys2Proof.Machine Sys2Proof.Claims in
/-- IN and DROP take the token assigned to them; EOS tests a marker kind; EMIT makes a marker; BOUND makes a bound token of a trip from 1 to 65,535 and
traps on any other; GATE passes its token on one truth value and gives a null on the other (R164 to R168, R172). MARK asks every used input of its region to inject a dusk marker, and emits 1 if the request is new and 0 if one is pending; a region
without a save area discards it (R171, R337).
What the model chose or inferred in it: log 71 (the tag that a result carries). -/
def Obligations.StreamTokens : Prop :=
  (∀ (s : State) (x : Elem) (r : Args) (p : Pm) (n : BitVec 3) (k : BitVec 2) (f : Bool) (a : Tgt),
    (∀ t, gate s (.in_ p n a) = .go x r → assignedTok x s.cur n.toNat = some t → Emits (.in_ p n a) s x 1 t) ∧
    (∀ t, gate s (.drop p n a) = .go x r → assignedTok x s.cur n.toNat = some t → Emits (.drop p n a) s x 1 ⟨.null, 0, t.tag⟩) ∧
    (gate s (.eos p k a) = .go x r → Emits (.eos p k a) s x 1
      ⟨.cond, if (r.l.kind = .row ∧ k.getLsbD 0 = true) ∨ (r.l.kind = .kend ∧ k.getLsbD 1 = true) then 1 else 0, r.tag⟩) ∧
    (gate s (.emit p 1 a) = .go x r → Emits (.emit p 1 a) s x 1 ⟨.row, r.l.data, r.tag⟩) ∧
    (gate s (.emit p 2 a) = .go x r → Emits (.emit p 2 a) s x 1 ⟨.kend, r.l.data, r.tag⟩) ∧
    (gate s (.bound p k a) = .go x r →
      (1 ≤ (el 32 r.l.data 0).toNat → (el 32 r.l.data 0).toNat ≤ 65535 →
        ∃ d, Emits (.bound p k a) s x 1 ⟨.bound, d, r.tag⟩ ∧ Holds 2 32 d fun j => if j = 0 then el 32 r.l.data 0 else k.setWidth 32) ∧
      ((el 32 r.l.data 0).toNat < 1 ∨ 65535 < (el 32 r.l.data 0).toNat → Raises (.bound p k a) s 6 0 0 0)) ∧
    (gate s (.gate p f a) = .go x r → Emits (.gate p f a) s x 1
      (if r.t.kind ≠ .null ∧ r.l.kind ≠ .null ∧ r.t.data.getLsbD 0 ≠ f then r.l else ⟨.null, 0, r.tag⟩))) ∧
  ∀ (s : State) (x : Elem) (r : Args) (p : Pm) (a : Tgt) (g : Region), gate s (.mark p a) = .go x r → s.region? x.rref = some g →
    ((g.save = 0 ∨ ∃ i ∈ g.ins, i.mark = true) → Emits (.mark p a) s x 1 ⟨.data, 0, r.tag⟩) ∧
    (g.save ≠ 0 → (∀ i ∈ g.ins, i.mark = false) →
      IssuesIn (.mark p a) s (s.modRegion x.rref fun h => { h with ins := (indexed 0 h.ins).map fun q => { q.2 with mark := h.usedIn q.1 } }) x 1
        (toAll (.mark p a) ⟨.data, 1, r.tag⟩))

open Sys2Proof Sys2Proof.Machine Sys2Proof.Claims in
/-- FILT routes its record, frees the places it leaves empty, and counts its sequence number and its window; while the window is full it waits
(R17, R161, R169). MERGE takes the record that its condition, or its expected tag, names, from the head of its arm port, drops the record's tag, counts down the
window of its FILT and, tagged, expects the next tag; a null for its condition, or the expected tag at both heads, takes a record from each and gives a null; it
waits while what it must take is not there; and tagged, a record without a tag is the illegal-instruction trap (R16, R170).
What the model chose or inferred in it: log 71, 79. -/
def Obligations.RecordsRouted : Prop :=
  (∀ (s : State) (x : Elem) (r : Args) (p : Pm) (g w : Bool) (c f : BitVec 3) (a : Tgt), gate s (.filt p g w c f a) = .go x r →
    let k := if s.cur.epi then 64 + s.cur.slot else s.cur.slot
    let seq := (x.filt k).1
    let win := (x.filt k).2
    let out := filtered g w c f a seq r
    (w = true → s.condWindow x s.cur.e c.toNat ≤ win → exec (.filt p g w c f a) s = .next s) ∧
    (w = false ∨ win < s.condWindow x s.cur.e c.toNat →
      Issues (.filt p g w c f a) s ((x.freeOuts s.cur out.2).setFilt k (if g then (seq + 1) % 65536 else seq)
        (if w then win + 1 else win)) 1 out.1)) ∧
  ∀ (s : State) (x : Elem) (r : Args) (p : Pm) (f t : BitVec 3) (a : Tgt),
    let u := s.countDown (s.pairedFilt s.cur x)
    let hT := x.head? t.toNat
    let hF := x.head? f.toNat
    (gate s (.merge p f t false a) = .go x r →
      (r.t.kind ≠ .null → let arm := if r.t.data.getLsbD 0 then t.toNat else f.toNat
        (∀ v, x.head? arm = some v → ∃ y, u.elem? s.cur.e = some y ∧
          IssuesIn (.merge p f t false a) s u (y.take arm) 1 (toAll (.merge p f t false a) ⟨v.kind, v.data, none⟩)) ∧
        (x.head? arm = none → exec (.merge p f t false a) s = .next s)) ∧
      (r.t.kind = .null →
        (hT ≠ none → hF ≠ none → ∃ y, u.elem? s.cur.e = some y ∧
          IssuesIn (.merge p f t false a) s u ((y.take t.toNat).take f.toNat) 1 (toAll (.merge p f t false a) ⟨.null, 0, none⟩)) ∧
        (hT = none ∨ hF = none → exec (.merge p f t false a) s = .next s))) ∧
    (gate s (.merge p f t true a) = .go x r →
      let k := if s.cur.epi then 64 + s.cur.slot else s.cur.slot
      let due := some (BitVec.ofNat 16 (x.expect k))
      let next := fun (y : Elem) => { y with merges := put k ((x.expect k + 1) % 65536) y.merges }
      let other := fun (h : Option Token) => ∀ w, h = some w → w.tag ≠ none ∧ w.tag ≠ due
      ((∃ v, (hT = some v ∨ hF = some v) ∧ v.tag = none) → Raises (.merge p f t true a) s 1 0 0 0) ∧
      (∀ v, v.tag = due →
        (hT = some v → other hF → ∃ y, u.elem? s.cur.e = some y ∧
          IssuesIn (.merge p f t true a) s u (next (y.take t.toNat)) 1 (toAll (.merge p f t true a) ⟨v.kind, v.data, none⟩)) ∧
        (hF = some v → other hT → ∃ y, u.elem? s.cur.e = some y ∧
          IssuesIn (.merge p f t true a) s u (next (y.take f.toNat)) 1 (toAll (.merge p f t true a) ⟨v.kind, v.data, none⟩)) ∧
        ∀ w, w.tag = due → hT = some v → hF = some w → ∃ y, u.elem? s.cur.e = some y ∧
          IssuesIn (.merge p f t true a) s u (next ((y.take t.toNat).take f.toNat)) 1 (toAll (.merge p f t true a) ⟨.null, 0, none⟩)) ∧
      (other hT → other hF → exec (.merge p f t true a) s = .next s))

open Sys2Proof Sys2Proof.Machine Sys2Proof.Claims in
/-- The memory instructions issue one access each, with its path, port, scope, order and width; the checks of R241 and R272 are made as it issues,
and what they find is a trap at the slot (R270, R271, R273). The checks of an access in their order (R241, R272): where the object is found and its bytes are readable or writable, an offset that
is no multiple of the access size is cause 7, and a versioned access to an unversioned object, or the other way about, is cause 9.
What the model chose or inferred in it: log 15, 74. -/
def Obligations.MemoryInstructionsIssue : Prop :=
  (∀ (s : State) (y : Elem) (r : Args) (p : Pm) (w : Width) (k : Scope) (o : Ord) (x v : Bool) (n : BitVec 2) (a : Tgt) (d : Dst) (f t : Path),
    ∀ q ∈ memoryTable s r p w k o x v n a d f t, gate s q.1 = .go y r → IssuesAccess q.1 s y q.2.1 q.2.2) ∧
  ∀ (s t u : State) (n : Nat) (q : Req) (a : Access) (len align : Nat) (write v : Bool) (w : Option Nat) (o : Obj) (ps : List (Nat × Nat)),
    s.object n q (tokTid a.tok) = .ok o t → t.checked n q o (tokOff a.tok) len write = .ok ps u →
    (tokOff a.tok % align ≠ 0 → planSpan n q a len align write (some v) w s = .stop (.bounds 7) u) ∧
    (tokOff a.tok % align = 0 → o.ver ≠ v → planSpan n q a len align write (some v) w s = .stop (.bounds 9) u)

open Sys2Proof Sys2Proof.Machine Sys2Proof.Claims in
/-- ACCESS_PERFORMED: an access whose turn has come performs its operation, and its result goes to its target, or is on its way to its
register; where it must wait, that is recorded; a failed check raises the trap at its slot (R251, R255, R271, R273). FILL_ARRIVAL writes a
pending register, and makes it full, once the data is due (R105, R364).
What the model chose or inferred in it: log 71 (the tag that a result carries), 15. -/
def Obligations.AccessesPerformed : Prop :=
  ∀ (s : State) (x : Elem) (e k : Nat) (a : Access), s.elem? e = some x → x.acc.find? (fun b => b.id == k) = some a →
    (s.accTurn e x a = true →
      (∀ z fl u, accDo a e x.l.n s = .ok (z, fl) u → exec (.accessPerformed e k) s = .next (u.accReturn e a { z with tag := a.tag } fl)) ∧
      (∀ w u, accDo a e x.l.n s = .wait w u → exec (.accessPerformed e k) s = .next (u.accWait e a w)) ∧
      (∀ z u, accDo a e x.l.n s = .stop z u → exec (.accessPerformed e k) s = .next (u.accStop e a z))) ∧
    (s.accTurn e x a = false → exec (.accessPerformed e k) s = .next s) ∧
    ∀ v f, x.fills.find? (fun b => b.v == v) = some f →
      (x.icyc < f.due → exec (.fillArrival e v) s = .next s) ∧
      (f.due ≤ x.icyc → exec (.fillArrival e v) s = .next (s.setElem e { x.setReg v ⟨.full, f.data⟩ with fills := x.fills.erase f }))

open Sys2Proof Sys2Proof.Machine Sys2Proof.Claims in
/-- What LD, ST and the atomics do with memory as their accesses are performed: the bytes read through the slice, extended into lanes (R274); the
low bytes of R written (R275); the old value returned and the new value computed (R280).
What the model chose or inferred in it: log 5, 15. -/
def Obligations.LoadsStoresAtomics : Prop :=
  ∀ (s t : State) (e n : Nat) (a : Access) (p : Plan),
    (planRead false n (a.req e) a s = .ok p t → ∀ bs u, (t.accAcquire (pageOf e) a).readPieces n (pageOf e) p.obj p.pas = .ok bs u →
      doLd e n a s = .ok (⟨.data, loaded a bs, none⟩, 0) u) ∧
    (planWrite false n (a.req e) a s = .ok p t →
      (∀ u, (t.accRelease n (pageOf e) a).writePieces n (pageOf e) p.obj p.pas
          ((List.range (if a.vec then 64 else a.width)).map fun j => el 8 a.r j) (Scope.wide a.scope) = .ok () u →
        doSt e n a s = .ok (⟨.data, 1, none⟩, 0) u) ∧
      ∀ o old u, (a.width = 4 ∨ a.width = 8) → old < 2 ^ (8 * a.width) →
        ((t.accRelease n (pageOf e) a).accAcquire (pageOf e) a).atomicAt n (pageOf e) (t.atomicPage n (pageOf e) p.pa (Scope.wide a.scope))
          p.pa a.width p.obj (Scope.wide a.scope)
          (fun v => (atomNew o a.sx (8 * a.width) v (el (8 * a.width) a.r 0).toNat (el (8 * a.width) a.t 0).toNat).1) = .ok old u →
        doAtom o e n a s = .ok (⟨.data, (BitVec.ofNat (8 * a.width) old).setWidth 512, none⟩,
          (atomNew o a.sx (8 * a.width) old (el (8 * a.width) a.r 0).toNat (el (8 * a.width) a.t 0).toNat).2) u) ∧
    ∀ (o : AtomOp) (sx : Bool) (w : Nat) (v r c : BitVec w), 0 < w →
      BitVec.ofNat w (atomNew o sx w v.toNat r.toNat c.toNat).1 = atomic o sx w v r c

open Sys2Proof Sys2Proof.Machine Sys2Proof.Claims in
/-- What the memory instructions do in slices and memory as their accesses are performed, once the checks have found the line. LDV reads a live version,
waits for a future one, and traps on one that is gone; STV makes the next version, a copy of the newest with the bytes of R put in, and waits while four are live
or no way can be pinned; RECL retires the older ones; the first versioned access makes version 0 of what memory holds (R268, R269, R279). PREF leaves the line
present and FLUSH writes it back and drops it, unless it is pinned (R276); a prefetch that has been dropped, or whose check fails, completes all the same.
PIN and UNPIN count pins and keep the element's list; a thirteenth pin of a set waits, and traps with cause 5 where only the launch's end would release one (R266, R286).
FENCE writes back the slice and marks it stale, at .depot or wider (R263, R284); FENCEX, of two paths, leaves no copy that a read of its to-path could take, and acts
as FENCE.ar where its paths are equal (R285). A narrow write makes the line dirty in the slice; one of scope .depot or wider goes
through to memory and into a valid copy, and allocates no line (R261, R293).
What the model chose or inferred in it: log 128 (FENCEX and the dirty lines of other slices), 15, 5. -/
def Obligations.MemoryEffects : Prop :=
  ∀ (s t : State) (e n : Nat) (a : Access) (p : Plan),
    ((planRead true n (a.req e) a s = .ok p t ∧ a.op = .ldv) ∨ (planWrite true n (a.req e) a s = .ok p t ∧ a.op = .stv) ∨
        (planRecl n (a.req e) a s = .ok p t ∧ a.op = .recl) → VersionedAccess s t e n a p ∧ FirstVersioned s t e n a p) ∧
    (planLine n (a.req e) a s = .ok p t → PrefFlush s t e n a p ∧ PinUnpin s t e n a p) ∧
    (a.op = .pref →
      (a.wait = .drop → accDo a e n s = .ok (⟨.data, 1, none⟩, 0) s) ∧
      (a.wait ≠ .drop → ∀ c, planLine n (a.req e) a s = .stop c t → accDo a e n s = .ok (⟨.data, 1, none⟩, 0) t)) ∧
    Fences s e n a ∧
    ∀ (g pa len : Nat) (o : Obj) (bs : List Byte), SliceBytes s n g pa len o bs

open Sys2Proof Sys2Proof.Machine Sys2Proof.Claims in
/-- What the tile and lane instructions do as they are performed, once the checks have found their places. LDT copies the tile's rows into the scratchpad image
and gives its tag; STT and ACCV write tile and tag as one unit, through to memory, and leave no other slice a clean copy; TAGS writes the entry alone, and TAGR
reads it; a check that waits makes the access wait, as the reading of an entry does whose home slice is halted (R278, R335, R359, R367, R368). TFCH fills its buffer with the stored elements in their order, zeros elsewhere,
with tag, role, scales and the lines that it pins, and gives the handle (R362, R363, R369). The order of a dense tile's elements follows its layout (R363).
GATH reads one element for each lane that is not skipped, zero in the others; SCAT writes and ASCAT adds them lane by lane, in order, at the home slice of
each line (R282, R283); a check that fails in a lane stops the request before any lane is performed (R267).
What the model chose or inferred in it: log 11 (ASCAT in a tile of another format), 15, 94 (ACCV's rounding), 95 (when a scale raises NV), 5. -/
def Obligations.TileAndLaneEffects : Prop :=
  (∀ (s t : State) (e n : Nat) (a : Access) (x : Elem) (p : TilePlan), s.elem? e = some x →
    TagAccess s t e n a x p ∧ TileStored s t e n a x p) ∧
  (∀ (s t : State) (e n : Nat) (a : Access) (p : FetchPlan), TileFetched s t e n a p) ∧
  (∀ (d : BitVec 512) (t : TileAt) (lay r c k : Nat), lay < 4 → ((layOrder d t lay)[k]? = some (r, c) ↔ TilePlace d t lay r c k)) ∧
  (∀ (d : BitVec 512) (off w b : Nat), b < 16 → (tileRows d off w)[b]? = some (off + w * (b * dStride d 1), 16 * w)) ∧
  ∀ (s t : State) (e n : Nat) (a : Access) (o : Obj) (ls : List LanePlan) (write : Bool), LaneAccess s t e n a o ls write ∧
    ∀ c, planLanes write n (a.req e) a s = .stop c t → (write = false ∧ a.op = .gath) ∨ (write = true ∧ (a.op = .scat ∨ a.op = .ascat)) →
      accDo a e n s = .stop c t

open Sys2Proof Sys2Proof.Machine Sys2Proof.Claims in
/-- What the unit instructions that reach beyond the matrix unit do as they are performed. TDSC gives an item of the descriptor (R370), and MLOOK the index, action and
wildcard count of the method that its key finds, or that there is none (R371). CHAPP acts as a FENCEX.dev to the engine's path, copies the entry, rebases
what names elements of its launch, and appends it with the next sequence number (R315, R324). TDISP releases at .dev and hands its descriptor, with the count that marks its
completion, to the graph sequencer (R327); LAUNCH releases, sets QUEUE and appends the entry, and gives the QSEQ that marks its completion (R235). Each waits while
the device buffer holds 16 entries, and a check that fails stops it. An entry is the 64 bytes that its token names, dword by dword.
What the model chose or inferred in it: log 20 (items of the flat object: some value), 21 (when the table is read), 15, 5. -/
def Obligations.UnitEffects : Prop :=
  (∀ (s t : State) (e n item : Nat) (a : Access) (o : Obj), a.op = .tdsc item → s.object n (a.req e) (tokTid a.tok) = .ok o t →
    (∀ c, o.c = some c → item ≤ 5 → accDo a e n s = .ok (⟨.data, lanesOf (itemOf c.d item), none⟩, 0) t) ∧
    (o.c = none → ∃ d, accDo a e n s = .ok (⟨.data, d, none⟩, 0) t)) ∧
  (∀ (s t : State) (e n : Nat) (a : Access) (ms : List (Nat × List Dword)), a.op = .mlook → s.methods n (a.req e) = .ok ms t →
    (ms.map (·.1)).Pairwise (· < ·) →
    let w := (el 32 a.l 0).toNat
    let k : Key := ⟨w % 2 ^ 12, Sys2Proof.fld w 12 2, (List.range 3).map fun j => (el 32 a.r j).toNat % 1024⟩
    (∀ i m, BestMethod ms k i m → accDo a e n s = .ok (⟨.data, lanesOf [i, meAction m, wildcards m], none⟩, 0) t) ∧
    ((∀ q ∈ ms, ¬ methodMatches q.2 k) → accDo a e n s = .ok (⟨.data, lanesOf [0xFFFFFFFF, 0, 0], none⟩, 0) t)) ∧
  (∀ (s t u : State) (e n : Nat) (a : Access) (p : Plan) (bs : List Byte), planEntry n (a.req e) a s = .ok p t →
    t.readPieces n (pageOf e) p.obj p.pas = .ok bs u →
    readEntry e n a s = .ok ((List.range 8).map fun i => BitVec.ofNat 64 (little ((bs.drop (8 * i)).take 8))) u) ∧
  ∀ (s u : State) (e n : Nat) (a : Access) (x : Elem) (dw : List Dword), s.elem? e = some x → dw.length = 8 → n < u.parts.length →
    let g := pageOf e
    (∀ k, a.op = .chapp k → readEntry e n a (s.fenceX n g .ep (if k = 64 then .lk else .ce) .dev) = .ok dw u →
      (16 ≤ ((u.part n).eng k).append.length → accDo a e n s = .wait .no u) ∧
      (((u.part n).eng k).append.length < 16 → ∀ l, u.launch? x.l = some l →
        let q := (((u.part n).eng k).given + 1) % 2 ^ 32
        ∃ v dw', accDo a e n s = .ok (numTok q none, 0) v ∧ v.mem = u.mem ∧ RebasedEntry l dw dw' ∧
          (v.part n).eng k = { (u.part n).eng k with given := q, append := ((u.part n).eng k).append ++ [(q, dw')] })) ∧
    (a.op = .tdisp → readEntry e n a (s.accRelease n g a) = .ok dw u →
      (16 ≤ (u.part n).gs.append.length → accDo a e n s = .wait .no u) ∧
      ((u.part n).gs.append.length < 16 → ∀ y, u.elem? e = some y →
        let q := ((u.part n).gs.given + 1) % 2 ^ 32
        ∃ v dw', accDo a e n s = .ok (numTok q none, 0) v ∧ v.mem = u.mem ∧ FieldSet dw dw' 7 0 32 q ∧
          (v.part n).gs = { (u.part n).gs with given := q, append := (u.part n).gs.append ++ [(dw', ⟨y.l, e, a.no, a.epi, a.slot⟩)] })) ∧
    (∀ k, a.op = .launch k → readEntry e n a (s.accRelease n g a) = .ok dw u →
      (16 ≤ (u.part n).append.length → accDo a e n s = .wait .no u) ∧
      ((u.part n).append.length < 16 →
        let q := ((u.part n).taken.getD k 0 + ((u.part n).append.filter fun w => w.2 == k).length + 1) % 2 ^ 32
        ∃ v dw', accDo a e n s = .ok (numTok q none, 0) v ∧ v.mem = u.mem ∧ FieldSet dw dw' 3 58 3 k ∧
          (v.part n).append = (u.part n).append ++ [(dw', k)]))

open Sys2Proof Sys2Proof.Machine Sys2Proof.Claims in
/-- Pattern programs. A program parses to a pattern exactly where its words are an optional PGRAN, the words of the pattern with operands in range, and PEND, of at most
32 words and 4 patterns on the stack (R384, R385); a pattern's members are those of R384, R386 and R387 in its frame (R383), whatever the pattern. PGLD leaves the
generator loaded with the frame of its object (R383, R395). PGST of an idle generator traps (cause 12); of a transposed program without an inverse it raises the
trap of class 5 with the program and the first such word (R55, R389); else the generator runs from its start, or has ended (R396). PGNX of a running generator yields the next members,
at most eight, in their order, and leaves the cursor behind the last, and the generator ended where fewer are left; of another it yields all ones (R388, R397). PGRS takes
back the context that PGSV gives, reloads the program, and refuses reserved bits (R391, R398).
A transposed enumeration takes of a hashed word with an inverse table the rows that its table lists for the column, checks them all, and traps on one that is
no member or not greater than the one before (R387, R388).
What the model chose or inferred in it: log 97 (words behind PEND are a breach), 15, 5. -/
def Obligations.PatternSets : Prop :=
  (∀ (p : Pat) (rf cf r c : Nat), p.mem rf cf r c = true ↔ Member p rf cf r c) ∧
  (∀ (ws : List Nat) (g : Bool) (p : Pat), patParse ws 0 false [] = .ok (g, p) ↔
    ∃ pre, ((pre = [] ∧ g = false) ∨ pre = [patWordOf 0x0A (if g then 1 else 0)]) ∧ ws = pre ++ wordsOf p ++ [patWordOf 0x0B 0] ∧
      InRange p pre.length ∧ stackOf p ≤ 4 ∧ ws.length ≤ 32) ∧
  (∀ p : Pat, p.noInverse = none ↔ Inverts p) ∧
  (∀ (s s1 s2 u : State) (n page pidx tid k m seed i rf cf r c lo hi : Nat) (q : Req) (rows : List Nat), r < rf → c < cf →
    invWord n page q i (1 + c) s = .ok lo s1 → invWord n page q i (2 + c) s1 = .ok hi s2 → hi - lo = rows.length →
    rowsRead n page q i (cf + 2 + lo) rows s2 u →
    let good := rows.Pairwise (· < ·) ∧ ∀ x ∈ rows, ∃ j, j < m ∧ (hashOf seed x j).toNat % cf = c
    (good → (Pat.hash k m seed (some i)).memT n page pidx tid q rf cf r c s = .ok (decide (r ∈ rows)) u) ∧
    (¬ good → ∃ z, (Pat.hash k m seed (some i)).memT n page pidx tid q rf cf r c s =
      .stop (.trap 5 0 (pidx % 65536 * 65536 + k % 256) (tid * 2 ^ 48)) z)) ∧
  ∀ (s t : State) (e n : Nat) (a : Access) (x y : Elem) (g : Nat), s.elem? e = some x → t.elem? e = some y → g < x.cur.gens.length → g < y.cur.gens.length →
    let v := x.gen g
    (∀ u o ws gran p, a.op = .pgld g → pgldChk e n a s = .ok () u → ∀ w, u.object n (a.req e) (tokTid a.tok) = .ok o w →
      loadProg n (a.req e) (dPat o.d) a.port a.tok.toNat w = .ok (ws, gran, p) t →
      let rows := if dNdim o.d < 2 then 1 else dSize o.d 1
      let cols := dSize o.d 0
      ∃ z y', accDo a e n s = .ok (⟨.data, 1, none⟩, 0) z ∧ z.elem? e = some y' ∧ y'.cur.gens = setAt y.cur.gens g
        { gran := gran, st := .loaded, pidx := BitVec.ofNat 16 (dPat o.d), tid := BitVec.ofNat 16 (tokTid a.tok), prog := ws.map (BitVec.ofNat 32),
          rf := BitVec.ofNat 32 (if gran then (rows + 15) / 16 else rows), cf := BitVec.ofNat 32 (if gran then (cols + 15) / 16 else cols) }) ∧
    (∀ trn, a.op = .pgst g trn →
      (v.st = .idle → accDo a e n s = .stop (.trap 6 12 0 0) s) ∧
      (v.st ≠ .idle → ∀ p, v.pat = some p →
        (trn = true → ∀ k, p.noInverse = some k →
          accDo a e n s = .stop (.trap 5 0 (v.pidx.toNat * 65536 + k % 256) (v.tid.toNat * 2 ^ 48)) s) ∧
        ((trn = false ∧ t = s) ∨ (trn = true ∧ p.noInverse = none ∧
            p.checkTables n (pageOf e) v.pidx.toNat v.tid.toNat (a.req e) v.cf.toNat s = .ok () t) →
          let start := (el 32 a.l 0).toNat
          let ext := if trn then v.cf.toNat else v.rf.toNat
          let last := if el 32 a.l 1 = 0xFFFFFFFF then ext else Nat.min (el 32 a.l 1).toNat ext
          ∃ z y', accDo a e n s = .ok (⟨.data, 1, none⟩, 0) z ∧ z.elem? e = some y' ∧ y'.cur.gens = setAt y.cur.gens g
            { v with dir := trn, emaj := BitVec.ofNat 32 last, cmaj := BitVec.ofNat 32 start, cmin := 0, yld := 0,
                     st := if last ≤ start then .ended else .running }))) ∧
    (a.op = .pgnx g →
      (v.st ≠ .running → ∃ z, accDo a e n s = .ok (⟨.data, BitVec.allOnes 512, none⟩, 0) z ∧ (z.elem? e).map (·.cur.gens) = some x.cur.gens) ∧
      (v.st = .running → ∀ p, v.pat = some p → (v.dir = false ∨ NoTables p) → ∃ ys d z y', Yields v p ys ∧
        accDo a e n s = .ok (⟨.data, d, none⟩, 0) z ∧ z.elem? e = some y' ∧ z.mem = s.mem ∧
        (∀ i, i < 8 → el 32 d (2 * i) = (match ys[i]? with | some m => BitVec.ofNat 32 (if v.dir then m.2 else m.1) | none => 0xFFFFFFFF) ∧
          el 32 d (2 * i + 1) = (match ys[i]? with | some m => BitVec.ofNat 32 (if v.dir then m.1 else m.2) | none => 0xFFFFFFFF)) ∧
        let c := match ys.getLast? with
          | some m => successor v m
          | none => (v.cmaj.toNat, v.cmin.toNat)
        y'.cur.gens = setAt x.cur.gens g { v with cmaj := BitVec.ofNat 32 c.1, cmin := BitVec.ofNat 32 c.2, yld := v.yld + BitVec.ofNat 32 ys.length,
                                                   st := if ys.length = 8 then .running else .ended })) ∧
    (a.op = .pgrs g →
      let code := Sys2Proof.fld (el 32 a.l 0).toNat 16 3
      let fits := (el 32 a.l 0).toNat < 2 ^ 21 ∧ code < 4 ∧ (el 32 a.l 1).toNat < 2 ^ 16 ∧ a.l.toNat < 2 ^ 256
      (¬ fits → accDo a e n s = .stop (.trap 1 0 0 0) s) ∧
      (fits → ∀ ws gran p, (code = 0 ∧ ws = [] ∧ t = s) ∨ (code ≠ 0 ∧ (code = 2 → (el 32 a.l 0).getLsbD 20 = true → p.noInverse = none) ∧
          loadProg n (a.req e) ((el 32 a.l 0).toNat % 65536) a.port ((el 32 a.l 1).toNat * 2 ^ 48) s = .ok (ws, gran, p) t) →
        ∃ z y' w, accDo a e n s = .ok (⟨.data, 1, none⟩, 0) z ∧ z.elem? e = some y' ∧ y'.cur.gens = setAt y.cur.gens g w ∧
          w.context = a.l ∧ w.prog = ws.map (BitVec.ofNat 32)))

open Sys2Proof Sys2Proof.Machine Sys2Proof.Claims in
/-- SPLD and SPST read and write the scratchpad of their own element: an offset that is no multiple of the access size is cause 7, one beyond the
grant cause 8; a store changes no other byte of the scratchpad (R272, R277). An SPLD waits for a SYNW or BARW before it in program order (R312; the
model's reading, log 125).
What the model chose or inferred in it: log 5, 71, 125. -/
def Obligations.ScratchpadAccessed : Prop :=
  ∀ (s : State) (x : Elem) (r : Args) (p : Pm) (w : Width) (k : Scope) (o : Ord) (v : Bool) (a : Tgt),
    let off := (el 32 r.l.data 0).toNat
    let len := if v then 64 else bytesOf w
    x.cur.scratch.wf = true → x.acqPending s.cur = false → s.poolBusy x s.cur off len = false →
    (gate s (.spld p w k o v a) = .go x r → x.countPending s.cur = true → exec (.spld p w k o v a) s = .next s) ∧
    (∀ i ∈ [Instr.spld p w k o v a, .spst p w k o v a], gate s i = .go x r → (x.countPending s.cur = false ∨ i = .spst p w k o v a) →
      (off % len ≠ 0 → Raises i s 6 7 0 0) ∧ (off % len = 0 → x.scrBytes < off + len → Raises i s 6 8 0 0)) ∧
    (off % len = 0 → off + len ≤ x.scrBytes →
      (gate s (.spld p w k o v a) = .go x r → x.countPending s.cur = false → Emits (.spld p w k o v a) s x 2 ⟨.data,
        (BitVec.ofNat (8 * len) (little ((List.range len).map fun j => x.cur.scratch.get (off + j)))).setWidth 512, r.tag⟩) ∧
      (gate s (.spst p w k o v a) = .go x r → ∃ m, Emits (.spst p w k o v a) s { x with cur := { x.cur with scratch := m } } 1 ⟨.data, 1, r.tag⟩ ∧
        (∀ j, j < len → m.get (off + j) = el 8 r.r.data j) ∧
        ∀ b, b < off ∨ off + len ≤ b → m.get b = x.cur.scratch.get b))

open Sys2Proof Sys2Proof.Machine Sys2Proof.Claims in
/-- When a slot executes: its operands have arrived, its predicate holds, no operand is a null that its own entry does not treat, and none
is a marker that it does not accept (R20, R21, R42, R107, R109).
A slot whose predicate fails, or whose operand is a null, issues and sends nulls to every target, with no other effect (R20, R21), a FILT
without a condition port with a null at P to its false port alone (R21), a memory instruction once the order of R113 lets it (R109); a marker
at P or at a port that does not accept it raises the illegal-instruction trap (R42). This holds of every instruction. A slot that has issued, whose operands have not all arrived, or whose element has stopped waits: nothing changes (R11, R109, R328).
What the model chose or inferred in it: log 87, 88, 89, 71 (the tag that a null carries). -/
def Obligations.SlotOutcomes : Prop :=
  (∀ (s : State) (i : Instr) (x : Elem) (sl : Slot), ReadySlot s i x sl → PredHolds i sl → MarkersFit i sl →
    ((infoOf i).ownNull = true ∨ ¬ SomeNull i sl) → gate s i = .go x (operands i sl)) ∧
  (∀ (s : State) (i : Instr) (x : Elem) (sl : Slot), encode i ≠ [] → ReadySlot s i x sl →
    (PredFails i sl ∨ (PredHolds i sl ∧ (infoOf i).ownNull = false ∧ SomeNull i sl) →
      (s.nullHeld x s.cur i = true → exec i s = .next s) ∧
      (s.nullHeld x s.cur i = false → ¬ FiltAlone i sl → Issues i s x 1 (toAll i ⟨.null, 0, (operands i sl).tag⟩)) ∧
      ∀ p g c f a, i = .filt p g false c f a → FiltAlone i sl → Issues i s
        (x.freeOuts s.cur (match a with
          | .out o => [(0, o.toNat)]
          | _ => [])) 1 [(2, .out f, ⟨.null, 0, (operands i sl).tag⟩)]) ∧
    ((infoOf i).pm ≠ .none → isMarker (predTok sl) = true → Raises i s 1 0 0 0) ∧
    (PredHolds i sl → ((infoOf i).ownNull = true ∨ ¬ SomeNull i sl) → ¬ MarkersFit i sl → Raises i s 1 0 0 0)) ∧
  ∀ (s : State) (i : Instr) (x : Elem) (f : Firing) (sl : Slot), encode i ≠ [] → s.elem? s.cur.e = some x →
    x.firing? s.cur.no s.cur.epi = some f → f.slots[s.cur.slot]? = some sl →
    (sl.issued = true ∨ x.stopped = true ∨ ¬ Arrived x.icyc (infoOf i).l sl.l ∨ ¬ Arrived x.icyc (infoOf i).r sl.r ∨
      ¬ Arrived x.icyc (infoOf i).t sl.t ∨ ¬ Arrived x.icyc ((infoOf i).pm != .none) sl.p) → exec i s = .next s

open Sys2Proof Sys2Proof.Machine Sys2Proof.Claims in
/-- What an issue leaves alone: a slot that issues with its element as `y` changes no byte of memory, no other element, no launch and no
page; of its own element it changes the firings alone: registers, scratchpad, tiles, FPSTAT, barriers and generators are those of `y`. Of the firings
it marks its own slot issued, gives tokens to slots of its own firing, and changes no other firing (R109, R110).
A trap changes no byte of memory and no other element: its element has stopped, with the trap in its fault register, or, where that holds
one, beside it: of two that an element raised both are kept until they are recorded (R328 to R330). -/
def Obligations.IssueAndTrapFrames : Prop :=
  (∀ (s t : State) (i : Instr) (y : Elem) (lat : Nat) (outs : List (Nat × Tgt × Token)), Issues i s y lat outs → exec i s = .next t →
    t.mem = s.mem ∧ t.mmem = s.mmem ∧ t.parts = s.parts ∧ t.pages = s.pages ∧ t.mgmt = s.mgmt ∧ t.cur = s.cur ∧ t.agenda = s.agenda ∧
    (∀ a, t.mem.get a = s.mem.get a) ∧ (∀ d, d ≠ s.cur.e → t.elem? d = s.elem? d) ∧
    ∃ z, t.elem? s.cur.e = some z ∧ { z with firings := y.firings } = y ∧ z.firings.length = y.firings.length ∧
      ∀ (k : Nat) (g g' : Firing), y.firings[k]? = some g → z.firings[k]? = some g' →
        g'.no = g.no ∧ g'.epi = g.epi ∧ g'.assigned = g.assigned ∧ g'.owed = g.owed ∧ g'.slots.length = g.slots.length ∧
        (¬ (g.no = s.cur.no ∧ g.epi = s.cur.epi) → g' = g) ∧
        ∀ (j : Nat) (u u' : Slot), g.slots[j]? = some u → g'.slots[j]? = some u' →
          u'.issued = (u.issued || (decide (g.no = s.cur.no ∧ g.epi = s.cur.epi) && j == s.cur.slot))) ∧
  ∀ (s t : State) (i : Instr) (x : Elem) (cls cause : Nat) (addr detail : Dword), s.elem? s.cur.e = some x →
    Raises i s cls cause addr detail → exec i s = .next t →
    t.mem = s.mem ∧ t.parts = s.parts ∧ t.pages = s.pages ∧ (∀ d, d ≠ s.cur.e → t.elem? d = s.elem? d) ∧
    ∃ z f, t.elem? s.cur.e = some z ∧ { z with fault := x.fault, more := x.more, stopped := x.stopped } = x ∧ z.stopped = true ∧
      (f.cls = cls ∧ f.cause = cause ∧ f.addr = addr ∧ f.detail = detail ∧ f.col = x.col ∧
        f.row = x.row ∧ f.ctx = x.ctx ∧ f.blk = s.cur.epi ∧ f.slot = s.cur.slot ∧ f.nopos = false) ∧
      (x.fault = none → z.fault = some f ∧ z.more = x.more) ∧
      ∀ g, x.fault = some g → (z.fault = some g ∧ z.more = x.more ++ [f]) ∨ (z.fault = some f ∧ z.more = x.more ++ [g])

open Sys2Proof Sys2Proof.Machine Sys2Proof.Claims in
/-- Issuing writes no memory: in the step in which its slot issues, an instruction that makes no access changes no byte of memory, and one that
makes an access changes none where no slice holds a dirty line; stores happen as their accesses are performed (R255, R273). The checks of an
access read descriptors through the slice, where a line may take the place of a dirty one, which is then written back (R258, R261). CHCTL is
an exception: its skip writes the STATUS of an entry (R326). -/
def Obligations.IssuingWritesNoMemory : Prop :=
  ∀ (s t : State) (i : Instr), encode i ≠ [] → (∀ p k n x a, i ≠ .chctl p k n x a) →
    ((∀ c r, accOf c r i = none) ∨ (∀ p ∈ s.pages, ∀ l ∈ p.lines, l.st ≠ .dirty)) → exec i s = .next t →
    t.mem = s.mem ∧ t.mmem = s.mmem ∧ ∀ a, t.mem.get a = s.mem.get a

open Sys2Proof Sys2Proof.Machine Sys2Proof.Claims in
/-- BARM arms, BARR and BARX arrive at, and BARW waits for a barrier of its home, with the effects and the misuse causes of R307 and R308. A local
form acts on its own element's barrier and emits at once; a .far or .rel form is an access, which acts at the home as it is performed, behind its
release if it has one. A home outside the region is cause 1; BARW raises the chain-fault trap at a failed barrier, and with .acq marks the slice
first (R321, R322).
What the model chose or inferred in it: log 52, 71. -/
def Obligations.BarrierInstructions : Prop :=
  (∀ (s : State) (x : Elem) (r : Args) (p : Pm) (n : BitVec 7) (k : Scope) (a : Tgt),
    let k7 := n.toNat
    let b := x.bar k7
    let num := (el 64 r.l.data 0).toNat
    (gate s (.barm p n false a) = .go x r →
      (num = 0 ∨ 65535 < num ∨ num < b.arr.toNat → Raises (.barm p n false a) s 10 4 0 (misuse x false k7 0)) ∧
      (1 ≤ num → num ≤ 65535 → b.arr.toNat ≤ num →
        Emits (.barm p n false a) s (x.setBar k7 (armed b num)) 1 (numTok (armed b num).gen.toNat r.tag))) ∧
    ∀ j ∈ [(Instr.barr p n k false false a, 0), (Instr.barx p n k false false a, num)], gate s j.1 = .go x r →
      (∀ c, arrivalMisuse b j.2 c → Raises j.1 s 10 c 0 (misuse x false k7 0)) ∧
      (b.exp ≠ 0 → b.arr ≠ b.exp → j.2 < 2 ^ 40 → Emits j.1 s (x.setBar k7 (arrived b j.2)) 1 (numTok b.gen.toNat r.tag))) ∧
  (∀ (s : State) (x : Elem) (e n k home : Nat) (pb : Bool) (a : Access), s.elem? e = some x → ∀ op ∈ [AccOp.arm k home, .barrier pb k home], a.op = op →
    (s.homeOf e x a.sx home = none → accDo a e n s = .stop (.trap 10 1 (misuseNo x a.sx k home) 0) s) ∧
    ∀ h y, s.homeOf e x a.sx home = some h → let t := s.accRelease n (pageOf e) a
      t.elem? h = some y →
      let b := y.bar k
      let num := (el 64 a.r 0).toNat
      let x' := if pb then (el 64 (if a.sx then a.r else a.l) 0).toNat else 0
      (op = .arm k home →
        (num = 0 ∨ 65535 < num ∨ num < b.arr.toNat → accDo a e n s = .stop (.trap 10 4 (misuseNo x a.sx k home) 0) t) ∧
        (1 ≤ num → num ≤ 65535 → b.arr.toNat ≤ num →
          accDo a e n s = .ok (numTok (armed b num).gen.toNat none, 0) (t.setElem h (y.setBar k (armed b num))))) ∧
      (op = .barrier pb k home →
        (∀ c, arrivalMisuse b x' c → accDo a e n s = .stop (.trap 10 c (misuseNo x a.sx k home) 0) t) ∧
        (b.exp ≠ 0 → b.arr ≠ b.exp → x' < 2 ^ 40 →
          accDo a e n s = .ok (numTok b.gen.toNat none, 0) (t.setElem h (y.setBar k (arrived b x')))))) ∧
  ∀ (s : State) (x : Elem) (r : Args) (p : Pm) (n : BitVec 7) (k : Scope) (q far : Bool) (a : Tgt), gate s (.barw p n k q far a) = .go x r →
    let k7 := n.toNat
    let v := (el 32 r.l.data 0).toNat
    let arg := if far then r.r.data else r.l.data
    (s.homeOf s.cur.e x far v = none → Raises (.barw p n k q far a) s 10 1 0 (misuse x far k7 v)) ∧
    ∀ h b, s.homeOf s.cur.e x far v = some h → (s.elem? h).map (fun y => y.bar k7) = some b →
      (b.flt = true → Raises (.barw p n k q far a) s 11 0 0 0) ∧
      (b.flt = false → ¬ passed b.gen ((el 32 arg 0).setWidth 24) → exec (.barw p n k q far a) s = .next s) ∧
      (b.flt = false → passed b.gen ((el 32 arg 0).setWidth 24) →
        IssuesIn (.barw p n k q far a) s (if q then s.acquireAt (pageOf s.cur.e) k else s) x 1
          (toAll (.barw p n k q far a) (numTok b.gen.toNat r.tag)))

open Sys2Proof Sys2Proof.Machine Sys2Proof.Claims in
/-- SYNI, SYNA and SYNW act on the sync word at an offset of the scratchpad: causes 7 and 8; the fields as R310, R311 and R323 say; SYNW waits
until the generation has passed, and raises the chain-fault trap at a failed word.
What the model chose or inferred in it: log 71 (the tag that a result carries), 52. -/
def Obligations.SyncWordInstructions : Prop :=
  ∀ (s : State) (x : Elem) (r : Args) (p : Pm) (a : Tgt),
    let off := (el 32 r.l.data 0).toNat
    let w := x.sync off
    let n := (el 64 r.r.data 0).toNat
    (∀ i ∈ [Instr.syni p a, .synw p a, .syna p a], gate s i = .go x r →
      (off % 16 ≠ 0 → Raises i s 6 7 0 0) ∧ (off % 16 = 0 → x.scrBytes < off + 16 → Raises i s 6 8 0 0)) ∧
    (off % 16 = 0 → off + 16 ≤ x.scrBytes →
      (gate s (.syni p a) = .go x r → n < 2 ^ 40 → ∃ v, Emits (.syni p a) s (x.setSync off v) 1 (numTok (syncGen w) r.tag) ∧
        syncTarget v = n ∧ syncCount v = 0 ∧ syncGen v = syncGen w ∧ syncOvr v = false ∧ syncFlt v = false) ∧
      (gate s (.syna p a) = .go x r → n < 2 ^ 40 → ∃ v, Emits (.syna p a) s (x.setSync off v) 1 (numTok (syncGen v) r.tag) ∧
        SyncReported w n v) ∧
      (gate s (.synw p a) = .go x r →
        (syncFlt w = true → Raises (.synw p a) s 11 0 0 0) ∧
        (syncFlt w = false → ¬ passed (BitVec.ofNat 24 (syncGen w)) ((el 32 r.r.data 0).setWidth 24) → exec (.synw p a) s = .next s) ∧
        (syncFlt w = false → passed (BitVec.ofNat 24 (syncGen w)) ((el 32 r.r.data 0).setWidth 24) →
          ∃ y, Emits (.synw p a) s y 1 (numTok (syncGen w) r.tag) ∧ { y with cur := { y.cur with scratch := x.cur.scratch } } = x ∧
            (x.cur.scratch.wf = true → ∀ b, y.cur.scratch.get b = x.cur.scratch.get b))))

open Sys2Proof Sys2Proof.Machine Sys2Proof.Claims in
/-- CHSEQ emits an engine's sequence number; CHWT waits until it has passed, and raises the chain-fault trap with the failure's code once the engine has
stopped; CHCTL has the effect that a host write of the same command (pause, resume, skip, retry) has on a free engine's ENCMD, and emits its ENSTAT
(R320, R325, R326).
What the model chose or inferred in it: log 71. -/
def Obligations.ChainInstructions : Prop :=
  ∀ (s : State) (x : Elem) (r : Args) (p : Pm) (k : BitVec 2) (e : BitVec 6) (c : BitVec 2) (a : Tgt),
    (s.engineIn x.l.n k e = true →
      (gate s (.chseq p k e a) = .go x r → Emits (.chseq p k e a) s x 1 (numTok (s.seqOf x.l.n k e).toNat r.tag)) ∧
      (gate s (.chwt p k e a) = .go x r →
        ((s.seqOf x.l.n k e - el 32 r.l.data 0).toNat < 2 ^ 31 →
          Emits (.chwt p k e a) s x 1 (numTok (s.seqOf x.l.n k e).toNat r.tag)) ∧
        (2 ^ 31 ≤ (s.seqOf x.l.n k e - el 32 r.l.data 0).toNat →
          (∀ z, s.stopOf x.l.n k e = some z → Raises (.chwt p k e a) s 11 z 0 0) ∧
          (s.stopOf x.l.n k e = none → exec (.chwt p k e a) s = .next s)))) ∧
    ((s.part x.l.n).answers = true → (s.part x.l.n).hasEng (engineNo k e) = true → gate s (.chctl p k e c a) = .go x r →
      let g := engineNo k e
      ∃ t, exec ([.encmdPause x.l.n g, .encmdResume x.l.n g, .encmdSkip x.l.n g].getD c.toNat (.encmdRetry x.l.n g)) s = .next t ∧
        IssuesIn (.chctl p k e c a) s t ((t.elem? s.cur.e).getD x) 1 (toAll (.chctl p k e c a) (numTok ((t.part x.l.n).eng g).stat r.tag)))

open Sys2Proof Sys2Proof.Machine Sys2Proof.Claims in
/-- The instructions of variable latency of the other chapters issue one access each: ACCV, TAGR, TAGS, TFCH, TDSC, MLOOK; PGLD, PGST, PGNX,
PGRS; releasing and .far BARR and BARX, BARM.far; CHAPP, TDISP and LAUNCH; and they are not ready while the unit, the generator or the append
buffer that they need is taken (R235, R307, R320, R324, R327, R361, R364, R392).
What the model chose or inferred in it: log 15, 71, 74. -/
def Obligations.UnitInstructionsIssue : Prop :=
  ∀ (s : State) (y : Elem) (r : Args) (p : Pm) (t : BitVec 9) (m : Rm) (x : Bool) (n b : BitVec 2) (q : BitVec 3) (nb : BitVec 7)
    (k : Scope) (e : BitVec 6) (a : Tgt) (d : Dst), ∀ z ∈ unitTable s y r p t m x n b q nb k e a d,
      gate s z.1 = .go y r → (z.2.2.2 = false → exec z.1 s = .next s) ∧ (z.2.2.2 = true → IssuesAccess z.1 s y z.2.1 z.2.2.1)

open Sys2Proof Sys2Proof.Machine Sys2Proof.Claims in
/-- MMA, MMAS and MMAP: a product of two full fetch buffers, A by rows and B by columns, is added into a tile of the type that the formats give,
each FP32 element in two groups of eight rounded once, each INT32 element exactly modulo 2^32; the flags of every element are raised; the unit is
taken for the occupancy of R364, and the result comes 4 cycles after it (R94, R361, R364, R365). That a product of zero is +0 in a format without a
negative zero is the model's reading (log 78).
What else a product meets: two markers of one kind pass through as one, of two kinds they trap; a handle of the wrong role traps; an empty buffer
is the register trap with ADDR 0x100 + its number, and a pending one is waited for; formats that do not go together are the width trap; a tile
beyond the grant traps, and while R361 or the unit holds it back, it waits (R361, R365).
What the model chose or inferred in it: log 14 (a tile beyond the grant), 78, 71 (the tag that a result carries). -/
def Obligations.MatrixInstructions : Prop :=
  (∀ (s : State) (x : Elem) (r : Args) (p : Pm) (t : BitVec 9) (z : Bool) (a : Tgt), ∀ q ∈ productTable p t z a,
    let ha := (el 32 r.l.data 0).toNat
    let hb := (el 32 r.r.data 0).toNat
    let A := x.buf (ha % 4)
    let B := x.buf (hb % 4)
    let acc := if z then List.replicate 256 0 else (x.tileAt t.toNat).els
    let occ := mmaOcc q.2.2 (tagFmt A.tag.toNat)
    gate s q.1 = .go x r → t.toNat < x.accTiles → x.mxReady s.cur q.1 = true →
      isMarker r.l = false → isMarker r.r = false → ha.testBit 2 = false → hb.testBit 2 = true →
      A.st = .full → B.st = .full → (q.2.1 = true ∨ q.2.2 = true ∨ (A.scaled = false ∧ B.scaled = false)) →
      ∀ (ty : Bool) (fa fb : Fmt), mmaType q.2.1 q.2.2 (tagFmt A.tag.toNat) (tagFmt B.tag.toNat) = some ty →
        fmtOf (tagFmt A.tag.toNat) = some fa → fmtOf (tagFmt B.tag.toNat) = some fb →
        (z = false → (x.tileAt t.toNat).int ≠ ty → Raises q.1 s 9 0 0 0) ∧
        (z = true ∨ (x.tileAt t.toNat).int = ty → A.els.length = 256 → B.els.length = 256 → acc.length = 256 →
          ∃ els fl, els.length = 256 ∧
            Emits q.1 s (((x.setTile t.toNat ⟨ty, els⟩).mxTake occ [ha % 4, hb % 4, 4 + t.toNat]).flags (occ + 4) fl) (occ + 4)
              ⟨.data, 1, r.tag⟩ ∧
            (∀ i j, i < 16 → j < 16 → els[16 * i + j]? = some (if ty then productInt A B i j (acc.getD (16 * i + j) 0)
              else BitVec.ofNat 32 (productElem fa fb A B i j (acc.getD (16 * i + j) 0).toNat).1)) ∧
            ∀ k, fl.testBit k = true ↔ ty = false ∧
              ∃ i j, i < 16 ∧ j < 16 ∧ (productElem fa fb A B i j (acc.getD (16 * i + j) 0).toNat).2.testBit k = true)) ∧
  ∀ (s : State) (x : Elem) (r : Args) (p : Pm) (t : BitVec 9) (z : Bool) (a : Tgt), ∀ q ∈ productTable p t z a,
    let ha := (el 32 r.l.data 0).toNat
    let hb := (el 32 r.r.data 0).toNat
    let A := x.buf (ha % 4)
    let B := x.buf (hb % 4)
    (s.elem? s.cur.e = some x → x.icyc < x.mxFree → exec q.1 s = .next s) ∧
    (gate s q.1 = .go x r → (x.accTiles ≤ t.toNat → Raises q.1 s 1 6 0 0) ∧ (t.toNat < x.accTiles →
      (x.mxReady s.cur q.1 = false → exec q.1 s = .next s) ∧ (x.mxReady s.cur q.1 = true →
        (isMarker r.l = true ∨ isMarker r.r = true →
          (r.l.kind = r.r.kind → Emits q.1 s x 1 ⟨r.l.kind, r.l.data, r.tag⟩) ∧ (r.l.kind ≠ r.r.kind → Raises q.1 s 1 0 0 0)) ∧
        (isMarker r.l = false → isMarker r.r = false →
          (ha.testBit 2 = true ∨ hb.testBit 2 = false → Raises q.1 s 1 0 0 0) ∧
          (ha.testBit 2 = false → hb.testBit 2 = true →
            (A.st = .empty → Raises q.1 s 3 0 (BitVec.ofNat 64 (256 + ha % 4)) 0) ∧
            (A.st ≠ .empty → B.st = .empty → Raises q.1 s 3 0 (BitVec.ofNat 64 (256 + hb % 4)) 0) ∧
            (A.st ≠ .empty → B.st ≠ .empty → A.st = .pending ∨ B.st = .pending → exec q.1 s = .next s) ∧
            (A.st = .full → B.st = .full → mmaType q.2.1 q.2.2 (tagFmt A.tag.toNat) (tagFmt B.tag.toNat) = none →
              Raises q.1 s 9 0 0 0))))))

open Sys2Proof Sys2Proof.Machine Sys2Proof.Claims in
/-- ACZ clears a tile to zeros of a type, ACWR writes one row of it, ACRD reads one, to a target or towards a register; a row beyond 15 is bounds
cause 8; each takes the unit for a cycle. TREL releases a fetch buffer and emits whether it was full (R271, R361, R362, R366, R369).
What the model chose or inferred in it: log 71 (the tag that a result carries). -/
def Obligations.AccumulatorAccess : Prop :=
  ∀ (s : State) (x : Elem) (r : Args) (p : Pm) (t : BitVec 9) (y : Bool) (b : BitVec 2) (v : BitVec 9) (a : Tgt),
    let k := (el 32 r.l.data 0).toNat
    let T := x.tileAt t.toNat
    let take := fun (e : Elem) => e.mxTake 1 [4 + t.toNat]
    (t.toNat < x.accTiles →
      (gate s (.acz p t y a) = .go x r → x.mxReady s.cur (.acz p t y a) = true →
        Emits (.acz p t y a) s (take (x.setTile t.toNat ⟨y, List.replicate 256 0⟩)) 1 ⟨.data, 1, r.tag⟩) ∧
      (gate s (.acwr p t a) = .go x r → x.mxReady s.cur (.acwr p t a) = true →
        (15 < k → Raises (.acwr p t a) s 6 8 0 0) ∧
        (k ≤ 15 → T.els.length = 256 → ∃ els, els.length = 256 ∧
          Emits (.acwr p t a) s (take (x.setTile t.toNat ⟨T.int, els⟩)) 1 ⟨.data, 1, r.tag⟩ ∧
          ∀ i, i < 256 → els[i]? = some (if i / 16 = k then el 32 r.r.data (i % 16) else T.els.getD i 0))) ∧
      (gate s (.acrd p t (.tgt a)) = .go x r → x.mxReady s.cur (.acrd p t (.tgt a)) = true →
        (15 < k → Raises (.acrd p t (.tgt a)) s 6 8 0 0) ∧
        (k ≤ 15 → ∃ d, Emits (.acrd p t (.tgt a)) s (take x) 2 ⟨.data, d, r.tag⟩ ∧ Holds 16 32 d fun c => T.els.getD (16 * k + c) 0)) ∧
      (gate s (.acrd p t (.reg v)) = .go x r → x.mxReady s.cur (.acrd p t (.reg v)) = true → v.toNat < x.regs →
        (x.regAt v.toNat).st ≠ .pending → k ≤ 15 → ∃ d fs, Issues (.acrd p t (.reg v)) s
          { take (x.setReg v.toNat ⟨.pending, (x.regAt v.toNat).data⟩) with fills := fs } 2 [] ∧ fs = x.fills ++ [⟨v.toNat, d, x.icyc + 2⟩] ∧
          Holds 16 32 d fun c => T.els.getD (16 * k + c) 0)) ∧
    (gate s (.trel p b a) = .go x r → x.mxReady s.cur (.trel p b a) = true → (x.buf b.toNat).st ≠ .pending →
      exec (.trel p b a) s = .next ((s.freeBuf s.cur.e b.toNat).modElem s.cur.e fun e => e.issue s.cur 1
        (toAll (.trel p b a) (numTok (if (x.buf b.toNat).st = .full then 1 else 0) r.tag))))

open Sys2Proof Sys2Proof.Machine Sys2Proof.Claims in
/-- PGSV emits a generator's context; PGQ says whether a point is a member of its pattern, and an idle generator is bounds cause 12; both
wait for earlier instructions of the generator (R391, R392, R398, R399). SLHB walks the AND or the OR of two masks, SLHT a bit-tree whose empty leaf is
bounds cause 13 (R390, R400).
What the model chose or inferred in it: log 71 (the tag that a result carries). -/
def Obligations.PatternInstructions : Prop :=
  ∀ (s : State) (x : Elem) (r : Args) (p : Pm) (n : BitVec 2) (o : Bool) (a : Tgt),
    let v := x.gen n.toNat
    let cur := (el 32 r.t.data 0).toNat
    (∀ i ∈ [Instr.pgsv p n a, .pgq p n a], gate s i = .go x r → x.genFree s.cur n.toNat = false → exec i s = .next s) ∧
    (x.genFree s.cur n.toNat = true →
      (gate s (.pgsv p n a) = .go x r → ∃ d, Emits (.pgsv p n a) s x 1 ⟨.data, d, r.tag⟩ ∧ Holds 8 32 d fun j =>
        [BitVec.ofNat 32 ((if v.dir then 2 ^ 20 else 0) + (if v.gran then 2 ^ 19 else 0) + v.st.code * 2 ^ 16 + v.pidx.toNat), v.tid.setWidth 32,
          v.rf, v.cf, v.cmaj, v.cmin, v.emaj, v.yld].getD j 0) ∧
      (gate s (.pgq p n a) = .go x r →
        (v.st = .idle → Raises (.pgq p n a) s 6 12 0 0) ∧
        (v.st ≠ .idle → ∀ q, v.pat = some q → Emits (.pgq p n a) s x 1 ⟨.cond,
          if q.mem v.rf.toNat v.cf.toNat (el 32 r.l.data 0).toNat (el 32 r.l.data 1).toNat then 1 else 0, r.tag⟩))) ∧
    (gate s (.slhb p o a) = .go x r → ∃ d, Emits (.slhb p o a) s x 2 ⟨.data, d, r.tag⟩ ∧
      WalkHolds (let u := r.l.data.toNat % 2 ^ 256; let w := r.r.data.toNat % 2 ^ 256; if o then u ||| w else u &&& w) cur d) ∧
    (gate s (.slht p a) = .go x r →
      (∀ m, treeSet r.l.data.toNat = some m → ∃ d, Emits (.slht p a) s x 2 ⟨.data, d, r.tag⟩ ∧ WalkHolds m cur d) ∧
      (treeSet r.l.data.toNat = none → Raises (.slht p a) s 6 13 0 0))

open Sys2Proof Sys2Proof.Machine Sys2Proof.Claims in
/-- PHEND contributes its bit; CTXQ, RATEQ, NODEID and FCNT read what R208, R233, R344 and R346 list; SARM adds to a section's count, saturating, and
SWAIT waits until it is 0 (R230, R232, R234).
What the model chose or inferred in it: log 71 (the tag that a result carries). -/
def Obligations.ContextInstructions : Prop :=
  ∀ (s : State) (x : Elem) (r : Args) (p : Pm) (k : BitVec 2) (n : BitVec 6) (m : BitVec 4) (a : Tgt),
    (gate s (.phend p a) = .go x r → s.cur.epi = false →
      Emits (.phend p a) s { x with phend := some (r.l.data.getLsbD 0) } 1 ⟨.data, 1, r.tag⟩) ∧
    (gate s (.ctxq p k a) = .go x r → Emits (.ctxq p k a) s x 1 ⟨.data, lanesOf
      ([[x.ctx, x.set], [x.phases], [if x.pred then 1 else 0], [x.waves]].getD k.toNat []), r.tag⟩) ∧
    (∀ l i, gate s (.rateq p m a) = .go x r → s.launch? x.l = some l → l.islandOf x = some i → m.toNat ≤ 6 →
      Emits (.rateq p m a) s x 2 ⟨.data, lanesOf ([[i.p, i.q], [i.dp, i.dq], [l.hyper], [i.mv], [l.resolves],
        [(if l.pend then 1 else 0) + (if l.fMcap then 2 else 0) + (if l.fPcap then 4 else 0) + (if l.fDyad then 8 else 0) +
          (if l.fLim then 16 else 0) + (if l.fShort then 32 else 0)], [l.rateN, l.rateC]].getD m.toNat []), r.tag⟩) ∧
    (gate s (.nodeid p a) = .go x r → Emits (.nodeid p a) s x 1 ⟨.data, lanesOf
      [(nodeOf x s.cur.epi s.cur.slot).toNat, x.reg % 64 * 4096 + x.col % 64 * 64 + x.row % 64, x.ctx], r.tag⟩) ∧
    (gate s (.fcnt p k a) = .go x r → k.toNat ≤ 2 →
      Emits (.fcnt p k a) s x 1 (numTok64 ([x.started, x.done, x.icyc].getD k.toNat 0) r.tag)) ∧
    ∀ g, s.region? ⟨x.l, n.toNat⟩ = some g →
      (gate s (.sarm p n a) = .go x r → let v := Nat.min (g.tiles + (el 32 r.l.data 0).toNat) (2 ^ 32 - 1)
        IssuesIn (.sarm p n a) s (s.modRegion ⟨x.l, n.toNat⟩ fun h => { h with tiles := v }) x 2 (toAll (.sarm p n a) (numTok v r.tag))) ∧
      (gate s (.swait p n a) = .go x r → (g.tiles = 0 → Emits (.swait p n a) s x 1 (numTok g.admitted r.tag)) ∧
        (g.tiles ≠ 0 → exec (.swait p n a) s = .next s))

open Sys2Proof Sys2Proof.Machine Sys2Proof.Claims in
/-- TRAP raises classes 1 to 11 with lane 0 of L as DETAIL; BRK raises the breakpoint, and completes when the host has resumed it; CSRR and CSRW
access the registers of R345; EQRD and OBSR read meters and counters; HALTR makes the launch end (R98, R329, R334, R344, R345, R347, R431, R455).
What the model chose or inferred in it: log 71 (the tag that a result carries), 14, 34, 76. -/
def Obligations.SystemInstructions : Prop :=
  ∀ (s : State) (x : Elem) (r : Args) (p : Pm) (c : BitVec 4) (n : BitVec 8) (k m : BitVec 3) (d : Bool) (a : Tgt),
    (gate s (.trap p c a) = .go x r → 1 ≤ c.toNat → c.toNat ≤ 11 → Raises (.trap p c a) s c.toNat 0 0 ((el 32 r.l.data 0).setWidth 64)) ∧
    (gate s (.brk p n a) = .go x r →
      (x.brkPass = some (s.cur.no, s.cur.epi, s.cur.slot) → Emits (.brk p n a) s { x with brkPass := none } 1 ⟨.data, 1, r.tag⟩) ∧
      (x.brkPass ≠ some (s.cur.no, s.cur.epi, s.cur.slot) → Raises (.brk p n a) s 12 0 0 (n.setWidth 64))) ∧
    (gate s (.csrr p n a) = .go x r →
      (n = 0x00 → ∀ g, s.region? x.rref = some g → Emits (.csrr p n a) s x 1 (numTok g.epoch r.tag)) ∧
      (n = 0x01 → Emits (.csrr p n a) s x 1 (numTok (if x.replayUpTo.isSome then 1 else 0) r.tag)) ∧
      (n = 0x10 → Emits (.csrr p n a) s x 1 (numTok (x.cur.fpstat ||| dueFlags x.icyc x.cur.flagQ).toNat r.tag)) ∧
      (n = 0x11 → Emits (.csrr p n a) s x 1 (numTok x.elpart.toNat r.tag)) ∧
      (n ∉ [0x00, 0x01, 0x10, 0x11] → Raises (.csrr p n a) s 1 6 0 0)) ∧
    (gate s (.csrw p n a) = .go x r →
      (n = 0x10 → Emits (.csrw p n a) s { x with cur := { x.cur with
        fpstat := el 32 r.l.data 0 &&& 0x7F, flagQ := x.cur.flagQ.filter fun e => decide (x.icyc < e.1) } } 1 ⟨.data, 1, r.tag⟩) ∧
      (n ≠ 0x10 → Raises (.csrw p n a) s 1 6 0 0)) ∧
    (gate s (.eqrd p k a) = .go x r → k.toNat ≤ 4 → let P := s.part x.l.n
      Emits (.eqrd p k a) s x 1 (numTok64 ([P.equota.toNat, P.eqspent.toNat, P.eqdebt.toNat, P.eqtotal.toNat,
        ((s.launch? x.l).map (·.iter)).getD 0].getD k.toNat 0) r.tag)) ∧
    (gate s (.obsr p k d m a) = .go x r → k.toNat ≤ 4 → Emits (.obsr p k d m a) s x 1
      (if k = 2 then ⟨.data, lanesOf [x.seen.valid, x.seen.pinned], r.tag⟩
       else numTok64 (if k = 0 then (x.seen.stall.getD ((if d then 8 else 0) + m.toNat) 0).toNat
         else if k = 1 then x.seen.occ.toNat else if k = 3 then (s.page (pageOf s.cur.e)).energy.toNat
         else little (((s.part x.l.n).pldig.drop (8 * m.toNat)).take 8)) r.tag)) ∧
    (gate s (.haltr p a) = .go x r →
      IssuesIn (.haltr p a) s (s.modLaunch x.l fun l => { l with halting := true }) x 1 (toAll (.haltr p a) ⟨.data, 1, r.tag⟩))

open Sys2Proof Sys2Proof.Machine Sys2Proof.Claims in
/-- FIRING_START: an element that may start and for which R10, R13 and R111 hold starts one firing, with the oldest tokens of each port assigned, its number
and the interval counted; it changes no other element. Where it may not, nothing happens. FIRING_COMPLETE: a firing with nothing left to do leaves, and is
counted unless it is the epilogue (R10, R11, R160).
What the model chose or inferred in it: log 35, 70, 103. -/
def Obligations.FiringsStartAndComplete : Prop :=
  ∀ (s : State) (e : Nat) (x : Elem), s.elem? e = some x →
    (∀ c l, x.ctxNow = some c → s.launch? x.l = some l →
      (s.mayStart l x = false → exec (.firingStart e) s = .next s) ∧
      (s.mayStart l x = true → FiringDue s l e x c → ∃ t y f, exec (.firingStart e) s = .next t ∧ t.elem? e = some y ∧
        (∀ d, d ≠ e → t.elem? d = s.elem? d) ∧ y.started = x.started + 1 ∧ y.lastStart = some x.icyc ∧ y.firings = x.firings ++ [f] ∧
        f.no = x.started ∧ f.epi = false ∧ f.slots.length = max c.body.words.length c.body.len ∧ f.held = [] ∧
        (∀ p, p < 8 → f.assigned.getD p [] = if p ∈ x.armPorts then [] else (x.cur.inBuf.getD p []).take (c.desc.cin.getD p 0)) ∧
        (∀ p, p ∉ x.armPorts → y.cur.inBuf.getD p [] = (x.cur.inBuf.getD p []).drop (c.desc.cin.getD p 0)) ∧
        y.cur.regs = x.cur.regs ∧ y.cur.scratch = x.cur.scratch ∧ y.cur.fpstat = x.cur.fpstat)) ∧
    ∀ f no, x.firings.find? (fun g => g.no == no) = some f → Finished x f →
      exec (.firingComplete e no) s = .next (s.setElem e { x with
        firings := x.firings.filter fun g => !(g.no == f.no && g.epi == f.epi), done := if f.epi then x.done else x.done + 1 })

open Sys2Proof Sys2Proof.Machine Sys2Proof.Claims in
/-- JUNCTION_RELEASE: the oldest token of a junction goes onto its arcs once its producer's earlier writes on path EP have been performed, after a
release at its scope (R183). COUNTER_NODE_FORWARD passes one token, counts a data or null token, and inserts the markers of the levels it
completes (R186). CORNER_TURN takes a row and emits the transposed block with the sixteenth, and a marker closes a short block with zero rows (R188).
COINCIDENT_EDGE exchanges the state of the sidings of a stream's borders, each on the edges of the islands that it joins (R192, R193).
What the model chose or inferred in it: log 26, 29, 36, 99. -/
def Obligations.StreamEvents : Prop :=
  ∀ (s : State) (r : RegionRef) (k : Nat) (l : Launch) (g : Region) (q : Stream), s.launch? r.l = some l → s.region? r = some g →
    s.stream? r k = some q →
    (∀ c t upto rest e port x, q.junction = some c → q.junc = (t, upto) :: rest → q.prod = .elem e port → s.elem? e = some x →
      (q.wire.length < q.slots q.arcs → (∀ a ∈ x.acc, a.path = .ep → a.op.writes = true → upto ≤ a.id) → exec (.junctionRelease r k) s =
        .next ((s.releaseAt x.l.n (pageOf e) c).modStream r k fun q => { q with junc := rest, wire := q.wire ++ [t] })) ∧
      ((∃ a ∈ x.acc, a.path = .ep ∧ a.op.writes = true ∧ a.id < upto) → exec (.junctionRelease r k) s = .next s)) ∧
    (∀ c t upto rest, q.junction = some c → q.junc = (t, upto) :: rest → (∀ e port, q.prod ≠ .elem e port) → q.wire.length < q.slots q.arcs →
      exec (.junctionRelease r k) s = .next (s.modStream r k fun q => { q with junc := rest, wire := q.wire ++ [t] })) ∧
    (∀ n t q', q.count = some n → g.moves = true → l.endEdge q.cIsl = true → q.out = [] → q.pastTurn = some (t, q') →
      (t.kind = .data ∨ t.kind = .null → 0 < n.levels → n.levels ≤ 4 → n.cnt.length = 4 → ∃ m,
        exec (.counterNodeForward r k) s = .next (s.modStream r k fun _ => { q' with
          count := some m, out := t :: ((List.range n.levels).filter (levelDone n)).flatMap (markerOf n) }) ∧
        (∀ i, m.cnt.getD i 0 = if i < n.levels ∧ (∀ j, j < i → levelDone n j = true) then
          (if levelDone n i then 0 else n.cnt.getD i 0 + 1) else n.cnt.getD i 0) ∧ m.begun = true) ∧
      (t.kind = .row ∨ t.kind = .kend ∨ t.kind = .cond → exec (.counterNodeForward r k) s =
        .next (s.modStream r k fun _ => { q' with out := [t] }))) ∧
    (∀ t q', q.turn = true → g.moves = true → l.endEdge q.cIsl = true → q.turned = [] → q.pathHead = some (t, q') →
      (t.kind = .data ∨ t.kind = .null ∨ t.kind = .cond →
        (q.rows.length < 15 → exec (.cornerTurn r k) s = .next (s.modStream r k fun _ => { q' with rows := q.rows ++ [t] })) ∧
        (q.rows.length = 15 → ∃ out, turnedRows (q.rows ++ [t]) out ∧
          exec (.cornerTurn r k) s = .next (s.modStream r k fun _ => { q' with rows := [], turned := out }))) ∧
      (t.kind = .row ∨ t.kind = .kend →
        (q.rows = [] → exec (.cornerTurn r k) s = .next (s.modStream r k fun _ => { q' with turned := [t] })) ∧
        (q.rows ≠ [] → q.rows.length < 16 → ∃ out, turnedRows (q.rows ++ List.replicate (16 - q.rows.length) ⟨.data, 0, none⟩) out ∧
          exec (.cornerTurn r k) s = .next (s.modStream r k fun _ => { q' with rows := [], turned := out ++ [t] })))) ∧
    exec (.coincidentEdge r k) s = .next (s.modStream r k fun q =>
      { q with borders := q.borders.map fun b => exchanged (l.endEdge (some b.c)) (l.endEdge (some b.p)) b })

open Sys2Proof Sys2Proof.Machine Sys2Proof.Claims in
/-- BOUND_INPUT_FEED reads the next 64 bytes of its binding as a token; BOUND_OUTPUT_DRAIN writes a data token's 64 bytes and takes other kinds
unwritten; a failed check is the trap of the port (R226, R464). AGEN_IN_STEP delivers one token that it reads and the markers of the levels that it
completes; AGEN_OUT_STEP writes one, and a token beyond its last address is bounds cause 14 (R287 to R289). Each completes, with the bytes named,
where its token names the flat object, a translation of its address is at hand, and, for a generator, the slice serves the line (R242, R246, R261).
What the model chose or inferred in it: log 29, 75. -/
def Obligations.FeedersAndGenerators : Prop :=
  ∀ (s : State),
    (∀ (r : RegionRef) (k : Nat) (g : Region) (b : Bind) (l : Launch), s.region? r = some g → s.launch? r.l = some l →
      (let i := g.ins.getD k {}
        let tok := tokPlus b.tok (64 * i.given)
        let page := g.portPage false k
        let fed := fun (bs : List Byte) (i : RIn) =>
          { i with wait := .no, given := i.given + 1, q := [⟨.data, BitVec.ofNat 512 (little bs), none⟩] }
        l.chains = [] → i.bind = some b → s.inputsOpen r g = true → g.admits k = true → i.q = [] → i.wait.withholds = false →
        g.portFault = none → (b.count = 0 ∨ i.given < b.count) →
        (∀ o pas t, s.portPlan r.l.n page tok false = .ok (o, pas) t → exec (.boundInputFeed r k) s =
          .next (t.modRegion r fun h => { h with ins := modAt h.ins k (fed (pas.flatMap fun a => t.memRead r.l.n a.1 a.2)) })) ∧
        (∀ c t, s.portPlan r.l.n page tok false = .stop c t →
          exec (.boundInputFeed r k) s = .next (t.raisePort r (portFault t r.l.n page 0 k tok c))) ∧
        ∀ x, tokTid tok = 0 → tokOff tok + 64 ≤ 2 ^ 48 → tokOff tok % 128 ≤ 64 → Translates s r.l.n (.feed page) (tokOff tok) false x →
          ∃ t h, exec (.boundInputFeed r k) s = .next t ∧ t.mem = s.mem ∧ t.region? r = some h ∧
            h.ins[k]? = some (fed (s.memRead r.l.n (x.pa + (tokOff tok - x.iova)) 64) i)) ∧
      ∀ (m : Nat) (q : Stream) (v : Token) (rest : List Token), let o := g.outs.getD k {}
        let tok := tokPlus b.tok (64 * o.taken)
        let page := g.portPage true k
        let bytes := (List.range 64).map (el 8 v.data)
        o.bind = some b → g.outStream k = some (m, q) → q.out = v :: rest → g.moves = true → o.wait.withholds = false → g.portFault = none →
        o.suppress = 0 → (b.count = 0 ∨ o.taken < b.count) → v.kind ≠ .dusk →
        (v.kind ≠ .data → exec (.boundOutputDrain r k) s = .next (s.modRegion r (·.outGone k m false))) ∧
        (v.kind = .data →
          (∀ z pas t, s.portPlan r.l.n page tok true = .ok (z, pas) t → exec (.boundOutputDrain r k) s =
            .next ((((pas.foldl (fun (x : State × List Byte) a => (x.1.engineWrite r.l.n a.1 (x.2.take a.2), x.2.drop a.2))
              (t, bytes)).1).modRegion r (·.outGone k m false)).modRegion r fun h =>
                { h with outs := modAt h.outs k fun o => { o with wait := .no, taken := o.taken + 1 } })) ∧
          (∀ c t, s.portPlan r.l.n page tok true = .stop c t →
            exec (.boundOutputDrain r k) s = .next (t.raisePort r (portFault t r.l.n page 1 k tok c))) ∧
          ∀ x, tokTid tok = 0 → tokOff tok + 64 ≤ 2 ^ 48 → tokOff tok % 128 ≤ 64 → Translates s r.l.n (.feed page) (tokOff tok) true x →
            ∃ t h, exec (.boundOutputDrain r k) s = .next t ∧ t.region? r = some h ∧
              h.outs[k]? = some { o with wait := .no, taken := o.taken + 1, since := o.since + 1 } ∧
              let u := s.engineWrite r.l.n (x.pa + (tokOff tok - x.iova)) bytes
              t.mem = u.mem ∧ t.pages = u.pages)) ∧
    ∀ (e k : Nat) (x : Elem) (a : AgenCfg) (g : Agen), s.elem? e = some x → x.agen k = some (a, g) → s.agenRuns x k a g = true →
      let tok := a.tok g.cnt
      let next := a.step g.cnt
      let flat := fun (write : Bool) (d : BitVec 1024) (pa : Nat) => k < 4 ∧ k < x.cur.agens.length ∧ tokTid tok = 0 ∧
        tokOff tok + 64 ≤ 2 ^ 48 ∧ tokOff tok % 64 = 0 ∧
        ∃ y, Translates s x.l.n (.port e k) (tokOff tok) write y ∧ pa = y.pa + (tokOff tok - y.iova) ∧ Serves s x.l.n (pageOf e) (pa / 128) d
      (a.out = false → (x.cur.inBuf.getD a.k []).length < a.depth →
        (∀ v rest, g.q = v :: rest → exec (.agenInStep e k) s = .next (s.setElem e ((x.arrive a.k v).setAgen k { g with q := rest }))) ∧
        (g.q = [] → g.fin = false → (∀ b ∈ x.acc, b.op ≠ .fence) →
          (∀ v fl t, doLd e x.l.n (agenAccess k .ld tok 0 4) s = .ok (v, fl) t → exec (.agenInStep e k) s =
            .next ((t.modElem e fun y => (y.arrive a.k v).setAgen k
              ⟨next.1, next.2.2, next.2.1.flatMap (levelMark a.kinds), .no, none⟩).agenDone x a next.1)) ∧
          ∀ d pa, flat false d pa → a.k < x.cur.inBuf.length → ∃ t z, exec (.agenInStep e k) s = .next t ∧ t.mem = s.mem ∧
            t.elem? e = some z ∧ z.cur.inBuf.getD a.k [] = x.cur.inBuf.getD a.k [] ++
              [⟨.data, BitVec.ofNat 512 (little (lineBytes d (pa % 128) 64)), none⟩] ∧
            z.cur.agens[k]? = some ⟨next.1, next.2.2, next.2.1.flatMap (levelMark a.kinds), .no, none⟩)) ∧
      (∀ v rest, a.out = true → g.q = v :: rest →
        (v.kind ≠ .data → exec (.agenOutStep e k) s = .next (s.setElem e (x.setAgen k { g with q := rest }))) ∧
        (v.kind = .data → g.fin = true → exec (.agenOutStep e k) s = .next (s.agenStop e k tok (.bounds 14))) ∧
        (v.kind = .data → g.fin = false →
          (∀ o u z t, s.object x.l.n (.port e k) (tokTid tok) = .ok o u → doSt e x.l.n (agenAccess k .st tok v.data o.esz) u = .ok z t →
            exec (.agenOutStep e k) s = .next ((t.modElem e fun y => y.setAgen k ⟨next.1, next.2.2, rest, .no, none⟩).agenDone x a next.1)) ∧
          ∀ d pa, flat true d pa → ∃ t z l, exec (.agenOutStep e k) s = .next t ∧ t.mem = s.mem ∧ t.elem? e = some z ∧
            z.cur.agens[k]? = some ⟨next.1, next.2.2, rest, .no, none⟩ ∧
            (t.page (pageOf e)).line? (pa / 128) = some l ∧ l.st = .dirty ∧
            l.data = lineSet d (pa % 128) ((List.range 64).map (el 8 v.data))))

open Sys2Proof Sys2Proof.Machine Sys2Proof.Claims in
/-- PHASE_END: once every element with an actor has executed PHEND and has no firing in flight, epilogues run once, and then, when every generator
has written what it holds, every element takes the successor that the OR of the bits names, one phase later (R22, R232, R287). WAVEFRONT_ADMISSION
admits a wavefront where no phase ends; ELEMENT_SWITCH gives an element the new contexts once nothing of the old configuration can reach it (R24, R25,
R228).
What the model chose or inferred in it: log 22. -/
def Obligations.PhasesAndWavefronts : Prop :=
  ∀ (s : State) (r : RegionRef) (g : Region), s.region? r = some g →
    (g.moves = true → g.waving = false → (∃ q ∈ s.regionElems r, q.2.ctxNow ≠ none) →
      (∀ q ∈ s.regionElems r, (q.2.ctxNow = none ∨ (q.2.phend ≠ none ∧ q.2.firings = [])) ∧ q.2.stopped = false) →
      ((∀ q ∈ s.regionElems r, q.2.epiRun = true) ∨ (∀ q ∈ s.regionElems r, ∀ c, q.2.ctxNow = some c → c.epi = none) →
        ((∃ q ∈ s.regionElems r, q.2.agensDrained = false) → exec (.phaseEnd r) s = .next s) ∧
        ((∀ q ∈ s.regionElems r, q.2.agensDrained = true) →
          ∃ t, exec (.phaseEnd r) s = .next t ∧ ∀ e x, s.elem? e = some x → x.rref = r → ∃ y, t.elem? e = some y ∧
            y.pred = decide (∃ q ∈ s.regionElems r, q.2.phend = some true) ∧
            (∀ c, (x.ctxNow = some c ∨ (x.ctxNow = none ∧ (s.regionElems r).findSome? (fun q => q.2.ctxNow) = some c)) →
              y.ctx = if y.pred then c.desc.nextT else c.desc.nextF) ∧
            y.phend = none ∧ y.epiRun = false ∧ y.phases = (x.phases + 1) % 2 ^ 32 ∧ y.cur.regs = x.cur.regs ∧ y.cur.bars = x.cur.bars)) ∧
      ((∃ q ∈ s.regionElems r, q.2.epiRun = false) → (∃ q ∈ s.regionElems r, ∃ c, q.2.ctxNow = some c ∧ c.epi ≠ none) →
        exec (.phaseEnd r) s = .next (s.modRegionElems r Elem.startEpilogue))) ∧
    (∀ w, g.wave = some w → w.admitted = false → g.st = .running → (∀ q ∈ s.regionElems r, q.2.ending = false) →
      ∃ t h, exec (.wavefrontAdmission r) s = .next t ∧ t.mem = s.mem ∧ t.region? r = some h ∧ h.st = .running ∧
        h.wave = some { w with admitted := true }) ∧
    ∀ e x l w, s.elem? e = some x → x.rref = r → s.launch? r.l = some l → g.wave = some w → w.admitted = true → x.switched = false →
      (s.oldDone g e = false ∨ x.firings ≠ [] ∨ x.acc ≠ [] ∨ x.oldWork = true → exec (.elementSwitch e) s = .next s) ∧
      (s.oldDone g e = true → (∃ d y, d ≠ e ∧ s.elem? d = some y ∧ y.rref = r ∧ y.switched = false) → ∃ t y, exec (.elementSwitch e) s = .next t ∧ t.elem? e = some y ∧ y.switched = true ∧ y.waves = x.waves + 1 ∧ y.phend = none ∧
        y.cur.ctxs = x.shadow.foldl (fun l q => setAt l q.1 q.2) x.cur.ctxs ∧ y.cur.regs = x.cur.regs)

open Sys2Proof Sys2Proof.Machine Sys2Proof.Claims in
/-- DUSK_MARKER_CUT: an element that meets the conditions of R338 puts a marker into every stream that it feeds, counts the cut, takes the markers that
it met from its inputs, and saves its live registers, scratchpad, tiles, barriers, generators, firing counts and the tokens before the markers. ROLLBACK,
once every access and every generator's write has been performed, restores each element from its share of the last complete cut, applies the reports
that came after it again, those to one barrier or sync word as one sum, discards what the region had in flight, and rewinds its inputs (R309, R336,
R338, R340, R345).
What the model chose or inferred in it: log 30, 31, 81, 96, 106. -/
def Obligations.CutsAndRollbacks : Prop :=
  ∀ (s : State),
    (∀ e x g l, s.elem? e = some x → s.region? x.rref = some g → s.launch? x.l = some l → g.save ≠ 0 →
      s.runs x = true → x.epoch = g.epoch → g.waving = false → x.ending = false → x.firings = [] →
      (∀ c, x.ctxNow = some c → x.livePending c = false → g.markPorts e c ≠ [] → (∀ p ∈ g.markPorts e c, x.marked c p = true) →
        (∀ p, p < 8 → c.desc.cout.getD p 0 ≠ 0 → ∀ q ∈ l.fromElem e p, s.hasRoom q.2.2 = true) →
        ∃ u y, exec (.duskMarkerCut e) s = .next u ∧ u.elem? e = some y ∧ y.epoch = x.epoch + 1 ∧ y.started = x.started ∧
          y.cur.regs = x.cur.regs ∧ y.cur.scratch = x.cur.scratch ∧
          (∀ p ∈ g.markPorts e c, y.cur.inBuf.getD p [] = dropDusk (x.cur.inBuf.getD p [])) ∧
          (∀ p, p < 8 → c.desc.cout.getD p 0 ≠ 0 → ∀ q ∈ l.fromElem e p, ∃ h z, u.region? q.1 = some h ∧ h.streams[q.2.1]? = some z ∧
            (if q.2.2.junction.isSome then z.junc = q.2.2.junc ++ [(⟨.dusk, 0, none⟩, 0)] ∧ z.wire = q.2.2.wire
             else z.wire = q.2.2.wire ++ [⟨.dusk, 0, none⟩] ∧ z.junc = q.2.2.junc)) ∧
          ∃ h k v, u.region? x.rref = some h ∧ k ∈ h.cuts ∧ k.epoch = x.epoch + 1 ∧ v ∈ k.elems ∧ v.e = e ∧ v.started = x.started ∧
            v.done = x.done ∧ v.scratch = x.cur.scratch ∧ v.tiles = x.cur.tiles ∧ v.bars = x.cur.bars ∧ v.gens = x.cur.gens ∧
            v.agens = x.cur.agens ∧ v.filts = x.filts ∧ v.merges = x.merges ∧
            (∀ n w, (n, w) ∈ v.regs ↔ x.cur.regs[n]? = some w ∧ c.desc.live.toNat.testBit n = true) ∧
            ∀ p, v.inBuf.getD p [] = if p ∈ g.markPorts e c then (x.cur.inBuf.getD p []).takeWhile fun t => t.kind != .dusk else x.cur.inBuf.getD p []) ∧
      (x.ctxNow = none → (∃ i ∈ g.ins, x.epoch < i.nmark) → ∃ u y, exec (.duskMarkerCut e) s = .next u ∧ u.elem? e = some y ∧
        y.epoch = x.epoch + 1 ∧ y.cur = x.cur)) ∧
    ∀ r g zero, s.region? r = some g → g.rolling = some zero →
      ((∃ q ∈ s.regionElems r, q.2.fills ≠ [] ∨ q.2.stepDue g = true ∨ ∃ a ∈ q.2.acc, s.blocksRoll g q.1 q.2 a = true) → exec (.rollback r) s = .next s) ∧
      ((∀ q ∈ s.regionElems r, (∀ a ∈ q.2.acc, s.blocksRoll g q.1 q.2 a = false) ∧ q.2.fills = [] ∧ q.2.stepDue g = false) →
        ∃ t h, exec (.rollback r) s = .next t ∧ t.region? r = some h ∧ h.rolling = none ∧ h.epoch = g.epoch ∧
          (∀ (k : Nat) (q z : Stream), g.streams[k]? = some q → h.streams[k]? = some z →
            (q.isLink = true → z = q) ∧ (q.isLink = false → z.junc = [] ∧ z.wire = [] ∧ z.rows = [] ∧ z.turned = [] ∧ z.out = [])) ∧
          h.ins = g.ins.map (fun i =>
            { i with replay := i.log, since := i.since0, mark := false, want := false, nmark := g.epoch, marks := [], wait := .no }) ∧
          h.outs = g.outs.map (fun o =>
            { o with suppress := o.since + o.suppress, since := 0, nmark := g.epoch, marks := [], wait := .no }) ∧
          ∀ c v x, g.cuts.find? (fun c => c.epoch == g.epoch) = some c → v ∈ c.elems →
          (∀ w ∈ c.elems, w.e = v.e → w = v) → c.elems.Nodup → s.elem? v.e = some x → x.rref = r →
          let later := x.reports.drop v.nrep
          ∃ y, t.elem? v.e = some y ∧ y.firings = [] ∧ (∀ a ∈ y.acc, ∃ k, a.op = .pgrs k) ∧ ((∀ n ∈ v.gens, n.st = .idle) → y.acc = []) ∧
            y.fault = none ∧ y.more = [] ∧ y.stopped = false ∧ y.started = v.started ∧
            y.epoch = g.epoch ∧ y.replayUpTo = some (max (x.replayUpTo.getD 0) x.started) ∧
            ((∀ q ∈ later, q.sync = false) → y.cur.scratch = v.scratch) ∧ ((∀ q ∈ later, q.sync = true) → y.cur.bars = v.bars) ∧
            (∀ k, k < v.bars.length →
              y.bar k = if reportsTo later false k = [] then v.bars.getD k {} else barReported (v.bars.getD k {}) (reportBytes later false k)) ∧
            (v.scratch.wf = true → (∀ q ∈ later, q.sync = true → q.at_ % 16 = 0) → ∀ off, off % 16 = 0 →
              (reportsTo later true off = [] → y.sync off = v.scratch.readN off 16) ∧
              (reportsTo later true off ≠ [] → SyncReported (v.scratch.readN off 16) (reportBytes later true off) (y.sync off))) ∧
            y.cur.tiles = v.tiles ∧ y.cur.inBuf = v.inBuf ∧ y.cur.fpstat = x.cur.fpstat ∧
            ∀ (k : Nat) (q : Reg), x.cur.regs[k]? = some q → (∀ w, look k v.regs = some w → y.cur.regs[k]? = some w) ∧
              (look k v.regs = none → q.st ≠ .pending → y.cur.regs[k]? = some ⟨q.st, if zero then 0 else q.data⟩))

open Sys2Proof Sys2Proof.Machine Sys2Proof.Claims in
/-- TRAP_ACTION: of the traps of a running region the first in the order of R330 is acted on, once the record before it is written. A breakpoint
freezes the region; another trap of a replayable region with a save area holds it, to be rolled back; any other region stops, and once nothing that
it issued can still be performed the launch is aborted, as it is at a bank's second machine check (R329, R330, R332, R336). MACHINE_CHECK is the trap of class 14 of the element, or of every region
on the page of the slice, which halts (R335).
What the model chose or inferred in it: log 47, 81. -/
def Obligations.TrapsActedOn : Prop :=
  ∀ (s : State),
    (∀ r g q, s.region? r = some g → firstFault (s.faultsOf r g) = some q → g.st = .running →
      (g.waiting ≠ [] ∨ g.opWaiting ≠ [] → exec (.trapAction r) s = .next s) ∧
      (g.waiting = [] → g.opWaiting = [] →
        (q.2.cls = 12 → (∀ f ∈ s.faultsOf r g, f.2.cls ≠ 14) → ∃ t h, exec (.trapAction r) s = .next t ∧ t.region? r = some h ∧ h.st = .frozen) ∧
        (q.2.cls ≠ 12 → q.2.cls ≠ 13 → (∀ f ∈ s.faultsOf r g, f.2.cls ≠ 14) → g.replayable = true → g.save ≠ 0 →
          ∃ t h, exec (.trapAction r) s = .next t ∧ t.region? r = some h ∧ h.st = .held ∧ h.rolling = some (decide (g.rolling = some true))) ∧
        (q.2.cls ≠ 12 → q.2.cls ≠ 13 → g.replayable = false →
          (s.settled r g = false → exec (.trapAction r) s = .next (s.modRegion r fun h => { h with st := .held })) ∧
          (s.settled r g = true → exec (.trapAction r) s =
            .next (((s.recordFault r g actAborted q).suppress r g ((s.faultsOf r g).erase q)).abort r))))) ∧
    (∀ r g q, s.region? r = some g → firstFault (s.faultsOf r g) = some q → g.st = .running → g.waiting = [] → g.opWaiting = [] →
      repeats g.banks (checksOf (q :: (s.faultsOf r g).erase q)) = true → s.settled r g = true → exec (.trapAction r) s =
        .next (((s.recordFault r g actAborted q).suppress r g ((s.faultsOf r g).erase q)).abort r)) ∧
    (∀ e x bank syn addr, s.elem? e = some x → x.fault = none → ∃ t y f, exec (.machineCheck (.elem e) bank syn addr) s = .next t ∧
      t.elem? e = some y ∧ y.stopped = true ∧ y.fault = some f ∧ f.cls = 14 ∧ f.nopos = true ∧
      f.mc = BitVec.ofNat 8 bank ++ BitVec.ofNat 16 syn ++ BitVec.ofNat 40 addr) ∧
    ∀ page bank syn addr, page < s.pages.length → ∃ t, exec (.machineCheck (.slice page) bank syn addr) s = .next t ∧ (t.page page).halted = true ∧
      ∀ r g l, s.region? r = some g → s.launch? r.l = some l → l.ref = r.l → r.l.n < s.parts.length → page ∈ g.pages → g.portFault = none →
        ∃ h f, t.region? r = some h ∧ h.portFault = some f ∧ f.cls = 14 ∧ f.nopos = true

open Sys2Proof Sys2Proof.Machine Sys2Proof.Claims in
/-- The host's commands to a stopped region, pre-emption and resumption: resume and end (R334); a pre-emption asks a running region to stop at its
boundaries, or, while a wavefront is on its way, after it, waits in a held one, and swaps the shadow sets of one that has emptied (R227, R229, R342,
R343); a replayable region that does not empty in time goes back to its cut (R342); a pre-empted or drained one runs again (R203, R332, R436); a page
request that has waited too long, unanswered, drains or flags the regions that it holds (R252).
What the model chose or inferred in it: log 80, 81. -/
def Obligations.RegionsStopAndResume : Prop :=
  ∀ (s : State) (r : RegionRef) (g : Region), s.region? r = some g →
    let cmd := exec (.fccmdResume r.l.n r.l.q r.l.seq r.k) s
    (g.st = .held → s.faultsOf r g ≠ [] → cmd = .next s) ∧
    ((g.st = .held ∧ s.faultsOf r g = []) ∨ g.st = .frozen →
      (g.waiting ≠ [] ∨ g.opWaiting ≠ [] ∨ g.rolling ≠ none → cmd = .next (s.modRegion r fun h => { h with resume := true })) ∧
      (g.waiting = [] → g.opWaiting = [] → g.rolling = none → ∃ t h, cmd = .next t ∧ t.region? r = some h ∧ h.resume = false ∧
        (g.pre = false ∨ g.waving = true → h.st = .running) ∧ (g.pre = true → g.waving = false → h.st = .preempting ∧ h.preemptAge = 0) ∧
        (g.st = .held → ∀ p ∈ g.pages, p < s.pages.length → (t.page p).halted = false) ∧
        (g.st = .frozen → ∀ e x f, s.elem? e = some x → x.rref = r → x.fault = some f → f.cls = 12 → ∃ y, t.elem? e = some y ∧
          y.fault = none ∧ y.stopped = false ∧ y.brkPass = some (f.no, f.blk, f.slot)))) ∧
    (g.st = .held ∨ g.st = .frozen →
      (s.settled r g = true → exec (.fccmdEnd r.l.n r.l.q r.l.seq r.k) s = .next (s.abort r)) ∧
      (s.settled r g = false → exec (.fccmdEnd r.l.n r.l.q r.l.seq r.k) s = .next (s.modRegion r fun h => { h with ending := true })) ∧
      exec (.preempt r) s = .next (s.modRegion r fun h => { h with pre := true })) ∧
    (g.st = .running → ∃ t h, exec (.preempt r) s = .next t ∧ t.region? r = some h ∧
      (g.waving = false → h.st = .preempting ∧ h.preemptAge = 0) ∧ (g.waving = true → h.st = .running ∧ h.pre = true)) ∧
    (g.st = .preempting →
      (s.emptied r g = true → g.portFault = none → exec (.preempt r) s = .next (s.swapOut r g)) ∧
      (s.emptied r g = false → exec (.preempt r) s = .next s) ∧
      (2 ^ 24 ≤ g.preemptAge → g.replayable = true → g.save ≠ 0 → ∃ t h, exec (.preemptionTimeout r) s = .next t ∧ t.region? r = some h ∧
        h.st = .preempted ∧ h.rolling = some false ∧ h.out = false)) ∧
    (g.st = .preempted →
      (g.rolling ≠ none ∨ g.waiting ≠ [] ∨ g.opWaiting ≠ [] ∨ g.quotaHeld = true → exec (.resumeRegion r) s = .next s) ∧
      (g.rolling = none → g.waiting = [] → g.opWaiting = [] → g.quotaHeld = false →
        ∃ t h, exec (.resumeRegion r) s = .next t ∧ t.region? r = some h ∧ h.st = .running ∧ h.quotaHeld = false ∧
        ∀ e x, s.elem? e = some x → x.rref = r → ∃ y, t.elem? e = some y ∧ y.set = (if g.out then 1 - x.set else x.set))) ∧
    (∀ page, g.waitPage = some page → g.st = .swapped → g.rolling = none → g.portFault = none →
      ((s.part r.l.n).pageOpen page = true → exec (.drainResume r) s = .next s) ∧
      ((s.part r.l.n).pageOpen page = false → g.pre = false → ∃ t h, exec (.drainResume r) s = .next t ∧ t.region? r = some h ∧
        h.st = .running ∧ h.waitPage = none)) ∧
    ∀ iova lim q l, s.launch? r.l = some l → (s.part r.l.n).waitLimit = some lim →
      (s.part r.l.n).pageReqs.find? (fun q => q.page == iova / 4096) = some q →
      (q.answered = true ∨ q.age < lim → exec (.faultWaitExpiry r.l.n iova) s = .next s) ∧
      (q.answered = false → lim ≤ q.age → r.l.n < s.parts.length → g.moves = true → s.attached r g (iova / 4096) = true →
        (s.part r.l.n).launches = [l] → l.regions = [g] → l.ref = r.l →
        (g.replayable = true → g.save ≠ 0 → ∃ t h, exec (.faultWaitExpiry r.l.n iova) s = .next t ∧ t.region? r = some h ∧ h.st = .swapped ∧
          h.rolling = some false ∧ h.waitPage = some (iova / 4096)) ∧
        (g.replayable = false ∨ g.save = 0 → ∃ t, exec (.faultWaitExpiry r.l.n iova) s = .next t ∧ (t.part r.l.n).fwx = true))

open Sys2Proof Sys2Proof.Machine Sys2Proof.Claims in
/-- The launch chain: LCTAIL appends, or sets BACK where it would lower the tail; LCBASE names the next entry and lets the launch unit resume; a page
that does not answer ignores both (R424, R425); an entry is taken from the append buffer first, then from the chain, whose head and address advance; an address that is misaligned or cannot be read
sets CFLT; the address of the entry behind the last one taken is read only once a later entry has been appended (R221, R222, R235).
What the model chose or inferred in it: log 53, 68. -/
def Obligations.LaunchChainTaken : Prop :=
  ∀ (s : State) (n : Nat),
    ((s.part n).answers = false → ∀ v, exec (.lctailWrite n v) s = .next s ∧ exec (.lcbaseWrite n v) s = .next s) ∧
    ((s.part n).answers = true → ∀ v : Word, ((v - (s.part n).lctail).toNat < 2 ^ 31 →
        let later := 1 ≤ (v - (s.part n).lchead).toNat ∧ (v - (s.part n).lchead).toNat < 2 ^ 31
        let u := s.modPart n fun p => { p with lctail := v }
        ((s.part n).lcDue = false ∨ ¬ later → exec (.lctailWrite n v.toNat) s = .next u) ∧
        ((s.part n).lcDue = true → later →
          (∀ d, s.ioDword n ((s.part n).lcbase.toNat + 8) = some d → exec (.lctailWrite n v.toNat) s =
            .next (u.modPart n fun p => { p with lcbase := BitVec.ofNat 64 d, lcDue := false })) ∧
          (s.ioDword n ((s.part n).lcbase.toNat + 8) = none → exec (.lctailWrite n v.toNat) s =
            .next (u.modPart n fun p => { p with lcCflt := true, lcDue := false })))) ∧
      (2 ^ 31 ≤ (v - (s.part n).lctail).toNat → exec (.lctailWrite n v.toNat) s = .next (s.modPart n fun p => { p with lcBack := true }))) ∧
    ((s.part n).answers = true → ∀ v : Dword, exec (.lcbaseWrite n v.toNat) s =
      .next (s.modPart n fun p => { p with lcbase := v, lcCflt := false, lcDue := false })) ∧
    ((s.part n).enable = true → (s.part n).queues.length = 8 → (s.part n).qseq.length = 8 →
      (∀ dw q rest, (s.part n).append = (dw, q) :: rest → q < 8 → ∃ t, exec (.takeLaunchEntry n) s = .next t ∧
        (t.part n).append = rest ∧ (t.part n).lchead = (s.part n).lchead ∧ Enqueued (s.part n) dw q 0 true (t.part n)) ∧
      ((s.part n).append = [] → (s.part n).lcCflt = false → 1 ≤ ((s.part n).lctail - (s.part n).lchead).toNat →
        ((s.part n).lctail - (s.part n).lchead).toNat < 2 ^ 31 →
        let a := (s.part n).lcbase.toNat
        (a % 64 ≠ 0 ∨ s.ioDwords n a 8 = none →
          exec (.takeLaunchEntry n) s = .next (s.modPart n fun p => { p with lcCflt := true })) ∧
        ∀ dw, a % 64 = 0 → s.ioDwords n a 8 = some dw → ∃ t, exec (.takeLaunchEntry n) s = .next t ∧
          (t.part n).lchead = (s.part n).lchead + 1 ∧ Enqueued (s.part n) dw (queueOf dw) a false (t.part n) ∧
          let left := ((s.part n).lctail - ((s.part n).lchead + 1)).toNat
          (left = 0 ∨ 2 ^ 31 ≤ left → (t.part n).lcbase = (s.part n).lcbase ∧ (t.part n).lcDue = true) ∧
          (1 ≤ left → left < 2 ^ 31 → waitsNamed (s.part n) dw → (t.part n).lcDue = false ∧
            (∀ d, s.ioDword n (a + 8) = some d → (t.part n).lcbase = BitVec.ofNat 64 d ∧ (t.part n).lcCflt = false) ∧
            (s.ioDword n (a + 8) = none → (t.part n).lcCflt = true))))

open Sys2Proof Sys2Proof.Machine Sys2Proof.Claims in
/-- START_ENTRY serves the queue that R224 names. An entry of another kind, a raw one from the device, or one whose target does not run is refused with its code of
R223; a reconfigure entry loads the shadow contexts of its region, of at most 448 bytes an element and of none that is out of use; an entry that the power of the part refuses, and then one whose image cannot be read, that the admission or a check refuses, completes with its record; one that passes every stage runs, and one
that finds no pages now waits with its image, and is tried again by PLACEMENT_RETRY (R26, R66, R216 to R218, R224, R225, R228).
What the model chose or inferred in it: log 50, 69, 102, 104, 105, 120. -/
def Obligations.EntriesStart : Prop :=
  ∀ (s : State) (n q : Nat) (x : QEntry), (s.part n).enable = true → (s.part n).queues.length = 8 → (s.part n).qseq.length = 8 →
    (Served s n q x →
      let u := servedState s n q
      let out := fun (v : State) (load stage : Nat) => ∃ t, exec (.startEntry n) s = .next t ∧ Refused v t n q x load stage
      (3 ≤ x.kind → out u 0 (0x50 * 2 ^ 56)) ∧
      (x.kind = 2 → x.fromDev = true → out u 0 (0x51 * 2 ^ 56)) ∧
      ((x.kind = 1 ∨ (x.kind = 2 ∧ x.fromDev = false)) → u.region? ⟨x.target n, x.region⟩ = none → out u 0 (0x52 * 2 ^ 56)) ∧
      (∀ l g, (x.kind = 1 ∨ (x.kind = 2 ∧ x.fromDev = false)) → u.launch? (x.target n) = some l → u.region? ⟨x.target n, x.region⟩ = some g →
        (u.readImage n (x.d 0) = none → out u (0x10 * 2 ^ 56) 0) ∧
        ∀ ds, u.readImage n (x.d 0) = some ds →
          (∀ e, imageOf (x.kind == 2) ds = .error e → out u e.word 0) ∧
          ∀ m, imageOf (x.kind == 2) ds = .ok m →
            (∀ e, validate (u.grants n l.pword l.regions.length) (x.kind == 2) m = .error e → out u e.word 0) ∧
            ∀ vs, validate (u.grants n l.pword l.regions.length) (x.kind == 2) m = .ok vs →
              let recs := contextBytes m g (if x.region < vs.length then x.region else 0)
              ((∃ k ∈ recs, 448 < k) → out u 0 (stageRec 0x53 x.region 0)) ∧
              let bad := u.outOfUse g (elemRecords m g (if x.region < vs.length then x.region else 0))
              ((∀ k ∈ recs, k ≤ 448) → bad = true → out u 0 (stageRec 0x30 x.region 0)) ∧
              ((∀ k ∈ recs, k ≤ 448) → bad = false → ∃ t h, exec (.startEntry n) s = .next t ∧ t.region? ⟨x.target n, x.region⟩ = some h ∧
                h.wave = some ⟨queueOf x.dw, x.place, false⟩ ∧ (t.part n).queues.getD q [] = ((u.part n).queues.getD q []).tail ∧
                ∀ e y, t.elem? e = some y → y.rref = ⟨x.target n, x.region⟩ → y.switched = false)) ∧
      (x.kind = 0 → (∀ r, u.powerRefusal n q = some r → out u 0 r) ∧ (u.powerRefusal n q = none →
        (u.readHeader n (x.d 0) = none → out u (0x10 * 2 ^ 56) 0) ∧
        ∀ hs, u.readHeader n (x.d 0) = some hs →
          (∀ r, u.headRefusal n (headerOf hs) = some r → out u 0 r) ∧
          (u.headRefusal n (headerOf hs) = none →
            let v := u.count n q
            (v.readImage n (x.d 0) = none → out v (0x10 * 2 ^ 56) 0) ∧
            ∀ ds, v.readImage n (x.d 0) = some ds → (∀ e, imageOf false ds = .error e → out v e.word 0) ∧
            ∀ m, imageOf false ds = .ok m →
              (∀ e, validate (v.grants n m.head.pword m.head.nreg) false m = .error e → out v e.word 0) ∧
              ∀ vs, validate (v.grants n m.head.pword m.head.nreg) false m = .ok vs →
                let err := m.graphErr ⟨n, q, x.seq⟩ vs (v.bindings n (x.d 2))
                (∀ r, err = some r → out v 0 r) ∧
                (err = none → ∃ t, exec (.startEntry n) s = .next t ∧ Tried v t n q x ds m vs))))) ∧
    ∀ ds m vs t, q < 8 → ((s.part n).queues.getD q []).head? = some x → x.img = some ds → imageOf false ds = .ok m →
      validate (s.grants n m.head.pword m.head.nreg) false m = .ok vs → t = s.tryLaunch n q x ds m vs →
      (∀ v ∈ [s, t], ∀ r, r ≠ q → ∀ y, ((v.part n).queues.getD r []).head? = some y → y.img = none) →
      exec (.placementRetry n) s = .next t ∧ Tried s t n q x ds m vs

open Sys2Proof Sys2Proof.Machine Sys2Proof.Claims in
/-- LAUNCH_COMPLETE: a launch that has fallen quiet, or that HALTR has stopped, completes with zeros in LOAD and STAGE, its queue's QSEQ
advances, vector 0 is sent, and its elements are no launch's; one that has not goes on (R104, R225, R264, R347).
What the model chose or inferred in it: log 34. -/
def Obligations.LaunchesComplete : Prop :=
  ∀ (s : State) (l : LaunchRef) (x : Launch), s.launch? l = some x → x.ref = l → l.n < s.parts.length →
    (s.quietLaunch x = false → x.halting = false → exec (.launchComplete l) s = .next s) ∧
    (s.quietLaunch x = true ∨ (x.halting = true ∧ s.halted x = true ∧ ∀ g ∈ x.regions, g.wave = none) → l.q < (s.part l.n).qseq.length →
      ∃ t, exec (.launchComplete l) s = .next t ∧ t.launch? l = none ∧ (∀ q ∈ t.elems, q.2.l ≠ l) ∧
        (t.part l.n).qseq.getD l.q 0 = (s.part l.n).qseq.getD l.q 0 + 1 ∧
        (t.part l.n).msi.getD 0 0 = (if (s.part l.n).msi = [] then 0 else (s.part l.n).msi.getD 0 0 + 1) ∧
        (x.fromDev = true → t.mem = (s.dropLaunch x).mem) ∧
        (x.fromDev = false → t.mem = (((s.dropLaunch x).ioPut l.n (x.entry + 48) 0).ioPut l.n (x.entry + 56) 0).mem))

open Sys2Proof Sys2Proof.Machine Sys2Proof.Claims in
/-- An engine's chain: ENTAIL, ENBASE, taking an entry from the append buffer or from the chain with its sequence number, and the commands of R326:
pause and resume, and, of an engine stopped on a failed entry, skip, which completes it, and retry, which starts it again (R314, R317, R326). A page
that does not answer ignores the host's writes and commands (R424, R425).
What the model chose or inferred in it: log 28. -/
def Obligations.EngineChainTaken : Prop :=
  ∀ (s : State) (n g : Nat) (e : Engine), (s.part n).hasEng g = true → e = (s.part n).eng g →
    ((s.part n).answers = false → ∀ v, ∀ i ∈ [Instr.entailWrite n g v, .enbaseWrite n g v, .encmdPause n g, .encmdResume n g, .encmdSkip n g, .encmdRetry n g],
      exec i s = .next s) ∧
    ((s.part n).answers = true → (∀ v : Word, ((v - e.tail).toNat < 2 ^ 31 → exec (.entailWrite n g v.toNat) s = .next (s.modEng n g fun e => { e with tail := v })) ∧
      (2 ^ 31 ≤ (v - e.tail).toNat → exec (.entailWrite n g v.toNat) s = .next (s.modEng n g fun e => { e with back := true }))) ∧
    (∀ v : Dword, exec (.enbaseWrite n g v.toNat) s = .next (s.modEng n g fun e => { e with base := v, cflt := false })) ∧
    exec (.encmdPause n g) s = .next (s.modEng n g fun e => { e with pause := true }) ∧
    exec (.encmdResume n g) s = .next (s.modEng n g fun e => { e with pause := false }) ∧
    (e.stop = false ∨ (∀ x ∈ e.entries, x.st ≠ .failed) → exec (.encmdSkip n g) s = .next s ∧ exec (.encmdRetry n g) s = .next s) ∧
    (∀ x, e.stop = true → e.entries.find? (fun x => x.st == .failed) = some x →
      (∃ t, exec (.encmdSkip n g) s = .next t ∧ ((t.part n).eng g).stop = false ∧ ((t.part n).eng g).pause = e.pause ∧
        ((t.part n).eng g).entries = e.entries.filter (fun y => y.seq != x.seq) ∧
        (e.doneSeqs = [] → x.seq = (e.seq + 1).toNat → ((t.part n).eng g).seq = e.seq + 1) ∧ ∀ d, t.elem? d = s.elem? d) ∧
      ∃ t, exec (.encmdRetry n g) s = .next t ∧ ((t.part n).eng g).stop = false ∧ ((t.part n).eng g).seq = e.seq ∧ t.mem = s.mem ∧
        (∀ d, t.elem? d = s.elem? d) ∧ ((t.part n).eng g).entries = e.entries.map fun y =>
          if y.seq = x.seq then ⟨y.dw, y.iova, y.seq, .queued, 0, 0, 0, .no, []⟩ else y)) ∧
    ((s.part n).enable = true → e.stop = false → e.waiting = none → e.opWaiting = none → (∀ x ∈ e.entries, x.wait.withholds = false) →
      (e.append ≠ [] → e.pause = true ∨ 4 ≤ e.entries.length → exec (.takeEngineEntry n g) s = .next s) ∧
      (∀ q dw rest, e.append = (q, dw) :: rest → e.pause = false → e.entries.length < 4 → ∃ t x, exec (.takeEngineEntry n g) s = .next t ∧
        (∃ more, ((t.part n).eng g).append = rest ++ more ∧ ((∀ l ∈ (s.part n).launches, l.chains = []) → more = [])) ∧
        ((t.part n).eng g).entries = e.entries ++ [x] ∧ x.seq = q ∧ x.st = .queued ∧ x.iova = none) ∧
      (e.append = [] → e.cflt = false → 1 ≤ (e.tail - e.head).toNat → (e.tail - e.head).toNat < 2 ^ 31 →
        (e.base.toNat % 64 ≠ 0 ∨ s.ioDwords n e.base.toNat 8 = none →
          exec (.takeEngineEntry n g) s = .next (s.modEng n g fun e => { e with cflt := true })) ∧
        ∀ dw, e.base.toNat % 64 = 0 → s.ioDwords n e.base.toNat 8 = some dw → ∃ t x, exec (.takeEngineEntry n g) s = .next t ∧
          ((t.part n).eng g).head = e.head + 1 ∧ ((t.part n).eng g).base = dw.getD 2 0 ∧
          ((t.part n).eng g).given = (e.given + 1) % 2 ^ 32 ∧ ((t.part n).eng g).entries = e.entries ++ [x] ∧
          x.seq = (e.given + 1) % 2 ^ 32 ∧ x.st = .queued ∧ x.iova = some e.base.toNat ∧
          t.mem = (s.ioWrite n (e.base.toNat + 56) (toBytes 4 ((e.given + 1) % 2 ^ 32))).mem))

open Sys2Proof Sys2Proof.Machine Sys2Proof.Claims in
/-- ENGINE_ENTRY_START begins the next entry, or goes on with one, by a piece of its bytes: a reserved one, one with a bad target, and one whose peer
refuses fail with 0x60, 0x63 and 0x64; a copy within a scratchpad takes its bytes in increasing order, and a fill writes its pattern; no other byte of
the element changes (R315, R316, R319, R352).
ENGINE_ENTRY_COMPLETE reports the bytes to a barrier or a sync word, and ENSEQ advances over the completed prefix (R307, R311, R317).
What the model chose or inferred in it: log 18. -/
def Obligations.EngineEntriesRun : Prop :=
  ∀ (s : State) (n g : Nat) (x : EngEntry), (s.part n).enable = true →
    (((s.part n).eng g).nextEntry = some x →
      (x.st = .queued → x.reserved g = true → ∃ t, exec (.engineEntryStart n g) s = .next t ∧ EntryFailed s t n g x 0x60 0) ∧
      (x.st = .queued → x.reserved g = false → s.badTarget n x = true → ∃ t, exec (.engineEntryStart n g) s = .next t ∧ EntryFailed s t n g x 0x63 0) ∧
      ((x.st = .queued → x.reserved g = false ∧ s.badTarget n x = false) →
        ((x.kind = 4 ∨ x.kind = 5) → s.peerOk n x.peer = false → ∃ t, exec (.engineEntryStart n g) s = .next t ∧ EntryFailed s t n g x 0x64 0) ∧
        (x.bytes < x.len → x.dloc = true → (x.kind = 2 ∨ (x.kind = 0 ∧ x.sloc = true)) →
          let src := (scratchRef (x.dw_ 0)).2 + x.bytes
          let dst := (scratchRef (x.dw_ 1)).2 + x.bytes
          ∀ y, s.elem? (scratchRef (x.dw_ 1)).1 = some y → s.outOf y = false → y.cur.scratch.wf = true →
            (scratchRef (x.dw_ 0)).1 = (scratchRef (x.dw_ 1)).1 ∨ x.kind = 2 →
            dst + (x.len - x.bytes) ≤ y.scrBytes → (src + (x.len - x.bytes) ≤ y.scrBytes ∨ x.kind = 2) →
            ∃ t z m, exec (.engineEntryStart n g) s = .next t ∧ t.elem? (scratchRef (x.dw_ 1)).1 = some z ∧ t.mem = s.mem ∧
              0 < m ∧ x.bytes + m ≤ x.len ∧ { z with cur := { z.cur with scratch := y.cur.scratch } } = y ∧
              (x.kind = 2 → ∀ a, z.cur.scratch.get a =
                if dst ≤ a ∧ a < dst + m then el 8 (BitVec.ofNat 512 (x.dw_ 0)) ((a - (scratchRef (x.dw_ 1)).2) % 8) else y.cur.scratch.get a) ∧
              (x.kind = 0 → ∀ a, z.cur.scratch.get a = byteCopy (fun b => y.cur.scratch.get b) src dst m a) ∧
              ∀ w ∈ ((t.part n).eng g).entries, w.seq = x.seq → w.st = .flight ∧ w.bytes = x.bytes + m))) ∧
    (((s.part n).eng g).nextEntry = none → exec (.engineEntryStart n g) s = .next s) ∧
    ∀ q, ((s.part n).eng g).entries.find? (fun x => x.seq == q && x.st == .flight && decide (x.len ≤ x.bytes)) = some x →
      s.badTarget n x = false →
      (x.nkind ≠ 0 → s.reachable x.ntgt = false → s.inPart n x.ntgt = true → exec (.engineEntryComplete n g q) s = .next s) ∧
      (x.nkind = 0 ∨ s.reachable x.ntgt = true → ∃ t, exec (.engineEntryComplete n g q) s = .next t ∧
        ((t.part n).eng g).entries = ((s.part n).eng g).entries.filter (fun y => y.seq != q) ∧
        (((s.part n).eng g).doneSeqs = [] → q = (((s.part n).eng g).seq + 1).toNat → ((t.part n).eng g).seq = ((s.part n).eng g).seq + 1) ∧
        (((s.part n).eng g).doneSeqs = [] → q ≠ (((s.part n).eng g).seq + 1).toNat →
          ((t.part n).eng g).seq = ((s.part n).eng g).seq ∧ ((t.part n).eng g).doneSeqs = [q]) ∧
        ∀ y, s.elem? x.ntgt = some y → ∃ z, t.elem? x.ntgt = some z ∧ z.cur.regs = y.cur.regs ∧
          (x.nkind = 0 → z = y) ∧
          (x.nkind = 1 → z.cur.scratch = y.cur.scratch ∧ (x.nbar < y.cur.bars.length → z.bar x.nbar = (y.bar x.nbar).report x.reports) ∧
            ∀ b, b ≠ x.nbar → z.bar b = y.bar b) ∧
          (x.nkind = 2 → z.cur.bars = y.cur.bars ∧ (y.cur.scratch.wf = true → z.sync x.noff = swReport (y.sync x.noff) x.reports)))

open Sys2Proof Sys2Proof.Machine Sys2Proof.Claims in
/-- The graph sequencer's chain and the cut of a task: GSTAIL, GSBASE, taking a task from TDISP's buffer or from the chain; its positions cut into maximal runs
of equal tags, in order (R314, R375, R376); the host's skip of the task of its chain on which the sequencer has stopped, which sends no further piece of it, and its retry (R372, R375); and the invalidations of cached
methods and patterns (R372, R374, R381); a page that does not answer ignores the host's writes and commands (R424, R425). That PMINV drops no program,
since the model caches none beyond those that generators and buffers keep, and that MTINV and PMINV complete without condition, are the model's readings.
What the model chose or inferred in it: log 54, 56, 68. -/
def Obligations.TasksTaken : Prop :=
  (∀ (s : State) (n : Nat) (g : Sequencer), g = (s.part n).gs →
    ((s.part n).answers = false → ∀ v, ∀ i ∈ [Instr.gstailWrite n v, .gsbaseWrite n v, .gscmdRetry n, .gscmdSkip n, .mtinvWrite n v, .pminvWrite n v],
      exec i s = .next s) ∧
    ((s.part n).answers = true → ∀ v : Word, ((v - g.tail).toNat < 2 ^ 31 → exec (.gstailWrite n v.toNat) s = .next (s.modGs n fun g => { g with tail := v })) ∧
      (2 ^ 31 ≤ (v - g.tail).toNat → exec (.gstailWrite n v.toNat) s = .next (s.modGs n fun g => { g with back := true }))) ∧
    ((s.part n).answers = true → ∀ v : Dword, exec (.gsbaseWrite n v.toNat) s = .next (s.modGs n fun g => { g with base := v, cflt := false })) ∧
    ((s.part n).enable = true → g.stop = false → g.waiting = none → g.opWaiting = none → (∀ t ∈ g.tasks, t.wait.withholds = false ∧ (t.cut = true ∨ t.stopped = true)) →
      (∀ dw src rest, g.append = (dw, src) :: rest → ∃ (u : State) (k : Task), k.src = some src ∧ k.seq = (dw.getD 7 0).toNat % 2 ^ 32 ∧ k.cut = false ∧
        (u.part n).gs = { g with append := rest, tasks := g.tasks ++ [k] } ∧ exec (.takeTask n) s = .next (u.cutTask n k)) ∧
      (g.append = [] → g.cflt = false → 1 ≤ (g.tail - g.head).toNat → (g.tail - g.head).toNat < 2 ^ 31 →
        (g.base.toNat % 64 ≠ 0 ∨ s.ioDwords n g.base.toNat 8 = none →
          exec (.takeTask n) s = .next (s.modGs n fun g => { g with cflt := true })) ∧
        ∀ dw, g.base.toNat % 64 = 0 → s.ioDwords n g.base.toNat 8 = some dw → ∃ (u : State) (k : Task), k.src = none ∧ k.iova = some g.base.toNat ∧
          k.seq = (g.given + 1) % 2 ^ 32 ∧ k.cut = false ∧
          (u.part n).gs = { g with given := (g.given + 1) % 2 ^ 32, head := g.head + 1, base := dw.getD 6 0, tasks := g.tasks ++ [k] } ∧
          exec (.takeTask n) s = .next (u.cutTask n k))) ∧
    (g.stop = false ∨ (∀ k ∈ g.tasks, k.stopped = false ∨ k.src ≠ none) → exec (.gscmdRetry n) s = .next s ∧ exec (.gscmdSkip n) s = .next s) ∧
    (∀ k, (s.part n).answers = true → g.stop = true → g.tasks.find? (fun t => t.stopped && t.src.isNone) = some k → k.dw.length = 8 →
      (∃ t, exec (.gscmdRetry n) s = .next t ∧ (t.part n).gs.stop = false ∧ t.mem = s.mem ∧
        ∀ j ∈ (t.part n).gs.tasks, j.seq = k.seq → j.stopped = false ∧ j.status = 0) ∧
      ∃ t, exec (.gscmdSkip n) s = .next t ∧ (t.part n).gs.stop = false ∧
        ((∃ p ∈ k.pieces, p.running ≠ none ∧ p.done = false) →
          ∀ j ∈ (t.part n).gs.tasks, j.seq = k.seq → j.status = 0x65 ∧ ∀ p ∈ j.pieces, p.running ≠ none ∨ p.done = true) ∧
        ((∀ p ∈ k.pieces, p.running = none) → (t.part n).gs.tasks = g.tasks.filter fun j => j.seq != k.seq)) ∧
    (∀ v, (s.part n).answers = true → (s.part n).mtBusy = false → exec (.mtinvWrite n v) s = .next (s.modPart n fun p =>
      { p with mtBusy := true, mtArg := BitVec.ofNat 17 (v % 4096 + if v.testBit 16 then 2 ^ 16 else 0)
               gs := g.dropMethods (v.testBit 16) (v % 4096) })) ∧
    exec (.mtinvComplete n) s = .next (s.modPart n fun p => { p with mtBusy := false }) ∧
    (∀ v, (s.part n).answers = true → (s.part n).mtBusy = true → exec (.mtinvWrite n v) s = .next s) ∧
    (∀ v, (s.part n).answers = true → exec (.pminvWrite n v) s = .next (s.modPart n fun p => { p with pmBusy := true })) ∧
    exec (.pminvComplete n) s = .next (s.modPart n fun p => { p with pmBusy := false })) ∧
  (∀ (s u : State) (n : Nat) (t : Task) (ks : List (List Nat)), s.keysFrom n t (t.n0 * t.n1) 0 = .ok ks u → ks ≠ [] →
    n < u.parts.length → ∀ j ∈ ((s.cutTask n t).part n).gs.tasks, j.seq = t.seq → j.cut = true ∧ j.pieces = t.piecesOf ks) ∧
  ∀ (t : Task) (ks : List (List Nat)), (∀ k ∈ ks, ∀ v ∈ k, v < 1024) →
    ((t.piecesOf ks).flatMap fun p => (List.range p.pn).map fun j => (p.p0 + j, p.tags)) =
      (indexed 0 ks).map (fun q => (q.1, q.2.map (BitVec.ofNat 10))) ∧
    ∀ i p q, (t.piecesOf ks)[i]? = some p → (t.piecesOf ks)[i + 1]? = some q → p.tags ≠ q.tags

open Sys2Proof Sys2Proof.Machine Sys2Proof.Claims in
/-- PIECE_START looks up the method of a piece, the matching entry with the fewest wildcards and, of those, of the lowest index, and sends the piece's
descriptor to input p7 of its section, which it arms; a key without a method, a no-method marker and a routine that does not run are the failures of
R378. PIECE_COMPLETE takes an o7 token of a section, or of a region that a method names, and ends the piece that runs there (R230, R374, R376, R378, R379, R405).
What the model chose or inferred in it: log 21, 54, 55. -/
def Obligations.PiecesRun : Prop :=
  (∀ (k : Key) (ms : List (Nat × List Dword)),
    (∀ q, meBest k ms = some q → q ∈ ms ∧ methodMatches q.2 k ∧ ∀ r ∈ ms, methodMatches r.2 k →
      meWilds q.2 ≤ meWilds r.2 ∧ ((ms.map (·.1)).Pairwise (· < ·) → meWilds q.2 = meWilds r.2 → q.1 ≤ r.1)) ∧
    (meBest k ms = none → ∀ r ∈ ms, ¬ methodMatches r.2 k)) ∧
  (∀ (s u : State) (n q i : Nat) (t : Task) (p : Piece) (ms : List (Nat × List Dword)), s.task? n q = some t → (s.part n).enable = true →
    t.cut = true → t.stopped = false → t.wait.withholds = false → t.status ≠ 0x65 → t.dw.length = 8 →
    ((s.part n).spent = true → exec (.pieceStart n q) s = .next s) ∧
    ((s.part n).spent = false → idlePieces 0 t.pieces = [(i, p)] → s.methods n (.seq n) = .ok ms u → n < u.parts.length →
      let fails := fun (cause : Nat) =>
        (t.src = none → (u.part n).gs.stop = false → (u.part n).gs.waiting = none → (u.part n).gs.opWaiting = none →
          ∃ w, exec (.pieceStart n q) s = .next w ∧ TaskFailed u w n t 0x70 4 cause (t.key p).detail) ∧
        ∀ src, t.src = some src → ∃ w, exec (.pieceStart n q) s = .next w ∧ SlotFailed u w t src 4 cause (t.key p).detail
      (meBest (t.key p) ms = none → fails 0) ∧
      ∀ j m, meBest (t.key p) ms = some (j, m) →
        (meAction m = 3 → fails 1) ∧
        (meAction m = 2 → 2 ≤ p.depth → fails 4) ∧
        (meAction m = 1 → (u.part n).launchOf (meImage m) = none → fails 2) ∧
        (meAction m = 1 → ∀ l g, (u.part n).launchOf (meImage m) = some l → u.launch? l.ref = some l → l.ref.n = n →
          l.regions[meSect m]? = some g → g.ins.length = 8 →
          (∀ x ∈ (u.part n).gs.tasks, ∀ c ∈ x.pieces, c.running ≠ some ⟨l.ref, meSect m⟩) →
          (u.part n).gs.behind ms q i (meImage m, meSect m) = false → i < t.pieces.length →
          ∃ w h d, exec (.pieceStart n q) s = .next w ∧ w.region? ⟨l.ref, meSect m⟩ = some h ∧ h.gated = true ∧
            h.tiles = min (g.tiles + p.pn) (2 ^ 32 - 1) ∧ (h.ins.getD 7 {}).q = (g.ins.getD 7 {}).q ++ [dataTok d none] ∧
            el 64 d 0 = t.dw.getD 0 0 ∧ (p.ops.length = 3 → ∀ k, k < 3 → el 64 d (k + 1) = p.ops.getD k 0) ∧
            (p.ops.length = 3 → el 64 d 4 = t.dw.getD 4 0 ∧ el 64 d 5 = BitVec.ofNat 64 (p.pn * 2 ^ 32 + p.p0) ∧
              el 64 d 6 = t.dw.getD 6 0 ∧ el 64 d 7 = t.dw.getD 7 0) ∧
            (u.task? n q = some t → ∃ v c, w.task? n q = some v ∧ v.pieces[i]? = some c ∧ c = { p with running := some ⟨l.ref, meSect m⟩, conv := none })))) ∧
  ∀ (s : State) (r : RegionRef) (l : Launch) (g : Region) (m : Nat) (q : Stream) (t : Token) (rest : List Token),
    s.launch? r.l = some l → s.region? r = some g → g.outStream 7 = some (m, q) → q.out = t :: rest → (g.gated = true ∨ g.method = true) → g.moves = true →
    (g.outs.getD 7 {}).bind = none → (g.outs.getD 7 {}).suppress = 0 → l.fromOut r.k 7 = [] → t.kind ≠ .dusk →
    ∀ e o, q.prod = .elem e o → (s.epQuiet e = false → exec (.pieceComplete r) s = .next s) ∧
      (s.epQuiet e = true → ∃ w h, exec (.pieceComplete r) s = .next w ∧ w.region? r = some h ∧ (∃ z, h.streams[m]? = some z ∧ z.out = rest) ∧
        ((s.part r.l.n).gs.runningAt r = none → (w.part r.l.n).gs.tasks = (s.part r.l.n).gs.tasks) ∧
        ∀ k i c, (s.part r.l.n).gs.runningAt r = some (k.seq, i) → s.task? r.l.n k.seq = some k → k.pieces[i]? = some c → k.cut = true →
          k.stopped = false → k.status ≠ 0x65 → (c.conv = none →
          ((∀ j d, k.pieces[j]? = some d → j ≠ i → d.done = true) →
            (w.part r.l.n).gs.tasks = (s.part r.l.n).gs.tasks.filter fun j => j.seq != k.seq) ∧
          ((∃ j d, k.pieces[j]? = some d ∧ j ≠ i ∧ d.done = false) → ∃ v d, w.task? r.l.n k.seq = some v ∧ v.pieces[i]? = some d ∧
            d = { c with running := none, done := true })) ∧
          ∀ a b x, c.conv = some (a, b, x) → ∃ v d, w.task? r.l.n k.seq = some v ∧ v.pieces[i]? = some d ∧
            d = { c with ops := setAt c.ops a (BitVec.ofNat 64 (x * 2 ^ 48)), tags := setAt c.tags a b, depth := c.depth + 1,
                         running := none, conv := none, done := false })

open Sys2Proof Sys2Proof.Machine Sys2Proof.Claims in
/-- ATS_COMPLETION stores the translation at the slice that asked and lets its requesters go on, is discarded and asked again where an invalidation
has overtaken a part of its range, and is a page fault where the permission is short (R246, R247, R249, R257). Page responses repeat the request or
trap every attached access (R251). An invalidation leaves no overlapping translation in any cache, and its completion none of the lines but pinned
ones, nor a version (R256). TTINV empties the descriptor caches and stays busy until the accesses outstanding then have been performed, and the lines
and version entries that hold writes of the old copy are written back (R245, R255).
What the model chose or inferred in it: log 25, 56, 66, 92. -/
def Obligations.TranslationsComplete : Prop :=
  ∀ (s : State) (n iova pa size : Nat) (r w : Bool), n < s.parts.length → let page := iova / 4096
    let x := xlatOf iova pa size r w
    ((∀ q ∈ (s.part n).ats, q.page ≠ page) → exec (.atsCompletion n iova pa size r w) s = .next s) ∧
    (∀ q, (s.part n).ats.find? (fun a => a.page == page) = some q →
      ((∃ g ∈ q.gone, x.overlaps g.1 g.2 = true) → exec (.atsCompletion n iova pa size r w) s = .next (s.modPart n fun p =>
        { p with ats := p.ats.map fun a => if a = q then { a with gone := [] } else a })) ∧
      ((∀ g ∈ q.gone, x.overlaps g.1 g.2 = false) →
        (w = true ∨ (r = true ∧ q.write = false) → ∃ t, exec (.atsCompletion n iova pa size r w) s = .next t ∧
          t.mem = s.mem ∧ (∀ y ∈ t.elems, y.2.l.n = n → ∀ a ∈ y.2.acc, a.wait ≠ .ats page q.slice q.write) ∧
          (q.slice < 4 * (s.part n).depotList.length → x ∈ (t.part n).slices.getD q.slice [])) ∧
        (w = false → (r = false ∨ q.write = true) → 0 < (s.part n).pralloc.toNat →
          (∀ y ∈ (s.part n).pageReqs, y.page ≠ page) → (∀ y ∈ (s.part n).pageWait, y.1 ≠ page) →
          (∃ y ∈ s.elems, y.2.l.n = n ∧ ∃ a ∈ y.2.acc, a.wait = .ats page q.slice q.write ∧ a.op ≠ .pref) →
          ∃ t, exec (.atsCompletion n iova pa size r w) s = .next t ∧
            ((s.part n).prout < (s.part n).pralloc.toNat → ⟨page, q.slice, q.write, 0, false⟩ ∈ (t.part n).pageReqs) ∧
            ((s.part n).pralloc.toNat ≤ (s.part n).prout → (page, q.slice, q.write) ∈ (t.part n).pageWait)))) ∧
    ((s.part n).pageReq? page = none → ∀ code, exec (.pageResponseSuccess n iova) s = .next s ∧ exec (.pageResponseFailure n iova code) s = .next s) ∧
    (∀ q, (s.part n).pageReq? page = some q → (∀ y ∈ (s.part n).pageWait, y.1 ≠ page) →
      (∃ t, exec (.pageResponseSuccess n iova) s = .next t ∧ t.elems = s.elems ∧ (t.part n).pageReq? page = none ∧
        (s.anyWait n (· == .pri page) = true → (∀ a ∈ (s.part n).ats, a.page ≠ page) →
          (s.part n).ats.length + (s.part n).pageReqs.length ≤ Config.atsLimit → ∃ a ∈ (t.part n).ats, a.page = page)) ∧
      ∀ code, ∃ t, exec (.pageResponseFailure n iova code) s = .next t ∧ (t.part n).pageReq? page = none ∧
        ∀ e y a, s.elem? e = some y → y.l.n = n → y.acc = [a] → a.wait = .pri page → a.op ≠ .pref → y.fault = none →
          (∀ g ∈ y.cur.agens, g.wait = .no) → ∃ z f, t.elem? e = some z ∧ z.stopped = true ∧ z.fault = some f ∧ f.cls = 8 ∧ f.slot = a.slot) ∧
    ((s.part n).answers = false → ∀ v, exec (.ttinvWrite n v) s = .next s) ∧
    ((s.part n).enable = true →
      (∀ lo hi, ∃ t, exec (.invalidateRequest n lo hi) s = .next t ∧ (∀ y ∈ t.allXlats n, hi ≤ y.iova ∨ y.iova + y.size ≤ lo) ∧
        (t.part n).ats = (s.part n).ats.map (fun a => { a with gone := a.gone ++ [(lo, hi)] }) ∧
        (t.part n).invals = (s.part n).invals ++ [⟨lo, hi, s.framesIn n lo hi⟩] ∧ t.mem = s.mem) ∧
      exec (.globalInvalidate n) s = exec (.invalidateRequest n 0 (2 ^ 64)) s ∧
      (∀ v, (s.part n).ttBusy = true → exec (.ttinvWrite n v) s = .next s) ∧
      ∀ v, (s.part n).answers = true → (s.part n).ttBusy = false → ∃ t, exec (.ttinvWrite n v) s = .next t ∧ (t.part n).ttBusy = true ∧ t.mem = s.mem ∧
        (∀ y ∈ t.elems, y.2.l.n = n → ∀ c ∈ y.2.ports, ∀ d ∈ c.desc, v.testBit 16 = false ∧ d.tid ≠ v % 65536) ∧
        (∀ l ∈ (t.part n).sliceDesc, ∀ d ∈ l, v.testBit 16 = false ∧ d.tid ≠ v % 65536) ∧
        ∀ k ∈ (s.part n).pageList, k < s.pages.length →
          (∀ l ∈ (t.page k).lines, l.st = .dirty → (∃ d ∈ l.tids, v.testBit 16 = true ∨ d = v % 65536) → l.owed = true) ∧
          ∀ l ∈ (t.page k).vdir, (∃ d ∈ l.tids, v.testBit 16 = true ∨ d = v % 65536) → l.owed = true) ∧
    ((s.part n).ttBusy = true →
      (s.owes n = true ∨ (∃ q ∈ (s.part n).ttWait, q ∈ s.outstanding n) → exec (.ttinvComplete n) s = .next s) ∧
      (s.owes n = false → (∀ q ∈ (s.part n).ttWait, q ∉ s.outstanding n) →
        exec (.ttinvComplete n) s = .next (s.modPart n fun p => { p with ttBusy := false, ttWait := [] }))) ∧
    ((s.part n).invals = [] → exec (.invalidateCompletion n) s = .next s) ∧
    ∀ i rest, (s.part n).invals = i :: rest → ∃ t, exec (.invalidateCompletion n) s = .next t ∧ (t.part n).invals = rest ∧ t.elems = s.elems ∧
      ∀ k ∈ (s.part n).pageList, k < s.pages.length → ∀ f ∈ i.frames,
        (∀ l ∈ (t.page k).lines, f.1 ≤ 128 * l.line → 128 * l.line < f.2 → l.pins ≠ 0) ∧
        ∀ v ∈ (t.page k).vdir, ¬ (f.1 ≤ 128 * v.line ∧ 128 * v.line < f.2)

open Sys2Proof Sys2Proof.Machine Sys2Proof.Claims in
/-- HYPERPERIOD_BOUNDARY, when its hyperperiod has ended, decides and changes no ratio in force; RATE_CHANGE_APPLY, once every rising regulator has settled, puts
the decided ratios in force with one paused master cycle; REGULATOR_SETTLED; MARGIN_REPLAN takes a plan of assigned codes that never decrease (R191, R197, R199,
R202, R432). A quota period's end carries DEBT and clears SPENT, and what was pre-empted for the quota is to resume once it is no longer spent (R430). FAULT_RECORD_WRITE writes a waiting record once the ring has room, one of the
tenant's and one of the operator's (R332, R333, R454).
What the model chose or inferred in it: log 39, 65. -/
def Obligations.BoundariesPassed : Prop :=
  (∀ (s : State) (l : LaunchRef) (x : Launch), s.launch? l = some x → x.ref = l →
    (x.pause = true ∨ x.tick < x.hyper → exec (.hyperperiodBoundary l) s = .next s ∧ exec (.rateChangeApply l) s = .next s) ∧
    (x.pause = false → x.hyper ≤ x.tick →
      (∃ t y, exec (.hyperperiodBoundary l) s = .next t ∧ t.launch? l = some y ∧ y.tick = 0 ∧ y.pause = false ∧ y.hyper = x.hyper ∧
        y.islands.map (fun i => (i.p, i.q)) = x.islands.map (fun i => (i.p, i.q)) ∧ t.mem = s.mem) ∧
      ((x.pend = false ∨ ∃ i ∈ x.islands, i.dp ≠ 0 ∧ i.settled = false) → exec (.rateChangeApply l) s = .next s) ∧
      (x.pend = true → (∀ i ∈ x.islands, i.dp = 0 ∨ i.settled = true) → ∃ t y, exec (.rateChangeApply l) s = .next t ∧
        t.launch? l = some y ∧ y.tick = 0 ∧ y.pause = true ∧ y.hyper = hyperOf y.islands ∧ y.resolves = (x.resolves + 1) % 2 ^ 32 ∧
        y.islands.map (fun i => (i.p, i.q)) = x.islands.map (fun i => if i.dp = 0 then (i.p, i.q) else (i.dp, i.dq)) ∧
        (∀ i ∈ y.islands, i.dp = 0) ∧ t.mem = s.mem)) ∧
    ∀ k i, x.islands[k]? = some i → ∃ t y j, exec (.regulatorSettled l k) s = .next t ∧ t.launch? l = some y ∧ y.islands[k]? = some j ∧
      (i.dp = 0 ∨ i.settled = false → j = { i with settled := true, mv := s.islandMv (x.pagesOf i) i.next }) ∧
      (i.dp ≠ 0 → i.settled = true → j = i)) ∧
  (∀ f r : Frac, 0 < f.d → (permAtLeast f = some r → Permitted r ∧ f.le r = true ∧ ∀ w, Permitted w → f.le w = true → r.le w = true) ∧
    (permAtMost f = some r → Permitted r ∧ r.le f = true ∧ ∀ w, Permitted w → w.le f = true → w.le r = true) ∧
    (permAtLeast f = none → ∀ w, Permitted w → f.le w = false) ∧ (permAtMost f = none → ∀ w, Permitted w → w.le f = false)) ∧
  (∀ (s : State) (page : Nat) (plan : List Byte),
    (plan.length = 64 → (∀ b ∈ plan, b.toNat ≤ 150 ∨ b.toNat = 255) → plan.Pairwise (fun a b => a.toNat ≤ b.toNat) → s.idlePage page = true →
      let u := s.modPage page fun p => { p with plan := plan }
      ∃ t, exec (.marginReplan page plan) s = .next t ∧ t.pages = u.pages ∧ t.mem = s.mem ∧ t.elems = s.elems ∧
        ((∀ p ∈ s.parts, ∀ l ∈ p.launches, page ∉ l.pages) → t = u)) ∧
    (plan.length ≠ 64 ∨ s.idlePage page = false → exec (.marginReplan page plan) s = .next s)) ∧
  (∀ (s : State) (n : Nat), (s.part n).enable = true →
    ∃ t, exec (.quotaPeriodBoundary n) s = .next t ∧ (t.part n).eqspent = 0 ∧ t.mem = s.mem ∧ (t.part n).equota = (s.part n).equota ∧
      (n < s.parts.length → (t.part n).eqdebt =
        BitVec.ofNat 64 ((s.part n).eqspent.toNat + (s.part n).eqdebt.toNat - (s.part n).equota.toNat)) ∧
      ((t.part n).spent = false → ∀ l ∈ (t.part n).launches, ∀ g ∈ l.regions, g.quotaHeld = true → g.st ≠ .preempted)) ∧
  ∀ (s : State) (n : Nat), n < s.parts.length →
    let size := max 4 (s.part n).fcsize.toNat
    (((s.part n).fcwr - (s.part n).fcrd).toNat = 2 ^ size → ∃ t, exec (.faultRecordWrite n) s = .next t ∧
      (t.part n).ended = (s.part n).ended ∧ (t.part n).fcwr = (s.part n).fcwr ∧ t.mem = s.mem) ∧
    (let o := s.mgmt.of
     let osize := max 4 o.size.toNat
     ((o.wr - o.rd).toNat = 2 ^ osize → ∃ t, exec (.faultRecordWrite n) s = .next t ∧ t.mmem = s.mmem ∧ t.mgmt = s.mgmt ∧
       (t.part n).opEnded = (s.part n).opEnded) ∧
     ∀ r rest, (s.part n).opEnded = r :: rest → (o.wr - o.rd).toNat ≠ 2 ^ osize → ∃ t, exec (.faultRecordWrite n) s = .next t ∧
       (t.part n).opEnded = rest ∧ t.mgmt = { s.mgmt with of := { o with wr := o.wr + 1 } } ∧
       t.mmem = s.mmem.write (o.base.toNat + 64 * (o.wr.toNat % 2 ^ osize))
         ((setAt r 7 (BitVec.ofNat 64 (o.wr.toNat % 2 ^ osize + 1))).flatMap fun d => toBytes 8 d.toNat)) ∧
    ∀ r rest, (s.part n).ended = r :: rest → ((s.part n).fcwr - (s.part n).fcrd).toNat ≠ 2 ^ size →
      ∃ t, exec (.faultRecordWrite n) s = .next t ∧ (t.part n).ended = rest ∧ (t.part n).fcwr = (s.part n).fcwr + 1 ∧
        (s.takeOpWaiting n = none ∨ (s.mgmt.of.wr - s.mgmt.of.rd).toNat = 2 ^ max 4 s.mgmt.of.size.toNat → t.mem = (({ s with parts := (s.modPart n fun p => { p with ended := rest }).parts } : State).ioWrite n
          ((s.part n).fcbase.toNat + 64 * ((s.part n).fcwr.toNat % 2 ^ size))
          ((setAt r 7 (BitVec.ofNat 64 ((s.part n).fcwr + 1).toNat)).flatMap fun d => toBytes 8 d.toNat)).mem)

open Sys2Proof Sys2Proof.Machine Sys2Proof.Claims in
/-- PTCTL: ENABLE is refused in the cases of R419 with ERR, and else makes the partition with a memory key of its own; DISABLE resets and hides it;
RESET and a Function Level Reset leave its table entry and put every register of its page at its reset value (R419, R423, R425, R444). DVCAP, the
revocation of a contract, a policy load and its codes, the break-bit list, and a peer's transfer (R421, R426, R427, R443, R446).
What the model chose or inferred in it: log 57, 58, 59, 60. -/
def Obligations.PartitionsManaged : Prop :=
  ∀ (s : State) (n : Nat), n < s.parts.length →
    ((s.part n).enable = true → exec (.ptctlEnable n) s = .next (s.modPart n fun p => { p with err := false })) ∧
    ((s.part n).enable = false →
      (EnableRefused s n → exec (.ptctlEnable n) s = .next (s.modPart n fun p => { p with err := true })) ∧
      (¬ EnableRefused s n → ∃ t, exec (.ptctlEnable n) s = .next t ∧ (t.part n) = { s.part n with
        enable := true, err := false, key := s.mmem.read (s.part n).keyAddr.toNat 2592, serial := 0, memKey := some (Config.memoryKey (s.mgmt.keyGen + 1)) } ∧
        t.mgmt.keyGen = s.mgmt.keyGen + 1 ∧ t.mem = s.mem ∧ ∀ m, m ≠ n → t.part m = s.part m) ∧
      exec (.ptctlDisable n) s = .next (s.modPart n fun p => { p with err := false }) ∧
      exec (.ptctlReset n) s = .next s ∧ exec (.functionLevelReset n) s = .next s) ∧
    ((s.part n).enable = true → Idle s n → (∀ q ∈ s.elems, q.2.l.n = n → ∃ l ∈ (s.part n).launches, l.ref = q.2.l) →
      (∃ t p, exec (.ptctlReset n) s = .next t ∧ exec (.functionLevelReset n) s = .next t ∧ ResetPart (s.part n) (t.part n) ∧
        (∀ q ∈ t.elems, q.2.l.n ≠ n) ∧ exec (.ptctlDisable n) s = .next p ∧
        p.part n = { t.part n with enable := false, err := false, key := [], serial := 0, memKey := none } ∧ ∀ q ∈ p.elems, q.2.l.n ≠ n)) ∧
    (∀ v : BitVec 16, ∃ t, exec (.dvcapWrite v.toNat) s = .next t ∧ t.mgmt.cap.toNat = min 2800 v.toNat ∧ t.mem = s.mem ∧ t.elems = s.elems) ∧
    (∀ q, q < 8 → (s.part n).flq.length = 8 → (s.part n).counted.length = 8 → (s.part n).revoked = List.replicate 8 none →
      (flqValid ((s.part n).flq.getD q 0) = false → exec (.flqRevoke n q) s = .next s) ∧
      (flqValid ((s.part n).flq.getD q 0) = true → ∃ t, exec (.flqRevoke n q) s = .next t ∧ flqValid ((t.part n).flq.getD q 0) = false ∧
        ((∃ l ∈ (s.part n).launches, l.ref.q = q ∧ ∃ g ∈ l.regions, g.st ≠ .preempted) → t.mgmt.fsum = s.mgmt.fsum ∧
          (t.part n).revoked.getD q none = some (((s.part n).counted.getD q none).getD 0) ∧
          ∀ l ∈ (t.part n).launches, l.ref.q = q → ∀ g ∈ l.regions, g.st ≠ .running ∨ (g.waving = true ∧ g.pre = true)) ∧
        (t.part n).counted.getD q none = none ∧
        ((∀ l ∈ (s.part n).launches, l.ref.q ≠ q) → (t.part n).revoked.getD q none = none ∧
          t.mgmt.fsum = s.mgmt.fsum - BitVec.ofNat 16 (((s.part n).counted.getD q none).getD 0)))) ∧
    ((s.part n).answers = false → ∀ v, exec (.plcmdLoad n) s = .next s ∧ exec (.bkcmdWrite n v) s = .next s) ∧
    ((s.part n).answers = true → (s.part n).plBusy = false →
      (s.ioRead n (s.part n).pladdr.toNat 4755 = none → exec (.plcmdLoad n) s = .next (s.modPart n fun p => { p with plcode := 1 })) ∧
      ∀ b, s.ioRead n (s.part n).pladdr.toNat 4755 = some b → ∃ c t, PolicyCode (s.part n) b c ∧ exec (.plcmdLoad n) s = .next t ∧
        (t.part n).plcode = BitVec.ofNat 8 c ∧
        (c = 0 → (t.part n).serial = BitVec.ofNat 64 (polDword b 1) ∧ (t.part n).pldig = sha3_512 (b.take 128) ∧
          ∀ k, k < 6 → (t.part n).classes.getD k 0 = BitVec.ofNat 64 (polDword b (2 + k))) ∧
        (c ≠ 0 → (t.part n).serial = (s.part n).serial ∧ (t.part n).pldig = (s.part n).pldig ∧ (t.part n).classes = (s.part n).classes)) ∧
    ((s.part n).answers = true → ∀ w e x c, s.ioDword n (s.part n).bklist.toNat = some w → s.elem? e = some x → x.l.n = n →
      Sys2Proof.fld w 58 6 = x.reg → Sys2Proof.fld w 52 6 = x.col → Sys2Proof.fld w 46 6 = x.row →
      (∀ g, s.region? x.rref = some g → g.out = false) → x.cur.ctxs[Sys2Proof.fld w 44 2]? = some (some c) → w.testBit 43 = false →
      ∃ t y d, exec (.bkcmdWrite n 1) s = .next t ∧ t.elem? e = some y ∧ y.cur.ctxs[Sys2Proof.fld w 44 2]? = some (some d) ∧
        d.body.brk = setAt c.body.brk (Sys2Proof.fld w 37 6) (w.testBit 0) ∧ d.body.words = c.body.words ∧ d.epi = c.epi ∧ y.cur.regs = x.cur.regs) ∧
    ((s.part n).enable = true → (s.part n).peerIn = [] → ∀ (tok : Dword) (data : List Byte) (f : Found) (t : State),
      let off := tok.toNat % 2 ^ 48
      let u := fun put bs => s.modPart n fun p => { p with peerIn := [⟨tok, put, bs, data.length, 0, .no, []⟩] }
      let place : Place := .obj (tok.toNat / 2 ^ 48) off
      let found := fun put bs => ((u put bs).unitChk n (.eng n 64) (some place) data.length put).bind fun _ v => v.findPlace n (.eng n 64) place data.length put
      data ≠ [] → data.length ≤ 128 - off % 128 → (∃ h v, t.pinFound n [f] [] = .ok h v) →
      (found true data = .ok f t → (t.part n).peerIn = ((u true data).part n).peerIn →
        ∃ v, exec (.peerLinkTransfer n tok.toNat true data 0) s = .next v ∧ v.mem = (t.writeFound n f data).mem ∧ (v.part n).peerIn = []) ∧
      (found false [] = .ok f t → (t.part n).peerIn = ((u false []).part n).peerIn →
        ∃ v, exec (.peerLinkTransfer n tok.toNat false [] data.length) s = .next v ∧ v.mem = t.mem ∧
          v.peerOut = t.peerOut ++ [⟨1024, n, tok, true, data.length, t.readFound n f data.length⟩] ∧ (v.part n).peerIn = []))

open Sys2Proof Sys2Proof.Machine Sys2Proof.Claims in
/-- REGISTER_WRITE stores the fields of a partition's page, of the partition table and of the operator's rings: a page's registers only while the
partition is enabled and no reset is under way, and only by accesses of 8 bytes at multiples of 8; the table's only while it is not enabled; bits
that FCCMD does not name are ignored (R6, R419, R424, R425, R454); what is written there reads back, in TTINV and MTINV beside BUSY; a
word in a register that acts does what the event of that register does: the bases and tails of the chains, FCCMD, GSCMD, ENCMD, TTINV, MTINV,
PMINV, BKCMD, PLCMD (R220, R237, R313, R334, R372, R381, R441). OCVAL is all ones for what the policy hides and EQTOTAL for the
partition's energy (R451, R454).
What the model chose or inferred in it: log 60, 72. -/
def Obligations.RegistersWritten : Prop :=
  ∀ (s : State) (n v : Nat),
    ((s.part n).answers = true → ∀ q ∈ pageRegisters v, exec (.registerWrite ⟨.page n, 8⟩ q.1 v) s = .next (s.modPart n q.2)) ∧
    ((s.part n).answers = true → ∀ q ∈ pageReadBack v, ∃ t, exec (.registerWrite ⟨.page n, 8⟩ q.1 v) s = .next t ∧ t.readReg (.page n) q.1 8 = q.2) ∧
    (∀ w off, (w ≠ 8 ∨ off % 8 ≠ 0 → exec (.registerWrite ⟨.page n, w⟩ off v) s = .next s) ∧ (w ≠ 8 → s.readReg (.page n) off w = 0)) ∧
    ((s.part n).answers = true → ∀ q seq k hi lo, q < 8 → seq < 2 ^ 32 → k < 64 → hi < 2 ^ 16 → lo < 2 ^ 5 →
      let w := 2 ^ 46 * hi + 2 ^ 40 * k + 2 ^ 35 * lo + 2 ^ 32 * q + seq
      exec (.registerWrite ⟨.page n, 8⟩ 0x228 w) s = exec (.fccmdResume n q seq k) s ∧
      exec (.registerWrite ⟨.page n, 8⟩ 0x228 (2 ^ 62 + w)) s = exec (.fccmdEnd n q seq k) s) ∧
    ((s.part n).answers = true → v < 2 ^ 64 → 2 ^ 63 ≤ v → exec (.registerWrite ⟨.page n, 8⟩ 0x228 v) s = .next s) ∧
    ((s.part n).answers = true → exec (.registerWrite ⟨.page n, 8⟩ 0x000 v) s = exec (.lcbaseWrite n v) s ∧
      exec (.registerWrite ⟨.page n, 8⟩ 0x008 v) s = exec (.lctailWrite n v) s ∧ exec (.registerWrite ⟨.page n, 8⟩ 0x110 v) s = exec (.ttinvWrite n v) s ∧
      exec (.registerWrite ⟨.page n, 8⟩ 0x308 v) s = exec (.mtinvWrite n v) s ∧ exec (.registerWrite ⟨.page n, 8⟩ 0x318 v) s = exec (.gsbaseWrite n v) s ∧
      exec (.registerWrite ⟨.page n, 8⟩ 0x320 v) s = exec (.gstailWrite n v) s ∧ exec (.registerWrite ⟨.page n, 8⟩ 0x408 v) s = exec (.pminvWrite n v) s ∧
      exec (.registerWrite ⟨.page n, 8⟩ 0x630 v) s = exec (.bkcmdWrite n v) s ∧
      exec (.registerWrite ⟨.page n, 8⟩ 0x640 v) s = (if v % 2 = 1 then exec (.plcmdLoad n) s else .next s) ∧
      exec (.registerWrite ⟨.page n, 8⟩ 0x340 v) s =
        (if v % 4 = 2 then exec (.gscmdSkip n) s else if v % 4 = 3 then exec (.gscmdRetry n) s else .next s) ∧
      ∀ g, g < 64 → exec (.registerWrite ⟨.page n, 8⟩ (0x800 + 64 * g) v) s = exec (.enbaseWrite n g v) s ∧
        exec (.registerWrite ⟨.page n, 8⟩ (0x808 + 64 * g) v) s = exec (.entailWrite n g v) s ∧
        exec (.registerWrite ⟨.page n, 8⟩ (0x828 + 64 * g) v) s =
          (if v % 4 = 0 then exec (.encmdPause n g) s else if v % 4 = 1 then exec (.encmdResume n g) s
           else if v % 4 = 2 then exec (.encmdSkip n g) s else exec (.encmdRetry n g) s)) ∧
    ((s.part n).answers = true → ∀ w : BitVec 17, ((s.part n).ttBusy = false → ∃ t, exec (.ttinvWrite n w.toNat) s = .next t ∧
        t.readReg (.page n) 0x110 8 = 2 ^ 31 + w.toNat) ∧
      ((s.part n).mtBusy = false → ∃ t, exec (.mtinvWrite n w.toNat) s = .next t ∧
        t.readReg (.page n) 0x308 8 = 2 ^ 31 + (w.toNat % 4096 + if w.toNat.testBit 16 then 2 ^ 16 else 0))) ∧
    ((s.part n).answers = false → ∀ off, exec (.registerWrite ⟨.page n, 8⟩ off v) s = .next s ∧ s.readReg (.page n) off 8 = 0) ∧
    ((s.part n).enable = true → ∀ off ∈ [0x00, 0x08, 0x10, 0x18], exec (.registerWrite ⟨.table n, 8⟩ off v) s = .next s) ∧
    ((s.part n).enable = false → exec (.registerWrite ⟨.table n, 8⟩ 0x00 v) s = .next (s.modPart n fun p => { p with depots := BitVec.ofNat 32 v }) ∧
      exec (.registerWrite ⟨.table n, 8⟩ 0x08 v) s = .next (s.modPart n fun p => { p with pasid := BitVec.ofNat 20 v }) ∧
      exec (.registerWrite ⟨.table n, 8⟩ 0x10 v) s = .next (s.modPart n fun p => { p with node := BitVec.ofNat 16 v })) ∧
    exec (.registerWrite ⟨.table n, 8⟩ 0x28 v) s = .next (s.modPart n fun p => { p with keyAddr := BitVec.ofNat 64 v }) ∧
    (∀ k page, (s.part n).answers = true → (s.part n).pageList[k]? = some page →
      ((∃ l ∈ (s.part n).launches, page ∈ l.pages) → exec (.registerWrite ⟨.page n, 8⟩ (0x2000 + 16 * k) v) s = .next s) ∧
      ((∀ l ∈ (s.part n).launches, page ∉ l.pages) → exec (.registerWrite ⟨.page n, 8⟩ (0x2000 + 16 * k) v) s =
        .next (s.modPage page fun g => { g with resw := if 12 ≤ v % 16 then 12 else BitVec.ofNat 4 v }))) ∧
    exec (.registerWrite ⟨.device, 8⟩ 0x20 v) s = .next { s with mgmt := { s.mgmt with of := { s.mgmt.of with rd := BitVec.ofNat 32 v } } } ∧
    exec (.registerWrite ⟨.device, 8⟩ 0x28 v) s = .next { s with mgmt := { s.mgmt with ot := { s.mgmt.ot with rd := BitVec.ofNat 32 v } } } ∧
    ∃ t, exec .ocvalRead s = .next t ∧ t.mem = s.mem ∧ t.elems = s.elems ∧
      (ocCls s.mgmt.ocsel = 2 → ocUnit s.mgmt.ocsel = 0xFFFF → t.mgmt.ocval = (s.part (ocPart s.mgmt.ocsel)).eqtotal) ∧
      (4 < ocCls s.mgmt.ocsel ∨ (ocCls s.mgmt.ocsel ≠ 2 ∧ (s.part (ocPart s.mgmt.ocsel)).gran (ocPolicy (ocCls s.mgmt.ocsel)) = 0) →
        t.mgmt.ocval = BitVec.allOnes 64)

open Sys2Proof Sys2Proof.Machine Sys2Proof.Claims in
/-- Starts, recovery, attestation, alarms and the loss of power: a start empties the part and counts itself; the fourth in a row that has not succeeded, or one without
a seed, goes into recovery, which a verified image leaves, unless the derivation of its keys fails (code 0x03), and in which one that is not verified gives
code 0x02; a report is made after a start that succeeded, and under ALARM 2, but under ALARM 3 none; every alarm is logged, and those of class 2 and 3 halt
every partition and erase keys (R457 to R463).
What the model chose or inferred in it: log 62, 73, 124. -/
def Obligations.StartsAndAlarms : Prop :=
  ∀ (s : State),
    (s.mgmt.power = false → ∃ t, exec .powerOn s = .next t ∧ Emptied t ∧ t.mgmt.power = true ∧ t.mgmt.failed = s.mgmt.failed + 1 ∧
      t.mgmt.alarm = 0 ∧ t.mgmt.starting = (if 3 ≤ s.mgmt.failed ∨ s.mgmt.seed = false then 3 else 1) ∧ t.mem = s.mem) ∧
    (s.mgmt.power = true →
      exec .powerOn s = .next s ∧
      (∃ t, exec .resetPin s = .next t ∧ exec .stcmdReset s = .next t ∧ Emptied t ∧ t.mgmt.failed = s.mgmt.failed + 1 ∧
        t.mgmt.alarm = s.mgmt.alarm ∧ t.mgmt.starting = if 3 ≤ s.mgmt.failed ∨ s.mgmt.seed = false then 3 else 2) ∧
      (∀ image, (s.mgmt.recov = false ∨ s.mgmt.seed = false → exec (.recoveryImage image) s = .next s) ∧
        (s.mgmt.recov = true → s.mgmt.seed = true →
          (Config.firmwareOk image = false → exec (.recoveryImage image) s = .next { s with mgmt := { s.mgmt with code := 2 } }) ∧
          (Config.firmwareOk image = true →
            (∃ t, exec (.recoveryImage image) s = .next t ∧ t.mgmt = { s.mgmt with code := 3 } ∧ t.parts = s.parts ∧ t.mem = s.mem) ∨
            ∃ t, exec (.recoveryImage image) s = .next t ∧ Emptied t ∧ t.mgmt.fwImage = image ∧ t.mgmt.failed = 1 ∧ t.mgmt.starting = 1))) ∧
      (∀ nonce dst, (s.mgmt.alarm = 3 → exec (.attestationRequest nonce dst) s = .next s) ∧
        (s.mgmt.alarm ≠ 3 → s.mgmt.starting = 0 → (s.mgmt.alarm = 2 ∨ (s.mgmt.code = 0 ∧ s.mgmt.recov = false)) → s.parts.length = 32 →
          ∃ m, exec (.attestationRequest nonce dst) s = .next { s with mmem := m } ∧ (s.mmem.wf = true →
            (∀ k, k < 64 → m.get (dst + k) = nonce.getD k 0) ∧
            (∀ k, k < 8 → m.get (dst + 192 + k) = BitVec.ofNat 8 ((s.mgmt.svn.toNat * 2 ^ 32 + s.mgmt.alarm.toNat * 8 + s.mgmt.kind.toNat) / 256 ^ k)) ∧
            ∀ a, (a < dst ∨ dst + 6875 ≤ a) → m.get a = s.mmem.get a))) ∧
      (∃ t, exec .alarmClass1 s = .next t ∧ t.parts = s.parts ∧ t.elems = s.elems ∧ t.mgmt.alarm = (if s.mgmt.alarm = 0 then 1 else s.mgmt.alarm) ∧
        t.mgmt.irqs = s.mgmt.irqs + 1 ∧ t.mgmt.alarms = s.mgmt.alarms ++ [1] ∧ t.mgmt.starting = 0 ∧
        t.mgmt.code = if s.mgmt.starting = 0 then s.mgmt.code else 8) ∧
      ((∀ n, Idle s n) → (∀ q ∈ s.elems, (s.part q.2.l.n).enable = true ∧ ∃ l ∈ (s.part q.2.l.n).launches, l.ref = q.2.l) →
        (∃ t, exec .alarmClass2 s = .next t ∧ t.elems = [] ∧ (∀ p ∈ t.parts, p.memKey = none) ∧ t.mgmt.sessions = false ∧
          t.mgmt.alarm = (if s.mgmt.alarm = 3 then 3 else 2) ∧ t.mgmt.seed = s.mgmt.seed ∧ t.mgmt.alarms = s.mgmt.alarms ++ [2] ∧
          ∀ n, n < s.parts.length → (s.part n).enable = true → (t.part n).launches = []) ∧
        ∃ t, exec .alarmClass3 s = .next t ∧ t.elems = [] ∧ (∀ p ∈ t.parts, p.memKey = none) ∧ t.mgmt.sessions = false ∧ t.mgmt.alarm = 3 ∧
          t.mgmt.seed = false ∧ t.mgmt.alarms = s.mgmt.alarms ++ [3])) ∧
    ∃ t, exec .powerLoss s = .next t ∧ Emptied t ∧ t.mgmt.power = false ∧ t.mgmt.failed = s.mgmt.failed ∧ t.mgmt.seed = s.mgmt.seed ∧
      t.mgmt.fwImage = s.mgmt.fwImage ∧ t.mgmt.alarm = 0

open Sys2Proof Sys2Proof.Machine Sys2Proof.Claims in
/-- What reset leaves: no partition is enabled, no launch runs, memory lists nothing, the cap is 2,800 W, ALARM and the start code are 0, no alarm is
logged, and every register of a partition's page, of its engines and of the graph sequencer has the reset value that its table gives (R220, R237, R260, R313,
R331, R372, R381, R422, R424, R427, R430, R441, R443, R445); the operator's rings and PTCTL too (R419, R426, R454, R458).
What the model chose or inferred in it: log 1, 8. -/
def Obligations.ResetValues : Prop :=
  State.reset.mem = [] ∧ State.reset.mem.wf = true ∧ State.reset.mmem.wf = true ∧ State.reset.elems = [] ∧ State.reset.parts.length = 32 ∧
  State.reset.pages.length = 256 ∧ (∀ p ∈ State.reset.pages, p.resw = 0 ∧ p.lines = [] ∧ p.vdir = [] ∧ p.energy = 0) ∧
  State.reset.mgmt.cap = 2800 ∧ State.reset.mgmt.alarm = 0 ∧ State.reset.mgmt.alarms = [] ∧ State.reset.mgmt.code = 0 ∧
  State.reset.mgmt.kind = 1 ∧ State.reset.mgmt.fsum = 0 ∧ State.reset.mgmt.ocsel = 0 ∧
  (∀ r ∈ [State.reset.mgmt.of, State.reset.mgmt.ot], r.base = 0 ∧ r.size = 4 ∧ r.wr = 0 ∧ r.rd = 0 ∧ r.drop = 0) ∧
  ∀ p ∈ State.reset.parts, p.enable = false ∧ p.err = false ∧ p.busy = false ∧ p.launches = [] ∧ p.depots = 0 ∧ p.pasid = 0 ∧ p.node = 0 ∧
    p.lshare = 0 ∧ p.keyAddr = 0 ∧
    (p.lcbase = 0 ∧ p.lctail = 0 ∧ p.lchead = 0 ∧ p.lqpri = 0 ∧ p.qseq = List.replicate 8 0 ∧ p.lcBack = false ∧ p.lcCflt = false ∧ p.arq = 0) ∧
    (p.ttbase = 0 ∧ p.ttlim = 0 ∧ p.ttArg = 0 ∧ p.ttBusy = false ∧ p.fwlim = 0 ∧ p.pralloc = 0 ∧ p.prout = 0 ∧ p.fwx = false) ∧
    (p.fcbase = 0 ∧ p.fcsize = 4 ∧ p.fcwr = 0 ∧ p.fcrd = 0 ∧ p.fclost = 0) ∧
    (p.mtbase = 0 ∧ p.mtArg = 0 ∧ p.mtBusy = false ∧ p.cvpool = 0 ∧ p.gs.base = 0 ∧ p.gs.tail = 0 ∧ p.gs.head = 0 ∧ p.gs.seq = 0 ∧
      p.gs.back = false ∧ p.gs.cflt = false ∧ p.gs.stop = false) ∧
    (p.pmbase = 0 ∧ p.pmBusy = false ∧ p.lktab = 0) ∧
    (p.flq = List.replicate 8 0 ∧ p.eqper = 30 ∧ p.equota = 0 ∧ p.eqiter = 0 ∧ p.eqspent = 0 ∧ p.eqdebt = 0 ∧ p.eqtotal = 0 ∧ p.mgstat = 0) ∧
    (p.trbase = 0 ∧ p.trctl = 4 ∧ p.trwr = 0 ∧ p.trrd = 0 ∧ p.trdrop = 0 ∧ p.bklist = 0 ∧ p.bkBusy = false ∧ p.pladdr = 0 ∧ p.plBusy = false ∧
      p.plcode = 0 ∧ p.pldig = List.replicate 64 0 ∧ p.classes = List.replicate 6 0) ∧
    (p.prng = List.replicate 8 0 ∧ p.prlim = List.replicate 8 0) ∧
    ∀ g, let e := p.eng g
      e.base = 0 ∧ e.tail = 0 ∧ e.head = 0 ∧ e.seq = 0 ∧ e.stat = 0

open Sys2Proof Sys2Proof.Machine Sys2Proof.Claims in
/-- THE INVARIANT OF MEMORY. Every step keeps the memory of the host and that of management in their canonical form, from every state in which they
have it, so that equal memories stay equal data.
What the model chose or inferred in it: log 5. -/
def Obligations.MemoryStaysCanonical : Prop :=
  ∀ (s t : State), s.mem.wf = true → s.mmem.wf = true → step s = .next t → t.mem.wf = true ∧ t.mmem.wf = true
end

