-- ==== Sys2Proof/Laws/Bits.lean ====
section
/-! SUPPORT. Elements of a payload as slices of its bits, and what a payload built from a list holds. -/

namespace Sys2Proof.Laws

open Sys2Proof Sys2Proof.Machine

/-- Element `j` of width `w` as bits. -/
theorem elAt_eq (w : Nat) (p : Payload) (j : Nat) : elAt w p j = (p.extractLsb' (w * j) w).toNat := by
  simp [elAt, BitVec.extractLsb'_toNat, Nat.shiftRight_eq_div_pow]

theorem elAt_lt (w : Nat) (p : Payload) (j : Nat) : elAt w p j < 2 ^ w := Nat.mod_lt _ (Nat.two_pow_pos w)

@[simp] theorem elAt_mod (w : Nat) (p : Payload) (j : Nat) : elAt w p j % 2 ^ w = elAt w p j :=
  Nat.mod_eq_of_lt (elAt_lt w p j)

theorem packNat_lt (w : Nat) (xs : List Nat) : packNat w xs < 2 ^ (w * xs.length) := by
  induction xs with
  | nil => simp [packNat]
  | cons x xs ih =>
    have h1 : x % 2 ^ w < 2 ^ w := Nat.mod_lt _ (Nat.two_pow_pos w)
    simp only [packNat, List.length_cons, Nat.mul_add, Nat.mul_one, Nat.pow_add]
    have h2 : packNat w xs + 1 ≤ 2 ^ (w * xs.length) := ih
    have h3 := Nat.mul_le_mul_left (2 ^ w) h2
    rw [Nat.mul_add, Nat.mul_one] at h3
    rw [Nat.mul_comm (2 ^ (w * xs.length))]
    omega

/-- Entry `j` of a packed list. -/
theorem packNat_entry (w : Nat) (xs : List Nat) (j : Nat) : packNat w xs / 2 ^ (w * j) % 2 ^ w = xs.getD j 0 % 2 ^ w := by
  induction xs generalizing j with
  | nil => simp [packNat]
  | cons x xs ih =>
    have hw := Nat.two_pow_pos w
    cases j with
    | zero => simp [packNat, Nat.add_mod]
    | succ n =>
      have h1 : x % 2 ^ w < 2 ^ w := Nat.mod_lt _ hw
      rw [packNat, Nat.mul_add, Nat.mul_one, Nat.add_comm (w * n) w, Nat.pow_add, ← Nat.div_div_eq_div_mul,
        Nat.add_mul_div_left _ _ hw, Nat.div_eq_of_lt h1, Nat.zero_add, ih]
      simp

/-- Element `j` of a payload built from a list that fits is the list's entry; behind the list it is 0. -/
theorem elAt_ofEls (w : Nat) (xs : List Nat) (j : Nat) (h : w * xs.length ≤ 512) : elAt w (ofEls w xs) j = xs.getD j 0 % 2 ^ w := by
  have hlt : packNat w xs < 2 ^ 512 := Nat.lt_of_lt_of_le (packNat_lt w xs) (Nat.pow_le_pow_right (by decide) h)
  rw [elAt, ofEls, BitVec.toNat_ofNat, Nat.mod_eq_of_lt hlt, packNat_entry]

theorem extract_ofEls (w : Nat) (xs : List Nat) (j : Nat) (h : w * xs.length ≤ 512) :
    (ofEls w xs).extractLsb' (w * j) w = BitVec.ofNat w (xs.getD j 0) := by
  apply BitVec.eq_of_toNat_eq
  rw [← elAt_eq, elAt_ofEls w xs j h, BitVec.toNat_ofNat]

/-- Bits above the entries of a payload built from a list are 0. -/
theorem ofEls_high (w : Nat) (xs : List Nat) (i : Nat) (hi : w * xs.length ≤ i) : (ofEls w xs).getLsbD i = false := by
  rw [ofEls, BitVec.getLsbD_ofNat]
  have h1 : packNat w xs < 2 ^ i := Nat.lt_of_lt_of_le (packNat_lt w xs) (Nat.pow_le_pow_right (by decide) hi)
  simp [Nat.testBit_lt_two_pow h1]

/-- The elements of width `w` that a payload has, packed again. -/
theorem getD_map_range {α : Type} (f : Nat → α) (n j : Nat) (d : α) (h : j < n) : ((List.range n).map f).getD j d = f j := by
  simp [List.getD, h]

end Sys2Proof.Laws
end

