-- ==== Sys2Proof/Laws/Encoding.lean ====
section
/-! SUPPORT. Decoding what the encoder wrote: each code of a field decodes to what it stands for, each layout gives its fields back, and
each row of the opcode map is found. -/

namespace Sys2Proof.Laws

open Sys2Proof

/-! ### Codes -/

theorem Pm_lt (q : Pm) : q.code < 3 := by cases q <;> decide
@[simp] theorem Pm_dec (q : Pm) : decPm q.code = .ok q := by cases q <;> rfl
theorem Port_lt (q : Port) : q.code < 4 := by cases q <;> decide
@[simp] theorem Port_dec (q : Port) : decPort q.code = q := by cases q <;> rfl
theorem Shape_lt (q : Shape) : q.code < 4 := by cases q <;> decide
@[simp] theorem Shape_dec (q : Shape) : decShape q.code = q := by cases q <;> rfl
theorem Cond_lt (q : Cond) : q.code < 10 := by cases q <;> decide
@[simp] theorem Cond_dec (q : Cond) : decCond q.code = .ok q := by cases q <;> rfl
theorem FFmt_lt (q : FFmt) : q.code < 3 := by cases q <;> decide
@[simp] theorem FFmt_dec (q : FFmt) : decFFmt q.code = .ok q := by cases q <;> rfl
theorem Fmt_lt (q : Fmt) : q.code < 10 := by cases q <;> decide
@[simp] theorem Fmt_dec (q : Fmt) : decFmt q.code = .ok q := by cases q <;> rfl
theorem Rm_lt (q : Rm) : q.code < 4 := by cases q <;> decide
@[simp] theorem Rm_dec (q : Rm) : decRm q.code = q := by cases q <;> rfl
theorem RedOp_lt (q : RedOp) : q.code < 12 := by cases q <;> decide
@[simp] theorem RedOp_dec (q : RedOp) : decRedOp q.code = .ok q := by cases q <;> rfl
theorem Width_lt (q : Width) : q.code < 4 := by cases q <;> decide
@[simp] theorem Width_dec (q : Width) : decWidth q.code = q := by cases q <;> rfl
theorem Scope_lt (q : Scope) : q.code < 8 := by cases q <;> decide
@[simp] theorem Scope_dec (q : Scope) : decScope q.code = .ok q := by cases q <;> rfl
theorem Ord_lt (q : Ord) : q.code < 4 := by cases q <;> decide
@[simp] theorem Ord_dec (q : Ord) : decOrd q.code = q := by cases q <;> rfl
theorem Path_lt (q : Path) : q.code < 8 := by cases q <;> decide
@[simp] theorem Path_dec (q : Path) : decPath q.code = .ok q := by cases q <;> rfl

theorem Bool_lt (u : Bool) : u.toNat < 2 := by cases u <;> decide
@[simp] theorem Bool_dec (u : Bool) : decBool u.toNat = u := by cases u <;> rfl

theorem Tgt_lt (a : Tgt) : a.code < 512 := by
  cases a with
  | slot s q =>
    have := Port_lt q
    have := s.isLt
    simp only [Tgt.code]
    omega
  | out o =>
    have := o.isLt
    simp only [Tgt.code]
    omega
  | done => decide
  | none => decide

@[simp] theorem Tgt_dec (a : Tgt) : decTgt a.code = .ok a := by
  cases a with
  | slot s q =>
    have h := Port_lt q
    have hs := s.isLt
    have h1 : s.toNat * 4 + q.code < 256 := by omega
    have h2 : (s.toNat * 4 + q.code) / 4 = s.toNat := by omega
    have h3 : (s.toNat * 4 + q.code) % 4 = q.code := by omega
    simp [Tgt.code, decTgt, h1, h2, h3]
  | out o =>
    have h := o.isLt
    have h1 : ¬ 256 + o.toNat < 256 := by omega
    have h2 : 256 + o.toNat < 264 := by omega
    have h3 : (256 + o.toNat) % 8 = o.toNat := by omega
    simp [Tgt.code, decTgt, h1, h2, h3]
  | done => rfl
  | none => rfl

theorem Dst_lt (d : Dst) : d.code < 512 := by
  cases d with
  | tgt a => exact Tgt_lt a
  | reg v => exact v.isLt

theorem Dst_form_lt (d : Dst) : d.form < 2 := by cases d <;> simp [Dst.form]

@[simp] theorem Dst_dec (d : Dst) : decDst d.form d.code = .ok d := by
  cases d with
  | tgt a =>
    simp [Dst.form, Dst.code, decDst]
  | reg v => simp [Dst.form, Dst.code, decDst]

theorem tile_dec (t : BitVec 9) : BitVec.ofNat 9 (t.toNat % 256 + 256 * (t.toNat / 256)) = t := by
  rw [Nat.mod_add_div]
  simp

/-- A requirement that is met. -/
@[simp] theorem need_true {c : Prop} [Decidable c] (h : c) : need c = .ok () := by simp [need, h]

/-! ### Layouts -/

theorem dec_PSHUAB {m0 op : Nat} (p : Pm) (sh : Shape) (u : Bool) (a : Tgt) (b : Tgt) (k0 : Pm → Shape → Bool → Tgt → Tgt → Instr) (h0 : m0 = encPSHUAB op p sh u a b) :
    decPSHUAB m0 k0 = .ok (k0 p sh u a b) ∧ m0 / 2 ^ 24 = op := by
  have b0 := Pm_lt p
  have b1 := Shape_lt sh
  have b2 := Bool_lt u
  have b3 := Tgt_lt a
  have b4 := Tgt_lt b
  unfold encPSHUAB at h0
  have f0 : fld m0 0 9 = b.code := by
    unfold fld
    omega
  have f9 : fld m0 9 9 = a.code := by
    unfold fld
    omega
  have f18 : fld m0 18 1 = u.toNat := by
    unfold fld
    omega
  have f19 : fld m0 19 1 = 0 := by
    unfold fld
    omega
  have f20 : fld m0 20 2 = sh.code := by
    unfold fld
    omega
  have f22 : fld m0 22 2 = p.code := by
    unfold fld
    omega
  refine ⟨?_, by omega⟩
  simp [decPSHUAB, f0, f9, f18, f19, f20, f22]
  rfl

theorem dec_PCAB {m0 op : Nat} (p : Pm) (c : Cond) (a : Tgt) (b : Tgt) (k0 : Pm → Cond → Tgt → Tgt → Instr) (h0 : m0 = encPCAB op p c a b) :
    decPCAB m0 k0 = .ok (k0 p c a b) ∧ m0 / 2 ^ 24 = op := by
  have b0 := Pm_lt p
  have b1 := Cond_lt c
  have b2 := Tgt_lt a
  have b3 := Tgt_lt b
  unfold encPCAB at h0
  have f0 : fld m0 0 9 = b.code := by
    unfold fld
    omega
  have f9 : fld m0 9 9 = a.code := by
    unfold fld
    omega
  have f18 : fld m0 18 4 = c.code := by
    unfold fld
    omega
  have f22 : fld m0 22 2 = p.code := by
    unfold fld
    omega
  refine ⟨?_, by omega⟩
  simp [decPCAB, f0, f9, f18, f22]
  rfl

theorem dec_PAB {m0 op : Nat} (p : Pm) (a : Tgt) (b : Tgt) (k0 : Pm → Tgt → Tgt → Instr) (h0 : m0 = encPAB op p a b) :
    decPAB m0 k0 = .ok (k0 p a b) ∧ m0 / 2 ^ 24 = op := by
  have b0 := Pm_lt p
  have b1 := Tgt_lt a
  have b2 := Tgt_lt b
  unfold encPAB at h0
  have f0 : fld m0 0 9 = b.code := by
    unfold fld
    omega
  have f9 : fld m0 9 9 = a.code := by
    unfold fld
    omega
  have f18 : fld m0 18 4 = 0 := by
    unfold fld
    omega
  have f22 : fld m0 22 2 = p.code := by
    unfold fld
    omega
  refine ⟨?_, by omega⟩
  simp [decPAB, f0, f9, f18, f22]
  rfl

theorem dec_PSHOUAB {m0 op : Nat} (p : Pm) (sh : Shape) (o : Bool) (u : Bool) (a : Tgt) (b : Tgt) (k0 : Pm → Shape → Bool → Bool → Tgt → Tgt → Instr) (h0 : m0 = encPSHOUAB op p sh o u a b) :
    decPSHOUAB m0 k0 = .ok (k0 p sh o u a b) ∧ m0 / 2 ^ 24 = op := by
  have b0 := Pm_lt p
  have b1 := Shape_lt sh
  have b2 := Bool_lt o
  have b3 := Bool_lt u
  have b4 := Tgt_lt a
  have b5 := Tgt_lt b
  unfold encPSHOUAB at h0
  have f0 : fld m0 0 9 = b.code := by
    unfold fld
    omega
  have f9 : fld m0 9 9 = a.code := by
    unfold fld
    omega
  have f18 : fld m0 18 1 = u.toNat := by
    unfold fld
    omega
  have f19 : fld m0 19 1 = o.toNat := by
    unfold fld
    omega
  have f20 : fld m0 20 2 = sh.code := by
    unfold fld
    omega
  have f22 : fld m0 22 2 = p.code := by
    unfold fld
    omega
  refine ⟨?_, by omega⟩
  simp [decPSHOUAB, f0, f9, f18, f19, f20, f22]
  rfl

theorem dec_PUAB {m0 op : Nat} (p : Pm) (u : Bool) (a : Tgt) (b : Tgt) (k0 : Pm → Bool → Tgt → Tgt → Instr) (h0 : m0 = encPUAB op p u a b) :
    decPUAB m0 k0 = .ok (k0 p u a b) ∧ m0 / 2 ^ 24 = op := by
  have b0 := Pm_lt p
  have b1 := Bool_lt u
  have b2 := Tgt_lt a
  have b3 := Tgt_lt b
  unfold encPUAB at h0
  have f0 : fld m0 0 9 = b.code := by
    unfold fld
    omega
  have f9 : fld m0 9 9 = a.code := by
    unfold fld
    omega
  have f18 : fld m0 18 1 = u.toNat := by
    unfold fld
    omega
  have f19 : fld m0 19 3 = 2 := by
    unfold fld
    omega
  have f22 : fld m0 22 2 = p.code := by
    unfold fld
    omega
  refine ⟨?_, by omega⟩
  simp [decPUAB, f0, f9, f18, f19, f22]
  rfl

theorem dec_PIA {m0 op : Nat} (p : Pm) (i : BitVec 13) (a : Tgt) (k0 : Pm → BitVec 13 → Tgt → Instr) (h0 : m0 = encPIA op p i a) :
    decPIA m0 k0 = .ok (k0 p i a) ∧ m0 / 2 ^ 24 = op := by
  have b0 := Pm_lt p
  have b1 := i.isLt
  have b2 := Tgt_lt a
  unfold encPIA at h0
  have f0 : fld m0 0 9 = a.code := by
    unfold fld
    omega
  have f9 : fld m0 9 13 = i.toNat := by
    unfold fld
    omega
  have f22 : fld m0 22 2 = p.code := by
    unfold fld
    omega
  refine ⟨?_, by omega⟩
  simp [decPIA, f0, f9, f22]
  rfl

theorem dec_PNA {m0 op : Nat} (p : Pm) (n : BitVec 5) (a : Tgt) (k0 : Pm → BitVec 5 → Tgt → Instr) (h0 : m0 = encPNA op p n a) :
    decPNA m0 k0 = .ok (k0 p n a) ∧ m0 / 2 ^ 24 = op := by
  have b0 := Pm_lt p
  have b1 := n.isLt
  have b2 := Tgt_lt a
  unfold encPNA at h0
  have f0 : fld m0 0 9 = a.code := by
    unfold fld
    omega
  have f9 : fld m0 9 5 = n.toNat := by
    unfold fld
    omega
  have f14 : fld m0 14 8 = 0 := by
    unfold fld
    omega
  have f22 : fld m0 22 2 = p.code := by
    unfold fld
    omega
  refine ⟨?_, by omega⟩
  simp [decPNA, f0, f9, f14, f22]
  rfl

theorem dec_PCVA {m0 op : Nat} (p : Pm) (c : Cond) (v : BitVec 9) (a : Tgt) (k0 : Pm → Cond → BitVec 9 → Tgt → Instr) (h0 : m0 = encPCVA op p c v a) :
    decPCVA m0 k0 = .ok (k0 p c v a) ∧ m0 / 2 ^ 24 = op := by
  have b0 := Pm_lt p
  have b1 := Cond_lt c
  have b2 := v.isLt
  have b3 := Tgt_lt a
  unfold encPCVA at h0
  have f0 : fld m0 0 9 = a.code := by
    unfold fld
    omega
  have f9 : fld m0 9 9 = v.toNat := by
    unfold fld
    omega
  have f18 : fld m0 18 4 = c.code := by
    unfold fld
    omega
  have f22 : fld m0 22 2 = p.code := by
    unfold fld
    omega
  refine ⟨?_, by omega⟩
  simp [decPCVA, f0, f9, f18, f22]
  rfl

theorem dec_PNA2 {m0 op : Nat} (p : Pm) (n : BitVec 8) (a : Tgt) (k0 : Pm → BitVec 8 → Tgt → Instr) (h0 : m0 = encPNA2 op p n a) :
    decPNA2 m0 k0 = .ok (k0 p n a) ∧ m0 / 2 ^ 24 = op := by
  have b0 := Pm_lt p
  have b1 := n.isLt
  have b2 := Tgt_lt a
  unfold encPNA2 at h0
  have f0 : fld m0 0 9 = a.code := by
    unfold fld
    omega
  have f9 : fld m0 9 5 = 0 := by
    unfold fld
    omega
  have f14 : fld m0 14 8 = n.toNat := by
    unfold fld
    omega
  have f22 : fld m0 22 2 = p.code := by
    unfold fld
    omega
  refine ⟨?_, by omega⟩
  simp [decPNA2, f0, f9, f14, f22]
  rfl

theorem dec_PNXA {m0 op : Nat} (p : Pm) (n : BitVec 8) (x : Bool) (a : Tgt) (k0 : Pm → BitVec 8 → Bool → Tgt → Instr) (h0 : m0 = encPNXA op p n x a) :
    decPNXA m0 k0 = .ok (k0 p n x a) ∧ m0 / 2 ^ 24 = op := by
  have b0 := Pm_lt p
  have b1 := n.isLt
  have b2 := Bool_lt x
  have b3 := Tgt_lt a
  unfold encPNXA at h0
  have f0 : fld m0 0 9 = a.code := by
    unfold fld
    omega
  have f9 : fld m0 9 1 = x.toNat := by
    unfold fld
    omega
  have f10 : fld m0 10 4 = 0 := by
    unfold fld
    omega
  have f14 : fld m0 14 8 = n.toNat := by
    unfold fld
    omega
  have f22 : fld m0 22 2 = p.code := by
    unfold fld
    omega
  refine ⟨?_, by omega⟩
  simp [decPNXA, f0, f9, f10, f14, f22]
  rfl

theorem dec_PSHFAB {m0 op : Nat} (p : Pm) (sh : Shape) (f : FFmt) (a : Tgt) (b : Tgt) (k0 : Pm → Shape → FFmt → Tgt → Tgt → Instr) (h0 : m0 = encPSHFAB op p sh f a b) :
    decPSHFAB m0 k0 = .ok (k0 p sh f a b) ∧ m0 / 2 ^ 24 = op := by
  have b0 := Pm_lt p
  have b1 := Shape_lt sh
  have b2 := FFmt_lt f
  have b3 := Tgt_lt a
  have b4 := Tgt_lt b
  unfold encPSHFAB at h0
  have f0 : fld m0 0 9 = b.code := by
    unfold fld
    omega
  have f9 : fld m0 9 9 = a.code := by
    unfold fld
    omega
  have f18 : fld m0 18 2 = f.code := by
    unfold fld
    omega
  have f20 : fld m0 20 2 = sh.code := by
    unfold fld
    omega
  have f22 : fld m0 22 2 = p.code := by
    unfold fld
    omega
  refine ⟨?_, by omega⟩
  simp [decPSHFAB, f0, f9, f18, f20, f22]
  rfl

theorem dec_PSTKXMA {m0 op : Nat} (p : Pm) (s : Fmt) (t : Fmt) (k : BitVec 2) (x : Bool) (m : Rm) (a : Tgt) (k0 : Pm → Fmt → Fmt → BitVec 2 → Bool → Rm → Tgt → Instr) (h0 : m0 = encPSTKXMA op p s t k x m a) :
    decPSTKXMA m0 k0 = .ok (k0 p s t k x m a) ∧ m0 / 2 ^ 24 = op := by
  have b0 := Pm_lt p
  have b1 := Fmt_lt s
  have b2 := Fmt_lt t
  have b3 := k.isLt
  have b4 := Bool_lt x
  have b5 := Rm_lt m
  have b6 := Tgt_lt a
  unfold encPSTKXMA at h0
  have f0 : fld m0 0 9 = a.code := by
    unfold fld
    omega
  have f9 : fld m0 9 2 = m.code := by
    unfold fld
    omega
  have f11 : fld m0 11 1 = x.toNat := by
    unfold fld
    omega
  have f12 : fld m0 12 2 = k.toNat := by
    unfold fld
    omega
  have f14 : fld m0 14 4 = t.code := by
    unfold fld
    omega
  have f18 : fld m0 18 4 = s.code := by
    unfold fld
    omega
  have f22 : fld m0 22 2 = p.code := by
    unfold fld
    omega
  refine ⟨?_, by omega⟩
  simp [decPSTKXMA, f0, f9, f11, f12, f14, f18, f22]
  rfl

theorem dec_PSFKUMA {m0 op : Nat} (p : Pm) (s : Fmt) (f : BitVec 4) (k : BitVec 2) (u : Bool) (m : Rm) (a : Tgt) (k0 : Pm → Fmt → BitVec 4 → BitVec 2 → Bool → Rm → Tgt → Instr) (h0 : m0 = encPSFKUMA op p s f k u m a) :
    decPSFKUMA m0 k0 = .ok (k0 p s f k u m a) ∧ m0 / 2 ^ 24 = op := by
  have b0 := Pm_lt p
  have b1 := Fmt_lt s
  have b2 := f.isLt
  have b3 := k.isLt
  have b4 := Bool_lt u
  have b5 := Rm_lt m
  have b6 := Tgt_lt a
  unfold encPSFKUMA at h0
  have f0 : fld m0 0 9 = a.code := by
    unfold fld
    omega
  have f9 : fld m0 9 2 = m.code := by
    unfold fld
    omega
  have f11 : fld m0 11 1 = u.toNat := by
    unfold fld
    omega
  have f12 : fld m0 12 2 = k.toNat := by
    unfold fld
    omega
  have f14 : fld m0 14 4 = f.toNat := by
    unfold fld
    omega
  have f18 : fld m0 18 4 = s.code := by
    unfold fld
    omega
  have f22 : fld m0 22 2 = p.code := by
    unfold fld
    omega
  refine ⟨?_, by omega⟩
  simp [decPSFKUMA, f0, f9, f11, f12, f14, f18, f22]
  rfl

theorem dec_PTFXUMA {m0 op : Nat} (p : Pm) (t : Fmt) (f : BitVec 4) (x : Bool) (u : Bool) (m : Rm) (a : Tgt) (k0 : Pm → Fmt → BitVec 4 → Bool → Bool → Rm → Tgt → Instr) (h0 : m0 = encPTFXUMA op p t f x u m a) :
    decPTFXUMA m0 k0 = .ok (k0 p t f x u m a) ∧ m0 / 2 ^ 24 = op := by
  have b0 := Pm_lt p
  have b1 := Fmt_lt t
  have b2 := f.isLt
  have b3 := Bool_lt x
  have b4 := Bool_lt u
  have b5 := Rm_lt m
  have b6 := Tgt_lt a
  unfold encPTFXUMA at h0
  have f0 : fld m0 0 9 = a.code := by
    unfold fld
    omega
  have f9 : fld m0 9 2 = m.code := by
    unfold fld
    omega
  have f11 : fld m0 11 1 = u.toNat := by
    unfold fld
    omega
  have f12 : fld m0 12 1 = x.toNat := by
    unfold fld
    omega
  have f13 : fld m0 13 1 = 0 := by
    unfold fld
    omega
  have f14 : fld m0 14 4 = f.toNat := by
    unfold fld
    omega
  have f18 : fld m0 18 4 = t.code := by
    unfold fld
    omega
  have f22 : fld m0 22 2 = p.code := by
    unfold fld
    omega
  refine ⟨?_, by omega⟩
  simp [decPTFXUMA, f0, f9, f11, f12, f13, f14, f18, f22]
  rfl

theorem dec_PSA {m0 op : Nat} (p : Pm) (s : Fmt) (a : Tgt) (k0 : Pm → Fmt → Tgt → Instr) (h0 : m0 = encPSA op p s a) :
    decPSA m0 k0 = .ok (k0 p s a) ∧ m0 / 2 ^ 24 = op := by
  have b0 := Pm_lt p
  have b1 := Fmt_lt s
  have b2 := Tgt_lt a
  unfold encPSA at h0
  have f0 : fld m0 0 9 = a.code := by
    unfold fld
    omega
  have f9 : fld m0 9 9 = 0 := by
    unfold fld
    omega
  have f18 : fld m0 18 4 = s.code := by
    unfold fld
    omega
  have f22 : fld m0 22 2 = p.code := by
    unfold fld
    omega
  refine ⟨?_, by omega⟩
  simp [decPSA, f0, f9, f18, f22]
  rfl

theorem dec_PHOUAB {m0 op : Nat} (p : Pm) (h : BitVec 2) (o : Bool) (u : Bool) (a : Tgt) (b : Tgt) (k0 : Pm → BitVec 2 → Bool → Bool → Tgt → Tgt → Instr) (h0 : m0 = encPHOUAB op p h o u a b) :
    decPHOUAB m0 k0 = .ok (k0 p h o u a b) ∧ m0 / 2 ^ 24 = op := by
  have b0 := Pm_lt p
  have b1 := h.isLt
  have b2 := Bool_lt o
  have b3 := Bool_lt u
  have b4 := Tgt_lt a
  have b5 := Tgt_lt b
  unfold encPHOUAB at h0
  have f0 : fld m0 0 9 = b.code := by
    unfold fld
    omega
  have f9 : fld m0 9 9 = a.code := by
    unfold fld
    omega
  have f18 : fld m0 18 1 = u.toNat := by
    unfold fld
    omega
  have f19 : fld m0 19 1 = o.toNat := by
    unfold fld
    omega
  have f20 : fld m0 20 2 = h.toNat := by
    unfold fld
    omega
  have f22 : fld m0 22 2 = p.code := by
    unfold fld
    omega
  refine ⟨?_, by omega⟩
  simp [decPHOUAB, f0, f9, f18, f19, f20, f22]
  rfl

theorem dec_PHUAB {m0 op : Nat} (p : Pm) (h : BitVec 2) (u : Bool) (a : Tgt) (b : Tgt) (k0 : Pm → BitVec 2 → Bool → Tgt → Tgt → Instr) (h0 : m0 = encPHUAB op p h u a b) :
    decPHUAB m0 k0 = .ok (k0 p h u a b) ∧ m0 / 2 ^ 24 = op := by
  have b0 := Pm_lt p
  have b1 := h.isLt
  have b2 := Bool_lt u
  have b3 := Tgt_lt a
  have b4 := Tgt_lt b
  unfold encPHUAB at h0
  have f0 : fld m0 0 9 = b.code := by
    unfold fld
    omega
  have f9 : fld m0 9 9 = a.code := by
    unfold fld
    omega
  have f18 : fld m0 18 1 = u.toNat := by
    unfold fld
    omega
  have f19 : fld m0 19 1 = 0 := by
    unfold fld
    omega
  have f20 : fld m0 20 2 = h.toNat := by
    unfold fld
    omega
  have f22 : fld m0 22 2 = p.code := by
    unfold fld
    omega
  refine ⟨?_, by omega⟩
  simp [decPHUAB, f0, f9, f18, f19, f20, f22]
  rfl

theorem dec_PWIA {m0 op : Nat} (p : Pm) (w : BitVec 2) (i : BitVec 6) (a : Tgt) (k0 : Pm → BitVec 2 → BitVec 6 → Tgt → Instr) (h0 : m0 = encPWIA op p w i a) :
    decPWIA m0 k0 = .ok (k0 p w i a) ∧ m0 / 2 ^ 24 = op := by
  have b0 := Pm_lt p
  have b1 := w.isLt
  have b2 := i.isLt
  have b3 := Tgt_lt a
  unfold encPWIA at h0
  have f0 : fld m0 0 9 = a.code := by
    unfold fld
    omega
  have f9 : fld m0 9 5 = 0 := by
    unfold fld
    omega
  have f14 : fld m0 14 6 = i.toNat := by
    unfold fld
    omega
  have f20 : fld m0 20 2 = w.toNat := by
    unfold fld
    omega
  have f22 : fld m0 22 2 = p.code := by
    unfold fld
    omega
  refine ⟨?_, by omega⟩
  simp [decPWIA, f0, f9, f14, f20, f22]
  rfl

theorem dec_PHAB {m0 op : Nat} (p : Pm) (h : Bool) (a : Tgt) (b : Tgt) (k0 : Pm → Bool → Tgt → Tgt → Instr) (h0 : m0 = encPHAB op p h a b) :
    decPHAB m0 k0 = .ok (k0 p h a b) ∧ m0 / 2 ^ 24 = op := by
  have b0 := Pm_lt p
  have b1 := Bool_lt h
  have b2 := Tgt_lt a
  have b3 := Tgt_lt b
  unfold encPHAB at h0
  have f0 : fld m0 0 9 = b.code := by
    unfold fld
    omega
  have f9 : fld m0 9 9 = a.code := by
    unfold fld
    omega
  have f18 : fld m0 18 2 = 0 := by
    unfold fld
    omega
  have f20 : fld m0 20 1 = h.toNat := by
    unfold fld
    omega
  have f21 : fld m0 21 1 = 1 := by
    unfold fld
    omega
  have f22 : fld m0 22 2 = p.code := by
    unfold fld
    omega
  refine ⟨?_, by omega⟩
  simp [decPHAB, f0, f9, f18, f20, f21, f22]
  rfl

theorem dec_PDFNA {m0 op : Nat} (p : Pm) (d : Bool) (f : Bool) (n : BitVec 4) (a : Tgt) (k0 : Pm → Bool → Bool → BitVec 4 → Tgt → Instr) (h0 : m0 = encPDFNA op p d f n a) :
    decPDFNA m0 k0 = .ok (k0 p d f n a) ∧ m0 / 2 ^ 24 = op := by
  have b0 := Pm_lt p
  have b1 := Bool_lt d
  have b2 := Bool_lt f
  have b3 := n.isLt
  have b4 := Tgt_lt a
  unfold encPDFNA at h0
  have f0 : fld m0 0 9 = a.code := by
    unfold fld
    omega
  have f9 : fld m0 9 5 = 0 := by
    unfold fld
    omega
  have f14 : fld m0 14 4 = n.toNat := by
    unfold fld
    omega
  have f18 : fld m0 18 1 = f.toNat := by
    unfold fld
    omega
  have f19 : fld m0 19 1 = d.toNat := by
    unfold fld
    omega
  have f20 : fld m0 20 2 = 0 := by
    unfold fld
    omega
  have f22 : fld m0 22 2 = p.code := by
    unfold fld
    omega
  refine ⟨?_, by omega⟩
  simp [decPDFNA, f0, f9, f14, f18, f19, f20, f22]
  rfl

theorem dec_POGA {m0 op : Nat} (p : Pm) (o : RedOp) (g : BitVec 2) (a : Tgt) (k0 : Pm → RedOp → BitVec 2 → Tgt → Instr) (h0 : m0 = encPOGA op p o g a) :
    decPOGA m0 k0 = .ok (k0 p o g a) ∧ m0 / 2 ^ 24 = op := by
  have b0 := Pm_lt p
  have b1 := RedOp_lt o
  have b2 := g.isLt
  have b3 := Tgt_lt a
  unfold encPOGA at h0
  have f0 : fld m0 0 9 = a.code := by
    unfold fld
    omega
  have f9 : fld m0 9 5 = 0 := by
    unfold fld
    omega
  have f14 : fld m0 14 2 = g.toNat := by
    unfold fld
    omega
  have f16 : fld m0 16 2 = 0 := by
    unfold fld
    omega
  have f18 : fld m0 18 4 = o.code := by
    unfold fld
    omega
  have f22 : fld m0 22 2 = p.code := by
    unfold fld
    omega
  refine ⟨?_, by omega⟩
  simp [decPOGA, f0, f9, f14, f16, f18, f22]
  rfl

theorem dec_POEA {m0 op : Nat} (p : Pm) (o : RedOp) (e : Bool) (a : Tgt) (k0 : Pm → RedOp → Bool → Tgt → Instr) (h0 : m0 = encPOEA op p o e a) :
    decPOEA m0 k0 = .ok (k0 p o e a) ∧ m0 / 2 ^ 24 = op := by
  have b0 := Pm_lt p
  have b1 := RedOp_lt o
  have b2 := Bool_lt e
  have b3 := Tgt_lt a
  unfold encPOEA at h0
  have f0 : fld m0 0 9 = a.code := by
    unfold fld
    omega
  have f9 : fld m0 9 5 = 0 := by
    unfold fld
    omega
  have f14 : fld m0 14 1 = e.toNat := by
    unfold fld
    omega
  have f15 : fld m0 15 3 = 0 := by
    unfold fld
    omega
  have f18 : fld m0 18 4 = o.code := by
    unfold fld
    omega
  have f22 : fld m0 22 2 = p.code := by
    unfold fld
    omega
  refine ⟨?_, by omega⟩
  simp [decPOEA, f0, f9, f14, f15, f18, f22]
  rfl

theorem dec_PFKXA {m0 op : Nat} (p : Pm) (f : Fmt) (k : BitVec 4) (x : Bool) (a : Tgt) (k0 : Pm → Fmt → BitVec 4 → Bool → Tgt → Instr) (h0 : m0 = encPFKXA op p f k x a) :
    decPFKXA m0 k0 = .ok (k0 p f k x a) ∧ m0 / 2 ^ 24 = op := by
  have b0 := Pm_lt p
  have b1 := Fmt_lt f
  have b2 := k.isLt
  have b3 := Bool_lt x
  have b4 := Tgt_lt a
  unfold encPFKXA at h0
  have f0 : fld m0 0 9 = a.code := by
    unfold fld
    omega
  have f9 : fld m0 9 1 = x.toNat := by
    unfold fld
    omega
  have f10 : fld m0 10 4 = 0 := by
    unfold fld
    omega
  have f14 : fld m0 14 4 = k.toNat := by
    unfold fld
    omega
  have f18 : fld m0 18 4 = f.code := by
    unfold fld
    omega
  have f22 : fld m0 22 2 = p.code := by
    unfold fld
    omega
  refine ⟨?_, by omega⟩
  simp [decPFKXA, f0, f9, f10, f14, f18, f22]
  rfl

theorem dec_PMA {m0 op : Nat} (p : Pm) (m : BitVec 2) (a : Tgt) (k0 : Pm → BitVec 2 → Tgt → Instr) (h0 : m0 = encPMA op p m a) :
    decPMA m0 k0 = .ok (k0 p m a) ∧ m0 / 2 ^ 24 = op := by
  have b0 := Pm_lt p
  have b1 := m.isLt
  have b2 := Tgt_lt a
  unfold encPMA at h0
  have f0 : fld m0 0 9 = a.code := by
    unfold fld
    omega
  have f9 : fld m0 9 5 = 0 := by
    unfold fld
    omega
  have f14 : fld m0 14 2 = m.toNat := by
    unfold fld
    omega
  have f16 : fld m0 16 6 = 0 := by
    unfold fld
    omega
  have f22 : fld m0 22 2 = p.code := by
    unfold fld
    omega
  refine ⟨?_, by omega⟩
  simp [decPMA, f0, f9, f14, f16, f22]
  rfl

theorem dec_PNA3 {m0 op : Nat} (p : Pm) (n : BitVec 3) (a : Tgt) (k0 : Pm → BitVec 3 → Tgt → Instr) (h0 : m0 = encPNA3 op p n a) :
    decPNA3 m0 k0 = .ok (k0 p n a) ∧ m0 / 2 ^ 24 = op := by
  have b0 := Pm_lt p
  have b1 := n.isLt
  have b2 := Tgt_lt a
  unfold encPNA3 at h0
  have f0 : fld m0 0 9 = a.code := by
    unfold fld
    omega
  have f9 : fld m0 9 5 = 0 := by
    unfold fld
    omega
  have f14 : fld m0 14 3 = n.toNat := by
    unfold fld
    omega
  have f17 : fld m0 17 5 = 0 := by
    unfold fld
    omega
  have f22 : fld m0 22 2 = p.code := by
    unfold fld
    omega
  refine ⟨?_, by omega⟩
  simp [decPNA3, f0, f9, f14, f17, f22]
  rfl

theorem dec_PKA {m0 op : Nat} (p : Pm) (k : BitVec 2) (a : Tgt) (k0 : Pm → BitVec 2 → Tgt → Instr) (h0 : m0 = encPKA op p k a) :
    decPKA m0 k0 = .ok (k0 p k a) ∧ m0 / 2 ^ 24 = op := by
  have b0 := Pm_lt p
  have b1 := k.isLt
  have b2 := Tgt_lt a
  unfold encPKA at h0
  have f0 : fld m0 0 9 = a.code := by
    unfold fld
    omega
  have f9 : fld m0 9 5 = 0 := by
    unfold fld
    omega
  have f14 : fld m0 14 2 = k.toNat := by
    unfold fld
    omega
  have f16 : fld m0 16 6 = 0 := by
    unfold fld
    omega
  have f22 : fld m0 22 2 = p.code := by
    unfold fld
    omega
  refine ⟨?_, by omega⟩
  simp [decPKA, f0, f9, f14, f16, f22]
  rfl

theorem dec_PLA {m0 op : Nat} (p : Pm) (l : BitVec 2) (a : Tgt) (k0 : Pm → BitVec 2 → Tgt → Instr) (h0 : m0 = encPLA op p l a) :
    decPLA m0 k0 = .ok (k0 p l a) ∧ m0 / 2 ^ 24 = op := by
  have b0 := Pm_lt p
  have b1 := l.isLt
  have b2 := Tgt_lt a
  unfold encPLA at h0
  have f0 : fld m0 0 9 = a.code := by
    unfold fld
    omega
  have f9 : fld m0 9 5 = 0 := by
    unfold fld
    omega
  have f14 : fld m0 14 2 = l.toNat := by
    unfold fld
    omega
  have f16 : fld m0 16 6 = 0 := by
    unfold fld
    omega
  have f22 : fld m0 22 2 = p.code := by
    unfold fld
    omega
  refine ⟨?_, by omega⟩
  simp [decPLA, f0, f9, f14, f16, f22]
  rfl

theorem dec_PGWCFA {m0 op : Nat} (p : Pm) (g : Bool) (w : Bool) (c : BitVec 3) (f : BitVec 3) (a : Tgt) (k0 : Pm → Bool → Bool → BitVec 3 → BitVec 3 → Tgt → Instr) (h0 : m0 = encPGWCFA op p g w c f a) :
    decPGWCFA m0 k0 = .ok (k0 p g w c f a) ∧ m0 / 2 ^ 24 = op := by
  have b0 := Pm_lt p
  have b1 := Bool_lt g
  have b2 := Bool_lt w
  have b3 := c.isLt
  have b4 := f.isLt
  have b5 := Tgt_lt a
  unfold encPGWCFA at h0
  have f0 : fld m0 0 9 = a.code := by
    unfold fld
    omega
  have f9 : fld m0 9 5 = 0 := by
    unfold fld
    omega
  have f14 : fld m0 14 3 = f.toNat := by
    unfold fld
    omega
  have f17 : fld m0 17 3 = c.toNat := by
    unfold fld
    omega
  have f20 : fld m0 20 1 = w.toNat := by
    unfold fld
    omega
  have f21 : fld m0 21 1 = g.toNat := by
    unfold fld
    omega
  have f22 : fld m0 22 2 = p.code := by
    unfold fld
    omega
  refine ⟨?_, by omega⟩
  simp [decPGWCFA, f0, f9, f14, f17, f20, f21, f22]
  rfl

theorem dec_PFTGA {m0 op : Nat} (p : Pm) (f : BitVec 3) (t : BitVec 3) (g : Bool) (a : Tgt) (k0 : Pm → BitVec 3 → BitVec 3 → Bool → Tgt → Instr) (h0 : m0 = encPFTGA op p f t g a) :
    decPFTGA m0 k0 = .ok (k0 p f t g a) ∧ m0 / 2 ^ 24 = op := by
  have b0 := Pm_lt p
  have b1 := f.isLt
  have b2 := t.isLt
  have b3 := Bool_lt g
  have b4 := Tgt_lt a
  unfold encPFTGA at h0
  have f0 : fld m0 0 9 = a.code := by
    unfold fld
    omega
  have f9 : fld m0 9 1 = g.toNat := by
    unfold fld
    omega
  have f10 : fld m0 10 4 = 0 := by
    unfold fld
    omega
  have f14 : fld m0 14 3 = t.toNat := by
    unfold fld
    omega
  have f17 : fld m0 17 3 = f.toNat := by
    unfold fld
    omega
  have f20 : fld m0 20 2 = 0 := by
    unfold fld
    omega
  have f22 : fld m0 22 2 = p.code := by
    unfold fld
    omega
  refine ⟨?_, by omega⟩
  simp [decPFTGA, f0, f9, f10, f14, f17, f20, f22]
  rfl

theorem dec_PSA2 {m0 op : Nat} (p : Pm) (s : Bool) (a : Tgt) (k0 : Pm → Bool → Tgt → Instr) (h0 : m0 = encPSA2 op p s a) :
    decPSA2 m0 k0 = .ok (k0 p s a) ∧ m0 / 2 ^ 24 = op := by
  have b0 := Pm_lt p
  have b1 := Bool_lt s
  have b2 := Tgt_lt a
  unfold encPSA2 at h0
  have f0 : fld m0 0 9 = a.code := by
    unfold fld
    omega
  have f9 : fld m0 9 5 = 0 := by
    unfold fld
    omega
  have f14 : fld m0 14 1 = s.toNat := by
    unfold fld
    omega
  have f15 : fld m0 15 7 = 0 := by
    unfold fld
    omega
  have f22 : fld m0 22 2 = p.code := by
    unfold fld
    omega
  refine ⟨?_, by omega⟩
  simp [decPSA2, f0, f9, f14, f15, f22]
  rfl

theorem dec_PA {m0 op : Nat} (p : Pm) (a : Tgt) (k0 : Pm → Tgt → Instr) (h0 : m0 = encPA op p a) :
    decPA m0 k0 = .ok (k0 p a) ∧ m0 / 2 ^ 24 = op := by
  have b0 := Pm_lt p
  have b1 := Tgt_lt a
  unfold encPA at h0
  have f0 : fld m0 0 9 = a.code := by
    unfold fld
    omega
  have f9 : fld m0 9 13 = 0 := by
    unfold fld
    omega
  have f22 : fld m0 22 2 = p.code := by
    unfold fld
    omega
  refine ⟨?_, by omega⟩
  simp [decPA, f0, f9, f22]
  rfl

theorem dec_PWCOXVND {m0 op : Nat} (p : Pm) (w : Width) (c : Scope) (o : Ord) (x : Bool) (v : Bool) (n : BitVec 2) (d : Dst) (k0 : Pm → Width → Scope → Ord → Bool → Bool → BitVec 2 → Dst → Instr) (h0 : m0 = encPWCOXVND op p w c o x v n d) :
    decPWCOXVND m0 k0 = .ok (k0 p w c o x v n d) ∧ m0 / 2 ^ 24 = op := by
  have b0 := Pm_lt p
  have b1 := Width_lt w
  have b2 := Scope_lt c
  have b3 := Ord_lt o
  have b4 := Bool_lt x
  have b5 := Bool_lt v
  have b6 := n.isLt
  have b7 := Dst_lt d
  have b8 := Dst_form_lt d
  unfold encPWCOXVND at h0
  have f0 : fld m0 0 9 = d.code := by
    unfold fld
    omega
  have f9 : fld m0 9 2 = n.toNat := by
    unfold fld
    omega
  have f11 : fld m0 11 1 = v.toNat := by
    unfold fld
    omega
  have f12 : fld m0 12 1 = x.toNat := by
    unfold fld
    omega
  have f13 : fld m0 13 1 = d.form := by
    unfold fld
    omega
  have f14 : fld m0 14 1 = 0 := by
    unfold fld
    omega
  have f15 : fld m0 15 2 = o.code := by
    unfold fld
    omega
  have f17 : fld m0 17 3 = c.code := by
    unfold fld
    omega
  have f20 : fld m0 20 2 = w.code := by
    unfold fld
    omega
  have f22 : fld m0 22 2 = p.code := by
    unfold fld
    omega
  refine ⟨?_, by omega⟩
  simp [decPWCOXVND, f0, f9, f11, f12, f13, f14, f15, f17, f20, f22]
  rfl

theorem dec_PWCOVNA {m0 op : Nat} (p : Pm) (w : Width) (c : Scope) (o : Ord) (v : Bool) (n : BitVec 2) (a : Tgt) (k0 : Pm → Width → Scope → Ord → Bool → BitVec 2 → Tgt → Instr) (h0 : m0 = encPWCOVNA op p w c o v n a) :
    decPWCOVNA m0 k0 = .ok (k0 p w c o v n a) ∧ m0 / 2 ^ 24 = op := by
  have b0 := Pm_lt p
  have b1 := Width_lt w
  have b2 := Scope_lt c
  have b3 := Ord_lt o
  have b4 := Bool_lt v
  have b5 := n.isLt
  have b6 := Tgt_lt a
  unfold encPWCOVNA at h0
  have f0 : fld m0 0 9 = a.code := by
    unfold fld
    omega
  have f9 : fld m0 9 2 = n.toNat := by
    unfold fld
    omega
  have f11 : fld m0 11 1 = v.toNat := by
    unfold fld
    omega
  have f12 : fld m0 12 3 = 0 := by
    unfold fld
    omega
  have f15 : fld m0 15 2 = o.code := by
    unfold fld
    omega
  have f17 : fld m0 17 3 = c.code := by
    unfold fld
    omega
  have f20 : fld m0 20 2 = w.code := by
    unfold fld
    omega
  have f22 : fld m0 22 2 = p.code := by
    unfold fld
    omega
  refine ⟨?_, by omega⟩
  simp [decPWCOVNA, f0, f9, f11, f12, f15, f17, f20, f22]
  rfl

theorem dec_PWCOXVNA {m0 op : Nat} (p : Pm) (w : Width) (c : Scope) (o : Ord) (x : Bool) (v : Bool) (n : BitVec 2) (a : Tgt) (k0 : Pm → Width → Scope → Ord → Bool → Bool → BitVec 2 → Tgt → Instr) (h0 : m0 = encPWCOXVNA op p w c o x v n a) :
    decPWCOXVNA m0 k0 = .ok (k0 p w c o x v n a) ∧ m0 / 2 ^ 24 = op := by
  have b0 := Pm_lt p
  have b1 := Width_lt w
  have b2 := Scope_lt c
  have b3 := Ord_lt o
  have b4 := Bool_lt x
  have b5 := Bool_lt v
  have b6 := n.isLt
  have b7 := Tgt_lt a
  unfold encPWCOXVNA at h0
  have f0 : fld m0 0 9 = a.code := by
    unfold fld
    omega
  have f9 : fld m0 9 2 = n.toNat := by
    unfold fld
    omega
  have f11 : fld m0 11 1 = v.toNat := by
    unfold fld
    omega
  have f12 : fld m0 12 1 = x.toNat := by
    unfold fld
    omega
  have f13 : fld m0 13 2 = 0 := by
    unfold fld
    omega
  have f15 : fld m0 15 2 = o.code := by
    unfold fld
    omega
  have f17 : fld m0 17 3 = c.code := by
    unfold fld
    omega
  have f20 : fld m0 20 2 = w.code := by
    unfold fld
    omega
  have f22 : fld m0 22 2 = p.code := by
    unfold fld
    omega
  refine ⟨?_, by omega⟩
  simp [decPWCOXVNA, f0, f9, f11, f12, f13, f15, f17, f20, f22]
  rfl

theorem dec_PCONA {m0 op : Nat} (p : Pm) (c : Scope) (o : Ord) (n : BitVec 2) (a : Tgt) (k0 : Pm → Scope → Ord → BitVec 2 → Tgt → Instr) (h0 : m0 = encPCONA op p c o n a) :
    decPCONA m0 k0 = .ok (k0 p c o n a) ∧ m0 / 2 ^ 24 = op := by
  have b0 := Pm_lt p
  have b1 := Scope_lt c
  have b2 := Ord_lt o
  have b3 := n.isLt
  have b4 := Tgt_lt a
  unfold encPCONA at h0
  have f0 : fld m0 0 9 = a.code := by
    unfold fld
    omega
  have f9 : fld m0 9 2 = n.toNat := by
    unfold fld
    omega
  have f11 : fld m0 11 4 = 0 := by
    unfold fld
    omega
  have f15 : fld m0 15 2 = o.code := by
    unfold fld
    omega
  have f17 : fld m0 17 3 = c.code := by
    unfold fld
    omega
  have f20 : fld m0 20 2 = 0 := by
    unfold fld
    omega
  have f22 : fld m0 22 2 = p.code := by
    unfold fld
    omega
  refine ⟨?_, by omega⟩
  simp [decPCONA, f0, f9, f11, f15, f17, f20, f22]
  rfl

theorem dec_PWCOXND {m0 op : Nat} (p : Pm) (w : Width) (c : Scope) (o : Ord) (x : Bool) (n : BitVec 2) (d : Dst) (k0 : Pm → Width → Scope → Ord → Bool → BitVec 2 → Dst → Instr) (h0 : m0 = encPWCOXND op p w c o x n d) :
    decPWCOXND m0 k0 = .ok (k0 p w c o x n d) ∧ m0 / 2 ^ 24 = op := by
  have b0 := Pm_lt p
  have b1 := Width_lt w
  have b2 := Scope_lt c
  have b3 := Ord_lt o
  have b4 := Bool_lt x
  have b5 := n.isLt
  have b6 := Dst_lt d
  have b7 := Dst_form_lt d
  unfold encPWCOXND at h0
  have f0 : fld m0 0 9 = d.code := by
    unfold fld
    omega
  have f9 : fld m0 9 2 = n.toNat := by
    unfold fld
    omega
  have f11 : fld m0 11 1 = 0 := by
    unfold fld
    omega
  have f12 : fld m0 12 1 = x.toNat := by
    unfold fld
    omega
  have f13 : fld m0 13 1 = d.form := by
    unfold fld
    omega
  have f14 : fld m0 14 1 = 0 := by
    unfold fld
    omega
  have f15 : fld m0 15 2 = o.code := by
    unfold fld
    omega
  have f17 : fld m0 17 3 = c.code := by
    unfold fld
    omega
  have f20 : fld m0 20 2 = w.code := by
    unfold fld
    omega
  have f22 : fld m0 22 2 = p.code := by
    unfold fld
    omega
  refine ⟨?_, by omega⟩
  simp [decPWCOXND, f0, f9, f11, f12, f13, f14, f15, f17, f20, f22]
  rfl

theorem dec_PWCONA {m0 op : Nat} (p : Pm) (w : Width) (c : Scope) (o : Ord) (n : BitVec 2) (a : Tgt) (k0 : Pm → Width → Scope → Ord → BitVec 2 → Tgt → Instr) (h0 : m0 = encPWCONA op p w c o n a) :
    decPWCONA m0 k0 = .ok (k0 p w c o n a) ∧ m0 / 2 ^ 24 = op := by
  have b0 := Pm_lt p
  have b1 := Width_lt w
  have b2 := Scope_lt c
  have b3 := Ord_lt o
  have b4 := n.isLt
  have b5 := Tgt_lt a
  unfold encPWCONA at h0
  have f0 : fld m0 0 9 = a.code := by
    unfold fld
    omega
  have f9 : fld m0 9 2 = n.toNat := by
    unfold fld
    omega
  have f11 : fld m0 11 4 = 0 := by
    unfold fld
    omega
  have f15 : fld m0 15 2 = o.code := by
    unfold fld
    omega
  have f17 : fld m0 17 3 = c.code := by
    unfold fld
    omega
  have f20 : fld m0 20 2 = w.code := by
    unfold fld
    omega
  have f22 : fld m0 22 2 = p.code := by
    unfold fld
    omega
  refine ⟨?_, by omega⟩
  simp [decPWCONA, f0, f9, f11, f15, f17, f20, f22]
  rfl

theorem dec_PWCOXNA {m0 op : Nat} (p : Pm) (w : Width) (c : Scope) (o : Ord) (x : Bool) (n : BitVec 2) (a : Tgt) (k0 : Pm → Width → Scope → Ord → Bool → BitVec 2 → Tgt → Instr) (h0 : m0 = encPWCOXNA op p w c o x n a) :
    decPWCOXNA m0 k0 = .ok (k0 p w c o x n a) ∧ m0 / 2 ^ 24 = op := by
  have b0 := Pm_lt p
  have b1 := Width_lt w
  have b2 := Scope_lt c
  have b3 := Ord_lt o
  have b4 := Bool_lt x
  have b5 := n.isLt
  have b6 := Tgt_lt a
  unfold encPWCOXNA at h0
  have f0 : fld m0 0 9 = a.code := by
    unfold fld
    omega
  have f9 : fld m0 9 2 = n.toNat := by
    unfold fld
    omega
  have f11 : fld m0 11 1 = 0 := by
    unfold fld
    omega
  have f12 : fld m0 12 1 = x.toNat := by
    unfold fld
    omega
  have f13 : fld m0 13 2 = 0 := by
    unfold fld
    omega
  have f15 : fld m0 15 2 = o.code := by
    unfold fld
    omega
  have f17 : fld m0 17 3 = c.code := by
    unfold fld
    omega
  have f20 : fld m0 20 2 = w.code := by
    unfold fld
    omega
  have f22 : fld m0 22 2 = p.code := by
    unfold fld
    omega
  refine ⟨?_, by omega⟩
  simp [decPWCOXNA, f0, f9, f11, f12, f13, f15, f17, f20, f22]
  rfl

theorem dec_PCOA {m0 op : Nat} (p : Pm) (c : Scope) (o : Ord) (a : Tgt) (k0 : Pm → Scope → Ord → Tgt → Instr) (h0 : m0 = encPCOA op p c o a) :
    decPCOA m0 k0 = .ok (k0 p c o a) ∧ m0 / 2 ^ 24 = op := by
  have b0 := Pm_lt p
  have b1 := Scope_lt c
  have b2 := Ord_lt o
  have b3 := Tgt_lt a
  unfold encPCOA at h0
  have f0 : fld m0 0 9 = a.code := by
    unfold fld
    omega
  have f9 : fld m0 9 6 = 0 := by
    unfold fld
    omega
  have f15 : fld m0 15 2 = o.code := by
    unfold fld
    omega
  have f17 : fld m0 17 3 = c.code := by
    unfold fld
    omega
  have f20 : fld m0 20 2 = 0 := by
    unfold fld
    omega
  have f22 : fld m0 22 2 = p.code := by
    unfold fld
    omega
  refine ⟨?_, by omega⟩
  simp [decPCOA, f0, f9, f15, f17, f20, f22]
  rfl

theorem dec_PFTCA {m0 op : Nat} (p : Pm) (f : Path) (t : Path) (c : Scope) (a : Tgt) (k0 : Pm → Path → Path → Scope → Tgt → Instr) (h0 : m0 = encPFTCA op p f t c a) :
    decPFTCA m0 k0 = .ok (k0 p f t c a) ∧ m0 / 2 ^ 24 = op := by
  have b0 := Pm_lt p
  have b1 := Path_lt f
  have b2 := Path_lt t
  have b3 := Scope_lt c
  have b4 := Tgt_lt a
  unfold encPFTCA at h0
  have f0 : fld m0 0 9 = a.code := by
    unfold fld
    omega
  have f9 : fld m0 9 3 = c.code := by
    unfold fld
    omega
  have f12 : fld m0 12 4 = 0 := by
    unfold fld
    omega
  have f16 : fld m0 16 3 = t.code := by
    unfold fld
    omega
  have f19 : fld m0 19 3 = f.code := by
    unfold fld
    omega
  have f22 : fld m0 22 2 = p.code := by
    unfold fld
    omega
  refine ⟨?_, by omega⟩
  simp [decPFTCA, f0, f9, f12, f16, f19, f22]
  rfl

theorem dec_PWCOVA {m0 op : Nat} (p : Pm) (w : Width) (c : Scope) (o : Ord) (v : Bool) (a : Tgt) (k0 : Pm → Width → Scope → Ord → Bool → Tgt → Instr) (h0 : m0 = encPWCOVA op p w c o v a) :
    decPWCOVA m0 k0 = .ok (k0 p w c o v a) ∧ m0 / 2 ^ 24 = op := by
  have b0 := Pm_lt p
  have b1 := Width_lt w
  have b2 := Scope_lt c
  have b3 := Ord_lt o
  have b4 := Bool_lt v
  have b5 := Tgt_lt a
  unfold encPWCOVA at h0
  have f0 : fld m0 0 9 = a.code := by
    unfold fld
    omega
  have f9 : fld m0 9 2 = 0 := by
    unfold fld
    omega
  have f11 : fld m0 11 1 = v.toNat := by
    unfold fld
    omega
  have f12 : fld m0 12 3 = 0 := by
    unfold fld
    omega
  have f15 : fld m0 15 2 = o.code := by
    unfold fld
    omega
  have f17 : fld m0 17 3 = c.code := by
    unfold fld
    omega
  have f20 : fld m0 20 2 = w.code := by
    unfold fld
    omega
  have f22 : fld m0 22 2 = p.code := by
    unfold fld
    omega
  refine ⟨?_, by omega⟩
  simp [decPWCOVA, f0, f9, f11, f12, f15, f17, f20, f22]
  rfl

theorem dec_PNFA {m0 op : Nat} (p : Pm) (n : BitVec 7) (f : Bool) (a : Tgt) (k0 : Pm → BitVec 7 → Bool → Tgt → Instr) (h0 : m0 = encPNFA op p n f a) :
    decPNFA m0 k0 = .ok (k0 p n f a) ∧ m0 / 2 ^ 24 = op := by
  have b0 := Pm_lt p
  have b1 := n.isLt
  have b2 := Bool_lt f
  have b3 := Tgt_lt a
  unfold encPNFA at h0
  have f0 : fld m0 0 9 = a.code := by
    unfold fld
    omega
  have f9 : fld m0 9 1 = f.toNat := by
    unfold fld
    omega
  have f10 : fld m0 10 4 = 0 := by
    unfold fld
    omega
  have f14 : fld m0 14 7 = n.toNat := by
    unfold fld
    omega
  have f21 : fld m0 21 1 = 0 := by
    unfold fld
    omega
  have f22 : fld m0 22 2 = p.code := by
    unfold fld
    omega
  refine ⟨?_, by omega⟩
  simp [decPNFA, f0, f9, f10, f14, f21, f22]
  rfl

theorem dec_PNCRFA {m0 op : Nat} (p : Pm) (n : BitVec 7) (c : Scope) (r : Bool) (f : Bool) (a : Tgt) (k0 : Pm → BitVec 7 → Scope → Bool → Bool → Tgt → Instr) (h0 : m0 = encPNCRFA op p n c r f a) :
    decPNCRFA m0 k0 = .ok (k0 p n c r f a) ∧ m0 / 2 ^ 24 = op := by
  have b0 := Pm_lt p
  have b1 := n.isLt
  have b2 := Scope_lt c
  have b3 := Bool_lt r
  have b4 := Bool_lt f
  have b5 := Tgt_lt a
  unfold encPNCRFA at h0
  have f0 : fld m0 0 9 = a.code := by
    unfold fld
    omega
  have f9 : fld m0 9 1 = f.toNat := by
    unfold fld
    omega
  have f10 : fld m0 10 1 = r.toNat := by
    unfold fld
    omega
  have f11 : fld m0 11 3 = c.code := by
    unfold fld
    omega
  have f14 : fld m0 14 7 = n.toNat := by
    unfold fld
    omega
  have f21 : fld m0 21 1 = 0 := by
    unfold fld
    omega
  have f22 : fld m0 22 2 = p.code := by
    unfold fld
    omega
  refine ⟨?_, by omega⟩
  simp [decPNCRFA, f0, f9, f10, f11, f14, f21, f22]
  rfl

theorem dec_PNCQFA {m0 op : Nat} (p : Pm) (n : BitVec 7) (c : Scope) (q : Bool) (f : Bool) (a : Tgt) (k0 : Pm → BitVec 7 → Scope → Bool → Bool → Tgt → Instr) (h0 : m0 = encPNCQFA op p n c q f a) :
    decPNCQFA m0 k0 = .ok (k0 p n c q f a) ∧ m0 / 2 ^ 24 = op := by
  have b0 := Pm_lt p
  have b1 := n.isLt
  have b2 := Scope_lt c
  have b3 := Bool_lt q
  have b4 := Bool_lt f
  have b5 := Tgt_lt a
  unfold encPNCQFA at h0
  have f0 : fld m0 0 9 = a.code := by
    unfold fld
    omega
  have f9 : fld m0 9 1 = f.toNat := by
    unfold fld
    omega
  have f10 : fld m0 10 1 = q.toNat := by
    unfold fld
    omega
  have f11 : fld m0 11 3 = c.code := by
    unfold fld
    omega
  have f14 : fld m0 14 7 = n.toNat := by
    unfold fld
    omega
  have f21 : fld m0 21 1 = 0 := by
    unfold fld
    omega
  have f22 : fld m0 22 2 = p.code := by
    unfold fld
    omega
  refine ⟨?_, by omega⟩
  simp [decPNCQFA, f0, f9, f10, f11, f14, f21, f22]
  rfl

theorem dec_PKIA {m0 op : Nat} (p : Pm) (k : BitVec 2) (i : BitVec 6) (a : Tgt) (k0 : Pm → BitVec 2 → BitVec 6 → Tgt → Instr) (h0 : m0 = encPKIA op p k i a) :
    decPKIA m0 k0 = .ok (k0 p k i a) ∧ m0 / 2 ^ 24 = op := by
  have b0 := Pm_lt p
  have b1 := k.isLt
  have b2 := i.isLt
  have b3 := Tgt_lt a
  unfold encPKIA at h0
  have f0 : fld m0 0 9 = a.code := by
    unfold fld
    omega
  have f9 : fld m0 9 5 = 0 := by
    unfold fld
    omega
  have f14 : fld m0 14 6 = i.toNat := by
    unfold fld
    omega
  have f20 : fld m0 20 2 = k.toNat := by
    unfold fld
    omega
  have f22 : fld m0 22 2 = p.code := by
    unfold fld
    omega
  refine ⟨?_, by omega⟩
  simp [decPKIA, f0, f9, f14, f20, f22]
  rfl

theorem dec_PKIXA {m0 op : Nat} (p : Pm) (k : BitVec 2) (i : BitVec 6) (x : BitVec 2) (a : Tgt) (k0 : Pm → BitVec 2 → BitVec 6 → BitVec 2 → Tgt → Instr) (h0 : m0 = encPKIXA op p k i x a) :
    decPKIXA m0 k0 = .ok (k0 p k i x a) ∧ m0 / 2 ^ 24 = op := by
  have b0 := Pm_lt p
  have b1 := k.isLt
  have b2 := i.isLt
  have b3 := x.isLt
  have b4 := Tgt_lt a
  unfold encPKIXA at h0
  have f0 : fld m0 0 9 = a.code := by
    unfold fld
    omega
  have f9 : fld m0 9 2 = x.toNat := by
    unfold fld
    omega
  have f11 : fld m0 11 3 = 0 := by
    unfold fld
    omega
  have f14 : fld m0 14 6 = i.toNat := by
    unfold fld
    omega
  have f20 : fld m0 20 2 = k.toNat := by
    unfold fld
    omega
  have f22 : fld m0 22 2 = p.code := by
    unfold fld
    omega
  refine ⟨?_, by omega⟩
  simp [decPKIXA, f0, f9, f11, f14, f20, f22]
  rfl

theorem dec_PTZA {m0 op : Nat} (p : Pm) (t : BitVec 9) (z : Bool) (a : Tgt) (k0 : Pm → BitVec 9 → Bool → Tgt → Instr) (h0 : m0 = encPTZA op p t z a) :
    decPTZA m0 k0 = .ok (k0 p t z a) ∧ m0 / 2 ^ 24 = op := by
  have b0 := Pm_lt p
  have b1 := t.isLt
  have b2 := Bool_lt z
  have b3 := Tgt_lt a
  unfold encPTZA at h0
  have b8 : t.toNat % 256 < 256 := by omega
  have b9 : t.toNat / 256 < 2 := by omega
  obtain ⟨tl, htl⟩ : ∃ v, v = t.toNat % 256 := ⟨_, rfl⟩
  obtain ⟨th, hth⟩ : ∃ v, v = t.toNat / 256 := ⟨_, rfl⟩
  rw [← htl] at h0 b8
  rw [← hth] at h0 b9
  have f0 : fld m0 0 9 = a.code := by
    unfold fld
    clear htl hth
    omega
  have f9 : fld m0 9 1 = th := by
    unfold fld
    clear htl hth
    omega
  have f10 : fld m0 10 1 = z.toNat := by
    unfold fld
    clear htl hth
    omega
  have f11 : fld m0 11 3 = 0 := by
    unfold fld
    clear htl hth
    omega
  have f14 : fld m0 14 8 = tl := by
    unfold fld
    clear htl hth
    omega
  have f22 : fld m0 22 2 = p.code := by
    unfold fld
    clear htl hth
    omega
  refine ⟨?_, by clear htl hth; omega⟩
  simp [decPTZA, f0, f9, f10, f11, f14, f22, htl, hth, tile_dec]
  rfl

theorem dec_PTYA {m0 op : Nat} (p : Pm) (t : BitVec 9) (y : Bool) (a : Tgt) (k0 : Pm → BitVec 9 → Bool → Tgt → Instr) (h0 : m0 = encPTYA op p t y a) :
    decPTYA m0 k0 = .ok (k0 p t y a) ∧ m0 / 2 ^ 24 = op := by
  have b0 := Pm_lt p
  have b1 := t.isLt
  have b2 := Bool_lt y
  have b3 := Tgt_lt a
  unfold encPTYA at h0
  have b8 : t.toNat % 256 < 256 := by omega
  have b9 : t.toNat / 256 < 2 := by omega
  obtain ⟨tl, htl⟩ : ∃ v, v = t.toNat % 256 := ⟨_, rfl⟩
  obtain ⟨th, hth⟩ : ∃ v, v = t.toNat / 256 := ⟨_, rfl⟩
  rw [← htl] at h0 b8
  rw [← hth] at h0 b9
  have f0 : fld m0 0 9 = a.code := by
    unfold fld
    clear htl hth
    omega
  have f9 : fld m0 9 1 = th := by
    unfold fld
    clear htl hth
    omega
  have f10 : fld m0 10 1 = y.toNat := by
    unfold fld
    clear htl hth
    omega
  have f11 : fld m0 11 3 = 0 := by
    unfold fld
    clear htl hth
    omega
  have f14 : fld m0 14 8 = tl := by
    unfold fld
    clear htl hth
    omega
  have f22 : fld m0 22 2 = p.code := by
    unfold fld
    clear htl hth
    omega
  refine ⟨?_, by clear htl hth; omega⟩
  simp [decPTYA, f0, f9, f10, f11, f14, f22, htl, hth, tile_dec]
  rfl

theorem dec_PTD {m0 op : Nat} (p : Pm) (t : BitVec 9) (d : Dst) (k0 : Pm → BitVec 9 → Dst → Instr) (h0 : m0 = encPTD op p t d) :
    decPTD m0 k0 = .ok (k0 p t d) ∧ m0 / 2 ^ 24 = op := by
  have b0 := Pm_lt p
  have b1 := t.isLt
  have b2 := Dst_lt d
  have b3 := Dst_form_lt d
  unfold encPTD at h0
  have b8 : t.toNat % 256 < 256 := by omega
  have b9 : t.toNat / 256 < 2 := by omega
  obtain ⟨tl, htl⟩ : ∃ v, v = t.toNat % 256 := ⟨_, rfl⟩
  obtain ⟨th, hth⟩ : ∃ v, v = t.toNat / 256 := ⟨_, rfl⟩
  rw [← htl] at h0 b8
  rw [← hth] at h0 b9
  have f0 : fld m0 0 9 = d.code := by
    unfold fld
    clear htl hth
    omega
  have f9 : fld m0 9 1 = th := by
    unfold fld
    clear htl hth
    omega
  have f10 : fld m0 10 3 = 0 := by
    unfold fld
    clear htl hth
    omega
  have f13 : fld m0 13 1 = d.form := by
    unfold fld
    clear htl hth
    omega
  have f14 : fld m0 14 8 = tl := by
    unfold fld
    clear htl hth
    omega
  have f22 : fld m0 22 2 = p.code := by
    unfold fld
    clear htl hth
    omega
  refine ⟨?_, by clear htl hth; omega⟩
  simp [decPTD, f0, f9, f10, f13, f14, f22, htl, hth, tile_dec]
  rfl

theorem dec_PTA {m0 op : Nat} (p : Pm) (t : BitVec 9) (a : Tgt) (k0 : Pm → BitVec 9 → Tgt → Instr) (h0 : m0 = encPTA op p t a) :
    decPTA m0 k0 = .ok (k0 p t a) ∧ m0 / 2 ^ 24 = op := by
  have b0 := Pm_lt p
  have b1 := t.isLt
  have b2 := Tgt_lt a
  unfold encPTA at h0
  have b8 : t.toNat % 256 < 256 := by omega
  have b9 : t.toNat / 256 < 2 := by omega
  obtain ⟨tl, htl⟩ : ∃ v, v = t.toNat % 256 := ⟨_, rfl⟩
  obtain ⟨th, hth⟩ : ∃ v, v = t.toNat / 256 := ⟨_, rfl⟩
  rw [← htl] at h0 b8
  rw [← hth] at h0 b9
  have f0 : fld m0 0 9 = a.code := by
    unfold fld
    clear htl hth
    omega
  have f9 : fld m0 9 1 = th := by
    unfold fld
    clear htl hth
    omega
  have f10 : fld m0 10 4 = 0 := by
    unfold fld
    clear htl hth
    omega
  have f14 : fld m0 14 8 = tl := by
    unfold fld
    clear htl hth
    omega
  have f22 : fld m0 22 2 = p.code := by
    unfold fld
    clear htl hth
    omega
  refine ⟨?_, by clear htl hth; omega⟩
  simp [decPTA, f0, f9, f10, f14, f22, htl, hth, tile_dec]
  rfl

theorem dec_PTMXA {m0 op : Nat} (p : Pm) (t : BitVec 9) (m : Rm) (x : Bool) (a : Tgt) (k0 : Pm → BitVec 9 → Rm → Bool → Tgt → Instr) (h0 : m0 = encPTMXA op p t m x a) :
    decPTMXA m0 k0 = .ok (k0 p t m x a) ∧ m0 / 2 ^ 24 = op := by
  have b0 := Pm_lt p
  have b1 := t.isLt
  have b2 := Rm_lt m
  have b3 := Bool_lt x
  have b4 := Tgt_lt a
  unfold encPTMXA at h0
  have b8 : t.toNat % 256 < 256 := by omega
  have b9 : t.toNat / 256 < 2 := by omega
  obtain ⟨tl, htl⟩ : ∃ v, v = t.toNat % 256 := ⟨_, rfl⟩
  obtain ⟨th, hth⟩ : ∃ v, v = t.toNat / 256 := ⟨_, rfl⟩
  rw [← htl] at h0 b8
  rw [← hth] at h0 b9
  have f0 : fld m0 0 9 = a.code := by
    unfold fld
    clear htl hth
    omega
  have f9 : fld m0 9 1 = th := by
    unfold fld
    clear htl hth
    omega
  have f10 : fld m0 10 1 = x.toNat := by
    unfold fld
    clear htl hth
    omega
  have f11 : fld m0 11 2 = m.code := by
    unfold fld
    clear htl hth
    omega
  have f13 : fld m0 13 1 = 0 := by
    unfold fld
    clear htl hth
    omega
  have f14 : fld m0 14 8 = tl := by
    unfold fld
    clear htl hth
    omega
  have f22 : fld m0 22 2 = p.code := by
    unfold fld
    clear htl hth
    omega
  refine ⟨?_, by clear htl hth; omega⟩
  simp [decPTMXA, f0, f9, f10, f11, f13, f14, f22, htl, hth, tile_dec]
  rfl

theorem dec_PNA4 {m0 op : Nat} (p : Pm) (n : BitVec 2) (a : Tgt) (k0 : Pm → BitVec 2 → Tgt → Instr) (h0 : m0 = encPNA4 op p n a) :
    decPNA4 m0 k0 = .ok (k0 p n a) ∧ m0 / 2 ^ 24 = op := by
  have b0 := Pm_lt p
  have b1 := n.isLt
  have b2 := Tgt_lt a
  unfold encPNA4 at h0
  have f0 : fld m0 0 9 = a.code := by
    unfold fld
    omega
  have f9 : fld m0 9 2 = n.toNat := by
    unfold fld
    omega
  have f11 : fld m0 11 11 = 0 := by
    unfold fld
    omega
  have f22 : fld m0 22 2 = p.code := by
    unfold fld
    omega
  refine ⟨?_, by omega⟩
  simp [decPNA4, f0, f9, f11, f22]
  rfl

theorem dec_PDNA {m0 op : Nat} (p : Pm) (d : Bool) (n : BitVec 2) (a : Tgt) (k0 : Pm → Bool → BitVec 2 → Tgt → Instr) (h0 : m0 = encPDNA op p d n a) :
    decPDNA m0 k0 = .ok (k0 p d n a) ∧ m0 / 2 ^ 24 = op := by
  have b0 := Pm_lt p
  have b1 := Bool_lt d
  have b2 := n.isLt
  have b3 := Tgt_lt a
  unfold encPDNA at h0
  have f0 : fld m0 0 9 = a.code := by
    unfold fld
    omega
  have f9 : fld m0 9 2 = n.toNat := by
    unfold fld
    omega
  have f11 : fld m0 11 3 = 0 := by
    unfold fld
    omega
  have f14 : fld m0 14 1 = d.toNat := by
    unfold fld
    omega
  have f15 : fld m0 15 7 = 0 := by
    unfold fld
    omega
  have f22 : fld m0 22 2 = p.code := by
    unfold fld
    omega
  refine ⟨?_, by omega⟩
  simp [decPDNA, f0, f9, f11, f14, f15, f22]
  rfl

theorem dec_PCRBNA {m0 op : Nat} (p : Pm) (c : Bool) (r : Bool) (b : BitVec 2) (n : BitVec 2) (a : Tgt) (k0 : Pm → Bool → Bool → BitVec 2 → BitVec 2 → Tgt → Instr) (h0 : m0 = encPCRBNA op p c r b n a) :
    decPCRBNA m0 k0 = .ok (k0 p c r b n a) ∧ m0 / 2 ^ 24 = op := by
  have b0 := Pm_lt p
  have b1 := Bool_lt c
  have b2 := Bool_lt r
  have b3 := b.isLt
  have b4 := n.isLt
  have b5 := Tgt_lt a
  unfold encPCRBNA at h0
  have f0 : fld m0 0 9 = a.code := by
    unfold fld
    omega
  have f9 : fld m0 9 2 = n.toNat := by
    unfold fld
    omega
  have f11 : fld m0 11 3 = 0 := by
    unfold fld
    omega
  have f14 : fld m0 14 2 = b.toNat := by
    unfold fld
    omega
  have f16 : fld m0 16 1 = r.toNat := by
    unfold fld
    omega
  have f17 : fld m0 17 1 = c.toNat := by
    unfold fld
    omega
  have f18 : fld m0 18 4 = 0 := by
    unfold fld
    omega
  have f22 : fld m0 22 2 = p.code := by
    unfold fld
    omega
  refine ⟨?_, by omega⟩
  simp [decPCRBNA, f0, f9, f11, f14, f16, f17, f18, f22]
  rfl

theorem dec_PBA {m0 op : Nat} (p : Pm) (b : BitVec 2) (a : Tgt) (k0 : Pm → BitVec 2 → Tgt → Instr) (h0 : m0 = encPBA op p b a) :
    decPBA m0 k0 = .ok (k0 p b a) ∧ m0 / 2 ^ 24 = op := by
  have b0 := Pm_lt p
  have b1 := b.isLt
  have b2 := Tgt_lt a
  unfold encPBA at h0
  have f0 : fld m0 0 9 = a.code := by
    unfold fld
    omega
  have f9 : fld m0 9 5 = 0 := by
    unfold fld
    omega
  have f14 : fld m0 14 2 = b.toNat := by
    unfold fld
    omega
  have f16 : fld m0 16 6 = 0 := by
    unfold fld
    omega
  have f22 : fld m0 22 2 = p.code := by
    unfold fld
    omega
  refine ⟨?_, by omega⟩
  simp [decPBA, f0, f9, f14, f16, f22]
  rfl

theorem dec_PIA2 {m0 op : Nat} (p : Pm) (i : BitVec 3) (a : Tgt) (k0 : Pm → BitVec 3 → Tgt → Instr) (h0 : m0 = encPIA2 op p i a) :
    decPIA2 m0 k0 = .ok (k0 p i a) ∧ m0 / 2 ^ 24 = op := by
  have b0 := Pm_lt p
  have b1 := i.isLt
  have b2 := Tgt_lt a
  unfold encPIA2 at h0
  have f0 : fld m0 0 9 = a.code := by
    unfold fld
    omega
  have f9 : fld m0 9 5 = 0 := by
    unfold fld
    omega
  have f14 : fld m0 14 3 = i.toNat := by
    unfold fld
    omega
  have f17 : fld m0 17 5 = 0 := by
    unfold fld
    omega
  have f22 : fld m0 22 2 = p.code := by
    unfold fld
    omega
  refine ⟨?_, by omega⟩
  simp [decPIA2, f0, f9, f14, f17, f22]
  rfl

theorem dec_PND {m0 op : Nat} (p : Pm) (n : BitVec 2) (d : Dst) (k0 : Pm → BitVec 2 → Dst → Instr) (h0 : m0 = encPND op p n d) :
    decPND m0 k0 = .ok (k0 p n d) ∧ m0 / 2 ^ 24 = op := by
  have b0 := Pm_lt p
  have b1 := n.isLt
  have b2 := Dst_lt d
  have b3 := Dst_form_lt d
  unfold encPND at h0
  have f0 : fld m0 0 9 = d.code := by
    unfold fld
    omega
  have f9 : fld m0 9 2 = n.toNat := by
    unfold fld
    omega
  have f11 : fld m0 11 2 = 0 := by
    unfold fld
    omega
  have f13 : fld m0 13 1 = d.form := by
    unfold fld
    omega
  have f14 : fld m0 14 8 = 0 := by
    unfold fld
    omega
  have f22 : fld m0 22 2 = p.code := by
    unfold fld
    omega
  refine ⟨?_, by omega⟩
  simp [decPND, f0, f9, f11, f13, f14, f22]
  rfl

theorem dec_POA {m0 op : Nat} (p : Pm) (o : Bool) (a : Tgt) (k0 : Pm → Bool → Tgt → Instr) (h0 : m0 = encPOA op p o a) :
    decPOA m0 k0 = .ok (k0 p o a) ∧ m0 / 2 ^ 24 = op := by
  have b0 := Pm_lt p
  have b1 := Bool_lt o
  have b2 := Tgt_lt a
  unfold encPOA at h0
  have f0 : fld m0 0 9 = a.code := by
    unfold fld
    omega
  have f9 : fld m0 9 5 = 0 := by
    unfold fld
    omega
  have f14 : fld m0 14 1 = o.toNat := by
    unfold fld
    omega
  have f15 : fld m0 15 7 = 0 := by
    unfold fld
    omega
  have f22 : fld m0 22 2 = p.code := by
    unfold fld
    omega
  refine ⟨?_, by omega⟩
  simp [decPOA, f0, f9, f14, f15, f22]
  rfl

theorem dec_PIA3 {m0 op : Nat} (p : Pm) (i : BitVec 2) (a : Tgt) (k0 : Pm → BitVec 2 → Tgt → Instr) (h0 : m0 = encPIA3 op p i a) :
    decPIA3 m0 k0 = .ok (k0 p i a) ∧ m0 / 2 ^ 24 = op := by
  have b0 := Pm_lt p
  have b1 := i.isLt
  have b2 := Tgt_lt a
  unfold encPIA3 at h0
  have f0 : fld m0 0 9 = a.code := by
    unfold fld
    omega
  have f9 : fld m0 9 5 = 0 := by
    unfold fld
    omega
  have f14 : fld m0 14 2 = i.toNat := by
    unfold fld
    omega
  have f16 : fld m0 16 6 = 0 := by
    unfold fld
    omega
  have f22 : fld m0 22 2 = p.code := by
    unfold fld
    omega
  refine ⟨?_, by omega⟩
  simp [decPIA3, f0, f9, f14, f16, f22]
  rfl

theorem dec_PIA4 {m0 op : Nat} (p : Pm) (i : BitVec 4) (a : Tgt) (k0 : Pm → BitVec 4 → Tgt → Instr) (h0 : m0 = encPIA4 op p i a) :
    decPIA4 m0 k0 = .ok (k0 p i a) ∧ m0 / 2 ^ 24 = op := by
  have b0 := Pm_lt p
  have b1 := i.isLt
  have b2 := Tgt_lt a
  unfold encPIA4 at h0
  have f0 : fld m0 0 9 = a.code := by
    unfold fld
    omega
  have f9 : fld m0 9 5 = 0 := by
    unfold fld
    omega
  have f14 : fld m0 14 4 = i.toNat := by
    unfold fld
    omega
  have f18 : fld m0 18 4 = 0 := by
    unfold fld
    omega
  have f22 : fld m0 22 2 = p.code := by
    unfold fld
    omega
  refine ⟨?_, by omega⟩
  simp [decPIA4, f0, f9, f14, f18, f22]
  rfl

theorem dec_PNA5 {m0 op : Nat} (p : Pm) (n : BitVec 6) (a : Tgt) (k0 : Pm → BitVec 6 → Tgt → Instr) (h0 : m0 = encPNA5 op p n a) :
    decPNA5 m0 k0 = .ok (k0 p n a) ∧ m0 / 2 ^ 24 = op := by
  have b0 := Pm_lt p
  have b1 := n.isLt
  have b2 := Tgt_lt a
  unfold encPNA5 at h0
  have f0 : fld m0 0 9 = a.code := by
    unfold fld
    omega
  have f9 : fld m0 9 5 = 0 := by
    unfold fld
    omega
  have f14 : fld m0 14 6 = n.toNat := by
    unfold fld
    omega
  have f20 : fld m0 20 2 = 0 := by
    unfold fld
    omega
  have f22 : fld m0 22 2 = p.code := by
    unfold fld
    omega
  refine ⟨?_, by omega⟩
  simp [decPNA5, f0, f9, f14, f20, f22]
  rfl

theorem dec_PQA {m0 op : Nat} (p : Pm) (q : BitVec 3) (a : Tgt) (k0 : Pm → BitVec 3 → Tgt → Instr) (h0 : m0 = encPQA op p q a) :
    decPQA m0 k0 = .ok (k0 p q a) ∧ m0 / 2 ^ 24 = op := by
  have b0 := Pm_lt p
  have b1 := q.isLt
  have b2 := Tgt_lt a
  unfold encPQA at h0
  have f0 : fld m0 0 9 = a.code := by
    unfold fld
    omega
  have f9 : fld m0 9 5 = 0 := by
    unfold fld
    omega
  have f14 : fld m0 14 3 = q.toNat := by
    unfold fld
    omega
  have f17 : fld m0 17 5 = 0 := by
    unfold fld
    omega
  have f22 : fld m0 22 2 = p.code := by
    unfold fld
    omega
  refine ⟨?_, by omega⟩
  simp [decPQA, f0, f9, f14, f17, f22]
  rfl

theorem dec_PCA {m0 op : Nat} (p : Pm) (c : BitVec 4) (a : Tgt) (k0 : Pm → BitVec 4 → Tgt → Instr) (h0 : m0 = encPCA op p c a) :
    decPCA m0 k0 = .ok (k0 p c a) ∧ m0 / 2 ^ 24 = op := by
  have b0 := Pm_lt p
  have b1 := c.isLt
  have b2 := Tgt_lt a
  unfold encPCA at h0
  have f0 : fld m0 0 9 = a.code := by
    unfold fld
    omega
  have f9 : fld m0 9 5 = 0 := by
    unfold fld
    omega
  have f14 : fld m0 14 4 = c.toNat := by
    unfold fld
    omega
  have f18 : fld m0 18 4 = 0 := by
    unfold fld
    omega
  have f22 : fld m0 22 2 = p.code := by
    unfold fld
    omega
  refine ⟨?_, by omega⟩
  simp [decPCA, f0, f9, f14, f18, f22]
  rfl

theorem dec_PCA2 {m0 op : Nat} (p : Pm) (c : BitVec 8) (a : Tgt) (k0 : Pm → BitVec 8 → Tgt → Instr) (h0 : m0 = encPCA2 op p c a) :
    decPCA2 m0 k0 = .ok (k0 p c a) ∧ m0 / 2 ^ 24 = op := by
  have b0 := Pm_lt p
  have b1 := c.isLt
  have b2 := Tgt_lt a
  unfold encPCA2 at h0
  have f0 : fld m0 0 9 = a.code := by
    unfold fld
    omega
  have f9 : fld m0 9 5 = 0 := by
    unfold fld
    omega
  have f14 : fld m0 14 8 = c.toNat := by
    unfold fld
    omega
  have f22 : fld m0 22 2 = p.code := by
    unfold fld
    omega
  refine ⟨?_, by omega⟩
  simp [decPCA2, f0, f9, f14, f22]
  rfl

theorem dec_PIDNA {m0 op : Nat} (p : Pm) (i : BitVec 3) (d : Bool) (n : BitVec 3) (a : Tgt) (k0 : Pm → BitVec 3 → Bool → BitVec 3 → Tgt → Instr) (h0 : m0 = encPIDNA op p i d n a) :
    decPIDNA m0 k0 = .ok (k0 p i d n a) ∧ m0 / 2 ^ 24 = op := by
  have b0 := Pm_lt p
  have b1 := i.isLt
  have b2 := Bool_lt d
  have b3 := n.isLt
  have b4 := Tgt_lt a
  unfold encPIDNA at h0
  have f0 : fld m0 0 9 = a.code := by
    unfold fld
    omega
  have f9 : fld m0 9 5 = 0 := by
    unfold fld
    omega
  have f14 : fld m0 14 3 = n.toNat := by
    unfold fld
    omega
  have f17 : fld m0 17 1 = 0 := by
    unfold fld
    omega
  have f18 : fld m0 18 1 = d.toNat := by
    unfold fld
    omega
  have f19 : fld m0 19 3 = i.toNat := by
    unfold fld
    omega
  have f22 : fld m0 22 2 = p.code := by
    unfold fld
    omega
  refine ⟨?_, by omega⟩
  simp [decPIDNA, f0, f9, f14, f17, f18, f19, f22]
  rfl

/-! ### Words -/

theorem fld_hi {m op : Nat} (h : m / 2 ^ 24 = op) (hop : op < 256) : fld m 28 4 = op / 16 := by
  unfold fld
  omega

theorem fld_lo {m op : Nat} (h : m / 2 ^ 24 = op) : fld m 24 4 = op % 16 := by
  unfold fld
  omega

/-- A word that its row of the opcode map reads as a well-formed instruction decodes to it. -/
theorem decode_word {m op : Nat} {i : Instr} (h : m / 2 ^ 24 = op) (hop : op < 256) (hl : op ≠ 0x32) (hr : decRow m = .ok i)
    (hw : i.wellFormed = true) : decode [BitVec.ofNat 32 m] = .ok (i, []) := by
  have hm : (BitVec.ofNat 32 m).toNat = m := by
    rw [BitVec.toNat_ofNat]
    omega
  have h0 : fld m 24 8 ≠ 0x32 := by
    unfold fld
    omega
  simp only [decode, hm, h0, if_false, hr]
  simp [bind, Except.bind, hw]
  rfl

/-- A LITW word followed by its constant decodes to the pair. -/
theorem decode_pair {w k : Word} {i : Instr} (h : fld w.toNat 24 8 = 0x32)
    (hd : decPA w.toNat (fun p a => .litw p a k) = .ok i) : decode [w, k] = .ok (i, []) := by
  simp only [decode, h, if_true, List.headD_cons, hd]
  rfl

end Sys2Proof.Laws
end

