-- ==== Sys2Proof/Laws/Lists.lean ====
section
/-! SUPPORT. Lists by place and by key, and memory: reading after writing, what a write leaves alone, and that every memory operation
keeps the canonical form. -/

namespace Sys2Proof.Laws

open Sys2Proof.Machine

/-! ### Entries under a key -/

@[simp] theorem look_put_same {α : Type} (k : Nat) (x : α) (l : List (Nat × α)) : look k (put k x l) = some x := by
  induction l with
  | nil => simp [put, look]
  | cons h t ih =>
    obtain ⟨j, y⟩ := h
    by_cases h1 : j = k
    · simp [put, look, h1]
    · by_cases h2 : k < j
      · simp [put, look, h1, h2]
      · simp [put, look, h1, h2, ih]

theorem look_put_other {α : Type} (k e : Nat) (x : α) (l : List (Nat × α)) (h : e ≠ k) : look e (put k x l) = look e l := by
  induction l with
  | nil => simp [put, look, h.symm]
  | cons p t ih =>
    obtain ⟨j, y⟩ := p
    by_cases h1 : j = k
    · subst h1
      simp [put, look, h.symm]
    · by_cases h2 : k < j
      · simp [put, look, h1, h2, h.symm]
      · simp [put, look, h1, h2, ih]

/-! ### Places -/

@[simp] theorem setAt_length {α : Type} (l : List α) (i : Nat) (y : α) : (setAt l i y).length = l.length := by
  induction l generalizing i with
  | nil => rfl
  | cons h t ih => cases i <;> simp [setAt, ih]

@[simp] theorem modAt_length {α : Type} (l : List α) (i : Nat) (f : α → α) : (modAt l i f).length = l.length := by
  induction l generalizing i with
  | nil => rfl
  | cons h t ih => cases i <;> simp [modAt, ih]

theorem getElem?_setAt_same {α : Type} (l : List α) (i : Nat) (y : α) (h : i < l.length) : (setAt l i y)[i]? = some y := by
  induction l generalizing i with
  | nil => simp at h
  | cons a t ih => cases i with
    | zero => simp [setAt]
    | succ n => simpa [setAt] using ih n (by simpa using h)

theorem getElem?_setAt_other {α : Type} (l : List α) (i j : Nat) (y : α) (h : i ≠ j) : (setAt l i y)[j]? = l[j]? := by
  induction l generalizing i j with
  | nil => simp [setAt]
  | cons a t ih => cases i <;> cases j <;> simp_all [setAt]

theorem getElem?_modAt_same {α : Type} (l : List α) (i : Nat) (f : α → α) : (modAt l i f)[i]? = l[i]?.map f := by
  induction l generalizing i with
  | nil => simp [modAt]
  | cons a t ih => cases i with
    | zero => simp [modAt]
    | succ n => simpa [modAt] using ih n

theorem getElem?_modAt_other {α : Type} (l : List α) (i j : Nat) (f : α → α) (h : i ≠ j) : (modAt l i f)[j]? = l[j]? := by
  induction l generalizing i j with
  | nil => simp [modAt]
  | cons a t ih => cases i <;> cases j <;> simp_all [modAt]

/-! ### Memory -/

theorem mem_get_set_same (m : Mem) (k : Nat) (v : Byte) (h : Mem.wf m = true) : Mem.get (Mem.set m k v) k = v := by
  induction m with
  | nil => by_cases hv : v = Mem.unwritten <;> simp [Mem.set, Mem.get, hv]
  | cons p m ih =>
    obtain ⟨a, b⟩ := p
    have tail : Mem.wf m = true := by
      cases m with
      | nil => rfl
      | cons q r => simp [Mem.wf] at h; exact h.2
    have low : ∀ j, j ≤ a → Mem.get m j = Mem.unwritten := by
      clear ih
      induction m generalizing a b with
      | nil => intro j _; rfl
      | cons q r ihr =>
        obtain ⟨c, d⟩ := q
        intro j hj
        simp [Mem.wf] at h
        have hc : a < c := h.1.2
        have : c ≠ j := by omega
        simp only [Mem.get, this, if_false]
        refine ihr c d h.2 ?_ j (by omega)
        cases r with
        | nil => rfl
        | cons q r => have := h.2; simp [Mem.wf] at this; exact this.2
    simp only [Mem.set]
    by_cases h1 : k < a
    · by_cases hv : v = Mem.unwritten
      · have h3 : a ≠ k := by omega
        simp [h1, hv, Mem.get, h3, low k (by omega)]
      · simp [h1, hv, Mem.get]
    · by_cases h2 : k = a
      · subst h2
        by_cases hv : v = Mem.unwritten
        · simp [hv, low k (by omega)]
        · simp [hv, Mem.get]
      · have h3 : a ≠ k := fun e => h2 e.symm
        simp [h1, h2, Mem.get, h3, ih tail]

theorem mem_get_set_other (m : Mem) (k j : Nat) (v : Byte) (hj : j ≠ k) : Mem.get (Mem.set m k v) j = Mem.get m j := by
  induction m with
  | nil => by_cases hv : v = Mem.unwritten <;> simp [Mem.set, Mem.get, hv, hj.symm]
  | cons p m ih =>
    obtain ⟨a, b⟩ := p
    simp only [Mem.set]
    by_cases h1 : k < a
    · by_cases hv : v = Mem.unwritten <;> simp [h1, hv, Mem.get, hj.symm]
    · by_cases h2 : k = a
      · subst h2
        by_cases hv : v = Mem.unwritten <;> simp [hv, Mem.get, hj.symm]
      · simp [h1, h2, Mem.get, ih]

/-- Every entry of a memory stands above an address, and the memory is in canonical form. -/
def above (lo : Nat) : Mem → Prop
  | [] => True
  | (a, b) :: m => lo ≤ a ∧ b ≠ Mem.unwritten ∧ above (a + 1) m

theorem above_mono (m : Mem) (i j : Nat) (h : i ≤ j) (hm : above j m) : above i m := by
  cases m with
  | nil => trivial
  | cons p m => exact ⟨Nat.le_trans h hm.1, hm.2.1, hm.2.2⟩

theorem wf_iff_above (m : Mem) : Mem.wf m = true ↔ above 0 m := by
  have key : ∀ (m : Mem) (a : Nat) (b : Byte), Mem.wf ((a, b) :: m) = true ↔ b ≠ Mem.unwritten ∧ above (a + 1) m := by
    intro m
    induction m with
    | nil => intro a b; simp [Mem.wf, above, Mem.unwritten]
    | cons p m ih =>
      obtain ⟨c, d⟩ := p
      intro a b
      have := ih c d
      simp only [Mem.wf, Bool.and_eq_true, decide_eq_true_eq, bne_iff_ne, ne_eq] at this ⊢
      rw [this]
      simp only [above, Mem.unwritten, ne_eq]
      constructor
      · rintro ⟨⟨h1, h2⟩, h3, h4⟩; exact ⟨h1, h2, h3, h4⟩
      · rintro ⟨h1, h2, h3, h4⟩; exact ⟨⟨h1, h2⟩, h3, h4⟩
  cases m with
  | nil => simp [Mem.wf, above]
  | cons p m =>
    obtain ⟨a, b⟩ := p
    rw [key]
    simp [above]

theorem above_set (m : Mem) (lo k : Nat) (v : Byte) (h : above lo m) (hk : lo ≤ k) : above lo (Mem.set m k v) := by
  induction m generalizing lo with
  | nil => by_cases hv : v = Mem.unwritten <;> simp [Mem.set, above, hv, hk]
  | cons p m ih =>
    obtain ⟨a, b⟩ := p
    obtain ⟨h1, h2, h3⟩ := h
    simp only [Mem.set]
    split
    · split
      · exact ⟨h1, h2, h3⟩
      · exact ⟨hk, by assumption, by omega, h2, h3⟩
    · split
      · split
        · exact above_mono m lo (a + 1) (by omega) h3
        · rename_i hka _
          subst hka
          exact ⟨hk, by assumption, h3⟩
      · exact ⟨h1, h2, ih (a + 1) h3 (by omega)⟩

/-- A write of one byte keeps the canonical form. -/
theorem wf_set (m : Mem) (k : Nat) (v : Byte) (h : Mem.wf m = true) : Mem.wf (Mem.set m k v) = true := by
  rw [wf_iff_above] at h ⊢
  exact above_set m 0 k v h (Nat.zero_le k)

/-- A write of several bytes keeps the canonical form. -/
theorem wf_write (m : Mem) (k : Nat) (bs : List Byte) (h : Mem.wf m = true) : Mem.wf (m.write k bs) = true := by
  induction bs generalizing m k with
  | nil => exact h
  | cons b bs ih => exact ih _ _ (wf_set m k b h)

theorem wf_writeN (m : Mem) (k n v : Nat) (h : Mem.wf m = true) : Mem.wf (m.writeN k n v) = true := wf_write m k _ h

/-- A write leaves every byte outside it alone. -/
theorem mem_get_write_other (m : Mem) (k j : Nat) (bs : List Byte) (h : j < k ∨ k + bs.length ≤ j) :
    Mem.get (m.write k bs) j = Mem.get m j := by
  induction bs generalizing m k with
  | nil => rfl
  | cons b bs ih =>
    simp only [List.length_cons] at h
    rw [Mem.write, ih _ _ (by omega), mem_get_set_other _ _ _ _ (by omega)]

/-- A byte of a write reads as written. -/
theorem mem_get_write_same (m : Mem) (k i : Nat) (bs : List Byte) (h : Mem.wf m = true) (hi : i < bs.length) :
    Mem.get (m.write k bs) (k + i) = bs[i] := by
  induction bs generalizing m k i with
  | nil => simp at hi
  | cons b bs ih =>
    cases i with
    | zero =>
      rw [Mem.write, mem_get_write_other _ _ _ _ (by omega)]
      exact mem_get_set_same _ _ _ h
    | succ n =>
      have := ih (m.set k b) (k + 1) n (wf_set m k b h) (by simpa using hi)
      rw [Mem.write, show k + (n + 1) = k + 1 + n by omega, this]
      rfl

end Sys2Proof.Laws
end

