-- ==== Sys2Proof/Laws/PerInstr.lean ====
section
/-! SUPPORT. The family RoundTrip: for each constructor of Instr, decoding the words that the encoder writes for a well-formed instruction
gives it back. An event has no words. -/

namespace Sys2Proof.Laws.RoundTrip

open Sys2Proof Sys2Proof.Laws

/-- A well-formed instruction that has words decodes to itself, with no word left over. -/
def Statement (i : Instr) : Prop := encode i ≠ [] → i.wellFormed = true → decode (encode i) = .ok (i, [])

theorem add (p : Pm) (sh : Shape) (u : Bool) (a : Tgt) (b : Tgt) : Statement (.add p sh u a b) := by
  intro _ hw
  obtain ⟨h1, h2⟩ := dec_PSHUAB p sh u a b Instr.add (op := 0x01) rfl
  refine decode_word h2 (by decide) (by decide) ?_ hw
  rw [decRow, fld_hi h2 (by decide), fld_lo h2]
  exact h1

theorem sub (p : Pm) (sh : Shape) (u : Bool) (a : Tgt) (b : Tgt) : Statement (.sub p sh u a b) := by
  intro _ hw
  obtain ⟨h1, h2⟩ := dec_PSHUAB p sh u a b Instr.sub (op := 0x02) rfl
  refine decode_word h2 (by decide) (by decide) ?_ hw
  rw [decRow, fld_hi h2 (by decide), fld_lo h2]
  exact h1

theorem mul (p : Pm) (sh : Shape) (u : Bool) (a : Tgt) (b : Tgt) : Statement (.mul p sh u a b) := by
  intro _ hw
  obtain ⟨h1, h2⟩ := dec_PSHUAB p sh u a b Instr.mul (op := 0x03) rfl
  refine decode_word h2 (by decide) (by decide) ?_ hw
  rw [decRow, fld_hi h2 (by decide), fld_lo h2]
  exact h1

theorem mulh (p : Pm) (sh : Shape) (u : Bool) (a : Tgt) (b : Tgt) : Statement (.mulh p sh u a b) := by
  intro _ hw
  obtain ⟨h1, h2⟩ := dec_PSHUAB p sh u a b Instr.mulh (op := 0x04) rfl
  refine decode_word h2 (by decide) (by decide) ?_ hw
  rw [decRow, fld_hi h2 (by decide), fld_lo h2]
  exact h1

theorem mad (p : Pm) (sh : Shape) (u : Bool) (a : Tgt) (b : Tgt) : Statement (.mad p sh u a b) := by
  intro _ hw
  obtain ⟨h1, h2⟩ := dec_PSHUAB p sh u a b Instr.mad (op := 0x05) rfl
  refine decode_word h2 (by decide) (by decide) ?_ hw
  rw [decRow, fld_hi h2 (by decide), fld_lo h2]
  exact h1

theorem div (p : Pm) (sh : Shape) (u : Bool) (a : Tgt) (b : Tgt) : Statement (.div p sh u a b) := by
  intro _ hw
  obtain ⟨h1, h2⟩ := dec_PSHUAB p sh u a b Instr.div (op := 0x06) rfl
  refine decode_word h2 (by decide) (by decide) ?_ hw
  rw [decRow, fld_hi h2 (by decide), fld_lo h2]
  exact h1

theorem rem (p : Pm) (sh : Shape) (u : Bool) (a : Tgt) (b : Tgt) : Statement (.rem p sh u a b) := by
  intro _ hw
  obtain ⟨h1, h2⟩ := dec_PSHUAB p sh u a b Instr.rem (op := 0x07) rfl
  refine decode_word h2 (by decide) (by decide) ?_ hw
  rw [decRow, fld_hi h2 (by decide), fld_lo h2]
  exact h1

theorem and_ (p : Pm) (sh : Shape) (u : Bool) (a : Tgt) (b : Tgt) : Statement (.and_ p sh u a b) := by
  intro _ hw
  obtain ⟨h1, h2⟩ := dec_PSHUAB p sh u a b Instr.and_ (op := 0x08) rfl
  refine decode_word h2 (by decide) (by decide) ?_ hw
  rw [decRow, fld_hi h2 (by decide), fld_lo h2]
  exact h1

theorem or_ (p : Pm) (sh : Shape) (u : Bool) (a : Tgt) (b : Tgt) : Statement (.or_ p sh u a b) := by
  intro _ hw
  obtain ⟨h1, h2⟩ := dec_PSHUAB p sh u a b Instr.or_ (op := 0x09) rfl
  refine decode_word h2 (by decide) (by decide) ?_ hw
  rw [decRow, fld_hi h2 (by decide), fld_lo h2]
  exact h1

theorem xor (p : Pm) (sh : Shape) (u : Bool) (a : Tgt) (b : Tgt) : Statement (.xor p sh u a b) := by
  intro _ hw
  obtain ⟨h1, h2⟩ := dec_PSHUAB p sh u a b Instr.xor (op := 0x0a) rfl
  refine decode_word h2 (by decide) (by decide) ?_ hw
  rw [decRow, fld_hi h2 (by decide), fld_lo h2]
  exact h1

theorem andn (p : Pm) (sh : Shape) (u : Bool) (a : Tgt) (b : Tgt) : Statement (.andn p sh u a b) := by
  intro _ hw
  obtain ⟨h1, h2⟩ := dec_PSHUAB p sh u a b Instr.andn (op := 0x0b) rfl
  refine decode_word h2 (by decide) (by decide) ?_ hw
  rw [decRow, fld_hi h2 (by decide), fld_lo h2]
  exact h1

theorem shl (p : Pm) (sh : Shape) (u : Bool) (a : Tgt) (b : Tgt) : Statement (.shl p sh u a b) := by
  intro _ hw
  obtain ⟨h1, h2⟩ := dec_PSHUAB p sh u a b Instr.shl (op := 0x0c) rfl
  refine decode_word h2 (by decide) (by decide) ?_ hw
  rw [decRow, fld_hi h2 (by decide), fld_lo h2]
  exact h1

theorem shr (p : Pm) (sh : Shape) (u : Bool) (a : Tgt) (b : Tgt) : Statement (.shr p sh u a b) := by
  intro _ hw
  obtain ⟨h1, h2⟩ := dec_PSHUAB p sh u a b Instr.shr (op := 0x0d) rfl
  refine decode_word h2 (by decide) (by decide) ?_ hw
  rw [decRow, fld_hi h2 (by decide), fld_lo h2]
  exact h1

theorem sra (p : Pm) (sh : Shape) (u : Bool) (a : Tgt) (b : Tgt) : Statement (.sra p sh u a b) := by
  intro _ hw
  obtain ⟨h1, h2⟩ := dec_PSHUAB p sh u a b Instr.sra (op := 0x0e) rfl
  refine decode_word h2 (by decide) (by decide) ?_ hw
  rw [decRow, fld_hi h2 (by decide), fld_lo h2]
  exact h1

theorem rol (p : Pm) (sh : Shape) (u : Bool) (a : Tgt) (b : Tgt) : Statement (.rol p sh u a b) := by
  intro _ hw
  obtain ⟨h1, h2⟩ := dec_PSHUAB p sh u a b Instr.rol (op := 0x0f) rfl
  refine decode_word h2 (by decide) (by decide) ?_ hw
  rw [decRow, fld_hi h2 (by decide), fld_lo h2]
  exact h1

theorem min (p : Pm) (sh : Shape) (u : Bool) (a : Tgt) (b : Tgt) : Statement (.min p sh u a b) := by
  intro _ hw
  obtain ⟨h1, h2⟩ := dec_PSHUAB p sh u a b Instr.min (op := 0x10) rfl
  refine decode_word h2 (by decide) (by decide) ?_ hw
  rw [decRow, fld_hi h2 (by decide), fld_lo h2]
  exact h1

theorem max (p : Pm) (sh : Shape) (u : Bool) (a : Tgt) (b : Tgt) : Statement (.max p sh u a b) := by
  intro _ hw
  obtain ⟨h1, h2⟩ := dec_PSHUAB p sh u a b Instr.max (op := 0x11) rfl
  refine decode_word h2 (by decide) (by decide) ?_ hw
  rw [decRow, fld_hi h2 (by decide), fld_lo h2]
  exact h1

theorem abs (p : Pm) (sh : Shape) (u : Bool) (a : Tgt) (b : Tgt) : Statement (.abs p sh u a b) := by
  intro _ hw
  obtain ⟨h1, h2⟩ := dec_PSHUAB p sh u a b Instr.abs (op := 0x12) rfl
  refine decode_word h2 (by decide) (by decide) ?_ hw
  rw [decRow, fld_hi h2 (by decide), fld_lo h2]
  exact h1

theorem neg (p : Pm) (sh : Shape) (u : Bool) (a : Tgt) (b : Tgt) : Statement (.neg p sh u a b) := by
  intro _ hw
  obtain ⟨h1, h2⟩ := dec_PSHUAB p sh u a b Instr.neg (op := 0x13) rfl
  refine decode_word h2 (by decide) (by decide) ?_ hw
  rw [decRow, fld_hi h2 (by decide), fld_lo h2]
  exact h1

theorem clz (p : Pm) (sh : Shape) (u : Bool) (a : Tgt) (b : Tgt) : Statement (.clz p sh u a b) := by
  intro _ hw
  obtain ⟨h1, h2⟩ := dec_PSHUAB p sh u a b Instr.clz (op := 0x14) rfl
  refine decode_word h2 (by decide) (by decide) ?_ hw
  rw [decRow, fld_hi h2 (by decide), fld_lo h2]
  exact h1

theorem popc (p : Pm) (sh : Shape) (u : Bool) (a : Tgt) (b : Tgt) : Statement (.popc p sh u a b) := by
  intro _ hw
  obtain ⟨h1, h2⟩ := dec_PSHUAB p sh u a b Instr.popc (op := 0x15) rfl
  refine decode_word h2 (by decide) (by decide) ?_ hw
  rw [decRow, fld_hi h2 (by decide), fld_lo h2]
  exact h1

theorem brev (p : Pm) (sh : Shape) (u : Bool) (a : Tgt) (b : Tgt) : Statement (.brev p sh u a b) := by
  intro _ hw
  obtain ⟨h1, h2⟩ := dec_PSHUAB p sh u a b Instr.brev (op := 0x16) rfl
  refine decode_word h2 (by decide) (by decide) ?_ hw
  rw [decRow, fld_hi h2 (by decide), fld_lo h2]
  exact h1

theorem bfx (p : Pm) (sh : Shape) (u : Bool) (a : Tgt) (b : Tgt) : Statement (.bfx p sh u a b) := by
  intro _ hw
  obtain ⟨h1, h2⟩ := dec_PSHUAB p sh u a b Instr.bfx (op := 0x17) rfl
  refine decode_word h2 (by decide) (by decide) ?_ hw
  rw [decRow, fld_hi h2 (by decide), fld_lo h2]
  exact h1

theorem bfi (p : Pm) (sh : Shape) (u : Bool) (a : Tgt) (b : Tgt) : Statement (.bfi p sh u a b) := by
  intro _ hw
  obtain ⟨h1, h2⟩ := dec_PSHUAB p sh u a b Instr.bfi (op := 0x18) rfl
  refine decode_word h2 (by decide) (by decide) ?_ hw
  rw [decRow, fld_hi h2 (by decide), fld_lo h2]
  exact h1

theorem cmp (p : Pm) (c : Cond) (a : Tgt) (b : Tgt) : Statement (.cmp p c a b) := by
  intro _ hw
  obtain ⟨h1, h2⟩ := dec_PCAB p c a b Instr.cmp (op := 0x19) rfl
  refine decode_word h2 (by decide) (by decide) ?_ hw
  rw [decRow, fld_hi h2 (by decide), fld_lo h2]
  exact h1

theorem sel (p : Pm) (a : Tgt) (b : Tgt) : Statement (.sel p a b) := by
  intro _ hw
  obtain ⟨h1, h2⟩ := dec_PAB p a b Instr.sel (op := 0x1a) rfl
  refine decode_word h2 (by decide) (by decide) ?_ hw
  rw [decRow, fld_hi h2 (by decide), fld_lo h2]
  exact h1

theorem sat (p : Pm) (sh : Shape) (o : Bool) (u : Bool) (a : Tgt) (b : Tgt) : Statement (.sat p sh o u a b) := by
  intro _ hw
  obtain ⟨h1, h2⟩ := dec_PSHOUAB p sh o u a b Instr.sat (op := 0x1b) rfl
  refine decode_word h2 (by decide) (by decide) ?_ hw
  rw [decRow, fld_hi h2 (by decide), fld_lo h2]
  exact h1

theorem mov (p : Pm) (sh : Shape) (u : Bool) (a : Tgt) (b : Tgt) : Statement (.mov p sh u a b) := by
  intro _ hw
  obtain ⟨h1, h2⟩ := dec_PSHUAB p sh u a b Instr.mov (op := 0x1c) rfl
  refine decode_word h2 (by decide) (by decide) ?_ hw
  rw [decRow, fld_hi h2 (by decide), fld_lo h2]
  exact h1

theorem nul (p : Pm) (a : Tgt) (b : Tgt) : Statement (.nul p a b) := by
  intro _ hw
  obtain ⟨h1, h2⟩ := dec_PAB p a b Instr.nul (op := 0x1d) rfl
  refine decode_word h2 (by decide) (by decide) ?_ hw
  rw [decRow, fld_hi h2 (by decide), fld_lo h2]
  exact h1

theorem addr (p : Pm) (u : Bool) (a : Tgt) (b : Tgt) : Statement (.addr p u a b) := by
  intro _ hw
  obtain ⟨h1, h2⟩ := dec_PUAB p u a b Instr.addr (op := 0x1e) rfl
  refine decode_word h2 (by decide) (by decide) ?_ hw
  rw [decRow, fld_hi h2 (by decide), fld_lo h2]
  exact h1

theorem aoff (p : Pm) (u : Bool) (a : Tgt) (b : Tgt) : Statement (.aoff p u a b) := by
  intro _ hw
  obtain ⟨h1, h2⟩ := dec_PUAB p u a b Instr.aoff (op := 0x1f) rfl
  refine decode_word h2 (by decide) (by decide) ?_ hw
  rw [decRow, fld_hi h2 (by decide), fld_lo h2]
  exact h1

theorem aidx (p : Pm) (u : Bool) (a : Tgt) (b : Tgt) : Statement (.aidx p u a b) := by
  intro _ hw
  obtain ⟨h1, h2⟩ := dec_PUAB p u a b Instr.aidx (op := 0x20) rfl
  refine decode_word h2 (by decide) (by decide) ?_ hw
  rw [decRow, fld_hi h2 (by decide), fld_lo h2]
  exact h1

theorem addi (p : Pm) (i : BitVec 13) (a : Tgt) : Statement (.addi p i a) := by
  intro _ hw
  obtain ⟨h1, h2⟩ := dec_PIA p i a Instr.addi (op := 0x28) rfl
  refine decode_word h2 (by decide) (by decide) ?_ hw
  rw [decRow, fld_hi h2 (by decide), fld_lo h2]
  exact h1

theorem andi (p : Pm) (i : BitVec 13) (a : Tgt) : Statement (.andi p i a) := by
  intro _ hw
  obtain ⟨h1, h2⟩ := dec_PIA p i a Instr.andi (op := 0x29) rfl
  refine decode_word h2 (by decide) (by decide) ?_ hw
  rw [decRow, fld_hi h2 (by decide), fld_lo h2]
  exact h1

theorem ori (p : Pm) (i : BitVec 13) (a : Tgt) : Statement (.ori p i a) := by
  intro _ hw
  obtain ⟨h1, h2⟩ := dec_PIA p i a Instr.ori (op := 0x2a) rfl
  refine decode_word h2 (by decide) (by decide) ?_ hw
  rw [decRow, fld_hi h2 (by decide), fld_lo h2]
  exact h1

theorem xori (p : Pm) (i : BitVec 13) (a : Tgt) : Statement (.xori p i a) := by
  intro _ hw
  obtain ⟨h1, h2⟩ := dec_PIA p i a Instr.xori (op := 0x2b) rfl
  refine decode_word h2 (by decide) (by decide) ?_ hw
  rw [decRow, fld_hi h2 (by decide), fld_lo h2]
  exact h1

theorem shli (p : Pm) (n : BitVec 5) (a : Tgt) : Statement (.shli p n a) := by
  intro _ hw
  obtain ⟨h1, h2⟩ := dec_PNA p n a Instr.shli (op := 0x2c) rfl
  refine decode_word h2 (by decide) (by decide) ?_ hw
  rw [decRow, fld_hi h2 (by decide), fld_lo h2]
  exact h1

theorem shri (p : Pm) (n : BitVec 5) (a : Tgt) : Statement (.shri p n a) := by
  intro _ hw
  obtain ⟨h1, h2⟩ := dec_PNA p n a Instr.shri (op := 0x2d) rfl
  refine decode_word h2 (by decide) (by decide) ?_ hw
  rw [decRow, fld_hi h2 (by decide), fld_lo h2]
  exact h1

theorem srai (p : Pm) (n : BitVec 5) (a : Tgt) : Statement (.srai p n a) := by
  intro _ hw
  obtain ⟨h1, h2⟩ := dec_PNA p n a Instr.srai (op := 0x2e) rfl
  refine decode_word h2 (by decide) (by decide) ?_ hw
  rw [decRow, fld_hi h2 (by decide), fld_lo h2]
  exact h1

theorem cmpi (p : Pm) (c : Cond) (v : BitVec 9) (a : Tgt) : Statement (.cmpi p c v a) := by
  intro _ hw
  obtain ⟨h1, h2⟩ := dec_PCVA p c v a Instr.cmpi (op := 0x2f) rfl
  refine decode_word h2 (by decide) (by decide) ?_ hw
  rw [decRow, fld_hi h2 (by decide), fld_lo h2]
  exact h1

theorem movi (p : Pm) (i : BitVec 13) (a : Tgt) : Statement (.movi p i a) := by
  intro _ hw
  obtain ⟨h1, h2⟩ := dec_PIA p i a Instr.movi (op := 0x30) rfl
  refine decode_word h2 (by decide) (by decide) ?_ hw
  rw [decRow, fld_hi h2 (by decide), fld_lo h2]
  exact h1

theorem movhi (p : Pm) (i : BitVec 13) (a : Tgt) : Statement (.movhi p i a) := by
  intro _ hw
  obtain ⟨h1, h2⟩ := dec_PIA p i a Instr.movhi (op := 0x31) rfl
  refine decode_word h2 (by decide) (by decide) ?_ hw
  rw [decRow, fld_hi h2 (by decide), fld_lo h2]
  exact h1

theorem litw (p : Pm) (a : Tgt) (k : BitVec 32) : Statement (.litw p a k) := by
  intro _ hw
  obtain ⟨h1, h2⟩ := dec_PA p a (fun p a => .litw p a k) (op := 0x32) rfl
  have hm : (BitVec.ofNat 32 (encPA 0x32 p a)).toNat = encPA 0x32 p a := by
    rw [BitVec.toNat_ofNat]
    omega
  have h0 : fld (encPA 0x32 p a) 24 8 = 0x32 := by
    unfold fld
    omega
  exact decode_pair (w := BitVec.ofNat 32 (encPA 0x32 p a)) (by rw [hm]; exact h0) (by rw [hm]; exact h1)

theorem muli (p : Pm) (i : BitVec 13) (a : Tgt) : Statement (.muli p i a) := by
  intro _ hw
  obtain ⟨h1, h2⟩ := dec_PIA p i a Instr.muli (op := 0x33) rfl
  refine decode_word h2 (by decide) (by decide) ?_ hw
  rw [decRow, fld_hi h2 (by decide), fld_lo h2]
  exact h1

theorem get (p : Pm) (n : BitVec 8) (x : Bool) (a : Tgt) : Statement (.get p n x a) := by
  intro _ hw
  obtain ⟨h1, h2⟩ := dec_PNXA p n x a Instr.get (op := 0x38) rfl
  refine decode_word h2 (by decide) (by decide) ?_ hw
  rw [decRow, fld_hi h2 (by decide), fld_lo h2]
  exact h1

theorem put (p : Pm) (n : BitVec 8) (a : Tgt) : Statement (.put p n a) := by
  intro _ hw
  obtain ⟨h1, h2⟩ := dec_PNA2 p n a Instr.put (op := 0x39) rfl
  refine decode_word h2 (by decide) (by decide) ?_ hw
  rw [decRow, fld_hi h2 (by decide), fld_lo h2]
  exact h1

theorem getx (p : Pm) (n : BitVec 8) (x : Bool) (a : Tgt) : Statement (.getx p n x a) := by
  intro _ hw
  obtain ⟨h1, h2⟩ := dec_PNXA p n x a Instr.getx (op := 0x3a) rfl
  refine decode_word h2 (by decide) (by decide) ?_ hw
  rw [decRow, fld_hi h2 (by decide), fld_lo h2]
  exact h1

theorem putx (p : Pm) (n : BitVec 8) (a : Tgt) : Statement (.putx p n a) := by
  intro _ hw
  obtain ⟨h1, h2⟩ := dec_PNA2 p n a Instr.putx (op := 0x3b) rfl
  refine decode_word h2 (by decide) (by decide) ?_ hw
  rw [decRow, fld_hi h2 (by decide), fld_lo h2]
  exact h1

theorem rempty (p : Pm) (n : BitVec 8) (a : Tgt) : Statement (.rempty p n a) := by
  intro _ hw
  obtain ⟨h1, h2⟩ := dec_PNA2 p n a Instr.rempty (op := 0x3c) rfl
  refine decode_word h2 (by decide) (by decide) ?_ hw
  rw [decRow, fld_hi h2 (by decide), fld_lo h2]
  exact h1

theorem rfull (p : Pm) (n : BitVec 8) (a : Tgt) : Statement (.rfull p n a) := by
  intro _ hw
  obtain ⟨h1, h2⟩ := dec_PNA2 p n a Instr.rfull (op := 0x3d) rfl
  refine decode_word h2 (by decide) (by decide) ?_ hw
  rw [decRow, fld_hi h2 (by decide), fld_lo h2]
  exact h1

theorem fadd (p : Pm) (sh : Shape) (f : FFmt) (a : Tgt) (b : Tgt) : Statement (.fadd p sh f a b) := by
  intro _ hw
  obtain ⟨h1, h2⟩ := dec_PSHFAB p sh f a b Instr.fadd (op := 0x40) rfl
  refine decode_word h2 (by decide) (by decide) ?_ hw
  rw [decRow, fld_hi h2 (by decide), fld_lo h2]
  exact h1

theorem fsub (p : Pm) (sh : Shape) (f : FFmt) (a : Tgt) (b : Tgt) : Statement (.fsub p sh f a b) := by
  intro _ hw
  obtain ⟨h1, h2⟩ := dec_PSHFAB p sh f a b Instr.fsub (op := 0x41) rfl
  refine decode_word h2 (by decide) (by decide) ?_ hw
  rw [decRow, fld_hi h2 (by decide), fld_lo h2]
  exact h1

theorem fmul (p : Pm) (sh : Shape) (f : FFmt) (a : Tgt) (b : Tgt) : Statement (.fmul p sh f a b) := by
  intro _ hw
  obtain ⟨h1, h2⟩ := dec_PSHFAB p sh f a b Instr.fmul (op := 0x42) rfl
  refine decode_word h2 (by decide) (by decide) ?_ hw
  rw [decRow, fld_hi h2 (by decide), fld_lo h2]
  exact h1

theorem fma (p : Pm) (sh : Shape) (f : FFmt) (a : Tgt) (b : Tgt) : Statement (.fma p sh f a b) := by
  intro _ hw
  obtain ⟨h1, h2⟩ := dec_PSHFAB p sh f a b Instr.fma (op := 0x43) rfl
  refine decode_word h2 (by decide) (by decide) ?_ hw
  rw [decRow, fld_hi h2 (by decide), fld_lo h2]
  exact h1

theorem fmin (p : Pm) (sh : Shape) (f : FFmt) (a : Tgt) (b : Tgt) : Statement (.fmin p sh f a b) := by
  intro _ hw
  obtain ⟨h1, h2⟩ := dec_PSHFAB p sh f a b Instr.fmin (op := 0x44) rfl
  refine decode_word h2 (by decide) (by decide) ?_ hw
  rw [decRow, fld_hi h2 (by decide), fld_lo h2]
  exact h1

theorem fmax (p : Pm) (sh : Shape) (f : FFmt) (a : Tgt) (b : Tgt) : Statement (.fmax p sh f a b) := by
  intro _ hw
  obtain ⟨h1, h2⟩ := dec_PSHFAB p sh f a b Instr.fmax (op := 0x45) rfl
  refine decode_word h2 (by decide) (by decide) ?_ hw
  rw [decRow, fld_hi h2 (by decide), fld_lo h2]
  exact h1

theorem fabs (p : Pm) (sh : Shape) (f : FFmt) (a : Tgt) (b : Tgt) : Statement (.fabs p sh f a b) := by
  intro _ hw
  obtain ⟨h1, h2⟩ := dec_PSHFAB p sh f a b Instr.fabs (op := 0x46) rfl
  refine decode_word h2 (by decide) (by decide) ?_ hw
  rw [decRow, fld_hi h2 (by decide), fld_lo h2]
  exact h1

theorem fneg (p : Pm) (sh : Shape) (f : FFmt) (a : Tgt) (b : Tgt) : Statement (.fneg p sh f a b) := by
  intro _ hw
  obtain ⟨h1, h2⟩ := dec_PSHFAB p sh f a b Instr.fneg (op := 0x47) rfl
  refine decode_word h2 (by decide) (by decide) ?_ hw
  rw [decRow, fld_hi h2 (by decide), fld_lo h2]
  exact h1

theorem fcmp (p : Pm) (sh : Shape) (f : FFmt) (a : Tgt) (b : Tgt) : Statement (.fcmp p sh f a b) := by
  intro _ hw
  obtain ⟨h1, h2⟩ := dec_PSHFAB p sh f a b Instr.fcmp (op := 0x48) rfl
  refine decode_word h2 (by decide) (by decide) ?_ hw
  rw [decRow, fld_hi h2 (by decide), fld_lo h2]
  exact h1

theorem fclass (p : Pm) (sh : Shape) (f : FFmt) (a : Tgt) (b : Tgt) : Statement (.fclass p sh f a b) := by
  intro _ hw
  obtain ⟨h1, h2⟩ := dec_PSHFAB p sh f a b Instr.fclass (op := 0x49) rfl
  refine decode_word h2 (by decide) (by decide) ?_ hw
  rw [decRow, fld_hi h2 (by decide), fld_lo h2]
  exact h1

theorem frcp (p : Pm) (sh : Shape) (f : FFmt) (a : Tgt) (b : Tgt) : Statement (.frcp p sh f a b) := by
  intro _ hw
  obtain ⟨h1, h2⟩ := dec_PSHFAB p sh f a b Instr.frcp (op := 0x4a) rfl
  refine decode_word h2 (by decide) (by decide) ?_ hw
  rw [decRow, fld_hi h2 (by decide), fld_lo h2]
  exact h1

theorem frsq (p : Pm) (sh : Shape) (f : FFmt) (a : Tgt) (b : Tgt) : Statement (.frsq p sh f a b) := by
  intro _ hw
  obtain ⟨h1, h2⟩ := dec_PSHFAB p sh f a b Instr.frsq (op := 0x4b) rfl
  refine decode_word h2 (by decide) (by decide) ?_ hw
  rw [decRow, fld_hi h2 (by decide), fld_lo h2]
  exact h1

theorem fexp2 (p : Pm) (sh : Shape) (f : FFmt) (a : Tgt) (b : Tgt) : Statement (.fexp2 p sh f a b) := by
  intro _ hw
  obtain ⟨h1, h2⟩ := dec_PSHFAB p sh f a b Instr.fexp2 (op := 0x4c) rfl
  refine decode_word h2 (by decide) (by decide) ?_ hw
  rw [decRow, fld_hi h2 (by decide), fld_lo h2]
  exact h1

theorem flog2 (p : Pm) (sh : Shape) (f : FFmt) (a : Tgt) (b : Tgt) : Statement (.flog2 p sh f a b) := by
  intro _ hw
  obtain ⟨h1, h2⟩ := dec_PSHFAB p sh f a b Instr.flog2 (op := 0x4d) rfl
  refine decode_word h2 (by decide) (by decide) ?_ hw
  rw [decRow, fld_hi h2 (by decide), fld_lo h2]
  exact h1

theorem fsqrt (p : Pm) (sh : Shape) (f : FFmt) (a : Tgt) (b : Tgt) : Statement (.fsqrt p sh f a b) := by
  intro _ hw
  obtain ⟨h1, h2⟩ := dec_PSHFAB p sh f a b Instr.fsqrt (op := 0x4e) rfl
  refine decode_word h2 (by decide) (by decide) ?_ hw
  rw [decRow, fld_hi h2 (by decide), fld_lo h2]
  exact h1

theorem fdiv (p : Pm) (sh : Shape) (f : FFmt) (a : Tgt) (b : Tgt) : Statement (.fdiv p sh f a b) := by
  intro _ hw
  obtain ⟨h1, h2⟩ := dec_PSHFAB p sh f a b Instr.fdiv (op := 0x4f) rfl
  refine decode_word h2 (by decide) (by decide) ?_ hw
  rw [decRow, fld_hi h2 (by decide), fld_lo h2]
  exact h1

theorem cvt (p : Pm) (s : Fmt) (t : Fmt) (k : BitVec 2) (x : Bool) (m : Rm) (a : Tgt) : Statement (.cvt p s t k x m a) := by
  intro _ hw
  obtain ⟨h1, h2⟩ := dec_PSTKXMA p s t k x m a Instr.cvt (op := 0x50) rfl
  refine decode_word h2 (by decide) (by decide) ?_ hw
  rw [decRow, fld_hi h2 (by decide), fld_lo h2]
  exact h1

theorem cvti (p : Pm) (s : Fmt) (f : BitVec 4) (k : BitVec 2) (u : Bool) (m : Rm) (a : Tgt) : Statement (.cvti p s f k u m a) := by
  intro _ hw
  obtain ⟨h1, h2⟩ := dec_PSFKUMA p s f k u m a Instr.cvti (op := 0x51) rfl
  refine decode_word h2 (by decide) (by decide) ?_ hw
  rw [decRow, fld_hi h2 (by decide), fld_lo h2]
  exact h1

theorem cvtf (p : Pm) (t : Fmt) (f : BitVec 4) (x : Bool) (u : Bool) (m : Rm) (a : Tgt) : Statement (.cvtf p t f x u m a) := by
  intro _ hw
  obtain ⟨h1, h2⟩ := dec_PTFXUMA p t f x u m a Instr.cvtf (op := 0x52) rfl
  refine decode_word h2 (by decide) (by decide) ?_ hw
  rw [decRow, fld_hi h2 (by decide), fld_lo h2]
  exact h1

theorem scale (p : Pm) (s : Fmt) (a : Tgt) : Statement (.scale p s a) := by
  intro _ hw
  obtain ⟨h1, h2⟩ := dec_PSA p s a Instr.scale (op := 0x53) rfl
  refine decode_word h2 (by decide) (by decide) ?_ hw
  rw [decRow, fld_hi h2 (by decide), fld_lo h2]
  exact h1

theorem pack (p : Pm) (h : BitVec 2) (o : Bool) (u : Bool) (a : Tgt) (b : Tgt) : Statement (.pack p h o u a b) := by
  intro _ hw
  obtain ⟨h1, h2⟩ := dec_PHOUAB p h o u a b Instr.pack (op := 0x54) rfl
  refine decode_word h2 (by decide) (by decide) ?_ hw
  rw [decRow, fld_hi h2 (by decide), fld_lo h2]
  exact h1

theorem unpack (p : Pm) (h : BitVec 2) (u : Bool) (a : Tgt) (b : Tgt) : Statement (.unpack p h u a b) := by
  intro _ hw
  obtain ⟨h1, h2⟩ := dec_PHUAB p h u a b Instr.unpack (op := 0x55) rfl
  refine decode_word h2 (by decide) (by decide) ?_ hw
  rw [decRow, fld_hi h2 (by decide), fld_lo h2]
  exact h1

theorem bcast (p : Pm) (w : BitVec 2) (i : BitVec 6) (a : Tgt) : Statement (.bcast p w i a) := by
  intro _ hw
  obtain ⟨h1, h2⟩ := dec_PWIA p w i a Instr.bcast (op := 0x58) rfl
  refine decode_word h2 (by decide) (by decide) ?_ hw
  rw [decRow, fld_hi h2 (by decide), fld_lo h2]
  exact h1

theorem shuf (p : Pm) (h : Bool) (a : Tgt) (b : Tgt) : Statement (.shuf p h a b) := by
  intro _ hw
  obtain ⟨h1, h2⟩ := dec_PHAB p h a b Instr.shuf (op := 0x59) rfl
  refine decode_word h2 (by decide) (by decide) ?_ hw
  rw [decRow, fld_hi h2 (by decide), fld_lo h2]
  exact h1

theorem rot (p : Pm) (d : Bool) (f : Bool) (n : BitVec 4) (a : Tgt) : Statement (.rot p d f n a) := by
  intro _ hw
  obtain ⟨h1, h2⟩ := dec_PDFNA p d f n a Instr.rot (op := 0x5a) rfl
  refine decode_word h2 (by decide) (by decide) ?_ hw
  rw [decRow, fld_hi h2 (by decide), fld_lo h2]
  exact h1

theorem red (p : Pm) (o : RedOp) (g : BitVec 2) (a : Tgt) : Statement (.red p o g a) := by
  intro _ hw
  obtain ⟨h1, h2⟩ := dec_POGA p o g a Instr.red (op := 0x5b) rfl
  refine decode_word h2 (by decide) (by decide) ?_ hw
  rw [decRow, fld_hi h2 (by decide), fld_lo h2]
  exact h1

theorem scan (p : Pm) (o : RedOp) (e : Bool) (a : Tgt) : Statement (.scan p o e a) := by
  intro _ hw
  obtain ⟨h1, h2⟩ := dec_POEA p o e a Instr.scan (op := 0x5c) rfl
  refine decode_word h2 (by decide) (by decide) ?_ hw
  rw [decRow, fld_hi h2 (by decide), fld_lo h2]
  exact h1

theorem topk (p : Pm) (f : Fmt) (k : BitVec 4) (x : Bool) (a : Tgt) : Statement (.topk p f k x a) := by
  intro _ hw
  obtain ⟨h1, h2⟩ := dec_PFKXA p f k x a Instr.topk (op := 0x5d) rfl
  refine decode_word h2 (by decide) (by decide) ?_ hw
  rw [decRow, fld_hi h2 (by decide), fld_lo h2]
  exact h1

theorem lmask (p : Pm) (m : BitVec 2) (a : Tgt) : Statement (.lmask p m a) := by
  intro _ hw
  obtain ⟨h1, h2⟩ := dec_PMA p m a Instr.lmask (op := 0x5e) rfl
  refine decode_word h2 (by decide) (by decide) ?_ hw
  rw [decRow, fld_hi h2 (by decide), fld_lo h2]
  exact h1

theorem compact (p : Pm) (h : Bool) (a : Tgt) (b : Tgt) : Statement (.compact p h a b) := by
  intro _ hw
  obtain ⟨h1, h2⟩ := dec_PHAB p h a b Instr.compact (op := 0x5f) rfl
  refine decode_word h2 (by decide) (by decide) ?_ hw
  rw [decRow, fld_hi h2 (by decide), fld_lo h2]
  exact h1

theorem expand (p : Pm) (h : Bool) (a : Tgt) (b : Tgt) : Statement (.expand p h a b) := by
  intro _ hw
  obtain ⟨h1, h2⟩ := dec_PHAB p h a b Instr.expand (op := 0x60) rfl
  refine decode_word h2 (by decide) (by decide) ?_ hw
  rw [decRow, fld_hi h2 (by decide), fld_lo h2]
  exact h1

theorem dot (p : Pm) (sh : Shape) (f : FFmt) (a : Tgt) (b : Tgt) : Statement (.dot p sh f a b) := by
  intro _ hw
  obtain ⟨h1, h2⟩ := dec_PSHFAB p sh f a b Instr.dot (op := 0x61) rfl
  refine decode_word h2 (by decide) (by decide) ?_ hw
  rw [decRow, fld_hi h2 (by decide), fld_lo h2]
  exact h1

theorem in_ (p : Pm) (n : BitVec 3) (a : Tgt) : Statement (.in_ p n a) := by
  intro _ hw
  obtain ⟨h1, h2⟩ := dec_PNA3 p n a Instr.in_ (op := 0x70) rfl
  refine decode_word h2 (by decide) (by decide) ?_ hw
  rw [decRow, fld_hi h2 (by decide), fld_lo h2]
  exact h1

theorem eos (p : Pm) (k : BitVec 2) (a : Tgt) : Statement (.eos p k a) := by
  intro _ hw
  obtain ⟨h1, h2⟩ := dec_PKA p k a Instr.eos (op := 0x71) rfl
  refine decode_word h2 (by decide) (by decide) ?_ hw
  rw [decRow, fld_hi h2 (by decide), fld_lo h2]
  exact h1

theorem emit (p : Pm) (k : BitVec 2) (a : Tgt) : Statement (.emit p k a) := by
  intro _ hw
  obtain ⟨h1, h2⟩ := dec_PKA p k a Instr.emit (op := 0x72) rfl
  refine decode_word h2 (by decide) (by decide) ?_ hw
  rw [decRow, fld_hi h2 (by decide), fld_lo h2]
  exact h1

theorem bound (p : Pm) (l : BitVec 2) (a : Tgt) : Statement (.bound p l a) := by
  intro _ hw
  obtain ⟨h1, h2⟩ := dec_PLA p l a Instr.bound (op := 0x73) rfl
  refine decode_word h2 (by decide) (by decide) ?_ hw
  rw [decRow, fld_hi h2 (by decide), fld_lo h2]
  exact h1

theorem filt (p : Pm) (g : Bool) (w : Bool) (c : BitVec 3) (f : BitVec 3) (a : Tgt) : Statement (.filt p g w c f a) := by
  intro _ hw
  obtain ⟨h1, h2⟩ := dec_PGWCFA p g w c f a Instr.filt (op := 0x74) rfl
  refine decode_word h2 (by decide) (by decide) ?_ hw
  rw [decRow, fld_hi h2 (by decide), fld_lo h2]
  exact h1

theorem merge (p : Pm) (f : BitVec 3) (t : BitVec 3) (g : Bool) (a : Tgt) : Statement (.merge p f t g a) := by
  intro _ hw
  obtain ⟨h1, h2⟩ := dec_PFTGA p f t g a Instr.merge (op := 0x75) rfl
  refine decode_word h2 (by decide) (by decide) ?_ hw
  rw [decRow, fld_hi h2 (by decide), fld_lo h2]
  exact h1

theorem gate (p : Pm) (s : Bool) (a : Tgt) : Statement (.gate p s a) := by
  intro _ hw
  obtain ⟨h1, h2⟩ := dec_PSA2 p s a Instr.gate (op := 0x76) rfl
  refine decode_word h2 (by decide) (by decide) ?_ hw
  rw [decRow, fld_hi h2 (by decide), fld_lo h2]
  exact h1

theorem mark (p : Pm) (a : Tgt) : Statement (.mark p a) := by
  intro _ hw
  obtain ⟨h1, h2⟩ := dec_PA p a Instr.mark (op := 0x77) rfl
  refine decode_word h2 (by decide) (by decide) ?_ hw
  rw [decRow, fld_hi h2 (by decide), fld_lo h2]
  exact h1

theorem drop (p : Pm) (n : BitVec 3) (a : Tgt) : Statement (.drop p n a) := by
  intro _ hw
  obtain ⟨h1, h2⟩ := dec_PNA3 p n a Instr.drop (op := 0x78) rfl
  refine decode_word h2 (by decide) (by decide) ?_ hw
  rw [decRow, fld_hi h2 (by decide), fld_lo h2]
  exact h1

theorem ld (p : Pm) (w : Width) (c : Scope) (o : Ord) (x : Bool) (v : Bool) (n : BitVec 2) (d : Dst) : Statement (.ld p w c o x v n d) := by
  intro _ hw
  obtain ⟨h1, h2⟩ := dec_PWCOXVND p w c o x v n d Instr.ld (op := 0x80) rfl
  refine decode_word h2 (by decide) (by decide) ?_ hw
  rw [decRow, fld_hi h2 (by decide), fld_lo h2]
  exact h1

theorem st (p : Pm) (w : Width) (c : Scope) (o : Ord) (v : Bool) (n : BitVec 2) (a : Tgt) : Statement (.st p w c o v n a) := by
  intro _ hw
  obtain ⟨h1, h2⟩ := dec_PWCOVNA p w c o v n a Instr.st (op := 0x81) rfl
  refine decode_word h2 (by decide) (by decide) ?_ hw
  rw [decRow, fld_hi h2 (by decide), fld_lo h2]
  exact h1

theorem ldv (p : Pm) (w : Width) (c : Scope) (o : Ord) (x : Bool) (v : Bool) (n : BitVec 2) (a : Tgt) : Statement (.ldv p w c o x v n a) := by
  intro _ hw
  obtain ⟨h1, h2⟩ := dec_PWCOXVNA p w c o x v n a Instr.ldv (op := 0x82) rfl
  refine decode_word h2 (by decide) (by decide) ?_ hw
  rw [decRow, fld_hi h2 (by decide), fld_lo h2]
  exact h1

theorem stv (p : Pm) (w : Width) (c : Scope) (o : Ord) (v : Bool) (n : BitVec 2) (a : Tgt) : Statement (.stv p w c o v n a) := by
  intro _ hw
  obtain ⟨h1, h2⟩ := dec_PWCOVNA p w c o v n a Instr.stv (op := 0x83) rfl
  refine decode_word h2 (by decide) (by decide) ?_ hw
  rw [decRow, fld_hi h2 (by decide), fld_lo h2]
  exact h1

theorem recl (p : Pm) (c : Scope) (o : Ord) (n : BitVec 2) (a : Tgt) : Statement (.recl p c o n a) := by
  intro _ hw
  obtain ⟨h1, h2⟩ := dec_PCONA p c o n a Instr.recl (op := 0x84) rfl
  refine decode_word h2 (by decide) (by decide) ?_ hw
  rw [decRow, fld_hi h2 (by decide), fld_lo h2]
  exact h1

theorem ldt (p : Pm) (c : Scope) (o : Ord) (n : BitVec 2) (a : Tgt) : Statement (.ldt p c o n a) := by
  intro _ hw
  obtain ⟨h1, h2⟩ := dec_PCONA p c o n a Instr.ldt (op := 0x85) rfl
  refine decode_word h2 (by decide) (by decide) ?_ hw
  rw [decRow, fld_hi h2 (by decide), fld_lo h2]
  exact h1

theorem stt (p : Pm) (c : Scope) (o : Ord) (n : BitVec 2) (a : Tgt) : Statement (.stt p c o n a) := by
  intro _ hw
  obtain ⟨h1, h2⟩ := dec_PCONA p c o n a Instr.stt (op := 0x86) rfl
  refine decode_word h2 (by decide) (by decide) ?_ hw
  rw [decRow, fld_hi h2 (by decide), fld_lo h2]
  exact h1

theorem pref (p : Pm) (c : Scope) (o : Ord) (n : BitVec 2) (a : Tgt) : Statement (.pref p c o n a) := by
  intro _ hw
  obtain ⟨h1, h2⟩ := dec_PCONA p c o n a Instr.pref (op := 0x87) rfl
  refine decode_word h2 (by decide) (by decide) ?_ hw
  rw [decRow, fld_hi h2 (by decide), fld_lo h2]
  exact h1

theorem gath (p : Pm) (w : Width) (c : Scope) (o : Ord) (x : Bool) (n : BitVec 2) (d : Dst) : Statement (.gath p w c o x n d) := by
  intro _ hw
  obtain ⟨h1, h2⟩ := dec_PWCOXND p w c o x n d Instr.gath (op := 0x88) rfl
  refine decode_word h2 (by decide) (by decide) ?_ hw
  rw [decRow, fld_hi h2 (by decide), fld_lo h2]
  exact h1

theorem scat (p : Pm) (w : Width) (c : Scope) (o : Ord) (n : BitVec 2) (a : Tgt) : Statement (.scat p w c o n a) := by
  intro _ hw
  obtain ⟨h1, h2⟩ := dec_PWCONA p w c o n a Instr.scat (op := 0x89) rfl
  refine decode_word h2 (by decide) (by decide) ?_ hw
  rw [decRow, fld_hi h2 (by decide), fld_lo h2]
  exact h1

theorem aadd (p : Pm) (w : Width) (c : Scope) (o : Ord) (n : BitVec 2) (a : Tgt) : Statement (.aadd p w c o n a) := by
  intro _ hw
  obtain ⟨h1, h2⟩ := dec_PWCONA p w c o n a Instr.aadd (op := 0x8a) rfl
  refine decode_word h2 (by decide) (by decide) ?_ hw
  rw [decRow, fld_hi h2 (by decide), fld_lo h2]
  exact h1

theorem amin (p : Pm) (w : Width) (c : Scope) (o : Ord) (x : Bool) (n : BitVec 2) (a : Tgt) : Statement (.amin p w c o x n a) := by
  intro _ hw
  obtain ⟨h1, h2⟩ := dec_PWCOXNA p w c o x n a Instr.amin (op := 0x8b) rfl
  refine decode_word h2 (by decide) (by decide) ?_ hw
  rw [decRow, fld_hi h2 (by decide), fld_lo h2]
  exact h1

theorem amax (p : Pm) (w : Width) (c : Scope) (o : Ord) (x : Bool) (n : BitVec 2) (a : Tgt) : Statement (.amax p w c o x n a) := by
  intro _ hw
  obtain ⟨h1, h2⟩ := dec_PWCOXNA p w c o x n a Instr.amax (op := 0x8c) rfl
  refine decode_word h2 (by decide) (by decide) ?_ hw
  rw [decRow, fld_hi h2 (by decide), fld_lo h2]
  exact h1

theorem aand (p : Pm) (w : Width) (c : Scope) (o : Ord) (n : BitVec 2) (a : Tgt) : Statement (.aand p w c o n a) := by
  intro _ hw
  obtain ⟨h1, h2⟩ := dec_PWCONA p w c o n a Instr.aand (op := 0x8d) rfl
  refine decode_word h2 (by decide) (by decide) ?_ hw
  rw [decRow, fld_hi h2 (by decide), fld_lo h2]
  exact h1

theorem aor (p : Pm) (w : Width) (c : Scope) (o : Ord) (n : BitVec 2) (a : Tgt) : Statement (.aor p w c o n a) := by
  intro _ hw
  obtain ⟨h1, h2⟩ := dec_PWCONA p w c o n a Instr.aor (op := 0x8e) rfl
  refine decode_word h2 (by decide) (by decide) ?_ hw
  rw [decRow, fld_hi h2 (by decide), fld_lo h2]
  exact h1

theorem axor (p : Pm) (w : Width) (c : Scope) (o : Ord) (n : BitVec 2) (a : Tgt) : Statement (.axor p w c o n a) := by
  intro _ hw
  obtain ⟨h1, h2⟩ := dec_PWCONA p w c o n a Instr.axor (op := 0x8f) rfl
  refine decode_word h2 (by decide) (by decide) ?_ hw
  rw [decRow, fld_hi h2 (by decide), fld_lo h2]
  exact h1

theorem axch (p : Pm) (w : Width) (c : Scope) (o : Ord) (n : BitVec 2) (a : Tgt) : Statement (.axch p w c o n a) := by
  intro _ hw
  obtain ⟨h1, h2⟩ := dec_PWCONA p w c o n a Instr.axch (op := 0x90) rfl
  refine decode_word h2 (by decide) (by decide) ?_ hw
  rw [decRow, fld_hi h2 (by decide), fld_lo h2]
  exact h1

theorem acas (p : Pm) (w : Width) (c : Scope) (o : Ord) (n : BitVec 2) (a : Tgt) : Statement (.acas p w c o n a) := by
  intro _ hw
  obtain ⟨h1, h2⟩ := dec_PWCONA p w c o n a Instr.acas (op := 0x91) rfl
  refine decode_word h2 (by decide) (by decide) ?_ hw
  rw [decRow, fld_hi h2 (by decide), fld_lo h2]
  exact h1

theorem afadd (p : Pm) (w : Width) (c : Scope) (o : Ord) (n : BitVec 2) (a : Tgt) : Statement (.afadd p w c o n a) := by
  intro _ hw
  obtain ⟨h1, h2⟩ := dec_PWCONA p w c o n a Instr.afadd (op := 0x92) rfl
  refine decode_word h2 (by decide) (by decide) ?_ hw
  rw [decRow, fld_hi h2 (by decide), fld_lo h2]
  exact h1

theorem ascat (p : Pm) (w : Width) (c : Scope) (o : Ord) (n : BitVec 2) (a : Tgt) : Statement (.ascat p w c o n a) := by
  intro _ hw
  obtain ⟨h1, h2⟩ := dec_PWCONA p w c o n a Instr.ascat (op := 0x93) rfl
  refine decode_word h2 (by decide) (by decide) ?_ hw
  rw [decRow, fld_hi h2 (by decide), fld_lo h2]
  exact h1

theorem fence (p : Pm) (c : Scope) (o : Ord) (a : Tgt) : Statement (.fence p c o a) := by
  intro _ hw
  obtain ⟨h1, h2⟩ := dec_PCOA p c o a Instr.fence (op := 0x94) rfl
  refine decode_word h2 (by decide) (by decide) ?_ hw
  rw [decRow, fld_hi h2 (by decide), fld_lo h2]
  exact h1

theorem fencex (p : Pm) (f : Path) (t : Path) (c : Scope) (a : Tgt) : Statement (.fencex p f t c a) := by
  intro _ hw
  obtain ⟨h1, h2⟩ := dec_PFTCA p f t c a Instr.fencex (op := 0x95) rfl
  refine decode_word h2 (by decide) (by decide) ?_ hw
  rw [decRow, fld_hi h2 (by decide), fld_lo h2]
  exact h1

theorem spld (p : Pm) (w : Width) (c : Scope) (o : Ord) (v : Bool) (a : Tgt) : Statement (.spld p w c o v a) := by
  intro _ hw
  obtain ⟨h1, h2⟩ := dec_PWCOVA p w c o v a Instr.spld (op := 0x96) rfl
  refine decode_word h2 (by decide) (by decide) ?_ hw
  rw [decRow, fld_hi h2 (by decide), fld_lo h2]
  exact h1

theorem spst (p : Pm) (w : Width) (c : Scope) (o : Ord) (v : Bool) (a : Tgt) : Statement (.spst p w c o v a) := by
  intro _ hw
  obtain ⟨h1, h2⟩ := dec_PWCOVA p w c o v a Instr.spst (op := 0x97) rfl
  refine decode_word h2 (by decide) (by decide) ?_ hw
  rw [decRow, fld_hi h2 (by decide), fld_lo h2]
  exact h1

theorem flush (p : Pm) (c : Scope) (o : Ord) (n : BitVec 2) (a : Tgt) : Statement (.flush p c o n a) := by
  intro _ hw
  obtain ⟨h1, h2⟩ := dec_PCONA p c o n a Instr.flush (op := 0x98) rfl
  refine decode_word h2 (by decide) (by decide) ?_ hw
  rw [decRow, fld_hi h2 (by decide), fld_lo h2]
  exact h1

theorem pin (p : Pm) (c : Scope) (o : Ord) (n : BitVec 2) (a : Tgt) : Statement (.pin p c o n a) := by
  intro _ hw
  obtain ⟨h1, h2⟩ := dec_PCONA p c o n a Instr.pin (op := 0x99) rfl
  refine decode_word h2 (by decide) (by decide) ?_ hw
  rw [decRow, fld_hi h2 (by decide), fld_lo h2]
  exact h1

theorem unpin (p : Pm) (c : Scope) (o : Ord) (n : BitVec 2) (a : Tgt) : Statement (.unpin p c o n a) := by
  intro _ hw
  obtain ⟨h1, h2⟩ := dec_PCONA p c o n a Instr.unpin (op := 0x9a) rfl
  refine decode_word h2 (by decide) (by decide) ?_ hw
  rw [decRow, fld_hi h2 (by decide), fld_lo h2]
  exact h1

theorem barm (p : Pm) (n : BitVec 7) (f : Bool) (a : Tgt) : Statement (.barm p n f a) := by
  intro _ hw
  obtain ⟨h1, h2⟩ := dec_PNFA p n f a Instr.barm (op := 0xa0) rfl
  refine decode_word h2 (by decide) (by decide) ?_ hw
  rw [decRow, fld_hi h2 (by decide), fld_lo h2]
  exact h1

theorem barr (p : Pm) (n : BitVec 7) (c : Scope) (r : Bool) (f : Bool) (a : Tgt) : Statement (.barr p n c r f a) := by
  intro _ hw
  obtain ⟨h1, h2⟩ := dec_PNCRFA p n c r f a Instr.barr (op := 0xa1) rfl
  refine decode_word h2 (by decide) (by decide) ?_ hw
  rw [decRow, fld_hi h2 (by decide), fld_lo h2]
  exact h1

theorem barw (p : Pm) (n : BitVec 7) (c : Scope) (q : Bool) (f : Bool) (a : Tgt) : Statement (.barw p n c q f a) := by
  intro _ hw
  obtain ⟨h1, h2⟩ := dec_PNCQFA p n c q f a Instr.barw (op := 0xa2) rfl
  refine decode_word h2 (by decide) (by decide) ?_ hw
  rw [decRow, fld_hi h2 (by decide), fld_lo h2]
  exact h1

theorem barx (p : Pm) (n : BitVec 7) (c : Scope) (r : Bool) (f : Bool) (a : Tgt) : Statement (.barx p n c r f a) := by
  intro _ hw
  obtain ⟨h1, h2⟩ := dec_PNCRFA p n c r f a Instr.barx (op := 0xa3) rfl
  refine decode_word h2 (by decide) (by decide) ?_ hw
  rw [decRow, fld_hi h2 (by decide), fld_lo h2]
  exact h1

theorem syni (p : Pm) (a : Tgt) : Statement (.syni p a) := by
  intro _ hw
  obtain ⟨h1, h2⟩ := dec_PA p a Instr.syni (op := 0xa4) rfl
  refine decode_word h2 (by decide) (by decide) ?_ hw
  rw [decRow, fld_hi h2 (by decide), fld_lo h2]
  exact h1

theorem synw (p : Pm) (a : Tgt) : Statement (.synw p a) := by
  intro _ hw
  obtain ⟨h1, h2⟩ := dec_PA p a Instr.synw (op := 0xa5) rfl
  refine decode_word h2 (by decide) (by decide) ?_ hw
  rw [decRow, fld_hi h2 (by decide), fld_lo h2]
  exact h1

theorem syna (p : Pm) (a : Tgt) : Statement (.syna p a) := by
  intro _ hw
  obtain ⟨h1, h2⟩ := dec_PA p a Instr.syna (op := 0xa6) rfl
  refine decode_word h2 (by decide) (by decide) ?_ hw
  rw [decRow, fld_hi h2 (by decide), fld_lo h2]
  exact h1

theorem chapp (p : Pm) (k : BitVec 2) (i : BitVec 6) (a : Tgt) : Statement (.chapp p k i a) := by
  intro _ hw
  obtain ⟨h1, h2⟩ := dec_PKIA p k i a Instr.chapp (op := 0xa7) rfl
  refine decode_word h2 (by decide) (by decide) ?_ hw
  rw [decRow, fld_hi h2 (by decide), fld_lo h2]
  exact h1

theorem chseq (p : Pm) (k : BitVec 2) (i : BitVec 6) (a : Tgt) : Statement (.chseq p k i a) := by
  intro _ hw
  obtain ⟨h1, h2⟩ := dec_PKIA p k i a Instr.chseq (op := 0xa8) rfl
  refine decode_word h2 (by decide) (by decide) ?_ hw
  rw [decRow, fld_hi h2 (by decide), fld_lo h2]
  exact h1

theorem chwt (p : Pm) (k : BitVec 2) (i : BitVec 6) (a : Tgt) : Statement (.chwt p k i a) := by
  intro _ hw
  obtain ⟨h1, h2⟩ := dec_PKIA p k i a Instr.chwt (op := 0xa9) rfl
  refine decode_word h2 (by decide) (by decide) ?_ hw
  rw [decRow, fld_hi h2 (by decide), fld_lo h2]
  exact h1

theorem chctl (p : Pm) (k : BitVec 2) (i : BitVec 6) (x : BitVec 2) (a : Tgt) : Statement (.chctl p k i x a) := by
  intro _ hw
  obtain ⟨h1, h2⟩ := dec_PKIXA p k i x a Instr.chctl (op := 0xaa) rfl
  refine decode_word h2 (by decide) (by decide) ?_ hw
  rw [decRow, fld_hi h2 (by decide), fld_lo h2]
  exact h1

theorem tdisp (p : Pm) (a : Tgt) : Statement (.tdisp p a) := by
  intro _ hw
  obtain ⟨h1, h2⟩ := dec_PA p a Instr.tdisp (op := 0xab) rfl
  refine decode_word h2 (by decide) (by decide) ?_ hw
  rw [decRow, fld_hi h2 (by decide), fld_lo h2]
  exact h1

theorem mma (p : Pm) (t : BitVec 9) (z : Bool) (a : Tgt) : Statement (.mma p t z a) := by
  intro _ hw
  obtain ⟨h1, h2⟩ := dec_PTZA p t z a Instr.mma (op := 0xb0) rfl
  refine decode_word h2 (by decide) (by decide) ?_ hw
  rw [decRow, fld_hi h2 (by decide), fld_lo h2]
  exact h1

theorem mmas (p : Pm) (t : BitVec 9) (z : Bool) (a : Tgt) : Statement (.mmas p t z a) := by
  intro _ hw
  obtain ⟨h1, h2⟩ := dec_PTZA p t z a Instr.mmas (op := 0xb1) rfl
  refine decode_word h2 (by decide) (by decide) ?_ hw
  rw [decRow, fld_hi h2 (by decide), fld_lo h2]
  exact h1

theorem mmap (p : Pm) (t : BitVec 9) (z : Bool) (a : Tgt) : Statement (.mmap p t z a) := by
  intro _ hw
  obtain ⟨h1, h2⟩ := dec_PTZA p t z a Instr.mmap (op := 0xb2) rfl
  refine decode_word h2 (by decide) (by decide) ?_ hw
  rw [decRow, fld_hi h2 (by decide), fld_lo h2]
  exact h1

theorem acz (p : Pm) (t : BitVec 9) (y : Bool) (a : Tgt) : Statement (.acz p t y a) := by
  intro _ hw
  obtain ⟨h1, h2⟩ := dec_PTYA p t y a Instr.acz (op := 0xb3) rfl
  refine decode_word h2 (by decide) (by decide) ?_ hw
  rw [decRow, fld_hi h2 (by decide), fld_lo h2]
  exact h1

theorem acrd (p : Pm) (t : BitVec 9) (d : Dst) : Statement (.acrd p t d) := by
  intro _ hw
  obtain ⟨h1, h2⟩ := dec_PTD p t d Instr.acrd (op := 0xb4) rfl
  refine decode_word h2 (by decide) (by decide) ?_ hw
  rw [decRow, fld_hi h2 (by decide), fld_lo h2]
  exact h1

theorem acwr (p : Pm) (t : BitVec 9) (a : Tgt) : Statement (.acwr p t a) := by
  intro _ hw
  obtain ⟨h1, h2⟩ := dec_PTA p t a Instr.acwr (op := 0xb5) rfl
  refine decode_word h2 (by decide) (by decide) ?_ hw
  rw [decRow, fld_hi h2 (by decide), fld_lo h2]
  exact h1

theorem accv (p : Pm) (t : BitVec 9) (m : Rm) (x : Bool) (a : Tgt) : Statement (.accv p t m x a) := by
  intro _ hw
  obtain ⟨h1, h2⟩ := dec_PTMXA p t m x a Instr.accv (op := 0xb6) rfl
  refine decode_word h2 (by decide) (by decide) ?_ hw
  rw [decRow, fld_hi h2 (by decide), fld_lo h2]
  exact h1

theorem tagr (p : Pm) (n : BitVec 2) (a : Tgt) : Statement (.tagr p n a) := by
  intro _ hw
  obtain ⟨h1, h2⟩ := dec_PNA4 p n a Instr.tagr (op := 0xb7) rfl
  refine decode_word h2 (by decide) (by decide) ?_ hw
  rw [decRow, fld_hi h2 (by decide), fld_lo h2]
  exact h1

theorem tags (p : Pm) (d : Bool) (n : BitVec 2) (a : Tgt) : Statement (.tags p d n a) := by
  intro _ hw
  obtain ⟨h1, h2⟩ := dec_PDNA p d n a Instr.tags (op := 0xb8) rfl
  refine decode_word h2 (by decide) (by decide) ?_ hw
  rw [decRow, fld_hi h2 (by decide), fld_lo h2]
  exact h1

theorem tfch (p : Pm) (c : Bool) (r : Bool) (b : BitVec 2) (n : BitVec 2) (a : Tgt) : Statement (.tfch p c r b n a) := by
  intro _ hw
  obtain ⟨h1, h2⟩ := dec_PCRBNA p c r b n a Instr.tfch (op := 0xb9) rfl
  refine decode_word h2 (by decide) (by decide) ?_ hw
  rw [decRow, fld_hi h2 (by decide), fld_lo h2]
  exact h1

theorem trel (p : Pm) (b : BitVec 2) (a : Tgt) : Statement (.trel p b a) := by
  intro _ hw
  obtain ⟨h1, h2⟩ := dec_PBA p b a Instr.trel (op := 0xba) rfl
  refine decode_word h2 (by decide) (by decide) ?_ hw
  rw [decRow, fld_hi h2 (by decide), fld_lo h2]
  exact h1

theorem tdsc (p : Pm) (i : BitVec 3) (a : Tgt) : Statement (.tdsc p i a) := by
  intro _ hw
  obtain ⟨h1, h2⟩ := dec_PIA2 p i a Instr.tdsc (op := 0xbb) rfl
  refine decode_word h2 (by decide) (by decide) ?_ hw
  rw [decRow, fld_hi h2 (by decide), fld_lo h2]
  exact h1

theorem mlook (p : Pm) (a : Tgt) : Statement (.mlook p a) := by
  intro _ hw
  obtain ⟨h1, h2⟩ := dec_PA p a Instr.mlook (op := 0xbc) rfl
  refine decode_word h2 (by decide) (by decide) ?_ hw
  rw [decRow, fld_hi h2 (by decide), fld_lo h2]
  exact h1

theorem pgld (p : Pm) (n : BitVec 2) (a : Tgt) : Statement (.pgld p n a) := by
  intro _ hw
  obtain ⟨h1, h2⟩ := dec_PNA4 p n a Instr.pgld (op := 0xc0) rfl
  refine decode_word h2 (by decide) (by decide) ?_ hw
  rw [decRow, fld_hi h2 (by decide), fld_lo h2]
  exact h1

theorem pgst (p : Pm) (d : Bool) (n : BitVec 2) (a : Tgt) : Statement (.pgst p d n a) := by
  intro _ hw
  obtain ⟨h1, h2⟩ := dec_PDNA p d n a Instr.pgst (op := 0xc1) rfl
  refine decode_word h2 (by decide) (by decide) ?_ hw
  rw [decRow, fld_hi h2 (by decide), fld_lo h2]
  exact h1

theorem pgnx (p : Pm) (n : BitVec 2) (d : Dst) : Statement (.pgnx p n d) := by
  intro _ hw
  obtain ⟨h1, h2⟩ := dec_PND p n d Instr.pgnx (op := 0xc2) rfl
  refine decode_word h2 (by decide) (by decide) ?_ hw
  rw [decRow, fld_hi h2 (by decide), fld_lo h2]
  exact h1

theorem pgsv (p : Pm) (n : BitVec 2) (a : Tgt) : Statement (.pgsv p n a) := by
  intro _ hw
  obtain ⟨h1, h2⟩ := dec_PNA4 p n a Instr.pgsv (op := 0xc3) rfl
  refine decode_word h2 (by decide) (by decide) ?_ hw
  rw [decRow, fld_hi h2 (by decide), fld_lo h2]
  exact h1

theorem pgrs (p : Pm) (n : BitVec 2) (a : Tgt) : Statement (.pgrs p n a) := by
  intro _ hw
  obtain ⟨h1, h2⟩ := dec_PNA4 p n a Instr.pgrs (op := 0xc4) rfl
  refine decode_word h2 (by decide) (by decide) ?_ hw
  rw [decRow, fld_hi h2 (by decide), fld_lo h2]
  exact h1

theorem slhb (p : Pm) (o : Bool) (a : Tgt) : Statement (.slhb p o a) := by
  intro _ hw
  obtain ⟨h1, h2⟩ := dec_POA p o a Instr.slhb (op := 0xc5) rfl
  refine decode_word h2 (by decide) (by decide) ?_ hw
  rw [decRow, fld_hi h2 (by decide), fld_lo h2]
  exact h1

theorem slht (p : Pm) (a : Tgt) : Statement (.slht p a) := by
  intro _ hw
  obtain ⟨h1, h2⟩ := dec_PA p a Instr.slht (op := 0xc6) rfl
  refine decode_word h2 (by decide) (by decide) ?_ hw
  rw [decRow, fld_hi h2 (by decide), fld_lo h2]
  exact h1

theorem pgq (p : Pm) (n : BitVec 2) (a : Tgt) : Statement (.pgq p n a) := by
  intro _ hw
  obtain ⟨h1, h2⟩ := dec_PNA4 p n a Instr.pgq (op := 0xc7) rfl
  refine decode_word h2 (by decide) (by decide) ?_ hw
  rw [decRow, fld_hi h2 (by decide), fld_lo h2]
  exact h1

theorem phend (p : Pm) (a : Tgt) : Statement (.phend p a) := by
  intro _ hw
  obtain ⟨h1, h2⟩ := dec_PA p a Instr.phend (op := 0xd0) rfl
  refine decode_word h2 (by decide) (by decide) ?_ hw
  rw [decRow, fld_hi h2 (by decide), fld_lo h2]
  exact h1

theorem ctxq (p : Pm) (i : BitVec 2) (a : Tgt) : Statement (.ctxq p i a) := by
  intro _ hw
  obtain ⟨h1, h2⟩ := dec_PIA3 p i a Instr.ctxq (op := 0xd1) rfl
  refine decode_word h2 (by decide) (by decide) ?_ hw
  rw [decRow, fld_hi h2 (by decide), fld_lo h2]
  exact h1

theorem rateq (p : Pm) (i : BitVec 4) (a : Tgt) : Statement (.rateq p i a) := by
  intro _ hw
  obtain ⟨h1, h2⟩ := dec_PIA4 p i a Instr.rateq (op := 0xd2) rfl
  refine decode_word h2 (by decide) (by decide) ?_ hw
  rw [decRow, fld_hi h2 (by decide), fld_lo h2]
  exact h1

theorem sarm (p : Pm) (n : BitVec 6) (a : Tgt) : Statement (.sarm p n a) := by
  intro _ hw
  obtain ⟨h1, h2⟩ := dec_PNA5 p n a Instr.sarm (op := 0xd3) rfl
  refine decode_word h2 (by decide) (by decide) ?_ hw
  rw [decRow, fld_hi h2 (by decide), fld_lo h2]
  exact h1

theorem swait (p : Pm) (n : BitVec 6) (a : Tgt) : Statement (.swait p n a) := by
  intro _ hw
  obtain ⟨h1, h2⟩ := dec_PNA5 p n a Instr.swait (op := 0xd4) rfl
  refine decode_word h2 (by decide) (by decide) ?_ hw
  rw [decRow, fld_hi h2 (by decide), fld_lo h2]
  exact h1

theorem launch (p : Pm) (q : BitVec 3) (a : Tgt) : Statement (.launch p q a) := by
  intro _ hw
  obtain ⟨h1, h2⟩ := dec_PQA p q a Instr.launch (op := 0xd5) rfl
  refine decode_word h2 (by decide) (by decide) ?_ hw
  rw [decRow, fld_hi h2 (by decide), fld_lo h2]
  exact h1

theorem trap (p : Pm) (c : BitVec 4) (a : Tgt) : Statement (.trap p c a) := by
  intro _ hw
  obtain ⟨h1, h2⟩ := dec_PCA p c a Instr.trap (op := 0xe0) rfl
  refine decode_word h2 (by decide) (by decide) ?_ hw
  rw [decRow, fld_hi h2 (by decide), fld_lo h2]
  exact h1

theorem brk (p : Pm) (n : BitVec 8) (a : Tgt) : Statement (.brk p n a) := by
  intro _ hw
  obtain ⟨h1, h2⟩ := dec_PNA2 p n a Instr.brk (op := 0xe1) rfl
  refine decode_word h2 (by decide) (by decide) ?_ hw
  rw [decRow, fld_hi h2 (by decide), fld_lo h2]
  exact h1

theorem csrr (p : Pm) (c : BitVec 8) (a : Tgt) : Statement (.csrr p c a) := by
  intro _ hw
  obtain ⟨h1, h2⟩ := dec_PCA2 p c a Instr.csrr (op := 0xe2) rfl
  refine decode_word h2 (by decide) (by decide) ?_ hw
  rw [decRow, fld_hi h2 (by decide), fld_lo h2]
  exact h1

theorem csrw (p : Pm) (c : BitVec 8) (a : Tgt) : Statement (.csrw p c a) := by
  intro _ hw
  obtain ⟨h1, h2⟩ := dec_PCA2 p c a Instr.csrw (op := 0xe3) rfl
  refine decode_word h2 (by decide) (by decide) ?_ hw
  rw [decRow, fld_hi h2 (by decide), fld_lo h2]
  exact h1

theorem nodeid (p : Pm) (a : Tgt) : Statement (.nodeid p a) := by
  intro _ hw
  obtain ⟨h1, h2⟩ := dec_PA p a Instr.nodeid (op := 0xe4) rfl
  refine decode_word h2 (by decide) (by decide) ?_ hw
  rw [decRow, fld_hi h2 (by decide), fld_lo h2]
  exact h1

theorem fcnt (p : Pm) (i : BitVec 2) (a : Tgt) : Statement (.fcnt p i a) := by
  intro _ hw
  obtain ⟨h1, h2⟩ := dec_PIA3 p i a Instr.fcnt (op := 0xe5) rfl
  refine decode_word h2 (by decide) (by decide) ?_ hw
  rw [decRow, fld_hi h2 (by decide), fld_lo h2]
  exact h1

theorem eqrd (p : Pm) (i : BitVec 3) (a : Tgt) : Statement (.eqrd p i a) := by
  intro _ hw
  obtain ⟨h1, h2⟩ := dec_PIA2 p i a Instr.eqrd (op := 0xe6) rfl
  refine decode_word h2 (by decide) (by decide) ?_ hw
  rw [decRow, fld_hi h2 (by decide), fld_lo h2]
  exact h1

theorem obsr (p : Pm) (i : BitVec 3) (d : Bool) (n : BitVec 3) (a : Tgt) : Statement (.obsr p i d n a) := by
  intro _ hw
  obtain ⟨h1, h2⟩ := dec_PIDNA p i d n a Instr.obsr (op := 0xe7) rfl
  refine decode_word h2 (by decide) (by decide) ?_ hw
  rw [decRow, fld_hi h2 (by decide), fld_lo h2]
  exact h1

theorem haltr (p : Pm) (a : Tgt) : Statement (.haltr p a) := by
  intro _ hw
  obtain ⟨h1, h2⟩ := dec_PA p a Instr.haltr (op := 0xe8) rfl
  refine decode_word h2 (by decide) (by decide) ?_ hw
  rw [decRow, fld_hi h2 (by decide), fld_lo h2]
  exact h1

theorem lctailWrite (n v : Nat) : Statement (.lctailWrite n v) := fun h => absurd rfl h

theorem lcbaseWrite (n v : Nat) : Statement (.lcbaseWrite n v) := fun h => absurd rfl h

theorem takeLaunchEntry (n : Nat) : Statement (.takeLaunchEntry n) := fun h => absurd rfl h

theorem startEntry (n : Nat) : Statement (.startEntry n) := fun h => absurd rfl h

theorem placementRetry (n : Nat) : Statement (.placementRetry n) := fun h => absurd rfl h

theorem wavefrontAdmission (r : RegionRef) : Statement (.wavefrontAdmission r) := fun h => absurd rfl h

theorem elementSwitch (e : Nat) : Statement (.elementSwitch e) := fun h => absurd rfl h

theorem launchComplete (l : LaunchRef) : Statement (.launchComplete l) := fun h => absurd rfl h

theorem firingStart (e : Nat) : Statement (.firingStart e) := fun h => absurd rfl h

theorem firingComplete (e no : Nat) : Statement (.firingComplete e no) := fun h => absurd rfl h

theorem fillArrival (e v : Nat) : Statement (.fillArrival e v) := fun h => absurd rfl h

theorem phaseEnd (r : RegionRef) : Statement (.phaseEnd r) := fun h => absurd rfl h

theorem boundInputFeed (r : RegionRef) (k : Nat) : Statement (.boundInputFeed r k) := fun h => absurd rfl h

theorem boundOutputDrain (r : RegionRef) (k : Nat) : Statement (.boundOutputDrain r k) := fun h => absurd rfl h

theorem junctionRelease (r : RegionRef) (k : Nat) : Statement (.junctionRelease r k) := fun h => absurd rfl h

theorem counterNodeForward (r : RegionRef) (k : Nat) : Statement (.counterNodeForward r k) := fun h => absurd rfl h

theorem cornerTurn (r : RegionRef) (k : Nat) : Statement (.cornerTurn r k) := fun h => absurd rfl h

theorem agenInStep (e k : Nat) : Statement (.agenInStep e k) := fun h => absurd rfl h

theorem agenOutStep (e k : Nat) : Statement (.agenOutStep e k) := fun h => absurd rfl h

theorem duskMarkerCut (e : Nat) : Statement (.duskMarkerCut e) := fun h => absurd rfl h

theorem trapAction (r : RegionRef) : Statement (.trapAction r) := fun h => absurd rfl h

theorem rollback (r : RegionRef) : Statement (.rollback r) := fun h => absurd rfl h

theorem machineCheck (site : McSite) (bank syn addr : Nat) : Statement (.machineCheck site bank syn addr) := fun h => absurd rfl h

theorem fccmdResume (n q tseq k : Nat) : Statement (.fccmdResume n q tseq k) := fun h => absurd rfl h

theorem fccmdEnd (n q tseq k : Nat) : Statement (.fccmdEnd n q tseq k) := fun h => absurd rfl h

theorem faultRecordWrite (n : Nat) : Statement (.faultRecordWrite n) := fun h => absurd rfl h

theorem preempt (r : RegionRef) : Statement (.preempt r) := fun h => absurd rfl h

theorem preemptionTimeout (r : RegionRef) : Statement (.preemptionTimeout r) := fun h => absurd rfl h

theorem resumeRegion (r : RegionRef) : Statement (.resumeRegion r) := fun h => absurd rfl h

theorem quotaPeriodBoundary (n : Nat) : Statement (.quotaPeriodBoundary n) := fun h => absurd rfl h

theorem atsCompletion (n iova pa size : Nat) (r w : Bool) : Statement (.atsCompletion n iova pa size r w) := fun h => absurd rfl h

theorem pageResponseSuccess (n iova : Nat) : Statement (.pageResponseSuccess n iova) := fun h => absurd rfl h

theorem pageResponseFailure (n iova code : Nat) : Statement (.pageResponseFailure n iova code) := fun h => absurd rfl h

theorem faultWaitExpiry (n iova : Nat) : Statement (.faultWaitExpiry n iova) := fun h => absurd rfl h

theorem drainResume (r : RegionRef) : Statement (.drainResume r) := fun h => absurd rfl h

theorem invalidateRequest (n lo hi : Nat) : Statement (.invalidateRequest n lo hi) := fun h => absurd rfl h

theorem globalInvalidate (n : Nat) : Statement (.globalInvalidate n) := fun h => absurd rfl h

theorem invalidateCompletion (n : Nat) : Statement (.invalidateCompletion n) := fun h => absurd rfl h

theorem ttinvWrite (n v : Nat) : Statement (.ttinvWrite n v) := fun h => absurd rfl h

theorem ttinvComplete (n : Nat) : Statement (.ttinvComplete n) := fun h => absurd rfl h

theorem mtinvWrite (n v : Nat) : Statement (.mtinvWrite n v) := fun h => absurd rfl h

theorem pminvWrite (n v : Nat) : Statement (.pminvWrite n v) := fun h => absurd rfl h

theorem entailWrite (n g v : Nat) : Statement (.entailWrite n g v) := fun h => absurd rfl h

theorem enbaseWrite (n g v : Nat) : Statement (.enbaseWrite n g v) := fun h => absurd rfl h

theorem takeEngineEntry (n g : Nat) : Statement (.takeEngineEntry n g) := fun h => absurd rfl h

theorem encmdPause (n g : Nat) : Statement (.encmdPause n g) := fun h => absurd rfl h

theorem encmdResume (n g : Nat) : Statement (.encmdResume n g) := fun h => absurd rfl h

theorem encmdSkip (n g : Nat) : Statement (.encmdSkip n g) := fun h => absurd rfl h

theorem encmdRetry (n g : Nat) : Statement (.encmdRetry n g) := fun h => absurd rfl h

theorem engineEntryStart (n g : Nat) : Statement (.engineEntryStart n g) := fun h => absurd rfl h

theorem engineEntryComplete (n g q : Nat) : Statement (.engineEntryComplete n g q) := fun h => absurd rfl h

theorem gstailWrite (n v : Nat) : Statement (.gstailWrite n v) := fun h => absurd rfl h

theorem gscmdSkip (n : Nat) : Statement (.gscmdSkip n) := fun h => absurd rfl h

theorem gscmdRetry (n : Nat) : Statement (.gscmdRetry n) := fun h => absurd rfl h

theorem takeTask (n : Nat) : Statement (.takeTask n) := fun h => absurd rfl h

theorem pieceStart (n q : Nat) : Statement (.pieceStart n q) := fun h => absurd rfl h

theorem pieceComplete (r : RegionRef) : Statement (.pieceComplete r) := fun h => absurd rfl h

theorem hyperperiodBoundary (l : LaunchRef) : Statement (.hyperperiodBoundary l) := fun h => absurd rfl h

theorem regulatorSettled (l : LaunchRef) (k : Nat) : Statement (.regulatorSettled l k) := fun h => absurd rfl h

theorem rateChangeApply (l : LaunchRef) : Statement (.rateChangeApply l) := fun h => absurd rfl h

theorem marginReplan (page : Nat) (plan : List (BitVec 8)) : Statement (.marginReplan page plan) := fun h => absurd rfl h

theorem ptctlEnable (n : Nat) : Statement (.ptctlEnable n) := fun h => absurd rfl h

theorem ptctlDisable (n : Nat) : Statement (.ptctlDisable n) := fun h => absurd rfl h

theorem ptctlReset (n : Nat) : Statement (.ptctlReset n) := fun h => absurd rfl h

theorem functionLevelReset (n : Nat) : Statement (.functionLevelReset n) := fun h => absurd rfl h

theorem dvcapWrite (v : Nat) : Statement (.dvcapWrite v) := fun h => absurd rfl h

theorem flqRevoke (n q : Nat) : Statement (.flqRevoke n q) := fun h => absurd rfl h

theorem plcmdLoad (n : Nat) : Statement (.plcmdLoad n) := fun h => absurd rfl h

theorem bkcmdWrite (n v : Nat) : Statement (.bkcmdWrite n v) := fun h => absurd rfl h

theorem ocvalRead  : Statement (.ocvalRead) := fun h => absurd rfl h

theorem powerOn  : Statement (.powerOn) := fun h => absurd rfl h

theorem resetPin  : Statement (.resetPin) := fun h => absurd rfl h

theorem stcmdReset  : Statement (.stcmdReset) := fun h => absurd rfl h

theorem recoveryImage (image : List (BitVec 8)) : Statement (.recoveryImage image) := fun h => absurd rfl h

theorem attestationRequest (nonce : List (BitVec 8)) (dst : Nat) : Statement (.attestationRequest nonce dst) := fun h => absurd rfl h

theorem alarmClass1  : Statement (.alarmClass1) := fun h => absurd rfl h

theorem alarmClass2  : Statement (.alarmClass2) := fun h => absurd rfl h

theorem alarmClass3  : Statement (.alarmClass3) := fun h => absurd rfl h

theorem registerWrite (site : RegAccess) (off v : Nat) : Statement (.registerWrite site off v) := fun h => absurd rfl h

theorem gsbaseWrite (n v : Nat) : Statement (.gsbaseWrite n v) := fun h => absurd rfl h

theorem accessPerformed (e k : Nat) : Statement (.accessPerformed e k) := fun h => absurd rfl h

theorem peerLinkTransfer (n tok : Nat) (put : Bool) (data : List (BitVec 8)) (len : Nat) : Statement (.peerLinkTransfer n tok put data len) := fun h => absurd rfl h

theorem powerLoss  : Statement (.powerLoss) := fun h => absurd rfl h

theorem coincidentEdge (r : RegionRef) (k : Nat) : Statement (.coincidentEdge r k) := fun h => absurd rfl h

theorem mtinvComplete (n : Nat) : Statement (.mtinvComplete n) := fun h => absurd rfl h

theorem pminvComplete (n : Nat) : Statement (.pminvComplete n) := fun h => absurd rfl h

end Sys2Proof.Laws.RoundTrip
end

