-- ==== Sys2Proof/Laws/State.lean ====
section
/-! SUPPORT. What each update of the state and of an element leaves and sets: one lemma per field per update, true by unfolding, so that
no later proof unfolds a record update. -/

namespace Sys2Proof.Laws

open Sys2Proof.Machine

/-! ### State.setElem -/

@[simp] theorem State_setElem_mem (s : State) (e : Nat) (x : Elem) : (s.setElem e x).mem = s.mem := rfl
@[simp] theorem State_setElem_mmem (s : State) (e : Nat) (x : Elem) : (s.setElem e x).mmem = s.mmem := rfl
@[simp] theorem State_setElem_iommu (s : State) (e : Nat) (x : Elem) : (s.setElem e x).iommu = s.iommu := rfl
@[simp] theorem State_setElem_pages (s : State) (e : Nat) (x : Elem) : (s.setElem e x).pages = s.pages := rfl
@[simp] theorem State_setElem_mgmt (s : State) (e : Nat) (x : Elem) : (s.setElem e x).mgmt = s.mgmt := rfl
@[simp] theorem State_setElem_parts (s : State) (e : Nat) (x : Elem) : (s.setElem e x).parts = s.parts := rfl
@[simp] theorem State_setElem_peerOut (s : State) (e : Nat) (x : Elem) : (s.setElem e x).peerOut = s.peerOut := rfl
@[simp] theorem State_setElem_agenda (s : State) (e : Nat) (x : Elem) : (s.setElem e x).agenda = s.agenda := rfl
@[simp] theorem State_setElem_cur (s : State) (e : Nat) (x : Elem) : (s.setElem e x).cur = s.cur := rfl
@[simp] theorem State_setElem_cycle (s : State) (e : Nat) (x : Elem) : (s.setElem e x).cycle = s.cycle := rfl
@[simp] theorem State_setElem_fresh (s : State) (e : Nat) (x : Elem) : (s.setElem e x).fresh = s.fresh := rfl

@[simp] theorem State_setElem_elems (s : State) (e : Nat) (x : Elem) : (s.setElem e x).elems = put e x s.elems := rfl

/-! ### State.modPart -/

@[simp] theorem State_modPart_mem (s : State) (n : Nat) (f : Part → Part) : (s.modPart n f).mem = s.mem := rfl
@[simp] theorem State_modPart_mmem (s : State) (n : Nat) (f : Part → Part) : (s.modPart n f).mmem = s.mmem := rfl
@[simp] theorem State_modPart_iommu (s : State) (n : Nat) (f : Part → Part) : (s.modPart n f).iommu = s.iommu := rfl
@[simp] theorem State_modPart_pages (s : State) (n : Nat) (f : Part → Part) : (s.modPart n f).pages = s.pages := rfl
@[simp] theorem State_modPart_mgmt (s : State) (n : Nat) (f : Part → Part) : (s.modPart n f).mgmt = s.mgmt := rfl
@[simp] theorem State_modPart_elems (s : State) (n : Nat) (f : Part → Part) : (s.modPart n f).elems = s.elems := rfl
@[simp] theorem State_modPart_peerOut (s : State) (n : Nat) (f : Part → Part) : (s.modPart n f).peerOut = s.peerOut := rfl
@[simp] theorem State_modPart_agenda (s : State) (n : Nat) (f : Part → Part) : (s.modPart n f).agenda = s.agenda := rfl
@[simp] theorem State_modPart_cur (s : State) (n : Nat) (f : Part → Part) : (s.modPart n f).cur = s.cur := rfl
@[simp] theorem State_modPart_cycle (s : State) (n : Nat) (f : Part → Part) : (s.modPart n f).cycle = s.cycle := rfl
@[simp] theorem State_modPart_fresh (s : State) (n : Nat) (f : Part → Part) : (s.modPart n f).fresh = s.fresh := rfl

@[simp] theorem State_modPart_parts (s : State) (n : Nat) (f : Part → Part) : (s.modPart n f).parts = modAt s.parts n f := rfl

/-! ### State.modPage -/

@[simp] theorem State_modPage_mem (s : State) (k : Nat) (f : Page → Page) : (s.modPage k f).mem = s.mem := rfl
@[simp] theorem State_modPage_mmem (s : State) (k : Nat) (f : Page → Page) : (s.modPage k f).mmem = s.mmem := rfl
@[simp] theorem State_modPage_iommu (s : State) (k : Nat) (f : Page → Page) : (s.modPage k f).iommu = s.iommu := rfl
@[simp] theorem State_modPage_mgmt (s : State) (k : Nat) (f : Page → Page) : (s.modPage k f).mgmt = s.mgmt := rfl
@[simp] theorem State_modPage_parts (s : State) (k : Nat) (f : Page → Page) : (s.modPage k f).parts = s.parts := rfl
@[simp] theorem State_modPage_elems (s : State) (k : Nat) (f : Page → Page) : (s.modPage k f).elems = s.elems := rfl
@[simp] theorem State_modPage_peerOut (s : State) (k : Nat) (f : Page → Page) : (s.modPage k f).peerOut = s.peerOut := rfl
@[simp] theorem State_modPage_agenda (s : State) (k : Nat) (f : Page → Page) : (s.modPage k f).agenda = s.agenda := rfl
@[simp] theorem State_modPage_cur (s : State) (k : Nat) (f : Page → Page) : (s.modPage k f).cur = s.cur := rfl
@[simp] theorem State_modPage_cycle (s : State) (k : Nat) (f : Page → Page) : (s.modPage k f).cycle = s.cycle := rfl
@[simp] theorem State_modPage_fresh (s : State) (k : Nat) (f : Page → Page) : (s.modPage k f).fresh = s.fresh := rfl

@[simp] theorem State_modPage_pages (s : State) (k : Nat) (f : Page → Page) : (s.modPage k f).pages = modAt s.pages k f := rfl

/-! ### State.modLaunch -/

@[simp] theorem State_modLaunch_mem (s : State) (l : LaunchRef) (f : Launch → Launch) : (s.modLaunch l f).mem = s.mem := rfl
@[simp] theorem State_modLaunch_mmem (s : State) (l : LaunchRef) (f : Launch → Launch) : (s.modLaunch l f).mmem = s.mmem := rfl
@[simp] theorem State_modLaunch_iommu (s : State) (l : LaunchRef) (f : Launch → Launch) : (s.modLaunch l f).iommu = s.iommu := rfl
@[simp] theorem State_modLaunch_pages (s : State) (l : LaunchRef) (f : Launch → Launch) : (s.modLaunch l f).pages = s.pages := rfl
@[simp] theorem State_modLaunch_mgmt (s : State) (l : LaunchRef) (f : Launch → Launch) : (s.modLaunch l f).mgmt = s.mgmt := rfl
@[simp] theorem State_modLaunch_elems (s : State) (l : LaunchRef) (f : Launch → Launch) : (s.modLaunch l f).elems = s.elems := rfl
@[simp] theorem State_modLaunch_peerOut (s : State) (l : LaunchRef) (f : Launch → Launch) : (s.modLaunch l f).peerOut = s.peerOut := rfl
@[simp] theorem State_modLaunch_agenda (s : State) (l : LaunchRef) (f : Launch → Launch) : (s.modLaunch l f).agenda = s.agenda := rfl
@[simp] theorem State_modLaunch_cur (s : State) (l : LaunchRef) (f : Launch → Launch) : (s.modLaunch l f).cur = s.cur := rfl
@[simp] theorem State_modLaunch_cycle (s : State) (l : LaunchRef) (f : Launch → Launch) : (s.modLaunch l f).cycle = s.cycle := rfl
@[simp] theorem State_modLaunch_fresh (s : State) (l : LaunchRef) (f : Launch → Launch) : (s.modLaunch l f).fresh = s.fresh := rfl

/-! ### State.modRegion -/

@[simp] theorem State_modRegion_mem (s : State) (r : RegionRef) (f : Region → Region) : (s.modRegion r f).mem = s.mem := rfl
@[simp] theorem State_modRegion_mmem (s : State) (r : RegionRef) (f : Region → Region) : (s.modRegion r f).mmem = s.mmem := rfl
@[simp] theorem State_modRegion_iommu (s : State) (r : RegionRef) (f : Region → Region) : (s.modRegion r f).iommu = s.iommu := rfl
@[simp] theorem State_modRegion_pages (s : State) (r : RegionRef) (f : Region → Region) : (s.modRegion r f).pages = s.pages := rfl
@[simp] theorem State_modRegion_mgmt (s : State) (r : RegionRef) (f : Region → Region) : (s.modRegion r f).mgmt = s.mgmt := rfl
@[simp] theorem State_modRegion_elems (s : State) (r : RegionRef) (f : Region → Region) : (s.modRegion r f).elems = s.elems := rfl
@[simp] theorem State_modRegion_peerOut (s : State) (r : RegionRef) (f : Region → Region) : (s.modRegion r f).peerOut = s.peerOut := rfl
@[simp] theorem State_modRegion_agenda (s : State) (r : RegionRef) (f : Region → Region) : (s.modRegion r f).agenda = s.agenda := rfl
@[simp] theorem State_modRegion_cur (s : State) (r : RegionRef) (f : Region → Region) : (s.modRegion r f).cur = s.cur := rfl
@[simp] theorem State_modRegion_cycle (s : State) (r : RegionRef) (f : Region → Region) : (s.modRegion r f).cycle = s.cycle := rfl
@[simp] theorem State_modRegion_fresh (s : State) (r : RegionRef) (f : Region → Region) : (s.modRegion r f).fresh = s.fresh := rfl

/-! ### State.modRegionElems -/

@[simp] theorem State_modRegionElems_mem (s : State) (r : RegionRef) (f : Elem → Elem) : (s.modRegionElems r f).mem = s.mem := rfl
@[simp] theorem State_modRegionElems_mmem (s : State) (r : RegionRef) (f : Elem → Elem) : (s.modRegionElems r f).mmem = s.mmem := rfl
@[simp] theorem State_modRegionElems_iommu (s : State) (r : RegionRef) (f : Elem → Elem) : (s.modRegionElems r f).iommu = s.iommu := rfl
@[simp] theorem State_modRegionElems_pages (s : State) (r : RegionRef) (f : Elem → Elem) : (s.modRegionElems r f).pages = s.pages := rfl
@[simp] theorem State_modRegionElems_mgmt (s : State) (r : RegionRef) (f : Elem → Elem) : (s.modRegionElems r f).mgmt = s.mgmt := rfl
@[simp] theorem State_modRegionElems_parts (s : State) (r : RegionRef) (f : Elem → Elem) : (s.modRegionElems r f).parts = s.parts := rfl
@[simp] theorem State_modRegionElems_peerOut (s : State) (r : RegionRef) (f : Elem → Elem) : (s.modRegionElems r f).peerOut = s.peerOut := rfl
@[simp] theorem State_modRegionElems_agenda (s : State) (r : RegionRef) (f : Elem → Elem) : (s.modRegionElems r f).agenda = s.agenda := rfl
@[simp] theorem State_modRegionElems_cur (s : State) (r : RegionRef) (f : Elem → Elem) : (s.modRegionElems r f).cur = s.cur := rfl
@[simp] theorem State_modRegionElems_cycle (s : State) (r : RegionRef) (f : Elem → Elem) : (s.modRegionElems r f).cycle = s.cycle := rfl
@[simp] theorem State_modRegionElems_fresh (s : State) (r : RegionRef) (f : Elem → Elem) : (s.modRegionElems r f).fresh = s.fresh := rfl

/-! ### State.modElem -/

@[simp] theorem State_modElem_mem (s : State) (e : Nat) (f : Elem → Elem) : (s.modElem e f).mem = s.mem := by unfold State.modElem; split <;> rfl
@[simp] theorem State_modElem_mmem (s : State) (e : Nat) (f : Elem → Elem) : (s.modElem e f).mmem = s.mmem := by unfold State.modElem; split <;> rfl
@[simp] theorem State_modElem_iommu (s : State) (e : Nat) (f : Elem → Elem) : (s.modElem e f).iommu = s.iommu := by unfold State.modElem; split <;> rfl
@[simp] theorem State_modElem_pages (s : State) (e : Nat) (f : Elem → Elem) : (s.modElem e f).pages = s.pages := by unfold State.modElem; split <;> rfl
@[simp] theorem State_modElem_mgmt (s : State) (e : Nat) (f : Elem → Elem) : (s.modElem e f).mgmt = s.mgmt := by unfold State.modElem; split <;> rfl
@[simp] theorem State_modElem_parts (s : State) (e : Nat) (f : Elem → Elem) : (s.modElem e f).parts = s.parts := by unfold State.modElem; split <;> rfl
@[simp] theorem State_modElem_peerOut (s : State) (e : Nat) (f : Elem → Elem) : (s.modElem e f).peerOut = s.peerOut := by unfold State.modElem; split <;> rfl
@[simp] theorem State_modElem_agenda (s : State) (e : Nat) (f : Elem → Elem) : (s.modElem e f).agenda = s.agenda := by unfold State.modElem; split <;> rfl
@[simp] theorem State_modElem_cur (s : State) (e : Nat) (f : Elem → Elem) : (s.modElem e f).cur = s.cur := by unfold State.modElem; split <;> rfl
@[simp] theorem State_modElem_cycle (s : State) (e : Nat) (f : Elem → Elem) : (s.modElem e f).cycle = s.cycle := by unfold State.modElem; split <;> rfl
@[simp] theorem State_modElem_fresh (s : State) (e : Nat) (f : Elem → Elem) : (s.modElem e f).fresh = s.fresh := by unfold State.modElem; split <;> rfl

/-! ### State.raise -/

@[simp] theorem State_raise_mem (s : State) (c : Cursor) (cls cause : Nat) (addr detail : Dword) : (s.raise c cls cause addr detail).mem = s.mem := by simp [State.raise]
@[simp] theorem State_raise_mmem (s : State) (c : Cursor) (cls cause : Nat) (addr detail : Dword) : (s.raise c cls cause addr detail).mmem = s.mmem := by simp [State.raise]
@[simp] theorem State_raise_iommu (s : State) (c : Cursor) (cls cause : Nat) (addr detail : Dword) : (s.raise c cls cause addr detail).iommu = s.iommu := by simp [State.raise]
@[simp] theorem State_raise_pages (s : State) (c : Cursor) (cls cause : Nat) (addr detail : Dword) : (s.raise c cls cause addr detail).pages = s.pages := by simp [State.raise]
@[simp] theorem State_raise_mgmt (s : State) (c : Cursor) (cls cause : Nat) (addr detail : Dword) : (s.raise c cls cause addr detail).mgmt = s.mgmt := by simp [State.raise]
@[simp] theorem State_raise_parts (s : State) (c : Cursor) (cls cause : Nat) (addr detail : Dword) : (s.raise c cls cause addr detail).parts = s.parts := by simp [State.raise]
@[simp] theorem State_raise_peerOut (s : State) (c : Cursor) (cls cause : Nat) (addr detail : Dword) : (s.raise c cls cause addr detail).peerOut = s.peerOut := by simp [State.raise]
@[simp] theorem State_raise_agenda (s : State) (c : Cursor) (cls cause : Nat) (addr detail : Dword) : (s.raise c cls cause addr detail).agenda = s.agenda := by simp [State.raise]
@[simp] theorem State_raise_cur (s : State) (c : Cursor) (cls cause : Nat) (addr detail : Dword) : (s.raise c cls cause addr detail).cur = s.cur := by simp [State.raise]
@[simp] theorem State_raise_cycle (s : State) (c : Cursor) (cls cause : Nat) (addr detail : Dword) : (s.raise c cls cause addr detail).cycle = s.cycle := by simp [State.raise]
@[simp] theorem State_raise_fresh (s : State) (c : Cursor) (cls cause : Nat) (addr detail : Dword) : (s.raise c cls cause addr detail).fresh = s.fresh := by simp [State.raise]

/-! ### Elem.modFiring -/

@[simp] theorem Elem_modFiring_l (x : Elem) (no : Nat) (epi : Bool) (f : Firing → Firing) : (x.modFiring no epi f).l = x.l := rfl
@[simp] theorem Elem_modFiring_reg (x : Elem) (no : Nat) (epi : Bool) (f : Firing → Firing) : (x.modFiring no epi f).reg = x.reg := rfl
@[simp] theorem Elem_modFiring_col (x : Elem) (no : Nat) (epi : Bool) (f : Firing → Firing) : (x.modFiring no epi f).col = x.col := rfl
@[simp] theorem Elem_modFiring_row (x : Elem) (no : Nat) (epi : Bool) (f : Firing → Firing) : (x.modFiring no epi f).row = x.row := rfl
@[simp] theorem Elem_modFiring_elpart (x : Elem) (no : Nat) (epi : Bool) (f : Firing → Firing) : (x.modFiring no epi f).elpart = x.elpart := rfl
@[simp] theorem Elem_modFiring_ctx (x : Elem) (no : Nat) (epi : Bool) (f : Firing → Firing) : (x.modFiring no epi f).ctx = x.ctx := rfl
@[simp] theorem Elem_modFiring_set (x : Elem) (no : Nat) (epi : Bool) (f : Firing → Firing) : (x.modFiring no epi f).set = x.set := rfl
@[simp] theorem Elem_modFiring_cur (x : Elem) (no : Nat) (epi : Bool) (f : Firing → Firing) : (x.modFiring no epi f).cur = x.cur := rfl
@[simp] theorem Elem_modFiring_alt (x : Elem) (no : Nat) (epi : Bool) (f : Firing → Firing) : (x.modFiring no epi f).alt = x.alt := rfl
@[simp] theorem Elem_modFiring_shadow (x : Elem) (no : Nat) (epi : Bool) (f : Firing → Firing) : (x.modFiring no epi f).shadow = x.shadow := rfl
@[simp] theorem Elem_modFiring_started (x : Elem) (no : Nat) (epi : Bool) (f : Firing → Firing) : (x.modFiring no epi f).started = x.started := rfl
@[simp] theorem Elem_modFiring_done (x : Elem) (no : Nat) (epi : Bool) (f : Firing → Firing) : (x.modFiring no epi f).done = x.done := rfl
@[simp] theorem Elem_modFiring_icyc (x : Elem) (no : Nat) (epi : Bool) (f : Firing → Firing) : (x.modFiring no epi f).icyc = x.icyc := rfl
@[simp] theorem Elem_modFiring_lastStart (x : Elem) (no : Nat) (epi : Bool) (f : Firing → Firing) : (x.modFiring no epi f).lastStart = x.lastStart := rfl
@[simp] theorem Elem_modFiring_begun (x : Elem) (no : Nat) (epi : Bool) (f : Firing → Firing) : (x.modFiring no epi f).begun = x.begun := rfl
@[simp] theorem Elem_modFiring_inAt (x : Elem) (no : Nat) (epi : Bool) (f : Firing → Firing) : (x.modFiring no epi f).inAt = x.inAt := rfl
@[simp] theorem Elem_modFiring_outAt (x : Elem) (no : Nat) (epi : Bool) (f : Firing → Firing) : (x.modFiring no epi f).outAt = x.outAt := rfl
@[simp] theorem Elem_modFiring_filts (x : Elem) (no : Nat) (epi : Bool) (f : Firing → Firing) : (x.modFiring no epi f).filts = x.filts := rfl
@[simp] theorem Elem_modFiring_merges (x : Elem) (no : Nat) (epi : Bool) (f : Firing → Firing) : (x.modFiring no epi f).merges = x.merges := rfl
@[simp] theorem Elem_modFiring_epiRun (x : Elem) (no : Nat) (epi : Bool) (f : Firing → Firing) : (x.modFiring no epi f).epiRun = x.epiRun := rfl
@[simp] theorem Elem_modFiring_phend (x : Elem) (no : Nat) (epi : Bool) (f : Firing → Firing) : (x.modFiring no epi f).phend = x.phend := rfl
@[simp] theorem Elem_modFiring_phases (x : Elem) (no : Nat) (epi : Bool) (f : Firing → Firing) : (x.modFiring no epi f).phases = x.phases := rfl
@[simp] theorem Elem_modFiring_pred (x : Elem) (no : Nat) (epi : Bool) (f : Firing → Firing) : (x.modFiring no epi f).pred = x.pred := rfl
@[simp] theorem Elem_modFiring_waves (x : Elem) (no : Nat) (epi : Bool) (f : Firing → Firing) : (x.modFiring no epi f).waves = x.waves := rfl
@[simp] theorem Elem_modFiring_switched (x : Elem) (no : Nat) (epi : Bool) (f : Firing → Firing) : (x.modFiring no epi f).switched = x.switched := rfl
@[simp] theorem Elem_modFiring_divFree (x : Elem) (no : Nat) (epi : Bool) (f : Firing → Firing) : (x.modFiring no epi f).divFree = x.divFree := rfl
@[simp] theorem Elem_modFiring_mxFree (x : Elem) (no : Nat) (epi : Bool) (f : Firing → Firing) : (x.modFiring no epi f).mxFree = x.mxFree := rfl
@[simp] theorem Elem_modFiring_mxUse (x : Elem) (no : Nat) (epi : Bool) (f : Firing → Firing) : (x.modFiring no epi f).mxUse = x.mxUse := rfl
@[simp] theorem Elem_modFiring_acc (x : Elem) (no : Nat) (epi : Bool) (f : Firing → Firing) : (x.modFiring no epi f).acc = x.acc := rfl
@[simp] theorem Elem_modFiring_accNext (x : Elem) (no : Nat) (epi : Bool) (f : Firing → Firing) : (x.modFiring no epi f).accNext = x.accNext := rfl
@[simp] theorem Elem_modFiring_fills (x : Elem) (no : Nat) (epi : Bool) (f : Firing → Firing) : (x.modFiring no epi f).fills = x.fills := rfl
@[simp] theorem Elem_modFiring_ports (x : Elem) (no : Nat) (epi : Bool) (f : Firing → Firing) : (x.modFiring no epi f).ports = x.ports := rfl
@[simp] theorem Elem_modFiring_bufs (x : Elem) (no : Nat) (epi : Bool) (f : Firing → Firing) : (x.modFiring no epi f).bufs = x.bufs := rfl
@[simp] theorem Elem_modFiring_pins (x : Elem) (no : Nat) (epi : Bool) (f : Firing → Firing) : (x.modFiring no epi f).pins = x.pins := rfl
@[simp] theorem Elem_modFiring_fault (x : Elem) (no : Nat) (epi : Bool) (f : Firing → Firing) : (x.modFiring no epi f).fault = x.fault := rfl
@[simp] theorem Elem_modFiring_more (x : Elem) (no : Nat) (epi : Bool) (f : Firing → Firing) : (x.modFiring no epi f).more = x.more := rfl
@[simp] theorem Elem_modFiring_stopped (x : Elem) (no : Nat) (epi : Bool) (f : Firing → Firing) : (x.modFiring no epi f).stopped = x.stopped := rfl
@[simp] theorem Elem_modFiring_brkPass (x : Elem) (no : Nat) (epi : Bool) (f : Firing → Firing) : (x.modFiring no epi f).brkPass = x.brkPass := rfl
@[simp] theorem Elem_modFiring_epoch (x : Elem) (no : Nat) (epi : Bool) (f : Firing → Firing) : (x.modFiring no epi f).epoch = x.epoch := rfl
@[simp] theorem Elem_modFiring_replayUpTo (x : Elem) (no : Nat) (epi : Bool) (f : Firing → Firing) : (x.modFiring no epi f).replayUpTo = x.replayUpTo := rfl
@[simp] theorem Elem_modFiring_marks (x : Elem) (no : Nat) (epi : Bool) (f : Firing → Firing) : (x.modFiring no epi f).marks = x.marks := rfl
@[simp] theorem Elem_modFiring_reports (x : Elem) (no : Nat) (epi : Bool) (f : Firing → Firing) : (x.modFiring no epi f).reports = x.reports := rfl
@[simp] theorem Elem_modFiring_win (x : Elem) (no : Nat) (epi : Bool) (f : Firing → Firing) : (x.modFiring no epi f).win = x.win := rfl

/-! ### Elem.markIssued -/

@[simp] theorem Elem_markIssued_l (x : Elem) (c : Cursor) : (x.markIssued c).l = x.l := rfl
@[simp] theorem Elem_markIssued_reg (x : Elem) (c : Cursor) : (x.markIssued c).reg = x.reg := rfl
@[simp] theorem Elem_markIssued_col (x : Elem) (c : Cursor) : (x.markIssued c).col = x.col := rfl
@[simp] theorem Elem_markIssued_row (x : Elem) (c : Cursor) : (x.markIssued c).row = x.row := rfl
@[simp] theorem Elem_markIssued_elpart (x : Elem) (c : Cursor) : (x.markIssued c).elpart = x.elpart := rfl
@[simp] theorem Elem_markIssued_ctx (x : Elem) (c : Cursor) : (x.markIssued c).ctx = x.ctx := rfl
@[simp] theorem Elem_markIssued_set (x : Elem) (c : Cursor) : (x.markIssued c).set = x.set := rfl
@[simp] theorem Elem_markIssued_cur (x : Elem) (c : Cursor) : (x.markIssued c).cur = x.cur := rfl
@[simp] theorem Elem_markIssued_alt (x : Elem) (c : Cursor) : (x.markIssued c).alt = x.alt := rfl
@[simp] theorem Elem_markIssued_shadow (x : Elem) (c : Cursor) : (x.markIssued c).shadow = x.shadow := rfl
@[simp] theorem Elem_markIssued_started (x : Elem) (c : Cursor) : (x.markIssued c).started = x.started := rfl
@[simp] theorem Elem_markIssued_done (x : Elem) (c : Cursor) : (x.markIssued c).done = x.done := rfl
@[simp] theorem Elem_markIssued_icyc (x : Elem) (c : Cursor) : (x.markIssued c).icyc = x.icyc := rfl
@[simp] theorem Elem_markIssued_lastStart (x : Elem) (c : Cursor) : (x.markIssued c).lastStart = x.lastStart := rfl
@[simp] theorem Elem_markIssued_begun (x : Elem) (c : Cursor) : (x.markIssued c).begun = x.begun := rfl
@[simp] theorem Elem_markIssued_inAt (x : Elem) (c : Cursor) : (x.markIssued c).inAt = x.inAt := rfl
@[simp] theorem Elem_markIssued_outAt (x : Elem) (c : Cursor) : (x.markIssued c).outAt = x.outAt := rfl
@[simp] theorem Elem_markIssued_filts (x : Elem) (c : Cursor) : (x.markIssued c).filts = x.filts := rfl
@[simp] theorem Elem_markIssued_merges (x : Elem) (c : Cursor) : (x.markIssued c).merges = x.merges := rfl
@[simp] theorem Elem_markIssued_epiRun (x : Elem) (c : Cursor) : (x.markIssued c).epiRun = x.epiRun := rfl
@[simp] theorem Elem_markIssued_phend (x : Elem) (c : Cursor) : (x.markIssued c).phend = x.phend := rfl
@[simp] theorem Elem_markIssued_phases (x : Elem) (c : Cursor) : (x.markIssued c).phases = x.phases := rfl
@[simp] theorem Elem_markIssued_pred (x : Elem) (c : Cursor) : (x.markIssued c).pred = x.pred := rfl
@[simp] theorem Elem_markIssued_waves (x : Elem) (c : Cursor) : (x.markIssued c).waves = x.waves := rfl
@[simp] theorem Elem_markIssued_switched (x : Elem) (c : Cursor) : (x.markIssued c).switched = x.switched := rfl
@[simp] theorem Elem_markIssued_divFree (x : Elem) (c : Cursor) : (x.markIssued c).divFree = x.divFree := rfl
@[simp] theorem Elem_markIssued_mxFree (x : Elem) (c : Cursor) : (x.markIssued c).mxFree = x.mxFree := rfl
@[simp] theorem Elem_markIssued_mxUse (x : Elem) (c : Cursor) : (x.markIssued c).mxUse = x.mxUse := rfl
@[simp] theorem Elem_markIssued_acc (x : Elem) (c : Cursor) : (x.markIssued c).acc = x.acc := rfl
@[simp] theorem Elem_markIssued_accNext (x : Elem) (c : Cursor) : (x.markIssued c).accNext = x.accNext := rfl
@[simp] theorem Elem_markIssued_fills (x : Elem) (c : Cursor) : (x.markIssued c).fills = x.fills := rfl
@[simp] theorem Elem_markIssued_ports (x : Elem) (c : Cursor) : (x.markIssued c).ports = x.ports := rfl
@[simp] theorem Elem_markIssued_bufs (x : Elem) (c : Cursor) : (x.markIssued c).bufs = x.bufs := rfl
@[simp] theorem Elem_markIssued_pins (x : Elem) (c : Cursor) : (x.markIssued c).pins = x.pins := rfl
@[simp] theorem Elem_markIssued_fault (x : Elem) (c : Cursor) : (x.markIssued c).fault = x.fault := rfl
@[simp] theorem Elem_markIssued_more (x : Elem) (c : Cursor) : (x.markIssued c).more = x.more := rfl
@[simp] theorem Elem_markIssued_stopped (x : Elem) (c : Cursor) : (x.markIssued c).stopped = x.stopped := rfl
@[simp] theorem Elem_markIssued_brkPass (x : Elem) (c : Cursor) : (x.markIssued c).brkPass = x.brkPass := rfl
@[simp] theorem Elem_markIssued_epoch (x : Elem) (c : Cursor) : (x.markIssued c).epoch = x.epoch := rfl
@[simp] theorem Elem_markIssued_replayUpTo (x : Elem) (c : Cursor) : (x.markIssued c).replayUpTo = x.replayUpTo := rfl
@[simp] theorem Elem_markIssued_marks (x : Elem) (c : Cursor) : (x.markIssued c).marks = x.marks := rfl
@[simp] theorem Elem_markIssued_reports (x : Elem) (c : Cursor) : (x.markIssued c).reports = x.reports := rfl
@[simp] theorem Elem_markIssued_win (x : Elem) (c : Cursor) : (x.markIssued c).win = x.win := rfl

/-! ### Elem.setReg -/

@[simp] theorem Elem_setReg_l (x : Elem) (k : Nat) (r : Reg) : (x.setReg k r).l = x.l := rfl
@[simp] theorem Elem_setReg_reg (x : Elem) (k : Nat) (r : Reg) : (x.setReg k r).reg = x.reg := rfl
@[simp] theorem Elem_setReg_col (x : Elem) (k : Nat) (r : Reg) : (x.setReg k r).col = x.col := rfl
@[simp] theorem Elem_setReg_row (x : Elem) (k : Nat) (r : Reg) : (x.setReg k r).row = x.row := rfl
@[simp] theorem Elem_setReg_elpart (x : Elem) (k : Nat) (r : Reg) : (x.setReg k r).elpart = x.elpart := rfl
@[simp] theorem Elem_setReg_ctx (x : Elem) (k : Nat) (r : Reg) : (x.setReg k r).ctx = x.ctx := rfl
@[simp] theorem Elem_setReg_set (x : Elem) (k : Nat) (r : Reg) : (x.setReg k r).set = x.set := rfl
@[simp] theorem Elem_setReg_alt (x : Elem) (k : Nat) (r : Reg) : (x.setReg k r).alt = x.alt := rfl
@[simp] theorem Elem_setReg_shadow (x : Elem) (k : Nat) (r : Reg) : (x.setReg k r).shadow = x.shadow := rfl
@[simp] theorem Elem_setReg_firings (x : Elem) (k : Nat) (r : Reg) : (x.setReg k r).firings = x.firings := rfl
@[simp] theorem Elem_setReg_started (x : Elem) (k : Nat) (r : Reg) : (x.setReg k r).started = x.started := rfl
@[simp] theorem Elem_setReg_done (x : Elem) (k : Nat) (r : Reg) : (x.setReg k r).done = x.done := rfl
@[simp] theorem Elem_setReg_icyc (x : Elem) (k : Nat) (r : Reg) : (x.setReg k r).icyc = x.icyc := rfl
@[simp] theorem Elem_setReg_lastStart (x : Elem) (k : Nat) (r : Reg) : (x.setReg k r).lastStart = x.lastStart := rfl
@[simp] theorem Elem_setReg_begun (x : Elem) (k : Nat) (r : Reg) : (x.setReg k r).begun = x.begun := rfl
@[simp] theorem Elem_setReg_inAt (x : Elem) (k : Nat) (r : Reg) : (x.setReg k r).inAt = x.inAt := rfl
@[simp] theorem Elem_setReg_outAt (x : Elem) (k : Nat) (r : Reg) : (x.setReg k r).outAt = x.outAt := rfl
@[simp] theorem Elem_setReg_filts (x : Elem) (k : Nat) (r : Reg) : (x.setReg k r).filts = x.filts := rfl
@[simp] theorem Elem_setReg_merges (x : Elem) (k : Nat) (r : Reg) : (x.setReg k r).merges = x.merges := rfl
@[simp] theorem Elem_setReg_epiRun (x : Elem) (k : Nat) (r : Reg) : (x.setReg k r).epiRun = x.epiRun := rfl
@[simp] theorem Elem_setReg_phend (x : Elem) (k : Nat) (r : Reg) : (x.setReg k r).phend = x.phend := rfl
@[simp] theorem Elem_setReg_phases (x : Elem) (k : Nat) (r : Reg) : (x.setReg k r).phases = x.phases := rfl
@[simp] theorem Elem_setReg_pred (x : Elem) (k : Nat) (r : Reg) : (x.setReg k r).pred = x.pred := rfl
@[simp] theorem Elem_setReg_waves (x : Elem) (k : Nat) (r : Reg) : (x.setReg k r).waves = x.waves := rfl
@[simp] theorem Elem_setReg_switched (x : Elem) (k : Nat) (r : Reg) : (x.setReg k r).switched = x.switched := rfl
@[simp] theorem Elem_setReg_divFree (x : Elem) (k : Nat) (r : Reg) : (x.setReg k r).divFree = x.divFree := rfl
@[simp] theorem Elem_setReg_mxFree (x : Elem) (k : Nat) (r : Reg) : (x.setReg k r).mxFree = x.mxFree := rfl
@[simp] theorem Elem_setReg_mxUse (x : Elem) (k : Nat) (r : Reg) : (x.setReg k r).mxUse = x.mxUse := rfl
@[simp] theorem Elem_setReg_acc (x : Elem) (k : Nat) (r : Reg) : (x.setReg k r).acc = x.acc := rfl
@[simp] theorem Elem_setReg_accNext (x : Elem) (k : Nat) (r : Reg) : (x.setReg k r).accNext = x.accNext := rfl
@[simp] theorem Elem_setReg_fills (x : Elem) (k : Nat) (r : Reg) : (x.setReg k r).fills = x.fills := rfl
@[simp] theorem Elem_setReg_ports (x : Elem) (k : Nat) (r : Reg) : (x.setReg k r).ports = x.ports := rfl
@[simp] theorem Elem_setReg_bufs (x : Elem) (k : Nat) (r : Reg) : (x.setReg k r).bufs = x.bufs := rfl
@[simp] theorem Elem_setReg_pins (x : Elem) (k : Nat) (r : Reg) : (x.setReg k r).pins = x.pins := rfl
@[simp] theorem Elem_setReg_fault (x : Elem) (k : Nat) (r : Reg) : (x.setReg k r).fault = x.fault := rfl
@[simp] theorem Elem_setReg_more (x : Elem) (k : Nat) (r : Reg) : (x.setReg k r).more = x.more := rfl
@[simp] theorem Elem_setReg_stopped (x : Elem) (k : Nat) (r : Reg) : (x.setReg k r).stopped = x.stopped := rfl
@[simp] theorem Elem_setReg_brkPass (x : Elem) (k : Nat) (r : Reg) : (x.setReg k r).brkPass = x.brkPass := rfl
@[simp] theorem Elem_setReg_epoch (x : Elem) (k : Nat) (r : Reg) : (x.setReg k r).epoch = x.epoch := rfl
@[simp] theorem Elem_setReg_replayUpTo (x : Elem) (k : Nat) (r : Reg) : (x.setReg k r).replayUpTo = x.replayUpTo := rfl
@[simp] theorem Elem_setReg_marks (x : Elem) (k : Nat) (r : Reg) : (x.setReg k r).marks = x.marks := rfl
@[simp] theorem Elem_setReg_reports (x : Elem) (k : Nat) (r : Reg) : (x.setReg k r).reports = x.reports := rfl
@[simp] theorem Elem_setReg_win (x : Elem) (k : Nat) (r : Reg) : (x.setReg k r).win = x.win := rfl

@[simp] theorem Elem_setReg_cur (x : Elem) (k : Nat) (r : Reg) :
    (x.setReg k r).cur = { x.cur with regs := setAt x.cur.regs k r } := rfl

/-! ### Elem.trap -/

@[simp] theorem Elem_trap_l (x : Elem) (f : FaultReg) : (x.trap f).l = x.l := by unfold Elem.trap; (repeat' split) <;> rfl
@[simp] theorem Elem_trap_reg (x : Elem) (f : FaultReg) : (x.trap f).reg = x.reg := by unfold Elem.trap; (repeat' split) <;> rfl
@[simp] theorem Elem_trap_col (x : Elem) (f : FaultReg) : (x.trap f).col = x.col := by unfold Elem.trap; (repeat' split) <;> rfl
@[simp] theorem Elem_trap_row (x : Elem) (f : FaultReg) : (x.trap f).row = x.row := by unfold Elem.trap; (repeat' split) <;> rfl
@[simp] theorem Elem_trap_elpart (x : Elem) (f : FaultReg) : (x.trap f).elpart = x.elpart := by unfold Elem.trap; (repeat' split) <;> rfl
@[simp] theorem Elem_trap_ctx (x : Elem) (f : FaultReg) : (x.trap f).ctx = x.ctx := by unfold Elem.trap; (repeat' split) <;> rfl
@[simp] theorem Elem_trap_set (x : Elem) (f : FaultReg) : (x.trap f).set = x.set := by unfold Elem.trap; (repeat' split) <;> rfl
@[simp] theorem Elem_trap_cur (x : Elem) (f : FaultReg) : (x.trap f).cur = x.cur := by unfold Elem.trap; (repeat' split) <;> rfl
@[simp] theorem Elem_trap_alt (x : Elem) (f : FaultReg) : (x.trap f).alt = x.alt := by unfold Elem.trap; (repeat' split) <;> rfl
@[simp] theorem Elem_trap_shadow (x : Elem) (f : FaultReg) : (x.trap f).shadow = x.shadow := by unfold Elem.trap; (repeat' split) <;> rfl
@[simp] theorem Elem_trap_firings (x : Elem) (f : FaultReg) : (x.trap f).firings = x.firings := by unfold Elem.trap; (repeat' split) <;> rfl
@[simp] theorem Elem_trap_started (x : Elem) (f : FaultReg) : (x.trap f).started = x.started := by unfold Elem.trap; (repeat' split) <;> rfl
@[simp] theorem Elem_trap_done (x : Elem) (f : FaultReg) : (x.trap f).done = x.done := by unfold Elem.trap; (repeat' split) <;> rfl
@[simp] theorem Elem_trap_icyc (x : Elem) (f : FaultReg) : (x.trap f).icyc = x.icyc := by unfold Elem.trap; (repeat' split) <;> rfl
@[simp] theorem Elem_trap_lastStart (x : Elem) (f : FaultReg) : (x.trap f).lastStart = x.lastStart := by unfold Elem.trap; (repeat' split) <;> rfl
@[simp] theorem Elem_trap_begun (x : Elem) (f : FaultReg) : (x.trap f).begun = x.begun := by unfold Elem.trap; (repeat' split) <;> rfl
@[simp] theorem Elem_trap_inAt (x : Elem) (f : FaultReg) : (x.trap f).inAt = x.inAt := by unfold Elem.trap; (repeat' split) <;> rfl
@[simp] theorem Elem_trap_outAt (x : Elem) (f : FaultReg) : (x.trap f).outAt = x.outAt := by unfold Elem.trap; (repeat' split) <;> rfl
@[simp] theorem Elem_trap_filts (x : Elem) (f : FaultReg) : (x.trap f).filts = x.filts := by unfold Elem.trap; (repeat' split) <;> rfl
@[simp] theorem Elem_trap_merges (x : Elem) (f : FaultReg) : (x.trap f).merges = x.merges := by unfold Elem.trap; (repeat' split) <;> rfl
@[simp] theorem Elem_trap_epiRun (x : Elem) (f : FaultReg) : (x.trap f).epiRun = x.epiRun := by unfold Elem.trap; (repeat' split) <;> rfl
@[simp] theorem Elem_trap_phend (x : Elem) (f : FaultReg) : (x.trap f).phend = x.phend := by unfold Elem.trap; (repeat' split) <;> rfl
@[simp] theorem Elem_trap_phases (x : Elem) (f : FaultReg) : (x.trap f).phases = x.phases := by unfold Elem.trap; (repeat' split) <;> rfl
@[simp] theorem Elem_trap_pred (x : Elem) (f : FaultReg) : (x.trap f).pred = x.pred := by unfold Elem.trap; (repeat' split) <;> rfl
@[simp] theorem Elem_trap_waves (x : Elem) (f : FaultReg) : (x.trap f).waves = x.waves := by unfold Elem.trap; (repeat' split) <;> rfl
@[simp] theorem Elem_trap_switched (x : Elem) (f : FaultReg) : (x.trap f).switched = x.switched := by unfold Elem.trap; (repeat' split) <;> rfl
@[simp] theorem Elem_trap_divFree (x : Elem) (f : FaultReg) : (x.trap f).divFree = x.divFree := by unfold Elem.trap; (repeat' split) <;> rfl
@[simp] theorem Elem_trap_mxFree (x : Elem) (f : FaultReg) : (x.trap f).mxFree = x.mxFree := by unfold Elem.trap; (repeat' split) <;> rfl
@[simp] theorem Elem_trap_mxUse (x : Elem) (f : FaultReg) : (x.trap f).mxUse = x.mxUse := by unfold Elem.trap; (repeat' split) <;> rfl
@[simp] theorem Elem_trap_acc (x : Elem) (f : FaultReg) : (x.trap f).acc = x.acc := by unfold Elem.trap; (repeat' split) <;> rfl
@[simp] theorem Elem_trap_accNext (x : Elem) (f : FaultReg) : (x.trap f).accNext = x.accNext := by unfold Elem.trap; (repeat' split) <;> rfl
@[simp] theorem Elem_trap_fills (x : Elem) (f : FaultReg) : (x.trap f).fills = x.fills := by unfold Elem.trap; (repeat' split) <;> rfl
@[simp] theorem Elem_trap_ports (x : Elem) (f : FaultReg) : (x.trap f).ports = x.ports := by unfold Elem.trap; (repeat' split) <;> rfl
@[simp] theorem Elem_trap_bufs (x : Elem) (f : FaultReg) : (x.trap f).bufs = x.bufs := by unfold Elem.trap; (repeat' split) <;> rfl
@[simp] theorem Elem_trap_pins (x : Elem) (f : FaultReg) : (x.trap f).pins = x.pins := by unfold Elem.trap; (repeat' split) <;> rfl
@[simp] theorem Elem_trap_brkPass (x : Elem) (f : FaultReg) : (x.trap f).brkPass = x.brkPass := by unfold Elem.trap; (repeat' split) <;> rfl
@[simp] theorem Elem_trap_epoch (x : Elem) (f : FaultReg) : (x.trap f).epoch = x.epoch := by unfold Elem.trap; (repeat' split) <;> rfl
@[simp] theorem Elem_trap_replayUpTo (x : Elem) (f : FaultReg) : (x.trap f).replayUpTo = x.replayUpTo := by unfold Elem.trap; (repeat' split) <;> rfl
@[simp] theorem Elem_trap_marks (x : Elem) (f : FaultReg) : (x.trap f).marks = x.marks := by unfold Elem.trap; (repeat' split) <;> rfl
@[simp] theorem Elem_trap_reports (x : Elem) (f : FaultReg) : (x.trap f).reports = x.reports := by unfold Elem.trap; (repeat' split) <;> rfl
@[simp] theorem Elem_trap_win (x : Elem) (f : FaultReg) : (x.trap f).win = x.win := by unfold Elem.trap; (repeat' split) <;> rfl

@[simp] theorem Elem_trap_stopped (x : Elem) (f : FaultReg) : (x.trap f).stopped = true := by unfold Elem.trap; (repeat' split) <;> rfl

/-! ### Elem.send -/

@[simp] theorem Elem_send_l (x : Elem) (c : Cursor) (k : Nat) (a : Tgt) (t : Token) (due : Nat) : (x.send c k a t due).l = x.l := by unfold Elem.send; split <;> rfl
@[simp] theorem Elem_send_reg (x : Elem) (c : Cursor) (k : Nat) (a : Tgt) (t : Token) (due : Nat) : (x.send c k a t due).reg = x.reg := by unfold Elem.send; split <;> rfl
@[simp] theorem Elem_send_col (x : Elem) (c : Cursor) (k : Nat) (a : Tgt) (t : Token) (due : Nat) : (x.send c k a t due).col = x.col := by unfold Elem.send; split <;> rfl
@[simp] theorem Elem_send_row (x : Elem) (c : Cursor) (k : Nat) (a : Tgt) (t : Token) (due : Nat) : (x.send c k a t due).row = x.row := by unfold Elem.send; split <;> rfl
@[simp] theorem Elem_send_elpart (x : Elem) (c : Cursor) (k : Nat) (a : Tgt) (t : Token) (due : Nat) : (x.send c k a t due).elpart = x.elpart := by unfold Elem.send; split <;> rfl
@[simp] theorem Elem_send_ctx (x : Elem) (c : Cursor) (k : Nat) (a : Tgt) (t : Token) (due : Nat) : (x.send c k a t due).ctx = x.ctx := by unfold Elem.send; split <;> rfl
@[simp] theorem Elem_send_set (x : Elem) (c : Cursor) (k : Nat) (a : Tgt) (t : Token) (due : Nat) : (x.send c k a t due).set = x.set := by unfold Elem.send; split <;> rfl
@[simp] theorem Elem_send_cur (x : Elem) (c : Cursor) (k : Nat) (a : Tgt) (t : Token) (due : Nat) : (x.send c k a t due).cur = x.cur := by unfold Elem.send; split <;> rfl
@[simp] theorem Elem_send_alt (x : Elem) (c : Cursor) (k : Nat) (a : Tgt) (t : Token) (due : Nat) : (x.send c k a t due).alt = x.alt := by unfold Elem.send; split <;> rfl
@[simp] theorem Elem_send_shadow (x : Elem) (c : Cursor) (k : Nat) (a : Tgt) (t : Token) (due : Nat) : (x.send c k a t due).shadow = x.shadow := by unfold Elem.send; split <;> rfl
@[simp] theorem Elem_send_started (x : Elem) (c : Cursor) (k : Nat) (a : Tgt) (t : Token) (due : Nat) : (x.send c k a t due).started = x.started := by unfold Elem.send; split <;> rfl
@[simp] theorem Elem_send_done (x : Elem) (c : Cursor) (k : Nat) (a : Tgt) (t : Token) (due : Nat) : (x.send c k a t due).done = x.done := by unfold Elem.send; split <;> rfl
@[simp] theorem Elem_send_icyc (x : Elem) (c : Cursor) (k : Nat) (a : Tgt) (t : Token) (due : Nat) : (x.send c k a t due).icyc = x.icyc := by unfold Elem.send; split <;> rfl
@[simp] theorem Elem_send_lastStart (x : Elem) (c : Cursor) (k : Nat) (a : Tgt) (t : Token) (due : Nat) : (x.send c k a t due).lastStart = x.lastStart := by unfold Elem.send; split <;> rfl
@[simp] theorem Elem_send_begun (x : Elem) (c : Cursor) (k : Nat) (a : Tgt) (t : Token) (due : Nat) : (x.send c k a t due).begun = x.begun := by unfold Elem.send; split <;> rfl
@[simp] theorem Elem_send_inAt (x : Elem) (c : Cursor) (k : Nat) (a : Tgt) (t : Token) (due : Nat) : (x.send c k a t due).inAt = x.inAt := by unfold Elem.send; split <;> rfl
@[simp] theorem Elem_send_outAt (x : Elem) (c : Cursor) (k : Nat) (a : Tgt) (t : Token) (due : Nat) : (x.send c k a t due).outAt = x.outAt := by unfold Elem.send; split <;> rfl
@[simp] theorem Elem_send_filts (x : Elem) (c : Cursor) (k : Nat) (a : Tgt) (t : Token) (due : Nat) : (x.send c k a t due).filts = x.filts := by unfold Elem.send; split <;> rfl
@[simp] theorem Elem_send_merges (x : Elem) (c : Cursor) (k : Nat) (a : Tgt) (t : Token) (due : Nat) : (x.send c k a t due).merges = x.merges := by unfold Elem.send; split <;> rfl
@[simp] theorem Elem_send_epiRun (x : Elem) (c : Cursor) (k : Nat) (a : Tgt) (t : Token) (due : Nat) : (x.send c k a t due).epiRun = x.epiRun := by unfold Elem.send; split <;> rfl
@[simp] theorem Elem_send_phend (x : Elem) (c : Cursor) (k : Nat) (a : Tgt) (t : Token) (due : Nat) : (x.send c k a t due).phend = x.phend := by unfold Elem.send; split <;> rfl
@[simp] theorem Elem_send_phases (x : Elem) (c : Cursor) (k : Nat) (a : Tgt) (t : Token) (due : Nat) : (x.send c k a t due).phases = x.phases := by unfold Elem.send; split <;> rfl
@[simp] theorem Elem_send_pred (x : Elem) (c : Cursor) (k : Nat) (a : Tgt) (t : Token) (due : Nat) : (x.send c k a t due).pred = x.pred := by unfold Elem.send; split <;> rfl
@[simp] theorem Elem_send_waves (x : Elem) (c : Cursor) (k : Nat) (a : Tgt) (t : Token) (due : Nat) : (x.send c k a t due).waves = x.waves := by unfold Elem.send; split <;> rfl
@[simp] theorem Elem_send_switched (x : Elem) (c : Cursor) (k : Nat) (a : Tgt) (t : Token) (due : Nat) : (x.send c k a t due).switched = x.switched := by unfold Elem.send; split <;> rfl
@[simp] theorem Elem_send_divFree (x : Elem) (c : Cursor) (k : Nat) (a : Tgt) (t : Token) (due : Nat) : (x.send c k a t due).divFree = x.divFree := by unfold Elem.send; split <;> rfl
@[simp] theorem Elem_send_mxFree (x : Elem) (c : Cursor) (k : Nat) (a : Tgt) (t : Token) (due : Nat) : (x.send c k a t due).mxFree = x.mxFree := by unfold Elem.send; split <;> rfl
@[simp] theorem Elem_send_mxUse (x : Elem) (c : Cursor) (k : Nat) (a : Tgt) (t : Token) (due : Nat) : (x.send c k a t due).mxUse = x.mxUse := by unfold Elem.send; split <;> rfl
@[simp] theorem Elem_send_acc (x : Elem) (c : Cursor) (k : Nat) (a : Tgt) (t : Token) (due : Nat) : (x.send c k a t due).acc = x.acc := by unfold Elem.send; split <;> rfl
@[simp] theorem Elem_send_accNext (x : Elem) (c : Cursor) (k : Nat) (a : Tgt) (t : Token) (due : Nat) : (x.send c k a t due).accNext = x.accNext := by unfold Elem.send; split <;> rfl
@[simp] theorem Elem_send_fills (x : Elem) (c : Cursor) (k : Nat) (a : Tgt) (t : Token) (due : Nat) : (x.send c k a t due).fills = x.fills := by unfold Elem.send; split <;> rfl
@[simp] theorem Elem_send_ports (x : Elem) (c : Cursor) (k : Nat) (a : Tgt) (t : Token) (due : Nat) : (x.send c k a t due).ports = x.ports := by unfold Elem.send; split <;> rfl
@[simp] theorem Elem_send_bufs (x : Elem) (c : Cursor) (k : Nat) (a : Tgt) (t : Token) (due : Nat) : (x.send c k a t due).bufs = x.bufs := by unfold Elem.send; split <;> rfl
@[simp] theorem Elem_send_pins (x : Elem) (c : Cursor) (k : Nat) (a : Tgt) (t : Token) (due : Nat) : (x.send c k a t due).pins = x.pins := by unfold Elem.send; split <;> rfl
@[simp] theorem Elem_send_fault (x : Elem) (c : Cursor) (k : Nat) (a : Tgt) (t : Token) (due : Nat) : (x.send c k a t due).fault = x.fault := by unfold Elem.send; split <;> rfl
@[simp] theorem Elem_send_more (x : Elem) (c : Cursor) (k : Nat) (a : Tgt) (t : Token) (due : Nat) : (x.send c k a t due).more = x.more := by unfold Elem.send; split <;> rfl
@[simp] theorem Elem_send_stopped (x : Elem) (c : Cursor) (k : Nat) (a : Tgt) (t : Token) (due : Nat) : (x.send c k a t due).stopped = x.stopped := by unfold Elem.send; split <;> rfl
@[simp] theorem Elem_send_brkPass (x : Elem) (c : Cursor) (k : Nat) (a : Tgt) (t : Token) (due : Nat) : (x.send c k a t due).brkPass = x.brkPass := by unfold Elem.send; split <;> rfl
@[simp] theorem Elem_send_epoch (x : Elem) (c : Cursor) (k : Nat) (a : Tgt) (t : Token) (due : Nat) : (x.send c k a t due).epoch = x.epoch := by unfold Elem.send; split <;> rfl
@[simp] theorem Elem_send_replayUpTo (x : Elem) (c : Cursor) (k : Nat) (a : Tgt) (t : Token) (due : Nat) : (x.send c k a t due).replayUpTo = x.replayUpTo := by unfold Elem.send; split <;> rfl
@[simp] theorem Elem_send_marks (x : Elem) (c : Cursor) (k : Nat) (a : Tgt) (t : Token) (due : Nat) : (x.send c k a t due).marks = x.marks := by unfold Elem.send; split <;> rfl
@[simp] theorem Elem_send_reports (x : Elem) (c : Cursor) (k : Nat) (a : Tgt) (t : Token) (due : Nat) : (x.send c k a t due).reports = x.reports := by unfold Elem.send; split <;> rfl
@[simp] theorem Elem_send_win (x : Elem) (c : Cursor) (k : Nat) (a : Tgt) (t : Token) (due : Nat) : (x.send c k a t due).win = x.win := by unfold Elem.send; split <;> rfl

end Sys2Proof.Laws
end

