-- ==== Sys2Proof/Laws/Run.lean ====
section
/-! SUPPORT. What the shared operations of the instructions can do: the gate of a slot, `run`, `runS`, `compute` and `memIssue`; and what
issuing leaves alone. -/

namespace Sys2Proof.Laws

open Sys2Proof.Machine

/-! ### The gate -/

/-- A gate that lets an instruction go gives the element under the cursor. -/
theorem gate_elem {s : State} {i : Instr} {x : Elem} {a : Args} (h : gate s i = .go x a) : s.elem? s.cur.e = some x := by
  unfold gate at h
  cases hx : s.elem? s.cur.e with
  | none => simp [hx] at h
  | some y =>
    simp only [hx] at h
    repeat' split at h
    all_goals simp_all

theorem gate_nullify {s : State} {i : Instr} {x : Elem} {t : Option (BitVec 16)} (h : gate s i = .nullify x t) :
    s.elem? s.cur.e = some x := by
  unfold gate at h
  cases hx : s.elem? s.cur.e with
  | none => simp [hx] at h
  | some y =>
    simp only [hx] at h
    repeat' split at h
    all_goals simp_all

/-! ### `run`, `runS`, `compute` -/

theorem run_go {s : State} {i : Instr} {x : Elem} {a : Args} (f : Cursor → Elem → Args → Act) (h : gate s i = .go x a) :
    run i f s = match f s.cur x a with
      | .issue y lat outs => .next (s.setElem s.cur.e (y.issue s.cur lat outs))
      | .trap cls cause addr detail => .next (s.raise s.cur cls cause addr detail)
      | .wait => .next s := by
  simp only [run, h] <;> rfl

theorem runS_go {s : State} {i : Instr} {x : Elem} {a : Args} (f : Cursor → Elem → Args → State → Out) (h : gate s i = .go x a) :
    runS i f s = f s.cur x a s := by
  simp only [runS, h]

theorem compute_go {s : State} {i : Instr} {x : Elem} {a : Args} (lat : Nat) (f : Args → Payload × Nat) (h : gate s i = .go x a) :
    compute i lat f s =
      .next (s.setElem s.cur.e ((x.flags lat (f a).2).issue s.cur lat (toAll i (dataTok (f a).1 a.tag)))) := by
  simp only [compute, run, h]

/-- What `run` can do: nothing; a trap at the slot; or the slot issues, nullified or with what the instruction says. -/
theorem run_cases (i : Instr) (f : Cursor → Elem → Args → Act) (s : State) :
    run i f s = .next s ∨ (∃ cls cause addr detail, run i f s = .next (s.raise s.cur cls cause addr detail)) ∨
    (∃ x t, s.elem? s.cur.e = some x ∧ run i f s = .next (s.setElem s.cur.e (x.nullified s.cur i t))) ∨
    ∃ x a y lat outs, gate s i = .go x a ∧ f s.cur x a = .issue y lat outs ∧
      run i f s = .next (s.setElem s.cur.e (y.issue s.cur lat outs)) := by
  cases h : gate s i with
  | wait => exact .inl (by simp only [run, h])
  | illegal => exact .inr (.inl ⟨tcIllegal, 0, 0, 0, by simp only [run, h]⟩)
  | nullify x t => exact .inr (.inr (.inl ⟨x, t, gate_nullify h, by simp only [run, h]⟩))
  | go x a =>
    rw [run_go f h]
    cases hf : f s.cur x a with
    | issue y lat outs => exact .inr (.inr (.inr ⟨x, a, y, lat, outs, rfl, hf, rfl⟩))
    | trap cls cause addr detail => exact .inr (.inl ⟨cls, cause, addr, detail, rfl⟩)
    | wait => exact .inl rfl

/-- `run` always answers a next state. -/
theorem run_next (i : Instr) (f : Cursor → Elem → Args → Act) (s : State) : ∃ t, run i f s = .next t := by
  rcases run_cases i f s with h | ⟨_, _, _, _, h⟩ | ⟨_, _, _, h⟩ | ⟨_, _, _, _, _, _, _, h⟩ <;> exact ⟨_, h⟩

theorem runS_next (i : Instr) (f : Cursor → Elem → Args → State → Out) (s : State)
    (hf : ∀ c x a, ∃ t, f c x a s = .next t) : ∃ t, runS i f s = .next t := by
  unfold runS
  split
  · exact ⟨_, rfl⟩
  · exact ⟨_, rfl⟩
  · exact ⟨_, rfl⟩
  · exact hf _ _ _

theorem compute_next (i : Instr) (lat : Nat) (f : Args → Payload × Nat) (s : State) : ∃ t, compute i lat f s = .next t :=
  run_next _ _ _

/-- What `inOrder` can do: nothing, where the slot is nullified and is held; else what it guards. -/
theorem inOrder_cases (i : Instr) (f : State → Out) (s : State) : inOrder i f s = .next s ∨ inOrder i f s = f s := by
  unfold inOrder
  split
  · split
    · exact .inl rfl
    · exact .inr rfl
  · exact .inr rfl

theorem inOrder_go {s : State} {i : Instr} {x : Elem} {a : Args} (f : State → Out) (h : gate s i = .go x a) :
    inOrder i f s = f s := by
  simp only [inOrder, h]

theorem memIssue_next (i : Instr) (chk : AccCheck) (s : State) : ∃ t, memIssue i chk s = .next t := by
  unfold memIssue
  refine (inOrder_cases i _ s).elim (fun h => ⟨s, h⟩) fun h => h ▸ runS_next _ _ _ ?_
  intro c x a
  dsimp only
  repeat' split
  all_goals exact ⟨_, rfl⟩

theorem memIssueIf_next (ok : State → Elem → Bool) (i : Instr) (chk : AccCheck) (s : State) :
    ∃ t, memIssueIf ok i chk s = .next t := by
  unfold memIssueIf
  split
  · split
    · exact memIssue_next _ _ _
    · exact ⟨_, rfl⟩
  · exact memIssue_next _ _ _

/-! ### What issuing leaves alone -/

/-- Sending a token changes the firings alone. -/
theorem send_firings (x : Elem) (c : Cursor) (k : Nat) (a : Tgt) (t : Token) (due : Nat) :
    ∃ fs, x.send c k a t due = { x with firings := fs } := by
  unfold Elem.send
  split <;> exact ⟨_, rfl⟩

theorem sendAll_firings (x : Elem) (c : Cursor) (due : Nat) (outs : List (Nat × Tgt × Token)) :
    ∃ fs, x.sendAll c due outs = { x with firings := fs } := by
  induction outs generalizing x with
  | nil => exact ⟨x.firings, rfl⟩
  | cons o r ih =>
    obtain ⟨k, a, t⟩ := o
    obtain ⟨fs, h⟩ := send_firings x c k a t due
    obtain ⟨gs, h'⟩ := ih (x.send c k a t due)
    exact ⟨gs, by rw [Elem.sendAll, h', h]⟩

/-- Issuing a slot changes the firings alone. -/
theorem issue_firings (x : Elem) (c : Cursor) (lat : Nat) (outs : List (Nat × Tgt × Token)) :
    ∃ fs, x.issue c lat outs = { x with firings := fs } := by
  obtain ⟨fs, h⟩ := sendAll_firings (x.markIssued c) c (x.icyc + lat) outs
  exact ⟨fs, by rw [Elem.issue, h]; rfl⟩

/-- Raising flags changes the queue of flags alone. -/
theorem flags_queue (x : Elem) (lat fl : Nat) : ∃ q, x.flags lat fl = { x with cur := { x.cur with flagQ := q } } := by
  unfold Elem.flags
  split
  · exact ⟨x.cur.flagQ, rfl⟩
  · exact ⟨_, rfl⟩

theorem elem_setElem_same (s : State) (e : Nat) (x : Elem) : (s.setElem e x).elem? e = some x := by simp [State.elem?]

theorem elem_setElem_other (s : State) (e d : Nat) (x : Elem) (h : d ≠ e) : (s.setElem e x).elem? d = s.elem? d := by
  simp [State.elem?, look_put_other _ _ _ _ h]

theorem elem_modElem_same (s : State) (e : Nat) (f : Elem → Elem) : (s.modElem e f).elem? e = (s.elem? e).map f := by
  unfold State.modElem
  cases h : s.elem? e with
  | none => simp [h]
  | some x => simp [elem_setElem_same]

theorem elem_modElem_other (s : State) (e d : Nat) (f : Elem → Elem) (h : d ≠ e) : (s.modElem e f).elem? d = s.elem? d := by
  unfold State.modElem
  cases s.elem? e with
  | none => rfl
  | some x => exact elem_setElem_other _ _ _ _ h

/-- A trap changes the fault register and stops the element; it changes no other element. -/
theorem raise_elem (s : State) (c : Cursor) (cls cause : Nat) (addr detail : Dword) (x : Elem) (h : s.elem? c.e = some x) :
    (s.raise c cls cause addr detail).elem? c.e = some (x.trap { slotFault x c s.cycle cls cause addr detail with pol := (s.part x.l.n).faultPol }) := by
  rw [State.raise, elem_modElem_same, h]
  rfl

theorem elem_raise_other (s : State) (c : Cursor) (cls cause : Nat) (addr detail : Dword) (d : Nat) (h : d ≠ c.e) :
    (s.raise c cls cause addr detail).elem? d = s.elem? d := elem_modElem_other _ _ _ _ h

end Sys2Proof.Laws
end

