-- ==== Sys2Proof/Tests/Slice0.lean ====
section
/-! SUPPORT. Tests: ill-formed terms are refused, words of the encoding tables decode, instructions and events give the results that
the manual's tables and worked examples or a calculation by hand from its rules give, and, as theorems `meets_…`, states and operands
that meet the hypotheses of the statements. -/

namespace Sys2Proof.Tests

set_option Elab.async false

open Sys2Proof Sys2Proof.Machine Sys2Proof.Claims

/-! ### Helpers -/

/-- A data token and a null, a condition and markers. -/
def d (v : Payload) : Token := ⟨.data, v, none⟩
def nul : Token := ⟨.null, 0, none⟩
def tru : Token := ⟨.cond, 1, none⟩
def fls : Token := ⟨.cond, 0, none⟩
def row : Token := ⟨.row, 0, none⟩

/-- Lanes of 32 bits, lane 0 first. -/
def lanes (l : List Nat) : Payload := BitVec.ofNat 512 (l.foldr (fun v acc => v % 2 ^ 32 + 2 ^ 32 * acc) 0)

/-- Sixteen equal lanes. -/
def same (v : Nat) : Payload := lanes (List.replicate 16 v)

/-- Element 0 of partition 0 runs a firing of four slots; the first has these tokens at its operand ports. -/
def small (l r t p : Token) : State :=
  let s := State.reset.place [0x1D0003FF, 0x1D0003FF, 0x1D0003FF, 0x1D0003FF]
  s.modElem 0 fun x => { x with
    firings := x.firings.map fun f => { f with slots := [⟨false, some ⟨l, 0⟩, some ⟨r, 0⟩, some ⟨t, 0⟩, some ⟨p, 0⟩⟩, {}, {}, {}] } }

/-- Element 0 changed. -/
def State.x0 (s : State) (f : Elem → Elem) : State := s.modElem 0 f

/-- The target of the tests, and a second one. -/
def a1 : Tgt := .slot 1 .l
def a2 : Tgt := .slot 1 .r

/-- What slot 1 holds at its ports L and R after an instruction has run: token and element cycle. -/
def outs (i : Instr) (s : State) : Option (Option Opnd × Option Opnd) :=
  match exec i s with
  | .next t => (t.elem? 0).bind fun x => x.firings.head?.bind fun f => f.slots[1]?.map fun sl => (sl.l, sl.r)
  | _ => none

/-- The instruction sends this data, after this latency, and no flag is due. -/
def gives (i : Instr) (l r t : Payload) (lat : Nat) (v : Payload) : Bool :=
  outs i (small (d l) (d r) (d t) tru) == some (some ⟨d v, lat⟩, none)

/-- The flags that an instruction raises for the cycle in which its result is there. -/
def flagsOf (i : Instr) (s : State) : Nat :=
  match exec i s with
  | .next t => ((t.elem? 0).map fun x => (x.cur.flagQ.foldl (fun (acc : Word) (q : Nat × Word) => acc ||| q.2) 0).toNat).getD 0
  | _ => 0

/-- The trap that an instruction raises: class, cause, ADDR and DETAIL. -/
def trapOf (i : Instr) (s : State) : Option (Nat × Nat × Dword × Dword) :=
  match exec i s with
  | .next t => (t.elem? 0).bind fun x => x.fault.map fun f => (f.cls, f.cause, f.addr, f.detail)
  | _ => none

/-- The state after an instruction or an event. -/
def after (i : Instr) (s : State) : State :=
  match exec i s with
  | .next t => t
  | _ => s

/-- An instruction passes its gate, with an element and operands for which the condition holds. -/
def goes (s : State) (i : Instr) (f : Elem → Args → Bool) : Bool :=
  match gate s i with
  | .go x r => f x r
  | _ => false

/-! ### Ill-formed terms (R45, R51, R141 to R145, R270, R306, R320, R455) -/

/-- One term for each check of WellFormed, and one that the check lets pass beside it. -/
def illFormed : List (Instr × Instr) :=
  [(.fadd .none .d .f32 a1 .none, .fadd .none .v .f32 a1 .none),
   (.fmul .none .v .bf16 a1 .none, .fmul .none .h .bf16 a1 .none),
   (.fsqrt .none .h .f32 a1 .none, .fsqrt .none .s .f16 a1 .none),
   (.dot .none .s .f32 a1 .none, .dot .none .v .f32 a1 .none),
   (.dot .none .v .f16 a1 .none, .dot .none .h .f16 a1 .none),
   (.cvt .none .fp32 .fp32 0 false .rne a1, .cvt .none .fp32 .int32 0 false .rne a1),
   (.cvt .none .fp32 .bf16 2 false .rne a1, .cvt .none .fp32 .bf16 1 false .rne a1),
   (.cvt .none .fp32 .bf16 0 true .rne a1, .cvt .none .fp32 .bf16 0 false .rne a1),
   (.cvti .none .int8 0 0 false .rne a1, .cvti .none .e5m2 0 0 false .rne a1),
   (.cvti .none .fp32 0 1 false .rne a1, .cvti .none .fp16 0 1 false .rne a1),
   (.cvtf .none .int16 0 false false .rne a1, .cvtf .none .ps8 0 false false .rne a1),
   (.cvtf .none .fp32 0 true false .rne a1, .cvtf .none .ps8 0 true false .rne a1),
   (.scale .none .e4m3 a1, .scale .none .fp16 a1),
   (.pack .none 3 false false a1 .none, .pack .none 2 false false a1 .none),
   (.unpack .none 3 false a1 .none, .unpack .none 2 false a1 .none),
   (.bcast .none 0 16 a1, .bcast .none 0 15 a1),
   (.bcast .none 1 32 a1, .bcast .none 1 31 a1),
   (.bcast .none 3 0 a1, .bcast .none 2 63 a1),
   (.topk .none .fp16 0 false a1, .topk .none .int32 0 false a1),
   (.eos .none 0 a1, .eos .none 3 a1),
   (.emit .none 3 a1, .emit .none 2 a1),
   (.ld .none .b4 .elem .rel false false 0 (.tgt a1), .ld .none .b4 .elem .acq false false 0 (.tgt a1)),
   (.ld .none .b4 .elem .rlx true false 0 (.tgt a1), .ld .none .b2 .elem .rlx true false 0 (.tgt a1)),
   (.st .none .b4 .elem .acq false 0 a1, .st .none .b4 .elem .rel false 0 a1),
   (.ldv .none .b8 .elem .rlx true false 0 a1, .ldv .none .b1 .elem .rlx true false 0 a1),
   (.stv .none .b4 .elem .ar false 0 a1, .stv .none .b4 .elem .rlx false 0 a1),
   (.recl .none .elem .acq 0 a1, .recl .none .elem .rlx 0 a1),
   (.pref .none .elem .acq 0 a1, .pref .none .elem .rlx 0 a1),
   (.flush .none .elem .rel 0 a1, .flush .none .elem .rlx 0 a1),
   (.pin .none .elem .ar 0 a1, .pin .none .elem .rlx 0 a1),
   (.unpin .none .elem .acq 0 a1, .unpin .none .elem .rlx 0 a1),
   (.ldt .none .elem .rel 0 a1, .ldt .none .elem .acq 0 a1),
   (.stt .none .elem .acq 0 a1, .stt .none .elem .rel 0 a1),
   (.gath .none .b8 .elem .rlx false 0 (.tgt a1), .gath .none .b4 .elem .rlx false 0 (.tgt a1)),
   (.scat .none .b4 .elem .acq 0 a1, .scat .none .b4 .elem .rel 0 a1),
   (.aadd .none .b2 .elem .rlx 0 a1, .aadd .none .b4 .elem .ar 0 a1),
   (.amin .none .b1 .elem .rlx true 0 a1, .amin .none .b8 .elem .rlx true 0 a1),
   (.afadd .none .b8 .elem .rlx 0 a1, .afadd .none .b4 .elem .rlx 0 a1),
   (.ascat .none .b4 .elem .acq 0 a1, .ascat .none .b4 .elem .rlx 0 a1),
   (.fence .none .elem .rlx a1, .fence .none .elem .ar a1),
   (.spld .none .b4 .page .rlx false a1, .spld .none .b4 .elem .rlx false a1),
   (.spst .none .b4 .elem .rel false a1, .spst .none .b4 .elem .rlx false a1),
   (.barm .none 96 false a1, .barm .none 95 false a1),
   (.barr .none 0 .page false false a1, .barr .none 0 .page true false a1),
   (.barw .none 96 .elem false false a1, .barw .none 95 .elem false false a1),
   (.chapp .none 1 1 a1, .chapp .none 1 0 a1),
   (.chctl .none 2 0 0 a1, .chctl .none 0 63 0 a1),
   (.chseq .none 2 8 a1, .chseq .none 2 7 a1),
   (.chwt .none 3 1 a1, .chwt .none 3 0 a1),
   (.tdsc .none 6 a1, .tdsc .none 5 a1),
   (.rateq .none 7 a1, .rateq .none 6 a1),
   (.trap .none 0 a1, .trap .none 1 a1),
   (.trap .none 12 a1, .trap .none 11 a1),
   (.csrr .none 0x02 a1, .csrr .none 0x11 a1),
   (.csrw .none 0x11 a1, .csrw .none 0x10 a1),
   (.fcnt .none 3 a1, .fcnt .none 2 a1),
   (.eqrd .none 5 a1, .eqrd .none 4 a1),
   (.obsr .none 5 false 0 a1, .obsr .none 4 false 7 a1),
   (.obsr .none 1 true 0 a1, .obsr .none 1 false 0 a1),
   (.obsr .none 4 true 0 a1, .obsr .none 0 true 7 a1)]

theorem test_ill_formed_refused : (illFormed.all fun q => !q.1.wellFormed && q.2.wellFormed) = true := by decide +kernel

/-! ### Decoding (R34 to R51): words written out from the encoding tables -/

/-- The words decode to the instruction, with none left over. -/
def readsAs (ws : List Word) (i : Instr) : Bool :=
  match decode ws with
  | .ok (k, r) => k == i && r.isEmpty
  | .error _ => false

def words_arithmetic : List (List Word × Instr) :=
  [([0x01B5AC5D], .add .f .h true (.slot 53 .t) (.slot 23 .r)),
   ([0x0277FE5D], .sub .t .h true .none (.slot 23 .r)),
   ([0x0336065D], .mul .none .h true (.out 3) (.slot 23 .r)),
   ([0x04B45E5D], .mulh .f .h true (.slot 11 .p) (.slot 23 .r)),
   ([0x0576105D], .mad .t .h true .done (.slot 23 .r)),
   ([0x0635AC5D], .div .none .h true (.slot 53 .t) (.slot 23 .r)),
   ([0x07B7FE5D], .rem .f .h true .none (.slot 23 .r)),
   ([0x0876065D], .and_ .t .h true (.out 3) (.slot 23 .r)),
   ([0x09345E5D], .or_ .none .h true (.slot 11 .p) (.slot 23 .r)),
   ([0x0AB6105D], .xor .f .h true .done (.slot 23 .r)),
   ([0x0B75AC5D], .andn .t .h true (.slot 53 .t) (.slot 23 .r)),
   ([0x0C37FE5D], .shl .none .h true .none (.slot 23 .r)),
   ([0x0DB6065D], .shr .f .h true (.out 3) (.slot 23 .r)),
   ([0x0E745E5D], .sra .t .h true (.slot 11 .p) (.slot 23 .r)),
   ([0x0F36105D], .rol .none .h true .done (.slot 23 .r))]

theorem test_decode_arithmetic : (words_arithmetic.all fun q => readsAs q.1 q.2) = true := by decide +kernel

def words_bits : List (List Word × Instr) :=
  [([0x10B5AC5D], .min .f .h true (.slot 53 .t) (.slot 23 .r)),
   ([0x1177FE5D], .max .t .h true .none (.slot 23 .r)),
   ([0x1236065D], .abs .none .h true (.out 3) (.slot 23 .r)),
   ([0x13B45E5D], .neg .f .h true (.slot 11 .p) (.slot 23 .r)),
   ([0x1476105D], .clz .t .h true .done (.slot 23 .r)),
   ([0x1535AC5D], .popc .none .h true (.slot 53 .t) (.slot 23 .r)),
   ([0x16B7FE5D], .brev .f .h true .none (.slot 23 .r)),
   ([0x1776065D], .bfx .t .h true (.out 3) (.slot 23 .r)),
   ([0x18345E5D], .bfi .none .h true (.slot 11 .p) (.slot 23 .r)),
   ([0x198C5F07], .cmp .f .le (.slot 11 .p) (.out 7)),
   ([0x1A420707], .sel .t (.out 3) (.out 7)),
   ([0x1B2E105D], .sat .none .v true true .done (.slot 23 .r)),
   ([0x1C95AC5D], .mov .f .d true (.slot 53 .t) (.slot 23 .r)),
   ([0x1D42105D], .nul .t .done (.slot 23 .r)),
   ([0x1E161107], .addr .none true .done (.out 7)),
   ([0x1F96105D], .aoff .f true .done (.slot 23 .r))]

theorem test_decode_bits : (words_bits.all fun q => readsAs q.1 q.2) = true := by decide +kernel

def words_addresses : List (List Word × Instr) :=
  [([0x20561107], .aidx .t true .done (.out 7)),
   ([0x2811B508], .addi .none 2266 .done),
   ([0x29BFDB08], .andi .f 8173 .done),
   ([0x2A6E0108], .ori .t 5888 .done),
   ([0x2B1C2708], .xori .none 3603 .done),
   ([0x2C800D08], .shli .f 6 .done),
   ([0x2D403308], .shri .t 25 .done),
   ([0x2E001908], .srai .none 12 .done),
   ([0x2F8608D6], .cmpi .f .ne 260 (.slot 53 .t))]

theorem test_decode_addresses : (words_addresses.all fun q => readsAs q.1 q.2) = true := by decide +kernel

def words_immediates_registers : List (List Word × Instr) :=
  [([0x30782ED6], .movi .t 7191 (.slot 53 .t)),
   ([0x312654D6], .movhi .none 4906 (.slot 53 .t)),
   ([0x32800105, 0xDEADBEEF], .litw .f (.out 5) 0xDEADBEEF),
   ([0x33947AD6], .muli .f 2621 (.slot 53 .t)),
   ([0x385403FF], .get .t 80 true .none),
   ([0x390201FF], .put .none 8 .none),
   ([0x3A86C303], .getx .f 27 true (.out 3)),
   ([0x3B74C103], .putx .t 211 (.out 3)),
   ([0x3C398103], .rempty .none 230 (.out 3)),
   ([0x3DBE4103], .rfull .f 249 (.out 3))]

theorem test_decode_immediates_registers : (words_immediates_registers.all fun q => readsAs q.1 q.2) = true := by decide +kernel

def words_floats : List (List Word × Instr) :=
  [([0x4063FF07], .fadd .t .v .f32 .none (.out 7)),
   ([0x4135AD07], .fsub .none .h .bf16 (.slot 53 .t) (.out 7)),
   ([0x42B61107], .fmul .f .h .bf16 .done (.out 7)),
   ([0x43745F07], .fma .t .h .bf16 (.slot 11 .p) (.out 7)),
   ([0x44360707], .fmin .none .h .bf16 (.out 3) (.out 7)),
   ([0x45B7FF07], .fmax .f .h .bf16 .none (.out 7)),
   ([0x4675AD07], .fabs .t .h .bf16 (.slot 53 .t) (.out 7)),
   ([0x47361107], .fneg .none .h .bf16 .done (.out 7)),
   ([0x48B45F07], .fcmp .f .h .bf16 (.slot 11 .p) (.out 7)),
   ([0x49760707], .fclass .t .h .bf16 (.out 3) (.out 7)),
   ([0x4A37FF07], .frcp .none .h .bf16 .none (.out 7)),
   ([0x4BB5AD07], .frsq .f .h .bf16 (.slot 53 .t) (.out 7)),
   ([0x4C761107], .fexp2 .t .h .bf16 .done (.out 7)),
   ([0x4D345F07], .flog2 .none .h .bf16 (.slot 11 .p) (.out 7)),
   ([0x4EB60707], .fsqrt .f .h .bf16 (.out 3) (.out 7)),
   ([0x4F77FF07], .fdiv .t .h .bf16 .none (.out 7))]

theorem test_decode_floats : (words_floats.all fun q => readsAs q.1 q.2) = true := by decide +kernel

def words_conversions_lanes : List (List Word × Instr) :=
  [([0x50052ED6], .cvt .none .fp32 .e4m3 2 true .rup (.slot 53 .t)),
   ([0x51854D08], .cvti .f .fp32 5 0 true .rdn .done),
   ([0x524A4A2F], .cvtf .t .bf16 9 false true .rtz (.slot 11 .p)),
   ([0x530C0103], .scale .none .fp16 (.out 3)),
   ([0x54AC5F07], .pack .f 2 true true (.slot 11 .p) (.out 7)),
   ([0x55545E5D], .unpack .t 1 true (.slot 11 .p) (.slot 23 .r)),
   ([0x58154103], .bcast .none 1 21 (.out 3)),
   ([0x59B20707], .shuf .f true (.out 3) (.out 7)),
   ([0x5A4E8108], .rot .t true true 10 .done),
   ([0x5B284108], .red .none .xor 1 .done),
   ([0x5C9C4108], .scan .f .fmax true .done),
   ([0x5D62C22F], .topk .t .int32 11 true (.slot 11 .p)),
   ([0x5E00402F], .lmask .none 1 (.slot 11 .p)),
   ([0x5FB05E5D], .compact .f true (.slot 11 .p) (.slot 23 .r))]

theorem test_decode_conversions_lanes : (words_conversions_lanes.all fun q => readsAs q.1 q.2) = true := by decide +kernel

def words_expansion : List (List Word × Instr) :=
  [([0x60705F07], .expand .t true (.slot 11 .p) (.out 7)),
   ([0x613A0707], .dot .none .h .f16 (.out 3) (.out 7))]

theorem test_decode_expansion : (words_expansion.all fun q => readsAs q.1 q.2) = true := by decide +kernel

def words_streams : List (List Word × Instr) :=
  [([0x70800103], .in_ .f 0 (.out 3)),
   ([0x714081FF], .eos .t 2 .none),
   ([0x720080D6], .emit .none 2 (.slot 53 .t)),
   ([0x7380C0D6], .bound .f 3 (.slot 53 .t)),
   ([0x7478402F], .filt .t true true 4 1 (.slot 11 .p)),
   ([0x750842D6], .merge .none 4 1 true (.slot 53 .t)),
   ([0x768040D6], .gate .f true (.slot 53 .t)),
   ([0x77400108], .mark .t .done),
   ([0x78008108], .drop .none 2 .done)]

theorem test_decode_streams : (words_streams.all fun q => readsAs q.1 q.2) = true := by decide +kernel

def words_accesses : List (List Word × Instr) :=
  [([0x80989C2F], .ld .f .b2 .sys .acq true true 2 (.tgt (.slot 11 .p))),
   ([0x81750908], .st .t .b8 .depot .rel true 0 .done),
   ([0x820698D6], .ldv .none .b1 .dev .acq true true 0 (.slot 53 .t)),
   ([0x83A90B03], .stv .f .b4 .sys .rel true 1 (.out 3)),
   ([0x8440022F], .recl .t .elem .rlx 1 (.slot 11 .p)),
   ([0x85068308], .ldt .none .dev .acq 1 .done),
   ([0x868302D6], .stt .f .page .rel 1 (.slot 53 .t)),
   ([0x874803FF], .pref .t .sys .rlx 1 .none),
   ([0x8814B3AB], .gath .none .b2 .depot .acq true 1 (.reg 427)),
   ([0x896905FF], .scat .t .b4 .sys .rel 2 .none),
   ([0x8A35062F], .aadd .none .b8 .depot .rel 3 (.slot 11 .p)),
   ([0x8BB693FF], .amin .f .b8 .dev .acq true 1 .none),
   ([0x8C759708], .amax .t .b8 .depot .ar true 3 .done),
   ([0x8D3281FF], .aand .none .b8 .page .acq 0 .none),
   ([0x8EB4022F], .aor .f .b8 .depot .rlx 1 (.slot 11 .p)),
   ([0x8F7784D6], .axor .t .b8 .dev .ar 2 (.slot 53 .t))]

theorem test_decode_accesses : (words_accesses.all fun q => readsAs q.1 q.2) = true := by decide +kernel

def words_atomics_fences : List (List Word × Instr) :=
  [([0x90390703], .axch .none .b8 .sys .rel 3 (.out 3)),
   ([0x91B08108], .acas .f .b8 .elem .acq 0 .done),
   ([0x926203FF], .afadd .t .b4 .page .rlx 1 .none),
   ([0x93250303], .ascat .none .b4 .depot .rel 1 (.out 3)),
   ([0x94818103], .fence .f .elem .ar (.out 3)),
   ([0x95430308], .fencex .t .ep .tf .page .done),
   ([0x960008D6], .spld .none .b1 .elem .rlx true (.slot 53 .t)),
   ([0x978009FF], .spst .f .b1 .elem .rlx true .none),
   ([0x98440303], .flush .t .depot .rlx 1 (.out 3)),
   ([0x9900022F], .pin .none .elem .rlx 1 (.slot 11 .p)),
   ([0x9A860308], .unpin .f .dev .rlx 1 .done)]

theorem test_decode_atomics_fences : (words_atomics_fences.all fun q => readsAs q.1 q.2) = true := by decide +kernel

def words_synchronisation : List (List Word × Instr) :=
  [([0xA057C308], .barm .t 95 true .done),
   ([0xA1168FFF], .barr .none 90 .page true true .none),
   ([0xA293562F], .barw .f 77 .depot true true (.slot 11 .p)),
   ([0xA34A9ED6], .barx .t 42 .dev true true (.slot 53 .t)),
   ([0xA4000108], .syni .none .done),
   ([0xA580002F], .synw .f (.slot 11 .p)),
   ([0xA6400103], .syna .t (.out 3)),
   ([0xA71001FF], .chapp .none 1 0 .none),
   ([0xA8A1C0D6], .chseq .f 2 7 (.slot 53 .t)),
   ([0xA9700108], .chwt .t 3 0 .done),
   ([0xAA0FC42F], .chctl .none 0 63 2 (.slot 11 .p)),
   ([0xAB800103], .tdisp .f (.out 3))]

theorem test_decode_synchronisation : (words_synchronisation.all fun q => readsAs q.1 q.2) = true := by decide +kernel

def words_matrix : List (List Word × Instr) :=
  [([0xB06E8708], .mma .t 442 true .done),
   ([0xB105C7FF], .mmas .none 279 true .none),
   ([0xB29D062F], .mmap .f 372 true (.slot 11 .p)),
   ([0xB37446D6], .acz .t 465 true (.slot 53 .t)),
   ([0xB40BA2F3], .acrd .none 302 (.reg 243)),
   ([0xB56BC2D6], .acwr .t 431 (.slot 53 .t)),
   ([0xB619C62F], .accv .none 359 .rne true (.slot 11 .p)),
   ([0xB780022F], .tagr .f 1 (.slot 11 .p)),
   ([0xB8404308], .tags .t true 1 .done),
   ([0xB9038703], .tfch .none true true 2 3 (.out 3)),
   ([0xBA808103], .trel .f 2 (.out 3)),
   ([0xBB4141FF], .tdsc .t 5 .none),
   ([0xBC0000D6], .mlook .none (.slot 53 .t))]

theorem test_decode_matrix : (words_matrix.all fun q => readsAs q.1 q.2) = true := by decide +kernel

def words_patterns : List (List Word × Instr) :=
  [([0xC08002D6], .pgld .f 1 (.slot 53 .t)),
   ([0xC14043FF], .pgst .t true 1 .none),
   ([0xC2002123], .pgnx .none 0 (.reg 291)),
   ([0xC3400108], .pgsv .t 0 .done),
   ([0xC4000708], .pgrs .none 3 .done),
   ([0xC5804108], .slhb .f true .done),
   ([0xC640002F], .slht .t (.slot 11 .p)),
   ([0xC700062F], .pgq .none 3 (.slot 11 .p))]

theorem test_decode_patterns : (words_patterns.all fun q => readsAs q.1 q.2) = true := by decide +kernel

def words_contexts : List (List Word × Instr) :=
  [([0xD0800103], .phend .f (.out 3)),
   ([0xD1400103], .ctxq .t 0 (.out 3)),
   ([0xD20181FF], .rateq .none 6 .none),
   ([0xD38D41FF], .sarm .f 53 .none),
   ([0xD44201FF], .swait .t 8 .none),
   ([0xD500C1FF], .launch .none 3 .none)]

theorem test_decode_contexts : (words_contexts.all fun q => readsAs q.1 q.2) = true := by decide +kernel

def words_system : List (List Word × Instr) :=
  [([0xE082C0D6], .trap .f 11 (.slot 53 .t)),
   ([0xE14700D6], .brk .t 28 (.slot 53 .t)),
   ([0xE2044108], .csrr .none 17 .done),
   ([0xE384002F], .csrw .f 16 (.slot 11 .p)),
   ([0xE4400103], .nodeid .t (.out 3)),
   ([0xE50081FF], .fcnt .none 2 .none),
   ([0xE68100D6], .eqrd .f 4 (.slot 53 .t)),
   ([0xE7454108], .obsr .t 0 true 5 .done),
   ([0xE800002F], .haltr .none (.slot 11 .p))]

theorem test_decode_system : (words_system.all fun q => readsAs q.1 q.2) = true := by decide +kernel

/-- Words that no instruction has: opcodes that the table leaves reserved, fields that must be zero, reserved targets (R38, R39, R51). -/
def refused (ws : List Word) : Bool :=
  match decode ws with
  | .ok _ => false
  | .error _ => true

theorem test_reserved_refused : ([[0x00000000], [0xFF000000], [0x34000000], [0x70000804], [0x320001FF], [0xE7D00100]] : List (List Word)).all refused
    = true := by decide +kernel

/-! ### Results of the computing instructions -/

/-- A row of results: instruction, data at L, R and T, latency, data of the result. -/
abbrev Row := Instr × Payload × Payload × Payload × Nat × Payload

/-- Every row of a list holds. -/
def allGive (l : List Row) : Bool := l.all fun q => gives q.1 q.2.1 q.2.2.1 q.2.2.2.1 q.2.2.2.2.1 q.2.2.2.2.2

/-- Wraps, signs, halves and doubles of the lane arithmetic (R112, R116 to R118). -/
theorem test_arithmetic : allGive
    [(.add .none .v false a1 .none, lanes [7, 0xFFFFFFFF], lanes [8, 1], 0, 1, lanes [15, 0]),
     (.add .none .h false a1 .none, lanes [0x0001FFFF], lanes [0x00010001], 0, 1, lanes [0x00020000]),
     (.sub .none .s false a1 .none, lanes [3, 9], lanes [5], 0, 1, lanes [0xFFFFFFFE]),
     (.sub .none .d false a1 .none, lanes [0, 1, 7], lanes [1], 0, 1, lanes [0xFFFFFFFF, 0]),
     (.mul .none .d false a1 .none, lanes [3, 1], lanes [5, 1], 0, 3, lanes [15, 8]),
     (.mulh .none .v false a1 .none, lanes [0x80000000, 0xFFFFFFFF], lanes [0x80000000, 1], 0, 3, lanes [0x40000000, 0xFFFFFFFF]),
     (.mulh .none .v true a1 .none, lanes [0x80000000, 0xFFFFFFFF], lanes [2, 1], 0, 3, lanes [1, 0]),
     (.mad .none .h false a1 .none, lanes [300 + 65535 * 65536], lanes [300 + 2 * 65536], lanes [5 + 7 * 65536], 3, lanes [24469 + 5 * 65536]),
     (.div .none .v false a1 .none, lanes [0xFFFFFFF9, 5, 0x80000000], lanes [2, 0, 0xFFFFFFFF], 0, 12,
       lanes ([0xFFFFFFFD, 0xFFFFFFFF, 0x80000000] ++ List.replicate 13 0xFFFFFFFF)),
     (.div .none .d true a1 .none, lanes [0, 1], lanes [2], 0, 20, lanes [0x80000000]),
     (.rem .none .v false a1 .none, lanes [0xFFFFFFF9, 5, 0x80000000], lanes [2, 0, 0xFFFFFFFF], 0, 12, lanes [0xFFFFFFFF, 5, 0])] = true := by
  decide +kernel

/-- Logic and shifts, counts modulo the width (R116). -/
theorem test_logic : allGive
    [(.and_ .none .v false a1 .none, lanes [0xF0F0], lanes [0xFF00], 0, 1, lanes [0xF000]),
     (.or_ .none .v false a1 .none, lanes [0xF0F0], lanes [0xFF00], 0, 1, lanes [0xFFF0]),
     (.xor .none .v false a1 .none, lanes [0xF0F0], lanes [0xFF00], 0, 1, lanes [0x0FF0]),
     (.andn .none .v false a1 .none, lanes [0xF0F0], lanes [0xFF00], 0, 1, lanes [0x00F0]),
     (.shl .none .v false a1 .none, lanes [1, 1], lanes [33, 31], 0, 1, lanes [2, 0x80000000]),
     (.shr .none .v false a1 .none, lanes [0x80000000], lanes [31], 0, 1, lanes [1]),
     (.sra .none .v false a1 .none, lanes [0x80000000], lanes [31], 0, 1, lanes [0xFFFFFFFF]),
     (.rol .none .h false a1 .none, lanes [0x80018001], lanes [0x00010000], 0, 1, lanes [0x00038001])] = true := by decide +kernel

/-- Orders, counts and bit fields (R119, R120). -/
theorem test_bits : allGive
    [(.min .none .v false a1 .none, lanes [0xFFFFFFFF], lanes [1], 0, 1, lanes [0xFFFFFFFF]),
     (.min .none .v true a1 .none, lanes [0xFFFFFFFF], lanes [1], 0, 1, lanes [1]),
     (.max .none .s true a1 .none, lanes [0xFFFFFFFF], lanes [1], 0, 1, lanes [0xFFFFFFFF]),
     (.max .none .s false a1 .none, lanes [0xFFFFFFFF], lanes [1], 0, 1, lanes [1]),
     (.abs .none .v false a1 .none, lanes [0x80000000, 0xFFFFFFFB], 0, 0, 1, lanes [0x80000000, 5]),
     (.neg .none .s false a1 .none, lanes [1], 0, 0, 1, lanes [0xFFFFFFFF]),
     (.clz .none .s false a1 .none, lanes [1], 0, 0, 1, lanes [31]),
     (.clz .none .d false a1 .none, lanes [1], 0, 0, 1, lanes [63]),
     (.popc .none .s false a1 .none, lanes [0xF0F0], 0, 0, 1, lanes [8]),
     (.brev .none .s false a1 .none, lanes [1], 0, 0, 1, lanes [0x80000000]),
     (.bfx .none .s false a1 .none, lanes [0xF80], lanes [0x804], 0, 1, lanes [0xFFFFFFF8]),
     (.bfx .none .s true a1 .none, lanes [0xF80], lanes [0x804], 0, 1, lanes [0xF8]),
     (.bfi .none .s false a1 .none, lanes [0xFFFFFFFF], 0, lanes [0x804], 1, lanes [0xFFFFF00F])] = true := by decide +kernel

/-- SAT clamps and raises ST (R121). -/
theorem test_sat : gives (.sat .none .s false false a1 .none) (lanes [0x7FFFFFFF]) (lanes [1]) 0 1 (lanes [0x7FFFFFFF]) = true ∧
    gives (.sat .none .s true true a1 .none) (lanes [1]) (lanes [2]) 0 1 0 = true ∧
    flagsOf (.sat .none .s true true a1 .none) (small (d (lanes [1])) (d (lanes [2])) nul tru) = 32 := by decide +kernel

/-- A token that is not data, sent by an instruction. -/
def sends (i : Instr) (l r t : Token) (lat : Nat) (v : Token) : Bool := outs i (small l r t tru) == some (some ⟨v, lat⟩, none)

/-- Conditions, selection, nulls and copies (R46, R122 to R125, R127). -/
theorem test_selects :
    sends (.cmp .none .lt a1 .none) (d (lanes [0xFFFFFFFF])) (d (lanes [1])) nul 1 tru = true ∧
    sends (.cmp .none .ltu a1 .none) (d (lanes [0xFFFFFFFF])) (d (lanes [1])) nul 1 fls = true ∧
    sends (.cmpi .none .eq 0x1FF a1) (d (lanes [0xFFFFFFFF])) nul nul 1 tru = true ∧
    sends (.cmpi .none .ltu 0x1FF a1) (d (lanes [510])) nul nul 1 tru = true ∧
    sends (.sel .none a1 .none) (d (same 1)) (d (same 2)) tru 1 (d (same 1)) = true ∧
    sends (.sel .none a1 .none) (d (same 1)) nul fls 1 nul = true ∧
    sends (.mov .none .d false a1 .none) (d (lanes [1, 2, 3])) nul nul 1 (d (lanes [1, 2])) = true ∧
    sends (.mov .none .v false a1 .none) row nul nul 1 row = true ∧
    sends (.nul .none a1 .none) nul nul nul 1 nul = true := by decide +kernel

/-- Address tokens (R126) and immediates (R127, R128). -/
theorem test_addresses : allGive
    [(.addr .none false a1 .none, lanes [30], lanes [0x100], 0, 1, lanes [0x100, 30 * 65536]),
     (.aoff .none false a1 .none, lanes [0, 30 * 65536], lanes [0xFFFFFFFC, 0xFFFFFFFF], 0, 1, lanes [0xFFFFFFFC, 30 * 65536 + 0xFFFF]),
     (.aidx .none false a1 .none, lanes [8, 30 * 65536], lanes [3], lanes [4], 1, lanes [20, 30 * 65536]),
     (.addi .none 0x1FFF a1, same 7, 0, 0, 1, same 6),
     (.andi .none 0x1FFF a1, same 0xFFFFFFFF, 0, 0, 1, same 0x1FFF),
     (.ori .none 0x1FFF a1, same 0x10000, 0, 0, 1, same 0x11FFF),
     (.xori .none 0x1FFF a1, same 0xFFFFFFFF, 0, 0, 1, same 0xFFFFE000),
     (.shli .none 31 a1, same 3, 0, 0, 1, same 0x80000000),
     (.shri .none 31 a1, same 0x80000000, 0, 0, 1, same 1),
     (.srai .none 31 a1, same 0x80000000, 0, 0, 1, same 0xFFFFFFFF),
     (.movi .none 0x1FFF a1, 0, 0, 0, 1, same 0xFFFFFFFF),
     (.movhi .none 1 a1, same 0xFFFFFFFF, 0, 0, 1, same 0xFFFFF),
     (.muli .none 0x1FFF a1, same 7, 0, 0, 3, same 0xFFFFFFF9),
     (.litw .none a1 0x3F800000, 0, 0, 0, 1, same 0x3F800000)] = true := by decide +kernel

/-- Floating point: exact sums, zeros of both signs, NaN, infinities, roots (R133 to R140). -/
theorem test_floats : allGive
    [(.fadd .none .s .f32 a1 .none, lanes [0x3F800000], lanes [0x3F800000], 0, 4, lanes [0x40000000]),
     (.fadd .none .h .bf16 a1 .none, lanes [0x3F80], lanes [0x3F80], 0, 4, lanes [0x4000]),
     (.fsub .none .s .f32 a1 .none, lanes [0x3F800000], lanes [0x3F800000], 0, 4, 0),
     (.fmul .none .s .f16 a1 .none, lanes [0x4000], lanes [0xC200], 0, 4, lanes [0xC600]),
     (.fma .none .s .f32 a1 .none, lanes [0x40000000], lanes [0x40400000], lanes [0x3F800000], 4, lanes [0x40E00000]),
     (.fmin .none .s .f32 a1 .none, 0, lanes [0x80000000], 0, 1, lanes [0x80000000]),
     (.fmax .none .s .f32 a1 .none, lanes [0x7FC00000], lanes [0xC0000000], 0, 1, lanes [0xC0000000]),
     (.fabs .none .s .f32 a1 .none, lanes [0xC0000000], 0, 0, 1, lanes [0x40000000]),
     (.fneg .none .s .f32 a1 .none, lanes [0x3F800000], 0, 0, 1, lanes [0xBF800000]),
     (.fcmp .none .s .f32 a1 .none, lanes [0x3F800000], lanes [0x40000000], 0, 1, lanes [1]),
     (.fclass .none .s .f32 a1 .none, lanes [0x80000000], 0, 0, 1, lanes [8]),
     (.frcp .none .s .f32 a1 .none, lanes [0x40000000], 0, 0, 8, lanes [0x3F000000]),
     (.frsq .none .s .f32 a1 .none, lanes [0x40800000], 0, 0, 8, lanes [0x3F000000]),
     (.fexp2 .none .s .f32 a1 .none, lanes [0x40400000], 0, 0, 8, lanes [0x41000000]),
     (.flog2 .none .s .f32 a1 .none, lanes [0x41000000], 0, 0, 8, lanes [0x40400000]),
     (.fsqrt .none .s .f32 a1 .none, lanes [0x40800000], 0, 0, 12, lanes [0x40000000]),
     (.fdiv .none .s .f32 a1 .none, lanes [0x3F800000], 0, 0, 12, lanes [0x7F800000])] = true ∧
    flagsOf (.fdiv .none .s .f32 a1 .none) (small (d (lanes [0x3F800000])) (d 0) nul tru) = 2 ∧
    flagsOf (.fcmp .none .s .f32 a1 .none) (small (d (lanes [0x7FC00000])) (d 0) nul tru) = 1 := by decide +kernel

/-- Conversions: R87's saturation, ties to even, scales (R141 to R144). -/
theorem test_conversions : allGive
    [(.cvt .none .fp32 .e4m3 0 true .rne a1, lanes [0x43F00000, 0x43E00000], 0, 0, 3, lanes [0x7E7E]),
     (.cvti .none .fp32 0 0 false .rne a1, lanes [0x40200000, 0x40600000], 0, 0, 3, lanes [2, 4]),
     (.cvtf .none .fp32 1 false false .rne a1, lanes [3], 0, 0, 3, lanes [0x3FC00000]),
     (.scale .none .fp32 a1, lanes [0x3F800000], lanes [3], 0, 3, lanes [0x41000000])] = true ∧
    flagsOf (.cvt .none .fp32 .e4m3 0 true .rne a1) (small (d (lanes [0x43F00000])) nul nul tru) = 52 := by decide +kernel

/-- Lanes packed, moved and combined (R145 to R155). -/
theorem test_lanes : allGive
    [(.pack .none 1 true false a1 .none, lanes [0x0080FF7F], lanes [0x00010002], 0, 1,
       lanes ([0x7F80] ++ List.replicate 7 0 ++ [0x0102])),
     (.unpack .none 1 false a1 .none, lanes [0x807F], 0, 0, 1, lanes [0xFF80007F]),
     (.bcast .none 0 1 a1, lanes [5, 6], 0, 0, 1, same 6),
     (.shuf .none false a1 .none, lanes [10, 11, 12], lanes ([2, 0x80000000, 1] ++ List.replicate 13 0x80000000), 0, 1, lanes [12, 0, 11]),
     (.rot .none false false 1 a1, lanes ([1, 2] ++ List.replicate 13 0 ++ [9]), 0, 0, 1, lanes [9, 1, 2]),
     (.rot .none true true 1 a1, lanes ([1, 2] ++ List.replicate 13 0 ++ [9]), 0, 0, 1, lanes ([2] ++ List.replicate 13 0 ++ [9])),
     (.red .none .add 0 a1, same 2, 0, 0, 6, same 32),
     (.red .none .max 2 a1, lanes [1, 2, 3, 4, 5], 0, 0, 6, lanes [4, 4, 4, 4, 5, 5, 5, 5]),
     (.scan .none .add false a1, same 1, 0, 0, 6, lanes ((List.range 16).map (· + 1))),
     (.scan .none .add true a1, same 1, 0, 0, 6, lanes (List.range 16)),
     (.topk .none .int32 1 true a1, lanes [1, 0xFFFFFFF6, 3], 0, 0, 6, lanes ([1, 2] ++ List.replicate 14 0xFFFFFFFF)),
     (.lmask .none 0 a1, lanes [0, 7, 0, 1], 0, 0, 1, lanes [10]),
     (.lmask .none 3 a1, lanes [33], 0, 0, 1, lanes [1]),
     (.compact .none false a1 .none, lanes [4, 5, 6, 7], lanes [10], 0, 2, lanes [5, 7]),
     (.expand .none false a1 .none, lanes [5, 7], lanes [10], 0, 2, lanes [0, 5, 0, 7]),
     (.dot .none .v .f32 a1 .none, lanes [0x3F800000, 0x40000000], lanes [0x40400000, 0x40800000], lanes [0x3F800000], 8, lanes [0x41400000])]
    = true := by decide +kernel

/-! ### Hypotheses of the statements are met: encoding, steps, computing instructions -/

/-- A plain small state, and the same with other tokens. -/
def s0 : State := small (d 0) (d 0) (d 0) tru

/-- Every instruction of a list passes its gate at a state. -/
def allGo (s : State) (l : List Instr) : Bool := l.all fun i => goes s i fun _ _ => true

theorem meets_decode_of_encode : (encode (.add .t .v false a1 .done) != [] && (Instr.add .t .v false a1 .done).wellFormed) = true := by decide +kernel

theorem meets_encode_of_decode : decode [0x012009FF, 5] = .ok (.add .none .v false (.slot 1 .l) .none, [5]) := by decide +kernel

/-- A placed program of two slots, whose first slot is fetched. -/
def twoWords : List Word := [0x1D42105D, 0x1D0003FF]
def sPlaced : State := State.reset.place twoWords

theorem meets_step_issue : sPlaced.agenda = .issue ⟨0, 0, false, 0⟩ :: [] ∧ Fetches sPlaced ⟨0, 0, false, 0⟩ (.nul .t .done (.slot 23 .r)) :=
  ⟨by decide +kernel, placedElem ⟨0, 0, 1⟩ twoWords, ⟨0, false, List.replicate 2 fedSlot, List.replicate 8 [dataTok 0 none], [], []⟩, blockOf twoWords,
    fedSlot, by decide +kernel, by decide +kernel, by decide +kernel, by decide +kernel, by decide +kernel, by decide +kernel, by decide +kernel,
    by decide +kernel, by decide +kernel, [0x1D0003FF], by decide +kernel⟩

/-- A step runs the placed instruction: its slot has issued, and a null has gone to its target's place (R125). -/
theorem test_step : (match step sPlaced with
    | .next t => (t.elem? 0).map fun x => x.firings.map fun f => f.slots.map (·.issued)
    | _ => none) = some [[true, false]] := by decide +kernel

theorem meets_step_event : (let s : State := { State.reset with agenda := [.event .powerOn] }
    s.agenda = .event .powerOn :: [] ∧ s.mgmt.power = true ∧ encode .powerOn = []) := by decide +kernel

theorem meets_goes_on : State.reset.agenda = [] ∧ State.reset.mgmt.power = true ∧ (after .powerLoss State.reset).mgmt.power = false ∧
    (after .powerLoss State.reset).agenda = [] := by decide +kernel

theorem meets_integer_lanes : ([Shape.s, .d, .v, .h].all fun sh => allGo s0 ((integerTable .none sh true a1 a2).map (·.1))) = true := by
  decide +kernel

theorem meets_integer_elements :
    ([Shape.s, .d, .v, .h].all fun sh => allGo s0 ((bitTable .none sh false a1 a2).map (·.1) ++ [.bfx .none sh true a1 a2, .bfi .none sh true a1 a2,
      .sat .none sh true false a1 a2])) = true ∧
    ([Instr.div .none .v false a1 a2, .rem .none .v false a1 a2].all fun i =>
      goes s0 i (fun x _ => decide (x.divFree ≤ x.icyc))) = true ∧
    (((s0.modElem 0 fun x => { x with divFree := 1 }).elem? 0).map fun x => decide (x.icyc < x.divFree)) = some true := by decide +kernel

theorem meets_comparisons : allGo s0 [.cmp .none .leu a1 a2, .cmpi .t .gtu 0x1FF a1, .sel .none a1 a2, .mov .none .d false a1 a2, .nul .none a1 a2] = true := by
  decide +kernel

theorem meets_addresses : allGo s0 ((addressTable .none true a1 a2).map (·.1) ++ (immediateTable .none 5 3 7 a1).map (·.1)) = true := by decide +kernel

/-- A register of element 0 in a state. -/
def withReg (s : State) (k : Nat) (st : RegSt) (v : Payload) : State := s.modElem 0 fun x => x.setReg k ⟨st, v⟩

theorem meets_register_reads : ([RegSt.full, .pending, .empty].all fun st => [true, false].all fun src =>
    goes (withReg s0 255 st 9) (.get .none 255 src a1) (fun x _ => decide (255 < x.regs) && (x.regAt 255).st == st) &&
    goes (withReg (small (d (lanes [3])) nul nul tru) 255 st 9) (.getx .none 252 src a1) (fun x r =>
      decide (252 + (el 32 r.l.data 0).toNat < x.regs) && (x.regAt (252 + (el 32 r.l.data 0).toNat)).st == st)) = true := by decide +kernel

theorem meets_register_writes :
    (goes (withReg s0 255 .full 9) (.put .none 255 a1) (fun x _ => decide (255 < x.regs) && (x.regAt 255).st != .pending) &&
     goes s0 (.putx .none 255 a1) (fun x r => decide (255 + (el 32 r.l.data 0).toNat < x.regs)) &&
     goes (withReg s0 255 .pending 9) (.putx .none 255 a1) (fun x _ => (x.regAt 255).st == .pending) &&
     goes s0 (.rempty .none 0 a1) (fun x _ => decide (0 < x.regs) && (x.regAt 0).st != .pending) &&
     goes s0 (.rfull .none 0 a1) (fun x _ => decide (0 < x.regs)) &&
     [Instr.getx .none 255 true a1, .putx .none 255 a1].all fun i => goes (small (d (lanes [1])) (d 0) nul tru) i
       fun x r => decide (x.regs ≤ 255 + (el 32 r.l.data 0).toNat)) = true := by decide +kernel

/-- Registers: a read of what is there, of what is not, a write, an index beyond the grant (R105, R129). -/
theorem test_registers :
    outs (.get .none 3 false a1) (withReg s0 3 .full 9) = some (some ⟨d 9, 1⟩, none) ∧
    trapOf (.get .none 3 false a1) s0 = some (3, 0, 3, 0) ∧
    trapOf (.getx .none 255 false a1) (small (d (lanes [1])) (d 0) nul tru) = some (6, 0, 256, 0) ∧
    (((after (.put .none 3 a1) (small (d 7) nul nul tru)).elem? 0).map fun x => x.regAt 3) = some ⟨.full, 7⟩ ∧
    (((after (.putx .none 3 a1) (small (d (lanes [1])) (d 8) nul tru)).elem? 0).map fun x => x.regAt 4) = some ⟨.full, 8⟩ ∧
    outs (.rempty .none 3 a1) (withReg s0 3 .full 9) = some (some ⟨tru, 1⟩, none) ∧
    outs (.rfull .none 3 a1) s0 = some (some ⟨fls, 1⟩, none) := by decide +kernel

theorem meets_float_elements : ([(Shape.v, FFmt.f32), (.s, .bf16), (.h, .f16)].all fun q =>
    allGo s0 ((orderTable .none q.1 q.2 a1 a2).map (·.1) ++ (arithTable .none q.1 q.2 a1 a2).map (·.1))) = true := by decide +kernel

/-- Codes of FP32: 1, −1, +0, −0, infinities, a NaN. -/
def codes : List Nat := [0x3F800000, 0xBF800000, 0, 0x80000000, 0x7F800000, 0xFF800000, 0x7FC00000]

theorem meets_float_special :
    ((List.range (specialTable .f32 0 0 0).length).all fun k => codes.any fun x => codes.any fun y => codes.any fun z =>
      (((specialTable .f32 x y z).map (·.1)).getD k false)) = true ∧
    ((List.range (functionTable .f32 0).length).all fun k => codes.any fun x => (((functionTable .f32 x).map (·.1)).getD k false)) = true ∧
    (codes.all fun x => decide (x < 2 ^ floatWidth .f32)) = true := by decide +kernel

/-- The values of 1, −1 and +0. -/
theorem rat_one : rat .f32 0x3F800000 = 1 := by
  norm_num [rat, negative, expField, fracField, bias, fracBits, expBits, floatWidth, Nat.testBit, Nat.shiftRight_eq_div_pow]

theorem rat_minus_one : rat .f32 0xBF800000 = -1 := by
  norm_num [rat, negative, expField, fracField, bias, fracBits, expBits, floatWidth, Nat.testBit, Nat.shiftRight_eq_div_pow]

theorem rat_zero : rat .f32 0 = 0 := by
  norm_num [rat, negative, expField, fracField, bias, fracBits, expBits, floatWidth]

theorem meets_float_nearest :
    (∀ x ∈ [0x3F800000, 0xBF800000, 0], x < 2 ^ floatWidth .f32 ∧ finite .f32 x = true) ∧
    rat .f32 0x3F800000 + rat .f32 0x3F800000 ≠ 0 ∧ rat .f32 0x3F800000 - rat .f32 0xBF800000 ≠ 0 ∧ rat .f32 0x3F800000 * rat .f32 0x3F800000 ≠ 0 ∧
    rat .f32 0x3F800000 * rat .f32 0x3F800000 + rat .f32 0x3F800000 ≠ 0 ∧ magnitude .f32 0x3F800000 ≠ 0 ∧
    rat .f32 0x3F800000 + rat .f32 0xBF800000 = 0 ∧ rat .f32 0x3F800000 - rat .f32 0x3F800000 = 0 ∧ rat .f32 0 * rat .f32 0x3F800000 = 0 ∧
    rat .f32 0x3F800000 * rat .f32 0xBF800000 + rat .f32 0x3F800000 = 0 ∧ (rat .f32 0 = 0 ∧ rat .f32 0x3F800000 ≠ 0) ∧ 0 < rat .f32 0x3F800000 := by
  refine ⟨by decide, ?_⟩
  rw [rat_one, rat_minus_one, rat_zero]
  refine ⟨by norm_num, by norm_num, by norm_num, by norm_num, by decide, by norm_num, by norm_num, by norm_num, by norm_num, by norm_num, by norm_num⟩

/-- The values of 3, 8, 1/2, and the real root of 2, which is that of no code. -/
theorem rat_three : rat .f32 0x40400000 = 3 := by
  norm_num [rat, negative, expField, fracField, bias, fracBits, expBits, floatWidth, Nat.testBit, Nat.shiftRight_eq_div_pow]

theorem rat_eight : rat .f32 0x41000000 = 8 := by
  norm_num [rat, negative, expField, fracField, bias, fracBits, expBits, floatWidth, Nat.testBit, Nat.shiftRight_eq_div_pow]

theorem rat_half : rat .f32 0x3F000000 = 1 / 2 := by
  norm_num [rat, negative, expField, fracField, bias, fracBits, expBits, floatWidth, Nat.testBit, Nat.shiftRight_eq_div_pow]

theorem no_code_of_root (c : Nat) : (rat .f32 c : ℝ) ≠ (2 : ℝ) ^ (rat .f32 0x3F000000 : ℝ) := by
  rw [rat_half]
  intro h
  have h2 : ((1 / 2 : ℚ) : ℝ) = 1 / 2 := by norm_num
  rw [h2, ← Real.sqrt_eq_rpow] at h
  exact irrational_sqrt_two ⟨_, h⟩

theorem three_no_power (k : Int) : rat .f32 0x40400000 ≠ (2 : ℚ) ^ k := by
  rw [rat_three]
  intro h
  rcases le_or_gt k 1 with hk | hk
  · have := zpow_le_zpow_right₀ (by norm_num : (1 : ℚ) ≤ 2) hk
    rw [← h] at this
    norm_num at this
  · have := zpow_le_zpow_right₀ (by norm_num : (1 : ℚ) ≤ 2) (show (2 : Int) ≤ k by omega)
    rw [← h] at this
    norm_num at this

theorem meets_function_values :
    ([0x40400000, 0x41000000, 0x3F000000].all fun x => decide (x < 2 ^ floatWidth .f32) && finite .f32 x && magnitude .f32 x != 0) = true ∧
    rat .f32 0x40400000 = (3 : Int) ∧ rat .f32 0x41000000 = (2 : ℚ) ^ (3 : Int) ∧ (negative .f32 0x40400000 = false ∧ ∀ k : Int, rat .f32 0x40400000 ≠ (2 : ℚ) ^ k) ∧
    (∀ c, (rat .f32 c : ℝ) ≠ (2 : ℝ) ^ (rat .f32 0x3F000000 : ℝ)) ∧
    fexp2E (fun _ => true) (FFmt.fmt .f32) 0x3F000000 = fexp2E (fun _ => false) (FFmt.fmt .f32) 0x3F000000 ∧
    flog2E (fun _ => true) (FFmt.fmt .f32) 0x40400000 = flog2E (fun _ => false) (FFmt.fmt .f32) 0x40400000 := by
  refine ⟨by decide +kernel, by rw [rat_three]; norm_num, by rw [rat_eight]; norm_num, ⟨by decide +kernel, three_no_power⟩, no_code_of_root,
    by decide +kernel, by decide +kernel⟩

theorem meets_conversions : ([(Instr.cvt .none .fp32 .e4m3 3 true .rne a1), .cvt .none .e4m3 .fp32 3 false .rtz a1, .cvti .none .bf16 15 1 true .rne a1,
    .cvtf .none .ps8 15 true true .rne a1, .scale .none .fp16 a1].all fun i => i.wellFormed && goes s0 i fun _ _ => true) = true := by decide +kernel

theorem meets_conversion_values :
    ((decVal .fp32 0x3F800000 matches .fin false _ _) && decVal .fp16 0x7E00 == .nan && decVal .bf16 0xFF80 == .inf true && finiteIn .e4m3 0x7E &&
      infIn .e5m2 0x7C && !finiteIn .fp16 0x7E00 && !infIn .fp16 0x7E00) = true ∧
    |ratOf false 1 1| ≤ 2 ∧ 2 < ratOf false 3 0 ∧ ratOf true 3 0 < -2 ∧ (480 : ℚ) ≤ |ratOf false 480 0| ∧ (65536 : ℚ) ≤ |ratOf true 65536 0| ∧
    (1 : Nat) ≠ 0 ∧ (1 : BitVec 32) ≠ 0 ∧ ((0x3F800000 : Nat) < 2 ^ floatWidth .f32 ∧ finite .f32 0x3F800000 = true ∧ magnitude .f32 0x3F800000 ≠ 0) := by
  refine ⟨by decide +kernel, ?_, ?_, ?_, ?_, ?_, by decide, by decide, by decide⟩ <;> norm_num [ratOf]

theorem meets_lanes_moved : allGo s0 [.pack .none 2 true false a1 a2, .unpack .none 1 true a1 a2, .bcast .none 1 31 a1, .shuf .none true a1 a2,
    .rot .none true true 15 a1, .lmask .none 0 a1, .lmask .none 1 a1, .lmask .none 2 a1, .lmask .none 3 a1, .compact .none true a1 a2,
    .expand .none false a1 a2] = true ∧ (Instr.bcast .none 1 31 a1).wellFormed = true := by decide +kernel

theorem meets_reductions : allGo s0 [.red .none .fadd 3 a1, .scan .none .xor true a1, .topk .none .int32 15 true a1, .topk .none .fp32 0 false a1,
    .dot .none .v .f32 a1 a2, .dot .none .h .bf16 a1 a2, .dot .none .h .f16 a1 a2] = true ∧
    (goes (small (d (lanes [0x3F800000])) (d (lanes [0x3F800000])) (d (lanes [0x3F800000])) tru) (.dot .none .v .f32 a1 a2) fun _ r =>
      ((List.range 16).all fun j => finite .f32 (el 32 r.l.data j).toNat && finite .f32 (el 32 r.r.data j).toNat) &&
      finite .f32 (el 32 r.t.data 0).toNat) = true ∧
    (goes (small (d (lanes [0x7F800000])) (d 0) (d 0) tru) (.dot .none .v .f32 a1 a2) fun _ r =>
      isInf .f32 (el 32 r.l.data 0).toNat && magnitude .f32 (el 32 r.r.data 0).toNat == 0) = true := by decide +kernel

/-! ### Streams, memory and slots -/

/-- The launch and the region of the small states. -/
def L0 : LaunchRef := ⟨0, 0, 1⟩
def R0 : RegionRef := ⟨L0, 0⟩

/-- The small state with its region changed. -/
def withRegion (s : State) (f : Region → Region) : State := s.modRegion R0 f

theorem meets_stream_tokens :
    (goes s0 (.in_ .none 7 a1) (fun x _ => (assignedTok x s0.cur 7).isSome) && goes s0 (.drop .none 0 a1) (fun x _ => (assignedTok x s0.cur 0).isSome) &&
     allGo s0 [.eos .none 3 a1, .emit .none 1 a1, .emit .none 2 a1, .gate .none true a1] &&
     ([0, 1, 65535, 65536].all fun v => goes (small (d (lanes [v])) nul nul tru) (.bound .none 0 a1) fun _ r => (el 32 r.l.data 0).toNat == v) &&
     goes s0 (.mark .none a1) (fun x _ => ((s0.region? x.rref).map (·.save)) == some 0) &&
     goes (withRegion s0 fun g => { g with save := 4096 }) (.mark .none a1) (fun _ _ => true) &&
     goes (withRegion s0 fun g => { g with save := 4096, ins := [{ mark := true }] }) (.mark .none a1) (fun _ _ => true)) = true := by decide +kernel

/-- IN takes the assigned token, EMIT and BOUND make markers and bounds, GATE passes on one truth value, MARK asks once (R164 to R172). -/
theorem test_stream_tokens :
    sends (.in_ .none 0 a1) nul nul nul 1 (d 0) = true ∧
    sends (.drop .none 0 a1) nul nul nul 1 nul = true ∧
    sends (.eos .none 1 a1) row nul nul 1 tru = true ∧ sends (.eos .none 2 a1) row nul nul 1 fls = true ∧
    sends (.emit .none 1 a1) (d 5) nul nul 1 ⟨.row, 5, none⟩ = true ∧
    sends (.bound .none 2 a1) (d (lanes [65535])) nul nul 1 ⟨.bound, lanes [65535, 2], none⟩ = true ∧
    trapOf (.bound .none 2 a1) (small (d (lanes [65536])) nul nul tru) = some (6, 0, 0, 0) ∧
    sends (.gate .none false a1) (d 5) nul tru 1 (d 5) = true ∧ sends (.gate .none true a1) (d 5) nul tru 1 nul = true ∧
    outs (.mark .none a1) (withRegion s0 fun g => { g with save := 4096 }) = some (some ⟨d 1, 1⟩, none) ∧
    outs (.mark .none a1) (withRegion s0 fun g => { g with save := 4096, ins := [{ mark := true }] }) = some (some ⟨d 0, 1⟩, none) := by decide +kernel

/-- Tokens at an input port of element 0. -/
def withIn (s : State) (p : Nat) (l : List Token) : State := s.modElem 0 fun x => { x with cur := { x.cur with inBuf := setAt x.cur.inBuf p l } }

/-- A record with a tag, and tokens at the ports of the two arms of a MERGE. -/
def tagged (n : Nat) : Token := ⟨.data, 7, some (BitVec.ofNat 16 n)⟩
def withArms (s : State) (f t : List Token) : State := withIn (withIn s 1 f) 2 t

/-- A state whose FILT would write its condition to a stream of depth 4. -/
def sFilt (w : Nat) : State :=
  (withRegion (small (d 5) nul tru tru) fun g => { g with streams := [⟨.elem 0 3, .regOut 0, 4, 0, false, false, none, 1, [], [], none, [], [], [], none, [], none, none⟩] }).modElem 0
    fun x => x.setFilt 0 2 w

theorem meets_records_routed :
    (goes (sFilt 4) (.filt .none true true 3 2 a1) (fun x _ => decide ((sFilt 4).condWindow x 0 3 ≤ (x.filt 0).2)) &&
     goes (sFilt 3) (.filt .none true true 3 2 a1) (fun x _ => decide ((x.filt 0).2 < (sFilt 3).condWindow x 0 3)) &&
     goes (sFilt 4) (.filt .none false false 3 2 a1) (fun _ _ => true) &&
     goes (withIn (small nul nul tru tru) 2 [d 9]) (.merge .none 1 2 false a1) (fun x _ => x.head? 2 == some (d 9)) &&
     goes (small nul nul tru tru) (.merge .none 1 2 false a1) (fun x _ => x.head? 2 == none && x.head? 1 == none) &&
     goes (small nul nul nul tru) (.merge .none 1 2 false a1) (fun x r => r.t.kind == .null && x.head? 2 == none) &&
     goes (withArms (small nul nul nul tru) [d 7] [d 9]) (.merge .none 1 2 false a1) (fun x r => r.t.kind == .null && x.head? 1 == some (d 7) &&
       x.head? 2 == some (d 9)) &&
     ([([tagged 0], []), ([], [tagged 0]), ([tagged 0], [tagged 1]), ([tagged 1], [tagged 0]), ([tagged 0], [tagged 0]), ([tagged 1], [tagged 2]),
       ([d 7], [tagged 0])] : List (List Token × List Token)).all fun q => goes (withArms s0 q.1 q.2) (.merge .none 1 2 true a1)
       (fun x _ => x.head? 1 == q.1.head? && x.head? 2 == q.2.head? && x.expect 0 == 0)) = true := by decide +kernel

/-- FILT tags its record and counts; MERGE takes the arm that its condition names (R169, R170). -/
theorem test_records :
    outs (.filt .none true true 3 2 a1) (sFilt 3) = some (some ⟨⟨.data, 5, some 2⟩, 1⟩, none) ∧
    (((after (.filt .none true true 3 2 a1) (sFilt 3)).elem? 0).map fun x => x.filt 0) = some (3, 4) ∧
    outs (.merge .none 1 2 false a1) (withIn (small nul nul tru tru) 2 [d 9]) = some (some ⟨d 9, 1⟩, none) ∧
    outs (.merge .none 1 2 false a1) (withArms (small nul nul nul tru) [d 7] [d 9]) = some (some ⟨nul, 1⟩, none) ∧
    outs (.merge .none 1 2 true a1) (withArms s0 [tagged 1] [tagged 0]) = some (some ⟨d 7, 1⟩, none) ∧
    trapOf (.merge .none 1 2 true a1) (withArms s0 [d 7] [tagged 0]) = some (1, 0, 0, 0) := by decide +kernel

/-- Caches of a requester that translate the first page of its IOVAs to 0x10000. -/
def known : ReqCache := { tlb := [⟨0, 0x10000, 4096, true, true⟩] }

/-- A state whose element has them on every memory port, and its page for its gathers and its tile fetches; memory holds some bytes there. -/
def mapAll (s : State) : State :=
  (s.modElem 0 fun x => { x with ports := List.replicate 4 known }).modPage 0 fun g => { g with gs := known, tf := known }
def sMem (l r t : Payload) : State := { mapAll (small (d l) (d r) (d t) tru) with mem := [(0x10010, 0x80), (0x10011, 0xFF), (0x10013, 1)] }

/-- The state after the access of slot 0 has issued, and after it has been performed. -/
def issued (i : Instr) (s : State) : State := after i s
def performed (i : Instr) (s : State) : State := after (.accessPerformed 0 0) (issued i s)

/-- What slot 1 holds at L. -/
def held (s : State) : Option Token := (s.elem? 0).bind fun x => x.firings.head?.bind fun f => f.slots[1]?.bind fun sl => sl.l.map (·.tok)

/-- The oldest access of element 0. -/
def firstAcc (s : State) : Option Access := (s.elem? 0).bind fun x => x.acc.head?

/-- An outcome with a value. -/
def okB {α : Type} : XRes α → Bool
  | .ok _ _ => true
  | _ => false

def waitB {α : Type} : XRes α → Bool
  | .wait _ _ => true
  | _ => false

def stopB {α : Type} : XRes α → Bool
  | .stop _ _ => true
  | _ => false

/-- Loads extend, stores write, atomics give the old value (R274, R275, R280). -/
theorem test_memory :
    held (performed (.ld .none .b4 .elem .rlx false false 0 (.tgt a1)) (sMem (lanes [0x10]) 0 0)) = some (d (lanes [0x0100FF80])) ∧
    held (performed (.ld .none .b1 .elem .rlx true false 0 (.tgt a1)) (sMem (lanes [0x10]) 0 0)) = some (d (lanes [0xFFFFFF80])) ∧
    ((performed (.st .none .b2 .sys .rlx false 0 a1) (sMem (lanes [0x12]) (lanes [0xABCD]) 0)).mem.get 0x10012,
      (performed (.st .none .b2 .sys .rlx false 0 a1) (sMem (lanes [0x12]) (lanes [0xABCD]) 0)).mem.get 0x10013) = (0xCD, 0xAB) ∧
    held (performed (.aadd .none .b4 .sys .rlx 0 a1) (sMem (lanes [0x10]) (lanes [1]) 0)) = some (d (lanes [0x0100FF80])) ∧
    (performed (.aadd .none .b4 .sys .rlx 0 a1) (sMem (lanes [0x10]) (lanes [1]) 0)).mem.get 0x10010 = 0x81 ∧
    (performed (.amax .none .b4 .sys .rlx false 0 a1) (sMem (lanes [0x10]) (lanes [0xFFFFFFFF]) 0)).mem.get 0x10012 = 0xFF ∧
    (performed (.acas .none .b4 .sys .rlx 0 a1) (sMem (lanes [0x10]) (lanes [5]) (lanes [0x0100FF80]))).mem.get 0x10010 = 5 ∧
    (performed (.axch .none .b4 .sys .rlx 0 a1) (sMem (lanes [0x10]) (lanes [5]) 0)).mem.get 0x10010 = 5 ∧
    trapOf (.ld .none .b4 .elem .rlx false false 0 (.tgt a1)) (sMem (lanes [0x11]) 0 0) = some (6, 7, BitVec.ofNat 64 0x11, 0) ∧
    trapOf (.ldv .none .b4 .elem .rlx false false 0 a1) (sMem (lanes [0x10]) 0 0) = some (6, 9, BitVec.ofNat 64 0x10, 0) := by decide +kernel

/-- The lanes of a gather and of a scatter (R283). -/
theorem test_gather :
    held (performed (.gath .none .b1 .elem .rlx false 0 (.tgt a1)) (sMem 0 (lanes (0x10 :: 0x13 :: List.replicate 14 0x11)) 0)) =
      some (d (lanes (0x80 :: 1 :: List.replicate 14 0xFF))) ∧
    (performed (.scat .none .b1 .sys .rlx 0 a1) (sMem 0 (lanes ((List.range 16).map (· + 0x20))) (same 7))).mem.get 0x1002F = 7 := by decide +kernel

/-- A register form marks its register pending and fills it later (R105, R271). -/
theorem test_register_form :
    (let i : Instr := .ld .none .b4 .elem .rlx false false 0 (.reg 7)
     let s := sMem (lanes [0x10]) 0 0
     ((((issued i s).elem? 0).map fun x => (x.regAt 7).st), (((after (.fillArrival 0 7) (performed i s)).elem? 0).map fun x => x.regAt 7))) =
      (some RegSt.pending, some (⟨.full, lanes [0x0100FF80]⟩ : Reg)) := by decide +kernel

theorem meets_memory_issues :
    (allGo (sMem (lanes [0x10]) (lanes [0]) 0) ((memoryTable s0 ⟨d 0, d 0, d 0⟩ .none .b4 .elem .rlx false false 3 a1 (.reg 255) .ep .ce).map (·.1))) = true ∧
    (match firstAcc (issued (.ld .none .b4 .elem .rlx false false 0 (.tgt a1)) (sMem (lanes [0x10]) 0 0)) with
      | none => false
      | some a => [0, 1].all fun k =>
        match (sMem 0 0 0).object 0 (a.req 0) (tokTid a.tok) with
        | .ok o t => okB (t.checked 0 (a.req 0) o (tokOff a.tok + k) 4 false) && decide ((tokOff a.tok + k) % 4 = k) && o.ver == false
        | _ => false) = true := by decide +kernel

/-- The access at the head of element 0's list, tried. -/
def tried (s : State) (f : Elem → Access → Bool) : Bool :=
  match s.elem? 0 with
  | some x => match x.acc.find? (fun b => b.id == 0) with
    | some a => f x a
    | none => false
  | none => false

theorem meets_accesses_performed :
    (let i : Instr := .ld .none .b4 .elem .rlx false false 0 (.tgt a1)
     let s := issued i (sMem (lanes [0x10]) 0 0)
     let w := s.modElem 0 fun y => { y with acc := y.acc.map fun a => { a with wait := .pri 0 } }
     let z := s.modElem 0 fun y => { y with acc := y.acc.map fun a => { a with tok := 1 } }
     tried s (fun x a => s.accTurn 0 x a && okB (accDo a 0 0 s)) &&
     tried (s.modElem 0 fun y => { y with ports := [] }) (fun x a => s.accTurn 0 x a && waitB (accDo a 0 0 (s.modElem 0 fun y => { y with ports := [] }))) &&
     tried (s.modElem 0 fun y => { y with acc := y.acc.map fun a => { a with tok := 0xFFFF000000000000 } })
       (fun x a => s.accTurn 0 x a && stopB (accDo a 0 0 s)) &&
     tried w (fun x a => !w.accTurn 0 x a) && tried z (fun _ _ => true) &&
     (((performed (.ld .none .b4 .elem .rlx false false 0 (.reg 7)) (sMem (lanes [0x10]) 0 0)).elem? 0).map fun x => (x.fills.find? fun b => b.v == 7).isSome)
       == some true) = true := by decide +kernel

theorem meets_loads_stores_atomics :
    (let s := issued (.ld .none .b4 .elem .rlx false false 0 (.tgt a1)) (sMem (lanes [0x10]) (lanes [1]) 0)
     tried s (fun _ a =>
       (match planRead false 0 (a.req 0) a s with
         | .ok p t => okB ((t.accAcquire 0 a).readPieces 0 0 p.obj p.pas)
         | _ => false) &&
       (match planWrite false 0 (a.req 0) a s with
         | .ok p t => okB ((t.accRelease 0 0 a).writePieces 0 0 p.obj p.pas ((List.range 4).map fun j => el 8 a.r j) (Scope.wide a.scope)) &&
           okB (((t.accRelease 0 0 a).accAcquire 0 a).atomicAt 0 0 (t.atomicPage 0 0 p.pa (Scope.wide a.scope)) p.pa 4 p.obj (Scope.wide a.scope) fun v =>
             (atomNew .add a.sx 32 v 1 0).1)
         | _ => false))) = true := by decide +kernel

theorem meets_scratchpad : ([(0xBFFF, 4), (0xC000, 4), (0xBFFC, 4)].all fun q =>
    [Instr.spld .none .b4 .elem .rlx false a1, .spst .none .b4 .elem .rlx false a1].all fun i =>
      goes (small (d (lanes [q.1])) (d 0) nul tru) i fun x r =>
        x.cur.scratch.wf && !x.acqPending s0.cur && !x.countPending s0.cur && !(small (d (lanes [q.1])) (d 0) nul tru).poolBusy x s0.cur q.1 4 &&
        (el 32 r.l.data 0).toNat == q.1 && x.scrBytes == 0xC000) = true := by
  decide +kernel

/-- The scratchpad's bounds, its store and load (R277). -/
theorem test_scratchpad :
    trapOf (.spld .none .b4 .elem .rlx false a1) (small (d (lanes [0xC000])) nul nul tru) = some (6, 8, 0, 0) ∧
    trapOf (.spst .none .b4 .elem .rlx false a1) (small (d (lanes [0xBFFD])) (d 0) nul tru) = some (6, 7, 0, 0) ∧
    (((after (.spst .none .b4 .elem .rlx false a1) (small (d (lanes [0xBFFC])) (d (lanes [0x04030201])) nul tru)).elem? 0).map fun x =>
      x.cur.scratch) = some [(0xBFFC, 1), (0xBFFD, 2), (0xBFFE, 3), (0xBFFF, 4)] := by decide +kernel

/-- Slot 0 of the small states. -/
def slot0 (l r t p : Token) : Slot := ⟨false, some ⟨l, 0⟩, some ⟨r, 0⟩, some ⟨t, 0⟩, some ⟨p, 0⟩⟩

theorem meets_slot_executes :
    (match s0.elem? 0 with
     | none => false
     | some x => match x.firing? 0 false with
       | none => false
       | some f => s0.runs x && f.slots[0]? == some (slot0 (d 0) (d 0) (d 0) tru) && x.icyc == 0 &&
         x.regFree s0.cur (slot0 (d 0) (d 0) (d 0) tru) (.add .t .v false a1 a2) && x.arcsFree s0.cur (infoOf (.add .t .v false a1 a2)).tgts &&
         !(infoOf (.add .t .v false a1 a2)).ownNull) = true ∧
    PredHolds (.add .t .v false a1 a2) (slot0 (d 0) (d 0) (d 0) tru) ∧ MarkersFit (.add .t .v false a1 a2) (slot0 (d 0) (d 0) (d 0) tru) ∧
    ¬ SomeNull (.add .t .v false a1 a2) (slot0 (d 0) (d 0) (d 0) tru) ∧ (infoOf (.sel .none a1 a2)).ownNull = true := by
  refine ⟨by decide +kernel, .inr ⟨by decide +kernel, by decide +kernel, by decide +kernel⟩, ⟨by decide +kernel, by decide +kernel, by decide +kernel⟩, ?_, by decide⟩
  unfold SomeNull; decide +kernel

theorem meets_nullified :
    PredFails (.add .f .v false a1 a2) (slot0 (d 0) (d 0) (d 0) tru) ∧ PredFails (.add .t .v false a1 a2) (slot0 (d 0) (d 0) (d 0) nul) ∧
    SomeNull (.add .t .v false a1 a2) (slot0 (d 0) nul (d 0) tru) ∧ isMarker (predTok (slot0 (d 0) nul (d 0) row)) = true ∧
    ¬ MarkersFit (.add .t .v false a1 a2) (slot0 row (d 0) (d 0) tru) ∧
    ¬ Arrived 0 (infoOf (.add .t .v false a1 a2)).l (some ⟨d 0, 1⟩) ∧ ¬ Arrived 0 ((infoOf (.add .t .v false a1 a2)).pm != .none) none := by
  refine ⟨⟨by decide +kernel, .inr ⟨by decide +kernel, by decide +kernel⟩⟩, ⟨by decide +kernel, .inl (by decide +kernel)⟩, .inr (.inl (by decide +kernel)),
    by decide +kernel, ?_, ?_, ?_⟩
  · rintro ⟨h, -, -⟩; exact absurd (h (by decide +kernel)) (by decide +kernel)
  · intro h; obtain ⟨v, hv, hl⟩ := h (by decide); cases hv; exact absurd hl (by decide)
  · intro h; obtain ⟨v, hv, -⟩ := h (by decide); cases hv

theorem meets_null_orders : FiltAlone (.filt .t true false 4 1 a1) (slot0 (d 5) nul tru nul) ∧
    ((State.reset.place (encode (.st .none .b4 .elem .rlx false 0 a1) ++ [0x1D0003FF])).elem? 0).any (fun x =>
      s0.nullHeld x { s0.cur with slot := 1 } (.st .t .b4 .elem .rlx false 0 a1)) = true ∧ (s0.elem? 0).all (fun x => !s0.nullHeld x s0.cur (.st .t .b4 .elem .rlx false 0 a1)) = true := by
  refine ⟨⟨⟨.t, true, 4, 1, a1, rfl⟩, by decide, by decide⟩, by decide +kernel, by decide +kernel⟩

/-- A mismatch nullifies, a null at an operand nullifies, a marker traps (R20, R21, R42). -/
theorem test_gating :
    outs (.add .f .v false a1 a2) s0 = some (some ⟨nul, 1⟩, some ⟨nul, 1⟩) ∧
    outs (.add .t .v false a1 .none) (small (d 0) nul (d 0) tru) = some (some ⟨nul, 1⟩, none) ∧
    trapOf (.add .t .v false a1 .none) (small row (d 0) (d 0) tru) = some (1, 0, 0, 0) ∧
    trapOf (.add .t .v false a1 .none) (small (d 0) (d 0) (d 0) row) = some (1, 0, 0, 0) := by decide +kernel

/-- An outcome is a given next state. -/
def nextB (o : Out) (t : State) : Bool :=
  match o with
  | .next u => decide (u = t)
  | _ => false

theorem of_nextB {o : Out} {t : State} (h : nextB o t = true) : o = .next t := by
  cases o <;> simp_all [nextB]

theorem meets_issue_frame : Issues (.nul .none a1 .none) s0 ((s0.elem? 0).getD (placedElem L0 [])) 1 [(0, a1, nul)] := by
  exact of_nextB (by decide +kernel)

theorem meets_trap_frame : Raises (.trap .none 1 a1) s0 1 0 0 0 ∧ (s0.elem? s0.cur.e).isSome = true := by
  refine ⟨of_nextB (by decide +kernel), by decide +kernel⟩

theorem meets_second_trap : let s := s0.modElem 0 fun x => { x with fault := some (portFault s0 0 0 0 0 0 (.bounds 1)) }
    Raises (.trap .none 1 a1) s 1 0 0 0 ∧ (((s.elem? 0).map (·.fault.isSome)).getD false) = true := by
  refine ⟨of_nextB (by decide +kernel), by decide +kernel⟩

theorem meets_issuing_writes : encode (.nul .none a1 .none) ≠ [] ∧ exec (.nul .none a1 .none) s0 = .next (after (.nul .none a1 .none) s0) :=
  ⟨by decide +kernel, of_nextB (by decide +kernel)⟩

/-! ### Barriers, chains, matrix, patterns, contexts, system -/

/-- A barrier of element 0, and two operands. -/
def withBar (k : Nat) (b : Barrier) (l r : Nat) : State := (small (d (lanes [l])) (d (lanes [r])) (d 0) tru).modElem 0 fun x => x.setBar k b

/-- Where barrier 95 has its home: none outside the region, element 0 at (0, 0). -/
theorem meets_barriers :
    ([Instr.barm .none 95 true a1, .barr .none 95 .dev false true a1, .barx .none 95 .dev false true a1, .barw .none 95 .dev true true a1].all fun i =>
      goes (withBar 95 {} 0xFFF 0) i fun x r => (withBar 95 {} 0xFFF 0).homeOf 0 x true (el 32 r.l.data 0).toNat == none) = true ∧
    ([(0, 0), (1, 0), (2, 0), (2, 65535), (0, 65536), (2, 1)].all fun q => goes (withBar 95 { arr := q.1 } q.2 0) (.barm .none 95 false a1)
      fun x r => (withBar 95 { arr := q.1 } q.2 0).homeOf 0 x false (el 32 r.l.data 0).toNat == some 0 && (x.bar 95).arr == q.1) = true ∧
    ([({} : Barrier), { exp := 1, arr := 1 }, { exp := 2, arr := 1 }].all fun b => allGo (withBar 95 b 0 0) [.barr .none 95 .elem false false a1,
      .barx .none 95 .elem false false a1]) = true ∧
    ([({ flt := true } : Barrier), { gen := 5 }].all fun b => allGo (withBar 95 b 4 0) [.barw .none 95 .elem true false a1]) = true ∧
    ((withBar 95 {} 2 0).elem? 0).any (fun x => (withBar 95 {} 2 0).homeOf 0 x true 0xFFF == none && (withBar 95 {} 2 0).homeOf 0 x true 0 == some 0 &&
      (withBar 95 {} 2 0).homeOf 0 x false 0 == some 0) = true ∧
    (passed 5 4 ∧ ¬ passed 5 5) := by
  refine ⟨by decide +kernel, by decide +kernel, by decide +kernel, by decide +kernel, by decide +kernel, ?_⟩
  unfold passed; decide

/-- Arming, arriving, completing, misuse, failure (R307, R308, R321, R322). -/
theorem test_barriers :
    (((after (.barm .none 3 false a1) (withBar 3 { gen := 7 } 2 0)).elem? 0).map fun x => x.bar 3) = some { gen := 7, exp := 2 } ∧
    (((after (.barr .none 3 .elem false false a1) (withBar 3 { exp := 1, gen := 7 } 0 0)).elem? 0).map fun x => x.bar 3) = some { gen := 8, exp := 1 } ∧
    (((after (.barx .none 3 .elem false false a1) (withBar 3 { exp := 1, gen := 7 } 9 0)).elem? 0).map fun x => x.bar 3) =
      some { gen := 7, exp := 1, arr := 1, pbyt := 9 } ∧
    trapOf (.barr .none 3 .elem false false a1) (withBar 3 {} 0 0) = some (10, 2, 0, 3 * 65536) ∧
    outs (.barw .none 3 .elem false false a1) (withBar 3 { gen := 5 } 4 0) = some (some ⟨d 5, 1⟩, none) ∧
    outs (.barw .none 3 .elem false false a1) (withBar 3 { gen := 5 } 5 0) = some (none, none) ∧
    trapOf (.barw .none 3 .elem false false a1) (withBar 3 { gen := 5, flt := true } 4 0) = some (11, 0, 0, 0) := by decide +kernel

/-- A sync word of element 0 at an offset. -/
def withSync (off w : Nat) (l r : Nat) : State := (small (d (lanes [l])) (d (lanes [r])) nul tru).modElem 0 fun x => x.setSync off w

theorem meets_sync_words :
    ([8, 0xC000, 0xBFF0].all fun off => [Instr.syni .none a1, .syna .none a1, .synw .none a1].all fun i =>
      goes (withSync 0 0 off 0) i fun x r => (el 32 r.l.data 0).toNat == off && x.scrBytes == 0xC000) = true ∧
    ([(5 : Nat), 0, 5 + 2 ^ 105, 2 ^ 80].all fun w => goes (withSync 0xBFF0 w 0xBFF0 0) (.synw .none a1) fun x _ => x.sync 0xBFF0 == w) = true ∧
    syncTarget 5 ≠ 0 ∧ syncTarget 0 = 0 ∧ syncFlt (5 + 2 ^ 105) = true ∧ passed (BitVec.ofNat 24 (syncGen (2 ^ 80))) 0 ∧
    ¬ passed (BitVec.ofNat 24 (syncGen 5)) 0 := by
  refine ⟨by decide +kernel, by decide +kernel, by decide, by decide, by decide +kernel, ?_, ?_⟩ <;> unfold passed <;> decide +kernel

/-- A sync word made, counted over its target, and waited for (R310, R323). -/
theorem test_sync_words :
    (((after (.syni .none a1) (withSync 0x10 (2 ^ 105 + 9 * 2 ^ 80 + 7) 0x10 100)).elem? 0).map fun x => x.sync 0x10) = some (9 * 2 ^ 80 + 100) ∧
    (((after (.syna .none a1) (withSync 0x10 (99 * 2 ^ 40 + 100) 0x10 1)).elem? 0).map fun x => x.sync 0x10) = some (2 ^ 80 + 100) ∧
    (((after (.syna .none a1) (withSync 0x10 (99 * 2 ^ 40 + 100) 0x10 3)).elem? 0).map fun x => x.sync 0x10) = some (2 ^ 104 + 2 ^ 80 + 2 * 2 ^ 40 + 100) ∧
    trapOf (.synw .none a1) (withSync 0 0 0xC000 0) = some (6, 8, 0, 0) ∧
    outs (.synw .none a1) (withSync 0x10 (3 * 2 ^ 80) 0x10 2) = some (some ⟨d 3, 1⟩, none) := by decide +kernel

/-- An engine of partition 0. -/
def withEng (e : Engine) (l : Nat) : State := (small (d (lanes [l])) nul nul tru).modEng 0 0 fun _ => e

/-- An entry that has failed. -/
def badEntry : EngEntry := ⟨[], none, 1, .failed, 0, 0x61, 3, .no, []⟩

theorem meets_chains :
    ([(({ seq := 5 } : Engine), 5), ({ seq := 5 }, 6), ({ seq := 5, stop := true, entries := [badEntry] }, 6)].all fun q =>
      (withEng q.1 q.2).engineIn 0 0 0 && ((withEng q.1 q.2).part 0).hasEng (engineNo 0 0) && ((withEng q.1 q.2).part 0).answers &&
      allGo (withEng q.1 q.2) [.chseq .none 0 0 a1, .chwt .none 0 0 a1, .chctl .none 0 0 2 a1] &&
      (withEng q.1 q.2).stopOf 0 0 0 == (if q.1.stop then some 0x61 else none)) = true := by decide +kernel

/-- CHSEQ, CHWT and CHCTL (R325, R326). -/
theorem test_chains :
    outs (.chseq .none 0 0 a1) (withEng { seq := 5 } 0) = some (some ⟨d 5, 1⟩, none) ∧
    outs (.chwt .none 0 0 a1) (withEng { seq := 5 } 5) = some (some ⟨d 5, 1⟩, none) ∧
    outs (.chwt .none 0 0 a1) (withEng { seq := 5 } 6) = some (none, none) ∧
    trapOf (.chwt .none 0 0 a1) (withEng { seq := 5, stop := true, entries := [badEntry] } 6) = some (11, 0x61, 0, 0) ∧
    outs (.chctl .none 0 0 0 a1) (withEng {} 0) = some (some ⟨d 8, 1⟩, none) := by decide +kernel

/-- A generator of element 0 that holds the diagonal of a frame of 16. -/
def diagonal : Gen := { st := .loaded, rf := 16, cf := 16, prog := [0x01000000, 0x0B000000] }
def withGen (v : Gen) (l : List Nat) (t : Nat) : State := (small (d (lanes l)) (d (lanes l)) (d (lanes [t])) tru).modElem 0 fun x => x.setGen 0 v

/-- A tile with all bits of its elements as given, and a full fetch buffer of a tag, of 256 elements. -/
def fullBuf (tag : BitVec 10) (v : BitVec 16) : FetchBuf := { st := .full, els := List.replicate 256 v, tag := tag, exps := List.replicate 16 127 }

/-- Element 0 with fetch buffers 0 and 1, and the handles of both at L and R. -/
def withBufs (a b : FetchBuf) : State := (small (d (lanes [0])) (d (lanes [5])) nul tru).modElem 0 fun x => { x with bufs := [a, b, {}, {}] }

/-- An ACCV of a tile that has issued. -/
def accvReq (t : Nat) : Access := request s0 ⟨d 0, d 0, d 0⟩ (.tgt a1) 0 .ep (.accv t .rne false) .elem .rlx 1 false false

theorem meets_units :
    (match (mapAll (withGen diagonal [0x10] 0)).elem? 0 with
     | none => false
     | some x => (unitTable (mapAll (withGen diagonal [0x10] 0)) x ⟨d 0, d 0, d 0⟩ .none 0 .rne false 0 0 0 0 .elem 0 a1 (.tgt a1)).all fun z =>
        z.2.2.2 && goes (mapAll (withGen diagonal [0x10] 0)) z.1 fun _ _ => true) = true ∧
    (match (withGen diagonal [0x10] 0).elem? 0 with
     | none => false
     | some x => decide ((unitTable (withGen diagonal [0x10] 0) x ⟨d 0, d 0, d 0⟩ .none 0 .rne false 0 0 0 0 .elem 0 a1 (.tgt a1)).length = 19)) = true ∧
    (let s := ((withGen diagonal [0x10] 0).modElem 0 fun x => { x with acc := [accvReq 0] }).modPart 0 fun p =>
        { p with append := List.replicate 16 ([], 0) }
     match s.elem? 0 with
     | none => false
     | some x => ((unitTable s x ⟨d 0, d 0, d 0⟩ .none 0 .rne false 0 0 0 0 .elem 0 a1 (.tgt a1)).filter fun z => !z.2.2.2).length == 2) = true := by
  decide +kernel

/-- A product that runs, and what else products meet: for each, the state, and whether the tile is granted. -/
theorem meets_products :
    (goes (withBufs (fullBuf 0x100 0x38) (fullBuf 0x100 0x38)) (.mma .none 63 true a1) (fun x r =>
      decide (63 < x.accTiles) && x.mxReady s0.cur (.mma .none 63 true a1) && !isMarker r.l && !isMarker r.r &&
      !(el 32 r.l.data 0).toNat.testBit 2 && (el 32 r.r.data 0).toNat.testBit 2 && (x.buf 0).st == .full && (x.buf 1).st == .full &&
      !(x.buf 0).scaled && (x.buf 0).els.length == 256 && (x.buf 1).els.length == 256 && (x.tileAt 63).els.length == 256 &&
      mmaType false false (tagFmt 0x100) (tagFmt 0x100) == some false && (fmtOf (tagFmt 0x100)).isSome) &&
     goes (withBufs (fullBuf 384 1) (fullBuf 384 1)) (.mma .none 0 false a1) (fun x _ =>
      mmaType false false (tagFmt (x.buf 0).tag.toNat) (tagFmt (x.buf 1).tag.toNat) == some true && (x.tileAt 0).int != true) &&
     goes (withBufs (fullBuf 384 1) (fullBuf 384 1)) (.mmas .none 0 false a1) (fun _ _ => mmaType true false 6 6 == some false) &&
     goes (withBufs (fullBuf 576 1) (fullBuf 384 1)) (.mmap .none 0 false a1) (fun _ _ => mmaType false true 9 6 == some false)) = true := by decide +kernel

theorem meets_product_outcomes :
    (goes (withBufs {} {}) (.mma .none 64 false a1) (fun x _ => decide (x.accTiles ≤ 64)) &&
     (((withBufs {} {}).modElem 0 fun x => { x with mxFree := 1 }).elem? 0).any (fun x => decide (x.icyc < x.mxFree)) &&
     goes ((withBufs {} {}).modElem 0 fun x => { x with acc := [accvReq 63] }) (.mma .none 63 false a1) (fun x _ => !x.mxReady s0.cur (.mma .none 63 false a1)) &&
     goes (small row row nul tru) (.mma .none 0 false a1) (fun _ r => isMarker r.l && r.l.kind == r.r.kind) &&
     goes (small row ⟨.kend, 0, none⟩ nul tru) (.mma .none 0 false a1) (fun _ r => isMarker r.l && r.l.kind != r.r.kind) &&
     goes (small (d (lanes [4])) (d (lanes [5])) nul tru) (.mma .none 0 false a1) (fun _ r => (el 32 r.l.data 0).toNat.testBit 2) &&
     goes (withBufs {} (fullBuf 0x100 0)) (.mma .none 0 false a1) (fun x _ => (x.buf 0).st == .empty) &&
     goes (withBufs (fullBuf 0x100 0) {}) (.mma .none 0 false a1) (fun x _ => (x.buf 0).st != .empty && (x.buf 1).st == .empty) &&
     goes (withBufs { st := .pending } (fullBuf 0x100 0)) (.mma .none 0 false a1) (fun x _ => (x.buf 0).st == .pending) &&
     goes (withBufs (fullBuf 0x100 0) (fullBuf 384 0)) (.mma .none 0 false a1) (fun x _ =>
       mmaType false false (tagFmt (x.buf 0).tag.toNat) (tagFmt (x.buf 1).tag.toNat) == none)) = true := by decide +kernel

/-- The manual's worked example in small: 1 by 1 sixteen times gives 16 in every element; INT8 by INT8 is exact; a width trap (R94, R365). -/
theorem test_products :
    (((after (.mma .none 3 true a1) (withBufs (fullBuf 0x100 0x38) (fullBuf 0x100 0x38))).elem? 0).map fun x => x.tileAt 3) =
      some ⟨false, List.replicate 256 0x41800000⟩ ∧
    (((after (.mma .none 3 true a1) (withBufs (fullBuf 384 0xFF) (fullBuf 384 2))).elem? 0).map fun x => x.tileAt 3) =
      some ⟨true, List.replicate 256 0xFFFFFFE0⟩ ∧
    trapOf (.mma .none 3 false a1) (withBufs (fullBuf 384 1) (fullBuf 384 2)) = some (9, 0, 0, 0) ∧
    trapOf (.mma .none 3 false a1) (withBufs {} (fullBuf 384 2)) = some (3, 0, 0x100, 0) := by decide +kernel

theorem meets_accumulators :
    (goes s0 (.acz .none 63 true a1) (fun x _ => decide (63 < x.accTiles) && x.mxReady s0.cur (.acz .none 63 true a1)) &&
     ([15, 16].all fun k => goes (small (d (lanes [k])) (d 0) nul tru) (.acwr .none 63 a1) fun x _ =>
       x.mxReady s0.cur (.acwr .none 63 a1) && (x.tileAt 63).els.length == 256) &&
     ([15, 16].all fun k => goes (small (d (lanes [k])) nul nul tru) (.acrd .none 63 (.tgt a1)) fun x _ => x.mxReady s0.cur (.acrd .none 63 (.tgt a1))) &&
     goes (small (d (lanes [15])) nul nul tru) (.acrd .none 63 (.reg 255)) (fun x _ => decide (255 < x.regs) && (x.regAt 255).st != .pending &&
       x.mxReady s0.cur (.acrd .none 63 (.reg 255))) &&
     goes s0 (.trel .none 3 a1) (fun x _ => x.mxReady s0.cur (.trel .none 3 a1) && (x.buf 3).st != .pending)) = true := by decide +kernel

/-- A tile cleared, a row written and read (R366). -/
theorem test_accumulators :
    (((after (.acz .none 3 true a1) s0).elem? 0).map fun x => x.tileAt 3) = some ⟨true, List.replicate 256 0⟩ ∧
    (((after (.acwr .none 3 a1) (small (d (lanes [1])) (d (same 7)) nul tru)).elem? 0).map fun x => (x.tileAt 3).els) =
      some (List.replicate 16 0 ++ List.replicate 16 7 ++ List.replicate 224 0) ∧
    trapOf (.acwr .none 3 a1) (small (d (lanes [16])) (d 0) nul tru) = some (6, 8, 0, 0) ∧
    outs (.acrd .none 3 (.tgt a1)) ((small (d (lanes [1])) nul nul tru).modElem 0 fun x => x.setTile 3 ⟨false, List.replicate 256 9⟩) =
      some (some ⟨d (same 9), 2⟩, none) ∧
    outs (.trel .none 1 a1) (withBufs {} (fullBuf 0x100 0)) = some (some ⟨d 1, 1⟩, none) := by decide +kernel

theorem meets_patterns :
    (goes (withGen diagonal [3, 3] 0) (.pgq .none 0 a1) (fun x _ => x.genFree s0.cur 0 && (x.gen 0).st != .idle && (x.gen 0).pat.isSome) &&
     goes s0 (.pgq .none 0 a1) (fun x _ => (x.gen 0).st == .idle) && allGo s0 [.pgsv .none 3 a1, .slhb .none true a1, .slhb .none false a1] &&
     goes (small (d (lanes [0x00010001])) nul (d 0) tru) (.slht .none a1) (fun _ r => (treeSet r.l.data.toNat).isSome) &&
     goes (small (d (lanes [1])) nul (d 0) tru) (.slht .none a1) (fun _ r => (treeSet r.l.data.toNat).isNone) &&
     goes ((withGen diagonal [3, 3] 0).modElem 0 fun x => { x with acc := [request s0 ⟨d 0, d 0, d 0⟩ (.tgt a1) 0 .ep (.pgnx 0) .elem .rlx 0 false false] })
       (.pgq .none 0 a1) (fun x _ => !x.genFree s0.cur 0)) = true := by decide +kernel

/-- Membership in the diagonal, walks of masks and of a bit-tree (R384, R399, R400). -/
theorem test_patterns :
    outs (.pgq .none 0 a1) (withGen diagonal [3, 3] 0) = some (some ⟨tru, 1⟩, none) ∧
    outs (.pgq .none 0 a1) (withGen diagonal [3, 4] 0) = some (some ⟨fls, 1⟩, none) ∧
    trapOf (.pgq .none 0 a1) s0 = some (6, 12, 0, 0) ∧
    outs (.slhb .none false a1) (small (d (lanes [0x15])) (d (lanes [0x1F])) (d (lanes [1])) tru) =
      some (some ⟨d (lanes ([2, 4] ++ List.replicate 13 0xFFFFFFFF ++ [256])), 2⟩, none) ∧
    outs (.slht .none a1) (small (d (lanes [0x00030002])) nul (d 0) tru) =
      some (some ⟨d (lanes ([16, 17] ++ List.replicate 13 0xFFFFFFFF ++ [256])), 2⟩, none) ∧
    trapOf (.slht .none a1) (small (d (lanes [1])) nul (d 0) tru) = some (6, 13, 0, 0) := by decide +kernel

theorem meets_contexts :
    allGo s0 [.phend .none a1, .ctxq .none 3 a1, .rateq .none 6 a1, .nodeid .none a1, .fcnt .none 2 a1, .sarm .none 0 a1, .swait .none 0 a1] = true ∧
    (((s0.elem? 0).bind fun x => (s0.launch? x.l).bind fun l => l.islandOf x).isSome && (s0.region? R0).isSome && !s0.cur.epi &&
      ((s0.region? R0).map (·.tiles)) == some 0 && (((withRegion s0 fun g => { g with tiles := 1 }).region? R0).map (·.tiles)) == some 1) = true := by decide +kernel

/-- PHEND, counts, sections and rates (R208, R232 to R234, R344). -/
theorem test_contexts :
    (((after (.phend .none a1) (small (d (lanes [3])) nul nul tru)).elem? 0).map fun x => x.phend) = some (some true) ∧
    outs (.fcnt .none 0 a1) s0 = some (some ⟨d 1, 1⟩, none) ∧
    outs (.sarm .none 0 a1) (withRegion (small (d (lanes [2])) nul nul tru) fun g => { g with tiles := 0xFFFFFFFE }) =
      some (some ⟨d (lanes [0xFFFFFFFF]), 2⟩, none) ∧
    outs (.swait .none 0 a1) (withRegion s0 fun g => { g with tiles := 1 }) = some (none, none) ∧
    outs (.swait .none 0 a1) (withRegion s0 fun g => { g with admitted := 4 }) = some (some ⟨d 4, 1⟩, none) ∧
    outs (.ctxq .none 1 a1) (s0.modElem 0 fun x => { x with phases := 9 }) = some (some ⟨d 9, 1⟩, none) := by decide +kernel

theorem meets_system :
    allGo s0 [.trap .none 1 a1, .trap .none 11 a1, .brk .none 255 a1, .csrr .none 0x00 a1, .csrr .none 0x01 a1, .csrr .none 0x10 a1, .csrr .none 0x11 a1,
      .csrr .none 0x02 a1, .csrw .none 0x10 a1, .csrw .none 0x11 a1, .eqrd .none 4 a1, .obsr .none 0 true 7 a1, .obsr .none 1 false 0 a1,
      .obsr .none 2 false 0 a1, .obsr .none 3 false 0 a1, .obsr .none 4 false 7 a1, .haltr .none a1] = true ∧
    (goes (s0.modElem 0 fun x => { x with brkPass := some (0, false, 0) }) (.brk .none 255 a1) fun x _ => x.brkPass == some (0, false, 0)) = true := by
  decide +kernel

/-- Traps by instruction, special registers, counters, the end of a launch (R98, R344, R345, R347, R431, R455). -/
theorem test_system :
    trapOf (.trap .none 7 a1) (small (d (lanes [0xDEADBEEF])) nul nul tru) = some (7, 0, 0, 0xDEADBEEF) ∧
    trapOf (.brk .none 9 a1) s0 = some (12, 0, 0, 9) ∧
    outs (.csrr .none 0x11 a1) s0 = some (some ⟨d (lanes [wideGrant.toNat]), 1⟩, none) ∧
    (((after (.csrw .none 0x10 a1) (small (d (lanes [0xFFFFFFFF])) nul nul tru)).elem? 0).map fun x => x.cur.fpstat) = some 0x7F ∧
    outs (.eqrd .none 0 a1) (s0.modPart 0 fun p => { p with equota := 5 }) = some (some ⟨d 5, 1⟩, none) ∧
    outs (.obsr .none 0 true 1 a1) (s0.modElem 0 fun x => { x with seen := { x.seen with stall := setAt x.seen.stall 9 7 } }) = some (some ⟨d 7, 1⟩, none) ∧
    (((after (.haltr .none a1) s0).launch? L0).map (·.halting)) = some true := by decide +kernel

/-! ### Firings, streams, phases, cuts, traps, regions -/

/-- Element 0 of a state has a property. -/
def el0 (s : State) (f : Elem → Bool) : Bool := ((s.elem? 0).map f).getD false

/-- The region and the launch of a state have properties. -/
def rg0 (s : State) (f : Region → Bool) : Bool := ((s.region? R0).map f).getD false
def la0 (s : State) (f : Launch → Bool) : Bool := ((s.launch? L0).map f).getD false

/-- Element 0 with a descriptor that takes `k` tokens at port 0, two firings in flight at once and one every two cycles. -/
def actor (k : Nat) : Ctx := ⟨{ bareActor with cin := setAt (List.replicate 8 0) 0 k, ii := 2, d := 4 }, blockOf twoWords, none, [], 2, []⟩

/-- A state whose element 0 has tokens at port 0 and started its last firing at cycle 3 of 5. -/
def sFire (l : List Token) : State :=
  (small (d 0) (d 0) (d 0) tru).modElem 0 fun x => { x with
    cur := { x.cur with ctxs := [some (actor 2), none, none, none], inBuf := setAt x.cur.inBuf 0 l }, icyc := 5, lastStart := some 3 }

theorem meets_firings :
    (el0 (sFire [d 1, d 2, d 3]) fun x => x.ctxNow == some (actor 2) && la0 (sFire []) (fun l => (sFire []).mayStart l x) &&
      decide (x.firings.length < ceilDiv 4 2) && decide (2 ≤ x.icyc - x.lastStart.getD 0) && x.armPorts.isEmpty &&
      decide (2 ≤ ((x.cur.inBuf.getD 0 []).takeWhile fun t => t.kind != .dusk).length)) = true ∧
    (el0 (s0.modElem 0 fun x => { x with stopped := true }) fun x => x.ctxNow.isSome &&
      !s0.mayStart (freshLaunch L0 [] []) x) = true ∧
    (el0 (after (.nul .none .none .none) (small (d 0) (d 0) (d 0) tru)) fun x => (x.firings.find? fun g => g.no == 0).isSome && x.acc.isEmpty) = true := by
  decide +kernel

/-- A firing starts with the oldest tokens (R10, R160), and not before its interval or without its tokens (R111). -/
theorem test_firing_start :
    (((after (.firingStart 0) (sFire [d 1, d 2, d 3])).elem? 0).map fun x => (x.started, (x.firings.map fun f => f.assigned.getD 0 []).getLast?,
      x.cur.inBuf.getD 0 [])) = some (2, some [d 1, d 2], [d 3]) ∧
    (((after (.firingStart 0) (sFire [d 1])).elem? 0).map (·.started)) = some 1 ∧
    (((after (.firingStart 0) ((sFire [d 1, d 2]).modElem 0 fun x => { x with icyc := 4 })).elem? 0).map (·.started)) = some 1 := by decide +kernel

/-- A firing whose slots have all issued completes (R11). -/
theorem test_firing_complete :
    (((after (.firingComplete 0 0) (s0.modElem 0 fun x => { x with firings := x.firings.map fun f =>
      { f with slots := f.slots.map fun sl => { sl with issued := true } } })).elem? 0).map fun x => (x.firings.length, x.done)) = some (0, 1) ∧
    (((after (.firingComplete 0 0) s0).elem? 0).map fun x => x.firings.length) = some 1 := by decide +kernel

/-- A stream from output 0 of element 0 to output 0 of the region. -/
def plain : Stream := ⟨.elem 0 0, .regOut 0, 4, 0, false, false, none, 1, [], [], none, [], [], [], none, [], none, none⟩

/-- A state with one stream; its launch is not paused. -/
def sStr (q : Stream) : State :=
  (withRegion s0 fun g => { g with streams := [q] }).modLaunch L0 fun l => { l with pause := false }

/-- A counter node of two levels, at its last count inside. -/
def node2 : CountNode := ⟨[2, 3], [1, 2], [1, 0, 0, 0], [2, 3], [none, none], true⟩

/-- A siding of depth 4 with a fresh token. -/
def sid : Siding := ⟨4, 3, 1, [d 1], [], 0, false, false, 0, 0, false, false⟩

theorem meets_stream_events :
    (let j : Stream := { plain with junction := some .page, junc := [(d 5, 0)] }
     (s0.stream? R0 0).isNone && ((sStr j).stream? R0 0) == some j && decide (j.wire.length < j.slots j.arcs) &&
     el0 (sStr j) (fun x => x.acc.isEmpty) &&
     ((sStr { j with prod := .regIn 0 }).stream? R0 0).isSome &&
     el0 ((sStr { j with junc := [(d 5, 1)] }).modElem 0 fun x => { x with acc := [request s0 ⟨d 0, d 0, d 0⟩ (.tgt a1) 0 .ep .st .elem .rlx 4 false false] })
       (fun x => x.acc.any fun a => a.path == .ep && a.op.writes && decide (a.id < 1))) = true ∧
    ([Kind.data, .null, .row, .kend, .cond].all fun k =>
      let q : Stream := { plain with count := some node2, wire := [⟨k, 0, none⟩] }
      rg0 (sStr q) (·.moves) && la0 (sStr q) (fun l => l.endEdge q.cIsl && q.pastTurn.isSome) && node2.levels == 2) = true ∧
    ([([] : List Token), [d 1], List.replicate 14 (d 1), List.replicate 15 (d 1)].all fun rows => [Kind.data, .row].all fun k =>
      let q : Stream := { plain with turn := true, rows := rows, wire := [⟨k, 0, none⟩] }
      la0 (sStr q) fun l => l.endEdge q.cIsl && q.pathHead.isSome) = true := by decide +kernel

/-- The first stream of a state. -/
def str0 (s : State) : Option Stream := s.stream? R0 0

/-- A junction lets its token go; a counter node adds the marker of the level that is complete; a corner turn transposes; a siding's
token becomes visible (R183, R186, R188, R192). -/
theorem test_stream_events :
    (str0 (after (.junctionRelease R0 0) (sStr { plain with junction := some .page, junc := [(d 5, 0)] }))).map (fun q => (q.junc.length, q.wire)) =
      some (0, [d 5]) ∧
    (str0 (after (.counterNodeForward R0 0) (sStr { plain with count := some node2, wire := [d 5] }))).map (fun q => (q.out, q.count.map (·.cnt))) =
      some ([d 5, row], some [0, 1, 0, 0]) ∧
    (str0 (after (.cornerTurn R0 0) (sStr { plain with turn := true, rows := List.replicate 15 (d (lanes [1, 2])), wire := [d (lanes [3])] }))).map
      (fun q => (q.rows.length, q.turned.map (·.data))) =
      some (0, lanes (List.replicate 15 1 ++ [3]) :: lanes (List.replicate 15 2) :: List.replicate 14 0) ∧
    (str0 (after (.coincidentEdge R0 0) (sStr { plain with borders := [⟨0, 0, none, ⟨[sid], 0, 0⟩⟩] }))).map (fun q =>
      q.borders.map fun b => b.bank.lanes.map fun z => (z.fresh.length, z.ready)) = some [[(0, [d 1])]] := by decide +kernel

/-- A state whose partition's slices know the first page, with ports bound to its start. -/
def sBound (q : Stream) (c : Nat) : State :=
  let s := (sStr q).modPart 0 fun p => { p with slices := List.replicate 4 [⟨0, 0x10000, 4096, true, true⟩] }
  { withRegion s fun g => { g with ins := setAt g.ins 0 { bind := some ⟨0, c⟩ }, outs := setAt g.outs 0 { bind := some ⟨0x40, c⟩ } } with
    mem := [(0x10000, 7)] }

/-- A state whose element 0 has a generator of one level of 4 steps of 64 bytes from offset 0. -/
def sGen (out : Bool) (g : Agen) : State :=
  let cfg : AgenCfg := ⟨0, out, 0, 8, 1, 0, [4], [64]⟩
  { ((mapAll s0).modLaunch L0 fun l => { l with pause := false }).modElem 0 fun x => { x with
      cur := { x.cur with ctxs := [some { actor 0 with agens := [cfg] }, none, none, none], agens := setAt x.cur.agens 0 g } } with mem := [(0x10000, 7)] }

/-- A requester finds the translation of the first page for an address; the slice of page 0 serves its line. -/
def translates (s : State) (q : Req) (a : Nat) (w : Bool) : Bool :=
  ((s.cacheOf q).tlb.find? fun y => y.covers a && y.permits w).isNone &&
  (((s.part 0).slices.getD (s.sliceFor 0 q a) []).find? fun y => y.covers a && y.permits w) == some ⟨0, 0x10000, 4096, true, true⟩
def serves (s : State) (k : Nat) : Bool :=
  decide (0 < s.pages.length) && !(s.page 0).halted && ((s.page 0).lines.all fun l => l.line != k) && decide (((s.page 0).lines.filter fun l =>
    Machine.setOf l.line == Machine.setOf k && !l.resident).length < (s.page 0).ways false (Machine.setOf k))

theorem meets_feeders :
    (let s := sBound { plain with out := [d 9] } 1
     la0 s (fun l => l.chains.isEmpty) && rg0 s fun g => s.inputsOpen R0 g && g.admits 0 && g.portFault.isNone && g.moves && (g.outStream 0).isSome &&
       okB (s.portPlan 0 (g.portPage false 0) 0 false) && translates s (.feed (g.portPage false 0)) 0 false && translates s (.feed (g.portPage true 0)) 0x40 true && okB (s.portPlan 0 (g.portPage true 0) 0x40 true) &&
       stopB (s.portPlan 0 (g.portPage false 0) 0x0001000000000000 false) && stopB (s.portPlan 0 (g.portPage true 0) 0x0001000000000000 true)) = true ∧
    (let s := sGen false ⟨[0, 0, 0, 0], false, [], .no, none⟩
     el0 s fun x => match x.agen 0 with
       | some (a, g) => s.agenRuns x 0 a g && decide ((x.cur.inBuf.getD a.k []).length < a.depth) && decide (a.k < x.cur.inBuf.length) && decide (0 < x.cur.agens.length) && serves s 0x200 &&
          ((s.cacheOf (.port 0 0)).tlb.find? fun y => y.covers 0 && y.permits true) == some ⟨0, 0x10000, 4096, true, true⟩ && okB (doLd 0 0 (agenAccess 0 .ld (a.tok g.cnt) 0 4) s)
       | none => false) = true ∧
    ([true, false].all fun fin => let s := sGen true ⟨[0, 0, 0, 0], fin, [d 9], .no, none⟩
     el0 s fun x => match x.agen 0 with
       | some (a, g) => s.agenRuns x 0 a g && a.out && g.q == [d 9] && g.fin == fin &&
          okB ((s.object 0 (.port 0 0) 0).bind fun o u => doSt 0 0 (agenAccess 0 .st (a.tok g.cnt) 9 o.esz) u)
       | none => false) = true := by decide +kernel

/-- A feeder reads its binding, a drain writes it, generators step and stop (R226, R287 to R289). -/
theorem test_feeders :
    (((after (.boundInputFeed R0 0) (sBound plain 1)).region? R0).map fun g => (((g.ins.getD 0 {}).q.map (·.data)), (g.ins.getD 0 {}).given)) = some ([7], 1) ∧
    ((after (.boundOutputDrain R0 0) (sBound { plain with out := [d 9] } 1)).mem.get 0x10040, (((after (.boundOutputDrain R0 0)
      (sBound { plain with out := [d 9] } 1)).region? R0).map fun g => (g.outs.getD 0 {}).taken)) = (9, some 1) ∧
    (((after (.agenInStep 0 0) (sGen false ⟨[3, 0, 0, 0], false, [], .no, none⟩)).elem? 0).map fun x => ((x.cur.inBuf.getD 0 []).length,
      (x.cur.agens.getD 0 ⟨[], false, [], .no, none⟩).fin)) = some (1, true) ∧
    (((after (.agenOutStep 0 0) (sGen true ⟨[0, 0, 0, 0], true, [d 9], .no, none⟩)).elem? 0).bind fun x => x.fault.map fun f => (f.cls, f.cause)) =
      some (6, 14) := by decide +kernel

/-- A state whose only firing has completed and whose element has executed PHEND. -/
def sPhase (p epi : Bool) : State :=
  s0.modElem 0 fun x => { x with
    firings := [], phend := some p
    cur := { x.cur with ctxs := [some { actor 0 with desc := { (actor 0).desc with nextT := 1, nextF := 2 }, epi := if epi then some (blockOf twoWords) else none },
      none, none, none] } }

/-- A wavefront that has been loaded into a region of two elements. -/
def sWave (adm : Bool) : State :=
  let s := withRegion (s0.modElem 0 fun x => { x with firings := [], shadow := [(0, some (actor 1))] }) fun g =>
    { g with wave := some ⟨0, none, adm⟩, elems := [0, 1] }
  s.setElem 1 (freshElem L0 0 1 0 wideGrant)

theorem meets_phases :
    ([true, false].all fun epi => rg0 (sPhase true epi) (fun g => g.moves && g.wave.isNone) && el0 (sPhase true epi) fun x => x.ctxNow.isSome &&
      x.phend.isSome && x.firings.isEmpty && !x.stopped && !x.epiRun && x.agensDrained && ((x.ctxNow.bind (·.epi)).isSome == epi)) = true ∧
    (el0 (sGen true ⟨[0, 0, 0, 0], false, [d 9], .no, none⟩) fun x => !x.agensDrained) = true ∧
    (rg0 (sWave false) fun g => g.st == .running && g.wave == some ⟨0, none, false⟩ && ((sWave false).regionElems R0).all fun q => !q.2.ending) = true ∧
    (rg0 (sWave true) fun g => g.wave == some ⟨0, none, true⟩ && (sWave true).oldDone g 0 && !((sWave true).modElem 0 fun x => { x with stopped := true }).oldDone g 0 && el0 (sWave true) fun x => !x.switched && !x.stopped &&
      x.firings.isEmpty && x.acc.isEmpty && !x.oldWork && x.agensDrained && (((sWave true).elem? 1).map fun y => y.rref == R0 && !y.switched) == some true) = true := by
  decide +kernel

/-- A phase ends by its predicate; a wavefront is admitted, and an element takes its new context (R22, R24, R228, R232). -/
theorem test_phases :
    (((after (.phaseEnd R0) (sPhase true false)).elem? 0).map fun x => (x.ctx, x.phases, x.phend)) = some (1, 1, none) ∧
    (((after (.phaseEnd R0) (sPhase false false)).elem? 0).map fun x => x.ctx) = some 2 ∧
    (((after (.phaseEnd R0) (sPhase false true)).elem? 0).map fun x => (x.epiRun, x.firings.length)) = some (true, 1) ∧
    (((after (.wavefrontAdmission R0) (sWave false)).region? R0).map fun g => g.wave) = some (some ⟨0, none, true⟩) ∧
    (((after (.elementSwitch 0) (sWave true)).elem? 0).map fun x => (x.switched, x.waves, x.cur.ctxs.head?)) = some (true, 1, some (some (actor 1))) := by
  decide +kernel

/-- A state whose element has met a marker at its only used input, fed by a stream of the region. -/
def sDusk : State :=
  let q : Stream := { plain with prod := .regIn 0, cons := .elem 0 0 }
  let c : Ctx := { actor 1 with desc := { (actor 1).desc with cout := setAt (List.replicate 8 0) 0 1 } }
  (withRegion (sStr q) fun g => { g with save := 4096, streams := [q, plain] }).modElem 0 fun x => { x with
    firings := [], cur := { x.cur with ctxs := [some c, none, none, none], inBuf := setAt x.cur.inBuf 0 [⟨.dusk, 0, none⟩, d 4] } }

/-- A state whose element has no actor, and whose first input has injected a marker. -/
def sBare : State :=
  (withRegion s0 fun g => { g with save := 4096, ins := setAt g.ins 0 { nmark := 1 } }).modElem 0 fun x => { x with
    firings := [], cur := { x.cur with ctxs := List.replicate 4 none } }

/-- What the last cut saved of element 0. -/
def cut0 : ElemCut := (placedElem L0 twoWords).cutOf 0 true []

/-- A state that is to be rolled back to cut 0. -/
def sBack : State := withRegion (s0.modElem 0 fun x => { x with started := 5, stopped := true }) fun g =>
  { g with st := .held, rolling := some false, save := 4096, cuts := [⟨0, [cut0], []⟩] }

theorem meets_cuts :
    (rg0 sDusk fun g => g.save != 0 && !g.waving && el0 sDusk fun x => match x.ctxNow with
      | none => false
      | some c => sDusk.runs x && x.epoch == g.epoch && !x.ending && x.firings.isEmpty && !x.livePending c && g.markPorts 0 c == [0] && x.marked c 0 &&
        la0 sDusk fun l => (l.fromElem 0 0).length == 1 && (l.fromElem 0 0).all fun q => sDusk.hasRoom q.2.2) = true ∧
    (rg0 sBare fun g => g.save != 0 && !g.waving && (g.ins.any fun i => decide (0 < i.nmark)) && el0 sBare fun x => sBare.runs x && x.ctxNow.isNone &&
      x.epoch == g.epoch && x.epoch == 0 && !x.ending && x.firings.isEmpty) = true ∧
    (rg0 sBack fun g => g.rolling == some false && (g.cuts.find? fun c => c.epoch == g.epoch).isSome && el0 sBack fun x =>
      x.acc.isEmpty && x.fills.isEmpty && x.reports.length == cut0.nrep) = true ∧
    (let s := sBack.modElem 0 fun x => { x with acc := [request s0 ⟨d 0, d 0, d 0⟩ (.tgt a1) 0 .ep .st .elem .rlx 4 false false] }
     rg0 s fun g => el0 s fun x => x.acc.any fun a => s.blocksRoll g 0 x a) = true := by decide +kernel

/-- A cut lets the marker go out, and a rollback restores (R338 to R340). -/
theorem test_cuts :
    (el0 sDusk fun x => la0 sDusk fun l => match sDusk.markOut l 0 x with
      | some t => ((t.stream? R0 1).map fun q => q.wire.map (·.kind)) == some [.dusk] && dropDusk (x.cur.inBuf.getD 0 []) == [d 4]
      | none => false) = true ∧
    (((after (.rollback R0) sBack).elem? 0).map fun x => (x.started, x.stopped, x.replayUpTo, x.firings.length)) = some (1, false, some 5, 0) := by decide +kernel

/-- A state whose element 0 has raised a trap of a class. -/
def sTrap (cls : Nat) (f : Region → Region) : State :=
  withRegion (s0.modElem 0 fun x => { x with stopped := true, fault := some { (portFault s0 0 0 0 0 0 (.bounds 1)) with cls := cls } }) f

theorem meets_traps :
    ([12, 1, 14].all fun c => rg0 (sTrap c id) fun g => g.st == .running && g.waiting == [] && g.opWaiting == [] &&
      ((firstFault ((sTrap c id).faultsOf R0 g)).map (·.2.cls)) == some c && ((sTrap c id).faultsOf R0 g).all fun f => (f.2.cls == 14) == decide (c = 14)) = true ∧
    (rg0 (sTrap 14 fun g => { g with banks := [(0, 0)] }) fun g => repeats g.banks (checksOf ((sTrap 14 id).faultsOf R0 g)) && (sTrap 14 id).settled R0 g) = true ∧
    (rg0 (sTrap 1 fun g => { g with save := 4096 }) fun g => g.replayable && g.save != 0 && g.waiting == []) = true ∧
    ([(sTrap 1 fun g => { g with waiting := [[]] }), (sTrap 1 fun g => { g with opWaiting := [[]] })].all fun s => rg0 s fun g => (g.waiting != [] || g.opWaiting != []) && (firstFault ((sTrap 1 id).faultsOf R0 g)).isSome) = true ∧
    decide (0 < s0.pages.length) = true ∧ decide (0 < s0.parts.length) = true ∧
    (rg0 (sTrap 1 fun g => { g with replayable := false }) fun g => !g.replayable && (sTrap 1 fun g => { g with replayable := false }).settled R0 g) = true ∧
    (let s := (mapAll (sTrap 1 fun g => { g with replayable := false })).modElem 0 fun x => { x with
      acc := [request s0 ⟨d 0, d 0, d 0⟩ (.tgt a1) 0 .ep .st .elem .rlx 4 false false] }
     rg0 s fun g => !s.settled R0 g) = true ∧
    (el0 s0 (fun x => x.fault.isNone) && rg0 s0 (fun g => g.pages.contains 0 && g.portFault.isNone) && la0 s0 (fun l => l.ref == L0)) = true := by decide +kernel

/-- A breakpoint freezes, a replayable region is held to be rolled back, another is aborted; machine checks (R329, R330, R335). -/
theorem test_traps :
    (((after (.trapAction R0) (sTrap 12 id)).region? R0).map (·.st)) = some .frozen ∧
    (((after (.trapAction R0) (sTrap 1 fun g => { g with save := 4096 })).region? R0).map fun g => (g.st, g.rolling)) = some (.held, some false) ∧
    ((after (.trapAction R0) (sTrap 1 fun g => { g with replayable := false })).launch? L0) = none ∧
    (((after (.machineCheck (.elem 0) 1 2 3) s0).elem? 0).bind fun x => x.fault.map fun f => (f.cls, f.mc)) = some (14, 0x0100020000000003) ∧
    (((after (.machineCheck (.slice 0) 1 2 3) s0).region? R0).bind fun g => g.portFault.map fun f => f.cls) = some 14 := by decide +kernel

/-- A state whose region is in a state of stop. -/
def sStop (f : Region → Region) : State := withRegion (s0.modElem 0 fun x => { x with firings := [] }) f

/-- A state whose region empties itself: its element has no token to start with. -/
def sEmpty : State := withRegion ((sFire []).modElem 0 fun x => { x with firings := [] }) fun g => { g with st := .preempting }

/-- A state with a page request of an age, to which an access of element 0 is attached. -/
def sPage (age : Nat) (replayable : Bool) : State :=
  ((withRegion s0 fun g => { g with save := 4096, replayable := replayable }).modElem 0 fun x => { x with
    acc := [{ (request s0 ⟨d 0, d 0, d 0⟩ (.tgt a1) 0 .ep .ld .elem .rlx 4 false false) with wait := .pri 0 }] }).modPart 0 fun p =>
      { p with fwlim := 10, pageReqs := [⟨0, 0, false, age, false⟩], pralloc := 4 }

theorem meets_regions_stop :
    ([RegionSt.held, .frozen].all fun st => rg0 (sStop fun g => { g with st := st }) fun g => g.waiting == [] && g.rolling == none && g.st == st &&
      (sStop fun g => { g with st := st }).faultsOf R0 g == [] && g.pages.all fun p => decide (p < (sStop id).pages.length)) = true ∧
    (rg0 (sStop fun g => { g with st := .held, waiting := [[]] }) fun g => g.waiting != []) = true ∧
    (rg0 (sTrap 1 fun g => { g with st := .held }) fun g => (sTrap 1 fun g => { g with st := .held }).faultsOf R0 g != []) = true ∧
    (el0 (sTrap 12 fun g => { g with st := .frozen }) fun x => x.rref == R0 && (x.fault.map (·.cls)) == some 12) = true ∧
    ([true, false].all fun a => rg0 (sStop fun g => { g with pre := true, wave := some ⟨0, none, a⟩ }) fun g => g.pre && g.waving == a) = true ∧
    (rg0 sEmpty fun g => sEmpty.emptied R0 g && g.portFault.isNone) = true ∧
    (rg0 (withRegion s0 fun g => { g with st := .preempting }) fun g => !(withRegion s0 fun g => { g with st := .preempting }).emptied R0 g) = true ∧
    (rg0 (withRegion s0 fun g => { g with st := .preempting, preemptAge := 16777216, save := 4096 }) fun g => decide (16777216 ≤ g.preemptAge) && g.replayable) = true ∧
    (rg0 (sStop fun g => { g with st := .preempted }) fun g => g.rolling == none && !g.quotaHeld) = true ∧
    (((sStop id).modPart 0 fun p => { p with equota := 5, eqspent := 5 }).part 0).spent = true ∧
    (rg0 (sStop fun g => { g with st := .swapped, waitPage := some 7 }) fun g => g.waitPage == some 7 && g.rolling == none && !g.pre) = true ∧
    ((sPage 0 true).part 0 |>.pageOpen 0) = true ∧ ((sStop id).part 0 |>.pageOpen 7) = false ∧
    (((sPage 9 true).part 0).pageReqs.find? fun q => q.page == 0) = some ⟨0, 0, false, 9, false⟩ ∧
    ([(1023, true), (1024, true), (1024, false)].all fun q => ((sPage q.1 q.2).part 0).waitLimit == some 1024 && rg0 (sPage q.1 q.2) fun g =>
      g.moves && (sPage q.1 q.2).attached R0 g 0 && la0 (sPage q.1 q.2) fun l => ((sPage q.1 q.2).part 0).launches == [l] && l.regions == [g]) = true := by
  decide +kernel

/-- Commands, pre-emption, resumption, a drain (R252, R334, R342). -/
theorem test_regions_stop :
    (((after (.fccmdResume 0 0 1 0) (sStop fun g => { g with st := .held })).region? R0).map (·.st)) = some .running ∧
    ((after (.fccmdEnd 0 0 1 0) (sStop fun g => { g with st := .held })).launch? L0) = none ∧
    (((after (.preempt R0) s0).region? R0).map (·.st)) = some .preempting ∧
    (((after (.preempt R0) sEmpty).region? R0).map fun g => (g.st, g.out)) = some (.preempted, true) ∧
    (((after (.preemptionTimeout R0) (withRegion s0 fun g => { g with st := .preempting, preemptAge := 16777216, save := 4096 })).region? R0).map
      fun g => (g.st, g.rolling)) = some (.preempted, some false) ∧
    (((after (.resumeRegion R0) (sStop fun g => { g with st := .preempted, out := true })).elem? 0).map (·.set)) = some 1 ∧
    (((after (.faultWaitExpiry 0 0) (sPage 1024 true)).region? R0).map fun g => (g.st, g.waitPage)) = some (.swapped, some 0) ∧
    ((after (.faultWaitExpiry 0 0) (sPage 1024 false)).part 0).fwx = true := by decide +kernel

/-! ### Launches -/

/-- The dwords of an image of one region of one element: p0 is copied to o0. Its dwords stand as the manual's layout gives them (R68 to R76). -/
def imgDw : List Nat :=
  [0x1000000040000, 0x100200000000, 0x16000000001, 0, 0, 0, 0, 0, 0, 0, 0, 0, 0, 0, 0, 0, 0x6000000000000d0, 0x90, 0, 0, 0x410120000000000,
   0x410000000000, 0x10002000000b0, 0, 0x4000000000000000, 0, 0x200000000000000, 0, 0, 0, 0x4000000000000000, 0x200000000000000, 0, 0,
   0x1000000000050, 0x48, 0, 0x400000101000000, 0, 0, 0, 0, 0x7000010000001012, 0xff00000000]

/-- The same with a reserved word for its slot; with two contexts of 456 bytes; and an image whose second element no stream feeds. -/
def imgBad : List Nat := setAt imgDw 42 0x12a01ff00001012
def imgBig : List Nat :=
  setAt (setAt (setAt (imgDw.take 34) 2 0x43800000001) 16 0x6000000000003a8) 22 0x1000200000388 ++
  [0x3000000000328, 0x238, 0, 0x400000101000000, 0, 0, 0, 0, 0x70000100f8001019] ++ List.replicate 31 0x32000108 ++ List.replicate 32 0 ++
  [0x40000000000000e8, 0, 0x405000101000000, 0, 0, 0, 0, 0x7000010050001017] ++ List.replicate 10 0x32000108 ++ List.replicate 11 0
def imgGraph : List Nat :=
  [0x1040000040000, 0x400100200000000, 0x1f000000002, 0, 0, 0, 0, 0, 0, 0, 0, 0, 0, 0, 0, 0, 0x600000000000030, 0xa0, 0x600000000000120,
   0xd0, 0, 0, 0x410120000000000, 0x410000000000, 0x10, 0, 0, 0, 0x810120000000000, 0x810000000000, 0x2000200000100, 0,
   0x4000000000000000, 0, 0x200000000000000, 0, 0, 0x1000000000000, 0x4000000000000000, 0x200000000000000, 0, 0, 0x1000000000050, 0x48, 0,
   0x80000101000000, 0, 0, 0, 0, 0x7000010000001012, 0xff00000000, 0x1001000000000050, 0x48, 0, 0x80000101000000, 0, 0, 0, 0,
   0x7000010000001012, 0x1ff00000100]

/-- The first image with a tensor entry of number 12 (R77). -/
def imgTensor : List Nat :=
  [0x1000000040000, 0x100200000000, 0x1b800000002] ++ List.replicate 13 0 ++ [0x100000000000048, 160, 0x6000000000000d0, 232, 12, 0x7f08000000001,
   0x100000000000, 0, 0, 4, 0, 0, 0, 0, 0, 0x410120000000000, 0x410000000000, 0x10002000000b0, 0, 0x4000000000000000, 0, 0x200000000000000, 0, 0, 0,
   0x4000000000000000, 0x200000000000000, 0, 0, 0x1000000000050, 72, 0, 0x80000101000000, 0, 0, 0, 0, 0x7000010000001012, 0xff00000000]

/-- Memory that holds dwords from an address. -/
def memOf (a : Nat) (ds : List Nat) : List (Nat × Byte) :=
  ((indexed a (ds.flatMap (toBytes 8))).filter fun q => q.2 != 0).map fun q => (q.1, q.2)

/-- A state with partition 0 enabled over one depot; it has mapped one page at IOVA 0, whose bytes these dwords are. -/
def sHost (ds : List Nat) (f : Part → Part) : State :=
  { (State.reset.modPart 0 fun p => f { p with enable := true, depots := 1, pasid := 5, memKey := some 1, mtbase := 0x100000 }) with
    iommu := [⟨0, ⟨0, 0x10000, 4096, true, true⟩⟩], mem := memOf 0x10000 ds }

/-- The dwords of a launch entry of a kind, for queue 0, that waits for nothing: image, next, bindings, kind, waits. -/
def entryDw (kind img wait : Nat) : List Dword :=
  [BitVec.ofNat 64 img, 0x40, 0x100000, BitVec.ofNat 64 (kind * 2 ^ 61 + 1), BitVec.ofNat 64 (wait * 2 ^ 56), 0xFF00000000000000, 0, 0]

theorem meets_launch_chain :
    (let p := (sHost [] fun p => { p with append := [(entryDw 0 0x80 0xFF, 3)] }).part 0
     p.enable && p.queues.length == 8 && p.qseq.length == 8 && p.append == [(entryDw 0 0x80 0xFF, 3)] && p.wengOk 0xFF && !p.wengOk 0x41 &&
     p.wengOk 1 && !p.wengOk 2) = true ∧
    ([(0, true), (0x40, true), (0x20, false), (0x100000, false)].all fun (a, ok) =>
      let s := sHost [] fun p => { p with lcbase := BitVec.ofNat 64 a, lctail := 1 }
      (s.part 0).append.isEmpty && !(s.part 0).lcCflt && ((s.part 0).lctail - (s.part 0).lchead) == 1 &&
      (if ok then a % 64 == 0 && (s.ioDwords 0 a 8).isSome else a % 64 != 0 || (s.ioDwords 0 a 8).isNone)) = true ∧
    ([(0, true), (0x2000, false)].all fun (a, ok) =>
      let s := sHost [] fun p => { p with lcbase := BitVec.ofNat 64 a, lctail := 1, lchead := 1, lcDue := true }
      (s.part 0).lcDue && ((2 : Word) - (s.part 0).lchead).toNat == 1 && (s.ioDword 0 ((s.part 0).lcbase.toNat + 8)).isSome == ok) = true ∧
    (let p := (sHost [] fun p => { p with lctail := 2 }).part 0
     (p.lctail - (p.lchead + 1)).toNat = 1) := by decide +kernel

/-- The tail may not fall back; an entry of the chain is taken; an entry whose wait names no engine has completed; an address that cannot be
read ends the chain (R221, R222, R235). -/
theorem test_launch_chain :
    (((after (.lctailWrite 0 5) (sHost [] id)).part 0).lctail, ((after (.lctailWrite 0 0x80000000) (sHost [] id)).part 0).lcBack) = (5, true) ∧
    (let p := (after (.takeLaunchEntry 0) (sHost ((entryDw 0 0x80 0xFF).map (·.toNat)) fun p => { p with lctail := 1 })).part 0
     (p.lchead, p.lcbase, p.lcDue, (p.queues.getD 0 []).length, p.qseq.head?) = (1, 0, true, 1, some 0)) ∧
    (let p := (after (.takeLaunchEntry 0) (sHost ((entryDw 0 0x80 0xFF).map (·.toNat)) fun p => { p with lctail := 2 })).part 0
     (p.lchead, p.lcbase, p.lcDue) = (1, 0x40, false)) ∧
    (let p := (after (.lctailWrite 0 2) (sHost ((entryDw 0 0x80 0xFF).map (·.toNat)) fun p => { p with lctail := 1, lchead := 1, lcDue := true })).part 0
     (p.lctail, p.lcbase, p.lcDue) = (2, 0x40, false)) ∧
    (let p := (after (.takeLaunchEntry 0) (sHost ((entryDw 0 0x80 2).map (·.toNat)) fun p => { p with lctail := 1 })).part 0
     (p.lchead, (p.queues.getD 0 []).length, p.qseq.head?) = (1, 0, some 1)) ∧
    ((after (.takeLaunchEntry 0) (sHost [] fun p => { p with lctail := 1, lcbase := 0x2000 })).part 0).lcCflt = true := by decide +kernel

/-- A state whose queue 0 has an entry, with an image in the partition's page. -/
def sEntry (ds : List Nat) (x : QEntry) : State := sHost ds fun p => { p with queues := setAt p.queues 0 [x], taken := setAt p.taken 0 1 }

/-- An entry of the host chain or of a LAUNCH, of a kind, with its image. -/
def entryOf (kind img : Nat) (dev : Bool) : QEntry := ⟨entryDw kind img 0xFF, 0xFC0, dev, 1, none⟩

/-- Queue 0 alone has a head, and it may start. -/
theorem served_alone (s : State) (x : QEntry) (h : ((s.part 0).queues.getD 0 []).head? = some x) (hs : s.startable 0 x = true)
    (he : ∀ r, r < 8 → r ≠ 0 → ((s.part 0).queues.getD r []).head? = none) : Served s 0 0 x := by
  refine ⟨by decide, h, hs, fun r hr hn y hy => ?_⟩
  rw [he r hr hn] at hy
  cases hy

/-- A state with a launch of one region, placed, as the target of reconfigure entries: an entry that names its region 0. -/
def sTarget (ds : List Nat) (x : QEntry) : State :=
  (sEntry ds x).modPart 0 fun p => { p with launches := [freshLaunch ⟨0, 0, 1⟩ [freshRegion 1 1 0 0 [0] []] [onePage]] }

/-- Of a reconfigure entry that may start and whose target runs: what decides (2 the layout, 1 the checks, 4 an element out of use, 3 the contexts), and whether the contexts
of its region fit. -/
def reconf (kind : Nat) (ds es : List Nat) (usable : BitVec 16) : Option (Nat × Bool) :=
  let x := entryOf kind 0 false
  let s := (sTarget ds x).modPage 0 fun g => { g with usable := usable }
  let u := servedState s 0 0
  if !s.startable 0 x then none
  else match u.launch? (x.target 0), u.region? ⟨x.target 0, x.region⟩, u.readImage 0 0 == some es with
    | some l, some g, true =>
      match imageOf (x.kind == 2) es with
      | .error _ => some (2, false)
      | .ok m =>
        match validate (u.grants 0 l.pword l.regions.length) (x.kind == 2) m with
        | .error _ => some (1, false)
        | .ok vs => some (if u.outOfUse g (elemRecords m g (if x.region < vs.length then x.region else 0)) then 4 else 3,
            (contextBytes m g (if x.region < vs.length then x.region else 0)).all fun b => decide (b ≤ 448))
    | _, _, _ => none

theorem meets_entries :
    ([(entryOf 3 0x80 false), (entryOf 7 0x80 false), (entryOf 2 0x80 true), (entryOf 1 0 true), (entryOf 2 0 false), (entryOf 0 0x1000 false),
      (entryOf 0 0x40 true)].all fun x =>
      let s := sEntry [] x
      (s.part 0).enable && (s.part 0).queues.length == 8 && ((s.part 0).queues.getD 0 []).head? == some x && s.startable 0 x &&
      ((List.range 8).all fun r => r == 0 || ((s.part 0).queues.getD r []).head?.isNone) &&
      ((servedState s 0 0).region? ⟨x.target 0, x.region⟩).isNone && ((servedState s 0 0).readImage 0 (x.d 0)).isSome == decide (x.d 0 = 0x80 ∨ x.d 0 = 0)) = true ∧
    reconf 1 imgDw imgDw 0xFFFF = some (3, true) ∧ reconf 2 imgBad imgBad 0xFFFF = some (3, true) ∧ reconf 1 imgBad imgBad 0xFFFF = some (1, false) ∧
    reconf 1 imgDw imgDw 0xFFFE = some (4, true) ∧ reconf 1 (imgDw.take 3) (imgDw.take 3 ++ List.replicate 41 0) 0xFFFF = some (2, false) := by decide +kernel

theorem meets_reconfigure_big : (match imageOf false imgBig with
    | .error _ => false
    | .ok m => match validate ((sTarget [] (entryOf 1 0 false)).grants 0 0 1) false m with
      | .error _ => false
      | .ok _ => (contextBytes m (freshRegion 1 1 0 0 [0] []) 0) == [456]) = true := by decide +kernel

/-- What becomes of the head of queue 0 of a state, a launch: of these dwords: which stage decides, and its code (R216 to R218, R223). -/
def stageOf (s : State) (x : QEntry) (es : List Nat) : Nat × Nat :=
  let u := servedState s 0 0
  if (u.powerRefusal 0 0).isSome then (9, ((u.powerRefusal 0 0).getD 0) / 2 ^ 56)
  else match u.readHeader 0 (x.d 0) with
  | none => (0, 0x10)
  | some hs =>
    match u.headRefusal 0 (headerOf hs) with
    | some r => (1, r / 2 ^ 56)
    | none =>
      let v := u.count 0 0
      if v.readImage 0 (x.d 0) != some es then (10, 0x10)
      else match imageOf false es with
      | .error e => (2, e.word / 2 ^ 56)
      | .ok m =>
        match validate (v.grants 0 m.head.pword m.head.nreg) false m with
        | .error e => (3, e.word / 2 ^ 56)
        | .ok vs =>
          match m.graphErr ⟨0, 0, x.seq⟩ vs (v.bindings 0 (x.d 2)), v.placeLaunch 0 x m (placedElems ⟨0, 0, x.seq⟩ m vs) with
          | some r, _ => (4, r / 2 ^ 56)
          | none, (.refused r, _) => (5, r / 2 ^ 56)
          | none, (.waits, _) => (6, 0)
          | none, (.ok gs is dyad tracks, spots) =>
            match v.loadTables (loadedLaunch v 0 0 x m spots gs is dyad tracks) m with
            | .error q => (7, q.1)
            | .ok _ => (8, 0)

/-- A state whose queue 0 has a launch of an image, with its management, its partition and its pages changed. -/
def sLaunch (ds : List Nat) (f : Mgmt → Mgmt) (h : Part → Part) : State :=
  let s := (sEntry ds (entryOf 0 0 false)).modPart 0 h
  { s with mgmt := f s.mgmt }

/-- A launch that holds every page of a depot. -/
def fullLaunch : Launch := freshLaunch ⟨0, 1, 1⟩ [freshRegion 16 16 0 0 [0, 1, 2, 3] []] [onePage]

/-- Whether a launch may start, at which stage it is decided, and what is left of it. -/
def startsAt (s : State) (es : List Nat) : List Nat :=
  if s.startable 0 (entryOf 0 0 false) then [(stageOf s (entryOf 0 0 false) es).1, (stageOf s (entryOf 0 0 false) es).2] else []

/-- What the start of the head of queue 0 leaves: launches, entries of the queue, and its number. -/
def leftOf (p : Part) : List Nat := [p.launches.length, (p.queues.getD 0 []).length, (p.qseq.getD 0 0).toNat]
def left (s : State) : List Nat := leftOf ((after (.startEntry 0) s).part 0)

/-- The stages of a launch, one by one: each is met, and decides. -/
theorem meets_starts :
    startsAt (sLaunch imgDw (fun m => { m with cap := 0 }) id) imgDw = [9, 0x46] ∧
    startsAt (sLaunch [] (fun m => { m with cap := 0 }) id) [] = [9, 0x46] ∧
    startsAt (sLaunch (setAt imgDw 0 0x10000FFFFFFFF) id id) (setAt imgDw 0 0x10000FFFFFFFF) = [1, 0x40] ∧
    startsAt (sLaunch (imgDw.take 3) id id) (imgDw.take 3 ++ List.replicate 41 0) = [2, 0x10] ∧
    (let s := sEntry (List.replicate 496 0 ++ imgDw.take 16) (entryOf 0 0xF80 false)
     s.startable 0 (entryOf 0 0xF80 false) = true ∧ stageOf s (entryOf 0 0xF80 false) [] = (10, 0x10)) ∧
    (let s := sEntry [] (entryOf 0 0x1000 false)
     s.startable 0 (entryOf 0 0x1000 false) = true ∧ stageOf s (entryOf 0 0x1000 false) [] = (0, 0x10)) ∧
    startsAt (sLaunch imgBad id id) imgBad = [3, 0x06] ∧
    startsAt (sLaunch imgGraph id id) imgGraph = [4, 0x1A] := by decide +kernel

theorem meets_starts_placed :
    startsAt { sLaunch imgDw id id with pages := List.replicate 256 { usable := 0 } } imgDw = [5, 0x30] ∧
    startsAt (sLaunch imgDw id fun p => { p with launches := [fullLaunch] }) imgDw = [6, 0] ∧
    startsAt (sLaunch imgTensor id id) imgTensor = [7, 0x43] ∧
    startsAt (sLaunch imgDw id id) imgDw = [8, 0] := by decide +kernel

/-- A launch refused by its checks leaves its queue with its number advanced; one that passes every stage runs; one without pages waits. -/
theorem test_starts :
    left (sLaunch imgBad id id) = [0, 0, 1] ∧ left (sLaunch imgDw id fun p => { p with launches := [fullLaunch] }) = [1, 1, 0] := by decide +kernel

theorem test_runs : left (sLaunch imgDw id id) = [1, 0, 0] := by decide +kernel

/-- A state whose launch has waited with its image. -/
def sRetry : State := sEntry [] { entryOf 0 0 false with img := some imgDw }

theorem meets_retry :
    (match imageOf false imgDw with
     | .error _ => false
     | .ok m => match validate (sRetry.grants 0 m.head.pword m.head.nreg) false m with
       | .error _ => false
       | .ok vs =>
         ((sRetry.tryLaunch 0 0 { entryOf 0 0 false with img := some imgDw } imgDw m vs).part 0).queues.all (·.isEmpty)) = true ∧
    (sRetry.part 0).queues.map (·.length) = [1, 0, 0, 0, 0, 0, 0, 0] := by decide +kernel

/-- The levels of LQPRI come first, and a level takes its queues in turn (R224). -/
theorem test_serves :
    (let s := fun (pri last : Nat) => (sHost [] fun p => { p with lqpri := BitVec.ofNat 16 pri, qlast := setAt p.qlast 0 last, queues := setAt (setAt p.queues 2 [entryOf 3 0 false]) 5 [entryOf 3 0 false] })
     [(0, 7), (0, 2), (0, 5), (0x0010, 7)].map fun q => ((after (.startEntry 0) (s q.1 q.2)).part 0).queues.map (·.length)) =
    [[0, 0, 0, 0, 0, 1, 0, 0], [0, 0, 1, 0, 0, 0, 0, 0], [0, 0, 0, 0, 0, 1, 0, 0], [0, 0, 1, 0, 0, 0, 0, 0]] := by decide +kernel

/-- A launch that has fallen quiet, one that HALTR stops, and one that works. -/
def sQuiet (ins : Bool) (f : Launch → Launch) : State :=
  (s0.modElem 0 fun x => { x with firings := if ins then x.firings else [] }).modLaunch L0 f

theorem meets_completes :
    (la0 (sQuiet false id) fun l => (sQuiet false id).quietLaunch l && l.ref == L0) = true ∧
    (la0 (sQuiet true id) fun l => !(sQuiet true id).quietLaunch l && !l.halting) = true ∧
    (la0 (sQuiet false fun l => { l with halting := true }) fun l => l.halting && (sQuiet false fun l => { l with halting := true }).halted l &&
      l.regions.all fun g => g.wave.isNone) = true := by decide +kernel

/-- The launch completes, and its queue's number advances (R225, R264). -/
theorem test_completes :
    (((after (.launchComplete L0) (sQuiet false id)).launch? L0).isSome, ((after (.launchComplete L0) (sQuiet false id)).part 0).qseq.head?,
      ((after (.launchComplete L0) (sQuiet true id)).launch? L0).isSome) = (false, some 1, true) := by decide +kernel

/-! ### Engines and the graph sequencer -/

/-- The words of an engine entry: a fill, a copy within element 0, a barrier report, and a link put, of 8 bytes; its notify target. -/
def engDw (kind flags len src dst notify peer : Nat) : List Dword :=
  [BitVec.ofNat 64 src, BitVec.ofNat 64 dst, 0x40, BitVec.ofNat 64 (kind * 0x2000000000000000 + flags * 0x0800000000000000 + len),
   BitVec.ofNat 64 notify, BitVec.ofNat 64 (peer * 0x0040000000000000), 0, 0]

/-- An entry in the engine. -/
def engX (dw : List Dword) (q : Nat) (st : EntrySt) (done : Nat) : EngEntry := ⟨dw, none, q, st, done, 0, 0, .no, []⟩

/-- The small state with an engine of its partition, and with one dword of bytes in element 0's scratchpad. -/
def sEng (g : Nat) (f : Engine → Engine) : State :=
  (s0.modElem 0 fun x => { x with cur := { x.cur with scratch := [(0x10, 1), (0x11, 2), (0x12, 3)] } }).modEng 0 g f

/-- The small state of a host, with an engine that may take an entry of its chain. -/
def sEngHost (ds : List Dword) (f : Engine → Engine) : State := (sHost (ds.map (·.toNat)) id).modEng 0 0 f

theorem meets_engine_chain :
    (let s := sEng 1 fun e => { e with stop := true, entries := [engX (engDw 2 2 8 0x55 0x20 0 0) 1 .failed 0] }
     let e := (s.part 0).eng 1
     (s.part 0).enable && (s.part 0).hasEng 0 && (s.part 0).hasEng 1 && (s.part 0).hasEng 64 && !(s.part 0).hasEng 8 && e.stop &&
     (e.entries.find? (fun x => x.st == .failed)).isSome && e.doneSeqs == [] && e.entries.all fun x => decide (x.seq = (e.seq + 1).toNat)) = true ∧
    (let e := (sEng 1 fun e => { e with append := [(1, engDw 2 2 8 0x55 0x20 0 0)] }).part 0 |>.eng 1
     !e.stop && e.waiting.isNone && e.append.length == 1 && !e.pause && decide (e.entries.length < 4) && e.entries.all fun x => !x.wait.withholds) = true ∧
    ([(0, true), (0x40, true), (0x20, false), (0x2000, false)].all fun (a, ok) =>
      let s := sEngHost [] fun e => { e with base := BitVec.ofNat 64 a, tail := 1 }
      let e := (s.part 0).eng 0
      e.append.isEmpty && !e.cflt && (e.tail - e.head) == 1 && (if ok then e.base.toNat % 64 == 0 && (s.ioDwords 0 e.base.toNat 8).isSome
        else e.base.toNat % 64 != 0 || (s.ioDwords 0 e.base.toNat 8).isNone)) = true := by decide +kernel

/-- An entry of the chain is taken with its number; skip completes a failed one, retry starts it again (R314, R317, R326). -/
theorem test_engine_chain :
    (let e := (after (.takeEngineEntry 0 0) (sEngHost (engDw 2 2 8 0x55 0x20 0 0) fun e => { e with tail := 1, given := 4 })).part 0 |>.eng 0
     (e.head, e.base, e.given, e.entries.map fun x => (x.seq, x.st))) = (1, 0x40, 5, [(5, .queued)]) ∧
    (let e := (after (.encmdSkip 0 1) (sEng 1 fun e => { e with stop := true, entries := [engX (engDw 2 2 8 0x55 0x20 0 0) 1 .failed 0] })).part 0 |>.eng 1
     (e.stop, e.seq, e.entries.length)) = (false, 1, 0) ∧
    (let e := (after (.encmdRetry 0 1) (sEng 1 fun e => { e with stop := true, entries := [engX (engDw 2 2 8 0x55 0x20 0 0) 1 .failed 0] })).part 0 |>.eng 1
     (e.stop, e.seq, e.entries.map (·.st))) = (false, 0, [.queued]) := by decide +kernel

/-- A state of engine `g` with one entry to start. -/
def sOne (g : Nat) (dw : List Dword) : State := sEng g fun e => { e with entries := [engX dw 1 .queued 0] }

/-- Whether an entry is the next of its engine, reserved, or with a bad target. -/
def kindOf (g : Nat) (dw : List Dword) : Bool × Bool × Bool :=
  let s := sOne g dw
  (((s.part 0).eng g).nextEntry == some (engX dw 1 .queued 0), (engX dw 1 .queued 0).reserved g, s.badTarget 0 (engX dw 1 .queued 0))

theorem meets_engine_entries :
    kindOf 0 (engDw 6 0 8 0 0 0 0) = (true, true, false) ∧ kindOf 0 (engDw 2 2 0 0x55 0x20 0 0) = (true, true, false) ∧
    kindOf 0 (engDw 2 2 8 0x55 0x0004000000000020 0 0) = (true, false, true) ∧
    kindOf 64 (engDw 4 0 8 0 0 0 3) = (true, false, false) ∧ (sOne 64 (engDw 4 0 8 0 0 0 3)).peerOk 0 3 = false ∧
    kindOf 0 (engDw 2 2 8 0x55 0xBFF8 0 0) = (true, false, false) ∧ kindOf 0 (engDw 0 3 8 0x10 0x11 0 0) = (true, false, false) ∧
    (el0 (sOne 0 (engDw 0 3 8 0x10 0x11 0 0)) fun x => !(sOne 0 []).outOf x && x.cur.scratch.wf && decide (0xBFF8 + 8 ≤ x.scrBytes)) = true ∧
    (((sEng 0 id).part 0).eng 0).nextEntry = none := by decide +kernel

/-- Entries that have performed their bytes, with their notify targets: nothing, barrier 95, the sync word at 0x30. -/
def sDone (notify : Nat) : State := sEng 0 fun e => { e with entries := [engX (engDw 2 2 8 0x55 0x20 notify 0) 1 .flight 8] }

theorem meets_engine_complete :
    ([0, 0x4000000000000000 + 95 * 0x2000000000, 0x8000000000000030].all fun notify =>
      let s := sDone notify
      match ((s.part 0).eng 0).entries.find? (fun x => x.seq == 1 && x.st == .flight && decide (x.len ≤ x.bytes)) with
      | none => false
      | some x => !s.badTarget 0 x && (x.nkind == 0 || s.reachable x.ntgt) && x.nkind == notify / 0x4000000000000000 && ((s.part 0).eng 0).doneSeqs == []) = true ∧
    (let s := withRegion (sDone 0x8000000000000030) fun g => { g with st := .preempted }
     !s.reachable 0 && s.inPart 0 0) = true := by decide +kernel

/-- A fill, the first piece of a copy onto itself in increasing order, a failed entry, and a report to a sync word (R307, R316, R317, R319). -/
theorem test_engine_entries :
    ((after (.engineEntryStart 0 0) (sOne 0 (engDw 2 2 8 0x0102 0x20 0 0))).elem? 0).map (fun x => ([0x20, 0x21, 0x22, 0x12].map x.cur.scratch.get)) = some [2, 1, 0, 3] ∧
    ((after (.engineEntryStart 0 0) (sOne 0 (engDw 0 3 8 0x10 0x11 0 0))).elem? 0).map (fun x => ([0x10, 0x11, 0x12, 0x18, 0x19].map x.cur.scratch.get)) =
      some [1, 1, 3, 0, 0] ∧
    (let p := (after (.engineEntryStart 0 0) (sOne 0 (engDw 6 0 8 0 0 0 0))).part 0
     ((p.eng 0).stop, (p.eng 0).entries.map fun x => (x.st, x.code), p.msi) = (true, [(.failed, 0x60)], [0, 0, 1, 0])) ∧
    (let t := after (.engineEntryComplete 0 0 1) (sDone 0x8000000000000030)
     (((t.part 0).eng 0).seq, ((t.part 0).eng 0).entries.length) = (1, 0)) := by decide +kernel

/-- A task of one operand: operator 5, tensor 12 from tile (0, 0), `n0` positions. -/
def taskDw (n0 : Nat) : List Dword := [0x0054000000000000, 0x000C000000000000, 0, 0, BitVec.ofNat 64 (0x10000 + n0), 0, 0x40, 1]
def piece0 : Piece := ⟨0, 2, [0x000C000000000000, 0, 0], [0], 0, none, none, false⟩
def src0 : TaskSrc := ⟨L0, 0, 0, false, 1⟩
def task0 (src : Option TaskSrc) (ps : List Piece) : Task := ⟨taskDw 2, none, 1, src, true, ps, [], false, .no⟩

/-- A method entry: action, wildcards, operand 0's tag, image, section. -/
def method0 (action wild tag img sect : Nat) : List Dword :=
  [BitVec.ofNat 64 (action * 0x4000000000000000 + 5 * 0x4000000000000 + 0x1000000000000 + wild * 0x8000000000 + tag), BitVec.ofNat 64 img,
   BitVec.ofNat 64 (sect * 0x0400000000000000), 0]

/-- The small state whose sequencer has these methods and tasks; its launch is of image 0x80, and its region is fed at p7. -/
def sSeq (ms : List (Nat × List Dword)) (ts : List Task) : State :=
  ((withRegion s0 fun g => { g with streams := [{ plain with prod := .elem 0 7, cons := .regOut 7, out := [d 1] }] }).modLaunch L0
    fun l => { l with image := 0x80 }).modGs 0 fun g => { g with loaded := true, methods := ms, tasks := ts }

/-- Its sequencer knows tensor 12: 4,096 bytes, untyped. -/
def knowsTensor (s : State) : State :=
  match imageOf false imgTensor with
  | .error _ => s
  | .ok m => (s.modPart 0 fun p => { p with ttlim := 100 }).modGs 0 fun g =>
      { g with cache := { g.cache with desc := m.tensors.map fun r => ⟨12, r.entryWith [], []⟩ } }

theorem meets_tasks :
    (let g := (sSeq [] [task0 none [piece0]]).part 0 |>.gs
     !g.stop && g.waiting.isNone && g.append.isEmpty && !g.cflt && g.tasks.all fun t => !t.wait.withholds && t.cut) = true ∧
    ([some R0, none].all fun r =>
      let s := (sSeq [] [{ task0 none [{ piece0 with running := r }] with stopped := true }]).modGs 0 fun g => { g with stop := true }
      (s.part 0).gs.stop && ((s.part 0).gs.tasks.find? fun t => t.stopped && t.src.isNone).isSome && (taskDw 2).length == 8 && !(s.part 0).mtBusy) = true ∧
    ([(0, true), (0x20, false), (0x2000, false)].all fun (a, ok) =>
      let s := (sHost [] id).modGs 0 fun g => { g with base := BitVec.ofNat 64 a, tail := 1 }
      (((s.part 0).gs.tail - (s.part 0).gs.head) == 1) && (s.part 0).enable &&
      (a % 64 == 0 && (s.ioDwords 0 a 8).isSome) == ok) = true ∧
    (((sSeq [] []).modGs 0 fun g => { g with append := [(taskDw 2, src0)] }).part 0).gs.append.length = 1 ∧
    (let s := knowsTensor (sSeq [] [{ task0 none [] with cut := false }])
     match s.keysFrom 0 { task0 none [] with cut := false } 1 0 with
     | .ok ks u => ks == [[0]] && decide (0 < u.parts.length)
     | _ => false) = true := by decide +kernel

/-- Tasks are taken; equal keys make one piece, and the next key begins another (R375, R376). -/
theorem test_tasks :
    (let g := (after (.takeTask 0) ((sHost ((taskDw 2).map (·.toNat)) id).modGs 0 fun g => { g with tail := 1, given := 6 })).part 0 |>.gs
     (g.head, g.base, g.tasks.map (·.seq))) = (1, 0x40, [7]) ∧
    ((task0 none []).piecesOf [[3], [3], [4], [3]]).map (fun p => (p.p0, p.pn)) = [(0, 2), (2, 1), (3, 1)] ∧
    ((after (.gscmdRetry 0) ((sSeq [] [{ task0 none [piece0] with stopped := true }]).modGs 0 fun g => { g with stop := true })).part 0).gs.stop = false ∧
    ((after (.mtinvWrite 0 0x10000) (sSeq [(1, method0 1 0 0 0x80 0)] [])).part 0).mtBusy = true := by decide +kernel

/-- What is decided about the one piece of a task, with these methods: those that match best, and whether the piece can be sent. -/
def pieceOk (s : State) (src : Option TaskSrc) (p : Piece) : Bool :=
  s.task? 0 1 == some (task0 src [p]) && (s.part 0).enable && !(s.part 0).spent && (task0 src [p]).status != 0x65 && idlePieces 0 [p] == [(0, p)] &&
    (match s.methods 0 (.seq 0) with
     | .ok _ u => decide (0 < u.parts.length) && !(u.part 0).gs.stop && (u.part 0).gs.waiting.isNone
     | _ => false)

theorem meets_pieces :
    ([none, some src0].all fun src =>
      pieceOk (sSeq [] [task0 src [piece0]]) src piece0 && pieceOk (sSeq [(2, method0 3 0 0 0 0)] [task0 src [piece0]]) src piece0 &&
      pieceOk (sSeq [(2, method0 2 0 0 0 0)] [task0 src [{ piece0 with depth := 2 }]]) src { piece0 with depth := 2 } &&
      pieceOk (sSeq [(2, method0 1 0 0 0x100 0)] [task0 src [piece0]]) src piece0 && pieceOk (sSeq [(2, method0 1 0 0 0x80 0)] [task0 src [piece0]]) src piece0) = true ∧
    (meBest ((task0 none [piece0]).key piece0) [(2, method0 1 0 0 0x80 0)] == some (2, method0 1 0 0 0x80 0) &&
      meBest ((task0 none [piece0]).key piece0) [] == none) = true ∧
    (let s := sSeq [(2, method0 1 0 0 0x80 0)] [task0 none [piece0]]
     ((s.part 0).launchOf 0x80).map (·.ref) == some L0 && ((s.part 0).launchOf 0x100).isNone && rg0 s (fun g => g.ins.length == 8) &&
     !(s.part 0).gs.behind [(2, method0 1 0 0 0x80 0)] 1 0 (0x80, 0) && (s.part 0).gs.tasks.all fun x => x.pieces.all fun c => c.running.isNone) = true ∧
    (((sSeq [] []).modPart 0 fun p => { p with equota := 5, eqspent := 5 }).part 0).spent = true := by decide +kernel

/-- A state whose section has a token at o7 for a running piece. -/
def sPiece (p : Piece) (rest : List Piece) (quiet : Bool) : State :=
  (withRegion (sSeq [] [task0 none (p :: rest)]) fun g => { g with gated := true }).modElem 0 fun x => { x with
    acc := if quiet then [] else [request s0 ⟨d 0, d 0, d 0⟩ (.tgt a1) 0 .ep .st .elem .rlx 4 false false] }

theorem meets_piece_complete :
    ([{ piece0 with running := some R0 }, { piece0 with running := some R0, conv := some (0, 8, 3) }].all fun p => [[], [piece0]].all fun rest =>
      let s := sPiece p rest true
      rg0 s (fun g => g.gated && g.moves && (g.outs.getD 7 {}).bind.isNone && (g.outs.getD 7 {}).suppress == 0 &&
        ((g.outStream 7).map fun q => q.2.out) == some [d 1]) && la0 s (fun l => l.fromOut 0 7 == []) &&
      s.epQuiet 0 && !(sPiece p rest false).epQuiet 0 && (s.part 0).gs.runningAt R0 == some (1, 0) &&
      (s.task? 0 1).map (fun k => k.cut && !k.stopped && k.status != 0x65) == some true) = true := by decide +kernel

/-- A piece is sent to its section, fails without a method, and completes its task; a conversion makes way for its piece (R376 to R379). -/
theorem test_pieces :
    (((after (.pieceStart 0 1) (sSeq [(2, method0 1 0 0 0x80 0)] [task0 none [piece0]])).region? R0).map fun g =>
      [b2n g.gated, g.tiles, ((g.ins.getD 7 {}).q.map fun t => (el 64 t.data 5).toNat).sum]) = some [1, 2, 0x200000000] ∧
    (let p := (after (.pieceStart 0 1) (sSeq [] [task0 none [piece0]])).part 0
     (p.gs.stop, p.gs.tasks.map (·.status))) = (true, [0x70]) ∧
    (((after (.pieceStart 0 1) (sSeq [] [task0 (some src0) [piece0]])).elem? 0).bind fun x => x.fault.map fun f => (f.cls, f.cause)) = some (4, 0) ∧
    ((after (.pieceComplete R0) (sPiece { piece0 with running := some R0 } [] true)).part 0).gs.tasks = [] ∧
    ((after (.pieceComplete R0) (sPiece { piece0 with running := some R0, conv := some (0, 8, 3) } [] true)).task? 0 1).map
      (fun t => t.pieces.map fun p => (p.depth, p.tags, p.ops.head?, p.done)) = some [(1, [8], some 0x0003000000000000, false)] := by decide +kernel

/-! ### What accesses do as they are performed -/

/-- A tensor entry of one-byte elements: a tag, whether it is versioned, its pattern, its sizes along two dimensions, from IOVA 0 over two pages. -/
def entryD (tag : Nat) (ver : Bool) (pat rows cols : Nat) : BitVec 512 :=
  BitVec.ofNat 512 ([2 ^ 62 + tag * 2 ^ 52 + (if ver then 2 ^ 43 else 0) + 2 ^ 37 + pat * 2 ^ 16 + 1, cols * 2 ^ 32 + rows, cols, 0, 2].foldr
    (fun v acc => v + 2 ^ 64 * acc) 0)

/-- Caches that know two pages and the tensors 12 (versioned), 13 (FP8 tiles) and 14 (the pattern of index 1). -/
def known2 : ReqCache :=
  { tlb := [⟨0, 0x10000, 4096, true, true⟩, ⟨0x1000, 0x11000, 4096, true, true⟩]
    desc := [⟨12, entryD 0 true 0 16 256, []⟩, ⟨13, entryD 0x100 false 0 16 16, []⟩, ⟨14, entryD 0x108 false 1 16 16, []⟩] }

/-- A state whose element 0 has them on every path and whose page 0 has been changed. -/
def sObj (f : Page → Page) : State :=
  let s := ((s0.modElem 0 fun x => { x with ports := List.replicate 4 known2 }).modPart 0 fun p => { p with ttlim := 100 }).modPage 0 fun g =>
    f { g with gs := known2, tf := known2 }
  { s with mem := [(0x10010, 0x80), (0x10011, 0xFF), (0x10013, 1)] }

/-- An access of element 0 to an offset of a tensor, with data at L to T. -/
def accOf (op : AccOp) (path : Path) (scope : Scope) (ord : Ord) (tid off : Nat) (r t : Payload) : Access :=
  request s0 ⟨d (lanes [off, tid * 65536]), d r, d t⟩ (.tgt a1) 0 path op scope ord 4 false false

/-- A plan succeeds and has a property. -/
def okAnd {α : Type} (r : XRes α) (f : α → State → Bool) : Bool :=
  match r with
  | .ok v t => f v t
  | _ => false

/-- A line of a slice in a state, with pins; the twelve lines of a set. -/
def lineOf (k : Nat) (st : LineSt) (pins hard : Nat) : Line := ⟨k, false, st, 5, pins, hard, false, none, [], false⟩
def setFull (hard : Nat) : List Line := (List.range 12).map fun k => lineOf (0x200 + Config.sliceSets * (k + 1)) .clean 1 hard

/-- Versions of line 0x200. -/
def versOf (vs : List (BitVec 16 × BitVec 1024)) : VEntry := ⟨L0, 0x200, vs, [], false⟩

/-- At the home slice of a plan's line: its entry, that slice's number of entries, the pinned lines of its set, and a way for a version. -/
def atHome (p : Plan) (t : State) (f : Option VEntry → Nat → Nat → Bool → Bool) : Bool :=
  let h := t.home 0 (p.pa / 128)
  decide (h < t.pages.length) && !(t.page h).halted && f ((t.page h).ventry (p.pa / 128)) (t.page h).vdir.length
    ((t.page h).setPins (Machine.setOf (p.pa / 128))) (t.freeWay 0 h (Machine.setOf (p.pa / 128))).isSome

/-- Whether a version number is live, or future. -/
def isLive (old new v : BitVec 16) : Bool := decide ((v - old).toNat ≤ (new - old).toNat)
def isFuture (new v : BitVec 16) : Bool := decide (1 ≤ (v - new).toNat ∧ (v - new).toNat < 2 ^ 15)

theorem isLive_iff (o n v : BitVec 16) : isLive o n v = true ↔ liveVersion o n v := by simp [isLive, liveVersion]

theorem isFuture_iff (n v : BitVec 16) : isFuture n v = true ↔ futureVersion n v := by simp [isFuture, futureVersion]

theorem meets_versions :
    ([(2, true, false), (1, true, false), (3, false, true), (0, false, false)].all fun q =>
      let a := accOf .ldv .ep .elem .rlx 12 0x10 (lanes [q.1]) 0
      okAnd (planRead true 0 (a.req 0) a (sObj fun g => { g with vdir := [versOf [(1, 0), (2, 5)]] })) fun p t =>
        isLive 1 2 (verAt a) == q.2.1 && isFuture 2 (verAt a) == q.2.2 &&
        atHome p t fun v _ _ _ => v == some (versOf [(1, 0), (2, 5)])) = true ∧
    (let a := accOf .stv .ep .elem .rlx 12 0x10 (lanes [7]) 0
     let four := versOf [(1, 0), (2, 0), (3, 0), (4, 5)]
     okAnd (planWrite true 0 (a.req 0) a (sObj fun g => { g with vdir := [four] })) (fun p t => atHome p t fun v _ _ _ => v == some four) &&
     okAnd (planWrite true 0 (a.req 0) a (sObj fun g => { g with vdir := [versOf [(1, 5)]], lines := setFull 1 }))
       (fun p t => atHome p t fun v _ k _ => v == some (versOf [(1, 5)]) && decide (12 ≤ k)) &&
     okAnd (planWrite true 0 (a.req 0) a (sObj fun g => { g with vdir := [versOf [(1, 5)]] }))
       (fun p t => atHome p t fun v _ k w => v == some (versOf [(1, 5)]) && decide (k < 12) && w)) = true ∧
    (let a := accOf .recl .ep .elem .rlx 12 0x10 (lanes [2]) 0
     okAnd (planRecl 0 (a.req 0) a (sObj fun g => { g with vdir := [versOf [(1, 0), (2, 5)]] })) fun p t =>
       atHome p t fun v _ _ _ => v == some (versOf [(1, 0), (2, 5)])) = true ∧
    (let a := accOf .ldv .ep .elem .rlx 12 0x10 0 0
     okAnd (planRead true 0 (a.req 0) a (sObj id)) (fun p t => verAt a == 0 && atHome p t fun v n k w => v.isNone && decide (n < 2048) && decide (k < 12) && w) &&
     okAnd (planRead true 0 (a.req 0) a (sObj fun g => { g with vdir := List.replicate 2048 ⟨L0, 0x300, [], [], false⟩ }))
       (fun p t => atHome p t fun v n _ _ => v.isNone && decide (2048 ≤ n))) = true := by
  decide +kernel

/-- A slice serves a line from a copy, or, with none valid, in a way that is free or can be given up. -/
def servesLine (s : State) (g line : Nat) (res : Bool) : Bool :=
  let pg := s.page g
  let sharers := pg.lines.filter fun l => Machine.setOf l.line == Machine.setOf line && l.resident == (res && pg.resw != 0)
  decide (g < s.pages.length) && !pg.halted && ((pg.line? line).isSome || (pg.lines.all fun l => l.line != line || l.st == .stale) &&
    ((pg.lines.any fun l => l.line == line) || decide (sharers.length < pg.ways (res && pg.resw != 0) (Machine.setOf line)) || sharers.any (·.pins == 0)))

theorem meets_lines :
    ([[], [lineOf 0x200 .dirty 0 0], [lineOf 0x200 .stale 1 1], [lineOf 0x200 .clean 3 0], [lineOf 0x200 .stale 2 2]].all fun ls =>
      let s := (sObj fun g => { g with lines := ls }).modElem 0 fun x => { x with pins := if ls.isEmpty then [] else [(0, 0x200)] }
      let a := accOf .pin .ep .elem .rlx 13 0x10 0 0
      okAnd (planLine 0 (a.req 0) a s) fun p t => t.isPrivate 0 (128 * (p.pa / 128)) == false && p.pa / 128 == 0x200 && servesLine t 0 0x200 p.obj.res &&
        t.mem.wf && (t.page 0).lines == ls && decide ((t.page 0).setPins (Machine.setOf 0x200) < 12) && el0 t fun y => y.pins.isEmpty == ls.isEmpty) = true ∧
    ([0, 1].all fun hard =>
      let a := accOf .pin .ep .elem .rlx 13 0x10 0 0
      okAnd (planLine 0 (a.req 0) a (sObj fun g => { g with lines := setFull hard })) fun _ t =>
        decide (12 ≤ (t.page 0).setPins (Machine.setOf 0x200)) && decide (12 ≤ (t.page 0).setHardPins (Machine.setOf 0x200) (t.holder 0)) == decide (hard = 1)) = true ∧
    (let a := accOf .pref .ep .elem .rlx 15 0x10 0 0
     stopB (planLine 0 (a.req 0) a (sObj id))) = true ∧
    ((({ accOf .fence .ep .dev .ar 0 0 0 0 with wait := .drop } : Access).wait == .drop) && Scope.wide .dev && !Scope.wide .page &&
      (sObj fun g => { g with lines := [lineOf 0x200 .dirty 0 0] }).mem.wf) = true ∧ releases .ar ∧ acquires .ar ∧ 0x10010 % 128 + 4 ≤ 128 := by
  refine ⟨by decide +kernel, by decide +kernel, by decide +kernel, by decide +kernel, .inr rfl, .inr rfl, by decide⟩

/-- A live version is read; a store makes the next; the fences and the writes of a slice reach memory (R261, R269, R279, R284). -/
theorem test_versions_lines :
    (let s := sObj fun g => { g with vdir := [versOf [(1, 0), (2, 5)]], lines := [lineOf 0x201 .dirty 0 0] }
     okAnd (accDo (accOf .ldv .ep .elem .rlx 12 0 (lanes [2]) 0) 0 0 s) (fun q _ => q.1 == d (lanes [5])) &&
     okAnd (accDo (accOf .stv .ep .elem .rlx 12 4 (lanes [9]) 0) 0 0 s) (fun q t => q.1 == d (lanes [3]) &&
       ((t.page 0).vdir.map (·.vers)) == [[(1, 0), (2, 5), (3, 5 + 9 * 2 ^ 32)]]) &&
     okAnd (accDo (accOf .recl .ep .elem .rlx 12 0 (lanes [2]) 0) 0 0 s) (fun _ t => ((t.page 0).vdir.map (·.vers)) == [[(2, 5)]]) &&
     okAnd (accDo (accOf .fence .ep .dev .rel 0 0 0 0) 0 0 s) (fun _ t => t.mem.get 0x10080 == 5 && (t.page 0).lines.map (·.st) == [.clean]) &&
     okAnd (accDo (accOf .flush .ep .elem .rlx 13 0x80 0 0) 0 0 s) (fun _ t => t.mem.get 0x10080 == 5 && (t.page 0).lines == [])) = true := by decide +kernel

/-- Lane by lane, each step succeeds from the state that the one before left. -/
def eachLane {α : Type} (f : LanePlan → State → XRes α) : List LanePlan → State → Bool
  | [], _ => true
  | l :: r, s => okAnd (f l s) fun _ t => eachLane f r t

theorem meets_tiles :
    (let s := sObj id
     let a := accOf .ldt .ep .elem .acq 13 0 (lanes [64]) 0
     (match s.elem? 0 with
      | none => false
      | some x =>
        okAnd (planLdt x 0 (.port 0 a.port) a s) (fun p t => okAnd ((t.accAcquire 0 a).readPieces 0 0 p.obj p.pas) fun _ u => el0 u fun y => y.cur.scratch.wf) &&
        ([(0x100, false), (0, false)].all fun q => okAnd (planStt x 0 (.port 0 0) (accOf .stt .ep .elem .rel 13 0 0 (lanes [q.1])) s) fun p t =>
          t.entryHeld 0 p.entryPas == q.2) &&
        okAnd (planTagr 0 (.port 0 0) (accOf .tagr .ep .elem .rlx 13 0 0 0) s) (fun p _ => !p.entry.testBit 15) &&
        ([true, false].all fun df => okAnd (planTags df 0 (.port 0 0) (accOf (.tags df) .ep .elem .rlx 13 0 (lanes [0x101]) 0) s) fun p t =>
          t.entryHeld 0 p.entryPas == false && p.entryPas.all fun q => !t.isPrivate 0 q.1) &&
        okAnd (planAccv 0 (.port 0 0) (accOf (.accv 3 .rne true) .ep .elem .rlx 13 0 (lanes [0x101]) 0) s) (fun p t =>
          t.entryHeld 0 p.entryPas == false && (fmtOf (tagFmt (tagAt (lanes [0x101])))).isSome && p.pas.all fun q => !t.isPrivate 0 q.1))) = true ∧
    (let s := sObj fun g => { g with halted := true }
     (match s.elem? 0 with
      | none => false
      | some x => waitB (planStt x 0 (.port 0 0) (accOf .stt .ep .elem .rel 13 0 0 0) s) &&
        okAnd (s.object 0 (.port 0 0) 13) fun o t => o.tag != 0 && okAnd (t.spans 0 (.port 0 0) o 3 (toff o.d) 2) fun ps u =>
          okAnd (u.placed 0 (.port 0 0) ps true) fun pas v => v.entryHeld 0 pas)) = true ∧
    ([(13, true), (14, false)].all fun q =>
      let a := accOf (.tfch 3 true false) .tf .elem .rlx q.1 0 0 0
      okAnd (planFetch 0 0 a (sObj id)) (fun p t => okAnd (fetchScales 0 0 a true false p t) fun _ u =>
        match pinLines 0 0 p.obj (linesOf (p.mask ++ p.pas)) u with
        | .done v => okAnd (v.readPieces 0 0 p.obj p.pas) fun _ w => el0 w (fun y => decide (3 < y.bufs.length)) && decide p.order.Nodup &&
          p.order.all fun k => decide (k.1 < 16 ∧ k.2 < 16)
        | _ => false) == q.2) = true := by decide +kernel

theorem meets_request_lanes :
    ([1, 2, 4].all fun w =>
      let a := fun op => { accOf op .gs .dev .rlx 0 0x10 (lanes (0x80000000 :: List.replicate 15 4)) (same 7) with width := w, lanes := 2 }
      okAnd (planLanes false 0 (.gs 0) (a .gath) (sObj id)) (fun q t => eachLane (fun l u => u.readPieces 0 0 q.1 l.pas) q.2 (t.accAcquire 0 (a .gath))) &&
      okAnd (planLanes true 0 (.gs 0) (a .scat) (sObj id)) (fun q t => eachLane (fun l u =>
        u.writePieces 0 0 q.1 l.pas ((List.range w).map fun k => el 8 (a .scat).t (4 * l.j + k)) true) (q.2.filter fun l => decide (2 ≤ l.j)) (t.accRelease 0 0 (a .scat))) &&
      okAnd (planLanes true 0 (.gs 0) (a .ascat) (sObj id)) (fun q t => eachLane (fun l u =>
        u.atomicAt 0 0 (u.home 0 (((l.pas.head?).map (·.1)).getD 0 / 128)) (((l.pas.head?).map (·.1)).getD 0) 4 q.1 true fun old => (old + 7) % 2 ^ 32)
        (q.2.filter fun l => decide (2 ≤ l.j)) (t.accRelease 0 0 (a .ascat)))) = true ∧
    stopB (planLanes true 0 (.gs 0) (accOf .scat .gs .dev .rlx 0 0x10 (same 0xFFFFFFF0) 0) (sObj id)) = true := by
  refine ⟨by decide +kernel, by decide +kernel⟩

/-- A tile is copied to the scratchpad with its tag, a tag is set and read, a tile is fetched in its order, a tile is stored (R278, R367 to R369). -/
theorem test_tiles :
    (let s := sObj id
     okAnd (accDo (accOf .ldt .ep .elem .rlx 13 0 (lanes [64]) 0) 0 0 s) (fun q t => q.1 == d (lanes [0x100]) &&
       el0 t fun x => [80, 81, 82, 83].map x.cur.scratch.get == [0x80, 0xFF, 0, 1]) &&
     okAnd (accDo (accOf (.tags false) .ep .elem .rlx 13 0 (lanes [0x101]) 0) 0 0 s) (fun _ t => (t.mem.get 0x11000, t.mem.get 0x11001) == (1, 0x81) &&
       okAnd (accDo (accOf .tagr .ep .elem .rlx 13 0 0 0) 0 0 t) fun q _ => q.1 == d (lanes [0x501])) &&
     okAnd (accDo (accOf (.tfch 3 true false) .tf .elem .rlx 13 0 0 0) 0 0 s) (fun q t => q.1 == d (lanes [7, 0x100]) &&
       el0 t fun x => ((x.bufs.getD 3 {}).els.drop 16).take 4 == [0x80, 0xFF, 0, 1]) &&
     okAnd (accDo (accOf (.accv 3 .rne true) .ep .elem .rlx 13 0 (lanes [0x100]) 0) 0 0
       (s.modElem 0 fun x => x.setTile 3 ⟨false, List.replicate 256 0x3F800000⟩)) (fun _ t => (t.mem.get 0x10000, t.mem.get 0x100FF, t.mem.get 0x11001) ==
         (0x38, 0x38, 0x81))) = true := by decide +kernel

/-- The state of the objects whose memory holds these bytes, and whose partition has been changed. -/
def sUnit (m : List (Nat × Byte)) (f : Part → Part) : State := { (sObj id).modPart 0 f with mem := m }

theorem meets_unit_effects :
    ([(13, true), (0, false)].all fun q => okAnd ((sObj id).object 0 (.port 0 0) q.1) fun o _ => o.c.isSome == q.2) = true ∧
    (let s := sUnit [] fun p => { p with gs := { p.gs with loaded := true, methods := [(2, method0 1 0 8 0x80 0), (5, method0 1 7 0 0x80 0)] } }
     okAnd (s.methods 0 (.port 0 0)) fun ms _ => ms.map (·.1) == [2, 5] && decide ((ms.map (·.1)).Pairwise (· < ·))) = true ∧
    ([0, 16].all fun k =>
      let s := sUnit [(0x10000, 3)] fun p => { p with
        append := List.replicate k ([], 0), gs := { p.gs with append := List.replicate k ([], ⟨L0, 0, 0, false, 0⟩) }
        engines := [(0, { (p.eng 0) with append := List.replicate k (0, []) })] }
      okAnd (planEntry 0 (.port 0 0) (accOf (.chapp 0) .ep .dev .rlx 13 0 0 0) s) (fun p t => okAnd (t.readPieces 0 0 p.obj p.pas) fun bs _ => bs.length == 64) &&
      okAnd (readEntry 0 0 (accOf (.chapp 0) .ep .dev .rlx 13 0 0 0) (s.fenceX 0 0 .ep .ce .dev)) (fun dw u => dw.length == 8 && decide (0 < u.parts.length) &&
        (((u.part 0).eng 0).append.length == k) && (u.launch? L0).isSome) &&
      okAnd (readEntry 0 0 (accOf .tdisp .ep .dev .rel 13 0 0 0) (s.accRelease 0 0 (accOf .tdisp .ep .dev .rel 13 0 0 0))) (fun dw u => dw.length == 8 &&
        (u.part 0).gs.append.length == k && (u.elem? 0).isSome) &&
      okAnd (readEntry 0 0 (accOf (.launch 3) .ep .dev .rel 13 0 0 0) (s.accRelease 0 0 (accOf (.launch 3) .ep .dev .rel 13 0 0 0))) (fun dw u => dw.length == 8 &&
        (u.part 0).append.length == k)) = true := by decide +kernel

/-- The entry of two that match and have as few wildcards has the lower index; of another operator none matches (R374). -/
theorem meets_best_method :
    (let ms := [(2, method0 1 0 8 0x80 0), (5, method0 1 7 0 0x80 0)]
     let k : Key := ⟨5, 1, [8, 0, 0]⟩
     ms.map (fun q => (meMatches q.2 k, wildcards q.2)) == [(true, 0), (true, 3)] && ms.all fun q => !meMatches q.2 ⟨6, 1, [8, 0, 0]⟩) = true := by decide +kernel

/-- Items, a lookup, and entries that are appended with the numbers they will complete with (R235, R315, R327, R370, R371). -/
theorem test_unit_effects :
    (let s := sUnit [(0x10000, 3)] fun p => { p with gs := { p.gs with loaded := true, methods := [(2, method0 1 0 8 0x80 0), (5, method0 1 7 0 0x80 0)] } }
     okAnd (accDo (accOf (.tdsc 1) .ep .elem .rlx 13 0 0 0) 0 0 s) (fun q _ => q.1 == d (lanes [16, 16])) &&
     okAnd (accDo { accOf .mlook .ep .elem .rlx 0 0 (lanes [8]) 0 with l := lanes [0x1005] } 0 0 s) (fun q _ => q.1 == d (lanes [2, 1, 0])) &&
     okAnd (accDo (accOf (.launch 3) .ep .dev .rel 13 0 0 0) 0 0 s) (fun q t => q.1 == d (lanes [1]) &&
       (t.part 0).append == [([3, 0, 0, 3 * 2 ^ 58, 0, 0, 0, 0], 3)]) &&
     okAnd (accDo (accOf .tdisp .ep .dev .rel 13 0 0 0) 0 0 s) (fun q t => q.1 == d (lanes [1]) && (t.part 0).gs.append.map (·.1) == [[3, 0, 0, 0, 0, 0, 0, 1]]) &&
     okAnd (accDo (accOf (.chapp 0) .ep .dev .rlx 13 0 0 0) 0 0 s) (fun q t => q.1 == d (lanes [1]) &&
       ((t.part 0).eng 0).append == [(1, [3, 0, 0, 0, 0, 0, 0, 0])])) = true := by decide +kernel

/-- The bytes of a program of the diagonal at pattern 1; of an inverse table of one column with the rows 0 and 1, and with them the wrong way about. -/
def progBytes : List (Nat × Byte) := [(0x10007, 1), (0x1000B, 0x0B)]
def goodTable : List (Nat × Byte) := [(0x10000, 1), (0x10008, 2), (0x10010, 1)]
def badTable : List (Nat × Byte) := [(0x10000, 1), (0x10008, 2), (0x1000C, 1)]

theorem meets_pattern_sets :
    patParse [0x0A000001, 0x01000000, 0x0B000000] 0 false [] = .ok (true, .band 0 0) ∧ patWordOf 0x0A 1 = 0x0A000001 ∧
    ([(goodTable, [0, 1]), (badTable, [1, 0])].all fun q =>
      let s := sUnit q.1 id
      okAnd (invWord 0 0 (.port 0 0) 13 1 s) fun lo t => okAnd (invWord 0 0 (.port 0 0) 13 2 t) fun hi u => lo == 0 && hi == 2 &&
        okAnd (invWord 0 0 (.port 0 0) 13 3 u) fun x v => okAnd (invWord 0 0 (.port 0 0) 13 4 v) fun y _ => [x, y] == q.2) = true ∧
    (okAnd (pgldChk 0 0 (accOf (.pgld 0) .ep .elem .rlx 14 0 0 0) (sUnit progBytes id)) fun _ u => okAnd (u.object 0 (.port 0 0) 14) fun o w =>
      okAnd (loadProg 0 (.port 0 0) (dPat o.d) 0 0 w) fun q t => q.1 == [0x01000000, 0x0B000000] && el0 t fun y => decide (0 < y.cur.gens.length)) = true ∧
    ([(({} : Gen), true), (diagonal, false), ({ diagonal with st := .ended }, false), ({ diagonal with st := .running, emaj := 16 }, false),
      ({ diagonal with prog := [0x05010000, 0x0B000000] }, false)].all fun q => (q.1.st == .idle) == q.2 && (q.2 || q.1.pat.isSome)) = true ∧
    diagonal.pat = some (.band 0 0) ∧ (Pat.band 0 0).noInverse = none ∧ (Pat.hash 0 1 0 none).noInverse = some 0 ∧ NoTables (.band 0 0) ∧
    okB ((Pat.band 0 0).checkTables 0 0 1 14 (.port 0 0) 16 s0) = true ∧
    okB (loadProg 0 (.port 0 0) 1 0 (14 * 2 ^ 48) (sUnit progBytes id)) = true := by
  refine ⟨by decide +kernel, by decide, by decide +kernel, by decide +kernel, by decide +kernel, by decide +kernel, by decide +kernel, by decide +kernel,
    trivial, by decide +kernel, by decide +kernel⟩

/-- A program is loaded, runs, yields its members in order and ends; a table lists a row; one that is out of order traps; a context goes out and comes
back (R387, R388, R395 to R398). -/
theorem test_pattern_sets :
    (let s := sUnit progBytes id
     okAnd (accDo (accOf (.pgld 0) .ep .elem .rlx 14 0 0 0) 0 0 s) (fun _ t => el0 t fun x => ((x.gen 0).st, (x.gen 0).rf, (x.gen 0).cf, (x.gen 0).pidx) == (.loaded, 16, 16, 1)) &&
     okAnd (accDo (accOf (.pgnx 0) .ep .elem .rlx 0 0 0 0) 0 0 (s.modElem 0 fun x => x.setGen 0 { diagonal with st := .running, emaj := 2 })) (fun q t =>
       q.1 == d (lanes ([0, 0, 1, 1] ++ List.replicate 12 0xFFFFFFFF)) && el0 t fun x => ((x.gen 0).st, (x.gen 0).yld) == (.ended, 2)) &&
     okAnd ((Pat.hash 0 1 0 (some 13)).memT 0 0 1 14 (.port 0 0) 2 1 1 0 (sUnit goodTable id)) (fun b _ => b) &&
     stopB ((Pat.hash 0 1 0 (some 13)).memT 0 0 1 14 (.port 0 0) 2 1 1 0 (sUnit badTable id))) = true := by decide +kernel

/-! ### Translations, the Timetable, partitions, registers, starts -/

/-- An access of element 0 that waits. -/
def accW (w : Wait) : Access := { (request s0 ⟨d 0, d 0, d 0⟩ (.tgt a1) 0 .ep .ld .elem .rlx 4 false false) with wait := w }

/-- The small state whose one access waits, with its partition changed. -/
def sXl (w : Wait) (f : Part → Part) : State := (s0.modElem 0 fun x => { x with acc := [accW w] }).modPart 0 fun p => f { p with pralloc := 1 }

theorem meets_translations :
    ([(true, true, false, []), (true, false, false, []), (false, false, false, []), (true, false, true, []), (true, true, true, [(0x3000, 0x4000)])].all
      fun ((r, w, wr, gone) : Bool × Bool × Bool × List (Nat × Nat)) =>
      let s := sXl (.ats 3 0 wr) fun p => { p with ats := [⟨3, 0, wr, gone⟩] }
      ((s.part 0).ats.find? fun a => a.page == 3) == some ⟨3, 0, wr, gone⟩ && decide (0 < (s.part 0).pralloc.toNat) && decide (0 < s.parts.length) &&
      decide (0 < 4 * (s.part 0).depotList.length) && (gone.any fun g => (xlatOf 0x3000 0x20000 4096 r w).overlaps g.1 g.2) == !gone.isEmpty &&
      (s.part 0).pageReqs == [] && (s.part 0).pageWait == [] && el0 s (fun x => x.l.n == 0 && x.acc.any fun a => a.wait == .ats 3 0 wr && a.op != .pref)) = true ∧
    ((sXl (.ats 3 0 true) fun p => { p with ats := [⟨3, 0, true, []⟩], pageReqs := [⟨9, 0, false, 0, false⟩] }).part 0).prout = 1 ∧
    (let s := sXl (.pri 3) fun p => { p with pageReqs := [⟨3, 0, false, 0, false⟩] }
     ((s.part 0).pageReq? 3).isSome && (s.part 0).pageWait == [] && s.anyWait 0 (· == .pri 3) && (s.part 0).ats == [] &&
     decide ((s.part 0).ats.length + (s.part 0).pageReqs.length ≤ Config.atsLimit) && ((s.part 0).pageReq? 4).isNone &&
     el0 s fun x => x.acc.length == 1 && x.fault.isNone && x.cur.agens.all fun g => g.wait == .no) = true ∧
    (let s := sXl .no fun p => { p with ttBusy := true, ttWait := [(0, 7), (0, 8)], invals := [⟨0, 4096, [(0x10000, 0x11000)]⟩] }
     (s.part 0).enable && (s.part 0).ttBusy && (s.part 0).invals.length == 1 && (s.outstanding 0).length == 1 && !s.owes 0 &&
     ((s.part 0).ttWait.all fun q => !(s.outstanding 0).contains q)) = true ∧
    (let s := sXl .no fun p => { p with ttBusy := true, ttWait := [(0, (accW .no).id)] }
     (s.part 0).ttWait.any fun q => (s.outstanding 0).contains q) = true ∧
    (let s := ({ s0 with mem := [] } : State).modPage 0 fun p => { p with lines := [⟨0x200, false, .dirty, 5, 0, 0, false, none, [7], true⟩] }
     s.owes 0 && (s.part 0).pageList.contains 0 && ((s.page 0).lines.any fun l => l.st == .dirty && l.tids.contains 7)) = true := by decide +kernel

/-- A completion lets the access go on; one without permission asks the host for the page; one that an invalidation has overtaken is asked for again; a
failure traps; invalidations, with the lines and versions of what they drop (R247, R249, R251, R256, R257). -/
theorem test_translations :
    (let t := after (.atsCompletion 0 0x3000 0x20000 4096 true false) (sXl (.ats 3 0 false) fun p => { p with ats := [⟨3, 0, false, []⟩] })
     (((t.part 0).slices.map (·.length)).sum, (t.part 0).ats.length)) = (1, 0) ∧
    ((after (.atsCompletion 0 0x3000 0 4096 false false) (sXl (.ats 3 0 false) fun p => { p with ats := [⟨3, 0, false, []⟩] })).part 0).pageReqs =
      [⟨3, 0, false, 0, false⟩] ∧
    ((after (.atsCompletion 0 0x3000 0 2097152 true true) (sXl (.ats 3 0 false) fun p => { p with ats := [⟨3, 0, false, [(0x9000, 0xA000)]⟩] })).part 0).ats =
      [⟨3, 0, false, []⟩] ∧
    (((after (.pageResponseFailure 0 0x3000 1) (sXl (.pri 3) fun p => { p with pageReqs := [⟨3, 0, false, 0, false⟩] })).elem? 0).bind fun x =>
      x.fault.map fun f => f.cls) = some 8 ∧
    (((after (.invalidateRequest 0 0 4096) (sXl .no fun p => { p with slices := [[⟨0, 0x10000, 4096, true, true⟩, ⟨4096, 0x11000, 4096, true, true⟩], [], [], []] })).part 0).slices.map
      fun l => l.map (·.iova)) = [[4096], [], [], []] ∧
    (let t := after (.invalidateCompletion 0) ((({ s0 with mem := [] } : State).modPart 0 fun p => { p with invals := [⟨0, 4096, [(0x10000, 0x11000)]⟩] }).modPage 0 fun p =>
       { p with vdir := [⟨L0, 0x200, [(1, 9)], [], false⟩], lines := [⟨0x201, false, .clean, 5, 0, 0, false, none, [], false⟩] })
     ((t.page 0).vdir, (t.page 0).lines)) = ([], []) := by decide +kernel

/-- The Timetable's launch: an island that has run a hyperperiod, and one that is to change. -/
def sTime (f : Launch → Launch) : State := s0.modLaunch L0 fun l => f { l with pause := false, tick := l.hyper }

theorem meets_boundaries :
    (la0 s0 fun l => l.pause || decide (l.tick < l.hyper)) = true ∧
    (la0 (sTime id) fun l => !l.pause && decide (l.hyper ≤ l.tick) && !l.pend) = true ∧
    ([true, false].all fun ok => la0 (sTime fun l => { l with islands := l.islands.map fun i => { i with dp := 1, dq := 2, settled := ok } }) fun l =>
      l.pend && !l.islands.isEmpty && l.islands.all fun i => i.dp == 0 || i.settled == ok) = true ∧
    (permAtLeast ⟨1, 100⟩ = some ⟨1, 64⟩ ∧ permAtLeast ⟨2, 1⟩ = none ∧ permAtMost ⟨1, 100⟩ = none ∧ permAtMost ⟨2, 1⟩ = some ⟨1, 1⟩) ∧
    (let plan := List.replicate 63 (150 : Byte) ++ [255]
     plan.length == 64 && (plan.all fun b => decide (b.toNat ≤ 150) || b.toNat == 255) && State.reset.idlePage 255 && !s0.idlePage 0) = true ∧
    (let p := (s0.modPart 0 fun p => { p with equota := 10, eqspent := 25, eqdebt := 3, launches := [] }).part 0
     p.enable && p.equota != 0 && p.launches == []) = true ∧
    ((s0.modPart 0 fun p => { p with fcwr := 16 }).part 0 |>.fcwr.toNat) = 16 := by decide +kernel

/-- Ratios, a rate change, a record that waits and its place in the ring (R191, R199, R332, R333). -/
theorem test_boundaries :
    permAtLeast ⟨2, 3⟩ = some ⟨2, 3⟩ ∧ permAtMost ⟨65, 66⟩ = some ⟨63, 64⟩ ∧
    ((after (.rateChangeApply L0) (sTime fun l => { l with islands := l.islands.map fun i => { i with dp := 1, dq := 2 } })).launch? L0).map
      (fun l => (l.pause, l.islands.map fun i => (i.p, i.q))) = some (true, [(1, 2)]) ∧
    (let t := after (.faultRecordWrite 0) (sHost [] fun p => { p with ended := [[1, 2, 3, 4, 5, 6, 7, 8]], fcwr := 3 })
     ((t.part 0).fcwr, (t.part 0).ended, t.mem.get 0x100C0, t.mem.get 0x100F8)) = (4, [], 1, 4) := by decide +kernel

/-- A partition that may be enabled but for its key, and one that is without depots. -/
theorem meets_enable :
    (State.reset.part 0).enable = false ∧ EnableRefused State.reset 0 ∧ Idle s0 0 ∧
    (∀ q ∈ s0.elems, q.2.l.n = 0 → ∃ l ∈ (s0.part 0).launches, l.ref = q.2.l) := by
  refine ⟨by decide, Or.inl (by decide), ⟨by decide +kernel, by decide +kernel⟩, by decide +kernel⟩

theorem meets_partitions :
    ((s0.part 0).enable && !(s0.part 0).plBusy && (s0.part 0).flq.length == 8 && (s0.part 0).revoked == List.replicate 8 none &&
      !flqValid ((s0.part 0).flq.getD 7 0) && flqValid 0x8000000000000005 && (s0.ioRead 0 (s0.part 0).pladdr.toNat 4755).isNone) = true ∧
    (la0 s0 fun l => l.ref.q == 0 && l.regions.any fun g => g.st != .preempted) = true ∧
    ((s0.part 0).counted.length == 8 && (s0.part 0).launches.all fun l => l.ref.q != 1) = true ∧
    (let s := (s0.modPart 0 fun p => { p with bklist := 0x1000 })
     let t := { s with iommu := [⟨0, ⟨0, 0x10000, 8192, true, true⟩⟩] }
     let w := (t.ioDword 0 0x1000).getD 1
     (w == 0) && el0 t (fun x => x.l.n == 0 && x.reg == 0 && x.col == 0 && x.row == 0 && (x.cur.ctxs[0]?.map (·.isSome)) == some true) && rg0 t fun g => !g.out) = true ∧
    (let s := knowsTensor s0
     let u := fun put => s.modPart 0 fun p => { p with peerIn := [⟨0x000C000000000010, put, if put then [1, 2] else [], 2, 0, .no, []⟩] }
     let v := fun put => (u put).modEng 0 64 fun e => { e with cache := { known with desc := (s.part 0).gs.cache.desc } }
     (s.part 0).peerIn.isEmpty && [true, false].all fun put => match ((v put).unitChk 0 (.eng 0 64) (some (.obj 12 16)) 2 put).bind fun _ w => w.findPlace 0 (.eng 0 64) (.obj 12 16) 2 put with
       | .ok f t => (t.part 0).peerIn == ((v put).part 0).peerIn && okB (t.pinFound 0 [f] [])
       | _ => false) = true := by decide +kernel

/-- ENABLE without depots is refused; DISABLE empties; a break bit is set; a contract is revoked (R419, R427, R443). -/
theorem test_partitions :
    ((after (.ptctlEnable 0) State.reset).part 0).err = true ∧
    ((after (.ptctlDisable 0) s0).part 0).enable = false ∧ (after (.ptctlDisable 0) s0).elems = [] ∧
    (after (.dvcapWrite 3000) State.reset).mgmt.cap = 2800 ∧
    ((after (.flqRevoke 0 1) (s0.modPart 0 fun p => { p with flq := setAt p.flq 1 0x8000000000000005 })).part 0).flq.getD 1 0 = 5 ∧
    (((after (.bkcmdWrite 0 1) { (s0.modPart 0 fun p => { p with bklist := 0x1000 }) with
        iommu := [⟨0, ⟨0, 0x10000, 8192, true, true⟩⟩], mem := [(0x11000, 1)] }).elem? 0).bind fun x =>
      x.ctxNow.map fun c => c.body.brk.head?) = some (some true) := by decide +kernel

theorem meets_registers :
    ((s0.part 0).enable && !(s0.part 1).enable && !(s0.part 0).ttBusy && !(s0.part 0).mtBusy && ((s0.part 0).pageList[0]? == some 0) && ((s0.part 0).pageList[3]? == some 3) &&
      ((s0.part 0).launches.any fun l => l.pages.contains 0) && ((s0.part 0).launches.all fun l => !l.pages.contains 3) &&
      ocCls (0x0002000000000000 : Dword) == ocCls (0x0002000000000000 : Dword)) = true := by decide +kernel

/-- Registers are stored and read back, those of a partition without ENABLE are hidden, a resource window is limited (R419, R424, R259). -/
theorem test_page_registers :
    (after (.registerWrite ⟨.page 0, 8⟩ 0x208 3) s0).readReg (.page 0) 0x208 8 = 4 ∧
    (after (.registerWrite ⟨.page 0, 8⟩ 0x100 0x12345) s0).readReg (.page 0) 0x100 8 = 0x12000 ∧
    (after (.registerWrite ⟨.page 1, 8⟩ 0x100 0x12345) s0).readReg (.page 1) 0x100 8 = 0 ∧
    ((after (.registerWrite ⟨.page 0, 8⟩ 0x2030 15) s0).page 3).resw = 12 ∧ ((after (.registerWrite ⟨.page 0, 8⟩ 0x2000 15) s0).page 0).resw = 0 := by decide +kernel

theorem meets_management :
    State.reset.mgmt.power = true ∧ (after .powerLoss State.reset).mgmt.power = false ∧ State.reset.mgmt.alarm ≠ 3 ∧ State.reset.mgmt.starting = 0 ∧
    State.reset.mgmt.code = 0 ∧ State.reset.mgmt.recov = false ∧ State.reset.mmem.wf = true ∧ State.reset.parts.length = 32 ∧
    (∀ n, Idle State.reset n) := by
  refine ⟨by decide, by decide, by decide, by decide, by decide, by decide, by decide, by decide, fun n => ⟨fun q hq => ?_, fun q hq => ?_⟩⟩
  · have h : (State.reset.part n).engines = [] := by
      unfold State.part State.reset
      simp only [List.getD_eq_getElem?_getD, List.getElem?_replicate]
      split <;> rfl
    rw [h] at hq
    cases hq
  · cases hq

/-- The fourth start in a row goes into recovery; a margin-free start counts; alarms of class 2 and 3 (R457 to R463). -/
theorem test_management :
    [0, 2, 3].map (fun k => (after .resetPin { State.reset with mgmt := { State.reset.mgmt with failed := k } }).mgmt.starting) = [2, 2, 3] ∧
    (after .alarmClass2 s0).mgmt.alarm = 2 ∧ (after .alarmClass2 s0).elems = [] ∧ (after .alarmClass3 s0).mgmt.seed = false ∧
    (after .alarmClass1 s0).mgmt.irqs = 1 := by decide +kernel

/-! ### Further clauses: cuts, stopped regions, pages that do not answer, revocations -/

/-- A state to be rolled back whose element has had reports behind the cut: two to barrier 3, one to the sync word at 32. -/
def sLater : State := sBack.modElem 0 fun x => { x with reports := [⟨false, 3, 8⟩, ⟨true, 32, 4⟩, ⟨false, 3, 8⟩] }

theorem meets_cut_streams :
    (let s := withRegion sDusk fun g => { g with streams := (g.streams.take 1) ++ [{ plain with junction := some .elem }] }
     rg0 s fun g => g.save != 0 && !g.waving && el0 s fun x => match x.ctxNow with
      | none => false
      | some c => s.runs x && x.epoch == g.epoch && !x.ending && x.firings.isEmpty && !x.livePending c && g.markPorts 0 c == [0] && x.marked c 0 &&
        la0 s fun l => (l.fromElem 0 0).length == 1 && (l.fromElem 0 0).all fun q => q.2.2.junction.isSome && s.hasRoom q.2.2) = true ∧
    (el0 sLater fun x => cut0.nrep == 0 && cut0.e == 0 && cut0.gens.all (fun n => n.st == .idle) && cut0.scratch.wf && decide (3 < cut0.bars.length) &&
      (reportsTo x.reports false 3).length == 2 && (reportsTo x.reports true 32).length == 1 && reportsTo x.reports false 4 == [] && reportsTo x.reports true 0 == [] &&
      x.reports.all fun q => !q.sync || q.at_ % 16 == 0) = true ∧
    ([(some 0, true), (none, false)].all fun ((since, due) : Option Nat × Bool) =>
      let s := withRegion (sGen true ⟨[0, 0, 0, 0], false, [d 9], .no, since⟩) fun g => { g with rolling := some false }
      rg0 s fun g => g.rolling.isSome && el0 s fun x => x.stepDue g == due) = true ∧
    (el0 (after (.rollback R0) sLater) fun x => x.started == 1 && x.bar 3 != {} && x.sync 32 != 0) = true := by decide +kernel

theorem meets_stops_held :
    ([(sStop fun g => { g with st := .held, opWaiting := [[]] }), (sStop fun g => { g with st := .frozen, rolling := some true })].all fun s =>
      rg0 s fun g => s.faultsOf R0 g == [] && (g.opWaiting != [] || g.rolling != none)) = true ∧
    ([sStop fun g => { g with st := .preempted, quotaHeld := true }, sStop fun g => { g with st := .preempted, waiting := [[]] },
      sStop fun g => { g with st := .preempted, opWaiting := [[]] }, sStop fun g => { g with st := .preempted, rolling := some false }].all fun s =>
      rg0 s fun g => g.st == .preempted && (g.rolling != none || g.waiting != [] || g.opWaiting != [] || g.quotaHeld)) = true ∧
    ([RegionSt.held, .frozen].all fun st =>
      let s := sStop fun g => { g with st := st }
      let t := (mapAll s).modElem 0 fun x => { x with acc := [request s0 ⟨d 0, d 0, d 0⟩ (.tgt a1) 0 .ep .st .elem .rlx 4 false false] }
      (rg0 s fun g => s.settled R0 g) && rg0 t fun g => !t.settled R0 g) = true ∧
    (let s := withRegion (sPage 1024 true) fun g => { g with save := 0 }
     ((s.part 0).pageReqs.find? fun q => q.page == 0) == some ⟨0, 0, false, 1024, false⟩ && rg0 s fun g => g.replayable && g.save == 0 && g.moves && s.attached R0 g 0) = true ∧
    (let s := (sPage 1024 true).modPart 0 fun p => { p with pageReqs := [⟨0, 0, false, 1024, true⟩] }
     ((s.part 0).pageReqs.find? fun q => q.page == 0).map (·.answered)) = some true ∧
    ((after (.faultWaitExpiry 0 0) (withRegion (sPage 1024 true) fun g => { g with save := 0 })).part 0).fwx = true := by decide +kernel

/-- A partition whose reset is under way. -/
def sBusy : State := s0.modPart 0 fun p => { p with busy := true }

theorem meets_answers : ((sBusy.part 0).enable && !(sBusy.part 0).answers && (sBusy.part 0).hasEng 0 && (s0.part 0).answers && (s0.part 0).hasEng 0 &&
    ((sHost [] id).part 0).answers && !(s0.part 1).answers && !(s0.part 0).mtBusy && !(s0.part 0).ttBusy && !(s0.part 0).plBusy &&
    (((s0.modPart 0 fun p => { p with mtBusy := true }).part 0).answers)) = true := by decide +kernel

theorem meets_waiting_records :
    (let e := (sEng 1 fun e => { e with append := [(1, engDw 2 2 8 0x55 0x20 0 0)] }).part 0 |>.eng 1
     e.opWaiting.isNone && ((sSeq [] [task0 none [piece0]]).part 0).gs.opWaiting.isNone) = true ∧
    ([true, false].all fun full =>
      let s := { s0.modPart 0 fun p => { p with opEnded := [[1, 2, 3, 4, 5, 6, 7, 8]] } with mgmt := { s0.mgmt with of := { s0.mgmt.of with wr := if full then 16 else 3 } } }
      (s.part 0).opEnded.length == 1 && ((s.mgmt.of.wr - s.mgmt.of.rd).toNat == 16) == full) = true ∧
    (let s := withRegion (s0.modPart 0 fun p => { p with equota := 10, eqspent := 12 }) fun g => { g with st := .preempted, quotaHeld := true }
     let t := after (.quotaPeriodBoundary 0) s
     (s.part 0).enable && (s.part 0).spent && !(t.part 0).spent && (t.part 0).eqdebt == 2 && rg0 t fun g => g.st != .preempted || !g.quotaHeld) = true := by decide +kernel

theorem meets_version_entries :
    (let s := s0.modPage 0 fun p => { p with vdir := [⟨L0, 0x200, [(1, 9)], [7], true⟩] }
     s.owes 0 && ((s.page 0).vdir.any fun v => v.tids.contains 7)) = true ∧
    ((((after (.ttinvWrite 0 7) (s0.modPage 0 fun p => { p with vdir := [⟨L0, 0x200, [(1, 9)], [7], false⟩] })).page 0).vdir.map (·.owed)) = [true]) ∧
    (let s := s0.modPage 0 fun p => { p with lines := [⟨0x200, false, .clean, 5, 0, 0, false, none, [], false⟩, ⟨0x201, false, .clean, 5, 1, 0, false, none, [], false⟩] }
     ((after (.invalidateCompletion 0) (s.modPart 0 fun p => { p with invals := [⟨0, 4096, [(0x10000, 0x11000)]⟩] })).page 0).lines.map (·.line)) = [0x201] := by
  decide +kernel

/-- A state whose queue 0 stands under a contract that counts for 40 W, with a launch or without one. -/
def sContract (runs : Bool) : State :=
  let s := s0.modPart 0 fun p => { p with flq := setAt p.flq 0 0x8000000000000028, counted := setAt p.counted 0 (some 40), launches := if runs then p.launches else [] }
  { s with mgmt := { s.mgmt with fsum := 40 } }

theorem meets_revocations :
    ([true, false].all fun runs =>
      let p := (sContract runs).part 0
      flqValid (p.flq.getD 0 0) && p.flq.length == 8 && p.counted.length == 8 && p.revoked == List.replicate 8 none &&
      (p.launches.any fun l => l.ref.q == 0 && l.regions.any fun g => g.st != .preempted) == runs) = true ∧
    ([true, false].map fun runs => let t := after (.flqRevoke 0 0) (sContract runs)
      (t.mgmt.fsum.toNat, (t.part 0).revoked.head?, (t.part 0).counted.head?)) = [(40, some (some 40), some none), (0, some none, some none)] := by decide +kernel

theorem meets_starts_of_the_part :
    (let m := { State.reset.mgmt with recov := true, fwImage := [1] }
     m.power && m.recov && m.seed) = true ∧ ({ State.reset.mgmt with alarm := 2, code := 8 } : Mgmt).starting = 0 ∧
    ((after .alarmClass1 { State.reset with mgmt := { State.reset.mgmt with starting := 2 } }).mgmt.code = 8 ∧
      (after .alarmClass1 { State.reset with mgmt := { State.reset.mgmt with starting := 2 } }).mgmt.alarms = [1]) ∧
    (∀ q ∈ s0.elems, (s0.part q.2.l.n).enable = true ∧ ∃ l ∈ (s0.part q.2.l.n).launches, l.ref = q.2.l) := by
  refine ⟨by decide +kernel, by decide +kernel, by decide +kernel, by decide +kernel⟩

/-- The first vector of FIPS 197, appendix C.3, and its inverse: the cipher that R423 names. -/
theorem test_aes :
    aesEncrypt ((List.range 32).map fun k => BitVec.ofNat 8 k) ((List.range 16).map fun k => BitVec.ofNat 8 (17 * k)) =
      [0x8E, 0xA2, 0xB7, 0xCA, 0x51, 0x67, 0x45, 0xBF, 0xEA, 0xFC, 0x49, 0x90, 0x4B, 0x49, 0x60, 0x89] ∧
    aesDecrypt ((List.range 32).map fun k => BitVec.ofNat 8 k)
      [0x8E, 0xA2, 0xB7, 0xCA, 0x51, 0x67, 0x45, 0xBF, 0xEA, 0xFC, 0x49, 0x90, 0x4B, 0x49, 0x60, 0x89] =
      (List.range 16).map fun k => BitVec.ofNat 8 (17 * k) := by decide +kernel

theorem meets_canonical : s0.mem.wf = true ∧ s0.mmem.wf = true ∧ (sMem 0 0 0).mem.wf = true ∧ (match step sPlaced with
    | .next _ => true
    | _ => false) = true := by decide +kernel

end Sys2Proof.Tests
end

