-- ==== Sys2Proof/Proofs/Registers.lean ====
section
/-! SUPPORT. REGISTER_WRITE and the reads of registers: what an access to each kind of register does, which fields it stores, and that they
read back (R6, R419, R424, R425, R454). -/

namespace Sys2Proof.Proofs

open Sys2Proof Sys2Proof.Machine Sys2Proof.Claims Sys2Proof.Laws

/-! ### Partitions -/

theorem part_modPart_same {s : State} {n : Nat} (f : Part → Part) (h : n < s.parts.length) : (s.modPart n f).part n = f (s.part n) := by
  simp [State.part, List.getD_eq_getElem?_getD, getElem?_modAt_same, List.getElem?_eq_getElem h]

/-- A page that answers belongs to a partition that the device has. -/
theorem lt_length_of_answers {s : State} {n : Nat} (h : (s.part n).answers = true) : n < s.parts.length := by
  by_contra hn
  have hp : s.part n = {} := by simp [State.part, List.getD_eq_getElem?_getD, List.getElem?_eq_none (Nat.le_of_not_lt hn)]
  rw [hp] at h
  exact absurd h (by decide)

theorem part_modPart_of_answers {s : State} {n : Nat} (f : Part → Part) (h : (s.part n).answers = true) :
    (s.modPart n f).part n = f (s.part n) :=
  part_modPart_same f (lt_length_of_answers h)

/-- A change of a partition that leaves ENABLE and BUSY alone leaves its page answering. -/
theorem answers_modPart {s : State} {n : Nat} {f : Part → Part} (h : (s.part n).answers = true) (hf : ∀ p, (f p).answers = p.answers) :
    ((s.modPart n f).part n).answers = true := by
  rw [part_modPart_of_answers f h, hf, h]

/-! ### Fields of a word -/

theorem bits_zero (v hi : Nat) : bits v hi 0 = v % 2 ^ (hi + 1) := by simp [bits]

/-- A base without its low bits is a multiple: what its low bits held is taken away. -/
theorem toNat_alignDown (v k : Nat) (hk : k ≤ 64) : (alignDown v k).toNat = v % 2 ^ 64 - v % 2 ^ k := by
  have hm : v % 2 ^ 64 % 2 ^ k = v % 2 ^ k := Nat.mod_mod_of_dvd v (Nat.pow_dvd_pow 2 hk)
  have hle : v % 2 ^ 64 / 2 ^ k * 2 ^ k ≤ v % 2 ^ 64 := Nat.div_mul_le_self _ _
  have hlt : v % 2 ^ 64 < 2 ^ 64 := Nat.mod_lt _ (Nat.two_pow_pos 64)
  rw [alignDown, BitVec.toNat_ofNat, Nat.mod_eq_of_lt (Nat.lt_of_le_of_lt hle hlt), ← hm, Nat.div_mul_self_eq_mod_sub_self]

theorem alignDown_eq_shift (v k : Nat) : alignDown v k = (BitVec.ofNat 64 v >>> k) <<< k := by
  apply BitVec.eq_of_toNat_eq
  simp [alignDown, Nat.shiftRight_eq_div_pow, Nat.shiftLeft_eq]

/-- FCSIZE is stored as at least 4 (R331). -/
theorem ofNat_max_four (v : Nat) : BitVec.ofNat 4 (max 4 (v % 16)) = if v % 16 < 4 then 4 else BitVec.ofNat 4 v := by
  apply BitVec.eq_of_toNat_eq
  split
  · next h => simp [Nat.max_eq_left (Nat.le_of_lt h)]
  · next h => simp [Nat.max_eq_right (Nat.le_of_not_lt h)]

/-- RESW is stored as at most 12 (R259, R260). -/
theorem ofNat_min_twelve (v : Nat) : BitVec.ofNat 4 (min 12 (v % 16)) = if 12 ≤ v % 16 then 12 else BitVec.ofNat 4 v := by
  apply BitVec.eq_of_toNat_eq
  split
  · next h => simp [Nat.min_eq_left h]
  · next h => simp [Nat.min_eq_right (Nat.le_of_not_le h)]

/-! ### Accesses to a page (R419, R424, R425) -/

theorem exec_registerWrite (a : RegAccess) (off v : Nat) (s : State) :
    exec (.registerWrite a off v) s = execRegisterWrite a off v s := rfl

theorem exec_registerWrite_page {s : State} {n : Nat} (off v : Nat) (h : (s.part n).answers = true) (ho : off % 8 = 0) :
    exec (.registerWrite ⟨.page n, 8⟩ off v) s = pageWrite n off v s := by
  simp [exec_registerWrite, execRegisterWrite, h, ho]

theorem exec_registerWrite_page_ignored {s : State} {n w off : Nat} (v : Nat)
    (h : (s.part n).answers = false ∨ w ≠ 8 ∨ off % 8 ≠ 0) : exec (.registerWrite ⟨.page n, w⟩ off v) s = .next s := by
  have hg : ((s.part n).answers && w == 8 && off % 8 == 0) = false := by
    rcases h with h | h | h <;> simp [h]
  simp [exec_registerWrite, execRegisterWrite, hg]

theorem readReg_page {s : State} {n off : Nat} (h : (s.part n).answers = true) (ho : off % 8 = 0) :
    s.readReg (.page n) off 8 = s.readPage n off := by
  simp [State.readReg, h, ho]

theorem readReg_page_zero {s : State} {n w : Nat} (off : Nat) (h : (s.part n).answers = false ∨ w ≠ 8) :
    s.readReg (.page n) off w = 0 := by
  have hg : ((s.part n).answers && w == 8) = false := by
    rcases h with h | h <;> simp [h]
  simp [State.readReg, hg]

/-- The registers below the engines' stand in the partition itself. -/
theorem readPage_of_lt {s : State} {n off : Nat} (h : off < 0x800) :
    s.readPage n off = if off < 0x400 then (s.part n).readLow off else (s.part n).readHigh off := by
  simp [State.readPage, h]

/-- A register below the engines' as it reads once its partition has changed. -/
theorem readReg_modPart {s : State} {n off : Nat} {f : Part → Part} (h : (s.part n).answers = true) (hf : (f (s.part n)).answers = true)
    (hlt : off < 0x800) (ho : off % 8 = 0) :
    (s.modPart n f).readReg (.page n) off 8 = if off < 0x400 then (f (s.part n)).readLow off else (f (s.part n)).readHigh off := by
  have hp := part_modPart_of_answers f h
  rw [readReg_page (by rw [hp, hf]) ho, readPage_of_lt hlt, hp]

/-! ### Registers that a write stores -/

/-- Registers of a page below the engines' that act as they are written (R220, R237, R334, R372, R381, R441). -/
def actingRegisters : List Nat := [0x000, 0x008, 0x110, 0x228, 0x308, 0x318, 0x320, 0x340, 0x408, 0x630, 0x640]

/-- An offset of a register of a page that a write only stores. -/
def StoredAt (off : Nat) : Prop := off < 0x800 ∧ off % 8 = 0 ∧ off ∉ actingRegisters

theorem pageWrite_stored {off : Nat} (n v : Nat) (s : State) (h : StoredAt off) :
    pageWrite n off v s = .next (s.modPart n fun p => p.writeReg off v) := by
  obtain ⟨hlt, -, hact⟩ := h
  unfold pageWrite
  rw [if_pos hlt]
  split
  case h_12 => rfl
  all_goals exact absurd (by decide) hact

theorem exec_registerWrite_stored {s : State} {n off : Nat} (v : Nat) (h : (s.part n).answers = true) (ho : StoredAt off) :
    exec (.registerWrite ⟨.page n, 8⟩ off v) s = .next (s.modPart n fun p => p.writeReg off v) := by
  rw [exec_registerWrite_page off v h ho.2.1, pageWrite_stored n v s ho]

theorem storedAt_of_mem_pageRegisters {v : Nat} : ∀ q ∈ pageRegisters v, StoredAt q.1 := by
  simp [pageRegisters, StoredAt, actingRegisters]

theorem storedAt_of_mem_pageReadBack {v : Nat} : ∀ q ∈ pageReadBack v, StoredAt q.1 := by
  simp [pageReadBack, StoredAt, actingRegisters]

/-- What a write stores in each register of the table. -/
theorem writeReg_of_mem_pageRegisters {v : Nat} : ∀ q ∈ pageRegisters v, ∀ p : Part, p.writeReg q.1 v = q.2 p := by
  simp [pageRegisters, Part.writeReg, alignDown_eq_shift, ofNat_max_four]

/-! ### What a stored write keeps -/

/-- What no step of a fold changes, the fold does not change. -/
theorem foldl_keeps {α β γ : Type} (get : α → γ) {f : α → β → α} (l : List β) (a : α) (h : ∀ a b, get (f a b) = get a) :
    get (l.foldl f a) = get a := by
  induction l generalizing a with
  | nil => rfl
  | cons b l ih => rw [List.foldl_cons, ih, h]

/-- What asking for pages again keeps: PRALLOC, and whether the page answers. -/
def heldByPromote (p : Part) : BitVec 10 × Bool := (p.pralloc, p.answers)

theorem heldByPromote_askAgain (p : Part) (q : PageReq) : heldByPromote (p.askAgain q) = heldByPromote p := by
  unfold Part.askAgain
  split <;> rfl

theorem heldByPromote_askPage (p : Part) (page slice : Nat) (w : Bool) : heldByPromote (p.askPage page slice w) = heldByPromote p := by
  unfold Part.askPage
  repeat' split
  all_goals rfl

theorem heldByPromote_promote (p : Part) : heldByPromote p.promote = heldByPromote p := by
  unfold Part.promote
  refine (foldl_keeps heldByPromote _ _ fun b (w : Nat × Nat × Bool) => heldByPromote_askPage b w.1 w.2.1 w.2.2).trans ?_
  exact foldl_keeps heldByPromote p.pageReqs p heldByPromote_askAgain

@[simp] theorem promote_pralloc (p : Part) : p.promote.pralloc = p.pralloc := congrArg Prod.fst (heldByPromote_promote p)

@[simp] theorem promote_answers (p : Part) : p.promote.answers = p.answers := congrArg Prod.snd (heldByPromote_promote p)

@[simp] theorem writePrivate_answers (p : Part) (k : Nat) (lim : Bool) (v : Nat) : (p.writePrivate k lim v).answers = p.answers := by
  unfold Part.writePrivate
  repeat' split
  all_goals rfl

/-- No register that a write stores makes a page answer, or hides it. -/
@[simp] theorem writeReg_answers (p : Part) (off v : Nat) : (p.writeReg off v).answers = p.answers := by
  unfold Part.writeReg
  repeat' split
  case h_6 => exact promote_answers _
  case isTrue => exact writePrivate_answers p _ _ v
  all_goals rfl

/-! ### Reading back -/

/-- Each register of the table reads as what was written there. -/
theorem read_writeReg_of_mem_pageReadBack {v : Nat} : ∀ q ∈ pageReadBack v, ∀ p : Part,
    (if q.1 < 0x400 then (p.writeReg q.1 v).readLow q.1 else (p.writeReg q.1 v).readHigh q.1) = q.2 := by
  have hsize : (BitVec.ofNat 4 (max 4 (v % 16))).toNat = if v % 16 < 4 then 4 else v % 16 := by
    rw [ofNat_max_four]
    split <;> simp
  have halloc : (BitVec.ofNat 10 (min 512 (v % 1024))).toNat = if 512 ≤ v % 1024 then 512 else v % 1024 := by
    rw [BitVec.toNat_ofNat]
    split <;> omega
  have hpool : v % 2 ^ 26 % 2 ^ 32 = v % 2 ^ 26 := by omega
  have h12 := toNat_alignDown v 12 (by decide)
  have h13 := toNat_alignDown v 13 (by decide)
  simp only [pageReadBack, List.forall_mem_cons, List.not_mem_nil, false_implies, implies_true, and_true, Part.writeReg,
    Part.readLow, Part.readHigh, promote_pralloc, BitVec.toNat_ofNat, h12, h13, hsize, halloc, hpool]
  simp

theorem registerWrite_reads_back {s : State} {n v : Nat} (h : (s.part n).answers = true) :
    ∀ q ∈ pageReadBack v, ∃ t, exec (.registerWrite ⟨.page n, 8⟩ q.1 v) s = .next t ∧ t.readReg (.page n) q.1 8 = q.2 := by
  intro q hq
  have ho := storedAt_of_mem_pageReadBack q hq
  have hread := readReg_modPart (f := fun p => p.writeReg q.1 v) h ((writeReg_answers _ _ v).trans h) ho.1 ho.2.1
  exact ⟨_, exec_registerWrite_stored v h ho, hread.trans (read_writeReg_of_mem_pageReadBack q hq _)⟩

theorem registerWrite_stores {s : State} {n v : Nat} (h : (s.part n).answers = true) :
    ∀ q ∈ pageRegisters v, exec (.registerWrite ⟨.page n, 8⟩ q.1 v) s = .next (s.modPart n q.2) := by
  intro q hq
  have hf : (fun p : Part => p.writeReg q.1 v) = q.2 := funext (writeReg_of_mem_pageRegisters q hq)
  rw [exec_registerWrite_stored v h (storedAt_of_mem_pageRegisters q hq), hf]

/-! ### Registers that act -/

theorem registerWrite_fccmd {s : State} {n : Nat} (v : Nat) (h : (s.part n).answers = true) :
    exec (.registerWrite ⟨.page n, 8⟩ 0x228 v) s = fccmdWrite n v s := exec_registerWrite_page _ v h rfl

/-- A word of FCCMD: the fields that R334 names, among bits that it does not name. -/
def fccmdWord (q seq k hi lo : Nat) : Nat := 2 ^ 46 * hi + 2 ^ 40 * k + 2 ^ 35 * lo + 2 ^ 32 * q + seq

/-- FCCMD reads its fields out of its word, whatever the bits between them hold (R6, R334). -/
theorem fccmdWord_fields {q seq k hi lo : Nat} (a : Nat) (hq : q < 8) (hs : seq < 2 ^ 32) (hk : k < 64) (hh : hi < 2 ^ 16) (hl : lo < 2 ^ 5)
    (ha : a < 4) :
    bits (2 ^ 62 * a + fccmdWord q seq k hi lo) 63 62 = a ∧ bits (2 ^ 62 * a + fccmdWord q seq k hi lo) 45 40 = k ∧
      bits (2 ^ 62 * a + fccmdWord q seq k hi lo) 34 32 = q ∧ bits (2 ^ 62 * a + fccmdWord q seq k hi lo) 31 0 = seq := by
  simp only [bits, fccmdWord]
  omega

theorem fccmdWrite_resume {q seq k hi lo : Nat} (n : Nat) (s : State) (hq : q < 8) (hs : seq < 2 ^ 32) (hk : k < 64) (hh : hi < 2 ^ 16)
    (hl : lo < 2 ^ 5) : fccmdWrite n (fccmdWord q seq k hi lo) s = exec (.fccmdResume n q seq k) s := by
  obtain ⟨hact, hreg, hque, hseq⟩ := fccmdWord_fields 0 hq hs hk hh hl (by decide)
  rw [Nat.mul_zero, Nat.zero_add] at hact hreg hque hseq
  rw [fccmdWrite, hact, hreg, hque, hseq]
  rfl

theorem fccmdWrite_end {q seq k hi lo : Nat} (n : Nat) (s : State) (hq : q < 8) (hs : seq < 2 ^ 32) (hk : k < 64) (hh : hi < 2 ^ 16)
    (hl : lo < 2 ^ 5) : fccmdWrite n (2 ^ 62 + fccmdWord q seq k hi lo) s = exec (.fccmdEnd n q seq k) s := by
  obtain ⟨hact, hreg, hque, hseq⟩ := fccmdWord_fields 1 hq hs hk hh hl (by decide)
  rw [Nat.mul_one] at hact hreg hque hseq
  rw [fccmdWrite, hact, hreg, hque, hseq]
  rfl

/-- ACTION 2 and 3 of FCCMD are ignored (R334). -/
theorem fccmdWrite_reserved {v : Nat} (n : Nat) (s : State) (hlt : v < 2 ^ 64) (hge : 2 ^ 63 ≤ v) : fccmdWrite n v s = .next s := by
  have hact : 2 ≤ bits v 63 62 := by
    simp only [bits]
    omega
  unfold fccmdWrite
  split
  · omega
  · omega
  · rfl

theorem gscmdWrite_eq (n v : Nat) (s : State) :
    gscmdWrite n v s = if v % 4 = 2 then exec (.gscmdSkip n) s else if v % 4 = 3 then exec (.gscmdRetry n) s else .next s := by
  have hb : bits v 1 0 = v % 4 := bits_zero v 1
  unfold gscmdWrite
  split
  · next h2 => rw [if_pos (hb.symm.trans h2)]; rfl
  · next h3 => rw [if_neg (by omega), if_pos (hb.symm.trans h3)]; rfl
  · next h2 h3 => rw [if_neg fun h => h2 (hb.trans h), if_neg fun h => h3 (hb.trans h)]

/-- ENCMD does what the event of its code does (R313, R326). -/
theorem engineWrite_encmd (n g v : Nat) (s : State) :
    engineWrite n g 5 v s =
      if v % 4 = 0 then exec (.encmdPause n g) s else if v % 4 = 1 then exec (.encmdResume n g) s
      else if v % 4 = 2 then exec (.encmdSkip n g) s else exec (.encmdRetry n g) s := by
  have hlt : v % 4 < 4 := Nat.mod_lt _ (by decide)
  have hb : engineWrite n g 5 v s = encmd n g (·.engCtl n g (v % 4)) s := by
    rw [← show bits v 1 0 = v % 4 from bits_zero v 1]
    rfl
  rw [hb]
  generalize v % 4 = c at hlt
  match c, hlt with
  | 0, _ => rfl
  | 1, _ => rfl
  | 2, _ => rfl
  | 3, _ => rfl

/-- A register of engine `g` stands at its place `k` in the engine's table (R313). -/
theorem registerWrite_engine {s : State} {n g k : Nat} (v : Nat) (h : (s.part n).answers = true) (hg : g < 64) (hk : k < 8) :
    exec (.registerWrite ⟨.page n, 8⟩ (0x800 + 8 * k + 64 * g) v) s = engineWrite n g k v s := by
  have hno : (0x800 + 8 * k + 64 * g - 0x800) / 64 = g := by omega
  have hat : (0x800 + 8 * k + 64 * g) % 64 / 8 = k := by omega
  rw [exec_registerWrite_page _ v h (by omega)]
  unfold pageWrite
  rw [if_neg (by omega), if_neg (by omega), if_pos (by omega), hno, hat]

theorem registerWrite_plcmd {s : State} {n : Nat} (v : Nat) (h : (s.part n).answers = true) :
    exec (.registerWrite ⟨.page n, 8⟩ 0x640 v) s = if v % 2 = 1 then exec (.plcmdLoad n) s else .next s := by
  have hw : exec (.registerWrite ⟨.page n, 8⟩ 0x640 v) s = if bit v 0 then exec (.plcmdLoad n) s else .next s :=
    exec_registerWrite_page _ v h rfl
  rw [hw]
  simp [bit]

/-! ### TTINV and MTINV (R245, R372) -/

@[simp] theorem oweLines_parts (s : State) (n : Nat) (gone : Nat → Bool) : (s.oweLines n gone).parts = s.parts := by
  unfold State.oweLines
  exact foldl_keeps State.parts _ _ fun _ _ => rfl

theorem oweLines_part (s : State) (n m : Nat) (gone : Nat → Bool) : (s.oweLines n gone).part m = s.part m := by
  rw [State.part, oweLines_parts, State.part]

theorem modCaches_answers {s : State} {n : Nat} (f : ReqCache → ReqCache) (h : (s.part n).answers = true) :
    ((s.modCaches n f).part n).answers = true := by
  unfold State.modCaches
  exact answers_modPart (by exact h) fun _ => rfl

theorem dropDescs_answers {s : State} {n : Nat} (gone : Nat → Bool) (h : (s.part n).answers = true) :
    ((s.dropDescs n gone).part n).answers = true := by
  unfold State.dropDescs
  exact answers_modPart (modCaches_answers _ h) fun _ => rfl

/-- TTINV reads as its argument beside BUSY once it is written. -/
theorem ttinvWrite_reads_back {s : State} {n : Nat} (w : BitVec 17) (h : (s.part n).answers = true) (hb : (s.part n).ttBusy = false) :
    ∃ t, exec (.ttinvWrite n w.toNat) s = .next t ∧ t.readReg (.page n) 0x110 8 = 2 ^ 31 + w.toNat := by
  have hu (gone : Nat → Bool) : (((s.dropDescs n gone).oweLines n gone).part n).answers = true := by
    rw [oweLines_part]
    exact dropDescs_answers gone h
  refine ⟨_, if_neg (by simp [h, hb]), (readReg_modPart (hu _) (hu _) (by decide) (by decide)).trans ?_⟩
  rw [if_pos (by decide)]
  change 1 * 2 ^ 31 + (BitVec.ofNat 17 w.toNat).toNat = _
  rw [BitVec.ofNat_toNat, BitVec.setWidth_eq, Nat.one_mul]

theorem mtinv_arg (v : Nat) : bits v 11 0 + 2 ^ 16 * bits v 16 16 = v % 4096 + if v.testBit 16 then 2 ^ 16 else 0 := by
  simp only [bits, Nat.testBit_eq_decide_div_mod_eq, decide_eq_true_eq]
  split <;> omega

/-- MTINV reads as its argument beside BUSY once it is written. -/
theorem mtinvWrite_reads_back {s : State} {n : Nat} (v : Nat) (h : (s.part n).answers = true) (hb : (s.part n).mtBusy = false) :
    ∃ t, exec (.mtinvWrite n v) s = .next t ∧
      t.readReg (.page n) 0x308 8 = 2 ^ 31 + (v % 4096 + if v.testBit 16 then 2 ^ 16 else 0) := by
  have harg : (v % 4096 + if v.testBit 16 then 2 ^ 16 else 0) < 2 ^ 17 := by split <;> omega
  refine ⟨_, if_neg (by simp [h, hb]), (readReg_modPart h h (by decide) (by decide)).trans ?_⟩
  rw [if_pos (by decide)]
  change 1 * 2 ^ 31 + (BitVec.ofNat 17 (bits v 11 0 + 2 ^ 16 * bits v 16 16)).toNat = _
  rw [mtinv_arg, BitVec.toNat_ofNat, Nat.mod_eq_of_lt harg, Nat.one_mul]

/-! ### The partition table, slices, and the operator's registers (R260, R419, R451, R454) -/

theorem registerWrite_table {s : State} {n off : Nat} (v : Nat) (ho : off < 0x40) (hc : off ≠ 0x20) :
    exec (.registerWrite ⟨.table n, 8⟩ off v) s = .next (s.writeTable n off v) := by
  have hw : exec (.registerWrite ⟨.table n, 8⟩ off v) s = tableWrite n off v s := exec_registerWrite _ off v s
  rw [hw, tableWrite, if_neg hc, if_neg (by omega)]

/-- The table's entry of a partition that is enabled keeps its resources (R419). -/
theorem writeTable_enabled {s : State} {n : Nat} (v : Nat) (h : (s.part n).enable = true) :
    ∀ off ∈ [0x00, 0x08, 0x10, 0x18], s.writeTable n off v = s := by
  simp [State.writeTable, h]

theorem registerWrite_slice {s : State} {n : Nat} (k v : Nat) (h : (s.part n).answers = true) :
    exec (.registerWrite ⟨.page n, 8⟩ (0x2000 + 16 * k) v) s = .next (s.writeSlice n k v) := by
  have hk : (0x2000 + 16 * k - 0x2000) / 16 = k := by omega
  rw [exec_registerWrite_page _ v h (by omega)]
  unfold pageWrite
  rw [if_neg (by omega), if_neg (by omega), if_neg (by omega), if_neg (by omega), if_neg (by omega), if_pos (by omega), hk]

theorem writeSlice_held {s : State} {n k page : Nat} (v : Nat) (hp : (s.part n).pageList[k]? = some page)
    (h : ∃ l ∈ (s.part n).launches, page ∈ l.pages) : s.writeSlice n k v = s := by
  simp only [State.writeSlice, hp]
  exact if_pos (by simpa using h)

theorem writeSlice_free {s : State} {n k page : Nat} (v : Nat) (hp : (s.part n).pageList[k]? = some page)
    (h : ∀ l ∈ (s.part n).launches, page ∉ l.pages) :
    s.writeSlice n k v = s.modPage page fun g => { g with resw := if 12 ≤ v % 16 then 12 else BitVec.ofNat 4 v } := by
  simp only [State.writeSlice, hp, ofNat_min_twelve]
  exact if_neg (by simpa using h)

theorem ocValue_eqtotal {s : State} (hc : ocCls s.mgmt.ocsel = 2) (hu : ocUnit s.mgmt.ocsel = 0xFFFF) :
    s.ocValue = (s.part (ocPart s.mgmt.ocsel)).eqtotal := if_pos ⟨hc, hu⟩

/-- What the policy hides, and a class that names nothing, read as all ones (R451, R454). -/
theorem ocValue_hidden {s : State}
    (h : 4 < ocCls s.mgmt.ocsel ∨
      (ocCls s.mgmt.ocsel ≠ 2 ∧ (s.part (ocPart s.mgmt.ocsel)).gran (ocPolicy (ocCls s.mgmt.ocsel)) = 0)) :
    s.ocValue = BitVec.allOnes 64 := by
  have hc : ocCls s.mgmt.ocsel ≠ 2 := by
    rcases h with h | h
    · omega
    · exact h.1
  unfold State.ocValue
  dsimp only
  rw [if_neg fun h2 => hc h2.1, if_pos (h.imp_right fun hg => .inl hg.2)]

/-! ### The statement -/

/-- Settles O57: the registers that a write stores by the table of what each stores and reads as, those that act by the events that they name. -/
theorem registersWritten : Obligations.RegistersWritten := by
  intro s n v
  refine ⟨registerWrite_stores, registerWrite_reads_back,
    fun w off => ⟨fun h => exec_registerWrite_page_ignored v (.inr h), fun h => readReg_page_zero off (.inr h)⟩,
    fun h q seq k hi lo hq hs hk hh hl => ?fccmd,
    fun h hlt hge => ?reserved,
    fun h => ?acting,
    fun h w => ⟨ttinvWrite_reads_back w h, mtinvWrite_reads_back w.toNat h⟩,
    fun h off => ⟨exec_registerWrite_page_ignored v (.inl h), readReg_page_zero off (.inl h)⟩,
    fun h off ho => ?enabled,
    fun h => ?disabled,
    ?keyAddr,
    fun k page h hp => ?slice,
    rfl, rfl, ?ocval⟩
  case fccmd =>
    exact ⟨(registerWrite_fccmd _ h).trans (fccmdWrite_resume n s hq hs hk hh hl),
      (registerWrite_fccmd _ h).trans (fccmdWrite_end n s hq hs hk hh hl)⟩
  case reserved => exact (registerWrite_fccmd v h).trans (fccmdWrite_reserved n s hlt hge)
  case acting =>
    have page (off : Nat) (ho : off % 8 = 0) := exec_registerWrite_page off v h ho
    refine ⟨page 0x000 rfl, page 0x008 rfl, page 0x110 rfl, page 0x308 rfl, page 0x318 rfl, page 0x320 rfl, page 0x408 rfl, page 0x630 rfl,
      registerWrite_plcmd v h, (page 0x340 rfl).trans (gscmdWrite_eq n v s), fun g hg => ⟨registerWrite_engine (k := 0) v h hg (by decide),
      registerWrite_engine (k := 1) v h hg (by decide), (registerWrite_engine (k := 5) v h hg (by decide)).trans (engineWrite_encmd n g v s)⟩⟩
  case enabled =>
    have hoff : off < 0x40 ∧ off ≠ 0x20 := by
      revert off
      decide
    rw [registerWrite_table v hoff.1 hoff.2, writeTable_enabled v h off ho]
  case disabled =>
    have table (off : Nat) (ho : off < 0x40) (hc : off ≠ 0x20) := registerWrite_table (s := s) (n := n) v ho hc
    refine ⟨(table 0x00 (by decide) (by decide)).trans ?_, (table 0x08 (by decide) (by decide)).trans ?_,
      (table 0x10 (by decide) (by decide)).trans ?_⟩ <;> simp [State.writeTable, h]
  case keyAddr => exact registerWrite_table v (by decide) (by decide)
  case slice =>
    rw [registerWrite_slice k v h]
    exact ⟨fun hl => congrArg _ (writeSlice_held v hp hl), fun hl => congrArg _ (writeSlice_free v hp hl)⟩
  case ocval =>
    exact ⟨{ s with mgmt := { s.mgmt with ocval := s.ocValue } }, rfl, rfl, rfl, ocValue_eqtotal, ocValue_hidden⟩

end Sys2Proof.Proofs
end

