-- ==== Sys2Proof/Proofs/Comparisons.lean ====
section
/-! SUPPORT. CMP, CMPI, SEL, MOV and NUL (R46, R47, R122 to R127): the conditions on two lanes, the immediate of CMPI, the lanes that MOV copies and the
token that SEL chooses, as the statements write them. -/

namespace Sys2Proof.Proofs

open Sys2Proof Sys2Proof.Machine Sys2Proof.Claims Sys2Proof.Laws

/-! ### Tokens -/

theorem isNull_iff (t : Token) : t.isNull = true ↔ t.kind = .null := by simp [Token.isNull]

theorem isNull_eq_false_iff (t : Token) : t.isNull = false ↔ t.kind ≠ .null := by simp [Token.isNull]

theorem truth_eq_getLsbD (t : Token) : t.truth = t.data.getLsbD 0 := by
  simp [Token.truth, bit, BitVec.getLsbD, Nat.testBit_zero]
  rfl

/-! ### A slot that goes -/

/-- An instruction that `run` carries out issues, once it goes, what its function says. -/
theorem run_issues {s : State} {i : Instr} {x y : Elem} {r : Args} {f : Cursor → Elem → Args → Act} {lat : Nat}
    {outs : List (Nat × Tgt × Token)} (h : gate s i = .go x r) (hf : f s.cur x r = .issue y lat outs) :
    run i f s = .next (s.setElem s.cur.e (y.issue s.cur lat outs)) := by
  rw [run_go f h, hf]

/-! ### Signed readings -/

theorem sgn_toNat {w : Nat} (x : BitVec w) : sgn w x.toNat = x.toInt := by
  simp [sgn, BitVec.toInt_eq_toNat_cond, Nat.mod_eq_of_lt x.isLt]

theorem wrap_toInt {v w : Nat} (x : BitVec v) : wrap w x.toInt = (x.signExtend w).toNat := by
  rw [BitVec.signExtend, BitVec.toNat_ofInt, wrap]

/-! ### Conditions (R46, R47) -/

/-- The model's conditions on numbers are the conditions on the lanes themselves. -/
theorem condHolds_eq_condition (c : Cond) (x y : BitVec 32) : condHolds c x.toNat y.toNat = condition c x y := by
  cases c
  case eq => exact decide_eq_decide.mpr BitVec.toNat_inj
  case ne => simp [condHolds, condition, bne, BitVec.toNat_inj]
  all_goals simp [condHolds, condition, sgn_toNat, BitVec.slt, BitVec.sle, BitVec.ult, BitVec.ule]

theorem cmpiVal_eq_compareImm (c : Cond) (v : BitVec 9) : cmpiVal c v = (compareImm c v).toNat := by
  have hs : wrap 32 (sgn 9 v.toNat) = (v.signExtend 32).toNat := by rw [sgn_toNat, wrap_toInt]
  have hu : v.toNat = (v.setWidth 32).toNat := (BitVec.toNat_setWidth_of_le (by decide)).symm
  cases c
  case ltu | leu | gtu | geu => exact hu
  all_goals exact hs

/-! ### MOV and SEL (R123, R124) -/

theorem ofEls_singleton (w : Nat) (x : BitVec w) : ofEls w [x.toNat] = x.setWidth 512 := by
  have h : packNat w [x.toNat] = x.toNat := by simp [packNat, Nat.mod_eq_of_lt x.isLt]
  rw [ofEls, h, BitVec.ofNat_toNat]

theorem movData_eq_moved (sh : Shape) (d : Payload) : movData sh d = moved sh d := by
  have low (w : Nat) : ofEls w [elAt w d 0] = (d.setWidth w).setWidth 512 := by
    have h : d.extractLsb' (w * 0) w = d.setWidth w := BitVec.eq_of_toNat_eq (by simp)
    rw [elAt_eq, ofEls_singleton, h]
  cases sh
  case s => exact low 32
  case d => exact low 64
  all_goals rfl

/-- SEL's token as R123 says it. -/
theorem selTok_eq (r : Args) :
    selTok r = if r.t.kind = .null ∨ (if r.t.data.getLsbD 0 then r.l else r.r).kind = .null then nullTok r.tag
      else { (if r.t.data.getLsbD 0 then r.l else r.r) with tag := r.tag } := by
  simp only [selTok, truth_eq_getLsbD, Bool.or_eq_true, isNull_iff]

/-! ### The statement -/

/-- Settles O7: each of the five issues its token, which is the one that the rules name. -/
theorem comparisonsAndSelections : Obligations.ComparisonsAndSelections := by
  refine ⟨fun s x r p c v a b => ⟨fun h => ?cmp, fun h => ?cmpi⟩, fun s x r p sh u a b => ⟨fun h => ?sel, fun h => ?mov, fun h => ?nul⟩⟩
  case cmp =>
    rw [Emits, Issues, exec, execCmp]
    exact run_issues h (by rw [elAt_eq, elAt_eq, condHolds_eq_condition])
  case cmpi =>
    rw [Emits, Issues, exec, execCmpi]
    exact run_issues h (by rw [elAt_eq, cmpiVal_eq_compareImm, condHolds_eq_condition])
  case sel =>
    rw [Emits, Issues, exec, execSel]
    exact run_issues h (by rw [selTok_eq])
  case mov =>
    rw [Emits, Issues, exec, execMov]
    exact run_issues h (by rw [movData_eq_moved])
  case nul =>
    rw [Emits, Issues, exec, execNul]
    exact run_issues h rfl

end Sys2Proof.Proofs
end

