-- ==== Sys2Proof/Proofs/Records.lean ====
section
/-! SUPPORT. FILT and MERGE (R16, R17, R161, R169, R170): where FILT sends its record, and what MERGE takes, by the heads of its arm ports. -/

namespace Sys2Proof.Proofs

open Sys2Proof Sys2Proof.Machine Sys2Proof.Claims Sys2Proof.Laws

/-! ### FILT (R161, R169) -/

theorem lane0_b2n (b : Bool) : lane0 (b2n b) = if b then 1 else 0 := by cases b <;> rfl

theorem condTok_eq (b : Bool) (tag : Option (BitVec 16)) : condTok b tag = ⟨.cond, if b then 1 else 0, tag⟩ := by
  rw [condTok, lane0_b2n]

theorem filtSends_eq_filtered (g w : Bool) (c f : BitVec 3) (a : Tgt) (seq : Nat) (r : Args) :
    filtSends g w c f a seq r = filtered g w c f a seq r := by
  cases a <;> simp only [filtSends, filtered, condTok_eq, truth_eq_getLsbD, Bool.or_eq_true, isNull_iff, nullTok]

/-- A FILT that goes waits while its window is full, and else issues its record and counts it. -/
theorem exec_filt_go {s : State} {x : Elem} {r : Args} {p : Pm} {g w : Bool} {c f : BitVec 3} {a : Tgt}
    (h : gate s (.filt p g w c f a) = .go x r) :
    exec (.filt p g w c f a) s =
      if w = true ∧ s.condWindow x s.cur.e c.toNat ≤ (x.filt s.cur.place).2 then .next s
      else
        let seq := (x.filt s.cur.place).1
        let win := (x.filt s.cur.place).2
        let out := filtered g w c f a seq r
        .next (s.setElem s.cur.e (((x.freeOuts s.cur out.2).setFilt s.cur.place (if g then (seq + 1) % 65536 else seq)
          (if w then win + 1 else win)).issue s.cur 1 out.1)) := by
  rw [exec, execFilt, runS_go _ h]
  simp only [filtSends_eq_filtered, Bool.and_eq_true, decide_eq_true_eq, State.finish]

/-! ### MERGE (R170) -/

/-- Counting a window down loses no element. -/
theorem elem_countDown {s : State} {e : Nat} {x : Elem} (k : Option (Nat × Nat)) (h : s.elem? e = some x) :
    ∃ y, (s.countDown k).elem? e = some y := by
  match k with
  | none => exact ⟨x, h⟩
  | some (d, slot) =>
    by_cases hd : e = d
    · subst hd
      exact ⟨_, by rw [State.countDown, elem_modElem_same, h]; rfl⟩
    · exact ⟨x, by rw [State.countDown, elem_modElem_other _ _ _ _ hd, h]⟩

section
variable {s : State} {x : Elem} {r : Args} {p : Pm} {f t : BitVec 3} {g : Bool} {a : Tgt}

/-- What a MERGE that goes chooses. -/
def mergeChoice (s : State) (x : Elem) (r : Args) (f t : BitVec 3) (g : Bool) : Merge :=
  mergeStep g t.toNat f.toNat r.t (x.head? t.toNat) (x.head? f.toNat) (x.expect s.cur.place)

/-- The element with the expected tag of a tagged MERGE counted. -/
def mergeCounted (s : State) (x : Elem) (g : Bool) (y : Elem) : Elem :=
  if g then { y with merges := put s.cur.place ((x.expect s.cur.place + 1) % 65536) y.merges } else y

theorem exec_merge_wait (h : gate s (.merge p f t g a) = .go x r) (hc : mergeChoice s x r f t g = .wait) :
    exec (.merge p f t g a) s = .next s := by
  rw [mergeChoice] at hc
  rw [exec, execMerge, runS_go _ h]
  simp only [hc]

theorem exec_merge_bad (h : gate s (.merge p f t g a) = .go x r) (hc : mergeChoice s x r f t g = .bad) :
    Raises (.merge p f t g a) s 1 0 0 0 := by
  rw [mergeChoice] at hc
  rw [Raises, exec, execMerge, runS_go _ h]
  simp only [hc, tcIllegal]

/-- A MERGE that takes counts the window of its FILT down, and issues in what is left. -/
theorem exec_merge_take {ports : List Nat} {v : Token} (h : gate s (.merge p f t g a) = .go x r)
    (hc : mergeChoice s x r f t g = .take ports v) : ∃ y, (s.countDown (s.pairedFilt s.cur x)).elem? s.cur.e = some y ∧
      IssuesIn (.merge p f t g a) s (s.countDown (s.pairedFilt s.cur x)) (mergeCounted s x g (ports.foldl Elem.take y)) 1
        (toAll (.merge p f t g a) ⟨v.kind, v.data, none⟩) := by
  obtain ⟨y, hy⟩ := elem_countDown (s.pairedFilt s.cur x) (gate_elem h)
  refine ⟨y, hy, ?_⟩
  rw [mergeChoice] at hc
  rw [IssuesIn, exec, execMerge, runS_go _ h]
  simp only [hc, hy]
  rfl

/-! #### By a condition -/

theorem mergeChoice_null (hn : r.t.kind = .null) : mergeChoice s x r f t false =
    match x.head? t.toNat, x.head? f.toNat with
    | some _, some _ => .take [t.toNat, f.toNat] (nullTok none)
    | _, _ => .wait := by
  simp only [mergeChoice, mergeStep, (isNull_iff _).mpr hn]
  rfl

theorem mergeChoice_arm (hn : r.t.kind ≠ .null) : mergeChoice s x r f t false =
    match x.head? (if r.t.data.getLsbD 0 then t.toNat else f.toNat) with
    | some v => .take [if r.t.data.getLsbD 0 then t.toNat else f.toNat] v
    | none => .wait := by
  simp only [mergeChoice, mergeStep, (isNull_eq_false_iff _).mpr hn, truth_eq_getLsbD]
  cases r.t.data.getLsbD 0 <;> rfl

/-! #### By tags -/

/-- The tag that a MERGE expects. -/
def dueTag (s : State) (x : Elem) : Option (BitVec 16) := some (BitVec.ofNat 16 (x.expect s.cur.place))

/-- A head, if there is one, has a tag, and not the one that is due. -/
def OtherTag (s : State) (x : Elem) (h : Option Token) : Prop := ∀ w, h = some w → w.tag ≠ none ∧ w.tag ≠ dueTag s x

/-- A head without a tag, and a head with the tag that is due. -/
def untagged (h : Option Token) : Bool := h.any fun v => v.tag == none
def hits (s : State) (x : Elem) (h : Option Token) : Bool := h.any fun v => v.tag == dueTag s x

theorem mergeChoice_tagged : mergeChoice s x r f t true =
    if untagged (x.head? t.toNat) || untagged (x.head? f.toNat) then .bad
    else match hits s x (x.head? t.toNat), hits s x (x.head? f.toNat) with
    | true, true => .take [t.toNat, f.toNat] (nullTok none)
    | true, false => .take [t.toNat] ((x.head? t.toNat).getD (nullTok none))
    | false, true => .take [f.toNat] ((x.head? f.toNat).getD (nullTok none))
    | false, false => .wait := by
  rw [mergeChoice]
  generalize x.head? t.toNat = hT
  generalize x.head? f.toNat = hF
  cases hT <;> cases hF <;> rfl

theorem untagged_of_other {h : Option Token} (ho : OtherTag s x h) : untagged h = false := by
  cases h with
  | none => rfl
  | some v => exact beq_eq_false_iff_ne.mpr (ho v rfl).1

theorem hits_of_other {h : Option Token} (ho : OtherTag s x h) : hits s x h = false := by
  cases h with
  | none => rfl
  | some v => exact beq_eq_false_iff_ne.mpr (ho v rfl).2

theorem untagged_of_due {v : Token} (hv : v.tag = dueTag s x) : untagged (some v) = false := by
  simp [untagged, hv, dueTag]

theorem hits_of_due {v : Token} (hv : v.tag = dueTag s x) : hits s x (some v) = true := by simp [hits, hv]

end

/-! ### The statement -/

/-- Settles O19: FILT by its one equation; MERGE by what it chooses, from its condition or from the tags at its heads. -/
theorem recordsRouted : Obligations.RecordsRouted := by
  refine ⟨fun s x r p g w c f a h => ⟨fun hw hfull => ?full, fun hroom => ?routes⟩,
    fun s x r p f t a => ⟨fun h => ⟨fun hn => ⟨fun v hv => ?arm, fun hv => ?armEmpty⟩, fun hn => ⟨fun hT hF => ?both, fun hTF => ?oneEmpty⟩⟩,
      fun h => ⟨?bad, fun v hv => ⟨fun hT hF => ?fromT, fun hF hT => ?fromF, fun w hw hT hF => ?dueAtBoth⟩, fun hT hF => ?noneDue⟩⟩⟩
  case full => rw [exec_filt_go h, if_pos ⟨hw, hfull⟩]
  case routes =>
    have hn : ¬ (w = true ∧ s.condWindow x s.cur.e c.toNat ≤ (x.filt s.cur.place).2) := by
      rintro ⟨hw, hle⟩
      rcases hroom with hf | hlt
      · exact absurd hw (by simp [hf])
      · exact absurd hle (Nat.not_le_of_lt hlt)
    rw [Issues, exec_filt_go h, if_neg hn]
    rfl
  case arm => exact exec_merge_take h (by rw [mergeChoice_arm hn, hv])
  case armEmpty => exact exec_merge_wait h (by rw [mergeChoice_arm hn, hv])
  case both =>
    obtain ⟨v, hv⟩ := Option.ne_none_iff_exists'.mp hT
    obtain ⟨w, hw⟩ := Option.ne_none_iff_exists'.mp hF
    exact exec_merge_take h (by rw [mergeChoice_null hn, hv, hw])
  case oneEmpty =>
    refine exec_merge_wait h ?_
    rw [mergeChoice_null hn]
    rcases hTF with hT | hF
    · rw [hT]
    · rw [hF]
      cases x.head? t.toNat <;> rfl
  case bad =>
    rintro ⟨v, hv, ht⟩
    refine exec_merge_bad h ?_
    rw [mergeChoice_tagged, if_pos]
    rcases hv with hv | hv <;> simp [hv, untagged, ht]
  case fromT => exact exec_merge_take h (by
    rw [mergeChoice_tagged, hT, untagged_of_due hv, untagged_of_other hF, hits_of_due hv, hits_of_other hF]; rfl)
  case fromF => exact exec_merge_take h (by
    rw [mergeChoice_tagged, hF, untagged_of_due hv, untagged_of_other hT, hits_of_due hv, hits_of_other hT]; rfl)
  case dueAtBoth => exact exec_merge_take h (by
    rw [mergeChoice_tagged, hT, hF, untagged_of_due hv, untagged_of_due hw, hits_of_due hv, hits_of_due hw]; rfl)
  case noneDue => exact exec_merge_wait h (by
    rw [mergeChoice_tagged, untagged_of_other hT, untagged_of_other hF, hits_of_other hT, hits_of_other hF]; rfl)

end Sys2Proof.Proofs
end

