-- ==== Sys2Proof/Proofs/Gates.lean ====
section
/-! SUPPORT. The gate of a slot (R11, R20, R21, R42, R107, R109): what it says of a slot that is ready and of one that is not, and that every
instruction does what its gate says where it does not execute. -/

namespace Sys2Proof.Proofs

open Sys2Proof Sys2Proof.Machine Sys2Proof.Claims Sys2Proof.Laws

/-! ### What the gate says -/

theorem portReady_iff (now : Nat) (used : Bool) (o : Option Opnd) : portReady now used o = true ↔ Arrived now used o := by
  cases used <;> cases o <;> simp [portReady, Arrived]

/-- The tokens that the gate reads are the operands of the statement. -/
theorem gateArgs_eq_operands (i : Instr) (sl : Slot) :
    (⟨tokAt (if (infoOf i).l then sl.l else none), tokAt (if (infoOf i).r then sl.r else none),
      tokAt (if (infoOf i).t then sl.t else none)⟩ : Args) = operands i sl := by
  have port (used : Bool) (o : Option Opnd) : tokAt (if used then o else none) =
      if used then (o.map (·.tok)).getD ⟨.data, 0, none⟩ else ⟨.data, 0, none⟩ := by
    cases used <;> cases o <;> rfl
  simp only [operands, port]

theorem tokAt_eq_predTok (sl : Slot) : tokAt sl.p = predTok sl := by
  unfold tokAt predTok
  cases sl.p <;> rfl

theorem marker_eq_isMarker (t : Token) : t.marker = isMarker t := rfl

theorem isMarker_ne_null {t : Token} (h : isMarker t = true) : t.kind ≠ .null := by
  intro hn
  simp [isMarker, hn] at h

section
variable {i : Instr} {sl : Slot}

theorem predGate_pass (h : PredHolds i sl) : predGate (infoOf i).pm sl.p = .pass := by
  rcases h with h | ⟨hn, hm, ht⟩
  · rw [h, predGate]
  · cases hp : (infoOf i).pm <;> rw [hp] at ht <;>
      simp_all [predGate, tokAt_eq_predTok, marker_eq_isMarker, isNull_eq_false_iff, truth_eq_getLsbD]

theorem predGate_miss (h : PredFails i sl) : predGate (infoOf i).pm sl.p = .miss := by
  obtain ⟨hp, hn | ⟨hm, ht⟩⟩ := h
  · cases hpm : (infoOf i).pm <;> simp_all [predGate, tokAt_eq_predTok, isNull_iff]
  · cases hpm : (infoOf i).pm <;> rw [hpm] at ht <;>
      simp_all [predGate, tokAt_eq_predTok, marker_eq_isMarker, truth_eq_getLsbD]

theorem predGate_bad (hp : (infoOf i).pm ≠ .none) (h : isMarker (predTok sl) = true) : predGate (infoOf i).pm sl.p = .bad := by
  have hn := (isNull_eq_false_iff _).mpr (isMarker_ne_null h)
  cases hpm : (infoOf i).pm <;> simp_all [predGate, tokAt_eq_predTok, marker_eq_isMarker]

end

section
variable {s : State} {i : Instr} {x : Elem} {sl : Slot}

/-- The gate's test of the operands for nulls that the instruction does not treat itself. -/
theorem nullTest_iff : (!(infoOf i).ownNull && ((operands i sl).l.isNull || (operands i sl).r.isNull || (operands i sl).t.isNull)) = true ↔
    ((infoOf i).ownNull = false ∧ SomeNull i sl) := by
  simp [SomeNull, isNull_iff, or_assoc]

/-- The gate's test of the operands for markers that the instruction does not accept. -/
theorem markerTest_iff : (((operands i sl).l.marker && !(infoOf i).mkL) || ((operands i sl).r.marker && !(infoOf i).mkR) ||
    (operands i sl).t.marker) = true ↔ ¬ MarkersFit i sl := by
  simp only [MarkersFit, marker_eq_isMarker, Bool.or_eq_true, Bool.and_eq_true, Bool.not_eq_true', not_and_or, Classical.not_imp,
    Bool.not_eq_true, Bool.not_eq_false, or_assoc]

/-- The gate of a ready slot is decided by its predicate, then by nulls, then by markers. -/
theorem gate_of_ready (h : ReadySlot s i x sl) : gate s i =
    match predGate (infoOf i).pm sl.p with
    | .miss => .nullify x (operands i sl).tag
    | .bad => .illegal
    | .pass =>
      if !(infoOf i).ownNull && ((operands i sl).l.isNull || (operands i sl).r.isNull || (operands i sl).t.isNull) then
        .nullify x (operands i sl).tag
      else if ((operands i sl).l.marker && !(infoOf i).mkL) || ((operands i sl).r.marker && !(infoOf i).mkR) || (operands i sl).t.marker then
        .illegal
      else .go x (operands i sl) := by
  obtain ⟨f, hx, hrun, hf, hsl, hiss, hl, hr, ht, hp, hreg, harc, hunit⟩ := h
  rw [← portReady_iff] at hl hr ht hp
  rw [← gateArgs_eq_operands]
  simp only [gate, hx, hrun, hf, hsl, hiss, hl, hr, ht, hp, hreg, harc, hunit]
  rfl

theorem gate_of_miss (h : ReadySlot s i x sl) (hp : PredFails i sl) : gate s i = .nullify x (operands i sl).tag := by
  rw [gate_of_ready h, predGate_miss hp]

theorem gate_of_bad (h : ReadySlot s i x sl) (hp : (infoOf i).pm ≠ .none) (hm : isMarker (predTok sl) = true) : gate s i = .illegal := by
  rw [gate_of_ready h, predGate_bad hp hm]

theorem gate_of_null (h : ReadySlot s i x sl) (hp : PredHolds i sl) (hn : (infoOf i).ownNull = false ∧ SomeNull i sl) :
    gate s i = .nullify x (operands i sl).tag := by
  rw [gate_of_ready h, predGate_pass hp]
  exact if_pos (nullTest_iff.mpr hn)

/-- With its predicate held and no null that it does not treat, a ready slot goes or is illegal, by its markers. -/
theorem gate_of_operands (h : ReadySlot s i x sl) (hp : PredHolds i sl) (hn : (infoOf i).ownNull = true ∨ ¬ SomeNull i sl) :
    (MarkersFit i sl → gate s i = .go x (operands i sl)) ∧ (¬ MarkersFit i sl → gate s i = .illegal) := by
  have hnt : ¬ ((infoOf i).ownNull = false ∧ SomeNull i sl) := by
    rintro ⟨ho, hs⟩
    exact hn.elim (fun h => absurd h (by simp [ho])) (fun h => h hs)
  rw [gate_of_ready h, predGate_pass hp]
  refine ⟨fun hm => ?_, fun hm => ?_⟩
  · exact (if_neg (mt nullTest_iff.mp hnt)).trans (if_neg (mt markerTest_iff.mp (not_not_intro hm)))
  · exact (if_neg (mt nullTest_iff.mp hnt)).trans (if_pos (markerTest_iff.mpr hm))

/-- A slot waits that has issued, that lacks an operand, or whose element does not run. -/
theorem gate_wait {f : Firing} (hx : s.elem? s.cur.e = some x) (hf : x.firing? s.cur.no s.cur.epi = some f)
    (hsl : f.slots[s.cur.slot]? = some sl)
    (h : sl.issued = true ∨ x.stopped = true ∨ ¬ Arrived x.icyc (infoOf i).l sl.l ∨ ¬ Arrived x.icyc (infoOf i).r sl.r ∨
      ¬ Arrived x.icyc (infoOf i).t sl.t ∨ ¬ Arrived x.icyc ((infoOf i).pm != .none) sl.p) : gate s i = .wait := by
  simp only [← portReady_iff, Bool.not_eq_true] at h
  simp only [gate, hx, hf, hsl]
  rcases h with h | h | h | h | h | h <;> simp [h, State.runs]

end

/-! ### What a slot does that does not execute -/

/-- An outcome follows the gate where the slot does not execute: it changes nothing while the slot waits, is the trap of R42 at an operand
that is no operand, and, of a nullified slot, is the issue of its nulls, once the order of R113 lets it (R109). -/
def FollowsGate (i : Instr) (s : State) (out : Out) : Prop :=
  (gate s i = .wait → out = .next s) ∧
  (gate s i = .illegal → out = .next (s.raise s.cur tcIllegal 0 0 0)) ∧
  ∀ x tag, gate s i = .nullify x tag →
    out = if s.nullHeld x s.cur i then .next s else .next (s.setElem s.cur.e (x.nullified s.cur i tag))

section
variable {i : Instr} {s : State}

theorem nullHeld_of_no_memPath (x : Elem) (h : memPath i = none) : s.nullHeld x s.cur i = false := by
  simp only [State.nullHeld, h]

theorem run_followsGate (f : Cursor → Elem → Args → Act) (h : memPath i = none) : FollowsGate i s (run i f s) := by
  refine ⟨fun hg => ?_, fun hg => ?_, fun x tag hg => ?_⟩ <;> simp [run, hg, nullHeld_of_no_memPath, h]

theorem runS_followsGate (f : Cursor → Elem → Args → State → Out) (h : memPath i = none) : FollowsGate i s (runS i f s) := by
  refine ⟨fun hg => ?_, fun hg => ?_, fun x tag hg => ?_⟩ <;> simp [runS, hg, nullHeld_of_no_memPath, h]

theorem compute_followsGate (lat : Nat) (f : Args → Payload × Nat) (h : memPath i = none) : FollowsGate i s (compute i lat f s) :=
  run_followsGate _ h

theorem intOp_followsGate (sh : Shape) (lat : Nat) (f : Nat → Nat → Nat → Nat → Nat) (h : memPath i = none) :
    FollowsGate i s (intOp i sh lat f s) := compute_followsGate _ _ h

theorem divOp_followsGate (sh : Shape) (f : Nat → Nat → Nat → Nat) (h : memPath i = none) : FollowsGate i s (divOp i sh f s) :=
  run_followsGate _ h

theorem immOp_followsGate (lat : Nat) (f : Nat → Nat) (h : memPath i = none) : FollowsGate i s (immOp i lat f s) :=
  compute_followsGate _ _ h

theorem floatOp_followsGate (sh : Shape) (f : FFmt) (lat : Nat) (g : Fmt → Nat → Nat → Nat → Rounded) (h : memPath i = none) :
    FollowsGate i s (floatOp i sh f lat g s) := compute_followsGate _ _ h

theorem synOp_followsGate (op : Nat → Args → Nat → Option (Except (Nat × Nat × Nat) Nat)) (h : memPath i = none) :
    FollowsGate i s (synOp i op s) := run_followsGate _ h

theorem product_followsGate (sc pow : Bool) (t : Nat) (z : Bool) (h : memPath i = none) : FollowsGate i s (product i sc pow t z s) :=
  run_followsGate _ h

theorem onRegion_followsGate (n : Nat) (f : Cursor → Elem → Args → RegionRef → Region → State → Out) (h : memPath i = none) :
    FollowsGate i s (onRegion i n f s) := runS_followsGate _ h

theorem inOrder_run_followsGate (f : Cursor → Elem → Args → Act) : FollowsGate i s (inOrder i (run i f) s) := by
  refine ⟨fun hg => ?_, fun hg => ?_, fun x tag hg => ?_⟩ <;> simp [inOrder, run, hg]

theorem memIssue_followsGate (chk : AccCheck) : FollowsGate i s (memIssue i chk s) := by
  refine ⟨fun hg => ?_, fun hg => ?_, fun x tag hg => ?_⟩ <;> simp [memIssue, inOrder, runS, hg]

theorem memIssueIf_followsGate (ok : State → Elem → Bool) (chk : AccCheck) : FollowsGate i s (memIssueIf ok i chk s) := by
  have h := memIssue_followsGate (i := i) (s := s) chk
  cases hg : gate s i with
  | go x r => exact ⟨fun h => by simp [hg] at h, fun h => by simp [hg] at h, fun _ _ h => by simp [hg] at h⟩
  | _ => simpa only [memIssueIf, hg] using h

theorem patIssue_followsGate (g : Nat) (chk : AccCheck) : FollowsGate i s (patIssue i g chk s) := memIssueIf_followsGate _ _

theorem noEngine_followsGate {n : State → Elem → Bool} {f : State → Out} (h : FollowsGate i s (f s)) : FollowsGate i s (noEngine i n f s) := by
  cases hg : gate s i with
  | go x r => exact ⟨fun h => by simp [hg] at h, fun h => by simp [hg] at h, fun _ _ h => by simp [hg] at h⟩
  | _ => simpa only [noEngine, hg] using h

/-- A barrier instruction, local or not. -/
theorem ite_followsGate {b : Bool} {chk : AccCheck} {f : Cursor → Elem → Args → State → Out} (h : b = false → memPath i = none) :
    FollowsGate i s (if b then memIssue i chk s else runS i f s) := by
  cases b
  · exact runS_followsGate f (h rfl)
  · exact memIssue_followsGate chk

end

/-- Every instruction follows its gate. -/
theorem exec_followsGate (i : Instr) (s : State) (h : encode i ≠ []) : FollowsGate i s (exec i s) := by
  cases i
  case add | sub | mul | mulh | mad | and_ | or_ | xor | andn | shl | shr | sra | rol | min | max | abs | neg | clz | popc | brev | bfx |
      bfi =>
    rw [exec]
    refine intOp_followsGate _ _ _ ?_
    rfl
  case div | rem =>
    rw [exec]
    refine divOp_followsGate _ _ ?_
    rfl
  case addi | andi | ori | xori | shli | shri | srai | movi | movhi | litw | muli =>
    rw [exec]
    refine immOp_followsGate _ _ ?_
    rfl
  case fadd | fsub | fmul | fma | fmin | fmax | fabs | fneg | fcmp | fclass | frcp | frsq | fexp2 | flog2 | fsqrt | fdiv =>
    rw [exec]
    refine floatOp_followsGate _ _ _ _ ?_
    rfl
  case sat | addr | aoff | aidx | cvt | cvti | cvtf | scale | pack | bcast | shuf | rot | red | scan | topk | lmask | dot =>
    rw [exec]
    refine compute_followsGate _ _ ?_
    rfl
  case cmp | sel | mov | nul | cmpi | get | put | getx | putx | rempty | rfull | unpack | compact | expand | in_ | eos | emit | bound |
      gate | drop | acz | acrd | acwr | pgsv | slhb | slht | pgq | phend | ctxq | trap | brk | csrw | nodeid | fcnt =>
    rw [exec]
    refine run_followsGate _ ?_
    rfl
  case syni | synw | syna =>
    rw [exec]
    refine synOp_followsGate _ ?_
    rfl
  case mma | mmas | mmap =>
    rw [exec]
    refine product_followsGate _ _ _ _ ?_
    rfl
  case filt | merge | mark | barw | trel | rateq | csrr | eqrd | obsr | haltr =>
    rw [exec]
    refine runS_followsGate _ ?_
    rfl
  case sarm | swait =>
    rw [exec]
    refine onRegion_followsGate _ _ ?_
    rfl
  case ld | st | ldv | stv | recl | ldt | stt | pref | gath | scat | aadd | amin | amax | aand | aor | axor | axch | acas | afadd | ascat | fence |
      fencex | flush | pin | unpin | tagr | tags | tdsc | mlook =>
    rw [exec]
    exact memIssue_followsGate _
  case tdisp | accv | tfch | launch =>
    rw [exec]
    exact memIssueIf_followsGate _ _
  case pgld | pgst | pgnx | pgrs =>
    rw [exec]
    exact patIssue_followsGate _ _
  case spld | spst =>
    rw [exec]
    exact inOrder_run_followsGate _
  case barm p n f a =>
    rw [exec]
    exact ite_followsGate fun hf => by subst hf; rfl
  case barr p n c r f a | barx p n c r f a =>
    rw [exec]
    refine ite_followsGate fun hrf => ?_
    obtain ⟨rfl, rfl⟩ := Bool.or_eq_false_iff.mp hrf
    rfl
  case chapp =>
    rw [exec]
    exact noEngine_followsGate (memIssueIf_followsGate _ _)
  case chseq | chwt | chctl =>
    rw [exec]
    refine noEngine_followsGate (runS_followsGate _ ?_)
    rfl
  all_goals exact absurd rfl h

/-! ### Nulls -/

theorem nullTgts_of_not_filtAlone {i : Instr} {sl : Slot} (h : ¬ FiltAlone i sl) : nullTgts sl i = ((infoOf i).tgts, []) := by
  unfold nullTgts
  split
  · next p g c f a =>
    rw [if_neg]
    simp only [Bool.and_eq_true, bne_iff_ne, tokAt_eq_predTok, isNull_iff]
    exact fun hn => h ⟨⟨p, g, c, f, a, rfl⟩, hn⟩
  · rfl

theorem nullified_eq {x : Elem} {c : Cursor} {i : Instr} {sl : Slot} (tag : Option (BitVec 16)) (hs : x.slotAt c = sl) (h : ¬ FiltAlone i sl) :
    x.nullified c i tag = x.issue c 1 (toAll i ⟨.null, 0, tag⟩) := by
  simp only [Elem.nullified, hs, nullTgts_of_not_filtAlone h]
  rfl

/-- The output place that a target names, as the place of field 0. -/
def placeFreed : Tgt → List (Nat × Nat)
  | .out o => [(0, o.toNat)]
  | _ => []

theorem nullified_filtAlone {x : Elem} {c : Cursor} {p : Pm} {g : Bool} {k f : BitVec 3} {a : Tgt} {sl : Slot} (tag : Option (BitVec 16))
    (hs : x.slotAt c = sl) (h : FiltAlone (.filt p g false k f a) sl) : x.nullified c (.filt p g false k f a) tag =
      (x.freeOuts c (placeFreed a)).issue c 1 [(2, .out f, ⟨.null, 0, tag⟩)] := by
  obtain ⟨-, hp, hn⟩ := h
  have hg : (p != .none && (tokAt sl.p).isNull) = true := by
    simp only [Bool.and_eq_true, bne_iff_ne, tokAt_eq_predTok, isNull_iff]
    exact ⟨hp, hn⟩
  cases a <;> simp only [Elem.nullified, hs, nullTgts, hg] <;> rfl

theorem slotAt_of_ready {s : State} {i : Instr} {x : Elem} {sl : Slot} (h : ReadySlot s i x sl) : x.slotAt s.cur = sl := by
  obtain ⟨f, -, -, hf, hsl, -⟩ := h
  simp [Elem.slotAt, hf, hsl]

/-! ### The statement -/

/-- Settles O28: what the gate says of the slot, and that every instruction follows its gate. -/
theorem slotOutcomes : Obligations.SlotOutcomes := by
  refine ⟨fun s i x sl hr hp hm hn => (gate_of_operands hr hp hn).1 hm, fun s i x sl he hr => ?ready,
    fun s i x f sl he hx hf hsl h => (exec_followsGate i s he).1 (gate_wait hx hf hsl h)⟩
  obtain ⟨-, hillegal, hnullify⟩ := exec_followsGate i s he
  refine ⟨fun h => ?nulls, fun hp hm => hillegal (gate_of_bad hr hp hm),
    fun hp hn hm => hillegal ((gate_of_operands hr hp hn).2 hm)⟩
  have hg : gate s i = .nullify x (operands i sl).tag := h.elim (gate_of_miss hr) fun h => gate_of_null hr h.1 h.2
  have hslot := slotAt_of_ready hr
  refine ⟨fun hh => ?held, fun hh hf => ?all, ?alone⟩
  case held => rw [hnullify x _ hg, if_pos hh]
  case all =>
    rw [Issues, hnullify x _ hg, hh, nullified_eq _ hslot hf]
    rfl
  case alone =>
    rintro p g c f a rfl hf
    have hh : s.nullHeld x s.cur (.filt p g false c f a) = false := nullHeld_of_no_memPath x rfl
    rw [Issues, hnullify x _ hg, hh, nullified_filtAlone _ hslot hf]
    cases a <;> rfl

end Sys2Proof.Proofs
end

