-- ==== Sys2Proof/Proofs/Frames.lean ====
section
/-! SUPPORT. What the shared operations leave alone: a change of one partition, a write to memory through path CE, a trace record, a completed
entry; and what a region is after a change of it. -/

namespace Sys2Proof.Proofs

open Sys2Proof Sys2Proof.Machine Sys2Proof.Claims Sys2Proof.Laws

/-! ### Lists with their places -/

theorem getElem?_indexed {α : Type} (k : Nat) (xs : List α) (i : Nat) : (indexed k xs)[i]? = xs[i]?.map fun x => (k + i, x) := by
  induction xs generalizing k i with
  | nil => simp [indexed]
  | cons x xs ih =>
    cases i with
    | zero => simp [indexed]
    | succ i => simp [indexed, ih, Nat.add_assoc, Nat.add_comm 1]

/-! ### Partitions -/

theorem part_eq_default {s : State} {n : Nat} (h : s.parts.length ≤ n) : s.part n = {} := by
  simp [State.part, List.getD_eq_getElem?_getD, List.getElem?_eq_none h]

theorem part_modPart_other {s : State} {n m : Nat} (f : Part → Part) (h : n ≠ m) : (s.modPart n f).part m = s.part m := by
  simp [State.part, List.getD_eq_getElem?_getD, getElem?_modAt_other _ _ _ _ h]

/-- What a change of a partition keeps, every partition keeps. -/
theorem part_modPart_keeps {α : Type} (get : Part → α) {f : Part → Part} (s : State) (n m : Nat) (hf : ∀ p, get (f p) = get p) :
    get ((s.modPart n f).part m) = get (s.part m) := by
  by_cases h : n = m
  · subst h
    rcases Nat.lt_or_ge n s.parts.length with hn | hn
    · rw [part_modPart_same f hn, hf]
    · rw [part_eq_default hn, part_eq_default (by simpa using hn)]
  · rw [part_modPart_other f h]

theorem lt_length_of_enable {s : State} {n : Nat} (h : (s.part n).enable = true) : n < s.parts.length := by
  by_contra hn
  rw [part_eq_default (Nat.le_of_not_lt hn)] at h
  exact absurd h (by decide)

/-! ### Memory through path CE -/

theorem memSetLine_eq (s : State) (n line : Nat) (d : BitVec 1024) : ∃ m, s.memSetLine n line d = { s with mem := m } := by
  unfold State.memSetLine
  split <;> exact ⟨_, rfl⟩

theorem memWrite_eq (s : State) (n pa : Nat) (bs : List Byte) : ∃ m, s.memWrite n pa bs = { s with mem := m } := by
  unfold State.memWrite
  split
  · exact memSetLine_eq _ _ _ _
  · exact ⟨_, rfl⟩

theorem foldl_modPage_eq (f : Page → Page) (ks : List Nat) (s : State) :
    ∃ ps, ks.foldl (fun t k => t.modPage k f) s = { s with pages := ps } := by
  induction ks generalizing s with
  | nil => exact ⟨s.pages, rfl⟩
  | cons k ks ih =>
    obtain ⟨ps, h⟩ := ih (s.modPage k f)
    exact ⟨ps, h⟩

/-- An engine's bytes change memory and lines of slices alone. -/
theorem engineWrite_eq (s : State) (n pa : Nat) (bs : List Byte) : ∃ m ps, s.engineWrite n pa bs = { s with mem := m, pages := ps } := by
  obtain ⟨m, hm⟩ := memWrite_eq s n pa bs
  unfold State.engineWrite
  rw [hm]
  obtain ⟨ps, hps⟩ := foldl_modPage_eq _ _ _
  exact ⟨m, ps, hps⟩

theorem ioWriteGo_eq (n k : Nat) (s : State) (iova : Nat) (bs : List Byte) :
    ∃ m ps, s.ioWriteGo n k iova bs = { s with mem := m, pages := ps } := by
  induction k generalizing s iova bs with
  | zero => exact ⟨s.mem, s.pages, rfl⟩
  | succ k ih =>
    unfold State.ioWriteGo
    split
    · exact ⟨s.mem, s.pages, rfl⟩
    · split
      · next pa _ =>
        obtain ⟨m, ps, h⟩ := engineWrite_eq s n pa (bs.take (128 - iova % 128))
        obtain ⟨m', ps', h'⟩ := ih _ (iova + (128 - iova % 128)) (bs.drop (128 - iova % 128))
        exact ⟨m', ps', h'.trans (by rw [h])⟩
      · exact ih _ _ _

/-- A write through path CE changes memory and lines of slices alone. -/
theorem ioWrite_eq (s : State) (n iova : Nat) (bs : List Byte) : ∃ m ps, s.ioWrite n iova bs = { s with mem := m, pages := ps } :=
  ioWriteGo_eq _ _ _ _ _

@[simp] theorem ioWrite_parts (s : State) (n iova : Nat) (bs : List Byte) : (s.ioWrite n iova bs).parts = s.parts := by
  obtain ⟨m, ps, h⟩ := ioWrite_eq s n iova bs
  rw [h]

@[simp] theorem ioWrite_elems (s : State) (n iova : Nat) (bs : List Byte) : (s.ioWrite n iova bs).elems = s.elems := by
  obtain ⟨m, ps, h⟩ := ioWrite_eq s n iova bs
  rw [h]

@[simp] theorem ioPut_parts (s : State) (n iova v : Nat) : (s.ioPut n iova v).parts = s.parts := ioWrite_parts _ _ _ _

@[simp] theorem ioPut_elems (s : State) (n iova v : Nat) : (s.ioPut n iova v).elems = s.elems := ioWrite_elems _ _ _ _

/-! ### Trace records (R442, R454) -/

@[simp] theorem traceTenant_elems (s : State) (n : Nat) (r : List Dword) : (s.traceTenant n r).elems = s.elems := by
  unfold State.traceTenant
  dsimp only
  split <;> simp

@[simp] theorem traceOperator_elems (s : State) (r : List Dword) : (s.traceOperator r).elems = s.elems := by
  unfold State.traceOperator
  dsimp only
  split <;> rfl

/-- What the tenant's copy and the operator's leave alone, a trace record does. -/
theorem trace_keeps {α : Type} (get : State → α) (ht : ∀ s n r, get (s.traceTenant n r) = get s)
    (ho : ∀ s r, get (s.traceOperator r) = get s) (s : State) (e kind evt port excess : Nat) :
    get (s.trace e kind evt port excess) = get s := by
  unfold State.trace
  split
  · rfl
  · dsimp only
    split
    · rfl
    · split
      · exact ht _ _ _
      · split <;> exact (ho _ _).trans (ht _ _ _)

@[simp] theorem trace_elems (s : State) (e kind evt port excess : Nat) : (s.trace e kind evt port excess).elems = s.elems :=
  trace_keeps State.elems traceTenant_elems traceOperator_elems s e kind evt port excess

@[simp] theorem elem_trace (s : State) (e kind evt port excess d : Nat) : (s.trace e kind evt port excess).elem? d = s.elem? d := by
  rw [State.elem?, trace_elems, ← State.elem?]

/-! ### Launches and regions -/

theorem find_mapLaunch_same (l : LaunchRef) (f : Launch → Launch) (ls : List Launch) (hf : ∀ x, (f x).ref = x.ref) :
    (mapLaunch l f ls).find? (fun x => x.ref == l) = (ls.find? fun x => x.ref == l).map f := by
  induction ls with
  | nil => rfl
  | cons x ls ih =>
    rw [mapLaunch, List.map_cons]
    by_cases h : x.ref = l
    · simp [h, hf]
    · simpa [h, mapLaunch] using ih

theorem launch_modLaunch_same {s : State} {l : LaunchRef} {f : Launch → Launch} (hf : ∀ x, (f x).ref = x.ref) :
    (s.modLaunch l f).launch? l = (s.launch? l).map f := by
  rcases Nat.lt_or_ge l.n s.parts.length with h | h
  · rw [State.launch?, State.modLaunch, part_modPart_same _ h, State.launch?]
    exact find_mapLaunch_same l f _ hf
  · have hu : (s.modLaunch l f).part l.n = {} := part_eq_default (by simpa [State.modLaunch] using h)
    rw [State.launch?, hu, State.launch?, part_eq_default h]
    rfl

theorem region_modRegion_same {s : State} {r : RegionRef} (f : Region → Region) : (s.modRegion r f).region? r = (s.region? r).map f := by
  have h := launch_modLaunch_same (s := s) (l := r.l) (f := fun l => { l with regions := modAt l.regions r.k f }) fun _ => rfl
  rw [State.region?, State.modRegion, h, State.region?]
  cases s.launch? r.l with
  | none => rfl
  | some l => exact getElem?_modAt_same _ _ _

/-! ### Elements under a change of many -/

theorem look_map {α : Type} (e : Nat) {G : Nat × α → Nat × α} (hG : ∀ p, (G p).1 = p.1) (ps : List (Nat × α)) :
    look e (ps.map G) = (look e ps).map fun x => (G (e, x)).2 := by
  induction ps with
  | nil => rfl
  | cons p ps ih =>
    rw [List.map_cons, ← Prod.mk.eta (p := G p), hG, look]
    by_cases h : p.1 = e
    · subst h; simp [look]
    · simp [look, h, ih]

theorem mem_of_look {α : Type} {e : Nat} {x : α} {ps : List (Nat × α)} (h : look e ps = some x) : (e, x) ∈ ps := by
  induction ps with
  | nil => exact absurd h (by simp [look])
  | cons p ps ih =>
    rw [look] at h
    split at h
    · next hp => exact List.mem_cons.2 (.inl (by cases h; rw [← hp]))
    · exact List.mem_cons_of_mem _ (ih h)

theorem mem_regionElems {s : State} {e : Nat} {x : Elem} (h : s.elem? e = some x) : (e, x) ∈ s.regionElems x.rref := by
  simpa [State.regionElems] using mem_of_look h

theorem elem_modRegionElems {s : State} {e : Nat} {x : Elem} (f : Elem → Elem) (h : s.elem? e = some x) :
    (s.modRegionElems x.rref f).elem? e = some (f x) := by
  have hl : look e s.elems = some x := h
  rw [State.elem?, State.modRegionElems, look_map e, hl]
  · simp
  · intro p
    split <;> rfl

end Sys2Proof.Proofs
end

