-- ==== Sys2Proof/Proofs/Firings.lean ====
section
/-! O40 of the machine's statements: FIRING_START and FIRING_COMPLETE (R10, R11, R160). -/

namespace Sys2Proof.Proofs

open Sys2Proof Sys2Proof.Machine Sys2Proof.Claims Sys2Proof.Laws

/-! ### Ports by number -/

theorem assign_getD (x : Elem) (c : Ctx) {p : Nat} (hp : p < 8) :
    (x.assign c).getD p [] = if p ∈ x.armPorts then [] else (x.cur.inBuf.getD p []).take (c.desc.cin.getD p 0) := by
  simp [Elem.assign, List.getD_eq_getElem?_getD, List.getElem?_range hp]

theorem assigned_getD (x : Elem) (c : Ctx) {p : Nat} (hp : p ∉ x.armPorts) :
    (x.assigned c).getD p [] = (x.cur.inBuf.getD p []).drop (c.desc.cin.getD p 0) := by
  simp only [Elem.assigned, List.getD_eq_getElem?_getD, List.getElem?_map, getElem?_indexed, Nat.zero_add]
  cases x.cur.inBuf[p]? <;> simp [hp]

/-! ### What a firing starts with -/

theorem litSeconds_length (ws : List Word) (second : Bool) : (litSeconds ws second).length = ws.length := by
  induction ws generalizing second with
  | nil => rfl
  | cons w ws ih => simp [litSeconds, ih]

theorem slots_length (b : Block) : b.slots.length = max b.words.length b.len := by
  simp only [Block.slots, List.length_append, List.length_map, litSeconds_length, List.length_replicate]
  omega

/-- An element once the stall counter of a port, where one is charged, has been raised (R411). -/
def charged (x : Elem) (c : Ctx) : Elem :=
  match (if x.excess c = 0 then none else x.lastPort c) with
  | none => x
  | some p => x.charge p (x.excess c)

/-- A charge of a stall counter changes the counters alone. -/
theorem charged_eq (x : Elem) (c : Ctx) : ∃ st, charged x c = { x with cur := { x.cur with stall := st } } := by
  unfold charged
  split <;> exact ⟨_, rfl⟩

/-! ### FIRING_START -/

/-- What R10, R13 and R111 ask is what the model's guard asks. -/
theorem guard_of_firingDue {s : State} {l : Launch} {e : Nat} {x : Elem} {c : Ctx} (h : FiringDue s l e x c) :
    x.spaced c = true ∧ x.insOk c = true ∧ s.outsOk l e x c = true := by
  obtain ⟨hroom, hii, hin, hout⟩ := h
  refine ⟨?_, ?_, ?_⟩
  · have hlast : (match x.lastStart with | none => true | some t => decide (c.iis ≤ x.icyc - t)) = true := by
      cases hx : x.lastStart with
      | none => rfl
      | some t => exact decide_eq_true (hii t hx)
    simp only [Elem.spaced, hroom, decide_true, Bool.true_and]
    exact hlast
  · simp only [Elem.insOk, List.all_eq_true, List.mem_range]
    intro p hp
    simpa [Elem.inOk, Elem.ahead, or_assoc] using hin p hp
  · simp only [State.outsOk, List.all_eq_true, List.mem_range]
    intro p hp
    simpa [State.outOk] using hout p hp

theorem exec_firingStart_not {s : State} {e : Nat} {x : Elem} {c : Ctx} {l : Launch} (he : s.elem? e = some x)
    (hc : x.ctxNow = some c) (hl : s.launch? x.l = some l) (h : s.mayStart l x = false) : exec (.firingStart e) s = .next s := by
  rw [exec, execFiringStart]
  simp [he, hc, hl, h]

/-- A firing that may start is started; the trace records that go with it change no element. -/
theorem exec_firingStart_due {s : State} {e : Nat} {x : Elem} {c : Ctx} {l : Launch} (he : s.elem? e = some x)
    (hc : x.ctxNow = some c) (hl : s.launch? x.l = some l) (h : s.mayStart l x = true) (hd : FiringDue s l e x c) :
    ∃ t, exec (.firingStart e) s = .next t ∧ ∀ d, t.elem? d = (s.setElem e ((charged x c).start c)).elem? d := by
  obtain ⟨hsp, hin, hout⟩ := guard_of_firingDue hd
  rw [exec, execFiringStart]
  simp only [he, hc, hl, h, hsp, hin, hout, Bool.and_self, Bool.not_true, Bool.false_eq_true, if_false]
  refine ⟨_, rfl, fun d => ?_⟩
  unfold charged
  generalize (if x.excess c = 0 then none else x.lastPort c) = port
  cases port with
  | none => dsimp only; split <;> simp only [elem_trace]
  | some p => dsimp only; split <;> split <;> simp only [elem_trace]

/-! ### FIRING_COMPLETE -/

theorem complete_of_finished {x : Elem} {f : Firing} (h : Finished x f) : x.complete f = true := by
  obtain ⟨hiss, howed, hheld, hacc⟩ := h
  have hemits : ∀ a ∈ x.acc, (!(a.no == f.no && a.epi == f.epi && a.emits)) = true := by
    intro a ha
    by_cases hno : a.no = f.no
    · by_cases hepi : a.epi = f.epi
      · rcases hacc a ha hno hepi with hd | ⟨v, hd⟩ <;> simp [Access.emits, hd]
      · simp [hepi]
    · simp [hno]
  simp only [Elem.complete, howed, hheld, List.isEmpty_nil, Bool.and_true, Bool.and_eq_true, List.all_eq_true]
  exact ⟨hiss, hemits⟩

/-- The first with a property is the first with two, where it has the second. -/
theorem find?_and_of_find? {α : Type} {p q : α → Bool} {xs : List α} {a : α} (h : xs.find? p = some a) (hq : q a = true) :
    xs.find? (fun x => p x && q x) = some a := by
  rw [List.find?_eq_some_iff_append] at h ⊢
  obtain ⟨hp, as, bs, rfl, hbefore⟩ := h
  exact ⟨by simp [hp, hq], as, bs, rfl, fun x hx => by simp [by simpa using hbefore x hx]⟩

/-- Settles O40: the guard of the event is R10's, the firing's fields are read off `Elem.start`, and the charge and the trace records of a late
start change none of them. -/
theorem firingsStartAndComplete : Obligations.FiringsStartAndComplete := by
  unfold Obligations.FiringsStartAndComplete
  intro s e x he
  refine ⟨fun c l hc hl => ⟨exec_firingStart_not he hc hl, fun hm hd => ?_⟩, fun f no hf hfin => ?_⟩
  · obtain ⟨t, ht, helem⟩ := exec_firingStart_due he hc hl hm hd
    obtain ⟨st, hst⟩ := charged_eq x c
    rw [hst] at helem
    refine ⟨t, _, _, ht, (helem e).trans (elem_setElem_same _ _ _), fun d hde => (helem d).trans (elem_setElem_other _ _ _ _ hde),
      rfl, rfl, rfl, rfl, rfl, slots_length _, rfl, fun p => assign_getD x c, fun p => assigned_getD x c, rfl, rfl, rfl⟩
  · rw [exec, execFiringComplete]
    simp only [he, find?_and_of_find? hf (complete_of_finished hfin)]

end Sys2Proof.Proofs
end

