-- ==== Sys2Proof/Proofs/Phases.lean ====
section
/-! O43 of the machine's statements: PHASE_END, WAVEFRONT_ADMISSION and ELEMENT_SWITCH (R22, R24, R25, R228, R232, R287). -/

namespace Sys2Proof.Proofs

open Sys2Proof Sys2Proof.Machine Sys2Proof.Claims Sys2Proof.Laws

/-! ### PHASE_END -/

/-- The state in which a region's next phase starts: a record for each element, the elements in their successor contexts, and the streams of a
phase start (R22, R232). -/
def phaseSwitched (s : State) (r : RegionRef) : State :=
  let es := s.regionElems r
  (((es.foldl (fun v q => v.trace q.1 3 evPhase 0 0) s).modRegionElems r fun x =>
    x.nextPhase (regionPred es) ((es.findSome? fun q => q.2.successor (regionPred es)).getD 0)).startStreams r true)

/-- A phase may end: its region runs, holds an actor, and every element has done its part (R22, R25, R232). -/
def PhaseOver (s : State) (r : RegionRef) (g : Region) : Prop :=
  g.moves = true ∧ g.waving = false ∧ (∃ q ∈ s.regionElems r, q.2.ctxNow ≠ none) ∧
    ∀ q ∈ s.regionElems r, (q.2.ctxNow = none ∨ (q.2.phend ≠ none ∧ q.2.firings = [])) ∧ q.2.stopped = false

/-- The phase of a region that may end: its epilogues start unless all run, or none is there; then it switches once the generators are drained. -/
theorem exec_phaseEnd {s : State} {r : RegionRef} {g : Region} (hg : s.region? r = some g) (h : PhaseOver s r g) :
    exec (.phaseEnd r) s = .next
      (if ((s.regionElems r).all fun q => q.2.epiRun) || !((s.regionElems r).any fun q => ((q.2.ctxNow.map fun c => c.epi.isSome)).getD false) then
        if (s.regionElems r).all fun q => q.2.agensDrained then phaseSwitched s r else s
      else s.modRegionElems r Elem.startEpilogue) := by
  obtain ⟨hmoves, hwaving, ⟨q, hq, hqc⟩, hall⟩ := h
  have hany : ((s.regionElems r).any fun q => q.2.ctxNow.isSome) = true :=
    List.any_eq_true.2 ⟨q, hq, Option.isSome_iff_ne_none.2 hqc⟩
  have hdone : ((s.regionElems r).all fun q => q.2.phaseDone && !q.2.stopped) = true := by
    refine List.all_eq_true.2 fun q hq => ?_
    obtain ⟨hpart, hstop⟩ := hall q hq
    rw [hstop, Bool.not_false, Bool.and_true, Elem.phaseDone, Bool.or_eq_true]
    refine hpart.imp (fun h => by rw [h]; rfl) fun ⟨hphend, hfirings⟩ => ?_
    rw [hfirings, List.isEmpty_nil, Bool.and_true]
    exact Option.isSome_iff_ne_none.2 hphend
  rw [exec, execPhaseEnd]
  simp only [hg, hmoves, hwaving, hany, hdone, Bool.not_false, Bool.and_self, Bool.not_true, Bool.or_self, Bool.false_eq_true, if_false]
  cases (s.regionElems r).all fun q => q.2.epiRun <;>
    cases (s.regionElems r).any fun q => ((q.2.ctxNow.map fun c => c.epi.isSome)).getD false <;> rfl

theorem any_epi_eq_false {es : List (Nat × Elem)} (h : ∀ q ∈ es, ∀ c, q.2.ctxNow = some c → c.epi = none) :
    (es.any fun q => ((q.2.ctxNow.map fun c => c.epi.isSome)).getD false) = false := by
  refine List.any_eq_false.2 fun q hq => ?_
  cases hc : q.2.ctxNow with
  | none => simp
  | some c => simp [h q hq c hc]

theorem regionPred_eq (es : List (Nat × Elem)) : regionPred es = decide (∃ q ∈ es, q.2.phend = some true) := by
  have hgetD : ∀ o : Option Bool, o.getD false = true ↔ o = some true := by decide
  rw [Bool.eq_iff_iff, decide_eq_true_iff]
  simp [regionPred, hgetD]

/-- A phase start's streams change an element's input buffers, generators and the sequence state of FILT and MERGE alone. -/
theorem elem_startStreams {s : State} {e : Nat} {x : Elem} (keep : Bool) (h : s.elem? e = some x) :
    ∃ bs ag ts fs ms, (s.startStreams x.rref keep).elem? e =
      some { x with cur := { x.cur with inBuf := bs, agens := ag }, inAt := ts, filts := fs, merges := ms } := by
  have hl : look e s.elems = some x := h
  unfold State.startStreams
  split
  · next l g _ _ =>
    refine ⟨startBufs (s.netOf l) g x.rref.k e x.cur.inBuf keep, freshAgens, List.replicate 8 [], (s.netOf l).filtStart e, [], ?_⟩
    dsimp only
    rw [State.elem?, look_map e, State_modRegion_elems, hl]
    · simp
    · intro p
      split <;> rfl
  · exact ⟨x.cur.inBuf, x.cur.agens, x.inAt, x.filts, x.merges, h⟩

theorem foldl_trace_elems (es : List (Nat × Elem)) (s : State) : (es.foldl (fun v q => v.trace q.1 3 evPhase 0 0) s).elems = s.elems := by
  induction es generalizing s with
  | nil => rfl
  | cons q es ih => rw [List.foldl_cons, ih, trace_elems]

/-- The successor that a configuration names, or for an element with none that of the first element that has one (R22; log 22). -/
theorem successor_getD {x : Elem} {es : List (Nat × Elem)} {c : Ctx} (pred : Bool)
    (h : x.ctxNow = some c ∨ (x.ctxNow = none ∧ es.findSome? (fun q => q.2.ctxNow) = some c)) :
    (x.successor pred).getD ((es.findSome? fun q => q.2.successor pred).getD 0) = if pred then c.desc.nextT else c.desc.nextF := by
  rcases h with h | ⟨h, hf⟩
  · simp [Elem.successor, h]
  · have hmap : (es.findSome? fun q => q.2.successor pred) =
        (es.findSome? fun q => q.2.ctxNow).map fun c => if pred then c.desc.nextT else c.desc.nextF := by
      rw [List.map_findSome?]
      rfl
    rw [hmap, hf]
    simp [Elem.successor, h]

/-- An element of a region whose phase switched, up to what its streams start with. -/
theorem elem_phaseSwitched {s : State} {e : Nat} {x : Elem} (h : s.elem? e = some x) :
    ∃ bs ag ts fs ms, let es := s.regionElems x.rref
      let y := x.nextPhase (regionPred es) ((es.findSome? fun q => q.2.successor (regionPred es)).getD 0)
      (phaseSwitched s x.rref).elem? e =
        some { y with cur := { y.cur with inBuf := bs, agens := ag }, inAt := ts, filts := fs, merges := ms } := by
  have hu : ((s.regionElems x.rref).foldl (fun v q => v.trace q.1 3 evPhase 0 0) s).elem? e = some x := by
    rw [State.elem?, foldl_trace_elems]
    exact h
  exact elem_startStreams true (elem_modRegionElems (fun x => x.nextPhase _ _) hu)

/-! ### WAVEFRONT_ADMISSION -/

/-- The marks of a launch's regions say which are gated and which are replayable, and change nothing else. -/
theorem markRegions_eq {s : State} {ref : LaunchRef} {l : Launch} (h : s.launch? ref = some l) :
    ∃ a b : Nat × Region → Bool, s.markRegions ref = s.modLaunch ref fun x =>
      { x with regions := (indexed 0 x.regions).map fun p => { p.2 with gated := a p, replayable := b p } } := by
  unfold State.markRegions
  simp only [h]
  exact ⟨_, _, rfl⟩

theorem region_markRegions {s : State} {r : RegionRef} {g : Region} (h : s.region? r = some g) :
    ∃ a b, (s.markRegions r.l).region? r = some { g with gated := a, replayable := b } := by
  cases hl : s.launch? r.l with
  | none => simp [State.region?, hl] at h
  | some l =>
    have hg : l.regions[r.k]? = some g := by simpa [State.region?, hl] using h
    obtain ⟨a, b, hm⟩ := markRegions_eq hl
    refine ⟨a (r.k, g), b (r.k, g), ?_⟩
    rw [hm, State.region?, launch_modLaunch_same, hl]
    · simp [getElem?_indexed, hg]
    · exact fun _ => rfl

@[simp] theorem markRegions_mem (s : State) (l : LaunchRef) : (s.markRegions l).mem = s.mem := by
  unfold State.markRegions
  split <;> rfl

theorem exec_wavefrontAdmission {s : State} {r : RegionRef} {g : Region} {w : Wave} (hg : s.region? r = some g) (hw : g.wave = some w)
    (ha : w.admitted = false) (hst : g.st = .running) (hend : ∀ q ∈ s.regionElems r, q.2.ending = false) :
    exec (.wavefrontAdmission r) s = .next ((s.modRegion r fun h => { h with wave := some { w with admitted := true } }).markRegions r.l) := by
  have hany : ((s.regionElems r).any fun q => q.2.ending) = false := List.any_eq_false.2 fun q hq => by simp [hend q hq]
  rw [exec, execWavefrontAdmission]
  simp [hg, hw, ha, hst, hany]

/-! ### ELEMENT_SWITCH -/

theorem mem_closeOver {α : Type} [BEq α] (next : α → List α) (k : Nat) (todo : List α) {seen : List α} {a : α} (h : a ∈ seen) :
    a ∈ closeOver next k todo seen := by
  induction k generalizing todo seen with
  | zero => exact h
  | succ k ih =>
    cases todo with
    | nil => exact h
    | cons b todo =>
      rw [closeOver]
      split
      · exact ih _ h
      · exact ih _ (List.mem_cons_of_mem _ h)

theorem mem_upstream (s : State) (g : Region) (e : Nat) : e ∈ s.upstream g e := by
  rw [State.upstream, closeOver]
  exact mem_closeOver _ _ _ (List.mem_singleton.2 rfl)

/-- An element with work of its own under the old configuration has not had its final firing. -/
theorem oldDone_eq_false {s : State} {e : Nat} {x : Elem} (g : Region) (he : s.elem? e = some x)
    (h : x.firings ≠ [] ∨ x.acc ≠ [] ∨ x.oldWork = true) : s.oldDone g e = false := by
  have hold : x.stillOld = true := by
    rcases h with h | h | h <;> simp [Elem.stillOld, h]
  have hall : ((s.upstream g e).all fun u => !((s.elem? u).map Elem.stillOld).getD false) = false :=
    List.all_eq_false.2 ⟨e, mem_upstream s g e, by simp [he, hold]⟩
  rw [State.oldDone, hall, Bool.false_and]

theorem exec_elementSwitch_not {s : State} {e : Nat} {x : Elem} {g : Region} {l : Launch} (he : s.elem? e = some x)
    (hg : s.region? x.rref = some g) (hl : s.launch? x.l = some l) (h : s.oldDone g e = false) : exec (.elementSwitch e) s = .next s := by
  rw [exec, execElementSwitch]
  simp only [he, hg, hl]
  cases g.wave with
  | none => rfl
  | some w => simp [h]

/-- An element that switches adopts its shadow contexts and starts with the buffers of a start; the other elements are as before, as long as
one of its region is still to switch. -/
theorem exec_elementSwitch {s : State} {e d : Nat} {x y : Elem} {g : Region} {l : Launch} {w : Wave} (he : s.elem? e = some x)
    (hg : s.region? x.rref = some g) (hl : s.launch? x.l = some l) (hw : g.wave = some w) (ha : w.admitted = true) (hx : x.switched = false)
    (h : s.oldDone g e = true) (hde : d ≠ e) (hd : s.elem? d = some y) (hr : y.rref = x.rref) (hy : y.switched = false) :
    ∃ t bs, exec (.elementSwitch e) s = .next t ∧
      t.elem? e = some { x.adopt with cur := { x.adopt.cur with inBuf := bs }, inAt := List.replicate 8 [] } := by
  rw [exec, execElementSwitch]
  simp only [he, hg, hl, hw, ha, hx, h, Bool.not_true, Bool.or_self, Bool.false_eq_true, if_false]
  have hu : ∀ f, (((s.setElem e x.adopt).trace e 4 evWave 0 0).modRegion x.rref f).elem? e = some x.adopt := by
    intro f
    rw [State.elem?, State_modRegion_elems, trace_elems, ← State.elem?, elem_setElem_same]
  rw [if_neg]
  · exact ⟨_, _, rfl, (elem_modElem_same _ _ _).trans (congrArg (Option.map _) (hu _))⟩
  · rw [Bool.not_eq_true]
    refine List.all_eq_false.2 ⟨(d, y), ?_, by simp [hy]⟩
    rw [← hr]
    refine mem_regionElems ?_
    rw [elem_modElem_other _ _ _ _ hde, State.elem?, State_modRegion_elems, trace_elems, ← State.elem?, elem_setElem_other _ _ _ _ hde]
    exact hd

/-- Settles O43: each event's guard is what the statement asks, and the elements and the region after it are read off the changes it makes. -/
theorem phasesAndWavefronts : Obligations.PhasesAndWavefronts := by
  unfold Obligations.PhasesAndWavefronts
  intro s r g hg
  refine ⟨fun hmoves hwaving hactor hdone => ?_, fun w hw ha hst hend => ?_, fun e x l w he hr hl hw ha hx => ?_⟩
  · have hexec := exec_phaseEnd hg ⟨hmoves, hwaving, hactor, hdone⟩
    refine ⟨fun hepi => ?_, fun ⟨q, hq, hrun⟩ ⟨p, hp, c, hc, hce⟩ => ?_⟩
    · have hswitch : (((s.regionElems r).all fun q => q.2.epiRun) ||
          !((s.regionElems r).any fun q => ((q.2.ctxNow.map fun c => c.epi.isSome)).getD false)) = true := by
        rcases hepi with h | h
        · rw [List.all_eq_true.2 h, Bool.true_or]
        · rw [any_epi_eq_false h, Bool.not_false, Bool.or_true]
      rw [hswitch, if_pos rfl] at hexec
      refine ⟨fun ⟨q, hq, hnot⟩ => ?_, fun hdrained => ?_⟩
      · rw [hexec, if_neg]
        rw [Bool.not_eq_true]
        exact List.all_eq_false.2 ⟨q, hq, by simp [hnot]⟩
      · rw [List.all_eq_true.2 hdrained, if_pos rfl] at hexec
        refine ⟨_, hexec, fun e x he hr => ?_⟩
        subst hr
        obtain ⟨bs, ag, ts, fs, ms, hy⟩ := elem_phaseSwitched he
        exact ⟨_, hy, regionPred_eq _, fun c hc => successor_getD _ hc, rfl, rfl, rfl, rfl, rfl⟩
    · rw [hexec, if_neg]
      have hall : ((s.regionElems r).all fun q => q.2.epiRun) = false := List.all_eq_false.2 ⟨q, hq, by simp [hrun]⟩
      have hany : ((s.regionElems r).any fun q => ((q.2.ctxNow.map fun c => c.epi.isSome)).getD false) = true :=
        List.any_eq_true.2 ⟨p, hp, by simpa [hc] using Option.isSome_iff_ne_none.2 hce⟩
      rw [hall, hany]
      decide
  · obtain ⟨a, b, hmark⟩ := region_markRegions (s := s.modRegion r fun h => { h with wave := some { w with admitted := true } })
      ((region_modRegion_same _).trans (congrArg (Option.map _) hg))
    exact ⟨_, _, exec_wavefrontAdmission hg hw ha hst hend, by simp, hmark, hst, rfl⟩
  · subst hr
    refine ⟨fun h => exec_elementSwitch_not he hg hl (h.elim id (oldDone_eq_false g he)), fun h ⟨d, y, hde, hd, hyr, hys⟩ => ?_⟩
    obtain ⟨t, bs, ht, hy⟩ := exec_elementSwitch he hg hl hw ha hx h hde hd hyr hys
    exact ⟨t, _, ht, hy, rfl, rfl, rfl, rfl, rfl⟩

end Sys2Proof.Proofs
end

