-- ==== Sys2Proof/Proofs/LaunchUnit.lean ====
section
/-! SUPPORT. The launch unit's view of a partition: its queues, its sequence numbers and the launches that run there; what reads, writes and
loads leave of it, and an entry refused (R223, R225). -/

namespace Sys2Proof.Proofs

open Sys2Proof Sys2Proof.Machine Sys2Proof.Claims Sys2Proof.Laws

/-- What of a partition the launch unit works on: its queues, QSEQ, and the launches that run. -/
def unitOf (p : Part) : List (List QEntry) × List Word × List LaunchRef := (p.queues, p.qseq, p.launches.map (·.ref))

/-- The launch unit of partition `n`, with how many partitions there are. -/
def launchUnit (n : Nat) (s : State) : Nat × List (List QEntry) × List Word × List LaunchRef := (s.parts.length, unitOf (s.part n))

/-! ### What keeps the launch unit -/

theorem launchUnit_of_parts {s t : State} (n : Nat) (h : t.parts = s.parts) : launchUnit n t = launchUnit n s := by
  simp only [launchUnit, State.part, h]

theorem launchUnit_modPart {f : Part → Part} (n m : Nat) (s : State) (hf : ∀ p, unitOf (f p) = unitOf p) :
    launchUnit n (s.modPart m f) = launchUnit n s := by
  simp only [launchUnit, part_modPart_keeps unitOf s m n hf, State_modPart_parts, modAt_length]

theorem map_ref_mapLaunch {f : Launch → Launch} (l : LaunchRef) (ls : List Launch) (hf : ∀ x, (f x).ref = x.ref) :
    (mapLaunch l f ls).map (·.ref) = ls.map (·.ref) := by
  simp only [mapLaunch, List.map_map]
  refine List.map_congr_left fun x _ => ?_
  simp only [Function.comp_apply]
  split
  · exact hf x
  · rfl

theorem launchUnit_modLaunch {f : Launch → Launch} (n : Nat) (s : State) (l : LaunchRef) (hf : ∀ x, (f x).ref = x.ref) :
    launchUnit n (s.modLaunch l f) = launchUnit n s :=
  launchUnit_modPart n l.n s fun p => by simp only [unitOf, map_ref_mapLaunch l p.launches hf]

@[simp] theorem launchUnit_modRegion (n : Nat) (s : State) (r : RegionRef) (f : Region → Region) :
    launchUnit n (s.modRegion r f) = launchUnit n s :=
  launchUnit_modLaunch n s r.l fun _ => rfl

@[simp] theorem launchUnit_ioWrite (n m : Nat) (s : State) (iova : Nat) (bs : List Byte) :
    launchUnit n (s.ioWrite m iova bs) = launchUnit n s :=
  launchUnit_of_parts n (ioWrite_parts _ _ _ _)

/-- A change of what the part's power allows reaches a partition by its interrupts alone (R428). -/
theorem setPower_eq (s : State) (f : Mgmt → Mgmt) :
    ∃ g : Part → Part, (∀ p, ∃ v, g p = { p with msi := v }) ∧ s.setPower f = { s with mgmt := f s.mgmt, parts := s.parts.map g } := by
  unfold State.setPower
  dsimp only
  split
  · exact ⟨id, fun p => ⟨p.msi, rfl⟩, by rw [List.map_id]⟩
  · refine ⟨fun p => if p.enable then { p with msi := modAt p.msi 3 (· + 1) } else p, fun p => ?_, rfl⟩
    dsimp only
    split
    · exact ⟨_, rfl⟩
    · exact ⟨p.msi, rfl⟩

theorem setPower_mem (s : State) (f : Mgmt → Mgmt) : (s.setPower f).mem = s.mem := by
  obtain ⟨g, -, h⟩ := setPower_eq s f
  rw [h]

theorem setPower_elems (s : State) (f : Mgmt → Mgmt) : (s.setPower f).elems = s.elems := by
  obtain ⟨g, -, h⟩ := setPower_eq s f
  rw [h]

theorem setPower_iommu (s : State) (f : Mgmt → Mgmt) : (s.setPower f).iommu = s.iommu := by
  obtain ⟨g, -, h⟩ := setPower_eq s f
  rw [h]

theorem setPower_parts_length (s : State) (f : Mgmt → Mgmt) : (s.setPower f).parts.length = s.parts.length := by
  obtain ⟨g, -, h⟩ := setPower_eq s f
  rw [h, List.length_map]

theorem part_setPower_keeps {α : Type} (get : Part → α) (s : State) (f : Mgmt → Mgmt) (n : Nat)
    (hget : ∀ p v, get { p with msi := v } = get p) :
    get ((s.setPower f).part n) = get (s.part n) := by
  obtain ⟨g, hg, h⟩ := setPower_eq s f
  rw [h]
  simp only [State.part, List.getD_eq_getElem?_getD, List.getElem?_map]
  cases s.parts[n]? with
  | none => rfl
  | some p =>
    obtain ⟨v, hv⟩ := hg p
    simp only [Option.map_some, Option.getD_some, hv, hget]

@[simp] theorem launchUnit_setPower (n : Nat) (s : State) (f : Mgmt → Mgmt) : launchUnit n (s.setPower f) = launchUnit n s := by
  simp only [launchUnit, setPower_parts_length, part_setPower_keeps unitOf s f n fun _ _ => rfl]

@[simp] theorem launchUnit_count (n m : Nat) (s : State) (q : Nat) : launchUnit n (s.count m q) = launchUnit n s := by
  unfold State.count
  dsimp only
  split
  · rw [launchUnit_setPower]
    exact launchUnit_modPart n m s fun _ => rfl
  · rfl

/-- What neither the counting of a contract nor the power of the part touches, an idle queue keeps (R427). -/
theorem idleQueue_keeps {α : Type} (get : State → α) (s : State) (n q : Nat)
    (hcount : get (s.modPart n fun p => { p with counted := setAt p.counted q none }) = get s)
    (hpower : ∀ t f, get (State.setPower t f) = get t) : get (s.idleQueue n q) = get s := by
  unfold State.idleQueue State.uncount State.lowerSum
  dsimp only
  split
  · rfl
  · split
    · exact (hpower _ _).trans hcount
    · rfl

@[simp] theorem launchUnit_idleQueue (n m : Nat) (s : State) (q : Nat) : launchUnit n (s.idleQueue m q) = launchUnit n s :=
  idleQueue_keeps (launchUnit n) s m q (launchUnit_modPart n m s fun _ => rfl) (launchUnit_setPower n)

@[simp] theorem idleQueue_mem (s : State) (n q : Nat) : (s.idleQueue n q).mem = s.mem :=
  idleQueue_keeps State.mem s n q rfl setPower_mem

@[simp] theorem idleQueue_elems (s : State) (n q : Nat) : (s.idleQueue n q).elems = s.elems :=
  idleQueue_keeps State.elems s n q rfl setPower_elems

/-! ### What a read through path CE depends on -/

/-- What decides the bytes that partition `n` reads through path CE: memory, the host's translations, and the ranges and the key
of the partition (R422, R423). -/
def readView (n : Nat) (s : State) : Mem × List IoMap × List Dword × List Dword × Option (BitVec 512) :=
  (s.mem, s.iommu, (s.part n).prng, (s.part n).prlim, (s.part n).memKey)

theorem memRead_of_readView {s t : State} {n : Nat} (h : readView n t = readView n s) (pa len : Nat) : t.memRead n pa len = s.memRead n pa len := by
  simp only [readView, Prod.mk.injEq] at h
  obtain ⟨hmem, -, hprng, hprlim, hkey⟩ := h
  have hprivate : ∀ pa, t.isPrivate n pa = s.isPrivate n pa := fun pa => by simp only [State.isPrivate, hprng, hprlim]
  have hline : ∀ line, t.memLine n line = s.memLine n line := fun line => by
    simp only [State.memLine, hprivate, State.rawLine, State.keyOf, hmem, hkey]
  simp only [State.memRead, hprivate, hline, hmem]

theorem ioReadGo_of_readView {s t : State} {n : Nat} (h : readView n t = readView n s) (k iova len : Nat) :
    t.ioReadGo n k iova len = s.ioReadGo n k iova len := by
  have hiommu : t.iommu = s.iommu := congrArg (fun v => v.2.1) h
  induction k generalizing iova len with
  | zero => rfl
  | succ k ih => simp only [State.ioReadGo, State.ioLook, hiommu, ih, memRead_of_readView h]

theorem readImage_of_readView {s t : State} {n : Nat} (h : readView n t = readView n s) (a : Nat) : t.readImage n a = s.readImage n a := by
  simp only [State.readImage, State.readHeader, State.ioDwords, State.ioRead, ioReadGo_of_readView h]

theorem readView_setPower (n : Nat) (s : State) (f : Mgmt → Mgmt) : readView n (s.setPower f) = readView n s := by
  have hpart := part_setPower_keeps (fun p => (p.prng, p.prlim, p.memKey)) s f n fun _ _ => rfl
  rw [readView, setPower_mem, setPower_iommu]
  exact congrArg (fun v => (s.mem, s.iommu, v)) hpart

/-- That a contract counts changes no image (R427). -/
theorem readImage_count (s : State) (n q a : Nat) : (s.count n q).readImage n a = s.readImage n a := by
  refine readImage_of_readView ?_ a
  unfold State.count
  dsimp only
  split
  · rw [readView_setPower]
    have hpart := part_modPart_keeps (fun p : Part => (p.prng, p.prlim, p.memKey)) (f := fun p =>
      { p with counted := setAt p.counted q (some (flqShare ((s.part n).flq.getD q 0))) }) s n n fun _ => rfl
    exact congrArg (fun v => (s.mem, s.iommu, v)) hpart
  · rfl

/-! ### A partition's queues -/

/-- The launch unit of a state in which partition `n` stands has its fields. -/
theorem launchUnit_eq_iff {s t : State} {n : Nat} : launchUnit n t = launchUnit n s ↔
    t.parts.length = s.parts.length ∧ (t.part n).queues = (s.part n).queues ∧ (t.part n).qseq = (s.part n).qseq ∧
      (t.part n).launches.map (·.ref) = (s.part n).launches.map (·.ref) := by
  simp only [launchUnit, unitOf, Prod.mk.injEq]

theorem getD_modAt_same {α : Type} {l : List α} {i : Nat} (f : α → α) (d : α) (h : i < l.length) :
    (modAt l i f).getD i d = f (l.getD i d) := by
  simp [List.getD_eq_getElem?_getD, getElem?_modAt_same, List.getElem?_eq_getElem h]

theorem getD_modAt_tail {α : Type} (l : List (List α)) (i : Nat) : (modAt l i List.tail).getD i [] = (l.getD i []).tail := by
  simp only [List.getD_eq_getElem?_getD, getElem?_modAt_same]
  cases l[i]? <;> rfl

theorem dequeue_part {s : State} {n : Nat} (q : Nat) (h : n < s.parts.length) :
    (s.dequeue n q).part n = { s.part n with queues := modAt (s.part n).queues q List.tail } :=
  part_modPart_same _ h

/-! ### Entries refused (R223, R225) -/

theorem completeEntry_part {s : State} {n : Nat} (q : Nat) (at_ : Option Nat) (load stage : Nat) (h : n < s.parts.length) :
    ((s.completeEntry n q at_ load stage).part n).queues = (s.part n).queues ∧
      ((s.completeEntry n q at_ load stage).part n).qseq = modAt (s.part n).qseq q (· + 1) := by
  have hwrite : ∀ t : State, t.parts = s.parts → let u := (t.modPart n fun p => { p with qseq := modAt p.qseq q (· + 1) }).msi n 0
      (u.part n).queues = (s.part n).queues ∧ (u.part n).qseq = modAt (s.part n).qseq q (· + 1) := by
    intro t ht
    have hn : n < t.parts.length := by rw [ht]; exact h
    have hp : t.part n = s.part n := by rw [State.part, ht, ← State.part]
    simp only [State.msi]
    rw [part_modPart_same _ (by simpa using hn), part_modPart_same _ hn, hp]
    exact ⟨rfl, rfl⟩
  unfold State.completeEntry
  cases at_ with
  | none => exact hwrite s rfl
  | some a => exact hwrite _ (by simp)

theorem completeEntry_elems (s : State) (n q : Nat) (at_ : Option Nat) (load stage : Nat) :
    (s.completeEntry n q at_ load stage).elems = s.elems := by
  unfold State.completeEntry
  cases at_ <;> simp [State.msi]

/-- An entry that is refused leaves its queue, advances QSEQ, and is written where the host chain holds it. -/
theorem refused_refuseEntry {u : State} {n q : Nat} (x : QEntry) (load stage : Nat) (hn : n < u.parts.length)
    (hq : q < (u.part n).qseq.length) : Refused u (u.refuseEntry n q x load stage) n q x load stage := by
  have hv : launchUnit n ((u.dequeue n q).idleQueue n q) = launchUnit n (u.dequeue n q) := launchUnit_idleQueue _ _ _ _
  obtain ⟨hlen, hqueues, hqseq, -⟩ := launchUnit_eq_iff.1 hv
  have hdeq := dequeue_part q hn
  have hn' : n < ((u.dequeue n q).idleQueue n q).parts.length := by rw [hlen]; simpa [State.dequeue] using hn
  obtain ⟨hcq, hcs⟩ := completeEntry_part q x.place load stage hn'
  refine ⟨?_, ?_, fun e => ?_, fun hd => ?_, fun hd => ?_⟩
  · rw [State.refuseEntry, hcq, hqueues, hdeq]
    exact getD_modAt_tail _ _
  · rw [State.refuseEntry, hcs, hqseq, hdeq]
    exact getD_modAt_same _ _ hq
  · rw [State.elem?, State.refuseEntry, completeEntry_elems, idleQueue_elems]
    rfl
  · simp only [State.refuseEntry, State.completeEntry, QEntry.place, hd, Bool.false_eq_true, if_false]
    rfl
  · simp only [State.refuseEntry, State.completeEntry, QEntry.place, hd, if_true]
    exact idleQueue_mem _ _ _

end Sys2Proof.Proofs
end

