-- ==== Sys2Proof/Proofs/Loads.lean ====
section
/-! SUPPORT. What the loader does at stages 6 to 8 keeps the launch unit of a partition, but for the launch that it adds (R26, R64, R243,
R373, R382). -/

namespace Sys2Proof.Proofs

open Sys2Proof Sys2Proof.Machine Sys2Proof.Claims Sys2Proof.Laws

/-- The state that a load leaves, of a refusal or of a result. -/
def stateOf {α β : Type} (refused : α → State) (done : β → State) : Except α β → State
  | .error a => refused a
  | .ok b => done b

/-! ### Stage 6 -/

theorem placePattern_parts {s t : State} {n k : Nat} {ws : List Nat} (h : s.placePattern n ws = some (k, t)) : t.parts = s.parts := by
  simp only [State.placePattern, Option.map_eq_some_iff, Prod.mk.injEq] at h
  obtain ⟨j, -, -, rfl⟩ := h
  exact ioWrite_parts _ _ _ _

/-- Patterns, placed or not, are written through path CE. -/
theorem placePatterns_parts (n : Nat) (ws : List (List Nat)) (s : State) :
    (stateOf id Prod.snd (State.placePatterns n ws s)).parts = s.parts := by
  induction ws generalizing s with
  | nil => rfl
  | cons w ws ih =>
    rw [State.placePatterns]
    split
    · rfl
    · next k t hp =>
      have hrest := (ih t).trans (placePattern_parts hp)
      split <;> next hr => rw [hr] at hrest; exact hrest

@[simp] theorem tensorWrite_parts (s : State) (n : Nat) (ks : List Nat) (r : TensorRec) : (s.tensorWrite n ks r).parts = s.parts := by
  unfold State.tensorWrite
  dsimp only
  split <;> simp

@[simp] theorem launchUnit_dropDescs (n m : Nat) (s : State) (gone : Nat → Bool) : launchUnit n (s.dropDescs m gone) = launchUnit n s := by
  unfold State.dropDescs State.modCaches
  rw [launchUnit_modPart, launchUnit_modPart]
  · rfl
  · exact fun _ => rfl
  · exact fun _ => rfl

@[simp] theorem launchUnit_methodWrites (n m : Nat) (s : State) (image : Dword) (ms : List (List Nat)) (free : List Nat) :
    launchUnit n (s.methodWrites m image ms free) = launchUnit n s := by
  unfold State.methodWrites
  refine foldl_keeps (launchUnit n) _ _ fun t p => ?_
  refine Eq.trans (launchUnit_modPart n m _ fun _ => rfl) ?_
  exact launchUnit_ioWrite _ _ _ _ _

@[simp] theorem dataWrite_parts (s : State) (n : Nat) (r : DataRec) : (s.dataWrite n r).parts = s.parts := by
  unfold State.dataWrite
  exact foldl_keeps (fun x : State × List Byte => x.1.parts) _ _ fun x a => ioWrite_parts _ _ _ _

/-- Stage 6 keeps the launch unit, whether it refuses the launch or not. -/
theorem launchUnit_loadTables (n : Nat) (s : State) (l : Launch) (m : Image) :
    launchUnit n (stateOf Prod.snd id (s.loadTables l m)) = launchUnit n s := by
  have h0 := launchUnit_of_parts n (placePatterns_parts l.ref.n m.patterns s)
  unfold State.loadTables
  dsimp only
  split
  · next t hp => rw [hp] at h0; exact h0
  · next ks t0 hp =>
    rw [hp] at h0
    have h1 : launchUnit n (if m.patterns.isEmpty then t0 else t0.modPart l.ref.n fun p => { p with pmBusy := true }) = launchUnit n s := by
      split
      · exact h0
      · exact Eq.trans (launchUnit_modPart n _ _ fun _ => rfl) h0
    generalize (if m.patterns.isEmpty then t0 else t0.modPart l.ref.n fun p => { p with pmBusy := true }) = t at h1 ⊢
    have h2 : ∀ gone, launchUnit n ((m.tensors.foldl (fun v r => v.tensorWrite l.ref.n ks r) t).dropDescs l.ref.n gone) = launchUnit n s := by
      intro gone
      rw [launchUnit_dropDescs, ← h1]
      exact foldl_keeps (launchUnit n) _ _ fun v r => launchUnit_of_parts n (tensorWrite_parts _ _ _ _)
    split
    · exact h1
    · split
      · exact h2 _
      · refine Eq.trans (foldl_keeps (launchUnit n) _ _ fun v r => launchUnit_of_parts n (dataWrite_parts _ _ _)) ?_
        split
        · exact (launchUnit_methodWrites _ _ _ _ _ _).trans (h2 _)
        · refine Eq.trans (launchUnit_modPart n _ _ fun _ => rfl) ?_
          exact (launchUnit_methodWrites _ _ _ _ _ _).trans (h2 _)

/-! ### Stages 7 and 8 -/

@[simp] theorem launchUnit_startStreams (n : Nat) (s : State) (r : RegionRef) (keep : Bool) :
    launchUnit n (s.startStreams r keep) = launchUnit n s := by
  unfold State.startStreams
  split
  · exact (launchUnit_of_parts n rfl).trans (launchUnit_modRegion n s r _)
  · rfl

@[simp] theorem launchUnit_launchCut (n : Nat) (s : State) (r : RegionRef) : launchUnit n (s.launchCut r) = launchUnit n s := by
  unfold State.launchCut
  split
  · rfl
  · split
    · rfl
    · exact launchUnit_modRegion n s r _

@[simp] theorem launchUnit_markRegions (n : Nat) (s : State) (ref : LaunchRef) : launchUnit n (s.markRegions ref) = launchUnit n s := by
  cases h : s.launch? ref with
  | none => simp [State.markRegions, h]
  | some l =>
    obtain ⟨a, b, hm⟩ := markRegions_eq h
    rw [hm]
    exact launchUnit_modLaunch n s ref fun _ => rfl

theorem launchUnit_feedChain (n : Nat) (ref : LaunchRef) (k : Nat) (s : State) : launchUnit n (State.feedChain ref k s) = launchUnit n s := by
  induction k generalizing s with
  | zero => rfl
  | succ k ih =>
    rw [State.feedChain]
    split
    · rfl
    · split
      · rfl
      · split
        · rfl
        · refine (ih _).trans (Eq.trans (launchUnit_modLaunch n _ ref fun _ => rfl) ?_)
          exact launchUnit_modPart n ref.n s fun _ => rfl

@[simp] theorem launchUnit_feedChains (n m : Nat) (s : State) : launchUnit n (s.feedChains m) = launchUnit n s := by
  unfold State.feedChains
  exact foldl_keeps (launchUnit n) _ _ fun t l => launchUnit_feedChain n _ _ t

/-- The state of a launch that has been loaded as it starts to run. -/
def launched (t : State) (n q : Nat) (l : Launch) (es : List (Nat × Elem)) (regions : Nat) : State :=
  let u : State := { t with elems := es.foldl (fun a (e, y) => put e y a) t.elems }
  let v := (u.dequeue n q).modPart n fun p => { p with launches := p.launches ++ [l] }
  let w := l.pages.foldl (fun z k => z.modPage k fun p => { p with energy := 0 }) v
  let y := (List.range regions).foldl (fun z j => (z.startStreams ⟨l.ref, j⟩ false).launchCut ⟨l.ref, j⟩) w
  (y.markRegions l.ref).feedChains n

theorem launchUnit_launched (t : State) (n q : Nat) (l : Launch) (es : List (Nat × Elem)) (regions : Nat) :
    launchUnit n (launched t n q l es regions) =
      launchUnit n ((t.dequeue n q).modPart n fun p => { p with launches := p.launches ++ [l] }) := by
  unfold launched
  dsimp only
  rw [launchUnit_feedChains, launchUnit_markRegions, foldl_keeps (launchUnit n), foldl_keeps (launchUnit n)]
  · rfl
  · exact fun _ _ => rfl
  · exact fun z j => (launchUnit_launchCut _ _ _).trans (launchUnit_startStreams _ _ _ _)

theorem runLaunch_of_error {s t : State} {n q c : Nat} {x : QEntry} {m : Image} {vs : List (List (List DraftElem))} {spots : List Spot}
    {gs : List Region} {is : List Island} {dyad : Bool} {tracks : TrackUse}
    (h : s.loadTables (loadedLaunch s n q x m spots gs is dyad tracks) m = .error (c, t)) :
    s.runLaunch n q x m vs spots gs is dyad tracks = t.refuseEntry n q x 0 (stageRec c 0 0) := by
  unfold loadedLaunch at h
  dsimp only at h
  unfold State.runLaunch
  simp only [h]

theorem runLaunch_of_ok {s t : State} {n q : Nat} {x : QEntry} {m : Image} {vs : List (List (List DraftElem))} {spots : List Spot}
    {gs : List Region} {is : List Island} {dyad : Bool} {tracks : TrackUse}
    (h : s.loadTables (loadedLaunch s n q x m spots gs is dyad tracks) m = .ok t) :
    s.runLaunch n q x m vs spots gs is dyad tracks =
      launched t n q (loadedLaunch s n q x m spots gs is dyad tracks) (placedElems ⟨n, q, x.seq⟩ m vs spots) gs.length := by
  have h' := h
  unfold loadedLaunch at h'
  dsimp only at h'
  unfold State.runLaunch
  simp only [h']
  rfl

theorem runs_launched {t : State} {n q : Nat} {x : QEntry} {l : Launch} (es : List (Nat × Elem)) (regions : Nat) (hn : n < t.parts.length)
    (hl : l.ref = ⟨n, q, x.seq⟩) : Runs t (launched t n q l es regions) n q x := by
  obtain ⟨-, hqueues, hqseq, hrefs⟩ := launchUnit_eq_iff.1 (launchUnit_launched t n q l es regions)
  rw [part_modPart_same _ (by simpa [State.dequeue] using hn), dequeue_part q hn] at hqueues hqseq hrefs
  refine ⟨?_, ?_, hqseq⟩
  · rw [hrefs, List.map_append, List.map_singleton, hl]
  · rw [hqueues]
    exact getD_modAt_tail _ _

end Sys2Proof.Proofs
end

