-- ==== Sys2Proof/Proofs/Entries.lean ====
section
/-! SUPPORT. Which entry the launch unit serves (R224), and what each stage makes of it (R26, R216 to R218, R223, R225, R228). -/

namespace Sys2Proof.Proofs

open Sys2Proof Sys2Proof.Machine Sys2Proof.Claims Sys2Proof.Laws

/-! ### The queue that is served (R224) -/

/-- How many queues a level looks at before queue `r`, where it served queue `last` last. -/
def turnOf (last r : Nat) : Nat := (r + 7 + 7 * last) % 8

theorem turnOf_lt (last r : Nat) : turnOf last r < 8 := Nat.mod_lt _ (by decide)

theorem queue_of_turnOf (last : Nat) {r : Nat} (h : r < 8) : (last + 1 + turnOf last r) % 8 = r := by
  unfold turnOf
  omega

theorem turnOf_queue (last : Nat) {k : Nat} (h : k < 8) : turnOf last ((last + 1 + k) % 8) = k := by
  unfold turnOf
  omega

theorem level_lt (p : Part) (q : Nat) : p.level q < 4 := by
  unfold Part.level bits
  rw [show 2 * q + 1 + 1 - 2 * q = 2 by omega]
  exact Nat.mod_lt _ (by decide)

/-- Queue `r` of a level has a head that may start. -/
def mayServe (s : State) (n lvl r : Nat) : Bool :=
  (s.part n).level r == lvl && ((((s.part n).queues.getD r []).head?).map (s.startable n)).getD false

theorem mayServe_iff {s : State} {n lvl r : Nat} : mayServe s n lvl r = true ↔
    (s.part n).level r = lvl ∧ ∃ y, ((s.part n).queues.getD r []).head? = some y ∧ s.startable n y = true := by
  unfold mayServe
  cases ((s.part n).queues.getD r []).head? <;> simp

theorem serves_of_served {s : State} {n q : Nat} {x : QEntry} (h : Served s n q x) : s.serves n ((s.part n).level q) = some q := by
  obtain ⟨hq, hx, hstart, hfirst⟩ := h
  have hfind : (List.range 8).find? (fun k => mayServe s n ((s.part n).level q)
      (((s.part n).qlast.getD ((s.part n).level q) 7 + 1 + k) % 8)) = some (turnOf ((s.part n).qlast.getD ((s.part n).level q) 7) q) := by
    refine List.find?_range_eq_some.2 ⟨?_, List.mem_range.2 (turnOf_lt _ _), fun j hj => ?_⟩
    · rw [queue_of_turnOf _ hq]
      exact mayServe_iff.2 ⟨rfl, x, hx, hstart⟩
    · rw [Bool.not_eq_true', ← Bool.not_eq_true, mayServe_iff]
      rintro ⟨hlevel, y, hy, hys⟩
      have hj8 := hj.trans (turnOf_lt _ _)
      have hturn := turnOf_queue ((s.part n).qlast.getD ((s.part n).level q) 7) hj8
      rcases hfirst _ (Nat.mod_lt _ (by decide)) (fun heq => by rw [heq] at hturn; omega) y hy hys with hlt | ⟨-, hlt⟩
      · omega
      · dsimp only at hlt
        rw [hlevel] at hlt
        exact absurd (hlt.trans_eq hturn) hj.not_gt
  rw [State.serves, List.find?_map]
  exact (congrArg (Option.map _) hfind).trans (congrArg some (queue_of_turnOf _ hq))

theorem serves_eq_none_of_lt {s : State} {n q lvl : Nat} {x : QEntry} (h : Served s n q x) (hlt : lvl < (s.part n).level q) :
    s.serves n lvl = none := by
  obtain ⟨-, -, -, hfirst⟩ := h
  rw [State.serves, List.find?_eq_none]
  intro r hr
  obtain ⟨k, -, rfl⟩ := List.mem_map.1 hr
  change ¬ mayServe s n lvl _ = true
  rw [mayServe_iff]
  rintro ⟨hlevel, y, hy, hys⟩
  rcases hfirst _ (Nat.mod_lt _ (by decide)) (fun heq => by rw [heq] at hlevel; omega) y hy hys with h | ⟨h, -⟩ <;> omega

theorem modAt_congr {α : Type} {l : List α} {i : Nat} {f g : α → α} (d : α) (h : f (l.getD i d) = g (l.getD i d)) :
    modAt l i f = modAt l i g := by
  induction l generalizing i with
  | nil => rfl
  | cons a l ih =>
    cases i with
    | zero => exact congrArg (· :: l) h
    | succ i => exact congrArg (a :: ·) (ih h)

theorem modPart_congr {s : State} {n : Nat} {f g : Part → Part} (h : f (s.part n) = g (s.part n)) : s.modPart n f = s.modPart n g := by
  have hp : modAt s.parts n f = modAt s.parts n g := modAt_congr {} h
  rw [State.modPart, State.modPart, hp]

/-- The queue that R224 names is served: the lowest level with a head that may start, and its next queue. -/
theorem exec_startEntry {s : State} {n q : Nat} {x : QEntry} (hen : (s.part n).enable = true) (h : Served s n q x) :
    exec (.startEntry n) s = .next ((servedState s n q).beginEntry n q x) := by
  obtain ⟨hq, hx, -, -⟩ := id h
  have hpick : ((List.range 4).findSome? fun lvl => (s.serves n lvl).map fun q => (lvl, q)) = some ((s.part n).level q, q) := by
    rw [List.findSome?_eq_some_iff]
    have hl := level_lt (s.part n) q
    refine ⟨List.range ((s.part n).level q), (s.part n).level q, (List.range' ((s.part n).level q + 1) (3 - (s.part n).level q)), ?_, ?_, ?_⟩
    · generalize (s.part n).level q = k at hl
      interval_cases k <;> rfl
    · rw [serves_of_served h]
      rfl
    · intro lvl hlvl
      rw [serves_eq_none_of_lt h (List.mem_range.1 hlvl)]
      rfl
  rw [exec, execStartEntry]
  simp only [hen, hpick, hx, Bool.not_true, Bool.false_eq_true, if_false]
  exact congrArg (fun u : State => (.next (u.beginEntry n q x) : Out)) (modPart_congr rfl)

/-! ### What becomes of the entry (R216, R223) -/

/-- A reconfigure entry that is not refused for its kind: a raw one comes from the host chain (R216, R223). -/
def Reconfigures (x : QEntry) : Prop := x.kind = 1 ∨ (x.kind = 2 ∧ x.fromDev = false)

theorem beginEntry_launch {x : QEntry} (s : State) (n q : Nat) (h : x.kind = 0) : s.beginEntry n q x = s.beginLaunch n q x := by
  unfold State.beginEntry
  simp only [h]

theorem beginEntry_otherKind {x : QEntry} (s : State) (n q : Nat) (h : 3 ≤ x.kind) :
    s.beginEntry n q x = s.refuseEntry n q x 0 (0x50 * 2 ^ 56) := by
  obtain ⟨k, hk⟩ := Nat.exists_eq_add_of_le' h
  unfold State.beginEntry
  simp only [hk]
  rfl

theorem beginEntry_raw {x : QEntry} (s : State) (n q : Nat) (h : x.kind = 2) (hd : x.fromDev = true) :
    s.beginEntry n q x = s.refuseEntry n q x 0 (0x51 * 2 ^ 56) := by
  unfold State.beginEntry
  simp only [h, hd, and_self, if_true]
  rfl

theorem beginEntry_noTarget {s : State} {n : Nat} {x : QEntry} (q : Nat) (h : Reconfigures x) (hg : s.region? ⟨x.target n, x.region⟩ = none) :
    s.beginEntry n q x = s.refuseEntry n q x 0 (0x52 * 2 ^ 56) := by
  unfold State.beginEntry
  rcases h with hk | ⟨hk, hd⟩
  · simp only [hk, hg, Nat.reduceEqDiff, false_and, if_false]
    cases s.launch? (x.target n) <;> rfl
  · simp only [hk, hd, hg, Bool.false_eq_true, and_false, if_false]
    cases s.launch? (x.target n) <;> rfl

theorem beginEntry_reconfigure {s : State} {n : Nat} {x : QEntry} {l : Launch} {g : Region} (q : Nat) (h : Reconfigures x)
    (hl : s.launch? (x.target n) = some l) (hg : s.region? ⟨x.target n, x.region⟩ = some g) :
    s.beginEntry n q x = s.reconfigure n q x l g (x.kind == 2) := by
  unfold State.beginEntry
  rcases h with hk | ⟨hk, hd⟩
  · simp only [hk, hl, hg, Nat.reduceEqDiff, false_and, if_false]
  · simp only [hk, hd, hl, hg, Bool.false_eq_true, and_false, if_false]

/-! ### A reconfigure entry (R228) -/

section

variable {s : State} {n q : Nat} {x : QEntry} {l : Launch} {g : Region} {raw : Bool} {ds : List Nat} {m : Image} {vs : List (List (List DraftElem))}

theorem reconfigure_unread (h : s.readImage n (x.d 0) = none) :
    s.reconfigure n q x l g raw = s.refuseEntry n q x (0x10 * 2 ^ 56) 0 := by
  unfold State.reconfigure
  simp only [h]
  rfl

theorem reconfigure_malformed {e : LoadErr} (h : s.readImage n (x.d 0) = some ds) (hm : imageOf raw ds = .error e) :
    s.reconfigure n q x l g raw = s.refuseEntry n q x e.word 0 := by
  unfold State.reconfigure
  simp only [h, hm]

theorem reconfigure_invalid {e : LoadErr} (h : s.readImage n (x.d 0) = some ds) (hm : imageOf raw ds = .ok m)
    (hv : validate (s.grants n l.pword l.regions.length) raw m = .error e) :
    s.reconfigure n q x l g raw = s.refuseEntry n q x e.word 0 := by
  unfold State.reconfigure
  simp only [h, hm, hv]

/-- The place in an image of the region that a reconfigure entry names. -/
def recordPlace (x : QEntry) (vs : List (List (List DraftElem))) : Nat := if x.region < vs.length then x.region else 0

theorem elemRecords_eq (m : Image) (g : Region) (j : Nat) :
    ((m.regions[j]?.map fun r => (r.vars[min g.variant (r.vars.length - 1)]?.map (·.elems)).getD []).getD []) = elemRecords m g j := by
  unfold elemRecords
  cases m.regions[j]? with
  | none => rfl
  | some r =>
    simp only [Option.map_some, Option.getD_some]
    cases r.vars[min g.variant (r.vars.length - 1)]? <;> rfl

/-- A shadow context set holds 448 bytes an element (R228). -/
theorem any_tooBig_iff (m : Image) (g : Region) (j : Nat) :
    ((elemRecords m g j).any fun e => decide (shadowBytes < (e.ctxs.map CtxRec.bytes).sum)) = true ↔ ∃ k ∈ contextBytes m g j, 448 < k := by
  rw [show 448 = shadowBytes from rfl]
  simp [contextBytes]

/-- A reconfigure image that passes the checks: it is too big for the shadow contexts, uses an element that is out of use, or is loaded. -/
theorem reconfigure_valid (h : s.readImage n (x.d 0) = some ds) (hm : imageOf raw ds = .ok m)
    (hv : validate (s.grants n l.pword l.regions.length) raw m = .ok vs) :
    s.reconfigure n q x l g raw =
      if ∃ k ∈ contextBytes m g (recordPlace x vs), 448 < k then s.refuseEntry n q x 0 (stageRec 0x53 x.region 0)
      else if s.outOfUse g (elemRecords m g (recordPlace x vs)) then s.refuseEntry n q x 0 (stageRec 0x30 x.region 0)
      else (s.dequeue n q).loadShadow ⟨l.ref, x.region⟩ g x (vs.getD (recordPlace x vs) []) := by
  unfold State.reconfigure
  simp only [h, hm, hv, elemRecords_eq]
  rw [← recordPlace]
  simp only [any_tooBig_iff]

end

/-! #### The shadow contexts loaded -/

theorem region_of_parts {s t : State} (r : RegionRef) (h : t.parts = s.parts) : t.region? r = s.region? r := by
  simp only [State.region?, State.launch?, State.part, h]

theorem region_dequeue (s : State) (n q : Nat) (r : RegionRef) : (s.dequeue n q).region? r = s.region? r := by
  have h : ((s.dequeue n q).part r.l.n).launches = (s.part r.l.n).launches := part_modPart_keeps Part.launches _ _ _ fun _ => rfl
  simp only [State.region?, State.launch?, h]

theorem ref_of_launch {s : State} {l : LaunchRef} {x : Launch} (h : s.launch? l = some x) : x.ref = l := by
  simpa using List.find?_some h

/-- No element of a region has switched. -/
def Unswitched (r : RegionRef) (s : State) : Prop := ∀ e y, s.elem? e = some y → y.rref = r → y.switched = false

theorem unswitched_modElem {s : State} {r : RegionRef} {f : Elem → Elem} (e : Nat) (hf : ∀ y, (f y).rref = y.rref ∧ (f y).switched = y.switched)
    (h : Unswitched r s) : Unswitched r (s.modElem e f) := by
  intro d y hy hr
  by_cases hd : d = e
  · subst hd
    rw [elem_modElem_same, Option.map_eq_some_iff] at hy
    obtain ⟨z, hz, rfl⟩ := hy
    rw [(hf z).2]
    exact h d z hz ((hf z).1 ▸ hr)
  · rw [elem_modElem_other _ _ _ _ hd] at hy
    exact h d y hy hr

theorem unswitched_modRegionElems (s : State) (r : RegionRef) {f : Elem → Elem} (hf : ∀ y, (f y).rref = y.rref ∧ (f y).switched = false) :
    Unswitched r (s.modRegionElems r f) := by
  intro e y hy hr
  rw [State.elem?, State.modRegionElems, look_map e (fun p => by split <;> rfl), Option.map_eq_some_iff] at hy
  obtain ⟨z, -, rfl⟩ := hy
  dsimp only at hr ⊢
  split at hr
  · next hz => rw [if_pos hz]; exact (hf z).2
  · next hz => exact absurd hr hz

theorem unswitched_loadShadow (s : State) (r : RegionRef) (g : Region) (x : QEntry) (vs : List (List DraftElem)) :
    Unswitched r (s.loadShadow r g x vs) := by
  have hstart : Unswitched r (s.modRegionElems r fun y => { y with shadow := [], switched := false }) :=
    unswitched_modRegionElems s r fun _ => ⟨rfl, rfl⟩
  exact List.foldlRecOn (motive := Unswitched r) _ _ hstart fun v hv p _ =>
    unswitched_modElem p.1 (fun y => by split <;> exact ⟨rfl, rfl⟩) hv

/-- The parts of a state whose shadow contexts are loaded: the wavefront stands in the region alone. -/
theorem loadShadow_parts (s : State) (r : RegionRef) (g : Region) (x : QEntry) (vs : List (List DraftElem)) :
    (s.loadShadow r g x vs).parts = (s.modRegion r fun h => { h with wave := some ⟨entryQueue x.dw, x.place, false⟩ }).parts := by
  unfold State.loadShadow
  dsimp only
  rw [State.modRegion, State.modLaunch, State_modPart_parts, foldl_keeps State.parts]
  · rfl
  · exact fun v p => State_modElem_parts _ _ _

theorem region_loadShadow {s : State} {r : RegionRef} {h : Region} (g : Region) (x : QEntry) (vs : List (List DraftElem))
    (hr : s.region? r = some h) :
    (s.loadShadow r g x vs).region? r = some { h with wave := some ⟨queueOf x.dw, x.place, false⟩ } := by
  rw [region_of_parts r (loadShadow_parts s r g x vs), region_modRegion_same, hr]
  rfl

theorem queues_loadShadow (s : State) (n : Nat) (r : RegionRef) (g : Region) (x : QEntry) (vs : List (List DraftElem)) :
    ((s.loadShadow r g x vs).part n).queues = (s.part n).queues := by
  have h := (launchUnit_of_parts n (loadShadow_parts s r g x vs)).trans (launchUnit_modRegion n s r _)
  exact (launchUnit_eq_iff.1 h).2.1

/-! ### A launch (R26, R101, R217, R428) -/

section

variable {s : State} {n q r : Nat} {x : QEntry} {hs ds : List Nat} {e : LoadErr} {m : Image} {vs : List (List (List DraftElem))}

theorem beginLaunch_noPower (h : s.powerRefusal n q = some r) : s.beginLaunch n q x = s.refuseEntry n q x 0 r := by
  unfold State.beginLaunch
  simp only [h]

theorem beginLaunch_noHeader (h : s.powerRefusal n q = none) (hh : s.readHeader n (x.d 0) = none) :
    s.beginLaunch n q x = s.refuseEntry n q x (0x10 * 2 ^ 56) 0 := by
  unfold State.beginLaunch
  simp only [h, hh]
  rfl

theorem beginLaunch_badHeader (h : s.powerRefusal n q = none) (hh : s.readHeader n (x.d 0) = some hs)
    (hr : s.headRefusal n (headerOf hs) = some r) : s.beginLaunch n q x = s.refuseEntry n q x 0 r := by
  unfold State.beginLaunch
  simp only [h, hh, hr]

/-- The stages of a launch that the admission has let pass: its contract counts from here on (R427). -/
def admittedLaunch (v : State) (n q : Nat) (x : QEntry) : State :=
  match v.readImage n (x.d 0) with
  | none => v.refuseEntry n q x ({ code := 0x10 : LoadErr }).word 0
  | some ds =>
    match imageOf false ds with
    | .error e => v.refuseEntry n q x e.word 0
    | .ok m =>
      match validate (v.grants n m.head.pword m.head.nreg) false m with
      | .error e => v.refuseEntry n q x e.word 0
      | .ok vs =>
        match m.graphErr ⟨n, q, x.seq⟩ vs (v.bindings n (x.d 2)) with
        | some r => v.refuseEntry n q x 0 r
        | none => v.tryLaunch n q x ds m vs

theorem beginLaunch_admitted (h : s.powerRefusal n q = none) (hh : s.readHeader n (x.d 0) = some hs)
    (hr : s.headRefusal n (headerOf hs) = none) : s.beginLaunch n q x = admittedLaunch (s.count n q) n q x := by
  unfold State.beginLaunch
  simp only [h, hh, hr]
  rw [← readImage_count s n q]
  rfl

theorem admittedLaunch_unread (h : s.readImage n (x.d 0) = none) : admittedLaunch s n q x = s.refuseEntry n q x (0x10 * 2 ^ 56) 0 := by
  unfold admittedLaunch
  simp only [h]
  rfl

theorem admittedLaunch_malformed (h : s.readImage n (x.d 0) = some ds) (hm : imageOf false ds = .error e) :
    admittedLaunch s n q x = s.refuseEntry n q x e.word 0 := by
  unfold admittedLaunch
  simp only [h, hm]

theorem admittedLaunch_invalid (h : s.readImage n (x.d 0) = some ds) (hm : imageOf false ds = .ok m)
    (hv : validate (s.grants n m.head.pword m.head.nreg) false m = .error e) : admittedLaunch s n q x = s.refuseEntry n q x e.word 0 := by
  unfold admittedLaunch
  simp only [h, hm, hv]

theorem admittedLaunch_badGraph (h : s.readImage n (x.d 0) = some ds) (hm : imageOf false ds = .ok m)
    (hv : validate (s.grants n m.head.pword m.head.nreg) false m = .ok vs)
    (hg : m.graphErr ⟨n, q, x.seq⟩ vs (s.bindings n (x.d 2)) = some r) : admittedLaunch s n q x = s.refuseEntry n q x 0 r := by
  unfold admittedLaunch
  simp only [h, hm, hv, hg]

theorem admittedLaunch_valid (h : s.readImage n (x.d 0) = some ds) (hm : imageOf false ds = .ok m)
    (hv : validate (s.grants n m.head.pword m.head.nreg) false m = .ok vs)
    (hg : m.graphErr ⟨n, q, x.seq⟩ vs (s.bindings n (x.d 2)) = none) : admittedLaunch s n q x = s.tryLaunch n q x ds m vs := by
  unfold admittedLaunch
  simp only [h, hm, hv, hg]

end

end Sys2Proof.Proofs
end

