-- ==== Sys2Proof/Proofs/EntriesStart.lean ====
section
/-! O48 of the machine's statements: START_ENTRY and PLACEMENT_RETRY (R26, R66, R216 to R218, R223 to R225, R228). -/

namespace Sys2Proof.Proofs

open Sys2Proof Sys2Proof.Machine Sys2Proof.Claims Sys2Proof.Laws

/-! ### Placement and what follows (R217, R218) -/

theorem queues_wait {s : State} {n q : Nat} {x : QEntry} (ds : List Nat) (hq : q < (s.part n).queues.length)
    (hx : ((s.part n).queues.getD q []).head? = some x) :
    (modAt (s.part n).queues q fun l => modAt l 0 fun y => { y with img := some ds }).getD q [] =
      { x with img := some ds } :: ((s.part n).queues.getD q []).tail := by
  rw [getD_modAt_same _ _ hq]
  cases hl : (s.part n).queues.getD q [] with
  | nil =>
    rw [hl] at hx
    cases hx
  | cons y ys =>
    rw [hl, List.head?_cons, Option.some.injEq] at hx
    rw [hx]
    rfl

/-- An image that has passed the checks is tried: refused, kept waiting, refused as it is loaded, or run. -/
theorem tried_tryLaunch {s : State} {n q : Nat} {x : QEntry} (ds : List Nat) (m : Image) (vs : List (List (List DraftElem)))
    (hn : n < s.parts.length) (hqueues : q < (s.part n).queues.length) (hqseq : q < (s.part n).qseq.length)
    (hx : ((s.part n).queues.getD q []).head? = some x) : Tried s (s.tryLaunch n q x ds m vs) n q x ds m vs := by
  unfold Tried State.tryLaunch
  rcases s.placeLaunch n x m (placedElems ⟨n, q, x.seq⟩ m vs) with ⟨p, spots⟩
  cases p with
  | refused r => exact refused_refuseEntry x 0 r hn hqseq
  | waits =>
    dsimp only
    rw [part_modPart_same _ hn]
    exact ⟨queues_wait ds hqueues hx, rfl⟩
  | ok gs is dyad tracks =>
    have hload := launchUnit_loadTables n s (loadedLaunch s n q x m spots gs is dyad tracks) m
    dsimp only
    refine ⟨fun c t ht => ?_, fun t ht => ?_⟩
    · rw [ht] at hload
      obtain ⟨hlen, -, hseq, -⟩ := launchUnit_eq_iff.1 hload
      rw [runLaunch_of_error ht]
      exact refused_refuseEntry x 0 _ (hlen.symm ▸ hn) (hseq.symm ▸ hqseq)
    · rw [ht] at hload
      obtain ⟨hlen, -⟩ := launchUnit_eq_iff.1 hload
      rw [runLaunch_of_ok ht]
      exact runs_launched _ _ (hlen.symm ▸ hn) rfl

/-! ### PLACEMENT_RETRY (R67, R218) -/

theorem retryQueue_of_img {s : State} {n q : Nat} {x : QEntry} {ds : List Nat} {m : Image} {vs : List (List (List DraftElem))}
    (hx : ((s.part n).queues.getD q []).head? = some x) (hi : x.img = some ds) (hm : imageOf false ds = .ok m)
    (hv : validate (s.grants n m.head.pword m.head.nreg) false m = .ok vs) : s.retryQueue n q = s.tryLaunch n q x ds m vs := by
  unfold State.retryQueue
  simp only [hx, hi, hm, hv]

theorem retryQueue_of_no_img {s : State} {n q : Nat} (h : ∀ y, ((s.part n).queues.getD q []).head? = some y → y.img = none) :
    s.retryQueue n q = s := by
  unfold State.retryQueue
  split
  · rfl
  · next y hy => simp only [h y hy]

/-- A fold that acts at one place alone. -/
theorem foldl_at {α β : Type} {f : α → β → α} {b : β} {s t : α} (hb : f s b = t) (hs : ∀ c, c ≠ b → f s c = s)
    (ht : ∀ c, c ≠ b → f t c = t) {bs : List β} (hnd : bs.Nodup) (hmem : b ∈ bs) : bs.foldl f s = t := by
  have hafter : ∀ cs : List β, b ∉ cs → cs.foldl f t = t := by
    intro cs
    induction cs with
    | nil => exact fun _ => rfl
    | cons c cs ih =>
      intro hc
      rw [List.mem_cons, not_or] at hc
      rw [List.foldl_cons, ht c (Ne.symm hc.1), ih hc.2]
  induction bs with
  | nil => exact absurd hmem List.not_mem_nil
  | cons c bs ih =>
    rw [List.nodup_cons] at hnd
    rw [List.foldl_cons]
    by_cases hc : c = b
    · subst hc
      rw [hb]
      exact hafter bs hnd.1
    · rw [hs c hc]
      exact ih hnd.2 ((List.mem_cons.1 hmem).resolve_left (Ne.symm hc))

/-- The queues of a partition by level, each once. -/
def queuesByLevel (p : Part) : List Nat := (List.range 4).flatMap fun lvl => (List.range 8).filter fun q => p.level q == lvl

theorem queuesByLevel_nodup (p : Part) : (queuesByLevel p).Nodup := by
  refine List.nodup_flatMap.2 ⟨fun lvl _ => List.nodup_range.filter _, List.nodup_range.imp fun {a b} hab => ?_⟩
  intro q ha hb
  simp only [List.mem_filter, beq_iff_eq] at ha hb
  exact hab (ha.2.symm.trans hb.2)

theorem mem_queuesByLevel (p : Part) {q : Nat} (h : q < 8) : q ∈ queuesByLevel p := by
  simp only [queuesByLevel, List.mem_flatMap, List.mem_filter, List.mem_range, beq_iff_eq]
  exact ⟨p.level q, level_lt p q, h, rfl⟩

theorem exec_placementRetry {s : State} {n : Nat} (hen : (s.part n).enable = true) :
    exec (.placementRetry n) s = .next ((queuesByLevel (s.part n)).foldl (fun t q => t.retryQueue n q) s) := by
  rw [exec, execPlacementRetry]
  simp only [hen, Bool.not_true, Bool.false_eq_true, if_false]
  rfl

/-- The one queue whose head waits with an image is tried again, whichever level it has. -/
theorem exec_placementRetry_waiting {s : State} {n q : Nat} {x : QEntry} {ds : List Nat} {m : Image} {vs : List (List (List DraftElem))}
    (hen : (s.part n).enable = true) (hq : q < 8) (hx : ((s.part n).queues.getD q []).head? = some x) (hi : x.img = some ds)
    (hm : imageOf false ds = .ok m) (hv : validate (s.grants n m.head.pword m.head.nreg) false m = .ok vs)
    (hother : ∀ v ∈ [s, s.tryLaunch n q x ds m vs], ∀ r, r ≠ q → ∀ y, ((v.part n).queues.getD r []).head? = some y → y.img = none) :
    exec (.placementRetry n) s = .next (s.tryLaunch n q x ds m vs) := by
  have hidle : ∀ v ∈ [s, s.tryLaunch n q x ds m vs], ∀ r, r ≠ q → v.retryQueue n r = v :=
    fun v hv r hr => retryQueue_of_no_img (hother v hv r hr)
  rw [exec_placementRetry hen]
  exact congrArg _ (foldl_at (retryQueue_of_img hx hi hm hv) (hidle s (by simp)) (hidle _ (by simp)) (queuesByLevel_nodup _)
    (mem_queuesByLevel _ hq))

/-! ### START_ENTRY (R224) -/

/-- A reconfigure entry that is loaded: its wavefront stands in the region, the entry is out of its queue, and no element has switched. -/
theorem loaded_shadow {u : State} {n : Nat} {r : RegionRef} {g : Region} (q : Nat) (x : QEntry) (vs : List (List DraftElem)) (hn : n < u.parts.length)
    (hg : u.region? r = some g) : let t := (u.dequeue n q).loadShadow r g x vs
    (∃ h, t.region? r = some h ∧ h.wave = some ⟨queueOf x.dw, x.place, false⟩) ∧
      (t.part n).queues.getD q [] = ((u.part n).queues.getD q []).tail ∧ Unswitched r t := by
  refine ⟨⟨_, region_loadShadow g x vs ((region_dequeue u n q r).trans hg), rfl⟩, ?_, unswitched_loadShadow _ _ _ _ _⟩
  rw [queues_loadShadow, dequeue_part q hn]
  exact getD_modAt_tail _ _

theorem launchUnit_servedState (n : Nat) (s : State) (q : Nat) : launchUnit n (servedState s n q) = launchUnit n s :=
  launchUnit_modPart n n s fun _ => rfl

/-- Settles O48: the queue that R224 names is served, and each stage's outcome is a refusal, whose effect is proved once, a wavefront loaded, or a
launch tried; a retry acts on the one queue whose head waits with an image. -/
theorem entriesStart : Obligations.EntriesStart := by
  unfold Obligations.EntriesStart
  intro s n q x hen hqueues hqseq
  have hn := lt_length_of_enable hen
  refine ⟨fun hserved => ?_, fun ds m vs t hq hx hi hm hv ht hother => ?_⟩
  · have hexec := exec_startEntry hen hserved
    obtain ⟨hq, hx, -, -⟩ := hserved
    have hunit := launchUnit_servedState n s q
    generalize servedState s n q = u at hexec hunit
    have hout : ∀ (v : State) (load stage : Nat), launchUnit n v = launchUnit n s → u.beginEntry n q x = v.refuseEntry n q x load stage →
        ∃ t, exec (.startEntry n) s = .next t ∧ Refused v t n q x load stage := by
      intro v load stage hv hb
      obtain ⟨hlen, -, hseq, -⟩ := launchUnit_eq_iff.1 hv
      refine ⟨_, hexec, ?_⟩
      rw [hb]
      exact refused_refuseEntry x load stage (hlen.symm ▸ hn) (by rw [hseq, hqseq]; exact hq)
    have hcount : launchUnit n (u.count n q) = launchUnit n s := (launchUnit_count n n u q).trans hunit
    refine ⟨fun hk => hout u _ _ hunit (beginEntry_otherKind u n q hk), fun hk hd => hout u _ _ hunit (beginEntry_raw u n q hk hd),
      fun hk hg => hout u _ _ hunit (beginEntry_noTarget q hk hg), fun l g hk hl hg => ?_, fun hk => ?_⟩
    · have hb := beginEntry_reconfigure q hk hl hg
      refine ⟨fun hr => hout u _ _ hunit (hb.trans (reconfigure_unread hr)), fun ds hds =>
        ⟨fun e he => hout u _ _ hunit (hb.trans (reconfigure_malformed hds he)), fun m hm =>
        ⟨fun e he => hout u _ _ hunit (hb.trans (reconfigure_invalid hds hm he)), fun vs hv => ?_⟩⟩⟩
      have hvalid := hb.trans (reconfigure_valid hds hm hv)
      refine ⟨fun hbig => hout u _ _ hunit (hvalid.trans (if_pos hbig)), fun hsmall hbad => ?_, fun hsmall hgood => ?_⟩
      · refine hout u _ _ hunit (hvalid.trans ((if_neg ?_).trans (if_pos hbad)))
        exact fun ⟨k, hk, hlt⟩ => absurd (hsmall k hk) (Nat.not_le_of_lt hlt)
      · rw [if_neg fun ⟨k, hk, hlt⟩ => absurd (hsmall k hk) (Nat.not_le_of_lt hlt), if_neg (by simpa [recordPlace] using hgood),
          ref_of_launch hl] at hvalid
        obtain ⟨⟨h, hh, hwave⟩, hqueue, hnone⟩ :=
          loaded_shadow q x (vs.getD (recordPlace x vs) []) ((launchUnit_eq_iff.1 hunit).1.symm ▸ hn) hg
        exact ⟨_, h, hvalid ▸ hexec, hh, hwave, hqueue, hnone⟩
    · have hb := beginEntry_launch u n q hk
      refine ⟨fun r hr => hout u _ _ hunit (hb.trans (beginLaunch_noPower hr)), fun hp =>
        ⟨fun hh => hout u _ _ hunit (hb.trans (beginLaunch_noHeader hp hh)), fun hs hh =>
        ⟨fun r hr => hout u _ _ hunit (hb.trans (beginLaunch_badHeader hp hh hr)), fun hr => ?_⟩⟩⟩
      have ha := hb.trans (beginLaunch_admitted hp hh hr)
      refine ⟨fun h => hout _ _ _ hcount (ha.trans (admittedLaunch_unread h)), fun ds hds =>
        ⟨fun e he => hout _ _ _ hcount (ha.trans (admittedLaunch_malformed hds he)), fun m hm =>
        ⟨fun e he => hout _ _ _ hcount (ha.trans (admittedLaunch_invalid hds hm he)), fun vs hv =>
        ⟨fun r hg => hout _ _ _ hcount (ha.trans (admittedLaunch_badGraph hds hm hv hg)), fun hg => ⟨_, hexec, ?_⟩⟩⟩⟩⟩
      obtain ⟨hlen, hqs, hseq, -⟩ := launchUnit_eq_iff.1 hcount
      rw [ha, admittedLaunch_valid hds hm hv hg]
      refine tried_tryLaunch ds m vs (hlen.symm ▸ hn) ?_ ?_ ?_
      · rw [hqs, hqueues]
        exact hq
      · rw [hseq, hqseq]
        exact hq
      · rw [hqs]
        exact hx
  · subst ht
    exact ⟨exec_placementRetry_waiting hen hq hx hi hm hv hother,
      tried_tryLaunch ds m vs hn (hqueues.symm ▸ hq) (hqseq.symm ▸ hq) hx⟩

end Sys2Proof.Proofs
end

