-- ==== Sys2Proof/Proofs/Decoding.lean ====
section
/-! SUPPORT. The decoder read backwards: what each code, field and layout decodes from is what the encoder writes of it (R34 to R51). -/

namespace Sys2Proof.Proofs

open Sys2Proof Sys2Proof.Laws Sys2Proof.Machine Sys2Proof.Claims

/-! ### Reading a decoder that succeeds -/

theorem bind_ok {α β : Type} {x : Except Reject α} {f : α → Except Reject β} {b : β} : (x >>= f) = .ok b ↔ ∃ a, x = .ok a ∧ f a = .ok b := by
  cases x with
  | error e => exact ⟨fun h => (nomatch h), fun ⟨_, h, _⟩ => (nomatch h)⟩
  | ok a => exact ⟨fun h => ⟨a, rfl, h⟩, fun ⟨_, ha, h⟩ => (Except.ok.inj ha) ▸ h⟩

theorem need_ok {c : Prop} [Decidable c] {u : Unit} : need c = .ok u ↔ c := by
  rw [need]
  split <;> simp [*]

theorem pure_ok {α : Type} {a b : α} : (pure a : Except Reject α) = .ok b ↔ a = b := Except.ok.injEq a b ▸ Iff.rfl

/-! ### Codes -/

theorem decPm_ok {n : Nat} {q : Pm} : decPm n = .ok q ↔ q.code = n :=
  ⟨fun h => by unfold decPm at h; split at h <;> cases h <;> rfl, fun h => h ▸ Pm_dec q⟩

theorem decCond_ok {n : Nat} {q : Cond} : decCond n = .ok q ↔ q.code = n :=
  ⟨fun h => by unfold decCond at h; split at h <;> cases h <;> rfl, fun h => h ▸ Cond_dec q⟩

theorem decFFmt_ok {n : Nat} {q : FFmt} : decFFmt n = .ok q ↔ q.code = n :=
  ⟨fun h => by unfold decFFmt at h; split at h <;> cases h <;> rfl, fun h => h ▸ FFmt_dec q⟩

theorem decFmt_ok {n : Nat} {q : Fmt} : decFmt n = .ok q ↔ q.code = n :=
  ⟨fun h => by unfold decFmt at h; split at h <;> cases h <;> rfl, fun h => h ▸ Fmt_dec q⟩

theorem decRedOp_ok {n : Nat} {q : RedOp} : decRedOp n = .ok q ↔ q.code = n :=
  ⟨fun h => by unfold decRedOp at h; split at h <;> cases h <;> rfl, fun h => h ▸ RedOp_dec q⟩

theorem decScope_ok {n : Nat} {q : Scope} : decScope n = .ok q ↔ q.code = n :=
  ⟨fun h => by unfold decScope at h; split at h <;> cases h <;> rfl, fun h => h ▸ Scope_dec q⟩

theorem decPath_ok {n : Nat} {q : Path} : decPath n = .ok q ↔ q.code = n :=
  ⟨fun h => by unfold decPath at h; split at h <;> cases h <;> rfl, fun h => h ▸ Path_dec q⟩

theorem code_decPort {n : Nat} (h : n < 4) : (decPort n).code = n := by
  interval_cases n <;> rfl

theorem code_decTgt {n : Nat} {q : Tgt} (h : decTgt n = .ok q) : q.code = n := by
  unfold decTgt at h
  split_ifs at h with hslot hout hdone hnone <;> cases h
  · simp only [Tgt.code, code_decPort (Nat.mod_lt n (by decide)), BitVec.toNat_ofNat]
    omega
  · simp only [Tgt.code, BitVec.toNat_ofNat]
    omega
  · exact hdone.symm
  · exact hnone.symm

theorem decTgt_ok {n : Nat} {q : Tgt} : decTgt n = .ok q ↔ q.code = n := ⟨code_decTgt, fun h => h ▸ Tgt_dec q⟩

theorem toNat_bits (n lo w : Nat) : (BitVec.ofNat w (fld n lo w)).toNat = fld n lo w := by
  rw [BitVec.toNat_ofNat]
  exact Nat.mod_mod _ _

theorem decDst_ok {form lo n : Nat} {q : Dst} : decDst (fld form lo 1) (fld n 0 9) = .ok q ↔ q.form = fld form lo 1 ∧ q.code = fld n 0 9 := by
  refine ⟨fun h => ?_, fun ⟨hf, hc⟩ => hf ▸ hc ▸ Dst_dec q⟩
  have hbit : fld form lo 1 < 2 := Nat.mod_lt _ (by decide)
  unfold decDst at h
  split_ifs at h with hform
  · cases h
    exact ⟨hform.symm, toNat_bits n 0 9⟩
  · obtain ⟨a, ha, h⟩ := bind_ok.1 h
    cases h
    exact ⟨by simp only [Dst.form]; omega, decTgt_ok.1 ha⟩

/-! ### Fields that every value fills -/

theorem code_decShape (n lo : Nat) : (decShape (fld n lo 2)).code = fld n lo 2 := by
  have h : fld n lo 2 < 4 := Nat.mod_lt _ (by decide)
  generalize fld n lo 2 = v at *
  interval_cases v <;> rfl

theorem code_decRm (n lo : Nat) : (decRm (fld n lo 2)).code = fld n lo 2 := by
  have h : fld n lo 2 < 4 := Nat.mod_lt _ (by decide)
  generalize fld n lo 2 = v at *
  interval_cases v <;> rfl

theorem code_decWidth (n lo : Nat) : (decWidth (fld n lo 2)).code = fld n lo 2 := by
  have h : fld n lo 2 < 4 := Nat.mod_lt _ (by decide)
  generalize fld n lo 2 = v at *
  interval_cases v <;> rfl

theorem code_decOrd (n lo : Nat) : (decOrd (fld n lo 2)).code = fld n lo 2 := by
  have h : fld n lo 2 < 4 := Nat.mod_lt _ (by decide)
  generalize fld n lo 2 = v at *
  interval_cases v <;> rfl

theorem toNat_decBool (n lo : Nat) : (decBool (fld n lo 1)).toNat = fld n lo 1 := by
  have h : fld n lo 1 < 2 := Nat.mod_lt _ (by decide)
  generalize fld n lo 1 = v at *
  interval_cases v <;> rfl

theorem toNat_tile (n : Nat) : (BitVec.ofNat 9 (fld n 14 8 + 256 * fld n 9 1)).toNat = fld n 14 8 + 256 * fld n 9 1 := by
  have hlow : fld n 14 8 < 256 := Nat.mod_lt _ (by decide)
  have hhigh : fld n 9 1 < 2 := Nat.mod_lt _ (by decide)
  rw [BitVec.toNat_ofNat]
  omega

theorem tile_low (n : Nat) : (BitVec.ofNat 9 (fld n 14 8 + 256 * fld n 9 1)).toNat % 256 = fld n 14 8 := by
  rw [toNat_tile, Nat.add_mul_mod_self_left]
  exact Nat.mod_mod _ _

theorem tile_high (n : Nat) : (BitVec.ofNat 9 (fld n 14 8 + 256 * fld n 9 1)).toNat / 256 = fld n 9 1 := by
  rw [toNat_tile, Nat.add_mul_div_left _ _ (by decide), Nat.div_eq_of_lt (show fld n 14 8 < 256 from Nat.mod_lt _ (by decide)), Nat.zero_add]

/-! ### Layouts -/

theorem encode_congr {j : Instr} {m n : Nat} (h : encode j = [BitVec.ofNat 32 m]) (hm : m = n) : encode j = [BitVec.ofNat 32 n] := hm ▸ h

section
variable {op n : Nat} {i : Instr} (hop : n / 2 ^ 24 = op)
include hop

theorem encode_decPSHUAB {mk : Pm → Shape → Bool → Tgt → Tgt → Instr} (h : decPSHUAB n mk = .ok i)
    (hk : ∀ p sh u a b, encode (mk p sh u a b) = [BitVec.ofNat 32 (encPSHUAB op p sh u a b)]) : encode i = [BitVec.ofNat 32 n] := by
  simp only [decPSHUAB, bind_ok, need_ok, decPm_ok, decTgt_ok, pure_ok] at h
  obtain ⟨p, hp, a, ha, b, hb, -, z0, rfl⟩ := h
  refine encode_congr (hk ..) ?_
  simp only [encPSHUAB, code_decShape, toNat_decBool]
  simp only [fld] at *
  omega

theorem encode_decPCAB {mk : Pm → Cond → Tgt → Tgt → Instr} (h : decPCAB n mk = .ok i)
    (hk : ∀ p c a b, encode (mk p c a b) = [BitVec.ofNat 32 (encPCAB op p c a b)]) : encode i = [BitVec.ofNat 32 n] := by
  simp only [decPCAB, bind_ok, decPm_ok, decTgt_ok, decCond_ok, pure_ok] at h
  obtain ⟨p, hp, a, ha, b, hb, c, hc, rfl⟩ := h
  refine encode_congr (hk ..) ?_
  simp only [encPCAB]
  simp only [fld] at *
  omega

theorem encode_decPAB {mk : Pm → Tgt → Tgt → Instr} (h : decPAB n mk = .ok i)
    (hk : ∀ p a b, encode (mk p a b) = [BitVec.ofNat 32 (encPAB op p a b)]) : encode i = [BitVec.ofNat 32 n] := by
  simp only [decPAB, bind_ok, need_ok, decPm_ok, decTgt_ok, pure_ok] at h
  obtain ⟨p, hp, a, ha, b, hb, -, z0, rfl⟩ := h
  refine encode_congr (hk ..) ?_
  simp only [encPAB]
  simp only [fld] at *
  omega

theorem encode_decPSHOUAB {mk : Pm → Shape → Bool → Bool → Tgt → Tgt → Instr} (h : decPSHOUAB n mk = .ok i)
    (hk : ∀ p sh o u a b, encode (mk p sh o u a b) = [BitVec.ofNat 32 (encPSHOUAB op p sh o u a b)]) : encode i = [BitVec.ofNat 32 n] := by
  simp only [decPSHOUAB, bind_ok, decPm_ok, decTgt_ok, pure_ok] at h
  obtain ⟨p, hp, a, ha, b, hb, rfl⟩ := h
  refine encode_congr (hk ..) ?_
  simp only [encPSHOUAB, code_decShape, toNat_decBool]
  simp only [fld] at *
  omega

theorem encode_decPUAB {mk : Pm → Bool → Tgt → Tgt → Instr} (h : decPUAB n mk = .ok i)
    (hk : ∀ p u a b, encode (mk p u a b) = [BitVec.ofNat 32 (encPUAB op p u a b)]) : encode i = [BitVec.ofNat 32 n] := by
  simp only [decPUAB, bind_ok, need_ok, decPm_ok, decTgt_ok, pure_ok] at h
  obtain ⟨p, hp, a, ha, b, hb, -, z0, rfl⟩ := h
  refine encode_congr (hk ..) ?_
  simp only [encPUAB, toNat_decBool]
  simp only [fld] at *
  omega

theorem encode_decPIA {mk : Pm → BitVec 13 → Tgt → Instr} (h : decPIA n mk = .ok i)
    (hk : ∀ p i a, encode (mk p i a) = [BitVec.ofNat 32 (encPIA op p i a)]) : encode i = [BitVec.ofNat 32 n] := by
  simp only [decPIA, bind_ok, decPm_ok, decTgt_ok, pure_ok] at h
  obtain ⟨p, hp, a, ha, rfl⟩ := h
  refine encode_congr (hk ..) ?_
  simp only [encPIA, toNat_bits]
  simp only [fld] at *
  omega

theorem encode_decPNA {mk : Pm → BitVec 5 → Tgt → Instr} (h : decPNA n mk = .ok i)
    (hk : ∀ p n a, encode (mk p n a) = [BitVec.ofNat 32 (encPNA op p n a)]) : encode i = [BitVec.ofNat 32 n] := by
  simp only [decPNA, bind_ok, need_ok, decPm_ok, decTgt_ok, pure_ok] at h
  obtain ⟨p, hp, a, ha, -, z0, rfl⟩ := h
  refine encode_congr (hk ..) ?_
  simp only [encPNA, toNat_bits]
  simp only [fld] at *
  omega

theorem encode_decPCVA {mk : Pm → Cond → BitVec 9 → Tgt → Instr} (h : decPCVA n mk = .ok i)
    (hk : ∀ p c v a, encode (mk p c v a) = [BitVec.ofNat 32 (encPCVA op p c v a)]) : encode i = [BitVec.ofNat 32 n] := by
  simp only [decPCVA, bind_ok, decPm_ok, decTgt_ok, decCond_ok, pure_ok] at h
  obtain ⟨p, hp, a, ha, c, hc, rfl⟩ := h
  refine encode_congr (hk ..) ?_
  simp only [encPCVA, toNat_bits]
  simp only [fld] at *
  omega

theorem encode_decPNA2 {mk : Pm → BitVec 8 → Tgt → Instr} (h : decPNA2 n mk = .ok i)
    (hk : ∀ p n a, encode (mk p n a) = [BitVec.ofNat 32 (encPNA2 op p n a)]) : encode i = [BitVec.ofNat 32 n] := by
  simp only [decPNA2, bind_ok, need_ok, decPm_ok, decTgt_ok, pure_ok] at h
  obtain ⟨p, hp, a, ha, -, z0, rfl⟩ := h
  refine encode_congr (hk ..) ?_
  simp only [encPNA2, toNat_bits]
  simp only [fld] at *
  omega

theorem encode_decPNXA {mk : Pm → BitVec 8 → Bool → Tgt → Instr} (h : decPNXA n mk = .ok i)
    (hk : ∀ p n x a, encode (mk p n x a) = [BitVec.ofNat 32 (encPNXA op p n x a)]) : encode i = [BitVec.ofNat 32 n] := by
  simp only [decPNXA, bind_ok, need_ok, decPm_ok, decTgt_ok, pure_ok] at h
  obtain ⟨p, hp, a, ha, -, z0, rfl⟩ := h
  refine encode_congr (hk ..) ?_
  simp only [encPNXA, toNat_decBool, toNat_bits]
  simp only [fld] at *
  omega

theorem encode_decPSHFAB {mk : Pm → Shape → FFmt → Tgt → Tgt → Instr} (h : decPSHFAB n mk = .ok i)
    (hk : ∀ p sh f a b, encode (mk p sh f a b) = [BitVec.ofNat 32 (encPSHFAB op p sh f a b)]) : encode i = [BitVec.ofNat 32 n] := by
  simp only [decPSHFAB, bind_ok, decPm_ok, decTgt_ok, decFFmt_ok, pure_ok] at h
  obtain ⟨p, hp, a, ha, b, hb, f, hf, rfl⟩ := h
  refine encode_congr (hk ..) ?_
  simp only [encPSHFAB, code_decShape]
  simp only [fld] at *
  omega

theorem encode_decPSTKXMA {mk : Pm → Fmt → Fmt → BitVec 2 → Bool → Rm → Tgt → Instr} (h : decPSTKXMA n mk = .ok i)
    (hk : ∀ p s t k x m a, encode (mk p s t k x m a) = [BitVec.ofNat 32 (encPSTKXMA op p s t k x m a)]) : encode i = [BitVec.ofNat 32 n] := by
  simp only [decPSTKXMA, bind_ok, decPm_ok, decTgt_ok, decFmt_ok, pure_ok] at h
  obtain ⟨p, hp, a, ha, s, hs, t, ht, rfl⟩ := h
  refine encode_congr (hk ..) ?_
  simp only [encPSTKXMA, code_decRm, toNat_decBool, toNat_bits]
  simp only [fld] at *
  omega

theorem encode_decPSFKUMA {mk : Pm → Fmt → BitVec 4 → BitVec 2 → Bool → Rm → Tgt → Instr} (h : decPSFKUMA n mk = .ok i)
    (hk : ∀ p s f k u m a, encode (mk p s f k u m a) = [BitVec.ofNat 32 (encPSFKUMA op p s f k u m a)]) : encode i = [BitVec.ofNat 32 n] := by
  simp only [decPSFKUMA, bind_ok, decPm_ok, decTgt_ok, decFmt_ok, pure_ok] at h
  obtain ⟨p, hp, a, ha, s, hs, rfl⟩ := h
  refine encode_congr (hk ..) ?_
  simp only [encPSFKUMA, code_decRm, toNat_decBool, toNat_bits]
  simp only [fld] at *
  omega

theorem encode_decPTFXUMA {mk : Pm → Fmt → BitVec 4 → Bool → Bool → Rm → Tgt → Instr} (h : decPTFXUMA n mk = .ok i)
    (hk : ∀ p t f x u m a, encode (mk p t f x u m a) = [BitVec.ofNat 32 (encPTFXUMA op p t f x u m a)]) : encode i = [BitVec.ofNat 32 n] := by
  simp only [decPTFXUMA, bind_ok, need_ok, decPm_ok, decTgt_ok, decFmt_ok, pure_ok] at h
  obtain ⟨p, hp, a, ha, t, ht, -, z0, rfl⟩ := h
  refine encode_congr (hk ..) ?_
  simp only [encPTFXUMA, code_decRm, toNat_decBool, toNat_bits]
  simp only [fld] at *
  omega

theorem encode_decPSA {mk : Pm → Fmt → Tgt → Instr} (h : decPSA n mk = .ok i)
    (hk : ∀ p s a, encode (mk p s a) = [BitVec.ofNat 32 (encPSA op p s a)]) : encode i = [BitVec.ofNat 32 n] := by
  simp only [decPSA, bind_ok, need_ok, decPm_ok, decTgt_ok, decFmt_ok, pure_ok] at h
  obtain ⟨p, hp, a, ha, s, hs, -, z0, rfl⟩ := h
  refine encode_congr (hk ..) ?_
  simp only [encPSA]
  simp only [fld] at *
  omega

theorem encode_decPHOUAB {mk : Pm → BitVec 2 → Bool → Bool → Tgt → Tgt → Instr} (h : decPHOUAB n mk = .ok i)
    (hk : ∀ p h o u a b, encode (mk p h o u a b) = [BitVec.ofNat 32 (encPHOUAB op p h o u a b)]) : encode i = [BitVec.ofNat 32 n] := by
  simp only [decPHOUAB, bind_ok, decPm_ok, decTgt_ok, pure_ok] at h
  obtain ⟨p, hp, a, ha, b, hb, rfl⟩ := h
  refine encode_congr (hk ..) ?_
  simp only [encPHOUAB, toNat_decBool, toNat_bits]
  simp only [fld] at *
  omega

theorem encode_decPHUAB {mk : Pm → BitVec 2 → Bool → Tgt → Tgt → Instr} (h : decPHUAB n mk = .ok i)
    (hk : ∀ p h u a b, encode (mk p h u a b) = [BitVec.ofNat 32 (encPHUAB op p h u a b)]) : encode i = [BitVec.ofNat 32 n] := by
  simp only [decPHUAB, bind_ok, need_ok, decPm_ok, decTgt_ok, pure_ok] at h
  obtain ⟨p, hp, a, ha, b, hb, -, z0, rfl⟩ := h
  refine encode_congr (hk ..) ?_
  simp only [encPHUAB, toNat_decBool, toNat_bits]
  simp only [fld] at *
  omega

theorem encode_decPWIA {mk : Pm → BitVec 2 → BitVec 6 → Tgt → Instr} (h : decPWIA n mk = .ok i)
    (hk : ∀ p w i a, encode (mk p w i a) = [BitVec.ofNat 32 (encPWIA op p w i a)]) : encode i = [BitVec.ofNat 32 n] := by
  simp only [decPWIA, bind_ok, need_ok, decPm_ok, decTgt_ok, pure_ok] at h
  obtain ⟨p, hp, a, ha, -, z0, rfl⟩ := h
  refine encode_congr (hk ..) ?_
  simp only [encPWIA, toNat_bits]
  simp only [fld] at *
  omega

theorem encode_decPHAB {mk : Pm → Bool → Tgt → Tgt → Instr} (h : decPHAB n mk = .ok i)
    (hk : ∀ p h a b, encode (mk p h a b) = [BitVec.ofNat 32 (encPHAB op p h a b)]) : encode i = [BitVec.ofNat 32 n] := by
  simp only [decPHAB, bind_ok, need_ok, decPm_ok, decTgt_ok, pure_ok] at h
  obtain ⟨p, hp, a, ha, b, hb, -, z0, -, z1, rfl⟩ := h
  refine encode_congr (hk ..) ?_
  simp only [encPHAB, toNat_decBool]
  simp only [fld] at *
  omega

theorem encode_decPDFNA {mk : Pm → Bool → Bool → BitVec 4 → Tgt → Instr} (h : decPDFNA n mk = .ok i)
    (hk : ∀ p d f n a, encode (mk p d f n a) = [BitVec.ofNat 32 (encPDFNA op p d f n a)]) : encode i = [BitVec.ofNat 32 n] := by
  simp only [decPDFNA, bind_ok, need_ok, decPm_ok, decTgt_ok, pure_ok] at h
  obtain ⟨p, hp, a, ha, -, z0, -, z1, rfl⟩ := h
  refine encode_congr (hk ..) ?_
  simp only [encPDFNA, toNat_decBool, toNat_bits]
  simp only [fld] at *
  omega

theorem encode_decPOGA {mk : Pm → RedOp → BitVec 2 → Tgt → Instr} (h : decPOGA n mk = .ok i)
    (hk : ∀ p o g a, encode (mk p o g a) = [BitVec.ofNat 32 (encPOGA op p o g a)]) : encode i = [BitVec.ofNat 32 n] := by
  simp only [decPOGA, bind_ok, need_ok, decPm_ok, decTgt_ok, decRedOp_ok, pure_ok] at h
  obtain ⟨p, hp, a, ha, o, ho, -, z0, -, z1, rfl⟩ := h
  refine encode_congr (hk ..) ?_
  simp only [encPOGA, toNat_bits]
  simp only [fld] at *
  omega

theorem encode_decPOEA {mk : Pm → RedOp → Bool → Tgt → Instr} (h : decPOEA n mk = .ok i)
    (hk : ∀ p o e a, encode (mk p o e a) = [BitVec.ofNat 32 (encPOEA op p o e a)]) : encode i = [BitVec.ofNat 32 n] := by
  simp only [decPOEA, bind_ok, need_ok, decPm_ok, decTgt_ok, decRedOp_ok, pure_ok] at h
  obtain ⟨p, hp, a, ha, o, ho, -, z0, -, z1, rfl⟩ := h
  refine encode_congr (hk ..) ?_
  simp only [encPOEA, toNat_decBool]
  simp only [fld] at *
  omega

theorem encode_decPFKXA {mk : Pm → Fmt → BitVec 4 → Bool → Tgt → Instr} (h : decPFKXA n mk = .ok i)
    (hk : ∀ p f k x a, encode (mk p f k x a) = [BitVec.ofNat 32 (encPFKXA op p f k x a)]) : encode i = [BitVec.ofNat 32 n] := by
  simp only [decPFKXA, bind_ok, need_ok, decPm_ok, decTgt_ok, decFmt_ok, pure_ok] at h
  obtain ⟨p, hp, a, ha, f, hf, -, z0, rfl⟩ := h
  refine encode_congr (hk ..) ?_
  simp only [encPFKXA, toNat_decBool, toNat_bits]
  simp only [fld] at *
  omega

theorem encode_decPMA {mk : Pm → BitVec 2 → Tgt → Instr} (h : decPMA n mk = .ok i)
    (hk : ∀ p m a, encode (mk p m a) = [BitVec.ofNat 32 (encPMA op p m a)]) : encode i = [BitVec.ofNat 32 n] := by
  simp only [decPMA, bind_ok, need_ok, decPm_ok, decTgt_ok, pure_ok] at h
  obtain ⟨p, hp, a, ha, -, z0, -, z1, rfl⟩ := h
  refine encode_congr (hk ..) ?_
  simp only [encPMA, toNat_bits]
  simp only [fld] at *
  omega

theorem encode_decPNA3 {mk : Pm → BitVec 3 → Tgt → Instr} (h : decPNA3 n mk = .ok i)
    (hk : ∀ p n a, encode (mk p n a) = [BitVec.ofNat 32 (encPNA3 op p n a)]) : encode i = [BitVec.ofNat 32 n] := by
  simp only [decPNA3, bind_ok, need_ok, decPm_ok, decTgt_ok, pure_ok] at h
  obtain ⟨p, hp, a, ha, -, z0, -, z1, rfl⟩ := h
  refine encode_congr (hk ..) ?_
  simp only [encPNA3, toNat_bits]
  simp only [fld] at *
  omega

theorem encode_decPKA {mk : Pm → BitVec 2 → Tgt → Instr} (h : decPKA n mk = .ok i)
    (hk : ∀ p k a, encode (mk p k a) = [BitVec.ofNat 32 (encPKA op p k a)]) : encode i = [BitVec.ofNat 32 n] := by
  simp only [decPKA, bind_ok, need_ok, decPm_ok, decTgt_ok, pure_ok] at h
  obtain ⟨p, hp, a, ha, -, z0, -, z1, rfl⟩ := h
  refine encode_congr (hk ..) ?_
  simp only [encPKA, toNat_bits]
  simp only [fld] at *
  omega

theorem encode_decPLA {mk : Pm → BitVec 2 → Tgt → Instr} (h : decPLA n mk = .ok i)
    (hk : ∀ p l a, encode (mk p l a) = [BitVec.ofNat 32 (encPLA op p l a)]) : encode i = [BitVec.ofNat 32 n] := by
  simp only [decPLA, bind_ok, need_ok, decPm_ok, decTgt_ok, pure_ok] at h
  obtain ⟨p, hp, a, ha, -, z0, -, z1, rfl⟩ := h
  refine encode_congr (hk ..) ?_
  simp only [encPLA, toNat_bits]
  simp only [fld] at *
  omega

theorem encode_decPGWCFA {mk : Pm → Bool → Bool → BitVec 3 → BitVec 3 → Tgt → Instr} (h : decPGWCFA n mk = .ok i)
    (hk : ∀ p g w c f a, encode (mk p g w c f a) = [BitVec.ofNat 32 (encPGWCFA op p g w c f a)]) : encode i = [BitVec.ofNat 32 n] := by
  simp only [decPGWCFA, bind_ok, need_ok, decPm_ok, decTgt_ok, pure_ok] at h
  obtain ⟨p, hp, a, ha, -, z0, rfl⟩ := h
  refine encode_congr (hk ..) ?_
  simp only [encPGWCFA, toNat_decBool, toNat_bits]
  simp only [fld] at *
  omega

theorem encode_decPFTGA {mk : Pm → BitVec 3 → BitVec 3 → Bool → Tgt → Instr} (h : decPFTGA n mk = .ok i)
    (hk : ∀ p f t g a, encode (mk p f t g a) = [BitVec.ofNat 32 (encPFTGA op p f t g a)]) : encode i = [BitVec.ofNat 32 n] := by
  simp only [decPFTGA, bind_ok, need_ok, decPm_ok, decTgt_ok, pure_ok] at h
  obtain ⟨p, hp, a, ha, -, z0, -, z1, rfl⟩ := h
  refine encode_congr (hk ..) ?_
  simp only [encPFTGA, toNat_decBool, toNat_bits]
  simp only [fld] at *
  omega

theorem encode_decPSA2 {mk : Pm → Bool → Tgt → Instr} (h : decPSA2 n mk = .ok i)
    (hk : ∀ p s a, encode (mk p s a) = [BitVec.ofNat 32 (encPSA2 op p s a)]) : encode i = [BitVec.ofNat 32 n] := by
  simp only [decPSA2, bind_ok, need_ok, decPm_ok, decTgt_ok, pure_ok] at h
  obtain ⟨p, hp, a, ha, -, z0, -, z1, rfl⟩ := h
  refine encode_congr (hk ..) ?_
  simp only [encPSA2, toNat_decBool]
  simp only [fld] at *
  omega

theorem encode_decPA {mk : Pm → Tgt → Instr} (h : decPA n mk = .ok i)
    (hk : ∀ p a, encode (mk p a) = [BitVec.ofNat 32 (encPA op p a)]) : encode i = [BitVec.ofNat 32 n] := by
  simp only [decPA, bind_ok, need_ok, decPm_ok, decTgt_ok, pure_ok] at h
  obtain ⟨p, hp, a, ha, -, z0, rfl⟩ := h
  refine encode_congr (hk ..) ?_
  simp only [encPA]
  simp only [fld] at *
  omega

theorem encode_decPWCOXVND {mk : Pm → Width → Scope → Ord → Bool → Bool → BitVec 2 → Dst → Instr} (h : decPWCOXVND n mk = .ok i)
    (hk : ∀ p w c o x v n d, encode (mk p w c o x v n d) = [BitVec.ofNat 32 (encPWCOXVND op p w c o x v n d)]) : encode i = [BitVec.ofNat 32 n] := by
  simp only [decPWCOXVND, bind_ok, need_ok, decPm_ok, decDst_ok, decScope_ok, pure_ok] at h
  obtain ⟨p, hp, d, ⟨hf, hd⟩, c, hc, -, z0, rfl⟩ := h
  refine encode_congr (hk ..) ?_
  simp only [encPWCOXVND, code_decWidth, code_decOrd, toNat_decBool, toNat_bits]
  simp only [fld] at *
  omega

theorem encode_decPWCOVNA {mk : Pm → Width → Scope → Ord → Bool → BitVec 2 → Tgt → Instr} (h : decPWCOVNA n mk = .ok i)
    (hk : ∀ p w c o v n a, encode (mk p w c o v n a) = [BitVec.ofNat 32 (encPWCOVNA op p w c o v n a)]) : encode i = [BitVec.ofNat 32 n] := by
  simp only [decPWCOVNA, bind_ok, need_ok, decPm_ok, decTgt_ok, decScope_ok, pure_ok] at h
  obtain ⟨p, hp, a, ha, c, hc, -, z0, rfl⟩ := h
  refine encode_congr (hk ..) ?_
  simp only [encPWCOVNA, code_decWidth, code_decOrd, toNat_decBool, toNat_bits]
  simp only [fld] at *
  omega

theorem encode_decPWCOXVNA {mk : Pm → Width → Scope → Ord → Bool → Bool → BitVec 2 → Tgt → Instr} (h : decPWCOXVNA n mk = .ok i)
    (hk : ∀ p w c o x v n a, encode (mk p w c o x v n a) = [BitVec.ofNat 32 (encPWCOXVNA op p w c o x v n a)]) : encode i = [BitVec.ofNat 32 n] := by
  simp only [decPWCOXVNA, bind_ok, need_ok, decPm_ok, decTgt_ok, decScope_ok, pure_ok] at h
  obtain ⟨p, hp, a, ha, c, hc, -, z0, rfl⟩ := h
  refine encode_congr (hk ..) ?_
  simp only [encPWCOXVNA, code_decWidth, code_decOrd, toNat_decBool, toNat_bits]
  simp only [fld] at *
  omega

theorem encode_decPCONA {mk : Pm → Scope → Ord → BitVec 2 → Tgt → Instr} (h : decPCONA n mk = .ok i)
    (hk : ∀ p c o n a, encode (mk p c o n a) = [BitVec.ofNat 32 (encPCONA op p c o n a)]) : encode i = [BitVec.ofNat 32 n] := by
  simp only [decPCONA, bind_ok, need_ok, decPm_ok, decTgt_ok, decScope_ok, pure_ok] at h
  obtain ⟨p, hp, a, ha, c, hc, -, z0, -, z1, rfl⟩ := h
  refine encode_congr (hk ..) ?_
  simp only [encPCONA, code_decOrd, toNat_bits]
  simp only [fld] at *
  omega

theorem encode_decPWCOXND {mk : Pm → Width → Scope → Ord → Bool → BitVec 2 → Dst → Instr} (h : decPWCOXND n mk = .ok i)
    (hk : ∀ p w c o x n d, encode (mk p w c o x n d) = [BitVec.ofNat 32 (encPWCOXND op p w c o x n d)]) : encode i = [BitVec.ofNat 32 n] := by
  simp only [decPWCOXND, bind_ok, need_ok, decPm_ok, decDst_ok, decScope_ok, pure_ok] at h
  obtain ⟨p, hp, d, ⟨hf, hd⟩, c, hc, -, z0, -, z1, rfl⟩ := h
  refine encode_congr (hk ..) ?_
  simp only [encPWCOXND, code_decWidth, code_decOrd, toNat_decBool, toNat_bits]
  simp only [fld] at *
  omega

theorem encode_decPWCONA {mk : Pm → Width → Scope → Ord → BitVec 2 → Tgt → Instr} (h : decPWCONA n mk = .ok i)
    (hk : ∀ p w c o n a, encode (mk p w c o n a) = [BitVec.ofNat 32 (encPWCONA op p w c o n a)]) : encode i = [BitVec.ofNat 32 n] := by
  simp only [decPWCONA, bind_ok, need_ok, decPm_ok, decTgt_ok, decScope_ok, pure_ok] at h
  obtain ⟨p, hp, a, ha, c, hc, -, z0, rfl⟩ := h
  refine encode_congr (hk ..) ?_
  simp only [encPWCONA, code_decWidth, code_decOrd, toNat_bits]
  simp only [fld] at *
  omega

theorem encode_decPWCOXNA {mk : Pm → Width → Scope → Ord → Bool → BitVec 2 → Tgt → Instr} (h : decPWCOXNA n mk = .ok i)
    (hk : ∀ p w c o x n a, encode (mk p w c o x n a) = [BitVec.ofNat 32 (encPWCOXNA op p w c o x n a)]) : encode i = [BitVec.ofNat 32 n] := by
  simp only [decPWCOXNA, bind_ok, need_ok, decPm_ok, decTgt_ok, decScope_ok, pure_ok] at h
  obtain ⟨p, hp, a, ha, c, hc, -, z0, -, z1, rfl⟩ := h
  refine encode_congr (hk ..) ?_
  simp only [encPWCOXNA, code_decWidth, code_decOrd, toNat_decBool, toNat_bits]
  simp only [fld] at *
  omega

theorem encode_decPCOA {mk : Pm → Scope → Ord → Tgt → Instr} (h : decPCOA n mk = .ok i)
    (hk : ∀ p c o a, encode (mk p c o a) = [BitVec.ofNat 32 (encPCOA op p c o a)]) : encode i = [BitVec.ofNat 32 n] := by
  simp only [decPCOA, bind_ok, need_ok, decPm_ok, decTgt_ok, decScope_ok, pure_ok] at h
  obtain ⟨p, hp, a, ha, c, hc, -, z0, -, z1, rfl⟩ := h
  refine encode_congr (hk ..) ?_
  simp only [encPCOA, code_decOrd]
  simp only [fld] at *
  omega

theorem encode_decPFTCA {mk : Pm → Path → Path → Scope → Tgt → Instr} (h : decPFTCA n mk = .ok i)
    (hk : ∀ p f t c a, encode (mk p f t c a) = [BitVec.ofNat 32 (encPFTCA op p f t c a)]) : encode i = [BitVec.ofNat 32 n] := by
  simp only [decPFTCA, bind_ok, need_ok, decPm_ok, decTgt_ok, decPath_ok, decScope_ok, pure_ok] at h
  obtain ⟨p, hp, a, ha, f, hf, t, ht, c, hc, -, z0, rfl⟩ := h
  refine encode_congr (hk ..) ?_
  simp only [encPFTCA]
  simp only [fld] at *
  omega

theorem encode_decPWCOVA {mk : Pm → Width → Scope → Ord → Bool → Tgt → Instr} (h : decPWCOVA n mk = .ok i)
    (hk : ∀ p w c o v a, encode (mk p w c o v a) = [BitVec.ofNat 32 (encPWCOVA op p w c o v a)]) : encode i = [BitVec.ofNat 32 n] := by
  simp only [decPWCOVA, bind_ok, need_ok, decPm_ok, decTgt_ok, decScope_ok, pure_ok] at h
  obtain ⟨p, hp, a, ha, c, hc, -, z0, -, z1, rfl⟩ := h
  refine encode_congr (hk ..) ?_
  simp only [encPWCOVA, code_decWidth, code_decOrd, toNat_decBool]
  simp only [fld] at *
  omega

theorem encode_decPNFA {mk : Pm → BitVec 7 → Bool → Tgt → Instr} (h : decPNFA n mk = .ok i)
    (hk : ∀ p n f a, encode (mk p n f a) = [BitVec.ofNat 32 (encPNFA op p n f a)]) : encode i = [BitVec.ofNat 32 n] := by
  simp only [decPNFA, bind_ok, need_ok, decPm_ok, decTgt_ok, pure_ok] at h
  obtain ⟨p, hp, a, ha, -, z0, -, z1, rfl⟩ := h
  refine encode_congr (hk ..) ?_
  simp only [encPNFA, toNat_decBool, toNat_bits]
  simp only [fld] at *
  omega

theorem encode_decPNCRFA {mk : Pm → BitVec 7 → Scope → Bool → Bool → Tgt → Instr} (h : decPNCRFA n mk = .ok i)
    (hk : ∀ p n c r f a, encode (mk p n c r f a) = [BitVec.ofNat 32 (encPNCRFA op p n c r f a)]) : encode i = [BitVec.ofNat 32 n] := by
  simp only [decPNCRFA, bind_ok, need_ok, decPm_ok, decTgt_ok, decScope_ok, pure_ok] at h
  obtain ⟨p, hp, a, ha, c, hc, -, z0, rfl⟩ := h
  refine encode_congr (hk ..) ?_
  simp only [encPNCRFA, toNat_decBool, toNat_bits]
  simp only [fld] at *
  omega

theorem encode_decPNCQFA {mk : Pm → BitVec 7 → Scope → Bool → Bool → Tgt → Instr} (h : decPNCQFA n mk = .ok i)
    (hk : ∀ p n c q f a, encode (mk p n c q f a) = [BitVec.ofNat 32 (encPNCQFA op p n c q f a)]) : encode i = [BitVec.ofNat 32 n] := by
  simp only [decPNCQFA, bind_ok, need_ok, decPm_ok, decTgt_ok, decScope_ok, pure_ok] at h
  obtain ⟨p, hp, a, ha, c, hc, -, z0, rfl⟩ := h
  refine encode_congr (hk ..) ?_
  simp only [encPNCQFA, toNat_decBool, toNat_bits]
  simp only [fld] at *
  omega

theorem encode_decPKIA {mk : Pm → BitVec 2 → BitVec 6 → Tgt → Instr} (h : decPKIA n mk = .ok i)
    (hk : ∀ p k i a, encode (mk p k i a) = [BitVec.ofNat 32 (encPKIA op p k i a)]) : encode i = [BitVec.ofNat 32 n] := by
  simp only [decPKIA, bind_ok, need_ok, decPm_ok, decTgt_ok, pure_ok] at h
  obtain ⟨p, hp, a, ha, -, z0, rfl⟩ := h
  refine encode_congr (hk ..) ?_
  simp only [encPKIA, toNat_bits]
  simp only [fld] at *
  omega

theorem encode_decPKIXA {mk : Pm → BitVec 2 → BitVec 6 → BitVec 2 → Tgt → Instr} (h : decPKIXA n mk = .ok i)
    (hk : ∀ p k i x a, encode (mk p k i x a) = [BitVec.ofNat 32 (encPKIXA op p k i x a)]) : encode i = [BitVec.ofNat 32 n] := by
  simp only [decPKIXA, bind_ok, need_ok, decPm_ok, decTgt_ok, pure_ok] at h
  obtain ⟨p, hp, a, ha, -, z0, rfl⟩ := h
  refine encode_congr (hk ..) ?_
  simp only [encPKIXA, toNat_bits]
  simp only [fld] at *
  omega

theorem encode_decPTZA {mk : Pm → BitVec 9 → Bool → Tgt → Instr} (h : decPTZA n mk = .ok i)
    (hk : ∀ p t z a, encode (mk p t z a) = [BitVec.ofNat 32 (encPTZA op p t z a)]) : encode i = [BitVec.ofNat 32 n] := by
  simp only [decPTZA, bind_ok, need_ok, decPm_ok, decTgt_ok, pure_ok] at h
  obtain ⟨p, hp, a, ha, -, z0, rfl⟩ := h
  refine encode_congr (hk ..) ?_
  simp only [encPTZA, toNat_decBool, tile_low, tile_high]
  simp only [fld] at *
  omega

theorem encode_decPTYA {mk : Pm → BitVec 9 → Bool → Tgt → Instr} (h : decPTYA n mk = .ok i)
    (hk : ∀ p t y a, encode (mk p t y a) = [BitVec.ofNat 32 (encPTYA op p t y a)]) : encode i = [BitVec.ofNat 32 n] := by
  simp only [decPTYA, bind_ok, need_ok, decPm_ok, decTgt_ok, pure_ok] at h
  obtain ⟨p, hp, a, ha, -, z0, rfl⟩ := h
  refine encode_congr (hk ..) ?_
  simp only [encPTYA, toNat_decBool, tile_low, tile_high]
  simp only [fld] at *
  omega

theorem encode_decPTD {mk : Pm → BitVec 9 → Dst → Instr} (h : decPTD n mk = .ok i)
    (hk : ∀ p t d, encode (mk p t d) = [BitVec.ofNat 32 (encPTD op p t d)]) : encode i = [BitVec.ofNat 32 n] := by
  simp only [decPTD, bind_ok, need_ok, decPm_ok, decDst_ok, pure_ok] at h
  obtain ⟨p, hp, d, ⟨hf, hd⟩, -, z0, rfl⟩ := h
  refine encode_congr (hk ..) ?_
  simp only [encPTD, tile_low, tile_high]
  simp only [fld] at *
  omega

theorem encode_decPTA {mk : Pm → BitVec 9 → Tgt → Instr} (h : decPTA n mk = .ok i)
    (hk : ∀ p t a, encode (mk p t a) = [BitVec.ofNat 32 (encPTA op p t a)]) : encode i = [BitVec.ofNat 32 n] := by
  simp only [decPTA, bind_ok, need_ok, decPm_ok, decTgt_ok, pure_ok] at h
  obtain ⟨p, hp, a, ha, -, z0, rfl⟩ := h
  refine encode_congr (hk ..) ?_
  simp only [encPTA, tile_low, tile_high]
  simp only [fld] at *
  omega

theorem encode_decPTMXA {mk : Pm → BitVec 9 → Rm → Bool → Tgt → Instr} (h : decPTMXA n mk = .ok i)
    (hk : ∀ p t m x a, encode (mk p t m x a) = [BitVec.ofNat 32 (encPTMXA op p t m x a)]) : encode i = [BitVec.ofNat 32 n] := by
  simp only [decPTMXA, bind_ok, need_ok, decPm_ok, decTgt_ok, pure_ok] at h
  obtain ⟨p, hp, a, ha, -, z0, rfl⟩ := h
  refine encode_congr (hk ..) ?_
  simp only [encPTMXA, code_decRm, toNat_decBool, tile_low, tile_high]
  simp only [fld] at *
  omega

theorem encode_decPNA4 {mk : Pm → BitVec 2 → Tgt → Instr} (h : decPNA4 n mk = .ok i)
    (hk : ∀ p n a, encode (mk p n a) = [BitVec.ofNat 32 (encPNA4 op p n a)]) : encode i = [BitVec.ofNat 32 n] := by
  simp only [decPNA4, bind_ok, need_ok, decPm_ok, decTgt_ok, pure_ok] at h
  obtain ⟨p, hp, a, ha, -, z0, rfl⟩ := h
  refine encode_congr (hk ..) ?_
  simp only [encPNA4, toNat_bits]
  simp only [fld] at *
  omega

theorem encode_decPDNA {mk : Pm → Bool → BitVec 2 → Tgt → Instr} (h : decPDNA n mk = .ok i)
    (hk : ∀ p d n a, encode (mk p d n a) = [BitVec.ofNat 32 (encPDNA op p d n a)]) : encode i = [BitVec.ofNat 32 n] := by
  simp only [decPDNA, bind_ok, need_ok, decPm_ok, decTgt_ok, pure_ok] at h
  obtain ⟨p, hp, a, ha, -, z0, -, z1, rfl⟩ := h
  refine encode_congr (hk ..) ?_
  simp only [encPDNA, toNat_decBool, toNat_bits]
  simp only [fld] at *
  omega

theorem encode_decPCRBNA {mk : Pm → Bool → Bool → BitVec 2 → BitVec 2 → Tgt → Instr} (h : decPCRBNA n mk = .ok i)
    (hk : ∀ p c r b n a, encode (mk p c r b n a) = [BitVec.ofNat 32 (encPCRBNA op p c r b n a)]) : encode i = [BitVec.ofNat 32 n] := by
  simp only [decPCRBNA, bind_ok, need_ok, decPm_ok, decTgt_ok, pure_ok] at h
  obtain ⟨p, hp, a, ha, -, z0, -, z1, rfl⟩ := h
  refine encode_congr (hk ..) ?_
  simp only [encPCRBNA, toNat_decBool, toNat_bits]
  simp only [fld] at *
  omega

theorem encode_decPBA {mk : Pm → BitVec 2 → Tgt → Instr} (h : decPBA n mk = .ok i)
    (hk : ∀ p b a, encode (mk p b a) = [BitVec.ofNat 32 (encPBA op p b a)]) : encode i = [BitVec.ofNat 32 n] := by
  simp only [decPBA, bind_ok, need_ok, decPm_ok, decTgt_ok, pure_ok] at h
  obtain ⟨p, hp, a, ha, -, z0, -, z1, rfl⟩ := h
  refine encode_congr (hk ..) ?_
  simp only [encPBA, toNat_bits]
  simp only [fld] at *
  omega

theorem encode_decPIA2 {mk : Pm → BitVec 3 → Tgt → Instr} (h : decPIA2 n mk = .ok i)
    (hk : ∀ p i a, encode (mk p i a) = [BitVec.ofNat 32 (encPIA2 op p i a)]) : encode i = [BitVec.ofNat 32 n] := by
  simp only [decPIA2, bind_ok, need_ok, decPm_ok, decTgt_ok, pure_ok] at h
  obtain ⟨p, hp, a, ha, -, z0, -, z1, rfl⟩ := h
  refine encode_congr (hk ..) ?_
  simp only [encPIA2, toNat_bits]
  simp only [fld] at *
  omega

theorem encode_decPND {mk : Pm → BitVec 2 → Dst → Instr} (h : decPND n mk = .ok i)
    (hk : ∀ p n d, encode (mk p n d) = [BitVec.ofNat 32 (encPND op p n d)]) : encode i = [BitVec.ofNat 32 n] := by
  simp only [decPND, bind_ok, need_ok, decPm_ok, decDst_ok, pure_ok] at h
  obtain ⟨p, hp, d, ⟨hf, hd⟩, -, z0, -, z1, rfl⟩ := h
  refine encode_congr (hk ..) ?_
  simp only [encPND, toNat_bits]
  simp only [fld] at *
  omega

theorem encode_decPOA {mk : Pm → Bool → Tgt → Instr} (h : decPOA n mk = .ok i)
    (hk : ∀ p o a, encode (mk p o a) = [BitVec.ofNat 32 (encPOA op p o a)]) : encode i = [BitVec.ofNat 32 n] := by
  simp only [decPOA, bind_ok, need_ok, decPm_ok, decTgt_ok, pure_ok] at h
  obtain ⟨p, hp, a, ha, -, z0, -, z1, rfl⟩ := h
  refine encode_congr (hk ..) ?_
  simp only [encPOA, toNat_decBool]
  simp only [fld] at *
  omega

theorem encode_decPIA3 {mk : Pm → BitVec 2 → Tgt → Instr} (h : decPIA3 n mk = .ok i)
    (hk : ∀ p i a, encode (mk p i a) = [BitVec.ofNat 32 (encPIA3 op p i a)]) : encode i = [BitVec.ofNat 32 n] := by
  simp only [decPIA3, bind_ok, need_ok, decPm_ok, decTgt_ok, pure_ok] at h
  obtain ⟨p, hp, a, ha, -, z0, -, z1, rfl⟩ := h
  refine encode_congr (hk ..) ?_
  simp only [encPIA3, toNat_bits]
  simp only [fld] at *
  omega

theorem encode_decPIA4 {mk : Pm → BitVec 4 → Tgt → Instr} (h : decPIA4 n mk = .ok i)
    (hk : ∀ p i a, encode (mk p i a) = [BitVec.ofNat 32 (encPIA4 op p i a)]) : encode i = [BitVec.ofNat 32 n] := by
  simp only [decPIA4, bind_ok, need_ok, decPm_ok, decTgt_ok, pure_ok] at h
  obtain ⟨p, hp, a, ha, -, z0, -, z1, rfl⟩ := h
  refine encode_congr (hk ..) ?_
  simp only [encPIA4, toNat_bits]
  simp only [fld] at *
  omega

theorem encode_decPNA5 {mk : Pm → BitVec 6 → Tgt → Instr} (h : decPNA5 n mk = .ok i)
    (hk : ∀ p n a, encode (mk p n a) = [BitVec.ofNat 32 (encPNA5 op p n a)]) : encode i = [BitVec.ofNat 32 n] := by
  simp only [decPNA5, bind_ok, need_ok, decPm_ok, decTgt_ok, pure_ok] at h
  obtain ⟨p, hp, a, ha, -, z0, -, z1, rfl⟩ := h
  refine encode_congr (hk ..) ?_
  simp only [encPNA5, toNat_bits]
  simp only [fld] at *
  omega

theorem encode_decPQA {mk : Pm → BitVec 3 → Tgt → Instr} (h : decPQA n mk = .ok i)
    (hk : ∀ p q a, encode (mk p q a) = [BitVec.ofNat 32 (encPQA op p q a)]) : encode i = [BitVec.ofNat 32 n] := by
  simp only [decPQA, bind_ok, need_ok, decPm_ok, decTgt_ok, pure_ok] at h
  obtain ⟨p, hp, a, ha, -, z0, -, z1, rfl⟩ := h
  refine encode_congr (hk ..) ?_
  simp only [encPQA, toNat_bits]
  simp only [fld] at *
  omega

theorem encode_decPCA {mk : Pm → BitVec 4 → Tgt → Instr} (h : decPCA n mk = .ok i)
    (hk : ∀ p c a, encode (mk p c a) = [BitVec.ofNat 32 (encPCA op p c a)]) : encode i = [BitVec.ofNat 32 n] := by
  simp only [decPCA, bind_ok, need_ok, decPm_ok, decTgt_ok, pure_ok] at h
  obtain ⟨p, hp, a, ha, -, z0, -, z1, rfl⟩ := h
  refine encode_congr (hk ..) ?_
  simp only [encPCA, toNat_bits]
  simp only [fld] at *
  omega

theorem encode_decPCA2 {mk : Pm → BitVec 8 → Tgt → Instr} (h : decPCA2 n mk = .ok i)
    (hk : ∀ p c a, encode (mk p c a) = [BitVec.ofNat 32 (encPCA2 op p c a)]) : encode i = [BitVec.ofNat 32 n] := by
  simp only [decPCA2, bind_ok, need_ok, decPm_ok, decTgt_ok, pure_ok] at h
  obtain ⟨p, hp, a, ha, -, z0, rfl⟩ := h
  refine encode_congr (hk ..) ?_
  simp only [encPCA2, toNat_bits]
  simp only [fld] at *
  omega

theorem encode_decPIDNA {mk : Pm → BitVec 3 → Bool → BitVec 3 → Tgt → Instr} (h : decPIDNA n mk = .ok i)
    (hk : ∀ p i d n a, encode (mk p i d n a) = [BitVec.ofNat 32 (encPIDNA op p i d n a)]) : encode i = [BitVec.ofNat 32 n] := by
  simp only [decPIDNA, bind_ok, need_ok, decPm_ok, decTgt_ok, pure_ok] at h
  obtain ⟨p, hp, a, ha, -, z0, -, z1, rfl⟩ := h
  refine encode_congr (hk ..) ?_
  simp only [encPIDNA, toNat_decBool, toNat_bits]
  simp only [fld] at *
  omega

end

/-! ### The opcode map -/

theorem encode_decRow0 {lo n : Nat} {i : Instr} (hop : n / 2 ^ 24 = 0 + lo) (h : decRow0 lo n = .ok i) :
    encode i = [BitVec.ofNat 32 n] := by
  unfold decRow0 at h
  split at h
  case h_1 | h_2 | h_3 | h_4 | h_5 | h_6 | h_7 | h_8 | h_9 | h_10 | h_11 | h_12 | h_13 | h_14 | h_15 => exact encode_decPSHUAB hop h fun _ _ _ _ _ => rfl
  case h_16 => cases h

theorem encode_decRow1 {lo n : Nat} {i : Instr} (hop : n / 2 ^ 24 = 16 + lo) (h : decRow1 lo n = .ok i) :
    encode i = [BitVec.ofNat 32 n] := by
  unfold decRow1 at h
  split at h
  case h_1 | h_2 | h_3 | h_4 | h_5 | h_6 | h_7 | h_8 | h_9 | h_13 => exact encode_decPSHUAB hop h fun _ _ _ _ _ => rfl
  case h_10 => exact encode_decPCAB hop h fun _ _ _ _ => rfl
  case h_11 | h_14 => exact encode_decPAB hop h fun _ _ _ => rfl
  case h_12 => exact encode_decPSHOUAB hop h fun _ _ _ _ _ _ => rfl
  case h_15 | h_16 => exact encode_decPUAB hop h fun _ _ _ _ => rfl
  case h_17 => cases h

theorem encode_decRow2 {lo n : Nat} {i : Instr} (hop : n / 2 ^ 24 = 32 + lo) (h : decRow2 lo n = .ok i) :
    encode i = [BitVec.ofNat 32 n] := by
  unfold decRow2 at h
  split at h
  case h_1 => exact encode_decPUAB hop h fun _ _ _ _ => rfl
  case h_2 | h_3 | h_4 | h_5 => exact encode_decPIA hop h fun _ _ _ => rfl
  case h_6 | h_7 | h_8 => exact encode_decPNA hop h fun _ _ _ => rfl
  case h_9 => exact encode_decPCVA hop h fun _ _ _ _ => rfl
  case h_10 => cases h

theorem encode_decRow3 {lo n : Nat} {i : Instr} (hop : n / 2 ^ 24 = 48 + lo) (h : decRow3 lo n = .ok i) :
    encode i = [BitVec.ofNat 32 n] := by
  unfold decRow3 at h
  split at h
  case h_1 | h_2 | h_3 => exact encode_decPIA hop h fun _ _ _ => rfl
  case h_4 | h_6 => exact encode_decPNXA hop h fun _ _ _ _ => rfl
  case h_5 | h_7 | h_8 | h_9 => exact encode_decPNA2 hop h fun _ _ _ => rfl
  case h_10 => cases h

theorem encode_decRow4 {lo n : Nat} {i : Instr} (hop : n / 2 ^ 24 = 64 + lo) (h : decRow4 lo n = .ok i) :
    encode i = [BitVec.ofNat 32 n] := by
  unfold decRow4 at h
  split at h
  case h_1 | h_2 | h_3 | h_4 | h_5 | h_6 | h_7 | h_8 | h_9 | h_10 | h_11 | h_12 | h_13 | h_14 | h_15 | h_16 => exact encode_decPSHFAB hop h fun _ _ _ _ _ => rfl
  case h_17 => cases h

theorem encode_decRow5 {lo n : Nat} {i : Instr} (hop : n / 2 ^ 24 = 80 + lo) (h : decRow5 lo n = .ok i) :
    encode i = [BitVec.ofNat 32 n] := by
  unfold decRow5 at h
  split at h
  case h_1 => exact encode_decPSTKXMA hop h fun _ _ _ _ _ _ _ => rfl
  case h_2 => exact encode_decPSFKUMA hop h fun _ _ _ _ _ _ _ => rfl
  case h_3 => exact encode_decPTFXUMA hop h fun _ _ _ _ _ _ _ => rfl
  case h_4 => exact encode_decPSA hop h fun _ _ _ => rfl
  case h_5 => exact encode_decPHOUAB hop h fun _ _ _ _ _ _ => rfl
  case h_6 => exact encode_decPHUAB hop h fun _ _ _ _ _ => rfl
  case h_7 => exact encode_decPWIA hop h fun _ _ _ _ => rfl
  case h_8 | h_14 => exact encode_decPHAB hop h fun _ _ _ _ => rfl
  case h_9 => exact encode_decPDFNA hop h fun _ _ _ _ _ => rfl
  case h_10 => exact encode_decPOGA hop h fun _ _ _ _ => rfl
  case h_11 => exact encode_decPOEA hop h fun _ _ _ _ => rfl
  case h_12 => exact encode_decPFKXA hop h fun _ _ _ _ _ => rfl
  case h_13 => exact encode_decPMA hop h fun _ _ _ => rfl
  case h_15 => cases h

theorem encode_decRow6 {lo n : Nat} {i : Instr} (hop : n / 2 ^ 24 = 96 + lo) (h : decRow6 lo n = .ok i) :
    encode i = [BitVec.ofNat 32 n] := by
  unfold decRow6 at h
  split at h
  case h_1 => exact encode_decPHAB hop h fun _ _ _ _ => rfl
  case h_2 => exact encode_decPSHFAB hop h fun _ _ _ _ _ => rfl
  case h_3 => cases h

theorem encode_decRow7 {lo n : Nat} {i : Instr} (hop : n / 2 ^ 24 = 112 + lo) (h : decRow7 lo n = .ok i) :
    encode i = [BitVec.ofNat 32 n] := by
  unfold decRow7 at h
  split at h
  case h_1 | h_9 => exact encode_decPNA3 hop h fun _ _ _ => rfl
  case h_2 | h_3 => exact encode_decPKA hop h fun _ _ _ => rfl
  case h_4 => exact encode_decPLA hop h fun _ _ _ => rfl
  case h_5 => exact encode_decPGWCFA hop h fun _ _ _ _ _ _ => rfl
  case h_6 => exact encode_decPFTGA hop h fun _ _ _ _ _ => rfl
  case h_7 => exact encode_decPSA2 hop h fun _ _ _ => rfl
  case h_8 => exact encode_decPA hop h fun _ _ => rfl
  case h_10 => cases h

theorem encode_decRow8 {lo n : Nat} {i : Instr} (hop : n / 2 ^ 24 = 128 + lo) (h : decRow8 lo n = .ok i) :
    encode i = [BitVec.ofNat 32 n] := by
  unfold decRow8 at h
  split at h
  case h_1 => exact encode_decPWCOXVND hop h fun _ _ _ _ _ _ _ _ => rfl
  case h_2 | h_4 => exact encode_decPWCOVNA hop h fun _ _ _ _ _ _ _ => rfl
  case h_3 => exact encode_decPWCOXVNA hop h fun _ _ _ _ _ _ _ _ => rfl
  case h_5 | h_6 | h_7 | h_8 => exact encode_decPCONA hop h fun _ _ _ _ _ => rfl
  case h_9 => exact encode_decPWCOXND hop h fun _ _ _ _ _ _ _ => rfl
  case h_10 | h_11 | h_14 | h_15 | h_16 => exact encode_decPWCONA hop h fun _ _ _ _ _ _ => rfl
  case h_12 | h_13 => exact encode_decPWCOXNA hop h fun _ _ _ _ _ _ _ => rfl
  case h_17 => cases h

theorem encode_decRow9 {lo n : Nat} {i : Instr} (hop : n / 2 ^ 24 = 144 + lo) (h : decRow9 lo n = .ok i) :
    encode i = [BitVec.ofNat 32 n] := by
  unfold decRow9 at h
  split at h
  case h_1 | h_2 | h_3 | h_4 => exact encode_decPWCONA hop h fun _ _ _ _ _ _ => rfl
  case h_5 => exact encode_decPCOA hop h fun _ _ _ _ => rfl
  case h_6 => exact encode_decPFTCA hop h fun _ _ _ _ _ => rfl
  case h_7 | h_8 => exact encode_decPWCOVA hop h fun _ _ _ _ _ _ => rfl
  case h_9 | h_10 | h_11 => exact encode_decPCONA hop h fun _ _ _ _ _ => rfl
  case h_12 => cases h

theorem encode_decRowA {lo n : Nat} {i : Instr} (hop : n / 2 ^ 24 = 160 + lo) (h : decRowA lo n = .ok i) :
    encode i = [BitVec.ofNat 32 n] := by
  unfold decRowA at h
  split at h
  case h_1 => exact encode_decPNFA hop h fun _ _ _ _ => rfl
  case h_2 | h_4 => exact encode_decPNCRFA hop h fun _ _ _ _ _ _ => rfl
  case h_3 => exact encode_decPNCQFA hop h fun _ _ _ _ _ _ => rfl
  case h_5 | h_6 | h_7 | h_12 => exact encode_decPA hop h fun _ _ => rfl
  case h_8 | h_9 | h_10 => exact encode_decPKIA hop h fun _ _ _ _ => rfl
  case h_11 => exact encode_decPKIXA hop h fun _ _ _ _ _ => rfl
  case h_13 => cases h

theorem encode_decRowB {lo n : Nat} {i : Instr} (hop : n / 2 ^ 24 = 176 + lo) (h : decRowB lo n = .ok i) :
    encode i = [BitVec.ofNat 32 n] := by
  unfold decRowB at h
  split at h
  case h_1 | h_2 | h_3 => exact encode_decPTZA hop h fun _ _ _ _ => rfl
  case h_4 => exact encode_decPTYA hop h fun _ _ _ _ => rfl
  case h_5 => exact encode_decPTD hop h fun _ _ _ => rfl
  case h_6 => exact encode_decPTA hop h fun _ _ _ => rfl
  case h_7 => exact encode_decPTMXA hop h fun _ _ _ _ _ => rfl
  case h_8 => exact encode_decPNA4 hop h fun _ _ _ => rfl
  case h_9 => exact encode_decPDNA hop h fun _ _ _ _ => rfl
  case h_10 => exact encode_decPCRBNA hop h fun _ _ _ _ _ _ => rfl
  case h_11 => exact encode_decPBA hop h fun _ _ _ => rfl
  case h_12 => exact encode_decPIA2 hop h fun _ _ _ => rfl
  case h_13 => exact encode_decPA hop h fun _ _ => rfl
  case h_14 => cases h

theorem encode_decRowC {lo n : Nat} {i : Instr} (hop : n / 2 ^ 24 = 192 + lo) (h : decRowC lo n = .ok i) :
    encode i = [BitVec.ofNat 32 n] := by
  unfold decRowC at h
  split at h
  case h_1 | h_4 | h_5 | h_8 => exact encode_decPNA4 hop h fun _ _ _ => rfl
  case h_2 => exact encode_decPDNA hop h fun _ _ _ _ => rfl
  case h_3 => exact encode_decPND hop h fun _ _ _ => rfl
  case h_6 => exact encode_decPOA hop h fun _ _ _ => rfl
  case h_7 => exact encode_decPA hop h fun _ _ => rfl
  case h_9 => cases h

theorem encode_decRowD {lo n : Nat} {i : Instr} (hop : n / 2 ^ 24 = 208 + lo) (h : decRowD lo n = .ok i) :
    encode i = [BitVec.ofNat 32 n] := by
  unfold decRowD at h
  split at h
  case h_1 => exact encode_decPA hop h fun _ _ => rfl
  case h_2 => exact encode_decPIA3 hop h fun _ _ _ => rfl
  case h_3 => exact encode_decPIA4 hop h fun _ _ _ => rfl
  case h_4 | h_5 => exact encode_decPNA5 hop h fun _ _ _ => rfl
  case h_6 => exact encode_decPQA hop h fun _ _ _ => rfl
  case h_7 => cases h

theorem encode_decRowE {lo n : Nat} {i : Instr} (hop : n / 2 ^ 24 = 224 + lo) (h : decRowE lo n = .ok i) :
    encode i = [BitVec.ofNat 32 n] := by
  unfold decRowE at h
  split at h
  case h_1 => exact encode_decPCA hop h fun _ _ _ => rfl
  case h_2 => exact encode_decPNA2 hop h fun _ _ _ => rfl
  case h_3 | h_4 => exact encode_decPCA2 hop h fun _ _ _ => rfl
  case h_5 | h_9 => exact encode_decPA hop h fun _ _ => rfl
  case h_6 => exact encode_decPIA3 hop h fun _ _ _ => rfl
  case h_7 => exact encode_decPIA2 hop h fun _ _ _ => rfl
  case h_8 => exact encode_decPIDNA hop h fun _ _ _ _ _ => rfl
  case h_10 => cases h

/-- A word that its row of the opcode map reads is the one that the encoder writes. -/
theorem encode_decRow {w : Word} {i : Instr} (h : decRow w.toNat = .ok i) : encode i = [w] := by
  have hlt := w.isLt
  have hop : w.toNat / 2 ^ 24 = 16 * fld w.toNat 28 4 + fld w.toNat 24 4 := by
    simp only [fld]
    omega
  suffices h' : encode i = [BitVec.ofNat 32 w.toNat] by simpa using h'
  unfold decRow at h
  split at h
  · exact encode_decRow0 (by omega) h
  · exact encode_decRow1 (by omega) h
  · exact encode_decRow2 (by omega) h
  · exact encode_decRow3 (by omega) h
  · exact encode_decRow4 (by omega) h
  · exact encode_decRow5 (by omega) h
  · exact encode_decRow6 (by omega) h
  · exact encode_decRow7 (by omega) h
  · exact encode_decRow8 (by omega) h
  · exact encode_decRow9 (by omega) h
  · exact encode_decRowA (by omega) h
  · exact encode_decRowB (by omega) h
  · exact encode_decRowC (by omega) h
  · exact encode_decRowD (by omega) h
  · exact encode_decRowE (by omega) h
  · cases h

/-- A LITW word is the one that the encoder writes before its constant (R36). -/
theorem encode_litw {w k : Word} {i : Instr} (hop : fld w.toNat 24 8 = 0x32) (h : decPA w.toNat (fun p a => .litw p a k) = .ok i) :
    i.wellFormed = true ∧ encode i = [w, k] := by
  simp only [decPA, bind_ok, need_ok, decPm_ok, decTgt_ok, pure_ok] at h
  obtain ⟨p, hp, a, ha, -, z0, rfl⟩ := h
  have hw : encPA 0x32 p a = w.toNat := by
    have := w.isLt
    simp only [encPA, fld] at *
    omega
  refine ⟨rfl, ?_⟩
  simp [encode, hw]

/-! ### The statements -/

/-- Settles O1: each constructor's round trip, by the layout it is written in; an event has no word. -/
theorem decodeOfEncode : Obligations.DecodeOfEncode := by
  intro i hword hwf
  cases i with
  | add p sh u a b => exact RoundTrip.add p sh u a b hword hwf
  | sub p sh u a b => exact RoundTrip.sub p sh u a b hword hwf
  | mul p sh u a b => exact RoundTrip.mul p sh u a b hword hwf
  | mulh p sh u a b => exact RoundTrip.mulh p sh u a b hword hwf
  | mad p sh u a b => exact RoundTrip.mad p sh u a b hword hwf
  | div p sh u a b => exact RoundTrip.div p sh u a b hword hwf
  | rem p sh u a b => exact RoundTrip.rem p sh u a b hword hwf
  | and_ p sh u a b => exact RoundTrip.and_ p sh u a b hword hwf
  | or_ p sh u a b => exact RoundTrip.or_ p sh u a b hword hwf
  | xor p sh u a b => exact RoundTrip.xor p sh u a b hword hwf
  | andn p sh u a b => exact RoundTrip.andn p sh u a b hword hwf
  | shl p sh u a b => exact RoundTrip.shl p sh u a b hword hwf
  | shr p sh u a b => exact RoundTrip.shr p sh u a b hword hwf
  | sra p sh u a b => exact RoundTrip.sra p sh u a b hword hwf
  | rol p sh u a b => exact RoundTrip.rol p sh u a b hword hwf
  | min p sh u a b => exact RoundTrip.min p sh u a b hword hwf
  | max p sh u a b => exact RoundTrip.max p sh u a b hword hwf
  | abs p sh u a b => exact RoundTrip.abs p sh u a b hword hwf
  | neg p sh u a b => exact RoundTrip.neg p sh u a b hword hwf
  | clz p sh u a b => exact RoundTrip.clz p sh u a b hword hwf
  | popc p sh u a b => exact RoundTrip.popc p sh u a b hword hwf
  | brev p sh u a b => exact RoundTrip.brev p sh u a b hword hwf
  | bfx p sh u a b => exact RoundTrip.bfx p sh u a b hword hwf
  | bfi p sh u a b => exact RoundTrip.bfi p sh u a b hword hwf
  | cmp p c a b => exact RoundTrip.cmp p c a b hword hwf
  | sel p a b => exact RoundTrip.sel p a b hword hwf
  | sat p sh o u a b => exact RoundTrip.sat p sh o u a b hword hwf
  | mov p sh u a b => exact RoundTrip.mov p sh u a b hword hwf
  | nul p a b => exact RoundTrip.nul p a b hword hwf
  | addr p u a b => exact RoundTrip.addr p u a b hword hwf
  | aoff p u a b => exact RoundTrip.aoff p u a b hword hwf
  | aidx p u a b => exact RoundTrip.aidx p u a b hword hwf
  | addi p i a => exact RoundTrip.addi p i a hword hwf
  | andi p i a => exact RoundTrip.andi p i a hword hwf
  | ori p i a => exact RoundTrip.ori p i a hword hwf
  | xori p i a => exact RoundTrip.xori p i a hword hwf
  | shli p n a => exact RoundTrip.shli p n a hword hwf
  | shri p n a => exact RoundTrip.shri p n a hword hwf
  | srai p n a => exact RoundTrip.srai p n a hword hwf
  | cmpi p c v a => exact RoundTrip.cmpi p c v a hword hwf
  | movi p i a => exact RoundTrip.movi p i a hword hwf
  | movhi p i a => exact RoundTrip.movhi p i a hword hwf
  | litw p a k => exact RoundTrip.litw p a k hword hwf
  | muli p i a => exact RoundTrip.muli p i a hword hwf
  | get p n x a => exact RoundTrip.get p n x a hword hwf
  | put p n a => exact RoundTrip.put p n a hword hwf
  | getx p n x a => exact RoundTrip.getx p n x a hword hwf
  | putx p n a => exact RoundTrip.putx p n a hword hwf
  | rempty p n a => exact RoundTrip.rempty p n a hword hwf
  | rfull p n a => exact RoundTrip.rfull p n a hword hwf
  | fadd p sh f a b => exact RoundTrip.fadd p sh f a b hword hwf
  | fsub p sh f a b => exact RoundTrip.fsub p sh f a b hword hwf
  | fmul p sh f a b => exact RoundTrip.fmul p sh f a b hword hwf
  | fma p sh f a b => exact RoundTrip.fma p sh f a b hword hwf
  | fmin p sh f a b => exact RoundTrip.fmin p sh f a b hword hwf
  | fmax p sh f a b => exact RoundTrip.fmax p sh f a b hword hwf
  | fabs p sh f a b => exact RoundTrip.fabs p sh f a b hword hwf
  | fneg p sh f a b => exact RoundTrip.fneg p sh f a b hword hwf
  | fcmp p sh f a b => exact RoundTrip.fcmp p sh f a b hword hwf
  | fclass p sh f a b => exact RoundTrip.fclass p sh f a b hword hwf
  | frcp p sh f a b => exact RoundTrip.frcp p sh f a b hword hwf
  | frsq p sh f a b => exact RoundTrip.frsq p sh f a b hword hwf
  | fexp2 p sh f a b => exact RoundTrip.fexp2 p sh f a b hword hwf
  | flog2 p sh f a b => exact RoundTrip.flog2 p sh f a b hword hwf
  | fsqrt p sh f a b => exact RoundTrip.fsqrt p sh f a b hword hwf
  | fdiv p sh f a b => exact RoundTrip.fdiv p sh f a b hword hwf
  | cvt p s t k x m a => exact RoundTrip.cvt p s t k x m a hword hwf
  | cvti p s f k u m a => exact RoundTrip.cvti p s f k u m a hword hwf
  | cvtf p t f x u m a => exact RoundTrip.cvtf p t f x u m a hword hwf
  | scale p s a => exact RoundTrip.scale p s a hword hwf
  | pack p h o u a b => exact RoundTrip.pack p h o u a b hword hwf
  | unpack p h u a b => exact RoundTrip.unpack p h u a b hword hwf
  | bcast p w i a => exact RoundTrip.bcast p w i a hword hwf
  | shuf p h a b => exact RoundTrip.shuf p h a b hword hwf
  | rot p d f n a => exact RoundTrip.rot p d f n a hword hwf
  | red p o g a => exact RoundTrip.red p o g a hword hwf
  | scan p o e a => exact RoundTrip.scan p o e a hword hwf
  | topk p f k x a => exact RoundTrip.topk p f k x a hword hwf
  | lmask p m a => exact RoundTrip.lmask p m a hword hwf
  | compact p h a b => exact RoundTrip.compact p h a b hword hwf
  | expand p h a b => exact RoundTrip.expand p h a b hword hwf
  | dot p sh f a b => exact RoundTrip.dot p sh f a b hword hwf
  | in_ p n a => exact RoundTrip.in_ p n a hword hwf
  | eos p k a => exact RoundTrip.eos p k a hword hwf
  | emit p k a => exact RoundTrip.emit p k a hword hwf
  | bound p l a => exact RoundTrip.bound p l a hword hwf
  | filt p g w c f a => exact RoundTrip.filt p g w c f a hword hwf
  | merge p f t g a => exact RoundTrip.merge p f t g a hword hwf
  | gate p s a => exact RoundTrip.gate p s a hword hwf
  | mark p a => exact RoundTrip.mark p a hword hwf
  | drop p n a => exact RoundTrip.drop p n a hword hwf
  | ld p w c o x v n d => exact RoundTrip.ld p w c o x v n d hword hwf
  | st p w c o v n a => exact RoundTrip.st p w c o v n a hword hwf
  | ldv p w c o x v n a => exact RoundTrip.ldv p w c o x v n a hword hwf
  | stv p w c o v n a => exact RoundTrip.stv p w c o v n a hword hwf
  | recl p c o n a => exact RoundTrip.recl p c o n a hword hwf
  | ldt p c o n a => exact RoundTrip.ldt p c o n a hword hwf
  | stt p c o n a => exact RoundTrip.stt p c o n a hword hwf
  | pref p c o n a => exact RoundTrip.pref p c o n a hword hwf
  | gath p w c o x n d => exact RoundTrip.gath p w c o x n d hword hwf
  | scat p w c o n a => exact RoundTrip.scat p w c o n a hword hwf
  | aadd p w c o n a => exact RoundTrip.aadd p w c o n a hword hwf
  | amin p w c o x n a => exact RoundTrip.amin p w c o x n a hword hwf
  | amax p w c o x n a => exact RoundTrip.amax p w c o x n a hword hwf
  | aand p w c o n a => exact RoundTrip.aand p w c o n a hword hwf
  | aor p w c o n a => exact RoundTrip.aor p w c o n a hword hwf
  | axor p w c o n a => exact RoundTrip.axor p w c o n a hword hwf
  | axch p w c o n a => exact RoundTrip.axch p w c o n a hword hwf
  | acas p w c o n a => exact RoundTrip.acas p w c o n a hword hwf
  | afadd p w c o n a => exact RoundTrip.afadd p w c o n a hword hwf
  | ascat p w c o n a => exact RoundTrip.ascat p w c o n a hword hwf
  | fence p c o a => exact RoundTrip.fence p c o a hword hwf
  | fencex p f t c a => exact RoundTrip.fencex p f t c a hword hwf
  | spld p w c o v a => exact RoundTrip.spld p w c o v a hword hwf
  | spst p w c o v a => exact RoundTrip.spst p w c o v a hword hwf
  | flush p c o n a => exact RoundTrip.flush p c o n a hword hwf
  | pin p c o n a => exact RoundTrip.pin p c o n a hword hwf
  | unpin p c o n a => exact RoundTrip.unpin p c o n a hword hwf
  | barm p n f a => exact RoundTrip.barm p n f a hword hwf
  | barr p n c r f a => exact RoundTrip.barr p n c r f a hword hwf
  | barw p n c q f a => exact RoundTrip.barw p n c q f a hword hwf
  | barx p n c r f a => exact RoundTrip.barx p n c r f a hword hwf
  | syni p a => exact RoundTrip.syni p a hword hwf
  | synw p a => exact RoundTrip.synw p a hword hwf
  | syna p a => exact RoundTrip.syna p a hword hwf
  | chapp p k i a => exact RoundTrip.chapp p k i a hword hwf
  | chseq p k i a => exact RoundTrip.chseq p k i a hword hwf
  | chwt p k i a => exact RoundTrip.chwt p k i a hword hwf
  | chctl p k i x a => exact RoundTrip.chctl p k i x a hword hwf
  | tdisp p a => exact RoundTrip.tdisp p a hword hwf
  | mma p t z a => exact RoundTrip.mma p t z a hword hwf
  | mmas p t z a => exact RoundTrip.mmas p t z a hword hwf
  | mmap p t z a => exact RoundTrip.mmap p t z a hword hwf
  | acz p t y a => exact RoundTrip.acz p t y a hword hwf
  | acrd p t d => exact RoundTrip.acrd p t d hword hwf
  | acwr p t a => exact RoundTrip.acwr p t a hword hwf
  | accv p t m x a => exact RoundTrip.accv p t m x a hword hwf
  | tagr p n a => exact RoundTrip.tagr p n a hword hwf
  | tags p d n a => exact RoundTrip.tags p d n a hword hwf
  | tfch p c r b n a => exact RoundTrip.tfch p c r b n a hword hwf
  | trel p b a => exact RoundTrip.trel p b a hword hwf
  | tdsc p i a => exact RoundTrip.tdsc p i a hword hwf
  | mlook p a => exact RoundTrip.mlook p a hword hwf
  | pgld p n a => exact RoundTrip.pgld p n a hword hwf
  | pgst p d n a => exact RoundTrip.pgst p d n a hword hwf
  | pgnx p n d => exact RoundTrip.pgnx p n d hword hwf
  | pgsv p n a => exact RoundTrip.pgsv p n a hword hwf
  | pgrs p n a => exact RoundTrip.pgrs p n a hword hwf
  | slhb p o a => exact RoundTrip.slhb p o a hword hwf
  | slht p a => exact RoundTrip.slht p a hword hwf
  | pgq p n a => exact RoundTrip.pgq p n a hword hwf
  | phend p a => exact RoundTrip.phend p a hword hwf
  | ctxq p i a => exact RoundTrip.ctxq p i a hword hwf
  | rateq p i a => exact RoundTrip.rateq p i a hword hwf
  | sarm p n a => exact RoundTrip.sarm p n a hword hwf
  | swait p n a => exact RoundTrip.swait p n a hword hwf
  | launch p q a => exact RoundTrip.launch p q a hword hwf
  | trap p c a => exact RoundTrip.trap p c a hword hwf
  | brk p n a => exact RoundTrip.brk p n a hword hwf
  | csrr p c a => exact RoundTrip.csrr p c a hword hwf
  | csrw p c a => exact RoundTrip.csrw p c a hword hwf
  | nodeid p a => exact RoundTrip.nodeid p a hword hwf
  | fcnt p i a => exact RoundTrip.fcnt p i a hword hwf
  | eqrd p i a => exact RoundTrip.eqrd p i a hword hwf
  | obsr p i d n a => exact RoundTrip.obsr p i d n a hword hwf
  | haltr p a => exact RoundTrip.haltr p a hword hwf
  | _ => exact absurd rfl hword

/-- Settles O2: a word that decodes is a LITW before its constant, or is read by its row of the opcode map, which checks the whole of it. -/
theorem encodeOfDecode : Obligations.EncodeOfDecode := by
  intro ws rest i h
  match ws with
  | [] => cases h
  | w :: more =>
    rw [decode] at h
    by_cases hlitw : fld w.toNat 24 8 = 0x32
    · rw [if_pos hlitw] at h
      cases hread : decPA w.toNat fun p a => .litw p a (more.headD 0) with
      | error e =>
        rw [hread] at h
        cases h
      | ok j =>
        obtain ⟨hwf, hj⟩ := encode_litw hlitw hread
        rw [hread] at h
        match more with
        | [] => cases h
        | k :: rest =>
          cases h
          exact ⟨hwf, hj ▸ rfl⟩
    · rw [if_neg hlitw] at h
      obtain ⟨j, hj, h⟩ := bind_ok.1 h
      split_ifs at h with hwf
      cases h
      exact ⟨hwf, encode_decRow hj ▸ rfl⟩

/-- Settles O3: each word is decoded as it stands. -/
theorem manualWordsDecode : Obligations.ManualWordsDecode := by
  unfold Obligations.ManualWordsDecode
  decide

/-! ### Fetch and step (R68) -/

/-- The fetch of a slot whose block is in order and whose word decodes. -/
theorem fetch_instr {b : Block} {slot : Nat} {i : Instr} {r : List Word} (hh : headerOk b.header = true) (hl : b.len ≤ b.words.length)
    (hd : decode (b.words.drop slot) = .ok (i, r)) : fetch b slot = .instr i := by
  simp [fetch, hh, Nat.not_lt.2 hl, hd]

/-- A slot without a break bit whose fetch finds an instruction executes it. -/
theorem issueAt_fetches {s : State} {c : Cursor} {i : Instr} (h : Fetches s c i) : issueAt c s = exec i { s with cur := c } := by
  obtain ⟨x, f, b, sl, hx, hruns, hf, hb, hsl, hissued, hbreak, hh, hl, r, hd⟩ := h
  have hx' : State.elem? { s with cur := c } c.e = some x := hx
  have hruns' : State.runs { s with cur := c } x = true := hruns
  simp [issueAt, issueInstr, hx', hf, hb, hruns', hsl, hissued, fetch_instr hh hl hd, hbreak]

theorem isWord_eq_false {i : Instr} (h : encode i = []) : isWord i = false := by simp [isWord, h]

/-- Settles O4: a slot that is fetched executes its instruction, and an event of a part with power is executed. -/
theorem stepRunsDecoded : Obligations.StepRunsDecoded := by
  refine ⟨fun s c rest i hag hf => ?_, fun s rest i hag hpower hi => ?_⟩
  · have hmove : step s = issueAt c { s with agenda := rest } := by simp [step, machineStep, hag, runMove]
    rw [hmove]
    exact issueAt_fetches hf
  · simp [step, machineStep, hag, runMove, isWord_eq_false hi, hpower]

end Sys2Proof.Proofs
end

