-- ==== Sys2Proof/Proofs/Patterns.lean ====
section
/-! SUPPORT. Patterns as sets (R55, R383, R384, R386, R387): membership, inverses, and programs read word by word (R385). -/

namespace Sys2Proof.Proofs

open Sys2Proof Sys2Proof.Laws Sys2Proof.Machine Sys2Proof.Claims

/-! ### Membership (R383, R384, R386, R387) -/

theorem toNat_mix (m t : BitVec 32) :
    (((t ^^^ (t >>> 16)) * m) ^^^ (((t ^^^ (t >>> 16)) * m) >>> 13)).toNat =
      ((t.toNat ^^^ (t.toNat / 2 ^ 16)) * m.toNat % 2 ^ 32) ^^^ (((t.toNat ^^^ (t.toNat / 2 ^ 16)) * m.toNat % 2 ^ 32) / 2 ^ 13) := by
  simp [Nat.shiftRight_eq_div_pow]

theorem toNat_draw (a b c : BitVec 32) (r j s : Nat) :
    (BitVec.ofNat 32 r * a + BitVec.ofNat 32 j * b + BitVec.ofNat 32 s * c).toNat = (r * a.toNat + j * b.toNat + s * c.toNat) % 2 ^ 32 := by
  simp [Nat.add_mod, Nat.mul_mod]

theorem hashAt_eq (seed r j : Nat) : hashAt seed r j = (hashOf seed r j).toNat := by
  rw [hashOf, toNat_mix, toNat_draw]
  rfl

theorem hashMem_iff {m seed cf r c : Nat} : hashMem m seed cf r c = true ↔ ∃ j, j < m ∧ (hashOf seed r j).toNat % cf = c := by
  simp [hashMem, hashAt_eq]

/-- A column is on the dilated band exactly where it is one of its `n` steps from the offset. -/
theorem dilated_iff (d : Int) (st n : Nat) : (0 ≤ d ∧ d % (st : Int) = 0 ∧ d / (st : Int) < n) ↔ ∃ j, j < n ∧ d = st * (j : Int) := by
  constructor
  · rintro ⟨h0, hmod, hlt⟩
    have hd := Int.mul_ediv_add_emod d st
    have hq : 0 ≤ d / (st : Int) := Int.ediv_nonneg h0 (by omega)
    refine ⟨(d / (st : Int)).toNat, by omega, ?_⟩
    rw [Int.toNat_of_nonneg hq]
    omega
  · rintro ⟨j, hj, rfl⟩
    refine ⟨by positivity, by simp, ?_⟩
    rcases Nat.eq_zero_or_pos st with rfl | hst
    · simp; omega
    · rw [Int.mul_ediv_cancel_left _ (by omega)]
      omega

theorem mem_iff_member (p : Pat) (rf cf r c : Nat) : p.mem rf cf r c = true ↔ Member p rf cf r c := by
  induction p generalizing rf cf r c with
  | band lo hi => simp [Pat.mem, Member]
  | dil o st n =>
    have hstep := dilated_iff ((c : Int) - r - o) st n
    have heq : ∀ j : Nat, (c : Int) - r - o = st * j ↔ (c : Int) - r = o + st * j := fun j => by omega
    simp only [heq] at hstep
    simp [Pat.mem, Member, ← hstep, and_assoc]
  | blkd bh bw => simp [Pat.mem, Member]
  | kron qr qc p q hp hq => simp [Pat.mem, Member, hp, hq, ceilDiv]
  | hash k m seed inv => simp [Pat.mem, Member, hashMem_iff]
  | uni p q hp hq => simp [Pat.mem, Member, hp, hq]
  | int p q hp hq => simp [Pat.mem, Member, hp, hq]
  | lim rb cb p hp => simp [Pat.mem, Member, hp, and_assoc, or_iff_not_imp_left]
  | perm a b p hp => simp [Pat.mem, Member, hp]

/-! ### Inverses (R55) -/

theorem invertible_iff (p : Pat) : p.invertible = true ↔ Inverts p := by
  induction p with
  | hash k m seed inv => cases inv <;> simp [Pat.invertible, Inverts]
  | kron qr qc p q hp hq => simp [Pat.invertible, Inverts, hp, hq]
  | uni p q hp hq => simp [Pat.invertible, Inverts, hp, hq]
  | int p q hp hq => simp [Pat.invertible, Inverts, hp, hq]
  | lim rb cb p hp => simp [Pat.invertible, Inverts, hp]
  | _ => simp [Pat.invertible, Inverts]

/-- A pattern without a hashed word that lacks a table has an inverse. -/
theorem invertible_of_firstBare {p : Pat} (h : p.firstBare = none) : p.invertible = true := by
  induction p with
  | hash k m seed inv => cases inv <;> simp_all [Pat.firstBare, Pat.invertible]
  | kron qr qc p q hp hq =>
    simp only [Pat.firstBare] at h
    split at h <;> simp_all [Pat.invertible]
  | uni p q hp hq =>
    simp only [Pat.firstBare] at h
    split at h <;> simp_all [Pat.invertible]
  | int p q hp hq =>
    simp only [Pat.firstBare] at h
    split at h <;> simp_all [Pat.invertible]
  | lim rb cb p hp => exact hp h
  | _ => rfl

theorem noInverse_iff (p : Pat) : p.noInverse = none ↔ Inverts p := by
  rw [← invertible_iff, Pat.noInverse]
  split
  · simpa
  · next hbare => exact ⟨invertible_of_firstBare, fun h => absurd h hbare⟩

/-! ### Fields of a pattern word (R384) -/

theorem twos_cast (w : Nat) (x : Int) : ((twos w x : Nat) : Int) = x % 2 ^ w := by
  rw [twos, BitVec.toNat_ofInt, Int.toNat_of_nonneg (Int.emod_nonneg _ (by positivity)), Nat.cast_pow, Nat.cast_ofNat]

theorem twos_lt (w : Nat) (x : Int) : twos w x < 2 ^ w := (BitVec.ofInt w x).isLt

theorem twos_sgn {w x : Nat} (hx : x < 2 ^ w) : twos w (sgn w x) = x := by
  have h : ((twos w (sgn w x) : Nat) : Int) = ((x % 2 ^ w : Nat) : Int) := by
    rw [twos_cast, sgn]
    split <;> simp
  rw [Nat.mod_eq_of_lt hx] at h
  exact_mod_cast h

theorem sgn_bounds (w x : Nat) : -(2 ^ w : Int) ≤ 2 * sgn w x ∧ 2 * sgn w x < 2 ^ w := by
  have h := Nat.mod_lt x (Nat.two_pow_pos w)
  have h2 : ((2 ^ w : Nat) : Int) = 2 ^ w := by simp
  simp only [sgn]
  split <;> omega

/-- A number in range is the one that its two's complement is read as. -/
theorem sgn_twos {w : Nat} {x : Int} (hlo : -(2 ^ w : Int) ≤ 2 * x) (hhi : 2 * x < 2 ^ w) : sgn w (twos w x) = x := by
  have h2 : ((2 ^ w : Nat) : Int) = 2 ^ w := by simp
  have ht := twos_cast w x
  simp only [sgn, Nat.mod_eq_of_lt (twos_lt w x)]
  rcases Int.lt_or_le x 0 with hneg | hpos
  · rw [← Int.add_emod_right, Int.emod_eq_of_lt (by omega) (by omega)] at ht
    rw [if_neg (by omega)]
    omega
  · rw [Int.emod_eq_of_lt hpos (by omega)] at ht
    rw [if_pos (by omega)]
    omega

/-- A word of two fields of 12 bits. -/
theorem word_twelves {w c : Nat} (h : w / 2 ^ 24 = c) : patWordOf c (bits w 23 12 * 2 ^ 12 + bits w 11 0) = w := by
  simp only [bits, patWordOf]
  omega

/-- A word of three fields of 8 bits. -/
theorem word_bytes {w c : Nat} (h : w / 2 ^ 24 = c) : patWordOf c (bits w 23 16 * 2 ^ 16 + bits w 15 8 * 2 ^ 8 + bits w 7 0) = w := by
  simp only [bits, patWordOf]
  omega

/-- A word of a draw count, a seed and a table bit. -/
theorem word_hash {w c : Nat} (h : w / 2 ^ 24 = c) : patWordOf c (bits w 23 16 * 2 ^ 16 + bits w 15 1 * 2 + b2n (bit w 0)) = w := by
  have hbit : b2n (bit w 0) = w % 2 := by
    simp only [b2n, bit, pow_zero, Nat.div_one, beq_iff_eq]
    split <;> omega
  rw [hbit]
  simp only [bits, patWordOf]
  omega

/-- A word without operands. -/
theorem word_plain {w c : Nat} (h : w / 2 ^ 24 = c) (h0 : bits w 23 0 = 0) : patWordOf c 0 = w := by
  simp only [bits, patWordOf] at *
  omega

theorem bits_lt (w hi lo : Nat) : bits w hi lo < 2 ^ (hi + 1 - lo) := Nat.mod_lt _ (Nat.two_pow_pos _)

theorem fields_twelves {c h l : Nat} (hh : h < 2 ^ 12) (hl : l < 2 ^ 12) :
    let w := patWordOf c (h * 2 ^ 12 + l)
    w / 2 ^ 24 = c ∧ bits w 23 12 = h ∧ bits w 11 0 = l := by
  simp only [bits, patWordOf]
  omega

theorem fields_bytes {c h m l : Nat} (hh : h < 2 ^ 8) (hm : m < 2 ^ 8) (hl : l < 2 ^ 8) :
    let w := patWordOf c (h * 2 ^ 16 + m * 2 ^ 8 + l)
    w / 2 ^ 24 = c ∧ bits w 23 16 = h ∧ bits w 15 8 = m ∧ bits w 7 0 = l := by
  simp only [bits, patWordOf]
  omega

theorem fields_hash {c m seed : Nat} {t : Bool} (hm : m < 2 ^ 8) (hseed : seed < 2 ^ 15) :
    let w := patWordOf c (m * 2 ^ 16 + seed * 2 + b2n t)
    w / 2 ^ 24 = c ∧ bits w 23 16 = m ∧ bits w 15 1 = seed ∧ bit w 0 = t := by
  have ht : b2n t = t.toNat := by cases t <;> rfl
  have htl := Bool_lt t
  simp only [ht, bits, bit, patWordOf]
  refine ⟨by omega, by omega, by omega, ?_⟩
  rw [show (c * 2 ^ 24 + (m * 2 ^ 16 + seed * 2 + t.toNat)) / 2 ^ 0 % 2 = t.toNat by omega]
  exact Bool_dec t

/-! ### Programs (R384, R385) -/

/-- What words `us` from place `k` on make of a stack of patterns (R384): they push a pattern, or join or change the ones on top. -/
inductive Pushes (k : Nat) : List Nat → List Pat → List Pat → Prop
  | band {lo hi st} (h : InRange (.band lo hi) k) : Pushes k (wordsOf (.band lo hi)) st (.band lo hi :: st)
  | dil {o s n st} (h : InRange (.dil o s n) k) : Pushes k (wordsOf (.dil o s n)) st (.dil o s n :: st)
  | blkd {bh bw st} (h : InRange (.blkd bh bw) k) : Pushes k (wordsOf (.blkd bh bw)) st (.blkd bh bw :: st)
  | hash {m seed t st} (h : InRange (.hash k m seed t) k) : Pushes k (wordsOf (.hash k m seed t)) st (.hash k m seed t :: st)
  | kron {qr qc p q st} (h : 1 ≤ qr ∧ qr ≤ 4095 ∧ 1 ≤ qc ∧ qc ≤ 4095) :
      Pushes k [patWordOf 0x04 (qr * 2 ^ 12 + qc)] (q :: p :: st) (.kron qr qc p q :: st)
  | uni {p q st} : Pushes k [patWordOf 0x06 0] (q :: p :: st) (.uni p q :: st)
  | int {p q st} : Pushes k [patWordOf 0x07 0] (q :: p :: st) (.int p q :: st)
  | lim {rb cb p st} (h : rb ≤ 4095 ∧ cb ≤ 4095) : Pushes k [patWordOf 0x08 (rb * 2 ^ 12 + cb)] (p :: st) (.lim rb cb p :: st)
  | perm {a b p st} (h : -2048 ≤ a ∧ a ≤ 2047 ∧ -2048 ≤ b ∧ b ≤ 2047) :
      Pushes k [patWordOf 0x09 (twos 12 a * 2 ^ 12 + twos 12 b)] (p :: st) (.perm a b p :: st)

/-- The words from place `k` on, up to PEND, make one pattern of a stack of patterns (R385). -/
inductive Parses : Nat → List Pat → List Nat → Pat → Prop
  | pend {k p} (hk : k < 32) : Parses k [p] [patWordOf 0x0B 0] p
  | push {k us ws st st' p} (hk : k + us.length ≤ 32) (h : Pushes k us st st') (hst : st'.length ≤ 4) (hrest : Parses (k + us.length) st' ws p) :
      Parses k st (us ++ ws) p

/-! #### The words that were pushed -/

/-- The words that pushed the patterns of a stack, the last pushed first. -/
def stackWords : List Pat → List Nat
  | [] => []
  | p :: st => stackWords st ++ wordsOf p

/-- The patterns of a stack are in range, their words standing from place `b` on, and each was pushed with at most 4 on the stack. -/
def StackOk (b : Nat) : List Pat → Prop
  | [] => True
  | p :: st => InRange p (b + (stackWords st).length) ∧ stackOf p + st.length ≤ 4 ∧ StackOk b st

theorem stackWords_pushes {k : Nat} {us : List Nat} {st st' : List Pat} (h : Pushes k us st st') : stackWords st' = stackWords st ++ us := by
  cases h <;> simp [stackWords, wordsOf]

/-- Two patterns are joined on a stack of at most 4 where the second was pushed over the first (R385). -/
theorem join_le {a b n : Nat} : Nat.max a (b + 1) + n ≤ 4 ↔ a + n ≤ 4 ∧ b + (n + 1) ≤ 4 := by
  change max a (b + 1) + n ≤ 4 ↔ _
  omega

theorem stackOk_pushes {b k : Nat} {us : List Nat} {st st' : List Pat} (h : Pushes k us st st') (hst : StackOk b st)
    (hk : k = b + (stackWords st).length) (hlen : st'.length ≤ 4) : StackOk b st' := by
  subst hk
  cases h with
  | band h | dil h | blkd h | hash h => exact ⟨h, by simpa [stackOf, Nat.add_comm] using hlen, hst⟩
  | kron h =>
    obtain ⟨hq, hql, hp, hpl, hst⟩ := hst
    obtain ⟨h1, h2, h3, h4⟩ := h
    exact ⟨⟨h1, h2, h3, h4, hp, by simpa [stackWords, Nat.add_assoc] using hq⟩, join_le.2 ⟨hpl, hql⟩, hst⟩
  | uni | int =>
    obtain ⟨hq, hql, hp, hpl, hst⟩ := hst
    exact ⟨⟨hp, by simpa [stackWords, Nat.add_assoc] using hq⟩, join_le.2 ⟨hpl, hql⟩, hst⟩
  | lim h =>
    obtain ⟨hp, hpl, hst⟩ := hst
    exact ⟨⟨h.1, h.2, hp⟩, hpl, hst⟩
  | perm h =>
    obtain ⟨hp, hpl, hst⟩ := hst
    obtain ⟨h1, h2, h3, h4⟩ := h
    exact ⟨⟨h1, h2, h3, h4, hp⟩, hpl, hst⟩

/-- What parses is the words of its pattern, in range, and PEND, of which those of the stack stand before (R384, R385). -/
theorem words_of_parses {b k : Nat} {st : List Pat} {ws : List Nat} {p : Pat} (h : Parses k st ws p) (hst : StackOk b st)
    (hk : k = b + (stackWords st).length) :
    stackWords st ++ ws = wordsOf p ++ [patWordOf 0x0B 0] ∧ InRange p b ∧ stackOf p ≤ 4 ∧ k + ws.length ≤ 32 := by
  induction h with
  | pend hlt =>
    obtain ⟨hp, hpl, -⟩ := hst
    exact ⟨by simp [stackWords], by simpa [stackWords] using hp, by simpa using hpl, hlt⟩
  | @push k us ws st st' p _ hpush hlen _ ih =>
    have hws := stackWords_pushes hpush
    obtain ⟨hwords, hp, hpl, hlt⟩ := ih (stackOk_pushes hpush hst hk hlen) (by rw [hws, hk, List.length_append, Nat.add_assoc])
    rw [hws, List.append_assoc] at hwords
    exact ⟨hwords, hp, hpl, by rwa [List.length_append, ← Nat.add_assoc]⟩

theorem one_le_stackOf (p : Pat) : 1 ≤ stackOf p := by
  induction p with
  | kron _ _ p q hp _ | uni p q hp _ | int p q hp _ => exact hp.trans (Nat.le_max_left _ _)
  | lim _ _ p hp | perm _ _ p hp => exact hp
  | _ => exact Nat.le_refl 1

/-- The words of a pattern, where they push it whatever stands below and follows. -/
def PushedBy (p q : Pat) (k : Nat) : Prop :=
  ∀ {st ws}, stackOf p + st.length ≤ 4 → k + (wordsOf p).length ≤ 32 → Parses (k + (wordsOf p).length) (p :: st) ws q →
    Parses k st (wordsOf p ++ ws) q

/-- One word changes the pattern that stands on top. -/
theorem parses_change {p t q : Pat} {w k : Nat} {st : List Pat} {ws : List Nat} (h : Pushes (k + (wordsOf p).length) [w] (p :: st) (t :: st))
    (hst : stackOf p + st.length ≤ 4) (hk : k + (wordsOf p ++ [w]).length ≤ 32) (hp : PushedBy p q k)
    (hrest : Parses (k + (wordsOf p ++ [w]).length) (t :: st) ws q) : Parses k st (wordsOf p ++ [w] ++ ws) q := by
  simp only [List.length_append, List.length_singleton] at hk hrest
  rw [List.append_assoc]
  refine hp hst (by omega) (.push (by simpa [Nat.add_assoc] using hk) h ?_ (by simpa [Nat.add_assoc] using hrest))
  have := one_le_stackOf p
  simp only [List.length_cons]
  omega

/-- One word joins the two patterns on top. -/
theorem parses_join {p₁ p₂ t q : Pat} {w k : Nat} {st : List Pat} {ws : List Nat}
    (h : Pushes (k + (wordsOf p₁).length + (wordsOf p₂).length) [w] (p₂ :: p₁ :: st) (t :: st))
    (hst : Nat.max (stackOf p₁) (stackOf p₂ + 1) + st.length ≤ 4) (hk : k + (wordsOf p₁ ++ wordsOf p₂ ++ [w]).length ≤ 32)
    (hp₁ : PushedBy p₁ q k) (hp₂ : PushedBy p₂ q (k + (wordsOf p₁).length)) (hrest : Parses (k + (wordsOf p₁ ++ wordsOf p₂ ++ [w]).length) (t :: st) ws q) :
    Parses k st (wordsOf p₁ ++ wordsOf p₂ ++ [w] ++ ws) q := by
  simp only [List.length_append, List.length_singleton] at hk hrest
  obtain ⟨hst₁, hst₂⟩ := join_le.1 hst
  rw [List.append_assoc, List.append_assoc]
  refine hp₁ hst₁ (by omega) (hp₂ hst₂ (by omega) (.push (by simpa [Nat.add_assoc] using hk) h ?_ (by simpa [Nat.add_assoc] using hrest)))
  have := one_le_stackOf p₁
  simp only [List.length_cons]
  omega

/-- The words of a pattern in range push it. -/
theorem parses_wordsOf {p q : Pat} {k : Nat} {st : List Pat} {ws : List Nat} (hr : InRange p k) (hst : stackOf p + st.length ≤ 4)
    (hk : k + (wordsOf p).length ≤ 32) (hrest : Parses (k + (wordsOf p).length) (p :: st) ws q) : Parses k st (wordsOf p ++ ws) q := by
  induction p generalizing k st ws with
  | band lo hi => exact .push hk (.band hr) (by simpa [stackOf, Nat.add_comm] using hst) hrest
  | dil o s n => exact .push hk (.dil hr) (by simpa [stackOf, Nat.add_comm] using hst) hrest
  | blkd bh bw => exact .push hk (.blkd hr) (by simpa [stackOf, Nat.add_comm] using hst) hrest
  | hash at_ m seed t =>
    obtain rfl : at_ = k := hr.1
    exact .push hk (.hash hr) (by simpa [stackOf, Nat.add_comm] using hst) hrest
  | kron qr qc p₁ p₂ ih₁ ih₂ =>
    obtain ⟨h1, h2, h3, h4, hr₁, hr₂⟩ := hr
    exact parses_join (.kron ⟨h1, h2, h3, h4⟩) hst hk (ih₁ hr₁) (ih₂ hr₂) hrest
  | uni p₁ p₂ ih₁ ih₂ => exact parses_join .uni hst hk (ih₁ hr.1) (ih₂ hr.2) hrest
  | int p₁ p₂ ih₁ ih₂ => exact parses_join .int hst hk (ih₁ hr.1) (ih₂ hr.2) hrest
  | lim rb cb p ih =>
    obtain ⟨h1, h2, hr⟩ := hr
    exact parses_change (.lim ⟨h1, h2⟩) hst hk (ih hr) hrest
  | perm a b p ih =>
    obtain ⟨h1, h2, h3, h4, hr⟩ := hr
    exact parses_change (.perm ⟨h1, h2, h3, h4⟩) hst hk (ih hr) hrest

/-! #### Word by word -/

/-- A word that acts on the stack of the model does so as the words of a pattern do. -/
theorem pushes_patWord {k w : Nat} {st st' : List Pat} (hok : patOperandsOk w = true) (hplain : ¬ (w / 2 ^ 24 = 5 ∧ bit w 0 = true))
    (h : patWord k w st = some st') : Pushes k [w] st st' := by
  rw [patWord.eq_def] at h
  have hhi : bits w 23 12 < 2 ^ 12 := bits_lt w 23 12
  have hlo : bits w 11 0 < 2 ^ 12 := bits_lt w 11 0
  have hsgnhi := sgn_bounds 12 (bits w 23 12)
  have hsgnlo := sgn_bounds 12 (bits w 11 0)
  split at h <;> rename_i hcode <;> cases h <;> simp only [patOperandsOk, hcode, Bool.and_eq_true, bne_iff_ne, decide_eq_true_eq, beq_iff_eq] at hok
  · have hw : wordsOf (.band (sgn 12 (bits w 23 12)) (sgn 12 (bits w 11 0))) = [w] := by
      rw [wordsOf, twos_sgn hhi, twos_sgn hlo, word_twelves hcode]
    exact hw ▸ .band ⟨by omega, hok, by omega⟩
  · have hb : bits w 23 16 < 2 ^ 8 := bits_lt w 23 16
    have hst : bits w 15 8 < 2 ^ 8 := bits_lt w 15 8
    have hn : bits w 7 0 < 2 ^ 8 := bits_lt w 7 0
    have hsgn := sgn_bounds 8 (bits w 23 16)
    have hw : wordsOf (.dil (sgn 8 (bits w 23 16)) (bits w 15 8) (bits w 7 0)) = [w] := by rw [wordsOf, twos_sgn hb, word_bytes hcode]
    exact hw ▸ .dil ⟨by omega, by omega, by omega, by omega, by omega, by omega⟩
  · have hw : wordsOf (.blkd (bits w 23 12) (bits w 11 0)) = [w] := by rw [wordsOf, word_twelves hcode]
    exact hw ▸ .blkd ⟨by omega, by omega, by omega, by omega⟩
  · next q p r =>
    have hpush := Pushes.kron (k := k) (p := p) (q := q) (st := r) (qr := bits w 23 12) (qc := bits w 11 0) ⟨by omega, by omega, by omega, by omega⟩
    rwa [word_twelves hcode] at hpush
  · have hbit : bit w 0 = false := by
      by_contra h
      exact hplain ⟨hcode, by simpa using h⟩
    have hm : bits w 23 16 < 2 ^ 8 := bits_lt w 23 16
    have hseed : bits w 15 1 < 2 ^ 15 := bits_lt w 15 1
    have hword := word_hash hcode
    rw [hbit, show b2n false = 0 from rfl, Nat.add_zero] at hword
    have hw : wordsOf (.hash k (bits w 23 16) (bits w 15 1) none) = [w] := by rw [wordsOf, hword]
    exact hw ▸ .hash ⟨rfl, by omega, by omega, hseed, fun i hi => nomatch hi⟩
  · exact word_plain hcode hok ▸ .uni
  · exact word_plain hcode hok ▸ .int
  · next p r =>
    have hpush := Pushes.lim (k := k) (p := p) (st := r) (rb := bits w 23 12) (cb := bits w 11 0) ⟨by omega, by omega⟩
    rwa [word_twelves hcode] at hpush
  · next p r =>
    have hpush := Pushes.perm (k := k) (p := p) (st := r) (a := sgn 12 (bits w 23 12)) (b := sgn 12 (bits w 11 0)) ⟨by omega, by omega, by omega, by omega⟩
    rwa [twos_sgn hhi, twos_sgn hlo, word_twelves hcode] at hpush

/-- A hashed word and the table behind it (R387). -/
theorem pushes_table {k w raw : Nat} {st : List Pat} (hcode : w / 2 ^ 24 = 5) (hbit : bit w 0 = true) (hok : patOperandsOk w = true) (hraw : raw < 65536) :
    Pushes k [w, raw] st (.hash k (bits w 23 16) (bits w 15 1) (some raw) :: st) := by
  simp only [patOperandsOk, hcode, bne_iff_ne] at hok
  have hm : bits w 23 16 < 2 ^ 8 := bits_lt w 23 16
  have hseed : bits w 15 1 < 2 ^ 15 := bits_lt w 15 1
  have hword := word_hash hcode
  rw [hbit, show b2n true = 1 from rfl] at hword
  have hw : wordsOf (.hash k (bits w 23 16) (bits w 15 1) (some raw)) = [w, raw] := by rw [wordsOf, hword]
  exact hw ▸ .hash ⟨rfl, by omega, by omega, hseed, fun i hi => by cases hi; exact hraw⟩

theorem operandsOk_of_not {w code : Nat} (h : ¬ (code = 0 ∨ 0x0B < code ∨ (!patOperandsOk w) = true)) : patOperandsOk w = true := by
  simpa using fun hbad => h (.inr (.inr hbad))

theorem parses_of_patParse {ws : List Nat} {k : Nat} {g g' : Bool} {st : List Pat} {p : Pat} (h : patParse ws k g st = .ok (g', p))
    (hgran : k = 0 → ∀ w ∈ ws.head?, w / 2 ^ 24 ≠ 0x0A) : g' = g ∧ Parses k st ws p := by
  fun_induction patParse ws k g st with
  | case4 w ws g st code hok hcode => exact absurd hcode (hgran rfl w rfl)
  | case6 w k g code hk hok hgr hend q =>
    cases h
    have hcode : w / 2 ^ 24 = 0x0B := hend
    have hzero : bits w 23 0 = 0 := by simpa only [patOperandsOk, hcode, beq_iff_eq] using operandsOk_of_not hok
    exact ⟨rfl, word_plain hcode hzero ▸ .pend (Nat.lt_of_not_le hk)⟩
  | case11 w k g st code hk hok hgr hend htable hlen raw ws hraw ih =>
    obtain ⟨hg, hrest⟩ := ih h (fun h => nomatch h)
    refine ⟨hg, .push (us := [w, raw]) ?_ (pushes_table htable.1 htable.2 (operandsOk_of_not hok) (by omega)) ?_ hrest⟩
    · simp only [List.length_cons, List.length_nil]
      omega
    · simp only [List.length_cons]
      omega
  | case13 w ws k g st code hk hok hgr hend hplain st' hst hlen ih =>
    obtain ⟨hg, hrest⟩ := ih h (fun h => nomatch h)
    refine ⟨hg, .push (us := [w]) ?_ (pushes_patWord (operandsOk_of_not hok) hplain hst) (Nat.le_of_not_lt hlen) hrest⟩
    simp only [List.length_cons, List.length_nil]
    omega
  | _ => cases h

theorem patParse_word {w c k : Nat} {ws : List Nat} {g : Bool} {st st' : List Pat} (hk : k < 32) (hlen : st'.length ≤ 4) (hcode : w / 2 ^ 24 = c)
    (hc : 1 ≤ c ∧ c ≤ 9) (hok : patOperandsOk w = true) (hplain : c = 5 → bit w 0 = false) (h : patWord k w st = some st') :
    patParse (w :: ws) k g st = patParse ws (k + 1) g st' := by
  rw [patParse.eq_def]
  simp only [hcode, hok]
  rw [if_neg (by omega), if_neg (by simp; omega), if_neg (by omega), if_neg (by omega), if_neg (by simpa using hplain), h]
  exact if_neg (by omega)

theorem patParse_table {w k raw : Nat} {ws : List Nat} {g : Bool} {st : List Pat} (hk : k + 1 < 32) (hlen : st.length < 4) (hcode : w / 2 ^ 24 = 5)
    (hok : patOperandsOk w = true) (hbit : bit w 0 = true) (hraw : raw < 65536) :
    patParse (w :: raw :: ws) k g st = patParse ws (k + 2) g (.hash k (bits w 23 16) (bits w 15 1) (some raw) :: st) := by
  rw [patParse.eq_def]
  simp only [hcode, hok, hbit]
  rw [if_neg (by omega), if_neg (by simp), if_neg (by omega), if_neg (by omega), if_pos (by simp), if_neg (by omega), if_neg (by omega)]

/-- The model reads the words that push a pattern, and goes on behind them. -/
theorem patParse_pushes {us ws : List Nat} {k : Nat} {g : Bool} {st st' : List Pat} (h : Pushes k us st st') (hk : k + us.length ≤ 32)
    (hlen : st'.length ≤ 4) : patParse (us ++ ws) k g st = patParse ws (k + us.length) g st' := by
  cases h with
  | @band lo hi _ h =>
    obtain ⟨h1, h2, h3⟩ := h
    obtain ⟨hcode, hhi, hlo⟩ := fields_twelves (c := 1) (twos_lt 12 lo) (twos_lt 12 hi)
    have hslo := sgn_twos (w := 12) (x := lo) (by omega) (by omega)
    have hshi := sgn_twos (w := 12) (x := hi) (by omega) (by omega)
    refine patParse_word hk hlen hcode (by omega) ?_ (by omega) ?_
    · simp only [patOperandsOk, hcode, hhi, hlo, hslo, hshi, decide_eq_true h2]
    · simp only [patWord.eq_def, hcode, hhi, hlo, hslo, hshi]
  | @dil o s n _ h =>
    obtain ⟨h1, h2, h3, h4, h5, h6⟩ := h
    obtain ⟨hcode, ho, hs, hn⟩ := fields_bytes (c := 2) (twos_lt 8 o) (m := s) (l := n) (by omega) (by omega)
    have hso := sgn_twos (w := 8) (x := o) (by omega) (by omega)
    refine patParse_word hk hlen hcode (by omega) ?_ (by omega) ?_
    · simp only [patOperandsOk, hcode, hs, hn, Bool.and_eq_true, bne_iff_ne]
      omega
    · simp only [patWord.eq_def, hcode, ho, hs, hn, hso]
  | @blkd bh bw _ h =>
    obtain ⟨h1, h2, h3, h4⟩ := h
    obtain ⟨hcode, hhi, hlo⟩ := fields_twelves (c := 3) (h := bh) (l := bw) (by omega) (by omega)
    refine patParse_word hk hlen hcode (by omega) ?_ (by omega) ?_
    · simp only [patOperandsOk, hcode, hhi, hlo, Bool.and_eq_true, bne_iff_ne]
      omega
    · simp only [patWord.eq_def, hcode, hhi, hlo]
  | @hash m seed t _ h =>
    obtain ⟨-, h1, h2, h3, h4⟩ := h
    cases t with
    | none =>
      obtain ⟨hcode, hm, hseed, hbit⟩ := fields_hash (c := 5) (m := m) (seed := seed) (t := false) (by omega) (by omega)
      rw [show b2n false = 0 from rfl, Nat.add_zero] at hcode hm hseed hbit
      refine patParse_word hk hlen hcode (by omega) ?_ (fun _ => hbit) ?_
      · simp only [patOperandsOk, hcode, hm, bne_iff_ne]
        omega
      · simp only [patWord.eq_def, hcode, hm, hseed]
    | some raw =>
      obtain ⟨hcode, hm, hseed, hbit⟩ := fields_hash (c := 5) (m := m) (seed := seed) (t := true) (by omega) (by omega)
      have hok : patOperandsOk (patWordOf 5 (m * 2 ^ 16 + seed * 2 + b2n true)) = true := by
        simp only [patOperandsOk, hcode, hm, bne_iff_ne]
        omega
      have htable := patParse_table (ws := ws) (g := g) (st := st) hk hlen hcode hok hbit (h4 raw rfl)
      rwa [hm, hseed] at htable
  | @kron qr qc p q _ h =>
    obtain ⟨h1, h2, h3, h4⟩ := h
    obtain ⟨hcode, hhi, hlo⟩ := fields_twelves (c := 4) (h := qr) (l := qc) (by omega) (by omega)
    refine patParse_word hk hlen hcode (by omega) ?_ (by omega) ?_
    · simp only [patOperandsOk, hcode, hhi, hlo, Bool.and_eq_true, bne_iff_ne]
      omega
    · simp only [patWord.eq_def, hcode, hhi, hlo]
  | uni => exact patParse_word hk hlen (c := 6) rfl (by omega) rfl (by omega) rfl
  | int => exact patParse_word hk hlen (c := 7) rfl (by omega) rfl (by omega) rfl
  | @lim rb cb p _ h =>
    obtain ⟨hcode, hhi, hlo⟩ := fields_twelves (c := 8) (h := rb) (l := cb) (by omega) (by omega)
    refine patParse_word hk hlen hcode (by omega) ?_ (by omega) ?_
    · simp only [patOperandsOk, hcode]
    · simp only [patWord.eq_def, hcode, hhi, hlo]
  | @perm a b p _ h =>
    obtain ⟨h1, h2, h3, h4⟩ := h
    obtain ⟨hcode, hhi, hlo⟩ := fields_twelves (c := 9) (twos_lt 12 a) (twos_lt 12 b)
    have hsa := sgn_twos (w := 12) (x := a) (by omega) (by omega)
    have hsb := sgn_twos (w := 12) (x := b) (by omega) (by omega)
    refine patParse_word hk hlen hcode (by omega) ?_ (by omega) ?_
    · simp only [patOperandsOk, hcode]
    · simp only [patWord.eq_def, hcode, hhi, hlo, hsa, hsb]

theorem patParse_of_parses {k : Nat} {st : List Pat} {ws : List Nat} {p : Pat} (g : Bool) (h : Parses k st ws p) :
    patParse ws k g st = .ok (g, p) := by
  induction h with
  | pend hk =>
    have hcode : patWordOf 0x0B 0 / 2 ^ 24 = 0x0B := rfl
    rw [patParse.eq_def]
    simp only [hcode]
    rw [if_neg (by omega)]
    rfl
  | push hk h hst hrest ih => rw [patParse_pushes h hk hst, ih]

/-- PGRAN before a program gives its granularity (R384). -/
theorem patParse_gran {w : Nat} (ws : List Nat) (hcode : w / 2 ^ 24 = 0x0A) :
    patParse (w :: ws) 0 false [] = if bits w 23 1 = 0 then patParse ws 1 (bit w 0) [] else .error 0 := by
  rw [patParse.eq_def]
  simp only [hcode, patOperandsOk]
  by_cases h : bits w 23 1 = 0 <;> simp [h]

theorem patParse_granWord (g : Bool) (ws : List Nat) : patParse (patWordOf 0x0A (if g then 1 else 0) :: ws) 0 false [] = patParse ws 1 g [] := by
  cases g
  · rw [patParse_gran ws rfl]
    rfl
  · rw [patParse_gran ws rfl]
    rfl

theorem word_gran {w : Nat} (hcode : w / 2 ^ 24 = 0x0A) (hzero : bits w 23 1 = 0) : w = patWordOf 0x0A (if bit w 0 then 1 else 0) := by
  simp only [bits, bit, patWordOf, beq_iff_eq] at *
  split <;> omega

theorem patParse_iff (ws : List Nat) (g : Bool) (p : Pat) : patParse ws 0 false [] = .ok (g, p) ↔
    ∃ pre, ((pre = [] ∧ g = false) ∨ pre = [patWordOf 0x0A (if g then 1 else 0)]) ∧ ws = pre ++ wordsOf p ++ [patWordOf 0x0B 0] ∧
      InRange p pre.length ∧ stackOf p ≤ 4 ∧ ws.length ≤ 32 := by
  constructor
  · intro h
    by_cases hgran : ∀ w ∈ ws.head?, w / 2 ^ 24 ≠ 0x0A
    · obtain ⟨rfl, hp⟩ := parses_of_patParse h fun _ => hgran
      obtain ⟨hws, hr, hst, hlen⟩ := words_of_parses (b := 0) hp trivial rfl
      exact ⟨[], .inl ⟨rfl, rfl⟩, hws, hr, hst, by simpa using hlen⟩
    · obtain ⟨w, hw, hcode⟩ : ∃ w, w ∈ ws.head? ∧ w / 2 ^ 24 = 0x0A := by simpa using hgran
      obtain ⟨rest, rfl⟩ := List.head?_eq_some_iff.1 hw
      rw [patParse_gran rest hcode] at h
      split_ifs at h with hzero
      obtain ⟨rfl, hp⟩ := parses_of_patParse h (fun h => nomatch h)
      obtain ⟨hws, hr, hst, hlen⟩ := words_of_parses (b := 1) hp trivial rfl
      rw [stackWords, List.nil_append] at hws
      exact ⟨[w], .inr (congrArg (fun v => [v]) (word_gran hcode hzero)), congrArg (w :: ·) hws, hr, hst, by simpa [Nat.add_comm] using hlen⟩
  · rintro ⟨pre, hpre, rfl, hr, hst, hlen⟩
    have hp : Parses pre.length [] (wordsOf p ++ [patWordOf 0x0B 0]) p := by
      simp only [List.length_append, List.length_singleton] at hlen
      exact parses_wordsOf hr hst (by omega) (.pend (by omega))
    rw [List.append_assoc]
    rcases hpre with ⟨rfl, rfl⟩ | rfl
    · exact patParse_of_parses false hp
    · rw [List.singleton_append, patParse_granWord]
      exact patParse_of_parses g hp

end Sys2Proof.Proofs
end

