-- ==== Sys2Proof/Proofs/Generators.lean ====
section
/-! SUPPORT. Pattern programs as generators run them (R383, R387 to R389, R391, R395 to R398): the rows of inverse tables, the least member from a
place on, the members that a generator yields, contexts, and what PGLD, PGST, PGNX and PGRS do as they are performed. -/

namespace Sys2Proof.Proofs

open Sys2Proof Sys2Proof.Laws Sys2Proof.Machine Sys2Proof.Claims

/-! ### Inverse tables (R387, R388) -/

section
variable {n page : Nat} {q : Req} {tid base row : Nat} {ok : Nat → Bool} {stop : Stop}

/-- The rows that a table lists are taken where they are members and each is greater than the one before it; else the scan stops. -/
theorem rowScan_rowsRead {rows : List Nat} {i : Nat} {prev : Option Nat} {found : Bool} {s u : State}
    (h : rowsRead n page q tid (base + i) rows s u) :
    ((prev.toList ++ rows).IsChain (· < ·) ∧ (∀ x ∈ rows, ok x = true) →
      rowScan n page q tid base ok stop row rows.length i prev found s = .ok (found || decide (row ∈ rows)) u) ∧
    (¬ ((prev.toList ++ rows).IsChain (· < ·) ∧ ∀ x ∈ rows, ok x = true) →
      ∃ z, rowScan n page q tid base ok stop row rows.length i prev found s = .stop stop z) := by
  induction rows generalizing i prev found s with
  | nil =>
    have hu : u = s := h
    refine ⟨fun _ => by simp [rowScan, hu], fun hbad => absurd ⟨?_, by simp⟩ hbad⟩
    cases prev <;> simp
  | cons r rs ih =>
    obtain ⟨v, hword, hrest⟩ := h
    have hscan : rowScan n page q tid base ok stop row (r :: rs).length i prev found s =
        if ok r = true ∧ (∀ p ∈ prev, p < r) then rowScan n page q tid base ok stop row rs.length (i + 1) (some r) (found || r == row) v
        else .stop stop v := by
      rw [List.length_cons, rowScan, hword, XRes.bind]
      cases hok : ok r with
      | false => simp
      | true =>
        cases prev with
        | none => simp
        | some p => by_cases hp : p < r <;> simp [hp, Nat.not_le.2, Nat.not_lt.1]
    have hchain : (prev.toList ++ r :: rs).IsChain (· < ·) ↔ (∀ p ∈ prev, p < r) ∧ ((some r).toList ++ rs).IsChain (· < ·) := by
      cases prev <;> simp
    obtain ⟨hgood, hbad⟩ := ih (i := i + 1) (prev := some r) (found := found || r == row) (by rwa [← Nat.add_assoc])
    rw [hscan, hchain, List.forall_mem_cons]
    refine ⟨fun ⟨⟨hlt, hrows⟩, hr, hrs⟩ => ?_, fun hnot => ?_⟩
    · rw [if_pos ⟨hr, hlt⟩, hgood ⟨hrows, hrs⟩]
      simp [Bool.or_assoc, beq_eq_decide, eq_comm (a := row)]
    · by_cases hstep : ok r = true ∧ ∀ p ∈ prev, p < r
      · rw [if_pos hstep]
        exact hbad fun ⟨hrows, hrs⟩ => hnot ⟨⟨hstep.2, hrows⟩, hstep.1, hrs⟩
      · exact ⟨v, if_neg hstep⟩
end

theorem memT_table {n page pidx tid k m seed i rf cf r c : Nat} {q : Req} {s : State} (hr : r < rf) (hc : c < cf) :
    (Pat.hash k m seed (some i)).memT n page pidx tid q rf cf r c s = tableRow n page pidx tid q k m seed i cf r c s := by
  rw [Pat.memT, if_neg (by omega)]

/-- A hashed word with an inverse table goes by the rows that the table lists for the column (R387, R388). -/
theorem memT_rows {n page pidx tid k m seed i rf cf r c lo hi : Nat} {q : Req} {rows : List Nat} {s s1 s2 u : State} (hr : r < rf) (hc : c < cf)
    (hlo : invWord n page q i (1 + c) s = .ok lo s1) (hhi : invWord n page q i (2 + c) s1 = .ok hi s2) (hlen : hi - lo = rows.length)
    (hrows : rowsRead n page q i (cf + 2 + lo) rows s2 u) :
    (rows.Pairwise (· < ·) ∧ (∀ x ∈ rows, ∃ j, j < m ∧ (hashOf seed x j).toNat % cf = c) →
      (Pat.hash k m seed (some i)).memT n page pidx tid q rf cf r c s = .ok (decide (r ∈ rows)) u) ∧
    (¬ (rows.Pairwise (· < ·) ∧ ∀ x ∈ rows, ∃ j, j < m ∧ (hashOf seed x j).toNat % cf = c) →
      ∃ z, (Pat.hash k m seed (some i)).memT n page pidx tid q rf cf r c s = .stop (nonInv pidx tid k) z) := by
  have hscan := rowScan_rowsRead (row := r) (ok := fun x => hashMem m seed cf x c) (stop := nonInv pidx tid k) (prev := none) (found := false) hrows
  simp only [Option.toList_none, List.nil_append, List.isChain_iff_pairwise, hashMem_iff, Bool.false_or] at hscan
  rw [memT_table hr hc, tableRow, hlo, XRes.bind, hhi, XRes.bind, hlen]
  exact hscan


/-! ### Searching (R388, R397) -/

/-- What is due from a place (major, minor) on in a set of coordinates with major coordinates below `e`. -/
def DueFrom (f : Nat → Nat → Bool) (e : Nat) (a : Nat × Nat) (m : Nat × Nat) : Prop := f m.1 m.2 = true ∧ m.1 < e ∧ ¬ before m a

/-- The least of a set of coordinates whose minor ones are below `ext`, from a place on, in at most `k` major ones. -/
def leastFrom (f : Nat → Nat → Bool) (ext : Nat) : Nat → Nat → Nat → Option (Nat × Nat)
  | 0, _, _ => none
  | k + 1, a, b =>
    match findMinor (f a) (ext - b) b with
    | some c => some (a, c)
    | none => leastFrom f ext k (a + 1) 0

theorem findMinor_some {ok : Nat → Bool} {k b c : Nat} (h : findMinor ok k b = some c) :
    b ≤ c ∧ c < b + k ∧ ok c = true ∧ ∀ j, b ≤ j → j < c → ok j = false := by
  induction k generalizing b with
  | zero => cases h
  | succ k ih =>
    rw [findMinor] at h
    split at h
    next hb =>
      cases h
      exact ⟨Nat.le_refl _, by omega, hb, fun j h1 h2 => absurd h1 (by omega)⟩
    next hb =>
      obtain ⟨h1, h2, h3, h4⟩ := ih h
      refine ⟨by omega, by omega, h3, fun j hj hlt => ?_⟩
      rcases Nat.eq_or_lt_of_le hj with rfl | hj
      · simpa using hb
      · exact h4 j hj hlt

theorem findMinor_none {ok : Nat → Bool} {k b : Nat} (h : findMinor ok k b = none) : ∀ j, b ≤ j → j < b + k → ok j = false := by
  induction k generalizing b with
  | zero => exact fun j h1 h2 => absurd h1 (by omega)
  | succ k ih =>
    rw [findMinor] at h
    split at h
    next => cases h
    next hb =>
      intro j hj hlt
      rcases Nat.eq_or_lt_of_le hj with rfl | hj
      · simpa using hb
      · exact ih h j hj (by omega)

section
variable {f : Nat → Nat → Bool} {ext : Nat} (hf : ∀ a b, f a b = true → b < ext)
include hf

/-- Nothing is due in a row that has nothing from the place on. -/
theorem dueFrom_nextRow {e a b : Nat} {m : Nat × Nat} (hnone : findMinor (f a) (ext - b) b = none) (h : DueFrom f e (a, b) m) :
    DueFrom f e (a + 1, 0) m := by
  obtain ⟨hm, he, hb⟩ := h
  refine ⟨hm, he, ?_⟩
  have hne : m.1 ≠ a := fun ha => by
    have hlt := hf _ _ hm
    simp only [before] at hb
    have := findMinor_none hnone m.2 (by omega) (by omega)
    rw [← ha, hm] at this
    cases this
  simp only [before] at hb ⊢
  omega

theorem leastFrom_some {k e a b : Nat} {m : Nat × Nat} (hk : k = e - a) (h : leastFrom f ext k a b = some m) :
    DueFrom f e (a, b) m ∧ ∀ y, DueFrom f e (a, b) y → y = m ∨ before m y := by
  induction k generalizing a b with
  | zero => cases h
  | succ k ih =>
    rw [leastFrom] at h
    split at h
    next c hc =>
      cases h
      obtain ⟨h1, h2, h3, h4⟩ := findMinor_some hc
      refine ⟨⟨h3, by simp only; omega, by simp only [before]; omega⟩, fun y ⟨hy, _, hb⟩ => ?_⟩
      simp only [before, Prod.ext_iff] at hb ⊢
      by_contra hnot
      have := h4 y.2 (by omega) (by omega)
      rw [show a = y.1 by omega, hy] at this
      cases this
    next hnone =>
      obtain ⟨⟨h1, h2, h3⟩, hleast⟩ := ih (by omega) h
      refine ⟨⟨h1, h2, by simp only [before] at h3 ⊢; omega⟩, fun y hy => hleast y (dueFrom_nextRow hf hnone hy)⟩

theorem leastFrom_none {k e a b : Nat} (hk : k = e - a) (h : leastFrom f ext k a b = none) (m : Nat × Nat) : ¬ DueFrom f e (a, b) m := by
  induction k generalizing a b with
  | zero =>
    rintro ⟨-, he, hb⟩
    simp only [before] at hb
    omega
  | succ k ih =>
    rw [leastFrom] at h
    split at h
    next => cases h
    next hnone => exact fun hm => ih (by omega) h (dueFrom_nextRow hf hnone hm)
end

/-! ### Enumerations that read no table -/

theorem findMinorT_pure {f : Nat → Bool} {ok : Nat → State → XRes Bool} (h : ∀ b s, ok b s = .ok (f b) s) (k b : Nat) (s : State) :
    findMinorT ok k b s = .ok (findMinor f k b) s := by
  induction k generalizing b with
  | zero => rfl
  | succ k ih =>
    rw [findMinorT, h, findMinor, XRes.bind]
    cases f b
    · exact ih (b + 1)
    · rfl

theorem mem_bounds {p : Pat} {rf cf r c : Nat} (h : p.mem rf cf r c = true) : r < rf ∧ c < cf := by
  rw [mem_iff_member] at h
  cases p <;> exact h.1

/-- Outside its frame a pattern has no member either way (R383). -/
theorem memT_of_inside {n page pidx tid : Nat} {q : Req} {p : Pat} {rf cf r c : Nat} {s : State}
    (h : r < rf → c < cf → p.memT n page pidx tid q rf cf r c s = .ok (p.mem rf cf r c) s) :
    p.memT n page pidx tid q rf cf r c s = .ok (p.mem rf cf r c) s := by
  by_cases hout : rf ≤ r ∨ cf ≤ c
  · have hmem : p.mem rf cf r c = false := Bool.eq_false_iff.2 fun h => by
      have := mem_bounds h
      omega
    rw [hmem, Pat.memT.eq_def]
    exact if_pos hout
  · exact h (by omega) (by omega)

theorem memT_noTables {n page pidx tid : Nat} {q : Req} {p : Pat} (hp : NoTables p) (rf cf r c : Nat) (s : State) :
    p.memT n page pidx tid q rf cf r c s = .ok (p.mem rf cf r c) s := by
  induction p generalizing rf cf r c with
  | hash k m seed t =>
    obtain rfl : t = none := hp
    exact memT_of_inside fun hr hc => if_neg (by omega)
  | kron qr qc p₁ p₂ ih₁ ih₂ =>
    refine memT_of_inside fun hr hc => ?_
    rw [Pat.memT, if_neg (by omega)]
    simp only [ih₁ hp.1, ih₂ hp.2, XRes.bind]
    cases h : p₁.mem (ceilDiv rf qr) (ceilDiv cf qc) (r / qr) (c / qc) <;> simp [Pat.mem, hr, hc, h]
  | uni p₁ p₂ ih₁ ih₂ =>
    refine memT_of_inside fun hr hc => ?_
    rw [Pat.memT, if_neg (by omega)]
    simp only [ih₁ hp.1, ih₂ hp.2, XRes.bind]
    cases h : p₁.mem rf cf r c <;> simp [Pat.mem, hr, hc, h]
  | int p₁ p₂ ih₁ ih₂ =>
    refine memT_of_inside fun hr hc => ?_
    rw [Pat.memT, if_neg (by omega)]
    simp only [ih₁ hp.1, ih₂ hp.2, XRes.bind]
    cases h : p₁.mem rf cf r c <;> simp [Pat.mem, hr, hc, h]
  | lim rb cb p ih =>
    refine memT_of_inside fun hr hc => ?_
    rw [Pat.memT, if_neg (by omega)]
    simp only [ih hp]
    cases h : (rb == 0 || decide (r < 16 * rb)) && (cb == 0 || decide (c < 16 * cb)) <;> simp [Pat.mem, hr, hc, h]
  | perm a b p ih =>
    refine memT_of_inside fun hr hc => ?_
    rw [Pat.memT, if_neg (by omega)]
    simp [ih hp, Pat.mem, hr, hc]
  | band lo hi => exact memT_of_inside fun hr hc => if_neg (by omega)
  | dil o st n => exact memT_of_inside fun hr hc => if_neg (by omega)
  | blkd bh bw => exact memT_of_inside fun hr hc => if_neg (by omega)

theorem checkColumn_noTables {n page pidx tid : Nat} {q : Req} {p : Pat} (hp : NoTables p) (cf c : Nat) (s : State) :
    p.checkColumn n page pidx tid q cf c s = .ok () s := by
  induction p generalizing cf c with
  | hash k m seed t =>
    obtain rfl : t = none := hp
    rfl
  | kron qr qc p₁ p₂ ih₁ ih₂ => rw [Pat.checkColumn, ih₁ hp.1, XRes.bind, ih₂ hp.2]
  | uni p₁ p₂ ih₁ ih₂ => rw [Pat.checkColumn, ih₁ hp.1, XRes.bind, ih₂ hp.2]
  | int p₁ p₂ ih₁ ih₂ => rw [Pat.checkColumn, ih₁ hp.1, XRes.bind, ih₂ hp.2]
  | lim rb cb p ih => exact ih hp ..
  | perm a b p ih => exact ih hp ..
  | _ => rfl

/-- Members of a pattern as an enumeration takes them: by major and minor coordinate (R388). -/
def majorMinor (p : Pat) (dir : Bool) (rf cf a b : Nat) : Bool := if dir then p.mem rf cf b a else p.mem rf cf a b

theorem next_pure {n page pidx tid : Nat} {q : Req} {p : Pat} {dir : Bool} (hp : dir = false ∨ NoTables p) (rf cf k a b : Nat) (s : State) :
    p.next n page pidx tid q dir rf cf k a b s = .ok (leastFrom (majorMinor p dir rf cf) (if dir then rf else cf) k a b) s := by
  induction k generalizing a b with
  | zero => rfl
  | succ k ih =>
    cases dir with
    | false =>
      have hrow : majorMinor p false rf cf a = fun c => p.mem rf cf a c := rfl
      rw [Pat.next, leastFrom, if_neg Bool.false_ne_true, if_neg Bool.false_ne_true, hrow]
      cases findMinor (fun c => p.mem rf cf a c) (cf - b) b with
      | none => exact ih ..
      | some c => rfl
    | true =>
      have htables : NoTables p := by simpa using hp
      have hrow : majorMinor p true rf cf a = fun r => p.mem rf cf r a := rfl
      rw [Pat.next, leastFrom, if_pos rfl, if_pos rfl, hrow, checkColumn_noTables htables, XRes.bind,
        findMinorT_pure (f := fun r => p.mem rf cf r a) (fun r t => memT_noTables htables rf cf r a t), XRes.bind]
      cases findMinor (fun r => p.mem rf cf r a) (rf - b) b with
      | none => exact ih ..
      | some c => rfl

/-! ### The members that a generator yields (R388, R397) -/

/-- A member that is due to a generator of a pattern (R397). -/
def Due (v : Gen) (p : Pat) (m : Nat × Nat) : Prop :=
  (if v.dir then Member p v.rf.toNat v.cf.toNat m.2 m.1 else Member p v.rf.toNat v.cf.toNat m.1 m.2) ∧
    m.1 < v.emaj.toNat ∧ ¬ before m (v.cmaj.toNat, v.cmin.toNat)

/-- The next members of a generator, at most `k`, in order, with none left out. -/
def YieldsUpTo (k : Nat) (v : Gen) (p : Pat) (ys : List (Nat × Nat)) : Prop :=
  ys.length ≤ k ∧ ys.Pairwise before ∧ (∀ m ∈ ys, Due v p m) ∧ ∀ m, Due v p m → m ∈ ys ∨ (ys.length = k ∧ ∀ y ∈ ys, before y m)

theorem yields_iff (v : Gen) (p : Pat) (ys : List (Nat × Nat)) : Yields v p ys ↔ YieldsUpTo 8 v p ys := Iff.rfl

/-- The minor coordinates of a generator's frame. -/
def minors (v : Gen) : Nat := if v.dir then v.rf.toNat else v.cf.toNat

/-- The cursor behind the members taken, or where it stood. -/
def cursorAfter (v : Gen) (ys : List (Nat × Nat)) : Nat × Nat :=
  match ys.getLast? with
  | some m => successor v m
  | none => (v.cmaj.toNat, v.cmin.toNat)

/-- A running generator after it has been asked for `k` members and has yielded some (R397). -/
def genAfter (v : Gen) (k : Nat) (ys : List (Nat × Nat)) : Gen :=
  { v with cmaj := BitVec.ofNat 32 (cursorAfter v ys).1, cmin := BitVec.ofNat 32 (cursorAfter v ys).2,
           yld := v.yld + BitVec.ofNat 32 ys.length, st := if ys.length = k then .running else .ended }

/-- The lanes of `k` members, all ones where there are fewer (R397). -/
def memberLanes (dir : Bool) : Nat → List (Nat × Nat) → List Nat
  | 0, _ => []
  | k + 1, [] => 0xFFFFFFFF :: 0xFFFFFFFF :: memberLanes dir k []
  | k + 1, m :: ys => (if dir then m.2 else m.1) :: (if dir then m.1 else m.2) :: memberLanes dir k ys

theorem due_iff {v : Gen} {p : Pat} {m : Nat × Nat} :
    Due v p m ↔ DueFrom (majorMinor p v.dir v.rf.toNat v.cf.toNat) v.emaj.toNat (v.cmaj.toNat, v.cmin.toNat) m := by
  rw [Due, DueFrom, majorMinor]
  cases v.dir <;> simp [mem_iff_member]

theorem majorMinor_minor {p : Pat} {dir : Bool} {rf cf a b : Nat} (h : majorMinor p dir rf cf a b = true) : b < if dir then rf else cf := by
  cases dir
  · exact (mem_bounds h).2
  · exact (mem_bounds h).1

/-- A generator whose cursor has moved behind a member, which it counts. -/
def genBehind (v : Gen) (m : Nat × Nat) : Gen :=
  { v with cmaj := BitVec.ofNat 32 (successor v m).1, cmin := BitVec.ofNat 32 (successor v m).2, yld := v.yld + 1 }

theorem due_minor {v : Gen} {p : Pat} {m : Nat × Nat} (h : Due v p m) : m.2 < minors v := majorMinor_minor (due_iff.1 h).1

theorem successor_eq (v : Gen) (m : Nat × Nat) : successor v m = if m.2 + 1 < minors v then (m.1, m.2 + 1) else (m.1 + 1, 0) := rfl

theorem successor_fits {v : Gen} {p : Pat} {m : Nat × Nat} (h : Due v p m) :
    (genBehind v m).cmaj.toNat = (successor v m).1 ∧ (genBehind v m).cmin.toNat = (successor v m).2 := by
  have hmin := due_minor h
  have hmaj := h.2.1
  have hlt : minors v < 2 ^ 32 := by
    rw [minors]
    split
    · exact v.rf.isLt
    · exact v.cf.isLt
  have he := v.emaj.isLt
  simp only [genBehind, successor_eq, BitVec.toNat_ofNat]
  split <;> exact ⟨Nat.mod_eq_of_lt (by simp only; omega), Nat.mod_eq_of_lt (by simp only; omega)⟩

/-- Behind a member that was due, what follows it is due. -/
theorem due_genBehind {v : Gen} {p : Pat} {m y : Nat × Nat} (hm : Due v p m) : Due (genBehind v m) p y ↔ Due v p y ∧ before m y := by
  obtain ⟨hmaj, hmin⟩ := successor_fits hm
  have hmm := due_minor hm
  obtain ⟨-, -, hcur⟩ := hm
  have hkey : ∀ y : Nat × Nat, y.2 < minors v → (¬ before y (successor v m) ↔ before m y) := fun y hy => by
    simp only [before, successor_eq] at *
    split <;> omega
  have hcur' : before m y → ¬ before y (v.cmaj.toNat, v.cmin.toNat) := by
    simp only [before] at *
    omega
  constructor
  · intro hy
    have hy2 : y.2 < minors (genBehind v m) := due_minor hy
    obtain ⟨hmem, he, hb⟩ := hy
    rw [hmaj, hmin] at hb
    have hbefore := (hkey y hy2).1 hb
    exact ⟨⟨hmem, he, hcur' hbefore⟩, hbefore⟩
  · rintro ⟨hy, hbefore⟩
    refine ⟨hy.1, hy.2.1, ?_⟩
    rw [hmaj, hmin]
    exact (hkey y (due_minor hy)).2 hbefore

/-- A member that is least among those due, then those that are due behind it. -/
theorem yieldsUpTo_cons {k : Nat} {v : Gen} {p : Pat} {m : Nat × Nat} {ys : List (Nat × Nat)} (hm : Due v p m)
    (hleast : ∀ y, Due v p y → y = m ∨ before m y) (h : YieldsUpTo k (genBehind v m) p ys) : YieldsUpTo (k + 1) v p (m :: ys) := by
  obtain ⟨hlen, hsorted, hdue, hall⟩ := h
  have hys : ∀ y ∈ ys, Due v p y ∧ before m y := fun y hy => (due_genBehind hm).1 (hdue y hy)
  refine ⟨Nat.succ_le_succ hlen, List.pairwise_cons.2 ⟨fun y hy => (hys y hy).2, hsorted⟩, ?_, fun y hy => ?_⟩
  · exact List.forall_mem_cons.2 ⟨hm, fun y hy => (hys y hy).1⟩
  · rcases hleast y hy with rfl | hbefore
    · exact .inl (List.mem_cons_self ..)
    · rcases hall y ((due_genBehind hm).2 ⟨hy, hbefore⟩) with hmem | ⟨hfull, hlast⟩
      · exact .inl (List.mem_cons_of_mem _ hmem)
      · exact .inr ⟨congrArg (· + 1) hfull, List.forall_mem_cons.2 ⟨hbefore, hlast⟩⟩

theorem genAfter_cons {k : Nat} {v : Gen} {p : Pat} {m : Nat × Nat} {ys : List (Nat × Nat)} (hm : Due v p m) :
    genAfter (genBehind v m) k ys = genAfter v (k + 1) (m :: ys) := by
  have hcur : cursorAfter (genBehind v m) ys = cursorAfter v (m :: ys) := by
    obtain ⟨hmaj, hmin⟩ := successor_fits hm
    cases ys with
    | nil => exact Prod.ext hmaj hmin
    | cons y ys => simp only [cursorAfter, List.getLast?_cons_cons]; rfl
  have hyld : v.yld + 1 + BitVec.ofNat 32 ys.length = v.yld + BitVec.ofNat 32 (m :: ys).length := by
    rw [List.length_cons, BitVec.ofNat_add, BitVec.add_assoc, BitVec.add_comm 1]
    rfl
  simp only [genAfter, hcur]
  simp only [genBehind, hyld, List.length_cons, Nat.add_right_cancel_iff]

theorem genAfter_nil (v : Gen) (k : Nat) : genAfter v k [] = { v with st := if 0 = k then .running else .ended } := by
  simp [genAfter, cursorAfter]

theorem yieldMembers_idle {n page k : Nat} {q : Req} {p : Pat} {v : Gen} {s : State} (h : v.st ≠ .running) :
    yieldMembers n page q p k v s = .ok (memberLanes v.dir k [], v) s := by
  induction k with
  | zero => rfl
  | succ k ih => rw [yieldMembers, if_pos h, ih]; rfl

theorem memberLanes_nil (d e : Bool) (k : Nat) : memberLanes d k [] = memberLanes e k [] := by
  induction k with
  | zero => rfl
  | succ k ih => rw [memberLanes, memberLanes, ih]

theorem yieldMembers_running {n page k : Nat} {q : Req} {p : Pat} {v : Gen} (s : State) (hrun : v.st = .running) (hp : v.dir = false ∨ NoTables p) :
    ∃ ys, YieldsUpTo k v p ys ∧ yieldMembers n page q p k v s = .ok (memberLanes v.dir k ys, genAfter v k ys) s := by
  induction k generalizing v with
  | zero =>
    refine ⟨[], ⟨Nat.le_refl 0, .nil, fun _ h => (nomatch h), fun _ _ => .inr ⟨rfl, fun _ h => (nomatch h)⟩⟩, ?_⟩
    rw [yieldMembers, genAfter_nil, if_pos rfl, ← hrun]
    rfl
  | succ k ih =>
    rw [yieldMembers, if_neg (not_not.2 hrun), next_pure hp, XRes.bind]
    cases hleast : leastFrom (majorMinor p v.dir v.rf.toNat v.cf.toNat) (if v.dir = true then v.rf.toNat else v.cf.toNat)
      (v.emaj.toNat - v.cmaj.toNat) v.cmaj.toNat v.cmin.toNat with
    | none =>
      have hnone : ∀ m, ¬ Due v p m := fun m hm => leastFrom_none (fun _ _ => majorMinor_minor) rfl hleast m (due_iff.1 hm)
      refine ⟨[], ⟨Nat.zero_le _, .nil, fun _ h => (nomatch h), fun m hm => absurd hm (hnone m)⟩, ?_⟩
      rw [genAfter_nil, if_neg (Nat.succ_ne_zero k).symm, yieldMembers_idle (v := { v with st := .ended }) (fun h => nomatch h)]
      rfl
    | some m =>
      obtain ⟨hm, hmin⟩ := leastFrom_some (fun _ _ => majorMinor_minor) rfl hleast
      have hdue : Due v p m := due_iff.2 hm
      obtain ⟨ys, hys, hrest⟩ := ih (v := genBehind v m) hrun hp
      refine ⟨m :: ys, yieldsUpTo_cons hdue (fun y hy => hmin y (due_iff.1 hy)) hys, ?_⟩
      refine (congrArg (fun r => XRes.bind r _) hrest).trans ?_
      rw [XRes.bind, genAfter_cons hdue, show (genBehind v m).dir = v.dir from rfl, memberLanes]
      cases v.dir <;> rfl

/-! ### Lanes of members -/

theorem memberLanes_length (dir : Bool) (k : Nat) (ys : List (Nat × Nat)) : (memberLanes dir k ys).length = 2 * k := by
  induction k generalizing ys with
  | zero => rfl
  | succ k ih => cases ys <;> simp [memberLanes, ih, Nat.mul_add]

theorem memberLanes_getD (dir : Bool) {k i : Nat} (hi : i < k) (ys : List (Nat × Nat)) :
    (memberLanes dir k ys).getD (2 * i) 0 = (ys[i]?).elim 0xFFFFFFFF (fun m => if dir then m.2 else m.1) ∧
      (memberLanes dir k ys).getD (2 * i + 1) 0 = (ys[i]?).elim 0xFFFFFFFF (fun m => if dir then m.1 else m.2) := by
  induction k generalizing i ys with
  | zero => exact absurd hi (Nat.not_lt_zero i)
  | succ k ih =>
    cases i with
    | zero => cases ys <;> exact ⟨rfl, rfl⟩
    | succ i => cases ys with
      | nil => exact ih (by omega) []
      | cons m ys => exact ih (by omega) ys

/-- The payload of eight members holds them in pairs of lanes (R397). -/
theorem el_memberLanes (dir : Bool) {i : Nat} (hi : i < 8) (ys : List (Nat × Nat)) :
    el 32 (ofEls 32 (memberLanes dir 8 ys)) (2 * i) = BitVec.ofNat 32 ((ys[i]?).elim 0xFFFFFFFF (fun m => if dir then m.2 else m.1)) ∧
      el 32 (ofEls 32 (memberLanes dir 8 ys)) (2 * i + 1) = BitVec.ofNat 32 ((ys[i]?).elim 0xFFFFFFFF (fun m => if dir then m.1 else m.2)) := by
  have hlen : 32 * (memberLanes dir 8 ys).length ≤ 512 := by rw [memberLanes_length]
  obtain ⟨h0, h1⟩ := memberLanes_getD dir hi ys
  exact ⟨(extract_ofEls 32 _ _ hlen).trans (congrArg _ h0), (extract_ofEls 32 _ _ hlen).trans (congrArg _ h1)⟩

theorem ofEls_allOnes : ofEls 32 (memberLanes false 8 []) = BitVec.allOnes 512 := by decide +kernel

/-! ### Contexts (R391, R398) -/

/-- The lowest elements of a number, packed again. -/
theorem packNat_digits (w n k : Nat) : packNat w ((List.range k).map fun j => n / 2 ^ (w * j) % 2 ^ w) = n % 2 ^ (w * k) := by
  induction k generalizing n with
  | zero => simp [packNat, Nat.mod_one]
  | succ k ih =>
    have hshift : ∀ j, n / 2 ^ (w * (j + 1)) = n / 2 ^ w / 2 ^ (w * j) := fun j => by
      rw [Nat.div_div_eq_div_mul, ← Nat.pow_add, Nat.mul_add, Nat.mul_one, Nat.add_comm]
    rw [List.range_succ_eq_map, List.map_cons, List.map_map, packNat]
    simp only [Function.comp_def, Nat.succ_eq_add_one, hshift]
    rw [ih, Nat.mul_zero, pow_zero, Nat.div_one, Nat.mod_mod, Nat.mul_add, Nat.mul_one, Nat.add_comm (w * k), Nat.pow_add, Nat.mod_mul]

/-- A payload whose elements from `k` on are zero is that of its first `k`. -/
theorem ofEls_elAt {p : Payload} {k : Nat} (h : p.toNat < 2 ^ (32 * k)) : ofEls 32 ((List.range k).map (elAt 32 p)) = p := by
  have hpack := packNat_digits 32 p.toNat k
  rw [Nat.mod_eq_of_lt h] at hpack
  exact (congrArg (BitVec.ofNat 512) hpack).trans (by simp)

theorem stCode_genOfContext {p : Payload} {prog : List Word} (h : bits (elAt 32 p 0) 18 16 < 4) :
    (genOfContext p prog).st.code = bits (elAt 32 p 0) 18 16 := by
  rw [genOfContext]
  simp only
  generalize bits (elAt 32 p 0) 18 16 = c at *
  interval_cases c <;> rfl

theorem genOfContext_idle {p : Payload} {prog : List Word} : (genOfContext p prog).st = .idle ↔ bits (elAt 32 p 0) 18 16 = 0 := by
  rw [genOfContext]
  dsimp only
  split <;> simp_all

theorem genOfContext_running {p : Payload} {prog : List Word} : (genOfContext p prog).st = .running ↔ bits (elAt 32 p 0) 18 16 = 2 := by
  rw [genOfContext]
  dsimp only
  split <;> simp_all

theorem tid_genOfContext {p : Payload} {prog : List Word} (h : contextOk p = true) : (genOfContext p prog).tid.toNat = elAt 32 p 1 := by
  simp only [contextOk, Bool.and_eq_true, beq_iff_eq] at h
  simp only [genOfContext, BitVec.toNat_ofNat]
  omega

/-- A context gives back the payload that it was taken from (R391, R398). -/
theorem context_genOfContext {p : Payload} {prog : List Word} (h : contextOk p = true) : (genOfContext p prog).context = p := by
  have htid := tid_genOfContext (prog := prog) h
  simp only [contextOk, Bool.and_eq_true, beq_iff_eq, decide_eq_true_eq] at h
  obtain ⟨⟨⟨hword, hst⟩, -⟩, hhigh⟩ := h
  have hhead : b2n (genOfContext p prog).dir * 2 ^ 20 + b2n (genOfContext p prog).gran * 2 ^ 19 + (genOfContext p prog).st.code * 2 ^ 16 +
      (genOfContext p prog).pidx.toNat = elAt 32 p 0 := by
    rw [stCode_genOfContext hst]
    simp only [genOfContext, b2n, bit, bits, beq_iff_eq, BitVec.toNat_ofNat]
    split <;> split <;> omega
  have hlane : ∀ j, (lane p j).toNat = elAt 32 p j := fun j => by
    rw [lane, BitVec.toNat_ofNat, elAt_mod]
  refine Eq.trans ?_ (ofEls_elAt (p := p) (k := 8) (by omega))
  rw [Gen.context, hhead, htid]
  simp only [genOfContext, hlane]
  rfl

/-! ### Performing the pattern instructions (R395 to R398) -/

theorem elem_modElem {s : State} {e : Nat} {x : Elem} (f : Elem → Elem) (h : s.elem? e = some x) : (s.modElem e f).elem? e = some (f x) := by
  rw [State.modElem, h]
  exact look_put_same e (f x) s.elems

theorem setAt_getD {α : Type} (d : α) {l : List α} {i : Nat} (h : i < l.length) : setAt l i (l.getD i d) = l := by
  induction l generalizing i with
  | nil => cases h
  | cons a l ih =>
    cases i with
    | zero => rfl
    | succ i => exact congrArg (a :: ·) (ih (by simpa using h))

/-- An access completes with a payload, and of the generators of its element, which were those of `y`, one has been set. -/
def SetsGen (a : Access) (e n : Nat) (s : State) (d : Payload) (y : Elem) (g : Nat) (w : Gen) : Prop :=
  ∃ z y', accDo a e n s = .ok (⟨.data, d, none⟩, 0) z ∧ z.elem? e = some y' ∧ y'.cur.gens = setAt y.cur.gens g w

theorem setsGen {a : Access} {e n g : Nat} {s t : State} {y : Elem} {d : Payload} {w : Gen} (hy : t.elem? e = some y)
    (h : accDo a e n s = .ok (⟨.data, d, none⟩, 0) (t.modElem e fun x => x.setGen g w)) : SetsGen a e n s d y g w :=
  ⟨_, _, h, elem_modElem _ hy, rfl⟩

/-- PGLD performed (R383, R395). -/
theorem setsGen_pgld {s t u w : State} {e n g : Nat} {a : Access} {y : Elem} {o : Obj} {ws : List Nat} {gran : Bool} {p : Pat} (hop : a.op = .pgld g)
    (hchk : pgldChk e n a s = .ok () u) (hobj : u.object n (a.req e) (tokTid a.tok) = .ok o w)
    (hload : loadProg n (a.req e) (dPat o.d) a.port a.tok.toNat w = .ok (ws, gran, p) t) (hy : t.elem? e = some y) :
    let rows := if dNdim o.d < 2 then 1 else dSize o.d 1
    let cols := dSize o.d 0
    SetsGen a e n s 1 y g
      { gran := gran, st := .loaded, pidx := BitVec.ofNat 16 (dPat o.d), tid := BitVec.ofNat 16 (tokTid a.tok), prog := ws.map (BitVec.ofNat 32),
        rf := BitVec.ofNat 32 (if gran then (rows + 15) / 16 else rows), cf := BitVec.ofNat 32 (if gran then (cols + 15) / 16 else cols) } := by
  have hdo : accDo a e n s = doPgld g e n a s := by rw [accDo, hop]
  refine setsGen hy ?_
  rw [hdo, doPgld, hchk, XRes.bind, hobj, XRes.bind, hload, XRes.bind]
  cases gran <;> rfl

section
variable {s t : State} {e n g : Nat} {a : Access} {x y : Elem} {p : Pat} {trn : Bool} (hx : s.elem? e = some x)
include hx

theorem doPgst_idle (hst : (x.gen g).st = .idle) : doPgst g trn e n a s = .stop noProgram s := by
  rw [doPgst, hx]
  dsimp only
  rw [hst]

theorem doPgst_noInverse {k : Nat} (hst : (x.gen g).st ≠ .idle) (hp : (x.gen g).pat = some p) (hk : p.noInverse = some k) :
    doPgst g true e n a s = .stop (nonInv (x.gen g).pidx.toNat (x.gen g).tid.toNat k) s := by
  rw [doPgst, hx]
  dsimp only
  cases hst' : (x.gen g).st with
  | idle => exact absurd hst' hst
  | _ => simp [hp, inverseChk, hk]

/-- PGST starts an enumeration that it can make: one by rows, or a transposed one of a pattern with an inverse and tables of the frame (R387, R396). -/
theorem doPgst_starts (hst : (x.gen g).st ≠ .idle) (hp : (x.gen g).pat = some p)
    (h : (trn = false ∧ t = s) ∨ (trn = true ∧ p.noInverse = none ∧
      p.checkTables n (pageOf e) (x.gen g).pidx.toNat (x.gen g).tid.toNat (a.req e) (x.gen g).cf.toNat s = .ok () t)) :
    let ext := if trn then (x.gen g).cf.toNat else (x.gen g).rf.toNat
    let last := if elAt 32 a.l 1 = 0xFFFFFFFF then ext else min (elAt 32 a.l 1) ext
    doPgst g trn e n a s = .ok (doneTok none, 0) (t.modElem e fun x' => x'.setGen g
      { x.gen g with dir := trn, emaj := BitVec.ofNat 32 last, cmaj := BitVec.ofNat 32 (elAt 32 a.l 0), cmin := 0, yld := 0,
                     st := if last ≤ elAt 32 a.l 0 then .ended else .running }) := by
  rw [doPgst, hx]
  dsimp only
  cases hst' : (x.gen g).st with
  | idle => exact absurd hst' hst
  | _ =>
    rcases h with ⟨rfl, rfl⟩ | ⟨rfl, hk, hchk⟩
    · simp [hp, XRes.bind]
    · simp [hp, XRes.bind, inverseChk, hk, hchk]

/-- PGNX of a generator that is not running yields all ones and leaves the generators (R397). -/
theorem accDo_pgnx_idle (hop : a.op = .pgnx g) (hg : g < x.cur.gens.length) (hst : (x.gen g).st ≠ .running) :
    ∃ z, accDo a e n s = .ok (⟨.data, BitVec.allOnes 512, none⟩, 0) z ∧ (z.elem? e).map (·.cur.gens) = some x.cur.gens := by
  have hdo : accDo a e n s = doPgnx g e n a s := by rw [accDo, hop]
  rw [hdo, doPgnx, hx]
  dsimp only
  cases hp : (x.gen g).pat with
  | none => exact ⟨s, congrArg (fun d => XRes.ok (dataTok d none, 0) s) ofEls_allOnes, by rw [hx]; rfl⟩
  | some p =>
    dsimp only
    rw [yieldMembers_idle hst, XRes.bind, memberLanes_nil _ false, ofEls_allOnes]
    refine ⟨_, rfl, ?_⟩
    rw [elem_modElem _ hx]
    exact congrArg some (setAt_getD (d := ({} : Gen)) hg)

theorem accDo_pgnx_running (hop : a.op = .pgnx g) (hst : (x.gen g).st = .running) (hp : (x.gen g).pat = some p)
    (hdir : (x.gen g).dir = false ∨ NoTables p) :
    ∃ ys, Yields (x.gen g) p ys ∧ accDo a e n s = .ok (dataTok (ofEls 32 (memberLanes (x.gen g).dir 8 ys)) none, 0)
      (s.modElem e fun x' => x'.setGen g (genAfter (x.gen g) 8 ys)) := by
  obtain ⟨ys, hys, hyield⟩ := yieldMembers_running (n := n) (page := pageOf e) (q := a.req e) (k := 8) s hst hdir
  refine ⟨ys, (yields_iff ..).2 hys, ?_⟩
  have hdo : accDo a e n s = doPgnx g e n a s := by rw [accDo, hop]
  rw [hdo, doPgnx, hx]
  dsimp only
  rw [hp]
  dsimp only
  rw [hyield, XRes.bind]
end

theorem contextOk_iff (a : Payload) : contextOk a = true ↔ (el 32 a 0).toNat < 2 ^ 21 ∧ Sys2Proof.fld (el 32 a 0).toNat 16 3 < 4 ∧
    (el 32 a 1).toNat < 2 ^ 16 ∧ a.toNat < 2 ^ 256 := by
  have h0 : (el 32 a 0).toNat = elAt 32 a 0 := (elAt_eq 32 a 0).symm
  have h1 : (el 32 a 1).toNat = elAt 32 a 1 := (elAt_eq 32 a 1).symm
  rw [h0, h1]
  simp only [contextOk, Bool.and_eq_true, beq_iff_eq, and_assoc, Nat.div_eq_zero_iff, fld, bits]
  norm_num

/-- PGRS of a context takes it back, with its program where one is loaded (R391, R398). -/
theorem setsGen_pgrs {s t : State} {e n g : Nat} {a : Access} {y : Elem} {ws : List Nat} {gran : Bool} {p : Pat} (hop : a.op = .pgrs g)
    (hfits : contextOk a.l = true) (hy : t.elem? e = some y)
    (h : (bits (elAt 32 a.l 0) 18 16 = 0 ∧ ws = [] ∧ t = s) ∨
      (bits (elAt 32 a.l 0) 18 16 ≠ 0 ∧ (bits (elAt 32 a.l 0) 18 16 = 2 → bit (elAt 32 a.l 0) 20 = true → p.noInverse = none) ∧
        loadProg n (a.req e) (elAt 32 a.l 0 % 65536) a.port (elAt 32 a.l 1 * 2 ^ 48) s = .ok (ws, gran, p) t)) :
    SetsGen a e n s 1 y g (genOfContext a.l (ws.map (BitVec.ofNat 32))) := by
  have hdo : accDo a e n s = doPgrs g e n a s := by rw [accDo, hop]
  have hchk : pgrsChk e n a s = .ok () s := if_pos hfits
  refine setsGen hy ?_
  rw [hdo, doPgrs, hchk, XRes.bind]
  dsimp only
  rcases h with ⟨hidle, rfl, rfl⟩ | ⟨hst, hinv, hload⟩
  · rw [if_pos (genOfContext_idle.2 hidle)]
    rfl
  · have hpidx : (genOfContext a.l []).pidx.toNat = elAt 32 a.l 0 % 65536 := BitVec.toNat_ofNat ..
    rw [if_neg (mt genOfContext_idle.1 hst), hpidx, tid_genOfContext hfits, hload, XRes.bind]
    have hmake : (if (genOfContext a.l []).dir && (genOfContext a.l []).st == .running then inverseChk (genOfContext a.l []) p else none) = none := by
      refine ite_eq_right_iff.2 fun hrun => ?_
      obtain ⟨hdir, hrunning⟩ : bit (elAt 32 a.l 0) 20 = true ∧ (genOfContext a.l []).st = .running := by
        rwa [Bool.and_eq_true, beq_iff_eq] at hrun
      rw [inverseChk, hinv (genOfContext_running.1 hrunning) hdir, Option.map_none]
    dsimp only
    rw [hmake]
    rfl

/-- PGRS refuses what is no context (R398). -/
theorem accDo_pgrs_refused {s : State} {e n g : Nat} {a : Access} (hop : a.op = .pgrs g) (h : contextOk a.l ≠ true) :
    accDo a e n s = .stop (.trap 1 0 0 0) s := by
  have hdo : accDo a e n s = doPgrs g e n a s := by rw [accDo, hop]
  have hchk : pgrsChk e n a s = .stop (.trap 1 0 0 0) s := if_neg h
  rw [hdo, doPgrs, hchk, XRes.bind]

/-! ### The statement -/

theorem toNat_el (w : Nat) (p : Payload) (j : Nat) : (el w p j).toNat = elAt w p j := (elAt_eq w p j).symm

theorem el_eq_ones (p : Payload) (j : Nat) : el 32 p j = 0xFFFFFFFF ↔ elAt 32 p j = 0xFFFFFFFF := by
  rw [← toNat_el, ← BitVec.toNat_inj]
  rfl

theorem getLsbD_el (w : Nat) (p : Payload) (j i : Nat) : (el w p j).getLsbD i = bit (elAt w p j) i := by
  rw [← BitVec.testBit_toNat, toNat_el, Nat.testBit_eq_decide_div_mod_eq]
  rfl

theorem fld_state (x : Nat) : Sys2Proof.fld x 16 3 = bits x 18 16 := rfl

theorem nonInv_gen (v : Gen) (k : Nat) :
    nonInv v.pidx.toNat v.tid.toNat k = .trap 5 0 (v.pidx.toNat * 65536 + k % 256) (v.tid.toNat * 2 ^ 48) := by
  rw [nonInv, Nat.mod_eq_of_lt v.pidx.isLt]
  rfl

/-- Settles O26: membership, parsing and inverses by induction over the pattern; what each instruction does with the generators of its element. -/
theorem patternSets : Obligations.PatternSets := by
  refine ⟨mem_iff_member, patParse_iff, noInverse_iff, ?_, ?_⟩
  · intro s s1 s2 u n page pidx tid k m seed i rf cf r c lo hi q rows hr hc hlo hhi hlen hrows
    exact memT_rows hr hc hlo hhi hlen hrows
  intro s t e n a x y g hx hy hgx hgy v
  refine ⟨?_, ?_, ?_, ?_⟩
  · intro u o ws gran p hop hchk w hobj hload
    exact setsGen_pgld hop hchk hobj hload hy
  · intro trn hop
    have hdo : accDo a e n s = doPgst g trn e n a s := by rw [accDo, hop]
    refine ⟨fun hst => hdo.trans (doPgst_idle hx hst), fun hst p hp => ⟨?_, fun h => ?_⟩⟩
    · rintro rfl k hk
      rw [hdo, doPgst_noInverse hx hst hp hk, nonInv_gen]
    · simp only [toNat_el, el_eq_ones]
      exact setsGen hy (hdo.trans (doPgst_starts hx hst hp h))
  · intro hop
    refine ⟨accDo_pgnx_idle hx hop hgx, fun hst p hp hdir => ?_⟩
    obtain ⟨ys, hys, hdo⟩ := accDo_pgnx_running (n := n) hx hop hst hp hdir
    refine ⟨ys, _, _, _, hys, hdo, elem_modElem _ hx, State_modElem_mem .., fun i hi => ?_, rfl⟩
    obtain ⟨h0, h1⟩ := el_memberLanes v.dir hi ys
    rw [h0, h1]
    cases ys[i]? <;> exact ⟨rfl, rfl⟩
  · intro hop
    refine ⟨fun hnot => accDo_pgrs_refused hop fun h => hnot ((contextOk_iff a.l).1 h), fun hfits ws gran p h => ?_⟩
    have hok := (contextOk_iff a.l).2 hfits
    simp only [toNat_el, getLsbD_el, fld_state] at h
    obtain ⟨z, y', hdo, hz, hgens⟩ := setsGen_pgrs hop hok hy h
    exact ⟨z, y', _, hdo, hz, hgens, context_genOfContext hok, rfl⟩

end Sys2Proof.Proofs
end

