-- ==== Sys2Proof/Proofs/SystemInstructions.lean ====
section
/-! SUPPORT. TRAP, BRK, CSRR, CSRW, EQRD, OBSR and HALTR (R98, R329, R334, R344 to R347, R431, R455): the tokens that they send, as the statements
write them, and what each answers once its slot goes. -/

namespace Sys2Proof.Proofs

open Sys2Proof Sys2Proof.Machine Sys2Proof.Claims Sys2Proof.Laws

/-! ### Payloads of few lanes -/

theorem ofEls_one (w n : Nat) : ofEls w [n] = (BitVec.ofNat w n).setWidth 512 := by
  rw [← ofEls_singleton, BitVec.toNat_ofNat]
  simp only [ofEls, packNat, Nat.mod_mod]

theorem lane0_eq (n : Nat) : lane0 n = (BitVec.ofNat 32 n).setWidth 512 := ofEls_one 32 n

theorem scalar64_eq (n : Nat) : scalar64 n = (BitVec.ofNat 64 n).setWidth 512 := ofEls_one 64 n

theorem dataTok_lane0 (n : Nat) (tag : Option (BitVec 16)) : dataTok (lane0 n) tag = numTok n tag := by
  rw [dataTok, lane0_eq, numTok]

theorem dataTok_scalar64 (n : Nat) (tag : Option (BitVec 16)) : dataTok (scalar64 n) tag = numTok64 n tag := by
  rw [dataTok, scalar64_eq, numTok64]

theorem ofEls_eq_lanesOf (xs : List Nat) : ofEls 32 xs = lanesOf xs := by
  induction xs with
  | nil => rfl
  | cons x xs ih =>
    rw [lanesOf, List.foldr_cons, ← lanesOf, ← ih]
    apply BitVec.eq_of_toNat_eq
    have hx : x % 2 ^ 32 < 2 ^ 32 := Nat.mod_lt _ (Nat.two_pow_pos 32)
    have hlow : x % 2 ^ 32 % 2 ^ 512 = x % 2 ^ 32 := Nat.mod_eq_of_lt (hx.trans (Nat.pow_lt_pow_right (by decide) (by decide)))
    have hhigh : packNat 32 xs % 2 ^ 512 * 2 ^ 32 % 2 ^ 512 = packNat 32 xs * 2 ^ 32 % 2 ^ 512 := Nat.mod_mul_mod _ _ _
    simp only [ofEls, packNat, BitVec.toNat_ofNat, BitVec.toNat_or, BitVec.toNat_shiftLeft, BitVec.toNat_setWidth, Nat.shiftLeft_eq]
    rw [hhigh, ← hlow, ← Nat.or_mod_two_pow, hlow, Nat.mul_comm (packNat 32 xs), ← Nat.two_pow_add_eq_or_of_lt hx, Nat.add_comm]

theorem ofBytes_eq_little (bs : List Byte) : ofBytes bs = little bs := by
  induction bs with
  | nil => rfl
  | cons b bs ih => rw [ofBytes, ih]; rfl

/-- Lane 0 of a payload as a 64-bit number. -/
theorem ofNat_elAt_zero (p : Payload) : BitVec.ofNat 64 (elAt 32 p 0) = (el 32 p 0).setWidth 64 := by
  rw [elAt_eq, BitVec.ofNat_toNat]

theorem lane_zero (p : Payload) : lane p 0 = el 32 p 0 := by
  rw [lane, elAt_eq, BitVec.ofNat_toNat, BitVec.setWidth_eq]

/-! ### Outcomes of a slot that goes -/

section
variable {s : State} {i : Instr} {x : Elem} {r : Args}

/-- An instruction that `run` carries out raises, once it goes, the trap that its function says. -/
theorem run_raises {f : Cursor → Elem → Args → Act} {cls cause : Nat} {addr detail : Dword} (h : gate s i = .go x r)
    (hf : f s.cur x r = .trap cls cause addr detail) : run i f s = .next (s.raise s.cur cls cause addr detail) := by
  rw [run_go f h, hf]

/-- An instruction that `run` carries out changes nothing where its function says that it waits. -/
theorem run_waits {f : Cursor → Elem → Args → Act} (h : gate s i = .go x r) (hf : f s.cur x r = .wait) : run i f s = .next s := by
  rw [run_go f h, hf]

end

/-! ### The items -/

theorem eqItem_eq (P : Part) (iter : Nat) (k : BitVec 3) (h : k.toNat ≤ 4) :
    eqItem P iter k.toNat = [P.equota.toNat, P.eqspent.toNat, P.eqdebt.toNat, P.eqtotal.toNat, iter].getD k.toNat 0 := by
  obtain hk | hk | hk | hk | hk : k.toNat = 0 ∨ k.toNat = 1 ∨ k.toNat = 2 ∨ k.toNat = 3 ∨ k.toNat = 4 := by omega
  all_goals rw [hk]; rfl

/-- An item of OBSR as R455 lists them. -/
theorem dataTok_obsItem (s : State) (e : Nat) (x : Elem) (k m : BitVec 3) (d : Bool) (tag : Option (BitVec 16)) (h : k.toNat ≤ 4) :
    dataTok (obsItem s e x k.toNat d m.toNat) tag =
      if k = 2 then ⟨.data, lanesOf [x.seen.valid, x.seen.pinned], tag⟩
      else numTok64 (if k = 0 then (x.seen.stall.getD ((if d then 8 else 0) + m.toNat) 0).toNat
        else if k = 1 then x.seen.occ.toNat else if k = 3 then (s.page (pageOf e)).energy.toNat
        else little (((s.part x.l.n).pldig.drop (8 * m.toNat)).take 8)) tag := by
  have hstall : 8 * b2n d = if d then 8 else 0 := by cases d <;> rfl
  obtain rfl | rfl | rfl | rfl | rfl : k = 0 ∨ k = 1 ∨ k = 2 ∨ k = 3 ∨ k = 4 := by bv_omega
  · exact (dataTok_scalar64 _ tag).trans (by rw [hstall]; rfl)
  · exact dataTok_scalar64 _ tag
  · exact congrArg (Token.mk .data · tag) (ofEls_eq_lanesOf _)
  · exact dataTok_scalar64 _ tag
  · exact (dataTok_scalar64 _ tag).trans (by rw [ofBytes_eq_little]; rfl)

/-! ### CSRR and CSRW (R345) -/

/-- A CSR by its number, and the values that a number of the instruction word can name. -/
theorem csr_toNat_ne {n : BitVec 8} (h : n ∉ [0x00, 0x01, 0x10, 0x11]) :
    n.toNat ≠ csrEpoch ∧ n.toNat ≠ csrReplay ∧ n.toNat ≠ csrFpstat ∧ n.toNat ≠ csrElpart := by
  simp only [List.mem_cons, List.not_mem_nil, or_false, not_or, BitVec.toNat_inj.symm] at h
  exact h

/-! ### The statement -/

/-- Settles O39: what each of the seven answers once its slot goes. -/
theorem systemInstructions : Obligations.SystemInstructions := by
  intro s x r p c n k m d a
  refine ⟨fun h hlo hhi => ?trap, fun h => ⟨fun hb => ?brkPass, fun hb => ?brk⟩, fun h => ⟨?epoch, ?replay, ?fpstat, ?elpart, ?csrrBad⟩,
    fun h => ⟨?csrw, ?csrwBad⟩, fun h hk => ?eqrd, fun h hk => ?obsr, fun h => ?haltr⟩
  case trap =>
    rw [Raises, exec, execTrap]
    exact run_raises h (by rw [if_pos ⟨hlo, hhi⟩, ofNat_elAt_zero])
  case brkPass =>
    rw [Emits, Issues, exec, execBrk]
    exact run_issues h (if_pos hb)
  case brk =>
    rw [Raises, exec, execBrk]
    exact run_raises h ((if_neg hb).trans (by rw [BitVec.ofNat_toNat]; rfl))
  case epoch =>
    rintro rfl g hg
    rw [Emits, Issues, exec, execCsrr, runS_go _ h, ← dataTok_lane0]
    simp only [hg]
    rfl
  case replay =>
    rintro rfl
    rw [Emits, Issues, exec, execCsrr, runS_go _ h, ← dataTok_lane0]
    rfl
  case fpstat =>
    rintro rfl
    rw [Emits, Issues, exec, execCsrr, runS_go _ h, ← dataTok_lane0]
    rfl
  case elpart =>
    rintro rfl
    rw [Emits, Issues, exec, execCsrr, runS_go _ h, ← dataTok_lane0]
    rfl
  case csrrBad =>
    intro hn
    obtain ⟨he, hr, hf, hp⟩ := csr_toNat_ne hn
    rw [Raises, exec, execCsrr, runS_go _ h]
    simp only [if_neg he, if_neg hr, if_neg hf, if_neg hp]
    rfl
  case csrw =>
    rintro rfl
    rw [Emits, Issues, exec, execCsrw]
    exact run_issues h (by rw [lane_zero]; rfl)
  case csrwBad =>
    intro hn
    have hne : n.toNat ≠ csrFpstat := fun e => hn (BitVec.eq_of_toNat_eq e)
    rw [Raises, exec, execCsrw]
    exact run_raises h (if_neg hne)
  case eqrd =>
    rw [Emits, Issues, exec, execEqrd, runS_go _ h, ← dataTok_scalar64, ← eqItem_eq _ _ k hk, if_neg (by omega)]
    rfl
  case obsr =>
    rw [Emits, Issues, exec, execObsr, runS_go _ h, ← dataTok_obsItem s s.cur.e x k m d r.tag hk, if_neg (by omega)]
    rfl
  case haltr =>
    rw [IssuesIn, exec, execHaltr, runS_go _ h]
    rfl

end Sys2Proof.Proofs
end

