-- ==== Sys2Proof/Proofs/MatrixInstructions.lean ====
section
/-! SUPPORT. MMA, MMAS and MMAP (R94, R361, R364, R365): the product of two tiles element by element, the flags of all its elements, and what a
product instruction does at each kind of operand. -/

namespace Sys2Proof.Proofs

open Sys2Proof Sys2Proof.Machine Sys2Proof.Claims Sys2Proof.Laws

/-! ### Flags joined over a list -/

theorem testBit_foldl_or {α : Type} (g : α → Nat) (l : List α) (a k : Nat) :
    (l.foldl (fun fl r => fl ||| g r) a).testBit k = true ↔ a.testBit k = true ∨ ∃ r ∈ l, (g r).testBit k = true := by
  induction l generalizing a with
  | nil => simp
  | cons x l ih => simp [ih, or_assoc]

theorem bit_eq_testBit (x i : Nat) : bit x i = x.testBit i := by
  rw [Nat.testBit_eq_decide_div_mod_eq]
  rfl

/-! ### Lists of 16 × 16 entries -/

/-- The list of `n` rows of 16 entries that a function gives. -/
def grid {α : Type} (n : Nat) (F : Nat → Nat → α) : List α := ((List.range n).map fun i => (List.range 16).map (F i)).flatten

theorem grid_length {α : Type} (n : Nat) (F : Nat → Nat → α) : (grid n F).length = 16 * n := by
  induction n with
  | zero => rfl
  | succ n ih =>
    simp only [grid, List.range_succ, List.map_append, List.flatten_append, List.length_append] at ih ⊢
    rw [ih]
    simp
    omega

theorem getElem?_grid {α : Type} {n i j : Nat} (F : Nat → Nat → α) (hi : i < n) (hj : j < 16) : (grid n F)[16 * i + j]? = some (F i j) := by
  induction n with
  | zero => omega
  | succ n ih =>
    have hsplit : grid (n + 1) F = grid n F ++ (List.range 16).map (F n) := by
      simp [grid, List.range_succ]
    have hlen := grid_length n F
    rw [hsplit]
    by_cases h : i < n
    · rw [List.getElem?_append_left (by omega), ih h]
    · obtain rfl : i = n := by omega
      rw [List.getElem?_append_right (by omega), hlen, Nat.add_sub_cancel_left]
      simp [hj]

theorem mem_grid {α : Type} {n : Nat} {F : Nat → Nat → α} {a : α} : a ∈ grid n F ↔ ∃ i j, i < n ∧ j < 16 ∧ F i j = a := by
  simp only [grid, List.mem_flatten, List.mem_map, List.mem_range]
  constructor
  · rintro ⟨_, ⟨i, hi, rfl⟩, ha⟩
    obtain ⟨j, hj, rfl⟩ := List.mem_map.mp ha
    exact ⟨i, j, hi, List.mem_range.mp hj, rfl⟩
  · rintro ⟨i, j, hi, hj, rfl⟩
    exact ⟨_, ⟨i, hi, rfl⟩, List.mem_map.mpr ⟨j, List.mem_range.mpr hj, rfl⟩⟩

section
variable {α : Type} {l : List α}

theorem rowsOf_eq (d : α) (h : l.length = 256) :
    rowsOf l = (List.range 16).map fun r => (List.range 16).map fun c => l.getD (16 * r + c) d := by
  refine List.map_congr_left fun r hr => List.ext_getElem? fun c => ?_
  have hr : r < 16 := List.mem_range.mp hr
  by_cases hc : c < 16
  · have hlt : 16 * r + c < l.length := by omega
    simp [hc, List.getElem?_drop, List.getElem?_eq_getElem hlt]
  · simp [hc]

theorem colsOf_eq (d : α) (h : l.length = 256) :
    colsOf l = (List.range 16).map fun c => (List.range 16).map fun r => l.getD (16 * r + c) d := by
  refine List.map_congr_left fun c hc => ?_
  rw [rowsOf_eq d h, List.filterMap_map, ← List.filterMap_eq_map]
  refine List.filterMap_congr fun r _ => ?_
  simp [List.mem_range.mp hc]

end

theorem zipWith_map_range {α β γ : Type} (f : α → β → γ) (g : Nat → α) (h : Nat → β) (n : Nat) :
    List.zipWith f ((List.range n).map g) ((List.range n).map h) = (List.range n).map fun i => f (g i) (h i) := by
  rw [List.zipWith_map, List.zipWith_self]

theorem indexed_map_range {α : Type} (g : Nat → α) (n : Nat) : indexed 0 ((List.range n).map g) = (List.range n).map fun i => (i, g i) := by
  refine List.ext_getElem? fun i => ?_
  by_cases hi : i < n <;> simp [getElem?_indexed, hi]

/-- Halves of sixteen entries. -/
theorem take_range_sixteen {α : Type} (g : Nat → α) : ((List.range 16).map g).take 8 = (List.range 8).map fun j => g (0 + j) := by
  simp [List.range_succ]

theorem drop_range_sixteen {α : Type} (g : Nat → α) : ((List.range 16).map g).drop 8 = (List.range 8).map fun j => g (8 + j) := by
  simp [List.range_succ]

/-! ### The elements of a product (R94) -/

theorem mmaElem_eq_productElem (fa fb : Fmt) (A B : FetchBuf) (r c x : Nat) :
    mmaElem (noNegZero fa && noNegZero fb) x ((List.range 16).map (valueA fa A r)) ((List.range 16).map (valueB fb B c)) =
      productElem fa fb A B r c x := by
  simp only [mmaElem, mmaGroup, take_range_sixteen, drop_range_sixteen, zipWith_map_range, Nat.zero_or]
  rfl

theorem ofNat_wrap (w : Nat) (i : Int) : BitVec.ofNat w (wrap w i) = BitVec.ofInt w i := by
  apply BitVec.eq_of_toNat_eq
  rw [BitVec.toNat_ofNat, BitVec.toNat_ofInt, wrap]
  refine Nat.mod_eq_of_lt ((Int.toNat_lt (Int.emod_nonneg _ ?_)).mpr (Int.emod_lt_of_pos _ ?_)) <;> have := Nat.two_pow_pos w <;> omega

theorem ofNat_mmaInt (x : Word) (as bs : Nat → Nat) :
    BitVec.ofNat 32 (mmaInt x.toNat ((List.range 16).map as) ((List.range 16).map bs)) =
      x + BitVec.ofInt 32 ((List.range 16).map fun k => sgn 8 (as k) * sgn 8 (bs k)).sum := by
  rw [mmaInt, ofNat_wrap, zipWith_map_range, ← List.sum_eq_foldl, BitVec.ofInt_add, BitVec.ofInt_natCast, BitVec.ofNat_toNat,
    BitVec.setWidth_eq]

theorem sgn_low (w : Nat) {v : Nat} (x : BitVec v) : sgn w x.toNat = (x.setWidth w).toInt := by
  rw [← sgn_toNat, BitVec.toNat_setWidth]
  simp [sgn]

/-! ### The tile of a product (R365) -/

section
variable {fa fb : Fmt} {A B : FetchBuf} {acc : List Word}

theorem mmaTile_int (hA : A.els.length = 256) (hB : B.els.length = 256) (hacc : acc.length = 256) :
    mmaTile true fa fb A B acc = (grid 16 fun i j => productInt A B i j (acc.getD (16 * i + j) 0), 0) := by
  have hA' : (A.els.map (·.toNat)).length = 256 := by rw [List.length_map, hA]
  have hB' : (B.els.map (·.toNat)).length = 256 := by rw [List.length_map, hB]
  have entry (l : List (BitVec 16)) (k : Nat) : (l.map (·.toNat)).getD k 0 = (l.getD k 0).toNat :=
    List.getD_map (n := k) l 0 BitVec.toNat
  simp only [mmaTile, if_true, rowsOf_eq 0 hA', colsOf_eq 0 hB', rowsOf_eq 0 hacc, zipWith_map_range, ofNat_mmaInt, entry, sgn_low]
  rfl

theorem scaledRows (hA : A.els.length = 256) :
    ((indexed 0 (rowsOf A.els)).map fun (r, row) => row.map fun x => scaled fa x.toNat (A.exp r)) =
      (List.range 16).map fun r => (List.range 16).map (valueA fa A r) := by
  simp only [rowsOf_eq 0 hA, indexed_map_range, List.map_map, Function.comp_def]
  rfl

theorem scaledCols (hB : B.els.length = 256) :
    ((indexed 0 (colsOf B.els)).map fun (c, col) => col.map fun x => scaled fb x.toNat (B.exp c)) =
      (List.range 16).map fun c => (List.range 16).map (valueB fb B c) := by
  simp only [colsOf_eq 0 hB, indexed_map_range, List.map_map, Function.comp_def]
  rfl

theorem mmaTile_float (hA : A.els.length = 256) (hB : B.els.length = 256) (hacc : acc.length = 256) :
    mmaTile false fa fb A B acc =
      let rs := grid 16 fun i j => productElem fa fb A B i j (acc.getD (16 * i + j) 0).toNat
      (rs.map fun r => BitVec.ofNat 32 r.1, rs.foldl (fun f r => f ||| r.2) 0) := by
  rw [mmaTile, if_neg Bool.false_ne_true, scaledRows hA, scaledCols hB, rowsOf_eq 0 hacc]
  simp only [zipWith_map_range, mmaElem_eq_productElem]
  rfl

/-- The elements and the flags of a product, of either type. -/
theorem mmaTile_spec (ty : Bool) (hA : A.els.length = 256) (hB : B.els.length = 256) (hacc : acc.length = 256) :
    (mmaTile ty fa fb A B acc).1.length = 256 ∧
    (∀ i j, i < 16 → j < 16 → (mmaTile ty fa fb A B acc).1[16 * i + j]? = some (if ty then productInt A B i j (acc.getD (16 * i + j) 0)
      else BitVec.ofNat 32 (productElem fa fb A B i j (acc.getD (16 * i + j) 0).toNat).1)) ∧
    ∀ k, (mmaTile ty fa fb A B acc).2.testBit k = true ↔ ty = false ∧
      ∃ i j, i < 16 ∧ j < 16 ∧ (productElem fa fb A B i j (acc.getD (16 * i + j) 0).toNat).2.testBit k = true := by
  cases ty
  · rw [mmaTile_float hA hB hacc]
    refine ⟨by rw [List.length_map, grid_length], fun i j hi hj => ?_, fun k => ?_⟩
    · rw [List.getElem?_map, getElem?_grid _ hi hj]
      rfl
    · rw [testBit_foldl_or]
      simp only [Nat.zero_testBit, Bool.false_eq_true, false_or, mem_grid, true_and]
      constructor
      · rintro ⟨_, ⟨i, j, hi, hj, rfl⟩, hk⟩
        exact ⟨i, j, hi, hj, hk⟩
      · rintro ⟨i, j, hi, hj, hk⟩
        exact ⟨_, ⟨i, j, hi, hj, rfl⟩, hk⟩
  · rw [mmaTile_int hA hB hacc]
    refine ⟨grid_length _ _, fun i j hi hj => getElem?_grid _ hi hj, fun k => ?_⟩
    simp

end

/-! ### The instructions -/

theorem exec_product {p : Pm} {t : BitVec 9} {z : Bool} {a : Tgt} (s : State) :
    ∀ q ∈ productTable p t z a, exec q.1 s = product q.1 q.2.1 q.2.2 t.toNat z s := by
  simp only [productTable, List.forall_mem_cons]
  exact ⟨rfl, rfl, rfl, fun _ h => absurd h List.not_mem_nil⟩

/-- A slot waits whose unit is taken, whatever stands at its ports (R109). -/
theorem gate_wait_of_unit {s : State} {i : Instr} {x : Elem} (hx : s.elem? s.cur.e = some x) (h : x.unitFree i = false) :
    gate s i = .wait := by
  simp only [gate, hx, h, Bool.and_false, Bool.not_false, if_true]
  split
  · rfl
  · cases x.firing? s.cur.no s.cur.epi with
    | none => rfl
    | some f =>
      cases hsl : f.slots[s.cur.slot]? with
      | none => simp only [hsl]
      | some sl => simp only [hsl, ite_self]

theorem unitFree_product {p : Pm} {t : BitVec 9} {z : Bool} {a : Tgt} (x : Elem) :
    ∀ q ∈ productTable p t z a, x.unitFree q.1 = decide (x.mxFree ≤ x.icyc) := by
  simp only [productTable, List.forall_mem_cons]
  exact ⟨rfl, rfl, rfl, fun _ h => absurd h List.not_mem_nil⟩

section
variable {i : Instr} {s : State} {x : Elem} {r : Args} {sc pow z : Bool} {t : Nat}

theorem product_beyondGrant (h : gate s i = .go x r) (ht : x.accTiles ≤ t) :
    product i sc pow t z s = .next (s.raise s.cur 1 6 0 0) := by
  rw [product, run_raises h]
  exact if_pos ht

theorem product_held (h : gate s i = .go x r) (ht : t < x.accTiles) (hr : x.mxReady s.cur i = false) : product i sc pow t z s = .next s := by
  rw [product, run_waits h]
  simp only [tileGuard, if_neg (Nat.not_le_of_lt ht), hr, Bool.not_false, if_true]

theorem product_sameMarkers (h : gate s i = .go x r) (ht : t < x.accTiles) (hr : x.mxReady s.cur i = true)
    (hm : isMarker r.l = true ∨ isMarker r.r = true) (hk : r.l.kind = r.r.kind) :
    product i sc pow t z s = .next (s.setElem s.cur.e (x.issue s.cur 1 (toAll i ⟨r.l.kind, r.l.data, r.tag⟩))) := by
  rw [product, run_issues h]
  simp [tileGuard, Nat.not_le_of_lt ht, hr, marker_eq_isMarker, hm, hk]

theorem product_otherMarkers (h : gate s i = .go x r) (ht : t < x.accTiles) (hr : x.mxReady s.cur i = true)
    (hm : isMarker r.l = true ∨ isMarker r.r = true) (hk : r.l.kind ≠ r.r.kind) :
    product i sc pow t z s = .next (s.raise s.cur 1 0 0 0) := by
  rw [product, run_raises h]
  simp [tileGuard, Nat.not_le_of_lt ht, hr, marker_eq_isMarker, hm, hk, tcIllegal]

/-- A product whose operands are two handles, and that the grant and R361 let execute. -/
structure TakesHandles (i : Instr) (s : State) (x : Elem) (r : Args) (t : Nat) : Prop where
  goes : gate s i = .go x r
  granted : t < x.accTiles
  ready : x.mxReady s.cur i = true
  left : isMarker r.l = false
  right : isMarker r.r = false

/-- The buffers that the two handles name. -/
abbrev leftBuf (x : Elem) (r : Args) : FetchBuf := x.buf (elAt 32 r.l.data 0 % 4)
abbrev rightBuf (x : Elem) (r : Args) : FetchBuf := x.buf (elAt 32 r.r.data 0 % 4)

/-- A product without scales meets no scaled buffer. -/
theorem no_stray_scale {sc pow : Bool} (hsc : sc = true ∨ pow = true ∨ ((leftBuf x r).scaled = false ∧ (rightBuf x r).scaled = false)) :
    (!sc && !pow && ((leftBuf x r).scaled || (rightBuf x r).scaled)) = false := by
  rcases hsc with h | h | ⟨h, h'⟩ <;> simp [*]

theorem product_badRole (h : TakesHandles i s x r t) (hrole : (elAt 32 r.l.data 0).testBit 2 = true ∨ (elAt 32 r.r.data 0).testBit 2 = false) :
    product i sc pow t z s = .next (s.raise s.cur 1 0 0 0) := by
  obtain ⟨hg, ht, hr, hl, hm⟩ := h
  rw [product, run_raises hg]
  have hb : (bit (elAt 32 r.l.data 0) 2 || !bit (elAt 32 r.r.data 0) 2) = true := by simpa [bit_eq_testBit] using hrole
  simp only [tileGuard, if_neg (Nat.not_le_of_lt ht), hr, marker_eq_isMarker, hl, hm, hb]
  rfl

section
variable (hra : (elAt 32 r.l.data 0).testBit 2 = false) (hrb : (elAt 32 r.r.data 0).testBit 2 = true)
include hra hrb

theorem product_emptyLeft (h : TakesHandles i s x r t) (ha : (leftBuf x r).st = .empty) :
    product i sc pow t z s = .next (s.raise s.cur 3 0 (BitVec.ofNat 64 (256 + elAt 32 r.l.data 0 % 4)) 0) := by
  obtain ⟨hg, ht, hr, hl, hm⟩ := h
  rw [product, run_raises hg]
  simp only [tileGuard, if_neg (Nat.not_le_of_lt ht), hr, marker_eq_isMarker, hl, hm, bit_eq_testBit, hra, hrb, ha]
  rfl

theorem product_emptyRight (h : TakesHandles i s x r t) (ha : (leftBuf x r).st ≠ .empty)
    (hb : (rightBuf x r).st = .empty) :
    product i sc pow t z s = .next (s.raise s.cur 3 0 (BitVec.ofNat 64 (256 + elAt 32 r.r.data 0 % 4)) 0) := by
  obtain ⟨hg, ht, hr, hl, hm⟩ := h
  rw [product, run_raises hg]
  simp only [tileGuard, if_neg (Nat.not_le_of_lt ht), hr, marker_eq_isMarker, hl, hm, bit_eq_testBit, hra, hrb, if_neg ha, hb]
  rfl

theorem product_pending (h : TakesHandles i s x r t) (ha : (leftBuf x r).st ≠ .empty)
    (hb : (rightBuf x r).st ≠ .empty)
    (hp : (leftBuf x r).st = .pending ∨ (rightBuf x r).st = .pending) :
    product i sc pow t z s = .next s := by
  obtain ⟨hg, ht, hr, hl, hm⟩ := h
  rw [product, run_waits hg]
  simp only [tileGuard, if_neg (Nat.not_le_of_lt ht), hr, marker_eq_isMarker, hl, hm, bit_eq_testBit, hra, hrb, if_neg ha, if_neg hb, if_pos hp]
  rfl

variable (ha : (leftBuf x r).st = .full) (hb : (rightBuf x r).st = .full)
include ha hb

theorem product_badFormats (h : TakesHandles i s x r t)
    (hty : mmaType sc pow (tagFmt (leftBuf x r).tag.toNat) (tagFmt (rightBuf x r).tag.toNat) = none) :
    product i sc pow t z s = .next (s.raise s.cur 9 0 0 0) := by
  obtain ⟨hg, ht, hr, hl, hm⟩ := h
  rw [product, run_raises hg]
  simp only [tileGuard, if_neg (Nat.not_le_of_lt ht), hr, marker_eq_isMarker, hl, hm, bit_eq_testBit, hra, hrb, ha, hb, hty]
  rfl

variable {ty : Bool} {fa fb : Fmt}
  (hsc : sc = true ∨ pow = true ∨ ((leftBuf x r).scaled = false ∧ (rightBuf x r).scaled = false))
  (hty : mmaType sc pow (tagFmt (leftBuf x r).tag.toNat) (tagFmt (rightBuf x r).tag.toNat) = some ty)
  (hfa : fmtOf (tagFmt (leftBuf x r).tag.toNat) = some fa)
  (hfb : fmtOf (tagFmt (rightBuf x r).tag.toNat) = some fb)
include hsc hty hfa hfb

theorem product_otherType (h : TakesHandles i s x r t) (hz : z = false) (hint : (x.tileAt t).int ≠ ty) :
    product i sc pow t z s = .next (s.raise s.cur 9 0 0 0) := by
  obtain ⟨hg, ht, hr, hl, hm⟩ := h
  have hs := no_stray_scale hsc
  have hw : (!z && (x.tileAt t).int != ty) = true := by simp [hz, hint]
  rw [product, run_raises hg]
  simp only [tileGuard, if_neg (Nat.not_le_of_lt ht), hr, marker_eq_isMarker, hl, hm, bit_eq_testBit, hra, hrb, ha, hb, hty, hfa, hfb, hs, hw]
  rfl

theorem product_adds (h : TakesHandles i s x r t) (hint : z = true ∨ (x.tileAt t).int = ty) :
    let els := mmaTile ty fa fb (leftBuf x r) (rightBuf x r)
      (if z then List.replicate 256 0 else (x.tileAt t).els)
    let occ := mmaOcc pow (tagFmt (leftBuf x r).tag.toNat)
    product i sc pow t z s = .next (s.setElem s.cur.e ((((x.setTile t ⟨ty, els.1⟩).mxTake occ
      [elAt 32 r.l.data 0 % 4, elAt 32 r.r.data 0 % 4, 4 + t]).flags (occ + 4) els.2).issue s.cur (occ + 4) (toAll i ⟨.data, 1, r.tag⟩))) := by
  obtain ⟨hg, ht, hr, hl, hm⟩ := h
  have hs := no_stray_scale hsc
  have hw : (!z && (x.tileAt t).int != ty) = false := by rcases hint with h | h <;> simp [h]
  intro els occ
  rw [product, run_issues hg]
  simp only [tileGuard, if_neg (Nat.not_le_of_lt ht), hr, marker_eq_isMarker, hl, hm, bit_eq_testBit, hra, hrb, ha, hb, hty, hfa, hfb, hs, hw]
  rfl

end
end

/-! ### The statement -/

/-- Settles O35: the product element by element, and what a product does at each kind of operand. -/
theorem matrixInstructions : Obligations.MatrixInstructions := by
  constructor
  · intro s x r p t z a q hq ha hb A B acc occ hg ht hr hl hm hra hrb hA hB hsc ty fa fb hty hfa hfb
    have hx := exec_product s q hq
    have h : TakesHandles q.1 s x r t.toNat := ⟨hg, ht, hr, hl, hm⟩
    simp only [ha, hb, A, B, toNat_el] at hra hrb hA hB hsc hty hfa hfb
    refine ⟨fun hz hint => hx.trans (product_otherType hra hrb hA hB hsc hty hfa hfb h hz hint), fun hint hAl hBl hacc => ?_⟩
    obtain ⟨hlen, hels, hfl⟩ := mmaTile_spec (fa := fa) (fb := fb) ty hAl hBl hacc
    refine ⟨_, _, hlen, ?_, hels, hfl⟩
    rw [Emits, Issues, hx, product_adds hra hrb hA hB hsc hty hfa hfb h hint]
    simp only [occ, acc, ha, hb, A, B, toNat_el]
  · intro s x r p t z a q hq ha hb A B
    have hx := exec_product s q hq
    refine ⟨fun he hbusy => ?_, fun hg => ⟨fun ht => hx.trans (product_beyondGrant hg ht), fun ht => ⟨fun hr => hx.trans (product_held hg ht hr),
      fun hr => ⟨fun hm => ⟨fun hk => hx.trans (product_sameMarkers hg ht hr hm hk), fun hk => hx.trans (product_otherMarkers hg ht hr hm hk)⟩,
        fun hl hm => ?_⟩⟩⟩⟩
    · have hwait := gate_wait_of_unit he ((unitFree_product x q hq).trans (decide_eq_false (Nat.not_le_of_lt hbusy)))
      rw [hx, product, run, hwait]
    · have h : TakesHandles q.1 s x r t.toNat := ⟨hg, ht, hr, hl, hm⟩
      simp only [ha, hb, A, B, toNat_el]
      exact ⟨fun hrole => hx.trans (product_badRole h hrole), fun hra hrb => ⟨fun hA => hx.trans (product_emptyLeft hra hrb h hA),
        fun hA hB => hx.trans (product_emptyRight hra hrb h hA hB), fun hA hB hp => hx.trans (product_pending hra hrb h hA hB hp),
        fun hA hB hty => hx.trans (product_badFormats hra hrb hA hB h hty)⟩⟩

end Sys2Proof.Proofs
end

