-- ==== Sys2Proof/Proofs/Rounding.lean ====
section
/-! SUPPORT. Rounding once to a floating-point format (R77, R86 to R89). The magnitudes of a format are numbered by their codes, and the value of a code
rises with it, beyond the largest finite code too. A value lies between the values of two neighbouring codes, and `roundFin` gives one of
the two: which one, whether the result is exact and whether it is tiny depends on how the value compares with the codes' values, with the midpoints between
them and with one bound below the smallest normal value. -/

namespace Sys2Proof.Proofs

open Sys2Proof Sys2Proof.Machine Sys2Proof.Claims Sys2Proof.Laws

variable {K : Type} [Field K] [LinearOrder K] [IsStrictOrderedRing K]

/-! ### Powers of two -/

theorem two_zpow_pos (k : ℤ) : (0 : K) < 2 ^ k := zpow_pos two_pos k

theorem two_zpow_le {j k : ℤ} (h : j ≤ k) : (2 : K) ^ j ≤ 2 ^ k := zpow_le_zpow_right₀ one_le_two h

theorem two_zpow_lt {j k : ℤ} (h : j < k) : (2 : K) ^ j < 2 ^ k := zpow_lt_zpow_right₀ one_lt_two h

theorem two_zpow_add (j k : ℤ) : (2 : K) ^ (j + k) = 2 ^ j * 2 ^ k := zpow_add₀ two_ne_zero j k

/-- A power of two split into a natural power and the rest. -/
theorem two_zpow_split {j k : ℤ} {n : ℕ} (h : j = n + k) : (2 : K) ^ j = ((2 ^ n : ℕ) : K) * 2 ^ k := by
  rw [h, two_zpow_add, zpow_natCast, Nat.cast_pow, Nat.cast_ofNat]

/-! ### Rounding to a multiple of a power of two (R86) -/

/-- A mode goes up from `lo`: `v` lies between `lo` and the next value `hi`, and is that of a number of a sign; `odd` is whether `lo` is an odd
multiple of the step. -/
def GoesUp (m : Rm) (s : Bool) (odd : Prop) (lo v hi : K) : Prop :=
  match m with
  | .rne => lo + hi < 2 * v ∨ (2 * v = lo + hi ∧ odd)
  | .rtz => False
  | .rdn => s = true ∧ lo < v
  | .rup => s = false ∧ lo < v

/-- Nothing goes up from its own value. -/
theorem not_goesUp_self {m : Rm} {s : Bool} {odd : Prop} {lo hi : K} (h : lo < hi) : ¬ GoesUp m s odd lo lo hi := by
  cases m <;> simp only [GoesUp, lt_self_iff_false, and_false, not_false_eq_true]
  rintro (h' | ⟨h', -⟩) <;> linarith

/-- `roundUp` on the remainder `r` of a division by `h` with quotient `k`, in units of `u`. -/
theorem roundUp_iff_goesUp (m : Rm) (s : Bool) (k r h : ℕ) {u : K} (hu : 0 < u) (hh : 0 < h) :
    roundUp m s (k % 2 == 1) (if r = 0 then 0 else if 2 * r < h then 1 else if 2 * r = h then 2 else 3) = true ↔
      GoesUp m s (k % 2 = 1) (((h * k : ℕ) : K) * u) (((h * k + r : ℕ) : K) * u) (((h * (k + 1) : ℕ) : K) * u) := by
  have hlt (a b : ℕ) : (a : K) * u < b * u ↔ a < b := by rw [mul_lt_mul_iff_left₀ hu, Nat.cast_lt]
  have heq (a b : ℕ) : (a : K) * u = b * u ↔ a = b := by rw [mul_left_inj' hu.ne', Nat.cast_inj]
  have hmid : ((h * k : ℕ) : K) * u + ((h * (k + 1) : ℕ) : K) * u = ((2 * (h * k) + h : ℕ) : K) * u := by
    push_cast
    ring
  have htwo : 2 * (((h * k + r : ℕ) : K) * u) = ((2 * (h * k + r) : ℕ) : K) * u := by
    push_cast
    ring
  have habove : 2 * (h * k) + h < 2 * (h * k + r) ↔ h < 2 * r := by omega
  have htie : 2 * (h * k + r) = 2 * (h * k) + h ↔ 2 * r = h := by omega
  have hexact : h * k < h * k + r ↔ r ≠ 0 := by omega
  cases m <;> simp only [GoesUp, roundUp, hmid, htwo, hlt, heq, habove, htie, hexact]
  · split_ifs <;> simp <;> omega
  · simp
  all_goals cases s <;> split_ifs <;> simp_all

/-- The step that a mode takes from the multiple below a value. -/
theorem toQuantum_spec (m : Rm) (s : Bool) (n : ℕ) (e q : ℤ) : ∃ k : ℕ, (k : K) * 2 ^ q ≤ n * 2 ^ e ∧ (n : K) * 2 ^ e < (k + 1) * 2 ^ q ∧
    (GoesUp m s (k % 2 = 1) ((k : K) * 2 ^ q) (n * 2 ^ e) ((k + 1) * 2 ^ q) → (toQuantum m s n e q).1 = k + 1) ∧
    (¬ GoesUp m s (k % 2 = 1) ((k : K) * 2 ^ q) (n * 2 ^ e) ((k + 1) * 2 ^ q) → (toQuantum m s n e q).1 = k) ∧
    ((toQuantum m s n e q).2 = true ↔ (n : K) * 2 ^ e ≠ k * 2 ^ q) := by
  by_cases hq : q ≤ e
  · have hv : (n : K) * 2 ^ e = ((n * 2 ^ (e - q).toNat : ℕ) : K) * 2 ^ q := by
      rw [two_zpow_split (K := K) (j := e) (k := q) (n := (e - q).toNat) (by omega)]
      push_cast
      ring
    have hstep : ((n * 2 ^ (e - q).toNat : ℕ) : K) * 2 ^ q < (((n * 2 ^ (e - q).toNat : ℕ) : K) + 1) * 2 ^ q := by
      have := two_zpow_pos (K := K) q
      linarith
    refine ⟨n * 2 ^ (e - q).toNat, hv.ge, hv.trans_lt hstep, ?_⟩
    rw [hv, toQuantum, if_pos hq]
    exact ⟨fun h => absurd h (not_goesUp_self hstep), fun _ => rfl, by simp⟩
  · have hd : 0 < 2 ^ (q - e).toNat := Nat.two_pow_pos _
    have hu := two_zpow_pos (K := K) e
    have hstep : (2 : K) ^ q = ((2 ^ (q - e).toNat : ℕ) : K) * 2 ^ e := two_zpow_split (by omega)
    have hn := Nat.div_add_mod n (2 ^ (q - e).toNat)
    have hr := Nat.mod_lt n hd
    have hup := roundUp_iff_goesUp m s (n / 2 ^ (q - e).toNat) (n % 2 ^ (q - e).toNat) (2 ^ (q - e).toNat) hu hd
    rw [hn] at hup
    rw [toQuantum, if_neg hq]
    dsimp only
    generalize 2 ^ (q - e).toNat = d at *
    have hlo : ((n / d : ℕ) : K) * 2 ^ q = ((d * (n / d) : ℕ) : K) * 2 ^ e := by
      rw [hstep]
      push_cast
      ring
    have hhi : (((n / d : ℕ) : K) + 1) * 2 ^ q = ((d * (n / d + 1) : ℕ) : K) * 2 ^ e := by
      rw [hstep]
      push_cast
      ring
    refine ⟨n / d, ?_, ?_, ?_, ?_, ?_⟩
    · rw [hlo, mul_le_mul_iff_left₀ hu, Nat.cast_le]
      omega
    · rw [hhi, mul_lt_mul_iff_left₀ hu, Nat.cast_lt, Nat.mul_add]
      omega
    · rw [hlo, hhi, ← hup]
      exact fun h => if_pos h
    · rw [hlo, hhi, ← hup]
      exact fun h => if_neg h
    · rw [hlo, ne_eq, mul_left_inj' hu.ne', Nat.cast_inj]
      simp only [bne_iff_ne]
      omega

/-! ### The values of magnitude codes (R77) -/

/-- The value of a magnitude code; codes beyond those of the format go on in the same way. -/
def magVal (K : Type) [Field K] (t : Fmt) (c : ℕ) : K :=
  if c / 2 ^ fracOf t = 0 then (c : K) * 2 ^ ((1 : ℤ) - biasOf t - fracOf t)
  else ((2 ^ fracOf t + c % 2 ^ fracOf t : ℕ) : K) * 2 ^ (((c / 2 ^ fracOf t : ℕ) : ℤ) - biasOf t - fracOf t)

omit [LinearOrder K] [IsStrictOrderedRing K] in
/-- The value of a code from a significand and the number of its binade; a significand may have grown to the next binade's least. -/
theorem magVal_split [CharZero K] (t : Fmt) {E n : ℕ} (hn : n ≤ 2 ^ (fracOf t + 1)) (hE : E = 0 ∨ 2 ^ fracOf t ≤ n) :
    magVal K t (E * 2 ^ fracOf t + n) = (n : K) * 2 ^ ((E : ℤ) + 1 - biasOf t - fracOf t) := by
  have hP : 0 < 2 ^ fracOf t := Nat.two_pow_pos _
  rw [Nat.pow_succ] at hn
  have h2 : (2 : K) ≠ 0 := two_ne_zero
  unfold magVal
  generalize hPdef : 2 ^ fracOf t = P at *
  have hdiv : (E * P + n) / P = E + n / P := by rw [Nat.add_comm, Nat.add_mul_div_right _ _ hP, Nat.add_comm]
  have hmod : (E * P + n) % P = n % P := by rw [Nat.add_comm, Nat.add_mul_mod_self_right]
  rw [hdiv, hmod]
  obtain h | h | h : n < P ∨ (P ≤ n ∧ n < P * 2) ∨ n = P * 2 := by omega
  · obtain rfl : E = 0 := by omega
    simp [Nat.div_eq_of_lt h]
  · have hq : n / P = 1 := Nat.div_eq_of_lt_le (by omega) (by omega)
    have hr : P + n % P = n := by rw [Nat.mod_eq_sub_mod h.1, Nat.mod_eq_of_lt (by omega)]; omega
    rw [hq, hr, if_neg (by omega)]
    push_cast
    rfl
  · have hq : n / P = 2 := by rw [h, Nat.mul_div_cancel_left _ hP]
    have hr : n % P = 0 := by rw [h, Nat.mul_mod_right]
    rw [hq, hr, if_neg (by omega), h]
    have hexp : ((E + 2 : ℕ) : ℤ) - biasOf t - fracOf t = ((E : ℤ) + 1 - biasOf t - fracOf t) + 1 := by push_cast; ring
    rw [hexp, zpow_add_one₀ h2]
    push_cast
    ring

/-- Every code is a significand and the number of its binade. -/
theorem code_split (t : Fmt) (c : ℕ) : ∃ E n, c = E * 2 ^ fracOf t + n ∧ n < 2 ^ (fracOf t + 1) ∧ (E = 0 ∨ 2 ^ fracOf t ≤ n) := by
  have hP : 0 < 2 ^ fracOf t := Nat.two_pow_pos _
  rw [Nat.pow_succ]
  generalize 2 ^ fracOf t = P at *
  by_cases h : c < P
  · exact ⟨0, c, by omega, by omega, .inl rfl⟩
  · have hq : 1 ≤ c / P := (Nat.one_le_div_iff hP).mpr (by omega)
    have hr := Nat.mod_lt c hP
    refine ⟨c / P - 1, P + c % P, ?_, by omega, .inr (by omega)⟩
    have hc := Nat.div_add_mod c P
    rw [Nat.sub_mul, Nat.one_mul, Nat.mul_comm]
    have := Nat.mul_le_mul_left P hq
    omega

/-- The step from a code to the next is the unit of its binade. -/
theorem magVal_lt_succ (t : Fmt) (c : ℕ) : magVal K t c < magVal K t (c + 1) := by
  obtain ⟨E, n, rfl, hn, hE⟩ := code_split t c
  rw [Nat.add_assoc, magVal_split t hn.le hE, magVal_split t hn (hE.imp_right fun h => h.trans (Nat.le_succ n))]
  exact mul_lt_mul_of_pos_right (by exact_mod_cast Nat.lt_succ_self n) (two_zpow_pos _)

theorem magVal_strictMono (t : Fmt) : StrictMono (magVal K t) := strictMono_nat_of_lt_succ (magVal_lt_succ t)

theorem magVal_zero (t : Fmt) : magVal K t 0 = 0 := by simp [magVal]

theorem magVal_nonneg (t : Fmt) (c : ℕ) : 0 ≤ magVal K t c := by
  rw [← magVal_zero t]
  exact (magVal_strictMono t).monotone (Nat.zero_le c)

/-! ### The two codes around a value -/

/-- The code that a mode gives a magnitude of a sign: that of the greatest value not above it, or the next. -/
def RoundedMag (t : Fmt) (m : Rm) (s : Bool) (v : K) (code : ℕ) : Prop :=
  ∃ c, magVal K t c ≤ v ∧ v < magVal K t (c + 1) ∧
    (GoesUp m s (c % 2 = 1) (magVal K t c) v (magVal K t (c + 1)) → code = c + 1) ∧
    (¬ GoesUp m s (c % 2 = 1) (magVal K t c) v (magVal K t (c + 1)) → code = c)

/-- A magnitude rounded with an exponent of any size is below the smallest normal value (R89). -/
def TinyMag (t : Fmt) (m : Rm) (s : Bool) (v : K) : Prop :=
  let least := (2 : K) ^ ((1 : ℤ) - biasOf t)
  let ulp := (2 : K) ^ (-(biasOf t : ℤ) - fracOf t)
  if m = .rne then v < least - ulp / 2 else if away m s then v ≤ least - ulp else v < least

/-- A magnitude of a sign, not zero, rounded to a format: the code and the flags. -/
def RoundsMag (t : Fmt) (m : Rm) (sat s : Bool) (v : K) (r : Rounded) : Prop :=
  ∃ code, RoundedMag t m s v code ∧ (topCode t < code → r = overflow t m sat s) ∧
    (code ≤ topCode t → r.1 = withSign t s code ∧ (magVal K t code = v → r.2 = 0) ∧
      (magVal K t code ≠ v → (TinyMag t m s v → r.2 = 8 + 16) ∧ (¬ TinyMag t m s v → r.2 = 16)))

theorem bitLen_bounds {n : ℕ} (h : n ≠ 0) : 1 ≤ bitLen n ∧ 2 ^ (bitLen n - 1) ≤ n ∧ n < 2 ^ bitLen n := by
  simp only [bitLen, if_neg h, Nat.add_sub_cancel]
  exact ⟨Nat.le_add_left _ _, Nat.log2_self_le h, Nat.lt_log2_self⟩

/-- A number that is not zero lies in the binade that `bitLen` says. -/
theorem binade_of_bitLen {n : ℕ} (h : n ≠ 0) (e : ℤ) : (2 : K) ^ (e + bitLen n - 1) ≤ n * 2 ^ e ∧ (n : K) * 2 ^ e < 2 ^ (e + bitLen n) := by
  obtain ⟨hpos, hlo, hhi⟩ := bitLen_bounds h
  have hu := two_zpow_pos (K := K) e
  rw [two_zpow_split (K := K) (j := e + bitLen n - 1) (k := e) (n := bitLen n - 1) (by omega),
    two_zpow_split (K := K) (j := e + bitLen n) (k := e) (n := bitLen n) (by omega), mul_le_mul_iff_left₀ hu, mul_lt_mul_iff_left₀ hu]
  exact ⟨Nat.cast_le.mpr hlo, Nat.cast_lt.mpr hhi⟩

/-- The multiple of a power of two below a value, from bounds of the value. -/
theorem multiple_bounds {k : ℕ} {q : ℤ} {v : K} {j : ℕ} (hlo : (k : K) * 2 ^ q ≤ v) (hhi : v < (k + 1) * 2 ^ q) :
    (v < 2 ^ (q + j) → k < 2 ^ j) ∧ ((2 : K) ^ (q + j) ≤ v → 2 ^ j ≤ k) := by
  have hu := two_zpow_pos (K := K) q
  have hsplit : (2 : K) ^ (q + j) = ((2 ^ j : ℕ) : K) * 2 ^ q := two_zpow_split (by omega)
  rw [hsplit]
  constructor <;> intro h
  · have := lt_of_mul_lt_mul_right (hlo.trans_lt h) hu.le
    exact_mod_cast this
  · have := lt_of_mul_lt_mul_right (h.trans_lt hhi) hu.le
    exact Nat.lt_succ_iff.mp (by exact_mod_cast this)

/-- The code that `roundFin` forms from the rounded multiple of the unit of a binade. -/
theorem roundedMag_toQuantum (t : Fmt) (m : Rm) (s : Bool) {n E : ℕ} {e q : ℤ} (hn : n ≠ 0) (hq : q = (E : ℤ) + 1 - biasOf t - fracOf t)
    (hhi : e + bitLen n ≤ q + (fracOf t + 1 : ℕ)) (hlo : E = 0 ∨ q + (fracOf t + 1 : ℕ) = e + bitLen n) :
    RoundedMag t m s ((n : K) * 2 ^ e) (E * 2 ^ fracOf t + (toQuantum m s n e q).1) ∧
      ((toQuantum m s n e q).2 = true ↔ magVal K t (E * 2 ^ fracOf t + (toQuantum m s n e q).1) ≠ (n : K) * 2 ^ e) := by
  obtain ⟨k, hklo, hkhi, hup, hdown, hinex⟩ := toQuantum_spec (K := K) m s n e q
  obtain ⟨hvlo, hvhi⟩ := binade_of_bitLen (K := K) hn e
  have hk : k < 2 ^ (fracOf t + 1) := (multiple_bounds hklo hkhi).1 (hvhi.trans_le (two_zpow_le hhi))
  have hE : E = 0 ∨ 2 ^ fracOf t ≤ k := hlo.imp_right fun h =>
    (multiple_bounds hklo hkhi).2 (le_of_eq_of_le (by congr 1; push_cast at h; omega) hvlo)
  have hval : magVal K t (E * 2 ^ fracOf t + k) = (k : K) * 2 ^ q := hq ▸ magVal_split t hk.le hE
  have hnext : magVal K t (E * 2 ^ fracOf t + k + 1) = ((k : K) + 1) * 2 ^ q := by
    rw [Nat.add_assoc, magVal_split t hk (hE.imp_right fun h => h.trans (Nat.le_succ k)), ← hq, Nat.cast_succ]
  have hodd : (E * 2 ^ fracOf t + k) % 2 = 1 ↔ k % 2 = 1 := by
    obtain ⟨j, hj⟩ : 2 ∣ 2 ^ fracOf t := dvd_pow_self 2 (by cases t <;> decide)
    rw [hj, Nat.mul_left_comm, Nat.mul_add_mod]
  by_cases hgo : GoesUp m s (k % 2 = 1) ((k : K) * 2 ^ q) (n * 2 ^ e) ((k + 1) * 2 ^ q)
  · rw [hup hgo]
    have hne : (n : K) * 2 ^ e ≠ k * 2 ^ q := fun h => not_goesUp_self (hklo.trans_lt hkhi) (h ▸ hgo)
    refine ⟨⟨E * 2 ^ fracOf t + k, hval.trans_le hklo, hnext ▸ hkhi, fun _ => rfl, fun h => absurd ?_ h⟩, ?_⟩
    · rw [hval, hnext, hodd]
      exact hgo
    · rw [hinex, ← Nat.add_assoc, hnext]
      exact iff_of_true hne hkhi.ne'
  · rw [hdown hgo]
    refine ⟨⟨E * 2 ^ fracOf t + k, hval.trans_le hklo, hnext ▸ hkhi, fun h => absurd ?_ hgo, fun _ => rfl⟩, ?_⟩
    · rwa [hval, hnext, hodd] at h
    · rw [hinex, hval, ne_comm]

/-- Half the smallest normal value and below is tiny in every mode; the smallest normal value and above is not. -/
theorem tinyMag_of_lt_half {t : Fmt} (m : Rm) (s : Bool) {v : K} (h : v < 2 ^ (-(biasOf t : ℤ))) : TinyMag t m s v := by
  have hleast : (2 : K) ^ ((1 : ℤ) - biasOf t) = 2 * 2 ^ (-(biasOf t : ℤ)) := by rw [sub_eq_add_neg, two_zpow_add, zpow_one]
  have hulp : (2 : K) ^ (-(biasOf t : ℤ) - fracOf t) ≤ 2 ^ (-(biasOf t : ℤ)) := two_zpow_le (by omega)
  have hpos := two_zpow_pos (K := K) (-(biasOf t : ℤ) - fracOf t)
  simp only [TinyMag, hleast]
  split_ifs <;> linarith

theorem not_tinyMag_of_le {t : Fmt} (m : Rm) (s : Bool) {v : K} (h : (2 : K) ^ ((1 : ℤ) - biasOf t) ≤ v) : ¬ TinyMag t m s v := by
  have hpos := two_zpow_pos (K := K) (-(biasOf t : ℤ) - fracOf t)
  simp only [TinyMag]
  split_ifs <;> linarith

/-- In the last binade below the normal values, only the last value there can leave it by rounding: it is tiny unless it goes up. -/
theorem goesUp_iff_not_tinyMag {t : Fmt} {m : Rm} {s : Bool} {odd : Prop} {v : K} (hodd : odd) (hv : v < 2 ^ ((1 : ℤ) - biasOf t)) :
    GoesUp m s odd ((2 : K) ^ ((1 : ℤ) - biasOf t) - 2 ^ (-(biasOf t : ℤ) - fracOf t)) v (2 ^ ((1 : ℤ) - biasOf t)) ↔ ¬ TinyMag t m s v := by
  simp only [TinyMag]
  generalize (2 : K) ^ (-(biasOf t : ℤ) - fracOf t) = ulp at *
  generalize (2 : K) ^ ((1 : ℤ) - biasOf t) = least at *
  cases m
  case rne =>
    simp only [GoesUp, hodd, and_true, if_true, not_lt]
    refine ⟨fun h => ?_, fun h => ?_⟩
    · rcases h with h | h <;> linarith
    · rcases eq_or_lt_of_le h with h | h
      · exact .inr (by linarith)
      · exact .inl (by linarith)
  all_goals cases s <;> simp [GoesUp, away, hv]

/-- `roundFin`'s test for a tiny result: what rounding at the value's own precision gives lies below the smallest normal value (R89). -/
theorem tiny_iff_tinyMag (t : Fmt) (m : Rm) (s : Bool) {n : ℕ} {e q : ℤ} (hn : n ≠ 0) (hq : q + (fracOf t + 1 : ℕ) = e + bitLen n) :
    (if q < 1 - (biasOf t : ℤ) - fracOf t then decide ((toQuantum m s n e q).1 < 2 ^ (1 - (biasOf t : ℤ) - q).toNat) else false) = true ↔
      TinyMag t m s ((n : K) * 2 ^ e) := by
  obtain ⟨k, hklo, hkhi, hup, hdown, -⟩ := toQuantum_spec (K := K) m s n e q
  obtain ⟨hvlo, hvhi⟩ := binade_of_bitLen (K := K) hn e
  have hkM : k < 2 ^ (fracOf t + 1) := (multiple_bounds hklo hkhi).1 (hq ▸ hvhi)
  have hle : (toQuantum m s n e q).1 ≤ k + 1 := by
    by_cases h : GoesUp m s (k % 2 = 1) ((k : K) * 2 ^ q) (n * 2 ^ e) ((k + 1) * 2 ^ q)
    · exact (hup h).le
    · exact (hdown h).le.trans (Nat.le_succ k)
  obtain hbig | hsmall | hlast : 1 - (biasOf t : ℤ) - fracOf t ≤ q ∨ q < -(biasOf t : ℤ) - fracOf t ∨ q = -(biasOf t : ℤ) - fracOf t := by omega
  · have hge : (2 : K) ^ ((1 : ℤ) - biasOf t) ≤ n * 2 ^ e := (two_zpow_le (by omega)).trans hvlo
    simp [if_neg (Int.not_lt.mpr hbig), not_tinyMag_of_le m s hge]
  · have htiny : TinyMag t m s ((n : K) * 2 ^ e) := tinyMag_of_lt_half m s (hvhi.trans_le (two_zpow_le (by omega)))
    have hpow : 2 ^ (fracOf t + 1) < 2 ^ (1 - (biasOf t : ℤ) - q).toNat := Nat.pow_lt_pow_right (by decide) (by omega)
    rw [if_pos (by omega)]
    simp only [htiny, iff_true, decide_eq_true_eq]
    omega
  · rw [if_pos (by omega), decide_eq_true_eq, show (1 - (biasOf t : ℤ) - q).toNat = fracOf t + 1 by omega]
    have hu := two_zpow_pos (K := K) q
    have hleast : (2 : K) ^ ((1 : ℤ) - biasOf t) = ((2 ^ (fracOf t + 1) : ℕ) : K) * 2 ^ q := two_zpow_split (by omega)
    have hunit : (2 : K) ^ (-(biasOf t : ℤ) - fracOf t) = 2 ^ q := by rw [hlast]
    by_cases hk : k + 1 < 2 ^ (fracOf t + 1)
    · have htiny : TinyMag t m s ((n : K) * 2 ^ e) := by
        have hstep : ((k + 1 : ℕ) : K) * 2 ^ q + 2 ^ q ≤ 2 ^ ((1 : ℤ) - biasOf t) := by
          rw [hleast, ← add_one_mul, mul_le_mul_iff_left₀ hu]
          exact_mod_cast hk
        rw [Nat.cast_succ] at hstep
        simp only [TinyMag, hunit]
        split_ifs <;> linarith
      exact iff_of_true (by omega) htiny
    · have hk : k + 1 = 2 ^ (fracOf t + 1) := by omega
      have hhi : ((k : K) + 1) * 2 ^ q = 2 ^ ((1 : ℤ) - biasOf t) := by rw [hleast, ← hk, Nat.cast_succ]
      have hlo : (k : K) * 2 ^ q = 2 ^ ((1 : ℤ) - biasOf t) - 2 ^ (-(biasOf t : ℤ) - fracOf t) := by rw [← hhi, hunit]; ring
      have hodd : k % 2 = 1 := by omega
      rw [hhi] at hkhi
      rw [hlo, hhi, goesUp_iff_not_tinyMag hodd hkhi, not_not] at hdown
      rw [hlo, hhi, goesUp_iff_not_tinyMag hodd hkhi] at hup
      by_cases htiny : TinyMag t m s ((n : K) * 2 ^ e)
      · exact iff_of_true (by rw [hdown htiny]; omega) htiny
      · exact iff_of_false (by rw [hup htiny]; omega) htiny

/-! ### `roundFin` -/

theorem dims_snd {t : Fmt} (ht : t ∈ floatFormats) : ∃ eb, Fmt.dims t = (eb, fracOf t, biasOf t) := by
  simp only [floatFormats, List.mem_cons, List.not_mem_nil, or_false] at ht
  rcases ht with rfl | rfl | rfl | rfl | rfl <;> exact ⟨_, rfl⟩

theorem maxCode_eq {t : Fmt} (ht : t ∈ floatFormats) : Fmt.maxCode t = topCode t := by
  simp only [floatFormats, List.mem_cons, List.not_mem_nil, or_false] at ht
  rcases ht with rfl | rfl | rfl | rfl | rfl <;> rfl

theorem withSign_eq (t : Fmt) (s : Bool) (c : ℕ) : withSign t s c = c + b2n s * Fmt.signW t := by
  cases s <;> simp [withSign, b2n, Fmt.signW, Nat.add_comm]

theorem roundFin_zero {t : Fmt} (m : Rm) (sat s : Bool) (e : ℤ) : roundFin t m sat s 0 e = (withSign t s 0, 0) := by
  rw [withSign_eq, Nat.zero_add]
  rfl

/-- `roundFin` rounds a magnitude that is not zero once, with its flags (R86 to R89). -/
theorem roundFin_spec {t : Fmt} (ht : t ∈ floatFormats) (m : Rm) (sat s : Bool) {n : ℕ} (e : ℤ) (hn : n ≠ 0) :
    RoundsMag t m sat s ((n : K) * 2 ^ e) (roundFin t m sat s n e) := by
  obtain ⟨eb, hdims⟩ := dims_snd ht
  have htiny := tiny_iff_tinyMag (K := K) t m s (n := n) (e := e) (q := e + bitLen n - (fracOf t + 1 : ℕ)) hn (by omega)
  have hcode := roundedMag_toQuantum (K := K) t m s (n := n) (e := e)
    (q := max (1 - (biasOf t : ℤ) - fracOf t) (e + bitLen n - (fracOf t + 1 : ℕ)))
    (E := (max (1 - (biasOf t : ℤ) - fracOf t) (e + bitLen n - (fracOf t + 1 : ℕ)) + fracOf t + biasOf t - 1).toNat) hn (by omega) (by omega) (by omega)
  simp only [roundFin, hdims, if_neg hn, maxCode_eq ht, ← withSign_eq]
  generalize toQuantum m s n e (max _ _) = k at *
  obtain ⟨hround, hinex⟩ := hcode
  refine ⟨_, hround, fun h => by rw [if_pos h], fun h => ?_⟩
  rw [if_neg (Nat.not_lt.mpr h)]
  refine ⟨rfl, fun hex => ?_, fun hne => ?_⟩
  · simp [show k.2 = false from Bool.eq_false_iff.mpr fun hk => hinex.mp hk hex]
  · simp only [hinex.mpr hne, Bool.and_true, if_true, ← htiny]
    exact ⟨fun h => by rw [if_pos h]; rfl, fun h => by rw [if_neg h]; rfl⟩

end Sys2Proof.Proofs
end

