-- ==== Sys2Proof/Proofs/RoundedValues.lean ====
section
/-! SUPPORT. What a rounded magnitude says of the values of all codes (R86 to R88): it is the nearest, the greatest not above, or the least not below; beyond the
range it is what the mode makes of an overflow. From this the statements' own words for a rounded value. -/

namespace Sys2Proof.Proofs

open Sys2Proof Sys2Proof.Machine Sys2Proof.Claims Sys2Proof.Laws

section
variable {K : Type} [Field K] [LinearOrder K] [IsStrictOrderedRing K] {t : Fmt} {m : Rm} {s : Bool} {v : K} {code : ℕ}

/-! ### The rounded magnitude among all magnitudes -/

/-- A mode that takes a magnitude towards zero gives the greatest value not above it. -/
theorem roundedMag_floor (h : RoundedMag t m s v code) (hm : m ≠ .rne) (haway : away m s = false) :
    magVal K t code ≤ v ∧ ∀ d, magVal K t d ≤ v → magVal K t d ≤ magVal K t code := by
  obtain ⟨c, hlo, hhi, -, hdown⟩ := h
  have hstay : ¬ GoesUp m s (c % 2 = 1) (magVal K t c) v (magVal K t (c + 1)) := by
    cases m <;> cases s <;> simp_all [GoesUp, away]
  rw [hdown hstay]
  exact ⟨hlo, fun d hd => (magVal_strictMono t).monotone (Nat.lt_succ_iff.mp ((magVal_strictMono t).lt_iff_lt.mp (hd.trans_lt hhi)))⟩

/-- A mode that takes a magnitude away from zero gives the least value not below it. -/
theorem roundedMag_ceil (h : RoundedMag t m s v code) (haway : away m s = true) :
    v ≤ magVal K t code ∧ ∀ d, v ≤ magVal K t d → magVal K t code ≤ magVal K t d := by
  obtain ⟨c, hlo, hhi, hup, hdown⟩ := h
  have hiff : GoesUp m s (c % 2 = 1) (magVal K t c) v (magVal K t (c + 1)) ↔ magVal K t c < v := by
    cases m <;> cases s <;> simp_all [GoesUp, away]
  rw [hiff] at hup hdown
  rcases eq_or_lt_of_le hlo with heq | hlt
  · rw [hdown heq.not_lt, heq]
    exact ⟨le_rfl, fun d hd => hd⟩
  · rw [hup hlt]
    exact ⟨hhi.le, fun d hd => (magVal_strictMono t).monotone ((magVal_strictMono t).lt_iff_lt.mp (hlt.trans_le hd))⟩

/-- Rounding to nearest gives a code whose value is no farther than the midpoints to all others; at a midpoint it is even. -/
theorem roundedMag_midpoints (h : RoundedMag t .rne s v code) :
    (∀ d, code < d → 2 * v ≤ magVal K t code + magVal K t d ∧ (2 * v = magVal K t code + magVal K t d → code % 2 = 0)) ∧
    ∀ d, d < code → magVal K t d + magVal K t code ≤ 2 * v ∧ (magVal K t d + magVal K t code = 2 * v → code % 2 = 0) := by
  obtain ⟨c, hlo, hhi, hup, hdown⟩ := h
  have hmono := (magVal_strictMono (K := K) t).monotone
  by_cases hgo : GoesUp .rne s (c % 2 = 1) (magVal K t c) v (magVal K t (c + 1))
  · obtain rfl := hup hgo
    refine ⟨fun d hd => ?_, fun d hd => ?_⟩
    · have := magVal_strictMono (K := K) t hd
      exact ⟨by linarith, fun h => by linarith⟩
    · have hle := hmono (Nat.lt_succ_iff.mp hd)
      rcases hgo with h | ⟨h, hodd⟩
      · exact ⟨by linarith, fun h' => by linarith⟩
      · exact ⟨by linarith, fun _ => by omega⟩
  · obtain rfl := hdown hgo
    simp only [GoesUp, not_or, not_and, not_lt] at hgo
    obtain ⟨hle, heven⟩ := hgo
    refine ⟨fun d hd => ?_, fun d hd => ?_⟩
    · have hd := hmono (Nat.succ_le_of_lt hd)
      refine ⟨hle.trans (by linarith), fun h => ?_⟩
      have := heven (by linarith)
      omega
    · have := magVal_strictMono (K := K) t hd
      exact ⟨by linarith, fun h => by linarith⟩

theorem roundedMag_nearest (h : RoundedMag t .rne s v code) (d : ℕ) :
    |magVal K t code - v| ≤ |magVal K t d - v| ∧ (|magVal K t code - v| = |magVal K t d - v| → magVal K t code ≠ magVal K t d → code % 2 = 0) := by
  obtain ⟨habove, hbelow⟩ := roundedMag_midpoints h
  have key {a b : K} (hab : a < b) : (2 * v ≤ a + b ↔ |a - v| ≤ |b - v|) ∧ (2 * v = a + b ↔ |a - v| = |b - v|) := by
    constructor
    · rw [← sq_le_sq]
      constructor <;> intro h <;> nlinarith
    · rw [← sq_eq_sq_iff_abs_eq_abs]
      constructor <;> intro h
      · linear_combination (b - a) * h
      · have : (b - a) * (2 * v - (a + b)) = 0 := by linear_combination h
        rcases mul_eq_zero.mp this with h' | h' <;> linarith
  rcases lt_trichotomy code d with hd | rfl | hd
  · have hlt := magVal_strictMono (K := K) t hd
    obtain ⟨hle, heven⟩ := habove d hd
    exact ⟨(key hlt).1.mp hle, fun h _ => heven ((key hlt).2.mpr h)⟩
  · exact ⟨le_rfl, fun _ h => absurd rfl h⟩
  · have hlt := magVal_strictMono (K := K) t hd
    obtain ⟨hle, heven⟩ := hbelow d hd
    refine ⟨?_, fun h _ => heven ((key hlt).2.mpr h.symm).symm⟩
    rcases le_total |magVal K t code - v| |magVal K t d - v| with h | h
    · exact h
    · have := (key hlt).1.mpr h
      exact ((key hlt).2.mp (le_antisymm this hle)).ge

/-! ### The end of the range (R87, R88) -/

/-- The largest finite value, the one before it and the next beyond it lie in one binade, one unit apart. -/
theorem topCode_split {t : Fmt} (ht : t ∈ floatFormats) :
    ∃ E n, topCode t = E * 2 ^ fracOf t + (n + 1) ∧ 2 ^ fracOf t ≤ n ∧ n + 2 ≤ 2 ^ (fracOf t + 1) := by
  simp only [floatFormats, List.mem_cons, List.not_mem_nil, or_false] at ht
  rcases ht with rfl | rfl | rfl | rfl | rfl
  · exact ⟨253, 2 ^ 24 - 2, by decide, by decide, by decide⟩
  · exact ⟨253, 2 ^ 8 - 2, by decide, by decide, by decide⟩
  · exact ⟨29, 2 ^ 11 - 2, by decide, by decide, by decide⟩
  · exact ⟨14, 2 ^ 4 - 3, by decide, by decide, by decide⟩
  · exact ⟨29, 2 ^ 3 - 2, by decide, by decide, by decide⟩

theorem magVal_beyond_top (ht : t ∈ floatFormats) :
    magVal K t (topCode t + 1) = magVal K t (topCode t) + (magVal K t (topCode t) - magVal K t (topCode t - 1)) := by
  obtain ⟨E, n, htop, hlo, hhi⟩ := topCode_split ht
  have hpred : topCode t - 1 = E * 2 ^ fracOf t + n := by omega
  rw [hpred, htop, Nat.add_assoc, magVal_split t (by omega) (.inr (by omega)), magVal_split t (by omega) (.inr (by omega)),
    magVal_split t (by omega) (.inr hlo)]
  push_cast
  ring

theorem topCode_pos (ht : t ∈ floatFormats) : 0 < topCode t := by
  obtain ⟨E, n, htop, -⟩ := topCode_split ht
  omega

theorem topCode_even_iff (ht : t ∈ floatFormats) : topCode t % 2 = 1 ↔ t ≠ .e4m3 := by
  simp only [floatFormats, List.mem_cons, List.not_mem_nil, or_false] at ht
  rcases ht with rfl | rfl | rfl | rfl | rfl <;> decide

/-- Where a magnitude's rounding leaves the range, in words of the largest finite value and its unit. -/
def OverflowsMag (K : Type) [Field K] [LinearOrder K] (t : Fmt) (m : Rm) (s : Bool) (v : K) : Prop :=
  let top := magVal K t (topCode t)
  let ulp := top - magVal K t (topCode t - 1)
  if m = .rne then (if t = .e4m3 then top + ulp / 2 < v else top + ulp / 2 ≤ v) else if away m s then top < v else top + ulp ≤ v

theorem overflowsMag_iff (ht : t ∈ floatFormats) (h : RoundedMag t m s v code) : OverflowsMag K t m s v ↔ topCode t < code := by
  obtain ⟨c, hlo, hhi, hup, hdown⟩ := h
  have hmono := (magVal_strictMono (K := K) t).monotone
  have hulp : 0 < magVal K t (topCode t) - magVal K t (topCode t - 1) :=
    sub_pos.mpr (magVal_strictMono t (Nat.sub_lt (topCode_pos ht) one_pos))
  have hnext := magVal_beyond_top (K := K) ht
  have hcode : code = c ∨ code = c + 1 := by
    by_cases hgo : GoesUp m s (c % 2 = 1) (magVal K t c) v (magVal K t (c + 1))
    · exact .inr (hup hgo)
    · exact .inl (hdown hgo)
  obtain hlt | hgt | rfl : c < topCode t ∨ topCode t < c ∨ c = topCode t := by omega
  · have := hmono (Nat.succ_le_of_lt hlt)
    refine iff_of_false (fun h => ?_) (by omega)
    simp only [OverflowsMag] at h
    split_ifs at h <;> linarith
  · have := hmono (Nat.succ_le_of_lt hgt)
    refine iff_of_true ?_ (by omega)
    simp only [OverflowsMag]
    split_ifs <;> linarith
  · rw [hnext] at hhi hup hdown
    have hiff : OverflowsMag K t m s v ↔ GoesUp m s (topCode t % 2 = 1) (magVal K t (topCode t)) v
        (magVal K t (topCode t) + (magVal K t (topCode t) - magVal K t (topCode t - 1))) := by
      rw [topCode_even_iff ht]
      simp only [OverflowsMag]
      generalize magVal K t (topCode t) - magVal K t (topCode t - 1) = ulp at *
      generalize magVal K t (topCode t) = top at *
      cases m
      case rne =>
        by_cases he : t = .e4m3 <;> simp only [GoesUp, he, ne_eq, not_true_eq_false, not_false_eq_true, and_false, and_true, or_false, if_true, if_false]
        · constructor <;> intro h <;> linarith
        · rw [← le_iff_lt_or_eq']
          constructor <;> intro h <;> linarith
      all_goals cases s <;> simp [GoesUp, away, hhi]
    by_cases hgo : GoesUp m s (topCode t % 2 = 1) (magVal K t (topCode t)) v
        (magVal K t (topCode t) + (magVal K t (topCode t) - magVal K t (topCode t - 1)))
    · exact iff_of_true (hiff.mpr hgo) (by rw [hup hgo]; exact Nat.lt_succ_self _)
    · exact iff_of_false (fun h => hgo (hiff.mp h)) (by rw [hdown hgo]; exact Nat.lt_irrefl _)

end

/-! ### Codes with a sign (R77) -/

section
variable {t : Fmt} {s : Bool} {c : ℕ}

theorem topCode_lt (ht : t ∈ floatFormats) : topCode t + 1 < 2 ^ (Fmt.width t - 1) := by
  simp only [floatFormats, List.mem_cons, List.not_mem_nil, or_false] at ht
  rcases ht with rfl | rfl | rfl | rfl | rfl <;> decide

theorem width_eq (t : Fmt) : 2 ^ Fmt.width t = 2 ^ (Fmt.width t - 1) + 2 ^ (Fmt.width t - 1) := by cases t <;> decide

theorem withSign_lt (hc : c < 2 ^ (Fmt.width t - 1)) : withSign t s c < 2 ^ Fmt.width t := by
  have := width_eq t
  unfold withSign
  split <;> omega

theorem signOf_withSign (hc : c < 2 ^ (Fmt.width t - 1)) : signOf t (withSign t s c) = s := by
  cases s
  · exact Nat.testBit_lt_two_pow hc
  · simp [signOf, withSign, Nat.testBit_two_pow_add_eq, Nat.testBit_lt_two_pow hc]

theorem magOf_withSign (hc : c < 2 ^ (Fmt.width t - 1)) : magOf t (withSign t s c) = c := by
  cases s <;> simp [magOf, withSign, Nat.mod_eq_of_lt hc]

theorem withSign_even (ht : t ∈ floatFormats) : withSign t s c % 2 = c % 2 := by
  have h2 : 2 ^ (Fmt.width t - 1) % 2 = 0 := by cases t <;> decide
  cases s
  · rfl
  · simp [withSign, Nat.add_mod, h2]

/-- The value of a code is that of its magnitude with its sign. -/
theorem valueOf_eq (t : Fmt) (c : ℕ) : valueOf t c = (if signOf t c then -1 else 1) * magVal ℚ t (magOf t c) := by
  have hfrac : magOf t c % 2 ^ fracOf t = c % 2 ^ fracOf t := Nat.mod_mod_of_dvd _ (Nat.pow_dvd_pow 2 (by cases t <;> decide))
  unfold valueOf magVal
  dsimp only
  rw [hfrac]
  by_cases h : magOf t c / 2 ^ fracOf t = 0
  · rw [if_pos h, if_pos h, ← hfrac, Nat.mod_eq_of_lt (Nat.lt_of_div_eq_zero (Nat.two_pow_pos _) h)]
  · rw [if_neg h, if_neg h]

theorem valueOf_withSign (hc : c < 2 ^ (Fmt.width t - 1)) : valueOf t (withSign t s c) = (if s then -1 else 1) * magVal ℚ t c := by
  rw [valueOf_eq, signOf_withSign hc, magOf_withSign hc]

end

/-! ### The statements' words for a rounded value -/

section
variable {t : Fmt} {m : Rm} {sat s : Bool} {v : ℚ} {r : Rounded} {code : ℕ}

theorem abs_signed (s : Bool) (v : ℚ) (hv : 0 ≤ v) : |(if s then -1 else 1) * v| = v := by
  cases s <;> simp [abs_of_nonneg hv]

theorem overflow_eq_outcomeBeyond (ht : t ∈ floatFormats) (m : Rm) (sat s : Bool) : overflow t m sat s = outcomeBeyond t m sat s := by
  simp only [floatFormats, List.mem_cons, List.not_mem_nil, or_false] at ht
  rcases ht with rfl | rfl | rfl | rfl | rfl <;> cases m <;> cases sat <;> cases s <;> decide

/-- Of two values with signs, the distance to the one of the same sign is that of the magnitudes; to another it is their sum. -/
theorem abs_valueOf_sub (t : Fmt) (d : ℕ) (s : Bool) (hv : 0 < v) : |valueOf t d - (if s then -1 else 1) * v| =
    if signOf t d = s then |magVal ℚ t (magOf t d) - v| else magVal ℚ t (magOf t d) + v := by
  have hnn := magVal_nonneg (K := ℚ) t (magOf t d)
  have hsum : |magVal ℚ t (magOf t d) + v| = magVal ℚ t (magOf t d) + v := abs_of_nonneg (add_nonneg hnn hv.le)
  rw [valueOf_eq]
  cases signOf t d <;> cases s
  · simp
  · simp [hsum]
  · have hneg : -1 * magVal ℚ t (magOf t d) - 1 * v = -(magVal ℚ t (magOf t d) + v) := by ring
    simpa using (congrArg abs hneg).trans ((abs_neg _).trans hsum)
  · have hneg : -1 * magVal ℚ t (magOf t d) - -1 * v = -(magVal ℚ t (magOf t d) - v) := by ring
    simpa using (congrArg abs hneg).trans (abs_neg _)

theorem roundsTo_of_roundedMag (ht : t ∈ floatFormats) (h : RoundedMag t m s v code) (hv : 0 < v) (hcode : code ≤ topCode t) :
    RoundsTo t m s ((if s then -1 else 1) * v) (withSign t s code) := by
  have hlt : code < 2 ^ (Fmt.width t - 1) := by have := topCode_lt ht; omega
  have hmag := magOf_withSign (s := s) hlt
  have hsign := signOf_withSign (s := s) hlt
  refine ⟨withSign_lt hlt, by simpa [finiteIn, hmag] using hcode, hsign, fun d _ _ => ?_⟩
  have hnn := magVal_nonneg (K := ℚ) t code
  have hdn := magVal_nonneg (K := ℚ) t (magOf t d)
  cases m
  case rne =>
    obtain ⟨hle, heven⟩ := roundedMag_nearest h (magOf t d)
    obtain ⟨hle0, heven0⟩ := roundedMag_nearest h 0
    rw [magVal_zero, zero_sub, abs_neg, abs_of_pos hv] at hle0 heven0
    simp only [abs_valueOf_sub t _ s hv, hsign, hmag, if_true, withSign_even ht]
    by_cases hs : signOf t d = s
    · rw [if_pos hs]
      refine ⟨hle, fun heq hne => heven heq fun hmv => hne ?_⟩
      rw [valueOf_withSign hlt, valueOf_eq, hs, hmv]
    · rw [if_neg hs]
      refine ⟨by linarith, fun heq hne => ?_⟩
      have hd0 : magVal ℚ t (magOf t d) = 0 := by linarith
      refine heven0 (by linarith) fun h0 => hne ?_
      rw [valueOf_withSign hlt, valueOf_eq, h0, hd0, mul_zero, mul_zero]
  case rtz =>
    obtain ⟨hle, hgreatest⟩ := roundedMag_floor h (by decide) (by cases s <;> rfl)
    have habs (c : ℕ) : |valueOf t c| = magVal ℚ t (magOf t c) := by rw [valueOf_eq, abs_signed _ _ (magVal_nonneg t _)]
    simp only [habs, hmag, abs_signed s v hv.le]
    exact ⟨hle, hgreatest _⟩
  case rdn =>
    rw [valueOf_withSign hlt, valueOf_eq t d]
    cases s
    · obtain ⟨hle, hgreatest⟩ := roundedMag_floor h (by decide) rfl
      refine ⟨by simpa using hle, ?_⟩
      cases signOf t d
      · simpa using hgreatest _
      · exact fun _ => by simp only [if_true, Bool.false_eq_true, if_false]; linarith
    · obtain ⟨hle, hleast⟩ := roundedMag_ceil h rfl
      refine ⟨by simpa using hle, ?_⟩
      cases signOf t d
      · intro hd
        simp only [if_true, Bool.false_eq_true, if_false] at hd
        linarith
      · simpa using hleast _
  case rup =>
    rw [valueOf_withSign hlt, valueOf_eq t d]
    cases s
    · obtain ⟨hle, hleast⟩ := roundedMag_ceil h rfl
      refine ⟨by simpa using hle, ?_⟩
      cases signOf t d
      · simpa using hleast _
      · intro hd
        simp only [if_true, Bool.false_eq_true, if_false] at hd
        linarith
    · obtain ⟨hle, hgreatest⟩ := roundedMag_floor h (by decide) rfl
      refine ⟨by simpa using hle, ?_⟩
      cases signOf t d
      · exact fun _ => by simp only [if_true, Bool.false_eq_true, if_false]; linarith
      · simpa using hgreatest _

/-- A rounded magnitude, with its sign, is the rounded value of the statements. -/
theorem rounds_of_roundsMag (ht : t ∈ floatFormats) (h : RoundsMag t m sat s v r) (hv : 0 < v) :
    Rounds t m sat s ((if s then -1 else 1) * v) r := by
  obtain ⟨code, hround, hover, hin⟩ := h
  have habs := abs_signed s v hv.le
  have htop (c : ℕ) (hc : c ≤ topCode t) : valueOf t c = magVal ℚ t c := by
    have := valueOf_withSign (s := false) (t := t) (c := c) (by have := topCode_lt ht; omega)
    simpa [withSign] using this
  have hoverflows : Overflows t m s ((if s then -1 else 1) * v) ↔ topCode t < code := by
    rw [← overflowsMag_iff ht hround]
    simp only [Overflows, OverflowsMag, habs, htop _ le_rfl, htop _ (Nat.sub_le _ 1)]
  have htiny : Tiny t m s ((if s then -1 else 1) * v) ↔ TinyMag t m s v := by simp only [Tiny, TinyMag, habs]
  rw [Rounds, hoverflows, htiny, ← overflow_eq_outcomeBeyond ht]
  refine ⟨hover, fun hle => ?_⟩
  obtain ⟨hr, hex, hne⟩ := hin (Nat.not_lt.mp hle)
  have hval : valueOf t r.1 = (if s then -1 else 1) * v ↔ magVal ℚ t code = v := by
    rw [hr, valueOf_withSign (by have := topCode_lt ht; omega)]
    exact mul_right_inj' (by split <;> norm_num)
  rw [ne_eq, hval]
  exact ⟨hr ▸ roundsTo_of_roundedMag ht hround hv (Nat.not_lt.mp hle), hex, hne⟩

end

end Sys2Proof.Proofs
end

