-- ==== Sys2Proof/Proofs/FloatCodes.lean ====
section
/-! SUPPORT. What a code stands for (R77, R81): the reading of a code by `decVal`, by kind of code, for the formats of conversions and for those of the float
instructions. -/

namespace Sys2Proof.Proofs

open Sys2Proof Sys2Proof.Machine Sys2Proof.Claims Sys2Proof.Laws

/-! ### The formats of conversions -/

section
variable {t : Fmt} {c : ℕ}

/-- The exponent bits of a format. -/
def expOf : Fmt → ℕ
  | .fp32 | .bf16 => 8
  | .e4m3 => 4
  | _ => 5

/-- The significand of a code, and the exponent of its unit. -/
def significand (t : Fmt) (c : ℕ) : ℕ := if magOf t c / 2 ^ fracOf t = 0 then c % 2 ^ fracOf t else 2 ^ fracOf t + c % 2 ^ fracOf t
def unitExp (t : Fmt) (c : ℕ) : ℤ :=
  if magOf t c / 2 ^ fracOf t = 0 then (1 : ℤ) - biasOf t - fracOf t else ((magOf t c / 2 ^ fracOf t : ℕ) : ℤ) - biasOf t - fracOf t

theorem ratOf_significand (t : Fmt) (c : ℕ) : ratOf (signOf t c) (significand t c) (unitExp t c) = valueOf t c := by
  unfold ratOf significand unitExp valueOf
  dsimp only
  split_ifs <;> ring

theorem dims_eq (ht : t ∈ floatFormats) : Fmt.dims t = (expOf t, fracOf t, biasOf t) := by
  simp only [floatFormats, List.mem_cons, List.not_mem_nil, or_false] at ht
  rcases ht with rfl | rfl | rfl | rfl | rfl <;> rfl

theorem signOf_eq_bit (ht : t ∈ floatFormats) : bit c (expOf t + fracOf t) = signOf t c := by
  rw [bit_eq_testBit]
  simp only [floatFormats, List.mem_cons, List.not_mem_nil, or_false] at ht
  rcases ht with rfl | rfl | rfl | rfl | rfl <;> rfl

/-- The exponent field of a code, from its magnitude. -/
theorem expField_magOf (ht : t ∈ floatFormats) : c / 2 ^ fracOf t % 2 ^ expOf t = magOf t c / 2 ^ fracOf t := by
  have hw : Fmt.width t - 1 = fracOf t + expOf t := by
    simp only [floatFormats, List.mem_cons, List.not_mem_nil, or_false] at ht
    rcases ht with rfl | rfl | rfl | rfl | rfl <;> rfl
  rw [magOf, hw, Nat.pow_add, Nat.mod_mul_right_div_self]

/-- The reading of a code in words of its fields. -/
theorem decVal_eq (ht : t ∈ floatFormats) : decVal t c =
    if t = .e4m3 ∧ magOf t c / 2 ^ fracOf t = 15 ∧ c % 2 ^ fracOf t = 7 then .nan
    else if t ≠ .e4m3 ∧ magOf t c / 2 ^ fracOf t = 2 ^ expOf t - 1 then (if c % 2 ^ fracOf t = 0 then .inf (signOf t c) else .nan)
    else .fin (signOf t c) (significand t c) (unitExp t c) := by
  have hdims := dims_eq ht
  have hbit := signOf_eq_bit (c := c) ht
  have hexp := expField_magOf (c := c) ht
  have hdec : decVal t c = (let (eb, fb, bias) := Fmt.dims t
      let s := bit c (eb + fb)
      let ex := c / 2 ^ fb % 2 ^ eb
      let fr := c % 2 ^ fb
      if t = .e4m3 ∧ ex = 15 ∧ fr = 7 then .nan
      else if t ≠ .e4m3 ∧ ex = 2 ^ eb - 1 then (if fr = 0 then .inf s else .nan)
      else if ex = 0 then .fin s fr (1 - (bias : Int) - fb)
      else .fin s (2 ^ fb + fr) ((ex : Int) - bias - fb)) := by
    simp only [floatFormats, List.mem_cons, List.not_mem_nil, or_false] at ht
    rcases ht with rfl | rfl | rfl | rfl | rfl <;> rfl
  simp only [hdec, hdims, hbit, hexp, significand, unitExp]
  split_ifs <;> rfl

theorem magOf_eq (t : Fmt) (c : ℕ) : magOf t c = 2 ^ fracOf t * (magOf t c / 2 ^ fracOf t) + c % 2 ^ fracOf t := by
  have hfrac : magOf t c % 2 ^ fracOf t = c % 2 ^ fracOf t := Nat.mod_mod_of_dvd _ (Nat.pow_dvd_pow 2 (by cases t <;> decide))
  rw [← hfrac, Nat.div_add_mod]

theorem magOf_lt (t : Fmt) (c : ℕ) : magOf t c < 2 ^ (Fmt.width t - 1) := Nat.mod_lt _ (Nat.two_pow_pos _)

theorem decVal_finite (ht : t ∈ floatFormats) (h : finiteIn t c = true) :
    decVal t c = .fin (signOf t c) (significand t c) (unitExp t c) := by
  have hm := magOf_eq t c
  have hr := Nat.mod_lt c (Nat.two_pow_pos (fracOf t))
  have h : magOf t c ≤ topCode t := of_decide_eq_true h
  rw [decVal_eq ht, if_neg, if_neg] <;> generalize magOf t c = g at * <;> generalize c % 2 ^ fracOf t = fr at *
  all_goals
    simp only [floatFormats, List.mem_cons, List.not_mem_nil, or_false] at ht
    rcases ht with rfl | rfl | rfl | rfl | rfl <;> simp [fracOf, expOf, topCode] at * <;> omega

theorem decVal_inf (ht : t ∈ floatFormats) (h : infIn t c = true) : decVal t c = .inf (signOf t c) := by
  have hm := magOf_eq t c
  have hr := Nat.mod_lt c (Nat.two_pow_pos (fracOf t))
  simp only [infIn, Bool.and_eq_true, bne_iff_ne, beq_iff_eq] at h
  obtain ⟨ht4, h⟩ := h
  rw [decVal_eq ht, if_neg (fun h => ht4 h.1), if_pos, if_pos] <;> generalize magOf t c = g at * <;> generalize c % 2 ^ fracOf t = fr at *
  all_goals
    simp only [floatFormats, List.mem_cons, List.not_mem_nil, or_false] at ht
    rcases ht with rfl | rfl | rfl | rfl | rfl <;> simp [fracOf, expOf, topCode] at * <;> omega

theorem decVal_nan (ht : t ∈ floatFormats) (hf : finiteIn t c = false) (hi : infIn t c = false) : decVal t c = .nan := by
  have hm := magOf_eq t c
  have hr := Nat.mod_lt c (Nat.two_pow_pos (fracOf t))
  have hlt := magOf_lt t c
  have hf : ¬ magOf t c ≤ topCode t := of_decide_eq_false hf
  have hi : ¬ (t ≠ .e4m3 ∧ magOf t c = topCode t + 1) := by simpa [infIn] using hi
  rw [decVal_eq ht]
  by_cases he : t = .e4m3
  · subst he
    simp only [fracOf, topCode, Fmt.width] at *
    exact if_pos ⟨trivial, by omega, by omega⟩
  · rw [if_neg (fun h => he h.1), if_pos, if_neg] <;> generalize magOf t c = g at * <;> generalize c % 2 ^ fracOf t = fr at *
    all_goals
      simp only [floatFormats, List.mem_cons, List.not_mem_nil, or_false] at ht
      rcases ht with rfl | rfl | rfl | rfl | rfl <;> simp [fracOf, expOf, topCode, Fmt.width] at * <;> omega

end

/-! ### The formats of the float instructions -/

section
variable {f : FFmt} {c : ℕ}

theorem fmt_mem (f : FFmt) : FFmt.fmt f ∈ floatFormats := by cases f <;> decide

theorem width_fmt (f : FFmt) : Fmt.width (FFmt.fmt f) = floatWidth f := by cases f <;> rfl

theorem fracOf_fmt (f : FFmt) : fracOf (FFmt.fmt f) = fracBits f := by cases f <;> rfl

theorem biasOf_fmt (f : FFmt) : biasOf (FFmt.fmt f) = bias f := by cases f <;> rfl

theorem topCode_fmt (f : FFmt) : topCode (FFmt.fmt f) + 1 = infinity f := by cases f <;> rfl

theorem signOf_fmt (f : FFmt) (c : ℕ) : signOf (FFmt.fmt f) c = negative f c := by rw [signOf, width_fmt, negative]

theorem magOf_fmt (f : FFmt) (c : ℕ) : magOf (FFmt.fmt f) c = magnitude f c := by rw [magOf, width_fmt, magnitude]

theorem withSign_fmt (f : FFmt) (s : Bool) (c : ℕ) : withSign (FFmt.fmt f) s c = signed f s c := by rw [withSign, width_fmt, signed, signBit]

theorem finiteIn_fmt (f : FFmt) (c : ℕ) : finiteIn (FFmt.fmt f) c = finite f c := by
  rw [finiteIn, finite, magOf_fmt, ← topCode_fmt]
  exact decide_eq_decide.mpr Nat.lt_succ_iff.symm

theorem infIn_fmt (f : FFmt) (c : ℕ) : infIn (FFmt.fmt f) c = isInf f c := by
  rw [infIn, isInf, magOf_fmt, topCode_fmt]
  cases f <;> rfl

theorem expField_fmt (f : FFmt) (c : ℕ) : expField f c = magOf (FFmt.fmt f) c / 2 ^ fracOf (FFmt.fmt f) := by
  rw [← expField_magOf (fmt_mem f), expField, fracOf_fmt]
  cases f <;> rfl

/-- The value of a finite code of a float instruction is that of the conversions. -/
theorem rat_eq_valueOf (f : FFmt) (c : ℕ) : rat f c = valueOf (FFmt.fmt f) c := by
  simp only [rat, valueOf, expField_fmt, signOf_fmt, fracOf_fmt, biasOf_fmt, fracField]

theorem decVal_of_isNan (h : isNan f c = true) : decVal (FFmt.fmt f) c = .nan := by
  have h : infinity f < magnitude f c := of_decide_eq_true h
  refine decVal_nan (fmt_mem f) ?_ ?_
  · rw [finiteIn_fmt]
    exact decide_eq_false (by omega)
  · rw [infIn_fmt]
    exact beq_eq_false_iff_ne.mpr (by omega)

theorem decVal_of_isInf (h : isInf f c = true) : decVal (FFmt.fmt f) c = .inf (negative f c) := by
  rw [decVal_inf (fmt_mem f) (by rwa [infIn_fmt]), signOf_fmt]

theorem decVal_of_finite (h : finite f c = true) :
    decVal (FFmt.fmt f) c = .fin (negative f c) (significand (FFmt.fmt f) c) (unitExp (FFmt.fmt f) c) := by
  rw [decVal_finite (fmt_mem f) (by rwa [finiteIn_fmt]), signOf_fmt]

theorem ratOf_fmt (f : FFmt) (c : ℕ) : ratOf (negative f c) (significand (FFmt.fmt f) c) (unitExp (FFmt.fmt f) c) = rat f c := by
  rw [← signOf_fmt, ratOf_significand, rat_eq_valueOf]

/-- The significand of a code is 0 where its magnitude is. -/
theorem significand_eq_zero_iff (f : FFmt) (c : ℕ) : significand (FFmt.fmt f) c = 0 ↔ magnitude f c = 0 := by
  have hm := magOf_eq (FFmt.fmt f) c
  have hp := Nat.two_pow_pos (fracOf (FFmt.fmt f))
  rw [← magOf_fmt, significand]
  constructor
  · intro h
    split_ifs at h with hz
    · rw [hm, hz, h, Nat.mul_zero]
    · omega
  · intro h
    rw [h] at hm ⊢
    simpa using hm.symm

/-- Every code is a NaN, an infinity or finite. -/
theorem code_kind (f : FFmt) (c : ℕ) : isNan f c = true ∨ isInf f c = true ∨ finite f c = true := by
  simp only [isNan, isInf, finite, decide_eq_true_eq, beq_iff_eq]
  omega

/-- A code is its sign and its magnitude. -/
theorem signed_magnitude (h : c < 2 ^ floatWidth f) : signed f (negative f c) (magnitude f c) = c := by
  have hw := width_eq (FFmt.fmt f)
  rw [width_fmt] at hw
  have hdm := Nat.div_add_mod c (2 ^ (floatWidth f - 1))
  have htwo : c < 2 * 2 ^ (floatWidth f - 1) := by rw [Nat.two_mul, ← hw]; exact h
  have hlt : c / 2 ^ (floatWidth f - 1) < 2 := (Nat.div_lt_iff_lt_mul (Nat.two_pow_pos _)).mpr htwo
  rw [signed, negative, magnitude, signBit, Nat.testBit_eq_decide_div_mod_eq, Nat.mod_eq_of_lt hlt]
  generalize 2 ^ (floatWidth f - 1) = p at *
  rcases Nat.le_one_iff_eq_zero_or_eq_one.mp (Nat.lt_succ_iff.mp hlt) with h0 | h1
  · simp [h0] at hdm ⊢
    exact hdm
  · simp [h1] at hdm ⊢
    exact hdm

end

end Sys2Proof.Proofs
end

