-- ==== Sys2Proof/Proofs/FloatResults.lean ====
section
/-! SUPPORT. Rounding to nearest in the words of the float instructions (R86, R88, R89), and when two values round to nearest alike: when no number of few bits
lies between them. A value cut off below its first 27 bits, with a last bit that says whether something was cut off, rounds as the value does. -/

namespace Sys2Proof.Proofs

open Sys2Proof Sys2Proof.Machine Sys2Proof.Claims Sys2Proof.Laws

/-! ### Values that round alike -/

section
variable {K : Type} [Field K] [LinearOrder K] [IsStrictOrderedRing K] {t : Fmt} {sat s : Bool} {v w : K} {r : Rounded}

/-- Every number of at most 26 bits compares alike with both. -/
def SameSide (v w : K) : Prop := ∀ (n : ℕ) (g : ℤ), n < 2 ^ 26 → ((n : K) * 2 ^ g ≤ v ↔ (n : K) * 2 ^ g ≤ w) ∧ (v ≤ (n : K) * 2 ^ g ↔ w ≤ (n : K) * 2 ^ g)

omit [IsStrictOrderedRing K] in
theorem SameSide.congr (h : SameSide v w) {n : ℕ} {g : ℤ} {b : K} (hb : b = n * 2 ^ g) (hn : n < 2 ^ 26) : (b ≤ v ↔ b ≤ w) ∧ (v ≤ b ↔ w ≤ b) :=
  hb ▸ h n g hn

/-- A value cut off to a multiple of a unit, with a last bit that says whether something was cut off. -/
theorem sameSide_sticky {k : ℕ} {q : ℤ} {sticky : Bool} (hk : 2 ^ 26 ≤ k) (hlo : (k : K) * 2 ^ q ≤ v) (hhi : v < (k + 1) * 2 ^ q)
    (hs : sticky = true ↔ v ≠ k * 2 ^ q) : SameSide v (((2 * k + b2n sticky : ℕ) : K) * 2 ^ (q - 1)) := by
  intro n g hn
  have hu := two_zpow_pos (K := K) q
  have hhalf : (2 : K) ^ q = 2 * 2 ^ (q - 1) := by
    rw [← zpow_one_add₀ two_ne_zero, add_sub_cancel]
  have hw : ((2 * k + b2n sticky : ℕ) : K) * 2 ^ (q - 1) = k * 2 ^ q + b2n sticky * 2 ^ (q - 1) := by
    rw [hhalf]
    push_cast
    ring
  have hwlo : (k : K) * 2 ^ q ≤ ((2 * k + b2n sticky : ℕ) : K) * 2 ^ (q - 1) := by
    rw [hw]
    have := two_zpow_pos (K := K) (q - 1)
    cases sticky <;> simp [b2n, this.le]
  have hwhi : ((2 * k + b2n sticky : ℕ) : K) * 2 ^ (q - 1) < (k + 1) * 2 ^ q := by
    rw [hw, add_one_mul, hhalf]
    have := two_zpow_pos (K := K) (q - 1)
    cases sticky <;> simp [b2n] <;> linarith
  have hexact : ((2 * k + b2n sticky : ℕ) : K) * 2 ^ (q - 1) = k * 2 ^ q ↔ v = k * 2 ^ q := by
    rw [hw]
    have := two_zpow_pos (K := K) (q - 1)
    cases sticky
    · simpa [b2n] using hs
    · simpa [b2n, this.ne'] using hs
  generalize ((2 * k + b2n sticky : ℕ) : K) * 2 ^ (q - 1) = w at *
  by_cases hg : q ≤ g
  · have hn : (n : K) * 2 ^ g = ((n * 2 ^ (g - q).toNat : ℕ) : K) * 2 ^ q := by
      rw [two_zpow_split (K := K) (j := g) (k := q) (n := (g - q).toNat) (by omega)]
      push_cast
      ring
    rw [hn]
    generalize n * 2 ^ (g - q).toNat = j
    obtain hj | rfl | hj : j < k ∨ j = k ∨ k + 1 ≤ j := by omega
    · have : (j : K) * 2 ^ q < k * 2 ^ q := mul_lt_mul_of_pos_right (by exact_mod_cast hj) hu
      exact ⟨iff_of_true (by linarith) (by linarith), iff_of_false (by linarith) (by linarith)⟩
    · refine ⟨iff_of_true hlo hwlo, ?_⟩
      rw [le_iff_eq_or_lt, le_iff_eq_or_lt, hexact]
      simp [hlo.not_gt, hwlo.not_gt]
    · have : ((k : K) + 1) * 2 ^ q ≤ j * 2 ^ q := mul_le_mul_of_nonneg_right (by exact_mod_cast hj) hu.le
      exact ⟨iff_of_false (by linarith) (by linarith), iff_of_true (by linarith) (by linarith)⟩
  · have hsmall : (n : K) * 2 ^ g < k * 2 ^ q := by
      have hpow : (2 : K) ^ g ≤ 2 ^ q := two_zpow_le (by omega)
      have hnk : (n : K) < k := by exact_mod_cast hn.trans_le hk
      exact (mul_le_mul_of_nonneg_left hpow (Nat.cast_nonneg n)).trans_lt (mul_lt_mul_of_pos_right hnk hu)
    exact ⟨iff_of_true (by linarith) (by linarith), iff_of_false (by linarith) (by linarith)⟩

/-- Values on the same side of every number of at most 26 bits round to nearest alike. -/
theorem roundsMag_congr (ht : t ∈ floatFormats) (h : SameSide v w) (hw : RoundsMag t .rne sat s w r) : RoundsMag t .rne sat s v r := by
  have hfrac : 2 ^ (fracOf t + 1) ≤ 2 ^ 24 := Nat.pow_le_pow_right (by decide) (by cases t <;> decide)
  have hval (c : ℕ) : (magVal K t c ≤ v ↔ magVal K t c ≤ w) ∧ (v ≤ magVal K t c ↔ w ≤ magVal K t c) := by
    obtain ⟨E, n, rfl, hn, hE⟩ := code_split t c
    exact h.congr (magVal_split t hn.le hE) (by omega)
  have hmid (c : ℕ) : (magVal K t c + magVal K t (c + 1) < 2 * v ↔ magVal K t c + magVal K t (c + 1) < 2 * w) ∧
      (2 * v = magVal K t c + magVal K t (c + 1) ↔ 2 * w = magVal K t c + magVal K t (c + 1)) := by
    obtain ⟨E, n, rfl, hn, hE⟩ := code_split t c
    have hb : (magVal K t (E * 2 ^ fracOf t + n) + magVal K t (E * 2 ^ fracOf t + n + 1)) / 2 =
        ((2 * n + 1 : ℕ) : K) * 2 ^ ((E : ℤ) + 1 - biasOf t - fracOf t - 1) := by
      rw [Nat.add_assoc, magVal_split t hn.le hE, magVal_split t hn (hE.imp_right fun h => h.trans (Nat.le_succ n)), zpow_sub_one₀ two_ne_zero]
      push_cast
      ring
    obtain ⟨hle, hge⟩ := h.congr hb (by omega)
    rw [div_le_iff₀' two_pos, div_le_iff₀' two_pos] at hle
    rw [le_div_iff₀' two_pos, le_div_iff₀' two_pos] at hge
    exact ⟨by rw [← not_le, ← not_le, hge], by rw [le_antisymm_iff, le_antisymm_iff, hge, hle]⟩
  have htiny : TinyMag t .rne s v ↔ TinyMag t .rne s w := by
    have hb : (2 : K) ^ ((1 : ℤ) - biasOf t) - 2 ^ (-(biasOf t : ℤ) - fracOf t) / 2 =
        ((2 ^ (fracOf t + 2) - 1 : ℕ) : K) * 2 ^ (-(biasOf t : ℤ) - fracOf t - 1) := by
      rw [two_zpow_split (K := K) (j := (1 : ℤ) - biasOf t) (k := -(biasOf t : ℤ) - fracOf t - 1) (n := fracOf t + 2) (by push_cast; omega),
        zpow_sub_one₀ two_ne_zero, Nat.cast_sub Nat.one_le_two_pow]
      push_cast
      ring
    have hlt : 2 ^ (fracOf t + 2) - 1 < 2 ^ 26 := by rw [Nat.pow_succ]; omega
    obtain ⟨hle, -⟩ := h.congr hb hlt
    simp only [TinyMag, if_true]
    rw [← not_le, ← not_le, hle]
  have hgo (c : ℕ) : GoesUp .rne s (c % 2 = 1) (magVal K t c) v (magVal K t (c + 1)) ↔ GoesUp .rne s (c % 2 = 1) (magVal K t c) w (magVal K t (c + 1)) := by
    simp only [GoesUp, (hmid c).1, (hmid c).2]
  obtain ⟨code, ⟨c, hlo, hhi, hup, hdown⟩, hover, hin⟩ := hw
  have heq : magVal K t code = v ↔ magVal K t code = w := by rw [le_antisymm_iff, le_antisymm_iff, (hval code).1, (hval code).2]
  rw [← hgo] at hup hdown
  refine ⟨code, ⟨c, (hval c).1.mpr hlo, ?_, hup, hdown⟩, hover, ?_⟩
  · rw [← not_le, (hval (c + 1)).1]
    exact hhi.not_ge
  · rw [ne_eq, heq, htiny]
    exact hin

end

/-! ### The nearest code of a float instruction -/

section
variable {f : FFmt} {sat : Bool} {q : ℚ} {r : Rounded}

theorem beyond_eq (f : FFmt) : valueOf (FFmt.fmt f) (topCode (FFmt.fmt f)) +
    (valueOf (FFmt.fmt f) (topCode (FFmt.fmt f)) - valueOf (FFmt.fmt f) (topCode (FFmt.fmt f) - 1)) / 2 = beyond f := by
  cases f <;> norm_num [FFmt.fmt, valueOf, topCode, magOf, signOf, fracOf, biasOf, Fmt.width, beyond, bias, fracBits, Nat.testBit_eq_decide_div_mod_eq]

theorem overflows_iff_beyond (f : FFmt) (s : Bool) (q : ℚ) : Overflows (FFmt.fmt f) .rne s q ↔ beyond f ≤ |q| := by
  have h : FFmt.fmt f ≠ .e4m3 := by cases f <;> decide
  simp only [Overflows, if_true, if_neg h, beyond_eq]

theorem tiny_iff_tinyBelow (f : FFmt) (s : Bool) (q : ℚ) : Tiny (FFmt.fmt f) .rne s q ↔ |q| < tinyBelow f := by
  simp only [Tiny, if_true, tinyBelow, biasOf_fmt, fracOf_fmt]
  rw [zpow_sub_one₀ (two_ne_zero' ℚ), div_eq_mul_inv]

theorem tinyBelow_lt_beyond (f : FFmt) : tinyBelow f < beyond f := by
  cases f <;> norm_num [tinyBelow, beyond, bias, fracBits]

theorem outcomeBeyond_fmt (f : FFmt) (sat s : Bool) : outcomeBeyond (FFmt.fmt f) .rne sat s = (signed f s (infinity f), 4 + 16) := by
  cases f <;> cases sat <;> cases s <;> decide

theorem nearest_of_rounds (h : Rounds (FFmt.fmt f) .rne sat (decide (q < 0)) q r) : Nearest f q r.1 ∧ NearestFlags f q r.1 r.2 := by
  obtain ⟨hover, hin⟩ := h
  rw [overflows_iff_beyond, outcomeBeyond_fmt] at hover
  rw [overflows_iff_beyond, tiny_iff_tinyBelow] at hin
  by_cases hb : beyond f ≤ |q|
  · have htiny := (tinyBelow_lt_beyond f).trans_le hb
    rw [hover hb, Nearest, if_pos hb]
    dsimp only
    refine ⟨rfl, iff_of_true (by decide) hb, iff_of_false (by decide) fun h => htiny.not_gt h.1, iff_of_true (by decide) (.inl hb), by decide, by decide⟩
  · obtain ⟨⟨hlt, hfin, hsign, hbest⟩, hexact, hinexact⟩ := hin hb
    simp only [width_fmt, finiteIn_fmt, signOf_fmt, ← rat_eq_valueOf] at hlt hfin hsign hbest hexact hinexact
    rw [Nearest, if_neg hb]
    refine ⟨⟨hlt, hfin, hsign, hbest⟩, ?_⟩
    by_cases hx : rat f r.1 = q
    · rw [NearestFlags, hexact hx]
      refine ⟨iff_of_false (by decide) hb, iff_of_false (by decide) fun h => h.2 hx, iff_of_false (by decide) (not_or.mpr ⟨hb, not_not.mpr hx⟩), by decide, by decide⟩
    · by_cases ht : |q| < tinyBelow f
      · rw [NearestFlags, (hinexact hx).1 ht]
        exact ⟨iff_of_false (by decide) hb, iff_of_true (by decide) ⟨ht, hx⟩, iff_of_true (by decide) (.inr hx), by decide, by decide⟩
      · rw [NearestFlags, (hinexact hx).2 ht]
        exact ⟨iff_of_false (by decide) hb, iff_of_false (by decide) fun h => ht h.1, iff_of_true (by decide) (.inr hx), by decide, by decide⟩

theorem signed_abs (q : ℚ) : (if decide (q < 0) then -1 else 1) * |q| = q := by
  by_cases h : q < 0
  · simp [h, abs_of_neg h]
  · simp [h, abs_of_nonneg (not_lt.mp h)]

theorem nearest_of_roundsMag (hq : q ≠ 0) (h : RoundsMag (FFmt.fmt f) .rne sat (decide (q < 0)) |q| r) :
    Nearest f q r.1 ∧ NearestFlags f q r.1 r.2 := by
  have hr := rounds_of_roundsMag (fmt_mem f) h (abs_pos.mpr hq)
  rw [signed_abs] at hr
  exact nearest_of_rounds hr

end

/-! ### Exact sums and products (R95, R135) -/

/-- The rational value of a finite value. -/
def valRat : Val → ℚ
  | .fin s m e => ratOf s m e
  | _ => 0

/-- A value is a finite number. -/
def IsFin (v : Val) : Prop := ∃ s m e, v = .fin s m e

theorem ratOf_eq_zero_iff (s : Bool) (m : ℕ) (e : ℤ) : ratOf s m e = 0 ↔ m = 0 := by
  have := (two_zpow_pos (K := ℚ) e).ne'
  cases s <;> simp [ratOf, this]

theorem ratOf_eq (s : Bool) (m : ℕ) (e : ℤ) : ratOf s m e = (if s then -1 else 1) * ((m : ℚ) * 2 ^ e) := mul_assoc _ _ _

theorem ratOf_int (s : Bool) (m : ℕ) (e : ℤ) : ratOf s m e = ((if s then -(m : ℤ) else m : ℤ) : ℚ) * 2 ^ e := by
  cases s <;> simp [ratOf]

theorem ratOf_mul (s u : Bool) (m n : ℕ) (e d : ℤ) : ratOf (s != u) (m * n) (e + d) = ratOf s m e * ratOf u n d := by
  unfold ratOf
  rw [two_zpow_add]
  cases s <;> cases u <;> push_cast <;> simp <;> ring

theorem sumFin_value (vs : List (Bool × ℕ × ℤ)) : ((sumFin vs).1 : ℚ) * 2 ^ (sumFin vs).2 = (vs.map fun q => ratOf q.1 q.2.1 q.2.2).sum := by
  induction vs with
  | nil => simp [sumFin]
  | cons q vs ih =>
    obtain ⟨s, m, e⟩ := q
    rw [List.map_cons, List.sum_cons, ← ih, ratOf_int]
    simp only [sumFin]
    generalize (sumFin vs).1 = a
    generalize (sumFin vs).2 = d
    generalize hx : (if s then -(m : ℤ) else m : ℤ) = x
    by_cases hm : m = 0
    · have hx0 : x = 0 := by rw [← hx, hm]; simp
      simp [hm, hx0]
    · by_cases ha : a = 0
      · simp [hm, ha]
      · by_cases hed : e ≤ d
        · simp only [if_neg hm, if_neg ha, if_pos hed]
          rw [two_zpow_split (K := ℚ) (j := d) (k := e) (n := (d - e).toNat) (by omega)]
          push_cast
          ring
        · simp only [if_neg hm, if_neg ha, if_neg hed]
          rw [two_zpow_split (K := ℚ) (j := e) (k := d) (n := (e - d).toNat) (by omega)]
          push_cast
          ring

theorem map_finsOf {vs : List Val} (h : ∀ v ∈ vs, IsFin v) : ((finsOf vs).map fun q => ratOf q.1 q.2.1 q.2.2) = vs.map valRat := by
  induction vs with
  | nil => rfl
  | cons v vs ih =>
    obtain ⟨s, m, e, rfl⟩ := h v List.mem_cons_self
    rw [List.map_cons, ← ih fun v hv => h v (List.mem_cons_of_mem _ hv)]
    rfl

/-- The exact sum: a zero of the sign that R135 says, or a number of the sum's value and sign. -/
theorem sumVal_spec {vs : List Val} (h : ∀ v ∈ vs, IsFin v) :
    ((vs.map valRat).sum = 0 → sumVal vs = .fin (vs.all fun v => v.isZero && v.sign) 0 0) ∧
    ((vs.map valRat).sum ≠ 0 → ∃ k e, k ≠ 0 ∧ sumVal vs = .fin (decide ((vs.map valRat).sum < 0)) k e ∧ (k : ℚ) * 2 ^ e = |(vs.map valRat).sum|) := by
  have hsum := sumFin_value (finsOf vs)
  rw [map_finsOf h] at hsum
  have hu := two_zpow_pos (K := ℚ) (sumFin (finsOf vs)).2
  have hzero : (vs.map valRat).sum = 0 ↔ (sumFin (finsOf vs)).1 = 0 := by
    rw [← hsum, mul_eq_zero, or_iff_left hu.ne', Int.cast_eq_zero]
  have hneg : (vs.map valRat).sum < 0 ↔ (sumFin (finsOf vs)).1 < 0 := by
    rw [← hsum, mul_neg_iff, ← Int.cast_lt_zero (R := ℚ)]
    simp [hu, hu.not_gt]
  simp only [sumVal]
  refine ⟨fun h0 => if_pos (hzero.mp h0), fun h0 =>
    ⟨(sumFin (finsOf vs)).1.natAbs, (sumFin (finsOf vs)).2, ?_, (if_neg (mt hzero.mpr h0)).trans ?_, ?_⟩⟩
  · exact Int.natAbs_ne_zero.mpr (mt hzero.mpr h0)
  · rw [decide_eq_decide.mpr hneg]
  · rw [← hsum, abs_mul, abs_of_pos hu, Nat.cast_natAbs, Int.cast_abs]

end Sys2Proof.Proofs
end

