-- ==== Sys2Proof/Proofs/FloatArithmetic.lean ====
section
/-! SUPPORT. FADD, FSUB, FMUL, FMA, FDIV, FRCP, FSQRT and FRSQ of finite operands (R135, R136): their exact results, and that what the model rounds in place
of a quotient or a root rounds as the exact result does. -/

namespace Sys2Proof.Proofs

open Sys2Proof Sys2Proof.Machine Sys2Proof.Claims Sys2Proof.Laws

/-! ### Rounding a finite value -/

section
variable {f : FFmt} {vs : List Val}

theorem roundVal_fin {t : Fmt} (ht : t ∈ floatFormats) (m : Rm) (sat s : Bool) (k : ℕ) (e : ℤ) :
    roundVal t m sat (.fin s k e) = roundFin t m sat s k e := by
  simp only [floatFormats, List.mem_cons, List.not_mem_nil, or_false] at ht
  rcases ht with rfl | rfl | rfl | rfl | rfl <;> rfl

theorem rne_fin (f : FFmt) (s : Bool) (k : ℕ) (e : ℤ) : rne (FFmt.fmt f) (.fin s k e) = roundFin (FFmt.fmt f) .rne true s k e :=
  roundVal_fin (fmt_mem f) _ _ _ _ _

theorem rne_zero (f : FFmt) (s : Bool) (e : ℤ) : rne (FFmt.fmt f) (.fin s 0 e) = (signed f s 0, 0) := by
  rw [rne_fin, roundFin_zero, withSign_fmt]

/-- A finite value that is not zero, rounded to nearest. -/
theorem rne_nearest {q : ℚ} {k : ℕ} {e : ℤ} (hk : k ≠ 0) (hq : (k : ℚ) * 2 ^ e = |q|) :
    Nearest f q (rne (FFmt.fmt f) (.fin (decide (q < 0)) k e)).1 ∧
      NearestFlags f q (rne (FFmt.fmt f) (.fin (decide (q < 0)) k e)).1 (rne (FFmt.fmt f) (.fin (decide (q < 0)) k e)).2 := by
  have hne : q ≠ 0 := by
    rintro rfl
    have hpos := two_zpow_pos (K := ℚ) e
    rw [abs_zero, mul_eq_zero, or_iff_left hpos.ne', Nat.cast_eq_zero] at hq
    exact hk hq
  refine nearest_of_roundsMag (sat := true) hne ?_
  rw [rne_fin, ← hq]
  exact roundFin_spec (fmt_mem f) _ _ _ _ hk

theorem finishF_noFlags (t : Fmt) (v : Val) : finishF t (v, 0) = rne t v := by simp [finishF]

theorem rne_sumVal_nearest (h : ∀ v ∈ vs, IsFin v) (hs : (vs.map valRat).sum ≠ 0) :
    Nearest f (vs.map valRat).sum (rne (FFmt.fmt f) (sumVal vs)).1 ∧
      NearestFlags f (vs.map valRat).sum (rne (FFmt.fmt f) (sumVal vs)).1 (rne (FFmt.fmt f) (sumVal vs)).2 := by
  obtain ⟨k, e, hk, hv, hq⟩ := (sumVal_spec h).2 hs
  rw [hv]
  exact rne_nearest hk hq

theorem rne_sumVal_zero (h : ∀ v ∈ vs, IsFin v) (hs : (vs.map valRat).sum = 0) :
    rne (FFmt.fmt f) (sumVal vs) = (if (vs.all fun v => v.isZero && v.sign) then signBit f else 0, 0) := by
  rw [(sumVal_spec h).1 hs, rne_zero, signed]
  rfl

end

/-! ### Sums and products of two values -/

section
variable {a b : Val}

theorem IsFin.neg (h : IsFin a) : IsFin a.neg := by
  obtain ⟨s, m, e, rfl⟩ := h
  exact ⟨!s, m, e, rfl⟩

theorem valRat_neg (a : Val) : valRat a.neg = -valRat a := by
  cases a with
  | fin s m e => cases s <;> simp [valRat, Val.neg, ratOf]
  | _ => simp [valRat, Val.neg]

theorem addVal_fin (ha : IsFin a) (hb : IsFin b) : addVal a b = (sumVal [a, b], 0) := by
  obtain ⟨s, m, e, rfl⟩ := ha
  obtain ⟨u, n, d, rfl⟩ := hb
  rfl

theorem mulVal_fin (ha : IsFin a) (hb : IsFin b) : ∃ p, mulVal a b = (p, 0) ∧ IsFin p ∧ valRat p = valRat a * valRat b ∧ p.sign = (a.sign != b.sign) := by
  obtain ⟨s, m, e, rfl⟩ := ha
  obtain ⟨u, n, d, rfl⟩ := hb
  exact ⟨_, rfl, ⟨_, _, _, rfl⟩, ratOf_mul s u m n e d, rfl⟩

theorem isZero_iff (ha : IsFin a) : a.isZero = true ↔ valRat a = 0 := by
  obtain ⟨s, m, e, rfl⟩ := ha
  rw [valRat, ratOf_eq_zero_iff]
  simp [Val.isZero]

theorem forall_mem_pair {p : Val → Prop} (ha : p a) (hb : p b) : ∀ v ∈ [a, b], p v := by simp [ha, hb]

theorem sum_pair (a b : Val) : ([a, b].map valRat).sum = valRat a + valRat b := by simp

end

section
variable {f : FFmt} {a b : Val}

theorem rne_add_nearest (ha : IsFin a) (hb : IsFin b) (h : valRat a + valRat b ≠ 0) :
    Nearest f (valRat a + valRat b) (finishF (FFmt.fmt f) (addVal a b)).1 ∧
      NearestFlags f (valRat a + valRat b) (finishF (FFmt.fmt f) (addVal a b)).1 (finishF (FFmt.fmt f) (addVal a b)).2 := by
  rw [addVal_fin ha hb, finishF_noFlags, ← sum_pair]
  exact rne_sumVal_nearest (forall_mem_pair ha hb) (by rwa [sum_pair])

/-- An exact sum of zero is +0 unless both addends are −0 (R135). -/
theorem rne_add_zero (ha : IsFin a) (hb : IsFin b) (h : valRat a + valRat b = 0) :
    finishF (FFmt.fmt f) (addVal a b) = (if (a.isZero && a.sign) && (b.isZero && b.sign) then signBit f else 0, 0) := by
  rw [addVal_fin ha hb, finishF_noFlags, rne_sumVal_zero (forall_mem_pair ha hb) (by rwa [sum_pair])]
  simp

theorem rne_product_nearest (ha : IsFin a) (h : valRat a ≠ 0) :
    Nearest f (valRat a) (rne (FFmt.fmt f) a).1 ∧ NearestFlags f (valRat a) (rne (FFmt.fmt f) a).1 (rne (FFmt.fmt f) a).2 := by
  obtain ⟨s, m, e, rfl⟩ := ha
  have hm : m ≠ 0 := mt (ratOf_eq_zero_iff s m e).mpr h
  have hpos : 0 < (m : ℚ) * 2 ^ e := mul_pos (by exact_mod_cast Nat.pos_of_ne_zero hm) (two_zpow_pos e)
  have hs : s = decide (ratOf s m e < 0) := by
    rw [ratOf_eq]
    cases s <;> simp [hpos, hpos.le]
  have hv : (m : ℚ) * 2 ^ e = |ratOf s m e| := by rw [ratOf_eq, abs_signed s _ hpos.le]
  have := rne_nearest (f := f) hm hv
  rwa [← hs] at this

end

/-! ### Finite codes -/

section
variable {f : FFmt} {x : ℕ}

theorem isFin_decVal (h : finite f x = true) : IsFin (decVal (FFmt.fmt f) x) := ⟨_, _, _, decVal_of_finite h⟩

theorem valRat_decVal (h : finite f x = true) : valRat (decVal (FFmt.fmt f) x) = rat f x := by rw [decVal_of_finite h, valRat, ratOf_fmt]

theorem sign_decVal (h : finite f x = true) : (decVal (FFmt.fmt f) x).sign = negative f x := by rw [decVal_of_finite h, Val.sign]

theorem rat_eq_zero_iff (f : FFmt) (x : ℕ) : rat f x = 0 ↔ magnitude f x = 0 := by
  rw [← ratOf_fmt, ratOf_eq_zero_iff, significand_eq_zero_iff]

theorem negZero_iff (hx : x < 2 ^ floatWidth f) : (magnitude f x = 0 ∧ negative f x = true) ↔ x = signBit f := by
  constructor
  · rintro ⟨hm, hn⟩
    rw [← signed_magnitude hx, hm, hn]
    rfl
  · rintro rfl
    cases f <;> decide

theorem posZero_iff (hx : x < 2 ^ floatWidth f) : (magnitude f x = 0 ∧ negative f x = false) ↔ x = 0 := by
  constructor
  · rintro ⟨hm, hn⟩
    rw [← signed_magnitude hx, hm, hn]
    rfl
  · rintro rfl
    cases f <;> decide

theorem isNegZero_decVal (h : finite f x = true) (hx : x < 2 ^ floatWidth f) :
    ((decVal (FFmt.fmt f) x).isZero && (decVal (FFmt.fmt f) x).sign) = decide (x = signBit f) := by
  rw [Bool.eq_iff_iff, Bool.and_eq_true, isZero_iff (isFin_decVal h), valRat_decVal h, sign_decVal h, rat_eq_zero_iff, negZero_iff hx, decide_eq_true_iff]

theorem isNegZero_neg_decVal (h : finite f x = true) (hx : x < 2 ^ floatWidth f) :
    ((decVal (FFmt.fmt f) x).neg.isZero && (decVal (FFmt.fmt f) x).neg.sign) = decide (x = 0) := by
  have hs : (decVal (FFmt.fmt f) x).neg.sign = !negative f x := by
    rw [decVal_of_finite h]
    rfl
  rw [Bool.eq_iff_iff, Bool.and_eq_true, isZero_iff (isFin_decVal h).neg, valRat_neg, neg_eq_zero, valRat_decVal h, hs, Bool.not_eq_true',
    rat_eq_zero_iff, posZero_iff hx, decide_eq_true_iff]

/-- The sign of a finite code that is not zero is that of its value. -/
theorem negative_eq (h : rat f x ≠ 0) : negative f x = decide (rat f x < 0) := by
  rw [rat_eq_valueOf, valueOf_eq, signOf_fmt] at *
  have hpos : 0 < magVal ℚ (FFmt.fmt f) (magOf (FFmt.fmt f) x) :=
    lt_of_le_of_ne (magVal_nonneg _ _) fun h0 => h (by rw [← h0, mul_zero])
  cases negative f x <;> simp [hpos, hpos.le]

end

/-! ### Quotients (R135, R136) -/

section
variable {f : FFmt}

/-- What `quotVal` gives rounds as the exact quotient does: it is the quotient cut off far below its leading bits, with a last bit for what was cut off. -/
theorem rne_quotVal_roundsMag {s : Bool} {m n : ℕ} (e d : ℤ) (hm : m ≠ 0) (hn : n ≠ 0) :
    RoundsMag (FFmt.fmt f) .rne true s (((m : ℚ) * 2 ^ e) / (n * 2 ^ d)) (rne (FFmt.fmt f) (quotVal s m e n d)) := by
  have hnpos : 0 < n := Nat.pos_of_ne_zero hn
  have hnq : (0 : ℚ) < n := by exact_mod_cast hnpos
  obtain ⟨hlen, -, hlt⟩ := bitLen_bounds hn
  have hscale : ((m : ℚ) * 2 ^ e) / (n * 2 ^ d) = ((m * 2 ^ (bitLen n + 40) : ℕ) : ℚ) / n * 2 ^ (e - d - (bitLen n + 40 : ℕ)) := by
    rw [zpow_sub₀ two_ne_zero, zpow_sub₀ two_ne_zero, zpow_natCast]
    push_cast
    field_simp
  have hbig : 2 ^ 26 ≤ m * 2 ^ (bitLen n + 40) / n := by
    rw [Nat.le_div_iff_mul_le hnpos]
    calc 2 ^ 26 * n ≤ 2 ^ 40 * 2 ^ bitLen n := Nat.mul_le_mul (by decide) hlt.le
      _ = 2 ^ (bitLen n + 40) := by rw [← Nat.pow_add, Nat.add_comm]
      _ ≤ m * 2 ^ (bitLen n + 40) := Nat.le_mul_of_pos_left _ (Nat.pos_of_ne_zero hm)
  have hu := two_zpow_pos (K := ℚ) (e - d - (bitLen n + 40 : ℕ))
  have hdm := Nat.div_add_mod (m * 2 ^ (bitLen n + 40)) n
  have hr := Nat.mod_lt (m * 2 ^ (bitLen n + 40)) hnpos
  have hq : rne (FFmt.fmt f) (quotVal s m e n d) = roundFin (FFmt.fmt f) .rne true s
      (2 * (m * 2 ^ (bitLen n + 40) / n) + b2n (m * 2 ^ (bitLen n + 40) % n != 0)) (e - d - (bitLen n + 40 : ℕ) - 1) := by
    rw [← rne_fin]
    rfl
  rw [hq, hscale]
  generalize m * 2 ^ (bitLen n + 40) = N at *
  have hN : (N : ℚ) = n * (N / n : ℕ) + (N % n : ℕ) := by exact_mod_cast hdm.symm
  refine roundsMag_congr (fmt_mem f) (sameSide_sticky hbig ?_ ?_ ?_) (roundFin_spec (fmt_mem f) _ _ _ _ (by omega))
  · exact mul_le_mul_of_nonneg_right (Nat.cast_div_le) hu.le
  · refine mul_lt_mul_of_pos_right ?_ hu
    rw [div_lt_iff₀ hnq, hN]
    have : ((N % n : ℕ) : ℚ) < n := by exact_mod_cast hr
    linarith
  · rw [bne_iff_ne, ne_eq, ne_eq, mul_left_inj' hu.ne', div_eq_iff hnq.ne', hN]
    simp [mul_comm]

theorem abs_rat (f : FFmt) (x : ℕ) : |rat f x| = (significand (FFmt.fmt f) x : ℚ) * 2 ^ unitExp (FFmt.fmt f) x := by
  rw [← ratOf_fmt, ratOf_eq, abs_signed]
  exact mul_nonneg (Nat.cast_nonneg _) (two_zpow_pos _).le

theorem fdivE_of_finite {x y : ℕ} (hx : finite f x = true) (hy : finite f y = true) (hy0 : magnitude f y ≠ 0) :
    fdivE (FFmt.fmt f) x y = if magnitude f x = 0 then (signed f (negative f x != negative f y) 0, 0)
      else rne (FFmt.fmt f) (quotVal (negative f x != negative f y) (significand (FFmt.fmt f) x) (unitExp (FFmt.fmt f) x)
        (significand (FFmt.fmt f) y) (unitExp (FFmt.fmt f) y)) := by
  rw [← withSign_fmt, withSign_eq, Nat.zero_add]
  unfold fdivE
  simp only [decVal_of_finite hx, decVal_of_finite hy, significand_eq_zero_iff, if_neg hy0]

theorem decide_div_neg {a b : ℚ} (ha : a ≠ 0) (hb : b ≠ 0) : (decide (a < 0) != decide (b < 0)) = decide (a / b < 0) := by
  have hiff : a / b < 0 ↔ (a < 0 ↔ ¬ b < 0) := by
    rw [div_neg_iff]
    rcases lt_or_gt_of_ne ha with ha | ha <;> rcases lt_or_gt_of_ne hb with hb | hb <;> simp [ha, hb, ha.not_gt, hb.not_gt]
  by_cases ha : a < 0 <;> by_cases hb : b < 0 <;> simp only [hiff, ha, hb] <;> decide

theorem fdivE_nearest {x y : ℕ} (hx : finite f x = true) (hy : finite f y = true) (hx0 : magnitude f x ≠ 0) (hy0 : magnitude f y ≠ 0) :
    Nearest f (rat f x / rat f y) (fdivE (FFmt.fmt f) x y).1 ∧
      NearestFlags f (rat f x / rat f y) (fdivE (FFmt.fmt f) x y).1 (fdivE (FFmt.fmt f) x y).2 := by
  have hrx := mt (rat_eq_zero_iff f x).mp hx0
  have hry := mt (rat_eq_zero_iff f y).mp hy0
  refine nearest_of_roundsMag (sat := true) (div_ne_zero hrx hry) ?_
  rw [fdivE_of_finite hx hy hy0, if_neg hx0, negative_eq hrx, negative_eq hry, decide_div_neg hrx hry, abs_div, abs_rat, abs_rat]
  exact rne_quotVal_roundsMag _ _ (mt (significand_eq_zero_iff f x).mp hx0) (mt (significand_eq_zero_iff f y).mp hy0)

theorem frcpE_nearest {y : ℕ} (hy : finite f y = true) (hy0 : magnitude f y ≠ 0) :
    Nearest f (1 / rat f y) (frcpE (FFmt.fmt f) y).1 ∧ NearestFlags f (1 / rat f y) (frcpE (FFmt.fmt f) y).1 (frcpE (FFmt.fmt f) y).2 := by
  have hry := mt (rat_eq_zero_iff f y).mp hy0
  have hn := mt (significand_eq_zero_iff f y).mp hy0
  have hsign : negative f y = decide (1 / rat f y < 0) := by
    rw [negative_eq hry, ← decide_div_neg one_ne_zero hry, decide_eq_false (p := (1 : ℚ) < 0) (by norm_num), Bool.false_bne]
  have hrcp : frcpE (FFmt.fmt f) y = rne (FFmt.fmt f) (quotVal (negative f y) 1 0 (significand (FFmt.fmt f) y) (unitExp (FFmt.fmt f) y)) := by
    unfold frcpE
    simp only [decVal_of_finite hy, if_neg hn]
  have hone : |(1 : ℚ)| = ((1 : ℕ) : ℚ) * 2 ^ (0 : ℤ) := by simp
  refine nearest_of_roundsMag (sat := true) (div_ne_zero one_ne_zero hry) ?_
  rw [hrcp, hsign, abs_div, abs_rat, hone]
  exact rne_quotVal_roundsMag _ _ one_ne_zero hn

end

end Sys2Proof.Proofs
end

