-- ==== Sys2Proof/Proofs/FloatRoots.lean ====
section
/-! SUPPORT. Roots (R135, R136): the integer root cut off with a last bit rounds as the real root does; and the rounding float instructions of finite
operands as a whole. -/

namespace Sys2Proof.Proofs

open Sys2Proof Sys2Proof.Machine Sys2Proof.Claims Sys2Proof.Laws

/-! ### The integer root -/

theorem isqrtGo_spec (x k acc : ℕ) (hlo : acc ^ 2 ≤ x) (hhi : x < (acc + 2 ^ k) ^ 2) :
    isqrtGo x k acc ^ 2 ≤ x ∧ x < (isqrtGo x k acc + 1) ^ 2 := by
  induction k generalizing acc with
  | zero => exact ⟨hlo, by simpa [isqrtGo] using hhi⟩
  | succ k ih =>
    rw [isqrtGo]
    have hstep : acc + 2 ^ (k + 1) = acc + 2 ^ k + 2 ^ k := by ring
    rw [hstep] at hhi
    by_cases h : (acc + 2 ^ k) * (acc + 2 ^ k) ≤ x
    · rw [if_pos h]
      exact ih _ (by rwa [sq]) hhi
    · rw [if_neg h]
      exact ih _ hlo (by rw [sq]; omega)

theorem isqrt_spec (x : ℕ) : isqrt x ^ 2 ≤ x ∧ x < (isqrt x + 1) ^ 2 := by
  refine isqrtGo_spec x _ 0 (by simp) ?_
  by_cases hx : x = 0
  · simp [hx]
  · obtain ⟨-, -, hlt⟩ := bitLen_bounds hx
    rw [Nat.zero_add, ← Nat.pow_mul]
    exact hlt.trans_le (Nat.pow_le_pow_right (by decide) (by omega))

/-! ### The root of a value -/

/-- An integer root of a scaled value, with a last bit for what it leaves out, stands for the root. -/
theorem sameSide_root {X : ℝ} {r : ℕ} {sticky : Bool} (h : ℤ) (hbig : 2 ^ 26 ≤ r) (hlo : (r : ℝ) ^ 2 ≤ X) (hhi : X < (r + 1) ^ 2)
    (hs : sticky = true ↔ (r : ℝ) ^ 2 ≠ X) : SameSide (√(X * 2 ^ (2 * h))) (((2 * r + b2n sticky : ℕ) : ℝ) * 2 ^ (h - 1)) := by
  have hu := two_zpow_pos (K := ℝ) h
  have hroot : √(X * 2 ^ (2 * h)) = √X * 2 ^ h := by
    rw [mul_comm 2 h, zpow_mul, zpow_ofNat, Real.sqrt_mul' _ (sq_nonneg _), Real.sqrt_sq hu.le]
  rw [hroot]
  refine sameSide_sticky hbig ?_ ?_ ?_
  · exact mul_le_mul_of_nonneg_right (Real.le_sqrt_of_sq_le hlo) hu.le
  · exact mul_lt_mul_of_pos_right ((Real.sqrt_lt' (by positivity)).mpr hhi) hu
  · rw [hs, ne_eq, ne_eq, mul_left_inj' hu.ne', Real.sqrt_eq_iff_eq_sq ((sq_nonneg _).trans hlo) (Nat.cast_nonneg r), eq_comm]

/-- The significand and the exponent that the model's roots take: the same value with an even exponent. -/
theorem even_exponent {K : Type} [Field K] [CharZero K] (m : ℕ) (e : ℤ) :
    ((if e % 2 = 0 then m else 2 * m : ℕ) : K) * 2 ^ (2 * ((if e % 2 = 0 then e else e - 1) / 2)) = m * 2 ^ e := by
  by_cases h : e % 2 = 0
  · rw [if_pos h, if_pos h]
    congr 2
    omega
  · rw [if_neg h, if_neg h, show 2 * ((e - 1) / 2) = e - 1 by omega, zpow_sub_one₀ two_ne_zero]
    push_cast
    field_simp

section
variable {f : FFmt} {m : ℕ}

theorem fsqrt_roundsMag (hm : m ≠ 0) (e : ℤ) :
    let m1 := if e % 2 = 0 then m else 2 * m
    let x := m1 * 2 ^ 80
    RoundsMag (FFmt.fmt f) .rne true false (√((m : ℝ) * 2 ^ e))
      (rne (FFmt.fmt f) (.fin false (2 * isqrt x + b2n (isqrt x * isqrt x != x)) ((if e % 2 = 0 then e else e - 1) / 2 - 41))) := by
  intro m1 x
  obtain ⟨hlo, hhi⟩ := isqrt_spec x
  have hm1 : 1 ≤ m1 := by
    simp only [m1]
    split <;> omega
  have hbig : 2 ^ 26 ≤ isqrt x := by
    by_contra h
    have h1 : isqrt x + 1 ≤ 2 ^ 26 := by omega
    have h2 := Nat.pow_le_pow_left h1 2
    omega
  rw [← even_exponent (K := ℝ)]
  generalize (if e % 2 = 0 then e else e - 1) / 2 = h
  have hval : (m1 : ℝ) * 2 ^ (2 * h) = (x : ℝ) * 2 ^ (2 * (h - 40)) := by
    rw [mul_sub, zpow_sub₀ two_ne_zero]
    simp only [x]
    push_cast
    norm_num
    ring
  rw [hval, rne_fin, show h - 41 = h - 40 - 1 by ring]
  refine roundsMag_congr (fmt_mem f) (sameSide_root (h - 40) hbig (by exact_mod_cast hlo) (by exact_mod_cast hhi) ?_)
    (roundFin_spec (fmt_mem f) _ _ _ _ (by omega))
  rw [bne_iff_ne, ← sq, ne_eq, ne_eq, ← Nat.cast_pow, Nat.cast_inj]

theorem frsq_roundsMag (hm : m ≠ 0) (e : ℤ) :
    let m1 := if e % 2 = 0 then m else 2 * m
    let k := bitLen m1 + 40
    let t := isqrt (2 ^ (2 * k) / m1)
    RoundsMag (FFmt.fmt f) .rne true false (√(1 / ((m : ℝ) * 2 ^ e)))
      (rne (FFmt.fmt f) (.fin false (2 * t + b2n (t * t * m1 != 2 ^ (2 * k))) (-((if e % 2 = 0 then e else e - 1) / 2) - k - 1))) := by
  intro m1 k t
  obtain ⟨hlo, hhi⟩ := isqrt_spec (2 ^ (2 * k) / m1)
  have hm1 : 0 < m1 := by
    simp only [m1]
    split <;> omega
  have hm1r : (0 : ℝ) < m1 := by exact_mod_cast hm1
  rw [Nat.le_div_iff_mul_le hm1] at hlo
  rw [Nat.div_lt_iff_lt_mul hm1] at hhi
  change t ^ 2 * m1 ≤ 2 ^ (2 * k) at hlo
  change 2 ^ (2 * k) < (t + 1) ^ 2 * m1 at hhi
  have hbig : 2 ^ 26 ≤ t := by
    by_contra h
    obtain ⟨-, -, hlen⟩ := bitLen_bounds hm1.ne'
    refine hhi.not_ge ?_
    calc (t + 1) ^ 2 * m1 ≤ (2 ^ 26) ^ 2 * 2 ^ bitLen m1 := Nat.mul_le_mul (Nat.pow_le_pow_left (by omega) 2) hlen.le
      _ = 2 ^ (52 + bitLen m1) := by rw [← Nat.pow_mul, ← Nat.pow_add]
      _ ≤ 2 ^ (2 * k) := Nat.pow_le_pow_right (by decide) (by simp only [k]; omega)
  rw [← even_exponent (K := ℝ)]
  generalize (if e % 2 = 0 then e else e - 1) / 2 = h
  have hval : 1 / ((m1 : ℝ) * 2 ^ (2 * h)) = ((2 ^ (2 * k) : ℕ) : ℝ) / m1 * 2 ^ (2 * (-h - k)) := by
    have hexp : 2 * (-h - (k : ℤ)) = -(2 * h) - (2 * k : ℕ) := by push_cast; ring
    rw [hexp, zpow_sub₀ two_ne_zero, zpow_neg, zpow_natCast]
    push_cast
    field_simp
  change RoundsMag (FFmt.fmt f) .rne true false (√(1 / ((m1 : ℝ) * 2 ^ (2 * h)))) _
  rw [hval, rne_fin]
  refine roundsMag_congr (fmt_mem f) (sameSide_root (-h - k) hbig ?_ ?_ ?_) (roundFin_spec (fmt_mem f) _ _ _ _ (by omega))
  · rw [le_div_iff₀ hm1r]
    exact_mod_cast hlo
  · rw [div_lt_iff₀ hm1r]
    exact_mod_cast hhi
  · rw [bne_iff_ne, ← sq, ne_eq, ne_eq, eq_div_iff hm1r.ne', ← Nat.cast_pow, ← Nat.cast_mul, Nat.cast_inj]

end

/-! ### The nearest code to a root -/

theorem cast_magVal (t : Fmt) (c : ℕ) : ((magVal ℚ t c : ℚ) : ℝ) = magVal ℝ t c := by
  unfold magVal
  split <;> push_cast <;> rfl

section
variable {f : FFmt} {q : ℚ} {r : Rounded}

theorem rat_of_lt {c : ℕ} (hc : c < signBit f) : rat f c = magVal ℚ (FFmt.fmt f) c := by
  have hs : Fmt.width (FFmt.fmt f) - 1 = floatWidth f - 1 := by rw [width_fmt]
  have := valueOf_withSign (s := false) (t := FFmt.fmt f) (c := c) (by rw [hs]; exact hc)
  simpa [withSign, rat_eq_valueOf] using this

/-- A root within the normal values rounds to the nearest code, and raises NX alone if it is not exact. -/
theorem nearestRoot_of_roundsMag (hq : 0 < q) (hlo : ((2 : ℚ) ^ ((1 : ℤ) - bias f)) ^ 2 ≤ q)
    (hhi : q ≤ magVal ℚ (FFmt.fmt f) (topCode (FFmt.fmt f)) ^ 2) (h : RoundsMag (FFmt.fmt f) .rne true false (√(q : ℝ)) r) :
    NearestRoot f q r.1 ∧ r.2 = if rat f r.1 ^ 2 = q then 0 else 16 := by
  have hqr : (0 : ℝ) < q := by exact_mod_cast hq
  have hroot : 0 < √(q : ℝ) := Real.sqrt_pos.mpr hqr
  have htop : √(q : ℝ) ≤ magVal ℝ (FFmt.fmt f) (topCode (FFmt.fmt f)) := by
    rw [Real.sqrt_le_left (magVal_nonneg _ _), ← cast_magVal]
    exact_mod_cast hhi
  have hnotTiny : ¬ TinyMag (FFmt.fmt f) .rne false √(q : ℝ) := by
    refine not_tinyMag_of_le _ _ (Real.le_sqrt_of_sq_le ?_)
    have := (Rat.cast_le (K := ℝ)).mpr hlo
    rw [biasOf_fmt]
    push_cast at this
    exact this
  obtain ⟨code, hround, -, hin⟩ := h
  have hcode : code ≤ topCode (FFmt.fmt f) := by
    rw [← Nat.not_lt, ← overflowsMag_iff (fmt_mem f) hround, OverflowsMag]
    have hne : FFmt.fmt f ≠ .e4m3 := by cases f <;> decide
    have hulp := magVal_strictMono (K := ℝ) (FFmt.fmt f) (Nat.sub_lt (topCode_pos (fmt_mem f)) one_pos)
    simp only [if_true, if_neg hne]
    linarith
  obtain ⟨hr, hexact, hinexact⟩ := hin hcode
  have hr : r.1 = code := hr
  have hlt : code < signBit f := by
    have := topCode_lt (fmt_mem f)
    rw [width_fmt] at this
    exact Nat.lt_of_le_of_lt hcode (by unfold signBit; omega)
  obtain ⟨habove, hbelow⟩ := roundedMag_midpoints hround
  have hfin : finite f code = true := by
    rw [← finiteIn_fmt, finiteIn, magOf, Nat.mod_eq_of_lt (by rw [width_fmt]; exact hlt)]
    exact decide_eq_true hcode
  have hsq : (2 * √(q : ℝ)) ^ 2 = 4 * q := by rw [mul_pow, Real.sq_sqrt hqr.le]; norm_num
  rw [hr]
  refine ⟨⟨hlt, hfin, fun d hd _ => ?_⟩, ?_⟩
  · rw [rat_of_lt hlt, rat_of_lt hd, (magVal_strictMono _).lt_iff_lt, (magVal_strictMono _).lt_iff_lt]
    have hcast (a b : ℕ) : (magVal ℝ (FFmt.fmt f) a + magVal ℝ (FFmt.fmt f) b) ^ 2 =
        (((magVal ℚ (FFmt.fmt f) a + magVal ℚ (FFmt.fmt f) b) ^ 2 : ℚ) : ℝ) := by
      push_cast
      rw [cast_magVal, cast_magVal]
    constructor
    · intro hlt
      have := pow_le_pow_left₀ (by positivity) (habove d hlt).1 2
      rw [hsq, hcast] at this
      exact_mod_cast this
    · intro hlt
      have := pow_le_pow_left₀ (add_nonneg (magVal_nonneg _ _) (magVal_nonneg _ _)) (hbelow d hlt).1 2
      rw [hsq, hcast, add_comm] at this
      exact_mod_cast this
  · have hiff : rat f code ^ 2 = q ↔ magVal ℝ (FFmt.fmt f) code = √(q : ℝ) := by
      rw [eq_comm (b := √(q : ℝ)), Real.sqrt_eq_iff_eq_sq hqr.le (magVal_nonneg _ _), ← cast_magVal, rat_of_lt hlt, eq_comm]
      norm_cast
    split_ifs with h
    · exact hexact (hiff.mp h)
    · exact (hinexact (mt hiff.mpr h)).2 hnotTiny

end

section
variable {f : FFmt} {x : ℕ}

/-- The least and the greatest finite value above zero. -/
theorem rat_bounds (hfin : finite f x = true) (hpos : 0 < rat f x) :
    (2 : ℚ) ^ ((1 : ℤ) - bias f - fracBits f) ≤ rat f x ∧ rat f x ≤ magVal ℚ (FFmt.fmt f) (topCode (FFmt.fmt f)) := by
  have hmag : magnitude f x ≠ 0 := fun h => hpos.ne' ((rat_eq_zero_iff f x).mpr h)
  have hsign : negative f x = false := by rw [negative_eq hpos.ne', decide_eq_false hpos.not_gt]
  have hrat : rat f x = magVal ℚ (FFmt.fmt f) (magnitude f x) := by
    rw [rat_eq_valueOf, valueOf_eq, signOf_fmt, hsign, magOf_fmt]
    simp
  have hmono := (magVal_strictMono (K := ℚ) (FFmt.fmt f)).monotone
  have hone : magVal ℚ (FFmt.fmt f) 1 = 2 ^ ((1 : ℤ) - bias f - fracBits f) := by
    have := magVal_split (K := ℚ) (FFmt.fmt f) (E := 0) (n := 1) Nat.one_le_two_pow (.inl rfl)
    simpa [biasOf_fmt, fracOf_fmt] using this
  rw [hrat, ← hone]
  refine ⟨hmono (Nat.one_le_iff_ne_zero.mpr hmag), hmono ?_⟩
  rw [← finiteIn_fmt, finiteIn, magOf_fmt] at hfin
  exact of_decide_eq_true hfin

/-- The squares of the smallest normal and of the largest finite value lie well beyond all finite values and their reciprocals. -/
theorem range_of_roots (f : FFmt) :
    let top := magVal ℚ (FFmt.fmt f) (topCode (FFmt.fmt f))
    let least := (2 : ℚ) ^ ((1 : ℤ) - bias f - fracBits f)
    ((2 : ℚ) ^ ((1 : ℤ) - bias f)) ^ 2 ≤ least ∧ top ≤ top ^ 2 ∧ ((2 : ℚ) ^ ((1 : ℤ) - bias f)) ^ 2 ≤ 1 / top ∧ 1 / least ≤ top ^ 2 := by
  cases f <;> norm_num [magVal, FFmt.fmt, topCode, fracOf, biasOf, bias, fracBits]

theorem rat_eq_significand (hpos : 0 < rat f x) : rat f x = (significand (FFmt.fmt f) x : ℚ) * 2 ^ unitExp (FFmt.fmt f) x := by
  rw [← abs_rat, abs_of_pos hpos]

theorem fsqrtE_nearest (hfin : finite f x = true) (hpos : 0 < rat f x) :
    NearestRoot f (rat f x) (fsqrtE (FFmt.fmt f) x).1 ∧
      (fsqrtE (FFmt.fmt f) x).2 = if rat f (fsqrtE (FFmt.fmt f) x).1 ^ 2 = rat f x then 0 else 16 := by
  obtain ⟨hlo, hhi⟩ := rat_bounds hfin hpos
  obtain ⟨hleast, htop, -, -⟩ := range_of_roots f
  have hm : significand (FFmt.fmt f) x ≠ 0 := fun h => hpos.ne' ((rat_eq_zero_iff f x).mpr ((significand_eq_zero_iff f x).mp h))
  have hsign : negative f x = false := by rw [negative_eq hpos.ne', decide_eq_false hpos.not_gt]
  refine nearestRoot_of_roundsMag hpos (hleast.trans hlo) (hhi.trans htop) ?_
  have hround := fsqrt_roundsMag (f := f) hm (unitExp (FFmt.fmt f) x)
  have hval : ((rat f x : ℚ) : ℝ) = (significand (FFmt.fmt f) x : ℝ) * 2 ^ unitExp (FFmt.fmt f) x := by
    rw [rat_eq_significand hpos]
    push_cast
    rfl
  unfold fsqrtE
  rw [hval]
  simp only [decVal_of_finite hfin, hsign, if_neg hm, Bool.false_eq_true, if_false]
  exact hround

theorem frsqE_nearest (hfin : finite f x = true) (hpos : 0 < rat f x) :
    NearestRoot f (1 / rat f x) (frsqE (FFmt.fmt f) x).1 ∧
      (frsqE (FFmt.fmt f) x).2 = if rat f (frsqE (FFmt.fmt f) x).1 ^ 2 * rat f x = 1 then 0 else 16 := by
  obtain ⟨hlo, hhi⟩ := rat_bounds hfin hpos
  obtain ⟨-, -, hleast, htop⟩ := range_of_roots f
  have hm : significand (FFmt.fmt f) x ≠ 0 := fun h => hpos.ne' ((rat_eq_zero_iff f x).mpr ((significand_eq_zero_iff f x).mp h))
  have hsign : negative f x = false := by rw [negative_eq hpos.ne', decide_eq_false hpos.not_gt]
  simp only [← eq_div_iff hpos.ne']
  refine nearestRoot_of_roundsMag (one_div_pos.mpr hpos) (hleast.trans (one_div_le_one_div_of_le hpos hhi))
    ((one_div_le_one_div_of_le (two_zpow_pos _) hlo).trans htop) ?_
  have hround := frsq_roundsMag (f := f) hm (unitExp (FFmt.fmt f) x)
  have hval : ((1 / rat f x : ℚ) : ℝ) = 1 / ((significand (FFmt.fmt f) x : ℝ) * 2 ^ unitExp (FFmt.fmt f) x) := by
    rw [rat_eq_significand hpos]
    push_cast
    rfl
  unfold frsqE
  rw [hval]
  simp only [decVal_of_finite hfin, hsign, if_neg hm, Bool.false_eq_true, if_false]
  exact hround

end

/-! ### The statement -/

section
variable {f : FFmt} {x y z : ℕ}

theorem fmulE_of_finite (hx : finite f x = true) (hy : finite f y = true) :
    ∃ p, mulVal (decVal (FFmt.fmt f) x) (decVal (FFmt.fmt f) y) = (p, 0) ∧ fmulE (FFmt.fmt f) x y = rne (FFmt.fmt f) p ∧
      (∀ z, fmaE (FFmt.fmt f) x y z = finishF (FFmt.fmt f) (addVal p (decVal (FFmt.fmt f) z))) ∧
      IsFin p ∧ valRat p = rat f x * rat f y ∧ p.sign = (negative f x != negative f y) := by
  obtain ⟨p, hp, hfin, hval, hsign⟩ := mulVal_fin (isFin_decVal hx) (isFin_decVal hy)
  rw [valRat_decVal hx, valRat_decVal hy] at hval
  rw [sign_decVal hx, sign_decVal hy] at hsign
  refine ⟨p, hp, ?_, fun z => ?_, hfin, hval, hsign⟩
  · rw [fmulE, hp, finishF_noFlags]
  · rw [fmaE, hp]
    rfl

/-- Settles O12: each exact result is rounded once, and a zero has the sign that R135 says. -/
theorem floatNearest : Obligations.FloatNearest := by
  intro f x y z hx hy hz hfx hfy hfz
  have hax := isFin_decVal hfx
  have hay := isFin_decVal hfy
  have hsub : rat f x - rat f y = valRat (decVal (FFmt.fmt f) x) + valRat (decVal (FFmt.fmt f) y).neg := by
    rw [valRat_neg, valRat_decVal hfx, valRat_decVal hfy, sub_eq_add_neg]
  have hadd : rat f x + rat f y = valRat (decVal (FFmt.fmt f) x) + valRat (decVal (FFmt.fmt f) y) := by
    rw [valRat_decVal hfx, valRat_decVal hfy]
  obtain ⟨p, hp, hmul, hma, hpfin, hpval, hpsign⟩ := fmulE_of_finite hfx hfy
  have hfma : rat f x * rat f y + rat f z = valRat p + valRat (decVal (FFmt.fmt f) z) := by rw [hpval, valRat_decVal hfz]
  have hpzero : p.isZero = true ↔ rat f x * rat f y = 0 := by rw [isZero_iff hpfin, hpval]
  refine ⟨?sums, ?quotients, ?add0, ?sub0, ?mul0, ?fma0, ?div0, ?roots⟩
  case sums =>
    simp only [List.forall_mem_cons, List.not_mem_nil, false_imp_iff, implies_true, and_true]
    refine ⟨fun h => ?_, fun h => ?_, fun h => ?_, fun h => ?_⟩
    · rw [hadd] at h ⊢
      exact rne_add_nearest hax hay h
    · rw [hsub] at h ⊢
      exact rne_add_nearest hax hay.neg h
    · rw [← hpval] at h ⊢
      rw [hmul]
      exact rne_product_nearest hpfin h
    · rw [hfma] at h ⊢
      rw [hma]
      exact rne_add_nearest hpfin (isFin_decVal hfz) h
  case quotients =>
    simp only [List.forall_mem_cons, List.not_mem_nil, false_imp_iff, implies_true, and_true, decide_eq_true_eq]
    exact ⟨fun ⟨hx0, hy0⟩ => fdivE_nearest hfx hfy hx0 hy0, fun hy0 => frcpE_nearest hfy hy0⟩
  case add0 =>
    intro h
    rw [hadd] at h
    rw [faddE, rne_add_zero hax hay h, isNegZero_decVal hfx hx, isNegZero_decVal hfy hy]
    simp
  case sub0 =>
    intro h
    rw [hsub] at h
    rw [fsubE, rne_add_zero hax hay.neg h, isNegZero_decVal hfx hx, isNegZero_neg_decVal hfy hy]
    simp
  case mul0 =>
    intro h
    obtain ⟨s, m, e, rfl⟩ := hpfin
    obtain rfl : m = 0 := (ratOf_eq_zero_iff s m e).mp (hpval.trans h)
    rw [hmul, rne_zero, ← hpsign]
    rfl
  case fma0 =>
    intro h
    rw [hfma] at h
    rw [hma, rne_add_zero hpfin (isFin_decVal hfz) h, isNegZero_decVal hfz hz, hpsign]
    simp [hpzero, and_assoc]
  case div0 =>
    intro hx0 hy0
    rw [fdivE_of_finite hfx hfy (mt (rat_eq_zero_iff f y).mpr hy0), if_pos ((rat_eq_zero_iff f x).mp hx0)]
  case roots =>
    intro hpos
    obtain ⟨hs, hsf⟩ := fsqrtE_nearest hfx hpos
    obtain ⟨hr, hrf⟩ := frsqE_nearest hfx hpos
    exact ⟨hs, hr, hsf, hrf⟩

end

end Sys2Proof.Proofs
end

