-- ==== Sys2Proof/Proofs/FloatSpecials.lean ====
section
/-! SUPPORT. NaNs, infinities, zeros and invalid operations (R77, R78, R135, R136): the arithmetic on values that are no finite numbers, kind by kind, and
what each instruction makes of codes of those kinds. -/

namespace Sys2Proof.Proofs

open Sys2Proof Sys2Proof.Machine Sys2Proof.Claims Sys2Proof.Laws

/-! ### The arithmetic by kinds of values -/

section
variable (s u : Bool) (m n : ℕ) (e d : ℤ) (a : Val)

theorem addVal_nan_left : addVal .nan a = (.nan, 0) := rfl
theorem addVal_nan_right : addVal a .nan = (.nan, 0) := by cases a <;> rfl
theorem addVal_inf_fin : addVal (.inf s) (.fin u n d) = (.inf s, 0) := by cases s <;> rfl
theorem addVal_fin_inf : addVal (.fin u n d) (.inf s) = (.inf s, 0) := by cases s <;> rfl
theorem addVal_inf_same : addVal (.inf s) (.inf s) = (.inf s, 0) := by cases s <;> rfl
theorem addVal_inf_clash (h : s ≠ u) : addVal (.inf s) (.inf u) = (.nan, fNV) := by
  by_cases hu : u = s
  · exact absurd hu.symm h
  · cases s <;> cases u <;> simp_all [addVal, infClash, Val.isNan]

theorem mulVal_nan_left : mulVal .nan a = (.nan, 0) := rfl
theorem mulVal_nan_right : mulVal a .nan = (.nan, 0) := by cases a <;> rfl
theorem mulVal_inf_inf : mulVal (.inf s) (.inf u) = (.inf (s != u), 0) := rfl
theorem mulVal_inf_fin (h : n ≠ 0) : mulVal (.inf s) (.fin u n d) = (.inf (s != u), 0) := if_neg h
theorem mulVal_inf_zero : mulVal (.inf s) (.fin u 0 d) = (.nan, fNV) := rfl
theorem mulVal_fin_inf (h : n ≠ 0) : mulVal (.fin u n d) (.inf s) = (.inf (u != s), 0) := by
  rw [mulVal, if_neg h]
  cases s <;> cases u <;> rfl
theorem mulVal_zero_inf : mulVal (.fin u 0 d) (.inf s) = (.nan, fNV) := rfl

end

/-! ### Codes of the special values -/

section
variable {f : FFmt} {x : ℕ}

theorem nanCode_fmt (f : FFmt) : Fmt.nanCode (FFmt.fmt f) = canonicalNan f := by cases f <;> rfl

theorem infCode_fmt (f : FFmt) (s : Bool) : Fmt.infCode (FFmt.fmt f) s = signed f s (infinity f) := by cases f <;> cases s <;> rfl

theorem zeroCode_fmt (f : FFmt) (s : Bool) : b2n s * Fmt.signW (FFmt.fmt f) = signed f s 0 := by cases f <;> cases s <;> rfl

theorem finishF_nan (f : FFmt) (fl : ℕ) : finishF (FFmt.fmt f) (.nan, fl) = (canonicalNan f, fl) := by
  rw [← nanCode_fmt]
  cases f <;> simp [finishF, rne, roundVal, FFmt.fmt]

theorem finishF_inf (f : FFmt) (s : Bool) : finishF (FFmt.fmt f) (.inf s, 0) = (signed f s (infinity f), 0) := by
  rw [finishF_noFlags, ← infCode_fmt]
  cases f <;> rfl

theorem code_of_isInf (hx : x < 2 ^ floatWidth f) (h : isInf f x = true) : signed f (negative f x) (infinity f) = x := by
  rw [← (beq_iff_eq.mp h : magnitude f x = infinity f), signed_magnitude hx]

theorem code_of_zero (hx : x < 2 ^ floatWidth f) (h : magnitude f x = 0) : signed f (negative f x) 0 = x := by
  rw [← h, signed_magnitude hx]

theorem infinity_pos (f : FFmt) : 0 < infinity f := by cases f <;> decide

theorem finite_of_zero (h : magnitude f x = 0) : finite f x = true := decide_eq_true (h ▸ infinity_pos f)

/-- The reading of a zero. -/
theorem decVal_of_zero (h : magnitude f x = 0) : decVal (FFmt.fmt f) x = .fin (negative f x) 0 (unitExp (FFmt.fmt f) x) := by
  rw [decVal_of_finite (finite_of_zero h), (significand_eq_zero_iff f x).mpr h]

/-- A code that is no NaN is an infinity or finite. -/
theorem inf_or_finite (h : isNan f x = false) : isInf f x = true ∨ finite f x = true :=
  (code_kind f x).resolve_left (by simp [h])

theorem significand_ne_zero (h : magnitude f x ≠ 0) : significand (FFmt.fmt f) x ≠ 0 := mt (significand_eq_zero_iff f x).mp h

end

/-! ### FADD, FSUB, FMUL and FMA (R135) -/

section
variable {f : FFmt} {x y : ℕ}

/-- A sum with an infinite addend and no NaN is that infinity, unless the other is the opposite one. -/
theorem add_inf {b : Val} {s : Bool} (hb : b ≠ .nan) (h : b ≠ .inf !s) : addVal (.inf s) b = (.inf s, 0) := by
  cases b with
  | nan => exact absurd rfl hb
  | fin u n d => exact addVal_inf_fin s u n d
  | inf u =>
    obtain rfl : u = s := by cases s <;> cases u <;> simp_all
    exact addVal_inf_same u

theorem decVal_ne_nan (h : isNan f y = false) : decVal (FFmt.fmt f) y ≠ .nan := by
  rcases inf_or_finite h with h | h
  · simp [decVal_of_isInf h]
  · simp [decVal_of_finite h]

theorem decVal_eq_inf_iff {s : Bool} (h : isNan f y = false) : decVal (FFmt.fmt f) y = .inf s ↔ isInf f y = true ∧ negative f y = s := by
  rcases inf_or_finite h with h | h
  · simp [decVal_of_isInf h, h]
  · have hn : isInf f y = false := by
      have := of_decide_eq_true h
      exact beq_eq_false_iff_ne.mpr (by omega)
    simp [decVal_of_finite h, hn]

/-- What a product that is infinite reads as. -/
theorem mul_inf (h : infProduct f x y = true) :
    mulVal (decVal (FFmt.fmt f) x) (decVal (FFmt.fmt f) y) = (.inf (negative f x != negative f y), 0) := by
  simp only [infProduct, Bool.and_eq_true, Bool.or_eq_true, Bool.not_eq_true', bne_iff_ne] at h
  obtain ⟨⟨⟨⟨hinf, hnx⟩, hny⟩, hx0⟩, hy0⟩ := h
  rcases inf_or_finite hnx with hx | hx <;> rcases inf_or_finite hny with hy | hy
  · rw [decVal_of_isInf hx, decVal_of_isInf hy, mulVal_inf_inf]
  · rw [decVal_of_isInf hx, decVal_of_finite hy, mulVal_inf_fin _ _ _ _ (significand_ne_zero hy0)]
  · rw [decVal_of_finite hx, decVal_of_isInf hy, mulVal_fin_inf _ _ _ _ (significand_ne_zero hx0)]
  · simp only [isInf, finite, decide_eq_true_eq, beq_iff_eq] at hinf hx hy
    omega

/-- A product of an infinity and a zero is invalid. -/
theorem mul_invalid (h : (isInf f x = true ∧ magnitude f y = 0) ∨ (magnitude f x = 0 ∧ isInf f y = true)) :
    mulVal (decVal (FFmt.fmt f) x) (decVal (FFmt.fmt f) y) = (.nan, fNV) := by
  rcases h with ⟨hx, hy⟩ | ⟨hx, hy⟩
  · rw [decVal_of_isInf hx, decVal_of_zero hy, mulVal_inf_zero]
  · rw [decVal_of_zero hx, decVal_of_isInf hy, mulVal_zero_inf]

theorem mul_nan (h : isNan f x = true ∨ isNan f y = true) : mulVal (decVal (FFmt.fmt f) x) (decVal (FFmt.fmt f) y) = (.nan, 0) := by
  rcases h with h | h
  · rw [decVal_of_isNan h, mulVal_nan_left]
  · rw [decVal_of_isNan h, mulVal_nan_right]

theorem add_nan (h : isNan f x = true ∨ isNan f y = true) : addVal (decVal (FFmt.fmt f) x) (decVal (FFmt.fmt f) y) = (.nan, 0) := by
  rcases h with h | h
  · rw [decVal_of_isNan h, addVal_nan_left]
  · rw [decVal_of_isNan h, addVal_nan_right]

theorem sub_nan (h : isNan f x = true ∨ isNan f y = true) : addVal (decVal (FFmt.fmt f) x) (decVal (FFmt.fmt f) y).neg = (.nan, 0) := by
  rcases h with h | h
  · rw [decVal_of_isNan h, addVal_nan_left]
  · rw [decVal_of_isNan h, Val.neg, addVal_nan_right]

theorem fmaE_of_product {p : Val} (z : ℕ) (h : mulVal (decVal (FFmt.fmt f) x) (decVal (FFmt.fmt f) y) = (p, 0)) :
    fmaE (FFmt.fmt f) x y z = finishF (FFmt.fmt f) (addVal p (decVal (FFmt.fmt f) z)) := by
  rw [fmaE, h]
  rfl

theorem fmaE_of_invalid (z : ℕ) (h : mulVal (decVal (FFmt.fmt f) x) (decVal (FFmt.fmt f) y) = (.nan, fNV)) :
    fmaE (FFmt.fmt f) x y z = (canonicalNan f, 1) := by
  rw [fmaE, h, ← nanCode_fmt]
  rfl

theorem faddE_inf_left (hx : x < 2 ^ floatWidth f) (hi : isInf f x = true) (hy : isNan f y = false)
    (h : (isInf f y && (negative f x != negative f y)) = false) : faddE (FFmt.fmt f) x y = (x, 0) := by
  have hne : decVal (FFmt.fmt f) y ≠ .inf !negative f x := by
    rw [ne_eq, decVal_eq_inf_iff hy]
    rintro ⟨hiy, hs⟩
    simp [hiy, hs] at h
  rw [faddE, decVal_of_isInf hi, add_inf (decVal_ne_nan hy) hne, finishF_inf, code_of_isInf hx hi]

theorem faddE_inf_right (hy : y < 2 ^ floatWidth f) (hx : finite f x = true) (hi : isInf f y = true) : faddE (FFmt.fmt f) x y = (y, 0) := by
  rw [faddE, decVal_of_finite hx, decVal_of_isInf hi, addVal_fin_inf, finishF_inf, code_of_isInf hy hi]

theorem faddE_clash (hx : isInf f x = true) (hy : isInf f y = true) (h : negative f x ≠ negative f y) :
    faddE (FFmt.fmt f) x y = (canonicalNan f, 1) := by
  rw [faddE, decVal_of_isInf hx, decVal_of_isInf hy, addVal_inf_clash _ _ h, finishF_nan]
  rfl

theorem faddE_nan (h : isNan f x = true ∨ isNan f y = true) : faddE (FFmt.fmt f) x y = (canonicalNan f, 0) := by
  rw [faddE, add_nan h, finishF_nan]

theorem fsubE_inf_left (hx : x < 2 ^ floatWidth f) (hi : isInf f x = true) (hy : isNan f y = false)
    (h : (isInf f y && !(negative f x != negative f y)) = false) : fsubE (FFmt.fmt f) x y = (x, 0) := by
  have hnan : (decVal (FFmt.fmt f) y).neg ≠ .nan := by
    rcases inf_or_finite hy with h | h
    · simp [decVal_of_isInf h, Val.neg]
    · simp [decVal_of_finite h, Val.neg]
  have hne : (decVal (FFmt.fmt f) y).neg ≠ .inf !negative f x := by
    rcases inf_or_finite hy with hi | hfin
    · simp [hi] at h
      simpa [decVal_of_isInf hi, Val.neg] using Ne.symm h
    · simp [decVal_of_finite hfin, Val.neg]
  rw [fsubE, decVal_of_isInf hi, add_inf hnan hne, finishF_inf, code_of_isInf hx hi]

theorem fsubE_inf_right (hx : finite f x = true) (hi : isInf f y = true) :
    fsubE (FFmt.fmt f) x y = (signed f (!negative f y) (infinity f), 0) := by
  rw [fsubE, decVal_of_finite hx, decVal_of_isInf hi, Val.neg, addVal_fin_inf, finishF_inf]

theorem fsubE_clash (hx : isInf f x = true) (hy : isInf f y = true) (h : negative f x = negative f y) :
    fsubE (FFmt.fmt f) x y = (canonicalNan f, 1) := by
  rw [fsubE, decVal_of_isInf hx, decVal_of_isInf hy, Val.neg, addVal_inf_clash _ _ (by rw [h]; cases negative f y <;> decide), finishF_nan]
  rfl

theorem fsubE_nan (h : isNan f x = true ∨ isNan f y = true) : fsubE (FFmt.fmt f) x y = (canonicalNan f, 0) := by
  rw [fsubE, sub_nan h, finishF_nan]

theorem fmulE_inf (h : infProduct f x y = true) : fmulE (FFmt.fmt f) x y = (signed f (negative f x != negative f y) (infinity f), 0) := by
  rw [fmulE, mul_inf h, finishF_inf]

theorem fmulE_nan (h : isNan f x = true ∨ isNan f y = true) : fmulE (FFmt.fmt f) x y = (canonicalNan f, 0) := by
  rw [fmulE, mul_nan h, finishF_nan]

theorem fmulE_invalid (h : (isInf f x = true ∧ magnitude f y = 0) ∨ (magnitude f x = 0 ∧ isInf f y = true)) :
    fmulE (FFmt.fmt f) x y = (canonicalNan f, 1) := by
  rw [fmulE, mul_invalid h, finishF_nan]
  rfl

variable {z : ℕ}

theorem fmaE_inf (h : infProduct f x y = true) (hz : isNan f z = false)
    (hc : (isInf f z && ((negative f x != negative f y) != negative f z)) = false) :
    fmaE (FFmt.fmt f) x y z = (signed f (negative f x != negative f y) (infinity f), 0) := by
  have hne : decVal (FFmt.fmt f) z ≠ .inf !(negative f x != negative f y) := by
    rw [ne_eq, decVal_eq_inf_iff hz]
    rintro ⟨hiz, hs⟩
    simp [hiz, hs] at hc
  rw [fmaE_of_product z (mul_inf h), add_inf (decVal_ne_nan hz) hne, finishF_inf]

theorem fmaE_clash (h : infProduct f x y = true) (hi : isInf f z = true) (hs : (negative f x != negative f y) ≠ negative f z) :
    fmaE (FFmt.fmt f) x y z = (canonicalNan f, 1) := by
  rw [fmaE_of_product z (mul_inf h), decVal_of_isInf hi, addVal_inf_clash _ _ hs, finishF_nan]
  rfl

theorem fmaE_inf_nan (h : infProduct f x y = true) (hz : isNan f z = true) : fmaE (FFmt.fmt f) x y z = (canonicalNan f, 0) := by
  rw [fmaE_of_product z (mul_inf h), decVal_of_isNan hz, addVal_nan_right, finishF_nan]

theorem fmaE_inf_right (hz : z < 2 ^ floatWidth f) (hx : finite f x = true) (hy : finite f y = true) (hi : isInf f z = true) :
    fmaE (FFmt.fmt f) x y z = (z, 0) := by
  obtain ⟨p, hp, -, -, ⟨s, m, e, rfl⟩, -⟩ := fmulE_of_finite hx hy
  rw [fmaE_of_product z hp, decVal_of_isInf hi, addVal_fin_inf, finishF_inf, code_of_isInf hz hi]

theorem fmaE_fin_nan (hx : finite f x = true) (hy : finite f y = true) (hz : isNan f z = true) :
    fmaE (FFmt.fmt f) x y z = (canonicalNan f, 0) := by
  obtain ⟨p, hp, -⟩ := fmulE_of_finite hx hy
  rw [fmaE_of_product z hp, decVal_of_isNan hz, addVal_nan_right, finishF_nan]

theorem fmaE_nan (h : isNan f x = true ∨ isNan f y = true) : fmaE (FFmt.fmt f) x y z = (canonicalNan f, 0) := by
  rw [fmaE_of_product z (mul_nan h), addVal_nan_left, finishF_nan]

end

/-! ### FDIV, FSQRT and the functions (R135, R136) -/

section
variable {f : FFmt} {x y : ℕ}

theorem fdivE_nan (h : isNan f x = true ∨ isNan f y = true) : fdivE (FFmt.fmt f) x y = (canonicalNan f, 0) := by
  rw [← nanCode_fmt]
  unfold fdivE
  rcases h with h | h
  · rw [decVal_of_isNan h]
  · rw [decVal_of_isNan h]
    cases decVal (FFmt.fmt f) x <;> rfl

theorem fdivE_inf_inf (hx : isInf f x = true) (hy : isInf f y = true) : fdivE (FFmt.fmt f) x y = (canonicalNan f, 1) := by
  unfold fdivE
  rw [decVal_of_isInf hx, decVal_of_isInf hy, ← nanCode_fmt]
  rfl

theorem fdivE_inf_fin (hx : isInf f x = true) (hy : finite f y = true) :
    fdivE (FFmt.fmt f) x y = (signed f (negative f x != negative f y) (infinity f), 0) := by
  unfold fdivE
  rw [decVal_of_isInf hx, decVal_of_finite hy, ← infCode_fmt]

theorem fdivE_fin_inf (hx : finite f x = true) (hy : isInf f y = true) :
    fdivE (FFmt.fmt f) x y = (signed f (negative f x != negative f y) 0, 0) := by
  unfold fdivE
  rw [decVal_of_finite hx, decVal_of_isInf hy, ← zeroCode_fmt]

theorem fdivE_zero_zero (hx : magnitude f x = 0) (hy : magnitude f y = 0) : fdivE (FFmt.fmt f) x y = (canonicalNan f, 1) := by
  unfold fdivE
  rw [decVal_of_zero hx, decVal_of_zero hy, ← nanCode_fmt]
  rfl

theorem fdivE_fin_zero (hx : finite f x = true) (hx0 : magnitude f x ≠ 0) (hy : magnitude f y = 0) :
    fdivE (FFmt.fmt f) x y = (signed f (negative f x != negative f y) (infinity f), 2) := by
  unfold fdivE
  rw [decVal_of_finite hx, decVal_of_zero hy, ← infCode_fmt]
  exact if_neg (significand_ne_zero hx0)

/-- An infinity or a finite number below zero, which roots and logarithms have none of. -/
theorem below_zero (hn : isNan f x = false) (hs : negative f x = true) (h0 : magnitude f x ≠ 0) :
    decVal (FFmt.fmt f) x = .inf true ∨ ∃ m e, m ≠ 0 ∧ decVal (FFmt.fmt f) x = .fin true m e := by
  rcases inf_or_finite hn with h | h
  · exact .inl (by rw [decVal_of_isInf h, hs])
  · exact .inr ⟨_, _, significand_ne_zero h0, by rw [decVal_of_finite h, hs]⟩

theorem isInf_ne_nan (h : isInf f x = true) : isNan f x = false ∧ magnitude f x ≠ 0 := by
  have h : magnitude f x = infinity f := beq_iff_eq.mp h
  have := infinity_pos f
  exact ⟨decide_eq_false (by omega), by omega⟩

theorem fsqrtE_inf (hx : x < 2 ^ floatWidth f) (h : isInf f x = true) (hs : negative f x = false) : fsqrtE (FFmt.fmt f) x = (x, 0) := by
  unfold fsqrtE
  conv_rhs => rw [← code_of_isInf hx h, hs, ← infCode_fmt]
  rw [decVal_of_isInf h, hs]
  rfl

theorem fsqrtE_nan (h : isNan f x = true) : fsqrtE (FFmt.fmt f) x = (canonicalNan f, 0) := by
  unfold fsqrtE
  rw [decVal_of_isNan h, nanCode_fmt]

theorem fsqrtE_zero (hx : x < 2 ^ floatWidth f) (h : magnitude f x = 0) : fsqrtE (FFmt.fmt f) x = (x, 0) := by
  unfold fsqrtE
  conv_rhs => rw [← code_of_zero hx h, ← zeroCode_fmt]
  rw [decVal_of_zero h]
  rfl

theorem fsqrtE_below (hn : isNan f x = false) (hs : negative f x = true) (h0 : magnitude f x ≠ 0) :
    fsqrtE (FFmt.fmt f) x = (canonicalNan f, 1) := by
  unfold fsqrtE
  rw [← nanCode_fmt]
  rcases below_zero hn hs h0 with h | ⟨m, e, hm, h⟩
  · rw [h]
    rfl
  · rw [h]
    exact if_neg hm

theorem frcpE_zero (h : magnitude f x = 0) : frcpE (FFmt.fmt f) x = (signed f (negative f x) (infinity f), 2) := by
  unfold frcpE
  rw [decVal_of_zero h, ← infCode_fmt]
  rfl

theorem frcpE_inf (h : isInf f x = true) : frcpE (FFmt.fmt f) x = (signed f (negative f x) 0, 0) := by
  unfold frcpE
  rw [decVal_of_isInf h, ← zeroCode_fmt]

theorem frcpE_nan (h : isNan f x = true) : frcpE (FFmt.fmt f) x = (canonicalNan f, 0) := by
  unfold frcpE
  rw [decVal_of_isNan h, nanCode_fmt]

theorem frsqE_zero (h : magnitude f x = 0) : frsqE (FFmt.fmt f) x = (signed f (negative f x) (infinity f), 2) := by
  unfold frsqE
  rw [decVal_of_zero h, ← infCode_fmt]
  rfl

theorem frsqE_inf (h : isInf f x = true) (hs : negative f x = false) : frsqE (FFmt.fmt f) x = (0, 0) := by
  unfold frsqE
  rw [decVal_of_isInf h, hs]
  rfl

theorem frsqE_below (hn : isNan f x = false) (hs : negative f x = true) (h0 : magnitude f x ≠ 0) : frsqE (FFmt.fmt f) x = (canonicalNan f, 1) := by
  unfold frsqE
  rw [← nanCode_fmt]
  rcases below_zero hn hs h0 with h | ⟨m, e, hm, h⟩
  · rw [h]
    rfl
  · rw [h]
    exact if_neg hm

theorem frsqE_nan (h : isNan f x = true) : frsqE (FFmt.fmt f) x = (canonicalNan f, 0) := by
  unfold frsqE
  rw [decVal_of_isNan h, nanCode_fmt]

variable {tie : ℕ → Bool}

theorem rne_one (f : FFmt) : rne (FFmt.fmt f) (.fin false 1 0) = (bias f * 2 ^ fracBits f, 0) := by cases f <;> decide

theorem fexp2E_zero (h : magnitude f x = 0) : fexp2E tie (FFmt.fmt f) x = (bias f * 2 ^ fracBits f, 0) := by
  unfold fexp2E
  rw [decVal_of_zero h]
  exact (if_pos rfl).trans (rne_one f)

theorem fexp2E_inf (h : isInf f x = true) : fexp2E tie (FFmt.fmt f) x = if negative f x then (0, 0) else (infinity f, 0) := by
  unfold fexp2E
  rw [decVal_of_isInf h, infCode_fmt]
  rfl

theorem fexp2E_nan (h : isNan f x = true) : fexp2E tie (FFmt.fmt f) x = (canonicalNan f, 0) := by
  unfold fexp2E
  rw [decVal_of_isNan h, nanCode_fmt]

theorem flog2E_zero (h : magnitude f x = 0) : flog2E tie (FFmt.fmt f) x = (signed f true (infinity f), 2) := by
  unfold flog2E
  rw [decVal_of_zero h, ← infCode_fmt]
  rfl

theorem flog2E_inf (h : isInf f x = true) (hs : negative f x = false) : flog2E tie (FFmt.fmt f) x = (infinity f, 0) := by
  unfold flog2E
  rw [decVal_of_isInf h, hs, infCode_fmt]
  rfl

theorem flog2E_below (hn : isNan f x = false) (hs : negative f x = true) (h0 : magnitude f x ≠ 0) :
    flog2E tie (FFmt.fmt f) x = (canonicalNan f, 1) := by
  unfold flog2E
  rw [← nanCode_fmt]
  rcases below_zero hn hs h0 with h | ⟨m, e, hm, h⟩
  · rw [h]
    rfl
  · rw [h]
    exact if_neg hm

theorem flog2E_nan (h : isNan f x = true) : flog2E tie (FFmt.fmt f) x = (canonicalNan f, 0) := by
  unfold flog2E
  rw [decVal_of_isNan h, nanCode_fmt]

theorem flog2E_one (h : x = bias f * 2 ^ fracBits f) : flog2E tie (FFmt.fmt f) x = (0, 0) := by
  subst h
  cases f <;> rfl

/-! ### The statement -/

/-- Settles O11: each row is what the reading of its operands makes of its instruction. -/
theorem floatSpecialCases : Obligations.FloatSpecialCases := by
  refine ⟨fun f x y z hx hy hz => ?_, fun f x hx => ?_⟩
  · simp only [specialTable, List.forall_mem_cons, Bool.and_eq_true, Bool.or_eq_true, Bool.not_eq_true', beq_iff_eq, bne_iff_ne, and_imp,
      List.not_mem_nil, false_imp_iff, implies_true, and_true]
    exact ⟨faddE_inf_left hx, faddE_inf_right hy, fsubE_inf_left hx, fsubE_inf_right, fmulE_inf, fmaE_inf, fmaE_clash, fmaE_inf_nan,
      fmaE_inf_right hz, fdivE_inf_fin, fdivE_fin_inf, fsqrtE_inf hx, faddE_nan, fsubE_nan, fmulE_nan, fdivE_nan, fmaE_nan, fsqrtE_nan, faddE_clash,
      fsubE_clash, fun hi h0 => fmulE_invalid (.inl ⟨hi, h0⟩), fun h0 hi => fmulE_invalid (.inr ⟨h0, hi⟩),
      fun hi h0 => fmaE_of_invalid z (mul_invalid (.inl ⟨hi, h0⟩)), fun h0 hi => fmaE_of_invalid z (mul_invalid (.inr ⟨h0, hi⟩)),
      fmaE_fin_nan, fdivE_inf_inf, fdivE_zero_zero, fdivE_fin_zero, fsqrtE_zero hx, fsqrtE_below⟩
  · simp only [functionTable, List.forall_mem_cons, Bool.and_eq_true, Bool.not_eq_true', beq_iff_eq, bne_iff_ne, and_imp,
      List.not_mem_nil, false_imp_iff, implies_true, and_true]
    have hfin (h : finite f x = true) : isNan f x = false := by
      have h : magnitude f x < infinity f := of_decide_eq_true h
      exact decide_eq_false (by omega)
    exact ⟨frcpE_zero, frcpE_inf, frcpE_nan, frsqE_zero, frsqE_inf, fun hi hs => frsqE_below (isInf_ne_nan hi).1 hs (isInf_ne_nan hi).2,
      fun h hs h0 => frsqE_below (hfin h) hs h0, frsqE_nan, fexp2E_zero, fun hi hs => by rw [fexp2E_inf hi, hs]; rfl,
      fun hi hs => by rw [fexp2E_inf hi, hs]; rfl, fexp2E_nan, flog2E_zero, flog2E_inf,
      fun hi hs => flog2E_below (isInf_ne_nan hi).1 hs (isInf_ne_nan hi).2, fun h hs h0 => flog2E_below (hfin h) hs h0, flog2E_nan, flog2E_one⟩

end

end Sys2Proof.Proofs
end

