-- ==== Sys2Proof/Proofs/IntegerRounding.lean ====
section
/-! SUPPORT. Conversions to and from integers (R82, R142, R143): rounding to an integer by a mode, clamping, and what `cvtE`, `cvtiE` and `cvtfE` make of the
value of a code. -/

namespace Sys2Proof.Proofs

open Sys2Proof Sys2Proof.Machine Sys2Proof.Claims Sys2Proof.Laws

/-! ### Integers of a width -/

theorem intLo_eq_lowest (u : Bool) (w : ℕ) : intLo u w = lowest u w := by
  cases u <;> simp [intLo, lowest]

theorem intHi_eq_highest (u : Bool) (w : ℕ) : intHi u w = highest u w := by
  have hw := Nat.one_le_two_pow (n := w)
  have hw' := Nat.one_le_two_pow (n := w - 1)
  cases u <;> simp [intHi, highest, Nat.cast_sub hw, Nat.cast_sub hw']

theorem wrap_eq (w : ℕ) (i : ℤ) : wrap w i = (BitVec.ofInt w i).toNat := by rw [BitVec.toNat_ofInt, wrap]

theorem rd_eq_num (u : Bool) {w : ℕ} (v : BitVec w) : rd u w v.toNat = num u v := by
  cases u
  · exact sgn_toNat v
  · simp [rd, num, Nat.mod_eq_of_lt v.isLt]

theorem ratOf_valOfInt (i : ℤ) : ratOf (decide (i < 0)) i.natAbs 0 = i := by
  rw [ratOf_int, zpow_zero, mul_one]
  congr 1
  by_cases h : i < 0
  · simp only [h, decide_true, if_true]
    omega
  · simp only [h, decide_false, Bool.false_eq_true, if_false]
    omega

/-! ### Rounding to an integer (R82, R86) -/

/-- The integer `n` is what a mode makes of a magnitude of a sign, which lies from `k` on and below `k + 1`. -/
structure RoundedInt (m : Rm) (s : Bool) (v : ℚ) (k n : ℕ) : Prop where
  low : (k : ℚ) ≤ v
  high : v < k + 1
  up : GoesUp m s (k % 2 = 1) (k : ℚ) v (k + 1) → n = k + 1
  down : ¬ GoesUp m s (k % 2 = 1) (k : ℚ) v (k + 1) → n = k

section
variable {m : Rm} {s : Bool} {v : ℚ} {k n : ℕ}

theorem RoundedInt.floor (h : RoundedInt m s v k n) : ⌊v⌋ = k := by
  rw [Int.floor_eq_iff]
  exact ⟨by exact_mod_cast h.low, by exact_mod_cast h.high⟩

theorem RoundedInt.ceil (h : RoundedInt m s v k n) : ⌈v⌉ = if (k : ℚ) < v then (k : ℤ) + 1 else k := by
  split_ifs with hlt
  · rw [Int.ceil_eq_iff]
    push_cast
    exact ⟨by linarith, h.high.le⟩
  · rw [le_antisymm (not_lt.mp hlt) h.low, Int.ceil_natCast]

theorem toInteger_rne_pos (h : RoundedInt .rne false v k n) : toInteger .rne v = n := by
  have hfloor := h.floor
  obtain ⟨hlo, hhi, hup, hdown⟩ := h
  simp only [toInteger, hfloor, Int.cast_natCast]
  simp only [GoesUp] at hup hdown
  split_ifs with hcond
  · rw [hdown]
    rintro (hgt | ⟨htie, hodd⟩)
    · rcases hcond with hlt | ⟨heq, -⟩ <;> linarith
    · rcases hcond with hlt | ⟨-, heven⟩
      · linarith
      · omega
  · push Not at hcond
    rw [hup, Nat.cast_succ]
    rcases eq_or_lt_of_le hcond.1 with heq | hlt
    · exact .inr ⟨by linarith, by have := hcond.2 heq.symm; omega⟩
    · exact .inl (by linarith)

theorem toInteger_rne_neg (h : RoundedInt .rne true v k n) : toInteger .rne (-v) = -(n : ℤ) := by
  have hceil := h.ceil
  obtain ⟨hlo, hhi, hup, hdown⟩ := h
  simp only [toInteger, Int.floor_neg, hceil]
  simp only [GoesUp] at hup hdown
  by_cases hkv : (k : ℚ) < v
  · simp only [if_pos hkv]
    push_cast
    split_ifs with hcond
    · rw [hup]
      · push_cast
        ring
      · rcases hcond with hlt | ⟨heq, hodd⟩
        · exact .inl (by linarith)
        · exact .inr ⟨by linarith, by omega⟩
    · push Not at hcond
      rw [hdown]
      · ring
      · rintro (hgt | ⟨htie, hodd⟩)
        · linarith [hcond.1]
        · exact hcond.2 (by linarith) (by omega)
  · obtain rfl : v = k := le_antisymm (not_lt.mp hkv) hlo
    simp only [if_neg hkv]
    push_cast
    rw [if_pos (.inl (by norm_num)), hdown]
    rintro (hlt | ⟨heq, -⟩) <;> linarith

/-- A magnitude with a sign is rounded to the rounded magnitude with the sign. -/
theorem toInteger_signed (h : RoundedInt m s v k n) : toInteger m ((if s then -1 else 1) * v) = if s then -(n : ℤ) else n := by
  have hv0 : 0 ≤ v := (Nat.cast_nonneg k).trans h.low
  cases s
  case false =>
    simp only [Bool.false_eq_true, if_false, one_mul]
    cases m
    case rne => exact toInteger_rne_pos h
    case rtz => rw [toInteger, if_pos hv0, h.floor, h.down (by simp [GoesUp])]
    case rdn => rw [toInteger, h.floor, h.down (by simp [GoesUp])]
    case rup =>
      rw [toInteger, h.ceil]
      split_ifs with hlt
      · rw [h.up ⟨rfl, hlt⟩, Nat.cast_succ]
      · rw [h.down fun hgo => hlt hgo.2]
  case true =>
    simp only [if_true, neg_mul, one_mul]
    cases m
    case rne => exact toInteger_rne_neg h
    case rtz =>
      have hneg : (if 0 ≤ -v then ⌊-v⌋ else ⌈-v⌉) = -(k : ℤ) := by
        split_ifs with hle
        · obtain rfl : v = 0 := le_antisymm (by linarith) hv0
          have hk := h.floor
          rw [Int.floor_zero] at hk
          simp [← hk]
        · rw [Int.ceil_neg, h.floor]
      rw [toInteger, hneg, h.down (by simp [GoesUp])]
    case rdn =>
      rw [toInteger, Int.floor_neg, h.ceil]
      split_ifs with hlt
      · rw [h.up ⟨rfl, hlt⟩, Nat.cast_succ]
      · rw [h.down fun hgo => hlt hgo.2]
    case rup => rw [toInteger, Int.ceil_neg, h.floor, h.down (by simp [GoesUp])]

/-- A number with a sign is the rounded integer exactly where its magnitude is the integer below. -/
theorem signed_eq_iff (h : RoundedInt m s v k n) : (((if s then -(n : ℤ) else n : ℤ) : ℤ) : ℚ) = (if s then -1 else 1) * v ↔ v = k := by
  have hsign : (((if s then -(n : ℤ) else n : ℤ) : ℤ) : ℚ) = (if s then -1 else 1) * n := by cases s <;> simp
  rw [hsign, mul_right_inj' (by split <;> norm_num)]
  by_cases hgo : GoesUp m s (k % 2 = 1) (k : ℚ) v (k + 1)
  · have hne : v ≠ k := fun heq => not_goesUp_self (lt_add_one (k : ℚ)) (heq ▸ hgo)
    rw [h.up hgo, Nat.cast_succ]
    exact iff_of_false h.high.ne' hne
  · rw [h.down hgo, eq_comm]

end

theorem roundInt_fin (m : Rm) (u : Bool) (w : ℕ) (s : Bool) (k : ℕ) (e : ℤ) :
    (wrap w (roundInt m (intLo u w) (intHi u w) (.fin s k e)).1, (roundInt m (intLo u w) (intHi u w) (.fin s k e)).2) =
      ((converts m u w (ratOf s k e)).1.toNat, (converts m u w (ratOf s k e)).2) := by
  obtain ⟨j, hlo, hhi, hup, hdown, hinex⟩ := toQuantum_spec (K := ℚ) m s k e 0
  simp only [zpow_zero, mul_one] at hlo hhi hup hdown hinex
  have hint := toInteger_signed ⟨hlo, hhi, hup, hdown⟩
  have hexact := signed_eq_iff ⟨hlo, hhi, hup, hdown⟩
  rw [← ratOf_eq] at hint hexact
  have hflag : ((toInteger m (ratOf s k e) : ℤ) : ℚ) = ratOf s k e ↔ (toQuantum m s k e 0).2 = false := by
    rw [hint, hexact, ← Bool.not_eq_true, hinex, not_not]
  simp only [roundInt, converts, intLo_eq_lowest, intHi_eq_highest, hint] at hflag ⊢
  generalize (toQuantum m s k e 0) = r at *
  generalize (if s then -(r.1 : ℤ) else r.1) = i at *
  split_ifs <;> simp_all [wrap_eq, fNV, fNX]

end Sys2Proof.Proofs
end

