-- ==== Sys2Proof/Proofs/Ps8.lean ====
section
/-! SUPPORT. PS8 (R83 to R85): the values of its codes, their canonical codes, and what `roundPs8` gives. -/

namespace Sys2Proof.Proofs

open Sys2Proof Sys2Proof.Machine Sys2Proof.Claims Sys2Proof.Laws

/-! ### Codes and values -/

/-- A term of a PS8 code, in units of 2^-7. -/
theorem ps8_term (c i k : ℕ) (hk : k < 8) : (if c.testBit i then -1 else 1) * (2 : ℚ) ^ (-(k : ℤ)) =
    ((if c / 2 ^ i % 2 = 1 then -((128 / 2 ^ k : ℕ) : ℤ) else ((128 / 2 ^ k : ℕ) : ℤ) : ℤ) : ℚ) / 128 := by
  have hpow : (2 : ℚ) ^ (-(k : ℤ)) = ((128 / 2 ^ k : ℕ) : ℚ) / 128 := by interval_cases k <;> norm_num
  rw [Nat.testBit_eq_decide_div_mod_eq, hpow]
  by_cases h : c / 2 ^ i % 2 = 1
  · simp only [h, decide_true, if_true]
    rw [Int.cast_neg, Int.cast_natCast, neg_one_mul, neg_div]
  · simp only [h, decide_false, Bool.false_eq_true, if_false, one_mul, Int.cast_natCast]

theorem ps8_eq (c : ℕ) : ps8 c = (ps8Val c : ℚ) / 128 := by
  rw [ps8, ps8_term c 7 _ (Nat.mod_lt _ (by decide)), ps8_term c 3 _ (Nat.mod_lt _ (by decide)), ← add_div, ← Int.cast_add]
  rfl

theorem decVal_ps8 {c : ℕ} (hc : c < 256) : decVal .ps8 c = .fin (decide (ps8Val c < 0)) (ps8Val c).natAbs (-7) := by
  simp only [decVal, Nat.mod_eq_of_lt hc]

theorem ratOf_scaled (i e : ℤ) : ratOf (decide (i < 0)) i.natAbs e = i * 2 ^ e := by
  have h := ratOf_valOfInt i
  rw [ratOf_eq, zpow_zero, mul_one] at h
  rw [ratOf_eq, ← mul_assoc, h]

/-- A code is the first of its value (R84). -/
def Canonical (c : ℕ) : Prop := c < 256 ∧ ∀ d, d < 256 → ps8 d = ps8 c → c ≤ d

/-- `ps8Canon` finds the first code of a value. -/
theorem ps8Canon_spec {c : ℕ} (hc : c < 256) : Canonical (ps8Canon (ps8Val c)) ∧ ps8Val (ps8Canon (ps8Val c)) = ps8Val c := by
  obtain ⟨d, hd⟩ : ∃ d, (List.range 256).find? (fun d => ps8Val d == ps8Val c) = some d :=
    Option.isSome_iff_exists.mp (List.find?_isSome.mpr ⟨c, List.mem_range.mpr hc, by simp⟩)
  rw [ps8Canon, hd, Option.getD_some]
  rw [List.find?_range_eq_some] at hd
  obtain ⟨hval, hlt, hmin⟩ := hd
  rw [beq_iff_eq] at hval
  refine ⟨⟨List.mem_range.mp hlt, fun k _ hk => ?_⟩, hval⟩
  by_contra hkd
  have hne := hmin k (not_le.mp hkd)
  rw [ps8_eq, ps8_eq, div_left_inj' (by norm_num), Int.cast_inj, hval] at hk
  simp [hk] at hne

theorem ps8Canon_of_canonical {c : ℕ} (h : Canonical c) : ps8Canon (ps8Val c) = c := by
  obtain ⟨⟨hlt, hmin⟩, hval⟩ := ps8Canon_spec h.1
  have heq : ps8 (ps8Canon (ps8Val c)) = ps8 c := by rw [ps8_eq, hval, ps8_eq]
  exact le_antisymm (hmin c h.1 heq.symm) (h.2 _ hlt heq)

/-! ### The two values around a number -/

/-- What a left fold that keeps the element of a kind with the greatest key ends with. -/
theorem foldl_greatest {p : ℤ → Prop} {g : ℤ → ℤ} {f : ℤ → ℤ → ℤ} (hyes : ∀ a v, p v ∧ g a < g v → f a v = v) (hno : ∀ a v, ¬ (p v ∧ g a < g v) → f a v = a)
    (vs : List ℤ) (a : ℤ) (ha : p a) :
    vs.foldl f a ∈ a :: vs ∧ p (vs.foldl f a) ∧ ∀ v ∈ a :: vs, p v → g v ≤ g (vs.foldl f a) := by
  induction vs generalizing a with
  | nil => simp [ha]
  | cons v vs ih =>
    rw [List.foldl_cons]
    by_cases hv : p v ∧ g a < g v
    · rw [hyes a v hv]
      obtain ⟨hmem, hp, hall⟩ := ih v hv.1
      have hle := hall v List.mem_cons_self hv.1
      exact ⟨List.mem_cons_of_mem a hmem, hp, List.forall_mem_cons.mpr ⟨fun _ => hv.2.le.trans hle, hall⟩⟩
    · rw [hno a v hv]
      obtain ⟨hmem, hp, hall⟩ := ih a ha
      obtain ⟨hle, hall⟩ := List.forall_mem_cons.mp hall
      refine ⟨?_, hp, List.forall_mem_cons.mpr ⟨hle, List.forall_mem_cons.mpr ⟨fun h => ?_, hall⟩⟩⟩
      · exact (List.mem_cons.mp hmem).elim (fun h => by simp [h]) fun h => List.mem_cons_of_mem a (List.mem_cons_of_mem v h)
      · exact (not_lt.mp fun hlt => hv ⟨h, hlt⟩).trans (hle ha)

/-- `cmp7` has the sign of the difference. -/
theorem cmp7_eq (s : Bool) (m : ℕ) (e v : ℤ) : ∃ u : ℚ, 0 < u ∧ (cmp7 s m e v : ℚ) = u * (ratOf s m e * 128 - v) := by
  have h128 : (2 : ℚ) ^ (e + 7) = 2 ^ e * 128 := by
    rw [two_zpow_add]
    norm_num
  have hq : ratOf s m e * 128 = ((if s then -(m : ℤ) else m : ℤ) : ℚ) * 2 ^ (e + 7) := by
    rw [ratOf_int, h128]
    ring
  rw [hq, cmp7]
  generalize (if s then -(m : ℤ) else m : ℤ) = x
  by_cases hk : 0 ≤ e + 7
  · have hnat : (2 : ℚ) ^ (e + 7) = ((2 ^ (e + 7).toNat : ℕ) : ℚ) := by
      rw [Nat.cast_pow, Nat.cast_ofNat, ← zpow_natCast, Int.toNat_of_nonneg hk]
    rw [if_pos hk, hnat]
    exact ⟨1, one_pos, by push_cast; ring⟩
  · have hnat : ((2 ^ (-(e + 7)).toNat : ℕ) : ℚ) = (2 : ℚ) ^ (-(e + 7)) := by
      rw [Nat.cast_pow, Nat.cast_ofNat, ← zpow_natCast, Int.toNat_of_nonneg (by omega)]
    have hinv : (2 : ℚ) ^ (-(e + 7)) * 2 ^ (e + 7) = 1 := by rw [← two_zpow_add, neg_add_cancel, zpow_zero]
    rw [if_neg hk]
    refine ⟨2 ^ (-(e + 7)), two_zpow_pos _, ?_⟩
    rw [Int.cast_sub, Int.cast_mul, Int.cast_natCast, hnat]
    linear_combination (-(x : ℚ)) * hinv

theorem cmp7_nonneg (s : Bool) (m : ℕ) (e v : ℤ) : 0 ≤ cmp7 s m e v ↔ (v : ℚ) / 128 ≤ ratOf s m e := by
  obtain ⟨u, hu, h⟩ := cmp7_eq s m e v
  rw [← Int.cast_nonneg_iff (R := ℚ), h, mul_nonneg_iff_of_pos_left hu, sub_nonneg, div_le_iff₀ (by norm_num)]

theorem cmp7_nonpos (s : Bool) (m : ℕ) (e v : ℤ) : cmp7 s m e v ≤ 0 ↔ ratOf s m e ≤ (v : ℚ) / 128 := by
  obtain ⟨u, hu, h⟩ := cmp7_eq s m e v
  rw [← Int.cast_nonpos (R := ℚ), h, ← not_lt, mul_pos_iff_of_pos_left hu, sub_pos, not_lt, le_div_iff₀ (by norm_num)]

/-! ### What a mode makes of a number between two neighbours -/

section

variable {q : ℚ} {a b : ℕ}

theorem ps8Of_exact (m : Rm) (ha : Canonical a) (h : ps8 a = q) : Ps8Of m q a := by
  subst h
  refine ⟨ha.1, ha.2, ?_⟩
  cases m
  case rne =>
    intro d _
    rw [sub_self, abs_zero]
    exact ⟨abs_nonneg _, fun h => by rw [sub_eq_zero.mp (abs_eq_zero.mp h.symm)]⟩
  case rtz => exact ⟨le_rfl, mul_self_nonneg _, fun _ _ _ h => h⟩
  case rdn => exact ⟨le_rfl, fun _ _ h => h⟩
  case rup => exact ⟨le_rfl, fun _ _ h => h⟩

/-- The codes `a` and `b` are those of the neighbours of `q` among the values. -/
structure Between (q : ℚ) (a b : ℕ) : Prop where
  lowCanonical : Canonical a
  highCanonical : Canonical b
  above : ps8 a < q
  below : q < ps8 b
  gap : ∀ d, d < 256 → ps8 d ≤ ps8 a ∨ ps8 b ≤ ps8 d

theorem ps8_zero : ps8 0x08 = 0 := by
  rw [ps8_eq]
  norm_num [ps8Val]

theorem ps8Of_rdn (h : Between q a b) : Ps8Of .rdn q a :=
  ⟨h.lowCanonical.1, h.lowCanonical.2, h.above.le, fun d hd hdq => (h.gap d hd).elim id fun hb => absurd (hb.trans hdq) h.below.not_ge⟩

theorem ps8Of_rup (h : Between q a b) : Ps8Of .rup q b :=
  ⟨h.highCanonical.1, h.highCanonical.2, h.below.le, fun d hd hdq => (h.gap d hd).elim (fun ha => absurd (hdq.trans ha) h.above.not_ge) id⟩

theorem Between.low_nonneg (h : Between q a b) (hq : 0 ≤ q) : 0 ≤ ps8 a := by
  have hgap := h.gap 0x08 (by decide)
  rw [ps8_zero] at hgap
  exact hgap.resolve_right (hq.trans_lt h.below).not_ge

theorem Between.high_nonpos (h : Between q a b) (hq : q ≤ 0) : ps8 b ≤ 0 := by
  have hgap := h.gap 0x08 (by decide)
  rw [ps8_zero] at hgap
  exact hgap.resolve_left (h.above.trans_le hq).not_ge

theorem ps8Of_rtz_low (h : Between q a b) (hq : 0 ≤ q) : Ps8Of .rtz q a := by
  have ha0 := h.low_nonneg hq
  have hq0 : 0 < q := ha0.trans_lt h.above
  refine ⟨h.lowCanonical.1, h.lowCanonical.2, ?_, mul_nonneg ha0 hq, fun d hd hdq hle => ?_⟩
  · rw [abs_of_nonneg ha0, abs_of_nonneg hq]
    exact h.above.le
  · have hd0 := nonneg_of_mul_nonneg_left hdq hq0
    rw [abs_of_nonneg hd0, abs_of_nonneg hq] at hle
    rw [abs_of_nonneg hd0, abs_of_nonneg ha0]
    exact (ps8Of_rdn h).2.2.2 d hd hle

theorem ps8Of_rtz_high (h : Between q a b) (hq : q ≤ 0) : Ps8Of .rtz q b := by
  have hb0 := h.high_nonpos hq
  have hq0 : q < 0 := h.below.trans_le hb0
  refine ⟨h.highCanonical.1, h.highCanonical.2, ?_, mul_nonneg_of_nonpos_of_nonpos hb0 hq, fun d hd hdq hle => ?_⟩
  · rw [abs_of_nonpos hb0, abs_of_nonpos hq]
    exact neg_le_neg h.below.le
  · have hd0 := nonpos_of_mul_nonneg_left hdq hq0
    rw [abs_of_nonpos hd0, abs_of_nonpos hq] at hle
    rw [abs_of_nonpos hd0, abs_of_nonpos hb0]
    exact neg_le_neg ((ps8Of_rup h).2.2.2 d hd (neg_le_neg_iff.mp hle))

theorem ps8Of_rne_low (h : Between q a b) (hmid : 2 * q < ps8 a + ps8 b ∨ (2 * q = ps8 a + ps8 b ∧ |ps8 a| ≤ |ps8 b|)) : Ps8Of .rne q a := by
  obtain ⟨hca, hcb, hlo, hhi, hgap⟩ := h
  refine ⟨hca.1, hca.2, fun d hd => ?_⟩
  rw [abs_of_neg (sub_neg.mpr hlo)]
  rcases hgap d hd with hda | hbd
  · rw [abs_of_neg (sub_neg.mpr (hda.trans_lt hlo))]
    exact ⟨by linarith, fun heq => by rw [show ps8 a = ps8 d by linarith]⟩
  · rw [abs_of_pos (sub_pos.mpr (hhi.trans_le hbd))]
    rcases hmid with hmid | ⟨hmid, habs⟩
    · exact ⟨by linarith, fun heq => by linarith⟩
    · exact ⟨by linarith, fun heq => by rwa [show ps8 d = ps8 b by linarith]⟩

theorem ps8Of_rne_high (h : Between q a b) (hmid : ps8 a + ps8 b < 2 * q ∨ (2 * q = ps8 a + ps8 b ∧ |ps8 b| ≤ |ps8 a|)) : Ps8Of .rne q b := by
  obtain ⟨hca, hcb, hlo, hhi, hgap⟩ := h
  refine ⟨hcb.1, hcb.2, fun d hd => ?_⟩
  rw [abs_of_pos (sub_pos.mpr hhi)]
  rcases hgap d hd with hda | hbd
  · rw [abs_of_neg (sub_neg.mpr (hda.trans_lt hlo))]
    rcases hmid with hmid | ⟨hmid, habs⟩
    · exact ⟨by linarith, fun heq => by linarith⟩
    · exact ⟨by linarith, fun heq => by rwa [show ps8 d = ps8 a by linarith]⟩
  · rw [abs_of_pos (sub_pos.mpr (hhi.trans_le hbd))]
    exact ⟨by linarith, fun heq => by rw [show ps8 b = ps8 d by linarith]⟩

end

/-! ### `roundPs8` -/

/-- The greatest value up to a number, and the least from it on, as `roundPs8` finds them. -/
def ps8Below (s : Bool) (m : ℕ) (e : ℤ) : ℤ := ((List.range 256).map ps8Val).foldl (fun a v => if 0 ≤ cmp7 s m e v ∧ a < v then v else a) (-256)

def ps8Above (s : Bool) (m : ℕ) (e : ℤ) : ℤ := ((List.range 256).map ps8Val).foldl (fun a v => if cmp7 s m e v ≤ 0 ∧ v < a then v else a) 256

/-- Which of two neighbours a mode chooses, by the sign of the distance from the middle between them. -/
def ps8Choice (rm : Rm) (s : Bool) (mid lo hi : ℤ) : ℤ :=
  match rm with
  | .rne => if mid < 0 then lo else if 0 < mid then hi else if lo.natAbs < hi.natAbs then lo else hi
  | .rtz => if s then hi else lo
  | .rdn => lo
  | .rup => hi

theorem roundPs8_eq (rm : Rm) {s : Bool} {m : ℕ} {e : ℤ} (hhigh : ¬ 0 < cmp7 s m e 256) (hlow : ¬ cmp7 s m e (-256) < 0) :
    roundPs8 rm s m e = if ps8Below s m e = ps8Above s m e then (ps8Canon (ps8Below s m e), 0)
      else (ps8Canon (ps8Choice rm s (cmp7 s (2 * m) e (ps8Below s m e + ps8Above s m e)) (ps8Below s m e) (ps8Above s m e)), 16) := by
  rw [roundPs8, if_neg hhigh, if_neg hlow]
  rfl

/-- The values of PS8 next below and next above a number within ±2, as `roundPs8` finds them. -/
theorem ps8_neighbours (s : Bool) (m : ℕ) (e : ℤ) (h : |ratOf s m e| ≤ 2) : ∃ a b, a < 256 ∧ b < 256 ∧
    ps8Below s m e = ps8Val a ∧ ps8Above s m e = ps8Val b ∧
    ps8 a ≤ ratOf s m e ∧ ratOf s m e ≤ ps8 b ∧
    ∀ d, d < 256 → (ps8 d ≤ ratOf s m e → ps8 d ≤ ps8 a) ∧ (ratOf s m e ≤ ps8 d → ps8 b ≤ ps8 d) := by
  obtain ⟨hlow, hhigh⟩ := abs_le.mp h
  obtain ⟨hmem, hp, hall⟩ := foldl_greatest (p := fun v => 0 ≤ cmp7 s m e v) (g := id)
    (f := fun a v => if 0 ≤ cmp7 s m e v ∧ a < v then v else a) (fun a v h => if_pos h) (fun a v h => if_neg h) ((List.range 256).map ps8Val) (-256)
    ((cmp7_nonneg s m e _).mpr (by norm_num; exact hlow))
  obtain ⟨hmem', hp', hall'⟩ := foldl_greatest (p := fun v => cmp7 s m e v ≤ 0) (g := fun v => -v)
    (f := fun a v => if cmp7 s m e v ≤ 0 ∧ v < a then v else a) (fun a v h => if_pos (by simpa using h)) (fun a v h => if_neg (by simpa using h))
    ((List.range 256).map ps8Val) 256 ((cmp7_nonpos s m e _).mpr (by norm_num; exact hhigh))
  have hvalue {v : ℤ} {w : ℕ} (hw : w < 256) (hv : v ∈ ps8Val w :: (List.range 256).map ps8Val) : ∃ c < 256, v = ps8Val c := by
    rcases List.mem_cons.mp hv with hv | hv
    · exact ⟨w, hw, hv⟩
    · obtain ⟨c, hc, rfl⟩ := List.mem_map.mp hv
      exact ⟨c, List.mem_range.mp hc, rfl⟩
  obtain ⟨a, ha, hva⟩ := hvalue (w := 0x88) (by decide) hmem
  obtain ⟨b, hb, hvb⟩ := hvalue (w := 0) (by decide) hmem'
  rw [hva, cmp7_nonneg, ← ps8_eq] at hp
  rw [hvb, cmp7_nonpos, ← ps8_eq] at hp'
  rw [hva] at hall
  rw [hvb] at hall'
  refine ⟨a, b, ha, hb, hva, hvb, hp, hp', fun d hd => ?_⟩
  have hmemd := List.mem_map_of_mem (f := ps8Val) (List.mem_range.mpr hd)
  have hle {c d : ℕ} (h : ps8Val c ≤ ps8Val d) : ps8 c ≤ ps8 d := by
    rw [ps8_eq, ps8_eq]
    exact div_le_div_of_nonneg_right (by exact_mod_cast h) (by norm_num)
  constructor
  · rw [ps8_eq d, ← cmp7_nonneg, ← ps8_eq d]
    exact fun h => hle (hall _ (List.mem_cons_of_mem _ hmemd) h)
  · rw [ps8_eq d, ← cmp7_nonpos, ← ps8_eq d]
    exact fun h => hle (neg_le_neg_iff.mp (hall' _ (List.mem_cons_of_mem _ hmemd) h))

theorem abs_ps8_le_iff {a b : ℕ} : |ps8 a| ≤ |ps8 b| ↔ (ps8Val a).natAbs ≤ (ps8Val b).natAbs := by
  rw [ps8_eq, ps8_eq, abs_div, abs_div, div_le_div_iff_of_pos_right (by norm_num), ← Int.cast_abs, ← Int.cast_abs, Int.cast_le, Int.abs_eq_natAbs,
    Int.abs_eq_natAbs, Int.ofNat_le]

/-- The choice of a mode between two neighbours is right. -/
theorem ps8Of_choice (rm : Rm) (s : Bool) {m : ℕ} {e : ℤ} {a b : ℕ} (h : Between (ratOf s m e) a b) :
    ∃ c ∈ [a, b], ps8Choice rm s (cmp7 s (2 * m) e (ps8Val a + ps8Val b)) (ps8Val a) (ps8Val b) = ps8Val c ∧ Ps8Of rm (ratOf s m e) c := by
  have hdouble : ratOf s (2 * m) e = 2 * ratOf s m e := by
    simp only [ratOf_eq]
    push_cast
    ring
  have hsum : ((ps8Val a + ps8Val b : ℤ) : ℚ) / 128 = ps8 a + ps8 b := by rw [ps8_eq, ps8_eq, ← add_div, Int.cast_add]
  have hpos := (cmp7_nonpos s (2 * m) e (ps8Val a + ps8Val b)).not
  have hneg := (cmp7_nonneg s (2 * m) e (ps8Val a + ps8Val b)).not
  rw [not_le, not_le, hsum, hdouble] at hpos hneg
  have hsgn : 0 ≤ (m : ℚ) * 2 ^ e := mul_nonneg (Nat.cast_nonneg m) (two_zpow_pos e).le
  cases rm
  case rne =>
    rw [ps8Choice]
    split_ifs with h1 h2 h3
    · exact ⟨a, by simp, rfl, ps8Of_rne_low h (.inl (hneg.mp h1))⟩
    · exact ⟨b, by simp, rfl, ps8Of_rne_high h (.inl (hpos.mp h2))⟩
    all_goals have hmid : 2 * ratOf s m e = ps8 a + ps8 b := le_antisymm (not_lt.mp (hpos.not.mp h2)) (not_lt.mp (hneg.not.mp h1))
    · exact ⟨a, by simp, rfl, ps8Of_rne_low h (.inr ⟨hmid, abs_ps8_le_iff.mpr h3.le⟩)⟩
    · exact ⟨b, by simp, rfl, ps8Of_rne_high h (.inr ⟨hmid, abs_ps8_le_iff.mpr (not_lt.mp h3)⟩)⟩
  case rtz =>
    cases s
    · exact ⟨a, by simp, rfl, ps8Of_rtz_low h (by rw [ratOf_eq]; simpa using hsgn)⟩
    · exact ⟨b, by simp, rfl, ps8Of_rtz_high h (by rw [ratOf_eq]; simpa using hsgn)⟩
  case rdn => exact ⟨a, by simp, rfl, ps8Of_rdn h⟩
  case rup => exact ⟨b, by simp, rfl, ps8Of_rup h⟩

theorem cmp7_high (s : Bool) (m : ℕ) (e : ℤ) : 0 < cmp7 s m e 256 ↔ 2 < ratOf s m e := by
  have h := (cmp7_nonpos s m e 256).not
  rw [not_le, not_le] at h
  rw [h]
  norm_num

theorem cmp7_low (s : Bool) (m : ℕ) (e : ℤ) : cmp7 s m e (-256) < 0 ↔ ratOf s m e < -2 := by
  have h := (cmp7_nonneg s m e (-256)).not
  rw [not_le, not_le] at h
  rw [h]
  norm_num

theorem roundPs8_within (m : Rm) (s : Bool) (k : ℕ) (e : ℤ) (h : |ratOf s k e| ≤ 2) :
    Ps8Of m (ratOf s k e) (roundPs8 m s k e).1 ∧ (roundPs8 m s k e).2 = if ps8 (roundPs8 m s k e).1 = ratOf s k e then 0 else 16 := by
  obtain ⟨hlow, hhigh⟩ := abs_le.mp h
  obtain ⟨a, b, ha, hb, hlo, hhi, hqa, hqb, hgap⟩ := ps8_neighbours s k e h
  obtain ⟨hca, hva⟩ := ps8Canon_spec ha
  obtain ⟨hcb, hvb⟩ := ps8Canon_spec hb
  have heq {c d : ℕ} (h : ps8Val c = ps8Val d) : ps8 c = ps8 d := by rw [ps8_eq, ps8_eq, h]
  rw [roundPs8_eq m (mt (cmp7_high s k e).mp hhigh.not_gt) (mt (cmp7_low s k e).mp hlow.not_gt), hlo, hhi]
  by_cases hab : ps8Val a = ps8Val b
  · have hq : ps8 (ps8Canon (ps8Val a)) = ratOf s k e := by
      rw [heq hva]
      exact le_antisymm hqa (heq hab ▸ hqb)
    rw [if_pos hab]
    exact ⟨ps8Of_exact m hca hq, by rw [if_pos hq]⟩
  · have hlt {c d : ℕ} (hle : ps8 c ≤ ps8 d) (hne : ps8Val c ≠ ps8Val d) : ps8 c < ps8 d := by
      refine lt_of_le_of_ne hle ?_
      rw [ps8_eq, ps8_eq, ne_eq, div_left_inj' (by norm_num), Int.cast_inj]
      exact hne
    have hbetween : Between (ratOf s k e) (ps8Canon (ps8Val a)) (ps8Canon (ps8Val b)) := by
      have hstrict := hlt (hqa.trans hqb) hab
      refine ⟨hca, hcb, ?_, ?_, fun d hd => ?_⟩ <;> simp only [heq hva, heq hvb]
      · exact lt_of_le_of_ne hqa fun h => hstrict.not_ge ((hgap a ha).2 h.ge)
      · exact lt_of_le_of_ne hqb fun h => hstrict.not_ge ((hgap b hb).1 h.ge)
      · exact (le_total (ps8 d) (ratOf s k e)).imp (hgap d hd).1 (hgap d hd).2
    obtain ⟨c, hc, hchoice, hof⟩ := ps8Of_choice m s hbetween
    have hcanon : Canonical c := by
      rcases List.mem_pair.mp hc with rfl | rfl
      · exact hca
      · exact hcb
    have hne : ps8 c ≠ ratOf s k e := by
      rcases List.mem_pair.mp hc with rfl | rfl
      · exact hbetween.above.ne
      · exact hbetween.below.ne'
    rw [if_neg hab]
    rw [hva, hvb] at hchoice
    rw [hchoice, ps8Canon_of_canonical hcanon]
    exact ⟨hof, by rw [if_neg hne]⟩

theorem roundPs8_beyond (m : Rm) (s : Bool) (k : ℕ) (e : ℤ) :
    (2 < ratOf s k e → roundPs8 m s k e = (0x00, 4 + 32 + 16)) ∧ (ratOf s k e < -2 → roundPs8 m s k e = (0x88, 4 + 32 + 16)) := by
  constructor
  · intro h
    rw [roundPs8, if_pos ((cmp7_high s k e).mpr h)]
    rfl
  · intro h
    have hnot : ¬ 2 < ratOf s k e := by linarith
    rw [roundPs8, if_neg (mt (cmp7_high s k e).mp hnot), if_pos ((cmp7_low s k e).mpr h)]
    rfl

end Sys2Proof.Proofs
end

