-- ==== Sys2Proof/Proofs/Conversions.lean ====
section
/-! SUPPORT. The values of conversions (R142 to R144): what `cvtE`, `cvtiE`, `cvtfE` and `scaleE` make of the value of a code. -/

namespace Sys2Proof.Proofs

open Sys2Proof Sys2Proof.Machine Sys2Proof.Claims Sys2Proof.Laws

/-! ### The integer formats -/

/-- The integer formats of conversions. -/
def intFormats : List Fmt := [.int8, .int16, .int32]

theorem decVal_int {f : Fmt} (hf : f ∈ intFormats) (v : BitVec (Fmt.width f)) : decVal f v.toNat = valOfInt v.toInt := by
  rw [← sgn_toNat v]
  simp only [intFormats, List.mem_cons, List.not_mem_nil, or_false] at hf
  rcases hf with rfl | rfl | rfl <;> rfl

theorem roundVal_int {t : Fmt} (ht : t ∈ intFormats) (m : Rm) (sat : Bool) (v : Val) : roundVal t m sat v =
    (wrap (Fmt.width t) (roundInt m (intLo false (Fmt.width t)) (intHi false (Fmt.width t)) v).1,
      (roundInt m (intLo false (Fmt.width t)) (intHi false (Fmt.width t)) v).2) := by
  simp only [intFormats, List.mem_cons, List.not_mem_nil, or_false] at ht
  rcases ht with rfl | rfl | rfl <;> rfl

/-- Formats that are not integers are converted by their values. -/
theorem cvtE_of_not_int {f t : Fmt} (h : ¬ (f ∈ intFormats ∧ t ∈ intFormats)) (sat : Bool) (m : Rm) (c : ℕ) :
    cvtE f t sat m c = roundVal t m sat (decVal f c) := by
  simp only [intFormats, List.mem_cons, List.not_mem_nil, or_false] at h
  rw [cvtE]
  exact if_neg h

theorem not_int {t : Fmt} (ht : t ∈ .ps8 :: floatFormats) : t ∉ intFormats := by
  simp only [floatFormats, List.mem_cons, List.not_mem_nil, or_false] at ht
  rcases ht with rfl | rfl | rfl | rfl | rfl | rfl <;> decide

/-- Integers are converted to integers modulo the width, or clamped. -/
theorem cvtE_int {f t : Fmt} (hf : f ∈ intFormats) (ht : t ∈ intFormats) (sat : Bool) (m : Rm) (v : BitVec (Fmt.width f)) :
    cvtE f t sat m v.toNat = if sat then ((clamp false (Fmt.width t) v.toInt).1.toNat, if (clamp false (Fmt.width t) v.toInt).2 then 32 else 0)
      else ((v.signExtend (Fmt.width t)).toNat, 0) := by
  have hext : (v.signExtend (Fmt.width t)).toNat = wrap (Fmt.width t) v.toInt := by rw [wrap_eq, BitVec.signExtend]
  simp only [intFormats, List.mem_cons, List.not_mem_nil, or_false] at hf ht
  rw [cvtE, sgn_toNat, hext]
  simp only [hf, ht, and_self, if_true, clamp, intLo_eq_lowest, intHi_eq_highest, wrap_eq]
  split_ifs <;> simp_all [fST]

/-! ### Conversions to integers -/

theorem roundInt_nan (m : Rm) (u : Bool) (w : ℕ) :
    (wrap w (roundInt m (intLo u w) (intHi u w) .nan).1, (roundInt m (intLo u w) (intHi u w) .nan).2) = (0, 1) := by
  simp [roundInt, wrap, fNV]

theorem roundInt_inf (m : Rm) (u : Bool) (w : ℕ) (s : Bool) :
    (wrap w (roundInt m (intLo u w) (intHi u w) (.inf s)).1, (roundInt m (intLo u w) (intHi u w) (.inf s)).2) =
      ((BitVec.ofInt w (if s then lowest u w else highest u w)).toNat, 1) := by
  simp only [roundInt, wrap_eq, intLo_eq_lowest, intHi_eq_highest, fNV]

theorem cvtiE_eq (f : Fmt) (n : ℕ) (u : Bool) (m : Rm) (c : ℕ) : cvtiE f n u m c =
    (wrap 32 (roundInt m (intLo u 32) (intHi u 32) (scaleVal (decVal f c) n)).1, (roundInt m (intLo u 32) (intHi u 32) (scaleVal (decVal f c) n)).2) := rfl

theorem ratOf_add_exp (s : Bool) (m : ℕ) (e k : ℤ) : ratOf s m (e + k) = ratOf s m e * 2 ^ k := by
  simp only [ratOf]
  rw [two_zpow_add, ← mul_assoc]

/-! ### Conversions to floats and PS8 -/

theorem roundVal_nan {t : Fmt} (ht : t ∈ .ps8 :: floatFormats) (m : Rm) (sat : Bool) : roundVal t m sat .nan = nanInto t := by
  simp only [floatFormats, List.mem_cons, List.not_mem_nil, or_false] at ht
  rcases ht with rfl | rfl | rfl | rfl | rfl | rfl <;> rfl

theorem roundVal_inf {t : Fmt} (ht : t ∈ .ps8 :: floatFormats) (m : Rm) (sat s : Bool) : roundVal t m sat (.inf s) = infInto t sat s := by
  simp only [floatFormats, List.mem_cons, List.not_mem_nil, or_false] at ht
  rcases ht with rfl | rfl | rfl | rfl | rfl | rfl <;> cases sat <;> cases s <;> rfl

theorem cvtfE_eq (t : Fmt) (n : ℕ) (sat u : Bool) (m : Rm) (v : BitVec 32) : ∃ k e, ratOf (decide (num u v < 0)) k e = (num u v : ℚ) / 2 ^ n ∧
    cvtfE t n sat u m v.toNat = roundVal t m sat (.fin (decide (num u v < 0)) k e) := by
  refine ⟨(num u v).natAbs, 0 + -(n : ℤ), ?_, ?_⟩
  · rw [ratOf_add_exp, ratOf_valOfInt, zpow_neg, zpow_natCast, div_eq_mul_inv]
  · rw [cvtfE, rd_eq_num]
    rfl

theorem rounds_roundVal {t : Fmt} (ht : t ∈ floatFormats) (m : Rm) (sat s : Bool) {k : ℕ} (e : ℤ) (hk : k ≠ 0) :
    Rounds t m sat s (ratOf s k e) (roundVal t m sat (.fin s k e)) := by
  rw [roundVal_fin ht, ratOf_eq]
  exact rounds_of_roundsMag ht (roundFin_spec ht m sat s e hk) (mul_pos (by exact_mod_cast Nat.pos_of_ne_zero hk) (two_zpow_pos e))

/-! ### SCALE (R144) -/

section
variable {t : Fmt}

/-- Everything from the value after the largest finite one on overflows. -/
theorem roundFin_of_large (ht : t ∈ floatFormats) (sat s : Bool) {n : ℕ} {e : ℤ} (hn : n ≠ 0) (h : magVal ℚ t (topCode t + 1) ≤ (n : ℚ) * 2 ^ e) :
    roundFin t .rne sat s n e = overflow t .rne sat s := by
  obtain ⟨code, hcode, hover, -⟩ := roundFin_spec (K := ℚ) ht .rne sat s e hn
  refine hover ((overflowsMag_iff ht hcode).mp ?_)
  have hbeyond := magVal_beyond_top (K := ℚ) ht
  have hlt := magVal_strictMono (K := ℚ) t (Nat.sub_lt (topCode_pos ht) one_pos)
  simp only [OverflowsMag, if_true]
  split_ifs <;> linarith

/-- Everything below half the least value is rounded to zero. -/
theorem roundFin_of_small (ht : t ∈ floatFormats) (sat s : Bool) {n : ℕ} {e : ℤ} (hn : n ≠ 0) (h : 2 * ((n : ℚ) * 2 ^ e) < magVal ℚ t 1)
    (htiny : (n : ℚ) * 2 ^ e < 2 ^ (-(biasOf t : ℤ))) : roundFin t .rne sat s n e = (withSign t s 0, 24) := by
  obtain ⟨code, hcode, -, hin⟩ := roundFin_spec (K := ℚ) ht .rne sat s e hn
  have hzero : code = 0 := by
    by_contra hpos
    have hone := (magVal_strictMono (K := ℚ) t).monotone (Nat.one_le_iff_ne_zero.mpr hpos)
    have hmid := ((roundedMag_midpoints hcode).2 0 (Nat.pos_of_ne_zero hpos)).1
    rw [magVal_zero] at hmid
    linarith
  subst hzero
  have hv : (0 : ℚ) < n * 2 ^ e := mul_pos (by exact_mod_cast Nat.pos_of_ne_zero hn) (two_zpow_pos e)
  obtain ⟨hval, -, hinexact⟩ := hin (Nat.zero_le _)
  exact Prod.ext hval ((hinexact (by rw [magVal_zero]; exact hv.ne)).1 (tinyMag_of_lt_half _ _ htiny))

end

theorem significand_value (t : Fmt) (c : ℕ) : (significand t c : ℚ) * 2 ^ unitExp t c = magVal ℚ t (magOf t c) := by
  have hfrac : magOf t c % 2 ^ fracOf t = c % 2 ^ fracOf t := Nat.mod_mod_of_dvd _ (Nat.pow_dvd_pow 2 (by cases t <;> decide))
  have hm := magOf_eq t c
  unfold significand unitExp magVal
  split_ifs with h
  · rw [h, mul_zero, zero_add] at hm
    rw [← hm]
  · rw [hfrac]

/-- The magnitudes of finite values of the formats that compute lie between these. -/
theorem magnitude_bounds (f : FFmt) : (2 : ℚ) ^ (-149 : ℤ) ≤ magVal ℚ (FFmt.fmt f) 1 ∧ magVal ℚ (FFmt.fmt f) (topCode (FFmt.fmt f) + 1) ≤ 2 ^ (128 : ℤ) ∧
    (2 : ℚ) ^ (-127 : ℤ) ≤ 2 ^ (-(biasOf (FFmt.fmt f) : ℤ)) := by
  cases f <;> norm_num [FFmt.fmt, magVal, fracOf, biasOf, topCode]

/-- Beyond ±2048 the result of SCALE no longer depends on the scale. -/
theorem roundFin_clamped (f : FFmt) (s : Bool) {c : ℕ} (hc : finite f c = true) (hm : magnitude f c ≠ 0) (k : ℤ) :
    roundFin (FFmt.fmt f) .rne true s (significand (FFmt.fmt f) c) (unitExp (FFmt.fmt f) c + (if k < -2048 then -2048 else if 2048 < k then 2048 else k)) =
      roundFin (FFmt.fmt f) .rne true s (significand (FFmt.fmt f) c) (unitExp (FFmt.fmt f) c + k) := by
  have hn := mt (significand_eq_zero_iff f c).mp hm
  obtain ⟨hone, htop, hbias⟩ := magnitude_bounds f
  have hmono := (magVal_strictMono (K := ℚ) (FFmt.fmt f)).monotone
  have hfin : magOf (FFmt.fmt f) c ≤ topCode (FFmt.fmt f) := of_decide_eq_true (by rw [← finiteIn_fmt] at hc; exact hc)
  have hlow : (2 : ℚ) ^ (-149 : ℤ) ≤ (significand (FFmt.fmt f) c : ℚ) * 2 ^ unitExp (FFmt.fmt f) c := by
    rw [significand_value, magOf_fmt]
    exact hone.trans (hmono (Nat.one_le_iff_ne_zero.mpr hm))
  have hhigh : (significand (FFmt.fmt f) c : ℚ) * 2 ^ unitExp (FFmt.fmt f) c ≤ 2 ^ (128 : ℤ) := by
    rw [significand_value]
    exact (hmono (hfin.trans (Nat.le_succ _))).trans htop
  have hlarge {j : ℤ} (hj : 2048 ≤ j) : magVal ℚ (FFmt.fmt f) (topCode (FFmt.fmt f) + 1) ≤ (significand (FFmt.fmt f) c : ℚ) * 2 ^ (unitExp (FFmt.fmt f) c + j) :=
    calc magVal ℚ (FFmt.fmt f) (topCode (FFmt.fmt f) + 1) ≤ 2 ^ (128 : ℤ) := htop
      _ ≤ 2 ^ (-149 : ℤ) * 2 ^ j := by rw [← two_zpow_add]; exact two_zpow_le (by omega)
      _ ≤ (significand (FFmt.fmt f) c : ℚ) * 2 ^ unitExp (FFmt.fmt f) c * 2 ^ j := mul_le_mul_of_nonneg_right hlow (two_zpow_pos j).le
      _ = _ := by rw [two_zpow_add, mul_assoc]
  have hsmall {j : ℤ} (hj : j ≤ -2048) : (significand (FFmt.fmt f) c : ℚ) * 2 ^ (unitExp (FFmt.fmt f) c + j) ≤ 2 ^ (-151 : ℤ) :=
    calc (significand (FFmt.fmt f) c : ℚ) * 2 ^ (unitExp (FFmt.fmt f) c + j)
      _ = (significand (FFmt.fmt f) c : ℚ) * 2 ^ unitExp (FFmt.fmt f) c * 2 ^ j := by rw [two_zpow_add, mul_assoc]
      _ ≤ 2 ^ (128 : ℤ) * 2 ^ j := mul_le_mul_of_nonneg_right hhigh (two_zpow_pos j).le
      _ ≤ 2 ^ (-151 : ℤ) := by rw [← two_zpow_add]; exact two_zpow_le (by omega)
  have hhalf : 2 * (2 : ℚ) ^ (-151 : ℤ) < 2 ^ (-149 : ℤ) := by norm_num
  have hzero {j : ℤ} (hj : j ≤ -2048) : roundFin (FFmt.fmt f) .rne true s (significand (FFmt.fmt f) c) (unitExp (FFmt.fmt f) c + j) =
      (withSign (FFmt.fmt f) s 0, 24) :=
    roundFin_of_small (fmt_mem f) true s hn (by linarith [hsmall hj]) ((hsmall hj).trans_lt ((two_zpow_lt (by decide)).trans_le hbias))
  split_ifs with h1 h2
  · rw [hzero le_rfl, hzero h1.le]
  · rw [roundFin_of_large (fmt_mem f) true s hn (hlarge le_rfl), roundFin_of_large (fmt_mem f) true s hn (hlarge h2.le)]
  · rfl

theorem scaleE_nearest {f : FFmt} {c : ℕ} (hc : finite f c = true) (hm : magnitude f c ≠ 0) (k : ℤ) :
    Nearest f (rat f c * (2 : ℚ) ^ k) (scaleE (FFmt.fmt f) c k).1 ∧
      NearestFlags f (rat f c * (2 : ℚ) ^ k) (scaleE (FFmt.fmt f) c k).1 (scaleE (FFmt.fmt f) c k).2 := by
  have hn := mt (significand_eq_zero_iff f c).mp hm
  have hrat := mt (rat_eq_zero_iff f c).mp hm
  have hsign : negative f c = decide (rat f c * (2 : ℚ) ^ k < 0) := by
    rw [negative_eq hrat, decide_eq_decide, ← not_le, ← not_le, mul_nonneg_iff_of_pos_right (two_zpow_pos k)]
  have hscale : scaleE (FFmt.fmt f) c k = rne (FFmt.fmt f) (.fin (decide (rat f c * (2 : ℚ) ^ k < 0)) (significand (FFmt.fmt f) c) (unitExp (FFmt.fmt f) c + k)) := by
    rw [scaleE, decVal_of_finite hc, ← hsign]
    simp only [if_neg hn, rne_fin, roundFin_clamped f _ hc hm]
  rw [hscale]
  exact rne_nearest hn (by rw [abs_mul, abs_of_pos (two_zpow_pos (K := ℚ) k), abs_rat, two_zpow_add, mul_assoc])

theorem scaleE_zero_or_inf {f : FFmt} {c : ℕ} (hc : c < 2 ^ floatWidth f) (h : magnitude f c = 0 ∨ isInf f c = true) (k : ℤ) :
    scaleE (FFmt.fmt f) c k = (c, 0) := by
  rcases h with h | h
  · rw [scaleE, decVal_of_zero h]
    rfl
  · rw [scaleE, decVal_of_isInf h]
    dsimp only
    rw [infCode_fmt, code_of_isInf hc h]

theorem scaleE_nan {f : FFmt} {c : ℕ} (h : isNan f c = true) (k : ℤ) : scaleE (FFmt.fmt f) c k = (canonicalNan f, 0) := by
  rw [scaleE, decVal_of_isNan h, nanCode_fmt]

/-- Settles O15: each clause is a lemma on the reading of a code, on the rounding of a value, or on the conversion that uses them. -/
theorem conversionValues : Obligations.ConversionValues := by
  refine ⟨fun t ht c _ => ⟨fun h => ⟨_, _, decVal_finite ht h, ratOf_significand t c⟩, decVal_inf ht, decVal_nan ht⟩,
    fun c hc => ⟨_, _, _, decVal_ps8 hc, ?_⟩, fun f hf v => ⟨_, _, decVal_int hf v, ratOf_valOfInt _⟩,
    fun t ht m sat s k e => ⟨rounds_roundVal ht m sat s e, ?_⟩, fun m sat s k e => ⟨roundPs8_within m s k e, roundPs8_beyond m s k e⟩,
    fun t ht m sat s => ⟨roundVal_nan ht m sat, roundVal_inf ht m sat s, fun f _ c => cvtE_of_not_int (fun h => not_int ht h.2) sat m c,
      fun n u v => cvtfE_eq t n sat u m v⟩,
    fun f n u m c s k e hf => ⟨?_, ?_, ?_, fun t ht sat => ?_⟩, fun f hf t ht sat m v => cvtE_int hf ht sat m v,
    fun f c k hc => ⟨fun hfin hm => scaleE_nearest hfin hm k, fun h => scaleE_zero_or_inf hc h k, fun h => scaleE_nan h k⟩⟩
  · rw [ratOf_scaled, ps8_eq]
    norm_num [div_eq_mul_inv]
  · rw [roundVal_fin ht, roundFin_zero]
  · intro h
    rw [cvtiE_eq, h, scaleVal, roundInt_fin, ratOf_add_exp, zpow_natCast]
  · intro h
    rw [cvtiE_eq, h]
    exact roundInt_nan m u 32
  · intro h
    rw [cvtiE_eq, h]
    exact roundInt_inf m u 32 s
  · rw [cvtE_of_not_int (fun h => not_int hf h.1), roundVal_int ht]
    refine ⟨fun h => ?_, fun h => ?_, fun h => ?_⟩ <;> rw [h]
    · exact roundInt_fin m false _ s k e
    · exact roundInt_nan m false _
    · exact roundInt_inf m false _ s

end Sys2Proof.Proofs
end

