-- ==== Sys2Proof/Proofs/Reductions.lean ====
section
/-! SUPPORT. RED and SCAN (R149 to R151): the tree and the running results of the model over a list of lanes against those of the statements over lane numbers. -/

namespace Sys2Proof.Proofs

open Sys2Proof Sys2Proof.Machine Sys2Proof.Claims Sys2Proof.Laws

/-! ### The pairwise tree (R150) -/

/-- What a node makes of the values and the flags of its two sides. -/
def joinNodes (o : RedOp) (a b : ℕ × ℕ) : ℕ × ℕ := ((redOp o a.1 b.1).1, a.2 ||| b.2 ||| (redOp o a.1 b.1).2)

theorem tree_succ (o : RedOp) (l : Payload) (k i : ℕ) : tree o l (k + 1) i = joinNodes o (tree o l k i) (tree o l k (i + 2 ^ k)) := rfl

theorem redPairs_append (o : RedOp) (ys : List ℕ) : ∀ (n : ℕ) (xs : List ℕ), xs.length = 2 * n →
    redPairs o (xs ++ ys) = ((redPairs o xs).1 ++ (redPairs o ys).1, (redPairs o xs).2 ||| (redPairs o ys).2) ∧ (redPairs o xs).1.length = n
  | 0, xs, h => by
    obtain rfl := List.eq_nil_of_length_eq_zero h
    simp [redPairs]
  | n + 1, xs, h => by
    obtain ⟨x, y, xs, rfl⟩ : ∃ x y zs, xs = x :: y :: zs := by
      match xs, h with
      | x :: y :: zs, _ => exact ⟨x, y, zs, rfl⟩
    obtain ⟨hpairs, hlen⟩ := redPairs_append o ys n xs (by simpa [Nat.mul_add] using h)
    simp [redPairs, hpairs, hlen, Nat.or_assoc]

/-- The tree over two halves joins the trees of the halves. -/
theorem redTree_append (o : RedOp) (k : ℕ) (xs ys : List ℕ) (hx : xs.length = 2 ^ k) (hy : ys.length = 2 ^ k) :
    redTree o (k + 1) (xs ++ ys) = joinNodes o (redTree o k xs) (redTree o k ys) := by
  induction k generalizing xs ys with
  | zero =>
    obtain ⟨x, rfl⟩ := List.length_eq_one_iff.mp hx
    obtain ⟨y, rfl⟩ := List.length_eq_one_iff.mp hy
    simp [redTree, redPairs, joinNodes]
  | succ k ih =>
    rw [Nat.pow_succ, Nat.mul_comm] at hx hy
    obtain ⟨hpairs, hlenx⟩ := redPairs_append o ys _ xs hx
    obtain ⟨-, hleny⟩ := redPairs_append o [] _ ys hy
    have hstep (zs : List ℕ) : redTree o (k + 1) zs = ((redTree o k (redPairs o zs).1).1, (redPairs o zs).2 ||| (redTree o k (redPairs o zs).1).2) := rfl
    have htop : redTree o (k + 1 + 1) (xs ++ ys) =
      ((redTree o (k + 1) (redPairs o (xs ++ ys)).1).1, (redPairs o (xs ++ ys)).2 ||| (redTree o (k + 1) (redPairs o (xs ++ ys)).1).2) := rfl
    rw [htop, hpairs, hstep xs, hstep ys]
    dsimp only
    rw [ih _ _ hlenx hleny]
    refine Prod.ext rfl ?_
    simp only [joinNodes]
    ac_rfl

/-- The model's tree over the lanes from lane `i` on. -/
theorem redTree_lanes (o : RedOp) (l : Payload) (k i : ℕ) : redTree o k ((List.range (2 ^ k)).map fun j => elAt 32 l (i + j)) = tree o l k i := by
  induction k generalizing i with
  | zero => simp [redTree, tree, ← toNat_el]
  | succ k ih =>
    have hsplit : (List.range (2 ^ (k + 1))).map (fun j => elAt 32 l (i + j)) =
        ((List.range (2 ^ k)).map fun j => elAt 32 l (i + j)) ++ (List.range (2 ^ k)).map fun j => elAt 32 l (i + 2 ^ k + j) := by
      rw [Nat.pow_succ, Nat.mul_two, List.range_add, List.map_append, List.map_map]
      simp only [Function.comp_def, Nat.add_assoc]
    rw [hsplit, redTree_append o k _ _ (by simp) (by simp), ih, ih, tree_succ]

theorem flatMap_replicate_range {α : Type} (n w : ℕ) (f : ℕ → α) :
    ((List.range n).flatMap fun g => List.replicate w (f g)) = (List.range (n * w)).map fun i => f (i / w) := by
  induction n with
  | zero => simp
  | succ n ih =>
    have hlast : (List.range w).map (fun j => f ((n * w + j) / w)) = List.replicate w (f n) := by
      refine List.eq_replicate_iff.mpr ⟨by simp, fun b hb => ?_⟩
      obtain ⟨j, hj, rfl⟩ := List.mem_map.mp hb
      rw [Nat.mul_comm, Nat.mul_add_div (Nat.zero_lt_of_lt (List.mem_range.mp hj)), Nat.div_eq_of_lt (List.mem_range.mp hj), Nat.add_zero]
    rw [List.range_succ, List.flatMap_append, ih, Nat.succ_mul, List.range_add, List.map_append, List.map_map]
    simp [Function.comp_def, hlast]

/-- RED over groups of 2^k lanes, in lane numbers. -/
theorem redAll_lanes (o : RedOp) (l : Payload) {k : ℕ} (hk : k ≤ 4) :
    (redAll o k (elsOf 32 16 l)).1 = (List.range 16).map (fun i => (tree o l k (i / 2 ^ k * 2 ^ k)).1) ∧
    ∀ b, (redAll o k (elsOf 32 16 l)).2.testBit b = true ↔ ∃ i, i < 16 ∧ (tree o l k (i / 2 ^ k * 2 ^ k)).2.testBit b = true := by
  have hpow : 16 / 2 ^ k * 2 ^ k = 16 := Nat.div_mul_cancel (Nat.pow_dvd_pow 2 hk)
  have hpos := Nat.two_pow_pos k
  have hgroup {g : ℕ} (hg : g < 16 / 2 ^ k) : redTree o k (((elsOf 32 16 l).drop (g * 2 ^ k)).take (2 ^ k)) = tree o l k (g * 2 ^ k) := by
    have hle : (g + 1) * 2 ^ k ≤ 16 := hpow ▸ Nat.mul_le_mul_right _ hg
    rw [← redTree_lanes]
    congr 1
    refine List.ext_getElem? fun j => ?_
    rw [Nat.succ_mul] at hle
    by_cases hj : j < 2 ^ k
    · have h1 : g * 2 ^ k + j < 16 := by omega
      simp [elsOf, hj, h1]
    · simp [hj]
  have hmap : ((List.range (16 / 2 ^ k)).map fun g => redTree o k (((elsOf 32 16 l).drop (g * 2 ^ k)).take (2 ^ k))) =
      (List.range (16 / 2 ^ k)).map fun g => tree o l k (g * 2 ^ k) := List.map_congr_left fun g hg => hgroup (List.mem_range.mp hg)
  unfold redAll
  dsimp only
  rw [hmap]
  constructor
  · rw [List.flatMap_map, flatMap_replicate_range, hpow]
  · intro b
    rw [testBit_foldl_or]
    constructor
    · rintro (h | ⟨r, hr, hbit⟩)
      · simp at h
      · obtain ⟨g, hg, rfl⟩ := List.mem_map.mp hr
        refine ⟨g * 2 ^ k, ?_, by rwa [Nat.mul_div_cancel g hpos]⟩
        calc g * 2 ^ k < 16 / 2 ^ k * 2 ^ k := Nat.mul_lt_mul_of_pos_right (List.mem_range.mp hg) hpos
          _ = 16 := hpow
    · rintro ⟨i, hi, hbit⟩
      refine .inr ⟨_, List.mem_map.mpr ⟨i / 2 ^ k, List.mem_range.mpr ?_, rfl⟩, hbit⟩
      rwa [Nat.div_lt_iff_lt_mul hpos, hpow]

/-! ### The running results (R151) -/

theorem prefixOf_succ (o : RedOp) (l : Payload) (i : ℕ) : prefixOf o l (i + 1) =
    ((redOp o (prefixOf o l i).1 (elAt 32 l i)).1, (prefixOf o l i).2 ||| if i = 0 then 0 else (redOp o (prefixOf o l i).1 (elAt 32 l i)).2) := by
  rw [← toNat_el]
  cases i with
  | zero => simp [prefixOf]
  | succ i => simp [prefixOf]

/-- The model's scan over the lanes from lane `i` on. -/
theorem scanGo_lanes (o : RedOp) (e : Bool) (l : Payload) (n i : ℕ) :
    let r := scanGo o e (decide (i = 0)) (prefixOf o l i).1 ((List.range n).map fun j => elAt 32 l (i + j))
    r.1 = (List.range n).map (fun j => (prefixOf o l (if e then i + j else i + j + 1)).1) ∧ (prefixOf o l i).2 ||| r.2 = (prefixOf o l (i + n)).2 := by
  induction n generalizing i with
  | zero => simp [scanGo]
  | succ n ih =>
    have hlanes : (List.range (n + 1)).map (fun j => elAt 32 l (i + j)) =
        elAt 32 l i :: (List.range n).map fun j => elAt 32 l (i + 1 + j) := by
      rw [List.range_succ_eq_map]
      simp [Function.comp_def, Nat.add_assoc, Nat.add_comm 1]
    obtain ⟨hval, hfl⟩ := ih (i + 1)
    have hnext : prefixOf o l (i + 1) = ((redOp o (prefixOf o l i).1 (elAt 32 l i)).1,
        (prefixOf o l i).2 ||| if decide (i = 0) then 0 else (redOp o (prefixOf o l i).1 (elAt 32 l i)).2) := by
      simp only [prefixOf_succ, decide_eq_true_eq]
    rw [show decide (i + 1 = 0) = false from rfl, hnext] at hval hfl
    dsimp only at hval hfl ⊢
    have hstep (first : Bool) (acc y : ℕ) (zs : List ℕ) : scanGo o e first acc (y :: zs) =
      ((if e then acc else (redOp o acc y).1) :: (scanGo o e false (redOp o acc y).1 zs).1,
        (if first then 0 else (redOp o acc y).2) ||| (scanGo o e false (redOp o acc y).1 zs).2) := rfl
    rw [hlanes, hstep]
    constructor
    · rw [hval, List.range_succ_eq_map, List.map_cons, List.map_map, Nat.add_zero]
      cases e <;> simp [Function.comp_def, Nat.add_assoc, Nat.add_comm 1, hnext]
    · rw [← Nat.or_assoc, hfl, Nat.add_assoc, Nat.add_comm 1]

theorem scanAll_lanes (o : RedOp) (e : Bool) (l : Payload) :
    (scanAll o e (elsOf 32 16 l)).1 = (List.range 16).map (fun i => (prefixOf o l (if e then i else i + 1)).1) ∧
    (scanAll o e (elsOf 32 16 l)).2 = (prefixOf o l 16).2 := by
  have h := scanGo_lanes o e l 16 0
  simp only [Nat.zero_add, decide_true] at h
  obtain ⟨hval, hfl⟩ := h
  refine ⟨hval, ?_⟩
  rw [← hfl, prefixOf, Nat.zero_or]
  rfl

/-! ### The instructions -/

theorem holds_lanes (f : ℕ → ℕ) : Holds 16 32 (ofEls 32 ((List.range 16).map f)) fun i => BitVec.ofNat 32 (f i) := by
  constructor
  · intro j hj
    rw [el, extract_ofEls _ _ _ (by simp), getD_map_range f 16 j 0 hj]
  · intro k hk
    exact ofEls_high _ _ _ (by simpa using hk)

/-- What an instruction that computes one payload does once it goes. -/
theorem computes_of_go {s : State} {i : Instr} {x : Elem} {r : Args} {lat : ℕ} {f : Args → Payload × ℕ} (hexec : exec i s = compute i lat f s)
    (h : gate s i = .go x r) : Computes i s x r lat (f r).1 (f r).2 := hexec.trans (compute_go lat f h)

section
variable {s : State} {x : Elem} {r : Args} {p : Pm} {o : RedOp} {a : Tgt}

theorem exec_red (p : Pm) (o : RedOp) (g : BitVec 2) (a : Tgt) (s : State) : exec (.red p o g a) s = compute (.red p o g a) 6
    (fun r => (ofEls 32 (redAll o (4 - g.toNat) (elsOf 32 16 r.l.data)).1, (redAll o (4 - g.toNat) (elsOf 32 16 r.l.data)).2)) s := rfl

theorem exec_scan (p : Pm) (o : RedOp) (e : Bool) (a : Tgt) (s : State) : exec (.scan p o e a) s = compute (.scan p o e a) 6
    (fun r => (ofEls 32 (scanAll o e (elsOf 32 16 r.l.data)).1, (scanAll o e (elsOf 32 16 r.l.data)).2)) s := rfl

theorem red_computes {g : BitVec 2} (h : gate s (.red p o g a) = .go x r) : ∃ q fl, Computes (.red p o g a) s x r 6 q fl ∧
    Holds 16 32 q (fun i => BitVec.ofNat 32 (tree o r.l.data (4 - g.toNat) (i / 2 ^ (4 - g.toNat) * 2 ^ (4 - g.toNat))).1) ∧
    ∀ k, fl.testBit k = true ↔
      ∃ i, i < 16 ∧ (tree o r.l.data (4 - g.toNat) (i / 2 ^ (4 - g.toNat) * 2 ^ (4 - g.toNat))).2.testBit k = true := by
  obtain ⟨hval, hfl⟩ := redAll_lanes o r.l.data (Nat.sub_le 4 g.toNat)
  refine ⟨_, _, computes_of_go (exec_red p o g a s) h, ?_, hfl⟩
  rw [hval]
  exact holds_lanes _

theorem scan_computes {e : Bool} (h : gate s (.scan p o e a) = .go x r) : ∃ q, Computes (.scan p o e a) s x r 6 q (prefixOf o r.l.data 16).2 ∧
    Holds 16 32 q fun i => BitVec.ofNat 32 (prefixOf o r.l.data (if e then i else i + 1)).1 := by
  obtain ⟨hval, hfl⟩ := scanAll_lanes o e r.l.data
  have hrun := computes_of_go (exec_scan p o e a s) h
  dsimp only at hrun
  rw [hval, hfl] at hrun
  exact ⟨_, hrun, holds_lanes _⟩

end

end Sys2Proof.Proofs
end

