-- ==== Sys2Proof/Proofs/TopK.lean ====
section
/-! SUPPORT. TOPK (R152): the order of the candidates, and where the model's insertion puts each lane. -/

namespace Sys2Proof.Proofs

open Sys2Proof Sys2Proof.Machine Sys2Proof.Claims Sys2Proof.Laws

/-! ### Sorted lists -/

/-- In a list that a strict order sorts, as many elements come before an entry as its place says. -/
theorem countP_before {α : Type} {before : α → α → Bool} (hasymm : ∀ p q, before p q = true → before q p = false) {xs : List α}
    (h : xs.Pairwise fun p q => before p q = true) {n : ℕ} (hn : n < xs.length) : xs.countP (fun p => before p xs[n]) = n := by
  induction xs generalizing n with
  | nil => simp at hn
  | cons x xs ih =>
    obtain ⟨hx, hxs⟩ := List.pairwise_cons.mp h
    cases n with
    | zero =>
      have hself : before x x = false := by
        by_contra hne
        have htrue := Bool.eq_true_of_not_eq_false hne
        rw [hasymm x x htrue] at htrue
        exact Bool.false_ne_true htrue
      rw [List.getElem_cons_zero, List.countP_cons, hself, if_neg Bool.false_ne_true, Nat.add_zero, List.countP_eq_zero]
      exact fun p hp => by simp [hasymm x p (hx p hp)]
    | succ n =>
      have hn' : n < xs.length := by simpa using hn
      rw [List.getElem_cons_succ, List.countP_cons, ih hxs hn', if_pos (hx _ (List.getElem_mem hn'))]

theorem topkInsert_perm (f : Fmt) (p : ℕ × ℕ) (xs : List (ℕ × ℕ)) : (topkInsert f p xs).Perm (p :: xs) := by
  induction xs with
  | nil => exact List.Perm.refl _
  | cons q xs ih =>
    rw [topkInsert]
    split
    · exact List.Perm.refl _
    · exact (ih.cons q).trans (List.Perm.swap p q xs)

theorem topkInsert_all_perm (f : Fmt) (ps : List (ℕ × ℕ)) : (ps.foldr (topkInsert f) []).Perm ps := by
  induction ps with
  | nil => exact List.Perm.refl _
  | cons p ps ih => exact (topkInsert_perm f p _).trans (ih.cons p)

/-! ### The order of the candidates -/

/-- The key by which a candidate is ordered: NaNs last, the greater magnitudes first, the lower lanes first. -/
def topkPlace (f : Fmt) (p : ℕ × ℕ) : Bool ×ₗ ℤ ×ₗ ℕ :=
  toLex ((topkKey f p.2).1, toLex (if (topkKey f p.2).1 then 0 else -((topkKey f p.2).2 : ℤ), p.1))

theorem topkBefore_iff_lt (f : Fmt) (p q : ℕ × ℕ) : topkBefore f p q = true ↔ topkPlace f p < topkPlace f q := by
  unfold topkBefore topkPlace
  rcases topkKey f p.2 with ⟨_ | _, m⟩ <;> rcases topkKey f q.2 with ⟨_ | _, m'⟩ <;> simp [Prod.Lex.toLex_lt_toLex]
  by_cases h : m = m' <;> simp [h]

theorem topkBefore_asymm (f : Fmt) (p q : ℕ × ℕ) (h : topkBefore f p q = true) : topkBefore f q p = false := by
  rw [topkBefore_iff_lt] at h
  rw [← Bool.not_eq_true, topkBefore_iff_lt]
  exact h.not_gt

theorem topkBefore_trans (f : Fmt) {p q r : ℕ × ℕ} (h : topkBefore f p q = true) (h' : topkBefore f q r = true) : topkBefore f p r = true := by
  rw [topkBefore_iff_lt] at h h' ⊢
  exact h.trans h'

theorem topkBefore_of_not (f : Fmt) {p q : ℕ × ℕ} (h : p.1 ≠ q.1) (hnot : ¬ topkBefore f p q = true) : topkBefore f q p = true := by
  rw [topkBefore_iff_lt] at hnot ⊢
  refine lt_of_le_of_ne (not_lt.mp hnot) fun heq => h ?_
  simp only [topkPlace, toLex_inj, Prod.mk.injEq] at heq
  exact heq.2.2.symm

theorem topkInsert_sorted (f : Fmt) (p : ℕ × ℕ) (xs : List (ℕ × ℕ)) (hp : ∀ q ∈ xs, p.1 ≠ q.1) (h : xs.Pairwise fun p q => topkBefore f p q = true) :
    (topkInsert f p xs).Pairwise fun p q => topkBefore f p q = true := by
  induction xs with
  | nil => exact List.pairwise_singleton _ _
  | cons q xs ih =>
    obtain ⟨hq, hxs⟩ := List.pairwise_cons.mp h
    obtain ⟨hpq, hpxs⟩ := List.forall_mem_cons.mp hp
    rw [topkInsert]
    split
    case isTrue hbefore =>
      exact List.pairwise_cons.mpr ⟨List.forall_mem_cons.mpr ⟨hbefore, fun r hr => topkBefore_trans f hbefore (hq r hr)⟩, h⟩
    case isFalse hnot =>
      refine List.pairwise_cons.mpr ⟨fun r hr => ?_, ih hpxs hxs⟩
      rcases List.mem_cons.mp ((topkInsert_perm f p xs).mem_iff.mp hr) with rfl | hr
      · exact topkBefore_of_not f hpq hnot
      · exact hq r hr

theorem topkInsert_all_sorted (f : Fmt) {ps : List (ℕ × ℕ)} (h : ps.Pairwise fun p q => p.1 ≠ q.1) :
    (ps.foldr (topkInsert f) []).Pairwise fun p q => topkBefore f p q = true := by
  induction ps with
  | nil => exact List.Pairwise.nil
  | cons p ps ih =>
    obtain ⟨hp, hps⟩ := List.pairwise_cons.mp h
    exact topkInsert_sorted f p _ (fun q hq => hp q ((topkInsert_all_perm f ps).mem_iff.mp hq)) (ih hps)

/-! ### The lanes of a payload in order (R152) -/

/-- The formats of TOPK. -/
def topkFormat (int : Bool) : Fmt := if int then .int32 else .fp32

theorem topkKey_el (int : Bool) (v : BitVec 32) : topkKey (topkFormat int) v.toNat = (topNan int v, topMag int v) := by
  cases int
  case false =>
    have hnan : (decVal .fp32 v.toNat).isNan = isNan .f32 v.toNat := by
      rcases code_kind .f32 v.toNat with h | h | h
      · rw [h]
        exact congrArg Val.isNan (decVal_of_isNan (f := .f32) h)
      · have hnot : isNan .f32 v.toNat = false := by
          rw [isNan, beq_iff_eq.mp h]
          simp
        rw [hnot]
        exact congrArg Val.isNan (decVal_of_isInf (f := .f32) h)
      · have hnot : isNan .f32 v.toNat = false := decide_eq_false (of_decide_eq_true h).le.not_gt
        rw [hnot]
        exact congrArg Val.isNan (decVal_of_finite (f := .f32) h)
    simp [topkKey, topkFormat, topNan, topMag, hnan, magnitude, floatWidth]
  case true => simp [topkKey, topkFormat, topNan, topMag, sgn_toNat]

theorem topkBefore_lanes (int : Bool) (l : Payload) (i j : ℕ) :
    topkBefore (topkFormat int) (i, elAt 32 l i) (j, elAt 32 l j) = topBefore int l i j := by
  rw [← toNat_el, ← toNat_el]
  unfold topkBefore topBefore
  rw [topkKey_el, topkKey_el]
  dsimp only
  cases topNan int (el 32 l i) <;> cases topNan int (el 32 l j) <;> simp
  by_cases h : topMag int (el 32 l i) = topMag int (el 32 l j) <;> simp [h]

/-- The lanes in the order of TOPK, as the model sorts them. -/
def topkLanes (int : Bool) (l : Payload) : List (ℕ × ℕ) := topkOrder (topkFormat int) (elsOf 32 16 l)

theorem topkLanes_eq (int : Bool) (l : Payload) :
    topkLanes int l = ((List.range 16).map fun j => (j, elAt 32 l j)).foldr (topkInsert (topkFormat int)) [] := by
  rw [topkLanes, topkOrder, elsOf, indexed_map_range]

theorem topkLanes_perm (int : Bool) (l : Payload) : (topkLanes int l).Perm ((List.range 16).map fun j => (j, elAt 32 l j)) := by
  rw [topkLanes_eq]
  exact topkInsert_all_perm _ _

theorem topkLanes_length (int : Bool) (l : Payload) : (topkLanes int l).length = 16 := by
  rw [(topkLanes_perm int l).length_eq, List.length_map, List.length_range]

theorem topkLanes_sorted (int : Bool) (l : Payload) : (topkLanes int l).Pairwise fun p q => topkBefore (topkFormat int) p q = true := by
  rw [topkLanes_eq]
  refine topkInsert_all_sorted _ (List.pairwise_map.mpr ?_)
  exact List.nodup_range

theorem mem_topkLanes {int : Bool} {l : Payload} {q : ℕ × ℕ} : q ∈ topkLanes int l ↔ q.1 < 16 ∧ q.2 = elAt 32 l q.1 := by
  rw [(topkLanes_perm int l).mem_iff, List.mem_map]
  constructor
  · rintro ⟨i, hi, rfl⟩
    exact ⟨List.mem_range.mp hi, rfl⟩
  · rintro ⟨hlt, hval⟩
    exact ⟨q.1, List.mem_range.mpr hlt, Prod.ext rfl hval.symm⟩

/-- The place of a lane in the model's order is its rank. -/
theorem topRank_of_getElem {int : Bool} {l : Payload} {n j v : ℕ} (hn : n < (topkLanes int l).length) (h : (topkLanes int l)[n] = (j, v)) :
    j < 16 ∧ v = elAt 32 l j ∧ topRank int l j = n := by
  have hmem : (j, v) ∈ topkLanes int l := List.mem_iff_getElem.mpr ⟨n, hn, h⟩
  obtain ⟨hj, hv⟩ := mem_topkLanes.mp hmem
  refine ⟨hj, hv, ?_⟩
  dsimp only at hv
  subst hv
  have hcount := countP_before (topkBefore_asymm (topkFormat int)) (topkLanes_sorted int l) hn
  rw [h, (topkLanes_perm int l).countP_eq, List.countP_map] at hcount
  rw [topRank, ← List.countP_eq_length_filter]
  refine Eq.trans (List.countP_congr fun i _ => ?_) hcount
  exact iff_of_eq (congrArg (· = true) (topkBefore_lanes int l i j).symm)

/-- Every lane stands in the model's order at its rank. -/
theorem topkLanes_rank (int : Bool) (l : Payload) {j : ℕ} (hj : j < 16) : (topkLanes int l)[topRank int l j]? = some (j, elAt 32 l j) := by
  have hmem : (j, elAt 32 l j) ∈ topkLanes int l := mem_topkLanes.mpr ⟨hj, rfl⟩
  obtain ⟨n, hn, h⟩ := List.mem_iff_getElem.mp hmem
  obtain ⟨-, -, hrank⟩ := topRank_of_getElem hn h
  rw [hrank, List.getElem?_eq_getElem hn, h]

/-! ### The instruction -/

theorem exec_topk (p : Pm) (int idx : Bool) (k : BitVec 4) (a : Tgt) (s : State) : exec (.topk p (topkFormat int) k idx a) s =
    compute (.topk p (topkFormat int) k idx a) 6 (fun r =>
      (ofEls 32 ((((topkLanes int r.l.data).take (k.toNat + 1)).map fun q =>
          if idx then q.1 else if (topkKey (topkFormat int) q.2).1 then 0x7FC00000 else q.2) ++
          List.replicate (16 - (k.toNat + 1)) (if idx then 0xFFFFFFFF else 0)),
        if ((topkLanes int r.l.data).take (k.toNat + 1)).any (fun q => (topkKey (topkFormat int) q.2).1) then fTK else 0)) s := rfl

theorem topkLanes_any_nan (int : Bool) (l : Payload) (n : ℕ) :
    ((topkLanes int l).take (n + 1)).any (fun q => (topkKey (topkFormat int) q.2).1) =
      (List.range 16).any fun j => decide (topRank int l j ≤ n) && topNan int (el 32 l j) := by
  have hkey (j : ℕ) : (topkKey (topkFormat int) (elAt 32 l j)).1 = topNan int (el 32 l j) := by rw [← toNat_el, topkKey_el]
  rw [Bool.eq_iff_iff, List.any_eq_true, List.any_eq_true]
  constructor
  · rintro ⟨q, hq, hnan⟩
    obtain ⟨i, hi, hget⟩ := List.mem_take_iff_getElem.mp hq
    obtain ⟨hj, hv, hrank⟩ := topRank_of_getElem (j := q.1) (v := q.2) (by omega) hget
    rw [hv, hkey] at hnan
    exact ⟨q.1, List.mem_range.mpr hj, by rw [hnan, hrank, Bool.and_true, decide_eq_true_iff]; omega⟩
  · rintro ⟨j, hj, hcond⟩
    rw [Bool.and_eq_true, decide_eq_true_iff] at hcond
    obtain ⟨hn, hget⟩ := List.getElem?_eq_some_iff.mp (topkLanes_rank int l (List.mem_range.mp hj))
    refine ⟨(j, elAt 32 l j), List.mem_take_iff_getElem.mpr ⟨_, ?_, hget⟩, by rw [hkey, hcond.2]⟩
    omega

theorem topk_computes {s : State} {x : Elem} {r : Args} {p : Pm} {int idx : Bool} {k : BitVec 4} {a : Tgt}
    (h : gate s (.topk p (topkFormat int) k idx a) = .go x r) : ∃ q fl, Computes (.topk p (topkFormat int) k idx a) s x r 6 q fl ∧
      (∀ j, j < 16 → topRank int r.l.data j ≤ k.toNat → el 32 q (topRank int r.l.data j) =
        if idx then BitVec.ofNat 32 j else if topNan int (el 32 r.l.data j) then 0x7FC00000 else el 32 r.l.data j) ∧
      (∀ j, k.toNat < j → j < 16 → el 32 q j = if idx then 0xFFFFFFFF else 0) ∧
      fl = if ((List.range 16).any fun j => decide (topRank int r.l.data j ≤ k.toNat) && topNan int (el 32 r.l.data j)) then 64 else 0 := by
  have hk := k.isLt
  have hlen := topkLanes_length int r.l.data
  have hfit : 32 * ((((topkLanes int r.l.data).take (k.toNat + 1)).map fun q : ℕ × ℕ =>
      if idx then q.1 else if (topkKey (topkFormat int) q.2).1 then 0x7FC00000 else q.2) ++
      List.replicate (16 - (k.toNat + 1)) (if idx then 0xFFFFFFFF else 0)).length ≤ 512 := by
    simp only [List.length_append, List.length_map, List.length_take, List.length_replicate, hlen]
    omega
  refine ⟨_, _, computes_of_go (exec_topk p int idx k a s) h, fun j hj hrank => ?_, fun j hkj hj => ?_, ?_⟩
  · have hlt : topRank int r.l.data j < k.toNat + 1 := Nat.lt_succ_of_le hrank
    rw [el, extract_ofEls _ _ _ hfit, List.getD_eq_getElem?_getD, List.getElem?_append_left (by simp [hlen]; omega), List.getElem?_map,
      List.getElem?_take_of_lt hlt, topkLanes_rank int _ hj, ← toNat_el, Option.map_some, Option.getD_some, topkKey_el]
    rw [apply_ite (BitVec.ofNat 32), apply_ite (BitVec.ofNat 32), BitVec.ofNat_toNat, BitVec.setWidth_eq]
    rfl
  · rw [el, extract_ofEls _ _ _ hfit, List.getD_eq_getElem?_getD, List.getElem?_append_right (by simp [hlen]; omega),
      List.getElem?_replicate_of_lt (by simp [hlen]; omega), Option.getD_some]
    cases idx <;> rfl
  · dsimp only
    rw [topkLanes_any_nan]
    rfl

end Sys2Proof.Proofs
end

