-- ==== Sys2Proof/Proofs/DotProducts.lean ====
section
/-! SUPPORT. DOT (R95, R155): the exact sum of products, rounded once. -/

namespace Sys2Proof.Proofs

open Sys2Proof Sys2Proof.Machine Sys2Proof.Claims Sys2Proof.Laws

/-! ### The sum of products -/

/-- A sum of finite values meets no special case. -/
theorem dotSum_fin {vs : List Val} (h : ∀ v ∈ vs, IsFin v) : dotSum vs = (sumVal vs, 0) := by
  have hnot {v : Val} (hv : v ∈ vs) : v.isNan = false ∧ v.isInf = false ∧ ∀ s, v ≠ .inf s := by
    obtain ⟨s, m, e, rfl⟩ := h v hv
    exact ⟨rfl, rfl, fun _ => Val.noConfusion⟩
  have hnan : vs.any Val.isNan = false := List.any_eq_false.mpr fun v hv => by simp [(hnot hv).1]
  have hclash : infClash vs = false := by
    have hnone : vs.contains (.inf true) = false := by
      rw [← Bool.not_eq_true, List.contains_iff_mem]
      exact fun hmem => (hnot hmem).2.2 true rfl
    rw [infClash, hnone, Bool.false_and]
  have hinf : vs.find? Val.isInf = none := List.find?_eq_none.mpr fun v hv => by simp [(hnot hv).2.1]
  rw [dotSum, hnan, hclash, hinf]
  rfl

theorem dotSum_nan {vs : List Val} (h : .nan ∈ vs) : dotSum vs = (.nan, fNV) := by
  have hnan : vs.any Val.isNan = true := List.any_eq_true.mpr ⟨.nan, h, rfl⟩
  rw [dotSum, hnan]
  rfl

section
variable {f : FFmt} {a b : Payload} {c n : ℕ}

/-- The product of two elements. -/
def dotProduct (f : FFmt) (a b : Payload) (j : ℕ) : Val × ℕ :=
  mulVal (decVal (FFmt.fmt f) (el (floatWidth f) a j).toNat) (decVal (FFmt.fmt f) (el (floatWidth f) b j).toNat)

theorem dotE_eq (f : FFmt) (n : ℕ) (a b : Payload) (c : ℕ) : dotE (FFmt.fmt f) n a b c =
    if ((List.range n).map (dotProduct f a b)).any (fun q => q.2 != 0) then (canonicalNan .f32, 1)
    else finishF .fp32 (dotSum (decVal .fp32 c :: ((List.range n).map (dotProduct f a b)).map (·.1))) := by
  have hmap : ((List.range n).map fun j => mulVal (decVal (FFmt.fmt f) (elAt (Fmt.width (FFmt.fmt f)) a j)) (decVal (FFmt.fmt f) (elAt (Fmt.width (FFmt.fmt f)) b j))) =
      (List.range n).map (dotProduct f a b) := by
    refine List.map_congr_left fun j _ => ?_
    rw [dotProduct, toNat_el, toNat_el, width_fmt]
  rw [dotE, hmap]
  rfl

theorem dotE_invalid (h : ∃ j, j < n ∧ (dotProduct f a b j).2 ≠ 0) : dotE (FFmt.fmt f) n a b c = (canonicalNan .f32, 1) := by
  obtain ⟨j, hj, hne⟩ := h
  rw [dotE_eq, if_pos]
  exact List.any_eq_true.mpr ⟨_, List.mem_map_of_mem (List.mem_range.mpr hj), by simpa using hne⟩

theorem dotE_nan (h : (∃ j, j < n ∧ (dotProduct f a b j).1 = .nan) ∨ decVal .fp32 c = .nan) : dotE (FFmt.fmt f) n a b c = (canonicalNan .f32, 1) := by
  have hmem : Val.nan ∈ decVal .fp32 c :: ((List.range n).map (dotProduct f a b)).map (·.1) := by
    rcases h with ⟨j, hj, hnan⟩ | hnan
    · exact List.mem_cons_of_mem _ (hnan ▸ List.mem_map_of_mem (f := Prod.fst) (List.mem_map_of_mem (List.mem_range.mpr hj)))
    · exact hnan ▸ List.mem_cons_self
  rw [dotE_eq, dotSum_nan hmem]
  split
  · rfl
  · exact finishF_nan .f32 fNV

/-- The exact sum of DOT. -/
def dotValue (f : FFmt) (n : ℕ) (a b : Payload) (c : ℕ) : ℚ :=
  rat .f32 c + ((List.range n).map fun j => rat f (el (floatWidth f) a j).toNat * rat f (el (floatWidth f) b j).toNat).sum

/-- Of finite operands, DOT rounds the sum of values that are all finite. -/
theorem dotE_finite (h : ∀ j, j < n → finite f (el (floatWidth f) a j).toNat = true ∧ finite f (el (floatWidth f) b j).toNat = true)
    (hc : finite .f32 c = true) : ∃ vs : List Val, (∀ v ∈ vs, IsFin v) ∧ (vs.map valRat).sum = dotValue f n a b c ∧
      dotE (FFmt.fmt f) n a b c = rne .fp32 (sumVal vs) := by
  have hprod {j : ℕ} (hj : j < n) : ∃ p, dotProduct f a b j = (p, 0) ∧ IsFin p ∧
      valRat p = rat f (el (floatWidth f) a j).toNat * rat f (el (floatWidth f) b j).toNat := by
    obtain ⟨hfa, hfb⟩ := h j hj
    obtain ⟨p, hmul, hfin, hval, -⟩ := mulVal_fin (isFin_decVal hfa) (isFin_decVal hfb)
    exact ⟨p, hmul, hfin, by rw [hval, valRat_decVal hfa, valRat_decVal hfb]⟩
  have hvalid : ((List.range n).map (dotProduct f a b)).any (fun q => q.2 != 0) = false := by
    rw [List.any_map, List.any_eq_false]
    intro j hj
    obtain ⟨p, hp, -⟩ := hprod (List.mem_range.mp hj)
    simp [hp]
  have hfin : ∀ v ∈ decVal .fp32 c :: ((List.range n).map (dotProduct f a b)).map (·.1), IsFin v := by
    refine List.forall_mem_cons.mpr ⟨isFin_decVal (f := .f32) hc, fun v hv => ?_⟩
    rw [List.map_map] at hv
    obtain ⟨j, hj, rfl⟩ := List.mem_map.mp hv
    obtain ⟨p, hp, hfin, -⟩ := hprod (List.mem_range.mp hj)
    rwa [Function.comp_apply, hp]
  refine ⟨_, hfin, ?_, ?_⟩
  · have hcval : valRat (decVal .fp32 c) = rat .f32 c := valRat_decVal (f := .f32) hc
    rw [List.map_cons, List.sum_cons, hcval, List.map_map, List.map_map, dotValue]
    congr 2
    refine List.map_congr_left fun j hj => ?_
    obtain ⟨p, hp, -, hval⟩ := hprod (List.mem_range.mp hj)
    rw [Function.comp_apply, Function.comp_apply, hp, hval]
  · rw [dotE_eq, hvalid, if_neg Bool.false_ne_true, dotSum_fin hfin, finishF_noFlags]

theorem dotE_nearest (h : ∀ j, j < n → finite f (el (floatWidth f) a j).toNat = true ∧ finite f (el (floatWidth f) b j).toNat = true)
    (hc : finite .f32 c = true) : (dotValue f n a b c ≠ 0 → Nearest .f32 (dotValue f n a b c) (dotE (FFmt.fmt f) n a b c).1) ∧
      (dotValue f n a b c = 0 → magnitude .f32 (dotE (FFmt.fmt f) n a b c).1 = 0) := by
  obtain ⟨vs, hfin, hsum, hdot⟩ := dotE_finite h hc
  rw [hdot, ← hsum]
  refine ⟨fun hne => (rne_sumVal_nearest (f := .f32) hfin hne).1, fun hzero => ?_⟩
  have hrne := rne_sumVal_zero (f := .f32) hfin hzero
  rw [show rne .fp32 (sumVal vs) = _ from hrne]
  split <;> decide

end

/-! ### The instruction -/

theorem nearest_lt {f : FFmt} {q : ℚ} {c : ℕ} (h : Nearest f q c) : c < 2 ^ floatWidth f := by
  unfold Nearest at h
  split at h
  · rw [h]
    cases f <;> cases decide (q < 0) <;> decide
  · exact h.1

theorem exec_dot (p : Pm) (sh : Shape) (f : FFmt) (a b : Tgt) (s : State) : exec (.dot p sh f a b) s = compute (.dot p sh f a b) 8
    (fun r => (lane0 (dotE (FFmt.fmt f) (floatEls sh f) r.l.data r.r.data (elAt 32 r.t.data 0)).1,
      (dotE (FFmt.fmt f) (floatEls sh f) r.l.data r.r.data (elAt 32 r.t.data 0)).2)) s := rfl

theorem floatEls_all (f : FFmt) : floatEls (if f = .f32 then .v else .h) f = 512 / floatWidth f := by cases f <;> decide

/-- Settles O17: the tree, the running results and the order of the model over lists of lanes are those over lane numbers, and DOT rounds one exact sum. -/
theorem reductionsComputed : Obligations.ReductionsComputed := by
  refine ⟨⟨fun s x r p o g e a => ⟨red_computes, scan_computes⟩, fun s x r p int idx k a h => topk_computes h⟩, fun s x r p f a b => ?_⟩
  intro sh n va vb c sum h
  have hrun := computes_of_go (exec_dot p sh f a b s) h
  dsimp only at hrun
  rw [floatEls_all, lane0_eq, ← toNat_el] at hrun
  refine ⟨_, _, hrun, fun hfin hc => ?_, fun hspecial => ?_⟩
  · obtain ⟨hnear, hzero⟩ := dotE_nearest hfin hc
    rw [BitVec.toNat_ofNat]
    constructor
    · intro hne
      have hlt : (dotE (FFmt.fmt f) n r.l.data r.r.data c).1 < 2 ^ 32 := nearest_lt (hnear hne)
      rw [Nat.mod_eq_of_lt hlt]
      exact hnear hne
    · intro heq
      rw [magnitude, Nat.mod_mod_of_dvd _ (Nat.pow_dvd_pow 2 (by decide))]
      exact hzero heq
  · have hdot : dotE (FFmt.fmt f) (512 / floatWidth f) r.l.data r.r.data (el 32 r.t.data 0).toNat = (canonicalNan .f32, 1) := by
      rcases hspecial with ⟨j, hj, hnan | hnan | hinv | hinv⟩ | hnan
      · exact dotE_nan (.inl ⟨j, hj, congrArg Prod.fst (mul_nan (.inl hnan))⟩)
      · exact dotE_nan (.inl ⟨j, hj, congrArg Prod.fst (mul_nan (.inr hnan))⟩)
      · exact dotE_invalid ⟨j, hj, by rw [dotProduct, mul_invalid (.inl hinv)]; decide⟩
      · exact dotE_invalid ⟨j, hj, by rw [dotProduct, mul_invalid (.inr hinv)]; decide⟩
      · exact dotE_nan (.inr (decVal_of_isNan (f := .f32) hnan))
    rw [hdot]
    exact ⟨rfl, rfl⟩

end Sys2Proof.Proofs
end

