-- ==== Sys2Proof/Proofs/FunctionEnds.lean ====
section
/-! SUPPORT. Rounding a real value that lies between two ends which round to the same code (R86, R88, R89, R136): the code is nearest to the value, and what
the flags of the lower end say. -/

namespace Sys2Proof.Proofs

open Sys2Proof Sys2Proof.Machine Sys2Proof.Claims Sys2Proof.Laws

section
variable {f : FFmt} {s sat : Bool} {v lo hi : ℝ} {a b : Rounded} {code : ℕ}

theorem magVal_real (f : FFmt) (c : ℕ) (hc : c ≤ topCode (FFmt.fmt f)) : magVal ℝ (FFmt.fmt f) c = (valueOf (FFmt.fmt f) c : ℝ) := by
  have h := valueOf_withSign (s := false) (t := FFmt.fmt f) (c := c) (by have := topCode_lt (fmt_mem f); omega)
  rw [← cast_magVal]
  simpa [withSign] using h.symm

/-- Where rounding to nearest leaves the finite range, over the reals. -/
theorem overflowsMag_iff_beyond (f : FFmt) (s : Bool) (v : ℝ) : OverflowsMag ℝ (FFmt.fmt f) .rne s v ↔ (beyond f : ℝ) ≤ v := by
  have h : FFmt.fmt f ≠ .e4m3 := by cases f <;> decide
  rw [← beyond_eq]
  push_cast
  simp only [OverflowsMag, if_true, if_neg h, magVal_real f _ le_rfl, magVal_real f _ (Nat.sub_le _ 1)]

/-- The distance of the value of a code to a value of a sign is that of the magnitudes, if the signs agree, and else their sum. -/
theorem abs_rat_sub (f : FFmt) (d : ℕ) (hv : 0 < |v|) : |(rat f d : ℝ) - v| =
    if negative f d = decide (v < 0) then |(magVal ℝ (FFmt.fmt f) (magnitude f d) - |v|)| else magVal ℝ (FFmt.fmt f) (magnitude f d) + |v| := by
  have hnn := magVal_nonneg (K := ℝ) (FFmt.fmt f) (magnitude f d)
  have hrat : (rat f d : ℝ) = (if negative f d then -1 else 1) * magVal ℝ (FFmt.fmt f) (magnitude f d) := by
    rw [rat_eq_valueOf, valueOf_eq, signOf_fmt, magOf_fmt, ← cast_magVal]
    split <;> push_cast <;> rfl
  rw [hrat]
  rcases lt_or_gt_of_ne (abs_pos.mp hv) with hneg | hpos
  · rw [abs_of_neg hneg, decide_eq_true hneg]
    cases negative f d
    · simp only [Bool.false_eq_true, if_false, one_mul, sub_eq_add_neg]
      exact abs_of_nonneg (by linarith)
    · simp only [if_true]
      rw [← abs_neg]
      congr 1
      ring
  · rw [abs_of_pos hpos, decide_eq_false hpos.not_gt]
    cases negative f d
    · simp only [Bool.false_eq_true, if_false, if_true, one_mul]
    · simp only [if_true, Bool.true_eq_false, if_false]
      rw [← abs_neg, abs_of_nonneg (by linarith)]
      ring

/-- A magnitude between two that round to one code is nearest to that code. -/
theorem nearest_between (hlo : lo ≤ v) (hhi : v ≤ hi) (ha : RoundedMag (FFmt.fmt f) .rne s lo code) (hb : RoundedMag (FFmt.fmt f) .rne s hi code) (d : ℕ) :
    |magVal ℝ (FFmt.fmt f) code - v| ≤ |magVal ℝ (FFmt.fmt f) d - v| := by
  have hmono := magVal_strictMono (K := ℝ) (FFmt.fmt f)
  rcases lt_trichotomy code d with hd | rfl | hd
  · have hmid := ((roundedMag_midpoints hb).1 d hd).1
    have hlt := hmono hd
    rw [abs_le]
    have habs := le_abs_self (magVal ℝ (FFmt.fmt f) d - v)
    constructor <;> linarith
  · exact le_rfl
  · have hmid := ((roundedMag_midpoints ha).2 d hd).1
    have hlt := hmono hd
    rw [abs_le]
    have habs := neg_abs_le (magVal ℝ (FFmt.fmt f) d - v)
    constructor <;> linarith

theorem overflow_fmt (f : FFmt) (sat s : Bool) : overflow (FFmt.fmt f) .rne sat s = (signed f s (infinity f), 4 + 16) := by
  rw [overflow_eq_outcomeBeyond (fmt_mem f), outcomeBeyond_fmt]

theorem magnitude_signed (h : code ≤ infinity f) : magnitude f (signed f s code) = code := by
  rw [← withSign_fmt, ← magOf_fmt]
  refine magOf_withSign ?_
  have := topCode_lt (fmt_mem f)
  have := topCode_fmt f
  omega

theorem negative_signed (h : code ≤ infinity f) : negative f (signed f s code) = s := by
  rw [← withSign_fmt, ← signOf_fmt]
  refine signOf_withSign ?_
  have := topCode_lt (fmt_mem f)
  have := topCode_fmt f
  omega

theorem signed_lt (h : code ≤ infinity f) : signed f s code < 2 ^ floatWidth f := by
  rw [← withSign_fmt, ← width_fmt]
  refine withSign_lt ?_
  have := topCode_lt (fmt_mem f)
  have := topCode_fmt f
  omega

/-- A value that lies between two ends with one code has that code as its nearest. -/
theorem nearestReal_between (hpos : 0 < lo) (hlo : lo ≤ |v|) (hhi : |v| ≤ hi) (hs : s = decide (v < 0))
    (ha : RoundsMag (FFmt.fmt f) .rne sat s lo a) (hb : RoundsMag (FFmt.fmt f) .rne sat s hi b) (hab : a.1 = b.1) : NearestReal f v a.1 := by
  obtain ⟨ca, hca, hover, hin⟩ := ha
  obtain ⟨cb, hcb, hover', hin'⟩ := hb
  have htop := topCode_fmt f
  have hbeyond := overflowsMag_iff (fmt_mem f) hca
  have hbeyond' := overflowsMag_iff (fmt_mem f) hcb
  rw [overflowsMag_iff_beyond] at hbeyond hbeyond'
  have hsign : s = true ↔ v < 0 := by rw [hs, decide_eq_true_iff]
  by_cases hcode : topCode (FFmt.fmt f) < ca
  · have hle := hbeyond.mpr hcode
    rw [hover hcode, overflow_fmt]
    refine ⟨fun _ => ⟨?_, signed_lt le_rfl, ?_⟩, fun hlt => absurd (hle.trans hlo) hlt.not_ge⟩
    · rw [isInf, magnitude_signed le_rfl, beq_self_eq_true]
    · rw [negative_signed le_rfl, hsign]
  · obtain ⟨hval, -⟩ := hin (not_lt.mp hcode)
    rw [withSign_fmt] at hval
    have hcainf : ca < infinity f := by omega
    have hcode' : ¬ topCode (FFmt.fmt f) < cb := by
      intro h
      have heq := congrArg (magnitude f) hab
      rw [hval, hover' h, overflow_fmt, magnitude_signed hcainf.le, magnitude_signed le_rfl] at heq
      omega
    have hcb' : cb = ca := by
      have heq := congrArg (magnitude f) hab
      obtain ⟨hval', -⟩ := hin' (not_lt.mp hcode')
      rw [withSign_fmt] at hval'
      rw [hval, hval', magnitude_signed hcainf.le, magnitude_signed (by omega)] at heq
      exact heq.symm
    subst hcb'
    have hnot : ¬ (beyond f : ℝ) ≤ |v| := fun h => hcode (hbeyond'.mp (h.trans hhi))
    have hmag : magnitude f (signed f s cb) = cb := magnitude_signed hcainf.le
    have hneg : negative f (signed f s cb) = s := negative_signed hcainf.le
    have hvpos : 0 < |v| := hpos.trans_le hlo
    rw [hval]
    refine ⟨fun h => absurd h hnot, fun _ => ⟨signed_lt hcainf.le, ?_, ?_, fun d _ _ => ?_⟩⟩
    · rw [finite, hmag]
      exact decide_eq_true hcainf
    · rw [hneg, hsign]
    · rw [abs_rat_sub f _ hvpos, abs_rat_sub f d hvpos, hneg, if_pos hs, hmag]
      split
      · exact nearest_between hlo hhi hca hcb _
      · have hzero := nearest_between hlo hhi hca hcb 0
        rw [magVal_zero, zero_sub, abs_neg, abs_abs] at hzero
        exact hzero.trans (le_add_of_nonneg_left (magVal_nonneg _ _))

theorem expField_signed (h : code ≤ infinity f) : expField f (signed f s code) = 0 ↔ code < 2 ^ fracBits f := by
  rw [expField_fmt, magOf_fmt, magnitude_signed h, fracOf_fmt, Nat.div_eq_zero_iff]
  simp

theorem abs_rat_signed (h : code ≤ infinity f) : |rat f (signed f s code)| = magVal ℚ (FFmt.fmt f) code := by
  rw [rat_eq_valueOf, valueOf_eq, abs_signed _ _ (magVal_nonneg _ _), magOf_fmt, magnitude_signed h]

/-- The least normal value. -/
theorem magVal_least (K : Type) [Field K] [CharZero K] (f : FFmt) : magVal K (FFmt.fmt f) (2 ^ fracBits f) = 2 ^ ((1 : ℤ) - bias f) := by
  have h := magVal_split (K := K) (FFmt.fmt f) (E := 0) (n := 2 ^ fracOf (FFmt.fmt f)) (Nat.pow_le_pow_right (by decide) (Nat.le_succ _)) (.inl rfl)
  rw [Nat.zero_mul, Nat.zero_add, Nat.cast_pow, Nat.cast_ofNat, ← zpow_natCast, ← zpow_add₀ two_ne_zero, biasOf_fmt, fracOf_fmt] at h
  rw [h]
  congr 1
  push_cast
  ring

/-- The greatest value below the normal ones. -/
theorem magVal_pred_least (f : FFmt) : magVal ℝ (FFmt.fmt f) (2 ^ fracBits f - 1) = 2 ^ ((1 : ℤ) - bias f) - 2 * 2 ^ (-(bias f : ℤ) - fracBits f) := by
  have hp := Nat.one_le_two_pow (n := fracBits f)
  have h := magVal_split (K := ℝ) (FFmt.fmt f) (E := 0) (n := 2 ^ fracBits f - 1)
    (by rw [fracOf_fmt]; exact (Nat.sub_le _ _).trans (Nat.pow_le_pow_right (by decide) (Nat.le_succ _))) (.inl rfl)
  rw [Nat.zero_mul, Nat.zero_add, biasOf_fmt, fracOf_fmt, Nat.cast_sub hp] at h
  rw [h]
  have hone : (2 : ℝ) ^ ((1 : ℤ) - bias f) = 2 ^ (fracBits f : ℤ) * (2 * 2 ^ (-(bias f : ℤ) - fracBits f)) := by
    rw [← zpow_one_add₀ two_ne_zero, ← zpow_add₀ two_ne_zero]
    congr 1
    ring
  have hulp : (2 : ℝ) ^ (((0 : ℕ) : ℤ) + 1 - bias f - fracBits f) = 2 * 2 ^ (-(bias f : ℤ) - fracBits f) := by
    rw [← zpow_one_add₀ two_ne_zero]
    congr 1
    push_cast
    ring
  rw [hone, hulp, zpow_natCast]
  push_cast
  ring

/-- A value that rounds below the normal values is tiny; a tiny value rounds at most to the least of them. -/
theorem tiny_of_subnormal (h : RoundedMag (FFmt.fmt f) .rne s lo code) (hcode : code < 2 ^ fracBits f) : TinyMag (FFmt.fmt f) .rne s lo := by
  have hmid := ((roundedMag_midpoints h).1 _ hcode).1
  have hle := (magVal_strictMono (K := ℝ) (FFmt.fmt f)).monotone (Nat.le_sub_one_of_lt hcode)
  have hpos := two_zpow_pos (K := ℝ) (-(bias f : ℤ) - fracBits f)
  rw [magVal_least] at hmid
  rw [magVal_pred_least] at hle
  simp only [TinyMag, if_true, biasOf_fmt, fracOf_fmt]
  linarith

theorem le_least_of_tiny (h : RoundedMag (FFmt.fmt f) .rne s lo code) (ht : TinyMag (FFmt.fmt f) .rne s lo) : code ≤ 2 ^ fracBits f := by
  by_contra hgt
  have hmid := ((roundedMag_midpoints h).2 _ (not_le.mp hgt)).1
  have hlt := magVal_strictMono (K := ℝ) (FFmt.fmt f) (not_le.mp hgt)
  have hpos := two_zpow_pos (K := ℝ) (-(bias f : ℤ) - fracBits f)
  rw [magVal_least] at hmid hlt
  simp only [TinyMag, if_true, biasOf_fmt, fracOf_fmt] at ht
  linarith

/-- What the flags of a rounded value say, with NX joined to them. -/
theorem flags_with_nx (ha : RoundsMag (FFmt.fmt f) .rne sat s lo a) (hne : ∀ c, c < 2 ^ fracBits f → magVal ℝ (FFmt.fmt f) c ≠ lo) :
    (a.2 ||| 16).testBit 4 = true ∧ (a.2 ||| 16) % 4 = 0 ∧ (a.2 ||| 16) < 32 ∧ ((a.2 ||| 16).testBit 2 = true ↔ isInf f a.1 = true) ∧
    (expField f a.1 = 0 → (a.2 ||| 16).testBit 3 = true) ∧ ((a.2 ||| 16).testBit 3 = true → |rat f a.1| ≤ (2 : ℚ) ^ ((1 : ℤ) - bias f)) := by
  obtain ⟨code, hround, hover, hin⟩ := ha
  have htop := topCode_fmt f
  have hfrac : 2 ^ fracBits f < infinity f := by cases f <;> decide
  by_cases hcode : topCode (FFmt.fmt f) < code
  · rw [hover hcode, overflow_fmt, expField_signed le_rfl, isInf, magnitude_signed le_rfl, beq_self_eq_true]
    dsimp only
    refine ⟨by decide, by decide, by decide, by decide, fun h => absurd (h.trans hfrac) (lt_irrefl _), fun h => absurd h (by decide)⟩
  · obtain ⟨hval, hexact, hinexact⟩ := hin (not_lt.mp hcode)
    have hcinf : code < infinity f := by omega
    rw [withSign_fmt] at hval
    rw [hval, expField_signed hcinf.le, abs_rat_signed hcinf.le, isInf, magnitude_signed hcinf.le, beq_eq_false_iff_ne.mpr hcinf.ne]
    by_cases heq : magVal ℝ (FFmt.fmt f) code = lo
    · rw [hexact heq]
      exact ⟨by decide, by decide, by decide, by decide, fun h => absurd heq (hne code h), fun h => absurd h (by decide)⟩
    · obtain ⟨htiny, hnot⟩ := hinexact heq
      by_cases ht : TinyMag (FFmt.fmt f) .rne s lo
      · rw [htiny ht]
        refine ⟨by decide, by decide, by decide, by decide, fun _ => by decide, fun _ => ?_⟩
        rw [← magVal_least ℚ f]
        exact (magVal_strictMono _).monotone (le_least_of_tiny hround ht)
      · rw [hnot ht]
        exact ⟨by decide, by decide, by decide, by decide, fun h => absurd (tiny_of_subnormal hround h) ht, fun h => absurd h (by decide)⟩

/-! ### Values that are codes -/

theorem roundedMag_exact {t : Fmt} {m : Rm} {c : ℕ} (h : RoundedMag t m s (magVal ℝ t c) code) : code = c := by
  obtain ⟨d, hlo, hhi, hup, hdown⟩ := h
  have hmono := magVal_strictMono (K := ℝ) t
  obtain rfl : d = c := le_antisymm (hmono.le_iff_le.mp hlo) (Nat.le_of_lt_succ (hmono.lt_iff_lt.mp hhi))
  exact hdown (not_goesUp_self (hmono (Nat.lt_succ_self d)))

/-- The value of a code is rounded to the code, with no flag. -/
theorem roundsMag_exact {t : Fmt} {m : Rm} {c : ℕ} (hc : c ≤ topCode t) (h : RoundsMag t m sat s (magVal ℝ t c) a) : a = (withSign t s c, 0) := by
  obtain ⟨code, hround, -, hin⟩ := h
  obtain rfl := roundedMag_exact hround
  obtain ⟨hval, hexact, -⟩ := hin hc
  exact Prod.ext hval (hexact rfl)

end

end Sys2Proof.Proofs
end

