-- ==== Sys2Proof/Proofs/LogarithmBits.lean ====
section
/-! SUPPORT. FLOG2 (R136): the bits that repeated squaring finds enclose the logarithm to base 2. -/

namespace Sys2Proof.Proofs

open Sys2Proof Sys2Proof.Machine Sys2Proof.Claims Sys2Proof.Laws

/-! ### Repeated squaring -/

/-- The logarithm of a number in units of 2^-400. -/
noncomputable def lg (x : ℕ) : ℝ := Real.logb 2 ((x : ℝ) / 2 ^ 400)

/-- What the logarithm loses at most where a number of at least 1 is cut off to a multiple of 2^-400. -/
noncomputable def lgGap : ℝ := 1 / 2 ^ 390

theorem lgGap_pos : 0 < lgGap := by
  unfold lgGap
  positivity

/-- A number of at least 1 cut off to a multiple of 2^-400 keeps its logarithm but for the gap. -/
theorem lg_truncated {z : ℕ} {w : ℝ} (hz : 2 ^ 400 ≤ z) (hlo : (z : ℝ) / 2 ^ 400 ≤ w) (hhi : w < (z + 1) / 2 ^ 400) :
    lg z ≤ Real.logb 2 w ∧ Real.logb 2 w ≤ lg z + lgGap := by
  have hzr : (2 : ℝ) ^ 400 ≤ z := by exact_mod_cast hz
  have hzpos : (0 : ℝ) < z := lt_of_lt_of_le (by positivity) hzr
  have hz0 : (0 : ℝ) < z / 2 ^ 400 := by positivity
  have hw : 0 < w := hz0.trans_le hlo
  refine ⟨Real.logb_le_logb_of_le one_lt_two hz0 hlo, ?_⟩
  have hratio : w / (z / 2 ^ 400) - 1 ≤ 1 / 2 ^ 400 := by
    rw [sub_le_iff_le_add, div_le_iff₀ hz0]
    calc w ≤ (z + 1) / 2 ^ 400 := hhi.le
      _ ≤ (1 / 2 ^ 400 + 1) * (z / 2 ^ 400) := by
        rw [add_mul, one_mul, add_div, add_comm, div_mul_eq_mul_div, one_mul]
        gcongr
        rwa [one_le_div (by positivity)]
  have hlog2 : (1 : ℝ) / 2 ≤ Real.log 2 := by linarith [Real.log_two_gt_d9]
  have hdiff : Real.logb 2 w - lg z = Real.log (w / (z / 2 ^ 400)) / Real.log 2 := by
    rw [lg, ← Real.logb_div hw.ne' hz0.ne', Real.logb]
  have hlog := Real.log_le_sub_one_of_pos (div_pos hw hz0)
  rw [← sub_le_iff_le_add', hdiff, div_le_iff₀ (by linarith)]
  calc Real.log (w / (z / 2 ^ 400)) ≤ 1 / 2 ^ 400 := hlog.trans hratio
    _ ≤ lgGap * (1 / 2) := by
      rw [lgGap, (pow_add 2 390 10 : (2 : ℝ) ^ 400 = 2 ^ 390 * 2 ^ 10), ← one_div_mul_one_div]
      gcongr
      norm_num
    _ ≤ lgGap * Real.log 2 := mul_le_mul_of_nonneg_left hlog2 lgGap_pos.le

/-- One squaring: the next bit of the logarithm and the number that is left. -/
theorem lg_square {x : ℕ} (hlo : 2 ^ 400 ≤ x) (hhi : x < 2 ^ 401) :
    (2 ^ 401 ≤ x * x / 2 ^ 400 → 2 ^ 400 ≤ x * x / 2 ^ 400 / 2 ∧ x * x / 2 ^ 400 / 2 < 2 ^ 401 ∧
      1 + lg (x * x / 2 ^ 400 / 2) ≤ 2 * lg x ∧ 2 * lg x ≤ 1 + lg (x * x / 2 ^ 400 / 2) + lgGap) ∧
    (¬ 2 ^ 401 ≤ x * x / 2 ^ 400 → 2 ^ 400 ≤ x * x / 2 ^ 400 ∧ x * x / 2 ^ 400 < 2 ^ 401 ∧
      lg (x * x / 2 ^ 400) ≤ 2 * lg x ∧ 2 * lg x ≤ lg (x * x / 2 ^ 400) + lgGap) := by
  have hxpos : (0 : ℝ) < (x : ℝ) / 2 ^ 400 := by
    have : 0 < x := lt_of_lt_of_le (by positivity) hlo
    positivity
  have hsq : 2 * lg x = Real.logb 2 (((x : ℝ) / 2 ^ 400) ^ 2) := by rw [lg, Real.logb_pow, Nat.cast_ofNat]
  have htwo : (2 : ℕ) ^ 401 = 2 * 2 ^ 400 := pow_succ' 2 400
  have hsqlo : 2 ^ 400 ≤ x * x / 2 ^ 400 := by
    rw [Nat.le_div_iff_mul_le (by positivity)]
    exact Nat.mul_le_mul hlo hlo
  have hsqhi : x * x / 2 ^ 400 < 4 * 2 ^ 400 := by
    rw [Nat.div_lt_iff_lt_mul (by positivity)]
    rw [htwo] at hhi
    calc x * x < (2 * 2 ^ 400) * (2 * 2 ^ 400) := Nat.mul_lt_mul_of_lt_of_le hhi hhi.le (by positivity)
      _ = 4 * 2 ^ 400 * 2 ^ 400 := by ring
  have hdiv : (((x * x / 2 ^ 400 : ℕ) : ℝ)) / 2 ^ 400 ≤ ((x : ℝ) / 2 ^ 400) ^ 2 ∧ ((x : ℝ) / 2 ^ 400) ^ 2 < ((x * x / 2 ^ 400 : ℕ) + 1) / 2 ^ 400 := by
    have h1 := Nat.div_mul_le_self (x * x) (2 ^ 400)
    have h2 := Nat.lt_div_mul_add (a := x * x) (b := 2 ^ 400) (by positivity)
    have h1r : (((x * x / 2 ^ 400 : ℕ) : ℝ)) * 2 ^ 400 ≤ x * x := by exact_mod_cast h1
    have h2r : (x : ℝ) * x < ((x * x / 2 ^ 400 : ℕ) : ℝ) * 2 ^ 400 + 2 ^ 400 := by exact_mod_cast h2
    generalize (((x * x / 2 ^ 400 : ℕ) : ℝ)) = y at *
    rw [div_pow, sq, sq, ← div_div, div_le_div_iff_of_pos_right (by positivity), div_lt_div_iff_of_pos_right (by positivity), le_div_iff₀ (by positivity),
      div_lt_iff₀ (by positivity), add_mul, one_mul]
    exact ⟨h1r, h2r⟩
  rw [htwo]
  generalize x * x / 2 ^ 400 = y at *
  constructor
  · intro hy
    have hhalf : Real.logb 2 (((x : ℝ) / 2 ^ 400) ^ 2) = 1 + Real.logb 2 (((x : ℝ) / 2 ^ 400) ^ 2 / 2) := by
      rw [Real.logb_div (pow_pos hxpos 2).ne' two_ne_zero, Real.logb_self_eq_one one_lt_two]
      ring
    have hy2 : y = 2 * (y / 2) + y % 2 := (Nat.div_add_mod y 2).symm
    have hz : 2 ^ 400 ≤ y / 2 := by
      rw [Nat.le_div_iff_mul_le two_pos, Nat.mul_comm]
      exact hy
    have hcast : (2 : ℝ) * (y / 2 : ℕ) ≤ y ∧ (y : ℝ) + 1 ≤ 2 * ((y / 2 : ℕ) + 1) := by
      constructor <;> norm_cast <;> omega
    obtain ⟨hge, hle⟩ := lg_truncated (w := ((x : ℝ) / 2 ^ 400) ^ 2 / 2) hz
      (by rw [le_div_iff₀ two_pos]; refine le_trans ?_ hdiv.1; rw [div_mul_eq_mul_div]; gcongr; linarith [hcast.1])
      (by rw [div_lt_iff₀ two_pos]; refine lt_of_lt_of_le hdiv.2 ?_; rw [div_mul_eq_mul_div]; gcongr; linarith [hcast.2])
    rw [hsq, hhalf]
    exact ⟨hz, by rw [Nat.div_lt_iff_lt_mul two_pos]; exact lt_of_lt_of_eq hsqhi (by ring), by linarith, by linarith⟩
  · intro hy
    obtain ⟨hge, hle⟩ := lg_truncated hsqlo hdiv.1 hdiv.2
    rw [hsq]
    exact ⟨hsqlo, not_le.mp hy, hge, hle⟩

/-- The bits that `logGo` finds, in units of the last of them. -/
theorem logGo_spec (n x acc : ℕ) (hlo : 2 ^ 400 ≤ x) (hhi : x < 2 ^ 401) : ∃ r, logGo n x acc = acc * 2 ^ n + r ∧
    (r : ℝ) ≤ 2 ^ n * lg x ∧ 2 ^ n * lg x < r + 1 + (2 ^ n - 1) * lgGap := by
  induction n generalizing x acc with
  | zero =>
    have hxr : (2 : ℝ) ^ 400 ≤ x := by exact_mod_cast hlo
    have hxpos : (0 : ℝ) < x := lt_of_lt_of_le (by positivity) hxr
    have hxr' : (x : ℝ) < 2 ^ 400 * 2 := by
      rw [← pow_succ, ← Nat.cast_ofNat, ← Nat.cast_pow]
      exact Nat.cast_lt.mpr hhi
    have h0 : 0 ≤ lg x := Real.logb_nonneg one_lt_two (by rwa [one_le_div (by positivity)])
    have h1 : lg x < 1 := by
      rw [lg, Real.logb_lt_iff_lt_rpow one_lt_two (div_pos hxpos (by positivity)), Real.rpow_one, div_lt_iff₀ (by positivity)]
      linarith
    exact ⟨0, by simp [logGo], by simpa using h0, by simpa using h1⟩
  | succ n ih =>
    obtain ⟨hyes, hno⟩ := lg_square hlo hhi
    have hp : (0 : ℝ) < 2 ^ n := by positivity
    rw [logGo]
    by_cases h : 2 ^ 401 ≤ x * x / 2 ^ 400
    · obtain ⟨hz, hz', hge, hle⟩ := hyes h
      obtain ⟨r, hr, hrlo, hrhi⟩ := ih _ (2 * acc + 1) hz hz'
      have h1 := mul_le_mul_of_nonneg_left hge hp.le
      have h2 := mul_le_mul_of_nonneg_left hle hp.le
      refine ⟨2 ^ n + r, ?_, ?_, ?_⟩
      · simp only [if_pos h, hr]
        ring
      · push_cast
        rw [pow_succ]
        linarith
      · push_cast
        rw [pow_succ]
        linarith
    · obtain ⟨hz, hz', hge, hle⟩ := hno h
      obtain ⟨r, hr, hrlo, hrhi⟩ := ih _ (2 * acc) hz hz'
      have h1 := mul_le_mul_of_nonneg_left hge hp.le
      have h2 := mul_le_mul_of_nonneg_left hle hp.le
      refine ⟨r, ?_, ?_, ?_⟩
      · simp only [if_neg h, hr]
        ring
      · rw [pow_succ]
        linarith
      · rw [pow_succ]
        linarith

end Sys2Proof.Proofs
end

