-- ==== Sys2Proof/Proofs/Logarithms.lean ====
section
/-! SUPPORT. FLOG2 of a finite value (R136): the code nearest to the logarithm, or the logarithm itself of a power of two. -/

namespace Sys2Proof.Proofs

open Sys2Proof Sys2Proof.Machine Sys2Proof.Claims Sys2Proof.Laws

/-! ### Two ends -/

/-- Where the choice between the ends makes no difference, they have one code. -/
theorem roundEnds_agree {t : Fmt} {key : ℕ} {A B : Val} (h : roundEnds t (fun _ => true) key A B = roundEnds t (fun _ => false) key A B) :
    (rne t A).1 = (rne t B).1 ∧ ∀ tie, roundEnds t tie key A B = ((rne t A).1, (rne t A).2 ||| 16) := by
  have hcode : (rne t A).1 = (rne t B).1 := by
    by_contra hne
    simp only [roundEnds, if_neg hne, if_true, Bool.false_eq_true, if_false, Prod.mk.injEq] at h
    exact hne h.1
  refine ⟨hcode, fun tie => ?_⟩
  simp only [roundEnds, if_pos hcode]
  rfl

/-- What the statement says of a function's result, of its real value. -/
def FunctionResult (f : FFmt) (v : ℝ) (r : Rounded) : Prop :=
  NearestReal f v r.1 ∧ r.2.testBit 4 = true ∧ r.2 % 4 = 0 ∧ r.2 < 32 ∧ (r.2.testBit 2 = true ↔ isInf f r.1 = true) ∧
    (expField f r.1 = 0 → r.2.testBit 3 = true) ∧ (r.2.testBit 3 = true → |rat f r.1| ≤ (2 : ℚ) ^ ((1 : ℤ) - bias f))

/-- A real value between two ends that round to one code: the result is the first end's, with NX. -/
theorem functionResult_of_ends {f : FFmt} {s sat : Bool} {v va vb : ℝ} {a b : Rounded} (ha : RoundsMag (FFmt.fmt f) .rne sat s va a)
    (hb : RoundsMag (FFmt.fmt f) .rne sat s vb b) (hab : a.1 = b.1) (hpos : 0 < va) (hpos' : 0 < vb)
    (hv : va ≤ |v| ∧ |v| ≤ vb ∨ vb ≤ |v| ∧ |v| ≤ va) (hs : s = decide (v < 0)) (hne : ∀ c, c < 2 ^ fracBits f → magVal ℝ (FFmt.fmt f) c ≠ va) :
    FunctionResult f v (a.1, a.2 ||| 16) := by
  refine ⟨?_, flags_with_nx ha hne⟩
  dsimp only
  rcases hv with ⟨hlo, hhi⟩ | ⟨hlo, hhi⟩
  · exact nearestReal_between hpos hlo hhi hs ha hb hab
  · have h := nearestReal_between hpos' hlo hhi hs hb ha hab.symm
    rwa [← hab] at h

/-! ### The logarithm of a value -/

section
variable {f : FFmt} {x : ℕ}

/-- The integer part of a logarithm, from a significand and the exponent of its unit. -/
def lgWhole (m : ℕ) (e : ℤ) : ℤ := e + (bitLen m - 1 : ℕ)

/-- The logarithm in units of 2^-200, as FLOG2 finds it. -/
def lgUnits (m : ℕ) (e : ℤ) : ℤ := lgWhole m e * (2 ^ 200 : ℕ) + (logGo 200 (m * 2 ^ 400 / 2 ^ (bitLen m - 1)) 0 : ℕ)

theorem flog2E_of_pos (hfin : finite f x = true) (hmag : magnitude f x ≠ 0) (hs : negative f x = false) {m : ℕ} {e : ℤ}
    (hm : significand (FFmt.fmt f) x = m) (he : unitExp (FFmt.fmt f) x = e) (tie : ℕ → Bool) :
    (m = 2 ^ (bitLen m - 1) → flog2E tie (FFmt.fmt f) x = rne (FFmt.fmt f) (if lgWhole m e = 0 then .fin false 0 0 else valOfInt (lgWhole m e))) ∧
    (m ≠ 2 ^ (bitLen m - 1) → flog2E tie (FFmt.fmt f) x =
      roundEnds (FFmt.fmt f) tie x (.fin (decide (lgUnits m e < 0)) (lgUnits m e).natAbs (-200))
        (.fin (decide (lgUnits m e + 2 < 0)) (lgUnits m e + 2).natAbs (-200))) := by
  have hm0 := mt (significand_eq_zero_iff f x).mp hmag
  rw [hm] at hm0
  rw [flog2E, decVal_of_finite hfin, hs, hm, he]
  simp only [if_neg hm0, Bool.false_eq_true, if_false]
  exact ⟨fun h => if_pos h, fun h => if_neg h⟩

theorem rat_pos (hmag : magnitude f x ≠ 0) (hs : negative f x = false) : 0 < rat f x := by
  have hne := mt (rat_eq_zero_iff f x).mp hmag
  rw [negative_eq hne, decide_eq_false_iff_not, not_lt] at hs
  exact lt_of_le_of_ne hs (Ne.symm hne)

theorem significand_lt (f : FFmt) (x : ℕ) : significand (FFmt.fmt f) x < 2 ^ (fracBits f + 1) := by
  have hr := Nat.mod_lt x (Nat.two_pow_pos (fracOf (FFmt.fmt f)))
  rw [significand, ← fracOf_fmt, Nat.pow_succ]
  split <;> omega

/-- The logarithm of a significand that is no power of two lies a little above 0 and below 1. -/
theorem logb_significand {m k n : ℕ} (hlo : 2 ^ k < m) (hhi : m < 2 ^ (k + 1)) (hk : k ≤ n) :
    1 / 2 ^ (n + 1) ≤ Real.logb 2 ((m : ℝ) / 2 ^ k) ∧ Real.logb 2 ((m : ℝ) / 2 ^ k) ≤ 1 - 1 / 2 ^ (n + 1) := by
  have hk' : (2 : ℝ) ^ (k + 1) ≤ 2 ^ (n + 1) := pow_le_pow_right₀ one_le_two (by omega)
  have hlor : (2 : ℝ) ^ k + 1 ≤ m := by exact_mod_cast hlo
  have hhir : (m : ℝ) + 1 ≤ 2 ^ (k + 1) := by exact_mod_cast hhi
  have hp : (0 : ℝ) < 2 ^ k := by positivity
  have hm : (0 : ℝ) < m := by linarith
  have hlog2 : Real.log 2 ≤ 1 := by linarith [Real.log_two_lt_d9]
  have hlog2pos : 0 < Real.log 2 := by linarith [Real.log_two_gt_d9]
  have hlogb {w : ℝ} (hw : 0 < w) (hge : 1 / 2 ^ (n + 1) ≤ 1 - w⁻¹) : 1 / 2 ^ (n + 1) ≤ Real.logb 2 w := by
    have hlog := Real.one_sub_inv_le_log_of_pos hw
    rw [Real.logb, le_div_iff₀ hlog2pos]
    calc 1 / 2 ^ (n + 1) * Real.log 2 ≤ 1 / 2 ^ (n + 1) * 1 := by gcongr
      _ ≤ Real.log w := by linarith
  constructor
  · refine hlogb (by positivity) ?_
    rw [inv_div, one_sub_div hm.ne', div_le_div_iff₀ (by positivity) hm]
    nlinarith
  · have hcomp : Real.logb 2 ((m : ℝ) / 2 ^ k) = 1 - Real.logb 2 (2 / ((m : ℝ) / 2 ^ k)) := by
      rw [Real.logb_div two_ne_zero (by positivity), Real.logb_self_eq_one one_lt_two]
      ring
    rw [hcomp]
    refine sub_le_sub_left (hlogb (by positivity) ?_) 1
    rw [inv_div, div_div, ← pow_succ, one_sub_div (by positivity), div_le_div_iff₀ (by positivity) (by positivity)]
    nlinarith

theorem lg_significand {m k : ℕ} (hk : k ≤ 400) : lg (m * 2 ^ 400 / 2 ^ k) = Real.logb 2 ((m : ℝ) / 2 ^ k) := by
  have hpow : (2 : ℕ) ^ 400 = 2 ^ (400 - k) * 2 ^ k := by rw [← pow_add, Nat.sub_add_cancel hk]
  have hpowr : (2 : ℝ) ^ 400 = 2 ^ (400 - k) * 2 ^ k := by rw [← pow_add, Nat.sub_add_cancel hk]
  rw [lg, hpow, ← Nat.mul_assoc, Nat.mul_div_cancel _ (Nat.two_pow_pos k), hpowr, Nat.cast_mul, Nat.cast_pow, Nat.cast_ofNat, mul_comm (m : ℝ),
    mul_div_mul_left _ _ (by positivity)]

/-- The integer that FLOG2 finds encloses the logarithm, in units of 2^-200; a logarithm that is no integer is no subnormal value. -/
theorem flog2_enclosure {m n : ℕ} (e : ℤ) (hm0 : m ≠ 0) (hm : m ≠ 2 ^ (bitLen m - 1)) (hn : m < 2 ^ (n + 1)) (hn400 : n ≤ 400) :
    (lgUnits m e : ℝ) ≤ Real.logb 2 (m * 2 ^ e) * 2 ^ 200 ∧ Real.logb 2 (m * 2 ^ e) * 2 ^ 200 < lgUnits m e + 2 ∧
      1 / 2 ^ (n + 1) ≤ |Real.logb 2 (m * 2 ^ e)| := by
  obtain ⟨hpos, hlo, hhi⟩ := bitLen_bounds hm0
  rw [← Nat.sub_add_cancel hpos] at hhi
  have hunits : lgUnits m e = lgWhole m e * (2 ^ 200 : ℕ) + (logGo 200 (m * 2 ^ 400 / 2 ^ (bitLen m - 1)) 0 : ℕ) := rfl
  have hwhole : lgWhole m e = e + (bitLen m - 1 : ℕ) := rfl
  generalize bitLen m - 1 = k at *
  generalize lgWhole m e = i at *
  have hlt : 2 ^ k < m := lt_of_le_of_ne hlo (Ne.symm hm)
  have hk : k ≤ n := Nat.lt_succ_iff.mp ((Nat.pow_lt_pow_iff_right (by decide)).mp (hlo.trans_lt hn))
  obtain ⟨hplo, hphi⟩ := logb_significand hlt hhi hk
  have hL : Real.logb 2 (m * 2 ^ e) = i + Real.logb 2 ((m : ℝ) / 2 ^ k) := by
    have hmr : (m : ℝ) ≠ 0 := Nat.cast_ne_zero.mpr hm0
    rw [Real.logb_mul hmr (by positivity), Real.logb_div hmr (by positivity), ← Real.rpow_intCast, Real.logb_rpow two_pos (by norm_num), Real.logb_pow,
      Real.logb_self_eq_one one_lt_two, hwhole]
    push_cast
    ring
  have hstart : 2 ^ 400 ≤ m * 2 ^ 400 / 2 ^ k ∧ m * 2 ^ 400 / 2 ^ k < 2 ^ 401 := by
    rw [Nat.le_div_iff_mul_le (Nat.two_pow_pos k), Nat.div_lt_iff_lt_mul (Nat.two_pow_pos k), Nat.mul_comm m]
    refine ⟨Nat.mul_le_mul_left _ hlo, ?_⟩
    calc 2 ^ 400 * m < 2 ^ 400 * 2 ^ (k + 1) := Nat.mul_lt_mul_of_pos_left hhi (Nat.two_pow_pos 400)
      _ = 2 ^ 401 * 2 ^ k := by
        rw [← Nat.pow_add, ← Nat.pow_add]
        exact congrArg (2 ^ ·) (by omega)
  obtain ⟨r, hr, hrlo, hrhi⟩ := logGo_spec 200 _ 0 hstart.1 hstart.2
  rw [lg_significand (hk.trans hn400)] at hrlo hrhi
  have hgap : (2 ^ 200 - 1) * lgGap ≤ 1 := by
    rw [lgGap, mul_one_div, div_le_one (by positivity)]
    exact (sub_le_self _ zero_le_one).trans (pow_le_pow_right₀ one_le_two (by norm_num))
  rw [hr, Nat.zero_mul, Nat.zero_add] at hunits
  rw [hL, hunits]
  generalize Real.logb 2 ((m : ℝ) / 2 ^ k) = p at *
  push_cast
  refine ⟨by linarith, by linarith, ?_⟩
  rcases le_or_gt 0 i with hi | hi
  · have hir : (0 : ℝ) ≤ i := by exact_mod_cast hi
    exact le_trans (by linarith) (le_abs_self _)
  · have hir : (i : ℝ) ≤ -1 := by exact_mod_cast Int.le_sub_one_of_lt hi
    exact le_trans (by linarith) (neg_le_abs _)

/-- An integer that encloses a value in units, with room to spare, has its sign and is not small. -/
theorem units_bounds {L U w T : ℝ} (hU : 0 < U) (hw : 4 ≤ w * U) (hT : T ≤ L * U) (hT' : L * U < T + 2) (hL : w ≤ |L|) :
    (0 < L ∧ w * U / 2 ≤ T) ∨ (L < 0 ∧ T + 2 ≤ -(w * U / 2)) := by
  have hw0 : 0 < w := pos_of_mul_pos_left (by linarith) hU.le
  have hLU : w * U ≤ |L| * U := mul_le_mul_of_nonneg_right hL hU.le
  rcases le_total 0 L with h | h
  · rw [abs_of_nonneg h] at hL hLU
    exact .inl ⟨by linarith, by linarith⟩
  · rw [abs_of_nonpos h] at hL hLU
    exact .inr ⟨by linarith, by linarith⟩

theorem roundsMag_units (f : FFmt) {T : ℤ} (hT : T ≠ 0) :
    RoundsMag (FFmt.fmt f) .rne true (decide (T < 0)) (|(T : ℝ)| * 2 ^ (-200 : ℤ)) (rne (FFmt.fmt f) (.fin (decide (T < 0)) T.natAbs (-200))) := by
  have habs : |(T : ℝ)| = (T.natAbs : ℝ) := by rw [Nat.cast_natAbs, Int.cast_abs]
  rw [rne_fin, habs]
  exact roundFin_spec (fmt_mem f) .rne true _ _ (Int.natAbs_ne_zero.mpr hT)

/-- A value of at least the least normal one is the value of no subnormal code. -/
theorem ne_subnormal {v : ℝ} (hv : (2 : ℝ) ^ ((1 : ℤ) - bias f) ≤ v) (c : ℕ) (hc : c < 2 ^ fracBits f) : magVal ℝ (FFmt.fmt f) c ≠ v := by
  have h := magVal_strictMono (K := ℝ) (FFmt.fmt f) hc
  rw [magVal_least] at h
  exact (h.trans_le hv).ne

/-- A value whose enclosure in units of 2^-200 has ends of one code, and that is no subnormal value: its result is the code, with NX. -/
theorem functionResult_units {L : ℝ} {T : ℤ} (hT : (T : ℝ) ≤ L * 2 ^ 200) (hT' : L * 2 ^ 200 < T + 2) (hL : 1 / 2 ^ (fracBits f + 1) ≤ |L|)
    (hcode : (rne (FFmt.fmt f) (.fin (decide (T < 0)) T.natAbs (-200))).1 = (rne (FFmt.fmt f) (.fin (decide (T + 2 < 0)) (T + 2).natAbs (-200))).1) :
    FunctionResult f L ((rne (FFmt.fmt f) (.fin (decide (T < 0)) T.natAbs (-200))).1,
      (rne (FFmt.fmt f) (.fin (decide (T < 0)) T.natAbs (-200))).2 ||| 16) := by
  have hU : (0 : ℝ) < 2 ^ 200 := by positivity
  have hu : (0 : ℝ) < 2 ^ (-200 : ℤ) := two_zpow_pos _
  have hinv : (2 : ℝ) ^ 200 * 2 ^ (-200 : ℤ) = 1 := by norm_num
  have hw : 4 ≤ 1 / 2 ^ (fracBits f + 1) * (2 : ℝ) ^ 200 := by cases f <;> norm_num [fracBits]
  have hleast : (2 : ℝ) ^ ((1 : ℤ) - bias f) ≤ 1 / 2 ^ (fracBits f + 1) * 2 ^ 200 / 2 * 2 ^ (-200 : ℤ) := by
    rw [div_mul_eq_mul_div, mul_assoc, hinv]
    cases f <;> norm_num [bias, fracBits]
  have hscale {y : ℝ} : (y ≤ L * 2 ^ 200 → y * 2 ^ (-200 : ℤ) ≤ L) ∧ (L * 2 ^ 200 ≤ y → L ≤ y * 2 ^ (-200 : ℤ)) := by
    have hL1 : L = L * 2 ^ 200 * 2 ^ (-200 : ℤ) := by rw [mul_assoc, hinv, mul_one]
    constructor <;> intro hy <;> rw [hL1] <;> exact mul_le_mul_of_nonneg_right hy hu.le
  have hcast : ((T + 2 : ℤ) : ℝ) = T + 2 := by push_cast; rfl
  rcases units_bounds hU hw hT hT' hL with ⟨hL0, hlow⟩ | ⟨hL0, hlow⟩
  · have hTpos : (0 : ℝ) < T := by linarith
    have hT0 : 0 < T := by exact_mod_cast hTpos
    have hsL : decide (L < 0) = false := decide_eq_false hL0.not_gt
    have hs1 : decide (T < 0) = decide (L < 0) := by rw [hsL, decide_eq_false hT0.not_gt]
    have hs2 : decide (T + 2 < 0) = decide (L < 0) := by rw [hsL, decide_eq_false (by omega)]
    have ha := roundsMag_units f hT0.ne'
    have hb := roundsMag_units f (T := T + 2) (by omega)
    rw [abs_of_pos hTpos, hs1] at ha
    rw [hcast, abs_of_pos (by linarith), hs2] at hb
    rw [hs1, hs2] at hcode
    rw [hs1]
    exact functionResult_of_ends ha hb hcode (mul_pos hTpos hu) (mul_pos (by linarith) hu)
      (.inl (by rw [abs_of_pos hL0]; exact ⟨hscale.1 hT, hscale.2 hT'.le⟩)) rfl
      (ne_subnormal (hleast.trans (mul_le_mul_of_nonneg_right hlow hu.le)))
  · have hTneg : (T : ℝ) + 2 < 0 := by linarith
    have hT0 : T + 2 < 0 := by exact_mod_cast hTneg
    have hsL : decide (L < 0) = true := decide_eq_true hL0
    have hs1 : decide (T < 0) = decide (L < 0) := by rw [hsL, decide_eq_true (by omega)]
    have hs2 : decide (T + 2 < 0) = decide (L < 0) := by rw [hsL, decide_eq_true hT0]
    have ha := roundsMag_units f (T := T) (by omega)
    have hb := roundsMag_units f hT0.ne
    rw [abs_of_neg (by linarith), hs1] at ha
    rw [hcast, abs_of_neg hTneg, hs2] at hb
    rw [hs1, hs2] at hcode
    rw [hs1]
    have hlo := hscale.2 hT'.le
    have hhi := hscale.1 hT
    exact functionResult_of_ends ha hb hcode (mul_pos (by linarith) hu) (mul_pos (by linarith) hu)
      (.inr (by rw [abs_of_neg hL0]; constructor <;> linarith)) rfl
      (ne_subnormal (hleast.trans (mul_le_mul_of_nonneg_right (by linarith) hu.le)))

theorem flog2E_nearest (hfin : finite f x = true) (hmag : magnitude f x ≠ 0) (hs : negative f x = false) (hpow : ∀ k : ℤ, rat f x ≠ (2 : ℚ) ^ k)
    (h : flog2E (fun _ => true) (FFmt.fmt f) x = flog2E (fun _ => false) (FFmt.fmt f) x) (tie : ℕ → Bool) :
    FunctionResult f (Real.logb 2 (rat f x : ℝ)) (flog2E tie (FFmt.fmt f) x) := by
  have hm0 := mt (significand_eq_zero_iff f x).mp hmag
  have hmlt := significand_lt f x
  have hrat := rat_eq_significand (rat_pos hmag hs)
  have heq := flog2E_of_pos hfin hmag hs rfl rfl
  generalize significand (FFmt.fmt f) x = m at *
  generalize unitExp (FFmt.fmt f) x = e at *
  have hm : m ≠ 2 ^ (bitLen m - 1) := by
    intro hm
    refine hpow ((bitLen m - 1 : ℕ) + e) ?_
    rw [hrat, two_zpow_add, zpow_natCast, ← Nat.cast_ofNat, ← Nat.cast_pow, ← hm, Nat.cast_ofNat]
  have hfrac : fracBits f ≤ 400 := by cases f <;> decide
  obtain ⟨hT, hT', hL⟩ := flog2_enclosure e hm0 hm hmlt hfrac
  have hLrat : Real.logb 2 (rat f x : ℝ) = Real.logb 2 (m * 2 ^ e) := by
    rw [hrat]
    push_cast
    rfl
  simp only [(heq _).2 hm] at h ⊢
  obtain ⟨hcode, hends⟩ := roundEnds_agree h
  rw [hends tie, hLrat]
  exact functionResult_units hT hT' hL hcode

/-! ### Powers of two -/

/-- Integers of eight bits are values of every format that computes. -/
theorem exists_code_of_integer (f : FFmt) {n : ℕ} (hn : n ≠ 0) (hlt : n < 256) : ∃ c ≤ topCode (FFmt.fmt f), magVal ℚ (FFmt.fmt f) c = n := by
  obtain ⟨hpos, hlo, hhi⟩ := bitLen_bounds hn
  have hfrac : 7 ≤ fracBits f ∧ fracBits f + 3 < bias f + 1 := by cases f <;> decide
  have hlen : bitLen n ≤ 8 := by
    have := (Nat.pow_lt_pow_iff_right (a := 2) (by decide)).mp (hlo.trans_lt (hlt.trans_eq (by norm_num : 256 = 2 ^ 8)))
    omega
  obtain ⟨l, hl⟩ : ∃ l, bitLen n = l + 1 := ⟨bitLen n - 1, by omega⟩
  obtain ⟨j, hj⟩ : ∃ j, fracBits f = j + l := ⟨fracBits f - l, by omega⟩
  rw [hl, Nat.add_sub_cancel] at hlo
  rw [hl] at hhi
  have hlow : 2 ^ fracBits f ≤ 2 ^ j * n := by
    rw [hj, Nat.pow_add]
    exact Nat.mul_le_mul_left _ hlo
  have hhigh : 2 ^ j * n ≤ 2 ^ (fracBits f + 1) := by
    rw [hj, Nat.add_assoc, Nat.pow_add]
    exact Nat.mul_le_mul_left _ hhi.le
  have hsplit := magVal_split (K := ℚ) (FFmt.fmt f) (E := bias f + l - 1) (n := 2 ^ j * n) (by rwa [fracOf_fmt]) (.inr (by rwa [fracOf_fmt]))
  have hval : magVal ℚ (FFmt.fmt f) ((bias f + l - 1) * 2 ^ fracOf (FFmt.fmt f) + 2 ^ j * n) = n := by
    have hexp : (((bias f + l - 1 : ℕ) : ℤ) + 1 - biasOf (FFmt.fmt f) - fracOf (FFmt.fmt f)) = -(j : ℤ) := by
      rw [biasOf_fmt, fracOf_fmt]
      omega
    rw [hsplit, hexp, zpow_neg, zpow_natCast]
    push_cast
    field_simp
  refine ⟨_, ?_, hval⟩
  have htop : (256 : ℚ) ≤ magVal ℚ (FFmt.fmt f) (topCode (FFmt.fmt f)) := by
    cases f <;> norm_num [FFmt.fmt, magVal, fracOf, biasOf, topCode]
  have hnr : (n : ℚ) < 256 := by exact_mod_cast hlt
  refine ((magVal_strictMono (K := ℚ) (FFmt.fmt f)).lt_iff_lt.mp ?_).le
  rw [hval]
  exact hnr.trans_le htop

/-- The integers of eight bits are rounded to themselves. -/
theorem rne_integer (f : FFmt) {k : ℤ} (hk : k.natAbs < 256) (hne : k ≠ 0) : rat f (rne (FFmt.fmt f) (valOfInt k)).1 = k ∧
    finite f (rne (FFmt.fmt f) (valOfInt k)).1 = true ∧ (rne (FFmt.fmt f) (valOfInt k)).2 = 0 := by
  have hn : k.natAbs ≠ 0 := Int.natAbs_ne_zero.mpr hne
  obtain ⟨c, hc, hval⟩ := exists_code_of_integer f hn hk
  have hround := roundFin_spec (K := ℝ) (fmt_mem f) .rne true (decide (k < 0)) 0 hn
  have hreal : (k.natAbs : ℝ) * 2 ^ (0 : ℤ) = magVal ℝ (FFmt.fmt f) c := by
    rw [← cast_magVal, hval, zpow_zero, mul_one, Rat.cast_natCast]
  have hinf := topCode_fmt f
  rw [hreal] at hround
  rw [valOfInt, rne_fin, roundsMag_exact hc hround, withSign_fmt]
  refine ⟨?_, ?_, rfl⟩
  · rw [rat_eq_valueOf, valueOf_eq, signOf_fmt, magOf_fmt, negative_signed (by omega), magnitude_signed (by omega), hval]
    have h := ratOf_valOfInt k
    rwa [ratOf_eq, zpow_zero, mul_one] at h
  · rw [finite, magnitude_signed (by omega)]
    exact decide_eq_true (by omega)

/-- The exponents of the powers of two that are finite values. -/
theorem exponent_bounds (hfin : finite f x = true) {k : ℤ} (hk : rat f x = (2 : ℚ) ^ k) : (1 : ℤ) - bias f - fracBits f ≤ k ∧ k ≤ bias f := by
  obtain ⟨hlo, hhi⟩ := rat_bounds hfin (hk ▸ two_zpow_pos k)
  have htop : magVal ℚ (FFmt.fmt f) (topCode (FFmt.fmt f)) < 2 ^ ((bias f : ℤ) + 1) := by
    cases f <;> norm_num [FFmt.fmt, magVal, fracOf, biasOf, topCode, bias]
  rw [hk] at hlo hhi
  constructor
  · exact (zpow_le_zpow_iff_right₀ one_lt_two).mp hlo
  · exact Int.lt_add_one_iff.mp ((zpow_lt_zpow_iff_right₀ one_lt_two).mp (hhi.trans_lt htop))

/-- A significand whose value is a power of two is one itself. -/
theorem significand_power {m : ℕ} {e k : ℤ} (h : (m : ℚ) * 2 ^ e = 2 ^ k) : m = 2 ^ (bitLen m - 1) ∧ lgWhole m e = k := by
  have hm0 : m ≠ 0 := by
    rintro rfl
    rw [Nat.cast_zero, zero_mul] at h
    exact (two_zpow_pos k).ne h
  have hle : e ≤ k := by
    rw [← zpow_le_zpow_iff_right₀ (one_lt_two (α := ℚ)), ← h]
    exact le_mul_of_one_le_left (two_zpow_pos e).le (by exact_mod_cast Nat.one_le_iff_ne_zero.mpr hm0)
  obtain ⟨j, rfl⟩ := Int.le.dest hle
  have hm : m = 2 ^ j := by
    rw [two_zpow_add, mul_comm, mul_right_inj' (two_zpow_pos e).ne', zpow_natCast] at h
    exact_mod_cast h
  obtain ⟨hpos, hlo, hhi⟩ := bitLen_bounds hm0
  rw [hm] at hlo hhi
  have h1 := (Nat.pow_le_pow_iff_right (by decide)).mp hlo
  have h2 := (Nat.pow_lt_pow_iff_right (by decide)).mp hhi
  rw [← hm] at h1 h2
  have hj : bitLen m - 1 = j := by omega
  exact ⟨by rw [hj, ← hm], by rw [lgWhole, hj]⟩

theorem flog2E_power (hfin : finite f x = true) (hmag : magnitude f x ≠ 0) {k : ℤ} (hk : rat f x = (2 : ℚ) ^ k) (tie : ℕ → Bool) :
    rat f (flog2E tie (FFmt.fmt f) x).1 = k ∧ finite f (flog2E tie (FFmt.fmt f) x).1 = true ∧ (flog2E tie (FFmt.fmt f) x).2 = 0 := by
  have hpos : 0 < rat f x := hk ▸ two_zpow_pos k
  have hs : negative f x = false := by rw [negative_eq hpos.ne', decide_eq_false hpos.not_gt]
  obtain ⟨hm, hwhole⟩ := significand_power ((rat_eq_significand hpos).symm.trans hk)
  obtain ⟨hlo, hhi⟩ := exponent_bounds hfin hk
  have hrange : bias f < 128 ∧ fracBits f < 24 := by cases f <;> decide
  rw [(flog2E_of_pos hfin hmag hs rfl rfl tie).1 hm, hwhole]
  split_ifs with h0
  · rw [h0, rne_zero]
    cases f <;> exact ⟨((rat_eq_zero_iff _ _).mpr (by decide)).trans Int.cast_zero.symm, by decide, rfl⟩
  · exact rne_integer f (by omega) h0

end

end Sys2Proof.Proofs
end

