-- ==== Sys2Proof/Proofs/LogarithmOfTwo.lean ====
section
/-! SUPPORT. The constant of FEXP2 (R136): `ln2Q` is the natural logarithm of 2 in units of 2^-256, cut off. -/

namespace Sys2Proof.Proofs

open Sys2Proof Sys2Proof.Machine Sys2Proof.Claims Sys2Proof.Laws

/-- A quotient cut off to an integer. -/
theorem cast_div_bounds (a : ℕ) {b : ℕ} (hb : 0 < b) : ((a / b : ℕ) : ℝ) ≤ (a : ℝ) / b ∧ (a : ℝ) / b < ((a / b : ℕ) : ℝ) + 1 := by
  have hbr : (0 : ℝ) < b := by exact_mod_cast hb
  refine ⟨Nat.cast_div_le, ?_⟩
  rw [div_lt_iff₀ hbr, add_mul, one_mul]
  exact_mod_cast Nat.lt_div_mul_add hb

/-- Partial sums of 1 / (2^k k) in units, every term cut off. -/
def ln2Sum (units : ℕ) : ℕ → ℕ
  | 0 => 0
  | n + 1 => ln2Sum units n + units / (2 ^ (n + 1) * (n + 1))

theorem ln2Sum_spec (units n : ℕ) : (ln2Sum units n : ℝ) ≤ units * ∑ i ∈ Finset.range n, (2⁻¹ : ℝ) ^ (i + 1) / (i + 1) ∧
    units * ∑ i ∈ Finset.range n, (2⁻¹ : ℝ) ^ (i + 1) / (i + 1) ≤ ln2Sum units n + n := by
  induction n with
  | zero => simp [ln2Sum]
  | succ n ih =>
    obtain ⟨hlo, hhi⟩ := ih
    have hterm : (units : ℝ) * ((2⁻¹ : ℝ) ^ (n + 1) / (n + 1)) = (units : ℝ) / ((2 ^ (n + 1) * (n + 1) : ℕ) : ℝ) := by
      rw [inv_pow]
      push_cast
      field_simp
    obtain ⟨hfloor, hceil⟩ := cast_div_bounds units (b := 2 ^ (n + 1) * (n + 1)) (by positivity)
    rw [Finset.sum_range_succ, mul_add, hterm, ln2Sum, Nat.cast_add, Nat.cast_succ]
    constructor <;> linarith

/-- The partial sum of 330 terms, in units of 2^-330, in words of `ln2Q`: a sum of 330 cut-off terms. -/
theorem ln2Sum_value : ln2Q * 2 ^ 74 + 1 ≤ ln2Sum (2 ^ 330) 330 ∧ ln2Sum (2 ^ 330) 330 + 331 ≤ (ln2Q + 1) * 2 ^ 74 := by decide +kernel

/-- The partial sums come as close to the logarithm of 2 as their last term. -/
theorem log_two_near (n : ℕ) : |(∑ i ∈ Finset.range n, (2⁻¹ : ℝ) ^ (i + 1) / (i + 1)) - Real.log 2| ≤ 1 / 2 ^ n := by
  have habs : |(2⁻¹ : ℝ)| = 2⁻¹ := abs_of_pos (by norm_num)
  have h := Real.abs_log_sub_add_sum_range_le (show |(2⁻¹ : ℝ)| < 1 by rw [habs]; norm_num) n
  rw [habs, show (1 : ℝ) - 2⁻¹ = 2⁻¹ by norm_num, Real.log_inv, ← sub_eq_add_neg, pow_succ, mul_div_assoc, div_self (by norm_num), mul_one, inv_pow] at h
  rwa [one_div]

theorem ln2_bounds : (ln2Q : ℝ) ≤ 2 ^ 256 * Real.log 2 ∧ 2 ^ 256 * Real.log 2 ≤ ln2Q + 1 := by
  obtain ⟨hval, hval'⟩ := ln2Sum_value
  obtain ⟨hlo, hhi⟩ := ln2Sum_spec (2 ^ 330) 330
  have hnear := abs_le.mp (log_two_near 330)
  have hunits : ((2 ^ 330 : ℕ) : ℝ) = 2 ^ 74 * 2 ^ 256 := by
    rw [← pow_add, Nat.cast_pow, Nat.cast_ofNat]
  have hone : (2 : ℝ) ^ 74 * 2 ^ 256 * (1 / 2 ^ 330) = 1 := by
    rw [← pow_add]
    exact mul_one_div_cancel (by positivity)
  have hvalr : (ln2Q : ℝ) * 2 ^ 74 + 1 ≤ ln2Sum (2 ^ 330) 330 := by exact_mod_cast hval
  have hvalr' : (ln2Sum (2 ^ 330) 330 : ℝ) + 331 ≤ (ln2Q + 1) * 2 ^ 74 := by exact_mod_cast hval'
  rw [hunits] at hlo hhi
  generalize (ln2Sum (2 ^ 330) 330 : ℝ) = S at *
  generalize (∑ i ∈ Finset.range 330, (2⁻¹ : ℝ) ^ (i + 1) / (i + 1)) = σ at *
  have hU : (0 : ℝ) < 2 ^ 74 * 2 ^ 256 := by positivity
  have h1 := mul_le_mul_of_nonneg_left hnear.1 hU.le
  have h2 := mul_le_mul_of_nonneg_left hnear.2 hU.le
  rw [mul_neg, hone, mul_sub] at h1
  rw [hone, mul_sub] at h2
  have h74 : (0 : ℝ) < 2 ^ 74 := by positivity
  push_cast at hhi
  constructor <;> refine le_of_mul_le_mul_right ?_ h74 <;> linarith

end Sys2Proof.Proofs
end

