-- ==== Sys2Proof/Proofs/ExponentialSeries.lean ====
section
/-! SUPPORT. FEXP2 (R136): the partial sum of the model's exponential series encloses the power of two. -/

namespace Sys2Proof.Proofs

open Sys2Proof Sys2Proof.Machine Sys2Proof.Claims Sys2Proof.Laws

/-! ### The exponential series -/

/-- A term of the exponential series, in units of 2^-256. -/
noncomputable def expTerm (Y : ℝ) (j : ℕ) : ℝ := ((2 ^ 256 : ℕ) : ℝ) * (Y ^ j / j.factorial)

theorem expTerm_succ (Y : ℝ) (j : ℕ) : expTerm Y (j + 1) = expTerm Y j * Y / ((j + 1 : ℕ) : ℝ) := by
  unfold expTerm
  generalize ((2 ^ 256 : ℕ) : ℝ) = U
  rw [Nat.factorial_succ, Nat.cast_mul, pow_succ]
  field_simp

/-- The next term of the series, cut off twice, stays within eight units of the true one. -/
theorem expTerm_next {U y t j : ℕ} {T : ℝ} (hU : 0 < U) (hy : 4 * y ≤ 3 * U) (hlo : (t : ℝ) ≤ T) (hhi : T ≤ t + 8) :
    ((t * y / U / (j + 1) : ℕ) : ℝ) ≤ T * ((y : ℝ) / U) / ((j + 1 : ℕ) : ℝ) ∧ T * ((y : ℝ) / U) / ((j + 1 : ℕ) : ℝ) ≤ ((t * y / U / (j + 1) : ℕ) : ℝ) + 8 := by
  obtain ⟨h1, h2⟩ := cast_div_bounds (t * y) hU
  obtain ⟨h3, h4⟩ := cast_div_bounds (t * y / U) (Nat.succ_pos j)
  have hUr : (0 : ℝ) < U := by exact_mod_cast hU
  have hjr : (1 : ℝ) ≤ ((j + 1 : ℕ) : ℝ) := by exact_mod_cast Nat.succ_le_succ (Nat.zero_le j)
  have hY0 : 0 ≤ (y : ℝ) / U := by positivity
  have hY : (y : ℝ) / U ≤ 3 / 4 := by
    rw [div_le_div_iff₀ hUr (by norm_num), mul_comm]
    exact_mod_cast hy
  rw [Nat.cast_mul, mul_div_assoc] at h1 h2
  generalize (y : ℝ) / U = Y at *
  generalize ((t * y / U : ℕ) : ℝ) = q at *
  generalize ((j + 1 : ℕ) : ℝ) = d at *
  have hd : 0 < d := by linarith
  have htY := mul_le_mul_of_nonneg_right hlo hY0
  have htY' := mul_le_mul_of_nonneg_right hhi hY0
  constructor
  · exact h3.trans (div_le_div_of_nonneg_right (h1.trans htY) hd.le)
  · rw [div_lt_iff₀ hd] at h4
    rw [div_le_iff₀ hd]
    nlinarith

/-- The partial sum of the model, against the true one. -/
theorem expGo_spec {y : ℕ} (hy : 4 * y ≤ 3 * 2 ^ 256) (k j t acc : ℕ) (hlo : (t : ℝ) ≤ expTerm ((y : ℝ) / (2 ^ 256 : ℕ)) j)
    (hhi : expTerm ((y : ℝ) / (2 ^ 256 : ℕ)) j ≤ t + 8) :
    (expGo y k j t acc : ℝ) ≤ acc + ∑ i ∈ Finset.range k, expTerm ((y : ℝ) / (2 ^ 256 : ℕ)) (j + i) ∧
    acc + ∑ i ∈ Finset.range k, expTerm ((y : ℝ) / (2 ^ 256 : ℕ)) (j + i) ≤ expGo y k j t acc + 8 * k := by
  induction k generalizing j t acc with
  | zero => simp [expGo]
  | succ k ih =>
    have hnext := expTerm_next (j := j) (Nat.two_pow_pos 256) hy hlo hhi
    rw [← expTerm_succ] at hnext
    obtain ⟨hlo', hhi'⟩ := ih (j + 1) _ (acc + t) hnext.1 hnext.2
    simp only [Nat.add_assoc, Nat.add_comm 1] at hlo' hhi'
    rw [expGo, Finset.sum_range_succ', Nat.cast_succ]
    simp only [Nat.add_zero]
    rw [Nat.cast_add] at hlo' hhi'
    constructor <;> linarith

/-- The partial sum of 70 terms, against the exponential. -/
theorem expGo_exp {y : ℕ} (hy : 4 * y ≤ 3 * 2 ^ 256) : (expGo y 70 0 (2 ^ 256) 0 : ℝ) ≤ (2 ^ 256 : ℕ) * Real.exp ((y : ℝ) / (2 ^ 256 : ℕ)) ∧
    (2 ^ 256 : ℕ) * Real.exp ((y : ℝ) / (2 ^ 256 : ℕ)) ≤ expGo y 70 0 (2 ^ 256) 0 + 561 := by
  have hfirst : expTerm ((y : ℝ) / (2 ^ 256 : ℕ)) 0 = ((2 ^ 256 : ℕ) : ℝ) := by simp [expTerm]
  obtain ⟨hlo, hhi⟩ := expGo_spec hy 70 0 (2 ^ 256) 0 hfirst.ge (by rw [hfirst]; exact le_add_of_nonneg_right (by norm_num))
  have hfact : 2 ^ 256 * 71 ≤ Nat.factorial 70 * 70 := by decide
  have hsum : ∑ i ∈ Finset.range 70, expTerm ((y : ℝ) / (2 ^ 256 : ℕ)) (0 + i) =
      (2 ^ 256 : ℕ) * ∑ i ∈ Finset.range 70, ((y : ℝ) / (2 ^ 256 : ℕ)) ^ i / i.factorial := by
    rw [Finset.mul_sum]
    exact Finset.sum_congr rfl fun i _ => by rw [Nat.zero_add, expTerm]
  have hU : (0 : ℝ) < ((2 ^ 256 : ℕ) : ℝ) := Nat.cast_pos.mpr (Nat.two_pow_pos 256)
  have hY0 : 0 ≤ (y : ℝ) / (2 ^ 256 : ℕ) := by positivity
  have hY1 : (y : ℝ) / (2 ^ 256 : ℕ) ≤ 1 := by
    rw [div_le_one hU, Nat.cast_le]
    omega
  have hge := mul_le_mul_of_nonneg_left (Real.sum_le_exp_of_nonneg hY0 70) hU.le
  have hle := mul_le_mul_of_nonneg_left (Real.exp_bound' hY0 hY1 (n := 70) (by norm_num)) hU.le
  have htail : ((2 ^ 256 : ℕ) : ℝ) * (((y : ℝ) / (2 ^ 256 : ℕ)) ^ 70 * ((70 : ℕ) + 1) / ((70 : ℕ).factorial * (70 : ℕ))) ≤ 1 := by
    have hpow := pow_le_one₀ (n := 70) hY0 hY1
    have hfactr : ((2 ^ 256 : ℕ) : ℝ) * ((70 : ℕ) + 1) ≤ (70 : ℕ).factorial * (70 : ℕ) := by exact_mod_cast hfact
    have hF : (0 : ℝ) < (70 : ℕ).factorial * (70 : ℕ) := mul_pos (Nat.cast_pos.mpr (Nat.factorial_pos 70)) (by norm_num)
    rw [← mul_div_assoc, div_le_one hF]
    refine le_trans ?_ hfactr
    rw [mul_left_comm]
    exact mul_le_of_le_one_left (by positivity) hpow
  rw [hsum] at hlo hhi
  rw [mul_add] at hle
  rw [Nat.cast_zero, zero_add] at hlo hhi
  rw [Nat.cast_ofNat (n := 70)] at hhi
  constructor <;> linarith

/-! ### The power of two -/

/-- The exponent that the model takes, y in units of 2^-256, is at most two units short of that of the fraction of a power of two. -/
theorem expArgument {x : ℕ} (hx : x < 2 ^ 200) : 4 * (x * ln2Q / 2 ^ 200) ≤ 3 * 2 ^ 256 ∧
    ((x * ln2Q / 2 ^ 200 : ℕ) : ℝ) ≤ (x : ℝ) / (2 ^ 200 : ℕ) * (2 ^ 256 * Real.log 2) ∧
    (x : ℝ) / (2 ^ 200 : ℕ) * (2 ^ 256 * Real.log 2) ≤ ((x * ln2Q / 2 ^ 200 : ℕ) : ℝ) + 2 := by
  obtain ⟨hln, hln'⟩ := ln2_bounds
  obtain ⟨hdiv, hdiv'⟩ := cast_div_bounds (x * ln2Q) (Nat.two_pow_pos 200)
  have hU : (0 : ℝ) < ((2 ^ 200 : ℕ) : ℝ) := Nat.cast_pos.mpr (Nat.two_pow_pos 200)
  have hφ0 : 0 ≤ (x : ℝ) / (2 ^ 200 : ℕ) := by positivity
  have hφ1 : (x : ℝ) / (2 ^ 200 : ℕ) ≤ 1 := by
    rw [div_le_one hU, Nat.cast_le]
    exact hx.le
  have hle : x * ln2Q / 2 ^ 200 ≤ ln2Q := Nat.div_le_of_le_mul (Nat.mul_le_mul_right ln2Q hx.le)
  rw [Nat.cast_mul, mul_div_right_comm] at hdiv hdiv'
  refine ⟨(Nat.mul_le_mul_left 4 hle).trans (by decide), ?_, ?_⟩
  · exact hdiv.trans (mul_le_mul_of_nonneg_left hln hφ0)
  · have h1 := mul_le_mul_of_nonneg_left hln' hφ0
    rw [mul_add, mul_one] at h1
    linarith

/-- The exponential of a little more. -/
theorem exp_le_of_near {a b : ℝ} (hab : a ≤ b) (h : b - a ≤ 1) : Real.exp b ≤ Real.exp a * (1 + 2 * (b - a)) := by
  have hnn : 0 ≤ b - a := sub_nonneg.mpr hab
  have habs := Real.abs_exp_sub_one_le (x := b - a) (by rwa [abs_of_nonneg hnn])
  rw [abs_of_nonneg hnn] at habs
  have hle : Real.exp (b - a) ≤ 1 + 2 * (b - a) := by linarith [le_abs_self (Real.exp (b - a) - 1)]
  calc Real.exp b = Real.exp a * Real.exp (b - a) := by rw [← Real.exp_add, add_sub_cancel]
    _ ≤ Real.exp a * (1 + 2 * (b - a)) := mul_le_mul_of_nonneg_left hle (Real.exp_pos a).le

/-- The partial sum of the model encloses the power of two of a fraction, in units of 2^-256. -/
theorem exp2_enclosure {x : ℕ} (hx : x < 2 ^ 200) :
    (expGo (x * ln2Q / 2 ^ 200) 70 0 (2 ^ 256) 0 : ℝ) ≤ 2 ^ 256 * (2 : ℝ) ^ ((x : ℝ) / (2 ^ 200 : ℕ)) ∧
    2 ^ 256 * (2 : ℝ) ^ ((x : ℝ) / (2 ^ 200 : ℕ)) ≤ expGo (x * ln2Q / 2 ^ 200) 70 0 (2 ^ 256) 0 + 1024 := by
  obtain ⟨hy, hlo, hhi⟩ := expArgument hx
  obtain ⟨hexp, hexp'⟩ := expGo_exp hy
  have hφ1 : (x : ℝ) / (2 ^ 200 : ℕ) ≤ 1 := by
    rw [div_le_one (Nat.cast_pos.mpr (Nat.two_pow_pos 200)), Nat.cast_le]
    exact hx.le
  have hcast : ((2 ^ 256 : ℕ) : ℝ) = 2 ^ 256 := by rw [Nat.cast_pow, Nat.cast_ofNat]
  have hU : (0 : ℝ) < 2 ^ 256 := by positivity
  have hU1 : (8 : ℝ) ≤ 2 ^ 256 := by norm_num
  rw [Real.rpow_def_of_pos two_pos]
  rw [hcast] at hexp hexp'
  generalize (x : ℝ) / (2 ^ 200 : ℕ) = φ at *
  generalize expGo (x * ln2Q / 2 ^ 200) 70 0 (2 ^ 256) 0 = lo at *
  generalize x * ln2Q / 2 ^ 200 = y at *
  generalize (2 : ℝ) ^ 256 = U at *
  have hY : (y : ℝ) / U ≤ Real.log 2 * φ := by
    rw [div_le_iff₀ hU]
    linarith
  have hδ : U * (Real.log 2 * φ - y / U) ≤ 2 := by
    rw [mul_sub, mul_div_cancel₀ _ hU.ne']
    linarith
  have hδ1 : Real.log 2 * φ - y / U ≤ 1 := by
    refine le_of_mul_le_mul_left ?_ hU
    linarith
  have hfull : Real.exp (Real.log 2 * φ) ≤ 2 := by
    rw [← Real.rpow_def_of_pos two_pos]
    calc (2 : ℝ) ^ φ ≤ 2 ^ (1 : ℝ) := Real.rpow_le_rpow_of_exponent_le one_le_two hφ1
      _ = 2 := Real.rpow_one 2
  have hbase : Real.exp (y / U) ≤ Real.exp (Real.log 2 * φ) := Real.exp_le_exp.mpr hY
  have hE0 := Real.exp_pos (y / U)
  refine ⟨hexp.trans (mul_le_mul_of_nonneg_left hbase hU.le), ?_⟩
  calc U * Real.exp (Real.log 2 * φ) ≤ U * (Real.exp (y / U) * (1 + 2 * (Real.log 2 * φ - y / U))) :=
        mul_le_mul_of_nonneg_left (exp_le_of_near hY hδ1) hU.le
    _ = U * Real.exp (y / U) + 2 * (U * (Real.log 2 * φ - y / U)) * Real.exp (y / U) := by ring
    _ ≤ U * Real.exp (y / U) + 2 * 2 * 2 := by
      have hstep := mul_le_mul_of_nonneg_right hδ hE0.le
      linarith [hbase.trans hfull]
    _ ≤ lo + 1024 := by linarith

end Sys2Proof.Proofs
end

