-- ==== Sys2Proof/Proofs/PowerGap.lean ====
section
/-! SUPPORT. FEXP2 (R136): no power of two with a fraction of up to 17 bits lies a little above a number of 22 fraction bits. So an end of the model's
interval that is a subnormal value itself does not occur, and the flags of a subnormal result hold UF. No argument short of the values decides this: the
2^14 powers of the root of degree 2^14 of 2 are computed, and what is left is an argument on eighth powers. -/

namespace Sys2Proof.Proofs

open Sys2Proof Sys2Proof.Machine Sys2Proof.Claims Sys2Proof.Laws

/-! ### Roots of two -/

/-- The root of degree 2^k of 2. -/
noncomputable def twoRoot (k : ℕ) : ℝ := (2 : ℝ) ^ ((2 : ℝ) ^ k)⁻¹

theorem twoRoot_succ (k : ℕ) : twoRoot (k + 1) ^ 2 = twoRoot k := by
  rw [twoRoot, ← Real.rpow_natCast, ← Real.rpow_mul zero_le_two, twoRoot, pow_succ, mul_inv, Nat.cast_ofNat, inv_mul_cancel_right₀ two_ne_zero]

theorem one_le_twoRoot (k : ℕ) : 1 ≤ twoRoot k := Real.one_le_rpow one_le_two (by positivity)

theorem twoRoot_pow_full (k : ℕ) : twoRoot k ^ 2 ^ k = 2 := by
  rw [twoRoot, ← Real.rpow_natCast, ← Real.rpow_mul zero_le_two, Nat.cast_pow, Nat.cast_ofNat, inv_mul_cancel₀ (by positivity), Real.rpow_one]

theorem twoRoot_pow_le {k j : ℕ} (hj : j ≤ 2 ^ k) : twoRoot k ^ j ≤ 2 :=
  (pow_le_pow_right₀ (one_le_twoRoot k) hj).trans (twoRoot_pow_full k).le

/-- The root of degree 2^k of 2 in units of 2^-300, cut off at every step. -/
def rootUnits : ℕ → ℕ
  | 0 => 2 ^ 301
  | k + 1 => isqrt (rootUnits k * 2 ^ 300)

theorem rootUnits_ge (k : ℕ) : 2 ^ 300 ≤ rootUnits k := by
  induction k with
  | zero => exact Nat.pow_le_pow_right (by decide) (by decide)
  | succ k ih =>
    obtain ⟨-, hhi⟩ := isqrt_spec (rootUnits k * 2 ^ 300)
    have hsq : (2 ^ 300) ^ 2 < (rootUnits (k + 1) + 1) ^ 2 := by
      rw [sq]
      exact (Nat.mul_le_mul_right _ ih).trans_lt hhi
    exact Nat.lt_succ_iff.mp (lt_of_pow_lt_pow_left₀ 2 (Nat.zero_le _) hsq)

theorem rootUnits_spec (k : ℕ) : (rootUnits k : ℝ) ≤ (2 ^ 300 : ℕ) * twoRoot k ∧ (2 ^ 300 : ℕ) * twoRoot k ≤ rootUnits k + 4 := by
  have hU : (1 : ℝ) ≤ ((2 ^ 300 : ℕ) : ℝ) := Nat.one_le_cast.mpr Nat.one_le_two_pow
  induction k with
  | zero =>
    have hroot : twoRoot 0 = 2 := by simp [twoRoot]
    have hunits : (rootUnits 0 : ℝ) = (2 ^ 300 : ℕ) * 2 := by
      rw [rootUnits, pow_succ, Nat.cast_mul, Nat.cast_ofNat]
    rw [hroot, hunits]
    exact ⟨le_rfl, by linarith⟩
  | succ k ih =>
    obtain ⟨hlo, hhi⟩ := ih
    obtain ⟨hsq, hsq'⟩ := isqrt_spec (rootUnits k * 2 ^ 300)
    have hge : ((2 ^ 300 : ℕ) : ℝ) ≤ (rootUnits (k + 1) : ℝ) := Nat.cast_le.mpr (rootUnits_ge (k + 1))
    change (rootUnits (k + 1)) ^ 2 ≤ _ at hsq
    change _ < (rootUnits (k + 1) + 1) ^ 2 at hsq'
    have hsqr : (rootUnits (k + 1) : ℝ) ^ 2 ≤ rootUnits k * (2 ^ 300 : ℕ) := by exact_mod_cast hsq
    have hsqr' : rootUnits k * ((2 ^ 300 : ℕ) : ℝ) ≤ (rootUnits (k + 1) + 1) ^ 2 := by exact_mod_cast hsq'.le
    have hroot := twoRoot_succ k
    have h1 := one_le_twoRoot (k + 1)
    generalize ((2 ^ 300 : ℕ) : ℝ) = U at *
    rw [← hroot] at hlo hhi
    generalize twoRoot (k + 1) = ρ at *
    generalize (rootUnits k : ℝ) = R at *
    generalize (rootUnits (k + 1) : ℝ) = r at *
    have hU0 : 0 < U := by linarith
    constructor
    · refine (pow_le_pow_iff_left₀ (by linarith) (by positivity) two_ne_zero).mp ?_
      nlinarith
    · refine (pow_le_pow_iff_left₀ (by positivity) (by linarith) two_ne_zero).mp ?_
      nlinarith

/-! ### The powers of the root of degree 2^14 -/

/-- The powers of a root, in units of 2^-300, from one on: none of the next `n` is close to a multiple of 2^117 units. -/
def powersClear (R : ℕ) : ℕ → ℕ → Bool
  | 0, _ => true
  | n + 1, z =>
    match z * R / 2 ^ 300 with
    | 0 => false
    | z' + 1 => Nat.blt (2 ^ 65) ((z' + 2 ^ 19) % 2 ^ 117) && powersClear R n z'

theorem powersClear_all : powersClear (rootUnits 14) 16383 (2 ^ 300) = true := by decide +kernel

/-- An integer is a power of the root in units, up to what the steps cut off. -/
def Approximates (j z : ℕ) : Prop := (z : ℝ) ≤ (2 ^ 300 : ℕ) * twoRoot 14 ^ j ∧ (2 ^ 300 : ℕ) * twoRoot 14 ^ j ≤ z + 10 * j * twoRoot 14 ^ j

theorem approximates_next {j z z' : ℕ} (hj : j ≤ 2 ^ 14) (h : Approximates j z) (hz : z * rootUnits 14 / 2 ^ 300 = z' + 1) : Approximates (j + 1) z' := by
  obtain ⟨hlo, hhi⟩ := h
  obtain ⟨hR, hR'⟩ := rootUnits_spec 14
  obtain ⟨hdiv, hdiv'⟩ := cast_div_bounds (z * rootUnits 14) (Nat.two_pow_pos 300)
  have hU : (0 : ℝ) < ((2 ^ 300 : ℕ) : ℝ) := Nat.cast_pos.mpr (Nat.two_pow_pos 300)
  have hρj := twoRoot_pow_le hj
  have hρ := one_le_twoRoot 14
  have hρj0 : 1 ≤ twoRoot 14 ^ (j + 1) := one_le_pow₀ hρ
  have hpow : twoRoot 14 ^ (j + 1) = twoRoot 14 ^ j * twoRoot 14 := pow_succ _ _
  rw [hz, Nat.cast_mul, Nat.cast_succ] at hdiv hdiv'
  rw [Approximates, hpow, Nat.cast_succ]
  rw [hpow] at hρj0
  generalize twoRoot 14 ^ j = P at *
  generalize twoRoot 14 = ρ at *
  generalize ((2 ^ 300 : ℕ) : ℝ) = U at *
  generalize (rootUnits 14 : ℝ) = R at *
  have hz0 : (0 : ℝ) ≤ z := Nat.cast_nonneg z
  have hUρ : z * (R / U) ≤ z * ρ ∧ z * ρ ≤ z * (R / U) + 8 := by
    have hR1 : R / U ≤ ρ := by rwa [div_le_iff₀' hU]
    have hR2 : ρ ≤ R / U + 4 / U := by rwa [← add_div, le_div_iff₀' hU]
    have h8 : z * (4 / U) ≤ 8 := by
      rw [mul_div_assoc', div_le_iff₀ hU]
      nlinarith
    exact ⟨mul_le_mul_of_nonneg_left hR1 hz0, (mul_le_mul_of_nonneg_left hR2 hz0).trans (by rw [mul_add]; linarith)⟩
  rw [mul_div_assoc] at hdiv hdiv'
  have hlo' := mul_le_mul_of_nonneg_right hlo (zero_le_one.trans hρ)
  have hhi' := mul_le_mul_of_nonneg_right hhi (zero_le_one.trans hρ)
  constructor
  · calc (z' : ℝ) ≤ z * ρ := by linarith
      _ ≤ U * (P * ρ) := by linarith
  · calc U * (P * ρ) ≤ z * ρ + 10 * j * (P * ρ) := by linarith
      _ ≤ z' + 10 * 1 + 10 * j * (P * ρ) := by linarith
      _ ≤ z' + 10 * (j + 1) * (P * ρ) := by linarith

/-- What a run of `powersClear` says of each of its powers. -/
theorem powersClear_spec {n j z : ℕ} (hj : j + n ≤ 2 ^ 14) (h : Approximates j z) (hclear : powersClear (rootUnits 14) n z = true) {i : ℕ} (hji : j < i)
    (hi : i ≤ j + n) : ∃ z', Approximates i z' ∧ 2 ^ 65 < (z' + 2 ^ 19) % 2 ^ 117 := by
  induction n generalizing j z with
  | zero => omega
  | succ n ih =>
    rw [powersClear] at hclear
    split at hclear
    case h_1 => exact absurd hclear Bool.false_ne_true
    case h_2 z' hz =>
      rw [Bool.and_eq_true, Nat.blt_eq] at hclear
      obtain ⟨hfirst, hrest⟩ := hclear
      have hnext := approximates_next (by omega) h hz
      rcases Nat.lt_or_eq_of_le (Nat.succ_le_of_lt hji) with hlt | rfl
      · exact ih (by omega) hnext hrest hlt (by omega)
      · exact ⟨z', hnext, hfirst⟩

/-- No power of the root but a power of 2 lies on or a little above a number of 183 fraction bits. -/
theorem twoRoot_pow_gap {j : ℕ} (hpos : 0 < j) (hlt : j < 2 ^ 14) (M : ℕ) :
    ¬ ((M : ℝ) / 2 ^ 183 ≤ twoRoot 14 ^ j ∧ twoRoot 14 ^ j ≤ (M : ℝ) / 2 ^ 183 + 1 / 2 ^ 236) := by
  rintro ⟨hlo, hhi⟩
  have hstart : Approximates 0 (2 ^ 300) := by simp [Approximates]
  obtain ⟨z, ⟨hz, hz'⟩, hclear⟩ := powersClear_spec (n := 16383) (by decide) hstart powersClear_all hpos (by omega)
  have hρj := twoRoot_pow_le hlt.le
  have hj : (j : ℝ) ≤ 2 ^ 14 := by exact_mod_cast hlt.le
  have hU : ((2 ^ 300 : ℕ) : ℝ) = 2 ^ 117 * 2 ^ 183 := by rw [← pow_add, Nat.cast_pow, Nat.cast_ofNat]
  have hU' : ((2 ^ 300 : ℕ) : ℝ) = 2 ^ 64 * 2 ^ 236 := by rw [← pow_add, Nat.cast_pow, Nat.cast_ofNat]
  have hU0 : (0 : ℝ) < ((2 ^ 300 : ℕ) : ℝ) := Nat.cast_pos.mpr (Nat.two_pow_pos 300)
  have hM : ((2 ^ 300 : ℕ) : ℝ) * (M / 2 ^ 183) = 2 ^ 117 * M := by
    rw [hU, mul_assoc, mul_div_cancel₀ _ (by positivity)]
  have hε : ((2 ^ 300 : ℕ) : ℝ) * (1 / 2 ^ 236) = 2 ^ 64 := by
    rw [hU', mul_assoc, mul_one_div_cancel (by positivity), mul_one]
  have h1 := mul_le_mul_of_nonneg_left hlo hU0.le
  have h2 := mul_le_mul_of_nonneg_left hhi hU0.le
  rw [hM] at h1
  rw [mul_add, hM, hε] at h2
  have hρ0 : 0 ≤ twoRoot 14 ^ j := pow_nonneg (zero_le_one.trans (one_le_twoRoot 14)) j
  have herr : 10 * (j : ℝ) * twoRoot 14 ^ j ≤ 2 ^ 19 := by
    calc 10 * (j : ℝ) * twoRoot 14 ^ j ≤ 10 * 2 ^ 14 * 2 := by gcongr
      _ ≤ 2 ^ 19 := by norm_num
  have hzlo : 2 ^ 117 * M ≤ z + 2 ^ 19 := by
    have h : (2 : ℝ) ^ 117 * M ≤ z + 2 ^ 19 := by linarith
    exact_mod_cast h
  have hzhi : z ≤ 2 ^ 117 * M + 2 ^ 64 := by
    have h : (z : ℝ) ≤ 2 ^ 117 * M + 2 ^ 64 := by linarith
    exact_mod_cast h
  omega

/-! ### Eighth powers -/

/-- Eighth powers of numbers up to 2 are at most 1024 times as far apart as the numbers. -/
theorem pow_eight_sub_le {v w : ℝ} (hw : 0 ≤ w) (hwv : w ≤ v) (hv : v ≤ 2) : v ^ 8 - w ^ 8 ≤ 1024 * (v - w) := by
  have hv0 : 0 ≤ v := hw.trans hwv
  have hsq : v ^ 2 ≤ 4 := by nlinarith
  have hsqw : w ^ 2 ≤ v ^ 2 := pow_le_pow_left₀ hw hwv 2
  have hfour : v ^ 4 ≤ 16 := by nlinarith
  have hfourw : w ^ 4 ≤ v ^ 4 := pow_le_pow_left₀ hw hwv 4
  have hd : 0 ≤ v - w := sub_nonneg.mpr hwv
  calc v ^ 8 - w ^ 8 = (v - w) * (v + w) * (v ^ 2 + w ^ 2) * (v ^ 4 + w ^ 4) := by ring
    _ ≤ (v - w) * 4 * 8 * 32 := by gcongr <;> linarith
    _ = 1024 * (v - w) := by ring

/-- Eighth powers are powers of 2 of exponents that 8 divides. -/
theorem eight_dvd_of_pow_eq {N n : ℕ} (h : N ^ 8 = 2 ^ n) : 8 ∣ n := by
  obtain ⟨k, -, rfl⟩ := (Nat.dvd_prime_pow Nat.prime_two).mp (h ▸ dvd_pow_self N (by decide : (8 : ℕ) ≠ 0))
  rw [← pow_mul] at h
  have hn := Nat.pow_right_injective le_rfl h
  exact ⟨k, by rw [← hn, mul_comm]⟩

/-- No whole power of 2 whose exponent 8 does not divide lies on or a little above an eighth power of a number of 22 fraction bits. -/
theorem two_pow_gap {q : ℕ} (hpos : 0 < q) (hlt : q < 8) (N : ℕ) :
    ¬ (((N ^ 8 : ℕ) : ℝ) / 2 ^ 176 ≤ 2 ^ q ∧ (2 : ℝ) ^ q ≤ (N ^ 8 : ℕ) / 2 ^ 176 + 1 / 2 ^ 236) := by
  rintro ⟨hge, hle⟩
  have h176 : (0 : ℝ) < 2 ^ 176 := by positivity
  have hone : (1 / 2 ^ 236 : ℝ) * 2 ^ 176 < 1 := by norm_num
  have hscaled := mul_le_mul_of_nonneg_right hle h176.le
  rw [div_le_iff₀ h176] at hge
  rw [add_mul, div_mul_cancel₀ _ h176.ne'] at hscaled
  have hge' : N ^ 8 ≤ 2 ^ q * 2 ^ 176 := by exact_mod_cast hge
  have hle' : 2 ^ q * 2 ^ 176 < N ^ 8 + 1 := by
    have h : (2 : ℝ) ^ q * 2 ^ 176 < (N ^ 8 : ℕ) + 1 := by linarith
    exact_mod_cast h
  have heq : N ^ 8 = 2 ^ (q + 176) := by
    rw [pow_add]
    omega
  have hdvd := eight_dvd_of_pow_eq heq
  omega

/-- No power of 2 whose exponent is a proper fraction of 17 bits lies on or a little above a number of 22 fraction bits. -/
theorem exp2_gap {j : ℕ} (hpos : 0 < j) (hlt : j < 2 ^ 17) (N : ℕ) :
    ¬ ((N : ℝ) / 2 ^ 22 ≤ twoRoot 17 ^ j ∧ twoRoot 17 ^ j ≤ (N : ℝ) / 2 ^ 22 + 1 / 2 ^ 246) := by
  rintro ⟨hlo, hhi⟩
  have hv := twoRoot_pow_le hlt.le
  have height : (twoRoot 17 ^ j) ^ 8 = twoRoot 14 ^ j := by
    rw [← twoRoot_succ 14, ← twoRoot_succ 15, ← twoRoot_succ 16]
    ring
  have hw0 : (0 : ℝ) ≤ (N : ℝ) / 2 ^ 22 := by positivity
  have hgap := pow_eight_sub_le hw0 hlo hv
  have hge := pow_le_pow_left₀ hw0 hlo 8
  have hN : ((N : ℝ) / 2 ^ 22) ^ 8 = (N ^ 8 : ℕ) / 2 ^ 176 := by
    rw [div_pow, ← pow_mul, Nat.cast_pow]
  have hε : 1024 * (1 / 2 ^ 246 : ℝ) = 1 / 2 ^ 236 := by norm_num
  have hle : (twoRoot 17 ^ j) ^ 8 ≤ (N ^ 8 : ℕ) / 2 ^ 176 + 1 / 2 ^ 236 := by
    rw [← hN]
    linarith
  rw [height] at hle
  rw [height, hN] at hge
  obtain ⟨q, i, hq, hi, hj⟩ : ∃ q i, q < 8 ∧ i < 2 ^ 14 ∧ j = 2 ^ 14 * q + i :=
    ⟨j / 2 ^ 14, j % 2 ^ 14, by omega, Nat.mod_lt _ (by decide), (Nat.div_add_mod j (2 ^ 14)).symm⟩
  have hsplit : twoRoot 14 ^ j = 2 ^ q * twoRoot 14 ^ i := by
    rw [hj, pow_add, pow_mul, twoRoot_pow_full]
  rw [hsplit] at hge hle
  rcases Nat.eq_zero_or_pos i with rfl | hi0
  · rw [pow_zero, mul_one] at hge hle
    exact two_pow_gap (by omega) hq N ⟨hge, hle⟩
  · refine twoRoot_pow_gap hi0 hi (N ^ 8 * 2 ^ (7 - q)) ?_
    have hM : ((N ^ 8 * 2 ^ (7 - q) : ℕ) : ℝ) / 2 ^ 183 = (N ^ 8 : ℕ) / 2 ^ 176 / 2 ^ q := by
      have h183 : (2 : ℝ) ^ 183 = 2 ^ (7 - q) * (2 ^ 176 * 2 ^ q) := by
        rw [← pow_add, ← pow_add]
        congr 1
        omega
      rw [Nat.cast_mul, Nat.cast_pow 2, Nat.cast_ofNat, h183, mul_comm, mul_div_mul_left _ _ (by positivity), div_div]
    have hq1 : (1 : ℝ) ≤ 2 ^ q := one_le_pow₀ one_le_two
    rw [hM]
    constructor
    · rwa [div_le_iff₀' (by positivity)]
    · rw [← sub_le_iff_le_add'] at hle ⊢
      have hdiff : twoRoot 14 ^ i - (N ^ 8 : ℕ) / 2 ^ 176 / 2 ^ q = (2 ^ q * twoRoot 14 ^ i - (N ^ 8 : ℕ) / 2 ^ 176) / 2 ^ q := by
        rw [sub_div, mul_div_cancel_left₀ _ (by positivity)]
      rw [hdiff, div_le_iff₀ (by positivity)]
      exact hle.trans (le_mul_of_one_le_right (by positivity) hq1)

end Sys2Proof.Proofs
end

