-- ==== Sys2Proof/Proofs/PowersOfTwo.lean ====
section
/-! SUPPORT. FEXP2 of a finite value (R136): the code nearest to the power of two, or the power itself where it is representable. -/

namespace Sys2Proof.Proofs

open Sys2Proof Sys2Proof.Machine Sys2Proof.Claims Sys2Proof.Laws

/-! ### What the model computes -/

/-- An operand of FEXP2 in units of 2^-200, its whole part, and its fraction. -/
def expUnits (s : Bool) (m : ℕ) (e : ℤ) : ℤ := if s then -((m * 2 ^ (e + 200).toNat : ℕ) : ℤ) else ((m * 2 ^ (e + 200).toNat : ℕ) : ℤ)
def expWhole (t : ℤ) : ℤ := t / (2 ^ 200 : ℕ)
def expFraction (t : ℤ) : ℕ := (t % (2 ^ 200 : ℕ)).toNat

/-- The lower end of the interval for a fraction of a power of two, in units of 2^-256. -/
def expLow (x : ℕ) : ℕ := expGo (x * ln2Q / 2 ^ 200) 70 0 (2 ^ 256) 0

section
variable {f : FFmt} {x : ℕ}

theorem fexp2E_of_finite (hfin : finite f x = true) (hmag : magnitude f x ≠ 0) {s : Bool} {m : ℕ} {e : ℤ} (hs : negative f x = s)
    (hm : significand (FFmt.fmt f) x = m) (he : unitExp (FFmt.fmt f) x = e) (tie : ℕ → Bool) :
    (9 < e + bitLen m → fexp2E tie (FFmt.fmt f) x = rne (FFmt.fmt f) (.fin false 1 (if s then -1024 else 1024))) ∧
    (¬ 9 < e + bitLen m → expFraction (expUnits s m e) = 0 → fexp2E tie (FFmt.fmt f) x = rne (FFmt.fmt f) (.fin false 1 (expWhole (expUnits s m e)))) ∧
    (¬ 9 < e + bitLen m → expFraction (expUnits s m e) ≠ 0 → fexp2E tie (FFmt.fmt f) x =
      roundEnds (FFmt.fmt f) tie x (.fin false (expLow (expFraction (expUnits s m e))) (expWhole (expUnits s m e) - 256))
        (.fin false (expLow (expFraction (expUnits s m e)) + 1024) (expWhole (expUnits s m e) - 256))) := by
  have hm0 := mt (significand_eq_zero_iff f x).mp hmag
  rw [hm] at hm0
  rw [fexp2E, decVal_of_finite hfin, hs, hm, he]
  simp only [if_neg hm0]
  refine ⟨fun h => if_pos h, fun h h0 => ?_, fun h h0 => ?_⟩
  · rw [if_neg h]
    exact if_pos h0
  · rw [if_neg h]
    exact if_neg h0

/-! ### The parts of an operand -/

theorem expUnits_value {s : Bool} {m : ℕ} {e : ℤ} (he : -200 ≤ e) : (expUnits s m e : ℝ) = (ratOf s m e : ℝ) * 2 ^ 200 := by
  have hpow : ((2 ^ (e + 200).toNat : ℕ) : ℝ) = 2 ^ e * 2 ^ 200 := by
    rw [Nat.cast_pow, Nat.cast_ofNat, ← zpow_natCast, Int.toNat_of_nonneg (by omega), two_zpow_add]
    norm_cast
  cases s <;> simp only [expUnits, ratOf] <;> push_cast at hpow ⊢ <;> rw [hpow] <;> simp <;> ring

theorem expParts (t : ℤ) : t = expWhole t * (2 ^ 200 : ℕ) + expFraction t ∧ expFraction t < 2 ^ 200 := by
  have hpos : (0 : ℤ) < ((2 ^ 200 : ℕ) : ℤ) := Int.natCast_pos.mpr (Nat.two_pow_pos 200)
  have hnn := Int.emod_nonneg t hpos.ne'
  have hlt := Int.emod_lt_of_pos t hpos
  have hdm := Int.mul_ediv_add_emod t ((2 ^ 200 : ℕ) : ℤ)
  have hcast : ((expFraction t : ℕ) : ℤ) = t % ((2 ^ 200 : ℕ) : ℤ) := Int.toNat_of_nonneg hnn
  refine ⟨?_, ?_⟩
  · rw [expWhole, hcast, mul_comm]
    exact hdm.symm
  · rw [← Int.ofNat_lt, hcast]
    exact hlt

/-- A power of two is that of the whole part times that of the fraction. -/
theorem exp2_parts {a : ℝ} {t : ℤ} (ht : (t : ℝ) = a * 2 ^ 200) :
    (2 : ℝ) ^ a = 2 ^ expWhole t * (2 : ℝ) ^ ((expFraction t : ℝ) / (2 ^ 200 : ℕ)) := by
  have hparts : (t : ℝ) = expWhole t * 2 ^ 200 + expFraction t := by
    have h := congrArg (Int.cast (R := ℝ)) (expParts t).1
    rwa [Int.cast_add, Int.cast_mul, Int.cast_natCast, Int.cast_natCast, Nat.cast_pow, Nat.cast_ofNat] at h
  have ha : a = expWhole t + (expFraction t : ℝ) / (2 ^ 200 : ℕ) := by
    rw [Nat.cast_pow, Nat.cast_ofNat, ← mul_right_cancel_iff_of_pos (by positivity : (0 : ℝ) < 2 ^ 200), ← ht, hparts, add_mul,
      div_mul_cancel₀ _ (by positivity)]
  rw [ha, Real.rpow_add two_pos, Real.rpow_intCast]

theorem unitExp_ge (f : FFmt) (x : ℕ) : (1 : ℤ) - bias f - fracBits f ≤ unitExp (FFmt.fmt f) x := by
  rw [unitExp, biasOf_fmt, fracOf_fmt]
  generalize magOf (FFmt.fmt f) x / 2 ^ fracBits f = q
  split <;> omega

/-! ### Powers far beyond the range and far below it -/

theorem roundsMag_fin (f : FFmt) {n : ℕ} (hn : n ≠ 0) (g : ℤ) :
    RoundsMag (FFmt.fmt f) .rne true false ((n : ℝ) * 2 ^ g) (rne (FFmt.fmt f) (.fin false n g)) := by
  rw [rne_fin]
  exact roundFin_spec (fmt_mem f) .rne true false g hn

theorem roundsMag_two_zpow (f : FFmt) (g : ℤ) : RoundsMag (FFmt.fmt f) .rne true false ((2 : ℝ) ^ g) (rne (FFmt.fmt f) (.fin false 1 g)) := by
  have h := roundsMag_fin f one_ne_zero g
  rwa [Nat.cast_one, one_mul] at h

theorem rne_large (f : FFmt) {g : ℤ} (hg : 512 ≤ g) : rne (FFmt.fmt f) (.fin false 1 g) = (infinity f, 4 + 16) := by
  obtain ⟨-, htop, -⟩ := magnitude_bounds f
  have hle : magVal ℚ (FFmt.fmt f) (topCode (FFmt.fmt f) + 1) ≤ ((1 : ℕ) : ℚ) * 2 ^ g := by
    rw [Nat.cast_one, one_mul]
    exact htop.trans (two_zpow_le (by omega))
  rw [rne_fin, roundFin_of_large (fmt_mem f) true false one_ne_zero hle, overflow_fmt]
  rfl

theorem rne_small (f : FFmt) {g : ℤ} (hg : g ≤ -512) : rne (FFmt.fmt f) (.fin false 1 g) = (0, 8 + 16) := by
  obtain ⟨hone, -, hbias⟩ := magnitude_bounds f
  have hhalf : 2 * (((1 : ℕ) : ℚ) * 2 ^ g) < magVal ℚ (FFmt.fmt f) 1 := by
    rw [Nat.cast_one, one_mul, ← zpow_one_add₀ two_ne_zero]
    exact (two_zpow_lt (by omega)).trans_le hone
  have htiny : ((1 : ℕ) : ℚ) * 2 ^ g < 2 ^ (-(biasOf (FFmt.fmt f) : ℤ)) := by
    rw [Nat.cast_one, one_mul]
    exact (two_zpow_lt (by omega)).trans_le hbias
  rw [rne_fin, roundFin_of_small (fmt_mem f) true false one_ne_zero hhalf htiny]
  rfl

theorem functionResult_large {v : ℝ} (hv : (2 : ℝ) ^ (512 : ℤ) ≤ v) : FunctionResult f v (infinity f, 4 + 16) := by
  obtain ⟨n, hn⟩ := pow_unbounded_of_one_lt v one_lt_two
  have hn' : 512 ≤ (n : ℤ) := by
    rw [← zpow_le_zpow_iff_right₀ (one_lt_two (α := ℝ)), zpow_natCast]
    exact hv.trans hn.le
  have ha := roundsMag_two_zpow f 512
  have hb := roundsMag_two_zpow f n
  have hpos : 0 < v := (two_zpow_pos _).trans_le hv
  have hbias : 0 < bias f := by cases f <;> decide
  rw [rne_large f le_rfl] at ha
  rw [rne_large f hn', zpow_natCast] at hb
  have h := functionResult_of_ends ha hb rfl (two_zpow_pos _) (by positivity) (.inl (by rw [abs_of_pos hpos]; exact ⟨hv, hn.le⟩))
    (decide_eq_false hpos.not_gt).symm (ne_subnormal (two_zpow_le (by omega)))
  rwa [show ((infinity f, 4 + 16) : Rounded).2 ||| 16 = 4 + 16 from (by decide : 4 + 16 ||| 16 = 4 + 16)] at h

theorem functionResult_small {v : ℝ} (hpos : 0 < v) (hv : v ≤ (2 : ℝ) ^ (-512 : ℤ)) : FunctionResult f v (0, 8 + 16) := by
  obtain ⟨n, hn⟩ := exists_pow_lt_of_lt_one hpos (show (2⁻¹ : ℝ) < 1 by norm_num)
  rw [inv_pow, ← zpow_natCast, ← zpow_neg] at hn
  have hn' : -(n : ℤ) ≤ -512 := by
    rw [← zpow_le_zpow_iff_right₀ (one_lt_two (α := ℝ))]
    exact hn.le.trans hv
  have ha := roundsMag_two_zpow f (-512)
  have hb := roundsMag_two_zpow f (-n)
  obtain ⟨hone, -, -⟩ := magnitude_bounds f
  have hone' : (2 : ℝ) ^ (-149 : ℤ) ≤ magVal ℝ (FFmt.fmt f) 1 := by
    rw [← cast_magVal]
    have h := Rat.cast_le (K := ℝ).mpr hone
    push_cast at h
    exact h
  rw [rne_small f le_rfl] at ha
  rw [rne_small f hn'] at hb
  refine functionResult_of_ends ha hb rfl (two_zpow_pos _) (two_zpow_pos _) (.inr (by rw [abs_of_pos hpos]; exact ⟨hn.le, hv⟩))
    (decide_eq_false hpos.not_gt).symm fun c _ => ?_
  rcases Nat.eq_zero_or_pos c with rfl | hc
  · rw [magVal_zero]
    exact (two_zpow_pos _).ne
  · refine ne_of_gt ((two_zpow_lt (by decide)).trans_le (hone'.trans ?_))
    exact (magVal_strictMono (K := ℝ) _).monotone hc

/-! ### Whole powers -/

/-- A value that is no code's is rounded with NX. -/
theorem nx_of_inexact {s sat : Bool} {v : ℝ} {r : Rounded} (h : RoundsMag (FFmt.fmt f) .rne sat s v r)
    (hne : ∀ c, c ≤ topCode (FFmt.fmt f) → magVal ℝ (FFmt.fmt f) c ≠ v) : r = (r.1, r.2 ||| 16) := by
  obtain ⟨code, -, hover, hin⟩ := h
  refine Prod.ext rfl ?_
  change r.2 = r.2 ||| 16
  by_cases hcode : topCode (FFmt.fmt f) < code
  · rw [hover hcode, overflow_fmt]
    exact (by decide : 4 + 16 = 4 + 16 ||| 16)
  · obtain ⟨-, -, hinexact⟩ := hin (not_lt.mp hcode)
    obtain ⟨htiny, hnot⟩ := hinexact (hne code (not_lt.mp hcode))
    by_cases ht : TinyMag (FFmt.fmt f) .rne s v
    · rw [htiny ht]
      decide
    · rw [hnot ht]
      decide

/-- A positive value is no code's value if it is that of no finite code. -/
theorem magVal_ne_of_rat_ne {v : ℝ} (h : ∀ c, c < 2 ^ floatWidth f → finite f c = true → (rat f c : ℝ) ≠ v) (c : ℕ) (hc : c ≤ topCode (FFmt.fmt f)) :
    magVal ℝ (FFmt.fmt f) c ≠ v := by
  have htop := topCode_fmt f
  have hmag : magnitude f (signed f false c) = c := magnitude_signed (by omega)
  rw [magVal_real f c hc, ← rat_eq_valueOf]
  refine h c (signed_lt (f := f) (s := false) (by omega)) ?_
  rw [finite, show magnitude f c = c from hmag]
  exact decide_eq_true (by omega)

theorem functionResult_whole {v : ℝ} {g : ℤ} (hv : v = (2 : ℝ) ^ g)
    (h : ∀ c, c < 2 ^ floatWidth f → finite f c = true → (rat f c : ℝ) ≠ v) : FunctionResult f v (rne (FFmt.fmt f) (.fin false 1 g)) := by
  have hr := roundsMag_two_zpow f g
  rw [← hv] at hr
  have hpos : 0 < v := hv ▸ two_zpow_pos g
  have hfrac : 2 ^ fracBits f ≤ topCode (FFmt.fmt f) := by cases f <;> decide
  rw [nx_of_inexact hr (magVal_ne_of_rat_ne h)]
  exact functionResult_of_ends hr hr rfl hpos hpos (.inl (by rw [abs_of_pos hpos]; exact ⟨le_rfl, le_rfl⟩)) (decide_eq_false hpos.not_gt).symm
    fun c hc => magVal_ne_of_rat_ne h c (hc.le.trans hfrac)

end

end Sys2Proof.Proofs
end

