-- ==== Sys2Proof/Proofs/FunctionValues.lean ====
section
/-! SUPPORT. FEXP2 of values that are no integers (R136), and the statement on the functions as a whole. -/

namespace Sys2Proof.Proofs

open Sys2Proof Sys2Proof.Machine Sys2Proof.Claims Sys2Proof.Laws

/-! ### The interval around a power of two -/

theorem expGo_ge (y k j t acc : ℕ) : acc ≤ expGo y k j t acc := by
  induction k generalizing j t acc with
  | zero => exact le_rfl
  | succ k ih => exact (Nat.le_add_right acc t).trans (ih _ _ _)

theorem expGo_ge_first (y k j t acc : ℕ) : acc + t ≤ expGo y (k + 1) j t acc := expGo_ge _ _ _ _ _

theorem expLow_ge (x : ℕ) : 2 ^ 256 ≤ expLow x := by
  have h := expGo_ge_first (x * ln2Q / 2 ^ 200) 69 0 (2 ^ 256) 0
  rw [Nat.zero_add] at h
  exact h

/-- The ends of the model's interval, scaled by the power of two of a whole part. -/
theorem exp2_ends {X : ℕ} (hX : X < 2 ^ 200) (i : ℤ) :
    (expLow X : ℝ) * 2 ^ (i - 256) ≤ 2 ^ i * (2 : ℝ) ^ ((X : ℝ) / (2 ^ 200 : ℕ)) ∧
    2 ^ i * (2 : ℝ) ^ ((X : ℝ) / (2 ^ 200 : ℕ)) ≤ ((expLow X + 1024 : ℕ) : ℝ) * 2 ^ (i - 256) := by
  obtain ⟨hlo, hhi⟩ := exp2_enclosure hX
  have hi : (2 : ℝ) ^ i = 2 ^ 256 * 2 ^ (i - 256) := by
    rw [← zpow_natCast (2 : ℝ) 256, ← two_zpow_add]
    congr 1
    push_cast
    ring
  have hpos := two_zpow_pos (K := ℝ) (i - 256)
  rw [hi, Nat.cast_add, mul_right_comm]
  exact ⟨mul_le_mul_of_nonneg_right hlo hpos.le, mul_le_mul_of_nonneg_right (by exact_mod_cast hhi) hpos.le⟩

/-! ### Lower ends that are subnormal values -/

/-- A fraction of 17 bits as an exponent. -/
theorem exp2_eq_twoRoot (j : ℕ) : (2 : ℝ) ^ (((2 ^ 183 * j : ℕ) : ℝ) / (2 ^ 200 : ℕ)) = twoRoot 17 ^ j := by
  have hexp : ((2 ^ 183 * j : ℕ) : ℝ) / ((2 ^ 200 : ℕ) : ℝ) = ((2 : ℝ) ^ 17)⁻¹ * j := by
    have h200 : (2 : ℝ) ^ 200 = 2 ^ 183 * 2 ^ 17 := by rw [← pow_add]
    rw [Nat.cast_mul, Nat.cast_pow, Nat.cast_pow, Nat.cast_ofNat, h200, mul_div_mul_left _ _ (by positivity), div_eq_inv_mul]
  rw [hexp, Real.rpow_mul zero_le_two, Real.rpow_natCast, twoRoot]

/-- An operand whose unit is at least 2^-17 has a fraction of 17 bits. -/
theorem expFraction_of_unit {s : Bool} {m : ℕ} {e : ℤ} (he : -17 ≤ e) : ∃ j, j < 2 ^ 17 ∧ expFraction (expUnits s m e) = 2 ^ 183 * j := by
  obtain ⟨d, hd⟩ : ∃ d, (e + 200).toNat = 183 + d := ⟨(e + 17).toNat, by omega⟩
  have hdvd : ((2 ^ 183 : ℕ) : ℤ) ∣ expUnits s m e := by
    have hnat : 2 ^ 183 ∣ m * 2 ^ (e + 200).toNat := by
      rw [hd, Nat.pow_add]
      exact (Dvd.intro _ rfl).mul_left m
    have hint : ((2 ^ 183 : ℕ) : ℤ) ∣ ((m * 2 ^ (e + 200).toNat : ℕ) : ℤ) := Int.natCast_dvd_natCast.mpr hnat
    rw [expUnits]
    split
    · exact hint.neg_right
    · exact hint
  obtain ⟨hparts, hlt⟩ := expParts (expUnits s m e)
  have h200 : (2 : ℕ) ^ 200 = 2 ^ 183 * 2 ^ 17 := by rw [← pow_add]
  have hfrac : 2 ^ 183 ∣ expFraction (expUnits s m e) := by
    rw [← Int.natCast_dvd_natCast]
    have hwhole : ((2 ^ 183 : ℕ) : ℤ) ∣ expWhole (expUnits s m e) * (2 ^ 200 : ℕ) := by
      rw [h200, Nat.cast_mul]
      exact (Dvd.intro _ rfl).mul_left _
    exact (Int.dvd_add_right hwhole).mp (hparts ▸ hdvd)
  obtain ⟨j, hj⟩ := hfrac
  refine ⟨j, ?_, hj⟩
  rw [hj, h200] at hlt
  exact lt_of_mul_lt_mul_left hlt (Nat.zero_le _)

section
variable {f : FFmt} {x : ℕ}

theorem magVal_subnormal (f : FFmt) {c : ℕ} (hc : c < 2 ^ fracBits f) :
    magVal ℝ (FFmt.fmt f) c = c * 2 ^ ((1 : ℤ) - bias f - fracBits f) := by
  have h := magVal_split (K := ℝ) (FFmt.fmt f) (E := 0) (n := c)
    (by rw [fracOf_fmt]; exact hc.le.trans (Nat.pow_le_pow_right (by decide) (Nat.le_succ _))) (.inl rfl)
  rw [Nat.zero_mul, Nat.zero_add, biasOf_fmt, fracOf_fmt] at h
  rw [h]
  congr 2

/-- An operand whose power of two is subnormal has a unit of at least 2^-17. -/
theorem unit_of_subnormal {s : Bool} {m : ℕ} {e : ℤ} (hm : m < 2 ^ (fracBits f + 1)) (he : -200 ≤ e) (hi : expWhole (expUnits s m e) ≤ -(bias f : ℤ)) :
    -17 ≤ e := by
  by_contra hlt
  have hval := expUnits_value (s := s) (m := m) he
  obtain ⟨hparts, hfrac⟩ := expParts (expUnits s m e)
  have ht : expUnits s m e < (1 - (bias f : ℤ)) * (2 ^ 200 : ℕ) := by
    have hmono := Int.mul_le_mul_of_nonneg_right hi (Int.natCast_nonneg (2 ^ 200))
    have hfrac' : (expFraction (expUnits s m e) : ℤ) < ((2 ^ 200 : ℕ) : ℤ) := Int.ofNat_lt.mpr hfrac
    rw [hparts, Int.sub_mul, Int.one_mul]
    rw [Int.neg_mul] at hmono
    omega
  have htr : (expUnits s m e : ℝ) < (1 - (bias f : ℝ)) * 2 ^ 200 := by
    have h := (Int.cast_lt (R := ℝ)).mpr ht
    rwa [Int.cast_mul, Int.cast_natCast, Nat.cast_pow, Nat.cast_ofNat, Int.cast_sub, Int.cast_one, Int.cast_natCast] at h
  rw [hval] at htr
  have hlow : (ratOf s m e : ℝ) < 1 - bias f := lt_of_mul_lt_mul_right htr (by positivity)
  have hge : -((m : ℝ) * 2 ^ e) ≤ (ratOf s m e : ℝ) := by
    have hnn : (0 : ℝ) ≤ m * 2 ^ e := mul_nonneg (Nat.cast_nonneg m) (two_zpow_pos e).le
    rw [ratOf_eq]
    cases s <;> push_cast <;> simp
    linarith
  have hm2 : (m : ℝ) * 2 ^ e ≤ 2 ^ (fracBits f + 1) * 2 ^ (-18 : ℤ) := by
    have hmr : (m : ℝ) ≤ 2 ^ (fracBits f + 1) := by exact_mod_cast hm.le
    exact mul_le_mul hmr (two_zpow_le (by omega)) (two_zpow_pos e).le (by positivity)
  have hformat : (2 : ℝ) ^ (fracBits f + 1) * 2 ^ (-18 : ℤ) ≤ bias f - 1 := by cases f <;> norm_num [fracBits, bias]
  linarith

/-- The lower end of the model's interval is the value of no subnormal code. -/
theorem expLow_ne_subnormal {s : Bool} {m : ℕ} {e : ℤ} (hm : m < 2 ^ (fracBits f + 1)) (he : -200 ≤ e) (hfrac : expFraction (expUnits s m e) ≠ 0)
    (c : ℕ) (hc : c < 2 ^ fracBits f) : magVal ℝ (FFmt.fmt f) c ≠ expLow (expFraction (expUnits s m e)) * 2 ^ (expWhole (expUnits s m e) - 256) := by
  intro heq
  rw [magVal_subnormal f hc] at heq
  have hlt := (expParts (expUnits s m e)).2
  have hends := exp2_enclosure hlt
  have hge := expLow_ge (expFraction (expUnits s m e))
  have hunit := unit_of_subnormal (s := s) hm he
  have hfrac23 : fracBits f ≤ 23 := by cases f <;> decide
  generalize expWhole (expUnits s m e) = i at *
  have hcpos : (2 : ℝ) ^ i ≤ c * 2 ^ ((1 : ℤ) - bias f - fracBits f) := by
    have hsplit : (2 : ℝ) ^ i = (2 ^ 256 : ℕ) * 2 ^ (i - 256) := two_zpow_split (by push_cast; ring)
    rw [heq, hsplit]
    exact mul_le_mul_of_nonneg_right (Nat.cast_le.mpr hge) (two_zpow_pos _).le
  have hi : i ≤ -(bias f : ℤ) := by
    have hsplit : (2 : ℝ) ^ ((1 : ℤ) - bias f) = (2 ^ fracBits f : ℕ) * 2 ^ ((1 : ℤ) - bias f - fracBits f) := two_zpow_split (by ring)
    have hcless : (c : ℝ) * 2 ^ ((1 : ℤ) - bias f - fracBits f) < 2 ^ ((1 : ℤ) - bias f) := by
      rw [hsplit]
      exact mul_lt_mul_of_pos_right (Nat.cast_lt.mpr hc) (two_zpow_pos _)
    have := (zpow_lt_zpow_iff_right₀ (one_lt_two (α := ℝ))).mp (hcpos.trans_lt hcless)
    omega
  obtain ⟨j, hj, hX⟩ := expFraction_of_unit (s := s) (m := m) (hunit hi)
  have hj0 : 0 < j := by
    rcases Nat.eq_zero_or_pos j with rfl | h
    · exact absurd hX hfrac
    · exact h
  rw [hX] at hends heq
  rw [exp2_eq_twoRoot] at hends
  refine exp2_gap hj0 hj (c * 2 ^ ((1 : ℤ) - bias f - fracBits f - i + 22).toNat) ?_
  have hN : ((c * 2 ^ ((1 : ℤ) - bias f - fracBits f - i + 22).toNat : ℕ) : ℝ) / 2 ^ 22 = expLow (2 ^ 183 * j) / 2 ^ 256 := by
    have hpow : (2 : ℝ) ^ ((1 : ℤ) - bias f - fracBits f) = ((2 ^ ((1 : ℤ) - bias f - fracBits f - i + 22).toNat : ℕ) : ℝ) * 2 ^ (i - 22) :=
      two_zpow_split (by omega)
    have hlow : (2 : ℝ) ^ (i - 256) * 2 ^ 256 = 2 ^ (i - 22) * 2 ^ 22 := by
      rw [← zpow_natCast (2 : ℝ) 256, ← zpow_natCast (2 : ℝ) 22, ← two_zpow_add, ← two_zpow_add]
      congr 1
      push_cast
      ring
    rw [hpow, ← mul_assoc] at heq
    have hi0 := (two_zpow_pos (K := ℝ) (i - 22)).ne'
    rw [div_eq_div_iff (by positivity) (by positivity), Nat.cast_mul]
    refine mul_right_cancel₀ hi0 ?_
    linear_combination (2 : ℝ) ^ 256 * heq + expLow (2 ^ 183 * j) * hlow
  have h256 : (0 : ℝ) < 2 ^ 256 := by positivity
  have hε : (1 / 2 ^ 246 : ℝ) = 1024 / 2 ^ 256 := by norm_num
  rw [hN, hε, ← add_div, div_le_iff₀' h256, le_div_iff₀' h256]
  exact hends

/-! ### FEXP2 as a whole -/

theorem real_rat (f : FFmt) (x : ℕ) : (rat f x : ℝ) = (if negative f x then -1 else 1) * ((significand (FFmt.fmt f) x : ℝ) * 2 ^ unitExp (FFmt.fmt f) x) := by
  rw [← ratOf_fmt, ratOf_eq]
  split <;> push_cast <;> rfl

/-- An operand that FEXP2 takes as far out of range has a magnitude of at least 512. -/
theorem far_operand {m : ℕ} {e : ℤ} (hm : m ≠ 0) (h : 9 < e + bitLen m) : (512 : ℝ) ≤ m * 2 ^ e := by
  have hbinade := (binade_of_bitLen (K := ℝ) hm e).1
  calc (512 : ℝ) = 2 ^ (9 : ℤ) := by norm_num
    _ ≤ 2 ^ (e + bitLen m - 1) := two_zpow_le (by omega)
    _ ≤ m * 2 ^ e := hbinade

theorem fexp2E_nearest (hfin : finite f x = true) (hmag : magnitude f x ≠ 0)
    (hne : ∀ c, c < 2 ^ floatWidth f → finite f c = true → (rat f c : ℝ) ≠ (2 : ℝ) ^ (rat f x : ℝ))
    (h : fexp2E (fun _ => true) (FFmt.fmt f) x = fexp2E (fun _ => false) (FFmt.fmt f) x) (tie : ℕ → Bool) :
    FunctionResult f ((2 : ℝ) ^ (rat f x : ℝ)) (fexp2E tie (FFmt.fmt f) x) := by
  have hm0 := mt (significand_eq_zero_iff f x).mp hmag
  have hmlt := significand_lt f x
  have hunit := unitExp_ge f x
  have hval := real_rat f x
  have hrat := ratOf_fmt f x
  have heq := fexp2E_of_finite hfin hmag rfl rfl rfl
  have hpos : 0 < (2 : ℝ) ^ (rat f x : ℝ) := Real.rpow_pos_of_pos two_pos _
  generalize significand (FFmt.fmt f) x = m at *
  generalize unitExp (FFmt.fmt f) x = e at *
  generalize negative f x = s at *
  have he : -200 ≤ e := by
    have hformat : bias f + fracBits f ≤ 150 := by cases f <;> decide
    omega
  by_cases hbig : 9 < e + bitLen m
  · have hfar := far_operand hm0 hbig
    rw [(heq tie).1 hbig]
    cases s
    case false =>
      rw [if_neg Bool.false_ne_true, one_mul] at hval
      rw [if_neg Bool.false_ne_true, rne_large f (by norm_num)]
      refine functionResult_large ?_
      rw [← Real.rpow_intCast]
      exact Real.rpow_le_rpow_of_exponent_le one_le_two (by rw [hval]; exact_mod_cast hfar)
    case true =>
      rw [if_pos rfl, neg_one_mul] at hval
      rw [if_pos rfl, rne_small f (by norm_num)]
      refine functionResult_small hpos ?_
      rw [← Real.rpow_intCast]
      refine Real.rpow_le_rpow_of_exponent_le one_le_two ?_
      rw [hval]
      push_cast
      linarith
  · have hunits : (expUnits s m e : ℝ) = (rat f x : ℝ) * 2 ^ 200 := by rw [expUnits_value he, hrat]
    have hparts := exp2_parts hunits
    by_cases hfrac : expFraction (expUnits s m e) = 0
    · rw [(heq tie).2.1 hbig hfrac]
      refine functionResult_whole ?_ hne
      rw [hparts, hfrac, Nat.cast_zero, zero_div, Real.rpow_zero, mul_one]
    · simp only [(heq _).2.2 hbig hfrac] at h ⊢
      obtain ⟨hcode, hends⟩ := roundEnds_agree h
      have hlow0 : expLow (expFraction (expUnits s m e)) ≠ 0 := (lt_of_lt_of_le (Nat.two_pow_pos 256) (expLow_ge _)).ne'
      have hlow := roundsMag_fin f hlow0 (expWhole (expUnits s m e) - 256)
      have hhigh := roundsMag_fin f (Nat.add_one_ne_zero (expLow (expFraction (expUnits s m e)) + 1023)) (expWhole (expUnits s m e) - 256)
      have hbetween := exp2_ends (expParts (expUnits s m e)).2 (expWhole (expUnits s m e))
      rw [← hparts] at hbetween
      rw [hends tie]
      exact functionResult_of_ends hlow hhigh hcode (mul_pos (Nat.cast_pos.mpr (Nat.pos_of_ne_zero hlow0)) (two_zpow_pos _))
        (mul_pos (Nat.cast_pos.mpr (Nat.succ_pos _)) (two_zpow_pos _)) (.inl (by rw [abs_of_pos hpos]; exact hbetween))
        (decide_eq_false hpos.not_gt).symm (expLow_ne_subnormal hmlt he hfrac)

/-- A power of two with an integer as its exponent is exact where it is a value. -/
theorem fexp2E_integer (hfin : finite f x = true) (hmag : magnitude f x ≠ 0) {k : ℤ} {c : ℕ} (hk : rat f x = k) (hc : c < 2 ^ floatWidth f)
    (hcfin : finite f c = true) (hval : rat f c = (2 : ℚ) ^ k) (tie : ℕ → Bool) : fexp2E tie (FFmt.fmt f) x = (c, 0) := by
  obtain ⟨hlo, hhi⟩ := exponent_bounds hcfin hval
  have hformat : bias f + fracBits f ≤ 150 := by cases f <;> decide
  have hm0 := mt (significand_eq_zero_iff f x).mp hmag
  have hunit := unitExp_ge f x
  have heq := fexp2E_of_finite hfin hmag rfl rfl rfl tie
  have habs := abs_rat f x
  have hrat := ratOf_fmt f x
  generalize significand (FFmt.fmt f) x = m at *
  generalize unitExp (FFmt.fmt f) x = e at *
  generalize negative f x = s at *
  have he : -200 ≤ e := by omega
  have hbig : ¬ 9 < e + bitLen m := by
    intro hbig
    have hfar := far_operand hm0 hbig
    have hk' : |(k : ℝ)| = m * 2 ^ e := by
      have h := congrArg (Rat.cast (K := ℝ)) habs
      rw [hk] at h
      push_cast at h
      exact h
    have hint : (512 : ℤ) ≤ |k| := by
      rw [← hk', ← Int.cast_abs] at hfar
      exact_mod_cast hfar
    rcases abs_cases k with ⟨h, -⟩ | ⟨h, -⟩ <;> omega
  have hunits : expUnits s m e = k * (2 ^ 200 : ℕ) := by
    have h := expUnits_value (s := s) (m := m) he
    rw [hrat, hk, Rat.cast_intCast] at h
    refine Int.cast_injective (α := ℝ) ?_
    rw [h, Int.cast_mul, Int.cast_natCast, Nat.cast_pow, Nat.cast_ofNat]
  have hpos : (0 : ℤ) < ((2 ^ 200 : ℕ) : ℤ) := Int.natCast_pos.mpr (Nat.two_pow_pos 200)
  have hwhole : expWhole (expUnits s m e) = k := by rw [hunits, expWhole, Int.mul_ediv_cancel _ hpos.ne']
  have hfrac : expFraction (expUnits s m e) = 0 := by
    rw [hunits, expFraction, Int.mul_emod_left]
    rfl
  have hround := roundsMag_two_zpow f k
  have hcpos : 0 < rat f c := hval ▸ two_zpow_pos k
  have hneg : negative f c = false := by rw [negative_eq hcpos.ne', decide_eq_false hcpos.not_gt]
  have hmagval : (2 : ℝ) ^ k = magVal ℝ (FFmt.fmt f) (magnitude f c) := by
    have hmagQ : (2 : ℚ) ^ k = magVal ℚ (FFmt.fmt f) (magnitude f c) := by
      rw [← hval, rat_eq_valueOf, valueOf_eq, signOf_fmt, magOf_fmt, hneg, if_neg Bool.false_ne_true, one_mul]
    rw [← cast_magVal, ← hmagQ, Rat.cast_zpow, Rat.cast_ofNat]
  have htop : magnitude f c ≤ topCode (FFmt.fmt f) := by
    have h1 := topCode_fmt f
    have h2 : magnitude f c < infinity f := of_decide_eq_true hcfin
    omega
  rw [hmagval] at hround
  rw [heq.2.1 hbig hfrac, hwhole, roundsMag_exact htop hround, withSign_fmt, ← hneg, signed_magnitude hc]

end

/-- Settles O13: FLOG2 and FEXP2 enclose the real value in an interval whose ends, where they have one code, have the code nearest to the value. -/
theorem functionValues : Obligations.FunctionValues := by
  intro f x hx hfin hmag
  refine ⟨fun k c hk hc hcfin hval => fexp2E_integer hfin hmag hk hc hcfin hval _, fun k hk => flog2E_power hfin hmag hk _, fun q hq => ?_⟩
  rcases List.mem_pair.mp hq with rfl | rfl
  · exact fun hne h => fexp2E_nearest hfin hmag hne h _
  · exact fun hcond h => flog2E_nearest hfin hmag hcond.1 hcond.2 h _

end Sys2Proof.Proofs
end

