-- ==== Sys2Proof/Proofs/IssueFrames.lean ====
section
/-! SUPPORT. What an issue and a trap leave alone (R109, R110, R328 to R330): what the tokens that a slot sends change of the firings of its element, and what
a trap makes of an element that holds one. -/

namespace Sys2Proof.Proofs

open Sys2Proof Sys2Proof.Machine Sys2Proof.Claims Sys2Proof.Laws

/-! ### Sending tokens -/

/-- A firing is that of the slot under a cursor. -/
abbrev OwnFiring (c : Cursor) (g : Firing) : Prop := g.no = c.no ∧ g.epi = c.epi

/-- A change of firings that gives tokens alone: to slots and to output places of the cursor's own firing (R110). -/
structure GivesTokens (c : Cursor) (F : Firing → Firing) : Prop where
  other : ∀ g, ¬ OwnFiring c g → F g = g
  no : ∀ g, (F g).no = g.no
  epi : ∀ g, (F g).epi = g.epi
  assigned : ∀ g, (F g).assigned = g.assigned
  owed : ∀ g, (F g).owed = g.owed
  issued : ∀ g, (F g).slots.map (·.issued) = g.slots.map (·.issued)

theorem GivesTokens.id (c : Cursor) : GivesTokens c fun g => g :=
  ⟨fun _ _ => rfl, fun _ => rfl, fun _ => rfl, fun _ => rfl, fun _ => rfl, fun _ => rfl⟩

theorem GivesTokens.comp {c : Cursor} {F G : Firing → Firing} (hG : GivesTokens c G) (hF : GivesTokens c F) : GivesTokens c (G ∘ F) where
  other g h := by rw [Function.comp_apply, hF.other g h, hG.other g h]
  no g := (hG.no _).trans (hF.no g)
  epi g := (hG.epi _).trans (hF.epi g)
  assigned g := (hG.assigned _).trans (hF.assigned g)
  owed g := (hG.owed _).trans (hF.owed g)
  issued g := (hG.issued _).trans (hF.issued g)

/-- A change of the cursor's own firing that gives tokens alone there. -/
theorem GivesTokens.ofOwn {c : Cursor} {f : Firing → Firing} (hno : ∀ g, (f g).no = g.no) (hepi : ∀ g, (f g).epi = g.epi)
    (hassigned : ∀ g, (f g).assigned = g.assigned) (howed : ∀ g, (f g).owed = g.owed)
    (hissued : ∀ g, (f g).slots.map (·.issued) = g.slots.map (·.issued)) :
    GivesTokens c fun g => if g.no = c.no ∧ g.epi = c.epi then f g else g where
  other g h := if_neg h
  no g := by split <;> simp [hno]
  epi g := by split <;> simp [hepi]
  assigned g := by split <;> simp [hassigned]
  owed g := by split <;> simp [howed]
  issued g := by split <;> simp [hissued]

@[simp] theorem issued_give (sl : Slot) (q : Port) (o : Opnd) : (sl.give q o).issued = sl.issued := by cases q <;> rfl

theorem map_modAt_of_keeps {α β : Type} (get : α → β) (xs : List α) (i : Nat) {f : α → α} (hf : ∀ x, get (f x) = get x) :
    (modAt xs i f).map get = xs.map get := by
  induction xs generalizing i with
  | nil => rfl
  | cons x xs ih => cases i <;> simp [modAt, hf, ih]

theorem send_gives (x : Elem) (c : Cursor) (k : Nat) (a : Tgt) (t : Token) (due : Nat) :
    ∃ F, GivesTokens c F ∧ x.send c k a t due = { x with firings := x.firings.map F } := by
  have hnone : x = { x with firings := x.firings.map fun g => g } := by rw [List.map_id']
  cases a with
  | slot d q =>
    have hissued (g : Firing) := map_modAt_of_keeps (·.issued) g.slots d.toNat fun sl => issued_give sl q ⟨t, due⟩
    exact ⟨_, .ofOwn (f := fun g => { g with slots := modAt g.slots d.toNat fun sl => sl.give q ⟨t, due⟩ })
      (fun _ => rfl) (fun _ => rfl) (fun _ => rfl) (fun _ => rfl) hissued, rfl⟩
  | out o =>
    exact ⟨_, .ofOwn (f := fun g => { g with held := g.held ++ [⟨⟨o.toNat, c.slot, k⟩, t, due, x.accNext⟩] })
      (fun _ => rfl) (fun _ => rfl) (fun _ => rfl) (fun _ => rfl) (fun _ => rfl), rfl⟩
  | done => exact ⟨_, .id c, hnone⟩
  | none => exact ⟨_, .id c, hnone⟩

theorem sendAll_gives (x : Elem) (c : Cursor) (due : Nat) (outs : List (Nat × Tgt × Token)) :
    ∃ F, GivesTokens c F ∧ x.sendAll c due outs = { x with firings := x.firings.map F } := by
  induction outs generalizing x with
  | nil => exact ⟨_, .id c, by rw [List.map_id']; rfl⟩
  | cons o outs ih =>
    obtain ⟨k, a, t⟩ := o
    obtain ⟨F, hF, hsend⟩ := send_gives x c k a t due
    obtain ⟨G, hG, hrest⟩ := ih (x.send c k a t due)
    refine ⟨G ∘ F, hG.comp hF, ?_⟩
    rw [Elem.sendAll, hrest, hsend, List.map_map]

/-! ### Issuing -/

/-- A firing with a slot of the cursor marked as issued (R11). -/
def markedFiring (c : Cursor) (g : Firing) : Firing :=
  if g.no = c.no ∧ g.epi = c.epi then { g with slots := modAt g.slots c.slot fun sl => { sl with issued := true } } else g

theorem markedFiring_other {c : Cursor} {g : Firing} (h : ¬ OwnFiring c g) : markedFiring c g = g := if_neg h

theorem markedFiring_keeps (c : Cursor) (g : Firing) : (markedFiring c g).no = g.no ∧ (markedFiring c g).epi = g.epi ∧
    (markedFiring c g).assigned = g.assigned ∧ (markedFiring c g).owed = g.owed := by
  unfold markedFiring
  split <;> exact ⟨rfl, rfl, rfl, rfl⟩

theorem markedFiring_issued (c : Cursor) (g : Firing) (j : Nat) :
    ((markedFiring c g).slots.map (·.issued))[j]? =
      g.slots[j]?.map fun u => u.issued || (decide (OwnFiring c g) && j == c.slot) := by
  unfold markedFiring
  split
  case isFalse h => simp [h]
  case isTrue h =>
    by_cases hj : j = c.slot
    · simp [h, hj, getElem?_modAt_same, Function.comp_def]
    · simp [beq_false_of_ne hj, getElem?_modAt_other _ _ _ _ (Ne.symm hj)]

/-- Issuing changes the firings alone: the slot is marked, and tokens are given. -/
theorem issue_gives (y : Elem) (c : Cursor) (lat : Nat) (outs : List (Nat × Tgt × Token)) :
    ∃ F, GivesTokens c F ∧ y.issue c lat outs = { y with firings := y.firings.map (F ∘ markedFiring c) } := by
  obtain ⟨F, hF, h⟩ := sendAll_gives (y.markIssued c) c (y.icyc + lat) outs
  refine ⟨F, hF, ?_⟩
  rw [Elem.issue, h, ← List.map_map]
  rfl

/-- What an issue makes of one firing (R109, R110). -/
structure FiringIssued (c : Cursor) (g g' : Firing) : Prop where
  no : g'.no = g.no
  epi : g'.epi = g.epi
  assigned : g'.assigned = g.assigned
  owed : g'.owed = g.owed
  length : g'.slots.length = g.slots.length
  other : ¬ OwnFiring c g → g' = g
  issued : ∀ (j : Nat) (u u' : Slot), g.slots[j]? = some u → g'.slots[j]? = some u' →
    u'.issued = (u.issued || (decide (OwnFiring c g) && j == c.slot))

theorem firingIssued_of_gives {c : Cursor} {F : Firing → Firing} (hF : GivesTokens c F) (g : Firing) : FiringIssued c g (F (markedFiring c g)) := by
  obtain ⟨hno, hepi, hassigned, howed⟩ := markedFiring_keeps c g
  have hissued (j : Nat) : ((F (markedFiring c g)).slots.map (·.issued))[j]? =
      g.slots[j]?.map fun u => u.issued || (decide (OwnFiring c g) && j == c.slot) := by rw [hF.issued, markedFiring_issued]
  have hother (h : ¬ OwnFiring c g) : F (markedFiring c g) = g := by rw [markedFiring_other h, hF.other g h]
  refine ⟨(hF.no _).trans hno, (hF.epi _).trans hepi, (hF.assigned _).trans hassigned, (hF.owed _).trans howed, ?_, hother,
    fun j u u' hu hu' => ?_⟩
  · have hlen := congrArg List.length (hF.issued (markedFiring c g))
    rw [List.length_map, List.length_map] at hlen
    rw [hlen]
    unfold markedFiring
    split <;> simp
  · have hj := hissued j
    rw [List.getElem?_map, hu, hu'] at hj
    exact Option.some.inj hj

/-! ### Traps -/

/-- An element that traps stops; of two traps that it then holds one stands in its fault register and one beside it (R328 to R330). -/
theorem trap_holds (x : Elem) (f : FaultReg) : { x.trap f with fault := x.fault, more := x.more, stopped := x.stopped } = x ∧
    (x.trap f).stopped = true ∧ (x.fault = none → (x.trap f).fault = some f ∧ (x.trap f).more = x.more) ∧
    ∀ g, x.fault = some g → ((x.trap f).fault = some g ∧ (x.trap f).more = x.more ++ [f]) ∨
      ((x.trap f).fault = some f ∧ (x.trap f).more = x.more ++ [g]) := by
  unfold Elem.trap
  split
  case h_1 h => exact ⟨rfl, rfl, fun _ => ⟨rfl, rfl⟩, fun g hg => by simp [h] at hg⟩
  case h_2 g h =>
    split
    · refine ⟨rfl, rfl, fun hn => by simp [h] at hn, fun g' hg => .inr ⟨rfl, ?_⟩⟩
      rw [h] at hg
      rw [Option.some.inj hg]
    · exact ⟨rfl, rfl, fun hn => by simp [h] at hn, fun g' hg => .inl ⟨hg, rfl⟩⟩

/-! ### The statement -/

/-- Settles O29: issuing is a map over the firings of one element, and a trap changes three fields of it. -/
theorem issueAndTrapFrames : Obligations.IssueAndTrapFrames := by
  refine ⟨fun s t i y lat outs hissue hexec => ?issue, fun s t i x cls cause addr detail hx hraise hexec => ?trap⟩
  case issue =>
    obtain rfl : s.setElem s.cur.e (y.issue s.cur lat outs) = t := Host.Outcome.next.inj (hissue.symm.trans hexec)
    refine ⟨rfl, rfl, rfl, rfl, rfl, rfl, rfl, fun _ => rfl, fun d hd => elem_setElem_other _ _ _ _ hd, _, elem_setElem_same _ _ _, ?_⟩
    obtain ⟨F, hF, hy⟩ := issue_gives y s.cur lat outs
    rw [hy]
    refine ⟨rfl, List.length_map _, fun k g g' hg hg' => ?_⟩
    obtain rfl : F (markedFiring s.cur g) = g' := by simpa [hg] using hg'
    have h := firingIssued_of_gives hF g
    exact ⟨h.no, h.epi, h.assigned, h.owed, h.length, h.other, h.issued⟩
  case trap =>
    obtain rfl : s.raise s.cur cls cause addr detail = t := Host.Outcome.next.inj (hraise.symm.trans hexec)
    obtain ⟨hsame, hstop, hfirst, hsecond⟩ :=
      trap_holds x { slotFault x s.cur s.cycle cls cause addr detail with pol := (s.part x.l.n).faultPol }
    refine ⟨by simp, by simp, by simp, fun d hd => elem_raise_other _ _ _ _ _ _ _ hd, _, _, raise_elem _ _ _ _ _ _ _ hx, hsame, hstop,
      ⟨rfl, rfl, rfl, rfl, rfl, rfl, rfl, rfl, rfl, rfl⟩, hfirst, hsecond⟩

end Sys2Proof.Proofs
end

