-- ==== Sys2Proof/Proofs/Accesses.lean ====
section
/-! SUPPORT. ACCESS_PERFORMED and FILL_ARRIVAL (R105, R255, R271, R273, R364): the attempt to perform an access whose turn has come, and data that is due. -/

namespace Sys2Proof.Proofs

open Sys2Proof Sys2Proof.Machine Sys2Proof.Claims Sys2Proof.Laws

/-! ### The events -/

/-- ACCESS_PERFORMED of an access whose turn has come ends the attempt that it makes. -/
theorem exec_accessPerformed {s : State} {x : Elem} {e k : Nat} {a : Access} (he : s.elem? e = some x)
    (ha : x.acc.find? (fun b => b.id == k) = some a) :
    exec (.accessPerformed e k) s = if s.accTurn e x a then .next (State.accEnd e a (accDo a e x.l.n s)) else .next s := by
  simp only [exec, execAccessPerformed, he, ha]

/-- FILL_ARRIVAL writes the register, and takes the data off its way, once the data is due. -/
theorem exec_fillArrival {s : State} {x : Elem} {e v : Nat} {f : Fill} (he : s.elem? e = some x)
    (hf : x.fills.find? (fun b => b.v == v) = some f) :
    exec (.fillArrival e v) s =
      if x.icyc < f.due then .next s else .next (s.setElem e { x.setReg v ⟨.full, f.data⟩ with fills := x.fills.erase f }) := by
  simp only [exec, execFillArrival, he, hf]

/-! ### The statement -/

/-- Settles O21: the attempt ends as its result says, by its three kinds; data is written once it is due. -/
theorem accessesPerformed : Obligations.AccessesPerformed := by
  intro s x e k a he ha
  rw [exec_accessPerformed he ha]
  refine ⟨fun hturn => ⟨fun z fl u h => ?ok, fun w u h => ?wait, fun z u h => ?stop⟩, fun hturn => ?early, fun v f hf => ?fill⟩
  case ok | wait | stop => rw [if_pos hturn, h, State.accEnd]
  case early => rw [hturn, if_neg Bool.false_ne_true]
  case fill =>
    rw [exec_fillArrival he hf]
    exact ⟨fun h => if_pos h, fun h => if_neg (Nat.not_lt.mpr h)⟩

end Sys2Proof.Proofs
end

