-- ==== Sys2Proof/Proofs/LaunchesComplete.lean ====
section
/-! SUPPORT. LAUNCH_COMPLETE (R104, R225, R264, R347): what giving back the pages of a launch, taking it out of its partition and completing its entry leave of the
partitions, of the elements and of memory. -/

namespace Sys2Proof.Proofs

open Sys2Proof Sys2Proof.Machine Sys2Proof.Claims Sys2Proof.Laws

/-! ### Slices cleared (R264) -/

/-- A state is another but for memory and the pages. -/
def SameButMemory (s t : State) : Prop := ∃ m ps, t = { s with mem := m, pages := ps }

theorem SameButMemory.refl (s : State) : SameButMemory s s := ⟨s.mem, s.pages, rfl⟩

theorem SameButMemory.trans {s t u : State} (h : SameButMemory s t) (h' : SameButMemory t u) : SameButMemory s u := by
  obtain ⟨m, ps, rfl⟩ := h
  obtain ⟨m', ps', rfl⟩ := h'
  exact ⟨m', ps', rfl⟩

/-- Steps that change memory and pages alone change memory and pages alone, one after another. -/
theorem SameButMemory.foldl {α : Type} {f : State → α → State} (hf : ∀ t a, SameButMemory t (f t a)) (as : List α) (s : State) :
    SameButMemory s (as.foldl f s) := by
  induction as generalizing s with
  | nil => exact .refl s
  | cons a as ih => exact (hf s a).trans (ih (f s a))

theorem memSetLine_sameButMemory (s : State) (n line : Nat) (d : BitVec 1024) : SameButMemory s (s.memSetLine n line d) := by
  obtain ⟨m, h⟩ := memSetLine_eq s n line d
  exact ⟨m, s.pages, h⟩

theorem writeBack_sameButMemory (s : State) (n page : Nat) (l : Line) : SameButMemory s (s.writeBack n page l) := by
  unfold State.writeBack
  split
  · exact (memSetLine_sameButMemory s n l.line l.data).trans ⟨_, _, rfl⟩
  · exact .refl s

theorem clearSlice_sameButMemory (s : State) (n page : Nat) (who : Option LaunchRef) (own : Bool) :
    SameButMemory s (s.clearSlice n page who own) := by
  unfold State.clearSlice
  refine (SameButMemory.foldl (fun t l => writeBack_sameButMemory t n page l) _ s).trans
    ((SameButMemory.foldl (fun t v => ?_) _ _).trans ⟨_, _, rfl⟩)
  split
  · exact memSetLine_sameButMemory t n v.line _
  · exact .refl t

/-! ### Pages given back and the launch taken out (R104, R332) -/

/-- Giving back the pages of a launch takes its elements and, of its partition, pins alone. -/
theorem freePages_eq (s : State) (l : Launch) : ∃ m ps, s.freePages l =
    ({ s with mem := m, pages := ps, elems := s.elems.filter fun q => q.2.l != l.ref } : State).modPart l.ref.n (·.unpin l.pages) := by
  obtain ⟨m, ps, h⟩ := SameButMemory.foldl (fun t k => clearSlice_sameButMemory t l.ref.n k (some l.ref) (l.pages.contains k))
    (s.part l.ref.n).pageList s
  refine ⟨m, ps, ?_⟩
  unfold State.freePages
  dsimp only
  rw [h]

/-! ### What the launch unit counts of a partition -/

/-- Of partition `n`: its launches, QSEQ, and the interrupts of vector 0; with how many partitions there are. -/
def completionView (n : Nat) (s : State) : Nat × List Launch × List Word × Option Nat :=
  (s.parts.length, (s.part n).launches, (s.part n).qseq, (s.part n).msi.head?)

/-- A change of what the part's power allows raises vector 3 alone (R428). -/
theorem completionView_setPower (n : Nat) (s : State) (f : Mgmt → Mgmt) : completionView n (s.setPower f) = completionView n s := by
  have hhead (xs : List Nat) : (modAt xs 3 (· + 1)).head? = xs.head? := by cases xs <;> rfl
  have hmsi : ((s.setPower f).part n).msi.head? = (s.part n).msi.head? := by
    unfold State.setPower
    dsimp only
    split
    · rfl
    · simp only [State.part, List.getD_eq_getElem?_getD, List.getElem?_map]
      cases s.parts[n]? with
      | none => rfl
      | some p =>
        simp only [Option.map_some, Option.getD_some]
        split
        · exact hhead _
        · rfl
  have hrest := part_setPower_keeps (fun p => (p.launches, p.qseq)) s f n fun _ _ => rfl
  obtain ⟨hlaunches, hqseq⟩ := Prod.mk.inj hrest
  rw [completionView, setPower_parts_length, hlaunches, hqseq, hmsi, completionView]

theorem completionView_idleQueue (n m : Nat) (s : State) (q : Nat) : completionView n (s.idleQueue m q) = completionView n s := by
  refine idleQueue_keeps (completionView n) s m q ?_ (completionView_setPower n)
  have hpart := part_modPart_keeps (fun p => (p.launches, p.qseq, p.msi.head?)) (f := fun p => { p with counted := setAt p.counted q none })
    s m n fun _ => rfl
  rw [completionView, completionView, State_modPart_parts, modAt_length]
  exact congrArg (Prod.mk _) hpart

/-! ### The launch taken out (R332) -/

theorem dropLaunch_elems (s : State) (l : Launch) : (s.dropLaunch l).elems = s.elems.filter fun q => q.2.l != l.ref := by
  obtain ⟨m, ps, h⟩ := freePages_eq s l
  unfold State.dropLaunch
  dsimp only
  rw [idleQueue_elems, h]
  rfl

theorem completionView_dropLaunch {s : State} {l : Launch} (hn : l.ref.n < s.parts.length) :
    completionView l.ref.n (s.dropLaunch l) = (s.parts.length, (s.part l.ref.n).launches.filter fun x => x.ref != l.ref,
      (s.part l.ref.n).qseq, (s.part l.ref.n).msi.head?) := by
  have hview (t : State) (f : Part → Part) (ht : t.parts = s.parts) :
      completionView l.ref.n ((t.modPart l.ref.n (·.unpin l.pages)).modPart l.ref.n f) =
        (s.parts.length, (f ((s.part l.ref.n).unpin l.pages)).launches, (f ((s.part l.ref.n).unpin l.pages)).qseq,
          (f ((s.part l.ref.n).unpin l.pages)).msi.head?) := by
    have hpart : t.part l.ref.n = s.part l.ref.n := by rw [State.part, ht, State.part]
    rw [completionView, part_modPart_same _ (by simpa [ht] using hn), part_modPart_same _ (by rwa [ht]), hpart]
    simp [ht]
  obtain ⟨m, ps, h⟩ := freePages_eq s l
  unfold State.dropLaunch
  dsimp only
  rw [completionView_idleQueue, h]
  exact hview _ _ rfl

/-! ### The end of an entry (R225) -/

/-- An entry that completes advances QSEQ of its queue and sends vector 0. -/
theorem completeEntry_part_eq {s : State} {n : Nat} (q : Nat) (at_ : Option Nat) (load stage : Nat) (h : n < s.parts.length) :
    (s.completeEntry n q at_ load stage).part n =
      { s.part n with qseq := modAt (s.part n).qseq q (· + 1), msi := modAt (s.part n).msi 0 (· + 1) } := by
  have hwrite (t : State) (ht : t.parts = s.parts) : ((t.modPart n fun p => { p with qseq := modAt p.qseq q (· + 1) }).msi n 0).part n =
      { s.part n with qseq := modAt (s.part n).qseq q (· + 1), msi := modAt (s.part n).msi 0 (· + 1) } := by
    have hp : t.part n = s.part n := by rw [State.part, ht, State.part]
    rw [State.msi, part_modPart_same _ (by simpa [ht] using h), part_modPart_same _ (by rwa [ht]), hp]
  unfold State.completeEntry
  cases at_ with
  | none => exact hwrite s rfl
  | some a => exact hwrite _ (by simp)

theorem completeEntry_mem_none (s : State) (n q load stage : Nat) : (s.completeEntry n q none load stage).mem = s.mem := by
  simp only [State.completeEntry, State.msi, State_modPart_mem]

theorem completeEntry_mem_some (s : State) (n q a load stage : Nat) :
    (s.completeEntry n q (some a) load stage).mem = ((s.ioPut n (a + 48) load).ioPut n (a + 56) stage).mem := by
  simp only [State.completeEntry, State.msi, State_modPart_mem]

/-- The interrupts of vector 0 after one more, where the vectors are as long as they were. -/
theorem getD_modAt_zero_of_head? {xs ys : List Nat} (h : xs.head? = ys.head?) :
    (modAt xs 0 (· + 1)).getD 0 0 = if ys = [] then 0 else ys.getD 0 0 + 1 := by
  cases xs <;> cases ys <;> simp_all [modAt]

/-! ### LAUNCH_COMPLETE (R225, R347) -/

theorem mem_of_mem_indexed {α : Type} {k : Nat} {xs : List α} {p : Nat × α} (h : p ∈ indexed k xs) : p.2 ∈ xs := by
  induction xs generalizing k with
  | nil => exact absurd h (List.not_mem_nil)
  | cons x xs ih =>
    rcases List.mem_cons.1 h with rfl | h
    · exact List.mem_cons_self
    · exact List.mem_cons_of_mem _ (ih h)

/-- Steps of which each leaves a state alone leave it alone. -/
theorem foldl_eq_self {α β : Type} {f : α → β → α} {a : α} {bs : List β} (h : ∀ b ∈ bs, f a b = a) : bs.foldl f a = a := by
  induction bs with
  | nil => rfl
  | cons b bs ih =>
    rw [List.foldl_cons, h b List.mem_cons_self]
    exact ih fun c hc => h c (List.mem_cons_of_mem _ hc)

/-- A launch with no wavefront under way ends none (R223). -/
theorem endWaves_of_no_wave {s : State} {l : Launch} {code : Nat} (h : ∀ g ∈ l.regions, g.wave = none) : s.endWaves l code = s := by
  refine foldl_eq_self fun ⟨j, g⟩ hp => ?_
  have hg : g.wave = none := h g (mem_of_mem_indexed hp)
  dsimp only
  rw [hg]

theorem no_wave_of_quiet {s : State} {l : Launch} (h : s.quietLaunch l = true) : ∀ g ∈ l.regions, g.wave = none := by
  intro g hg
  simp only [State.quietLaunch, Bool.and_eq_true, List.all_eq_true] at h
  obtain ⟨⟨-, hregions⟩, -⟩ := h
  obtain ⟨⟨⟨-, hwave⟩, -⟩, -⟩ := hregions g hg
  exact Option.isNone_iff_eq_none.1 hwave

theorem exec_launchComplete {s : State} {l : LaunchRef} {x : Launch} (hx : s.launch? l = some x) :
    exec (.launchComplete l) s = if s.quietLaunch x || (x.halting && s.halted x) then .next (s.endLaunch l 0 0) else .next s := by
  simp only [exec, execLaunchComplete, hx]

/-- A launch with no wavefront under way ends by being taken out and its entry completed (R225). -/
theorem endLaunch_of_no_wave {s : State} {l : LaunchRef} {x : Launch} (hx : s.launch? l = some x) (h : ∀ g ∈ x.regions, g.wave = none)
    (load stage : Nat) : s.endLaunch l load stage = (s.dropLaunch x).completeEntry l.n l.q x.place load stage := by
  simp only [State.endLaunch, hx, endWaves_of_no_wave h]

theorem find?_filter_ref_ne (ls : List Launch) (l : LaunchRef) : (ls.filter fun x => x.ref != l).find? (fun x => x.ref == l) = none := by
  rw [List.find?_eq_none]
  intro x hx
  simpa using (List.mem_filter.1 hx).2

/-- Settles O49: the guard of the event is the statement's, and the launch is taken out of its partition before its entry completes. -/
theorem launchesComplete : Obligations.LaunchesComplete := by
  intro s l x hx hl hn
  subst hl
  rw [exec_launchComplete hx]
  refine ⟨fun hq hh => by simp [hq, hh], fun hends hq => ?_⟩
  have hwave : ∀ g ∈ x.regions, g.wave = none := hends.elim no_wave_of_quiet fun h => h.2.2
  have hguard : (s.quietLaunch x || (x.halting && s.halted x)) = true := by
    rcases hends with h | ⟨hhalting, hhalted, -⟩
    · simp [h]
    · simp [hhalting, hhalted]
  have hview := completionView_dropLaunch hn
  simp only [completionView, Prod.mk.injEq] at hview
  obtain ⟨hlength, hlaunches, hqseq, hmsi⟩ := hview
  have hpart := completeEntry_part_eq x.ref.q x.place 0 0 (hlength.symm ▸ hn : x.ref.n < (s.dropLaunch x).parts.length)
  refine ⟨(s.dropLaunch x).completeEntry x.ref.n x.ref.q x.place 0 0, ?exec, ?gone, ?elems, ?qseq, ?msi, ?device, ?host⟩
  case exec => rw [if_pos hguard, endLaunch_of_no_wave hx hwave]
  case gone =>
    rw [State.launch?, hpart, hlaunches]
    exact find?_filter_ref_ne _ _
  case elems =>
    intro q hq
    rw [completeEntry_elems, dropLaunch_elems] at hq
    simpa using (List.mem_filter.1 hq).2
  case qseq =>
    rw [hpart, hqseq]
    exact getD_modAt_same _ _ hq
  case msi =>
    rw [hpart]
    exact getD_modAt_zero_of_head? hmsi
  case device =>
    intro hd
    rw [Launch.place, if_pos hd, completeEntry_mem_none]
  case host =>
    intro hd
    rw [Launch.place, hd, if_neg Bool.false_ne_true, completeEntry_mem_some]

end Sys2Proof.Proofs
end

