-- ==== Sys2Proof/Proofs/RegisterAccess.lean ====
section
/-! SUPPORT. GET, GETX, PUT, PUTX, REMPTY and RFULL (R105, R129): what reading and writing a register of the active set does, by its state. -/

namespace Sys2Proof.Proofs

open Sys2Proof Sys2Proof.Machine Sys2Proof.Claims Sys2Proof.Laws

theorem doneTok_eq (tag : Option (BitVec 16)) : doneTok tag = dataTok 1 tag := by
  rw [doneTok, lane0_eq, BitVec.setWidth_ofNat_one_eq_ofNat_one_of_lt (by decide)]
  rfl

/-- The register that an index at L names (R129). -/
theorem indexed_register (n : BitVec 8) (p : Payload) : n.toNat + elAt 32 p 0 = n.toNat + (el 32 p 0).toNat := by rw [elAt_eq]

/-! ### The instructions that name a register -/

theorem exec_get (p : Pm) (n : BitVec 8) (src : Bool) (a : Tgt) (s : State) : exec (.get p n src a) s = run (.get p n src a)
    (fun _ x r => if x.regs ≤ n.toNat then regIllegal else getAct (.get p n src a) src x n.toNat r.tag) s := rfl

theorem exec_getx (p : Pm) (n : BitVec 8) (src : Bool) (a : Tgt) (s : State) : exec (.getx p n src a) s = run (.getx p n src a)
    (fun _ x r => if x.regs ≤ n.toNat + elAt 32 r.l.data 0 then regBounds (n.toNat + elAt 32 r.l.data 0)
      else getAct (.getx p n src a) src x (n.toNat + elAt 32 r.l.data 0) r.tag) s := rfl

theorem exec_put (p : Pm) (n : BitVec 8) (a : Tgt) (s : State) : exec (.put p n a) s = run (.put p n a)
    (fun _ x r => if x.regs ≤ n.toNat then regIllegal else putAct (.put p n a) x n.toNat r.l.data r.tag) s := rfl

theorem exec_putx (p : Pm) (n : BitVec 8) (a : Tgt) (s : State) : exec (.putx p n a) s = run (.putx p n a)
    (fun _ x r => if x.regs ≤ n.toNat + elAt 32 r.l.data 0 then regBounds (n.toNat + elAt 32 r.l.data 0)
      else putAct (.putx p n a) x (n.toNat + elAt 32 r.l.data 0) r.r.data r.tag) s := rfl

/-! ### What they do -/

section
variable {s : State} {i : Instr} {x : Elem} {r : Args} {f : Cursor → Elem → Args → Act} {k : Nat}

/-- An instruction that reads register `k` emits it, waits for it, or traps, by the state of the register. -/
theorem reads_register {src : Bool} (hexec : exec i s = run i f s) (h : gate s i = .go x r) (hf : f s.cur x r = getAct i src x k r.tag) :
    ((x.regAt k).st = .full → Emits i s x 1 (dataTok (x.regAt k).data r.tag)) ∧
    ((x.regAt k).st = .pending → src = false → exec i s = .next s) ∧
    ((x.regAt k).st = .pending → src = true → Raises i s 3 0 (BitVec.ofNat 64 k) 0) ∧
    ((x.regAt k).st = .empty → Raises i s 3 0 (BitVec.ofNat 64 k) 0) := by
  refine ⟨fun hst => ?full, fun hst hsrc => ?wait, fun hst hsrc => ?pending, fun hst => ?empty⟩
  case full => exact hexec.trans (run_issues h (by rw [hf, getAct, hst]))
  case wait => exact hexec.trans (run_waits h (by rw [hf, getAct, hst, hsrc]; rfl))
  case pending => exact hexec.trans (run_raises h (by rw [hf, getAct, hst, hsrc]; rfl))
  case empty => exact hexec.trans (run_raises h (by rw [hf, getAct, hst]; rfl))

/-- An instruction that writes register `k` makes it full, once no fill is outstanding (R107, R129). -/
theorem writes_register {d : Payload} (hexec : exec i s = run i f s) (h : gate s i = .go x r) (hf : f s.cur x r = putAct i x k d r.tag) :
    ((x.regAt k).st ≠ .pending → Emits i s (x.setReg k ⟨.full, d⟩) 1 (dataTok 1 r.tag)) ∧
    ((x.regAt k).st = .pending → exec i s = .next s) := by
  refine ⟨fun hst => ?free, fun hst => ?pending⟩
  case free => exact hexec.trans (run_issues h (by rw [hf, putAct, if_neg hst, doneTok_eq]))
  case pending => exact hexec.trans (run_waits h (by rw [hf, putAct, if_pos hst]))

end

section
variable {s : State} {x : Elem} {r : Args} {p : Pm} {n : BitVec 8} {a : Tgt}

theorem rempty_emits (h : gate s (.rempty p n a) = .go x r) (hn : n.toNat < x.regs) (hst : (x.regAt n.toNat).st ≠ .pending) :
    Emits (.rempty p n a) s (x.setReg n.toNat ⟨.empty, (x.regAt n.toNat).data⟩) 1 (condTok ((x.regAt n.toNat).st == .full) r.tag) := by
  rw [Emits, Issues, exec, execRempty]
  refine run_issues h ?_
  rw [if_neg (Nat.not_le.mpr hn)]
  cases hreg : (x.regAt n.toNat).st with
  | pending => exact absurd hreg hst
  | full | empty => rfl

theorem rfull_emits (h : gate s (.rfull p n a) = .go x r) (hn : n.toNat < x.regs) :
    Emits (.rfull p n a) s x 1 (condTok ((x.regAt n.toNat).st == .full) r.tag) := by
  rw [Emits, Issues, exec, execRfull]
  exact run_issues h (if_neg (Nat.not_le.mpr hn))

end

/-- Settles O9: each reads or writes the register that it names, by the register's state; an index beyond the grant traps. -/
theorem registerAccess : Obligations.RegisterAccess := by
  refine ⟨fun s x r p n src a => ?reads, fun s x r p n src a => ⟨?writes, rempty_emits, rfull_emits, ?bounds⟩⟩
  case reads =>
    simp only [List.forall_mem_cons, List.not_mem_nil, false_implies, implies_true, and_true]
    refine ⟨fun h hn => reads_register (exec_get p n src a s) h (if_neg (Nat.not_le.mpr hn)), fun h hn => ?_⟩
    rw [← indexed_register] at hn ⊢
    exact reads_register (exec_getx p n src a s) h (if_neg (Nat.not_le.mpr hn))
  case writes =>
    simp only [List.forall_mem_cons, List.not_mem_nil, false_implies, implies_true, and_true]
    refine ⟨fun h hn => writes_register (exec_put p n a s) h (if_neg (Nat.not_le.mpr hn)), fun h hn => ?_⟩
    rw [← indexed_register] at hn ⊢
    exact writes_register (exec_putx p n a s) h (if_neg (Nat.not_le.mpr hn))
  case bounds =>
    simp only [List.forall_mem_cons, List.not_mem_nil, false_implies, implies_true, and_true, ← indexed_register]
    exact ⟨fun h hn => (exec_getx p n src a s).trans (run_raises h (if_pos hn)),
      fun h hn => (exec_putx p n a s).trans (run_raises h (if_pos hn))⟩

end Sys2Proof.Proofs
end

