-- ==== Sys2Proof/Proofs/IntegerElements.lean ====
section
/-! SUPPORT. The elements of the integer instructions (R116 to R121): each function of the model on numbers is, of the numbers of two bit vectors of any width, the
number of what the statements write on bit vectors. -/

namespace Sys2Proof.Proofs

open Sys2Proof Sys2Proof.Machine Sys2Proof.Claims Sys2Proof.Laws

/-! ### Numbers and bit vectors -/

theorem ofNat_mod_two_pow (w n : ℕ) : BitVec.ofNat w (n % 2 ^ w) = BitVec.ofNat w n := by
  rw [← BitVec.toNat_inj, BitVec.toNat_ofNat, BitVec.toNat_ofNat, Nat.mod_mod]

theorem ofNat_self {w : ℕ} (x : BitVec w) : BitVec.ofNat w x.toNat = x := by rw [BitVec.ofNat_toNat, BitVec.setWidth_eq]

section
variable {w : ℕ} (u : Bool) (x y z : BitVec w)

/-! ### Sums and products (R116, R118) -/

theorem ofNat_add_mod : BitVec.ofNat w ((x.toNat + y.toNat) % 2 ^ w) = x + y := by
  rw [ofNat_mod_two_pow, BitVec.ofNat_add, ofNat_self, ofNat_self]

theorem ofNat_sub_mod : BitVec.ofNat w ((x.toNat + 2 ^ w - y.toNat) % 2 ^ w) = x - y := by
  have hy : y.toNat ≤ 2 ^ w := y.isLt.le
  rw [← BitVec.toNat_inj, BitVec.toNat_ofNat, BitVec.toNat_sub, Nat.mod_mod, Nat.add_sub_assoc hy, Nat.add_comm]

theorem ofNat_mul_mod : BitVec.ofNat w (x.toNat * y.toNat % 2 ^ w) = x * y := by
  rw [ofNat_mod_two_pow, BitVec.ofNat_mul, ofNat_self, ofNat_self]

theorem ofNat_mad_mod : BitVec.ofNat w ((x.toNat * y.toNat + z.toNat) % 2 ^ w) = x * y + z := by
  rw [ofNat_mod_two_pow, BitVec.ofNat_add, BitVec.ofNat_mul, ofNat_self, ofNat_self, ofNat_self]

theorem ofNat_mulhE : BitVec.ofNat w (mulhE u w x.toNat y.toNat) = BitVec.ofInt w (num u x * num u y / 2 ^ w) := by
  rw [mulhE, ofNat_wrap, rd_eq_num, rd_eq_num, Nat.cast_pow, Nat.cast_ofNat]

theorem ofNat_neg_mod : BitVec.ofNat w ((2 ^ w - x.toNat) % 2 ^ w) = -x := by
  rw [← BitVec.toNat_inj, BitVec.toNat_ofNat, BitVec.toNat_neg, Nat.mod_mod]

/-! ### Bits of two elements (R116) -/

theorem ofNat_and_toNat : BitVec.ofNat w (x.toNat &&& y.toNat) = x &&& y := by rw [BitVec.ofNat_and, ofNat_self, ofNat_self]

theorem ofNat_or_toNat : BitVec.ofNat w (x.toNat ||| y.toNat) = x ||| y := by rw [BitVec.ofNat_or, ofNat_self, ofNat_self]

theorem ofNat_xor_toNat : BitVec.ofNat w (x.toNat ^^^ y.toNat) = x ^^^ y := by rw [BitVec.ofNat_xor, ofNat_self, ofNat_self]

theorem ofNat_andn : BitVec.ofNat w (x.toNat &&& (2 ^ w - 1 - y.toNat)) = x &&& ~~~y := by
  rw [← BitVec.toNat_not, ofNat_and_toNat]

/-! ### Shifts and rotations (R116) -/

theorem ofNat_mul_two_pow (k : ℕ) : BitVec.ofNat w (x.toNat * 2 ^ k) = x <<< k := by
  rw [← BitVec.toNat_inj, BitVec.toNat_ofNat, BitVec.toNat_shiftLeft, Nat.shiftLeft_eq]

theorem ofNat_shlE (b : ℕ) : BitVec.ofNat w (shlE w x.toNat b) = x <<< (b % w) := by
  rw [shlE, ofNat_mod_two_pow, ofNat_mul_two_pow]

theorem toNat_div_two_pow (k : ℕ) : x.toNat / 2 ^ k = (x >>> k).toNat := by rw [BitVec.toNat_ushiftRight, Nat.shiftRight_eq_div_pow]

theorem ofNat_shrE (b : ℕ) : BitVec.ofNat w (shrE w x.toNat b) = x >>> (b % w) := by rw [shrE, toNat_div_two_pow, ofNat_self]

theorem ofNat_sraE (b : ℕ) : BitVec.ofNat w (sraE w x.toNat b) = x.sshiftRight (b % w) := by
  rw [sraE, ofNat_wrap, sgn_toNat, BitVec.sshiftRight_eq, Int.shiftRight_eq_div_pow]

/-- A rotation puts the bits that leave at the top below those that stay: the sum of the two is their join. -/
theorem ofNat_rolE (b : ℕ) : BitVec.ofNat w (rolE w x.toNat b) = x.rotateLeft (b % w) := by
  rcases Nat.eq_zero_or_pos w with rfl | hw
  · exact Subsingleton.elim _ _
  generalize hk : b % w = k
  have hkw : k < w := hk ▸ Nat.mod_lt _ hw
  have hsplit : 2 ^ w = 2 ^ k * 2 ^ (w - k) := by rw [← Nat.pow_add, Nat.add_sub_of_le hkw.le]
  have hlow : x.toNat / 2 ^ (w - k) < 2 ^ k := by
    rw [Nat.div_lt_iff_lt_mul (Nat.two_pow_pos _), ← hsplit]
    exact x.isLt
  have hhigh : x.toNat * 2 ^ k % 2 ^ w = 2 ^ k * (x.toNat % 2 ^ (w - k)) := by
    rw [Nat.mul_comm, hsplit, Nat.mul_mod_mul_left]
  have hsum : 2 ^ k * (x.toNat % 2 ^ (w - k)) + x.toNat / 2 ^ (w - k) < 2 ^ w := by
    have hstay : x.toNat % 2 ^ (w - k) + 1 ≤ 2 ^ (w - k) := Nat.mod_lt _ (Nat.two_pow_pos _)
    calc _ < 2 ^ k * (x.toNat % 2 ^ (w - k)) + 2 ^ k := Nat.add_lt_add_left hlow _
      _ = 2 ^ k * (x.toNat % 2 ^ (w - k) + 1) := rfl
      _ ≤ 2 ^ w := hsplit ▸ Nat.mul_le_mul_left _ hstay
  rw [rolE, hk, ← Nat.mod_add_mod, hhigh, Nat.mod_eq_of_lt hsum, ← BitVec.toNat_inj, BitVec.toNat_ofNat, Nat.mod_eq_of_lt hsum,
    BitVec.toNat_rotateLeft, Nat.mod_eq_of_lt hkw, Nat.shiftLeft_eq, Nat.shiftRight_eq_div_pow, hhigh, Nat.two_pow_add_eq_or_of_lt hlow]

/-! ### MIN, MAX and ABS (R116, R119) -/

theorem ofNat_minE : BitVec.ofNat w (minE u w x.toNat y.toNat) = if num u x ≤ num u y then x else y := by
  rw [minE, rd_eq_num, rd_eq_num, apply_ite (BitVec.ofNat w), ofNat_self, ofNat_self]

theorem ofNat_maxE : BitVec.ofNat w (maxE u w x.toNat y.toNat) = if num u x ≤ num u y then y else x := by
  rw [maxE, rd_eq_num, rd_eq_num, apply_ite (BitVec.ofNat w), ofNat_self, ofNat_self]

theorem ofNat_absE : BitVec.ofNat w (absE u w x.toNat) = if u then x else if x.msb then -x else x := by
  have hsign : x.msb = true ↔ x.toInt < 0 := by rw [BitVec.msb_eq_toInt, decide_eq_true_iff]
  rw [absE, apply_ite (BitVec.ofNat w), ofNat_self, ofNat_wrap, sgn_toNat]
  congr 1
  by_cases h : x.toInt < 0
  · rw [if_pos (hsign.2 h), Int.ofNat_natAbs_of_nonpos h.le, BitVec.ofInt_neg, BitVec.ofInt_toInt]
  · rw [if_neg (hsign.not.2 h), Int.natAbs_of_nonneg (not_lt.1 h), BitVec.ofInt_toInt]

/-! ### Counts and reversal (R119) -/

theorem popCount_eq_filter (n m : ℕ) : popCount n m = ((List.range n).filter fun k => m.testBit k).length := by
  induction n generalizing m with
  | zero => rfl
  | succ n ih =>
    have hshift : (fun k => m.testBit k) ∘ Nat.succ = fun k => (m / 2).testBit k := funext fun k => Nat.testBit_succ m k
    rw [popCount, ih, List.range_succ_eq_map, List.filter_cons, List.filter_map, hshift, Nat.testBit_zero]
    rcases Nat.mod_two_eq_zero_or_one m with h | h <;> simp [h, Nat.add_comm]

theorem ofNat_popCount :
    BitVec.ofNat w (popCount w x.toNat) = BitVec.ofNat w ((List.range w).filter fun k => x.getLsbD k).length := by
  rw [popCount_eq_filter]
  rfl

theorem revBits_lt (n m : ℕ) : revBits n m < 2 ^ n := by
  induction n generalizing m with
  | zero => exact Nat.one_pos
  | succ n ih =>
    have hbit : m % 2 ≤ 1 := Nat.lt_succ_iff.1 (Nat.mod_lt m Nat.two_pos)
    calc m % 2 * 2 ^ n + revBits n (m / 2) < m % 2 * 2 ^ n + 2 ^ n := Nat.add_lt_add_left (ih _) _
      _ ≤ 1 * 2 ^ n + 2 ^ n := Nat.add_le_add_right (Nat.mul_le_mul_right _ hbit) _
      _ = 2 ^ (n + 1) := by rw [Nat.pow_succ]; omega

theorem testBit_revBits (n m i : ℕ) (hi : i < n) : (revBits n m).testBit i = m.testBit (n - 1 - i) := by
  induction n generalizing m with
  | zero => exact absurd hi (Nat.not_lt_zero i)
  | succ n ih =>
    rw [revBits, Nat.mul_comm, Nat.testBit_two_pow_mul_add _ (revBits_lt n _)]
    rcases Nat.lt_succ_iff_lt_or_eq.1 hi with h | rfl
    · have hplace : n + 1 - 1 - i = n - 1 - i + 1 := by omega
      rw [if_pos h, ih _ h, hplace, Nat.testBit_succ]
    · have hplace : i + 1 - 1 - i = 0 := by omega
      rw [if_neg (lt_irrefl i), hplace, Nat.sub_self, Nat.testBit_zero, Nat.testBit_zero, Nat.mod_mod]

theorem ofNat_revBits : BitVec.ofNat w (revBits w x.toNat) = x.reverse := by
  refine BitVec.eq_of_getLsbD_eq fun i hi => ?_
  rw [BitVec.getLsbD_ofNat, testBit_revBits _ _ _ hi, BitVec.getLsbD_reverse, BitVec.getMsbD_eq_getLsbD]
  rfl

theorem bitLen_le : bitLen x.toNat ≤ w := by
  unfold bitLen
  split
  · exact Nat.zero_le w
  · next h => exact (Nat.log2_lt h).2 x.isLt

theorem lt_two_pow_bitLen (n : ℕ) : n < 2 ^ bitLen n := by
  unfold bitLen
  split
  · next h => rw [h]; exact Nat.one_pos
  · exact Nat.lt_log2_self

theorem testBit_bitLen_pred {n : ℕ} (h : 0 < bitLen n) : n.testBit (bitLen n - 1) = true := by
  unfold bitLen at h ⊢
  split at h
  · exact absurd h (lt_irrefl 0)
  · next hn => rw [if_neg hn]; exact Nat.testBit_log2 hn

/-- The leading zeros of an element end at its highest one bit. -/
theorem takeWhile_getMsbD : ((List.range w).takeWhile fun k => !x.getMsbD k).length = w - bitLen x.toNat := by
  have hle := bitLen_le x
  have hsplit : List.range w = List.range ((w - bitLen x.toNat) + bitLen x.toNat) := by rw [Nat.sub_add_cancel hle]
  have hzeros : ∀ k ∈ List.range (w - bitLen x.toNat), (!x.getMsbD k) = true := by
    intro k hk
    have hkw : k < w - bitLen x.toNat := List.mem_range.1 hk
    have hbit : x.toNat.testBit (w - 1 - k) = false :=
      Nat.testBit_lt_two_pow ((lt_two_pow_bitLen _).trans_le (Nat.pow_le_pow_right Nat.two_pos (by omega)))
    rw [BitVec.getMsbD_eq_getLsbD, BitVec.getLsbD, hbit, Bool.and_false, Bool.not_false]
  rw [hsplit, List.range_add, List.takeWhile_append_of_pos hzeros, List.length_append, List.length_range]
  rcases hb : bitLen x.toNat with _ | b
  · rfl
  · have hone : x.getMsbD (w - (b + 1)) = true := by
      have htop : x.toNat.testBit b = true := by simpa [hb] using testBit_bitLen_pred (n := x.toNat) (by omega)
      have hplace : w - 1 - (w - (b + 1)) = b := by omega
      rw [BitVec.getMsbD_eq_getLsbD, BitVec.getLsbD, hplace, htop, Bool.and_true, decide_eq_true_iff]
      omega
    rw [List.range_succ_eq_map, List.map_cons, List.takeWhile_cons, if_neg (by rw [Nat.add_zero, hone]; exact Bool.false_ne_true)]
    rfl

theorem ofNat_clz : BitVec.ofNat w (w - bitLen x.toNat) = BitVec.ofNat w (((List.range w).takeWhile fun k => !x.getMsbD k).length) := by
  rw [takeWhile_getMsbD]

/-! ### Bit fields (R120) -/

theorem ofNat_bfxE : BitVec.ofNat w (bfxE u w x.toNat y.toNat) = bitField u w x y := by
  have hfield : x.toNat / 2 ^ ctlPos y.toNat % 2 ^ ctlLen w y.toNat = ((x >>> ctlPos y.toNat).setWidth (ctlLen w y.toNat)).toNat := by
    rw [BitVec.toNat_setWidth, toNat_div_two_pow]
  have hmin : ctlLen w y.toNat = Nat.min (y.toNat / 256 % 64) w := rfl
  unfold bfxE bitField
  dsimp only
  rw [hfield, ← hmin, ← ctlPos]
  generalize (x >>> ctlPos y.toNat).setWidth (ctlLen w y.toNat) = f
  cases u with
  | true => simp [BitVec.ofNat_toNat]
  | false =>
    by_cases hlen : ctlLen w y.toNat = 0
    · have hempty : ∀ g : BitVec (ctlLen w y.toNat), g = 0#_ := by
        rw [hlen]
        exact fun g => Subsingleton.elim _ _
      have hzero : (0#(ctlLen w y.toNat)).signExtend w = 0#w := by
        rw [← BitVec.toInt_inj, BitVec.toInt_signExtend]
        simp
      rw [hempty f, hzero]
      simp [hlen]
    · simp only [Bool.false_or, decide_eq_true_iff, hlen, if_false, Bool.false_eq_true]
      rw [sgn_toNat, wrap_toInt, ofNat_self]

theorem toNat_fieldMask {len : ℕ} (pos : ℕ) (h : len ≤ w) :
    ((BitVec.allOnes w >>> (w - len)) <<< pos).toNat = (2 ^ len - 1) * 2 ^ pos % 2 ^ w := by
  have hones : (2 ^ w - 1) / 2 ^ (w - len) = 2 ^ len - 1 := by
    have hw : 2 ^ w = 2 ^ (w - len) * 2 ^ len := by rw [← Nat.pow_add, Nat.sub_add_cancel h]
    rw [hw, Nat.mul_sub_div 0 _ _ (Nat.mul_pos (Nat.two_pow_pos _) (Nat.two_pow_pos _)), Nat.zero_div]
  rw [BitVec.toNat_shiftLeft, BitVec.toNat_ushiftRight, BitVec.toNat_allOnes, Nat.shiftRight_eq_div_pow, Nat.shiftLeft_eq, hones]

theorem ofNat_bfiE : BitVec.ofNat w (bfiE w x.toNat y.toNat z.toNat) = bitInsert w x y z := by
  have hlen : ctlLen w z.toNat ≤ w := Nat.min_le_right _ _
  rw [bfiE, ← toNat_fieldMask _ hlen, ← BitVec.toNat_not, BitVec.ofNat_or, BitVec.ofNat_and, BitVec.ofNat_and, ofNat_self, ofNat_self,
    ofNat_self, ofNat_mul_two_pow]
  rfl

/-! ### Division (R117) -/

theorem ofNat_divE : BitVec.ofNat w (divE u w x.toNat y.toNat) = quotient u w x y := by
  have hzero : y.toNat = 0 ↔ y = 0 := BitVec.toNat_inj (x := y) (y := 0#w)
  unfold divE quotient
  by_cases hy : y = 0
  · rw [if_pos hy, if_pos (hzero.2 hy), ← BitVec.toNat_allOnes, ofNat_self]
  · rw [if_neg hy, if_neg (hzero.not.2 hy), ofNat_wrap, rd_eq_num, rd_eq_num]
    cases u with
    | true =>
      rw [if_pos rfl, num, num, if_pos rfl, if_pos rfl, ← Int.ofNat_tdiv, BitVec.ofInt_natCast, ← BitVec.toNat_udiv, ofNat_self]
    | false =>
      rw [if_neg Bool.false_ne_true, ← BitVec.toInt_inj, BitVec.toInt_ofInt, BitVec.toInt_sdiv]
      rfl

theorem ofNat_remE : BitVec.ofNat w (remE u w x.toNat y.toNat) = remainder u w x y := by
  have hzero : y.toNat = 0 ↔ y = 0 := BitVec.toNat_inj (x := y) (y := 0#w)
  unfold remE remainder
  by_cases hy : y = 0
  · rw [if_pos hy, if_pos (hzero.2 hy), ofNat_self]
  · rw [if_neg hy, if_neg (hzero.not.2 hy), ofNat_wrap, rd_eq_num, rd_eq_num]
    cases u with
    | true =>
      rw [if_pos rfl, num, num, if_pos rfl, if_pos rfl, ← Int.ofNat_tmod, BitVec.ofInt_natCast, ← BitVec.toNat_umod, ofNat_self]
    | false =>
      have hsigned : num false x = x.toInt ∧ num false y = y.toInt := ⟨rfl, rfl⟩
      rw [if_neg Bool.false_ne_true, hsigned.1, hsigned.2, ← BitVec.toInt_srem, BitVec.ofInt_toInt]

/-! ### Saturation (R121) -/

theorem ofNat_satE (o : Bool) : BitVec.ofNat w (satE o u w x.toNat y.toNat).1 = (saturated o u w x y).1 ∧
    (satE o u w x.toNat y.toNat).2 = (saturated o u w x y).2 := by
  unfold satE saturated clamp
  dsimp only
  rw [rd_eq_num, rd_eq_num, intLo_eq_lowest, intHi_eq_highest]
  generalize (if o then num u x - num u y else num u x + num u y) = n
  by_cases hlow : n < lowest u w
  · rw [if_pos hlow, if_pos hlow]
    exact ⟨ofNat_wrap _ _, rfl⟩
  · rw [if_neg hlow, if_neg hlow]
    by_cases hhigh : highest u w < n
    · rw [if_pos hhigh, if_pos hhigh]
      exact ⟨ofNat_wrap _ _, rfl⟩
    · rw [if_neg hhigh, if_neg hhigh]
      exact ⟨ofNat_wrap _ _, rfl⟩

end

end Sys2Proof.Proofs
end

