-- ==== Sys2Proof/Proofs/IntegerInstructions.lean ====
section
/-! SUPPORT. ADD to ROL, MIN to BFI, DIV, REM and SAT (R112, R114 to R121): the payload of an element-wise instruction, the divider, and the flag of SAT. -/

namespace Sys2Proof.Proofs

open Sys2Proof Sys2Proof.Machine Sys2Proof.Claims Sys2Proof.Laws

/-! ### Payloads by shape (R44, R114) -/

theorem shapeDims_eq (sh : Shape) : Shape.dims sh = (count sh, width sh) := by cases sh <;> rfl

/-- A payload built from as many numbers as the shape has elements holds them, and zeros behind them. -/
theorem holds_ofEls (sh : Shape) (f : ℕ → ℕ) :
    Holds (count sh) (width sh) (ofEls (width sh) ((List.range (count sh)).map f)) fun j => BitVec.ofNat (width sh) (f j) := by
  have hfits : width sh * ((List.range (count sh)).map f).length ≤ 512 := by
    rw [List.length_map, List.length_range]
    cases sh <;> decide
  constructor
  · intro j hj
    rw [el, extract_ofEls _ _ _ hfits, getD_map_range f _ j 0 hj]
  · intro k hk
    exact ofEls_high _ _ _ (by rwa [List.length_map, List.length_range, Nat.mul_comm])

theorem mapShape_eq (sh : Shape) (f : ℕ → ℕ → ℕ → ℕ → ℕ) (r : Args) : mapShape sh f r = ofEls (width sh) ((List.range (count sh)).map fun j =>
    f (width sh) (elAt (width sh) r.l.data j) (elAt (width sh) r.r.data j) (elAt (width sh) r.t.data j)) := by
  rw [mapShape, shapeDims_eq]

/-- A function on the numbers of elements is one on the elements: the payload that it gives is lane by lane the other's. -/
theorem lanewise_mapShape {f : ℕ → ℕ → ℕ → ℕ → ℕ} {g : (w : ℕ) → BitVec w → BitVec w → BitVec w → BitVec w} (sh : Shape) (r : Args)
    (hfg : ∀ (w : ℕ) (x y z : BitVec w), BitVec.ofNat w (f w x.toNat y.toNat z.toNat) = g w x y z) : Lanewise sh g r (mapShape sh f r) := by
  rw [mapShape_eq, Lanewise]
  have h := holds_ofEls sh fun j => f (width sh) (elAt (width sh) r.l.data j) (elAt (width sh) r.r.data j) (elAt (width sh) r.t.data j)
  simpa only [elAt_eq, hfg] using h

section
variable {s : State} {i : Instr} {x : Elem} {r : Args} {sh : Shape}

theorem intOp_computes {lat : ℕ} {f : ℕ → ℕ → ℕ → ℕ → ℕ} {g : (w : ℕ) → BitVec w → BitVec w → BitVec w → BitVec w}
    (hexec : exec i s = intOp i sh lat f s)
    (hfg : ∀ (w : ℕ) (x y z : BitVec w), BitVec.ofNat w (f w x.toNat y.toNat z.toNat) = g w x y z) (h : gate s i = .go x r) :
    ∃ d, Computes i s x r lat d 0 ∧ Lanewise sh g r d :=
  ⟨_, computes_of_go hexec h, lanewise_mapShape sh r hfg⟩

/-! ### The divider (R109, R112, R117) -/

theorem divOp_issues {f : ℕ → ℕ → ℕ → ℕ} {g : (w : ℕ) → BitVec w → BitVec w → BitVec w}
    (hexec : exec i s = divOp i sh f s) (hfg : ∀ (w : ℕ) (x y : BitVec w), BitVec.ofNat w (f w x.toNat y.toNat) = g w x y)
    (h : gate s i = .go x r) : ∃ d, Issues i s { x with divFree := x.icyc + divLatency sh } (divLatency sh) (toAll i (dataTok d r.tag)) ∧
      Lanewise sh (fun w v y _ => g w v y) r d :=
  ⟨_, hexec.trans (run_issues h rfl), lanewise_mapShape sh r fun w x y _ => hfg w x y⟩

theorem divOp_waits {f : ℕ → ℕ → ℕ → ℕ} (hexec : exec i s = divOp i sh f s) (hx : s.elem? s.cur.e = some x)
    (hunit : x.unitFree i = decide (x.divFree ≤ x.icyc)) (hbusy : x.icyc < x.divFree) : exec i s = .next s := by
  have hwait : gate s i = .wait := gate_wait_of_unit hx (hunit.trans (decide_eq_false (Nat.not_le.mpr hbusy)))
  rw [hexec, divOp, run, hwait]

end

/-! ### SAT (R121) -/

/-- The elements of SAT, each clamped or not. -/
def satElems (o u : Bool) (sh : Shape) (r : Args) : List (ℕ × Bool) :=
  (List.range (count sh)).map fun j => satE o u (width sh) (elAt (width sh) r.l.data j) (elAt (width sh) r.r.data j)

theorem exec_sat (p : Pm) (sh : Shape) (o u : Bool) (a b : Tgt) (s : State) : exec (.sat p sh o u a b) s = compute (.sat p sh o u a b) 1
    (fun r => (ofEls (width sh) ((satElems o u sh r).map (·.1)), if (satElems o u sh r).any (·.2) then fST else 0)) s := by
  cases sh <;> rfl

theorem lanewise_sat (o u : Bool) (sh : Shape) (r : Args) :
    Lanewise sh (fun w v y _ => (saturated o u w v y).1) r (ofEls (width sh) ((satElems o u sh r).map (·.1))) := by
  have h := holds_ofEls sh fun j => (satE o u (width sh) (elAt (width sh) r.l.data j) (elAt (width sh) r.r.data j)).1
  rw [Lanewise, satElems, List.map_map]
  simpa only [elAt_eq, (ofNat_satE u _ _ o).1, Function.comp_def] using h

theorem any_clamped_iff (o u : Bool) (sh : Shape) (r : Args) : (satElems o u sh r).any (·.2) = true ↔
    ∃ j, j < count sh ∧ (saturated o u (width sh) (el _ r.l.data j) (el _ r.r.data j)).2 = true := by
  simp only [satElems, List.any_map, List.any_eq_true, List.mem_range, Function.comp_apply, elAt_eq, (ofNat_satE u _ _ o).2]

theorem sat_computes {s : State} {x : Elem} {r : Args} {p : Pm} {sh : Shape} {o u : Bool} {a b : Tgt} (h : gate s (.sat p sh o u a b) = .go x r) :
    ∃ d fl, Computes (.sat p sh o u a b) s x r 1 d fl ∧ Lanewise sh (fun w v y _ => (saturated o u w v y).1) r d ∧
      fl = if ∃ j, j < count sh ∧ (saturated o u (width sh) (el _ r.l.data j) (el _ r.r.data j)).2 = true then 32 else 0 :=
  ⟨_, _, computes_of_go (exec_sat p sh o u a b s) h, lanewise_sat o u sh r, if_congr (any_clamped_iff o u sh r) rfl rfl⟩

/-! ### The statement -/

/-- The instructions of the table of one result cycle or three (R116, R118, R119). -/
theorem integerTable_computes {s : State} {x : Elem} {r : Args} (p : Pm) (sh : Shape) (u : Bool) (a b : Tgt) :
    ∀ q ∈ integerTable p sh u a b, gate s q.1 = .go x r → ∃ d, Computes q.1 s x r q.2.1 d 0 ∧ Lanewise sh q.2.2 r d := by
  simp only [integerTable, List.forall_mem_cons, List.not_mem_nil, false_implies, implies_true, and_true]
  exact ⟨intOp_computes rfl fun _ x y _ => ofNat_add_mod x y,
    intOp_computes rfl fun _ x y _ => ofNat_sub_mod x y,
    intOp_computes rfl fun _ x y _ => ofNat_mul_mod x y,
    intOp_computes rfl fun _ x y _ => ofNat_mulhE u x y,
    intOp_computes rfl fun _ x y z => ofNat_mad_mod x y z,
    intOp_computes rfl fun _ x y _ => ofNat_and_toNat x y,
    intOp_computes rfl fun _ x y _ => ofNat_or_toNat x y,
    intOp_computes rfl fun _ x y _ => ofNat_xor_toNat x y,
    intOp_computes rfl fun _ x y _ => ofNat_andn x y,
    intOp_computes rfl fun _ x y _ => ofNat_shlE x y.toNat,
    intOp_computes rfl fun _ x y _ => ofNat_shrE x y.toNat,
    intOp_computes rfl fun _ x y _ => ofNat_sraE x y.toNat,
    intOp_computes rfl fun _ x y _ => ofNat_rolE x y.toNat,
    intOp_computes rfl fun _ x y _ => ofNat_minE u x y,
    intOp_computes rfl fun _ x y _ => ofNat_maxE u x y,
    intOp_computes rfl fun _ x _ _ => ofNat_absE u x,
    intOp_computes rfl fun _ x _ _ => ofNat_neg_mod x⟩

/-- CLZ, POPC and BREV (R119). -/
theorem bitTable_computes {s : State} {x : Elem} {r : Args} (p : Pm) (sh : Shape) (u : Bool) (a b : Tgt) :
    ∀ q ∈ bitTable p sh u a b, gate s q.1 = .go x r → ∃ d, Computes q.1 s x r 1 d 0 ∧ Lanewise sh (fun w v _ _ => q.2 w v) r d := by
  simp only [bitTable, List.forall_mem_cons, List.not_mem_nil, false_implies, implies_true, and_true]
  exact ⟨intOp_computes rfl fun _ x _ _ => ofNat_clz x,
    intOp_computes rfl fun _ x _ _ => ofNat_popCount x,
    intOp_computes rfl fun _ x _ _ => ofNat_revBits x⟩

/-- Settles O6: each instruction is a function of the numbers of elements, which is the statement's of the elements themselves. -/
theorem integerInstructions : Obligations.IntegerInstructions := by
  refine ⟨fun s x r p sh u a b => integerTable_computes p sh u a b,
    ⟨fun s x r p sh u a b => ⟨bitTable_computes p sh u a b, ?bfx, ?bfi⟩, fun s x r p sh u a b => ?division⟩,
    fun s x r p sh o u a b => sat_computes⟩
  case bfx => exact intOp_computes rfl fun _ x y _ => ofNat_bfxE u x y
  case bfi => exact intOp_computes rfl fun _ x y z => ofNat_bfiE x y z
  case division =>
    simp only [List.forall_mem_cons, List.not_mem_nil, false_implies, implies_true, and_true]
    exact ⟨⟨divOp_issues rfl fun _ x y => ofNat_divE u x y, fun hx => divOp_waits rfl hx rfl⟩,
      divOp_issues rfl fun _ x y => ofNat_remE u x y, fun hx => divOp_waits rfl hx rfl⟩

end Sys2Proof.Proofs
end

