-- ==== Sys2Proof/Proofs/AddressesAndImmediates.lean ====
section
/-! SUPPORT. ADDR, AOFF and AIDX (R126), the immediate instructions (R127) and LITW (R128): address tokens of their parts, and lanes as functions of the lanes
of L. -/

namespace Sys2Proof.Proofs

open Sys2Proof Sys2Proof.Machine Sys2Proof.Claims Sys2Proof.Laws

/-! ### Address tokens (R126, R236) -/

/-- The token that the model puts together of two numbers is the address of the bit vectors that they stand for. -/
theorem scalar64_addrTok (tid : ℕ) (off : ℤ) : scalar64 (addrTok tid off) = address (BitVec.ofNat 16 tid) (BitVec.ofInt 48 off) := by
  have hparts : BitVec.ofNat 64 (addrTok tid off) = BitVec.ofNat 16 tid ++ BitVec.ofInt 48 off := by
    have hoff : wrap 48 off = (BitVec.ofInt 48 off).toNat := wrap_eq 48 off
    have hjoin : addrTok tid off = (BitVec.ofNat 16 tid ++ BitVec.ofInt 48 off).toNat := by
      rw [addrTok, hoff, BitVec.toNat_append, ← Nat.shiftLeft_add_eq_or_of_lt (BitVec.isLt _), Nat.shiftLeft_eq, BitVec.toNat_ofNat]
    rw [hjoin, ofNat_self]
  rw [scalar64_eq, hparts, address]

section
variable (p : Payload)

theorem ofNat_elAt_low (w v : ℕ) (h : w ≤ v) : BitVec.ofNat w (elAt v p 0) = p.setWidth w := by
  rw [elAt_eq, BitVec.ofNat_toNat]
  refine BitVec.eq_of_toNat_eq ?_
  rw [BitVec.toNat_setWidth, BitVec.extractLsb'_toNat, BitVec.toNat_setWidth, Nat.mul_zero, Nat.shiftRight_zero,
    Nat.mod_mod_of_dvd _ (Nat.pow_dvd_pow 2 h)]

theorem ofNat_tidOf : BitVec.ofNat 16 (tidOf (elAt 64 p 0)) = tidAt p := by
  refine BitVec.eq_of_toNat_eq ?_
  rw [tidOf, ofNat_mod_two_pow, BitVec.toNat_ofNat, tidAt, BitVec.extractLsb'_toNat, elAt]
  omega

theorem offOf_eq : offOf (elAt 64 p 0) = (offAt p).toNat := by
  rw [offOf, offAt, BitVec.extractLsb'_toNat, elAt, Nat.mul_zero, Nat.shiftRight_zero, Nat.pow_zero, Nat.div_one]
  exact Nat.mod_mod_of_dvd _ (Nat.pow_dvd_pow 2 (by decide))

/-- A signed 64-bit step, modulo 2^48. -/
theorem ofInt_sgn_elAt : BitVec.ofInt 48 (sgn 64 (elAt 64 p 0)) = (el 64 p 0).setWidth 48 := by
  rw [elAt_eq, sgn_toNat, ← BitVec.signExtend_eq_setWidth_of_le _ (by decide), BitVec.signExtend]

theorem rd_elAt (u : Bool) : rd u 64 (elAt 64 p 0) = num u (el 64 p 0) := by rw [elAt_eq, rd_eq_num]

end

theorem exec_addr (p : Pm) (u : Bool) (a b : Tgt) (s : State) : exec (.addr p u a b) s = compute (.addr p u a b) 1
    (fun r => (scalar64 (addrTok (elAt 32 r.l.data 0) (elAt 64 r.r.data 0)), 0)) s := rfl

theorem exec_aoff (p : Pm) (u : Bool) (a b : Tgt) (s : State) : exec (.aoff p u a b) s = compute (.aoff p u a b) 1
    (fun r => (scalar64 (addrTok (tidOf (elAt 64 r.l.data 0)) (offOf (elAt 64 r.l.data 0) + sgn 64 (elAt 64 r.r.data 0))), 0)) s := rfl

theorem exec_aidx (p : Pm) (u : Bool) (a b : Tgt) (s : State) : exec (.aidx p u a b) s = compute (.aidx p u a b) 1
    (fun r => (scalar64 (addrTok (tidOf (elAt 64 r.l.data 0))
      (offOf (elAt 64 r.l.data 0) + rd u 64 (elAt 64 r.r.data 0) * elAt 32 r.t.data 0)), 0)) s := rfl

section
variable {s : State} {x : Elem} {r : Args} {p : Pm} {u : Bool} {a b : Tgt}

theorem addr_computes (h : gate s (.addr p u a b) = .go x r) :
    Computes (.addr p u a b) s x r 1 (address (r.l.data.setWidth 16) (r.r.data.setWidth 48)) 0 := by
  have hrun := computes_of_go (exec_addr p u a b s) h
  dsimp only at hrun
  rwa [scalar64_addrTok, BitVec.ofInt_natCast, ofNat_elAt_low _ _ _ (by decide), ofNat_elAt_low _ _ _ (by decide)] at hrun

theorem aoff_computes (h : gate s (.aoff p u a b) = .go x r) :
    Computes (.aoff p u a b) s x r 1 (address (tidAt r.l.data) (offAt r.l.data + (el 64 r.r.data 0).setWidth 48)) 0 := by
  have hrun := computes_of_go (exec_aoff p u a b s) h
  dsimp only at hrun
  rwa [scalar64_addrTok, ofNat_tidOf, BitVec.ofInt_add, BitVec.ofInt_natCast, offOf_eq, ofNat_self, ofInt_sgn_elAt] at hrun

theorem aidx_computes (h : gate s (.aidx p u a b) = .go x r) : Computes (.aidx p u a b) s x r 1 (address (tidAt r.l.data)
    (BitVec.ofInt 48 (((offAt r.l.data).toNat : ℤ) + num u (el 64 r.r.data 0) * ((el 32 r.t.data 0).toNat : ℤ)))) 0 := by
  have hrun := computes_of_go (exec_aidx p u a b s) h
  dsimp only at hrun
  rwa [scalar64_addrTok, ofNat_tidOf, offOf_eq, rd_elAt, elAt_eq 32] at hrun

end

/-! ### Immediates (R127, R128) -/

/-- A function of the numbers of the 16 lanes of L is one of the lanes themselves. -/
theorem immOp_computes {s : State} {i : Instr} {x : Elem} {r : Args} {lat : ℕ} {f : ℕ → ℕ} {g : BitVec 32 → BitVec 32}
    (hexec : exec i s = immOp i lat f s) (hfg : ∀ v : BitVec 32, BitVec.ofNat 32 (f v.toNat) = g v) (h : gate s i = .go x r) :
    ∃ d, Computes i s x r lat d 0 ∧ Holds 16 32 d fun j => g (el 32 r.l.data j) := by
  refine ⟨_, computes_of_go hexec h, ?_⟩
  have hlanes := holds_lanes fun j => f (elAt 32 r.l.data j)
  simp only [elAt_eq, hfg] at hlanes
  simpa only [elsOf, List.map_map, Function.comp_def, elAt_eq] using hlanes

section
variable (v : BitVec 32) (i : BitVec 13) (n : BitVec 5)

theorem sx13_eq : sx13 i = (i.signExtend 32).toNat := by rw [sx13, sgn_toNat, wrap_toInt]

theorem toNat_zeroExtended : i.toNat = (i.setWidth 32).toNat := (BitVec.toNat_setWidth_of_le (by decide)).symm

theorem shift_mod : n.toNat % 32 = n.toNat := Nat.mod_eq_of_lt n.isLt

theorem ofNat_addi : BitVec.ofNat 32 ((v.toNat + sx13 i) % 2 ^ 32) = v + i.signExtend 32 := by rw [sx13_eq, ofNat_add_mod]

theorem ofNat_muli : BitVec.ofNat 32 (v.toNat * sx13 i % 2 ^ 32) = v * i.signExtend 32 := by rw [sx13_eq, ofNat_mul_mod]

theorem ofNat_movi : BitVec.ofNat 32 (sx13 i) = i.signExtend 32 := by rw [sx13_eq, ofNat_self]

theorem ofNat_andi : BitVec.ofNat 32 (v.toNat &&& i.toNat) = v &&& i.setWidth 32 := by rw [toNat_zeroExtended, ofNat_and_toNat]

theorem ofNat_ori : BitVec.ofNat 32 (v.toNat ||| i.toNat) = v ||| i.setWidth 32 := by rw [toNat_zeroExtended, ofNat_or_toNat]

theorem ofNat_xori : BitVec.ofNat 32 (v.toNat ^^^ i.toNat) = v ^^^ i.setWidth 32 := by rw [toNat_zeroExtended, ofNat_xor_toNat]

theorem ofNat_shli : BitVec.ofNat 32 (shlE 32 v.toNat n.toNat) = v <<< n.toNat := by rw [ofNat_shlE, shift_mod]

theorem ofNat_shri : BitVec.ofNat 32 (shrE 32 v.toNat n.toNat) = v >>> n.toNat := by rw [ofNat_shrE, shift_mod]

theorem ofNat_srai : BitVec.ofNat 32 (sraE 32 v.toNat n.toNat) = v.sshiftRight n.toNat := by rw [ofNat_sraE, shift_mod]

/-- MOVHI joins the immediate above the low 19 bits of the lane. -/
theorem ofNat_movhi : BitVec.ofNat 32 (i.toNat * 2 ^ 19 + v.toNat % 2 ^ 19) = (i.setWidth 32 <<< 19) ||| (v &&& 0x7FFFF) := by
  have hlow : (v &&& 0x7FFFF).toNat = v.toNat % 2 ^ 19 := by
    rw [BitVec.toNat_and]
    exact Nat.and_two_pow_sub_one_eq_mod v.toNat 19
  have hhigh : (i.setWidth 32 <<< 19).toNat = i.toNat * 2 ^ 19 := by
    have hi := i.isLt
    rw [BitVec.toNat_shiftLeft, ← toNat_zeroExtended, Nat.shiftLeft_eq, Nat.mod_eq_of_lt]
    omega
  have hlt : v.toNat % 2 ^ 19 < 2 ^ 19 := Nat.mod_lt _ (Nat.two_pow_pos 19)
  rw [← ofNat_self ((i.setWidth 32 <<< 19) ||| (v &&& 0x7FFFF)), BitVec.toNat_or, hlow, hhigh, Nat.mul_comm, Nat.two_pow_add_eq_or_of_lt hlt]

end

/-- Settles O8: each address instruction puts its token together of the numbers of its parts, and each immediate instruction is a function of one lane. -/
theorem addressesAndImmediates : Obligations.AddressesAndImmediates := by
  refine ⟨fun s x r p u a b => ?addresses, fun s x r p i n k a => ?immediates⟩
  case addresses =>
    simp only [addressTable, List.forall_mem_cons, List.not_mem_nil, false_implies, implies_true, and_true]
    exact ⟨addr_computes, aoff_computes, aidx_computes⟩
  case immediates =>
    intro q hq
    simp only [immediateTable, List.mem_cons, List.not_mem_nil, or_false] at hq
    rcases hq with rfl | rfl | rfl | rfl | rfl | rfl | rfl | rfl | rfl | rfl | rfl
    exacts [immOp_computes rfl fun v => ofNat_addi v i,
      immOp_computes rfl fun v => ofNat_andi v i,
      immOp_computes rfl fun v => ofNat_ori v i,
      immOp_computes rfl fun v => ofNat_xori v i,
      immOp_computes rfl fun v => ofNat_shli v n,
      immOp_computes rfl fun v => ofNat_shri v n,
      immOp_computes rfl fun v => ofNat_srai v n,
      immOp_computes rfl fun _ => ofNat_movi i,
      immOp_computes rfl fun v => ofNat_movhi v i,
      immOp_computes rfl fun v => ofNat_muli v i,
      immOp_computes rfl fun _ => ofNat_self k]

end Sys2Proof.Proofs
end

