-- ==== Sys2Proof/Proofs/StreamTokens.lean ====
section
/-! SUPPORT. IN, DROP, EOS, EMIT, BOUND, GATE and MARK (R160, R164 to R168, R171, R172, R337): the token that each sends once its slot goes, and the markers that
MARK asks for. -/

namespace Sys2Proof.Proofs

open Sys2Proof Sys2Proof.Machine Sys2Proof.Claims Sys2Proof.Laws

/-! ### Tokens -/

/-- EOS finds an end-of-row marker by bit 0 of its field and an end-of-K marker by bit 1 (R166). -/
theorem eosHit_iff (k : BitVec 2) (t : Token) :
    eosHit k t = true ↔ (t.kind = .row ∧ k.getLsbD 0 = true) ∨ (t.kind = .kend ∧ k.getLsbD 1 = true) := by
  simp only [eosHit, bit_eq_testBit, BitVec.getLsbD, Bool.or_eq_true, Bool.and_eq_true, beq_iff_eq]

/-- The payload of a bound token holds the trip and the level, and zeros behind them (R172). -/
theorem holds_tripAndLevel (v : BitVec 32) (l : BitVec 2) :
    Holds 2 32 (ofEls 32 [v.toNat, l.toNat]) fun j => if j = 0 then v else l.setWidth 32 := by
  refine ⟨fun j hj => ?_, fun i hi => ofEls_high 32 [v.toNat, l.toNat] i hi⟩
  rw [el, extract_ofEls 32 _ j (by simp)]
  obtain rfl | rfl : j = 0 ∨ j = 1 := by omega
  · exact ofNat_self v
  · exact BitVec.ofNat_toNat 32 l

/-- GATE's token as R168 says it. -/
theorem gateTok_eq (f : Bool) (r : Args) :
    gateTok f r = if r.t.kind ≠ .null ∧ r.l.kind ≠ .null ∧ r.t.data.getLsbD 0 ≠ f then r.l else nullTok r.tag := by
  by_cases hnull : r.t.kind = .null ∨ r.l.kind = .null
  · have hout : ¬ (r.t.kind ≠ .null ∧ r.l.kind ≠ .null ∧ r.t.data.getLsbD 0 ≠ f) := by tauto
    rw [gateTok, if_pos (by simpa only [Bool.or_eq_true, isNull_iff] using hnull), if_neg hout]
  · have hin : (r.t.kind ≠ .null ∧ r.l.kind ≠ .null ∧ r.t.data.getLsbD 0 ≠ f) ↔ (r.t.truth != f) = true := by
      rw [truth_eq_getLsbD, bne_iff_ne]
      tauto
    rw [gateTok, if_neg (by simpa only [Bool.or_eq_true, isNull_iff] using hnull)]
    exact (if_congr hin rfl rfl).symm

/-! ### The instructions that send one token -/

section
variable {s : State} {x : Elem} {r : Args} {p : Pm} {n : BitVec 3} {k : BitVec 2} {f : Bool} {a : Tgt} {t : Token}

theorem in_emits (h : gate s (.in_ p n a) = .go x r) (ht : assignedTok x s.cur n.toNat = some t) : Emits (.in_ p n a) s x 1 t := by
  rw [Emits, Issues, exec, execIn]
  exact run_issues h (by rw [ht])

theorem drop_emits (h : gate s (.drop p n a) = .go x r) (ht : assignedTok x s.cur n.toNat = some t) :
    Emits (.drop p n a) s x 1 (nullTok t.tag) := by
  rw [Emits, Issues, exec, execDrop]
  exact run_issues h (by rw [ht])

theorem eos_emits (h : gate s (.eos p k a) = .go x r) : Emits (.eos p k a) s x 1
    ⟨.cond, if (r.l.kind = .row ∧ k.getLsbD 0 = true) ∨ (r.l.kind = .kend ∧ k.getLsbD 1 = true) then 1 else 0, r.tag⟩ := by
  rw [Emits, Issues, exec, execEos]
  exact run_issues h (by rw [condTok_eq]; simp only [eosHit_iff])

theorem emit_emits (h : gate s (.emit p k a) = .go x r) : Emits (.emit p k a) s x 1 ⟨if k = 1 then .row else .kend, r.l.data, r.tag⟩ := by
  rw [Emits, Issues, exec, execEmit]
  exact run_issues h rfl

theorem bound_emits (h : gate s (.bound p k a) = .go x r) (hlow : 1 ≤ (el 32 r.l.data 0).toNat) (hhigh : (el 32 r.l.data 0).toNat ≤ 65535) :
    Emits (.bound p k a) s x 1 ⟨.bound, ofEls 32 [(el 32 r.l.data 0).toNat, k.toNat], r.tag⟩ := by
  rw [Emits, Issues, exec, execBound]
  exact run_issues h (by rw [elAt_eq]; exact if_pos ⟨hlow, hhigh⟩)

theorem bound_raises (h : gate s (.bound p k a) = .go x r)
    (hout : (el 32 r.l.data 0).toNat < 1 ∨ 65535 < (el 32 r.l.data 0).toNat) : Raises (.bound p k a) s 6 0 0 0 := by
  have hnot : ¬ (1 ≤ (el 32 r.l.data 0).toNat ∧ (el 32 r.l.data 0).toNat ≤ 65535) := by omega
  rw [Raises, exec, execBound]
  exact run_raises h (by rw [elAt_eq]; exact if_neg hnot)

theorem gate_emits (h : gate s (.gate p f a) = .go x r) : Emits (.gate p f a) s x 1
    (if r.t.kind ≠ .null ∧ r.l.kind ≠ .null ∧ r.t.data.getLsbD 0 ≠ f then r.l else nullTok r.tag) := by
  rw [Emits, Issues, exec, execGate]
  exact run_issues h (by rw [gateTok_eq])

end

/-! ### MARK (R171, R337) -/

section
variable {s : State} {x : Elem} {r : Args} {p : Pm} {a : Tgt} {g : Region}

/-- A MARK is new where the region has a save area and no input has a marker still to inject. -/
def markFresh (g : Region) : Bool := g.save != 0 && !(g.ins.any (·.mark))

theorem markFresh_eq_true_iff (g : Region) : markFresh g = true ↔ g.save ≠ 0 ∧ ∀ i ∈ g.ins, i.mark = false := by
  simp [markFresh]

theorem mark_issues (h : gate s (.mark p a) = .go x r) (hg : s.region? x.rref = some g) :
    IssuesIn (.mark p a) s (if markFresh g then s.modRegion x.rref Region.markAll else s) x 1
      (toAll (.mark p a) ⟨.data, if markFresh g then 1 else 0, r.tag⟩) := by
  rw [IssuesIn, exec, execMark, runS_go _ h]
  simp only [hg, State.finish, dataTok, lane0_b2n]
  rfl

theorem mark_discarded (h : gate s (.mark p a) = .go x r) (hg : s.region? x.rref = some g)
    (hold : g.save = 0 ∨ ∃ i ∈ g.ins, i.mark = true) : Emits (.mark p a) s x 1 ⟨.data, 0, r.tag⟩ := by
  have hf : ¬ markFresh g = true := by
    rw [markFresh_eq_true_iff]
    rintro ⟨hsave, hins⟩
    rcases hold with h0 | ⟨i, hi, hm⟩
    · exact hsave h0
    · exact absurd hm (by rw [hins i hi]; decide)
  have hrun := mark_issues h hg
  rwa [if_neg hf, if_neg hf] at hrun

theorem mark_requests (h : gate s (.mark p a) = .go x r) (hg : s.region? x.rref = some g) (hsave : g.save ≠ 0)
    (hins : ∀ i ∈ g.ins, i.mark = false) :
    IssuesIn (.mark p a) s (s.modRegion x.rref Region.markAll) x 1 (toAll (.mark p a) ⟨.data, 1, r.tag⟩) := by
  have hf : markFresh g = true := (markFresh_eq_true_iff g).mpr ⟨hsave, hins⟩
  have hrun := mark_issues h hg
  rwa [if_pos hf, if_pos hf] at hrun

end

/-! ### The statement -/

/-- Settles O18: each instruction sends the token that its rule names, and MARK by whether its request is new. -/
theorem streamTokens : Obligations.StreamTokens :=
  ⟨fun _ _ r _ _ k _ _ => ⟨fun _ h => in_emits h, fun _ h => drop_emits h, eos_emits, emit_emits, emit_emits,
      fun h => ⟨fun hlow hhigh => ⟨_, bound_emits h hlow hhigh, holds_tripAndLevel (el 32 r.l.data 0) k⟩, bound_raises h⟩, gate_emits⟩,
    fun _ _ _ _ _ _ h hg => ⟨mark_discarded h hg, mark_requests h hg⟩⟩

end Sys2Proof.Proofs
end

