-- ==== Sys2Proof/Proofs/StreamEvents.lean ====
section
/-! SUPPORT. JUNCTION_RELEASE in the pause of a rate change (R183, R202): no token leaves a junction, whatever else would let it go. -/

namespace Sys2Proof.Proofs

open Sys2Proof Sys2Proof.Machine Sys2Proof.Claims Sys2Proof.Laws

theorem stream_modStream_same (s : State) (r : RegionRef) (k : ℕ) (f : Stream → Stream) :
    (s.modStream r k f).stream? r k = (s.stream? r k).map f := by
  rw [State.stream?, State.modStream, region_modRegion_same, State.stream?]
  cases s.region? r with
  | none => rfl
  | some g => exact getElem?_modAt_same g.streams k f

/-- Every token stays in place in the master cycle in which a rate change takes effect (R202). -/
theorem exec_junctionRelease_paused {s : State} {r : RegionRef} (k : ℕ) (h : s.paused r.l = true) :
    exec (.junctionRelease r k) s = .next s := by
  rw [exec, execJunctionRelease]
  split
  · rfl
  · split
    · rw [if_pos (Or.inr h)]
    · rfl

/-! ### A paused launch -/

/-- A stream from region input 0 to region output 0 whose junction holds one token, before an arc that is free. -/
def heldStream : Stream where
  prod := .regIn 0
  cons := .regOut 0
  depth := 4
  init := 0
  wide := false
  turn := false
  junction := some .page
  arcs := 1
  junc := [(doneTok none, 0)]
  wire := []
  siding := none
  borders := []
  rows := []
  turned := []
  count := none
  out := []
  pIsl := none
  cIsl := none

/-- Where that stream stands. -/
def heldRegion : RegionRef := ⟨⟨0, 0, 1⟩, 0⟩

/-- A launch with that stream, in a pause: so is a launch as it starts, and one whose ratios change. -/
def pausedLaunch : Launch := freshLaunch heldRegion.l [freshRegion 4 4 0 0 [] [heldStream]] []

/-- A device that runs that launch alone. -/
def pausedState : State := State.reset.modPart 0 fun p => { p with launches := [pausedLaunch] }

theorem launch_pausedState : pausedState.launch? heldRegion.l = some pausedLaunch := rfl

theorem paused_pausedState : pausedState.paused heldRegion.l = true := rfl

theorem stream_pausedState : pausedState.stream? heldRegion 0 = some heldStream := rfl

/-! ### The statement -/

/-- Refutes O41: its clauses on JUNCTION_RELEASE say that a token goes on without asking whether its launch stands in the pause of R202. In `pausedState` the arc
behind the junction is free and the token follows no element's writes, but the launch is paused: the token stays. -/
theorem not_streamEvents : ¬ Obligations.StreamEvents := by
  unfold Obligations.StreamEvents
  intro h
  obtain ⟨-, hport, -⟩ := h pausedState heldRegion 0 pausedLaunch _ heldStream launch_pausedState rfl stream_pausedState
  have hgo := hport .page (doneTok none) 0 [] rfl rfl (fun e port => by simp [heldStream]) (by decide)
  rw [exec_junctionRelease_paused 0 paused_pausedState] at hgo
  have hsame := congrArg (fun t => (t.stream? heldRegion 0).map fun q => q.junc.length) (Host.Outcome.next.inj hgo)
  rw [stream_modStream_same, stream_pausedState] at hsame
  exact absurd hsame (by decide)

end Sys2Proof.Proofs
end

