-- ==== Sys2Proof/Proofs/PermittedRatios.lean ====
section
/-! SUPPORT. The permitted ratios (R190, R191): ratios as rational numbers, and the nearest permitted ratio at or above, or at or below, a fraction. -/

namespace Sys2Proof.Proofs

open Sys2Proof Sys2Proof.Machine Sys2Proof.Claims Sys2Proof.Laws

/-! ### Fractions as rational numbers -/

/-- The rational number that a fraction stands for. -/
def value (f : Frac) : ℚ := f.n / f.d

theorem le_iff_value {a b : Frac} (ha : 0 < a.d) (hb : 0 < b.d) : a.le b = true ↔ value a ≤ value b := by
  rw [Frac.le, decide_eq_true_iff, value, value, div_le_div_iff₀ (by exact_mod_cast ha) (by exact_mod_cast hb)]
  exact_mod_cast Iff.rfl

theorem lt_iff_value {a b : Frac} (ha : 0 < a.d) (hb : 0 < b.d) : a.lt b = true ↔ value a < value b := by
  rw [Frac.lt, decide_eq_true_iff, value, value, div_lt_div_iff₀ (by exact_mod_cast ha) (by exact_mod_cast hb)]
  exact_mod_cast Iff.rfl

theorem le_eq_false_iff_value {a b : Frac} (ha : 0 < a.d) (hb : 0 < b.d) : a.le b = false ↔ value b < value a := by
  rw [← not_le, ← le_iff_value ha hb, Bool.not_eq_true]

theorem value_red {f : Frac} (h : 0 < f.d) : value f.red = value f := by
  have hg : ((Nat.gcd f.n f.d : ℕ) : ℚ) ≠ 0 := Nat.cast_ne_zero.2 (Nat.gcd_pos_of_pos_right _ h).ne'
  simp only [value, Frac.red]
  rw [Nat.cast_div (Nat.gcd_dvd_left _ _) hg, Nat.cast_div (Nat.gcd_dvd_right _ _) hg, div_div_div_cancel_right₀ hg]

theorem d_pos_of_permitted {f : Frac} (h : Permitted f) : 0 < f.d := Nat.lt_of_lt_of_le h.1 h.2.1

/-- A permitted ratio in lowest terms is permitted. -/
theorem permitted_red {f : Frac} (h : Permitted f) : Permitted f.red := by
  obtain ⟨hn, hnd, hd⟩ := h
  exact ⟨Nat.div_pos (Nat.gcd_le_left _ hn) (Nat.gcd_pos_of_pos_left _ hn), Nat.div_le_div_right hnd, (Nat.div_le_self _ _).trans hd⟩

/-! ### The best of a list -/

theorem eq_nil_of_bestOf_eq_none {better : Frac → Frac → Bool} {fs : List Frac} (h : bestOf better fs = none) : fs = [] := by
  cases fs with
  | nil => rfl
  | cons a r =>
    rw [bestOf] at h
    split at h <;> [skip; split at h] <;> exact absurd h (Option.some_ne_none _)

/-- The best of a list is the least under a key that orders it as the test does. -/
theorem bestOf_isLeast {α : Type} [LinearOrder α] (key : Frac → α) {better : Frac → Frac → Bool} {fs : List Frac} {x : Frac}
    (hkey : ∀ a ∈ fs, ∀ b ∈ fs, (better a b = true ↔ key a < key b)) (h : bestOf better fs = some x) : x ∈ fs ∧ ∀ y ∈ fs, key x ≤ key y := by
  induction fs generalizing x with
  | nil => exact absurd h (by simp [bestOf])
  | cons a r ih =>
    have hr : ∀ c ∈ r, ∀ b ∈ r, (better c b = true ↔ key c < key b) :=
      fun c hc b hb => hkey c (List.mem_cons_of_mem _ hc) b (List.mem_cons_of_mem _ hb)
    rw [bestOf] at h
    cases hb : bestOf better r with
    | none =>
      obtain rfl := eq_nil_of_bestOf_eq_none hb
      simp_all [bestOf]
    | some b =>
      obtain ⟨hmem, hleast⟩ := ih hr hb
      have hab := hkey a List.mem_cons_self b (List.mem_cons_of_mem _ hmem)
      rw [hb] at h
      dsimp only at h
      split at h
      · next hbetter =>
        obtain rfl := Option.some.inj h
        exact ⟨List.mem_cons_self, List.forall_mem_cons.2 ⟨le_rfl, fun y hy => (hab.1 hbetter).le.trans (hleast y hy)⟩⟩
      · next hbetter =>
        obtain rfl := Option.some.inj h
        exact ⟨List.mem_cons_of_mem _ hmem, List.forall_mem_cons.2 ⟨not_lt.1 fun hlt => hbetter (hab.2 hlt), hleast⟩⟩

/-! ### The nearest permitted ratio -/

/-- A list that holds the permitted ratios that matter among those that a condition admits: every entry is one, and every one has an entry that is
no worse under the key. -/
structure Covers {α : Type} [LE α] (key : Frac → α) (good : Frac → Prop) (fs : List Frac) : Prop where
  sound : ∀ v ∈ fs, Permitted v ∧ good v
  complete : ∀ w, Permitted w → good w → ∃ v ∈ fs, key v ≤ key w

/-- The best of a list that covers the ratios that a condition admits is the best of them; where the list is empty, it admits none. -/
theorem bestOf_of_covers {α : Type} [LinearOrder α] {key : Frac → α} {better : Frac → Frac → Bool} {good : Frac → Prop} {fs : List Frac}
    (hkey : ∀ a b, 0 < a.d → 0 < b.d → (better a b = true ↔ key a < key b)) (hfs : Covers key good fs) :
    (∀ x, bestOf better fs = some x → Permitted x ∧ good x ∧ ∀ w, Permitted w → good w → key x ≤ key w) ∧
      (bestOf better fs = none → ∀ w, Permitted w → ¬ good w) := by
  refine ⟨fun x hx => ?_, fun hnone w hw hgood => ?_⟩
  · obtain ⟨hmem, hleast⟩ := bestOf_isLeast key (fun a ha b hb => hkey a b (d_pos_of_permitted (hfs.sound a ha).1) (d_pos_of_permitted (hfs.sound b hb).1)) hx
    obtain ⟨hperm, hgood⟩ := hfs.sound x hmem
    refine ⟨hperm, hgood, fun w hw hgw => ?_⟩
    obtain ⟨v, hv, hvw⟩ := hfs.complete w hw hgw
    exact (hleast v hv).trans hvw
  · obtain ⟨v, hv, -⟩ := hfs.complete w hw hgood
    exact absurd hv (by simp [eq_nil_of_bestOf_eq_none hnone])

theorem ceilDiv_le_iff {a b c : ℕ} (hb : 0 < b) : Machine.ceilDiv a b ≤ c ↔ a ≤ c * b := by
  rw [Machine.ceilDiv, ← Nat.ceilDiv_eq_add_pred_div, ceilDiv_le_iff_le_mul hb, Nat.mul_comm]

theorem covers_atLeast {f : Frac} (hf : 0 < f.d) : Covers value (fun v => value f ≤ value v) ((List.range 64).filterMap fun i =>
    let q := i + 1
    let p := max 1 (Machine.ceilDiv (f.n * q) f.d)
    if p ≤ q then some ⟨p, q⟩ else none) where
  sound v hv := by
    obtain ⟨i, hi, hv⟩ := List.mem_filterMap.1 hv
    obtain ⟨hpq, rfl⟩ := Option.ite_none_right_eq_some.1 hv |>.imp_right Option.some.inj
    rw [List.mem_range] at hi
    refine ⟨⟨Nat.le_max_left _ _, hpq, hi⟩, (le_iff_value hf i.succ_pos).1 (decide_eq_true ?_)⟩
    exact (ceilDiv_le_iff hf).1 (Nat.le_max_right _ _)
  complete w hw hfw := by
    obtain ⟨hn, hnd, hd⟩ := hw
    have hpos : 0 < w.d := hn.trans hnd
    have hle : f.n * w.d ≤ w.n * f.d := of_decide_eq_true ((le_iff_value hf hpos).2 hfw)
    have hp : max 1 (Machine.ceilDiv (f.n * w.d) f.d) ≤ w.n := max_le hn ((ceilDiv_le_iff hf).2 hle)
    refine ⟨⟨max 1 (Machine.ceilDiv (f.n * w.d) f.d), w.d⟩, List.mem_filterMap.2 ⟨w.d - 1, List.mem_range.2 (by omega), ?_⟩,
      (le_iff_value (a := ⟨max 1 (Machine.ceilDiv (f.n * w.d) f.d), w.d⟩) hpos hpos).1 (decide_eq_true (Nat.mul_le_mul_right _ hp))⟩
    dsimp only
    rw [Nat.sub_add_cancel hpos, if_pos (hp.trans hnd)]

theorem covers_atMost {f : Frac} (hf : 0 < f.d) : Covers (fun v => -value v) (fun v => value v ≤ value f) ((List.range 64).filterMap fun i =>
    let q := i + 1
    let p := min q (f.n * q / f.d)
    if 1 ≤ p then some ⟨p, q⟩ else none) where
  sound v hv := by
    obtain ⟨i, hi, hv⟩ := List.mem_filterMap.1 hv
    obtain ⟨hp, rfl⟩ := Option.ite_none_right_eq_some.1 hv |>.imp_right Option.some.inj
    rw [List.mem_range] at hi
    refine ⟨⟨hp, Nat.min_le_left _ _, hi⟩, (le_iff_value i.succ_pos hf).1 (decide_eq_true ?_)⟩
    exact (Nat.le_div_iff_mul_le hf).1 (Nat.min_le_right _ _)
  complete w hw hwf := by
    obtain ⟨hn, hnd, hd⟩ := hw
    have hpos : 0 < w.d := hn.trans hnd
    have hle : w.n * f.d ≤ f.n * w.d := of_decide_eq_true ((le_iff_value hpos hf).2 hwf)
    have hp : w.n ≤ min w.d (f.n * w.d / f.d) := le_min hnd ((Nat.le_div_iff_mul_le hf).2 hle)
    refine ⟨⟨min w.d (f.n * w.d / f.d), w.d⟩, List.mem_filterMap.2 ⟨w.d - 1, List.mem_range.2 (by omega), ?_⟩,
      neg_le_neg ((le_iff_value (b := ⟨min w.d (f.n * w.d / f.d), w.d⟩) hpos hpos).1 (decide_eq_true (Nat.mul_le_mul_right _ hp)))⟩
    dsimp only
    rw [Nat.sub_add_cancel hpos, if_pos (hn.trans hp)]

/-- The smallest permitted ratio at or above a fraction (R191); where there is none, no permitted ratio is as large. -/
theorem permAtLeast_spec {f : Frac} (hf : 0 < f.d) :
    (∀ r, permAtLeast f = some r → Permitted r ∧ f.le r = true ∧ ∀ w, Permitted w → f.le w = true → r.le w = true) ∧
      (permAtLeast f = none → ∀ w, Permitted w → f.le w = false) := by
  obtain ⟨hsome, hnone⟩ := bestOf_of_covers (fun a b => lt_iff_value) (covers_atLeast hf)
  refine ⟨fun r hr => ?_, fun hr w hw => ?_⟩
  · obtain ⟨x, hx, rfl⟩ := Option.map_eq_some_iff.1 hr
    obtain ⟨hperm, hge, hleast⟩ := hsome x hx
    refine ⟨permitted_red hperm, (le_iff_value hf (d_pos_of_permitted (permitted_red hperm))).2 (by rwa [value_red (d_pos_of_permitted hperm)]), fun w hw hfw => ?_⟩
    rw [le_iff_value (d_pos_of_permitted (permitted_red hperm)) (d_pos_of_permitted hw), value_red (d_pos_of_permitted hperm)]
    exact hleast w hw ((le_iff_value hf (d_pos_of_permitted hw)).1 hfw)
  · exact (le_eq_false_iff_value hf (d_pos_of_permitted hw)).2 (not_le.1 (hnone (Option.map_eq_none_iff.1 hr) w hw))

/-- The largest permitted ratio at or below a fraction (R191); where there is none, no permitted ratio is as small. -/
theorem permAtMost_spec {f : Frac} (hf : 0 < f.d) :
    (∀ r, permAtMost f = some r → Permitted r ∧ r.le f = true ∧ ∀ w, Permitted w → w.le f = true → w.le r = true) ∧
      (permAtMost f = none → ∀ w, Permitted w → w.le f = false) := by
  obtain ⟨hsome, hnone⟩ := bestOf_of_covers (fun a b ha hb => (lt_iff_value hb ha).trans neg_lt_neg_iff.symm) (covers_atMost hf)
  refine ⟨fun r hr => ?_, fun hr w hw => ?_⟩
  · obtain ⟨x, hx, rfl⟩ := Option.map_eq_some_iff.1 hr
    obtain ⟨hperm, hle, hmost⟩ := hsome x hx
    refine ⟨permitted_red hperm, (le_iff_value (d_pos_of_permitted (permitted_red hperm)) hf).2 (by rwa [value_red (d_pos_of_permitted hperm)]), fun w hw hwf => ?_⟩
    rw [le_iff_value (d_pos_of_permitted hw) (d_pos_of_permitted (permitted_red hperm)), value_red (d_pos_of_permitted hperm)]
    exact neg_le_neg_iff.1 (hmost w hw ((le_iff_value (d_pos_of_permitted hw) hf).1 hwf))
  · exact (le_eq_false_iff_value (d_pos_of_permitted hw) hf).2 (not_le.1 (hnone (Option.map_eq_none_iff.1 hr) w hw))

end Sys2Proof.Proofs
end

