-- ==== Sys2Proof/Proofs/TimetableDecisions.lean ====
section
/-! SUPPORT. Steps that change partitions alone: what they leave of a view of the state; and what the Timetable Engine leaves of a launch as it decides ratios
(R199 to R204, R429, R432). -/

namespace Sys2Proof.Proofs

open Sys2Proof Sys2Proof.Machine Sys2Proof.Claims Sys2Proof.Laws

/-! ### Views -/

/-- A state is another but for the partitions, and a view shows the same of both. -/
def KeepsView {α : Type} (view : State → α) (s t : State) : Prop := (∃ ps, t = { s with parts := ps }) ∧ view t = view s

section
variable {α β : Type} {view : State → α} {s t u : State}

theorem KeepsView.refl (view : State → α) (s : State) : KeepsView view s s := ⟨⟨s.parts, rfl⟩, rfl⟩

theorem KeepsView.trans (h : KeepsView view s t) (h' : KeepsView view t u) : KeepsView view s u := by
  obtain ⟨⟨ps, rfl⟩, hview⟩ := h
  obtain ⟨⟨qs, rfl⟩, hview'⟩ := h'
  exact ⟨⟨qs, rfl⟩, hview'.trans hview⟩

/-- Steps of which each keeps a view keep it, one after another. -/
theorem KeepsView.foldl {f : State → β → State} (hf : ∀ t a, KeepsView view t (f t a)) (as : List β) (s : State) :
    KeepsView view s (as.foldl f s) := by
  induction as generalizing s with
  | nil => exact .refl view s
  | cons a as ih => exact (hf s a).trans (ih (f s a))

theorem KeepsView.mem (h : KeepsView view s t) : t.mem = s.mem := by obtain ⟨⟨ps, rfl⟩, -⟩ := h; rfl

theorem KeepsView.mmem (h : KeepsView view s t) : t.mmem = s.mmem := by obtain ⟨⟨ps, rfl⟩, -⟩ := h; rfl

theorem KeepsView.mgmt (h : KeepsView view s t) : t.mgmt = s.mgmt := by obtain ⟨⟨ps, rfl⟩, -⟩ := h; rfl

theorem KeepsView.pages (h : KeepsView view s t) : t.pages = s.pages := by obtain ⟨⟨ps, rfl⟩, -⟩ := h; rfl

theorem KeepsView.elems (h : KeepsView view s t) : t.elems = s.elems := by obtain ⟨⟨ps, rfl⟩, -⟩ := h; rfl

end

/-- What is read of partition `n`. -/
def partView {α : Type} (get : Part → α) (n : ℕ) (s : State) : α := get (s.part n)

/-- What is read of a running launch. -/
def launchView {α : Type} (get : Launch → α) (l : LaunchRef) (s : State) : Option α := (s.launch? l).map get

theorem partView_modPart {α : Type} {get : Part → α} {f : Part → Part} (s : State) (n m : ℕ) (hf : ∀ p, get (f p) = get p) :
    KeepsView (partView get n) s (s.modPart m f) :=
  ⟨⟨_, rfl⟩, part_modPart_keeps get s m n hf⟩

theorem launchView_modPart {α : Type} (get : Launch → α) (l : LaunchRef) {f : Part → Part} (s : State) (n : ℕ) (hf : ∀ p, (f p).launches = p.launches) :
    KeepsView (launchView get l) s (s.modPart n f) :=
  ⟨⟨_, rfl⟩, by rw [launchView, State.launch?, part_modPart_keeps (·.launches) s n l.n hf, launchView, State.launch?]⟩

theorem launchView_modLaunch {α : Type} {get : Launch → α} {f : Launch → Launch} (s : State) (l : LaunchRef) (href : ∀ x, (f x).ref = x.ref)
    (hget : ∀ x, get (f x) = get x) : KeepsView (launchView get l) s (s.modLaunch l f) := by
  refine ⟨⟨_, rfl⟩, ?_⟩
  rw [launchView, launch_modLaunch_same href, launchView, Option.map_map]
  exact congrArg (fun g => Option.map g _) (funext hget)

theorem launchView_msi {α : Type} (get : Launch → α) (l : LaunchRef) (s : State) (n v : ℕ) : KeepsView (launchView get l) s (s.msi n v) :=
  launchView_modPart get l s n fun _ => rfl

theorem launch_modLaunch_of {s : State} {l : LaunchRef} {x : Launch} {f : Launch → Launch} (hx : s.launch? l = some x) (href : ∀ y, (f y).ref = y.ref) :
    (s.modLaunch l f).launch? l = some (f x) := by
  rw [launch_modLaunch_same href, hx, Option.map_some]

/-- A launch replaced by another of its name. -/
theorem launch_modLaunch_const {s : State} {l : LaunchRef} {x y : Launch} (hx : s.launch? l = some x) (href : y.ref = l) :
    (s.modLaunch l fun _ => y).launch? l = some y := by
  have hsame : (s.modLaunch l fun _ => y) = s.modLaunch l fun z => if z.ref = l then y else z := by
    simp only [State.modLaunch, mapLaunch]
    congr! 5
    simp +contextual
  rw [hsame, launch_modLaunch_of hx fun z => by split <;> simp_all]
  simp [show x.ref = l by simpa using List.find?_some hx]

@[simp] theorem launch_modLaunchElems (s : State) (l m : LaunchRef) (f : Elem → Elem) : (s.modLaunchElems l f).launch? m = s.launch? m := rfl

@[simp] theorem mem_modLaunchElems (s : State) (l : LaunchRef) (f : Elem → Elem) : (s.modLaunchElems l f).mem = s.mem := rfl

/-- A launch of which a view shows what it showed before. -/
theorem launch_of_launchView {α : Type} {get : Launch → α} {l : LaunchRef} {s t : State} {x : Launch} (h : KeepsView (launchView get l) s t)
    (hx : s.launch? l = some x) : ∃ y, t.launch? l = some y ∧ get y = get x := by
  have hview := h.2
  rw [launchView, launchView, hx] at hview
  exact Option.map_eq_some_iff.1 hview

/-! ### The timetable of a launch -/

/-- The ratio in force of an island. -/
def inForce (i : Island) : ℕ × ℕ := (i.p, i.q)

/-- What a decision leaves of a launch but its triggers: where it stands in its hyperperiod, and the ratios in force (R191, R202). -/
def schedule (l : Launch) : LaunchRef × ℕ × Bool × ℕ × List (ℕ × ℕ) := (l.ref, l.tick, l.pause, l.hyper, l.islands.map inForce)

/-- The schedule of a launch, and its regions. -/
def timetable (l : Launch) : (LaunchRef × ℕ × Bool × ℕ × List (ℕ × ℕ)) × List Region := (schedule l, l.regions)

/-- A decision puts no ratio in force (R202). -/
@[simp] theorem inForce_decide (i : Island) (f : Frac) : inForce (i.decide_ f) = inForce i := by
  unfold Island.decide_
  split <;> rfl

theorem map_inForce_modAt_decide (is : List Island) (k : ℕ) (f : Frac) : (modAt is k (·.decide_ f)).map inForce = is.map inForce :=
  map_modAt_of_keeps inForce is k fun i => inForce_decide i f

theorem map_inForce_modAt_getD (is : List Island) (k : ℕ) (v : Option Frac) :
    (modAt is k fun i => (v.map i.decide_).getD i).map inForce = is.map inForce :=
  map_modAt_of_keeps inForce is k fun i => by cases v <;> simp

theorem timetable_take (l : Launch) (k : ℕ) (t : Found201) : timetable (l.take k t) = timetable l := by
  unfold Launch.take
  cases t.pick with
  | none => rfl
  | some f => simp only [timetable, schedule, map_inForce_modAt_decide]

/-- What keeps the timetable of a launch keeps its schedule. -/
theorem schedule_of_timetable {l : LaunchRef} {s t : State} (h : KeepsView (launchView timetable l) s t) : KeepsView (launchView schedule l) s t := by
  refine ⟨h.1, ?_⟩
  have hview := congrArg (Option.map Prod.fst) h.2
  rwa [launchView, launchView, Option.map_map, Option.map_map] at hview

/-! ### What a boundary decides (R201 to R204, R429) -/

theorem lowerToCap_keeps (s : State) (l : LaunchRef) (k cap : ℕ) : KeepsView (launchView timetable l) s (s.lowerToCap l k cap) := by
  unfold State.lowerToCap
  split
  · exact .refl _ s
  · extract_lets f limits v t short u
    clear_value v
    have ht : KeepsView (launchView timetable l) s t :=
      launchView_modLaunch s l (fun _ => rfl) fun x => by simp only [timetable, schedule, map_inForce_modAt_getD]
    have hu : KeepsView (launchView timetable l) t u := launchView_modLaunch t l (fun _ => rfl) fun _ => rfl
    refine ht.trans (hu.trans (.trans ?_ (launchView_msi timetable l _ l.n 3)))
    exact launchView_modPart timetable l u l.n fun _ => rfl

/-- Lowering islands to their margin caps (R204) decides, and no more. -/
theorem capAll_keeps (s : State) (l : LaunchRef) : KeepsView (launchView timetable l) s (s.capAll l) := by
  unfold State.capAll
  split
  · exact .refl _ s
  · exact .foldl (fun t ⟨k, cap⟩ => lowerToCap_keeps t l k cap) _ s

theorem decideAll_keeps (l : LaunchRef) (ts : Targets) (s : State) : KeepsView (launchView timetable l) s (State.decideAll l ts s) := by
  induction ts generalizing s with
  | nil => exact .refl _ s
  | cons q ts ih =>
    refine KeepsView.trans ?_ (ih _)
    split
    · exact .refl _ s
    · exact launchView_modLaunch _ _ (fun _ => rfl) fun x => timetable_take x _ _

/-- Evaluated wavefront triggers leave the schedule. -/
theorem takeWaves_keeps (s : State) (l : LaunchRef) : KeepsView (launchView schedule l) s (s.takeWaves l) := by
  unfold State.takeWaves
  split
  · exact .refl _ s
  · dsimp only
    split
    · exact .refl _ s
    · exact (schedule_of_timetable (decideAll_keeps _ _ _)).trans (launchView_modLaunch _ _ (fun _ => rfl) fun _ => rfl)

theorem takeSidings_keeps (s : State) (l : LaunchRef) : KeepsView (launchView schedule l) s (s.takeSidings l) := by
  unfold State.takeSidings
  split
  · exact .refl _ s
  · split
    · exact .refl _ s
    · exact (schedule_of_timetable (decideAll_keeps _ _ _)).trans (launchView_modLaunch _ _ (fun _ => rfl) fun _ => rfl)

theorem lowerToPower_keeps (s : State) (l : LaunchRef) : KeepsView (launchView timetable l) s (s.lowerToPower l) := by
  unfold State.lowerToPower
  split
  · exact .refl _ s
  · split
    · exact .refl _ s
    · refine .foldl (fun t q => ?_) _ s
      dsimp only
      split
      · exact .refl _ t
      · split
        · exact launchView_modLaunch _ _ (fun _ => rfl) fun x => by simp only [timetable, schedule, map_inForce_modAt_decide]
        · exact .refl _ t

/-- What the Timetable Engine decides at a boundary puts no ratio in force (R202). -/
theorem evaluate_keeps (s : State) (l : LaunchRef) : KeepsView (launchView schedule l) s (s.evaluate l) :=
  (takeWaves_keeps s l).trans ((takeSidings_keeps _ l).trans (schedule_of_timetable (capAll_keeps _ l) |>.trans (schedule_of_timetable (lowerToPower_keeps _ l))))

end Sys2Proof.Proofs
end

