-- ==== Sys2Proof/Proofs/RateChanges.lean ====
section
/-! SUPPORT. HYPERPERIOD_BOUNDARY, RATE_CHANGE_APPLY, REGULATOR_SETTLED and MARGIN_REPLAN (R191, R197, R199, R202, R432). -/

namespace Sys2Proof.Proofs

open Sys2Proof Sys2Proof.Machine Sys2Proof.Claims Sys2Proof.Laws

/-! ### HYPERPERIOD_BOUNDARY (R191, R199) -/

/-- The state in which the sidings of a launch have reported and its next hyperperiod begins. -/
def reported (s : State) (l : LaunchRef) : State := s.modLaunch l fun x => { x with tick := 0, regions := x.regions.map Region.report }

section
variable {s : State} {l : LaunchRef} {x : Launch} (hx : s.launch? l = some x)
include hx

theorem exec_hyperperiodBoundary : exec (.hyperperiodBoundary l) s =
    if x.pause || x.tick < x.hyper then .next s else .next (((reported s l).evaluate l).modLaunchElems l Elem.nextWin) := by
  simp only [exec, execHyperperiodBoundary, hx]
  rfl

theorem exec_hyperperiodBoundary_waits (h : x.pause = true ∨ x.tick < x.hyper) : exec (.hyperperiodBoundary l) s = .next s := by
  rw [exec_hyperperiodBoundary hx, if_pos (by simpa using h)]

theorem exec_hyperperiodBoundary_ended (hpause : x.pause = false) (htick : x.hyper ≤ x.tick) :
    ∃ t y, exec (.hyperperiodBoundary l) s = .next t ∧ t.launch? l = some y ∧ y.tick = 0 ∧ y.pause = false ∧ y.hyper = x.hyper ∧
      y.islands.map (fun i => (i.p, i.q)) = x.islands.map (fun i => (i.p, i.q)) ∧ t.mem = s.mem := by
  have hreported : (reported s l).launch? l = some { x with tick := 0, regions := x.regions.map Region.report } :=
    launch_modLaunch_of hx fun _ => rfl
  have hkeeps := evaluate_keeps (reported s l) l
  obtain ⟨y, hy, hschedule⟩ := launch_of_launchView hkeeps hreported
  simp only [schedule, Prod.mk.injEq] at hschedule
  obtain ⟨-, hytick, hypause, hyhyper, hyislands⟩ := hschedule
  refine ⟨((reported s l).evaluate l).modLaunchElems l Elem.nextWin, y, ?_, ?_, hytick, hypause.trans hpause, hyhyper, hyislands, ?_⟩
  · rw [exec_hyperperiodBoundary hx, if_neg (by simp [hpause, htick])]
  · rw [launch_modLaunchElems, hy]
  · rw [mem_modLaunchElems, hkeeps.mem]
    rfl

/-! ### RATE_CHANGE_APPLY (R202) -/

omit hx in
/-- A launch whose decided ratios have come into force, before the flags of R208 are taken again. -/
def applied (x : Launch) : Launch :=
  { x with
    islands := x.islands.map Island.apply
    hyper := hyperOf (x.islands.map Island.apply)
    tick := 0
    pause := true
    resolves := (x.resolves + 1) % 2 ^ 32
    regions := x.regions.map (·.mapSidings Siding.restart) }

theorem exec_rateChangeApply_waits (h : x.pause = true ∨ x.tick < x.hyper ∨ x.pend = false ∨ ∃ i ∈ x.islands, i.dp ≠ 0 ∧ i.settled = false) :
    exec (.rateChangeApply l) s = .next s := by
  have hguard : (x.pause || decide (x.tick < x.hyper) || !x.pend || (x.islands.any fun i => i.dp != 0 && !i.settled)) = true := by
    simpa [or_assoc] using h
  simp only [exec, execRateChangeApply, hx, hguard, if_true]

theorem exec_rateChangeApply_due (hpause : x.pause = false) (htick : x.hyper ≤ x.tick) (hpend : x.pend = true)
    (hsettled : ∀ i ∈ x.islands, i.dp = 0 ∨ i.settled = true) : ∃ u : State, exec (.rateChangeApply l) s =
      .next (u.modLaunch l fun _ => u.flagsAfter (applied x)) ∧ u.launch? l = some (applied x) ∧ u.mem = s.mem := by
  let u := (s.modLaunch l applied).modLaunchElems l fun e => { e with win := [] }
  have hu : u.launch? l = some (applied x) := launch_modLaunch_of hx fun _ => rfl
  have hany : (x.islands.any fun i => i.dp != 0 && !i.settled) = false :=
    List.any_eq_false.2 fun i hi => by rcases hsettled i hi with h | h <;> simp [h]
  refine ⟨u, ?_, hu, rfl⟩
  have hexec : exec (.rateChangeApply l) s = .next (match u.launch? l with
      | none => u
      | some y => u.modLaunch l fun _ => u.flagsAfter y) := by
    simp only [exec, execRateChangeApply, hx, hany, hpause, hpend, Nat.not_lt.2 htick, decide_false, Bool.not_true, Bool.or_false, Bool.false_eq_true, if_false]
    rfl
  rw [hexec, hu]

omit hx in
theorem inForce_apply (i : Island) : inForce i.apply = if i.dp = 0 then (i.p, i.q) else (i.dp, i.dq) := by
  unfold Island.apply
  split <;> rfl

omit hx in
theorem dp_apply (i : Island) : i.apply.dp = 0 := by
  unfold Island.apply
  split
  · assumption
  · rfl

theorem exec_rateChangeApply_applies (href : x.ref = l) (hpause : x.pause = false) (htick : x.hyper ≤ x.tick) (hpend : x.pend = true)
    (hsettled : ∀ i ∈ x.islands, i.dp = 0 ∨ i.settled = true) : ∃ t y, exec (.rateChangeApply l) s = .next t ∧
      t.launch? l = some y ∧ y.tick = 0 ∧ y.pause = true ∧ y.hyper = hyperOf y.islands ∧ y.resolves = (x.resolves + 1) % 2 ^ 32 ∧
      y.islands.map (fun i => (i.p, i.q)) = x.islands.map (fun i => if i.dp = 0 then (i.p, i.q) else (i.dp, i.dq)) ∧
      (∀ i ∈ y.islands, i.dp = 0) ∧ t.mem = s.mem := by
  obtain ⟨u, hexec, hu, hmem⟩ := exec_rateChangeApply_due hx hpause htick hpend hsettled
  refine ⟨_, u.flagsAfter (applied x), hexec, launch_modLaunch_const hu href, rfl, rfl, rfl, rfl, ?_, fun i hi => ?_, hmem⟩
  · exact (List.map_map ..).trans (List.map_congr_left fun i _ => inForce_apply i)
  · obtain ⟨j, -, rfl⟩ := List.mem_map.1 hi
    exact dp_apply j

/-! ### REGULATOR_SETTLED (R202) -/

omit hx in
/-- An island whose regulator stands at the voltage of the ratio to come, or, after a fall, of the ratio in force. -/
def regulated (s : State) (x : Launch) (i : Island) : Island :=
  if i.dp ≠ 0 ∧ i.settled then i else { i with settled := true, mv := s.islandMv (x.pagesOf i) i.next }

theorem exec_regulatorSettled {k : ℕ} {i : Island} (hi : x.islands[k]? = some i) :
    ∃ t y j, exec (.regulatorSettled l k) s = .next t ∧ t.launch? l = some y ∧ y.islands[k]? = some j ∧
      (i.dp = 0 ∨ i.settled = false → j = { i with settled := true, mv := s.islandMv (x.pagesOf i) i.next }) ∧
      (i.dp ≠ 0 → i.settled = true → j = i) := by
  refine ⟨s.modLaunch l fun y => { y with islands := modAt y.islands k (regulated s x) }, { x with islands := modAt x.islands k (regulated s x) },
    regulated s x i, ?_, launch_modLaunch_of hx fun _ => rfl, ?_, fun h => ?_, fun hdp hs => if_pos ⟨hdp, hs⟩⟩
  · simp only [exec, execRegulatorSettled, hx]
    rfl
  · rw [getElem?_modAt_same, hi, Option.map_some]
  · exact if_neg fun ⟨hdp, hs⟩ => h.elim hdp fun hf => by simp [hf] at hs

end

/-! ### MARGIN_REPLAN (R197, R432) -/

theorem planOk_of_pairwise {plan : List Byte} (hlen : plan.length = 64) (hcode : ∀ b ∈ plan, b.toNat ≤ 150 ∨ b.toNat = 255)
    (hrise : plan.Pairwise fun a b => a.toNat ≤ b.toNat) : planOk plan = true := by
  simp only [planOk, Bool.and_eq_true, List.all_eq_true, beq_iff_eq, Bool.or_eq_true, decide_eq_true_eq]
  refine ⟨⟨hlen, fun b hb => (hcode b hb).imp_right fun h => BitVec.eq_of_toNat_eq h⟩, fun k hk => ?_⟩
  have hk : k + 1 < plan.length := by rw [hlen]; have := List.mem_range.1 hk; omega
  rw [List.getElem?_eq_getElem hk, List.getElem?_eq_getElem (Nat.lt_of_succ_lt hk)]
  exact List.pairwise_iff_getElem.1 hrise k (k + 1) _ hk (Nat.lt_succ_self k)

theorem exec_marginReplan_refused {s : State} {page : ℕ} {plan : List Byte} (h : plan.length ≠ 64 ∨ s.idlePage page = false) :
    exec (.marginReplan page plan) s = .next s := by
  have hguard : (planOk plan && s.idlePage page) = false := by
    rcases h with h | h <;> simp [planOk, h]
  simp only [exec, execMarginReplan, hguard, Bool.not_false, if_true]

theorem exec_marginReplan_taken {s : State} {page : ℕ} {plan : List Byte} (hplan : planOk plan = true) (hidle : s.idlePage page = true) :
    let u := s.modPage page fun p => { p with plan := plan }
    ∃ t, exec (.marginReplan page plan) s = .next t ∧ t.pages = u.pages ∧ t.mem = s.mem ∧ t.elems = s.elems ∧
      ((∀ p ∈ s.parts, ∀ l ∈ p.launches, page ∉ l.pages) → t = u) := by
  intro u
  let refs := s.parts.flatMap fun p => (p.launches.filter fun l => l.pages.contains page).map (·.ref)
  have hkeeps : KeepsView (fun _ => ()) u (refs.foldl State.capAll u) := .foldl (fun t l => ⟨(capAll_keeps t l).1, rfl⟩) refs u
  refine ⟨refs.foldl State.capAll u, ?_, hkeeps.pages, hkeeps.mem, hkeeps.elems, fun h => ?_⟩
  · simp only [exec, execMarginReplan, hplan, hidle, Bool.and_true, Bool.not_true, Bool.false_eq_true, if_false]
    rfl
  · have hnil : refs = [] := List.flatMap_eq_nil_iff.2 fun p hp => List.map_eq_nil_iff.2 (List.filter_eq_nil_iff.2 fun l hl => by
      simpa using h p hp l hl)
    rw [hnil]
    rfl

end Sys2Proof.Proofs
end

