-- ==== Sys2Proof/Proofs/BoundariesPassed.lean ====
section
/-! SUPPORT. Quota periods (R430) and fault records (R332, R333, R454), and the statement on boundaries. -/

namespace Sys2Proof.Proofs

open Sys2Proof Sys2Proof.Machine Sys2Proof.Claims Sys2Proof.Laws

/-! ### What of a partition no region holds -/

/-- A reading of a partition that its launches do not enter. -/
def OutsideLaunches {α : Type} (get : Part → α) : Prop := ∀ (p : Part) (ls : List Launch), get { p with launches := ls } = get p

theorem partView_modRegion {α : Type} {get : Part → α} (hget : OutsideLaunches get) (s : State) (n : ℕ) (r : RegionRef) (f : Region → Region) :
    KeepsView (partView get n) s (s.modRegion r f) :=
  partView_modPart s n r.l.n fun p => hget p _

/-! ### QUOTA_PERIOD_BOUNDARY (R343, R430) -/

/-- Whether a partition is enabled, its energy quota, what is spent of it, and the debt. -/
def quotaOf (p : Part) : Bool × Dword × Dword × Dword := (p.enable, p.equota, p.eqspent, p.eqdebt)

theorem quotaCheck_keeps (s : State) (n : ℕ) (r : RegionRef) : KeepsView (partView quotaOf n) s (s.quotaCheck r) := by
  have hregion (t : State) (f : Region → Region) : KeepsView (partView quotaOf n) t (t.modRegion r f) :=
    partView_modRegion (fun _ _ => rfl) t n r f
  unfold State.quotaCheck
  split
  · exact .refl _ s
  · split
    · dsimp only
      split
      · exact (hregion _ _).trans (hregion _ _)
      · split
        · exact (hregion _ _).trans (hregion _ _)
        · exact hregion _ _
    · exact .refl _ s

/-- The check of the regions without address generators, which reach no other boundary (R343). -/
def quotaChecked (s : State) (n : ℕ) : State :=
  (((s.part n).launches.flatMap fun l => (List.range l.regions.length).map fun k => (⟨l.ref, k⟩ : RegionRef)).filter s.noAgens).foldl
    (fun v r => v.quotaCheck r) s

/-- A partition in its next quota period: what was spent beyond the quota is carried (R430). -/
def nextPeriod (p : Part) : Part :=
  { p with eqdebt := BitVec.ofNat 64 (p.eqspent.toNat + p.eqdebt.toNat - p.equota.toNat), eqspent := 0 }

/-- A partition whose regions, pre-empted for the quota, are to resume. -/
def quotaResumed (p : Part) : Part := { p with launches := p.launches.map fun l => { l with regions := l.regions.map Region.quotaOver } }

theorem exec_quotaPeriodBoundary {s : State} {n : ℕ} (h : (s.part n).enable = true) : exec (.quotaPeriodBoundary n) s =
    .next (let v := (quotaChecked s n).modPart n nextPeriod
      if (v.part n).spent then v else v.modPart n quotaResumed) := by
  simp only [exec, execQuotaPeriodBoundary, h, Bool.not_true, Bool.false_eq_true, if_false]
  rfl

/-- As a period begins that the quota is not spent in, what was pre-empted for the quota is to resume (R430). -/
theorem quotaOver_st {g : Region} (h : g.quotaOver.quotaHeld = true) : g.quotaOver.st ≠ .preempted := by
  unfold Region.quotaOver at h ⊢
  split at h
  · exact absurd h Bool.false_ne_true
  · next hnot =>
    rw [if_neg hnot]
    intro hst
    exact hnot (by simp [hst, h])

theorem quotaPeriodBoundary_carries {s : State} {n : ℕ} (h : (s.part n).enable = true) :
    ∃ t, exec (.quotaPeriodBoundary n) s = .next t ∧ (t.part n).eqspent = 0 ∧ t.mem = s.mem ∧ (t.part n).equota = (s.part n).equota ∧
      (n < s.parts.length → (t.part n).eqdebt =
        BitVec.ofNat 64 ((s.part n).eqspent.toNat + (s.part n).eqdebt.toNat - (s.part n).equota.toNat)) ∧
      ((t.part n).spent = false → ∀ l ∈ (t.part n).launches, ∀ g ∈ l.regions, g.quotaHeld = true → g.st ≠ .preempted) := by
  have hkeeps : KeepsView (partView quotaOf n) s (quotaChecked s n) := .foldl (fun t r => quotaCheck_keeps t n r) _ s
  generalize hu : quotaChecked s n = u at hkeeps
  obtain ⟨hquota, hspent, hdebt⟩ : (u.part n).equota = (s.part n).equota ∧ (u.part n).eqspent = (s.part n).eqspent ∧
      (u.part n).eqdebt = (s.part n).eqdebt := by
    simpa [partView, quotaOf] using (congrArg Prod.snd hkeeps.2)
  have hn : n < u.parts.length := lt_length_of_enable ((congrArg Prod.fst hkeeps.2).trans h)
  have hv : (u.modPart n nextPeriod).part n = nextPeriod (u.part n) := part_modPart_same _ hn
  rw [exec_quotaPeriodBoundary h, hu]
  dsimp only
  rw [← hquota, ← hspent, ← hdebt]
  split
  · next hyes =>
    refine ⟨_, rfl, by rw [hv]; rfl, hkeeps.mem, by rw [hv]; rfl, fun _ => by rw [hv]; rfl, fun hno => ?_⟩
    exact absurd (hyes.symm.trans hno) (by decide)
  · have hw : ((u.modPart n nextPeriod).modPart n quotaResumed).part n = quotaResumed (nextPeriod (u.part n)) := by
      rw [part_modPart_same _ (by simpa using hn), hv]
    refine ⟨_, rfl, by rw [hw]; rfl, hkeeps.mem, by rw [hw]; rfl, fun _ => by rw [hw]; rfl, fun _ l hl g hg hheld => ?_⟩
    rw [hw] at hl
    obtain ⟨l, -, rfl⟩ := List.mem_map.1 hl
    obtain ⟨g, -, rfl⟩ := List.mem_map.1 hg
    exact quotaOver_st hheld

/-! ### FAULT_RECORD_WRITE: the operator's record (R454) -/

/-- The tenant's fault chain, and the records of ended launches that wait for it. -/
def tenantChain (p : Part) : List Record × Word × Word × Dword × BitVec 4 := (p.ended, p.fcwr, p.fcrd, p.fcbase, p.fcsize)

/-- Taking a record of the operator's that waits touches nothing of the tenant's chain. -/
theorem takeOpWaiting_keeps {s t : State} {m : ℕ} {r : Record} (n : ℕ) (h : s.takeOpWaiting m = some (r, t)) :
    KeepsView (partView tenantChain n) s t := by
  unfold State.takeOpWaiting at h
  dsimp only at h
  split at h
  · cases h; exact partView_modPart _ _ _ fun _ => rfl
  · split at h
    · cases h; exact partView_modRegion (fun _ _ => rfl) _ _ _ _
    · split at h
      · cases h; exact partView_modPart _ _ _ fun _ => rfl
      · split at h
        · cases h; exact partView_modPart _ _ _ fun _ => rfl
        · exact absurd h (Option.some_ne_none _).symm

theorem writeOperator_of_full {s : State} (n : ℕ) (h : s.mgmt.of.full = true) : s.writeOperator n = s := by
  rw [State.writeOperator, if_pos h]

theorem writeOperator_of_none {s : State} {n : ℕ} (h : s.takeOpWaiting n = none) : s.writeOperator n = s := by
  rw [State.writeOperator, h]
  split <;> rfl

/-- An operator's record of an ended launch is the first to be written. -/
theorem writeOperator_of_ended {s : State} {n : ℕ} {r : Record} {rest : List Record} (hr : (s.part n).opEnded = r :: rest)
    (h : s.mgmt.of.full = false) : s.writeOperator n = (s.modPart n fun p => { p with opEnded := rest }).putOperator r := by
  rw [State.writeOperator, h]
  simp only [State.takeOpWaiting, hr, Bool.false_eq_true, if_false]

theorem putOperator_part (s : State) (r : Record) (n : ℕ) : (s.putOperator r).part n = s.part n := rfl

theorem writeOperator_tenantChain (s : State) (n m : ℕ) :
    tenantChain ((s.writeOperator m).part n) = tenantChain (s.part n) ∧ (s.writeOperator m).mem = s.mem := by
  unfold State.writeOperator
  split
  · exact ⟨rfl, rfl⟩
  · split
    · exact ⟨rfl, rfl⟩
    · next r t h =>
      have hkeeps := takeOpWaiting_keeps n h
      exact ⟨hkeeps.2, hkeeps.mem⟩

/-! ### FAULT_RECORD_WRITE: the tenant's record (R332, R333) -/

/-- A waiting record written to the tenant's chain where there is room. -/
def writeTenant (s : State) (n : ℕ) : State :=
  if (s.part n).chainFull then s
  else match s.takeWaiting n with
  | none => s
  | some (r, t) => t.putRecord n r

theorem exec_faultRecordWrite (n : ℕ) (s : State) : exec (.faultRecordWrite n) s = .next (writeTenant (s.writeOperator n) n) := by
  simp only [exec, execFaultRecordWrite, writeTenant]
  split
  · rfl
  · cases (s.writeOperator n).takeWaiting n <;> rfl

theorem takeWaiting_keeps {s t : State} {m : ℕ} {r : Record} (n : ℕ) (h : s.takeWaiting m = some (r, t)) :
    KeepsView (partView (·.opEnded) n) s t := by
  unfold State.takeWaiting at h
  dsimp only at h
  split at h
  · cases h; exact partView_modPart _ _ _ fun _ => rfl
  · split at h
    · cases h; exact partView_modRegion (fun _ _ => rfl) _ _ _ _
    · split at h
      · cases h; exact partView_modPart _ _ _ fun _ => rfl
      · split at h
        · cases h; exact partView_modPart _ _ _ fun _ => rfl
        · exact absurd h (Option.some_ne_none _).symm

/-- A record written to the tenant's chain touches nothing of the operator's. -/
theorem putRecord_keeps (s : State) (n m : ℕ) (r : Record) :
    (s.putRecord m r).mmem = s.mmem ∧ (s.putRecord m r).mgmt = s.mgmt ∧ ((s.putRecord m r).part n).opEnded = (s.part n).opEnded := by
  unfold State.putRecord State.msi
  dsimp only
  obtain ⟨mem, ps, h⟩ := ioWrite_eq s m (ringAt (s.part m).fcbase (s.part m).fcwr (max 4 (s.part m).fcsize.toNat) faultBytes)
    ((setAt r 7 (BitVec.ofNat 64 ((s.part m).fcwr + 1).toNat)).flatMap fun d => toBytes 8 d.toNat)
  rw [h]
  refine ⟨rfl, rfl, (part_modPart_keeps (·.opEnded) _ _ _ ?_).trans (part_modPart_keeps (·.opEnded) _ _ _ ?_)⟩ <;> exact fun _ => rfl

theorem writeTenant_keeps (s : State) (n m : ℕ) :
    (writeTenant s m).mmem = s.mmem ∧ (writeTenant s m).mgmt = s.mgmt ∧ ((writeTenant s m).part n).opEnded = (s.part n).opEnded := by
  unfold writeTenant
  split
  · exact ⟨rfl, rfl, rfl⟩
  · split
    · exact ⟨rfl, rfl, rfl⟩
    · next r t h =>
      have hkeeps := takeWaiting_keeps n h
      obtain ⟨hmmem, hmgmt, hended⟩ := putRecord_keeps t n m r
      exact ⟨hmmem.trans hkeeps.mmem, hmgmt.trans hkeeps.mgmt, hended.trans hkeeps.2⟩

/-- A record of an ended launch is the first to be written. -/
theorem writeTenant_of_ended {s : State} {n : ℕ} {r : Record} {rest : List Record} (hr : (s.part n).ended = r :: rest)
    (h : (s.part n).chainFull = false) : writeTenant s n = (s.modPart n fun p => { p with ended := rest }).putRecord n r := by
  simp only [writeTenant, h, State.takeWaiting, hr, Bool.false_eq_true, if_false]

theorem putRecord_mem (s : State) (n : ℕ) (r : Record) : (s.putRecord n r).mem = (s.ioWrite n
    ((s.part n).fcbase.toNat + 64 * ((s.part n).fcwr.toNat % 2 ^ max 4 (s.part n).fcsize.toNat))
    ((setAt r 7 (BitVec.ofNat 64 ((s.part n).fcwr + 1).toNat)).flatMap fun d => toBytes 8 d.toNat)).mem := rfl

theorem putRecord_part {s : State} {n : ℕ} (r : Record) (hn : n < s.parts.length) :
    (s.putRecord n r).part n = { s.part n with fcwr := (s.part n).fcwr + 1, msi := modAt (s.part n).msi 1 (· + 1) } := by
  unfold State.putRecord
  dsimp only
  have hpart (a : ℕ) (bs : List Byte) : (s.ioWrite n a bs).part n = s.part n := by rw [State.part, ioWrite_parts, State.part]
  rw [State.msi, part_modPart_same _ (by simpa using hn), part_modPart_same _ (by simpa using hn), hpart]

theorem lt_length_of_ended {s : State} {n : ℕ} {r : Record} {rest : List Record} (h : (s.part n).ended = r :: rest) : n < s.parts.length := by
  by_contra hn
  rw [part_eq_default (Nat.le_of_not_lt hn)] at h
  exact List.cons_ne_nil _ _ h.symm

theorem chainFull_iff (p : Part) : p.chainFull = true ↔ (p.fcwr - p.fcrd).toNat = 2 ^ max 4 p.fcsize.toNat := by
  rw [Part.chainFull, ringFull, beq_iff_eq]

theorem full_iff (o : Ring) : o.full = true ↔ (o.wr - o.rd).toNat = 2 ^ max 4 o.size.toNat := by
  rw [Ring.full, ringFull, beq_iff_eq]

/-! ### FAULT_RECORD_WRITE -/

section
variable {s : State} {n : ℕ}

theorem faultRecordWrite_full (h : ((s.part n).fcwr - (s.part n).fcrd).toNat = 2 ^ max 4 (s.part n).fcsize.toNat) :
    ∃ t, exec (.faultRecordWrite n) s = .next t ∧ (t.part n).ended = (s.part n).ended ∧ (t.part n).fcwr = (s.part n).fcwr ∧ t.mem = s.mem := by
  obtain ⟨hchain, hmem⟩ := writeOperator_tenantChain s n n
  obtain ⟨hended, hwr, hrd, -, hsize⟩ : _ ∧ _ ∧ _ ∧ _ ∧ _ := by simpa only [tenantChain, Prod.mk.injEq] using hchain
  refine ⟨s.writeOperator n, ?_, hended, hwr, hmem⟩
  rw [exec_faultRecordWrite, writeTenant, if_pos ((chainFull_iff _).2 (by rw [hwr, hrd, hsize, h]))]

theorem faultRecordWrite_operatorFull (h : (s.mgmt.of.wr - s.mgmt.of.rd).toNat = 2 ^ max 4 s.mgmt.of.size.toNat) :
    ∃ t, exec (.faultRecordWrite n) s = .next t ∧ t.mmem = s.mmem ∧ t.mgmt = s.mgmt ∧ (t.part n).opEnded = (s.part n).opEnded := by
  refine ⟨_, exec_faultRecordWrite n s, ?_⟩
  rw [writeOperator_of_full n ((full_iff _).2 h)]
  exact writeTenant_keeps s n n

theorem faultRecordWrite_operatorRecord (hn : n < s.parts.length) {r : Record} {rest : List Record} (hr : (s.part n).opEnded = r :: rest)
    (h : (s.mgmt.of.wr - s.mgmt.of.rd).toNat ≠ 2 ^ max 4 s.mgmt.of.size.toNat) : ∃ t, exec (.faultRecordWrite n) s = .next t ∧
      (t.part n).opEnded = rest ∧ t.mgmt = { s.mgmt with of := { s.mgmt.of with wr := s.mgmt.of.wr + 1 } } ∧
      t.mmem = s.mmem.write (s.mgmt.of.base.toNat + 64 * (s.mgmt.of.wr.toNat % 2 ^ max 4 s.mgmt.of.size.toNat))
        ((setAt r 7 (BitVec.ofNat 64 (s.mgmt.of.wr.toNat % 2 ^ max 4 s.mgmt.of.size.toNat + 1))).flatMap fun d => toBytes 8 d.toNat) := by
  have hfull : s.mgmt.of.full = false := Bool.eq_false_iff.2 fun hf => h ((full_iff _).1 hf)
  refine ⟨_, exec_faultRecordWrite n s, ?_⟩
  rw [writeOperator_of_ended hr hfull]
  obtain ⟨hmmem, hmgmt, hended⟩ := writeTenant_keeps ((s.modPart n fun p => { p with opEnded := rest }).putOperator r) n n
  refine ⟨?_, hmgmt, hmmem⟩
  rw [hended, putOperator_part, part_modPart_same _ hn]

theorem faultRecordWrite_record {r : Record} {rest : List Record} (hr : (s.part n).ended = r :: rest)
    (h : ((s.part n).fcwr - (s.part n).fcrd).toNat ≠ 2 ^ max 4 (s.part n).fcsize.toNat) : ∃ t, exec (.faultRecordWrite n) s = .next t ∧
      (t.part n).ended = rest ∧ (t.part n).fcwr = (s.part n).fcwr + 1 ∧
      (s.takeOpWaiting n = none ∨ (s.mgmt.of.wr - s.mgmt.of.rd).toNat = 2 ^ max 4 s.mgmt.of.size.toNat → t.mem =
        ((s.modPart n fun p => { p with ended := rest }).ioWrite n
          ((s.part n).fcbase.toNat + 64 * ((s.part n).fcwr.toNat % 2 ^ max 4 (s.part n).fcsize.toNat))
          ((setAt r 7 (BitVec.ofNat 64 ((s.part n).fcwr + 1).toNat)).flatMap fun d => toBytes 8 d.toNat)).mem) := by
  obtain ⟨hchain, hmem⟩ := writeOperator_tenantChain s n n
  obtain ⟨hended, hwr, hrd, -, hsize⟩ : _ ∧ _ ∧ _ ∧ _ ∧ _ := by simpa only [tenantChain, Prod.mk.injEq] using hchain
  have hlen : n < (s.writeOperator n).parts.length := lt_length_of_ended (hended.trans hr)
  have hfull : ((s.writeOperator n).part n).chainFull = false :=
    Bool.eq_false_iff.2 fun hf => h (by rw [← hwr, ← hrd, ← hsize]; exact (chainFull_iff _).1 hf)
  have hpart : ((s.writeOperator n).modPart n fun p => { p with ended := rest }).part n = { (s.writeOperator n).part n with ended := rest } :=
    part_modPart_same _ hlen
  have hexec := exec_faultRecordWrite n s
  rw [writeTenant_of_ended (hended.trans hr) hfull] at hexec
  refine ⟨_, hexec, ?_, ?_, fun hop => ?_⟩
  · rw [putRecord_part r (by simpa using hlen), hpart]
  · rw [putRecord_part r (by simpa using hlen), hpart, ← hwr]
  · have hsame : s.writeOperator n = s := hop.elim writeOperator_of_none fun hf => writeOperator_of_full n ((full_iff _).2 hf)
    rw [hsame] at hpart ⊢
    rw [putRecord_mem, hpart]

end

/-! ### The statement -/

/-- Settles O55: each event of the timetable by its own lemma; the permitted ratios by the order of the rational numbers. -/
theorem boundariesPassed : Obligations.BoundariesPassed := by
  refine ⟨fun s l x hx href => ⟨fun h => ⟨exec_hyperperiodBoundary_waits hx h, exec_rateChangeApply_waits hx (h.imp_right .inl)⟩,
      fun hpause htick => ⟨exec_hyperperiodBoundary_ended hx hpause htick, fun h => exec_rateChangeApply_waits hx (.inr (.inr h)),
        exec_rateChangeApply_applies hx href hpause htick⟩, fun k i => exec_regulatorSettled hx⟩,
    fun f r hf => ?ratios, fun s page plan => ⟨fun hlen hcode hrise => exec_marginReplan_taken (planOk_of_pairwise hlen hcode hrise),
      exec_marginReplan_refused⟩, fun s n => quotaPeriodBoundary_carries,
    fun s n hn => ⟨faultRecordWrite_full, ⟨faultRecordWrite_operatorFull, fun r rest => faultRecordWrite_operatorRecord hn⟩,
      fun r rest => faultRecordWrite_record⟩⟩
  case ratios =>
    obtain ⟨hleast, hnoLeast⟩ := permAtLeast_spec hf
    obtain ⟨hmost, hnoMost⟩ := permAtMost_spec hf
    exact ⟨hleast r, hmost r, hnoLeast, hnoMost⟩

end Sys2Proof.Proofs
end

