-- ==== Sys2Proof/Proofs/StoppedRegions.lean ====
section
/-! SUPPORT. What a region is after the operations that stop it and let it go on (R203, R227, R229, R334, R342, R343): pre-emption asked, the return to the ratios
at which it stopped, a wavefront abandoned, and a drain. -/

namespace Sys2Proof.Proofs

open Sys2Proof Sys2Proof.Machine Sys2Proof.Claims Sys2Proof.Laws

/-! ### Regions and elements under shared operations -/

theorem region_eq_of_launch {s t : State} {r : RegionRef} (h : t.launch? r.l = s.launch? r.l) : t.region? r = s.region? r := by
  rw [State.region?, h, State.region?]

theorem region_modRegion_of {s : State} {r : RegionRef} {g : Region} (f : Region → Region) (hg : s.region? r = some g) :
    (s.modRegion r f).region? r = some (f g) := by
  rw [region_modRegion_same, hg, Option.map_some]

theorem exists_launch_of_region {s : State} {r : RegionRef} {g : Region} (hg : s.region? r = some g) :
    ∃ l, s.launch? r.l = some l ∧ l.regions[r.k]? = some g := by
  cases hl : s.launch? r.l with
  | none => simp [State.region?, hl] at hg
  | some l => exact ⟨l, rfl, by simpa [State.region?, hl] using hg⟩

/-- What keeps the timetable of a launch keeps its regions. -/
theorem region_of_timetable {s t : State} {r : RegionRef} (h : KeepsView (launchView timetable r.l) s t) : t.region? r = s.region? r := by
  have hread (u : State) : u.region? r = (launchView timetable r.l u).bind fun x => x.2[r.k]? := by
    rw [State.region?, launchView]
    cases u.launch? r.l <;> rfl
  rw [hread, hread, h.2]

theorem elem_modRegionElems_of {s : State} {r : RegionRef} {e : ℕ} {x : Elem} (f : Elem → Elem) (hx : s.elem? e = some x) (hr : x.rref = r) :
    (s.modRegionElems r f).elem? e = some (f x) := by
  subst hr
  exact elem_modRegionElems f hx

/-! ### Pre-emption asked (R229, R342) -/

theorem askPreempt_waving {g : Region} (quota : Bool) (hst : g.st = .running) (hw : g.waving = true) :
    g.askPreempt quota = { g with pre := true, quotaHeld := g.quotaHeld || quota } := by
  simp [Region.askPreempt, hst, hw]

theorem askPreempt_stops {g : Region} (quota : Bool) (hst : g.st = .running) (hw : g.waving = false) :
    g.askPreempt quota = { g with st := .preempting, preemptAge := 0, quotaHeld := quota } := by
  simp [Region.askPreempt, hst, hw]

/-! ### A region that goes on (R334, R343) -/

theorem goOn_of_not_pre {g : Region} (h : g.pre = false) : g.goOn = { g with st := .running, resume := false, ending := false } := by
  simp [Region.goOn, h]

theorem goOn_of_pre_waving {g : Region} (h : g.pre = true) (hw : g.waving = true) :
    g.goOn = { g with st := .running, resume := false, ending := false, pre := true } := by
  simp only [Region.goOn, h, if_true]
  exact (askPreempt_waving (g := { g with st := .running, resume := false, ending := false, pre := false }) false rfl hw).trans (by simp)

theorem goOn_of_pre_still {g : Region} (h : g.pre = true) (hw : g.waving = false) :
    g.goOn = { g with st := .preempting, resume := false, ending := false, pre := false, preemptAge := 0, quotaHeld := false } := by
  simp only [Region.goOn, h, if_true]
  exact askPreempt_stops (g := { g with st := .running, resume := false, ending := false, pre := false }) false rfl hw

@[simp] theorem goOn_resume (g : Region) : g.goOn.resume = false := by
  cases hp : g.pre with
  | false => rw [goOn_of_not_pre hp]
  | true =>
    cases hw : g.waving with
    | false => rw [goOn_of_pre_still hp hw]
    | true => rw [goOn_of_pre_waving hp hw]

theorem goOn_st_running {g : Region} (h : g.pre = false ∨ g.waving = true) : g.goOn.st = .running := by
  cases hp : g.pre with
  | false => rw [goOn_of_not_pre hp]
  | true => rw [goOn_of_pre_waving hp (h.resolve_left (by simp [hp]))]

theorem goOn_st_preempting {g : Region} (h : g.pre = true) (hw : g.waving = false) : g.goOn.st = .preempting ∧ g.goOn.preemptAge = 0 := by
  rw [goOn_of_pre_still h hw]
  exact ⟨rfl, rfl⟩

/-! ### Back at the ratios at which a region stopped (R203) -/

/-- A region whose windows restart, with the ratios at which it stopped taken. -/
def rejoinedRegion (g : Region) : Region := { g.mapSidings Siding.restart with stopRatios := [] }

section
variable {s : State} {r : RegionRef} {g : Region} (hg : s.region? r = some g)
include hg

/-- The return to the ratios changes, besides the islands, the windows of the region. -/
theorem rejoin_eq : ∃ u : State, s.rejoin r = u.capAll r.l ∧ u.region? r = some (rejoinedRegion g) ∧ u.pages = s.pages ∧
    u.elems = (s.modRegionElems r fun x => { x with win := [], begun := false }).elems := by
  obtain ⟨l, hl, -⟩ := exists_launch_of_region hg
  let is := g.stopRatios.foldl (fun is (k, p, q) => modAt is k fun i => s.rejoined l i ⟨p, q⟩) l.islands
  let t := s.modLaunch r.l fun x => { x with islands := is }
  have ht : t.region? r = some g := by
    have hlaunch : t.launch? r.l = some { l with islands := is } := launch_modLaunch_of hl fun _ => rfl
    rw [State.region?, hl] at hg
    rw [State.region?, hlaunch]
    exact hg
  refine ⟨(t.modRegion r rejoinedRegion).modRegionElems r fun x => { x with win := [], begun := false }, ?_,
    region_modRegion_of rejoinedRegion ht, rfl, rfl⟩
  rw [State.rejoin, hl, hg]
  rfl

theorem rejoin_region : (s.rejoin r).region? r = some (rejoinedRegion g) := by
  obtain ⟨u, h, hregion, -, -⟩ := rejoin_eq hg
  rw [h, region_of_timetable (capAll_keeps u r.l), hregion]

theorem rejoin_pages : (s.rejoin r).pages = s.pages := by
  obtain ⟨u, h, -, hpages, -⟩ := rejoin_eq hg
  rw [h, (capAll_keeps u r.l).pages, hpages]

theorem rejoin_elem {e : ℕ} {x : Elem} (hx : s.elem? e = some x) (hr : x.rref = r) :
    (s.rejoin r).elem? e = some { x with win := [], begun := false } := by
  obtain ⟨u, h, -, -, helems⟩ := rejoin_eq hg
  rw [h, State.elem?, (capAll_keeps u r.l).elems, helems, ← State.elem?]
  exact elem_modRegionElems_of _ hx hr

end

/-! ### A held region started again (R334) -/

theorem page_modPage_same {s : State} {k : ℕ} (f : Page → Page) (h : k < s.pages.length) : (s.modPage k f).page k = f (s.page k) := by
  simp [State.page, List.getD_eq_getElem?_getD, getElem?_modAt_same, List.getElem?_eq_getElem h]

theorem page_modPage_other (s : State) {j k : ℕ} (f : Page → Page) (h : j ≠ k) : (s.modPage j f).page k = s.page k := by
  simp [State.page, List.getD_eq_getElem?_getD, getElem?_modAt_other _ _ _ _ h]

/-- Slices that serve again, those of a list of pages and those that served already. -/
theorem halted_foldl_eq_false {ks : List ℕ} {k : ℕ} {s : State} (h : k ∈ ks ∨ (s.page k).halted = false) (hk : k < s.pages.length) :
    ((ks.foldl (fun u j => u.modPage j fun p => { p with halted := false }) s).page k).halted = false := by
  induction ks generalizing s with
  | nil => exact h.resolve_left List.not_mem_nil
  | cons j ks ih =>
    refine ih ?_ (by simpa using hk)
    by_cases hj : j = k
    · subst hj
      exact .inr (congrArg (·.halted) (page_modPage_same _ hk))
    · exact h.imp (fun hmem => (List.mem_cons.1 hmem).resolve_left (Ne.symm hj)) fun hold => (congrArg (·.halted) (page_modPage_other s _ hj)).trans hold

/-- A held region that starts again goes on, and its slices serve. -/
theorem restart_spec {s : State} {r : RegionRef} {g : Region} (hg : s.region? r = some g) :
    (∃ h, (s.restart r g).region? r = some h ∧ h.st = g.goOn.st ∧ h.resume = false ∧ h.preemptAge = g.goOn.preemptAge) ∧
      ∀ k ∈ g.pages, k < s.pages.length → ((s.restart r g).page k).halted = false := by
  have hgo : (s.modRegion r (·.goOn)).region? r = some g.goOn := region_modRegion_of (·.goOn) hg
  have hserve (k : ℕ) (hk : k ∈ g.pages) (hlen : k < s.pages.length) :=
    halted_foldl_eq_false (s := s.modRegion r (·.goOn)) (.inl hk) hlen
  obtain ⟨ps, hps⟩ := foldl_modPage_eq (fun p => { p with halted := false }) g.pages (s.modRegion r (·.goOn))
  have ht : ({ s.modRegion r (·.goOn) with pages := ps } : State).region? r = some g.goOn := hgo
  unfold State.restart
  dsimp only
  simp only [hps] at hserve ⊢
  split
  · exact ⟨⟨_, ht, rfl, goOn_resume g, rfl⟩, hserve⟩
  · refine ⟨⟨_, rejoin_region ht, rfl, goOn_resume g, rfl⟩, fun k hk hlen => ?_⟩
    rw [State.page, rejoin_pages ht]
    exact hserve k hk hlen

/-! ### A wavefront abandoned, and a drain (R229, R252, R436) -/

theorem completeEntry_launches (s : State) (n q : ℕ) (at_ : Option ℕ) (load stage m : ℕ) :
    ((s.completeEntry n q at_ load stage).part m).launches = (s.part m).launches := by
  have hwrite (t : State) (ht : t.parts = s.parts) :
      (((t.modPart n fun p => { p with qseq := modAt p.qseq q (· + 1) }).msi n 0).part m).launches = (s.part m).launches := by
    have hpart : t.part m = s.part m := by rw [State.part, ht, State.part]
    rw [← hpart, State.msi]
    refine (part_modPart_keeps (·.launches) _ _ _ ?_).trans (part_modPart_keeps (·.launches) _ _ _ ?_) <;> exact fun _ => rfl
  unfold State.completeEntry
  cases at_ with
  | none => exact hwrite s rfl
  | some a => exact hwrite _ (by simp)

/-- The region of an abandoned wavefront is still there. -/
theorem exists_region_abandonWave {s : State} {r : RegionRef} {h : Region} (g : Region) (hr : s.region? r = some h) :
    ∃ v, (s.abandonWave r g).region? r = some v := by
  unfold State.abandonWave
  split
  · exact ⟨h, hr⟩
  · split
    · exact ⟨h, hr⟩
    · extract_lets t
      have ht : t.region? r = some h := hr
      obtain ⟨a, b, hmark⟩ := region_markRegions (region_modRegion_of (fun v => { v with wave := none }) ht)
      refine ⟨_, (region_eq_of_launch ?_).trans hmark⟩
      rw [State.launch?, completeEntry_launches, State.launch?]

/-- A region drained for a page is swapped out until it has been rolled back and the page has come. -/
theorem drain_region {s : State} {r : RegionRef} {g : Region} (l : Launch) (page : ℕ) (trap : Option FaultReg) (hg : s.region? r = some g)
    (hst : g.st ≠ .swapped) :
    ∃ h, (s.drain r l g page trap).region? r = some h ∧ h.st = .swapped ∧ h.rolling = some false ∧ h.waitPage = some page := by
  have hdetach : ((s.modRegionElems r (·.detach page)).modRegion r (·.detach page)).region? r = some (g.detach page) :=
    region_modRegion_of (·.detach page) hg
  obtain ⟨v, hv⟩ := exists_region_abandonWave g hdetach
  unfold State.drain
  dsimp only
  rw [if_neg (by simpa using hst)]
  exact ⟨_, region_modRegion_of _ hv, rfl, rfl, rfl⟩

end Sys2Proof.Proofs
end

