-- ==== Sys2Proof/Proofs/RegionsStopAndResume.lean ====
section
/-! SUPPORT. The commands to a stopped region, pre-emption, resumption and the wait for a page (R227, R229, R252, R334, R342, R343, R436), and the statement on
them. -/

namespace Sys2Proof.Proofs

open Sys2Proof Sys2Proof.Machine Sys2Proof.Claims Sys2Proof.Laws

section
variable {s : State} {r : RegionRef} {g : Region} (hg : s.region? r = some g)
include hg

/-! ### FCCMD_RESUME (R334) -/

theorem exec_fccmdResume : exec (.fccmdResume r.l.n r.l.q r.l.seq r.k) s =
    if g.st != .held && g.st != .frozen then .next s
    else if g.st == .held && !(s.faultsOf r g).isEmpty then .next s
    else if !g.waiting.isEmpty || !g.opWaiting.isEmpty || g.rolling.isSome then .next (s.modRegion r fun h => { h with resume := true })
    else if g.st == .held then .next (s.restart r g)
    else .next ((s.modRegionElems r (·.thaw)).modRegion r (·.goOn)) := by
  have hname : cmdRegion r.l.n r.l.q r.l.seq r.k = r := rfl
  simp only [exec, execFccmdResume, hname, hg]

theorem fccmdResume_faults (hst : g.st = .held) (h : s.faultsOf r g ≠ []) : exec (.fccmdResume r.l.n r.l.q r.l.seq r.k) s = .next s := by
  rw [exec_fccmdResume hg]
  simp [hst, h]

theorem fccmdResume_waits (hst : (g.st = .held ∧ s.faultsOf r g = []) ∨ g.st = .frozen) (h : g.waiting ≠ [] ∨ g.opWaiting ≠ [] ∨ g.rolling ≠ none) :
    exec (.fccmdResume r.l.n r.l.q r.l.seq r.k) s = .next (s.modRegion r fun h => { h with resume := true }) := by
  have hwait : (!g.waiting.isEmpty || !g.opWaiting.isEmpty || g.rolling.isSome) = true := by
    simpa [or_assoc, Option.isSome_iff_ne_none] using h
  rw [exec_fccmdResume hg, hwait]
  rcases hst with ⟨hheld, hno⟩ | hfrozen
  · simp [hheld, hno]
  · simp [hfrozen]

theorem fccmdResume_held (hst : g.st = .held) (hno : s.faultsOf r g = []) (hw : g.waiting = []) (ho : g.opWaiting = []) (hr : g.rolling = none) :
    exec (.fccmdResume r.l.n r.l.q r.l.seq r.k) s = .next (s.restart r g) := by
  rw [exec_fccmdResume hg]
  simp [hst, hno, hw, ho, hr]

theorem fccmdResume_frozen (hst : g.st = .frozen) (hw : g.waiting = []) (ho : g.opWaiting = []) (hr : g.rolling = none) :
    exec (.fccmdResume r.l.n r.l.q r.l.seq r.k) s = .next ((s.modRegionElems r (·.thaw)).modRegion r (·.goOn)) := by
  rw [exec_fccmdResume hg]
  simp [hst, hw, ho, hr]

omit hg in
/-- The slot that a breakpoint stopped passes it once (R329). -/
theorem thaw_of_break {x : Elem} {f : FaultReg} (hf : x.fault = some f) (hcls : f.cls = 12) :
    x.thaw = { x with fault := none, stopped := false, brkPass := some (f.no, f.blk, f.slot) } := by
  simp only [Elem.thaw, hf, hcls, tcBreak, if_true]

/-- A stopped region, of which no record waits, goes on: a held one with its slices, a frozen one with its elements (R334). -/
theorem fccmdResume_goes_on (hst : (g.st = .held ∧ s.faultsOf r g = []) ∨ g.st = .frozen) (hw : g.waiting = []) (ho : g.opWaiting = [])
    (hr : g.rolling = none) : ∃ t h, exec (.fccmdResume r.l.n r.l.q r.l.seq r.k) s = .next t ∧ t.region? r = some h ∧ h.resume = false ∧
      (g.pre = false ∨ g.waving = true → h.st = .running) ∧ (g.pre = true → g.waving = false → h.st = .preempting ∧ h.preemptAge = 0) ∧
      (g.st = .held → ∀ p ∈ g.pages, p < s.pages.length → (t.page p).halted = false) ∧
      (g.st = .frozen → ∀ e x f, s.elem? e = some x → x.rref = r → x.fault = some f → f.cls = 12 → ∃ y, t.elem? e = some y ∧
        y.fault = none ∧ y.stopped = false ∧ y.brkPass = some (f.no, f.blk, f.slot)) := by
  rcases hst with ⟨hheld, hno⟩ | hfrozen
  · obtain ⟨⟨h, hregion, hst, hresume, hage⟩, hserve⟩ := restart_spec hg
    refine ⟨s.restart r g, h, fccmdResume_held hg hheld hno hw ho hr, hregion, hresume, fun hp => hst.trans (goOn_st_running hp),
      fun hp hwav => ?_, fun _ => hserve, fun hf => absurd (hheld.symm.trans hf) (by decide)⟩
    rw [hst, hage]
    exact goOn_st_preempting hp hwav
  · refine ⟨_, g.goOn, fccmdResume_frozen hg hfrozen hw ho hr, region_modRegion_of (·.goOn) hg, goOn_resume g, goOn_st_running,
      goOn_st_preempting, fun hh => absurd (hfrozen.symm.trans hh) (by decide), fun _ e x f hx hxr hf hcls => ?_⟩
    have hthaw := thaw_of_break hf hcls
    exact ⟨x.thaw, elem_modRegionElems_of (·.thaw) hx hxr, by rw [hthaw], by rw [hthaw], by rw [hthaw]⟩

/-! ### FCCMD_END (R334) and PREEMPT (R227, R229, R342) -/

theorem exec_fccmdEnd (hst : g.st = .held ∨ g.st = .frozen) : exec (.fccmdEnd r.l.n r.l.q r.l.seq r.k) s =
    if s.settled r g then .next (s.abort r) else .next (s.modRegion r fun h => { h with ending := true }) := by
  have hname : cmdRegion r.l.n r.l.q r.l.seq r.k = r := rfl
  simp only [exec, execFccmdEnd, hname, hg]
  rcases hst with hst | hst <;> simp [hst]

theorem exec_preempt_stopped (hst : g.st = .held ∨ g.st = .frozen) : exec (.preempt r) s = .next (s.modRegion r fun h => { h with pre := true }) := by
  rcases hst with hst | hst <;> simp only [exec, execPreempt, hg, hst]

theorem exec_preempt_running (hst : g.st = .running) : exec (.preempt r) s =
    .next (s.modRegion r fun h => ({ h with pre := false }).askPreempt h.quotaHeld) := by
  simp only [exec, execPreempt, hg, hst]

theorem exec_preempt_preempting (hst : g.st = .preempting) : exec (.preempt r) s =
    if s.emptied r g && g.portFault.isNone then .next (s.swapOut r g) else .next s := by
  simp only [exec, execPreempt, hg, hst]

/-- A running region asked to pre-empt stops at its boundaries, or, with a wavefront on its way, after it (R229, R342). -/
theorem preempt_running (hst : g.st = .running) : ∃ t h, exec (.preempt r) s = .next t ∧ t.region? r = some h ∧
    (g.waving = false → h.st = .preempting ∧ h.preemptAge = 0) ∧ (g.waving = true → h.st = .running ∧ h.pre = true) := by
  refine ⟨_, _, exec_preempt_running hg hst, region_modRegion_of _ hg, fun hw => ?_, fun hw => ?_⟩
  · rw [askPreempt_stops (g := { g with pre := false }) _ hst hw]
    exact ⟨rfl, rfl⟩
  · rw [askPreempt_waving (g := { g with pre := false }) _ hst hw]
    exact ⟨hst, rfl⟩

/-- A replayable region that does not empty in time goes back to its cut (R342). -/
theorem preemptionTimeout_rolls (hst : g.st = .preempting) (hage : 2 ^ 24 ≤ g.preemptAge) (hrep : g.replayable = true) (hsave : g.save ≠ 0) :
    ∃ t h, exec (.preemptionTimeout r) s = .next t ∧ t.region? r = some h ∧ h.st = .preempted ∧ h.rolling = some false ∧ h.out = false := by
  have hguard : (g.st != .preempting || decide (g.preemptAge < preemptLimit) || !g.replayable || decide (g.save = 0)) = false := by
    rw [decide_eq_false (Nat.not_lt.2 hage : ¬ g.preemptAge < preemptLimit)]
    simp [hst, hrep, hsave]
  have hexec : exec (.preemptionTimeout r) s = .next (s.modRegion r fun h =>
      { h with st := .preempted, rolling := some false, out := false, stopRatios := ((s.launch? r.l).map fun l => l.ratiosOf r.k).getD [] }) := by
    simp only [exec, execPreemptionTimeout, hg, hguard, Bool.false_eq_true, if_false]
  exact ⟨_, _, hexec, region_modRegion_of _ hg, rfl, rfl, rfl⟩

/-! ### RESUME_REGION (R203, R342) -/

theorem resumeRegion_waits (h : g.rolling ≠ none ∨ g.waiting ≠ [] ∨ g.opWaiting ≠ [] ∨ g.quotaHeld = true) :
    exec (.resumeRegion r) s = .next s := by
  have hguard : (g.st != .preempted || g.rolling.isSome || !g.waiting.isEmpty || !g.opWaiting.isEmpty || g.quotaHeld) = true := by
    rcases h with h | h | h | h <;> simp [Option.isSome_iff_ne_none, h]
  simp only [exec, execResumeRegion, hg, hguard, if_true]

omit hg in
/-- A region that runs again after a pre-emption. -/
def resumedRegion (h : Region) : Region := { h with st := .running, resume := false, pre := false, revoked := false }

omit hg in
/-- The state in which the working sets of a pre-empted region are back. -/
def setsBack (s : State) (r : RegionRef) (g : Region) : State := (if g.out then s.modRegionElems r (·.reload) else s).swapIn r g

theorem exec_resumeRegion (hst : g.st = .preempted) (hr : g.rolling = none) (hw : g.waiting = []) (ho : g.opWaiting = []) (hq : g.quotaHeld = false) :
    exec (.resumeRegion r) s = .next (((setsBack s r g).modRegion r resumedRegion).rejoin r) := by
  have hguard : (g.st != .preempted || g.rolling.isSome || !g.waiting.isEmpty || !g.opWaiting.isEmpty || g.quotaHeld) = false := by
    simp [hst, hr, hw, ho, hq]
  simp only [exec, execResumeRegion, hg, hguard, Bool.false_eq_true, if_false]
  rfl

theorem setsBack_region : (setsBack s r g).region? r = some { g with out := false } := by
  unfold setsBack State.swapIn
  cases hout : g.out with
  | false =>
    simp only [Bool.false_eq_true, if_false]
    rw [hg, ← hout]
  | true => exact region_modRegion_of _ hg

omit hg in
/-- The working set of an element of a region changes where the sets had been swapped (R227). -/
theorem setsBack_elem (g : Region) {e : ℕ} {x : Elem} (hx : s.elem? e = some x) (hr : x.rref = r) :
    ∃ y, (setsBack s r g).elem? e = some y ∧ y.rref = r ∧ y.set = if g.out then 1 - x.set else x.set := by
  unfold setsBack State.swapIn
  cases hout : g.out with
  | false => exact ⟨x, hx, hr, rfl⟩
  | true =>
    have hreload : (s.modRegionElems r (·.reload)).elem? e = some x.reload := elem_modRegionElems_of (·.reload) hx hr
    exact ⟨x.reload.swap, elem_modRegionElems_of (·.swap) hreload hr, hr, rfl⟩

/-- A pre-empted region runs again, its elements with the sets that they had (R342). -/
theorem resumeRegion_runs (hst : g.st = .preempted) (hr : g.rolling = none) (hw : g.waiting = []) (ho : g.opWaiting = [])
    (hq : g.quotaHeld = false) : ∃ t h, exec (.resumeRegion r) s = .next t ∧ t.region? r = some h ∧ h.st = .running ∧ h.quotaHeld = false ∧
      ∀ e x, s.elem? e = some x → x.rref = r → ∃ y, t.elem? e = some y ∧ y.set = if g.out then 1 - x.set else x.set := by
  have hback := region_modRegion_of resumedRegion (setsBack_region hg)
  refine ⟨_, _, exec_resumeRegion hg hst hr hw ho hq, rejoin_region hback, rfl, hq, fun e x hx hxr => ?_⟩
  obtain ⟨y, hy, hyr, hset⟩ := setsBack_elem g hx hxr
  exact ⟨_, rejoin_elem hback hy hyr, hset⟩

/-! ### DRAIN_RESUME (R252, R436) -/

theorem exec_drainResume {page : ℕ} (hpage : g.waitPage = some page) (hst : g.st = .swapped) (hr : g.rolling = none) (hf : g.portFault = none) :
    exec (.drainResume r) s = if (s.part r.l.n).pageOpen page then .next s
      else .next ((s.modRegion r fun h => { h.goOn with waitPage := none, waitFor := none }).rejoin r) := by
  simp only [exec, execDrainResume, hg, hpage, hst, hr, hf]
  simp

/-- A drained region runs again once the page has come (R436). -/
theorem drainResume_runs {page : ℕ} (hpage : g.waitPage = some page) (hst : g.st = .swapped) (hr : g.rolling = none) (hf : g.portFault = none)
    (hclosed : (s.part r.l.n).pageOpen page = false) (hpre : g.pre = false) :
    ∃ t h, exec (.drainResume r) s = .next t ∧ t.region? r = some h ∧ h.st = .running ∧ h.waitPage = none := by
  have hexec := exec_drainResume hg hpage hst hr hf
  rw [hclosed, if_neg Bool.false_ne_true] at hexec
  exact ⟨_, _, hexec, rejoin_region (region_modRegion_of (fun h => { h.goOn with waitPage := none, waitFor := none }) hg), goOn_st_running (.inl hpre), rfl⟩

/-! ### FAULT_WAIT_EXPIRY (R252) -/

omit hg in
theorem faultWaitExpiry_early {n iova lim : ℕ} {q : PageReq} (hlim : (s.part n).waitLimit = some lim)
    (hq : (s.part n).pageReqs.find? (fun q => q.page == iova / 4096) = some q) (h : q.answered = true ∨ q.age < lim) :
    exec (.faultWaitExpiry n iova) s = .next s := by
  have hguard : (q.answered || decide (q.age < lim)) = true := by simpa using h
  simp only [exec, execFaultWaitExpiry, hlim, hq, hguard, if_true]

/-- The one region of the one launch of a partition, attached to a page that has not come: it is drained, or flagged. -/
theorem exec_faultWaitExpiry {iova lim : ℕ} {q : PageReq} {l : Launch} (hlim : (s.part r.l.n).waitLimit = some lim)
    (hq : (s.part r.l.n).pageReqs.find? (fun q => q.page == iova / 4096) = some q) (hno : q.answered = false) (hage : lim ≤ q.age)
    (hmoves : g.moves = true) (hatt : s.attached r g (iova / 4096) = true) (hl : s.launch? r.l = some l) (hlaunches : (s.part r.l.n).launches = [l])
    (hregions : l.regions = [g]) (href : l.ref = r.l) : exec (.faultWaitExpiry r.l.n iova) s =
      if g.replayable && g.save != 0 then .next (s.drain r l g (iova / 4096) (s.drainTrap r g (iova / 4096)))
      else .next (s.modPart r.l.n fun p => { p with fwx := true }) := by
  have hk : r.k = 0 := by
    obtain ⟨v, hv, hgv⟩ := exists_launch_of_region hg
    obtain rfl := Option.some.inj (hl.symm.trans hv)
    have hlt := (List.getElem?_eq_some_iff.1 hgv).1
    rw [hregions] at hlt
    simpa using hlt
  have hname : (⟨l.ref, 0⟩ : RegionRef) = r := by rw [href, ← hk]
  have hguard : (q.answered || decide (q.age < lim)) = false := by simp [hno, hage]
  simp only [exec, execFaultWaitExpiry, hlim, hq, hguard, hlaunches, hregions, indexed, List.flatMap_cons, List.flatMap_nil, List.append_nil, List.map_cons,
    List.map_nil, List.foldl_cons, List.foldl_nil, hname, hatt, hmoves, Bool.true_or, Bool.and_true, Bool.not_true, Bool.false_eq_true, if_false]
  split <;> rfl

omit hg in
theorem ne_swapped_of_moves (h : g.moves = true) : g.st ≠ .swapped := by
  intro hst
  rw [Region.moves, hst] at h
  exact absurd h (by decide)

end

/-! ### The statement -/

/-- Settles O46: each command, pre-emption, resumption and drain by its own lemma. -/
theorem regionsStopAndResume : Obligations.RegionsStopAndResume := by
  intro s r g hg
  refine ⟨fccmdResume_faults hg, fun hst => ⟨fccmdResume_waits hg hst, fccmdResume_goes_on hg hst⟩, fun hst => ⟨fun h => ?_, fun h => ?_, exec_preempt_stopped hg hst⟩,
    preempt_running hg, fun hst => ⟨fun h hf => ?_, fun h => ?_, preemptionTimeout_rolls hg hst⟩, fun hst => ⟨resumeRegion_waits hg, resumeRegion_runs hg hst⟩,
    fun page hpage hst hr hf => ⟨fun h => ?_, drainResume_runs hg hpage hst hr hf⟩, fun iova lim q l hl hlim hq => ⟨faultWaitExpiry_early hlim hq, ?_⟩⟩
  · rw [exec_fccmdEnd hg hst, if_pos h]
  · rw [exec_fccmdEnd hg hst, if_neg (by simp [h])]
  · rw [exec_preempt_preempting hg hst, if_pos (by simp [h, hf])]
  · rw [exec_preempt_preempting hg hst, if_neg (by simp [h])]
  · rw [exec_drainResume hg hpage hst hr hf, if_pos h]
  · intro hno hage hn hmoves hatt hlaunches hregions href
    have hexec := exec_faultWaitExpiry hg hlim hq hno hage hmoves hatt hl hlaunches hregions href
    refine ⟨fun hrep hsave => ?_, fun h => ?_⟩
    · rw [if_pos (by simp [hrep, hsave])] at hexec
      obtain ⟨h, hdrain⟩ := drain_region l (iova / 4096) (s.drainTrap r g (iova / 4096)) hg (ne_swapped_of_moves hmoves)
      exact ⟨_, h, hexec, hdrain⟩
    · rw [if_neg (by rcases h with h | h <;> simp [h])] at hexec
      exact ⟨_, hexec, congrArg (·.fwx) (part_modPart_same _ hn)⟩

end Sys2Proof.Proofs
end

