-- ==== Sys2Proof/Proofs/ResetValues.lean ====
section
/-! SUPPORT. What a cold start leaves (R457, R458): every page, every partition and both rings of the operator stand as their records begin. -/

namespace Sys2Proof.Proofs

open Sys2Proof Sys2Proof.Machine Sys2Proof.Claims Sys2Proof.Laws

theorem eq_default_of_mem_reset_pages {p : Page} : p ∈ State.reset.pages → p = {} := List.eq_of_mem_replicate

theorem eq_default_of_mem_reset_parts {p : Part} : p ∈ State.reset.parts → p = {} := List.eq_of_mem_replicate

theorem reset_rings : State.reset.mgmt.of = {} ∧ State.reset.mgmt.ot = {} := ⟨rfl, rfl⟩

/-- A partition that lists no engine has every engine at its reset values (R313). -/
theorem eng_default (g : ℕ) : ({} : Part).eng g = {} := rfl

/-- Settles O59: pages, partitions and rings are copies of one record, whose fields are read off. -/
theorem resetValues : Obligations.ResetValues := by
  refine ⟨rfl, rfl, rfl, rfl, List.length_replicate, List.length_replicate, fun p hp => ?pages, rfl, rfl, rfl, rfl, rfl, rfl, rfl, fun r hr => ?rings,
    fun p hp => ?parts⟩
  case pages =>
    obtain rfl := eq_default_of_mem_reset_pages hp
    exact ⟨rfl, rfl, rfl, rfl⟩
  case rings =>
    obtain ⟨hof, hot⟩ := reset_rings
    obtain rfl : r = {} := by simpa [hof, hot] using hr
    exact ⟨rfl, rfl, rfl, rfl, rfl⟩
  case parts =>
    obtain rfl := eq_default_of_mem_reset_parts hp
    refine ⟨rfl, rfl, rfl, rfl, rfl, rfl, rfl, rfl, rfl, ?chain, ?table, ?faults, ?methods, ?patterns, ?energy, ?trace, ⟨rfl, rfl⟩, fun g => ?engine⟩
    case engine =>
      rw [eng_default]
      exact ⟨rfl, rfl, rfl, rfl, rfl⟩
    all_goals decide

end Sys2Proof.Proofs
end

