-- ==== Sys2Proof/Proofs/BoundDrain.lean ====
section
/-! SUPPORT. BOUND_OUTPUT_DRAIN in the pause of a rate change (R202, R226): no token is taken from a bound output. -/

namespace Sys2Proof.Proofs

open Sys2Proof Sys2Proof.Machine Sys2Proof.Claims Sys2Proof.Laws

/-- Every token stays in place in the master cycle in which a rate change takes effect (R202), the head of a bound output too. -/
theorem exec_boundOutputDrain_paused {s : State} {r : RegionRef} {k m : ℕ} {g : Region} {b : Bind} {q : Stream} {v : Token} {rest : List Token}
    (h : s.paused r.l = true) (hg : s.region? r = some g) (hb : (g.outs.getD k {}).bind = some b) (hq : g.outStream k = some (m, q))
    (hout : q.out = v :: rest) : exec (.boundOutputDrain r k) s = .next s := by
  rw [exec, execBoundOutputDrain, hg]
  show (match (g.outs.getD k {}).bind, g.outStream k with
    | some b, some (m, q) => _
    | _, _ => _) = _
  rw [hb, hq]
  show (match q.out with
    | [] => _
    | t :: _ => _) = _
  rw [hout]
  exact if_pos (by simp [h])

/-! ### A paused launch with a bound output -/

/-- A stream from region input 0 to region output 0 that has one null token to give there. -/
def emittingStream : Stream := { heldStream with junction := none, junc := [], out := [nullTok none] }

/-- A region whose output 0 is bound to the start of the flat object, without an end. -/
def boundRegion : Region :=
  { freshRegion 4 4 0 0 [] [emittingStream] with outs := { bind := some ⟨0, 0⟩ } :: List.replicate 7 {} }

/-- A launch with that region, in a pause. -/
def pausedDrain : Launch := freshLaunch heldRegion.l [boundRegion] []

/-- A device that runs that launch alone. -/
def pausedDrainState : State := State.reset.modPart 0 fun p => { p with launches := [pausedDrain] }

theorem launch_pausedDrainState : pausedDrainState.launch? heldRegion.l = some pausedDrain := rfl

theorem region_pausedDrainState : pausedDrainState.region? heldRegion = some boundRegion := rfl

theorem paused_pausedDrainState : pausedDrainState.paused heldRegion.l = true := rfl

theorem outStream_boundRegion : boundRegion.outStream 0 = some (0, emittingStream) := rfl

/-! ### The statement -/

/-- Refutes O42: its clauses on BOUND_OUTPUT_DRAIN say that a token of another kind than data is taken without asking whether its launch stands in the pause of
R202. In `pausedDrainState` output 0 is bound and a null stands there, but the launch is paused: the null stays. -/
theorem not_feedersAndGenerators : ¬ Obligations.FeedersAndGenerators := by
  unfold Obligations.FeedersAndGenerators
  intro h
  obtain ⟨hports, -⟩ := h pausedDrainState
  obtain ⟨-, hdrain⟩ := hports heldRegion 0 boundRegion ⟨0, 0⟩ pausedDrain region_pausedDrainState launch_pausedDrainState
  have hgo := (hdrain 0 emittingStream (nullTok none) [] rfl outStream_boundRegion rfl rfl rfl rfl rfl (.inl rfl) (by decide)).1 (by decide)
  rw [exec_boundOutputDrain_paused paused_pausedDrainState region_pausedDrainState rfl outStream_boundRegion rfl] at hgo
  have hsame := congrArg (fun t => (t.region? heldRegion).map fun g => g.streams.map fun q => q.out.length) (Host.Outcome.next.inj hgo)
  rw [region_modRegion_same, region_pausedDrainState] at hsame
  exact absurd hsame (by decide)

end Sys2Proof.Proofs
end

