-- ==== Sys2Proof/Proofs/ContextInstructions.lean ====
section
/-! SUPPORT. PHEND of a firing whose element has contributed a bit before (R22, R232): the bits of its firings are ORed. -/

namespace Sys2Proof.Proofs

open Sys2Proof Sys2Proof.Machine Sys2Proof.Claims Sys2Proof.Laws

/-- PHEND ORs its bit with what the element has contributed in this phase. -/
theorem exec_phend {s : State} {x : Elem} {r : Args} {p : Pm} {a : Tgt} (h : gate s (.phend p a) = .go x r) (hbody : s.cur.epi = false) :
    exec (.phend p a) s = .next (s.setElem s.cur.e
      (({ x with phend := some (x.phend.getD false || r.l.truth) } : Elem).issue s.cur 1 (toAll (.phend p a) (doneTok r.tag)))) := by
  rw [exec, execPhend, run_go _ h, hbody]
  rfl

theorem phend_issue (y : Elem) (c : Cursor) (lat : ℕ) (outs : List (ℕ × Tgt × Token)) : (y.issue c lat outs).phend = y.phend := by
  obtain ⟨fs, h⟩ := issue_firings y c lat outs
  rw [h]

/-! ### Two firings of one phase -/

/-- The second firing of a phase: its slot 0 has a 0 at L. -/
def secondFiring : Firing := ⟨1, false, [{ l := some ⟨dataTok 0 none, 0⟩ }], List.replicate 8 [], [], []⟩

/-- An element whose first firing has contributed a 1. -/
def contributed : Elem := { freshElem ⟨0, 0, 1⟩ 0 0 0 0 with started := 2, done := 1, phend := some true, firings := [secondFiring] }

/-- A device that runs that element, with the cursor at the slot of its second firing. -/
def contributedState : State :=
  { State.reset.modPart 0 fun p => { p with launches := [freshLaunch ⟨0, 0, 1⟩ [freshRegion 4 4 0 0 [0] []] []] } with
    elems := [(0, contributed)], cur := ⟨0, 1, false, 0⟩ }

/-- Its operands: a 0 at L. -/
def zeroArgs : Args := ⟨dataTok 0 none, dataTok 0 none, dataTok 0 none⟩

theorem gate_contributedState : gate contributedState (.phend .none .none) = .go contributed zeroArgs := rfl

/-! ### The statement -/

/-- Refutes O38: its clause on PHEND says that the element's contribution is the bit of the firing that executes. In `contributedState` an earlier firing of the
phase has contributed a 1 and the next one contributes a 0: the contribution stays 1. -/
theorem not_contextInstructions : ¬ Obligations.ContextInstructions := by
  unfold Obligations.ContextInstructions
  intro h
  obtain ⟨hphend, -⟩ := h contributedState contributed zeroArgs .none 0 0 0 .none
  have hgo := hphend gate_contributedState rfl
  rw [Emits, Issues, exec_phend gate_contributedState rfl] at hgo
  have hsame := congrArg (fun t => (t.elem? contributedState.cur.e).map (·.phend)) (Host.Outcome.next.inj hgo)
  simp only [elem_setElem_same, Option.map_some, phend_issue] at hsame
  simp [contributed, zeroArgs, dataTok] at hsame

end Sys2Proof.Proofs
end

