-- ==== Sys2Proof/Proofs/UnitInstructionsIssue.lean ====
section
/-! SUPPORT. The instructions of variable latency (R271, R273): one access each, under a check, and a further condition without which a unit's instruction is not
ready. -/

namespace Sys2Proof.Proofs

open Sys2Proof Sys2Proof.Machine Sys2Proof.Claims Sys2Proof.Laws

section

variable {i : Instr} {s : State} {x : Elem} {r : Args} {q : Access} {chk chk' : AccCheck} {ok : State → Elem → Bool}

theorem pushed_eq_pushAcc (c : Cursor) (q : Access) : pushed c q = fun y => y.pushAcc c q := by
  funext y
  rcases q with ⟨_, _, _, _, dst, _⟩
  cases dst <;> rfl

theorem scal_eq_el (l : Payload) : scal l = el 64 l 0 := by rw [scal, elAt_eq, BitVec.ofNat_toNat, BitVec.setWidth_eq]

/-- The access that the tables give is the one that a slot requests (R270). -/
theorem accBase_eq_request (dst : Dst) (port : ℕ) (path : Path) (op : AccOp) (scope : Scope) (ord : Ord) (width : ℕ) (sx vec : Bool) :
    accBase s.cur r dst port path op scope ord width sx vec = request s r dst port path op scope ord width sx vec := by
  simp only [accBase, request, scal_eq_el]

/-- The same with the access as the table of an instruction gives it. -/
theorem accOf_request {dst : Dst} {port : ℕ} {path : Path} {op : AccOp} {scope : Scope} {ord : Ord} {width : ℕ} {sx vec : Bool}
    (h : accOf s.cur r i = some (accBase s.cur r dst port path op scope ord width sx vec)) :
    accOf s.cur r i = some (request s r dst port path op scope ord width sx vec) := h.trans (congrArg some (accBase_eq_request ..))

/-- The register tests of `memIssue` let a free register go, and every access without one. -/
theorem regTests_pass (hreg : (infoOf i).reg = dstReg q.dst) (hfree : registerFree x q.dst) (v : ℕ) (hv : ∀ w, q.dst = .reg w → v = w.toNat) :
    ((infoOf i).reg.isSome && decide (x.regs ≤ v)) = false ∧ ((infoOf i).reg.isSome && (x.regAt v).st == .pending) = false := by
  rw [hreg]
  cases hd : q.dst with
  | tgt a => exact ⟨rfl, rfl⟩
  | reg w =>
    rw [hd] at hfree
    obtain rfl := hv w hd
    exact ⟨by simpa [dstReg] using hfree.1, by simpa [dstReg] using hfree.2⟩

/-- An instruction that `memIssue` executes issues its access. -/
theorem issuesAccess_of_memIssue (hg : gate s i = .go x r) (hacc : accOf s.cur r i = some q) (hreg : (infoOf i).reg = dstReg q.dst)
    (hexec : exec i s = memIssue i chk s) : IssuesAccess i s x q chk := by
  rw [memIssue, inOrder_go _ hg, runS_go _ hg] at hexec
  simp only [hacc] at hexec
  refine ⟨fun hm => ?_, fun hm hfree => ?_⟩
  · rw [hexec, hm]
    rfl
  · rw [hm, (regTests_pass hreg hfree _ fun w hw => by rw [hw]).1, (regTests_pass hreg hfree _ fun w hw => by rw [hw]).2] at hexec
    refine ⟨fun t hc => ?_, fun w t hc => ?_, fun z t hc => ?_⟩ <;> rw [hexec, hc] <;> simp [pushed_eq_pushAcc]

/-- Checks that agree at the access are the same to the slot. -/
theorem issuesAccess_congr_check (hchk : chk s.cur.e x.l.n q s = chk' s.cur.e x.l.n q s) (h : IssuesAccess i s x q chk) : IssuesAccess i s x q chk' := by
  unfold IssuesAccess at h ⊢
  rwa [hchk] at h

/-- What the unit table says of a row. -/
def UnitRow (i : Instr) (s : State) (x : Elem) (q : Access) (chk : AccCheck) (ready : Bool) : Prop :=
  (ready = false → exec i s = .next s) ∧ (ready = true → IssuesAccess i s x q chk)

theorem unitRow_of_memIssue (hg : gate s i = .go x r) (hacc : accOf s.cur r i = some q) (hreg : (infoOf i).reg = dstReg q.dst)
    (hexec : exec i s = memIssue i chk s) : UnitRow i s x q chk true :=
  ⟨fun h => Bool.noConfusion h, fun _ => issuesAccess_of_memIssue hg hacc hreg hexec⟩

theorem unitRow_of_memIssueIf (hg : gate s i = .go x r) (hacc : accOf s.cur r i = some q) (hreg : (infoOf i).reg = dstReg q.dst)
    (hexec : exec i s = memIssueIf ok i chk s) : UnitRow i s x q chk (ok s x) := by
  simp only [memIssueIf, hg] at hexec
  refine ⟨fun h => ?_, fun h => ?_⟩
  · rw [hexec, h]
    rfl
  · rw [h] at hexec
    exact issuesAccess_of_memIssue hg hacc hreg hexec

theorem UnitRow.congr_check {ready : Bool} (hchk : chk s.cur.e x.l.n q s = chk' s.cur.e x.l.n q s) (h : UnitRow i s x q chk ready) :
    UnitRow i s x q chk' ready :=
  ⟨h.1, fun hr => issuesAccess_congr_check hchk (h.2 hr)⟩

theorem noEngine_go {f : State → Out} {has : State → Elem → Bool} (hg : gate s i = .go x r) (h : has s x = true) : noEngine i has f s = f s := by
  simp [noEngine, hg, h]

/-! ### Rows that need more than the table -/

variable {p : Pm} {t : BitVec 9} {m : Rm} {sx : Bool} {n k : BitVec 2} {a : Tgt}

theorem execAccv_row (hg : gate s (.accv p t m sx a) = .go x r) (ht : t.toNat < x.accTiles) :
    UnitRow (.accv p t m sx a) s x (request s r (.tgt a) 0 .ep (.accv t.toNat m sx) .elem .rlx 1 false false) (tilePlanChk planAccv)
      (x.mxReady s.cur (.accv p t m sx a)) := by
  have h := unitRow_of_memIssueIf hg (accOf_request rfl) rfl (show exec (.accv p t m sx a) s = execAccv p t m sx a s from rfl)
  refine h.congr_check ?_
  rw [gate_elem hg]
  simp [ht]

theorem execTdsc_row {j : BitVec 3} (hg : gate s (.tdsc p j a) = .go x r) (hj : j.toNat ≤ 5) :
    UnitRow (.tdsc p j a) s x (request s r (.tgt a) 0 .ep (.tdsc j.toNat) .elem .rlx 0 false false)
      (fun e n b st => (st.object n (b.req e) (tokTid b.tok)).bind fun _ t => .ok () t) true := by
  have h := unitRow_of_memIssue hg (accOf_request rfl) rfl (show exec (.tdsc p j a) s = execTdsc p j a s from rfl)
  exact h.congr_check (if_neg (by omega))

theorem execPgst_row (hg : gate s (.pgst p sx n a) = .go x r) (hst : (x.gen n.toNat).st ≠ .idle) :
    UnitRow (.pgst p sx n a) s x (request s r (.tgt a) n.toNat .ep (.pgst n.toNat sx) .elem .rlx 0 false false) noChk (x.genFree s.cur n.toNat) := by
  have hexec : exec (.pgst p sx n a) s = memIssueIf (fun t x => x.genFree t.cur n.toNat) (.pgst p sx n a) _ s := rfl
  have h := unitRow_of_memIssueIf hg (accOf_request rfl) rfl hexec
  refine h.congr_check ?_
  rw [gate_elem hg]
  simp [hst, noChk]

theorem execChapp_row {e : BitVec 6} (hg : gate s (.chapp p k e a) = .go x r) (heng : (s.part x.l.n).hasEng (engineNo k e) = true) :
    UnitRow (.chapp p k e a) s x (request s r (.tgt a) 4 .ep (.chapp (64 * k.toNat + e.toNat)) .dev .rlx 64 false false) (planChk planEntry)
      (decide (((s.part x.l.n).eng (engineNo k e)).append.length < 16)) := by
  refine unitRow_of_memIssueIf (ok := fun t x => decide (((t.part x.l.n).eng (engineNo k e)).append.length < Config.appendEntries)) hg (accOf_request rfl) rfl ?_
  exact noEngine_go (i := .chapp p k e a) (has := fun t x => (t.part x.l.n).hasEng (engineNo k e)) hg heng

/-- Where a barrier of another element's page lies: in lane 0 at L (R307). -/
theorem elAt_far (l : Payload) : elAt 32 l 0 % 4096 = (el 32 l 0).toNat % 4096 := by rw [elAt_eq]

/-- The page that a barrier instruction names: its own, or that at L (R307). -/
def homeOfArgs (far : Bool) (l : Payload) : ℕ := if far then (el 32 l 0).toNat % 4096 else 4096

theorem home_eq (far : Bool) (l : Payload) : (if far then elAt 32 l 0 % 4096 else 4096) = homeOfArgs far l := by rw [homeOfArgs, elAt_far]

/-- A BARR that releases or is .far. -/
theorem execBarr_row {nb : BitVec 7} {c : Scope} {rel far : Bool} (h : (rel || far) = true) (hg : gate s (.barr p nb c rel far a) = .go x r) :
    UnitRow (.barr p nb c rel far a) s x (request s r (.tgt a) 4 .ep (.barrier false nb.toNat (homeOfArgs far r.l.data)) c (if rel then .rel else .rlx) 0 far false)
      homeChk true := by
  refine unitRow_of_memIssue hg (accOf_request ?_) rfl (if_pos h)
  rw [← home_eq]
  exact if_pos h

/-- A BARX that releases or is .far. -/
theorem execBarx_row {nb : BitVec 7} {c : Scope} {rel far : Bool} (h : (rel || far) = true) (hg : gate s (.barx p nb c rel far a) = .go x r) :
    UnitRow (.barx p nb c rel far a) s x (request s r (.tgt a) 4 .ep (.barrier true nb.toNat (homeOfArgs far r.l.data)) c (if rel then .rel else .rlx) 0 far false)
      homeChk true := by
  refine unitRow_of_memIssue hg (accOf_request ?_) rfl (if_pos h)
  rw [← home_eq]
  exact if_pos h

theorem execBarm_row {nb : BitVec 7} (hg : gate s (.barm p nb true a) = .go x r) :
    UnitRow (.barm p nb true a) s x (request s r (.tgt a) 4 .ep (.arm nb.toNat ((el 32 r.l.data 0).toNat % 4096)) .elem .rlx 0 true false) homeChk true := by
  refine unitRow_of_memIssue hg (accOf_request ?_) rfl rfl
  rw [← elAt_far]
  rfl

end

/-! ### Conditions of the units -/

/-- The matrix unit is free for an instruction (R361). -/
def mxTurn (i : Instr) (s : State) (x : Elem) : Bool := x.mxReady s.cur i

/-- A generator is free (R392). -/
def genTurn (g : ℕ) (s : State) (x : Elem) : Bool := x.genFree s.cur g

/-- The device buffer of the graph sequencer has room (R327). -/
def gsRoom (s : State) (x : Elem) : Bool := decide ((s.part x.l.n).gs.append.length < 16)

/-- The device buffer of the launch chain has room (R235). -/
def launchRoom (s : State) (x : Elem) : Bool := decide ((s.part x.l.n).append.length < 16)

/-! ### The table -/

/-- Settles O34: each row through `memIssue`, or through it behind the condition of its unit. -/
theorem unitInstructionsIssue : Obligations.UnitInstructionsIssue := by
  intro s y r p t m x n b q nb k e a d z hz hg
  change UnitRow z.1 s y z.2.1 z.2.2.1 z.2.2.2
  simp only [unitTable, List.mem_append] at hz
  rcases hz with (((hz | hz) | hz) | hz) | hz
  · simp only [List.mem_cons, List.not_mem_nil, or_false] at hz
    rcases hz with rfl | rfl | rfl | rfl | rfl | rfl | rfl | rfl | rfl | rfl | rfl | rfl | rfl | rfl | rfl
    · exact unitRow_of_memIssue hg (accOf_request rfl) rfl rfl
    · exact unitRow_of_memIssue hg (accOf_request rfl) rfl rfl
    · exact unitRow_of_memIssueIf (ok := mxTurn (.tfch p x false b n a)) hg (accOf_request rfl) rfl rfl
    · exact unitRow_of_memIssueIf (ok := mxTurn (.tfch p x true b n a)) hg (accOf_request rfl) rfl rfl
    · exact unitRow_of_memIssue hg (accOf_request rfl) rfl rfl
    · exact unitRow_of_memIssueIf (ok := genTurn n.toNat) hg (accOf_request rfl) rfl rfl
    · exact unitRow_of_memIssueIf (ok := genTurn n.toNat) hg (accOf_request rfl) rfl rfl
    · exact unitRow_of_memIssueIf (ok := genTurn n.toNat) hg (accOf_request rfl) rfl rfl
    · exact execBarr_row rfl hg
    · exact execBarx_row rfl hg
    · exact execBarm_row hg
    · exact execBarr_row rfl hg
    · exact execBarx_row rfl hg
    · exact unitRow_of_memIssueIf (ok := gsRoom) hg (accOf_request rfl) rfl rfl
    · exact unitRow_of_memIssueIf (ok := launchRoom) hg (accOf_request rfl) rfl rfl
  · obtain ⟨heng, hz⟩ := List.mem_ite_nil_right.mp hz
    obtain rfl := List.mem_singleton.mp hz
    exact execChapp_row hg heng
  · obtain ⟨ht, hz⟩ := List.mem_ite_nil_right.mp hz
    obtain rfl := List.mem_singleton.mp hz
    exact execAccv_row hg ht
  · obtain ⟨hq, hz⟩ := List.mem_ite_nil_right.mp hz
    obtain rfl := List.mem_singleton.mp hz
    exact execTdsc_row hg hq
  · obtain ⟨hst, hz⟩ := List.mem_ite_nil_right.mp hz
    obtain rfl := List.mem_singleton.mp hz
    exact execPgst_row hg hst

end Sys2Proof.Proofs
end

