-- ==== Sys2Proof/Proofs/ReplacedFields.lean ====
section
/-! SUPPORT. Fields of dwords that are replaced (R315): which bits `putBits` leaves, and entries of a chain with one field set. -/

namespace Sys2Proof.Proofs

open Sys2Proof Sys2Proof.Machine Sys2Proof.Claims Sys2Proof.Laws

/-! ### Bits -/

theorem testBit_fld (n lo w i : ℕ) : (Sys2Proof.fld n lo w).testBit i = (decide (i < w) && n.testBit (lo + i)) := by
  rw [Sys2Proof.fld, Nat.testBit_mod_two_pow, Nat.testBit_div_two_pow, Nat.add_comm]

/-- A field is read off bit by bit. -/
theorem fld_eq_mod {n lo w v : ℕ} (h : ∀ i, i < w → n.testBit (lo + i) = v.testBit i) : Sys2Proof.fld n lo w = v % 2 ^ w := by
  refine Nat.eq_of_testBit_eq fun i => ?_
  rw [testBit_fld, Nat.testBit_mod_two_pow]
  by_cases hi : i < w
  · rw [h i hi]
  · simp [hi]

/-- `putBits` keeps what stands above and below its field. -/
theorem putBits_eq {hi lo : ℕ} (h : lo ≤ hi) (x v : ℕ) :
    putBits x hi lo v = 2 ^ lo * (2 ^ (hi + 1 - lo) * (x / 2 ^ (hi + 1)) + v % 2 ^ (hi + 1 - lo)) + x % 2 ^ lo := by
  have hpow : 2 ^ lo * 2 ^ (hi + 1 - lo) = 2 ^ (hi + 1) := by rw [← pow_add, Nat.add_sub_cancel' (by omega)]
  have hquot : x / 2 ^ lo / 2 ^ (hi + 1 - lo) = x / 2 ^ (hi + 1) := by rw [Nat.div_div_eq_div_mul, hpow]
  have hx : x = 2 ^ lo * (2 ^ (hi + 1 - lo) * (x / 2 ^ (hi + 1)) + bits x hi lo) + x % 2 ^ lo := by
    rw [bits, ← hquot, Nat.div_add_mod, Nat.div_add_mod]
  rw [putBits]
  have hsub : x - bits x hi lo * 2 ^ lo = 2 ^ lo * (2 ^ (hi + 1 - lo) * (x / 2 ^ (hi + 1))) + x % 2 ^ lo := by
    rw [Nat.sub_eq_iff_eq_add (by rw [bits, Nat.mul_comm]; exact (Nat.mul_le_mul_left _ (Nat.mod_le _ _)).trans (Nat.mul_div_le _ _))]
    conv_lhs => rw [hx]
    ring
  rw [hsub]
  ring

theorem testBit_putBits {hi lo : ℕ} (h : lo ≤ hi) (x v b : ℕ) :
    (putBits x hi lo v).testBit b = if lo ≤ b ∧ b ≤ hi then v.testBit (b - lo) else x.testBit b := by
  rw [putBits_eq h, Nat.testBit_two_pow_mul_add _ (Nat.mod_lt _ (by positivity))]
  by_cases hlo : b < lo
  · rw [if_pos hlo, Nat.testBit_mod_two_pow, if_neg (by omega)]
    simp [hlo]
  · rw [if_neg hlo, Nat.testBit_two_pow_mul_add _ (Nat.mod_lt _ (by positivity)), Nat.testBit_mod_two_pow, Nat.testBit_div_two_pow]
    by_cases hhi : b ≤ hi
    · rw [if_pos (by omega), if_pos ⟨by omega, hhi⟩]
      simp [show b - lo < hi + 1 - lo by omega]
    · rw [if_neg (by omega), if_neg (by omega), show b - lo - (hi + 1 - lo) + (hi + 1) = b by omega]

theorem getLsbD_ofNat_putBits {hi lo : ℕ} (h : lo ≤ hi) (hhi : hi < 64) (v : Dword) (x b : ℕ) :
    (BitVec.ofNat 64 (putBits v.toNat hi lo x)).getLsbD b = if lo ≤ b ∧ b ≤ hi then x.testBit (b - lo) else v.getLsbD b := by
  rw [BitVec.getLsbD_ofNat, testBit_putBits h, BitVec.getLsbD]
  by_cases hb : b < 64
  · simp [hb]
  · rw [if_neg (by omega), ← BitVec.getLsbD, BitVec.getLsbD_of_ge _ _ (by omega), Bool.and_false]

/-! ### Entries with one field set -/

theorem fieldSet_modAt {dw : List Dword} {i hi lo v : ℕ} (hlen : i < dw.length) (h : lo ≤ hi) (hhi : hi < 64) :
    FieldSet dw (modAt dw i fun d => BitVec.ofNat 64 (putBits d.toNat hi lo v)) i lo (hi + 1 - lo) v := by
  refine ⟨modAt_length .., fun j hj => ?_, ?_, fun b hb => ?_⟩
  · simp only [List.getD_eq_getElem?_getD, getElem?_modAt_other _ _ _ _ (Ne.symm hj)]
  · rw [getD_modAt_same _ _ hlen]
    refine fld_eq_mod fun k hk => ?_
    rw [← BitVec.getLsbD, getLsbD_ofNat_putBits h hhi, if_pos (by omega), Nat.add_sub_cancel_left]
  · rw [getD_modAt_same _ _ hlen, getLsbD_ofNat_putBits h hhi, if_neg (by omega)]

theorem setAt_eq_modAt {α : Type} (l : List α) (i : ℕ) (f : α → α) (d : α) : setAt l i (f (l.getD i d)) = modAt l i f := by
  induction l generalizing i with
  | nil => cases i <;> rfl
  | cons x xs ih => cases i with
    | zero => rfl
    | succ i => simpa [setAt, modAt] using ih i

/-! ### Entries that CHAPP rebases -/

theorem bits_eq_fld {x hi lo w : ℕ} (h : hi + 1 - lo = w) : bits x hi lo = Sys2Proof.fld x lo w := by rw [bits, h, Sys2Proof.fld]

/-- A reference with the origin of a region added to its column and row, and its region field 0 (R315). -/
def rebasedNat (r : Region) (w hi : ℕ) : ℕ :=
  putBits (putBits (putBits w hi (hi - 5) 0) (hi - 6) (hi - 11) (bits w (hi - 6) (hi - 11) + 4 * r.ox)) (hi - 12) (hi - 17)
    (bits w (hi - 12) (hi - 17) + 4 * r.oy)

theorem rebaseRef_of_none {l : Launch} {v : Dword} {hi : ℕ} (h : l.regions[bits v.toNat hi (hi - 5)]? = none) : rebaseRef l v hi = v := by
  simp only [rebaseRef, h]

theorem rebaseRef_of_some {l : Launch} {v : Dword} {hi : ℕ} {r : Region} (h : l.regions[bits v.toNat hi (hi - 5)]? = some r) :
    rebaseRef l v hi = BitVec.ofNat 64 (rebasedNat r v.toNat hi) := by
  simp only [rebaseRef, h, rebasedNat]

theorem testBit_rebasedNat (r : Region) (w : ℕ) {hi : ℕ} (hlo : 17 ≤ hi) (b : ℕ) :
    (rebasedNat r w hi).testBit b =
      if hi - 17 ≤ b ∧ b ≤ hi - 12 then (bits w (hi - 12) (hi - 17) + 4 * r.oy).testBit (b - (hi - 17))
      else if hi - 11 ≤ b ∧ b ≤ hi - 6 then (bits w (hi - 6) (hi - 11) + 4 * r.ox).testBit (b - (hi - 11))
      else if hi - 5 ≤ b ∧ b ≤ hi then false else w.testBit b := by
  rw [rebasedNat, testBit_putBits (by omega), testBit_putBits (by omega), testBit_putBits (by omega), Nat.zero_testBit]

theorem testBit_toNat_ofNat {n b : ℕ} (hb : b < 64) : (BitVec.ofNat 64 n).toNat.testBit b = n.testBit b := by
  rw [BitVec.toNat_ofNat, Nat.testBit_mod_two_pow, decide_eq_true hb, Bool.true_and]

/-- A reference is rebased from the region that it names. -/
theorem rebased_rebaseRef (l : Launch) (v : Dword) {hi : ℕ} (hlo : 17 ≤ hi) (hhi : hi < 64) : Rebased l v (rebaseRef l v hi) hi := by
  unfold Rebased
  rw [← bits_eq_fld (show hi + 1 - (hi - 5) = 6 by omega)]
  cases h : l.regions[bits v.toNat hi (hi - 5)]? with
  | none => exact rebaseRef_of_none h
  | some r =>
    rw [rebaseRef_of_some h]
    dsimp only
    refine ⟨fld_eq_mod (v := 0) fun i hi => ?_, ?_, ?_, fun b hb => ?_⟩
    · rw [testBit_toNat_ofNat (by omega), testBit_rebasedNat r _ hlo, if_neg (by omega), if_neg (by omega), if_pos (by omega), Nat.zero_testBit]
    · rw [← bits_eq_fld (x := v.toNat) (show hi - 6 + 1 - (hi - 11) = 6 by omega)]
      refine fld_eq_mod fun i hi => ?_
      rw [testBit_toNat_ofNat (by omega), testBit_rebasedNat r _ hlo, if_neg (by omega), if_pos (by omega), Nat.add_sub_cancel_left]
    · rw [← bits_eq_fld (x := v.toNat) (show hi - 12 + 1 - (hi - 17) = 6 by omega)]
      refine fld_eq_mod fun i hi => ?_
      rw [testBit_toNat_ofNat (by omega), testBit_rebasedNat r _ hlo, if_pos (by omega), Nat.add_sub_cancel_left]
    · by_cases hw : b < 64
      · rw [BitVec.getLsbD, testBit_toNat_ofNat hw, testBit_rebasedNat r _ hlo, if_neg (by omega), if_neg (by omega), if_neg (by omega), BitVec.getLsbD]
      · rw [BitVec.getLsbD_of_ge _ _ (by omega), BitVec.getLsbD_of_ge _ _ (by omega)]

/-- A place is changed on a condition. -/
def modIf (c : Bool) (dw : List Dword) (i : ℕ) (f : Dword → Dword) : List Dword := if c then modAt dw i f else dw

theorem rebase_eq_modIf (l : Launch) (dw : List Dword) :
    rebase l dw = modIf (decide (bits (dw.getD 4 0).toNat 63 62 ≠ 0))
      (modIf (bit (dw.getD 3 0).toNat 60) (modIf (bit (dw.getD 3 0).toNat 59) dw 0 (rebaseRef l · 63)) 1 (rebaseRef l · 63)) 4 (rebaseRef l · 61) := by
  simp only [rebase, modIf, decide_eq_true_eq]

theorem length_modIf (c : Bool) (dw : List Dword) (i : ℕ) (f : Dword → Dword) : (modIf c dw i f).length = dw.length := by
  cases c
  · rfl
  · exact modAt_length ..

theorem getD_modIf_same {c : Bool} {dw : List Dword} {i : ℕ} {f : Dword → Dword} (h : i < dw.length) :
    (modIf c dw i f).getD i 0 = if c then f (dw.getD i 0) else dw.getD i 0 := by
  cases c
  · rfl
  · exact getD_modAt_same _ _ h

theorem getD_modIf_other (c : Bool) (dw : List Dword) {i j : ℕ} (f : Dword → Dword) (h : j ≠ i) : (modIf c dw i f).getD j 0 = dw.getD j 0 := by
  cases c
  · rfl
  · simp only [modIf, if_true, List.getD_eq_getElem?_getD, getElem?_modAt_other _ _ _ _ (Ne.symm h)]

/-- A reference that is rebased where a bit says so. -/
theorem rebased_ite (l : Launch) (v : Dword) {hi : ℕ} (c : Bool) (hlo : 17 ≤ hi) (hhi : hi < 64) :
    if c then Rebased l v (if c then rebaseRef l v hi else v) hi else (if c then rebaseRef l v hi else v) = v := by
  cases c
  · rfl
  · exact rebased_rebaseRef l v hlo hhi

/-- CHAPP rebases the source, the destination and the notification of an entry, and nothing else (R315). -/
theorem rebasedEntry_rebase (l : Launch) {dw : List Dword} (h : dw.length = 8) : RebasedEntry l dw (rebase l dw) := by
  rw [rebase_eq_modIf, RebasedEntry]
  simp only [← bit_eq_testBit, ← bits_eq_fld (show 63 + 1 - 62 = 2 from rfl)]
  refine ⟨by simp only [length_modIf], ?source, ?target, ?notify, fun i h0 h1 h4 => ?_⟩
  case source =>
    rw [getD_modIf_other _ _ _ (by decide), getD_modIf_other _ _ _ (by decide), getD_modIf_same (by omega)]
    exact rebased_ite l _ _ (by decide) (by decide)
  case target =>
    rw [getD_modIf_other _ _ _ (by decide), getD_modIf_same (by rw [length_modIf]; omega), getD_modIf_other _ _ _ (by decide)]
    exact rebased_ite l _ _ (by decide) (by decide)
  case notify =>
    rw [getD_modIf_same (by rw [length_modIf, length_modIf]; omega), getD_modIf_other _ _ _ (by decide), getD_modIf_other _ _ _ (by decide)]
    simpa only [decide_eq_true_eq] using rebased_ite l (dw.getD 4 0) (decide (bits (dw.getD 4 0).toNat 63 62 ≠ 0)) (by decide) (by decide)
  rw [getD_modIf_other _ _ _ h4, getD_modIf_other _ _ _ h1, getD_modIf_other _ _ _ h0]

end Sys2Proof.Proofs
end

