-- ==== Sys2Proof/Proofs/MethodTable.lean ====
section
/-! SUPPORT. The lookup of a method (R373, R374): the matching entry with the fewest wildcards, and of those the first of a table whose indices rise. -/

namespace Sys2Proof.Proofs

open Sys2Proof Sys2Proof.Machine Sys2Proof.Claims Sys2Proof.Laws

/-! ### One entry -/

theorem meNops_le (m : List Dword) : meNops m ≤ 3 := Nat.le_of_lt_succ (Nat.mod_lt _ (by decide))

/-- The wildcard bits stand at 39 to 47 of the first dword (R373). -/
theorem testBit_meWild (m : List Dword) {k : ℕ} (h : k < 9) : (meWild m).testBit k = (meDw m 0).testBit (39 + k) := by
  rw [meWild, bits, Nat.testBit_mod_two_pow, Nat.testBit_div_two_pow, decide_eq_true h, Bool.true_and, Nat.add_comm]

theorem meWilds_eq_wildcards (m : List Dword) : meWilds m = wildcards m := by
  rw [meWilds, popCount_eq_filter, wildcards]
  exact congrArg List.length (List.filter_congr fun k hk => testBit_meWild m (List.mem_range.mp hk))

/-- A field that a wildcard leaves open, or in which the tags agree. -/
theorem or_beq_iff {w : Bool} {a b : ℕ} : (w || a == b) = true ↔ (w = false → a = b) := by
  cases w <;> simp

theorem meMatches_iff (m : List Dword) (k : Key) : meMatches m k = true ↔ methodMatches m k := by
  simp only [meMatches, methodMatches, Bool.and_eq_true, bne_iff_ne, beq_iff_eq, List.all_eq_true, List.mem_range, and_assoc]
  refine and_congr_right fun _ => and_congr_right fun _ => and_congr_right fun _ => and_congr_right fun _ => and_congr_right fun hn => ?_
  have hk : k.nops ≤ 3 := hn ▸ meNops_le m
  refine forall₂_congr fun j hj => ?_
  have hbit : ∀ f, f < 3 → bit (meWild m) (3 * j + f) = (meDw m 0).testBit (39 + 3 * j + f) := fun f hf => by
    rw [bit_eq_testBit, testBit_meWild m (by omega), Nat.add_assoc]
  rw [hbit 0 (by decide), hbit 1 (by decide), hbit 2 (by decide)]
  simp only [or_beq_iff]

/-! ### The table -/

/-- The entry that `meBest` answers is one of the table that matches, has the fewest wildcards, and comes first among those. -/
def FirstBest (ms : List (ℕ × List Dword)) (k : Key) (b : ℕ × List Dword) : Prop :=
  ∃ pre post, ms = pre ++ b :: post ∧ methodMatches b.2 k ∧ (∀ q ∈ pre, methodMatches q.2 k → wildcards b.2 < wildcards q.2) ∧
    ∀ q ∈ post, methodMatches q.2 k → wildcards b.2 ≤ wildcards q.2

theorem meBest_cons_miss {q : ℕ × List Dword} {ms : List (ℕ × List Dword)} {k : Key} (h : ¬ methodMatches q.2 k) : meBest k (q :: ms) = meBest k ms := by
  rw [← meMatches_iff] at h
  exact if_neg h

theorem meBest_cons_none {q : ℕ × List Dword} {ms : List (ℕ × List Dword)} {k : Key} (h : methodMatches q.2 k) (hr : meBest k ms = none) :
    meBest k (q :: ms) = some q := by
  rw [← meMatches_iff] at h
  simp only [meBest, h, hr, if_true]

theorem meBest_cons_some {q b : ℕ × List Dword} {ms : List (ℕ × List Dword)} {k : Key} (h : methodMatches q.2 k) (hr : meBest k ms = some b) :
    meBest k (q :: ms) = some (if wildcards b.2 < wildcards q.2 then b else q) := by
  rw [← meMatches_iff] at h
  simp only [meBest, h, hr, if_true, meWilds_eq_wildcards]
  split <;> rfl

theorem FirstBest.cons_miss {q b : ℕ × List Dword} {ms : List (ℕ × List Dword)} {k : Key} (hq : methodMatches q.2 k → wildcards b.2 < wildcards q.2)
    (h : FirstBest ms k b) : FirstBest (q :: ms) k b := by
  obtain ⟨pre, post, rfl, hb, hpre, hpost⟩ := h
  exact ⟨q :: pre, post, rfl, hb, List.forall_mem_cons.mpr ⟨hq, hpre⟩, hpost⟩

/-- A matching entry with no more wildcards than the best of the rest is the best. -/
theorem FirstBest.cons_hit {q b : ℕ × List Dword} {ms : List (ℕ × List Dword)} {k : Key} (hq : methodMatches q.2 k) (hle : wildcards q.2 ≤ wildcards b.2)
    (h : FirstBest ms k b) : FirstBest (q :: ms) k q := by
  obtain ⟨pre, post, rfl, -, hpre, hpost⟩ := h
  refine ⟨[], pre ++ b :: post, rfl, hq, fun x hx => (List.not_mem_nil hx).elim, fun x hx hm => ?_⟩
  rcases List.mem_append.mp hx with hx | hx
  · exact hle.trans (hpre x hx hm).le
  · rcases List.mem_cons.mp hx with rfl | hx
    · exact hle
    · exact hle.trans (hpost x hx hm)

/-- What a lookup answers: nothing where no entry matches, else the first of those with the fewest wildcards. -/
theorem meBest_spec (k : Key) (ms : List (ℕ × List Dword)) :
    match meBest k ms with
    | none => ∀ q ∈ ms, ¬ methodMatches q.2 k
    | some b => FirstBest ms k b := by
  induction ms with
  | nil => exact fun q hq => (List.not_mem_nil hq).elim
  | cons q ms ih =>
    by_cases hq : methodMatches q.2 k
    · cases hr : meBest k ms with
      | none =>
        rw [hr] at ih
        rw [meBest_cons_none hq hr]
        exact ⟨[], ms, rfl, hq, fun x hx => (List.not_mem_nil hx).elim, fun x hx hm => (ih x hx hm).elim⟩
      | some b =>
        rw [hr] at ih
        rw [meBest_cons_some hq hr]
        by_cases hw : wildcards b.2 < wildcards q.2
        · rw [if_pos hw]
          exact FirstBest.cons_miss (fun _ => hw) ih
        · rw [if_neg hw]
          exact FirstBest.cons_hit hq (not_lt.mp hw) ih
    · rw [meBest_cons_miss hq]
      cases hr : meBest k ms with
      | none =>
        rw [hr] at ih
        exact List.forall_mem_cons.mpr ⟨hq, ih⟩
      | some b =>
        rw [hr] at ih
        exact FirstBest.cons_miss (fun h => absurd h hq) ih

theorem not_methodMatches_of_meBest {k : Key} {ms : List (ℕ × List Dword)} (h : meBest k ms = none) : ∀ q ∈ ms, ¬ methodMatches q.2 k := by
  have hs := meBest_spec k ms
  rwa [h] at hs

theorem firstBest_of_meBest {k : Key} {ms : List (ℕ × List Dword)} {b : ℕ × List Dword} (h : meBest k ms = some b) : FirstBest ms k b := by
  have hs := meBest_spec k ms
  rwa [h] at hs

theorem FirstBest.mem {ms : List (ℕ × List Dword)} {k : Key} {b : ℕ × List Dword} (h : FirstBest ms k b) : b ∈ ms := by
  obtain ⟨pre, post, rfl, -⟩ := h
  simp

theorem FirstBest.hits {ms : List (ℕ × List Dword)} {k : Key} {b : ℕ × List Dword} (h : FirstBest ms k b) : methodMatches b.2 k := by
  obtain ⟨pre, post, -, hb, -⟩ := h
  exact hb

theorem FirstBest.fewest {ms : List (ℕ × List Dword)} {k : Key} {b q : ℕ × List Dword} (h : FirstBest ms k b) (hq : q ∈ ms) (hm : methodMatches q.2 k) :
    wildcards b.2 ≤ wildcards q.2 := by
  obtain ⟨pre, post, rfl, -, hpre, hpost⟩ := h
  rcases List.mem_append.mp hq with hq | hq
  · exact (hpre q hq hm).le
  · rcases List.mem_cons.mp hq with rfl | hq
    · exact le_rfl
    · exact hpost q hq hm

/-- In a table whose indices rise the best entry has the lowest index of its equals (R374). -/
theorem FirstBest.lowest {ms : List (ℕ × List Dword)} {k : Key} {b q : ℕ × List Dword} (h : FirstBest ms k b) (hs : (ms.map (·.1)).Pairwise (· < ·))
    (hq : q ∈ ms) (hm : methodMatches q.2 k) (hw : wildcards b.2 = wildcards q.2) : b.1 ≤ q.1 := by
  obtain ⟨pre, post, rfl, -, hpre, -⟩ := h
  rcases List.mem_append.mp hq with hq | hq
  · exact absurd (hpre q hq hm) (by omega)
  · rcases List.mem_cons.mp hq with rfl | hq
    · exact le_rfl
    · rw [List.map_append, List.map_cons, List.pairwise_append, List.pairwise_cons] at hs
      obtain ⟨-, ⟨hpost, -⟩, -⟩ := hs
      exact (hpost _ (List.mem_map_of_mem hq)).le

/-- Entries of one index are the same in a table whose indices rise. -/
theorem eq_of_mem_of_fst_eq {ms : List (ℕ × List Dword)} {b q : ℕ × List Dword} (hs : (ms.map (·.1)).Pairwise (· < ·)) (hb : b ∈ ms) (hq : q ∈ ms)
    (h : b.1 = q.1) : b = q :=
  List.inj_on_of_nodup_map (hs.imp ne_of_lt) hb hq h

/-- The lookup finds the best method of a table whose indices rise (R374). -/
theorem meBest_of_bestMethod {ms : List (ℕ × List Dword)} {k : Key} {i : ℕ} {m : List Dword} (hs : (ms.map (·.1)).Pairwise (· < ·))
    (h : BestMethod ms k i m) : meBest k ms = some (i, m) := by
  obtain ⟨hmem, hm, hbest⟩ := h
  cases hb : meBest k ms with
  | none => exact absurd hm (not_methodMatches_of_meBest hb _ hmem)
  | some b =>
    have hf := firstBest_of_meBest hb
    have hle := hf.fewest hmem hm
    rcases hbest b hf.mem hf.hits with hlt | ⟨heq, hi⟩
    · exact absurd hlt (not_lt.mpr hle)
    · have hbi := hf.lowest hs hmem hm heq.symm
      exact congrArg some (eq_of_mem_of_fst_eq hs hf.mem hmem (Nat.le_antisymm hbi hi))

end Sys2Proof.Proofs
end

