-- ==== Sys2Proof/Proofs/UnitEffects.lean ====
section
/-! SUPPORT. What TDSC, MLOOK, CHAPP, TDISP and LAUNCH do as they are performed (R235, R324, R327, R370, R371). -/

namespace Sys2Proof.Proofs

open Sys2Proof Sys2Proof.Machine Sys2Proof.Claims Sys2Proof.Laws

/-! ### TDSC (R370) -/

theorem elAt_dword_low (d : BitVec 512) (k : ℕ) : elAt 64 d k % 2 ^ 32 = elAt 32 d (2 * k) := by
  rw [elAt, elAt, Nat.mod_mod_of_dvd _ (pow_dvd_pow 2 (by decide)), ← Nat.mul_assoc]

theorem elAt_dword_high (d : BitVec 512) (k : ℕ) : elAt 64 d k / 2 ^ 32 % 2 ^ 32 = elAt 32 d (2 * k + 1) := by
  rw [elAt, elAt, show 2 ^ 64 = 2 ^ 32 * 2 ^ 32 from rfl, Nat.mod_mul_right_div_self, Nat.mod_mod, Nat.div_div_eq_div_mul, ← pow_add,
    show 64 * k + 32 = 32 * (2 * k + 1) by ring]

/-- An item of a descriptor, as R370 lists them. -/
theorem descItem_eq_itemOf (d : BitVec 512) (item : ℕ) : descItem d item = itemOf d item := by
  unfold descItem itemOf
  split
  · dsimp only
    rw [dwordAt, elAt_dword_low, elAt_dword_high, toNat_el, toNat_el]
  · rfl

/-- TDSC gives an item of a descriptor, and some value for the flat object (R242). -/
theorem doTdsc_ok {s t : State} {e n : ℕ} {a : Access} {o : Obj} (item : ℕ) (h : s.object n (a.req e) (tokTid a.tok) = .ok o t) :
    doTdsc item e n a s = .ok (⟨.data, lanesOf (match o.c with
      | some c => itemOf c.d item
      | none => (List.range 3).map (Config.flatDescriptor item)), none⟩, 0) t := by
  rw [doTdsc, h]
  cases hc : o.c <;> simp only [XRes.bind, hc, dataTok, ofEls_eq_lanesOf, descItem_eq_itemOf]

/-! ### MLOOK (R371) -/

/-- The key at the operands of MLOOK. -/
def keyOf (a : Access) : Key :=
  ⟨(el 32 a.l 0).toNat % 2 ^ 12, Sys2Proof.fld (el 32 a.l 0).toNat 12 2, (List.range 3).map fun j => (el 32 a.r j).toNat % 1024⟩

theorem doMlook_ok {s t : State} {e n : ℕ} {a : Access} {ms : List (ℕ × List Dword)} (h : s.methods n (a.req e) = .ok ms t) :
    doMlook e n a s = .ok (⟨.data, lanesOf (match meBest (keyOf a) ms with
      | some (i, m) => [i, meAction m, wildcards m]
      | none => [0xFFFFFFFF, 0, 0]), none⟩, 0) t := by
  simp only [doMlook, h, XRes.bind, dataTok, ofEls_eq_lanesOf, ← toNat_el, meWilds_eq_wildcards, bits_eq_fld (show 13 + 1 - 12 = 2 from rfl)]
  rfl

theorem meBest_eq_none {k : Key} {ms : List (ℕ × List Dword)} (h : ∀ q ∈ ms, ¬ methodMatches q.2 k) : meBest k ms = none := by
  cases hb : meBest k ms with
  | none => rfl
  | some b => exact absurd (firstBest_of_meBest hb).hits (h b (firstBest_of_meBest hb).mem)

/-! ### Entries (R235, R324, R327) -/

theorem readEntry_ok {s t u : State} {e n : ℕ} {a : Access} {p : Plan} {bs : List Byte} (hp : planEntry n (a.req e) a s = .ok p t)
    (hr : t.readPieces n (pageOf e) p.obj p.pas = .ok bs u) :
    readEntry e n a s = .ok ((List.range 8).map fun i => BitVec.ofNat 64 (little ((bs.drop (8 * i)).take 8))) u := by
  simp only [readEntry, hp, hr, XRes.bind, ofBytes_eq_little]

section

variable {s u : State} {e n : ℕ} {a : Access} {x : Elem} {dw : List Dword} {k : ℕ}

theorem doChapp_waits (hx : s.elem? e = some x) (h : readEntry e n a (s.fenceX n (pageOf e) .ep (if k = 64 then .lk else .ce) .dev) = .ok dw u)
    (hfull : 16 ≤ ((u.part n).eng k).append.length) : doChapp k e n a s = .wait .no u := by
  simp only [doChapp, hx]
  rw [show linkEng = 64 from rfl, h]
  exact if_pos hfull

theorem doChapp_appends (hx : s.elem? e = some x) (h : readEntry e n a (s.fenceX n (pageOf e) .ep (if k = 64 then .lk else .ce) .dev) = .ok dw u)
    (hroom : ((u.part n).eng k).append.length < 16) {l : Launch} (hl : u.launch? x.l = some l) :
    doChapp k e n a s = .ok (numTok ((((u.part n).eng k).given + 1) % 2 ^ 32) none, 0) (u.engAppend n k (rebase l dw)).2 := by
  simp only [doChapp, hx]
  rw [show linkEng = 64 from rfl, h]
  refine (if_neg (Nat.not_le.mpr hroom)).trans ?_
  simp only [hl, dataTok_lane0]
  rfl

/-- An appended entry stands behind the others of the engine with the next sequence number (R314). -/
theorem eng_engAppend (hn : n < u.parts.length) : ((u.engAppend n k dw).2.part n).eng k =
    { (u.part n).eng k with given := (((u.part n).eng k).given + 1) % 2 ^ 32,
                            append := ((u.part n).eng k).append ++ [((((u.part n).eng k).given + 1) % 2 ^ 32, dw)] } := by
  rw [State.engAppend, State.modEng, part_modPart_same _ hn, Part.modEng, Part.eng, look_put_same, Option.getD_some]

theorem doTdisp_waits (h : readEntry e n a (s.accRelease n (pageOf e) a) = .ok dw u) (hfull : 16 ≤ (u.part n).gs.append.length) :
    doTdisp e n a s = .wait .no u := by
  rw [doTdisp, h]
  exact if_pos hfull

/-- A descriptor with the count that marks its completion (R327). -/
def countedEntry (dw : List Dword) (q : ℕ) : List Dword := modAt dw 7 fun d => BitVec.ofNat 64 (putBits d.toNat 31 0 q)

/-- TDISP's descriptor at the graph sequencer. -/
def dispatched (u : State) (n q : ℕ) (dw : List Dword) (src : TaskSrc) : State :=
  u.modPart n fun p => { p with gs := { p.gs with given := q, append := p.gs.append ++ [(dw, src)] } }

theorem doTdisp_appends (h : readEntry e n a (s.accRelease n (pageOf e) a) = .ok dw u) (hroom : (u.part n).gs.append.length < 16) {y : Elem}
    (hy : u.elem? e = some y) :
    doTdisp e n a s = .ok (numTok (((u.part n).gs.given + 1) % 2 ^ 32) none, 0)
      (dispatched u n (((u.part n).gs.given + 1) % 2 ^ 32) (countedEntry dw (((u.part n).gs.given + 1) % 2 ^ 32)) ⟨y.l, e, a.no, a.epi, a.slot⟩) := by
  rw [doTdisp, h]
  refine (if_neg (Nat.not_le.mpr hroom)).trans ?_
  simp only [hy, dataTok_lane0, dispatched, countedEntry]
  rw [← setAt_eq_modAt dw 7 (fun d => BitVec.ofNat 64 (putBits d.toNat 31 0 _)) 0]

theorem doLaunch_waits (h : readEntry e n a (s.accRelease n (pageOf e) a) = .ok dw u) (hfull : 16 ≤ (u.part n).append.length) :
    doLaunch k e n a s = .wait .no u := by
  rw [doLaunch, h]
  exact if_pos hfull

/-- A launch entry with its queue (R235). -/
def queuedEntry (dw : List Dword) (k : ℕ) : List Dword := modAt dw 3 fun d => BitVec.ofNat 64 (putBits d.toNat 60 58 k)

theorem doLaunch_appends (h : readEntry e n a (s.accRelease n (pageOf e) a) = .ok dw u) (hroom : (u.part n).append.length < 16) :
    doLaunch k e n a s = .ok (numTok ((u.part n).placeIn k) none, 0) (u.modPart n fun p => { p with append := p.append ++ [(queuedEntry dw k, k)] }) := by
  rw [doLaunch, h]
  refine (if_neg (Nat.not_le.mpr hroom)).trans ?_
  simp only [dataTok_lane0, queuedEntry]

end

/-! ### The statement -/

/-- Settles O25: each instruction by its own lemma. -/
theorem unitEffects : Obligations.UnitEffects := by
  refine ⟨fun s t e n item a o hop h => ?_, fun s t e n a ms hop h hs => ?_, fun s t u e n a p bs hp hr => readEntry_ok hp hr,
    fun s u e n a x dw hx hlen hn => ⟨fun k hop h => ?_, fun hop h => ?_, fun k hop h => ?_⟩⟩
  · have hdo : accDo a e n s = _ := (show _ = doTdsc item e n a s by rw [accDo, hop]).trans (doTdsc_ok item h)
    exact ⟨fun c hc _ => by rw [hdo, hc], fun hc => ⟨_, hdo⟩⟩
  · have hdo : accDo a e n s = _ := (show _ = doMlook e n a s by rw [accDo, hop]).trans (doMlook_ok h)
    refine ⟨fun i m hb => ?_, fun hno => ?_⟩
    · rw [hdo, keyOf, meBest_of_bestMethod hs hb]
    · rw [hdo, keyOf, meBest_eq_none hno]
  · have hdo : accDo a e n s = doChapp k e n a s := by rw [accDo, hop]
    rw [hdo]
    exact ⟨doChapp_waits hx h, fun hroom l hl => ⟨_, rebase l dw, doChapp_appends hx h hroom hl, rfl, rebasedEntry_rebase l hlen, eng_engAppend hn⟩⟩
  · have hdo : accDo a e n s = doTdisp e n a s := by rw [accDo, hop]
    rw [hdo]
    refine ⟨doTdisp_waits h, fun hroom y hy =>
      ⟨_, countedEntry dw _, doTdisp_appends h hroom hy, rfl, fieldSet_modAt (by omega) (by decide) (by decide), ?_⟩⟩
    rw [dispatched, part_modPart_same _ hn]
  · have hdo : accDo a e n s = doLaunch k e n a s := by rw [accDo, hop]
    rw [hdo]
    refine ⟨doLaunch_waits h, fun hroom => ⟨_, queuedEntry dw k, doLaunch_appends h hroom, rfl, fieldSet_modAt (by omega) (by decide) (by decide), ?_⟩⟩
    rw [part_modPart_same _ hn]

end Sys2Proof.Proofs
end

