-- ==== Sys2Proof/Proofs/LaunchChain.lean ====
section
/-! SUPPORT. The launch chain (R221, R222): an entry that joins its queue, and the address of the next one, which is read once a later entry has been appended. -/

namespace Sys2Proof.Proofs

open Sys2Proof Sys2Proof.Machine Sys2Proof.Claims Sys2Proof.Laws

/-! ### Reads through path CE -/

/-- A change of the partition that leaves PRNG, PRLIM and its key alone changes no read. -/
theorem readView_modPart {f : Part → Part} (s : State) (n : ℕ) (hf : ∀ p, ((f p).prng, (f p).prlim, (f p).memKey) = (p.prng, p.prlim, p.memKey)) :
    readView n (s.modPart n f) = readView n s :=
  congrArg (fun v => (s.mem, s.iommu, v)) (part_modPart_keeps (fun p : Part => (p.prng, p.prlim, p.memKey)) s n n hf)

theorem ioDword_of_readView {s t : State} {n : ℕ} (h : readView n t = readView n s) (a : ℕ) : t.ioDword n a = s.ioDword n a := by
  simp only [State.ioDword, State.ioRead, ioReadGo_of_readView h]

/-! ### The next entry's address (R222) -/

theorem chainOpen_iff (tail head : Word) : chainOpen tail head = true ↔ 1 ≤ (tail - head).toNat ∧ (tail - head).toNat < 2 ^ 31 := by
  rw [chainOpen, Bool.and_eq_true, decide_eq_true_eq, decide_eq_true_eq]

theorem lowersTail_iff (old new : Word) : lowersTail old new = true ↔ 2 ^ 31 ≤ (new - old).toNat := by rw [lowersTail, decide_eq_true_eq]

section

variable {s : State} {n : ℕ}

theorem lcNext_stays (h : (s.part n).lcDue = false ∨ chainOpen (s.part n).lctail (s.part n).lchead = false) : s.lcNext n = s := by
  rw [State.lcNext]
  exact if_pos (by rcases h with h | h <;> simp [h])

theorem lcNext_reads (hdue : (s.part n).lcDue = true) (hopen : chainOpen (s.part n).lctail (s.part n).lchead = true) {d : ℕ}
    (h : s.ioDword n ((s.part n).lcbase.toNat + 8) = some d) :
    s.lcNext n = s.modPart n fun p => { p with lcbase := BitVec.ofNat 64 d, lcDue := false } := by
  simp only [State.lcNext, hdue, hopen, h]
  rfl

theorem lcNext_fails (hdue : (s.part n).lcDue = true) (hopen : chainOpen (s.part n).lctail (s.part n).lchead = true)
    (h : s.ioDword n ((s.part n).lcbase.toNat + 8) = none) : s.lcNext n = s.modPart n fun p => { p with lcCflt := true, lcDue := false } := by
  simp only [State.lcNext, hdue, hopen, h]
  rfl

/-- Reading the next address changes only LCBASE, CFLT and whether it is due. -/
theorem lcNext_part (s : State) (n : ℕ) : ∃ b c d, (s.lcNext n).part n = { s.part n with lcbase := b, lcCflt := c, lcDue := d } := by
  by_cases hn : n < s.parts.length
  · unfold State.lcNext
    dsimp only
    split
    · exact ⟨_, _, _, rfl⟩
    · split <;> exact ⟨_, _, _, part_modPart_same _ hn⟩
  · have hdefault : (s.lcNext n).part n = s.part n := by
      rw [lcNext_stays (.inl (by rw [part_eq_default (not_lt.mp hn)]))]
    exact ⟨_, _, _, hdefault⟩

/-! ### Writes of the chain's registers (R221, R424, R425) -/

theorem lctailWrite_ignored (h : (s.part n).answers = false) (v : ℕ) : exec (.lctailWrite n v) s = .next s := by
  show execLctailWrite n v s = _
  rw [execLctailWrite, h]
  rfl

theorem lcbaseWrite_ignored (h : (s.part n).answers = false) (v : ℕ) : exec (.lcbaseWrite n v) s = .next s := by
  show execLcbaseWrite n v s = _
  rw [execLcbaseWrite, h]
  rfl

theorem lcbaseWrite_answers (h : (s.part n).answers = true) (v : Dword) : exec (.lcbaseWrite n v.toNat) s =
    .next (s.modPart n fun p => { p with lcbase := v, lcCflt := false, lcDue := false }) := by
  show execLcbaseWrite n v.toNat s = _
  rw [execLcbaseWrite, h, BitVec.ofNat_toNat, BitVec.setWidth_eq]
  rfl

theorem lctailWrite_lowers (h : (s.part n).answers = true) {v : Word} (hv : 2 ^ 31 ≤ (v - (s.part n).lctail).toNat) :
    exec (.lctailWrite n v.toNat) s = .next (s.modPart n fun p => { p with lcBack := true }) := by
  show execLctailWrite n v.toNat s = _
  rw [execLctailWrite, h, BitVec.ofNat_toNat, BitVec.setWidth_eq, (lowersTail_iff ..).mpr hv]
  rfl

theorem lctailWrite_appends (h : (s.part n).answers = true) {v : Word} (hv : (v - (s.part n).lctail).toNat < 2 ^ 31) :
    exec (.lctailWrite n v.toNat) s = .next ((s.modPart n fun p => { p with lctail := v }).lcNext n) := by
  show execLctailWrite n v.toNat s = _
  have hlow : lowersTail (s.part n).lctail v = false := by
    rw [← Bool.not_eq_true, lowersTail_iff]
    exact not_le.mpr hv
  rw [execLctailWrite, h, BitVec.ofNat_toNat, BitVec.setWidth_eq, hlow]
  rfl

section

variable (h : (s.part n).answers = true) {v : Word} (hv : (v - (s.part n).lctail).toNat < 2 ^ 31)

/-- The state with a longer chain. -/
def lengthened (s : State) (n : ℕ) (v : Word) : State := s.modPart n fun p => { p with lctail := v }

include h in
theorem lengthened_part : (lengthened s n v).part n = { s.part n with lctail := v } := part_modPart_of_answers _ h

theorem lengthened_ioDword (a : ℕ) : (lengthened s n v).ioDword n a = s.ioDword n a := by
  refine ioDword_of_readView (readView_modPart s n ?_) a
  exact fun _ => rfl

/-- Whether a later entry has been appended behind the last one taken. -/
def Later (p : Part) (v : Word) : Prop := 1 ≤ (v - p.lchead).toNat ∧ (v - p.lchead).toNat < 2 ^ 31

include h in
theorem lengthened_open : chainOpen ((lengthened s n v).part n).lctail ((lengthened s n v).part n).lchead = true ↔ Later (s.part n) v := by
  rw [lengthened_part h, chainOpen_iff]
  rfl

include h in
theorem lengthened_due : ((lengthened s n v).part n).lcDue = (s.part n).lcDue := congrArg (·.lcDue) (lengthened_part h)

include h in
theorem lengthened_next : (lengthened s n v).ioDword n (((lengthened s n v).part n).lcbase.toNat + 8) = s.ioDword n ((s.part n).lcbase.toNat + 8) := by
  rw [lengthened_ioDword, lengthened_part h]

include h hv

theorem lctailWrite_closed (hno : (s.part n).lcDue = false ∨ ¬ Later (s.part n) v) : exec (.lctailWrite n v.toNat) s = .next (lengthened s n v) := by
  refine (lctailWrite_appends h hv).trans (congrArg _ (lcNext_stays ?_))
  refine hno.imp (fun hdue => ?_) fun hl => ?_
  · exact (lengthened_due h).trans hdue
  · exact Bool.not_eq_true _ ▸ (lengthened_open h).not.mpr hl

theorem lctailWrite_reads (hdue : (s.part n).lcDue = true) (hl : Later (s.part n) v) {d : ℕ} (hd : s.ioDword n ((s.part n).lcbase.toNat + 8) = some d) :
    exec (.lctailWrite n v.toNat) s = .next ((lengthened s n v).modPart n fun p => { p with lcbase := BitVec.ofNat 64 d, lcDue := false }) :=
  (lctailWrite_appends h hv).trans
    (congrArg _ (lcNext_reads ((lengthened_due h).trans hdue) ((lengthened_open h).mpr hl) ((lengthened_next h).trans hd)))

theorem lctailWrite_fails (hdue : (s.part n).lcDue = true) (hl : Later (s.part n) v) (hd : s.ioDword n ((s.part n).lcbase.toNat + 8) = none) :
    exec (.lctailWrite n v.toNat) s = .next ((lengthened s n v).modPart n fun p => { p with lcCflt := true, lcDue := false }) :=
  (lctailWrite_appends h hv).trans
    (congrArg _ (lcNext_fails ((lengthened_due h).trans hdue) ((lengthened_open h).mpr hl) ((lengthened_next h).trans hd)))

end

/-! ### An entry that joins its queue (R222, R223) -/

variable {dw : List Dword} {q iova : ℕ} {dev : Bool}

theorem waitsNamed_iff (p : Part) (dw : List Dword) :
    waitsNamed p dw ↔ (p.wengOk (bits (dw.getD 4 0).toNat 63 56) && p.wengOk (bits (dw.getD 5 0).toNat 63 56)) = true := by
  simp only [waitsNamed, List.mem_cons, List.not_mem_nil, or_false, forall_eq_or_imp, forall_eq, Bool.and_eq_true]
  rfl

theorem enqueue_named (h : waitsNamed (s.part n) dw) : s.enqueue n dw q iova dev = ((s.modPart n fun p =>
    { p with taken := setAt p.taken q (((s.part n).taken.getD q 0 + 1) % 2 ^ 32) }).modPart n fun p =>
      { p with queues := modAt p.queues q (· ++ [taken (s.part n) dw q iova dev]) }) := by
  rw [waitsNamed_iff] at h
  exact if_pos h

theorem enqueue_unnamed (h : ¬ waitsNamed (s.part n) dw) : s.enqueue n dw q iova dev = (s.modPart n fun p =>
    { p with taken := setAt p.taken q (((s.part n).taken.getD q 0 + 1) % 2 ^ 32) }).completeEntry n q (taken (s.part n) dw q iova dev).place 0
      (stageRec 0x55 0 0) := by
  rw [waitsNamed_iff] at h
  exact if_neg h

theorem enqueue_named_part (hn : n < s.parts.length) (h : waitsNamed (s.part n) dw) : (s.enqueue n dw q iova dev).part n =
    { s.part n with taken := setAt (s.part n).taken q (((s.part n).taken.getD q 0 + 1) % 2 ^ 32),
                    queues := modAt (s.part n).queues q (· ++ [taken (s.part n) dw q iova dev]) } := by
  rw [enqueue_named h, part_modPart_same _ (by simpa using hn), part_modPart_same _ hn]

theorem enqueue_unnamed_part (hn : n < s.parts.length) (h : ¬ waitsNamed (s.part n) dw) : (s.enqueue n dw q iova dev).part n =
    { s.part n with taken := setAt (s.part n).taken q (((s.part n).taken.getD q 0 + 1) % 2 ^ 32), qseq := modAt (s.part n).qseq q (· + 1),
                    msi := modAt (s.part n).msi 0 (· + 1) } := by
  rw [enqueue_unnamed h, completeEntry_part_eq _ _ _ _ (by simpa using hn), part_modPart_same _ hn]

/-- What of a partition stands of its launch chain and its append buffer. -/
def chainOf (p : Part) : List (List Dword × ℕ) × Word × Word × Dword × Bool × Bool := (p.append, p.lchead, p.lctail, p.lcbase, p.lcDue, p.lcCflt)

/-- An entry joins a queue of its partition and leaves the chain alone. -/
theorem enqueue_enqueued (hn : n < s.parts.length) (hqueue : q < (s.part n).queues.length) (hqseq : q < (s.part n).qseq.length) :
    Enqueued (s.part n) dw q iova dev ((s.enqueue n dw q iova dev).part n) ∧ chainOf ((s.enqueue n dw q iova dev).part n) = chainOf (s.part n) := by
  by_cases h : waitsNamed (s.part n) dw
  · rw [enqueue_named_part hn h]
    exact ⟨⟨fun _ => ⟨getD_modAt_same _ _ hqueue, rfl⟩, fun hno => absurd h hno⟩, rfl⟩
  · rw [enqueue_unnamed_part hn h]
    exact ⟨⟨fun hyes => absurd hyes h, fun _ => ⟨rfl, getD_modAt_same _ _ hqseq⟩⟩, rfl⟩

/-- Where an entry stands in its queue no read has changed. -/
theorem readView_enqueue_named (h : waitsNamed (s.part n) dw) : readView n (s.enqueue n dw q iova dev) = readView n s := by
  rw [enqueue_named h]
  refine (readView_modPart _ n ?_).trans (readView_modPart _ n ?_)
  · exact fun _ => rfl
  · exact fun _ => rfl

/-! ### An entry taken (R222, R235) -/

/-- The append buffer without its first entry. -/
def unappended (s : State) (n : ℕ) (rest : List (List Dword × ℕ)) : State := s.modPart n fun p => { p with append := rest }

/-- The chain one entry on, the address of the next entry to be read. -/
def advanced (s : State) (n : ℕ) : State := s.modPart n fun p => { p with lchead := p.lchead + 1, lcDue := true }

theorem take_appended (hen : (s.part n).enable = true) {rest : List (List Dword × ℕ)} (h : (s.part n).append = (dw, q) :: rest) :
    exec (.takeLaunchEntry n) s = .next ((unappended s n rest).enqueue n dw q 0 true) := by
  show execTakeLaunchEntry n s = _
  simp only [execTakeLaunchEntry, hen, h]
  rfl

section

variable (hen : (s.part n).enable = true) (happ : (s.part n).append = []) (hflt : (s.part n).lcCflt = false)
  (hopen : chainOpen (s.part n).lctail (s.part n).lchead = true)

include hen happ hflt hopen

theorem take_fails (h : (s.part n).lcbase.toNat % 64 ≠ 0 ∨ s.ioDwords n (s.part n).lcbase.toNat 8 = none) :
    exec (.takeLaunchEntry n) s = .next (s.modPart n fun p => { p with lcCflt := true }) := by
  show execTakeLaunchEntry n s = _
  have hnone : (if (s.part n).lcbase.toNat % 64 = 0 then s.ioDwords n (s.part n).lcbase.toNat 8 else none) = none := by
    rw [ite_eq_right_iff]
    exact fun h0 => h.resolve_left (not_not.mpr h0)
  simp only [execTakeLaunchEntry, hen, happ, hflt, hopen, hnone]
  rfl

theorem take_chained (halign : (s.part n).lcbase.toNat % 64 = 0) (h : s.ioDwords n (s.part n).lcbase.toNat 8 = some dw) :
    exec (.takeLaunchEntry n) s = .next (((advanced s n).enqueue n dw (queueOf dw) (s.part n).lcbase.toNat false).lcNext n) := by
  show execTakeLaunchEntry n s = _
  simp only [execTakeLaunchEntry, hen, happ, hflt, hopen, halign, if_true, h]
  rfl

end

/-- The state in which an entry of the host chain has joined its queue. -/
def joined (s : State) (n : ℕ) (dw : List Dword) : State := (advanced s n).enqueue n dw (queueOf dw) (s.part n).lcbase.toNat false

theorem advanced_part (hn : n < s.parts.length) : (advanced s n).part n = { s.part n with lchead := (s.part n).lchead + 1, lcDue := true } :=
  part_modPart_same _ hn

theorem queueOf_lt (dw : List Dword) : queueOf dw < 8 := Nat.mod_lt _ (by decide)

theorem joined_enqueued (hn : n < s.parts.length) (hqueues : (s.part n).queues.length = 8) (hqseq : (s.part n).qseq.length = 8) :
    Enqueued (s.part n) dw (queueOf dw) (s.part n).lcbase.toNat false ((joined s n dw).part n) ∧
      chainOf ((joined s n dw).part n) = chainOf { s.part n with lchead := (s.part n).lchead + 1, lcDue := true } := by
  have h := enqueue_enqueued (s := advanced s n) (dw := dw) (q := queueOf dw) (iova := (s.part n).lcbase.toNat) (dev := false) (n := n)
    (by simpa [advanced] using hn) (by rw [advanced_part hn]; exact hqueues ▸ queueOf_lt dw) (by rw [advanced_part hn]; exact hqseq ▸ queueOf_lt dw)
  rwa [advanced_part hn] at h

/-- The reads of a state in which a named entry has joined its queue. -/
theorem joined_ioDword (hn : n < s.parts.length) (h : waitsNamed (s.part n) dw) (a : ℕ) : (joined s n dw).ioDword n a = s.ioDword n a := by
  have hnamed : waitsNamed ((advanced s n).part n) dw := by
    rw [advanced_part hn]
    exact h
  refine ioDword_of_readView ((readView_enqueue_named hnamed).trans (readView_modPart s n ?_)) a
  exact fun _ => rfl

theorem parts_length_joined (s : State) (n : ℕ) (dw : List Dword) : (joined s n dw).parts.length = s.parts.length := by
  by_cases h : waitsNamed ((advanced s n).part n) dw
  · rw [joined, enqueue_named h]
    simp [advanced]
  · rw [joined, enqueue_unnamed h]
    simp [advanced, State.completeEntry, QEntry.place, taken, State.msi]

/-- What the address of the next entry becomes as an entry of the host chain is taken: it stays, still to be read, where none has been appended, and is read
where one has (R222). -/
theorem joined_lcNext (hn : n < s.parts.length) (hflt : (s.part n).lcCflt = false)
    (h : chainOf ((joined s n dw).part n) = chainOf { s.part n with lchead := (s.part n).lchead + 1, lcDue := true }) :
    let t := (joined s n dw).lcNext n
    let left := ((s.part n).lctail - ((s.part n).lchead + 1)).toNat
    (left = 0 ∨ 2 ^ 31 ≤ left → (t.part n).lcbase = (s.part n).lcbase ∧ (t.part n).lcDue = true) ∧
    (1 ≤ left → left < 2 ^ 31 → waitsNamed (s.part n) dw → (t.part n).lcDue = false ∧
      (∀ d, s.ioDword n ((s.part n).lcbase.toNat + 8) = some d → (t.part n).lcbase = BitVec.ofNat 64 d ∧ (t.part n).lcCflt = false) ∧
      (s.ioDword n ((s.part n).lcbase.toNat + 8) = none → (t.part n).lcCflt = true)) := by
  intro t left
  simp only [chainOf, Prod.mk.injEq] at h
  obtain ⟨-, hhead, htail, hbase, hdue, hcflt⟩ := h
  have hopen : chainOpen ((joined s n dw).part n).lctail ((joined s n dw).part n).lchead = true ↔ 1 ≤ left ∧ left < 2 ^ 31 := by
    rw [hhead, htail, chainOpen_iff]
  refine ⟨fun hno => ?_, fun h1 h2 hw => ?_⟩
  · have hclosed : chainOpen ((joined s n dw).part n).lctail ((joined s n dw).part n).lchead = false := by
      rw [← Bool.not_eq_true, hopen]
      omega
    simp only [t, lcNext_stays (.inr hclosed)]
    exact ⟨hbase, hdue⟩
  · have hn' : n < (joined s n dw).parts.length := by rwa [parts_length_joined]
    have hread := joined_ioDword hn hw ((s.part n).lcbase.toNat + 8)
    rw [← hbase] at hread ⊢
    cases hd : (joined s n dw).ioDword n (((joined s n dw).part n).lcbase.toNat + 8) with
    | some d =>
      rw [← hread, hd]
      simp only [t, lcNext_reads hdue (hopen.mpr ⟨h1, h2⟩) hd, part_modPart_same _ hn', Option.some.injEq, reduceCtorEq, false_imp_iff, and_true]
      exact ⟨trivial, fun d' hd' => ⟨hd' ▸ rfl, hcflt.trans hflt⟩⟩
    | none =>
      rw [← hread, hd]
      simp only [t, lcNext_fails hdue (hopen.mpr ⟨h1, h2⟩) hd, part_modPart_same _ hn', reduceCtorEq, false_imp_iff, implies_true, and_self]

end

/-! ### The statement -/

/-- Settles O47: the writes of LCTAIL and LCBASE, and the entry that is taken, of the append buffer or of the host chain. -/
theorem launchChainTaken : Obligations.LaunchChainTaken := by
  intro s n
  refine ⟨fun h v => ⟨lctailWrite_ignored h v, lcbaseWrite_ignored h v⟩, fun h v => ⟨fun hv => ?tail, lctailWrite_lowers h⟩,
    fun h v => lcbaseWrite_answers h v, fun hen hqueues hqseq => ?take⟩
  case tail => exact ⟨lctailWrite_closed h hv, fun hdue hl => ⟨fun d hd => lctailWrite_reads h hv hdue hl hd, lctailWrite_fails h hv hdue hl⟩⟩
  case take =>
    have hn := lt_length_of_enable hen
    refine ⟨fun dw q rest happ hq => ?buffer, fun happ hflt h1 h2 => ?chain⟩
    case buffer =>
      have hpart : (unappended s n rest).part n = { s.part n with append := rest } := part_modPart_same _ hn
      obtain ⟨henq, hchain⟩ := enqueue_enqueued (s := unappended s n rest) (n := n) (dw := dw) (q := q) (iova := 0) (dev := true)
        (by simpa [unappended] using hn) (by rw [hpart]; exact hqueues ▸ hq) (by rw [hpart]; exact hqseq ▸ hq)
      rw [hpart] at henq hchain
      simp only [chainOf, Prod.mk.injEq] at hchain
      obtain ⟨happend, hhead, -⟩ := hchain
      exact ⟨_, take_appended hen happ, happend, hhead, henq⟩
    case chain =>
      have hopen := (chainOpen_iff _ _).mpr ⟨h1, h2⟩
      refine ⟨take_fails hen happ hflt hopen, fun dw halign hdw => ⟨_, take_chained hen happ hflt hopen halign hdw, ?_⟩⟩
      obtain ⟨henq, hchain⟩ := joined_enqueued (dw := dw) hn hqueues hqseq
      obtain ⟨b, c, d, hnext⟩ := lcNext_part (joined s n dw) n
      refine ⟨?_, ?_, joined_lcNext hn hflt hchain⟩
      · refine (congrArg (·.lchead) hnext).trans ?_
        exact congrArg (fun v => v.2.1) hchain
      · show Enqueued _ _ _ _ _ (((joined s n dw).lcNext n).part n)
        rw [hnext]
        exact henq

end Sys2Proof.Proofs
end

