-- ==== Sys2Proof/Proofs/SequencerTasks.lean ====
section
/-! SUPPORT. The tasks of a graph sequencer (R372 to R378): what a change of one task leaves, and what writes, acquires and releases leave of the partitions. -/

namespace Sys2Proof.Proofs

open Sys2Proof Sys2Proof.Machine Sys2Proof.Claims Sys2Proof.Laws

/-! ### The sequencer -/

section

variable {s : State} {n q : ℕ}

theorem modGs_gs (f : Sequencer → Sequencer) (h : n < s.parts.length) : ((s.modGs n f).part n).gs = f (s.part n).gs :=
  congrArg Part.gs (part_modPart_same _ h)

@[simp] theorem modGs_parts_length (s : State) (n : ℕ) (f : Sequencer → Sequencer) : (s.modGs n f).parts.length = s.parts.length := modAt_length ..

/-- A partition's launches are not the sequencer's. -/
@[simp] theorem modGs_launches (s : State) (n m : ℕ) (f : Sequencer → Sequencer) : ((s.modGs n f).part m).launches = (s.part m).launches :=
  part_modPart_keeps Part.launches _ _ _ fun _ => rfl

@[simp] theorem modGs_region (s : State) (n : ℕ) (f : Sequencer → Sequencer) (r : RegionRef) : (s.modGs n f).region? r = s.region? r := by
  simp only [State.region?, State.launch?, modGs_launches]

/-- A change of the launches is none of the sequencer. -/
@[simp] theorem modRegion_gs (s : State) (r : RegionRef) (f : Region → Region) (m : ℕ) : ((s.modRegion r f).part m).gs = (s.part m).gs :=
  part_modPart_keeps Part.gs _ _ _ fun _ => rfl

@[simp] theorem msi_gs (s : State) (n v m : ℕ) : ((s.msi n v).part m).gs = (s.part m).gs := part_modPart_keeps Part.gs _ _ _ fun _ => rfl

@[simp] theorem modRegion_parts_length (s : State) (r : RegionRef) (f : Region → Region) : (s.modRegion r f).parts.length = s.parts.length := modAt_length ..

/-! ### Tasks -/

/-- A list of tasks with those of a sequence number changed. -/
def mapTask (q : ℕ) (f : Task → Task) (ts : List Task) : List Task := ts.map fun t => if t.seq = q then f t else t

theorem find_mapTask {f : Task → Task} (hf : ∀ t, (f t).seq = t.seq) (ts : List Task) :
    (mapTask q f ts).find? (·.seq == q) = (ts.find? (·.seq == q)).map f := by
  induction ts with
  | nil => rfl
  | cons t ts ih =>
    rw [mapTask, List.map_cons]
    by_cases h : t.seq = q
    · rw [if_pos h, List.find?_cons_of_pos (by simp [hf, h]), List.find?_cons_of_pos (by simp [h]), Option.map_some]
    · rw [if_neg h, List.find?_cons_of_neg (by simpa using h), List.find?_cons_of_neg (by simpa using h)]
      exact ih

/-- The tasks of other sequence numbers stay. -/
theorem filter_mapTask {f : Task → Task} (hf : ∀ t, (f t).seq = t.seq) (ts : List Task) :
    (mapTask q f ts).filter (·.seq != q) = ts.filter (·.seq != q) := by
  induction ts with
  | nil => rfl
  | cons t ts ih =>
    rw [mapTask, List.map_cons]
    by_cases h : t.seq = q
    · rw [if_pos h, List.filter_cons_of_neg (by simp [hf, h]), List.filter_cons_of_neg (by simp [h])]
      exact ih
    · rw [if_neg h, List.filter_cons_of_pos (by simpa using h), List.filter_cons_of_pos (by simpa using h)]
      exact congrArg _ ih

theorem modTask_gs (f : Task → Task) (h : n < s.parts.length) :
    ((s.modTask n q f).part n).gs = { (s.part n).gs with tasks := mapTask q f (s.part n).gs.tasks } := modGs_gs _ h

theorem modTask_task {f : Task → Task} (hf : ∀ t, (f t).seq = t.seq) (h : n < s.parts.length) : (s.modTask n q f).task? n q = (s.task? n q).map f := by
  rw [State.task?, modTask_gs f h]
  exact find_mapTask hf _

@[simp] theorem modTask_parts_length (s : State) (n q : ℕ) (f : Task → Task) : (s.modTask n q f).parts.length = s.parts.length := modGs_parts_length ..

@[simp] theorem modTask_elem (s : State) (n q : ℕ) (f : Task → Task) (e : ℕ) : (s.modTask n q f).elem? e = s.elem? e := rfl

@[simp] theorem modTask_region (s : State) (n q : ℕ) (f : Task → Task) (r : RegionRef) : (s.modTask n q f).region? r = s.region? r := modGs_region ..

theorem modTask_stop (s : State) (n q m : ℕ) (f : Task → Task) : ((s.modTask n q f).part m).gs.stop = (s.part m).gs.stop :=
  part_modPart_keeps (fun p => p.gs.stop) _ _ _ fun _ => rfl

theorem seq_of_task {t : Task} (h : s.task? n q = some t) : t.seq = q := by
  simpa using List.find?_some h

/-! ### Pieces -/

/-- A task with a piece changed. -/
def withPiece (i : ℕ) (f : Piece → Piece) (t : Task) : Task := { t with pieces := modAt t.pieces i f, wait := .no }

theorem modPiece_eq (s : State) (n q i : ℕ) (f : Piece → Piece) : s.modPiece n q i f = s.modTask n q (withPiece i f) := rfl

theorem modPiece_task {i : ℕ} {f : Piece → Piece} {t : Task} (h : n < s.parts.length) (ht : s.task? n q = some t) :
    (s.modPiece n q i f).task? n q = some (withPiece i f t) := by
  rw [modPiece_eq, modTask_task (f := withPiece i f) (fun _ => rfl) h, ht, Option.map_some]

/-- A piece that may act is one of the task's. -/
theorem getElem?_of_mem_idlePieces {k i : ℕ} {ps : List Piece} {p : Piece} (h : (i, p) ∈ idlePieces k ps) : k ≤ i ∧ ps[i - k]? = some p := by
  induction ps generalizing k with
  | nil => exact (List.not_mem_nil h).elim
  | cons c ps ih =>
    have htail (h : (i, p) ∈ idlePieces (k + 1) ps) : k ≤ i ∧ (c :: ps)[i - k]? = some p := by
      obtain ⟨hk, hp⟩ := ih h
      refine ⟨by omega, ?_⟩
      rwa [show i - k = i - (k + 1) + 1 by omega, List.getElem?_cons_succ]
    have hhead (h : (i, p) = (k, c)) : k ≤ i ∧ (c :: ps)[i - k]? = some p := by
      obtain ⟨rfl, rfl⟩ := Prod.mk.inj h
      simp
    rw [idlePieces] at h
    split at h
    · exact htail h
    · split at h
      · exact hhead (List.mem_singleton.mp h)
      · exact (List.mem_cons.mp h).elim hhead htail

/-! ### A task that completes (R376) -/

@[simp] theorem taskStatus_parts (s : State) (n : ℕ) (t : Task) : (s.taskStatus n t).parts = s.parts := by
  unfold State.taskStatus
  split
  · exact ioPut_parts ..
  · rfl

theorem finishTask_waits {t : Task} (ht : s.task? n q = some t) (h : t.pieces.any (fun p => !p.done) = true) : s.finishTask n q = s := by
  simp only [State.finishTask, ht]
  exact if_pos (by simp [h])

/-- A cut task whose pieces are all done leaves the sequencer. -/
theorem finishTask_tasks {t : Task} (hn : n < s.parts.length) (ht : s.task? n q = some t) (hcut : t.cut = true) (hstop : t.stopped = false)
    (h : t.pieces.any (fun p => !p.done) = false) : ((s.finishTask n q).part n).gs.tasks = (s.part n).gs.tasks.filter (·.seq != q) := by
  simp only [State.finishTask, ht, hcut, hstop, h]
  have hpart : (s.taskStatus n t).part n = s.part n := by rw [State.part, taskStatus_parts, State.part]
  rw [if_neg (by simp), modGs_gs _ (by simpa using hn), hpart]

@[simp] theorem finishTask_region (s : State) (n q : ℕ) (r : RegionRef) : (s.finishTask n q).region? r = s.region? r := by
  unfold State.finishTask
  split
  · rfl
  · split
    · rfl
    · rw [modGs_region]
      exact region_of_parts r (taskStatus_parts ..)

end

/-! ### What keeps the partitions -/

@[simp] theorem acquireAt_parts (s : State) (page : ℕ) (c : Scope) : (s.acquireAt page c).parts = s.parts := by
  unfold State.acquireAt
  split <;> rfl

@[simp] theorem writeBack_parts (s : State) (n page : ℕ) (l : Line) : (s.writeBack n page l).parts = s.parts := by
  unfold State.writeBack
  split
  · obtain ⟨m, h⟩ := memSetLine_eq s n l.line l.data
    rw [h]
    rfl
  · rfl

@[simp] theorem releaseAt_parts (s : State) (n page : ℕ) (c : Scope) : (s.releaseAt n page c).parts = s.parts := by
  unfold State.releaseAt
  split
  · exact foldl_keeps State.parts _ _ fun t l => writeBack_parts t n page l
  · rfl

@[simp] theorem dropPins_parts (s : State) (hard : Bool) (ps : List (ℕ × ℕ)) : (s.dropPins hard ps).parts = s.parts := by
  induction ps generalizing s with
  | nil => rfl
  | cons p ps ih =>
    rw [State.dropPins, ih]
    rfl

@[simp] theorem freeBufs_parts (s : State) (e : ℕ) : (s.freeBufs e).parts = s.parts := by
  refine foldl_keeps State.parts _ _ fun t b => ?_
  unfold State.freeBuf
  split
  · rfl
  · simp

end Sys2Proof.Proofs
end

