-- ==== Sys2Proof/Proofs/PieceStart.lean ====
section
/-! SUPPORT. PIECE_START (R374, R376, R378): the ways in which a piece fails, and a routine that is sent its descriptor. -/

namespace Sys2Proof.Proofs

open Sys2Proof Sys2Proof.Machine Sys2Proof.Claims Sys2Proof.Laws

/-! ### Failures (R375, R378) -/

/-- A task that has failed with a STATUS. -/
def failedTask (t : Task) (code : ℕ) : Task := { t.withStatus code with stopped := true, wait := .no }

theorem status_failedTask {t : Task} (h : t.dw.length = 8) (code : ℕ) : (failedTask t code).status = code % 256 := by
  obtain ⟨-, -, hfield, -⟩ := fieldSet_modAt (dw := t.dw) (i := 7) (hi := 63) (lo := 56) (v := code) (by omega) (by decide) (by decide)
  rw [Task.status, bits_eq_fld (show 63 + 1 - 56 = 8 from rfl)]
  exact hfield

section

variable {s : State} {n : ℕ} {t : Task} {code cls cause : ℕ} {addr detail : Dword}

/-- A host task has failed in the sequencer's list, and its STATUS is written. -/
def statusWritten (s : State) (n : ℕ) (t : Task) (code : ℕ) : State :=
  (s.taskStatus n (failedTask t code)).modTask n t.seq fun _ => failedTask t code

theorem statusWritten_length (s : State) (n : ℕ) (t : Task) (code : ℕ) : (statusWritten s n t code).parts.length = s.parts.length := by
  rw [statusWritten, modTask_parts_length, taskStatus_parts]

theorem statusWritten_gs (hn : n < s.parts.length) : ((statusWritten s n t code).part n).gs =
    { (s.part n).gs with tasks := mapTask t.seq (fun _ => failedTask t code) (s.part n).gs.tasks } := by
  have hpart : (s.taskStatus n (failedTask t code)).part n = s.part n := by rw [State.part, taskStatus_parts, State.part]
  rw [statusWritten, modTask_gs _ (by rwa [taskStatus_parts]), hpart]

/-- A host task that fails stops the sequencer with a record and sends vector 2 (R378). -/
theorem taskFail_stops (hsrc : t.src = none) (hstop : (s.part n).gs.stop = false) (hw : (s.part n).gs.waiting = none)
    (how : (s.part n).gs.opWaiting = none) : ∃ o, s.taskFail n t code cls cause addr detail = ((statusWritten s n t code).modGs n fun g =>
      { g with stop := true, waiting := some (chainRecord cls cause 0xC0 t.seq detail), opWaiting := o }).msi n 2 := by
  have hboxed : ((s.part n).gs.stop || (s.part n).gs.boxed) = false := by simp [Sequencer.boxed, hstop, hw, how]
  refine ⟨some ((statusWritten s n t code).engineRecord n 0 (chainRecord cls cause 0xC0 t.seq detail)), ?_⟩
  simp only [State.taskFail, hsrc, hboxed, Bool.false_eq_true, if_false]
  rfl

theorem taskFail_host (hn : n < s.parts.length) (hlen : t.dw.length = 8) (hcode : code < 256) (hsrc : t.src = none) (hstop : (s.part n).gs.stop = false)
    (hw : (s.part n).gs.waiting = none) (how : (s.part n).gs.opWaiting = none) :
    TaskFailed s (s.taskFail n t code cls cause addr detail) n t code cls cause detail := by
  obtain ⟨o, hfail⟩ := taskFail_stops (code := code) (cls := cls) (cause := cause) (addr := addr) (detail := detail) hsrc hstop hw how
  rw [hfail, TaskFailed, msi_gs, modGs_gs _ (by rwa [statusWritten_length]), statusWritten_gs hn]
  refine ⟨rfl, rfl, rfl, fun j hj hseq => ?_⟩
  obtain ⟨x, -, rfl⟩ := List.mem_map.mp hj
  by_cases hx : x.seq = t.seq
  · rw [if_pos hx]
    exact ⟨rfl, (status_failedTask hlen code).trans (Nat.mod_eq_of_lt hcode)⟩
  · rw [if_neg hx] at hseq
    exact absurd hseq hx

theorem raise_parts (s : State) (c : Cursor) (cls cause : ℕ) (addr detail : Dword) : (s.raise c cls cause addr detail).parts = s.parts := State_modElem_parts ..

/-- The first trap of an element stands in its fault register, and the element stops (R328, R329). -/
theorem raise_traps {c : Cursor} {x : Elem} (hx : s.elem? c.e = some x) (hfault : x.fault = none) : ∃ y f,
    (s.raise c cls cause addr detail).elem? c.e = some y ∧ y.stopped = true ∧ y.fault = some f ∧ f.cls = cls ∧ f.cause = cause ∧ f.detail = detail ∧
      f.slot = c.slot := by
  obtain ⟨-, hstopped, hnone, -⟩ := trap_holds x { slotFault x c s.cycle cls cause addr detail with pol := (s.part x.l.n).faultPol }
  exact ⟨_, _, raise_elem _ _ _ _ _ _ x hx, hstopped, (hnone hfault).1, rfl, rfl, rfl, rfl⟩

/-- What a TDISP task that fails does: it has failed, and its slot traps where its element still stands (R378). -/
theorem taskFail_sent {src : TaskSrc} (hsrc : t.src = some src) : s.taskFail n t code cls cause addr detail = s.modTask n t.seq (failedTask · code) ∨
    s.taskFail n t code cls cause addr detail = (s.modTask n t.seq (failedTask · code)).raise ⟨src.e, src.no, src.epi, src.slot⟩ cls cause addr detail := by
  simp only [State.taskFail, hsrc]
  split
  · split
    · exact .inr rfl
    · exact .inl rfl
  · exact .inl rfl

theorem taskFail_raises {src : TaskSrc} {x : Elem} (hsrc : t.src = some src) (hx : s.elem? src.e = some x) (hl : x.l = src.l) :
    s.taskFail n t code cls cause addr detail =
      (s.modTask n t.seq (failedTask · code)).raise ⟨src.e, src.no, src.epi, src.slot⟩ cls cause addr detail := by
  simp only [State.taskFail, hsrc, modTask_elem, hx, hl, if_true]
  rfl

/-- A TDISP task that fails traps its slot (R378). -/
theorem taskFail_slot {src : TaskSrc} (hsrc : t.src = some src) : SlotFailed s (s.taskFail n t code cls cause addr detail) t src cls cause detail := by
  refine ⟨?_, fun x hx hl hfault => ?_⟩
  · rcases taskFail_sent hsrc with h | h
    · rw [h, modTask_stop]
    · rw [h, State.part, raise_parts, ← State.part, modTask_stop]
  · rw [taskFail_raises hsrc hx hl]
    obtain ⟨y, f, hy, hstopped, hf, hcls, hcause, hdetail, hslot⟩ :=
      raise_traps (s := s.modTask n t.seq (failedTask · code)) (c := ⟨src.e, src.no, src.epi, src.slot⟩) hx hfault
    exact ⟨y, f, hy, hstopped, hf, hcls, hcause, hdetail, hslot, hsrc⟩

end

/-! ### PIECE_START -/

section

variable {s u : State} {n q i : ℕ} {t : Task} {p : Piece}

/-- The conditions under which a task goes on. -/
structure MayGoOn (s : State) (n q : ℕ) (t : Task) : Prop where
  task : s.task? n q = some t
  enable : (s.part n).enable = true
  cut : t.cut = true
  stopped : t.stopped = false
  wait : t.wait.withholds = false
  status : t.status ≠ 0x65

theorem pieceStart_spent (h : MayGoOn s n q t) (hspent : (s.part n).spent = true) : exec (.pieceStart n q) s = .next s := by
  show execPieceStart n q s = _
  simp only [execPieceStart, h.task, hspent]
  exact if_pos (by simp)

/-- The one piece that may act does, and the step is what comes of it. -/
theorem pieceStart_acts (h : MayGoOn s n q t) (hspent : (s.part n).spent = false) (hidle : idlePieces 0 t.pieces = [(i, p)]) {w : State}
    (hsend : s.sendPiece n t i p = .ok .acted w) : exec (.pieceStart n q) s = .next w := by
  show execPieceStart n q s = _
  have hfirst : State.sendFirst n t [(i, p)] s = .ok .acted w := by
    rw [State.sendFirst, hsend]
    rfl
  simp only [execPieceStart, h.task, hidle, hfirst]
  exact if_neg (by simp [h.enable, h.cut, h.stopped, h.wait, hspent, h.status])

variable {ms : List (ℕ × List Dword)} {j : ℕ} {m : List Dword}

theorem sendPiece_none (hms : s.methods n (.seq n) = .ok ms u) (hb : meBest (t.key p) ms = none) :
    s.sendPiece n t i p = .ok .acted (u.noMethod n t p 0) := by
  simp only [State.sendPiece, hms, XRes.bind, hb]

theorem sendPiece_marker (hms : s.methods n (.seq n) = .ok ms u) (hb : meBest (t.key p) ms = some (j, m)) (ha : meAction m = 3) :
    s.sendPiece n t i p = .ok .acted (u.noMethod n t p 1) := by
  simp only [State.sendPiece, hms, XRes.bind, hb, ha, if_true]

theorem sendPiece_deep (hms : s.methods n (.seq n) = .ok ms u) (hb : meBest (t.key p) ms = some (j, m)) (ha : meAction m = 2) (hd : 2 ≤ p.depth) :
    s.sendPiece n t i p = .ok .acted (u.noMethod n t p 4) := by
  simp only [State.sendPiece, hms, XRes.bind, hb, ha, hd, if_true]
  rfl

theorem sendPiece_routine (hms : s.methods n (.seq n) = .ok ms u) (hb : meBest (t.key p) ms = some (j, m)) (ha : meAction m = 1) :
    s.sendPiece n t i p = u.runPiece n ms t i p m none := by
  simp only [State.sendPiece, hms, XRes.bind, hb, ha, if_true]
  rfl

theorem runPiece_unloaded (hl : (u.part n).launchOf (meImage m) = none) : u.runPiece n ms t i p m none = .ok .acted (u.noMethod n t p 2) := by
  simp only [State.runPiece, hl]

/-- A piece that has no method, with one of the causes of R378, fails. -/
theorem noMethod_fails (h : MayGoOn s n q t) (hspent : (s.part n).spent = false) (hidle : idlePieces 0 t.pieces = [(i, p)]) (hlen : t.dw.length = 8)
    (hn : n < u.parts.length) {cause : ℕ} (hsend : s.sendPiece n t i p = .ok .acted (u.noMethod n t p cause)) :
    (t.src = none → (u.part n).gs.stop = false → (u.part n).gs.waiting = none → (u.part n).gs.opWaiting = none →
      ∃ w, exec (.pieceStart n q) s = .next w ∧ TaskFailed u w n t 0x70 4 cause (t.key p).detail) ∧
    ∀ src, t.src = some src → ∃ w, exec (.pieceStart n q) s = .next w ∧ SlotFailed u w t src 4 cause (t.key p).detail :=
  ⟨fun hsrc hstop hw how => ⟨_, pieceStart_acts h hspent hidle hsend, taskFail_host hn hlen (by decide) hsrc hstop hw how⟩,
    fun _ hsrc => ⟨_, pieceStart_acts h hspent hidle hsend, taskFail_slot hsrc⟩⟩

/-! ### A routine is sent its piece (R376, R405) -/

/-- A section's state after it has been sent a descriptor. -/
def sentTo (g : Region) (dw : List ℕ) (pn : ℕ) : Region :=
  { g with ins := modAt g.ins 7 fun i => { i with q := i.q ++ [dataTok (ofEls 64 dw) none] }, gated := true, tiles := min (g.tiles + pn) (2 ^ 32 - 1) }

/-- The consumers of a section's input p7 acquire at .dev. -/
def inputAcquired (s : State) (g : Region) : State :=
  g.streams.foldl (fun u q => match q.prod, q.cons with
    | .regIn 7, .elem e _ => u.acquireAt (pageOf e) .dev
    | _, _ => u) s

theorem inputAcquired_parts (s : State) (g : Region) : (inputAcquired s g).parts = s.parts := by
  refine foldl_keeps State.parts _ _ fun v q => ?_
  split
  · exact acquireAt_parts ..
  · rfl

theorem armSection_eq (s : State) (r : RegionRef) (g : Region) (dw : List ℕ) (pn : ℕ) :
    s.armSection r g dw pn = (inputAcquired s g).modRegion r fun h => sentTo h dw pn := rfl

theorem armSection_region {r : RegionRef} {g : Region} (h : s.region? r = some g) (dw : List ℕ) (pn : ℕ) :
    (s.armSection r g dw pn).region? r = some (sentTo g dw pn) := by
  rw [armSection_eq, region_modRegion_same, region_of_parts r (inputAcquired_parts s g), h, Option.map_some]

/-- The descriptor's dwords, where a task has three operands' places (R405). -/
theorem el_descriptor (t : Task) (p : Piece) (k : ℕ) (h : p.ops.length = 3) :
    el 64 (ofEls 64 (t.descriptor p none)) k = BitVec.ofNat 64 ((t.descriptor p none).getD k 0) :=
  extract_ofEls 64 _ k (by simp [Task.descriptor, h])

theorem el_ofEls_zero (x : ℕ) (xs : List ℕ) : el 64 (ofEls 64 (x :: xs)) 0 = BitVec.ofNat 64 x := by
  apply BitVec.eq_of_toNat_eq
  rw [toNat_el, elAt, ofEls, packNat, BitVec.toNat_ofNat, BitVec.toNat_ofNat, Nat.mul_zero, Nat.pow_zero, Nat.div_one,
    Nat.mod_mod_of_dvd _ (pow_dvd_pow 2 (by decide)), Nat.add_mul_mod_self_left, Nat.mod_mod]

theorem ofNat_toNat_same (v : Dword) : BitVec.ofNat 64 v.toNat = v := by rw [BitVec.ofNat_toNat, BitVec.setWidth_eq]

theorem ofNat_d (t : Task) (k : ℕ) : BitVec.ofNat 64 (t.d k) = t.dw.getD k 0 := ofNat_toNat_same _

theorem descriptor_eq (t : Task) (p : Piece) :
    t.descriptor p none = t.d 0 :: (p.ops.map (·.toNat) ++ [t.d 4, p.pn * 2 ^ 32 + p.p0, t.d 6, t.d 7]) := by
  simp [Task.descriptor]

/-- The dwords of a routine's descriptor: the task's own around its operands and positions (R405). -/
theorem descriptor_holds (t : Task) (p : Piece) (h : p.ops.length = 3) :
    (∀ k, k < 3 → el 64 (ofEls 64 (t.descriptor p none)) (k + 1) = p.ops.getD k 0) ∧ el 64 (ofEls 64 (t.descriptor p none)) 4 = t.dw.getD 4 0 ∧
      el 64 (ofEls 64 (t.descriptor p none)) 5 = BitVec.ofNat 64 (p.pn * 2 ^ 32 + p.p0) ∧ el 64 (ofEls 64 (t.descriptor p none)) 6 = t.dw.getD 6 0 ∧
        el 64 (ofEls 64 (t.descriptor p none)) 7 = t.dw.getD 7 0 := by
  simp only [el_descriptor t p _ h]
  rw [descriptor_eq]
  match hops : p.ops, h with
  | [a, b, c], _ =>
    refine ⟨fun k hk => ?_, ofNat_d t 4, rfl, ofNat_d t 6, ofNat_d t 7⟩
    match k, hk with
    | 0, _ => exact ofNat_toNat_same a
    | 1, _ => exact ofNat_toNat_same b
    | 2, _ => exact ofNat_toNat_same c

/-- A piece that its routine runs, in a section. -/
def runningPiece (r : RegionRef) (p : Piece) : Piece := { p with running := some r, conv := none }

/-- The state in which a piece has been sent to its routine. -/
def dispatchedTo (s : State) (n : ℕ) (t : Task) (i : ℕ) (p : Piece) (r : RegionRef) (g : Region) : State :=
  ((s.armSection r g (t.descriptor p none) p.pn).modPiece n t.seq i (runningPiece r)).modTask n t.seq fun x => { x with pool := x.pool ++ [] }

theorem runPiece_sends {l : Launch} {g : Region} (hl : (u.part n).launchOf (meImage m) = some l) (hg : l.regions[meSect m]? = some g)
    (hfree : ∀ x ∈ (u.part n).gs.tasks, ∀ c ∈ x.pieces, c.running ≠ some ⟨l.ref, meSect m⟩)
    (hbehind : (u.part n).gs.behind ms t.seq i (meImage m, meSect m) = false) :
    u.runPiece n ms t i p m none = .ok .acted (dispatchedTo u n t i p ⟨l.ref, meSect m⟩ g) := by
  have hbusy : ((u.part n).gs.tasks.any fun t => t.pieces.any fun p => p.running == some ⟨l.ref, meSect m⟩) = false := by
    simpa [List.any_eq_false] using hfree
  simp only [State.runPiece, hl, hg]
  exact if_neg (by rw [hbusy, hbehind]; decide)

theorem dispatchedTo_region {r : RegionRef} {g : Region} (h : s.region? r = some g) :
    (dispatchedTo s n t i p r g).region? r = some (sentTo g (t.descriptor p none) p.pn) := by
  rw [dispatchedTo, modTask_region, modPiece_eq, modTask_region, armSection_region h]

theorem task_of_parts {v : State} (h : v.parts = s.parts) : v.task? n q = s.task? n q := by simp only [State.task?, State.part, h]

theorem modRegion_task (s : State) (r : RegionRef) (f : Region → Region) (n q : ℕ) : (s.modRegion r f).task? n q = s.task? n q := by
  rw [State.task?, modRegion_gs, State.task?]

theorem dispatchedTo_task {r : RegionRef} {g : Region} (hn : n < s.parts.length) (h : s.task? n t.seq = some t) (hp : t.pieces[i]? = some p) :
    ∃ v, (dispatchedTo s n t i p r g).task? n t.seq = some v ∧ v.pieces[i]? = some (runningPiece r p) := by
  have harm : (s.armSection r g (t.descriptor p none) p.pn).task? n t.seq = some t := by
    rw [armSection_eq, modRegion_task, task_of_parts (inputAcquired_parts s g), h]
  have hlen : n < (s.armSection r g (t.descriptor p none) p.pn).parts.length := by
    rwa [armSection_eq, modRegion_parts_length, inputAcquired_parts]
  have hpiece := modPiece_task (i := i) (f := runningPiece r) hlen harm
  have htask := modTask_task (q := t.seq) (f := fun x => { x with pool := x.pool ++ [] }) (fun _ => rfl)
    (show n < ((s.armSection r g (t.descriptor p none) p.pn).modPiece n t.seq i (runningPiece r)).parts.length by rwa [modPiece_eq, modTask_parts_length])
  rw [hpiece] at htask
  refine ⟨_, htask, ?_⟩
  exact (getElem?_modAt_same _ _ _).trans (by rw [hp]; rfl)

end

end Sys2Proof.Proofs
end

