-- ==== Sys2Proof/Proofs/PiecesRun.lean ====
section
/-! SUPPORT. PIECE_COMPLETE (R374, R376, R405): the token of a section's output 7 ends the piece that runs there. -/

namespace Sys2Proof.Proofs

open Sys2Proof Sys2Proof.Machine Sys2Proof.Claims Sys2Proof.Laws

section

variable {s : State} {r : RegionRef} {l : Launch} {g : Region} {m e o : ℕ} {q : Stream} {t : Token} {rest : List Token}

/-- A section's output 7 has a token that the sequencer takes. -/
structure EmitsAtSeven (s : State) (r : RegionRef) (l : Launch) (g : Region) (m : ℕ) (q : Stream) (t : Token) (rest : List Token) (e o : ℕ) : Prop where
  launch : s.launch? r.l = some l
  region : s.region? r = some g
  stream : g.outStream 7 = some (m, q)
  out : q.out = t :: rest
  method : g.gated = true ∨ g.method = true
  moves : g.moves = true
  bind : (g.outs.getD 7 {}).bind = none
  suppress : (g.outs.getD 7 {}).suppress = 0
  fromOut : l.fromOut r.k 7 = []
  kind : t.kind ≠ .dusk
  prod : q.prod = .elem e o

/-- The token taken, behind the release of the element that emitted it. -/
def tokenTaken (s : State) (r : RegionRef) (m e : ℕ) : State := (s.releaseAt r.l.n (pageOf e) .dev).modRegion r (·.outGone 7 m false)

/-- The fetch buffers of a section released. -/
def buffersFreed (s : State) (r : RegionRef) : State := (s.regionElems r).foldl (fun y q => y.freeBufs q.1) s

theorem EmitsAtSeven.takes (h : EmitsAtSeven s r l g m q t rest e o) : (!(g.gated || g.method) || !g.moves || (g.outs.getD 7 {}).bind.isSome ||
    !(l.fromOut r.k 7).isEmpty || t.kind == .dusk || decide (0 < (g.outs.getD 7 {}).suppress)) = false := by
  have hmethod : (g.gated || g.method) = true := by simpa using h.method
  have hkind : (t.kind == .dusk) = false := by simpa using h.kind
  rw [hmethod, h.moves, h.bind, h.fromOut, hkind, h.suppress]
  rfl

theorem tokenTaken_gs (s : State) (r : RegionRef) (m e n : ℕ) : ((tokenTaken s r m e).part n).gs = (s.part n).gs := by
  rw [tokenTaken, modRegion_gs, State.part, releaseAt_parts, State.part]

theorem tokenTaken_task (s : State) (r : RegionRef) (m e n k : ℕ) : (tokenTaken s r m e).task? n k = s.task? n k := by
  rw [State.task?, tokenTaken_gs, State.task?]

theorem pieceComplete_waits (h : EmitsAtSeven s r l g m q t rest e o) (hq : s.epQuiet e = false) : exec (.pieceComplete r) s = .next s := by
  show execPieceComplete r s = _
  simp only [execPieceComplete, h.launch, h.region, h.stream, h.out, h.prod, h.takes, Bool.false_eq_true, if_false, Option.map_some, Option.getD_some, hq]
  rfl

/-- A token that belongs to no piece is discarded (R405). -/
theorem pieceComplete_stray (h : EmitsAtSeven s r l g m q t rest e o) (hq : s.epQuiet e = true) (hrun : (s.part r.l.n).gs.runningAt r = none) :
    exec (.pieceComplete r) s = .next (tokenTaken s r m e) := by
  show execPieceComplete r s = _
  rw [← tokenTaken_gs s r m e, tokenTaken] at hrun
  simp only [execPieceComplete, h.launch, h.region, h.stream, h.out, h.prod, h.takes, Bool.false_eq_true, if_false, Option.map_some, Option.getD_some, hq,
    Bool.not_true, hrun]
  rfl

/-- Whether the host has skipped a task (R326). -/
def skippedTask (s : State) (n k : ℕ) : Bool := ((s.task? n k).map fun t => t.status == 0x65).getD false

/-- The state in which a piece has ended, before its task is looked at. -/
def pieceEnded (s : State) (r : RegionRef) (m e k i : ℕ) : State :=
  (buffersFreed (tokenTaken s r m e) r).modPiece r.l.n k i (·.ended (skippedTask s r.l.n k))

/-- A token of a section that runs a piece ends it (R376). -/
theorem pieceComplete_ends (h : EmitsAtSeven s r l g m q t rest e o) (hq : s.epQuiet e = true) {k i : ℕ}
    (hrun : (s.part r.l.n).gs.runningAt r = some (k, i)) : exec (.pieceComplete r) s = .next ((pieceEnded s r m e k i).finishTask r.l.n k) := by
  show execPieceComplete r s = _
  rw [← tokenTaken_gs s r m e, tokenTaken] at hrun
  rw [pieceEnded, skippedTask, ← tokenTaken_task s r m e]
  simp only [execPieceComplete, h.launch, h.region, h.stream, h.out, h.prod, h.takes, Bool.false_eq_true, if_false, Option.map_some, Option.getD_some, hq,
    Bool.not_true, hrun]
  rfl

theorem skippedTask_of {k : Task} {n : ℕ} (hk : s.task? n k.seq = some k) (hstatus : k.status ≠ 0x65) : skippedTask s n k.seq = false := by
  simpa [skippedTask, hk] using hstatus

/-! ### What is left -/

theorem getElem?_of_outStream {c : ℕ} (h : g.outStream c = some (m, q)) : g.streams[m]? = some q := by
  obtain ⟨j, hj⟩ := List.mem_iff_getElem?.mp (List.mem_of_find?_eq_some h)
  rw [getElem?_indexed, Option.map_eq_some_iff] at hj
  obtain ⟨x, hx, heq⟩ := hj
  obtain ⟨rfl, rfl⟩ := Prod.mk.inj heq
  rwa [Nat.zero_add]

/-- The head of output 7 is gone. -/
theorem outGone_streams (h : EmitsAtSeven s r l g m q t rest e o) : ∃ z, (g.outGone 7 m false).streams[m]? = some z ∧ z.out = rest := by
  refine ⟨{ q with out := q.out.tail }, ?_, congrArg List.tail h.out⟩
  rw [Region.outGone, getElem?_modAt_same, getElem?_of_outStream h.stream, Option.map_some]

theorem tokenTaken_region (h : EmitsAtSeven s r l g m q t rest e o) : (tokenTaken s r m e).region? r = some (g.outGone 7 m false) := by
  rw [tokenTaken, region_modRegion_same, region_of_parts r (releaseAt_parts ..), h.region, Option.map_some]

theorem buffersFreed_parts (s : State) (r : RegionRef) : (buffersFreed s r).parts = s.parts := foldl_keeps State.parts _ _ fun v q => freeBufs_parts v q.1

theorem lt_length_of_launch (h : s.launch? r.l = some l) : r.l.n < s.parts.length := by
  by_contra hn
  rw [State.launch?, part_eq_default (not_lt.mp hn)] at h
  exact absurd h (by simp)

theorem pieceEnded_length (s : State) (r : RegionRef) (m e k i : ℕ) : (pieceEnded s r m e k i).parts.length = s.parts.length := by
  rw [pieceEnded, modPiece_eq, modTask_parts_length, buffersFreed_parts, tokenTaken, modRegion_parts_length, releaseAt_parts]

theorem pieceEnded_region (h : EmitsAtSeven s r l g m q t rest e o) (k i : ℕ) : (pieceEnded s r m e k i).region? r = some (g.outGone 7 m false) := by
  rw [pieceEnded, modPiece_eq, modTask_region, region_of_parts r (buffersFreed_parts ..), tokenTaken_region h]

theorem freed_gs (s : State) (r : RegionRef) (m e n : ℕ) : ((buffersFreed (tokenTaken s r m e) r).part n).gs = (s.part n).gs := by
  rw [State.part, buffersFreed_parts, ← State.part, tokenTaken_gs]

theorem pieceEnded_task {k : Task} (hn : r.l.n < s.parts.length) (hk : s.task? r.l.n k.seq = some k) (hstatus : k.status ≠ 0x65) (i : ℕ) :
    (pieceEnded s r m e k.seq i).task? r.l.n k.seq = some (withPiece i (·.ended false) k) := by
  rw [pieceEnded, skippedTask_of hk hstatus]
  refine modPiece_task ?_ ?_
  · rwa [buffersFreed_parts, tokenTaken, modRegion_parts_length, releaseAt_parts]
  · rw [State.task?, freed_gs, ← State.task?, hk]

/-- The tasks of other sequence numbers are as they were. -/
theorem pieceEnded_others (hn : r.l.n < s.parts.length) (k i : ℕ) :
    ((pieceEnded s r m e k i).part r.l.n).gs.tasks.filter (·.seq != k) = (s.part r.l.n).gs.tasks.filter (·.seq != k) := by
  rw [pieceEnded, modPiece_eq, modTask_gs _ (by rwa [buffersFreed_parts, tokenTaken, modRegion_parts_length, releaseAt_parts]), freed_gs]
  exact filter_mapTask (f := withPiece i (·.ended (skippedTask s r.l.n k))) (fun _ => rfl) _

theorem withPiece_pieces {k : Task} {i : ℕ} {c : Piece} {f : Piece → Piece} (hc : k.pieces[i]? = some c) : (withPiece i f k).pieces[i]? = some (f c) := by
  rw [withPiece, getElem?_modAt_same, hc, Option.map_some]

/-- A task goes on where another piece of it is not done. -/
theorem any_undone_withPiece {k : Task} {i j : ℕ} {d : Piece} {f : Piece → Piece} (hd : k.pieces[j]? = some d) (hj : j ≠ i) (h : d.done = false) :
    (withPiece i f k).pieces.any (fun p => !p.done) = true := by
  rw [List.any_eq_true]
  refine ⟨d, List.mem_of_getElem? (i := j) ?_, by simp [h]⟩
  rw [withPiece, getElem?_modAt_other _ _ _ _ (Ne.symm hj), hd]

/-- A task is at its end where a piece of it is done and the others are. -/
theorem all_done_withPiece {k : Task} {i : ℕ} {f : Piece → Piece} (hf : ∀ c, k.pieces[i]? = some c → (f c).done = true)
    (h : ∀ j d, k.pieces[j]? = some d → j ≠ i → d.done = true) : (withPiece i f k).pieces.any (fun p => !p.done) = false := by
  rw [List.any_eq_false]
  intro d hd
  obtain ⟨j, hj⟩ := List.mem_iff_getElem?.mp hd
  by_cases hji : j = i
  · subst hji
    rw [withPiece, getElem?_modAt_same, Option.map_eq_some_iff] at hj
    obtain ⟨c, hc, rfl⟩ := hj
    simp [hf c hc]
  · rw [withPiece, getElem?_modAt_other _ _ _ _ (Ne.symm hji)] at hj
    simp [h j d hj hji]

theorem ended_of_conv_none {c : Piece} (h : c.conv = none) (skipped : Bool) : c.ended skipped = { c with running := none, done := true } := by
  simp only [Piece.ended, h]

theorem ended_of_conv_some {c : Piece} {a x : ℕ} {b : BitVec 10} (h : c.conv = some (a, b, x)) (skipped : Bool) : c.ended skipped =
    { c with ops := setAt c.ops a (BitVec.ofNat 64 (x * 2 ^ 48)), tags := setAt c.tags a b, depth := c.depth + 1,
             running := none, conv := none, done := skipped } := by
  simp only [Piece.ended, h]

/-- A task with a piece that is not done goes on with the piece that has ended. -/
theorem task_goes_on {k : Task} {i : ℕ} {c : Piece} (hn : r.l.n < s.parts.length) (hk : s.task? r.l.n k.seq = some k)
    (hstatus : k.status ≠ 0x65) (hc : k.pieces[i]? = some c)
    (hundone : (withPiece i (·.ended false) k).pieces.any (fun p => !p.done) = true) :
    ∃ v, ((pieceEnded s r m e k.seq i).finishTask r.l.n k.seq).task? r.l.n k.seq = some v ∧ v.pieces[i]? = some (c.ended false) := by
  have htask := pieceEnded_task (m := m) (e := e) hn hk hstatus i
  rw [finishTask_waits htask hundone]
  exact ⟨_, htask, withPiece_pieces hc⟩

/-- A task leaves with its last piece. -/
theorem task_leaves {k : Task} {i : ℕ} (hn : r.l.n < s.parts.length) (hk : s.task? r.l.n k.seq = some k)
    (hstatus : k.status ≠ 0x65) (hcut : k.cut = true) (hstop : k.stopped = false)
    (hdone : (withPiece i (·.ended false) k).pieces.any (fun p => !p.done) = false) :
    (((pieceEnded s r m e k.seq i).finishTask r.l.n k.seq).part r.l.n).gs.tasks = (s.part r.l.n).gs.tasks.filter (·.seq != k.seq) := by
  have htask := pieceEnded_task (m := m) (e := e) hn hk hstatus i
  rw [finishTask_tasks (by rwa [pieceEnded_length]) htask hcut hstop hdone, pieceEnded_others hn]

end

/-! ### The statement -/

/-- Settles O53: the lookup by `meBest_spec`, the failures by `noMethod_fails`, a routine by `runPiece_sends`, and the end of a piece by `pieceComplete_ends`. -/
theorem piecesRun : Obligations.PiecesRun := by
  refine ⟨fun k ms => ⟨fun q hq => ?found, not_methodMatches_of_meBest⟩, fun s u n q i t p ms htask hen hcut hstop hwait hstatus hlen => ?start,
    fun s r l g m q t rest hl hg hstream hout hmethod hmoves hbind hsupp hfrom hkind e o hprod => ?complete⟩
  case found =>
    have hbest := firstBest_of_meBest hq
    simp only [meWilds_eq_wildcards]
    exact ⟨hbest.mem, hbest.hits, fun r hr hm => ⟨hbest.fewest hr hm, fun hs hw => hbest.lowest hs hr hm hw⟩⟩
  case start =>
    have h : MayGoOn s n q t := ⟨htask, hen, hcut, hstop, hwait, hstatus⟩
    obtain rfl := seq_of_task htask
    refine ⟨pieceStart_spent h, fun hspent hidle hms hn => ⟨fun hb => noMethod_fails h hspent hidle hlen hn (sendPiece_none hms hb), fun j m hb =>
      ⟨fun ha => ?_,
      fun ha hd => ?_, fun ha hl => ?_, fun ha l g hl hlaunch href hg hins hfree hbehind hi => ?_⟩⟩⟩
    · exact noMethod_fails h hspent hidle hlen hn (sendPiece_marker hms hb ha)
    · exact noMethod_fails h hspent hidle hlen hn (sendPiece_deep hms hb ha hd)
    · exact noMethod_fails h hspent hidle hlen hn ((sendPiece_routine hms hb ha).trans (runPiece_unloaded hl))
    · have hsend := (sendPiece_routine (i := i) hms hb ha).trans (runPiece_sends hl hg hfree hbehind)
      have hregion : u.region? ⟨l.ref, meSect m⟩ = some g := by rw [State.region?, hlaunch]; exact hg
      obtain ⟨-, hp⟩ := getElem?_of_mem_idlePieces (hidle ▸ List.mem_singleton_self (i, p))
      refine ⟨_, sentTo g (t.descriptor p none) p.pn, ofEls 64 (t.descriptor p none), pieceStart_acts h hspent hidle hsend, dispatchedTo_region hregion, rfl, rfl,
        ?_, ?_, fun hops => (descriptor_holds t p hops).1, fun hops => (descriptor_holds t p hops).2, fun htask' => ?_⟩
      · exact congrArg RIn.q (getD_modAt_same _ _ (by omega))
      · rw [descriptor_eq, el_ofEls_zero, ofNat_d]
      · obtain ⟨v, hv, hpiece⟩ := dispatchedTo_task (r := ⟨l.ref, meSect m⟩) (g := g) hn htask' hp
        exact ⟨v, _, hv, hpiece, rfl⟩
  case complete =>
    have h : EmitsAtSeven s r l g m q t rest e o := ⟨hl, hg, hstream, hout, hmethod, hmoves, hbind, hsupp, hfrom, hkind, hprod⟩
    have hn := lt_length_of_launch hl
    refine ⟨pieceComplete_waits h, fun hq => ?_⟩
    cases hrun : (s.part r.l.n).gs.runningAt r with
    | none =>
      exact ⟨_, _, pieceComplete_stray h hq hrun, tokenTaken_region h, outGone_streams h, fun _ => congrArg (·.tasks) (tokenTaken_gs ..),
        fun _ _ _ hno => nomatch hno⟩
    | some at_ =>
      obtain ⟨seq, j⟩ := at_
      refine ⟨_, _, pieceComplete_ends h hq hrun, (finishTask_region ..).trans (pieceEnded_region h seq j), outGone_streams h, (fun hno => nomatch hno),
        fun k i c hat hk hc hcut hstop hstatus => ?_⟩
      obtain ⟨rfl, rfl⟩ := Prod.mk.inj (Option.some.inj hat)
      have hself : (withPiece j (·.ended false) k).pieces[j]? = some (c.ended false) := withPiece_pieces hc
      refine ⟨fun hconv => ⟨fun hall => ?_, fun ⟨j', d, hd, hne, hundone⟩ => ?_⟩, fun a b x hconv => ?_⟩
      · refine task_leaves hn hk hstatus hcut hstop (all_done_withPiece (fun c' hc' => ?_) hall)
        obtain rfl : c = c' := Option.some.inj (hc.symm.trans hc')
        rw [ended_of_conv_none hconv]
      · obtain ⟨v, hv, hpiece⟩ := task_goes_on (m := m) (e := e) hn hk hstatus hc (any_undone_withPiece hd hne hundone)
        exact ⟨v, _, hv, hpiece, ended_of_conv_none hconv false⟩
      · have hundone : (withPiece j (·.ended false) k).pieces.any (fun p => !p.done) = true :=
          List.any_eq_true.mpr ⟨_, List.mem_of_getElem? hself, by rw [ended_of_conv_some hconv]; rfl⟩
        obtain ⟨v, hv, hpiece⟩ := task_goes_on (m := m) (e := e) hn hk hstatus hc hundone
        exact ⟨v, _, hv, hpiece, ended_of_conv_some hconv false⟩

end Sys2Proof.Proofs
end
